-- ==== Sys2Proof/Word.lean ====
section
/-! DEFINITION. Word types of the 5120 and their plainest arithmetic (spec/00_scope.md R3, R8). -/

namespace Sys2Proof

/-- A byte of memory (R3). -/
abbrev Byte := BitVec 8
/-- One slot of a bundle (02 R36). -/
abbrev Word := BitVec 32
/-- An x, a, g or status register (01 Table 1-10). -/
abbrev DWord := BitVec 64
/-- A handle or a tile descriptor (01 Table 1-10). -/
abbrev QWord := BitVec 128
/-- A vector register of 128 lanes of 32 bits (05 R129). -/
abbrev VWord := BitVec 4096
/-- A bundle of four slots (02 R36). -/
abbrev Bundle := BitVec 128

/-- The field of `n` bits of `w` whose lowest bit is bit `lo`, as a number (R8: x[hi:lo]). -/
def fld (w lo n : Nat) : Nat := w / 2 ^ lo % 2 ^ n

/-- `fld` as bits. -/
def fbv (n lo w : Nat) : BitVec n := BitVec.ofNat n (fld w lo n)

end Sys2Proof
end

