-- ==== Sys2Proof/Config.lean ====
section
/-! DEFINITION. What one 5120 is built and configured with, the values its manual leaves open (constants without a body), and the data that the events of the outside world carry. -/

namespace Sys2Proof

namespace Config

/-- Free byte: the contents of crown bytes the manual calls unspecified (11 R347) or whose layout it does not give
(save areas, R351, R356). Arguments: which time the bytes became unspecified, and the address. Log 9. -/
opaque freeByte : Nat → Nat → Byte
/-- Free choice between the old and the new value of a 32-byte unit of a stopped transfer (09 R277, R282). Log 10. -/
opaque freeChoice : Nat → Nat → Bool
/-- Free outcome of a read of a granule with three or more wrong bits (12 R413): 0 found uncorrectable, 1 found
correct, otherwise corrected to the bits `freeByte` gives. Log 10. -/
opaque freeError : Nat → Nat → BitVec 2
/-- Estimate of the power controller's model: how many throttle actions a cap needs (12 R396). Log 11. -/
opaque throttleModel : Nat → Nat
/-- What the header of an image holds: the digest of its body, the bytes before the digest (magic value, version and length), the
signature, and the body after the header (12 R404); the manual gives no layout. Log 11. -/
opaque imageHeader : List Byte → List Byte × List Byte × List Byte × List Byte
/-- The public keys that a signature may be of: the root key of mask ROM, and those that certificates in flash chain to it (12 R404).
Log 11. -/
opaque signingKeys : List (List Byte)
/-- The retention pattern of the sixteen rows that no instruction reaches, in the spare towers of board 0, as a boot reads it (12 R405).
Log 11. -/
opaque sparePattern : Nat → List Byte
/-- The pattern corrected with the helper data of flash (12 R405); the manual gives no code. Log 11. -/
opaque correctedPattern : List Byte → List Byte → List Byte
/-- The layout of a context's 64 KiB image of its pre-emption save area (11 R351, 12 R399), which the manual does not give: the image that a
power failure makes, by its number, and a place in it. Log 9. -/
opaque contextImage : Nat → Nat → Byte
/-- What a verified configuration image of given bytes holds for a physical core: the physical tower of each logical tower
(01 R26, 12 R403); the manual gives no layout of the image. Log 11. -/
opaque imageRemap : List Byte → Nat → Vector (BitVec 5) 16
/-- The logical core map that a configuration image gives, if it gives one: the physical core of each logical number (01 R33); without
one the cores that `imageCores` names count in increasing order. Log 11. -/
opaque imageMap : List Byte → Option (List Nat)
/-- The physical cores that the map of a configuration image contains, in any order. Log 11. -/
opaque imageCores : List Byte → List Nat
/-- The staging size of a board in units of 4 MiB in a configuration image (08 R234). Log 11. -/
opaque imageStaging : List Byte → Nat → Nat
/-- The scan signature of a core in a configuration image, if it has one (12 R409). Log 11. -/
opaque imageSignature : List Byte → Nat → Option DWord
/-- The signature that the logic self-test of a core gives in a cycle (12 R409). Log 11. -/
opaque scanSignature : Nat → Nat → DWord
/-- Whether the access-control table of another package's stacks admits this package at an address (09 R278). Log 10. -/
opaque remoteAdmits : Nat → Nat → Bool
/-- Whether a board cache of another package holds a line dirty, by its global address over 64 (09 R278). Log 10. -/
opaque remoteDirty : Nat → Bool
/-- Row errors that a lowered sense margin shows (12 R412): row address, cycle. Log 10. -/
opaque marginError : Nat → Nat → Bool

/-- The error term of TwoSum where FP32 does not hold it exactly (03 R96, directed modes): rounding mode and operands.
Log 29. -/
opaque sumError : Nat → Nat → Nat → BitVec 32

/-- Number of boards, cores of a board, cores of the package (01 R14, R18). -/
def cores : Nat := 512
/-- Capacity of one board's HBM in bytes, 192 GB (01 R16, 00 R5). -/
def hbmBytes : Nat := 192 * 10 ^ 9
/-- Retention bound up to 105 °C, in units of 1024 cycles (09 R295). -/
def retention : Nat := 0x29B927
/-- Retention bound above 105 °C (09 R295). -/
def retentionHot : Nat := 0x14DC93
/-- Length of the strike window in cycles (12 R384). -/
def strikeHold : Nat := 32
/-- Cycles from the event that aborts a self-test to its stop: 12 R410 allows 70, and the run of 14 R437 takes 4 (DESIGN CHOICE, log 6). -/
def scanStop : Nat := 4
/-- Images in board flash, in the order of their verification (12 R403): 0 the controller's own firmware, 1 hub firmware, 2 to 17 the stack
controllers', and this one, the configuration image. -/
def configImage : BitVec 5 := 18
/-- Package number of this package in its domain (09 R272); log 3. -/
def packageNo : Nat := 0

end Config

/-- Fields of a strip record of a crown plan (02 R67). -/
structure StripRec where
  index : BitVec 4
  format : BitVec 8
  deriving DecidableEq, Repr

/-- What the runtime registers of an executable (02 R65-R70; 11 R337; 12 R376): the ELF values the loader tests,
the text it loads, its crown plan, its patterns and its trap base. -/
structure Exe where
  elfClass : BitVec 8
  elfData : BitVec 8
  elfType : BitVec 16
  machine : BitVec 16
  eflags : BitVec 32
  base : DWord
  bundles : Nat
  tbase : DWord
  strips : List StripRec
  patterns : List (BitVec 6 × BitVec 1024)
  deriving DecidableEq, Repr

/-- A write of the runtime to the hub's configuration (12 Table 12-14, 11 R338, R353, R355, 09 R266, 08 R231). -/
inductive HubWrite where
  | objectTable (base : DWord) (entries : Nat)
  | strandTable (base : DWord)
  | strandEntry (strand : BitVec 16) (base : DWord) (lcap : BitVec 5)
  | errorStrand (strand : BitVec 16)
  | clasp (number : BitVec 20) (size : BitVec 10) (sync : Bool) (packages : List Nat) (fallback : Option DWord)
  | fallbackPool (objects : List DWord)
  | waitPool (base : DWord) (records : Nat)
  | hostLatency (cycles : Nat)
  | telemetry (base : DWord)
  | routeHops (package : BitVec 8) (hops : Nat)
  | accessControl (package : BitVec 8) (lo hi : Nat)
  | strandVector (vector : BitVec 6) (strand : BitVec 16) (retired : Nat)
  deriving DecidableEq, Repr

/-- One member's contribution to a `reduce` round (09 R293). -/
structure Contribution where
  package : Nat
  rank : Nat
  values : List Word
  deriving DecidableEq, Repr

/-- What a transfer of another core writes here when it completes: pieces at cell addresses, the granules that it poisons, the 4 KiB granules
that it sets full and empty, and the barrier object on which it arrives (09 R272-R275, R288, R290). -/
structure Incoming where
  pieces : List (Nat × List Byte)
  poison : List Nat
  full : List Nat
  empty : List Nat
  arrival : Option Nat
  deriving DecidableEq, Repr

/-- What an event acts on: the operation of an engine by its number, or what the outside world supplies. -/
inductive Payload where
  | none
  | op (id : Nat)
  | slot (k : BitVec 2)
  | region (board : BitVec 3) (region : BitVec 4)
  | tail (strand : BitVec 16) (value : DWord)
  | hub (write : HubWrite)
  | exe (exe : Exe)
  | group (tower : Nat) (group : BitVec 7)
  /-- a tower of another core -/
  | far (core tower : Nat)
  /-- a copy, refill or shift of another core -/
  | incoming (x : Incoming)
  /-- what a particle does to memory: stored bits inverted, by bit address, and granules whose next read errs -/
  | upset (bits reads : List Nat)
  | reduce (clasp : BitVec 20) (others : List Contribution)
  | barrier (clasp : BitVec 20) (arrivals : List Nat)
  | package (number : BitVec 8)
  | page (page : Nat) (present : Bool)
  | access (package : Nat) (addr : DWord) (len : Nat) (data : Option (List Byte))
  | sample (unit : BitVec 2) (value : DWord)
  | value (v : DWord)
  | pins (p : BitVec 3)
  | milliwatts (n : Nat)
  | readings (r : List (Nat × Int))
  | flag (b : Bool)
  | bytes (b : List Byte)
  | scrub (stack : BitVec 4) (corr uncorr repairs : Nat) (bad : List Nat)
  | image (image : BitVec 5) (copyB : Bool) (bytes : List Byte)
  deriving DecidableEq, Repr

end Sys2Proof
end

