-- ==== Sys2Proof/Syntax.lean ====
section
/-! DEFINITION. The operations and events of spec/opcode_table.json, one constructor a row. A field has the width and the name that the row's encoding gives it. The rows BLEND and BRET name a bank 0-5 and have one constructor a bank: the compiler admits at most 244 constructors with fields (log 13). An event has no field: what it acts on stands in State.arg (log 13). -/

namespace Sys2Proof

/-- One operation of a slot, or one event (02 Tables 2-9 to 2-12; 95). -/
inductive Instr where
  /-- R41: REP header that executes the bundle's V, M and T operations count times, stepping the chosen register fields. -/
  | hrep (c : BitVec 10) (v : BitVec 4) (m : BitVec 4) (t : BitVec 4) (s : BitVec 4)
  /-- R105: Integer add modulo 2^64 into x(d). -/
  | add (d : BitVec 5) (a : BitVec 5) (b : BitVec 5) (g : BitVec 3)
  /-- R105: Integer subtract modulo 2^64. -/
  | sub (d : BitVec 5) (a : BitVec 5) (b : BitVec 5) (g : BitVec 3)
  /-- R105: Low 64 bits of the product. -/
  | mul (d : BitVec 5) (a : BitVec 5) (b : BitVec 5) (g : BitVec 3)
  /-- R105: High 64 bits of the signed product. -/
  | mulh (d : BitVec 5) (a : BitVec 5) (b : BitVec 5) (g : BitVec 3)
  /-- R105: High 64 bits of the unsigned product. -/
  | mulhn (d : BitVec 5) (a : BitVec 5) (b : BitVec 5) (g : BitVec 3)
  /-- R105: Signed division truncated toward zero, with fixed results for B = 0 and overflow. -/
  | div (d : BitVec 5) (a : BitVec 5) (b : BitVec 5) (g : BitVec 3)
  /-- R105: Unsigned division. -/
  | divn (d : BitVec 5) (a : BitVec 5) (b : BitVec 5) (g : BitVec 3)
  /-- R105: Signed remainder taking the sign of A. -/
  | rem (d : BitVec 5) (a : BitVec 5) (b : BitVec 5) (g : BitVec 3)
  /-- R105: Unsigned remainder. -/
  | remn (d : BitVec 5) (a : BitVec 5) (b : BitVec 5) (g : BitVec 3)
  /-- R105: Bitwise AND. -/
  | and (d : BitVec 5) (a : BitVec 5) (b : BitVec 5) (g : BitVec 3)
  /-- R105: Bitwise OR. -/
  | or (d : BitVec 5) (a : BitVec 5) (b : BitVec 5) (g : BitVec 3)
  /-- R105: Bitwise XOR. -/
  | xor (d : BitVec 5) (a : BitVec 5) (b : BitVec 5) (g : BitVec 3)
  /-- R105: Shift left by B[5:0]. -/
  | shl (d : BitVec 5) (a : BitVec 5) (b : BitVec 5) (g : BitVec 3)
  /-- R105: Logical shift right by B[5:0]. -/
  | shr (d : BitVec 5) (a : BitVec 5) (b : BitVec 5) (g : BitVec 3)
  /-- R105: Arithmetic shift right by B[5:0]. -/
  | sar (d : BitVec 5) (a : BitVec 5) (b : BitVec 5) (g : BitVec 3)
  /-- R105: Signed minimum. -/
  | min (d : BitVec 5) (a : BitVec 5) (b : BitVec 5) (g : BitVec 3)
  /-- R105: Signed maximum. -/
  | max (d : BitVec 5) (a : BitVec 5) (b : BitVec 5) (g : BitVec 3)
  /-- R105: Unsigned minimum. -/
  | minn (d : BitVec 5) (a : BitVec 5) (b : BitVec 5) (g : BitVec 3)
  /-- R105: Unsigned maximum. -/
  | maxn (d : BitVec 5) (a : BitVec 5) (b : BitVec 5) (g : BitVec 3)
  /-- R105: Count of leading zero bits of x(a). -/
  | clz (d : BitVec 5) (a : BitVec 5) (g : BitVec 3)
  /-- R105: Count of one bits of x(a). -/
  | popc (d : BitVec 5) (a : BitVec 5) (g : BitVec 3)
  /-- R105: Sign-extends the low 8, 16 or 32 bits of x(a). -/
  | sext (d : BitVec 5) (a : BitVec 5) (w : BitVec 2) (g : BitVec 3)
  /-- R105: Zero-extends the low 8, 16 or 32 bits of x(a). -/
  | zext (d : BitVec 5) (a : BitVec 5) (w : BitVec 2) (g : BitVec 3)
  /-- R106: Adds a sign-extended 16-bit immediate. -/
  | addi (d : BitVec 5) (a : BitVec 5) (i : BitVec 16)
  /-- R106: ANDs a sign-extended 16-bit immediate. -/
  | andi (d : BitVec 5) (a : BitVec 5) (i : BitVec 16)
  /-- R106: ORs a zero-extended 16-bit immediate. -/
  | ori (d : BitVec 5) (a : BitVec 5) (i : BitVec 16)
  /-- R106: XORs a zero-extended 16-bit immediate. -/
  | xori (d : BitVec 5) (a : BitVec 5) (i : BitVec 16)
  /-- R107: Shift left by an immediate amount. -/
  | shli (d : BitVec 5) (a : BitVec 5) (n : BitVec 6)
  /-- R107: Logical shift right by an immediate amount. -/
  | shri (d : BitVec 5) (a : BitVec 5) (n : BitVec 6)
  /-- R107: Arithmetic shift right by an immediate amount. -/
  | sari (d : BitVec 5) (a : BitVec 5) (n : BitVec 6)
  /-- R108: Loads a sign-extended 21-bit immediate into x(d). -/
  | li (d : BitVec 5) (i : BitVec 21)
  /-- R108: Replaces 16-bit quarter q of x(d) with an immediate. -/
  | lih (d : BitVec 5) (q : BitVec 2) (i : BitVec 16)
  /-- R109: Compares two x registers and sets a predicate. -/
  | cmp (k : BitVec 3) (a : BitVec 5) (b : BitVec 5) (g : BitVec 3) (c : BitVec 8)
  /-- R109: Compares x(a) with a sign-extended 15-bit immediate and sets a predicate. -/
  | cmpi (k : BitVec 3) (c : BitVec 3) (a : BitVec 5) (i : BitVec 15)
  /-- R110: Selects x(a) or x(b) by a predicate. -/
  | sel (d : BitVec 5) (a : BitVec 5) (b : BitVec 5) (g : BitVec 3) (c : BitVec 3)
  /-- R110: Predicate AND. -/
  | kand (d : BitVec 3) (a : BitVec 3) (b : BitVec 3) (g : BitVec 3)
  /-- R110: Predicate OR. -/
  | kor (d : BitVec 3) (a : BitVec 3) (b : BitVec 3) (g : BitVec 3)
  /-- R110: Predicate XOR. -/
  | kxor (d : BitVec 3) (a : BitVec 3) (b : BitVec 3) (g : BitVec 3)
  /-- R110: Predicate NOT. -/
  | knot (d : BitVec 3) (a : BitVec 3) (g : BitVec 3)
  /-- R112: FP64 addition rounded in rm. -/
  | faddD (d : BitVec 5) (a : BitVec 5) (b : BitVec 5) (g : BitVec 3) (r : BitVec 2)
  /-- R112: FP64 subtraction. -/
  | fsubD (d : BitVec 5) (a : BitVec 5) (b : BitVec 5) (g : BitVec 3) (r : BitVec 2)
  /-- R112: FP64 multiplication. -/
  | fmulD (d : BitVec 5) (a : BitVec 5) (b : BitVec 5) (g : BitVec 3) (r : BitVec 2)
  /-- R112: FP64 division on the shared divider. -/
  | fdivD (d : BitVec 5) (a : BitVec 5) (b : BitVec 5) (g : BitVec 3) (r : BitVec 2)
  /-- R112: FP64 minimum, never rounded. -/
  | fminD (d : BitVec 5) (a : BitVec 5) (b : BitVec 5) (g : BitVec 3)
  /-- R112: FP64 maximum, never rounded. -/
  | fmaxD (d : BitVec 5) (a : BitVec 5) (b : BitVec 5) (g : BitVec 3)
  /-- R113: Correctly rounded FP64 square root. -/
  | fsqrtD (d : BitVec 5) (a : BitVec 5) (g : BitVec 3) (r : BitVec 2)
  /-- R114: FP64 fused multiply-add with one rounding. -/
  | ffmaD (d : BitVec 5) (a : BitVec 5) (b : BitVec 5) (g : BitVec 3) (c : BitVec 5) (r : BitVec 2)
  /-- R115: FP64 compare into a predicate. -/
  | fcmpD (k : BitVec 3) (a : BitVec 5) (b : BitVec 5) (g : BitVec 3) (c : BitVec 3)
  /-- R116: Converts i64 to FP64. -/
  | fcvtDI (d : BitVec 5) (a : BitVec 5) (g : BitVec 3) (r : BitVec 2)
  /-- R116: Converts n64 to FP64. -/
  | fcvtDN (d : BitVec 5) (a : BitVec 5) (g : BitVec 3) (r : BitVec 2)
  /-- R116: Converts FP64 to i64, saturating. -/
  | fcvtID (d : BitVec 5) (a : BitVec 5) (g : BitVec 3) (r : BitVec 2)
  /-- R116: Converts FP64 to n64, saturating. -/
  | fcvtND (d : BitVec 5) (a : BitVec 5) (g : BitVec 3) (r : BitVec 2)
  /-- R116: Converts FP32 to FP64 exactly. -/
  | fcvtDS (d : BitVec 5) (a : BitVec 5) (g : BitVec 3)
  /-- R116: Converts FP64 to FP32. -/
  | fcvtSD (d : BitVec 5) (a : BitVec 5) (g : BitVec 3) (r : BitVec 2)
  /-- R117: Unconditional branch to an offset target. -/
  | br (o : BitVec 26)
  /-- R117: Branch when a predicate is 1. -/
  | brk (k : BitVec 3) (o : BitVec 23)
  /-- R117: Branch when a predicate is 0. -/
  | brnk (k : BitVec 3) (o : BitVec 23)
  /-- R117: Guarded indirect jump that writes the return address to x(d). -/
  | jr (d : BitVec 5) (a : BitVec 5) (g : BitVec 3)
  /-- R117: Writes PC + 16 to x31 and branches. -/
  | call (o : BitVec 26)
  /-- R117: Guarded jump to x31. -/
  | ret (g : BitVec 3)
  /-- R117: Decrements a nonzero counter and branches while it stays nonzero. -/
  | loop (a : BitVec 5) (o : BitVec 21)
  /-- R121: Copies one vector lane into x(d), landing three bundles later. -/
  | xcV (d : BitVec 5) (v : BitVec 6) (l : BitVec 7)
  /-- R121: Copies an a register into x(d). -/
  | xcA (d : BitVec 5) (a : BitVec 4)
  /-- R121: Copies half a tile descriptor or eight pv entries into x(d). -/
  | xcM (d : BitVec 5) (k : BitVec 2) (r : BitVec 3) (q : BitVec 4)
  /-- R121: Copies a g register into x(d). -/
  | xcG (d : BitVec 5) (g : BitVec 2)
  /-- R121: Copies half a handle into x(d). -/
  | xcH (d : BitVec 5) (h : BitVec 4) (q : BitVec 1)
  /-- R124: Reads a status register into x(d) after earlier C writes. -/
  | srd (d : BitVec 5) (s : BitVec 12)
  /-- R125: Writes x(a) to a status register for later bundles, subject to access level. -/
  | swr (a : BitVec 5) (s : BitVec 12)
  /-- R320: Stalls until parked slots drain and every counter is at or below its limit. -/
  | wait (l : BitVec 6) (s : BitVec 6) (c : BitVec 6) (t : BitVec 6)
  /-- R313: Orders later local accesses on one path set after earlier ones on another. -/
  | fence (a : BitVec 6) (b : BitVec 6)
  /-- R315: Orders accesses within a scope with optional acquire or release and scalar-cache invalidation. -/
  | drain (s : BitVec 3) (k : BitVec 2)
  /-- R364: Builds a bead record and appends it to a strand, returning the old tail. -/
  | spawn (d : BitVec 5) (a : BitVec 5) (b : BitVec 5) (c : BitVec 5)
  /-- R365: Suspension point that waits for a cycle or a dependency. -/
  | suspend (a : BitVec 5) (k : BitVec 1)
  /-- R366: Joins or creates a clasp and takes a rank, suspending for gang placement under SYNC. -/
  | join (d : BitVec 5) (a : BitVec 5) (b : BitVec 5)
  /-- R368: Ends the segment, drains, and arrives on the clasp barrier. -/
  | cbar (d : BitVec 5)
  /-- R356: Opens a segment by snapshotting the context and recording write windows. -/
  | seg (a : BitVec 4) (b : BitVec 4) (n : BitVec 2)
  /-- R379: Completes its bundle and then raises trap 0x19 with an immediate. -/
  | trap (i : BitVec 16)
  /-- R409: Saves context and starts the logic self-test of the core. -/
  | scan (d : BitVec 5) (e : BitVec 5)
  /-- R411: Removes or restores a physical core in the logical core map. -/
  | cmap (d : BitVec 5) (a : BitVec 5) (b : BitVec 5)
  /-- R393: Starts the selected monitor units. -/
  | pmonStart (m : BitVec 4)
  /-- R393: Stops the selected monitor units. -/
  | pmonStop (m : BitVec 4)
  /-- R393: Clears the selected monitor units. -/
  | pmonClr (m : BitVec 4)
  /-- R393: Clears and then starts the selected monitor units. -/
  | pmonClrstart (m : BitVec 4)
  /-- R413: Inverts a crown bit with check bits recomputed. -/
  | diagInjFlip (a : BitVec 5) (b : BitVec 5)
  /-- R413: Inverts a crown bit under the old check bits. -/
  | diagInjCerr (a : BitVec 5) (b : BitVec 5)
  /-- R413: Poisons an 8-byte crown granule. -/
  | diagInjPoison (a : BitVec 5) (b : BitVec 5)
  /-- R413: Poisons a 32-byte tower granule. -/
  | diagInjTpoison (a : BitVec 5) (b : BitVec 5)
  /-- R413: Makes a strike report naming the core's region after its bundle completes. -/
  | diagInjStrike (a : BitVec 5) (b : BitVec 5)
  /-- R141: FP32 lane addition. -/
  | vadd (d : BitVec 6) (a : BitVec 6) (b : BitVec 6) (w : BitVec 2) (m : BitVec 3) (r : BitVec 2)
  /-- R141: FP32 lane subtraction. -/
  | vsub (d : BitVec 6) (a : BitVec 6) (b : BitVec 6) (w : BitVec 2) (m : BitVec 3) (r : BitVec 2)
  /-- R141: FP32 lane multiplication. -/
  | vmul (d : BitVec 6) (a : BitVec 6) (b : BitVec 6) (w : BitVec 2) (m : BitVec 3) (r : BitVec 2)
  /-- R141: FP32 fused multiply-add. -/
  | vfma (d : BitVec 6) (a : BitVec 6) (b : BitVec 6) (w : BitVec 2) (m : BitVec 3) (r : BitVec 2)
  /-- R141: FP32 fused multiply-subtract. -/
  | vfms (d : BitVec 6) (a : BitVec 6) (b : BitVec 6) (w : BitVec 2) (m : BitVec 3) (r : BitVec 2)
  /-- R141: FP32 negated fused multiply-add. -/
  | vfnma (d : BitVec 6) (a : BitVec 6) (b : BitVec 6) (w : BitVec 2) (m : BitVec 3) (r : BitVec 2)
  /-- R142: FP32 lane division. -/
  | vdiv (d : BitVec 6) (a : BitVec 6) (b : BitVec 6) (w : BitVec 2) (m : BitVec 3) (r : BitVec 2)
  /-- R142: FP32 lane square root. -/
  | vsqrt (d : BitVec 6) (a : BitVec 6) (w : BitVec 2) (m : BitVec 3) (r : BitVec 2)
  /-- R142: FP32 lane reciprocal. -/
  | vrcp (d : BitVec 6) (a : BitVec 6) (w : BitVec 2) (m : BitVec 3) (r : BitVec 2)
  /-- R142: FP32 lane reciprocal square root. -/
  | vrsq (d : BitVec 6) (a : BitVec 6) (w : BitVec 2) (m : BitVec 3) (r : BitVec 2)
  /-- R143: FP32 lane minimum. -/
  | vmin (d : BitVec 6) (a : BitVec 6) (b : BitVec 6) (w : BitVec 2) (m : BitVec 3)
  /-- R143: FP32 lane maximum. -/
  | vmax (d : BitVec 6) (a : BitVec 6) (b : BitVec 6) (w : BitVec 2) (m : BitVec 3)
  /-- R143: Clears the sign bit of each lane. -/
  | vabs (d : BitVec 6) (a : BitVec 6) (w : BitVec 2) (m : BitVec 3)
  /-- R143: Inverts the sign bit of each lane. -/
  | vneg (d : BitVec 6) (a : BitVec 6) (w : BitVec 2) (m : BitVec 3)
  /-- R144: FP32 compare into a mask register. -/
  | vcmp (d : BitVec 3) (a : BitVec 6) (b : BitVec 6) (w : BitVec 2) (m : BitVec 3) (c : BitVec 2)
  /-- R145: Selects lanes of a or b by a mask. -/
  | vsel (d : BitVec 6) (a : BitVec 6) (b : BitVec 6) (w : BitVec 2) (m : BitVec 3)
  /-- R146: Writes the class of each lane as a power of two. -/
  | vclass (d : BitVec 6) (a : BitVec 6) (w : BitVec 2) (m : BitVec 3)
  /-- R147: FP16 element addition. -/
  | vaddH (d : BitVec 6) (a : BitVec 6) (b : BitVec 6) (w : BitVec 2) (m : BitVec 3) (r : BitVec 2)
  /-- R147: FP16 element subtraction. -/
  | vsubH (d : BitVec 6) (a : BitVec 6) (b : BitVec 6) (w : BitVec 2) (m : BitVec 3) (r : BitVec 2)
  /-- R147: FP16 element multiplication. -/
  | vmulH (d : BitVec 6) (a : BitVec 6) (b : BitVec 6) (w : BitVec 2) (m : BitVec 3) (r : BitVec 2)
  /-- R147: FP16 fused multiply-add. -/
  | vfmaH (d : BitVec 6) (a : BitVec 6) (b : BitVec 6) (w : BitVec 2) (m : BitVec 3) (r : BitVec 2)
  /-- R147: FP16 fused multiply-subtract. -/
  | vfmsH (d : BitVec 6) (a : BitVec 6) (b : BitVec 6) (w : BitVec 2) (m : BitVec 3) (r : BitVec 2)
  /-- R147: FP16 negated fused multiply-add. -/
  | vfnmaH (d : BitVec 6) (a : BitVec 6) (b : BitVec 6) (w : BitVec 2) (m : BitVec 3) (r : BitVec 2)
  /-- R147: FP16 element minimum. -/
  | vminH (d : BitVec 6) (a : BitVec 6) (b : BitVec 6) (w : BitVec 2) (m : BitVec 3)
  /-- R147: FP16 element maximum. -/
  | vmaxH (d : BitVec 6) (a : BitVec 6) (b : BitVec 6) (w : BitVec 2) (m : BitVec 3)
  /-- R147: FP16 element absolute value. -/
  | vabsH (d : BitVec 6) (a : BitVec 6) (w : BitVec 2) (m : BitVec 3)
  /-- R147: FP16 element negation. -/
  | vnegH (d : BitVec 6) (a : BitVec 6) (w : BitVec 2) (m : BitVec 3)
  /-- R144: FP16 compare of the chosen element into a mask. -/
  | vcmpH (e : BitVec 1) (d : BitVec 3) (a : BitVec 6) (b : BitVec 6) (w : BitVec 2) (m : BitVec 3) (c : BitVec 2)
  /-- R145: FP16 select by mask. -/
  | vselH (d : BitVec 6) (a : BitVec 6) (b : BitVec 6) (w : BitVec 2) (m : BitVec 3)
  /-- R147: BF16 element addition. -/
  | vaddB (d : BitVec 6) (a : BitVec 6) (b : BitVec 6) (w : BitVec 2) (m : BitVec 3) (r : BitVec 2)
  /-- R147: BF16 element subtraction. -/
  | vsubB (d : BitVec 6) (a : BitVec 6) (b : BitVec 6) (w : BitVec 2) (m : BitVec 3) (r : BitVec 2)
  /-- R147: BF16 element multiplication. -/
  | vmulB (d : BitVec 6) (a : BitVec 6) (b : BitVec 6) (w : BitVec 2) (m : BitVec 3) (r : BitVec 2)
  /-- R147: BF16 fused multiply-add. -/
  | vfmaB (d : BitVec 6) (a : BitVec 6) (b : BitVec 6) (w : BitVec 2) (m : BitVec 3) (r : BitVec 2)
  /-- R147: BF16 fused multiply-subtract. -/
  | vfmsB (d : BitVec 6) (a : BitVec 6) (b : BitVec 6) (w : BitVec 2) (m : BitVec 3) (r : BitVec 2)
  /-- R147: BF16 negated fused multiply-add. -/
  | vfnmaB (d : BitVec 6) (a : BitVec 6) (b : BitVec 6) (w : BitVec 2) (m : BitVec 3) (r : BitVec 2)
  /-- R147: BF16 element minimum. -/
  | vminB (d : BitVec 6) (a : BitVec 6) (b : BitVec 6) (w : BitVec 2) (m : BitVec 3)
  /-- R147: BF16 element maximum. -/
  | vmaxB (d : BitVec 6) (a : BitVec 6) (b : BitVec 6) (w : BitVec 2) (m : BitVec 3)
  /-- R147: BF16 element absolute value. -/
  | vabsB (d : BitVec 6) (a : BitVec 6) (w : BitVec 2) (m : BitVec 3)
  /-- R147: BF16 element negation. -/
  | vnegB (d : BitVec 6) (a : BitVec 6) (w : BitVec 2) (m : BitVec 3)
  /-- R144: BF16 compare of the chosen element into a mask. -/
  | vcmpB (e : BitVec 1) (d : BitVec 3) (a : BitVec 6) (b : BitVec 6) (w : BitVec 2) (m : BitVec 3) (c : BitVec 2)
  /-- R145: BF16 select by mask. -/
  | vselB (d : BitVec 6) (a : BitVec 6) (b : BitVec 6) (w : BitVec 2) (m : BitVec 3)
  /-- R148: Exact-pair sum into an even and odd register. -/
  | vaddx (d : BitVec 6) (a : BitVec 6) (b : BitVec 6) (w : BitVec 2) (m : BitVec 3) (r : BitVec 2)
  /-- R148: Exact-pair difference. -/
  | vsubx (d : BitVec 6) (a : BitVec 6) (b : BitVec 6) (w : BitVec 2) (m : BitVec 3) (r : BitVec 2)
  /-- R148: Exact-pair product with its error term. -/
  | vmulx (d : BitVec 6) (a : BitVec 6) (b : BitVec 6) (w : BitVec 2) (m : BitVec 3) (r : BitVec 2)
  /-- R149: Double-word addition by a fixed step sequence. -/
  | dwadd (d : BitVec 6) (a : BitVec 6) (b : BitVec 6) (w : BitVec 2) (m : BitVec 3) (r : BitVec 2)
  /-- R149: Double-word subtraction. -/
  | dwsub (d : BitVec 6) (a : BitVec 6) (b : BitVec 6) (w : BitVec 2) (m : BitVec 3) (r : BitVec 2)
  /-- R150: Double-word multiplication. -/
  | dwmul (d : BitVec 6) (a : BitVec 6) (b : BitVec 6) (w : BitVec 2) (m : BitVec 3) (r : BitVec 2)
  /-- R151: Double-word division. -/
  | dwdiv (d : BitVec 6) (a : BitVec 6) (b : BitVec 6) (w : BitVec 2) (m : BitVec 3) (r : BitVec 2)
  /-- R152: Renormalises a double word with TwoSum. -/
  | dwnorm (d : BitVec 6) (a : BitVec 6) (w : BitVec 2) (m : BitVec 3) (r : BitVec 2)
  /-- R155: Tree sum of lanes into lane 0. -/
  | vsum (d : BitVec 6) (a : BitVec 6) (w : BitVec 2) (m : BitVec 3) (r : BitVec 2)
  /-- R156: Compensated tree sum into a pair. -/
  | vsumx (d : BitVec 6) (a : BitVec 6) (w : BitVec 2) (m : BitVec 3) (r : BitVec 2)
  /-- R155: Tree maximum of lanes. -/
  | vmaxr (d : BitVec 6) (a : BitVec 6) (w : BitVec 2) (m : BitVec 3)
  /-- R155: Tree minimum of lanes. -/
  | vminr (d : BitVec 6) (a : BitVec 6) (w : BitVec 2) (m : BitVec 3)
  /-- R158: 32-bit integer lane addition, wrapping or saturating. -/
  | viadd (d : BitVec 6) (a : BitVec 6) (b : BitVec 6) (w : BitVec 2) (m : BitVec 3) (s : BitVec 2)
  /-- R158: 32-bit integer lane subtraction. -/
  | visub (d : BitVec 6) (a : BitVec 6) (b : BitVec 6) (w : BitVec 2) (m : BitVec 3) (s : BitVec 2)
  /-- R158: 32-bit integer lane multiplication, low or high. -/
  | vimul (d : BitVec 6) (a : BitVec 6) (b : BitVec 6) (w : BitVec 2) (m : BitVec 3) (s : BitVec 2)
  /-- R158: 32-bit integer multiply-add. -/
  | vimad (d : BitVec 6) (a : BitVec 6) (b : BitVec 6) (w : BitVec 2) (m : BitVec 3) (s : BitVec 2)
  /-- R158: Bitwise lane AND. -/
  | vand (d : BitVec 6) (a : BitVec 6) (b : BitVec 6) (w : BitVec 2) (m : BitVec 3)
  /-- R158: Bitwise lane OR. -/
  | vor (d : BitVec 6) (a : BitVec 6) (b : BitVec 6) (w : BitVec 2) (m : BitVec 3)
  /-- R158: Bitwise lane XOR. -/
  | vxor (d : BitVec 6) (a : BitVec 6) (b : BitVec 6) (w : BitVec 2) (m : BitVec 3)
  /-- R158: Bitwise lane NOT. -/
  | vnot (d : BitVec 6) (a : BitVec 6) (w : BitVec 2) (m : BitVec 3)
  /-- R158: Lane shift left by register or immediate. -/
  | vshl (d : BitVec 6) (a : BitVec 6) (b : BitVec 6) (w : BitVec 2) (m : BitVec 3) (f : BitVec 1)
  /-- R158: Lane logical shift right. -/
  | vshr (d : BitVec 6) (a : BitVec 6) (b : BitVec 6) (w : BitVec 2) (m : BitVec 3) (f : BitVec 1)
  /-- R158: Lane arithmetic shift right. -/
  | vsar (d : BitVec 6) (a : BitVec 6) (b : BitVec 6) (w : BitVec 2) (m : BitVec 3) (f : BitVec 1)
  /-- R159: Integer lane compare into a mask. -/
  | vicmp (d : BitVec 3) (a : BitVec 6) (b : BitVec 6) (w : BitVec 2) (m : BitVec 3) (c : BitVec 2)
  /-- R160: Mask AND. -/
  | vmand (d : BitVec 3) (a : BitVec 3) (b : BitVec 3) (w : BitVec 2)
  /-- R160: Mask OR. -/
  | vmor (d : BitVec 3) (a : BitVec 3) (b : BitVec 3) (w : BitVec 2)
  /-- R160: Mask XOR. -/
  | vmxor (d : BitVec 3) (a : BitVec 3) (b : BitVec 3) (w : BitVec 2)
  /-- R160: Mask complement. -/
  | vmnot (d : BitVec 3) (a : BitVec 3) (w : BitVec 2)
  /-- R161: Packs FP32 lanes into elements of a strip format, with outlier handling. -/
  | vcvtPack (d : BitVec 6) (a : BitVec 6) (c : BitVec 4) (w : BitVec 2) (m : BitVec 3) (r : BitVec 2)
  /-- R161: Unpacks elements of a strip format into FP32 lanes. -/
  | vcvtUnpack (d : BitVec 6) (a : BitVec 6) (c : BitVec 4) (w : BitVec 2) (m : BitVec 3) (r : BitVec 2)
  /-- R162: Multiplies each lane by a power of two with one rounding. -/
  | vscl (d : BitVec 6) (a : BitVec 6) (b : BitVec 6) (w : BitVec 2) (m : BitVec 3) (r : BitVec 2)
  /-- R157: Correctly rounded 2^A per lane. -/
  | vexp2 (d : BitVec 6) (a : BitVec 6) (w : BitVec 2) (m : BitVec 3) (r : BitVec 2)
  /-- R157: Correctly rounded log2 per lane. -/
  | vlog2 (d : BitVec 6) (a : BitVec 6) (w : BitVec 2) (m : BitVec 3) (r : BitVec 2)
  /-- R157: Correctly rounded tanh per lane. -/
  | vtanh (d : BitVec 6) (a : BitVec 6) (w : BitVec 2) (m : BitVec 3) (r : BitVec 2)
  /-- R165: Permutes lanes of two sources through an active pattern entry. -/
  | vperm (d : BitVec 6) (a : BitVec 6) (b : BitVec 6) (e : BitVec 6)
  /-- R167: Rotates lanes by a 7-bit amount. -/
  | vrot (d : BitVec 6) (a : BitVec 6) (n : BitVec 6) (w : BitVec 2) (m : BitVec 3) (p : BitVec 1)
  /-- R167: Broadcasts one lane to every active lane. -/
  | vbcl (d : BitVec 6) (a : BitVec 6) (n : BitVec 6) (w : BitVec 2) (m : BitVec 3) (p : BitVec 1)
  /-- R168: Broadcasts x(s)[31:0] into the active lanes of a vector register. -/
  | xcX (d : BitVec 6) (x : BitVec 5) (w : BitVec 2) (m : BitVec 3)
  /-- R168: Writes x(s)[31:0] into one lane of a vector register. -/
  | xcXl (d : BitVec 6) (x : BitVec 5) (l : BitVec 7)
  /-- R189: Sets one field of a tile descriptor. -/
  | mdset (m : BitVec 3) (f : BitVec 4) (i : BitVec 15)
  /-- R191: Loads a tile descriptor from crown on path M. -/
  | mdld (m : BitVec 3) (a : BitVec 15)
  /-- R191: Stores a tile descriptor to crown on path M. -/
  | mdst (m : BitVec 3) (a : BitVec 15)
  /-- R192: Preloads a B plane tagged with its descriptor. -/
  | mbld (b : BitVec 3)
  /-- R193: Writes the zero code into every element of a crown tile. -/
  | mzero (c : BitVec 3)
  /-- R196: Merges an outlier list into a product tile. -/
  | moutm (c : BitVec 3) (a : BitVec 3) (b : BitVec 3) (k : BitVec 1) (l : BitVec 1)
  /-- R194: Queues the tile product C := C + A × B in chunk order. -/
  | mma (c : BitVec 3) (a : BitVec 3) (b : BitVec 3) (s : BitVec 2) (z : BitVec 1)
  /-- R195: Queues a product that also forms predicted row and column checksums. -/
  | mmaCk (c : BitVec 3) (a : BitVec 3) (b : BitVec 3) (s : BitVec 2) (z : BitVec 1)
  /-- R211: Queues an in-place LU factorisation with partial pivoting. -/
  | mlu (t : BitVec 3) (z : BitVec 1) (g : BitVec 2) (p : BitVec 2)
  /-- R212: Queues an in-place Cholesky factorisation. -/
  | mchol (t : BitVec 3) (g : BitVec 2) (p : BitVec 2)
  /-- R213: Queues an in-place Householder QR factorisation. -/
  | mqr (t : BitVec 3) (g : BitVec 2) (p : BitVec 2)
  /-- R216: Queues a triangular solve overwriting B. -/
  | mtrsm (b : BitVec 3) (t : BitVec 3) (u : BitVec 1) (x : BitVec 1) (r : BitVec 1) (s : BitVec 1) (z : BitVec 1) (g : BitVec 2)
  /-- R217: Queues a row or column permutation of a tile. -/
  | mperm (t : BitVec 3) (n : BitVec 7) (i : BitVec 1) (f : BitVec 1) (d : BitVec 1) (p : BitVec 2)
  /-- R218: Converts interchange-form pivots to vector form. -/
  | mpiv (n : BitVec 7) (s : BitVec 2) (d : BitVec 2)
  /-- R190: Copies x(s) into a descriptor half, pv entries or a g register. -/
  | xcXMatrix (r : BitVec 3) (x : BitVec 5) (k : BitVec 2) (q : BitVec 4)
  /-- R243: Adds two a registers. -/
  | adda (d : BitVec 4) (a : BitVec 4) (b : BitVec 4)
  /-- R243: Adds a signed immediate to an a register. -/
  | addaImmediate (d : BitVec 4) (a : BitVec 4) (i : BitVec 16)
  /-- R243: Subtracts two a registers. -/
  | suba (d : BitVec 4) (a : BitVec 4) (b : BitVec 4)
  /-- R243: Subtracts a signed immediate from an a register. -/
  | subaImmediate (d : BitVec 4) (a : BitVec 4) (i : BitVec 16)
  /-- R243: Shifts an a register left by a register amount. -/
  | shla (d : BitVec 4) (a : BitVec 4) (b : BitVec 4)
  /-- R243: Shifts an a register left by an immediate amount. -/
  | shlaImmediate (d : BitVec 4) (a : BitVec 4) (n : BitVec 6)
  /-- R244: Loads a sign-extended constant into an a register. -/
  | lia (d : BitVec 4) (i : BitVec 21)
  /-- R245: Derives a narrower handle with reduced rights. -/
  | hder (d : BitVec 4) (s : BitVec 4) (o : BitVec 4) (l : BitVec 4) (k : BitVec 5)
  /-- R246: Sets a handle register to null. -/
  | hnul (d : BitVec 4)
  /-- R247: Reloads a spilled handle from crown, null if its tag is clear. -/
  | hld (h : BitVec 4) (b : BitVec 4) (a : BitVec 4) (i : BitVec 13)
  /-- R247: Spills a handle to crown and sets the unit's tag. -/
  | hst (h : BitVec 4) (b : BitVec 4) (a : BitVec 4) (i : BitVec 13)
  /-- R262: Invalidates scalar-cache lines of a handle range. -/
  | scinvRange (h : BitVec 4) (o : BitVec 4) (l : BitVec 4)
  /-- R263: Writes back, optionally invalidating, board-cache lines of a range. -/
  | bcfl (h : BitVec 4) (o : BitVec 4) (l : BitVec 4) (v : BitVec 1)
  /-- R248: Sign-extending scalar global load. -/
  | ld (x : BitVec 5) (h : BitVec 4) (a : BitVec 4) (s : BitVec 2) (i : BitVec 10)
  /-- R248: Zero-extending scalar global load. -/
  | ldn (x : BitVec 5) (h : BitVec 4) (a : BitVec 4) (s : BitVec 2) (i : BitVec 10)
  /-- R248: Scalar global store. -/
  | st (x : BitVec 5) (h : BitVec 4) (a : BitVec 4) (s : BitVec 2) (i : BitVec 10)
  /-- R249: Contiguous vector global load. -/
  | vld (v : BitVec 6) (h : BitVec 4) (a : BitVec 4) (w : BitVec 2) (i : BitVec 9)
  /-- R249: Contiguous vector global store. -/
  | vst (v : BitVec 6) (h : BitVec 4) (a : BitVec 4) (w : BitVec 2) (i : BitVec 9)
  /-- R250: Strided vector global load. -/
  | vlds (v : BitVec 6) (h : BitVec 4) (a : BitVec 4) (s : BitVec 4) (w : BitVec 2)
  /-- R250: Strided vector global store. -/
  | vsts (v : BitVec 6) (h : BitVec 4) (a : BitVec 4) (s : BitVec 4) (w : BitVec 2)
  /-- R251: Gathers lanes by a crown index vector. -/
  | vgth (v : BitVec 6) (h : BitVec 4) (a : BitVec 4) (j : BitVec 4) (k : BitVec 4) (w : BitVec 2)
  /-- R251: Scatters lanes by a crown index vector. -/
  | vsct (v : BitVec 6) (h : BitVec 4) (a : BitVec 4) (j : BitVec 4) (k : BitVec 4) (w : BitVec 2)
  /-- R252: Raw crown load into an x register. -/
  | cld (x : BitVec 5) (h : BitVec 4) (a : BitVec 4) (s : BitVec 2) (i : BitVec 9)
  /-- R252: Raw crown load into a vector register. -/
  | cldVector (v : BitVec 6) (h : BitVec 4) (a : BitVec 4) (w : BitVec 2) (i : BitVec 8)
  /-- R252: Raw crown store from an x register. -/
  | cst (x : BitVec 5) (h : BitVec 4) (a : BitVec 4) (s : BitVec 2) (i : BitVec 9)
  /-- R252: Raw crown store from a vector register. -/
  | cstVector (v : BitVec 6) (h : BitVec 4) (a : BitVec 4) (w : BitVec 2) (i : BitVec 8)
  /-- R253: Loads 32 bytes per cell from the core's towers. -/
  | tvld (v : BitVec 6) (h : BitVec 4) (a : BitVec 4) (w : BitVec 2) (i : BitVec 9)
  /-- R253: Stores 32 bytes per cell to the core's towers. -/
  | tvst (v : BitVec 6) (h : BitVec 4) (a : BitVec 4) (w : BitVec 2) (i : BitVec 9)
  /-- R255: Reads and checks a port parameter set from crown. -/
  | pcfg (p : BitVec 3) (h : BitVec 4) (a : BitVec 4)
  /-- R258: Binds a port to a parameter set snapshot and starts its walk. -/
  | pgo (k : BitVec 3) (p : BitVec 3)
  /-- R258: Lets pushes land, discards read-ahead and unbinds a port. -/
  | pstop (k : BitVec 3)
  /-- R261: Loads pattern entries into the inactive bank. -/
  | pld (h : BitVec 4) (a : BitVec 4) (e : BitVec 6) (n : BitVec 6)
  /-- R280: Checks and queues a tensor-region copy and writes its promise. -/
  | copy (d : BitVec 4) (h : BitVec 4) (s : BitVec 4) (r : BitVec 4) (a : BitVec 4) (f : BitVec 1) (w : BitVec 1) (t : BitVec 1) (b : BitVec 1)
  /-- R281: Returns the latest current estimate and re-arms promises. -/
  | copyq (d : BitVec 4)
  /-- R281: Returns and clears the transfer status word. -/
  | copyqSt (d : BitVec 4)
  /-- R285: Configures the weight stream over a compressed object range. -/
  | wstr (h : BitVec 4) (o : BitVec 4) (l : BitVec 4) (n : BitVec 4) (p : BitVec 4)
  /-- R286: Broadcasts an HBM block into towers of selected cores of the file. -/
  | frfl (d : BitVec 4) (h : BitVec 4) (s : BitVec 4) (w : BitVec 4) (t : BitVec 4)
  /-- R289: Systolic shift of tower ranges to neighbouring cells. -/
  | shift (r : BitVec 2) (m : BitVec 2) (h : BitVec 4) (s : BitVec 4) (d : BitVec 4) (l : BitVec 4)
  /-- R292: Hands a vector to the collective engine for a package-ordered sum. -/
  | reduce (d : BitVec 4) (h : BitVec 4) (s : BitVec 4) (o : BitVec 4) (k : BitVec 4)
  /-- R325: Atomic integer add. -/
  | atmAdd (o : BitVec 2) (d : BitVec 5) (h : BitVec 4) (a : BitVec 4) (s : BitVec 5) (z : BitVec 1)
  /-- R325: Atomic floating add. -/
  | atmFadd (o : BitVec 2) (d : BitVec 5) (h : BitVec 4) (a : BitVec 4) (s : BitVec 5) (z : BitVec 1)
  /-- R325: Atomic signed minimum. -/
  | atmMin (o : BitVec 2) (d : BitVec 5) (h : BitVec 4) (a : BitVec 4) (s : BitVec 5) (z : BitVec 1)
  /-- R325: Atomic signed maximum. -/
  | atmMax (o : BitVec 2) (d : BitVec 5) (h : BitVec 4) (a : BitVec 4) (s : BitVec 5) (z : BitVec 1)
  /-- R325: Atomic AND. -/
  | atmAnd (o : BitVec 2) (d : BitVec 5) (h : BitVec 4) (a : BitVec 4) (s : BitVec 5) (z : BitVec 1)
  /-- R325: Atomic OR. -/
  | atmOr (o : BitVec 2) (d : BitVec 5) (h : BitVec 4) (a : BitVec 4) (s : BitVec 5) (z : BitVec 1)
  /-- R325: Atomic XOR. -/
  | atmXor (o : BitVec 2) (d : BitVec 5) (h : BitVec 4) (a : BitVec 4) (s : BitVec 5) (z : BitVec 1)
  /-- R325: Atomic exchange. -/
  | atmXchg (o : BitVec 2) (d : BitVec 5) (h : BitVec 4) (a : BitVec 4) (s : BitVec 5) (z : BitVec 1)
  /-- R325: Atomic compare-and-swap. -/
  | atmCas (o : BitVec 2) (d : BitVec 5) (h : BitVec 4) (a : BitVec 4) (s : BitVec 5) (z : BitVec 1)
  /-- R325: Atomic increment, wrapping at S. -/
  | atmInc (o : BitVec 2) (d : BitVec 5) (h : BitVec 4) (a : BitVec 4) (s : BitVec 5) (z : BitVec 1)
  /-- R329: Initialises or invalidates a barrier object and advances its phase. -/
  | bobInit (d : BitVec 5) (h : BitVec 4) (a : BitVec 4) (s : BitVec 5)
  /-- R330: Arrives on a barrier object after a package release drain. -/
  | bobArr (d : BitVec 5) (h : BitVec 4) (a : BitVec 4)
  /-- R331: Waits until a barrier object's phase changes or it is invalid. -/
  | bobWait (d : BitVec 5) (h : BitVec 4) (a : BitVec 4) (s : BitVec 5)
  /-- R334: Sets crown granules full after earlier accesses perform. -/
  | tsetf (h : BitVec 4) (o : BitVec 4) (l : BitVec 4)
  /-- R334: Sets crown granules empty after earlier accesses perform. -/
  | tsete (h : BitVec 4) (o : BitVec 4) (l : BitVec 4)
  /-- R321: Sleeps until a cycle, suspending when it lies beyond sr.sleepmax. -/
  | sleepu (a : BitVec 4)
  /-- R298: Defers normal tower refresh of the core until a cycle. -/
  | tdefer (a : BitVec 4)
  /-- R302: Marks tower rows dead. -/
  | tdead (h : BitVec 4) (o : BitVec 4) (l : BitVec 4)
  /-- R303: Marks HBM kilobytes dead through the stack controllers. -/
  | hdead (h : BitVec 4) (o : BitVec 4) (l : BitVec 4)
  /-- R412: Rereads and rewrites tower rows under lowered margin, optionally marking the tower failed. -/
  | trmw (d : BitVec 4) (h : BitVec 4) (o : BitVec 4) (l : BitVec 4) (k : BitVec 1)
  /-- R264: Copies x(s) into an a register or half a handle. -/
  | xcXAddress (k : BitVec 2) (r : BitVec 4) (x : BitVec 5) (q : BitVec 1)
  /-- R38: An all-zero slot does nothing. -/
  | noOp
  /-- R365: Suspension point that puts the bead at the tail of its resume list. -/
  | yield
  /-- R365: Ends the bead, leaves its clasp, frees its allotments and counts it retired. -/
  | retire
  /-- R367: Leaves the clasp, freeing the rank and lowering open barriers. -/
  | leave
  /-- R362: Closes the segment, releasing the hold buffer. -/
  | sege
  /-- R380: Returns from a trap, restoring level and replaying the window. -/
  | rte
  /-- R381: Drains, stops issue and posts a core-halted record. -/
  | halt
  /-- R166: Swaps the active and inactive pattern banks. -/
  | vpsw
  /-- R197: Lends a vector bank to slot M once its V users complete (bank 0). -/
  | blend0
  /-- R197: Lends a vector bank to slot M once its V users complete (bank 1). -/
  | blend1
  /-- R197: Lends a vector bank to slot M once its V users complete (bank 2). -/
  | blend2
  /-- R197: Lends a vector bank to slot M once its V users complete (bank 3). -/
  | blend3
  /-- R197: Lends a vector bank to slot M once its V users complete (bank 4). -/
  | blend4
  /-- R197: Lends a vector bank to slot M once its V users complete (bank 5). -/
  | blend5
  /-- R197: Returns a lent vector bank to slot V (bank 0). -/
  | bret0
  /-- R197: Returns a lent vector bank to slot V (bank 1). -/
  | bret1
  /-- R197: Returns a lent vector bank to slot V (bank 2). -/
  | bret2
  /-- R197: Returns a lent vector bank to slot V (bank 3). -/
  | bret3
  /-- R197: Returns a lent vector bank to slot V (bank 4). -/
  | bret4
  /-- R197: Returns a lent vector bank to slot V (bank 5). -/
  | bret5
  /-- R262: Invalidates the whole scalar cache. -/
  | scinv
  /-- R282: Stops every incomplete copy and refill of the bead. -/
  | cancel
  /-- R48: A parked V or M operation proceeds once its granule is full or its port has a vector. -/
  | parkedSlotRetry
  /-- R51: A wait exceeds sr.parkmax cycles and trap 0x1A is raised. -/
  | parkedTooLong
  /-- R372: At a bundle boundary the core records the replay window, cause and info and enters the handler. -/
  | trapEntry
  /-- R90: A pending trap 0x13 is taken after the converting operation completes. -/
  | outlierListFull
  /-- R237: A load's data returns and is written to its destination register, decrementing ld. -/
  | loadReturn
  /-- R232: The runtime's retry answer makes the faulted bead eligible to replay. -/
  | translationRetry
  /-- R232: The runtime's fail answer resumes the bead in its trap 0x09 handler. -/
  | translationFail
  /-- R384: A held result becomes final 32 cycles after it was written and outbound traffic leaves. -/
  | strikeWindow
  /-- R385: A strike report discards non-final results of the region's cores and repeats issue. -/
  | strikeReport
  /-- R343: Every 8 cycles the arbiters choose cores or victims for ready strand heads. -/
  | dispatchRound
  /-- R336: A placed bead's registers, handles and strip map are set from its record and it begins issuing. -/
  | beadStart
  /-- R349: The victim stops at a bundle boundary, records its resume window and the core switches banks. -/
  | preemptionHalt
  /-- R351: The victim's context becomes final in its save area and the bank is marked drained. -/
  | contextDrainFinal
  /-- R352: A pre-empted bead's bank becomes active again and its window replays. -/
  | resumption
  /-- R339: The host writes a strand tail register to enqueue records. -/
  | strandTailWrite
  /-- R338: The runtime writes hub configuration tables through the Bastus controller or BAR0. -/
  | hubConfigurationWrite
  /-- R70: The runtime registers an executable, which the loader checks or refuses. -/
  | executableRegistration
  /-- R295: A tower group's normal slot falls due and the group refreshes for 96 cycles. -/
  | normalRefresh
  /-- R297: A group reaching limit or the retention bound is refreshed at once. -/
  | forcedRefresh
  /-- R300: A group refresh ends after 96 cycles and blocked bursts resume. -/
  | groupRefreshEnd
  /-- R298: sr.cycle reaches the deferral end and refresh deferral stops. -/
  | deferralEnd
  /-- R181: The matrix engine starts the next queued tile operation. -/
  | tileOperationStart
  /-- R180: A tile operation's writes are final, its full/empty changes apply and tl falls. -/
  | tileOperationCompletion
  /-- R274: A copy's writes are final, its full/empty flags apply and cp falls. -/
  | copyCompletion
  /-- R288: A broadcast refill's last unit is final in every selected core. -/
  | refillCompletion
  /-- R291: A shift's data phase ends and cp falls 32 cycles later. -/
  | shiftCompletion
  /-- R293: The hub combines a round's contributions and answers every member. -/
  | reduceRound
  /-- R323: The home atomic engine executes a request for a line in arrival order. -/
  | atomicEngineServe
  /-- R331: The engine's answer to a waiting bob.wait reaches the core. -/
  | bobWaitAnswer
  /-- R355: A clasp barrier channel releases its members at the release cycle. -/
  | barrierRelease
  /-- R368: A cbar of a clasp without SYNC not complete within sr.sleepmax becomes a suspension point. -/
  | cbarSuspend
  /-- R321: sr.cycle reaches the wake cycle and late promised operations are tested. -/
  | sleepuWake
  /-- R381: The host's resume answer continues a halted core. -/
  | resume
  /-- R381: The host's reset answer discards both banks' beads and returns the core to service. -/
  | resetCore
  /-- R277: A target package is lost, its routes invalidated and its copies completed with status lost. -/
  | linkDown
  /-- R277: The runtime restores a lost target's route. -/
  | routeRestore
  /-- R231: The runtime's object invalidation makes object table changes take effect. -/
  | objectInvalidation
  /-- R231: A host ATS invalidation completes after accesses using the old translation perform. -/
  | atsInvalidation
  /-- R407: A host access to device-half memory performs at the home memory port. -/
  | cxlMemAccess
  /-- R388: The patrol scrubber reads crown lines, poisoning uncorrectable ones. -/
  | patrolScrub
  /-- R390: A running monitor unit takes a periodic sample and updates its bins. -/
  | monitorSample
  /-- R409: The self-test ends, the context is restored and scan writes its result. -/
  | selfTestEnd
  /-- R394: The PSTEP pins are sampled every 1 µs and accepted when two samples agree. -/
  | pstepSample
  /-- R394: A CXL.io mailbox command sets the commanded power step. -/
  | setPowerStep
  /-- R396: Every 10 µs the power controller applies or releases a throttle action. -/
  | throttleEvaluation
  /-- R401: Every 1 ms each temperature sensor is compared with its neighbours' median. -/
  | sensorCheck
  /-- R399: Power failure halts every core and streams resident contexts to board flash. -/
  | powerFail
  /-- R400: After power returns the runtime may restore beads from a verified image. -/
  | powerReturn
  /-- R403: The Bastus controller verifies and applies each image in order from mask ROM. -/
  | boot
  /-- R406: A mailbox command with a nonce returns a signed attestation report. -/
  | attestation
  /-- R236: A global store, bcfl, hdead, tsetf or tsete performs at its home port, in the stacks or in the full/empty bits, and st falls. -/
  | storePerformed
  /-- R324: A host access to a host-half line held by an atomic engine recalls the line from the engine. -/
  | cxlCacheRecall
  /-- R305: A copy engine of another package reads or writes this package's memory over Molmux, performing at the home port. -/
  | remotePackageAccess
  /-- R16: A remote package's fall-back read reaches a stack's long-reach endpoint, which answers only if its access-control table admits it. -/
  | fallBackReadRequest
  /-- R304: A stack controller completes a scrub pass, poisoning uncorrectable granules and updating the telemetry object. -/
  | stackScrubPass
  /-- R403: The host writes a new image, such as a configuration image, through the CXL.io mailbox. -/
  | imageWrite
  deriving DecidableEq, Repr

end Sys2Proof
end

