-- ==== Sys2Proof/WellFormed.lean ====
section
/-! DEFINITION. Which operations are legal as encoded: the limits on the values of operand fields whose breach raises trap 0x01 (02 R46, R59; 05 R140; 06 R188-R190; 08 R239, R242; 09 R279; 10 R312-R315; 11 R363, R364, R369). -/

namespace Sys2Proof

/-- The numbers of Table 4-7 (04 R123); any other raises trap 0x01 at every level. -/
def statusDefined (s : BitVec 12) : Bool :=
  let n := s.toNat
  decide (n ≤ 0x00E) || decide (0x010 ≤ n ∧ n ≤ 0x017) || decide (0x020 ≤ n ∧ n ≤ 0x02F) || decide (0x040 ≤ n ∧ n ≤ 0x07F)

/-- The operation's fields hold only values its entry defines. -/
def Instr.wf : Instr → Bool
  | .noOp => true
  | .hrep _ _ _ _ _ => true
  | .add _ _ _ _ => true
  | .sub _ _ _ _ => true
  | .mul _ _ _ _ => true
  | .mulh _ _ _ _ => true
  | .mulhn _ _ _ _ => true
  | .div _ _ _ _ => true
  | .divn _ _ _ _ => true
  | .rem _ _ _ _ => true
  | .remn _ _ _ _ => true
  | .and _ _ _ _ => true
  | .or _ _ _ _ => true
  | .xor _ _ _ _ => true
  | .shl _ _ _ _ => true
  | .shr _ _ _ _ => true
  | .sar _ _ _ _ => true
  | .min _ _ _ _ => true
  | .max _ _ _ _ => true
  | .minn _ _ _ _ => true
  | .maxn _ _ _ _ => true
  | .clz _ _ _ => true
  | .popc _ _ _ => true
  | .sext _ _ w _ => w != 3
  | .zext _ _ w _ => w != 3
  | .addi _ _ _ => true
  | .andi _ _ _ => true
  | .ori _ _ _ => true
  | .xori _ _ _ => true
  | .shli _ _ _ => true
  | .shri _ _ _ => true
  | .sari _ _ _ => true
  | .li _ _ => true
  | .lih _ _ _ => true
  | .cmp _ _ _ _ c => decide (c.toNat ≤ 5)
  | .cmpi _ c _ _ => decide (c.toNat ≤ 5)
  | .sel _ _ _ _ _ => true
  | .kand _ _ _ _ => true
  | .kor _ _ _ _ => true
  | .kxor _ _ _ _ => true
  | .knot _ _ _ => true
  | .faddD _ _ _ _ _ => true
  | .fsubD _ _ _ _ _ => true
  | .fmulD _ _ _ _ _ => true
  | .fdivD _ _ _ _ _ => true
  | .fminD _ _ _ _ => true
  | .fmaxD _ _ _ _ => true
  | .fsqrtD _ _ _ _ => true
  | .ffmaD _ _ _ _ _ _ => true
  | .fcmpD _ _ _ _ c => decide (c.toNat ≤ 3)
  | .fcvtDI _ _ _ _ => true
  | .fcvtDN _ _ _ _ => true
  | .fcvtID _ _ _ _ => true
  | .fcvtND _ _ _ _ => true
  | .fcvtDS _ _ _ => true
  | .fcvtSD _ _ _ _ => true
  | .br _ => true
  | .brk _ _ => true
  | .brnk _ _ => true
  | .jr _ _ _ => true
  | .call _ => true
  | .ret _ => true
  | .loop _ _ => true
  | .xcV _ v _ => decide (v.toNat < 48)
  | .xcA _ _ => true
  | .xcM _ k r q => (k == 0 && decide (q.toNat < 2) || k == 1 && decide (r.toNat < 4))
  | .xcG _ _ => true
  | .xcH _ _ _ => true
  | .srd _ s => statusDefined s
  | .swr _ s => statusDefined s
  | .wait _ _ _ _ => true
  | .fence a b => a != 0 && b != 0 && !a.getLsbD 4 && !b.getLsbD 4
  | .drain s _ => decide (s.toNat ≤ 4)
  | .spawn _ _ _ c => decide (1 ≤ c.toNat) && decide (c.toNat ≤ 27)
  | .suspend _ _ => true
  | .yield => true
  | .retire => true
  | .join _ _ _ => true
  | .leave => true
  | .cbar _ => true
  | .seg a b n => n != 3 && (decide (1 ≤ n.toNat) || a == 0) && (decide (2 ≤ n.toNat) || b == 0)
  | .sege => true
  | .trap _ => true
  | .rte => true
  | .halt => true
  | .scan _ _ => true
  | .cmap _ _ _ => true
  | .pmonStart _ => true
  | .pmonStop _ => true
  | .pmonClr _ => true
  | .pmonClrstart _ => true
  | .diagInjFlip _ _ => true
  | .diagInjCerr _ _ => true
  | .diagInjPoison _ _ => true
  | .diagInjTpoison _ _ => true
  | .diagInjStrike _ _ => true
  | .vadd d _ _ w _ _ => w != 3 && decide (d.toNat < 56)
  | .vsub d _ _ w _ _ => w != 3 && decide (d.toNat < 56)
  | .vmul d _ _ w _ _ => w != 3 && decide (d.toNat < 56)
  | .vfma d _ _ w _ _ => w != 3 && decide (d.toNat < 56)
  | .vfms d _ _ w _ _ => w != 3 && decide (d.toNat < 56)
  | .vfnma d _ _ w _ _ => w != 3 && decide (d.toNat < 56)
  | .vdiv d _ _ w _ _ => w != 3 && decide (d.toNat < 56)
  | .vsqrt d _ w _ _ => w != 3 && decide (d.toNat < 56)
  | .vrcp d _ w _ _ => w != 3 && decide (d.toNat < 56)
  | .vrsq d _ w _ _ => w != 3 && decide (d.toNat < 56)
  | .vmin d _ _ w _ => w != 3 && decide (d.toNat < 56)
  | .vmax d _ _ w _ => w != 3 && decide (d.toNat < 56)
  | .vabs d _ w _ => w != 3 && decide (d.toNat < 56)
  | .vneg d _ w _ => w != 3 && decide (d.toNat < 56)
  | .vcmp _ _ _ w _ _ => w != 3
  | .vsel d _ _ w _ => w != 3 && decide (d.toNat < 56)
  | .vclass d _ w _ => w != 3 && decide (d.toNat < 56)
  | .vaddH d _ _ w _ _ => w != 3 && decide (d.toNat < 56)
  | .vsubH d _ _ w _ _ => w != 3 && decide (d.toNat < 56)
  | .vmulH d _ _ w _ _ => w != 3 && decide (d.toNat < 56)
  | .vfmaH d _ _ w _ _ => w != 3 && decide (d.toNat < 56)
  | .vfmsH d _ _ w _ _ => w != 3 && decide (d.toNat < 56)
  | .vfnmaH d _ _ w _ _ => w != 3 && decide (d.toNat < 56)
  | .vminH d _ _ w _ => w != 3 && decide (d.toNat < 56)
  | .vmaxH d _ _ w _ => w != 3 && decide (d.toNat < 56)
  | .vabsH d _ w _ => w != 3 && decide (d.toNat < 56)
  | .vnegH d _ w _ => w != 3 && decide (d.toNat < 56)
  | .vcmpH _ _ _ _ w _ _ => w != 3
  | .vselH d _ _ w _ => w != 3 && decide (d.toNat < 56)
  | .vaddB d _ _ w _ _ => w != 3 && decide (d.toNat < 56)
  | .vsubB d _ _ w _ _ => w != 3 && decide (d.toNat < 56)
  | .vmulB d _ _ w _ _ => w != 3 && decide (d.toNat < 56)
  | .vfmaB d _ _ w _ _ => w != 3 && decide (d.toNat < 56)
  | .vfmsB d _ _ w _ _ => w != 3 && decide (d.toNat < 56)
  | .vfnmaB d _ _ w _ _ => w != 3 && decide (d.toNat < 56)
  | .vminB d _ _ w _ => w != 3 && decide (d.toNat < 56)
  | .vmaxB d _ _ w _ => w != 3 && decide (d.toNat < 56)
  | .vabsB d _ w _ => w != 3 && decide (d.toNat < 56)
  | .vnegB d _ w _ => w != 3 && decide (d.toNat < 56)
  | .vcmpB _ _ _ _ w _ _ => w != 3
  | .vselB d _ _ w _ => w != 3 && decide (d.toNat < 56)
  | .vaddx d _ _ w _ _ => w != 3 && decide (d.toNat < 48)
  | .vsubx d _ _ w _ _ => w != 3 && decide (d.toNat < 48)
  | .vmulx d _ _ w _ _ => w != 3 && decide (d.toNat < 48)
  | .dwadd d a b w _ _ => w != 3 && decide (d.toNat < 48) && decide (a.toNat < 48) && decide (b.toNat < 48)
  | .dwsub d a b w _ _ => w != 3 && decide (d.toNat < 48) && decide (a.toNat < 48) && decide (b.toNat < 48)
  | .dwmul d a b w _ _ => w != 3 && decide (d.toNat < 48) && decide (a.toNat < 48) && decide (b.toNat < 48)
  | .dwdiv d a b w _ _ => w != 3 && decide (d.toNat < 48) && decide (a.toNat < 48) && decide (b.toNat < 48)
  | .dwnorm d a w _ _ => w != 3 && decide (d.toNat < 48) && decide (a.toNat < 48)
  | .vsum d _ w _ _ => w != 3 && decide (d.toNat < 48)
  | .vsumx d _ w _ _ => w != 3 && decide (d.toNat < 48)
  | .vmaxr d _ w _ => w != 3 && decide (d.toNat < 48)
  | .vminr d _ w _ => w != 3 && decide (d.toNat < 48)
  | .viadd d _ _ w _ s => w != 3 && decide (d.toNat < 56) && s != 3
  | .visub d _ _ w _ s => w != 3 && decide (d.toNat < 56) && s != 3
  | .vimul d _ _ w _ s => w != 3 && decide (d.toNat < 56) && s != 3
  | .vimad d _ _ w _ s => w != 3 && decide (d.toNat < 56) && decide (s.toNat < 2)
  | .vand d _ _ w _ => w != 3 && decide (d.toNat < 56)
  | .vor d _ _ w _ => w != 3 && decide (d.toNat < 56)
  | .vxor d _ _ w _ => w != 3 && decide (d.toNat < 56)
  | .vnot d _ w _ => w != 3 && decide (d.toNat < 56)
  | .vshl d _ b w _ f => w != 3 && decide (d.toNat < 56) && (f == 0 || decide (b.toNat < 32))
  | .vshr d _ b w _ f => w != 3 && decide (d.toNat < 56) && (f == 0 || decide (b.toNat < 32))
  | .vsar d _ b w _ f => w != 3 && decide (d.toNat < 56) && (f == 0 || decide (b.toNat < 32))
  | .vicmp _ _ _ w _ _ => w != 3
  | .vmand _ _ _ w => w != 3
  | .vmor _ _ _ w => w != 3
  | .vmxor _ _ _ w => w != 3
  | .vmnot _ _ w => w != 3
  | .vcvtPack d _ _ w _ _ => w != 3 && decide (d.toNat < 56)
  | .vcvtUnpack d _ _ w _ _ => w != 3 && decide (d.toNat < 56)
  | .vscl d _ _ w _ _ => w != 3 && decide (d.toNat < 56)
  | .vexp2 d _ w _ _ => w != 3 && decide (d.toNat < 56)
  | .vlog2 d _ w _ _ => w != 3 && decide (d.toNat < 56)
  | .vtanh d _ w _ _ => w != 3 && decide (d.toNat < 56)
  | .vperm d _ _ _ => decide (d.toNat < 56)
  | .vpsw => true
  | .vrot d _ _ w _ _ => w != 3 && decide (d.toNat < 56)
  | .vbcl d _ _ w _ _ => w != 3 && decide (d.toNat < 56)
  | .xcX d _ w _ => w != 3 && decide (d.toNat < 48)
  | .xcXl d _ _ => decide (d.toNat < 48)
  | .mdset _ f _ => decide (f.toNat ≤ 10)
  | .mdld _ _ => true
  | .mdst _ _ => true
  | .mbld _ => true
  | .mzero _ => true
  | .moutm _ _ _ _ _ => true
  | .blend0 => true
  | .blend1 => true
  | .blend2 => true
  | .blend3 => true
  | .blend4 => true
  | .blend5 => true
  | .bret0 => true
  | .bret1 => true
  | .bret2 => true
  | .bret3 => true
  | .bret4 => true
  | .bret5 => true
  | .mma _ _ _ _ _ => true
  | .mmaCk _ _ _ _ _ => true
  | .mlu _ _ _ _ => true
  | .mchol _ _ _ => true
  | .mqr _ _ _ => true
  | .mtrsm _ _ _ _ _ _ _ _ => true
  | .mperm _ _ _ _ _ _ => true
  | .mpiv _ _ _ => true
  | .xcXMatrix r _ k q => (k == 0 && decide (q.toNat < 2) || k == 1 && decide (r.toNat < 4) || k == 2 && q == 0 && decide (r.toNat < 4))
  | .adda _ _ _ => true
  | .addaImmediate _ _ _ => true
  | .suba _ _ _ => true
  | .subaImmediate _ _ _ => true
  | .shla _ _ _ => true
  | .shlaImmediate _ _ _ => true
  | .lia _ _ => true
  | .hder _ _ _ _ _ => true
  | .hnul _ => true
  | .hld _ _ _ _ => true
  | .hst _ _ _ _ => true
  | .scinv => true
  | .scinvRange _ _ _ => true
  | .bcfl _ _ _ _ => true
  | .ld _ _ _ _ _ => true
  | .ldn _ _ _ _ _ => true
  | .st _ _ _ _ _ => true
  | .vld v _ _ w _ => decide (v.toNat < 48) && w != 3
  | .vst v _ _ w _ => decide (v.toNat < 48) && w != 3
  | .vlds v _ _ _ w => decide (v.toNat < 48) && w != 3
  | .vsts v _ _ _ w => decide (v.toNat < 48) && w != 3
  | .vgth v _ _ _ _ w => decide (v.toNat < 48) && w != 3
  | .vsct v _ _ _ _ w => decide (v.toNat < 48) && w != 3
  | .cld _ _ _ _ _ => true
  | .cldVector v _ _ w _ => decide (v.toNat < 48) && w != 3
  | .cst _ _ _ _ _ => true
  | .cstVector v _ _ w _ => decide (v.toNat < 48) && w != 3
  | .tvld v _ _ w _ => decide (v.toNat < 48) && w != 3
  | .tvst v _ _ w _ => decide (v.toNat < 48) && w != 3
  | .pcfg _ _ _ => true
  | .pgo _ _ => true
  | .pstop _ => true
  | .pld _ _ _ _ => true
  | .copy _ _ _ _ _ _ _ _ _ => true
  | .copyq _ => true
  | .copyqSt _ => true
  | .cancel => true
  | .wstr _ _ _ _ _ => true
  | .frfl _ _ _ _ _ => true
  | .shift _ m _ _ _ _ => m != 3
  | .reduce _ _ _ _ _ => true
  | .atmAdd _ _ _ _ _ _ => true
  | .atmFadd _ _ _ _ _ _ => true
  | .atmMin _ _ _ _ _ _ => true
  | .atmMax _ _ _ _ _ _ => true
  | .atmAnd _ _ _ _ _ _ => true
  | .atmOr _ _ _ _ _ _ => true
  | .atmXor _ _ _ _ _ _ => true
  | .atmXchg _ _ _ _ _ _ => true
  | .atmCas _ _ _ _ _ _ => true
  | .atmInc _ _ _ _ _ _ => true
  | .bobInit _ _ _ _ => true
  | .bobArr _ _ _ => true
  | .bobWait _ _ _ _ => true
  | .tsetf _ _ _ => true
  | .tsete _ _ _ => true
  | .sleepu _ => true
  | .tdefer _ => true
  | .tdead _ _ _ => true
  | .hdead _ _ _ => true
  | .trmw _ _ _ _ _ => true
  | .xcXAddress k _ _ q => (k == 0 && q == 0 || k == 1)
  | .parkedSlotRetry => true
  | .parkedTooLong => true
  | .trapEntry => true
  | .outlierListFull => true
  | .loadReturn => true
  | .translationRetry => true
  | .translationFail => true
  | .strikeWindow => true
  | .strikeReport => true
  | .dispatchRound => true
  | .beadStart => true
  | .preemptionHalt => true
  | .contextDrainFinal => true
  | .resumption => true
  | .strandTailWrite => true
  | .hubConfigurationWrite => true
  | .executableRegistration => true
  | .normalRefresh => true
  | .forcedRefresh => true
  | .groupRefreshEnd => true
  | .deferralEnd => true
  | .tileOperationStart => true
  | .tileOperationCompletion => true
  | .copyCompletion => true
  | .refillCompletion => true
  | .shiftCompletion => true
  | .reduceRound => true
  | .atomicEngineServe => true
  | .bobWaitAnswer => true
  | .barrierRelease => true
  | .cbarSuspend => true
  | .sleepuWake => true
  | .resume => true
  | .resetCore => true
  | .linkDown => true
  | .routeRestore => true
  | .objectInvalidation => true
  | .atsInvalidation => true
  | .cxlMemAccess => true
  | .patrolScrub => true
  | .monitorSample => true
  | .selfTestEnd => true
  | .pstepSample => true
  | .setPowerStep => true
  | .throttleEvaluation => true
  | .sensorCheck => true
  | .powerFail => true
  | .powerReturn => true
  | .boot => true
  | .attestation => true
  | .storePerformed => true
  | .cxlCacheRecall => true
  | .remotePackageAccess => true
  | .fallBackReadRequest => true
  | .stackScrubPass => true
  | .imageWrite => true

/-- Register fields that Table 5-3 marks "even" name even registers; an odd one raises trap 0x02 (05 R140). -/
def Instr.evenOk : Instr → Bool
  | .vaddx d _ _ _ _ _ => d.getLsbD 0 == false
  | .vsubx d _ _ _ _ _ => d.getLsbD 0 == false
  | .vmulx d _ _ _ _ _ => d.getLsbD 0 == false
  | .dwadd d a b _ _ _ => d.getLsbD 0 == false && a.getLsbD 0 == false && b.getLsbD 0 == false
  | .dwsub d a b _ _ _ => d.getLsbD 0 == false && a.getLsbD 0 == false && b.getLsbD 0 == false
  | .dwmul d a b _ _ _ => d.getLsbD 0 == false && a.getLsbD 0 == false && b.getLsbD 0 == false
  | .dwdiv d a b _ _ _ => d.getLsbD 0 == false && a.getLsbD 0 == false && b.getLsbD 0 == false
  | .dwnorm d a _ _ _ => d.getLsbD 0 == false && a.getLsbD 0 == false
  | .vsumx d _ _ _ _ => d.getLsbD 0 == false
  | _ => true

end Sys2Proof
end

