-- ==== Sys2Proof/Decode.lean ====
section
/-! DEFINITION. The decoder of a bundle's slots and headers and the encoder of an operation, both from the opcode maps and encoding tables of 02_bundles_and_encoding.md (Tables 2-2, 2-9 to 2-12) and the class chapters. -/

namespace Sys2Proof

/-- The four slots of a bundle (02 Table 2-1). -/
inductive Slot where
  | c | v | m | t
  deriving DecidableEq, Repr

/-- Why a slot word is no operation; every one of these raises trap 0x01 (02 R38, R59, R10). -/
inductive DecodeError where
  /-- opcode field zero with other bits set (R38) -/
  | zeroOpcode
  /-- an opcode its map marks illegal (R59) -/
  | unassignedOpcode
  /-- a selector, option or reserved field the entry does not define (R59, R10) -/
  | unassignedFields
  /-- an operand field outside the limits of its entry -/
  | illFormed
  /-- header kinds 10 and 11 (R39) -/
  | headerKind
  /-- a word of more than one slot given to `decodeTableWord` -/
  | notOneSlot
  deriving DecidableEq, Repr

/-- Slot C, opcode 0x01 (02 Table 2-9). -/
def rawC01 (w : Nat) : Except DecodeError Instr :=
  if fld w 0 8 = 0 then .ok (.add (fbv 5 21 w) (fbv 5 16 w) (fbv 5 11 w) (fbv 3 8 w)) else
  if fld w 0 8 = 1 then .ok (.sub (fbv 5 21 w) (fbv 5 16 w) (fbv 5 11 w) (fbv 3 8 w)) else
  if fld w 0 8 = 2 then .ok (.mul (fbv 5 21 w) (fbv 5 16 w) (fbv 5 11 w) (fbv 3 8 w)) else
  if fld w 0 8 = 3 then .ok (.mulh (fbv 5 21 w) (fbv 5 16 w) (fbv 5 11 w) (fbv 3 8 w)) else
  if fld w 0 8 = 4 then .ok (.mulhn (fbv 5 21 w) (fbv 5 16 w) (fbv 5 11 w) (fbv 3 8 w)) else
  if fld w 0 8 = 5 then .ok (.div (fbv 5 21 w) (fbv 5 16 w) (fbv 5 11 w) (fbv 3 8 w)) else
  if fld w 0 8 = 6 then .ok (.divn (fbv 5 21 w) (fbv 5 16 w) (fbv 5 11 w) (fbv 3 8 w)) else
  if fld w 0 8 = 7 then .ok (.rem (fbv 5 21 w) (fbv 5 16 w) (fbv 5 11 w) (fbv 3 8 w)) else
  if fld w 0 8 = 8 then .ok (.remn (fbv 5 21 w) (fbv 5 16 w) (fbv 5 11 w) (fbv 3 8 w)) else
  if fld w 0 8 = 9 then .ok (.and (fbv 5 21 w) (fbv 5 16 w) (fbv 5 11 w) (fbv 3 8 w)) else
  if fld w 0 8 = 10 then .ok (.or (fbv 5 21 w) (fbv 5 16 w) (fbv 5 11 w) (fbv 3 8 w)) else
  if fld w 0 8 = 11 then .ok (.xor (fbv 5 21 w) (fbv 5 16 w) (fbv 5 11 w) (fbv 3 8 w)) else
  if fld w 0 8 = 12 then .ok (.shl (fbv 5 21 w) (fbv 5 16 w) (fbv 5 11 w) (fbv 3 8 w)) else
  if fld w 0 8 = 13 then .ok (.shr (fbv 5 21 w) (fbv 5 16 w) (fbv 5 11 w) (fbv 3 8 w)) else
  if fld w 0 8 = 14 then .ok (.sar (fbv 5 21 w) (fbv 5 16 w) (fbv 5 11 w) (fbv 3 8 w)) else
  if fld w 0 8 = 15 then .ok (.min (fbv 5 21 w) (fbv 5 16 w) (fbv 5 11 w) (fbv 3 8 w)) else
  if fld w 0 8 = 16 then .ok (.max (fbv 5 21 w) (fbv 5 16 w) (fbv 5 11 w) (fbv 3 8 w)) else
  if fld w 0 8 = 17 then .ok (.minn (fbv 5 21 w) (fbv 5 16 w) (fbv 5 11 w) (fbv 3 8 w)) else
  if fld w 0 8 = 18 then .ok (.maxn (fbv 5 21 w) (fbv 5 16 w) (fbv 5 11 w) (fbv 3 8 w)) else
  if fld w 11 5 = 0 ∧ fld w 0 8 = 19 then .ok (.clz (fbv 5 21 w) (fbv 5 16 w) (fbv 3 8 w)) else
  if fld w 11 5 = 0 ∧ fld w 0 8 = 20 then .ok (.popc (fbv 5 21 w) (fbv 5 16 w) (fbv 3 8 w)) else
  if fld w 13 3 = 0 ∧ fld w 0 8 = 21 then .ok (.sext (fbv 5 21 w) (fbv 5 16 w) (fbv 2 11 w) (fbv 3 8 w)) else
  if fld w 13 3 = 0 ∧ fld w 0 8 = 22 then .ok (.zext (fbv 5 21 w) (fbv 5 16 w) (fbv 2 11 w) (fbv 3 8 w)) else
  .error .unassignedFields

/-- Slot C, opcode 0x02 (02 Table 2-9). -/
def rawC02 (w : Nat) : Except DecodeError Instr :=
  .ok (.addi (fbv 5 21 w) (fbv 5 16 w) (fbv 16 0 w))

/-- Slot C, opcode 0x03 (02 Table 2-9). -/
def rawC03 (w : Nat) : Except DecodeError Instr :=
  .ok (.andi (fbv 5 21 w) (fbv 5 16 w) (fbv 16 0 w))

/-- Slot C, opcode 0x04 (02 Table 2-9). -/
def rawC04 (w : Nat) : Except DecodeError Instr :=
  .ok (.ori (fbv 5 21 w) (fbv 5 16 w) (fbv 16 0 w))

/-- Slot C, opcode 0x05 (02 Table 2-9). -/
def rawC05 (w : Nat) : Except DecodeError Instr :=
  .ok (.xori (fbv 5 21 w) (fbv 5 16 w) (fbv 16 0 w))

/-- Slot C, opcode 0x06 (02 Table 2-9). -/
def rawC06 (w : Nat) : Except DecodeError Instr :=
  if fld w 6 10 = 0 then .ok (.shli (fbv 5 21 w) (fbv 5 16 w) (fbv 6 0 w)) else
  if fld w 6 10 = 256 then .ok (.shri (fbv 5 21 w) (fbv 5 16 w) (fbv 6 0 w)) else
  if fld w 6 10 = 512 then .ok (.sari (fbv 5 21 w) (fbv 5 16 w) (fbv 6 0 w)) else
  .error .unassignedFields

/-- Slot C, opcode 0x07 (02 Table 2-9). -/
def rawC07 (w : Nat) : Except DecodeError Instr :=
  .ok (.li (fbv 5 21 w) (fbv 21 0 w))

/-- Slot C, opcode 0x08 (02 Table 2-9). -/
def rawC08 (w : Nat) : Except DecodeError Instr :=
  if fld w 18 3 = 0 then .ok (.lih (fbv 5 21 w) (fbv 2 16 w) (fbv 16 0 w)) else
  .error .unassignedFields

/-- Slot C, opcode 0x09 (02 Table 2-9). -/
def rawC09 (w : Nat) : Except DecodeError Instr :=
  if fld w 24 2 = 0 then .ok (.cmp (fbv 3 21 w) (fbv 5 16 w) (fbv 5 11 w) (fbv 3 8 w) (fbv 8 0 w)) else
  .error .unassignedFields

/-- Slot C, opcode 0x0A (02 Table 2-9). -/
def rawC0A (w : Nat) : Except DecodeError Instr :=
  .ok (.cmpi (fbv 3 23 w) (fbv 3 20 w) (fbv 5 15 w) (fbv 15 0 w))

/-- Slot C, opcode 0x0B (02 Table 2-9). -/
def rawC0B (w : Nat) : Except DecodeError Instr :=
  if fld w 0 5 = 0 then .ok (.sel (fbv 5 21 w) (fbv 5 16 w) (fbv 5 11 w) (fbv 3 8 w) (fbv 3 5 w)) else
  .error .unassignedFields

/-- Slot C, opcode 0x0C (02 Table 2-9). -/
def rawC0C (w : Nat) : Except DecodeError Instr :=
  if fld w 11 6 = 0 ∧ fld w 0 8 = 0 then .ok (.kand (fbv 3 23 w) (fbv 3 20 w) (fbv 3 17 w) (fbv 3 8 w)) else
  if fld w 11 6 = 0 ∧ fld w 0 8 = 1 then .ok (.kor (fbv 3 23 w) (fbv 3 20 w) (fbv 3 17 w) (fbv 3 8 w)) else
  if fld w 11 6 = 0 ∧ fld w 0 8 = 2 then .ok (.kxor (fbv 3 23 w) (fbv 3 20 w) (fbv 3 17 w) (fbv 3 8 w)) else
  if fld w 11 9 = 0 ∧ fld w 0 8 = 3 then .ok (.knot (fbv 3 23 w) (fbv 3 20 w) (fbv 3 8 w)) else
  .error .unassignedFields

/-- Slot C, opcode 0x10 (02 Table 2-9). -/
def rawC10 (w : Nat) : Except DecodeError Instr :=
  if fld w 5 3 = 0 ∧ fld w 0 3 = 0 then .ok (.faddD (fbv 5 21 w) (fbv 5 16 w) (fbv 5 11 w) (fbv 3 8 w) (fbv 2 3 w)) else
  if fld w 5 3 = 0 ∧ fld w 0 3 = 1 then .ok (.fsubD (fbv 5 21 w) (fbv 5 16 w) (fbv 5 11 w) (fbv 3 8 w) (fbv 2 3 w)) else
  if fld w 5 3 = 0 ∧ fld w 0 3 = 2 then .ok (.fmulD (fbv 5 21 w) (fbv 5 16 w) (fbv 5 11 w) (fbv 3 8 w) (fbv 2 3 w)) else
  if fld w 5 3 = 0 ∧ fld w 0 3 = 3 then .ok (.fdivD (fbv 5 21 w) (fbv 5 16 w) (fbv 5 11 w) (fbv 3 8 w) (fbv 2 3 w)) else
  if fld w 0 8 = 4 then .ok (.fminD (fbv 5 21 w) (fbv 5 16 w) (fbv 5 11 w) (fbv 3 8 w)) else
  if fld w 0 8 = 5 then .ok (.fmaxD (fbv 5 21 w) (fbv 5 16 w) (fbv 5 11 w) (fbv 3 8 w)) else
  .error .unassignedFields

/-- Slot C, opcode 0x11 (02 Table 2-9). -/
def rawC11 (w : Nat) : Except DecodeError Instr :=
  if fld w 11 5 = 0 ∧ fld w 5 3 = 0 ∧ fld w 0 3 = 0 then .ok (.fsqrtD (fbv 5 21 w) (fbv 5 16 w) (fbv 3 8 w) (fbv 2 3 w)) else
  .error .unassignedFields

/-- Slot C, opcode 0x12 (02 Table 2-9). -/
def rawC12 (w : Nat) : Except DecodeError Instr :=
  if fld w 2 1 = 0 then .ok (.ffmaD (fbv 5 21 w) (fbv 5 16 w) (fbv 5 11 w) (fbv 3 8 w) (fbv 5 3 w) (fbv 2 0 w)) else
  .error .unassignedFields

/-- Slot C, opcode 0x13 (02 Table 2-9). -/
def rawC13 (w : Nat) : Except DecodeError Instr :=
  if fld w 24 2 = 0 ∧ fld w 3 5 = 0 then .ok (.fcmpD (fbv 3 21 w) (fbv 5 16 w) (fbv 5 11 w) (fbv 3 8 w) (fbv 3 0 w)) else
  .error .unassignedFields

/-- Slot C, opcode 0x14 (02 Table 2-9). -/
def rawC14 (w : Nat) : Except DecodeError Instr :=
  if fld w 11 5 = 0 ∧ fld w 5 3 = 0 ∧ fld w 0 3 = 0 then .ok (.fcvtDI (fbv 5 21 w) (fbv 5 16 w) (fbv 3 8 w) (fbv 2 3 w)) else
  if fld w 11 5 = 0 ∧ fld w 5 3 = 0 ∧ fld w 0 3 = 1 then .ok (.fcvtDN (fbv 5 21 w) (fbv 5 16 w) (fbv 3 8 w) (fbv 2 3 w)) else
  if fld w 11 5 = 0 ∧ fld w 5 3 = 0 ∧ fld w 0 3 = 2 then .ok (.fcvtID (fbv 5 21 w) (fbv 5 16 w) (fbv 3 8 w) (fbv 2 3 w)) else
  if fld w 11 5 = 0 ∧ fld w 5 3 = 0 ∧ fld w 0 3 = 3 then .ok (.fcvtND (fbv 5 21 w) (fbv 5 16 w) (fbv 3 8 w) (fbv 2 3 w)) else
  if fld w 11 5 = 0 ∧ fld w 0 8 = 4 then .ok (.fcvtDS (fbv 5 21 w) (fbv 5 16 w) (fbv 3 8 w)) else
  if fld w 11 5 = 0 ∧ fld w 5 3 = 0 ∧ fld w 0 3 = 5 then .ok (.fcvtSD (fbv 5 21 w) (fbv 5 16 w) (fbv 3 8 w) (fbv 2 3 w)) else
  .error .unassignedFields

/-- Slot C, opcode 0x18 (02 Table 2-9). -/
def rawC18 (w : Nat) : Except DecodeError Instr :=
  .ok (.br (fbv 26 0 w))

/-- Slot C, opcode 0x19 (02 Table 2-9). -/
def rawC19 (w : Nat) : Except DecodeError Instr :=
  .ok (.brk (fbv 3 23 w) (fbv 23 0 w))

/-- Slot C, opcode 0x1A (02 Table 2-9). -/
def rawC1A (w : Nat) : Except DecodeError Instr :=
  .ok (.brnk (fbv 3 23 w) (fbv 23 0 w))

/-- Slot C, opcode 0x1B (02 Table 2-9). -/
def rawC1B (w : Nat) : Except DecodeError Instr :=
  if fld w 11 5 = 0 ∧ fld w 0 8 = 0 then .ok (.jr (fbv 5 21 w) (fbv 5 16 w) (fbv 3 8 w)) else
  .error .unassignedFields

/-- Slot C, opcode 0x1C (02 Table 2-9). -/
def rawC1C (w : Nat) : Except DecodeError Instr :=
  .ok (.call (fbv 26 0 w))

/-- Slot C, opcode 0x1D (02 Table 2-9). -/
def rawC1D (w : Nat) : Except DecodeError Instr :=
  if fld w 11 15 = 0 ∧ fld w 0 8 = 0 then .ok (.ret (fbv 3 8 w)) else
  .error .unassignedFields

/-- Slot C, opcode 0x1E (02 Table 2-9). -/
def rawC1E (w : Nat) : Except DecodeError Instr :=
  .ok (.loop (fbv 5 21 w) (fbv 21 0 w))

/-- Slot C, opcode 0x20 (02 Table 2-9). -/
def rawC20 (w : Nat) : Except DecodeError Instr :=
  if fld w 0 8 = 0 then .ok (.xcV (fbv 5 21 w) (fbv 6 15 w) (fbv 7 8 w)) else
  .error .unassignedFields

/-- Slot C, opcode 0x21 (02 Table 2-9). -/
def rawC21 (w : Nat) : Except DecodeError Instr :=
  if fld w 0 17 = 0 then .ok (.xcA (fbv 5 21 w) (fbv 4 17 w)) else
  .error .unassignedFields

/-- Slot C, opcode 0x22 (02 Table 2-9). -/
def rawC22 (w : Nat) : Except DecodeError Instr :=
  if fld w 0 12 = 0 then .ok (.xcM (fbv 5 21 w) (fbv 2 19 w) (fbv 3 16 w) (fbv 4 12 w)) else
  .error .unassignedFields

/-- Slot C, opcode 0x23 (02 Table 2-9). -/
def rawC23 (w : Nat) : Except DecodeError Instr :=
  if fld w 18 3 = 0 ∧ fld w 0 16 = 0 then .ok (.xcG (fbv 5 21 w) (fbv 2 16 w)) else
  .error .unassignedFields

/-- Slot C, opcode 0x24 (02 Table 2-9). -/
def rawC24 (w : Nat) : Except DecodeError Instr :=
  if fld w 0 16 = 0 then .ok (.xcH (fbv 5 21 w) (fbv 4 17 w) (fbv 1 16 w)) else
  .error .unassignedFields

/-- Slot C, opcode 0x25 (02 Table 2-9). -/
def rawC25 (w : Nat) : Except DecodeError Instr :=
  if fld w 0 9 = 0 then .ok (.srd (fbv 5 21 w) (fbv 12 9 w)) else
  .error .unassignedFields

/-- Slot C, opcode 0x26 (02 Table 2-9). -/
def rawC26 (w : Nat) : Except DecodeError Instr :=
  if fld w 0 9 = 0 then .ok (.swr (fbv 5 21 w) (fbv 12 9 w)) else
  .error .unassignedFields

/-- Slot C, opcode 0x28 (02 Table 2-9). -/
def rawC28 (w : Nat) : Except DecodeError Instr :=
  if fld w 0 2 = 0 then .ok (.wait (fbv 6 20 w) (fbv 6 14 w) (fbv 6 8 w) (fbv 6 2 w)) else
  .error .unassignedFields

/-- Slot C, opcode 0x29 (02 Table 2-9). -/
def rawC29 (w : Nat) : Except DecodeError Instr :=
  if fld w 0 14 = 0 then .ok (.fence (fbv 6 20 w) (fbv 6 14 w)) else
  .error .unassignedFields

/-- Slot C, opcode 0x2A (02 Table 2-9). -/
def rawC2A (w : Nat) : Except DecodeError Instr :=
  if fld w 0 21 = 0 then .ok (.drain (fbv 3 23 w) (fbv 2 21 w)) else
  .error .unassignedFields

/-- Slot C, opcode 0x30 (02 Table 2-9). -/
def rawC30 (w : Nat) : Except DecodeError Instr :=
  if fld w 0 6 = 0 then .ok (.spawn (fbv 5 21 w) (fbv 5 16 w) (fbv 5 11 w) (fbv 5 6 w)) else
  .error .unassignedFields

/-- Slot C, opcode 0x31 (02 Table 2-9). -/
def rawC31 (w : Nat) : Except DecodeError Instr :=
  if fld w 21 5 = 0 ∧ fld w 3 13 = 0 ∧ fld w 0 2 = 0 then .ok (.suspend (fbv 5 16 w) (fbv 1 2 w)) else
  if fld w 0 26 = 1 then .ok (.yield) else
  if fld w 0 26 = 2 then .ok (.retire) else
  .error .unassignedFields

/-- Slot C, opcode 0x32 (02 Table 2-9). -/
def rawC32 (w : Nat) : Except DecodeError Instr :=
  if fld w 0 11 = 0 then .ok (.join (fbv 5 21 w) (fbv 5 16 w) (fbv 5 11 w)) else
  if fld w 0 26 = 1 then .ok (.leave) else
  if fld w 0 21 = 2 then .ok (.cbar (fbv 5 21 w)) else
  .error .unassignedFields

/-- Slot C, opcode 0x33 (02 Table 2-9). -/
def rawC33 (w : Nat) : Except DecodeError Instr :=
  if fld w 0 16 = 0 then .ok (.seg (fbv 4 22 w) (fbv 4 18 w) (fbv 2 16 w)) else
  if fld w 0 26 = 1 then .ok (.sege) else
  .error .unassignedFields

/-- Slot C, opcode 0x34 (02 Table 2-9). -/
def rawC34 (w : Nat) : Except DecodeError Instr :=
  if fld w 0 10 = 0 then .ok (.trap (fbv 16 10 w)) else
  if fld w 0 26 = 1 then .ok (.rte) else
  if fld w 0 26 = 2 then .ok (.halt) else
  .error .unassignedFields

/-- Slot C, opcode 0x35 (02 Table 2-9). -/
def rawC35 (w : Nat) : Except DecodeError Instr :=
  if fld w 0 16 = 0 then .ok (.scan (fbv 5 21 w) (fbv 5 16 w)) else
  if fld w 0 11 = 1 then .ok (.cmap (fbv 5 21 w) (fbv 5 16 w) (fbv 5 11 w)) else
  .error .unassignedFields

/-- Slot C, opcode 0x36 (02 Table 2-9). -/
def rawC36 (w : Nat) : Except DecodeError Instr :=
  if fld w 24 2 = 0 ∧ fld w 0 20 = 0 then .ok (.pmonStart (fbv 4 20 w)) else
  if fld w 24 2 = 1 ∧ fld w 0 20 = 0 then .ok (.pmonStop (fbv 4 20 w)) else
  if fld w 24 2 = 2 ∧ fld w 0 20 = 0 then .ok (.pmonClr (fbv 4 20 w)) else
  if fld w 24 2 = 3 ∧ fld w 0 20 = 0 then .ok (.pmonClrstart (fbv 4 20 w)) else
  .error .unassignedFields

/-- Slot C, opcode 0x37 (02 Table 2-9). -/
def rawC37 (w : Nat) : Except DecodeError Instr :=
  if fld w 0 16 = 0 then .ok (.diagInjFlip (fbv 5 21 w) (fbv 5 16 w)) else
  if fld w 0 16 = 8192 then .ok (.diagInjCerr (fbv 5 21 w) (fbv 5 16 w)) else
  if fld w 0 16 = 16384 then .ok (.diagInjPoison (fbv 5 21 w) (fbv 5 16 w)) else
  if fld w 0 16 = 24576 then .ok (.diagInjTpoison (fbv 5 21 w) (fbv 5 16 w)) else
  if fld w 0 16 = 32768 then .ok (.diagInjStrike (fbv 5 21 w) (fbv 5 16 w)) else
  .error .unassignedFields

/-- Slot C, opcode 0x3D (02 Table 2-9). -/
def rawC3D (w : Nat) : Except DecodeError Instr :=
  .ok (.hrep (fbv 10 16 w) (fbv 4 12 w) (fbv 4 8 w) (fbv 4 4 w) (fbv 4 0 w))

/-- Slot V, opcode 0x01 (02 Table 2-10). -/
def rawV01 (w : Nat) : Except DecodeError Instr :=
  .ok (.vadd (fbv 6 19 w) (fbv 6 13 w) (fbv 6 7 w) (fbv 2 5 w) (fbv 3 2 w) (fbv 2 0 w))

/-- Slot V, opcode 0x02 (02 Table 2-10). -/
def rawV02 (w : Nat) : Except DecodeError Instr :=
  .ok (.vsub (fbv 6 19 w) (fbv 6 13 w) (fbv 6 7 w) (fbv 2 5 w) (fbv 3 2 w) (fbv 2 0 w))

/-- Slot V, opcode 0x03 (02 Table 2-10). -/
def rawV03 (w : Nat) : Except DecodeError Instr :=
  .ok (.vmul (fbv 6 19 w) (fbv 6 13 w) (fbv 6 7 w) (fbv 2 5 w) (fbv 3 2 w) (fbv 2 0 w))

/-- Slot V, opcode 0x04 (02 Table 2-10). -/
def rawV04 (w : Nat) : Except DecodeError Instr :=
  .ok (.vfma (fbv 6 19 w) (fbv 6 13 w) (fbv 6 7 w) (fbv 2 5 w) (fbv 3 2 w) (fbv 2 0 w))

/-- Slot V, opcode 0x05 (02 Table 2-10). -/
def rawV05 (w : Nat) : Except DecodeError Instr :=
  .ok (.vfms (fbv 6 19 w) (fbv 6 13 w) (fbv 6 7 w) (fbv 2 5 w) (fbv 3 2 w) (fbv 2 0 w))

/-- Slot V, opcode 0x06 (02 Table 2-10). -/
def rawV06 (w : Nat) : Except DecodeError Instr :=
  .ok (.vfnma (fbv 6 19 w) (fbv 6 13 w) (fbv 6 7 w) (fbv 2 5 w) (fbv 3 2 w) (fbv 2 0 w))

/-- Slot V, opcode 0x07 (02 Table 2-10). -/
def rawV07 (w : Nat) : Except DecodeError Instr :=
  .ok (.vdiv (fbv 6 19 w) (fbv 6 13 w) (fbv 6 7 w) (fbv 2 5 w) (fbv 3 2 w) (fbv 2 0 w))

/-- Slot V, opcode 0x08 (02 Table 2-10). -/
def rawV08 (w : Nat) : Except DecodeError Instr :=
  if fld w 7 6 = 0 then .ok (.vsqrt (fbv 6 19 w) (fbv 6 13 w) (fbv 2 5 w) (fbv 3 2 w) (fbv 2 0 w)) else
  .error .unassignedFields

/-- Slot V, opcode 0x09 (02 Table 2-10). -/
def rawV09 (w : Nat) : Except DecodeError Instr :=
  if fld w 7 6 = 0 then .ok (.vrcp (fbv 6 19 w) (fbv 6 13 w) (fbv 2 5 w) (fbv 3 2 w) (fbv 2 0 w)) else
  .error .unassignedFields

/-- Slot V, opcode 0x0A (02 Table 2-10). -/
def rawV0A (w : Nat) : Except DecodeError Instr :=
  if fld w 7 6 = 0 then .ok (.vrsq (fbv 6 19 w) (fbv 6 13 w) (fbv 2 5 w) (fbv 3 2 w) (fbv 2 0 w)) else
  .error .unassignedFields

/-- Slot V, opcode 0x0B (02 Table 2-10). -/
def rawV0B (w : Nat) : Except DecodeError Instr :=
  if fld w 0 2 = 0 then .ok (.vmin (fbv 6 19 w) (fbv 6 13 w) (fbv 6 7 w) (fbv 2 5 w) (fbv 3 2 w)) else
  .error .unassignedFields

/-- Slot V, opcode 0x0C (02 Table 2-10). -/
def rawV0C (w : Nat) : Except DecodeError Instr :=
  if fld w 0 2 = 0 then .ok (.vmax (fbv 6 19 w) (fbv 6 13 w) (fbv 6 7 w) (fbv 2 5 w) (fbv 3 2 w)) else
  .error .unassignedFields

/-- Slot V, opcode 0x0D (02 Table 2-10). -/
def rawV0D (w : Nat) : Except DecodeError Instr :=
  if fld w 7 6 = 0 ∧ fld w 0 2 = 0 then .ok (.vabs (fbv 6 19 w) (fbv 6 13 w) (fbv 2 5 w) (fbv 3 2 w)) else
  .error .unassignedFields

/-- Slot V, opcode 0x0E (02 Table 2-10). -/
def rawV0E (w : Nat) : Except DecodeError Instr :=
  if fld w 7 6 = 0 ∧ fld w 0 2 = 0 then .ok (.vneg (fbv 6 19 w) (fbv 6 13 w) (fbv 2 5 w) (fbv 3 2 w)) else
  .error .unassignedFields

/-- Slot V, opcode 0x0F (02 Table 2-10). -/
def rawV0F (w : Nat) : Except DecodeError Instr :=
  if fld w 22 3 = 0 then .ok (.vcmp (fbv 3 19 w) (fbv 6 13 w) (fbv 6 7 w) (fbv 2 5 w) (fbv 3 2 w) (fbv 2 0 w)) else
  .error .unassignedFields

/-- Slot V, opcode 0x10 (02 Table 2-10). -/
def rawV10 (w : Nat) : Except DecodeError Instr :=
  if fld w 0 2 = 0 then .ok (.vsel (fbv 6 19 w) (fbv 6 13 w) (fbv 6 7 w) (fbv 2 5 w) (fbv 3 2 w)) else
  .error .unassignedFields

/-- Slot V, opcode 0x11 (02 Table 2-10). -/
def rawV11 (w : Nat) : Except DecodeError Instr :=
  if fld w 7 6 = 0 ∧ fld w 0 2 = 0 then .ok (.vclass (fbv 6 19 w) (fbv 6 13 w) (fbv 2 5 w) (fbv 3 2 w)) else
  .error .unassignedFields

/-- Slot V, opcode 0x12 (02 Table 2-10). -/
def rawV12 (w : Nat) : Except DecodeError Instr :=
  .ok (.vaddH (fbv 6 19 w) (fbv 6 13 w) (fbv 6 7 w) (fbv 2 5 w) (fbv 3 2 w) (fbv 2 0 w))

/-- Slot V, opcode 0x13 (02 Table 2-10). -/
def rawV13 (w : Nat) : Except DecodeError Instr :=
  .ok (.vsubH (fbv 6 19 w) (fbv 6 13 w) (fbv 6 7 w) (fbv 2 5 w) (fbv 3 2 w) (fbv 2 0 w))

/-- Slot V, opcode 0x14 (02 Table 2-10). -/
def rawV14 (w : Nat) : Except DecodeError Instr :=
  .ok (.vmulH (fbv 6 19 w) (fbv 6 13 w) (fbv 6 7 w) (fbv 2 5 w) (fbv 3 2 w) (fbv 2 0 w))

/-- Slot V, opcode 0x15 (02 Table 2-10). -/
def rawV15 (w : Nat) : Except DecodeError Instr :=
  .ok (.vfmaH (fbv 6 19 w) (fbv 6 13 w) (fbv 6 7 w) (fbv 2 5 w) (fbv 3 2 w) (fbv 2 0 w))

/-- Slot V, opcode 0x16 (02 Table 2-10). -/
def rawV16 (w : Nat) : Except DecodeError Instr :=
  .ok (.vfmsH (fbv 6 19 w) (fbv 6 13 w) (fbv 6 7 w) (fbv 2 5 w) (fbv 3 2 w) (fbv 2 0 w))

/-- Slot V, opcode 0x17 (02 Table 2-10). -/
def rawV17 (w : Nat) : Except DecodeError Instr :=
  .ok (.vfnmaH (fbv 6 19 w) (fbv 6 13 w) (fbv 6 7 w) (fbv 2 5 w) (fbv 3 2 w) (fbv 2 0 w))

/-- Slot V, opcode 0x18 (02 Table 2-10). -/
def rawV18 (w : Nat) : Except DecodeError Instr :=
  if fld w 0 2 = 0 then .ok (.vminH (fbv 6 19 w) (fbv 6 13 w) (fbv 6 7 w) (fbv 2 5 w) (fbv 3 2 w)) else
  .error .unassignedFields

/-- Slot V, opcode 0x19 (02 Table 2-10). -/
def rawV19 (w : Nat) : Except DecodeError Instr :=
  if fld w 0 2 = 0 then .ok (.vmaxH (fbv 6 19 w) (fbv 6 13 w) (fbv 6 7 w) (fbv 2 5 w) (fbv 3 2 w)) else
  .error .unassignedFields

/-- Slot V, opcode 0x1A (02 Table 2-10). -/
def rawV1A (w : Nat) : Except DecodeError Instr :=
  if fld w 7 6 = 0 ∧ fld w 0 2 = 0 then .ok (.vabsH (fbv 6 19 w) (fbv 6 13 w) (fbv 2 5 w) (fbv 3 2 w)) else
  .error .unassignedFields

/-- Slot V, opcode 0x1B (02 Table 2-10). -/
def rawV1B (w : Nat) : Except DecodeError Instr :=
  if fld w 7 6 = 0 ∧ fld w 0 2 = 0 then .ok (.vnegH (fbv 6 19 w) (fbv 6 13 w) (fbv 2 5 w) (fbv 3 2 w)) else
  .error .unassignedFields

/-- Slot V, opcode 0x1C (02 Table 2-10). -/
def rawV1C (w : Nat) : Except DecodeError Instr :=
  if fld w 23 2 = 0 then .ok (.vcmpH (fbv 1 22 w) (fbv 3 19 w) (fbv 6 13 w) (fbv 6 7 w) (fbv 2 5 w) (fbv 3 2 w) (fbv 2 0 w)) else
  .error .unassignedFields

/-- Slot V, opcode 0x1D (02 Table 2-10). -/
def rawV1D (w : Nat) : Except DecodeError Instr :=
  if fld w 0 2 = 0 then .ok (.vselH (fbv 6 19 w) (fbv 6 13 w) (fbv 6 7 w) (fbv 2 5 w) (fbv 3 2 w)) else
  .error .unassignedFields

/-- Slot V, opcode 0x1E (02 Table 2-10). -/
def rawV1E (w : Nat) : Except DecodeError Instr :=
  .ok (.vaddB (fbv 6 19 w) (fbv 6 13 w) (fbv 6 7 w) (fbv 2 5 w) (fbv 3 2 w) (fbv 2 0 w))

/-- Slot V, opcode 0x1F (02 Table 2-10). -/
def rawV1F (w : Nat) : Except DecodeError Instr :=
  .ok (.vsubB (fbv 6 19 w) (fbv 6 13 w) (fbv 6 7 w) (fbv 2 5 w) (fbv 3 2 w) (fbv 2 0 w))

/-- Slot V, opcode 0x20 (02 Table 2-10). -/
def rawV20 (w : Nat) : Except DecodeError Instr :=
  .ok (.vmulB (fbv 6 19 w) (fbv 6 13 w) (fbv 6 7 w) (fbv 2 5 w) (fbv 3 2 w) (fbv 2 0 w))

/-- Slot V, opcode 0x21 (02 Table 2-10). -/
def rawV21 (w : Nat) : Except DecodeError Instr :=
  .ok (.vfmaB (fbv 6 19 w) (fbv 6 13 w) (fbv 6 7 w) (fbv 2 5 w) (fbv 3 2 w) (fbv 2 0 w))

/-- Slot V, opcode 0x22 (02 Table 2-10). -/
def rawV22 (w : Nat) : Except DecodeError Instr :=
  .ok (.vfmsB (fbv 6 19 w) (fbv 6 13 w) (fbv 6 7 w) (fbv 2 5 w) (fbv 3 2 w) (fbv 2 0 w))

/-- Slot V, opcode 0x23 (02 Table 2-10). -/
def rawV23 (w : Nat) : Except DecodeError Instr :=
  .ok (.vfnmaB (fbv 6 19 w) (fbv 6 13 w) (fbv 6 7 w) (fbv 2 5 w) (fbv 3 2 w) (fbv 2 0 w))

/-- Slot V, opcode 0x24 (02 Table 2-10). -/
def rawV24 (w : Nat) : Except DecodeError Instr :=
  if fld w 0 2 = 0 then .ok (.vminB (fbv 6 19 w) (fbv 6 13 w) (fbv 6 7 w) (fbv 2 5 w) (fbv 3 2 w)) else
  .error .unassignedFields

/-- Slot V, opcode 0x25 (02 Table 2-10). -/
def rawV25 (w : Nat) : Except DecodeError Instr :=
  if fld w 0 2 = 0 then .ok (.vmaxB (fbv 6 19 w) (fbv 6 13 w) (fbv 6 7 w) (fbv 2 5 w) (fbv 3 2 w)) else
  .error .unassignedFields

/-- Slot V, opcode 0x26 (02 Table 2-10). -/
def rawV26 (w : Nat) : Except DecodeError Instr :=
  if fld w 7 6 = 0 ∧ fld w 0 2 = 0 then .ok (.vabsB (fbv 6 19 w) (fbv 6 13 w) (fbv 2 5 w) (fbv 3 2 w)) else
  .error .unassignedFields

/-- Slot V, opcode 0x27 (02 Table 2-10). -/
def rawV27 (w : Nat) : Except DecodeError Instr :=
  if fld w 7 6 = 0 ∧ fld w 0 2 = 0 then .ok (.vnegB (fbv 6 19 w) (fbv 6 13 w) (fbv 2 5 w) (fbv 3 2 w)) else
  .error .unassignedFields

/-- Slot V, opcode 0x28 (02 Table 2-10). -/
def rawV28 (w : Nat) : Except DecodeError Instr :=
  if fld w 23 2 = 0 then .ok (.vcmpB (fbv 1 22 w) (fbv 3 19 w) (fbv 6 13 w) (fbv 6 7 w) (fbv 2 5 w) (fbv 3 2 w) (fbv 2 0 w)) else
  .error .unassignedFields

/-- Slot V, opcode 0x29 (02 Table 2-10). -/
def rawV29 (w : Nat) : Except DecodeError Instr :=
  if fld w 0 2 = 0 then .ok (.vselB (fbv 6 19 w) (fbv 6 13 w) (fbv 6 7 w) (fbv 2 5 w) (fbv 3 2 w)) else
  .error .unassignedFields

/-- Slot V, opcode 0x30 (02 Table 2-10). -/
def rawV30 (w : Nat) : Except DecodeError Instr :=
  .ok (.vaddx (fbv 6 19 w) (fbv 6 13 w) (fbv 6 7 w) (fbv 2 5 w) (fbv 3 2 w) (fbv 2 0 w))

/-- Slot V, opcode 0x31 (02 Table 2-10). -/
def rawV31 (w : Nat) : Except DecodeError Instr :=
  .ok (.vsubx (fbv 6 19 w) (fbv 6 13 w) (fbv 6 7 w) (fbv 2 5 w) (fbv 3 2 w) (fbv 2 0 w))

/-- Slot V, opcode 0x32 (02 Table 2-10). -/
def rawV32 (w : Nat) : Except DecodeError Instr :=
  .ok (.vmulx (fbv 6 19 w) (fbv 6 13 w) (fbv 6 7 w) (fbv 2 5 w) (fbv 3 2 w) (fbv 2 0 w))

/-- Slot V, opcode 0x33 (02 Table 2-10). -/
def rawV33 (w : Nat) : Except DecodeError Instr :=
  .ok (.dwadd (fbv 6 19 w) (fbv 6 13 w) (fbv 6 7 w) (fbv 2 5 w) (fbv 3 2 w) (fbv 2 0 w))

/-- Slot V, opcode 0x34 (02 Table 2-10). -/
def rawV34 (w : Nat) : Except DecodeError Instr :=
  .ok (.dwsub (fbv 6 19 w) (fbv 6 13 w) (fbv 6 7 w) (fbv 2 5 w) (fbv 3 2 w) (fbv 2 0 w))

/-- Slot V, opcode 0x35 (02 Table 2-10). -/
def rawV35 (w : Nat) : Except DecodeError Instr :=
  .ok (.dwmul (fbv 6 19 w) (fbv 6 13 w) (fbv 6 7 w) (fbv 2 5 w) (fbv 3 2 w) (fbv 2 0 w))

/-- Slot V, opcode 0x36 (02 Table 2-10). -/
def rawV36 (w : Nat) : Except DecodeError Instr :=
  .ok (.dwdiv (fbv 6 19 w) (fbv 6 13 w) (fbv 6 7 w) (fbv 2 5 w) (fbv 3 2 w) (fbv 2 0 w))

/-- Slot V, opcode 0x37 (02 Table 2-10). -/
def rawV37 (w : Nat) : Except DecodeError Instr :=
  if fld w 7 6 = 0 then .ok (.dwnorm (fbv 6 19 w) (fbv 6 13 w) (fbv 2 5 w) (fbv 3 2 w) (fbv 2 0 w)) else
  .error .unassignedFields

/-- Slot V, opcode 0x38 (02 Table 2-10). -/
def rawV38 (w : Nat) : Except DecodeError Instr :=
  if fld w 7 6 = 0 then .ok (.vsum (fbv 6 19 w) (fbv 6 13 w) (fbv 2 5 w) (fbv 3 2 w) (fbv 2 0 w)) else
  .error .unassignedFields

/-- Slot V, opcode 0x39 (02 Table 2-10). -/
def rawV39 (w : Nat) : Except DecodeError Instr :=
  if fld w 7 6 = 0 then .ok (.vsumx (fbv 6 19 w) (fbv 6 13 w) (fbv 2 5 w) (fbv 3 2 w) (fbv 2 0 w)) else
  .error .unassignedFields

/-- Slot V, opcode 0x3A (02 Table 2-10). -/
def rawV3A (w : Nat) : Except DecodeError Instr :=
  if fld w 7 6 = 0 ∧ fld w 0 2 = 0 then .ok (.vmaxr (fbv 6 19 w) (fbv 6 13 w) (fbv 2 5 w) (fbv 3 2 w)) else
  .error .unassignedFields

/-- Slot V, opcode 0x3B (02 Table 2-10). -/
def rawV3B (w : Nat) : Except DecodeError Instr :=
  if fld w 7 6 = 0 ∧ fld w 0 2 = 0 then .ok (.vminr (fbv 6 19 w) (fbv 6 13 w) (fbv 2 5 w) (fbv 3 2 w)) else
  .error .unassignedFields

/-- Slot V, opcode 0x40 (02 Table 2-10). -/
def rawV40 (w : Nat) : Except DecodeError Instr :=
  .ok (.viadd (fbv 6 19 w) (fbv 6 13 w) (fbv 6 7 w) (fbv 2 5 w) (fbv 3 2 w) (fbv 2 0 w))

/-- Slot V, opcode 0x41 (02 Table 2-10). -/
def rawV41 (w : Nat) : Except DecodeError Instr :=
  .ok (.visub (fbv 6 19 w) (fbv 6 13 w) (fbv 6 7 w) (fbv 2 5 w) (fbv 3 2 w) (fbv 2 0 w))

/-- Slot V, opcode 0x42 (02 Table 2-10). -/
def rawV42 (w : Nat) : Except DecodeError Instr :=
  .ok (.vimul (fbv 6 19 w) (fbv 6 13 w) (fbv 6 7 w) (fbv 2 5 w) (fbv 3 2 w) (fbv 2 0 w))

/-- Slot V, opcode 0x43 (02 Table 2-10). -/
def rawV43 (w : Nat) : Except DecodeError Instr :=
  .ok (.vimad (fbv 6 19 w) (fbv 6 13 w) (fbv 6 7 w) (fbv 2 5 w) (fbv 3 2 w) (fbv 2 0 w))

/-- Slot V, opcode 0x44 (02 Table 2-10). -/
def rawV44 (w : Nat) : Except DecodeError Instr :=
  if fld w 0 2 = 0 then .ok (.vand (fbv 6 19 w) (fbv 6 13 w) (fbv 6 7 w) (fbv 2 5 w) (fbv 3 2 w)) else
  .error .unassignedFields

/-- Slot V, opcode 0x45 (02 Table 2-10). -/
def rawV45 (w : Nat) : Except DecodeError Instr :=
  if fld w 0 2 = 0 then .ok (.vor (fbv 6 19 w) (fbv 6 13 w) (fbv 6 7 w) (fbv 2 5 w) (fbv 3 2 w)) else
  .error .unassignedFields

/-- Slot V, opcode 0x46 (02 Table 2-10). -/
def rawV46 (w : Nat) : Except DecodeError Instr :=
  if fld w 0 2 = 0 then .ok (.vxor (fbv 6 19 w) (fbv 6 13 w) (fbv 6 7 w) (fbv 2 5 w) (fbv 3 2 w)) else
  .error .unassignedFields

/-- Slot V, opcode 0x47 (02 Table 2-10). -/
def rawV47 (w : Nat) : Except DecodeError Instr :=
  if fld w 7 6 = 0 ∧ fld w 0 2 = 0 then .ok (.vnot (fbv 6 19 w) (fbv 6 13 w) (fbv 2 5 w) (fbv 3 2 w)) else
  .error .unassignedFields

/-- Slot V, opcode 0x48 (02 Table 2-10). -/
def rawV48 (w : Nat) : Except DecodeError Instr :=
  if fld w 1 1 = 0 then .ok (.vshl (fbv 6 19 w) (fbv 6 13 w) (fbv 6 7 w) (fbv 2 5 w) (fbv 3 2 w) (fbv 1 0 w)) else
  .error .unassignedFields

/-- Slot V, opcode 0x49 (02 Table 2-10). -/
def rawV49 (w : Nat) : Except DecodeError Instr :=
  if fld w 1 1 = 0 then .ok (.vshr (fbv 6 19 w) (fbv 6 13 w) (fbv 6 7 w) (fbv 2 5 w) (fbv 3 2 w) (fbv 1 0 w)) else
  .error .unassignedFields

/-- Slot V, opcode 0x4A (02 Table 2-10). -/
def rawV4A (w : Nat) : Except DecodeError Instr :=
  if fld w 1 1 = 0 then .ok (.vsar (fbv 6 19 w) (fbv 6 13 w) (fbv 6 7 w) (fbv 2 5 w) (fbv 3 2 w) (fbv 1 0 w)) else
  .error .unassignedFields

/-- Slot V, opcode 0x4B (02 Table 2-10). -/
def rawV4B (w : Nat) : Except DecodeError Instr :=
  if fld w 22 3 = 0 then .ok (.vicmp (fbv 3 19 w) (fbv 6 13 w) (fbv 6 7 w) (fbv 2 5 w) (fbv 3 2 w) (fbv 2 0 w)) else
  .error .unassignedFields

/-- Slot V, opcode 0x4C (02 Table 2-10). -/
def rawV4C (w : Nat) : Except DecodeError Instr :=
  if fld w 22 3 = 0 ∧ fld w 16 3 = 0 ∧ fld w 10 3 = 0 ∧ fld w 0 5 = 0 then .ok (.vmand (fbv 3 19 w) (fbv 3 13 w) (fbv 3 7 w) (fbv 2 5 w)) else
  .error .unassignedFields

/-- Slot V, opcode 0x4D (02 Table 2-10). -/
def rawV4D (w : Nat) : Except DecodeError Instr :=
  if fld w 22 3 = 0 ∧ fld w 16 3 = 0 ∧ fld w 10 3 = 0 ∧ fld w 0 5 = 0 then .ok (.vmor (fbv 3 19 w) (fbv 3 13 w) (fbv 3 7 w) (fbv 2 5 w)) else
  .error .unassignedFields

/-- Slot V, opcode 0x4E (02 Table 2-10). -/
def rawV4E (w : Nat) : Except DecodeError Instr :=
  if fld w 22 3 = 0 ∧ fld w 16 3 = 0 ∧ fld w 10 3 = 0 ∧ fld w 0 5 = 0 then .ok (.vmxor (fbv 3 19 w) (fbv 3 13 w) (fbv 3 7 w) (fbv 2 5 w)) else
  .error .unassignedFields

/-- Slot V, opcode 0x4F (02 Table 2-10). -/
def rawV4F (w : Nat) : Except DecodeError Instr :=
  if fld w 22 3 = 0 ∧ fld w 16 3 = 0 ∧ fld w 7 6 = 0 ∧ fld w 0 5 = 0 then .ok (.vmnot (fbv 3 19 w) (fbv 3 13 w) (fbv 2 5 w)) else
  .error .unassignedFields

/-- Slot V, opcode 0x58 (02 Table 2-10). -/
def rawV58 (w : Nat) : Except DecodeError Instr :=
  if fld w 11 2 = 0 then .ok (.vcvtPack (fbv 6 19 w) (fbv 6 13 w) (fbv 4 7 w) (fbv 2 5 w) (fbv 3 2 w) (fbv 2 0 w)) else
  if fld w 11 2 = 1 then .ok (.vcvtUnpack (fbv 6 19 w) (fbv 6 13 w) (fbv 4 7 w) (fbv 2 5 w) (fbv 3 2 w) (fbv 2 0 w)) else
  .error .unassignedFields

/-- Slot V, opcode 0x59 (02 Table 2-10). -/
def rawV59 (w : Nat) : Except DecodeError Instr :=
  .ok (.vscl (fbv 6 19 w) (fbv 6 13 w) (fbv 6 7 w) (fbv 2 5 w) (fbv 3 2 w) (fbv 2 0 w))

/-- Slot V, opcode 0x5A (02 Table 2-10). -/
def rawV5A (w : Nat) : Except DecodeError Instr :=
  if fld w 7 6 = 0 then .ok (.vexp2 (fbv 6 19 w) (fbv 6 13 w) (fbv 2 5 w) (fbv 3 2 w) (fbv 2 0 w)) else
  .error .unassignedFields

/-- Slot V, opcode 0x5B (02 Table 2-10). -/
def rawV5B (w : Nat) : Except DecodeError Instr :=
  if fld w 7 6 = 0 then .ok (.vlog2 (fbv 6 19 w) (fbv 6 13 w) (fbv 2 5 w) (fbv 3 2 w) (fbv 2 0 w)) else
  .error .unassignedFields

/-- Slot V, opcode 0x5C (02 Table 2-10). -/
def rawV5C (w : Nat) : Except DecodeError Instr :=
  if fld w 7 6 = 0 then .ok (.vtanh (fbv 6 19 w) (fbv 6 13 w) (fbv 2 5 w) (fbv 3 2 w) (fbv 2 0 w)) else
  .error .unassignedFields

/-- Slot V, opcode 0x68 (02 Table 2-10). -/
def rawV68 (w : Nat) : Except DecodeError Instr :=
  if fld w 0 1 = 0 then .ok (.vperm (fbv 6 19 w) (fbv 6 13 w) (fbv 6 7 w) (fbv 6 1 w)) else
  .error .unassignedFields

/-- Slot V, opcode 0x69 (02 Table 2-10). -/
def rawV69 (w : Nat) : Except DecodeError Instr :=
  if fld w 0 25 = 0 then .ok (.vpsw) else
  .error .unassignedFields

/-- Slot V, opcode 0x6A (02 Table 2-10). -/
def rawV6A (w : Nat) : Except DecodeError Instr :=
  if fld w 1 1 = 0 then .ok (.vrot (fbv 6 19 w) (fbv 6 13 w) (fbv 6 7 w) (fbv 2 5 w) (fbv 3 2 w) (fbv 1 0 w)) else
  .error .unassignedFields

/-- Slot V, opcode 0x6B (02 Table 2-10). -/
def rawV6B (w : Nat) : Except DecodeError Instr :=
  if fld w 1 1 = 0 then .ok (.vbcl (fbv 6 19 w) (fbv 6 13 w) (fbv 6 7 w) (fbv 2 5 w) (fbv 3 2 w) (fbv 1 0 w)) else
  .error .unassignedFields

/-- Slot V, opcode 0x70 (02 Table 2-10). -/
def rawV70 (w : Nat) : Except DecodeError Instr :=
  if fld w 7 7 = 0 ∧ fld w 0 2 = 0 then .ok (.xcX (fbv 6 19 w) (fbv 5 14 w) (fbv 2 5 w) (fbv 3 2 w)) else
  .error .unassignedFields

/-- Slot V, opcode 0x71 (02 Table 2-10). -/
def rawV71 (w : Nat) : Except DecodeError Instr :=
  if fld w 0 7 = 0 then .ok (.xcXl (fbv 6 19 w) (fbv 5 14 w) (fbv 7 7 w)) else
  .error .unassignedFields

/-- Slot M, opcode 0x01 (02 Table 2-11). -/
def rawM01 (w : Nat) : Except DecodeError Instr :=
  if fld w 15 4 = 0 then .ok (.mdset (fbv 3 23 w) (fbv 4 19 w) (fbv 15 0 w)) else
  .error .unassignedFields

/-- Slot M, opcode 0x02 (02 Table 2-11). -/
def rawM02 (w : Nat) : Except DecodeError Instr :=
  if fld w 15 8 = 0 then .ok (.mdld (fbv 3 23 w) (fbv 15 0 w)) else
  .error .unassignedFields

/-- Slot M, opcode 0x03 (02 Table 2-11). -/
def rawM03 (w : Nat) : Except DecodeError Instr :=
  if fld w 15 8 = 0 then .ok (.mdst (fbv 3 23 w) (fbv 15 0 w)) else
  .error .unassignedFields

/-- Slot M, opcode 0x04 (02 Table 2-11). -/
def rawM04 (w : Nat) : Except DecodeError Instr :=
  if fld w 20 6 = 0 ∧ fld w 0 17 = 0 then .ok (.mbld (fbv 3 17 w)) else
  .error .unassignedFields

/-- Slot M, opcode 0x05 (02 Table 2-11). -/
def rawM05 (w : Nat) : Except DecodeError Instr :=
  if fld w 0 23 = 0 then .ok (.mzero (fbv 3 23 w)) else
  .error .unassignedFields

/-- Slot M, opcode 0x06 (02 Table 2-11). -/
def rawM06 (w : Nat) : Except DecodeError Instr :=
  if fld w 2 15 = 0 then .ok (.moutm (fbv 3 23 w) (fbv 3 20 w) (fbv 3 17 w) (fbv 1 1 w) (fbv 1 0 w)) else
  .error .unassignedFields

/-- Slot M, opcode 0x07 (02 Table 2-11). -/
def rawM07 (w : Nat) : Except DecodeError Instr :=
  if fld w 0 26 = 0 then .ok (.blend0) else
  if fld w 0 26 = 1 then .ok (.blend1) else
  if fld w 0 26 = 2 then .ok (.blend2) else
  if fld w 0 26 = 3 then .ok (.blend3) else
  if fld w 0 26 = 4 then .ok (.blend4) else
  if fld w 0 26 = 5 then .ok (.blend5) else
  .error .unassignedFields

/-- Slot M, opcode 0x08 (02 Table 2-11). -/
def rawM08 (w : Nat) : Except DecodeError Instr :=
  if fld w 0 26 = 0 then .ok (.bret0) else
  if fld w 0 26 = 1 then .ok (.bret1) else
  if fld w 0 26 = 2 then .ok (.bret2) else
  if fld w 0 26 = 3 then .ok (.bret3) else
  if fld w 0 26 = 4 then .ok (.bret4) else
  if fld w 0 26 = 5 then .ok (.bret5) else
  .error .unassignedFields

/-- Slot M, opcode 0x10 (02 Table 2-11). -/
def rawM10 (w : Nat) : Except DecodeError Instr :=
  if fld w 1 14 = 0 then .ok (.mma (fbv 3 23 w) (fbv 3 20 w) (fbv 3 17 w) (fbv 2 15 w) (fbv 1 0 w)) else
  .error .unassignedFields

/-- Slot M, opcode 0x11 (02 Table 2-11). -/
def rawM11 (w : Nat) : Except DecodeError Instr :=
  if fld w 1 14 = 0 then .ok (.mmaCk (fbv 3 23 w) (fbv 3 20 w) (fbv 3 17 w) (fbv 2 15 w) (fbv 1 0 w)) else
  .error .unassignedFields

/-- Slot M, opcode 0x20 (02 Table 2-11). -/
def rawM20 (w : Nat) : Except DecodeError Instr :=
  if fld w 5 18 = 0 then .ok (.mlu (fbv 3 23 w) (fbv 1 4 w) (fbv 2 2 w) (fbv 2 0 w)) else
  .error .unassignedFields

/-- Slot M, opcode 0x21 (02 Table 2-11). -/
def rawM21 (w : Nat) : Except DecodeError Instr :=
  if fld w 4 19 = 0 then .ok (.mchol (fbv 3 23 w) (fbv 2 2 w) (fbv 2 0 w)) else
  .error .unassignedFields

/-- Slot M, opcode 0x22 (02 Table 2-11). -/
def rawM22 (w : Nat) : Except DecodeError Instr :=
  if fld w 4 19 = 0 then .ok (.mqr (fbv 3 23 w) (fbv 2 2 w) (fbv 2 0 w)) else
  .error .unassignedFields

/-- Slot M, opcode 0x23 (02 Table 2-11). -/
def rawM23 (w : Nat) : Except DecodeError Instr :=
  if fld w 9 11 = 0 ∧ fld w 0 2 = 0 then .ok (.mtrsm (fbv 3 23 w) (fbv 3 20 w) (fbv 1 8 w) (fbv 1 7 w) (fbv 1 6 w) (fbv 1 5 w) (fbv 1 4 w) (fbv 2 2 w)) else
  .error .unassignedFields

/-- Slot M, opcode 0x24 (02 Table 2-11). -/
def rawM24 (w : Nat) : Except DecodeError Instr :=
  if fld w 14 9 = 0 ∧ fld w 2 2 = 0 then .ok (.mperm (fbv 3 23 w) (fbv 7 7 w) (fbv 1 6 w) (fbv 1 5 w) (fbv 1 4 w) (fbv 2 0 w)) else
  .error .unassignedFields

/-- Slot M, opcode 0x25 (02 Table 2-11). -/
def rawM25 (w : Nat) : Except DecodeError Instr :=
  if fld w 11 15 = 0 then .ok (.mpiv (fbv 7 4 w) (fbv 2 2 w) (fbv 2 0 w)) else
  .error .unassignedFields

/-- Slot M, opcode 0x30 (02 Table 2-11). -/
def rawM30 (w : Nat) : Except DecodeError Instr :=
  if fld w 15 3 = 0 ∧ fld w 0 9 = 0 then .ok (.xcXMatrix (fbv 3 23 w) (fbv 5 18 w) (fbv 2 13 w) (fbv 4 9 w)) else
  .error .unassignedFields

/-- Slot T, opcode 0x01 (02 Table 2-12). -/
def rawT01 (w : Nat) : Except DecodeError Instr :=
  if fld w 16 1 = 0 ∧ fld w 0 12 = 0 then .ok (.adda (fbv 4 21 w) (fbv 4 17 w) (fbv 4 12 w)) else
  if fld w 16 1 = 1 then .ok (.addaImmediate (fbv 4 21 w) (fbv 4 17 w) (fbv 16 0 w)) else
  .error .unassignedFields

/-- Slot T, opcode 0x02 (02 Table 2-12). -/
def rawT02 (w : Nat) : Except DecodeError Instr :=
  if fld w 16 1 = 0 ∧ fld w 0 12 = 0 then .ok (.suba (fbv 4 21 w) (fbv 4 17 w) (fbv 4 12 w)) else
  if fld w 16 1 = 1 then .ok (.subaImmediate (fbv 4 21 w) (fbv 4 17 w) (fbv 16 0 w)) else
  .error .unassignedFields

/-- Slot T, opcode 0x03 (02 Table 2-12). -/
def rawT03 (w : Nat) : Except DecodeError Instr :=
  if fld w 16 1 = 0 ∧ fld w 0 12 = 0 then .ok (.shla (fbv 4 21 w) (fbv 4 17 w) (fbv 4 12 w)) else
  if fld w 6 11 = 1024 then .ok (.shlaImmediate (fbv 4 21 w) (fbv 4 17 w) (fbv 6 0 w)) else
  .error .unassignedFields

/-- Slot T, opcode 0x04 (02 Table 2-12). -/
def rawT04 (w : Nat) : Except DecodeError Instr :=
  .ok (.lia (fbv 4 21 w) (fbv 21 0 w))

/-- Slot T, opcode 0x05 (02 Table 2-12). -/
def rawT05 (w : Nat) : Except DecodeError Instr :=
  if fld w 0 4 = 0 then .ok (.hder (fbv 4 21 w) (fbv 4 17 w) (fbv 4 13 w) (fbv 4 9 w) (fbv 5 4 w)) else
  .error .unassignedFields

/-- Slot T, opcode 0x06 (02 Table 2-12). -/
def rawT06 (w : Nat) : Except DecodeError Instr :=
  if fld w 0 21 = 0 then .ok (.hnul (fbv 4 21 w)) else
  .error .unassignedFields

/-- Slot T, opcode 0x07 (02 Table 2-12). -/
def rawT07 (w : Nat) : Except DecodeError Instr :=
  .ok (.hld (fbv 4 21 w) (fbv 4 17 w) (fbv 4 13 w) (fbv 13 0 w))

/-- Slot T, opcode 0x08 (02 Table 2-12). -/
def rawT08 (w : Nat) : Except DecodeError Instr :=
  .ok (.hst (fbv 4 21 w) (fbv 4 17 w) (fbv 4 13 w) (fbv 13 0 w))

/-- Slot T, opcode 0x09 (02 Table 2-12). -/
def rawT09 (w : Nat) : Except DecodeError Instr :=
  if fld w 0 25 = 0 then .ok (.scinv) else
  if fld w 24 1 = 1 ∧ fld w 0 12 = 0 then .ok (.scinvRange (fbv 4 20 w) (fbv 4 16 w) (fbv 4 12 w)) else
  .error .unassignedFields

/-- Slot T, opcode 0x0A (02 Table 2-12). -/
def rawT0A (w : Nat) : Except DecodeError Instr :=
  if fld w 0 12 = 0 then .ok (.bcfl (fbv 4 21 w) (fbv 4 17 w) (fbv 4 13 w) (fbv 1 12 w)) else
  .error .unassignedFields

/-- Slot T, opcode 0x10 (02 Table 2-12). -/
def rawT10 (w : Nat) : Except DecodeError Instr :=
  .ok (.ld (fbv 5 20 w) (fbv 4 16 w) (fbv 4 12 w) (fbv 2 10 w) (fbv 10 0 w))

/-- Slot T, opcode 0x11 (02 Table 2-12). -/
def rawT11 (w : Nat) : Except DecodeError Instr :=
  .ok (.ldn (fbv 5 20 w) (fbv 4 16 w) (fbv 4 12 w) (fbv 2 10 w) (fbv 10 0 w))

/-- Slot T, opcode 0x12 (02 Table 2-12). -/
def rawT12 (w : Nat) : Except DecodeError Instr :=
  .ok (.st (fbv 5 20 w) (fbv 4 16 w) (fbv 4 12 w) (fbv 2 10 w) (fbv 10 0 w))

/-- Slot T, opcode 0x13 (02 Table 2-12). -/
def rawT13 (w : Nat) : Except DecodeError Instr :=
  .ok (.vld (fbv 6 19 w) (fbv 4 15 w) (fbv 4 11 w) (fbv 2 9 w) (fbv 9 0 w))

/-- Slot T, opcode 0x14 (02 Table 2-12). -/
def rawT14 (w : Nat) : Except DecodeError Instr :=
  .ok (.vst (fbv 6 19 w) (fbv 4 15 w) (fbv 4 11 w) (fbv 2 9 w) (fbv 9 0 w))

/-- Slot T, opcode 0x15 (02 Table 2-12). -/
def rawT15 (w : Nat) : Except DecodeError Instr :=
  if fld w 0 5 = 0 then .ok (.vlds (fbv 6 19 w) (fbv 4 15 w) (fbv 4 11 w) (fbv 4 7 w) (fbv 2 5 w)) else
  .error .unassignedFields

/-- Slot T, opcode 0x16 (02 Table 2-12). -/
def rawT16 (w : Nat) : Except DecodeError Instr :=
  if fld w 0 5 = 0 then .ok (.vsts (fbv 6 19 w) (fbv 4 15 w) (fbv 4 11 w) (fbv 4 7 w) (fbv 2 5 w)) else
  .error .unassignedFields

/-- Slot T, opcode 0x17 (02 Table 2-12). -/
def rawT17 (w : Nat) : Except DecodeError Instr :=
  if fld w 0 1 = 0 then .ok (.vgth (fbv 6 19 w) (fbv 4 15 w) (fbv 4 11 w) (fbv 4 7 w) (fbv 4 3 w) (fbv 2 1 w)) else
  .error .unassignedFields

/-- Slot T, opcode 0x18 (02 Table 2-12). -/
def rawT18 (w : Nat) : Except DecodeError Instr :=
  if fld w 0 1 = 0 then .ok (.vsct (fbv 6 19 w) (fbv 4 15 w) (fbv 4 11 w) (fbv 4 7 w) (fbv 4 3 w) (fbv 2 1 w)) else
  .error .unassignedFields

/-- Slot T, opcode 0x19 (02 Table 2-12). -/
def rawT19 (w : Nat) : Except DecodeError Instr :=
  if fld w 24 1 = 0 then .ok (.cld (fbv 5 19 w) (fbv 4 15 w) (fbv 4 11 w) (fbv 2 9 w) (fbv 9 0 w)) else
  if fld w 24 1 = 1 then .ok (.cldVector (fbv 6 18 w) (fbv 4 14 w) (fbv 4 10 w) (fbv 2 8 w) (fbv 8 0 w)) else
  .error .unassignedFields

/-- Slot T, opcode 0x1A (02 Table 2-12). -/
def rawT1A (w : Nat) : Except DecodeError Instr :=
  if fld w 24 1 = 0 then .ok (.cst (fbv 5 19 w) (fbv 4 15 w) (fbv 4 11 w) (fbv 2 9 w) (fbv 9 0 w)) else
  if fld w 24 1 = 1 then .ok (.cstVector (fbv 6 18 w) (fbv 4 14 w) (fbv 4 10 w) (fbv 2 8 w) (fbv 8 0 w)) else
  .error .unassignedFields

/-- Slot T, opcode 0x1B (02 Table 2-12). -/
def rawT1B (w : Nat) : Except DecodeError Instr :=
  .ok (.tvld (fbv 6 19 w) (fbv 4 15 w) (fbv 4 11 w) (fbv 2 9 w) (fbv 9 0 w))

/-- Slot T, opcode 0x1C (02 Table 2-12). -/
def rawT1C (w : Nat) : Except DecodeError Instr :=
  .ok (.tvst (fbv 6 19 w) (fbv 4 15 w) (fbv 4 11 w) (fbv 2 9 w) (fbv 9 0 w))

/-- Slot T, opcode 0x30 (02 Table 2-12). -/
def rawT30 (w : Nat) : Except DecodeError Instr :=
  if fld w 0 14 = 0 then .ok (.pcfg (fbv 3 22 w) (fbv 4 18 w) (fbv 4 14 w)) else
  .error .unassignedFields

/-- Slot T, opcode 0x31 (02 Table 2-12). -/
def rawT31 (w : Nat) : Except DecodeError Instr :=
  if fld w 0 19 = 0 then .ok (.pgo (fbv 3 22 w) (fbv 3 19 w)) else
  .error .unassignedFields

/-- Slot T, opcode 0x32 (02 Table 2-12). -/
def rawT32 (w : Nat) : Except DecodeError Instr :=
  if fld w 0 22 = 0 then .ok (.pstop (fbv 3 22 w)) else
  .error .unassignedFields

/-- Slot T, opcode 0x33 (02 Table 2-12). -/
def rawT33 (w : Nat) : Except DecodeError Instr :=
  if fld w 0 5 = 0 then .ok (.pld (fbv 4 21 w) (fbv 4 17 w) (fbv 6 11 w) (fbv 6 5 w)) else
  .error .unassignedFields

/-- Slot T, opcode 0x40 (02 Table 2-12). -/
def rawT40 (w : Nat) : Except DecodeError Instr :=
  if fld w 0 1 = 0 then .ok (.copy (fbv 4 21 w) (fbv 4 17 w) (fbv 4 13 w) (fbv 4 9 w) (fbv 4 5 w) (fbv 1 4 w) (fbv 1 3 w) (fbv 1 2 w) (fbv 1 1 w)) else
  .error .unassignedFields

/-- Slot T, opcode 0x41 (02 Table 2-12). -/
def rawT41 (w : Nat) : Except DecodeError Instr :=
  if fld w 0 21 = 0 then .ok (.copyq (fbv 4 21 w)) else
  if fld w 0 21 = 1048576 then .ok (.copyqSt (fbv 4 21 w)) else
  .error .unassignedFields

/-- Slot T, opcode 0x42 (02 Table 2-12). -/
def rawT42 (w : Nat) : Except DecodeError Instr :=
  if fld w 0 25 = 0 then .ok (.cancel) else
  .error .unassignedFields

/-- Slot T, opcode 0x43 (02 Table 2-12). -/
def rawT43 (w : Nat) : Except DecodeError Instr :=
  if fld w 0 5 = 0 then .ok (.wstr (fbv 4 21 w) (fbv 4 17 w) (fbv 4 13 w) (fbv 4 9 w) (fbv 4 5 w)) else
  .error .unassignedFields

/-- Slot T, opcode 0x44 (02 Table 2-12). -/
def rawT44 (w : Nat) : Except DecodeError Instr :=
  if fld w 0 5 = 0 then .ok (.frfl (fbv 4 21 w) (fbv 4 17 w) (fbv 4 13 w) (fbv 4 9 w) (fbv 4 5 w)) else
  .error .unassignedFields

/-- Slot T, opcode 0x45 (02 Table 2-12). -/
def rawT45 (w : Nat) : Except DecodeError Instr :=
  if fld w 0 5 = 0 then .ok (.shift (fbv 2 23 w) (fbv 2 21 w) (fbv 4 17 w) (fbv 4 13 w) (fbv 4 9 w) (fbv 4 5 w)) else
  .error .unassignedFields

/-- Slot T, opcode 0x46 (02 Table 2-12). -/
def rawT46 (w : Nat) : Except DecodeError Instr :=
  if fld w 0 5 = 0 then .ok (.reduce (fbv 4 21 w) (fbv 4 17 w) (fbv 4 13 w) (fbv 4 9 w) (fbv 4 5 w)) else
  .error .unassignedFields

/-- Slot T, opcode 0x50 (02 Table 2-12). -/
def rawT50 (w : Nat) : Except DecodeError Instr :=
  if fld w 21 4 = 0 then .ok (.atmAdd (fbv 2 19 w) (fbv 5 14 w) (fbv 4 10 w) (fbv 4 6 w) (fbv 5 1 w) (fbv 1 0 w)) else
  if fld w 21 4 = 1 then .ok (.atmFadd (fbv 2 19 w) (fbv 5 14 w) (fbv 4 10 w) (fbv 4 6 w) (fbv 5 1 w) (fbv 1 0 w)) else
  if fld w 21 4 = 2 then .ok (.atmMin (fbv 2 19 w) (fbv 5 14 w) (fbv 4 10 w) (fbv 4 6 w) (fbv 5 1 w) (fbv 1 0 w)) else
  if fld w 21 4 = 3 then .ok (.atmMax (fbv 2 19 w) (fbv 5 14 w) (fbv 4 10 w) (fbv 4 6 w) (fbv 5 1 w) (fbv 1 0 w)) else
  if fld w 21 4 = 4 then .ok (.atmAnd (fbv 2 19 w) (fbv 5 14 w) (fbv 4 10 w) (fbv 4 6 w) (fbv 5 1 w) (fbv 1 0 w)) else
  if fld w 21 4 = 5 then .ok (.atmOr (fbv 2 19 w) (fbv 5 14 w) (fbv 4 10 w) (fbv 4 6 w) (fbv 5 1 w) (fbv 1 0 w)) else
  if fld w 21 4 = 6 then .ok (.atmXor (fbv 2 19 w) (fbv 5 14 w) (fbv 4 10 w) (fbv 4 6 w) (fbv 5 1 w) (fbv 1 0 w)) else
  if fld w 21 4 = 7 then .ok (.atmXchg (fbv 2 19 w) (fbv 5 14 w) (fbv 4 10 w) (fbv 4 6 w) (fbv 5 1 w) (fbv 1 0 w)) else
  if fld w 21 4 = 8 then .ok (.atmCas (fbv 2 19 w) (fbv 5 14 w) (fbv 4 10 w) (fbv 4 6 w) (fbv 5 1 w) (fbv 1 0 w)) else
  if fld w 21 4 = 9 then .ok (.atmInc (fbv 2 19 w) (fbv 5 14 w) (fbv 4 10 w) (fbv 4 6 w) (fbv 5 1 w) (fbv 1 0 w)) else
  .error .unassignedFields

/-- Slot T, opcode 0x51 (02 Table 2-12). -/
def rawT51 (w : Nat) : Except DecodeError Instr :=
  if fld w 19 6 = 0 ∧ fld w 0 1 = 0 then .ok (.bobInit (fbv 5 14 w) (fbv 4 10 w) (fbv 4 6 w) (fbv 5 1 w)) else
  .error .unassignedFields

/-- Slot T, opcode 0x52 (02 Table 2-12). -/
def rawT52 (w : Nat) : Except DecodeError Instr :=
  if fld w 19 6 = 0 ∧ fld w 0 6 = 0 then .ok (.bobArr (fbv 5 14 w) (fbv 4 10 w) (fbv 4 6 w)) else
  .error .unassignedFields

/-- Slot T, opcode 0x53 (02 Table 2-12). -/
def rawT53 (w : Nat) : Except DecodeError Instr :=
  if fld w 19 6 = 0 ∧ fld w 0 1 = 0 then .ok (.bobWait (fbv 5 14 w) (fbv 4 10 w) (fbv 4 6 w) (fbv 5 1 w)) else
  .error .unassignedFields

/-- Slot T, opcode 0x54 (02 Table 2-12). -/
def rawT54 (w : Nat) : Except DecodeError Instr :=
  if fld w 0 13 = 0 then .ok (.tsetf (fbv 4 21 w) (fbv 4 17 w) (fbv 4 13 w)) else
  .error .unassignedFields

/-- Slot T, opcode 0x55 (02 Table 2-12). -/
def rawT55 (w : Nat) : Except DecodeError Instr :=
  if fld w 0 13 = 0 then .ok (.tsete (fbv 4 21 w) (fbv 4 17 w) (fbv 4 13 w)) else
  .error .unassignedFields

/-- Slot T, opcode 0x60 (02 Table 2-12). -/
def rawT60 (w : Nat) : Except DecodeError Instr :=
  if fld w 0 21 = 0 then .ok (.sleepu (fbv 4 21 w)) else
  .error .unassignedFields

/-- Slot T, opcode 0x61 (02 Table 2-12). -/
def rawT61 (w : Nat) : Except DecodeError Instr :=
  if fld w 0 21 = 0 then .ok (.tdefer (fbv 4 21 w)) else
  .error .unassignedFields

/-- Slot T, opcode 0x62 (02 Table 2-12). -/
def rawT62 (w : Nat) : Except DecodeError Instr :=
  if fld w 0 13 = 0 then .ok (.tdead (fbv 4 21 w) (fbv 4 17 w) (fbv 4 13 w)) else
  .error .unassignedFields

/-- Slot T, opcode 0x63 (02 Table 2-12). -/
def rawT63 (w : Nat) : Except DecodeError Instr :=
  if fld w 0 13 = 0 then .ok (.hdead (fbv 4 21 w) (fbv 4 17 w) (fbv 4 13 w)) else
  .error .unassignedFields

/-- Slot T, opcode 0x64 (02 Table 2-12). -/
def rawT64 (w : Nat) : Except DecodeError Instr :=
  if fld w 0 8 = 0 then .ok (.trmw (fbv 4 21 w) (fbv 4 17 w) (fbv 4 13 w) (fbv 4 9 w) (fbv 1 8 w)) else
  .error .unassignedFields

/-- Slot T, opcode 0x68 (02 Table 2-12). -/
def rawT68 (w : Nat) : Except DecodeError Instr :=
  if fld w 0 13 = 0 then .ok (.xcXAddress (fbv 2 23 w) (fbv 4 19 w) (fbv 5 14 w) (fbv 1 13 w)) else
  .error .unassignedFields

/-- Slot C of a bundle: its operation, by the opcode field [31:26] (R38, R59, Table 2-9). -/
def rawC (w : Nat) : Except DecodeError Instr :=
  match fld w 26 6 with
  | 0 => if w = 0 then .ok .noOp else .error .zeroOpcode
  | 1 => rawC01 w
  | 2 => rawC02 w
  | 3 => rawC03 w
  | 4 => rawC04 w
  | 5 => rawC05 w
  | 6 => rawC06 w
  | 7 => rawC07 w
  | 8 => rawC08 w
  | 9 => rawC09 w
  | 10 => rawC0A w
  | 11 => rawC0B w
  | 12 => rawC0C w
  | 16 => rawC10 w
  | 17 => rawC11 w
  | 18 => rawC12 w
  | 19 => rawC13 w
  | 20 => rawC14 w
  | 24 => rawC18 w
  | 25 => rawC19 w
  | 26 => rawC1A w
  | 27 => rawC1B w
  | 28 => rawC1C w
  | 29 => rawC1D w
  | 30 => rawC1E w
  | 32 => rawC20 w
  | 33 => rawC21 w
  | 34 => rawC22 w
  | 35 => rawC23 w
  | 36 => rawC24 w
  | 37 => rawC25 w
  | 38 => rawC26 w
  | 40 => rawC28 w
  | 41 => rawC29 w
  | 42 => rawC2A w
  | 48 => rawC30 w
  | 49 => rawC31 w
  | 50 => rawC32 w
  | 51 => rawC33 w
  | 52 => rawC34 w
  | 53 => rawC35 w
  | 54 => rawC36 w
  | 55 => rawC37 w
  | 61 => rawC3D w
  | _ => .error .unassignedOpcode

/-- Slot V of a bundle: its operation, by the opcode field [31:25] (R38, R59, Table 2-10). -/
def rawV (w : Nat) : Except DecodeError Instr :=
  match fld w 25 7 with
  | 0 => if w = 0 then .ok .noOp else .error .zeroOpcode
  | 1 => rawV01 w
  | 2 => rawV02 w
  | 3 => rawV03 w
  | 4 => rawV04 w
  | 5 => rawV05 w
  | 6 => rawV06 w
  | 7 => rawV07 w
  | 8 => rawV08 w
  | 9 => rawV09 w
  | 10 => rawV0A w
  | 11 => rawV0B w
  | 12 => rawV0C w
  | 13 => rawV0D w
  | 14 => rawV0E w
  | 15 => rawV0F w
  | 16 => rawV10 w
  | 17 => rawV11 w
  | 18 => rawV12 w
  | 19 => rawV13 w
  | 20 => rawV14 w
  | 21 => rawV15 w
  | 22 => rawV16 w
  | 23 => rawV17 w
  | 24 => rawV18 w
  | 25 => rawV19 w
  | 26 => rawV1A w
  | 27 => rawV1B w
  | 28 => rawV1C w
  | 29 => rawV1D w
  | 30 => rawV1E w
  | 31 => rawV1F w
  | 32 => rawV20 w
  | 33 => rawV21 w
  | 34 => rawV22 w
  | 35 => rawV23 w
  | 36 => rawV24 w
  | 37 => rawV25 w
  | 38 => rawV26 w
  | 39 => rawV27 w
  | 40 => rawV28 w
  | 41 => rawV29 w
  | 48 => rawV30 w
  | 49 => rawV31 w
  | 50 => rawV32 w
  | 51 => rawV33 w
  | 52 => rawV34 w
  | 53 => rawV35 w
  | 54 => rawV36 w
  | 55 => rawV37 w
  | 56 => rawV38 w
  | 57 => rawV39 w
  | 58 => rawV3A w
  | 59 => rawV3B w
  | 64 => rawV40 w
  | 65 => rawV41 w
  | 66 => rawV42 w
  | 67 => rawV43 w
  | 68 => rawV44 w
  | 69 => rawV45 w
  | 70 => rawV46 w
  | 71 => rawV47 w
  | 72 => rawV48 w
  | 73 => rawV49 w
  | 74 => rawV4A w
  | 75 => rawV4B w
  | 76 => rawV4C w
  | 77 => rawV4D w
  | 78 => rawV4E w
  | 79 => rawV4F w
  | 88 => rawV58 w
  | 89 => rawV59 w
  | 90 => rawV5A w
  | 91 => rawV5B w
  | 92 => rawV5C w
  | 104 => rawV68 w
  | 105 => rawV69 w
  | 106 => rawV6A w
  | 107 => rawV6B w
  | 112 => rawV70 w
  | 113 => rawV71 w
  | _ => .error .unassignedOpcode

/-- Slot M of a bundle: its operation, by the opcode field [31:26] (R38, R59, Table 2-11). -/
def rawM (w : Nat) : Except DecodeError Instr :=
  match fld w 26 6 with
  | 0 => if w = 0 then .ok .noOp else .error .zeroOpcode
  | 1 => rawM01 w
  | 2 => rawM02 w
  | 3 => rawM03 w
  | 4 => rawM04 w
  | 5 => rawM05 w
  | 6 => rawM06 w
  | 7 => rawM07 w
  | 8 => rawM08 w
  | 16 => rawM10 w
  | 17 => rawM11 w
  | 32 => rawM20 w
  | 33 => rawM21 w
  | 34 => rawM22 w
  | 35 => rawM23 w
  | 36 => rawM24 w
  | 37 => rawM25 w
  | 48 => rawM30 w
  | _ => .error .unassignedOpcode

/-- Slot T of a bundle: its operation, by the opcode field [31:25] (R38, R59, Table 2-12). -/
def rawT (w : Nat) : Except DecodeError Instr :=
  match fld w 25 7 with
  | 0 => if w = 0 then .ok .noOp else .error .zeroOpcode
  | 1 => rawT01 w
  | 2 => rawT02 w
  | 3 => rawT03 w
  | 4 => rawT04 w
  | 5 => rawT05 w
  | 6 => rawT06 w
  | 7 => rawT07 w
  | 8 => rawT08 w
  | 9 => rawT09 w
  | 10 => rawT0A w
  | 16 => rawT10 w
  | 17 => rawT11 w
  | 18 => rawT12 w
  | 19 => rawT13 w
  | 20 => rawT14 w
  | 21 => rawT15 w
  | 22 => rawT16 w
  | 23 => rawT17 w
  | 24 => rawT18 w
  | 25 => rawT19 w
  | 26 => rawT1A w
  | 27 => rawT1B w
  | 28 => rawT1C w
  | 48 => rawT30 w
  | 49 => rawT31 w
  | 50 => rawT32 w
  | 51 => rawT33 w
  | 64 => rawT40 w
  | 65 => rawT41 w
  | 66 => rawT42 w
  | 67 => rawT43 w
  | 68 => rawT44 w
  | 69 => rawT45 w
  | 70 => rawT46 w
  | 80 => rawT50 w
  | 81 => rawT51 w
  | 82 => rawT52 w
  | 83 => rawT53 w
  | 84 => rawT54 w
  | 85 => rawT55 w
  | 96 => rawT60 w
  | 97 => rawT61 w
  | 98 => rawT62 w
  | 99 => rawT63 w
  | 100 => rawT64 w
  | 104 => rawT68 w
  | _ => .error .unassignedOpcode

/-- The operation of slot `k` read from its 32-bit word `w`, or why there is none. -/
def decodeSlot (k : Slot) (w : Nat) : Except DecodeError Instr :=
  let raw := match k with
    | .c => rawC w
    | .v => rawV w
    | .m => rawM w
    | .t => rawT w
  match raw with
  | .ok i => if i.wf then .ok i else .error .illFormed
  | .error e => .error e

/-- What slot 0 holds (02 R39): an operation, an EXT header with its three lent fields, or a REP header. -/
inductive Slot0 where
  | op (i : Instr)
  | ext (v m : BitVec 9) (t : BitVec 8)
  | rep (h : Instr)
  deriving DecidableEq, Repr

/-- Slot 0: bits [31:28] = 0b1111 make it a header (R39), otherwise it holds a slot C operation. -/
def decodeSlot0 (w : Nat) : Except DecodeError Slot0 :=
  if fld w 28 4 = 15 then
    match fld w 26 2 with
    | 0 => .ok (.ext (fbv 9 17 w) (fbv 9 8 w) (fbv 8 0 w))
    | 1 => match decodeSlot .c w with
      | .ok i => .ok (.rep i)
      | .error e => .error e
    | _ => .error .headerKind
  else match decodeSlot .c w with
    | .ok i => .ok (.op i)
    | .error e => .error e

/-- A word: its constant bits and 1 field, each with the place of its lowest bit. -/
def en1 (z : Nat) {na : Nat} (a : BitVec na) (pa : Nat) : Nat := z + a.toNat * 2 ^ pa

/-- A word: its constant bits and 2 fields, each with the place of its lowest bit. -/
def en2 (z : Nat) {na : Nat} (a : BitVec na) (pa : Nat) {nb : Nat} (b : BitVec nb) (pb : Nat) : Nat := en1 z a pa + b.toNat * 2 ^ pb

/-- A word: its constant bits and 3 fields, each with the place of its lowest bit. -/
def en3 (z : Nat) {na : Nat} (a : BitVec na) (pa : Nat) {nb : Nat} (b : BitVec nb) (pb : Nat) {nc : Nat} (c : BitVec nc) (pc : Nat) : Nat := en2 z a pa b pb + c.toNat * 2 ^ pc

/-- A word: its constant bits and 4 fields, each with the place of its lowest bit. -/
def en4 (z : Nat) {na : Nat} (a : BitVec na) (pa : Nat) {nb : Nat} (b : BitVec nb) (pb : Nat) {nc : Nat} (c : BitVec nc) (pc : Nat) {nd : Nat} (d : BitVec nd) (pd : Nat) : Nat := en3 z a pa b pb c pc + d.toNat * 2 ^ pd

/-- A word: its constant bits and 5 fields, each with the place of its lowest bit. -/
def en5 (z : Nat) {na : Nat} (a : BitVec na) (pa : Nat) {nb : Nat} (b : BitVec nb) (pb : Nat) {nc : Nat} (c : BitVec nc) (pc : Nat) {nd : Nat} (d : BitVec nd) (pd : Nat) {ne : Nat} (e : BitVec ne) (pe : Nat) : Nat := en4 z a pa b pb c pc d pd + e.toNat * 2 ^ pe

/-- A word: its constant bits and 6 fields, each with the place of its lowest bit. -/
def en6 (z : Nat) {na : Nat} (a : BitVec na) (pa : Nat) {nb : Nat} (b : BitVec nb) (pb : Nat) {nc : Nat} (c : BitVec nc) (pc : Nat) {nd : Nat} (d : BitVec nd) (pd : Nat) {ne : Nat} (e : BitVec ne) (pe : Nat) {nf : Nat} (f : BitVec nf) (pf : Nat) : Nat := en5 z a pa b pb c pc d pd e pe + f.toNat * 2 ^ pf

/-- A word: its constant bits and 7 fields, each with the place of its lowest bit. -/
def en7 (z : Nat) {na : Nat} (a : BitVec na) (pa : Nat) {nb : Nat} (b : BitVec nb) (pb : Nat) {nc : Nat} (c : BitVec nc) (pc : Nat) {nd : Nat} (d : BitVec nd) (pd : Nat) {ne : Nat} (e : BitVec ne) (pe : Nat) {nf : Nat} (f : BitVec nf) (pf : Nat) {ng : Nat} (g : BitVec ng) (pg : Nat) : Nat := en6 z a pa b pb c pc d pd e pe f pf + g.toNat * 2 ^ pg

/-- A word: its constant bits and 8 fields, each with the place of its lowest bit. -/
def en8 (z : Nat) {na : Nat} (a : BitVec na) (pa : Nat) {nb : Nat} (b : BitVec nb) (pb : Nat) {nc : Nat} (c : BitVec nc) (pc : Nat) {nd : Nat} (d : BitVec nd) (pd : Nat) {ne : Nat} (e : BitVec ne) (pe : Nat) {nf : Nat} (f : BitVec nf) (pf : Nat) {ng : Nat} (g : BitVec ng) (pg : Nat) {nh : Nat} (h : BitVec nh) (ph : Nat) : Nat := en7 z a pa b pb c pc d pd e pe f pf g pg + h.toNat * 2 ^ ph

/-- A word: its constant bits and 9 fields, each with the place of its lowest bit. -/
def en9 (z : Nat) {na : Nat} (a : BitVec na) (pa : Nat) {nb : Nat} (b : BitVec nb) (pb : Nat) {nc : Nat} (c : BitVec nc) (pc : Nat) {nd : Nat} (d : BitVec nd) (pd : Nat) {ne : Nat} (e : BitVec ne) (pe : Nat) {nf : Nat} (f : BitVec nf) (pf : Nat) {ng : Nat} (g : BitVec ng) (pg : Nat) {nh : Nat} (h : BitVec nh) (ph : Nat) {ni : Nat} (i : BitVec ni) (pi : Nat) : Nat := en8 z a pa b pb c pc d pd e pe f pf g pg h ph + i.toNat * 2 ^ pi

/-- The slot word of an operation, from the fields of its encoding (02 Tables 2-9 to 2-12 and the class chapters); an
event has none. -/
def encodeNat : Instr → Nat
  | .noOp => 0x00000000
  | .hrep c v m t s => en5 0xF4000000 c 16 v 12 m 8 t 4 s 0
  | .add d a b g => en4 0x04000000 d 21 a 16 b 11 g 8
  | .sub d a b g => en4 0x04000001 d 21 a 16 b 11 g 8
  | .mul d a b g => en4 0x04000002 d 21 a 16 b 11 g 8
  | .mulh d a b g => en4 0x04000003 d 21 a 16 b 11 g 8
  | .mulhn d a b g => en4 0x04000004 d 21 a 16 b 11 g 8
  | .div d a b g => en4 0x04000005 d 21 a 16 b 11 g 8
  | .divn d a b g => en4 0x04000006 d 21 a 16 b 11 g 8
  | .rem d a b g => en4 0x04000007 d 21 a 16 b 11 g 8
  | .remn d a b g => en4 0x04000008 d 21 a 16 b 11 g 8
  | .and d a b g => en4 0x04000009 d 21 a 16 b 11 g 8
  | .or d a b g => en4 0x0400000A d 21 a 16 b 11 g 8
  | .xor d a b g => en4 0x0400000B d 21 a 16 b 11 g 8
  | .shl d a b g => en4 0x0400000C d 21 a 16 b 11 g 8
  | .shr d a b g => en4 0x0400000D d 21 a 16 b 11 g 8
  | .sar d a b g => en4 0x0400000E d 21 a 16 b 11 g 8
  | .min d a b g => en4 0x0400000F d 21 a 16 b 11 g 8
  | .max d a b g => en4 0x04000010 d 21 a 16 b 11 g 8
  | .minn d a b g => en4 0x04000011 d 21 a 16 b 11 g 8
  | .maxn d a b g => en4 0x04000012 d 21 a 16 b 11 g 8
  | .clz d a g => en3 0x04000013 d 21 a 16 g 8
  | .popc d a g => en3 0x04000014 d 21 a 16 g 8
  | .sext d a w g => en4 0x04000015 d 21 a 16 w 11 g 8
  | .zext d a w g => en4 0x04000016 d 21 a 16 w 11 g 8
  | .addi d a i => en3 0x08000000 d 21 a 16 i 0
  | .andi d a i => en3 0x0C000000 d 21 a 16 i 0
  | .ori d a i => en3 0x10000000 d 21 a 16 i 0
  | .xori d a i => en3 0x14000000 d 21 a 16 i 0
  | .shli d a n => en3 0x18000000 d 21 a 16 n 0
  | .shri d a n => en3 0x18004000 d 21 a 16 n 0
  | .sari d a n => en3 0x18008000 d 21 a 16 n 0
  | .li d i => en2 0x1C000000 d 21 i 0
  | .lih d q i => en3 0x20000000 d 21 q 16 i 0
  | .cmp k a b g c => en5 0x24000000 k 21 a 16 b 11 g 8 c 0
  | .cmpi k c a i => en4 0x28000000 k 23 c 20 a 15 i 0
  | .sel d a b g c => en5 0x2C000000 d 21 a 16 b 11 g 8 c 5
  | .kand d a b g => en4 0x30000000 d 23 a 20 b 17 g 8
  | .kor d a b g => en4 0x30000001 d 23 a 20 b 17 g 8
  | .kxor d a b g => en4 0x30000002 d 23 a 20 b 17 g 8
  | .knot d a g => en3 0x30000003 d 23 a 20 g 8
  | .faddD d a b g r => en5 0x40000000 d 21 a 16 b 11 g 8 r 3
  | .fsubD d a b g r => en5 0x40000001 d 21 a 16 b 11 g 8 r 3
  | .fmulD d a b g r => en5 0x40000002 d 21 a 16 b 11 g 8 r 3
  | .fdivD d a b g r => en5 0x40000003 d 21 a 16 b 11 g 8 r 3
  | .fminD d a b g => en4 0x40000004 d 21 a 16 b 11 g 8
  | .fmaxD d a b g => en4 0x40000005 d 21 a 16 b 11 g 8
  | .fsqrtD d a g r => en4 0x44000000 d 21 a 16 g 8 r 3
  | .ffmaD d a b g c r => en6 0x48000000 d 21 a 16 b 11 g 8 c 3 r 0
  | .fcmpD k a b g c => en5 0x4C000000 k 21 a 16 b 11 g 8 c 0
  | .fcvtDI d a g r => en4 0x50000000 d 21 a 16 g 8 r 3
  | .fcvtDN d a g r => en4 0x50000001 d 21 a 16 g 8 r 3
  | .fcvtID d a g r => en4 0x50000002 d 21 a 16 g 8 r 3
  | .fcvtND d a g r => en4 0x50000003 d 21 a 16 g 8 r 3
  | .fcvtDS d a g => en3 0x50000004 d 21 a 16 g 8
  | .fcvtSD d a g r => en4 0x50000005 d 21 a 16 g 8 r 3
  | .br o => en1 0x60000000 o 0
  | .brk k o => en2 0x64000000 k 23 o 0
  | .brnk k o => en2 0x68000000 k 23 o 0
  | .jr d a g => en3 0x6C000000 d 21 a 16 g 8
  | .call o => en1 0x70000000 o 0
  | .ret g => en1 0x74000000 g 8
  | .loop a o => en2 0x78000000 a 21 o 0
  | .xcV d v l => en3 0x80000000 d 21 v 15 l 8
  | .xcA d a => en2 0x84000000 d 21 a 17
  | .xcM d k r q => en4 0x88000000 d 21 k 19 r 16 q 12
  | .xcG d g => en2 0x8C000000 d 21 g 16
  | .xcH d h q => en3 0x90000000 d 21 h 17 q 16
  | .srd d s => en2 0x94000000 d 21 s 9
  | .swr a s => en2 0x98000000 a 21 s 9
  | .wait l s c t => en4 0xA0000000 l 20 s 14 c 8 t 2
  | .fence a b => en2 0xA4000000 a 20 b 14
  | .drain s k => en2 0xA8000000 s 23 k 21
  | .spawn d a b c => en4 0xC0000000 d 21 a 16 b 11 c 6
  | .suspend a k => en2 0xC4000000 a 16 k 2
  | .yield => 0xC4000001
  | .retire => 0xC4000002
  | .join d a b => en3 0xC8000000 d 21 a 16 b 11
  | .leave => 0xC8000001
  | .cbar d => en1 0xC8000002 d 21
  | .seg a b n => en3 0xCC000000 a 22 b 18 n 16
  | .sege => 0xCC000001
  | .trap i => en1 0xD0000000 i 10
  | .rte => 0xD0000001
  | .halt => 0xD0000002
  | .scan d e => en2 0xD4000000 d 21 e 16
  | .cmap d a b => en3 0xD4000001 d 21 a 16 b 11
  | .pmonStart m => en1 0xD8000000 m 20
  | .pmonStop m => en1 0xD9000000 m 20
  | .pmonClr m => en1 0xDA000000 m 20
  | .pmonClrstart m => en1 0xDB000000 m 20
  | .diagInjFlip a b => en2 0xDC000000 a 21 b 16
  | .diagInjCerr a b => en2 0xDC002000 a 21 b 16
  | .diagInjPoison a b => en2 0xDC004000 a 21 b 16
  | .diagInjTpoison a b => en2 0xDC006000 a 21 b 16
  | .diagInjStrike a b => en2 0xDC008000 a 21 b 16
  | .vadd d a b w m r => en6 0x02000000 d 19 a 13 b 7 w 5 m 2 r 0
  | .vsub d a b w m r => en6 0x04000000 d 19 a 13 b 7 w 5 m 2 r 0
  | .vmul d a b w m r => en6 0x06000000 d 19 a 13 b 7 w 5 m 2 r 0
  | .vfma d a b w m r => en6 0x08000000 d 19 a 13 b 7 w 5 m 2 r 0
  | .vfms d a b w m r => en6 0x0A000000 d 19 a 13 b 7 w 5 m 2 r 0
  | .vfnma d a b w m r => en6 0x0C000000 d 19 a 13 b 7 w 5 m 2 r 0
  | .vdiv d a b w m r => en6 0x0E000000 d 19 a 13 b 7 w 5 m 2 r 0
  | .vsqrt d a w m r => en5 0x10000000 d 19 a 13 w 5 m 2 r 0
  | .vrcp d a w m r => en5 0x12000000 d 19 a 13 w 5 m 2 r 0
  | .vrsq d a w m r => en5 0x14000000 d 19 a 13 w 5 m 2 r 0
  | .vmin d a b w m => en5 0x16000000 d 19 a 13 b 7 w 5 m 2
  | .vmax d a b w m => en5 0x18000000 d 19 a 13 b 7 w 5 m 2
  | .vabs d a w m => en4 0x1A000000 d 19 a 13 w 5 m 2
  | .vneg d a w m => en4 0x1C000000 d 19 a 13 w 5 m 2
  | .vcmp d a b w m c => en6 0x1E000000 d 19 a 13 b 7 w 5 m 2 c 0
  | .vsel d a b w m => en5 0x20000000 d 19 a 13 b 7 w 5 m 2
  | .vclass d a w m => en4 0x22000000 d 19 a 13 w 5 m 2
  | .vaddH d a b w m r => en6 0x24000000 d 19 a 13 b 7 w 5 m 2 r 0
  | .vsubH d a b w m r => en6 0x26000000 d 19 a 13 b 7 w 5 m 2 r 0
  | .vmulH d a b w m r => en6 0x28000000 d 19 a 13 b 7 w 5 m 2 r 0
  | .vfmaH d a b w m r => en6 0x2A000000 d 19 a 13 b 7 w 5 m 2 r 0
  | .vfmsH d a b w m r => en6 0x2C000000 d 19 a 13 b 7 w 5 m 2 r 0
  | .vfnmaH d a b w m r => en6 0x2E000000 d 19 a 13 b 7 w 5 m 2 r 0
  | .vminH d a b w m => en5 0x30000000 d 19 a 13 b 7 w 5 m 2
  | .vmaxH d a b w m => en5 0x32000000 d 19 a 13 b 7 w 5 m 2
  | .vabsH d a w m => en4 0x34000000 d 19 a 13 w 5 m 2
  | .vnegH d a w m => en4 0x36000000 d 19 a 13 w 5 m 2
  | .vcmpH e d a b w m c => en7 0x38000000 e 22 d 19 a 13 b 7 w 5 m 2 c 0
  | .vselH d a b w m => en5 0x3A000000 d 19 a 13 b 7 w 5 m 2
  | .vaddB d a b w m r => en6 0x3C000000 d 19 a 13 b 7 w 5 m 2 r 0
  | .vsubB d a b w m r => en6 0x3E000000 d 19 a 13 b 7 w 5 m 2 r 0
  | .vmulB d a b w m r => en6 0x40000000 d 19 a 13 b 7 w 5 m 2 r 0
  | .vfmaB d a b w m r => en6 0x42000000 d 19 a 13 b 7 w 5 m 2 r 0
  | .vfmsB d a b w m r => en6 0x44000000 d 19 a 13 b 7 w 5 m 2 r 0
  | .vfnmaB d a b w m r => en6 0x46000000 d 19 a 13 b 7 w 5 m 2 r 0
  | .vminB d a b w m => en5 0x48000000 d 19 a 13 b 7 w 5 m 2
  | .vmaxB d a b w m => en5 0x4A000000 d 19 a 13 b 7 w 5 m 2
  | .vabsB d a w m => en4 0x4C000000 d 19 a 13 w 5 m 2
  | .vnegB d a w m => en4 0x4E000000 d 19 a 13 w 5 m 2
  | .vcmpB e d a b w m c => en7 0x50000000 e 22 d 19 a 13 b 7 w 5 m 2 c 0
  | .vselB d a b w m => en5 0x52000000 d 19 a 13 b 7 w 5 m 2
  | .vaddx d a b w m r => en6 0x60000000 d 19 a 13 b 7 w 5 m 2 r 0
  | .vsubx d a b w m r => en6 0x62000000 d 19 a 13 b 7 w 5 m 2 r 0
  | .vmulx d a b w m r => en6 0x64000000 d 19 a 13 b 7 w 5 m 2 r 0
  | .dwadd d a b w m r => en6 0x66000000 d 19 a 13 b 7 w 5 m 2 r 0
  | .dwsub d a b w m r => en6 0x68000000 d 19 a 13 b 7 w 5 m 2 r 0
  | .dwmul d a b w m r => en6 0x6A000000 d 19 a 13 b 7 w 5 m 2 r 0
  | .dwdiv d a b w m r => en6 0x6C000000 d 19 a 13 b 7 w 5 m 2 r 0
  | .dwnorm d a w m r => en5 0x6E000000 d 19 a 13 w 5 m 2 r 0
  | .vsum d a w m r => en5 0x70000000 d 19 a 13 w 5 m 2 r 0
  | .vsumx d a w m r => en5 0x72000000 d 19 a 13 w 5 m 2 r 0
  | .vmaxr d a w m => en4 0x74000000 d 19 a 13 w 5 m 2
  | .vminr d a w m => en4 0x76000000 d 19 a 13 w 5 m 2
  | .viadd d a b w m s => en6 0x80000000 d 19 a 13 b 7 w 5 m 2 s 0
  | .visub d a b w m s => en6 0x82000000 d 19 a 13 b 7 w 5 m 2 s 0
  | .vimul d a b w m s => en6 0x84000000 d 19 a 13 b 7 w 5 m 2 s 0
  | .vimad d a b w m s => en6 0x86000000 d 19 a 13 b 7 w 5 m 2 s 0
  | .vand d a b w m => en5 0x88000000 d 19 a 13 b 7 w 5 m 2
  | .vor d a b w m => en5 0x8A000000 d 19 a 13 b 7 w 5 m 2
  | .vxor d a b w m => en5 0x8C000000 d 19 a 13 b 7 w 5 m 2
  | .vnot d a w m => en4 0x8E000000 d 19 a 13 w 5 m 2
  | .vshl d a b w m f => en6 0x90000000 d 19 a 13 b 7 w 5 m 2 f 0
  | .vshr d a b w m f => en6 0x92000000 d 19 a 13 b 7 w 5 m 2 f 0
  | .vsar d a b w m f => en6 0x94000000 d 19 a 13 b 7 w 5 m 2 f 0
  | .vicmp d a b w m c => en6 0x96000000 d 19 a 13 b 7 w 5 m 2 c 0
  | .vmand d a b w => en4 0x98000000 d 19 a 13 b 7 w 5
  | .vmor d a b w => en4 0x9A000000 d 19 a 13 b 7 w 5
  | .vmxor d a b w => en4 0x9C000000 d 19 a 13 b 7 w 5
  | .vmnot d a w => en3 0x9E000000 d 19 a 13 w 5
  | .vcvtPack d a c w m r => en6 0xB0000000 d 19 a 13 c 7 w 5 m 2 r 0
  | .vcvtUnpack d a c w m r => en6 0xB0000800 d 19 a 13 c 7 w 5 m 2 r 0
  | .vscl d a b w m r => en6 0xB2000000 d 19 a 13 b 7 w 5 m 2 r 0
  | .vexp2 d a w m r => en5 0xB4000000 d 19 a 13 w 5 m 2 r 0
  | .vlog2 d a w m r => en5 0xB6000000 d 19 a 13 w 5 m 2 r 0
  | .vtanh d a w m r => en5 0xB8000000 d 19 a 13 w 5 m 2 r 0
  | .vperm d a b e => en4 0xD0000000 d 19 a 13 b 7 e 1
  | .vpsw => 0xD2000000
  | .vrot d a n w m p => en6 0xD4000000 d 19 a 13 n 7 w 5 m 2 p 0
  | .vbcl d a n w m p => en6 0xD6000000 d 19 a 13 n 7 w 5 m 2 p 0
  | .xcX d x w m => en4 0xE0000000 d 19 x 14 w 5 m 2
  | .xcXl d x l => en3 0xE2000000 d 19 x 14 l 7
  | .mdset m f i => en3 0x04000000 m 23 f 19 i 0
  | .mdld m a => en2 0x08000000 m 23 a 0
  | .mdst m a => en2 0x0C000000 m 23 a 0
  | .mbld b => en1 0x10000000 b 17
  | .mzero c => en1 0x14000000 c 23
  | .moutm c a b k l => en5 0x18000000 c 23 a 20 b 17 k 1 l 0
  | .blend0 => 0x1C000000
  | .blend1 => 0x1C000001
  | .blend2 => 0x1C000002
  | .blend3 => 0x1C000003
  | .blend4 => 0x1C000004
  | .blend5 => 0x1C000005
  | .bret0 => 0x20000000
  | .bret1 => 0x20000001
  | .bret2 => 0x20000002
  | .bret3 => 0x20000003
  | .bret4 => 0x20000004
  | .bret5 => 0x20000005
  | .mma c a b s z => en5 0x40000000 c 23 a 20 b 17 s 15 z 0
  | .mmaCk c a b s z => en5 0x44000000 c 23 a 20 b 17 s 15 z 0
  | .mlu t z g p => en4 0x80000000 t 23 z 4 g 2 p 0
  | .mchol t g p => en3 0x84000000 t 23 g 2 p 0
  | .mqr t g p => en3 0x88000000 t 23 g 2 p 0
  | .mtrsm b t u x r s z g => en8 0x8C000000 b 23 t 20 u 8 x 7 r 6 s 5 z 4 g 2
  | .mperm t n i f d p => en6 0x90000000 t 23 n 7 i 6 f 5 d 4 p 0
  | .mpiv n s d => en3 0x94000000 n 4 s 2 d 0
  | .xcXMatrix r x k q => en4 0xC0000000 r 23 x 18 k 13 q 9
  | .adda d a b => en3 0x02000000 d 21 a 17 b 12
  | .addaImmediate d a i => en3 0x02010000 d 21 a 17 i 0
  | .suba d a b => en3 0x04000000 d 21 a 17 b 12
  | .subaImmediate d a i => en3 0x04010000 d 21 a 17 i 0
  | .shla d a b => en3 0x06000000 d 21 a 17 b 12
  | .shlaImmediate d a n => en3 0x06010000 d 21 a 17 n 0
  | .lia d i => en2 0x08000000 d 21 i 0
  | .hder d s o l k => en5 0x0A000000 d 21 s 17 o 13 l 9 k 4
  | .hnul d => en1 0x0C000000 d 21
  | .hld h b a i => en4 0x0E000000 h 21 b 17 a 13 i 0
  | .hst h b a i => en4 0x10000000 h 21 b 17 a 13 i 0
  | .scinv => 0x12000000
  | .scinvRange h o l => en3 0x13000000 h 20 o 16 l 12
  | .bcfl h o l v => en4 0x14000000 h 21 o 17 l 13 v 12
  | .ld x h a s i => en5 0x20000000 x 20 h 16 a 12 s 10 i 0
  | .ldn x h a s i => en5 0x22000000 x 20 h 16 a 12 s 10 i 0
  | .st x h a s i => en5 0x24000000 x 20 h 16 a 12 s 10 i 0
  | .vld v h a w i => en5 0x26000000 v 19 h 15 a 11 w 9 i 0
  | .vst v h a w i => en5 0x28000000 v 19 h 15 a 11 w 9 i 0
  | .vlds v h a s w => en5 0x2A000000 v 19 h 15 a 11 s 7 w 5
  | .vsts v h a s w => en5 0x2C000000 v 19 h 15 a 11 s 7 w 5
  | .vgth v h a j k w => en6 0x2E000000 v 19 h 15 a 11 j 7 k 3 w 1
  | .vsct v h a j k w => en6 0x30000000 v 19 h 15 a 11 j 7 k 3 w 1
  | .cld x h a s i => en5 0x32000000 x 19 h 15 a 11 s 9 i 0
  | .cldVector v h a w i => en5 0x33000000 v 18 h 14 a 10 w 8 i 0
  | .cst x h a s i => en5 0x34000000 x 19 h 15 a 11 s 9 i 0
  | .cstVector v h a w i => en5 0x35000000 v 18 h 14 a 10 w 8 i 0
  | .tvld v h a w i => en5 0x36000000 v 19 h 15 a 11 w 9 i 0
  | .tvst v h a w i => en5 0x38000000 v 19 h 15 a 11 w 9 i 0
  | .pcfg p h a => en3 0x60000000 p 22 h 18 a 14
  | .pgo k p => en2 0x62000000 k 22 p 19
  | .pstop k => en1 0x64000000 k 22
  | .pld h a e n => en4 0x66000000 h 21 a 17 e 11 n 5
  | .copy d h s r a f w t b => en9 0x80000000 d 21 h 17 s 13 r 9 a 5 f 4 w 3 t 2 b 1
  | .copyq d => en1 0x82000000 d 21
  | .copyqSt d => en1 0x82100000 d 21
  | .cancel => 0x84000000
  | .wstr h o l n p => en5 0x86000000 h 21 o 17 l 13 n 9 p 5
  | .frfl d h s w t => en5 0x88000000 d 21 h 17 s 13 w 9 t 5
  | .shift r m h s d l => en6 0x8A000000 r 23 m 21 h 17 s 13 d 9 l 5
  | .reduce d h s o k => en5 0x8C000000 d 21 h 17 s 13 o 9 k 5
  | .atmAdd o d h a s z => en6 0xA0000000 o 19 d 14 h 10 a 6 s 1 z 0
  | .atmFadd o d h a s z => en6 0xA0200000 o 19 d 14 h 10 a 6 s 1 z 0
  | .atmMin o d h a s z => en6 0xA0400000 o 19 d 14 h 10 a 6 s 1 z 0
  | .atmMax o d h a s z => en6 0xA0600000 o 19 d 14 h 10 a 6 s 1 z 0
  | .atmAnd o d h a s z => en6 0xA0800000 o 19 d 14 h 10 a 6 s 1 z 0
  | .atmOr o d h a s z => en6 0xA0A00000 o 19 d 14 h 10 a 6 s 1 z 0
  | .atmXor o d h a s z => en6 0xA0C00000 o 19 d 14 h 10 a 6 s 1 z 0
  | .atmXchg o d h a s z => en6 0xA0E00000 o 19 d 14 h 10 a 6 s 1 z 0
  | .atmCas o d h a s z => en6 0xA1000000 o 19 d 14 h 10 a 6 s 1 z 0
  | .atmInc o d h a s z => en6 0xA1200000 o 19 d 14 h 10 a 6 s 1 z 0
  | .bobInit d h a s => en4 0xA2000000 d 14 h 10 a 6 s 1
  | .bobArr d h a => en3 0xA4000000 d 14 h 10 a 6
  | .bobWait d h a s => en4 0xA6000000 d 14 h 10 a 6 s 1
  | .tsetf h o l => en3 0xA8000000 h 21 o 17 l 13
  | .tsete h o l => en3 0xAA000000 h 21 o 17 l 13
  | .sleepu a => en1 0xC0000000 a 21
  | .tdefer a => en1 0xC2000000 a 21
  | .tdead h o l => en3 0xC4000000 h 21 o 17 l 13
  | .hdead h o l => en3 0xC6000000 h 21 o 17 l 13
  | .trmw d h o l k => en5 0xC8000000 d 21 h 17 o 13 l 9 k 8
  | .xcXAddress k r x q => en4 0xD0000000 k 23 r 19 x 14 q 13
  | .parkedSlotRetry => 0
  | .parkedTooLong => 0
  | .trapEntry => 0
  | .outlierListFull => 0
  | .loadReturn => 0
  | .translationRetry => 0
  | .translationFail => 0
  | .strikeWindow => 0
  | .strikeReport => 0
  | .dispatchRound => 0
  | .beadStart => 0
  | .preemptionHalt => 0
  | .contextDrainFinal => 0
  | .resumption => 0
  | .strandTailWrite => 0
  | .hubConfigurationWrite => 0
  | .executableRegistration => 0
  | .normalRefresh => 0
  | .forcedRefresh => 0
  | .groupRefreshEnd => 0
  | .deferralEnd => 0
  | .tileOperationStart => 0
  | .tileOperationCompletion => 0
  | .copyCompletion => 0
  | .refillCompletion => 0
  | .shiftCompletion => 0
  | .reduceRound => 0
  | .atomicEngineServe => 0
  | .bobWaitAnswer => 0
  | .barrierRelease => 0
  | .cbarSuspend => 0
  | .sleepuWake => 0
  | .resume => 0
  | .resetCore => 0
  | .linkDown => 0
  | .routeRestore => 0
  | .objectInvalidation => 0
  | .atsInvalidation => 0
  | .cxlMemAccess => 0
  | .patrolScrub => 0
  | .monitorSample => 0
  | .selfTestEnd => 0
  | .pstepSample => 0
  | .setPowerStep => 0
  | .throttleEvaluation => 0
  | .sensorCheck => 0
  | .powerFail => 0
  | .powerReturn => 0
  | .boot => 0
  | .attestation => 0
  | .storePerformed => 0
  | .cxlCacheRecall => 0
  | .remotePackageAccess => 0
  | .fallBackReadRequest => 0
  | .stackScrubPass => 0
  | .imageWrite => 0

/-- The slot that carries an operation (02 Table 2-1); events have none. -/
def slotOf : Instr → Option Slot
  | .noOp => none
  | .hrep _ _ _ _ _ => some .c
  | .add _ _ _ _ => some .c
  | .sub _ _ _ _ => some .c
  | .mul _ _ _ _ => some .c
  | .mulh _ _ _ _ => some .c
  | .mulhn _ _ _ _ => some .c
  | .div _ _ _ _ => some .c
  | .divn _ _ _ _ => some .c
  | .rem _ _ _ _ => some .c
  | .remn _ _ _ _ => some .c
  | .and _ _ _ _ => some .c
  | .or _ _ _ _ => some .c
  | .xor _ _ _ _ => some .c
  | .shl _ _ _ _ => some .c
  | .shr _ _ _ _ => some .c
  | .sar _ _ _ _ => some .c
  | .min _ _ _ _ => some .c
  | .max _ _ _ _ => some .c
  | .minn _ _ _ _ => some .c
  | .maxn _ _ _ _ => some .c
  | .clz _ _ _ => some .c
  | .popc _ _ _ => some .c
  | .sext _ _ _ _ => some .c
  | .zext _ _ _ _ => some .c
  | .addi _ _ _ => some .c
  | .andi _ _ _ => some .c
  | .ori _ _ _ => some .c
  | .xori _ _ _ => some .c
  | .shli _ _ _ => some .c
  | .shri _ _ _ => some .c
  | .sari _ _ _ => some .c
  | .li _ _ => some .c
  | .lih _ _ _ => some .c
  | .cmp _ _ _ _ _ => some .c
  | .cmpi _ _ _ _ => some .c
  | .sel _ _ _ _ _ => some .c
  | .kand _ _ _ _ => some .c
  | .kor _ _ _ _ => some .c
  | .kxor _ _ _ _ => some .c
  | .knot _ _ _ => some .c
  | .faddD _ _ _ _ _ => some .c
  | .fsubD _ _ _ _ _ => some .c
  | .fmulD _ _ _ _ _ => some .c
  | .fdivD _ _ _ _ _ => some .c
  | .fminD _ _ _ _ => some .c
  | .fmaxD _ _ _ _ => some .c
  | .fsqrtD _ _ _ _ => some .c
  | .ffmaD _ _ _ _ _ _ => some .c
  | .fcmpD _ _ _ _ _ => some .c
  | .fcvtDI _ _ _ _ => some .c
  | .fcvtDN _ _ _ _ => some .c
  | .fcvtID _ _ _ _ => some .c
  | .fcvtND _ _ _ _ => some .c
  | .fcvtDS _ _ _ => some .c
  | .fcvtSD _ _ _ _ => some .c
  | .br _ => some .c
  | .brk _ _ => some .c
  | .brnk _ _ => some .c
  | .jr _ _ _ => some .c
  | .call _ => some .c
  | .ret _ => some .c
  | .loop _ _ => some .c
  | .xcV _ _ _ => some .c
  | .xcA _ _ => some .c
  | .xcM _ _ _ _ => some .c
  | .xcG _ _ => some .c
  | .xcH _ _ _ => some .c
  | .srd _ _ => some .c
  | .swr _ _ => some .c
  | .wait _ _ _ _ => some .c
  | .fence _ _ => some .c
  | .drain _ _ => some .c
  | .spawn _ _ _ _ => some .c
  | .suspend _ _ => some .c
  | .yield => some .c
  | .retire => some .c
  | .join _ _ _ => some .c
  | .leave => some .c
  | .cbar _ => some .c
  | .seg _ _ _ => some .c
  | .sege => some .c
  | .trap _ => some .c
  | .rte => some .c
  | .halt => some .c
  | .scan _ _ => some .c
  | .cmap _ _ _ => some .c
  | .pmonStart _ => some .c
  | .pmonStop _ => some .c
  | .pmonClr _ => some .c
  | .pmonClrstart _ => some .c
  | .diagInjFlip _ _ => some .c
  | .diagInjCerr _ _ => some .c
  | .diagInjPoison _ _ => some .c
  | .diagInjTpoison _ _ => some .c
  | .diagInjStrike _ _ => some .c
  | .vadd _ _ _ _ _ _ => some .v
  | .vsub _ _ _ _ _ _ => some .v
  | .vmul _ _ _ _ _ _ => some .v
  | .vfma _ _ _ _ _ _ => some .v
  | .vfms _ _ _ _ _ _ => some .v
  | .vfnma _ _ _ _ _ _ => some .v
  | .vdiv _ _ _ _ _ _ => some .v
  | .vsqrt _ _ _ _ _ => some .v
  | .vrcp _ _ _ _ _ => some .v
  | .vrsq _ _ _ _ _ => some .v
  | .vmin _ _ _ _ _ => some .v
  | .vmax _ _ _ _ _ => some .v
  | .vabs _ _ _ _ => some .v
  | .vneg _ _ _ _ => some .v
  | .vcmp _ _ _ _ _ _ => some .v
  | .vsel _ _ _ _ _ => some .v
  | .vclass _ _ _ _ => some .v
  | .vaddH _ _ _ _ _ _ => some .v
  | .vsubH _ _ _ _ _ _ => some .v
  | .vmulH _ _ _ _ _ _ => some .v
  | .vfmaH _ _ _ _ _ _ => some .v
  | .vfmsH _ _ _ _ _ _ => some .v
  | .vfnmaH _ _ _ _ _ _ => some .v
  | .vminH _ _ _ _ _ => some .v
  | .vmaxH _ _ _ _ _ => some .v
  | .vabsH _ _ _ _ => some .v
  | .vnegH _ _ _ _ => some .v
  | .vcmpH _ _ _ _ _ _ _ => some .v
  | .vselH _ _ _ _ _ => some .v
  | .vaddB _ _ _ _ _ _ => some .v
  | .vsubB _ _ _ _ _ _ => some .v
  | .vmulB _ _ _ _ _ _ => some .v
  | .vfmaB _ _ _ _ _ _ => some .v
  | .vfmsB _ _ _ _ _ _ => some .v
  | .vfnmaB _ _ _ _ _ _ => some .v
  | .vminB _ _ _ _ _ => some .v
  | .vmaxB _ _ _ _ _ => some .v
  | .vabsB _ _ _ _ => some .v
  | .vnegB _ _ _ _ => some .v
  | .vcmpB _ _ _ _ _ _ _ => some .v
  | .vselB _ _ _ _ _ => some .v
  | .vaddx _ _ _ _ _ _ => some .v
  | .vsubx _ _ _ _ _ _ => some .v
  | .vmulx _ _ _ _ _ _ => some .v
  | .dwadd _ _ _ _ _ _ => some .v
  | .dwsub _ _ _ _ _ _ => some .v
  | .dwmul _ _ _ _ _ _ => some .v
  | .dwdiv _ _ _ _ _ _ => some .v
  | .dwnorm _ _ _ _ _ => some .v
  | .vsum _ _ _ _ _ => some .v
  | .vsumx _ _ _ _ _ => some .v
  | .vmaxr _ _ _ _ => some .v
  | .vminr _ _ _ _ => some .v
  | .viadd _ _ _ _ _ _ => some .v
  | .visub _ _ _ _ _ _ => some .v
  | .vimul _ _ _ _ _ _ => some .v
  | .vimad _ _ _ _ _ _ => some .v
  | .vand _ _ _ _ _ => some .v
  | .vor _ _ _ _ _ => some .v
  | .vxor _ _ _ _ _ => some .v
  | .vnot _ _ _ _ => some .v
  | .vshl _ _ _ _ _ _ => some .v
  | .vshr _ _ _ _ _ _ => some .v
  | .vsar _ _ _ _ _ _ => some .v
  | .vicmp _ _ _ _ _ _ => some .v
  | .vmand _ _ _ _ => some .v
  | .vmor _ _ _ _ => some .v
  | .vmxor _ _ _ _ => some .v
  | .vmnot _ _ _ => some .v
  | .vcvtPack _ _ _ _ _ _ => some .v
  | .vcvtUnpack _ _ _ _ _ _ => some .v
  | .vscl _ _ _ _ _ _ => some .v
  | .vexp2 _ _ _ _ _ => some .v
  | .vlog2 _ _ _ _ _ => some .v
  | .vtanh _ _ _ _ _ => some .v
  | .vperm _ _ _ _ => some .v
  | .vpsw => some .v
  | .vrot _ _ _ _ _ _ => some .v
  | .vbcl _ _ _ _ _ _ => some .v
  | .xcX _ _ _ _ => some .v
  | .xcXl _ _ _ => some .v
  | .mdset _ _ _ => some .m
  | .mdld _ _ => some .m
  | .mdst _ _ => some .m
  | .mbld _ => some .m
  | .mzero _ => some .m
  | .moutm _ _ _ _ _ => some .m
  | .blend0 => some .m
  | .blend1 => some .m
  | .blend2 => some .m
  | .blend3 => some .m
  | .blend4 => some .m
  | .blend5 => some .m
  | .bret0 => some .m
  | .bret1 => some .m
  | .bret2 => some .m
  | .bret3 => some .m
  | .bret4 => some .m
  | .bret5 => some .m
  | .mma _ _ _ _ _ => some .m
  | .mmaCk _ _ _ _ _ => some .m
  | .mlu _ _ _ _ => some .m
  | .mchol _ _ _ => some .m
  | .mqr _ _ _ => some .m
  | .mtrsm _ _ _ _ _ _ _ _ => some .m
  | .mperm _ _ _ _ _ _ => some .m
  | .mpiv _ _ _ => some .m
  | .xcXMatrix _ _ _ _ => some .m
  | .adda _ _ _ => some .t
  | .addaImmediate _ _ _ => some .t
  | .suba _ _ _ => some .t
  | .subaImmediate _ _ _ => some .t
  | .shla _ _ _ => some .t
  | .shlaImmediate _ _ _ => some .t
  | .lia _ _ => some .t
  | .hder _ _ _ _ _ => some .t
  | .hnul _ => some .t
  | .hld _ _ _ _ => some .t
  | .hst _ _ _ _ => some .t
  | .scinv => some .t
  | .scinvRange _ _ _ => some .t
  | .bcfl _ _ _ _ => some .t
  | .ld _ _ _ _ _ => some .t
  | .ldn _ _ _ _ _ => some .t
  | .st _ _ _ _ _ => some .t
  | .vld _ _ _ _ _ => some .t
  | .vst _ _ _ _ _ => some .t
  | .vlds _ _ _ _ _ => some .t
  | .vsts _ _ _ _ _ => some .t
  | .vgth _ _ _ _ _ _ => some .t
  | .vsct _ _ _ _ _ _ => some .t
  | .cld _ _ _ _ _ => some .t
  | .cldVector _ _ _ _ _ => some .t
  | .cst _ _ _ _ _ => some .t
  | .cstVector _ _ _ _ _ => some .t
  | .tvld _ _ _ _ _ => some .t
  | .tvst _ _ _ _ _ => some .t
  | .pcfg _ _ _ => some .t
  | .pgo _ _ => some .t
  | .pstop _ => some .t
  | .pld _ _ _ _ => some .t
  | .copy _ _ _ _ _ _ _ _ _ => some .t
  | .copyq _ => some .t
  | .copyqSt _ => some .t
  | .cancel => some .t
  | .wstr _ _ _ _ _ => some .t
  | .frfl _ _ _ _ _ => some .t
  | .shift _ _ _ _ _ _ => some .t
  | .reduce _ _ _ _ _ => some .t
  | .atmAdd _ _ _ _ _ _ => some .t
  | .atmFadd _ _ _ _ _ _ => some .t
  | .atmMin _ _ _ _ _ _ => some .t
  | .atmMax _ _ _ _ _ _ => some .t
  | .atmAnd _ _ _ _ _ _ => some .t
  | .atmOr _ _ _ _ _ _ => some .t
  | .atmXor _ _ _ _ _ _ => some .t
  | .atmXchg _ _ _ _ _ _ => some .t
  | .atmCas _ _ _ _ _ _ => some .t
  | .atmInc _ _ _ _ _ _ => some .t
  | .bobInit _ _ _ _ => some .t
  | .bobArr _ _ _ => some .t
  | .bobWait _ _ _ _ => some .t
  | .tsetf _ _ _ => some .t
  | .tsete _ _ _ => some .t
  | .sleepu _ => some .t
  | .tdefer _ => some .t
  | .tdead _ _ _ => some .t
  | .hdead _ _ _ => some .t
  | .trmw _ _ _ _ _ => some .t
  | .xcXAddress _ _ _ _ => some .t
  | .parkedSlotRetry => none
  | .parkedTooLong => none
  | .trapEntry => none
  | .outlierListFull => none
  | .loadReturn => none
  | .translationRetry => none
  | .translationFail => none
  | .strikeWindow => none
  | .strikeReport => none
  | .dispatchRound => none
  | .beadStart => none
  | .preemptionHalt => none
  | .contextDrainFinal => none
  | .resumption => none
  | .strandTailWrite => none
  | .hubConfigurationWrite => none
  | .executableRegistration => none
  | .normalRefresh => none
  | .forcedRefresh => none
  | .groupRefreshEnd => none
  | .deferralEnd => none
  | .tileOperationStart => none
  | .tileOperationCompletion => none
  | .copyCompletion => none
  | .refillCompletion => none
  | .shiftCompletion => none
  | .reduceRound => none
  | .atomicEngineServe => none
  | .bobWaitAnswer => none
  | .barrierRelease => none
  | .cbarSuspend => none
  | .sleepuWake => none
  | .resume => none
  | .resetCore => none
  | .linkDown => none
  | .routeRestore => none
  | .objectInvalidation => none
  | .atsInvalidation => none
  | .cxlMemAccess => none
  | .patrolScrub => none
  | .monitorSample => none
  | .selfTestEnd => none
  | .pstepSample => none
  | .setPowerStep => none
  | .throttleEvaluation => none
  | .sensorCheck => none
  | .powerFail => none
  | .powerReturn => none
  | .boot => none
  | .attestation => none
  | .storePerformed => none
  | .cxlCacheRecall => none
  | .remotePackageAccess => none
  | .fallBackReadRequest => none
  | .stackScrubPass => none
  | .imageWrite => none

/-- The encoded word of an operation. -/
def encode (i : Instr) : Word := BitVec.ofNat 32 (encodeNat i)

/-- The slot whose map assigns a lone word of the opcode table: the first of T, C, V, M that does (log 12). The table's
words carry no slot, and the four maps overlap. -/
def tableSlot (w : Nat) : Option Slot :=
  match decodeSlot .t w, decodeSlot .c w, decodeSlot .v w, decodeSlot .m w with
  | .ok _, _, _, _ => some .t
  | _, .ok _, _, _ => some .c
  | _, _, .ok _, _ => some .v
  | _, _, _, .ok _ => some .m
  | _, _, _, _ => none

/-- The operation the decoder reads from a word of the opcode table, laid in the slot that `tableSlot` gives it. -/
def decodeTableWord (nbits w : Nat) : Option Instr :=
  if nbits ≤ 32 then
    match tableSlot w with
    | some k => (decodeSlot k w).toOption
    | none => none
  else none

end Sys2Proof
end

