-- ==== Sys2Proof/Machine/State.lean ====
section
/-! DEFINITION. The state of the 5120 as plain data: the context of a bead (one per context bank), the sequencer of a bank, the operations that engines have in hand, memory, the registers and engines of the core, and the hub. A default value is the value at package reset; where the manual gives none, log 2 names it. -/

namespace Sys2Proof.Machine

/-- Reasons the machine stops. No operation and no event raises one. -/
inductive Fault where
  /-- Raised by `step` alone, when sr.cycle would wrap; R126 says that it never does in service. Safe. -/
  | clockExhausted
  deriving DecidableEq, Repr

/-- Instructions without a meaning. -/
inductive Refusal where
  /-- Raised by an arm of `exec` that has no meaning yet; none is left. Safe. -/
  | notModelled (mnemonic : String)
  deriving DecidableEq, Repr

/-- Memory paths (10 R309). -/
inductive Path where
  | l | p | k | m | a | x
  deriving DecidableEq, Repr

/-- Outstanding-operation counters (10 R319); some operations count in none. -/
inductive Ctr where
  | ld | st | cp | tl | none
  deriving DecidableEq, Repr

/-- A port parameter set as `pcfg` stores it (08 R254, R255). -/
structure PSet where
  /-- the 64-byte record of Table 8-9 -/
  record : BitVec 512 := 0
  /-- obj of the handle -/
  obj : BitVec 23 := 0
  /-- vector size in bytes; 0 when `pcfg` has never written the set -/
  size : Nat := 0
  deriving DecidableEq, Repr

/-- A bound operand port (08 R258, R260). -/
structure Port where
  set : PSet
  /-- vectors taken or pushed so far -/
  pos : Nat
  /-- format register of the base's strip sampled at `pgo` -/
  cf : DWord
  deriving DecidableEq, Repr

/-- The weight stream (09 R284, R285). -/
structure Stream where
  handle : QWord
  /-- object offset of the first byte, and length -/
  off : Nat
  len : Nat
  rows : Nat
  fmt : BitVec 8
  /-- row length R -/
  width : Nat
  /-- rows taken so far -/
  pos : Nat
  /-- cycle in which its first byte arrives, and the bytes that follow in a core cycle -/
  since : Nat := 0
  rate : Nat := 512
  deriving DecidableEq, Repr

/-- The architectural context of a bead (11 R351; 02 Table 1-10). -/
structure Ctx where
  /-- address of the next bundle to issue (02 R37) -/
  pc : DWord := 0
  /-- privilege level: true is system (12 R371); log 4 -/
  sys : Bool := true
  x : Vector DWord 32 := Vector.replicate 32 0
  k : Vector Bool 8 := Vector.replicate 8 false
  v : Vector VWord 48 := Vector.replicate 48 0
  vm : Vector (BitVec 128) 8 := Vector.replicate 8 0
  m : Vector QWord 8 := Vector.replicate 8 0
  pv : Vector (BitVec 1024) 4 := Vector.replicate 4 0
  g : Vector DWord 4 := Vector.replicate 4 0
  a : Vector DWord 16 := Vector.replicate 16 0
  h : Vector QWord 16 := Vector.replicate 16 0
  ps : Vector PSet 8 := Vector.replicate 8 {}
  port : Vector (Option Port) 8 := Vector.replicate 8 none
  /-- pattern banks 0 and 1 (05 R163), and which is active -/
  pat0 : Vector (BitVec 1024) 64 := Vector.replicate 64 0
  pat1 : Vector (BitVec 1024) 64 := Vector.replicate 64 0
  patActive : Bool := false
  fpcr : DWord := 0
  fpsr : DWord := 0
  cf : Vector DWord 16 := Vector.replicate 16 0
  cause : DWord := 0
  epc : DWord := 0
  einfo : DWord := 0
  tbase : DWord := 0
  repc : DWord := 0
  slip : DWord := 0
  enpc : DWord := 0
  cbmap : DWord := 0xFEDCBA9876543210
  seg : DWord := 0
  /-- sr.bead: bytes 8-15 of the record (11 Table 11-8) -/
  bead : DWord := 0
  /-- sr.ctx.preempt and sr.ctx.since (11 Table 11-5) -/
  preempt : BitVec 8 := 0
  since : BitVec 48 := 0
  /-- bytes 16-23 of the bead's record (11 Table 11-1) -/
  home : DWord := 0
  /-- queue index of the bead in its strand (11 R340) -/
  index : BitVec 32 := 0
  /-- strip count s (02 R70) -/
  strips : Nat := 0
  /-- the tower allotment as at bead start (11 R336) -/
  allot15 : QWord := 0
  /-- sticky fields of the transfer status word (09 Table 9-7) -/
  xstat : DWord := 0
  /-- lending state: bit b is 1 while bank b belongs to slot M (05 R139, 06 R197) -/
  lent : BitVec 6 := 0
  wstr : Option Stream := none
  /-- numbers of the registers in the operand latches: destination, a, b (05 R133) -/
  latch : Vector (Option (BitVec 6)) 3 := Vector.replicate 3 none
  /-- write windows of the open segment (11 R356) -/
  windows : List QWord := []
  deriving DecidableEq, Repr

/-- A register write that lands later: a load's, a cross-slot copy's or an engine's. The mask says which bits change. -/
inductive RegWrite where
  | none
  | x (r : BitVec 5) (value : DWord)
  | v (r : BitVec 6) (mask value : VWord)
  | m (r : BitVec 3) (mask value : QWord)
  | a (r : BitVec 4) (value : DWord)
  | h (r : BitVec 4) (mask value : QWord)
  | pv (r : BitVec 2) (mask value : BitVec 1024)
  | g (r : BitVec 2) (value : DWord)
  | vm (r : BitVec 3) (mask value : BitVec 128)
  | pat (e : Nat) (bank : Bool) (values : List (BitVec 1024))
  /-- a binding of `pgo` or `pstop`, for the V operations of later bundles (08 R258) -/
  | port (k : BitVec 3) (binding : Option Port)
  deriving DecidableEq, Repr

/-- A bundle in flight (02 R49, R57): its address, which slots are complete, its number, and the iterations of its REP
header that are not complete, this one among them (0: no header). -/
structure Flight where
  addr : DWord
  done : BitVec 4
  seq : Nat
  rep : Nat
  deriving DecidableEq, Repr

/-- Lent fields of an EXT header (02 R40). -/
structure Ext where
  v : BitVec 9
  m : BitVec 9
  t : BitVec 8
  deriving DecidableEq, Repr

/-- An operation with what its bundle gave it: what a slot holds while it executes, waits or is queued. `iss` is the
context as it stood when the bundle issued (02 R53, R84, R111, R125, R238). -/
structure Slotted where
  instr : Instr
  slot : BitVec 2
  word : Word
  addr : DWord
  seq : Nat
  ext : Option Ext
  iss : Ctx
  /-- sr.parkmax when the bundle issued (02 R52, 04 R125) -/
  limit : BitVec 32 := 0
  deriving DecidableEq, Repr

/-- A register's name, for interlocks and shadows. -/
inductive Reg where
  | x (r : BitVec 5) | k (r : BitVec 3) | v (r : BitVec 6) | vm (r : BitVec 3) | m (r : BitVec 3) | pv (r : BitVec 2)
  | g (r : BitVec 2) | a (r : BitVec 4) | h (r : BitVec 4) | pattern
  deriving DecidableEq, Repr

/-- How an operation left its slot. -/
inductive Result where
  /-- complete -/
  | done
  /-- must wait; slot C or T, so the stream stalls (02 R48) -/
  | stall
  /-- must wait; slot V or M, so the slot parks (02 R48) -/
  | park
  /-- left incomplete by a trap (02 R57) -/
  | trap
  deriving DecidableEq, Repr

/-- A trap not yet entered: code, sr.einfo, slot, raised by an issue check, by an event, and whether the replay window
is recorded without waiting for parked operations (07 R206). -/
structure TrapRec where
  code : BitVec 8
  info : DWord
  slot : BitVec 2
  iss : Bool
  evt : Bool
  now : Bool
  /-- a translation fault of R232 (absent page or object) and the address whose record it posts -/
  absent : Option DWord := Option.none
  /-- bundle of the operation that faulted: earlier bundles complete first (02 R57) -/
  seq : Nat := 0
  deriving DecidableEq, Repr

/-- A cross-slot copy in its shadow (02 R54): it lands when the destination slot reaches bundle `due`. -/
structure Shadow where
  write : RegWrite
  /-- number of its own bundle -/
  seq : Nat
  due : Nat
  deriving DecidableEq, Repr

/-- An entry of the hold buffer: 32 aligned bytes at a global address and its valid mask (11 R358). -/
structure Held where
  addr : Nat
  bytes : List (Option Byte)
  deriving DecidableEq, Repr

/-- State of a context bank (11 Table 11-5; `active` is the active bank's). -/
inductive BankState where
  | empty | active | draining | drained | sleeping | translation | barrier
  deriving DecidableEq, Repr

/-- What the stream waits for in its current bundle besides a counter. -/
inductive Waiting where
  | none
  /-- `sleepu` until a cycle (10 R321) -/
  | sleep (wake : Nat)
  /-- `bob.wait` with its request at the engine (10 R331) -/
  | bob (id : Nat)
  /-- `cbar`, arrived on its clasp's barrier in a cycle (11 R368) -/
  | barrier (since : Nat)
  /-- a suspension whose record is written in a cycle, or that has not reached that (11 R346, R365) -/
  | record (done : Option Nat)
  /-- `halt` (12 R381) -/
  | halted
  /-- `scan`: the self-test runs from a cycle (12 R409) -/
  | scan (since : Nat)
  /-- an operation subject to sr.parkmax since a cycle (02 R52), or a context that drains until one (11 R351) -/
  | watch (since : Nat)
  deriving DecidableEq, Repr

/-- The sequencer of a context bank. -/
structure Seq where
  state : BankState := .empty
  /-- number of the next bundle or REP iteration (02 R54) -/
  seq : Nat := 0
  /-- earlier bundles with an incomplete slot, and those after them, oldest first -/
  win : List Flight := []
  /-- the bundle being issued and its operations not yet complete -/
  cur : Option Flight := none
  ops : List Slotted := []
  /-- slots V and M: operations parked or waiting behind a parked one, oldest first (02 R48) -/
  vq : List Slotted := []
  mq : List Slotted := []
  /-- cycles from which the heads of vq and mq have been parked -/
  vSince : Option Nat := none
  mSince : Option Nat := none
  /-- retried in this cycle (02 R48, R49) -/
  vTried : Bool := false
  mTried : Bool := false
  /-- at the cycle's start: the oldest bundle with an incomplete slot, and whether slots V and M lagged (02 R49) -/
  oldest : Option Nat := none
  lagged : Bool := false
  /-- replay window still to issue (02 R58): bundle and done bits -/
  replay : List (DWord × BitVec 4) := []
  /-- iterations with which the next REP bundle resumes; 0 for all (02 R44) -/
  repLeft : Nat := 0
  /-- REP bundle between two iterations: its address and the iterations left -/
  repCur : Option (DWord × Nat) := none
  /-- the next bundle issues no earlier than this cycle: the target of a taken transfer (04 R119), or after a strike report
  (12 R385); and the stall counter that counts the wait -/
  issueFrom : Nat := 0
  issueWhy : Nat := 10
  /-- a taken transfer leads to the next bundle (02 R49) -/
  taken : Bool := false
  /-- first and last bundle of the short loop that streams from the sequencer's buffer (04 R119) -/
  looped : Option (DWord × DWord) := none
  /-- results of slots C and V not yet at their latency (04 R101, 05 R136): register, bundle, cycle -/
  busy : List (Reg × Nat × Nat) := []
  /-- the v banks that an issued operation of slot V names, its bundle, and the cycle in which it completes (05 R139) -/
  named : List (BitVec 6 × Nat × Nat) := []
  /-- a bundle held for its register bank reads (05 R134): its number and its cycle of issue -/
  bankHold : Option (Nat × Nat) := none
  /-- checks of R380 due on the next bundle -/
  rteCheck : Bool := false
  /-- the next bundle is the first of a handler (12 R374) -/
  atVector : Bool := false
  shadows : List Shadow := []
  trap : Option TrapRec := none
  /-- a pending trap 0x13 and its sr.einfo (03 R90) -/
  olfTrap : Option DWord := none
  /-- traps of engines that found another trap of an engine pending, oldest first (log 42) -/
  more : List TrapRec := []
  /-- pending traps wait for the `rte` of the handler that went before them (12 R375) -/
  olfHeld : Bool := false
  /-- fences in force: first set, second set, bundle number (10 R313) -/
  fences : List (BitVec 6 × BitVec 6 × Nat) := []
  /-- a `drain.rel` holds the next bundle that writes (10 R315): scope -/
  relHold : Option (BitVec 3 × Nat) := none
  wait : Waiting := .none
  /-- what an operation of slot C sends waits for the end of the strike hold since a cycle (12 R384); once it is sent, its answer and the
  cycle in which that comes -/
  sending : Option Nat := none
  answered : Option (DWord × Nat) := none
  held : List Held := []
  snap : Option Ctx := none
  /-- a segment rewind is due, with the address consumed (11 R360) -/
  rewind : Bool := false
  /-- the resume window (02 R57): epc, slip, enpc, repc -/
  resume : DWord × DWord × DWord × DWord := (0, 0, 0, 0)
  /-- the bead is to be halted (11 R349) and by which -/
  preemptBy : Bool := false
  /-- an atomic with `.acq` holds later bundles until its x(d) is written (10 R326) -/
  acq : Option Nat := none
  /-- cycle of a `cbar` arrival whose release the bead has not seen (11 R368) -/
  cbarAt : Option Nat := none
  /-- and its release, or the cycle of the engine's answer, once it has come -/
  cbarRel : Option Nat := none
  /-- the bank's bead may be taken back (08 R232 retry, 10 R321, 11 R368) -/
  eligible : Bool := false
  /-- cycle of the bead's last dispatch (11 R345), and since when it has been ready again after a halt (11 R342, R352) -/
  placedAt : Nat := 0
  haltedAt : Nat := 0
  deriving DecidableEq, Repr

/-- A piece of a write: byte address (Config of addresses: see `Ops`) and its bytes. -/
structure Part where
  addr : Nat
  bytes : List Byte
  deriving DecidableEq, Repr

/-- A request at an atomic engine (10 R325-R331). -/
structure AtomReq where
  /-- the instruction: `atm.*`, `bob.*`, or `cbar`, `join` or `leave` on the barrier object of a clasp -/
  instr : Instr
  addr : Nat
  s : DWord
  d : DWord
  /-- engine arrival of a copy (10 R330), or a request of the hub (11 R355, R367, R368) -/
  engine : Bool
  /-- executed already at the engine, waiting for its answer (`bob.wait`, `cbar`) -/
  waiting : Bool
  /-- sr.einfo of a consumed granule -/
  info : DWord := 0
  /-- the cycle in which the request reaches its engine (10 R323) -/
  arrive : Nat := 0
  /-- for how many cycles before it executes the lines of a replicated extent are locked (10 R316) -/
  lock : Nat := 0
  /-- 0 before it is taken up, 1 while its line is fetched, 2 while its line is locked in the replicas, 3 while the answer of a `cbar` is on its
  way -/
  phase : Nat := 0
  deriving DecidableEq, Repr

/-- The destination of a load that has still to read its bytes: an x register, extended by its sign or by zeros, a v register, an h
register, or the entries of a pattern bank. -/
inductive LoadForm where
  | x (r : BitVec 5) (signed : Bool)
  | v (r : BitVec 6)
  | h (r : BitVec 4)
  | pat (e : Nat) (bank : Bool)
  deriving DecidableEq, Repr

/-- A tile operation in the matrix engine's queue. -/
structure Tiling where
  /-- the cycle in which it started -/
  started : Option Nat := none
  /-- the step that it makes next: rows of a product, steps of a factorisation, rows of `mzero`, records of `moutm` (log 6) -/
  step : Nat := 0
  /-- records that `moutm` found in its list when it started (06 R196) -/
  records : Nat := 0
  /-- codes of the plane of the pass in execution, of that of the next pass, and the cycle in which the load of the next ends (06 R184) -/
  plane : List (List Nat) := []
  next : List (List Nat) := []
  loads : Nat := 0
  /-- the rows of A of a checked product's pass that have entered (06 R195) -/
  seen : List (List Nat) := []
  /-- every row that it takes from the weight stream has been taken (09 R285) -/
  fed : Bool := false
  /-- running values of a factorisation that has stopped: mi, mf, zcount, first event, flags (07 R204, R205) -/
  run : List Nat := []
  /-- progress from which it goes on once it has stopped: of C and of A (06 R186, 07 R205) -/
  prog : Option (Nat × Nat) := none
  /-- the cycle of the bank switch that stops it (06 R185) -/
  halt : Option Nat := none
  /-- flags of the row steps before it stopped (06 R194) -/
  flags : Nat := 0
  /-- the pivot register as it stood when it started, where no earlier operation of the queue writes it (07 R201) -/
  pv : Option (BitVec 1024) := none
  deriving DecidableEq, Repr

/-- How far a copy, a refill or a shift has come (09 R266). -/
inductive Stage where
  /-- it waits for its engine or for full granules -/
  | queued
  /-- its data phase begins in a cycle -/
  | moving (data : Nat)
  /-- its bytes are written and not yet final (12 R384): the pieces, through which map, the granules that they poison, flags and lost
  outliers, and bits of the status word -/
  | landing (parts : List Part) (cbmap : DWord) (poison : List Nat) (flags lost : Nat) (status : DWord)
  deriving DecidableEq, Repr

/-- The time that a copy, a refill or a shift takes: both side latencies, the bytes of its data phase, their rate in bytes a core cycle,
and the further cycles of remapped towers. -/
structure Burst where
  lead : Nat
  bytes : Nat
  rate : Nat
  extra : Nat
  stage : Stage := .queued
  deriving DecidableEq, Repr

/-- What a side of a copy was translated by at issue (09 R272; 08 R231): the strip map of a crown side, the owner core and its remap table, and the
object-table entry of a K or G side. -/
structure SideMap where
  strips : DWord
  owner : Nat := 0
  towers : List Nat := []
  entry : Option Nat := none
  deriving DecidableEq, Repr

/-- What an outstanding operation does. -/
inductive Work where
  /-- an answer on its way: the register write it makes, whether it consumed a bad granule, and what it reports of it (08 R235) -/
  | load (write : RegWrite) (bad : Bool) (info : DWord) (flags : DWord)
  /-- a read that has not performed (10 R305): its destination, its ranges of cells in order, the bytes that the hold buffer gave at
  issue (11 R358), whether its lines are allocated at their home ports (08 R234), and the line that it brings into the scalar cache:
  its number and its place (08 R233) -/
  | fetch (form : LoadForm) (ranges : List (Nat × Nat)) (held : List (Option Byte)) (cached : Bool) (fill : Option (Nat × Nat))
  /-- a crown or tower write awaiting the end of the strike hold (12 R384); the map it was written through, whether it
  sets handle tags, and the granules set full with it -/
  | write (parts : List Part) (cbmap : DWord) (tag : Bool) (full : List Nat)
  /-- a global store (08 R236), and for how many cycles before it performs the lines of a replicated extent are locked (10 R316) -/
  | gstore (parts : List Part) (lock : Nat)
  | atom (req : AtomReq)
  /-- `copy` with its sampled context, the maps of both sides and record pair (09 R271, R272) -/
  | copy (op : Slotted) (dmap smap : SideMap) (pair : BitVec 1024) (burst : Burst)
  /-- `frfl`: source global address, length, tower, offset, ranks (09 R286) -/
  | refill (src len tower off : Nat) (ranks : BitVec 8) (burst : Burst)
  /-- `shift`: ranges dropped, the core that edge data lands in, whether edge destinations are zeroed (09 Table 9-8) -/
  | shift (op : Slotted) (dropped : Nat) (lands : List Nat) (zeros : Bool) (burst : Burst)
  | reduce (op : Slotted) (values : List Word)
  /-- `tsetf`, `tsete`: granules and whether set full -/
  | tset (granules : List Nat) (full : Bool)
  | hdead (units : List Nat)
  /-- `bcfl`: the lines with the cycles in which they reach their stacks, and the cycle of the last report (08 R263) -/
  | bcfl (lines : List (Nat × Nat)) (inv : Bool) (last : Nat)
  /-- a tile operation in the engine's queue (06 R180) -/
  | tile (op : Slotted) (t : Tiling)
  /-- an error record that leaves the core when the strike hold ends (12 R384, R389): type, code, bead, address and info -/
  | notice (type code : Nat) (bead addr info : DWord)
  deriving DecidableEq, Repr

/-- An outstanding operation of the core's engines. -/
structure Out where
  id : Nat
  bank : Bool
  seq : Nat
  path : Path
  ctr : Ctr
  issued : Nat
  /-- cycle from which it can complete -/
  due : Nat
  promise : Option Nat
  work : Work
  deriving DecidableEq, Repr

/-- A line of the scalar cache: line address and its 64 bytes (08 R233). -/
structure ScLine where
  line : Nat
  bytes : List Byte
  deriving DecidableEq, Repr

/-- A line of a board cache (08 R234): its address and, while it is dirty, the bytes the stack holds. -/
structure BcLine where
  line : Nat
  old : Option (List Byte)
  deriving DecidableEq, Repr

/-- A monitor unit (12 R390, R391). -/
structure Mon where
  ctl : DWord := 0
  /-- src, shift and base as sampled at the last start -/
  live : DWord := 0
  min : BitVec 64 := 0x7FFFFFFFFFFFFFFF
  max : BitVec 64 := 0x8000000000000000
  n : BitVec 64 := 0
  bins : Vector (BitVec 32) 16 := Vector.replicate 16 0
  deriving DecidableEq, Repr

/-- A B plane of the matrix engine (06 R192): the tag (descriptor without progress, D) and the codes of its rows. -/
structure Plane where
  desc : QWord
  depth : Nat
  codes : List (List Nat)
  deriving DecidableEq, Repr

/-- Registers and engines that belong to the core. -/
structure Core where
  /-- physical number (01 R18); log 3 -/
  phys : Nat := 0
  /-- sr.remap: physical tower of each logical tower (01 R26); log 3 -/
  remap : Vector (BitVec 5) 16 := Vector.ofFn fun i => BitVec.ofNat 5 i.val
  strikes : DWord := 0
  orphans : DWord := 0
  /-- sr.tlimit limit and interval (09 Table 9-9) -/
  tlimit : BitVec 24 := 0x1A13B8
  tinterval : BitVec 24 := 0xA6E4A
  /-- the deferral end (09 R298) -/
  deferEnd : Option Nat := none
  parkmax : BitVec 32 := 0x00100000
  sleepmax : BitVec 32 := 0x00004000
  /-- active bank (11 Table 11-5) -/
  bank : Bool := false
  mon : Vector Mon 4 := Vector.replicate 4 {}
  stalls : Vector DWord 16 := Vector.replicate 16 0
  /-- stall counters that have counted the present cycle (12 R392); the model's own field -/
  counted : List Nat := []
  scache : List ScLine := []
  planes : List Plane := []
  /-- cycle at which the planes were last made invalid (06 R185); the model's own field -/
  planesLost : Nat := 0
  /-- the last 17 bundles issued, newest first: address and words (04 R119) -/
  recent : List (DWord × List Word) := []
  /-- crown arrays that slot V claimed in a cycle: strip, column-bank, whether for a write (06 R173, R174); the model's own fields -/
  claims : List (Nat × Nat × Bool) := []
  claimedAt : Nat := 0
  /-- and those that the matrix engine's steps took in a cycle -/
  tileClaims : List (Nat × Nat × Bool) := []
  tileClaimedAt : Nat := 0
  /-- requests of path A that have left the core: bank, number in hand, cycle (12 R386); the model's own field -/
  sent : List (Bool × Nat × Nat) := []
  /-- units of the slots that accept nothing until a cycle (04 R103, 05 R137) -/
  units : List (Nat × Nat) := []
  /-- cycle in which slot T was last refused a grant or found its tower blocked; the model's own field -/
  refusedAt : Option Nat := none
  /-- normal slots of the towers: the cycle of the next one and the group that falls due in it (09 R295; log 43) -/
  slots : Vector (Nat × BitVec 7) 17 := Vector.replicate 17 (0xA6E4A * 8, 0)
  /-- last refresh of a group: tower, group, cycle (09 R297); a group not listed was refreshed at cycle 0 -/
  refreshed : List (Nat × Nat × Nat) := []
  /-- groups overdue in a deferral: tower, group (09 R297) -/
  overdue : List (Nat × Nat) := []
  /-- towers blocked by a group refresh until a cycle (09 R295) -/
  blocked : List (Nat × Nat) := []
  /-- physical towers marked failed (12 R412) -/
  failed : List Nat := []
  /-- cores parked by the power controller or removed from the map hold no bead (12 R397, R411) -/
  parked : Bool := false
  /-- a pending self-removal of `cmap` (12 R411) -/
  removal : Bool := false
  /-- counts of operations of the refused and sampled kinds that the monitors read (12 Table 12-9) -/
  crownRefused : Nat := 0
  /-- the cycle from which the periodic samples of the monitors may next be taken -/
  monAt : Nat := 0
  /-- the cycle from which the patrol scrubber reads its next crown line (12 R388) -/
  scrubAt : Nat := 0
  /-- granules that pops have cleared in the last cycles: bank, granule, cycle (12 R385); the model's own field -/
  took : List (Bool × Nat × Nat) := []
  /-- `diag.inj` operations that are final while a discard may come back to them: bank and bundle number (12 R413) -/
  struck : List (Bool × Nat) := []
  /-- cycle to which a strike's discard and repeat last (12 Table 12-11) -/
  strikeEnd : Nat := 0
  deriving DecidableEq, Repr

/-- A bead of another core, as the arbiter and the chain see it. -/
structure Guest where
  bead : DWord
  home : DWord
  cbmap : DWord
  strips : Nat
  active : Bool
  drained : Bool
  /-- cycle of its last dispatch (11 R345) -/
  since : Nat
  /-- cycle from which it halts, once it is pre-empted -/
  halted : Nat := 0
  deriving DecidableEq, Repr

/-- Another core of the package. -/
structure Other where
  phys : Nat
  remap : Vector (BitVec 5) 16
  guests : List Guest
  failed : List Nat
  deriving DecidableEq, Repr

/-- A bead waiting outside every core: in the wait pool or taken from its queue (11 R340, R341, R346). -/
structure Bead where
  /-- the record's 64 bytes -/
  record : BitVec 512
  strand : BitVec 16
  index : BitVec 32
  /-- cycle from which it has been ready, once it is -/
  ready : Option Nat
  /-- it has started before: strips kept, its saved context and tile queue when it was evicted (11 R347, R351) -/
  strips : DWord
  saved : Option (Ctx × Seq × List Out)
  /-- held for a gang or for a barrier's release (11 R354, R368) -/
  gang : Bool
  deriving DecidableEq, Repr

/-- A clasp (11 R353). -/
structure Clasp where
  number : BitVec 20
  size : Nat
  sync : Bool
  /-- ranks taken -/
  ranks : List Nat
  channel : Option Nat
  fallback : Option Nat
  packages : List Nat
  runtime : Bool
  /-- members arrived on the open barrier, by rank (11 R368) -/
  arrived : List Nat
  /-- release cycle of the last barrier, and how many have released -/
  released : Option Nat
  /-- number of `reduce` rounds formed (09 R293) -/
  round : Nat
  deriving DecidableEq, Repr

/-- Power and thermal control (12 R394-R402). -/
structure Power where
  lastPins : BitVec 3 := 0
  pins : BitVec 3 := 0
  command : BitVec 3 := 0
  lowered : Bool := false
  tripped : Bool := false
  actions : Nat := 0
  /-- cycle since which the power has stayed below 90 % of the cap -/
  lowSince : Option Nat := none
  milliwatts : Nat := 0
  readings : List (Nat × Int) := []
  failedSensors : List Nat := []
  deriving DecidableEq, Repr

/-- A context of a power-fail image (12 R399): its bead record, what its bank held, and the number of its 64 KiB image. -/
structure PfContext where
  record : BitVec 512
  c : Ctx
  q : Seq
  image : Nat
  deriving DecidableEq, Repr

/-- A power-fail image (12 R399): its header with the digest, and its contexts. -/
structure PfImage where
  complete : Bool
  digest : List Byte
  contexts : List PfContext
  deriving DecidableEq, Repr

/-- Boot state (12 R403-R406). -/
structure BootState where
  /-- dispatch rounds that recovery mode has left out, and since when it lasts (12 R408) -/
  silent : Nat := 0
  silentFrom : Option Nat := none
  /-- board flash: image number, copy B, bytes -/
  flash : List (BitVec 5 × Bool × List Byte) := []
  recovery : Bool := false
  /-- helper data of the identity and its certificate, in flash (12 R405) -/
  helper : List Byte := []
  certificate : List Byte := []
  /-- the pattern that the last boot read (12 R405) -/
  pattern : List Byte := []
  /-- digests of the verified images, in order -/
  digests : List (List Byte) := []
  /-- configuration image as applied -/
  config : List Byte := []
  /-- the logical core map as the configuration image gave it (12 R411) -/
  map : List Nat := List.range 512
  report : List Byte := []
  signature : List Byte := []
  pfImage : Option PfImage := none
  deriving DecidableEq, Repr

/-- Arbiter record counts of the boards (12 Table 12-15). -/
structure ArbCount where
  placed : Nat := 0
  preemptions : Nat := 0
  promotions : Nat := 0
  scans : Nat := 0
  scanAborts : Nat := 0
  scanFails : Nat := 0
  removed : Nat := 0
  deriving DecidableEq, Repr

/-- The package outside the core. -/
structure Hub where
  /-- logical core map: physical number of each logical core (01 R33); log 3 -/
  map : List Nat := List.range 512
  others : List Other := []
  /-- towers of other cores that a group refresh blocks: core, tower, until a cycle (09 R288, R291, R300) -/
  farBlocked : List (Nat × Nat × Nat) := []
  /-- object table: base, entries, and its cells in force (08 R229, R231) -/
  otBase : Nat := 0
  otSize : Nat := 0
  otCells : List Host.Cell := []
  /-- an object table that the runtime has named and that its next object invalidation puts in force (08 R231) -/
  otNext : Option (Nat × Nat) := none
  strandTable : Nat := 0
  errorStrand : Option (BitVec 16) := none
  errorDrops : Nat := 0
  clasps : List Clasp := []
  channels : List Nat := []
  pool : List Nat := []
  waitBase : Nat := 0
  waitSize : Nat := 0
  hostLatency : Nat := 1400
  /-- staging size of each board in units of 4 MiB (08 R234) -/
  staging : List Nat := [0, 0, 0, 0, 0, 0, 0, 0]
  telemetry : Option Nat := none
  exes : List Exe := []
  /-- beads waiting outside cores -/
  beads : List Bead := []
  /-- beads taken from each strand's queue and not retired: strand, index (11 R341) -/
  started : List (BitVec 16 × BitVec 32) := []
  /-- rr(p) for p = 0..7 (11 R343) -/
  rr : Vector (BitVec 16) 8 := Vector.replicate 8 65535
  /-- the cycle from which the next round may fall (11 R343) -/
  roundAt : Nat := 0
  /-- queue heads: strand, index, whether it is ready, and the cycle since which it is or in which it was last found not to be (11 R342) -/
  heads : List (BitVec 16 × BitVec 32 × Bool × Nat) := []
  /-- beads placed on this core and not yet started, with the bank and the cycle (11 R343) -/
  placing : List (Bead × Bool × Nat) := []
  /-- the cycle of the round that last placed a bead on this core (11 R345) -/
  placedAt : Nat := 0
  bcache : List BcLine := []
  /-- lines held by the atomic engines, most recent first, and what their home holds while it differs (10 R324) -/
  engines : List BcLine := []
  /-- lines on which the atomic engines have executed a request, and the cycle, newest first (10 R323) -/
  served : List (Nat × Nat) := []
  hops : List (Nat × Nat) := []
  lost : List Nat := []
  access : List (Nat × Nat × Nat) := []
  /-- host pages known present, as 4 KiB page numbers (08 R231) -/
  pages : List Nat := []
  /-- MSI-X vectors that the runtime has assigned to strands: vector, strand, value of its retired field (12 Table 12-14) -/
  vectors : List (Nat × BitVec 16 × Nat) := []
  /-- MSI-X vectors raised, oldest first (12 Table 12-14) -/
  msix : List Nat := []
  /-- a record of type 12 that waits for the error strand after power has returned: cycle and info (12 R399; log 11) -/
  owed : Option (Nat × DWord) := none
  /-- last bytes answered to the host, to another package or to an attestation -/
  answer : List Byte := []
  counts : Vector ArbCount 8 := Vector.replicate 8 {}
  /-- scrub counts of the stacks: corr, uncorr, passes, repairs (09 Table 9-10) -/
  stackCounts : Vector (Nat × Nat × Nat × Nat) 16 := Vector.replicate 16 (0, 0, 0, 0)
  /-- reports of each strike region: board, region, cycle (12 R387) -/
  reports : List (Nat × Nat × Nat) := []
  power : Power := {}
  boot : BootState := {}
  deriving DecidableEq, Repr

/-- Memory: one list of cells for every byte the machine can reach, and what goes with the bytes. -/
structure Mem where
  /-- final bytes, strictly rising addresses, none equal to 0, which an unlisted address reads as (log 1) -/
  cells : List Host.Cell := []
  /-- crown granules of 4 KiB that are empty, by address (06 R175), rising -/
  empty : List Nat := []
  /-- 16-byte crown units whose handle tag is set (08 R247), rising -/
  tags : List Nat := []
  /-- poisoned ECC granules by address (08 R235), rising -/
  poison : List Nat := []
  /-- wrong bits: bit addresses inverted under old check bits (12 R413), rising -/
  wrong : List Nat := []
  /-- granules whose next read errs in itself (08 R235) -/
  flaky : List Nat := []
  /-- dead units of 1 KiB by address (09 R301), rising -/
  dead : List Nat := []
  /-- errors corrected so far (08 R235); no register shows the count -/
  corrected : Nat := 0
  /-- ranges whose bytes are unspecified: first address, length, time; newest first (11 R347; log 9) -/
  junk : List (Nat × Nat × Nat) := []
  deriving DecidableEq, Repr

/-- What a strike report restores (12 R384, R385): the active bank as it stood before a cycle. -/
structure Undo where
  cycle : Nat
  bank : Bool
  c : Ctx
  q : Seq
  outs : List Out
  nextId : Nat
  /-- sr.parkmax, sr.sleepmax, and limit and interval of sr.tlimit -/
  limits : BitVec 32 × BitVec 32 × BitVec 24 × BitVec 24
  units : List (Nat × Nat)
  /-- towers marked failed (12 R412) -/
  failed : List Nat
  deriving DecidableEq, Repr

/-- What the slot being executed holds. -/
structure Latch where
  /-- bundle address, slot, slot word, bundle number and EXT fields of the operation in execution -/
  addr : DWord := 0
  slot : BitVec 2 := 0
  word : Word := 0
  seq : Nat := 0
  ext : Option Ext := none
  /-- the context as it stood at the issue of its bundle -/
  iss : Ctx := {}
  /-- how the operation left its slot -/
  res : Result := .done
  /-- the operation is the last of its bundle to act and no earlier bundle is incomplete -/
  quiet : Bool := true
  deriving DecidableEq, Repr

/-- The machine. -/
structure State where
  /-- sr.cycle (04 R126) -/
  now : Nat := 0
  /-- the active bank: its bead's context and its sequencer -/
  c : Ctx := {}
  q : Seq := {}
  /-- the other bank -/
  oc : Ctx := {}
  oq : Seq := {}
  lat : Latch := {}
  core : Core := {}
  mem : Mem := {}
  outs : List Out := []
  nextId : Nat := 0
  /-- counter of the free values (model's own; log 9, 10) -/
  fresh : Nat := 0
  hub : Hub := {}
  undo : List Undo := []
  /-- operation taken from a queue for this cycle's retry (02 R48) -/
  run : Option Slotted := none
  /-- what the event in execution acts on (log 13) -/
  arg : Payload := .none
  /-- inputs of the outside world still to come, with the cycle from which each happens (log 13) -/
  agenda : List (Nat × Instr × Payload) := []
  deriving DecidableEq, Repr

/-- The machine right after package reset: every field at the value its declaration gives. No bead is resident (11
R348) and memory lists nothing. -/
def State.reset : State := {}

end Sys2Proof.Machine
end

