-- ==== Sys2Proof/Machine/Mem.lean ====
section
/-! DEFINITION. Memory: where the machine's bytes lie in the one list of cells, reading and writing them with ECC granules, poison, handle tags, dead units and unspecified bytes (08 R235, R247; 09 R301; 12 R413). -/

namespace Sys2Proof.Machine

/-! ## Addresses

A global address below 2^64 is its own cell address; the crowns begin at 2^64, the towers at 2^65, and the memory of
other packages at 2^66. -/

/-- Cell address of byte `off` of the crown of a physical core (01 R24). -/
def crownAddr (core off : Nat) : Nat := 2 ^ 64 + core * 2 ^ 23 + off

/-- Cell address of byte `off` of a physical tower 0-16 of a physical core (01 R24, R26). -/
def towerAddr (core tower off : Nat) : Nat := 2 ^ 65 + (core * 17 + tower) * 2 ^ 23 + off

/-- Cell address of a byte of another package (09 R272); `g` carries the package number. -/
def remoteAddr (g : Nat) : Nat := 2 ^ 66 + g

def isCrown (a : Nat) : Bool := decide (2 ^ 64 ≤ a ∧ a < 2 ^ 65)
def isTower (a : Nat) : Bool := decide (2 ^ 65 ≤ a ∧ a < 2 ^ 66)

/-- Bytes of an ECC granule at an address: 8 in crown, 32 elsewhere (08 R235). -/
def granuleSize (a : Nat) : Nat := if isCrown a then 8 else 32

/-- The physical strip of a logical strip under a strip map (02 Table 2-17). -/
def stripOf (map : DWord) (i : Nat) : Nat := fld map.toNat (4 * i) 4

/-- Cell address of a logical crown address of a core through a strip map (02 R70). -/
def crownThrough (map : DWord) (core la : Nat) : Nat := crownAddr core (stripOf map (la / 2 ^ 19) * 2 ^ 19 + la % 2 ^ 19)

/-! ## Sets of numbers as rising lists -/

/-- Add a number to a rising list. -/
def setAdd : List Nat → Nat → List Nat
  | [], a => [a]
  | b :: t, a => if a < b then a :: b :: t else if a = b then b :: t else b :: setAdd t a

/-- Remove a number. -/
def setDel (l : List Nat) (a : Nat) : List Nat := l.filter (· != a)

/-- Remove every number of the `n` from `lo`. -/
def setDelRange (l : List Nat) (lo n : Nat) : List Nat := l.filter fun a => decide (a < lo ∨ lo + n ≤ a)

/-- Whether the numbers rise strictly. -/
def rising : List Nat → Bool
  | a :: b :: t => decide (a < b) && rising (b :: t)
  | _ => true

/-! ## Cells -/

/-- The byte at an address; an unlisted address reads 0 (log 1). -/
def cellGet : List Host.Cell → Nat → Byte
  | [], _ => 0
  | (x, y) :: t, a => if x = a then y else cellGet t a

/-- Store a byte, keeping the canonical form. -/
def cellSet : List Host.Cell → Nat → Byte → List Host.Cell
  | [], a, b => if b = 0 then [] else [(a, b)]
  | (x, y) :: t, a, b =>
    if a < x then (if b = 0 then (x, y) :: t else (a, b) :: (x, y) :: t)
    else if a = x then (if b = 0 then t else (a, b) :: t)
    else (x, y) :: cellSet t a b

/-- Store consecutive bytes. -/
def cellSets (l : List Host.Cell) (a : Nat) : List Byte → List Host.Cell
  | [] => l
  | b :: t => cellSets (cellSet l a b) (a + 1) t

/-- Forget the `n` cells from `lo`: they read 0. -/
def cellsClear (l : List Host.Cell) (lo n : Nat) : List Host.Cell :=
  l.filter fun c => decide (c.1 < lo ∨ lo + n ≤ c.1)

/-- The canonical form: addresses strictly rising, no entry equal to 0. -/
def cellsWf : List Host.Cell → Bool
  | [] => true
  | [c] => c.2 != 0
  | c :: d :: t => c.2 != 0 && decide (c.1 < d.1) && cellsWf (d :: t)

/-- The canonical form of a memory. -/
abbrev Mem.wf (m : Mem) : Bool := cellsWf m.cells

/-! ## Bytes as numbers, little-endian (00 R3) -/

def bytesNat : List Byte → Nat
  | [] => 0
  | b :: t => b.toNat + 256 * bytesNat t

/-- The `n` low bytes of a number. -/
def natBytes : Nat → Nat → List Byte
  | 0, _ => []
  | n + 1, w => BitVec.ofNat 8 w :: natBytes n (w / 256)

/-! ## Reading -/

/-- The time at which an address last became unspecified, if no write has covered it since (log 9). -/
def junkAt (l : List (Nat × Nat × Nat)) (a : Nat) : Option Nat :=
  (l.find? fun r => decide (r.1 ≤ a ∧ a < r.1 + r.2.1)).map (·.2.2)

/-- Take `n` addresses from `lo` out of the unspecified ranges. -/
def junkCut (l : List (Nat × Nat × Nat)) (lo n : Nat) : List (Nat × Nat × Nat) :=
  l.flatMap fun r =>
    if r.1 + r.2.1 ≤ lo ∨ lo + n ≤ r.1 then [r]
    else (if r.1 < lo then [(r.1, lo - r.1, r.2.2)] else []) ++
      (if lo + n < r.1 + r.2.1 then [(lo + n, r.1 + r.2.1 - (lo + n), r.2.2)] else [])

/-- The byte that memory holds. -/
def Mem.byte (m : Mem) (a : Nat) : Byte :=
  match junkAt m.junk a with
  | some t => Config.freeByte t a
  | none => cellGet m.cells a

/-- Consecutive bytes that memory holds. -/
def Mem.bytes (m : Mem) (a : Nat) : Nat → List Byte
  | 0 => []
  | n + 1 => m.byte a :: m.bytes (a + 1) n

/-- First addresses of the granules that `n > 0` bytes from `a` touch. -/
def granules (a n : Nat) : List Nat :=
  let z := granuleSize a
  if n = 0 then [] else (List.range ((a + n - 1) / z - a / z + 1)).map fun i => (a / z + i) * z

/-- Number of wrong bits in the granule at `g` (12 R413). -/
def Mem.wrongIn (m : Mem) (g : Nat) : Nat :=
  (m.wrong.filter fun b => decide (8 * g ≤ b ∧ b < 8 * (g + granuleSize g))).length

/-- What ECC does when one granule is read: the memory after it and whether the granule is uncorrectable or poisoned
(08 R235, 12 R388, R413). One wrong bit is corrected and counted; of three or more the outcome is free (log 10). A read that errs in itself
is uncorrectable. -/
def Mem.check (m : Mem) (fresh g : Nat) : Mem × Bool :=
  if m.flaky.contains g then ({ m with flaky := m.flaky.filter (· != g) }, true) else
  let fixed := { m with wrong := setDelRange m.wrong (8 * g) (8 * granuleSize g), corrected := m.corrected + 1 }
  match m.wrongIn g with
  | 0 => (m, m.poison.contains g)
  | 1 => (fixed, m.poison.contains g)
  | 2 => (m, true)
  | _ => if Config.freeError fresh g = 0 then (m, true)
         else ({ fixed with junk := (g, granuleSize g, fresh) :: m.junk }, false)

/-- ECC over every granule of a read: the memory after it and the bad granules. -/
def Mem.checks (m : Mem) (fresh : Nat) : List Nat → Mem × List Nat
  | [] => (m, [])
  | g :: t =>
    let r := m.check fresh g
    let u := r.1.checks fresh t
    (u.1, if r.2 then g :: u.2 else u.2)

/-! ## Writing -/

/-- The bytes of a piece that fall in the `n` addresses from `lo`, with the first one's address. -/
def Part.clip (p : Part) (lo n : Nat) : Part :=
  let a := max p.addr lo
  { addr := a, bytes := (p.bytes.drop (a - p.addr)).take (lo + n - a) }

/-- Write what of a piece falls in one granule (08 R235): a whole granule is replaced and its poison cleared; a part of
an uncorrectable granule is dropped and the granule poisoned. Answers whether it was dropped. -/
def Mem.putGranule (m : Mem) (fresh g : Nat) (p : Part) : Mem × Bool :=
  let z := granuleSize g
  let q := p.clip g z
  let live : Mem :=
    if m.dead.contains (g / 1024 * 1024) then { m with dead := setDel m.dead (g / 1024 * 1024) } else m
  let r := if q.bytes.length = z then
      ({ live with wrong := setDelRange live.wrong (8 * g) (8 * z), poison := setDel live.poison g }, false)
    else live.check fresh g
  if r.2 then
    ({ r.1 with poison := setAdd r.1.poison g, wrong := setDelRange r.1.wrong (8 * g) (8 * z) }, true)
  else
    ({ r.1 with cells := cellSets r.1.cells q.addr q.bytes, junk := junkCut r.1.junk q.addr q.bytes.length }, false)

def Mem.putGranules (m : Mem) (fresh : Nat) (p : Part) : List Nat → Mem × List Nat
  | [] => (m, [])
  | g :: t =>
    let r := m.putGranule fresh g p
    let u := r.1.putGranules fresh p t
    (u.1, if r.2 then g :: u.2 else u.2)

/-- The 16-byte units that `n` bytes from `a` touch. -/
def units16 (a n : Nat) : List Nat :=
  if n = 0 then [] else (List.range ((a + n - 1) / 16 - a / 16 + 1)).map fun i => (a / 16 + i) * 16

/-- Write a piece: granule by granule, clearing the handle tags of every crown unit it touches, or setting them (08
R240, R247). Answers the granules whose bytes were dropped. -/
def Mem.put (m : Mem) (fresh : Nat) (tag : Bool) (p : Part) : Mem × List Nat :=
  let r := m.putGranules fresh p (granules p.addr p.bytes.length)
  let us := if isCrown p.addr then units16 p.addr p.bytes.length else []
  ({ r.1 with tags := us.foldl (if tag then setAdd else setDel) r.1.tags }, r.2)

/-- Write several pieces in order. -/
def Mem.puts (m : Mem) (fresh : Nat) (tag : Bool) : List Part → Mem × List Nat
  | [] => (m, [])
  | p :: t =>
    let r := m.put fresh tag p
    let u := r.1.puts fresh tag t
    (u.1, r.2 ++ u.2)

/-- Poison one granule (08 R235). -/
def Mem.setPoison (m : Mem) (g : Nat) : Mem := { m with poison := setAdd m.poison g }

/-- Mark a unit of 1 KiB dead: it reads 0 and raises no ECC event until it is written (09 R301). -/
def Mem.kill (m : Mem) (u : Nat) : Mem :=
  { m with
    cells := cellsClear m.cells u 1024
    poison := setDelRange m.poison u 1024
    wrong := setDelRange m.wrong (8 * u) 8192
    junk := junkCut m.junk u 1024
    dead := setAdd m.dead u }

/-- Bytes that become unspecified (11 R347, R351, R356; log 9). -/
def Mem.scramble (m : Mem) (time lo n : Nat) : Mem := { m with junk := (lo, n, time) :: m.junk }

/-- Whole granules that the machine writes for itself: fresh check bits, no handle tags, bytes that are its own (11 R351, R356; log 9). -/
def Mem.fill (m : Mem) (time lo n : Nat) : Mem :=
  { m.scramble time lo n with
    poison := setDelRange m.poison lo n
    wrong := setDelRange m.wrong (8 * lo) (8 * n)
    tags := setDelRange m.tags lo n }

/-- Granules of a range in which something is wrong. -/
def Mem.suspects (m : Mem) (lo n : Nat) : List Nat :=
  ((m.poison ++ m.flaky ++ m.wrong.map (· / 8)).filter fun a => decide (lo ≤ a ∧ a < lo + n)).flatMap fun a => granules a 1

/-- Set or clear the full/empty bit of a 4 KiB crown granule (06 R175). -/
def Mem.setFull (m : Mem) (g : Nat) (full : Bool) : Mem :=
  { m with empty := if full then setDel m.empty g else setAdd m.empty g }

/-- First addresses of the 4 KiB granules that `n > 0` bytes from `a` touch. -/
def pages4k (a n : Nat) : List Nat :=
  if n = 0 then [] else (List.range ((a + n - 1) / 4096 - a / 4096 + 1)).map fun i => (a / 4096 + i) * 4096

/-- Whether every 4 KiB granule of a crown range is full. -/
def Mem.isFull (m : Mem) (a n : Nat) : Bool := (pages4k a n).all fun g => !m.empty.contains g

end Sys2Proof.Machine
end

