-- ==== Sys2Proof/Machine/BoardCache.lean ====
section
/-! DEFINITION. The object table, the device half of the address map, and the board caches on its memory ports (01 R20; 08 R229-R231, R234). -/

namespace Sys2Proof.Machine

/-! ## The object table and the device half -/

/-- Entry `obj` of the object table in force; none for object 0 and beyond the table. -/
def Hub.object (k : Hub) (obj : Nat) : Option Nat :=
  if obj = 0 ∨ k.otSize ≤ obj then none
  else some (bytesNat ((List.range 16).map fun i => cellGet k.otCells (k.otBase + 16 * obj + i)))

def oBase (e : Nat) : Nat := fld e 0 64
def oLen (e : Nat) : Nat := fld e 64 48
def oPresent (e : Nat) : Bool := e.testBit 112
def oCached (e : Nat) : Bool := e.testBit 113
def oReplicated (e : Nat) : Bool := e.testBit 114
def oBoards (e : Nat) : Nat := fld e 120 8

/-- Whether a global address lies in the device half (08 R230). -/
def deviceHalf (g : Nat) : Bool := g.testBit 63

/-- Whether a device-half address lies in a staging area (08 Table 8-6). -/
def inStaging (g : Nat) : Bool := g.testBit 62

/-- Board of a device-half address. -/
def homeBoard (g : Nat) : Nat := fld g 43 3

/-- Bytes of a board's staging area. -/
def Hub.stagingBytes (k : Hub) (b : Nat) : Nat := (k.staging[b]?.getD 0) * 2 ^ 22

/-- The copy of a replicated extent on a board, at the same g[42:0] (08 R230). -/
def replicaOn (g board : Nat) : Nat := g - fld g 43 3 * 2 ^ 43 + board * 2 ^ 43

/-! ## The cache: 65,536 sets of 16 ways a board, most recently used lines first (08 R234) -/

/-- Board and set of a line of device-half HBM. -/
def bcSet (line : Nat) : Nat × Nat := (homeBoard line, line / 64 % 65536)

/-- Ways that are not staging. -/
def Hub.bcWays (k : Hub) (board : Nat) : Nat := 16 - (k.staging[board]?.getD 0)

/-- Whether an access to a global address passes through a board cache and may allocate there. -/
def bcHome (g : Nat) : Bool := deviceHalf g && !inStaging g && decide (g < 2 ^ 64)

/-- An access reaches the home port: a hit moves the line to the front, and a miss allocates it when the extent is
cacheable, dropping the least recently used line of its set. `old` gives the stack's bytes when the access writes. -/
def Hub.bcTouch (k : Hub) (line : Nat) (cached : Bool) (old : Option (List Byte)) : Hub :=
  match k.bcache.find? (·.line == line) with
  | some e =>
    { k with bcache := { e with old := e.old.orElse fun _ => old } :: k.bcache.filter (·.line != line) }
  | none =>
    if !cached then k else
      let same := k.bcache.filter fun e => bcSet e.line == bcSet line
      let victims := (same.drop (k.bcWays (homeBoard line) - 1)).map (·.line)
      { k with bcache := { line := line, old := old } :: k.bcache.filter fun e => !victims.contains e.line }

/-- First addresses of the 64-byte lines that `n` bytes from `a` touch. -/
def lines64 (a n : Nat) : List Nat :=
  if n = 0 then [] else (List.range ((a + n - 1) / 64 - a / 64 + 1)).map fun i => (a / 64 + i) * 64

/-- Whether a line is in its board's cache. -/
def Hub.bcHit (k : Hub) (g : Nat) : Bool := k.bcache.any (·.line == g / 64 * 64)

/-- Whether an atomic engine holds the line of an address. -/
def Hub.engineHolds (k : Hub) (g : Nat) : Bool := k.engines.any (·.line == g / 64 * 64)

/-- A write to a line that an engine holds: the engine keeps what the line's home holds (10 R324). -/
def Hub.engineDirty (k : Hub) (line : Nat) (old : List Byte) : Hub :=
  { k with engines := k.engines.map fun e => if e.line == line then { e with old := e.old.orElse fun _ => some old } else e }

/-- A read of `n` global bytes passes through the home ports; a line that an atomic engine holds is read there (10 R324). -/
def State.portRead (s : State) (g n : Nat) (cached : Bool) : State :=
  if bcHome g then
    { s with hub := (lines64 g n).foldl (fun k l => if k.engineHolds l then k else k.bcTouch l cached none) s.hub }
  else s

/-- Whether any entry of the object table in force marks the extent of a global address, or a replica of it, cacheable. -/
def Hub.cachedAt (k : Hub) (g : Nat) : Bool :=
  ((k.otCells.map fun c => (c.1 - k.otBase) / 16).eraseDups).any fun i =>
    (k.object i).any fun e => oPresent e && oCached e &&
      (decide (oBase e ≤ g ∧ g < oBase e + oLen e) ||
       (oReplicated e && (oBoards e).testBit (homeBoard g) &&
        decide (oBase e ≤ replicaOn g (homeBoard (oBase e)) ∧ replicaOn g (homeBoard (oBase e)) < oBase e + oLen e)))

/-- A read of global bytes through no object at hand passes through the home ports (01 R20). -/
def State.portFetch (s : State) (g n : Nat) : State := if bcHome g then s.portRead g n (s.hub.cachedAt g) else s

/-- A write of pieces passes through the home ports: each line turns dirty, keeping what its stack holds, in the atomic engine that holds
it or in its board cache. -/
def State.portWrite (s : State) (ps : List Part) : State :=
  { s with hub := ps.foldl (fun k p =>
      if bcHome p.addr then
        (lines64 p.addr p.bytes.length).foldl (fun k l =>
          if k.engineHolds l then k.engineDirty l (s.mem.bytes l 64)
          else k.bcTouch l (k.cachedAt l) (some (s.mem.bytes l 64))) k
      else k) s.hub }

/-- The byte of an address in a store's lines that its home holds instead, when the line is there and differs. -/
def oldByte (l : List BcLine) (g : Nat) : Option Byte :=
  ((l.find? (·.line == g / 64 * 64)).bind (·.old)).map fun b => b[g % 64]?.getD 0

/-- The byte that the stacks hold: that of before a line turned dirty in the board cache (08 R234) or, when it is clean there, in an
atomic engine (10 R324). -/
def State.stackByte (s : State) (g : Nat) : Byte :=
  (oldByte s.hub.bcache g).getD ((oldByte s.hub.engines g).getD (s.mem.byte g))

/-- Write a line back to its stack, and drop it when `inv`, a clean one too (08 R263; DEDUCED, log 50). -/
def Hub.bcFlush (k : Hub) (line : Nat) (inv : Bool) : Hub :=
  { k with bcache :=
      if inv then k.bcache.filter (·.line != line)
      else k.bcache.map fun e => if e.line == line then { e with old := none } else e }

end Sys2Proof.Machine
end

