-- ==== Sys2Proof/Machine/Ops.lean ====
section
/-! DEFINITION. Named operations over the state: registers, bytes as a bead sees them, outstanding operations, error records, taking a trap and returning from one. -/

namespace Sys2Proof.Machine

/-- What `exec` and `step` answer. -/
abbrev Ans := Host.Outcome State Fault Refusal

/-! ## Registers (02 R45) -/

/-- x(r); x0 reads 0. -/
def Ctx.rx (c : Ctx) (r : BitVec 5) : DWord := if r = 0 then 0 else c.x.get r.toFin
/-- k(r); k0 reads 1. -/
def Ctx.rk (c : Ctx) (r : BitVec 3) : Bool := if r = 0 then true else c.k.get r.toFin
/-- vm(r); vm0 reads all ones. -/
def Ctx.rvm (c : Ctx) (r : BitVec 3) : BitVec 128 := if r = 0 then BitVec.allOnes 128 else c.vm.get r.toFin
def Ctx.ra (c : Ctx) (r : BitVec 4) : DWord := c.a.get r.toFin
def Ctx.rh (c : Ctx) (r : BitVec 4) : QWord := c.h.get r.toFin
def Ctx.rm (c : Ctx) (r : BitVec 3) : QWord := c.m.get r.toFin
def Ctx.rpv (c : Ctx) (r : BitVec 2) : BitVec 1024 := c.pv.get r.toFin
def Ctx.rg (c : Ctx) (r : BitVec 2) : DWord := c.g.get r.toFin
/-- v(r) for a register number below 48. -/
def Ctx.rv (c : Ctx) (r : Nat) : VWord := if h : r < 48 then c.v[r] else 0

/-- Write x(r); a write to x0 is discarded. -/
def Ctx.wx (c : Ctx) (r : BitVec 5) (w : DWord) : Ctx :=
  if r = 0 then c else { c with x := c.x.set r.toNat w r.isLt }
def Ctx.wk (c : Ctx) (r : BitVec 3) (b : Bool) : Ctx :=
  if r = 0 then c else { c with k := c.k.set r.toNat b r.isLt }
def Ctx.wvm (c : Ctx) (r : BitVec 3) (w : BitVec 128) : Ctx :=
  if r = 0 then c else { c with vm := c.vm.set r.toNat w r.isLt }
def Ctx.wa (c : Ctx) (r : BitVec 4) (w : DWord) : Ctx := { c with a := c.a.set r.toNat w r.isLt }
def Ctx.wh (c : Ctx) (r : BitVec 4) (w : QWord) : Ctx := { c with h := c.h.set r.toNat w r.isLt }
def Ctx.wm (c : Ctx) (r : BitVec 3) (w : QWord) : Ctx := { c with m := c.m.set r.toNat w r.isLt }
def Ctx.wpv (c : Ctx) (r : BitVec 2) (w : BitVec 1024) : Ctx := { c with pv := c.pv.set r.toNat w r.isLt }
def Ctx.wg (c : Ctx) (r : BitVec 2) (w : DWord) : Ctx := { c with g := c.g.set r.toNat w r.isLt }
def Ctx.wv (c : Ctx) (r : Nat) (w : VWord) : Ctx := if h : r < 48 then { c with v := c.v.set r w h } else c

/-- The bits of `old` outside a mask and of `new` inside it. -/
def blendBits {n : Nat} (mask new old : BitVec n) : BitVec n := (new &&& mask) ||| (old &&& ~~~mask)

/-- Write entries `e`, `e + 1`, ... of a pattern bank (08 R261). -/
def patWrite (p : Vector (BitVec 1024) 64) (e : Nat) : List (BitVec 1024) → Vector (BitVec 1024) 64
  | [] => p
  | w :: t => patWrite (if h : e < 64 then p.set e w h else p) (e + 1) t

/-- The fields of a g register; its reserved bits read 0 and ignore writes (07 Table 7-3, 01 R11). -/
def gFields : DWord := 0x00FF07FFFFFFFFFF

/-- Make a register write. -/
def RegWrite.apply (w : RegWrite) (c : Ctx) : Ctx :=
  match w with
  | .none => c
  | .x r new => c.wx r new
  | .v r mask new => c.wv r.toNat (blendBits mask new (c.rv r.toNat))
  | .m r mask new => c.wm r (blendBits mask new (c.rm r))
  | .a r new => c.wa r new
  | .h r mask new => c.wh r (blendBits mask new (c.rh r))
  | .pv r mask new => c.wpv r (blendBits mask new (c.rpv r))
  | .g r new => c.wg r (new &&& gFields)
  | .vm r mask new => c.wvm r (blendBits mask new (c.rvm r))
  | .pat e second ws =>
    if second then { c with pat1 := patWrite c.pat1 e ws } else { c with pat0 := patWrite c.pat0 e ws }
  | .port k p => { c with port := c.port.set k.toNat p k.isLt }

/-- The register a write names. -/
def RegWrite.reg : RegWrite → Option Reg
  | .none => Option.none
  | .x r _ => some (.x r)
  | .v r _ _ => some (.v r)
  | .m r _ _ => some (.m r)
  | .a r _ => some (.a r)
  | .h r _ _ => some (.h r)
  | .pv r _ _ => some (.pv r)
  | .g r _ => some (.g r)
  | .vm r _ _ => some (.vm r)
  | .pat _ _ _ => some .pattern
  | .port _ _ => Option.none

/-- Shadows left when bundle `n` writes a register: a copy that issued before it is discarded (02 R54). -/
def overwrite (l : List Shadow) (n : Nat) (r : Reg) : List Shadow :=
  l.filter fun h => !(decide (h.seq < n) && h.write.reg == some r)

/-- The operation in execution writes a register: it takes effect at once and discards an earlier copy (02 R54). -/
def State.write (s : State) (r : Reg) (f : Ctx → Ctx) : State :=
  { s with c := f s.c, q := { s.q with shadows := overwrite s.q.shadows s.lat.seq r } }

def State.wx (s : State) (r : BitVec 5) (w : DWord) : State := s.write (.x r) (·.wx r w)
def State.wk (s : State) (r : BitVec 3) (b : Bool) : State := s.write (.k r) (·.wk r b)
def State.wa (s : State) (r : BitVec 4) (w : DWord) : State := s.write (.a r) (·.wa r w)
def State.wh (s : State) (r : BitVec 4) (w : QWord) : State := s.write (.h r) (·.wh r w)
def State.wm (s : State) (r : BitVec 3) (w : QWord) : State := s.write (.m r) (·.wm r w)
def State.wv (s : State) (r : BitVec 6) (w : VWord) : State := s.write (.v r) (·.wv r.toNat w)
def State.wvm (s : State) (r : BitVec 3) (w : BitVec 128) : State := s.write (.vm r) (·.wvm r w)

/-- A cross-slot copy enters its shadow: it lands when the destination slot reaches `k` bundles on (02 R54). -/
def State.shadow (s : State) (k : Nat) (w : RegWrite) : State :=
  { s with q := { s.q with shadows := s.q.shadows ++ [{ write := w, seq := s.lat.seq, due := s.lat.seq + k }] } }

/-- Land every copy whose destination slot has reached its bundle. -/
def Seq.landed (q : Seq) (n : Nat) : List Shadow := q.shadows.filter fun h => decide (h.due ≤ n)

def landAll (c : Ctx) (l : List Shadow) : Ctx := l.foldl (fun c h => h.write.apply c) c

/-! ## Core cycles (00 R6; 12 Table 12-13) -/

/-- Core clock in MHz under the throttle actions (12 Table 12-13). -/
def Power.clock (p : Power) : Nat := if p.actions < 12 then 700 else 700 - 50 * (min p.actions 18 - 11)

/-- Whether a core cycle begins in this period of sr.cycle: of 700 periods `f` do, evenly spread, at a clock of `f` MHz. -/
def State.ticks (s : State) : Bool := (s.now + 1) * s.hub.power.clock / 700 != s.now * s.hub.power.clock / 700

/-- Matrix row slots used of every eight (12 Table 12-13). -/
def Power.duty (p : Power) : Nat := 8 - min (p.actions - 1) 4

/-- Periods of sr.cycle that `n` core cycles take at most. -/
def State.periods (s : State) (n : Nat) : Nat := (n * 700 + s.hub.power.clock - 1) / s.hub.power.clock

/-- The period of sr.cycle in which the `n`-th core cycle after the present one begins. -/
def State.coreAfter (s : State) (n : Nat) : Nat :=
  let f := s.hub.power.clock
  if f = 700 ∨ n = 0 then s.now + n else (((s.now + 1) * f / 700 + n) * 700 + f - 1) / f - 1

/-- Count a cycle in a stall counter, once however often its cause applies in it (12 R392, Table 12-11). -/
def State.countStall (s : State) (i : Nat) : State :=
  if s.core.counted.contains i then s else
  { s with core := { s.core with
      stalls := if h : i < 16 then s.core.stalls.set i (s.core.stalls[i] + 1) h else s.core.stalls
      counted := i :: s.core.counted } }

def State.countStalledBy (s : State) (causes : List Nat) : State := causes.foldl State.countStall s

/-! ## Monitor units (12 R390-R393) -/

/-- The run bit of a unit. -/
def Mon.running (m : Mon) : Bool := m.ctl.getLsbD 5

/-- A unit starts: it samples src, shift and base. -/
def Mon.start (m : Mon) : Mon := { m with ctl := m.ctl ||| 32, live := m.ctl }

def Mon.stop (m : Mon) : Mon := { m with ctl := m.ctl &&& ~~~32 }

/-- min, max, n and the bins at their reset values. -/
def Mon.clear (m : Mon) : Mon := { ctl := m.ctl, live := m.live }

/-- Add 1 to a count that holds at its maximum. -/
def holdInc {n : Nat} (w : BitVec n) : BitVec n := if w = BitVec.allOnes n then w else w + 1

/-- The bin of a sample: min(15, max(0, i)). -/
def binOf (i : Int) : Nat := if i < 0 then 0 else if 15 < i then 15 else i.toNat

/-- One sample (R390). -/
def Mon.sample (m : Mon) (v : Int) : Mon :=
  let base := (fbv 32 16 m.live.toNat).toInt
  let i := binOf ((v - base) / 2 ^ fld m.live.toNat 8 4 + 1)
  { m with
    min := if v < m.min.toInt then BitVec.ofInt 64 v else m.min
    max := if m.max.toInt < v then BitVec.ofInt 64 v else m.max
    n := holdInc m.n
    bins := if h : i < 16 then m.bins.set i (holdInc m.bins[i]) h else m.bins }

/-- Act on the units of a mask. -/
def State.onUnits (s : State) (mask : BitVec 4) (f : Mon → Mon) : State :=
  { s with core := { s.core with mon := s.core.mon.mapIdx fun i m => if mask.getLsbD i then f m else m } }

/-- A running unit of a source takes a sample. -/
def Mon.take (m : Mon) (src : Nat) (v : Int) : Mon := if m.running && fld m.live.toNat 0 5 == src then m.sample v else m

def State.sampleAll (s : State) (src : Nat) (v : Int) : State :=
  { s with core := { s.core with mon := s.core.mon.map (·.take src v) } }

/-! ## Results of an operation -/

/-- The operation must wait; the stream stalls. -/
def State.stall (s : State) : State := { s with lat := { s.lat with res := .stall } }

/-- The operation must wait under the watchdog of sr.parkmax, since now if it was not waiting (02 R52). -/
def State.stallWatched (s : State) : State :=
  { s with
    lat := { s.lat with res := .stall }
    q := { s.q with wait := match s.q.wait with
      | .watch t => .watch t
      | _ => .watch s.now } }

/-- No bundle of the stream issues for a number of core cycles from now; no stall counter of Table 12-11 counts them (log 6). -/
def State.hold (s : State) (n : Nat) : State := { s with q := { s.q with issueFrom := s.coreAfter n, issueWhy := 16 } }

/-- Slot V or M parks (02 R48). -/
def State.park (s : State) : State := { s with lat := { s.lat with res := .park } }

/-- The wait of the operation in execution is over. -/
def State.unwatch (s : State) : State := { s with q := { s.q with wait := .none } }

/-! ## Outstanding operations -/

/-- Operations of the active bank that count in a counter (10 R319). -/
def State.count (s : State) (k : Ctr) : Nat :=
  (s.outs.filter fun o => o.bank == s.core.bank && o.ctr == k).length

/-- Put an operation in hand. -/
def State.launch (s : State) (path : Path) (ctr : Ctr) (due : Nat) (promise : Option Nat) (w : Work) : State :=
  { s with
    outs := s.outs ++ [{ id := s.nextId, bank := s.core.bank, seq := s.lat.seq, path := path, ctr := ctr,
                         issued := s.now, due := due, promise := promise, work := w }]
    nextId := s.nextId + 1 }

/-- Change the operation last put in hand. -/
def State.onLast (s : State) (f : Out → Out) : State := { s with outs := s.outs.map fun o => if o.id + 1 == s.nextId then f o else o }

/-- An operation in hand, by its number. -/
def State.out? (s : State) (id : Nat) : Option Out := s.outs.find? (·.id == id)

/-- Take an operation out of hand. -/
def State.drop (s : State) (id : Nat) : State := { s with outs := s.outs.filter (·.id != id) }

/-- Replace what an operation in hand does, and its due cycle. -/
def State.again (s : State) (id due : Nat) (w : Work) : State :=
  { s with outs := s.outs.map fun o => if o.id == id then { o with due := due, work := w } else o }

/-- The byte a piece gives an address. -/
def Part.at? (p : Part) (a : Nat) : Option Byte :=
  if p.addr ≤ a then p.bytes[a - p.addr]? else none

/-- The byte that a transfer has written to an address, not yet final. -/
def Burst.byteAt? (b : Burst) (a : Nat) : Option Byte :=
  match b.stage with
  | .landing ps _ _ _ _ _ => ps.reverse.findSome? (·.at? a)
  | _ => none

/-- The byte that a write in hand gives an address; later pieces come later. -/
def Out.byteAt? (o : Out) (a : Nat) : Option Byte :=
  match o.work with
  | .write ps _ _ _ => ps.reverse.findSome? (·.at? a)
  | .gstore ps _ => ps.reverse.findSome? (·.at? a)
  | .copy _ _ _ _ b => b.byteAt? a
  | .refill _ _ _ _ _ b => b.byteAt? a
  | .shift _ _ _ _ b => b.byteAt? a
  | _ => none

/-- The last write in hand to an address on any path, final or not, else memory's byte: what an outlier list is read through, whose
appends the engines make one after another (03 R89). -/
def State.seen (s : State) (a : Nat) : Byte :=
  ((s.outs.filter fun o => (o.byteAt? a).isSome).getLast?.bind (·.byteAt? a)).getD (s.mem.byte a)

/-- Bytes held in a hold buffer for an address (11 R358). -/
def heldAt? (l : List Held) (a : Nat) : Option Byte :=
  l.findSome? fun e => if e.addr ≤ a then (e.bytes[a - e.addr]?).join else none

/-- The byte that the active bead reads on a path: that of its own last write on the path, final or not (10 R307), else
memory's. -/
def State.byte (s : State) (path : Path) (a : Nat) : Byte :=
  match s.outs.reverse.findSome? (fun o => if o.bank == s.core.bank && o.path == path then o.byteAt? a else none) with
  | some b => b
  | none => s.mem.byte a

/-- The byte that an operation in hand reads: that of an earlier write of its bead on its path, final or not, else memory's. -/
def State.byteFor (s : State) (o : Out) (a : Nat) : Byte :=
  match s.outs.reverse.findSome? (fun x => if x.bank == o.bank && x.path == o.path && decide (x.id < o.id) then x.byteAt? a else none) with
  | some b => b
  | none => s.mem.byte a

/-- Consecutive bytes as the active bead reads them on a path. -/
def State.bytes (s : State) (path : Path) (a : Nat) : Nat → List Byte
  | 0 => []
  | n + 1 => s.byte path a :: s.bytes path (a + 1) n

/-- Whether an own write in hand on the path covers an address. -/
def State.own (s : State) (path : Path) (a : Nat) : Bool :=
  (s.outs.findSome? (fun o => if o.bank == s.core.bank && o.path == path then o.byteAt? a else none)).isSome

/-- ECC over the granules of a read (08 R235): the state after it and the bad granules; a granule that the bead has just
written whole is good. -/
def State.eccRead (s : State) (path : Path) (a n : Nat) : State × List Nat :=
  let gs := (granules a n).filter fun g => !(List.range (granuleSize g)).all fun i => s.own path (g + i)
  let r := s.mem.checks s.fresh gs
  ({ s with mem := r.1, fresh := s.fresh + 1 }, r.2)

/-! ## The bead, its core and its clasp -/

def Ctx.strand (c : Ctx) : BitVec 16 := fbv 16 0 c.bead.toNat
def Ctx.claspNo (c : Ctx) : BitVec 20 := fbv 20 16 c.bead.toNat
def Ctx.prio (c : Ctx) : Nat := fld c.bead.toNat 36 3
def Ctx.pinned (c : Ctx) : Bool := c.bead.getLsbD 42
def Ctx.scache (c : Ctx) : Bool := c.bead.getLsbD 44
def Ctx.rank (c : Ctx) : Nat := fld c.bead.toNat 45 10

/-- Replace the `n` bits of a register from bit `lo`. -/
def putField {m : Nat} (w : BitVec m) (lo n v : Nat) : BitVec m :=
  blendBits (BitVec.ofNat m ((2 ^ n - 1) * 2 ^ lo)) (BitVec.ofNat m (v % 2 ^ n * 2 ^ lo)) w

/-- Logical number of a physical core; none when the map leaves it out (01 R33). -/
def Hub.logicalOf (h : Hub) (phys : Nat) : Option Nat := h.map.findIdx? (· == phys)

/-- Logical number of the running core; 0 when it is not in the map. -/
def State.logical (s : State) : Nat := (s.hub.logicalOf s.core.phys).getD 0

/-- Board, and file and rank less one, of a physical core (01 R18). -/
def boardOf (phys : Nat) : Nat := phys / 64
def fileOf (phys : Nat) : Nat := phys % 64 / 8
def rankOf (phys : Nat) : Nat := phys % 8

/-- Physical tower of a logical tower of this core (01 R26). -/
def Core.tower (k : Core) (t : Nat) : Nat := if h : t < 16 then (k.remap[t]).toNat else t

/-- Cell address of an offset of a logical tower of this core. -/
def State.towerAt (s : State) (t off : Nat) : Nat := towerAddr s.core.phys (s.core.tower t) off

/-- Cell address of a logical crown address through the strip map in force at the issue of the bundle (02 R70, 04 R125). -/
def State.crownAt (s : State) (la : Nat) : Nat := crownThrough s.lat.iss.cbmap s.core.phys la

/-- Die-to-die bridges between two boards: 0, 1 between east-west neighbours, otherwise 2 (09 Table 9-2). -/
def bridges (b c : Nat) : Nat :=
  if b = c then 0 else if b / 4 = c / 4 ∧ (b + 1 = c ∨ c + 1 = b) then 1 else 2

/-! ## Strand descriptors and error records -/

/-- A field of `n` bytes of a strand's descriptor in HBM (11 Table 11-2). -/
def State.strandField (s : State) (strand off n : Nat) : Nat :=
  bytesNat (s.mem.bytes (s.hub.strandTable + 32 * strand + off) n)

/-- Capacity exponent; 0 when not configured, and 21-31 count as 0 (11 Table 11-2). No strand is configured while the hub
holds no strand table. -/
def State.lcap (s : State) (strand : Nat) : Nat :=
  let l := s.strandField strand 8 1 % 32
  if l ≤ 20 ∧ s.hub.strandTable ≠ 0 then l else 0

def State.strandHead (s : State) (strand : Nat) : Nat := s.strandField strand 16 4
def State.strandTail (s : State) (strand : Nat) : Nat := s.strandField strand 20 4
def State.strandRetired (s : State) (strand : Nat) : Nat := s.strandField strand 24 6

/-- Store bytes at their home at once, through the home port (01 R20). -/
def State.poke (s : State) (a : Nat) (bs : List Byte) : State :=
  let s := s.portWrite [{ addr := a, bytes := bs }]
  { s with mem := (s.mem.put s.fresh false { addr := a, bytes := bs }).1 }

def State.setHead (s : State) (strand v : Nat) : State := s.poke (s.hub.strandTable + 32 * strand + 16) (natBytes 4 v)
def State.setTail (s : State) (strand v : Nat) : State := s.poke (s.hub.strandTable + 32 * strand + 20) (natBytes 4 v)
def State.setRetired (s : State) (strand v : Nat) : State := s.poke (s.hub.strandTable + 32 * strand + 24) (natBytes 6 v)

/-- Cell address of queue entry `i` of a strand (11 R338). -/
def State.entryAt (s : State) (strand i : Nat) : Nat :=
  s.strandField strand 0 8 + 64 * (i % 2 ^ s.lcap strand)

/-- Append 64 bytes to a strand's queue. -/
def State.enqueue (s : State) (strand : Nat) (bs : List Byte) : State :=
  let tail := s.strandTail strand
  (s.poke (s.entryAt strand tail) bs).setTail strand ((tail + 1) % 2 ^ 32)

/-- Post an error record to the host's error strand and raise MSI-X vector 1; a full queue drops it (12 R389). -/
def State.post (s : State) (type code core : Nat) (bead addr info : DWord) : State :=
  match s.hub.errorStrand with
  | none => { s with hub := { s.hub with errorDrops := s.hub.errorDrops + 1 } }
  | some e =>
    let n := e.toNat
    let tail := s.strandTail n
    if s.lcap n = 0 ∨ 2 ^ s.lcap n ≤ (tail + 2 ^ 32 - s.strandHead n) % 2 ^ 32 then
      { s with hub := { s.hub with errorDrops := s.hub.errorDrops + 1 } }
    else
      let rec64 := natBytes 1 type ++ natBytes 1 code ++ natBytes 2 core ++ natBytes 4 0 ++ natBytes 8 bead.toNat ++
        natBytes 8 addr.toNat ++ natBytes 8 info.toNat ++ natBytes 8 s.now ++ natBytes 24 0
      let s := s.enqueue n rec64
      { s with hub := { s.hub with msix := s.hub.msix ++ [1] } }

/-- A record about the running bead leaves the core when the strike hold ends (R384). -/
def State.noticeOwn (s : State) (type code : Nat) (addr info : DWord) : State :=
  s.launch .x .none (s.now + Config.strikeHold) none (.notice type code s.c.bead addr info)

/-- Post a record about the running bead. -/
def State.postOwn (s : State) (type code : Nat) (addr info : DWord) : State :=
  s.post type code s.core.phys s.c.bead addr info

/-! ## Writes becoming final -/

/-- The remap table of a physical core; that of a core never heard of is the identity. -/
def State.remapOf (s : State) (phys : Nat) : List Nat :=
  if phys = s.core.phys then s.core.remap.toList.map (·.toNat)
  else match s.hub.others.find? (·.phys == phys) with
    | some o => o.remap.toList.map (·.toNat)
    | none => List.range 16

/-- The word of Table 8-11 for a dropped granule; crown addresses are logical through the map of the write, tower
addresses carry the logical tower (08 R235). -/
def State.dropWord (s : State) (cbmap : DWord) (g : Nat) : DWord :=
  let crown := g % 2 ^ 23
  let ls := ((List.range 16).find? fun i => stripOf cbmap i == crown / 2 ^ 19).getD 0
  let tower := (g - 2 ^ 65) / 2 ^ 23
  let lt := ((s.remapOf (tower / 17)).findIdx? (· == tower % 17)).getD 0
  if isCrown g then BitVec.ofNat 64 (1 + 4 + (ls * 2 ^ 19 + crown % 2 ^ 19) / 8 * 8)
  else if isTower g then BitVec.ofNat 64 (2 + 4 + (lt * 2 ^ 23 + g % 2 ^ 23) / 8 * 8)
  else BitVec.ofNat 64 (3 + 4 + g / 8 * 8)

/-- Partial writes dropped over uncorrectable granules: sr.einfo of the issuing bead when it is active at bead level,
and an error record of type 3 (08 R235). -/
def State.reportDrops (s : State) (bank : Bool) (cbmap : DWord) : List Nat → State
  | [] => s
  | g :: t =>
    let w := s.dropWord cbmap g
    let told (u : Undo) : Undo := if u.bank == bank && !u.c.sys then { u with c := { u.c with einfo := w } } else u
    let s := if bank = s.core.bank then (if s.c.sys then s else { s with c := { s.c with einfo := w }, undo := s.undo.map told })
      else if s.oq.state = .empty ∨ s.oc.sys then s else { s with oc := { s.oc with einfo := w }, undo := s.undo.map told }
    let bead := if bank = s.core.bank then s.c.bead else s.oc.bead
    (s.post 3 0 s.core.phys bead (w &&& ~~~7) w).reportDrops bank cbmap t

/-- Write pieces into memory for a bead of a bank, with the reports of R235. -/
def State.commit (s : State) (bank : Bool) (cbmap : DWord) (tag : Bool) (ps : List Part) : State :=
  let r := s.mem.puts s.fresh tag ps
  ({ s with mem := r.1, fresh := s.fresh + 1 }).reportDrops bank cbmap r.2

/-! ## Replay windows (02 R57) -/

/-- A bundle counts as complete when every slot is done and no further iteration is left. -/
def Flight.complete (f : Flight) : Bool := f.done == 15 && decide (f.rep ≤ 1)

/-- Bundles from the oldest with an incomplete slot on. -/
def Seq.flights (q : Seq) : List Flight := (q.win ++ q.cur.toList).dropWhile (·.complete)

/-- The done bits of a window, bundle j in bits [4j+3:4j]. -/
def doneBits : List (BitVec 4) → Nat
  | [] => 0
  | d :: t => d.toNat + 16 * doneBits t

/-- sr.epc, sr.slip, sr.enpc and sr.repc for the bundles in flight and the replay still to issue (02 R57, R44). -/
def window (c : Ctx) (q : Seq) : DWord × DWord × DWord × DWord :=
  let rest := q.replay.map (·.2)
  let slip (ds : List (BitVec 4)) : DWord := BitVec.ofNat 64 (doneBits ds % 2 ^ 36 + min ds.length 9 * 2 ^ 36)
  match q.flights with
  | f :: fs => (f.addr, slip ((f :: fs).map (·.done) ++ rest), c.pc, BitVec.ofNat 64 f.rep)
  | [] => match q.repCur with
    | some (a, n) => (a, if rest.isEmpty then 0 else slip (0 :: rest), c.pc, BitVec.ofNat 64 n)
    | none => match q.replay with
      | r :: _ => (r.1, slip rest, c.pc, BitVec.ofNat 64 q.repLeft)
      | [] => (c.pc, 0, c.pc, BitVec.ofNat 64 q.repLeft)

/-- Nothing of the bead is in flight: the bundle register, the queues and the replay are empty. -/
def Seq.clear (q : Seq) : Seq :=
  { q with win := [], cur := none, ops := [], vq := [], mq := [], vSince := none, mSince := none, replay := [],
           repLeft := 0, repCur := none, rteCheck := false, shadows := [], wait := .none, sending := none, answered := none, eligible := false,
           taken := false, looped := none }

/-! ## Taking a trap (12 R372) -/

/-- sr.cause (12 Table 12-1). -/
def causeWord (t : TrapRec) (sys : Bool) : DWord :=
  BitVec.ofNat 64 (t.code.toNat + (if sys then 2 ^ 8 else 0) + (if t.iss then 2 ^ 9 else 0) + t.slot.toNat * 2 ^ 10 +
    (if t.evt then 2 ^ 12 else 0))

/-- The registers that trap entry writes: the replay window, sr.cause with the old level, sr.einfo, system level and
the handler's address sr.tbase + 64 x code; copies in their shadow complete first (R55) and the operand latches are
cleared (R133). -/
def Ctx.trapTo (c : Ctx) (w : DWord × DWord × DWord × DWord) (t : TrapRec) (l : List Shadow) : Ctx :=
  let c := landAll c l
  { c with
    epc := w.1, slip := w.2.1, enpc := w.2.2.1, repc := w.2.2.2
    cause := causeWord t c.sys
    einfo := t.info
    latch := Vector.replicate 3 none
    sys := true
    pc := c.tbase + BitVec.ofNat 64 (64 * t.code.toNat) }

/-- Requests of `bob.wait` that an interruption abandons (10 R331). -/
def dropBobWait (l : List Out) (w : Waiting) : List Out :=
  match w with
  | .bob id => l.filter (·.id != id)
  | _ => l

/-- Enter the handler of a trap, whose first bundle issues 10 cycles later (12 R372). Both B planes become invalid (06
R185). -/
def State.enterTrap (s : State) (t : TrapRec) : State :=
  { s with
    c := s.c.trapTo (window s.c s.q) t s.q.shadows
    q := { s.q.clear with trap := none, atVector := true, olfHeld := s.q.olfTrap.isSome || !s.q.more.isEmpty,
                          issueFrom := s.coreAfter 10, issueWhy := 16 }
    outs := dropBobWait s.outs s.q.wait
    core := { s.core with planes := [], planesLost := s.now } }

/-- An issue check failed: no slot of the bundle has any effect, and the window is that bundle in full (02 R56). -/
def State.enterIssueTrap (s : State) (addr : DWord) (t : TrapRec) (repc : DWord) : State :=
  { s with
    c := { s.c with pc := addr }.trapTo (addr, 0, addr, repc) t s.q.shadows
    q := { s.q.clear with trap := none, atVector := true, olfHeld := s.q.olfTrap.isSome || !s.q.more.isEmpty,
                          issueFrom := s.coreAfter 10, issueWhy := 16 }
    outs := dropBobWait s.outs s.q.wait
    core := { s.core with planes := [], planesLost := s.now } }

/-! ## Context banks (11 R348, R349; 08 R232) -/

/-- The core switches to its other context bank: both B planes become invalid and the operand latches are cleared (05
R133, 06 R185). The incoming bead issues 8 cycles later, or when its own holds end (08 R232). -/
def State.switchBank (s : State) : State :=
  { s with
    c := { s.oc with latch := Vector.replicate 3 none }
    q := { s.oq with issueFrom := max s.oq.issueFrom (s.coreAfter 8), issueWhy := 16 }
    oc := { s.c with latch := Vector.replicate 3 none }
    oq := s.q
    core := { s.core with bank := !s.core.bank, planes := [], planesLost := s.now } }

/-- The started tile operations of the active bank stop at their boundaries: its bead leaves the core (06 R185). -/
def State.haltTiles (s : State) : State :=
  { s with outs := s.outs.map fun o =>
    match o.work with
    | .tile op t =>
      if o.bank == s.core.bank && t.started.isSome && t.halt.isNone then { o with work := .tile op { t with halt := some s.now } } else o
    | _ => o }

/-- An access found an absent page or object (08 R232): the window and the cause are recorded as trap entry does, the
core switches banks, and a fault record is posted. -/
def State.translationFault (s : State) (t : TrapRec) (g : DWord) : State :=
  let w := window s.c s.q
  let c := landAll s.c s.q.shadows
  let s := { s.haltTiles with
    c := { c with epc := w.1, slip := w.2.1, enpc := w.2.2.1, repc := w.2.2.2, cause := causeWord t c.sys, einfo := t.info }
    q := { s.q.clear with trap := none, state := .translation, eligible := false }
    outs := dropBobWait s.haltTiles.outs s.q.wait }
  (s.postOwn 4 0x09 g t.info).switchBank

/-- Take a trap that is due. -/
def State.takeTrap (s : State) (t : TrapRec) : State :=
  match t.absent with
  | some g => s.translationFault t g
  | none => s.enterTrap t

/-- Of two traps the one of the older bundle is reported, and of one bundle that of the earlier slot (02 R57); one that
waits for nothing stays. -/
def mergeTrap (old : Option TrapRec) (t : TrapRec) : Option TrapRec :=
  match old with
  | some u =>
    if !u.now && decide (t.seq < u.seq ∨ (t.seq = u.seq ∧ t.slot.toNat < u.slot.toNat)) then some t else some u
  | none => some t

/-- A trap that an engine reports is due at the next bundle boundary. An operation that waits to be reported is left incomplete and
faults again when it is replayed (02 R57, 07 R206); a `trap`, which is complete, and a trap behind another engine's stay pending (12 R379;
log 42). -/
def Seq.pendNow (q : Seq) (t : TrapRec) : Seq :=
  if q.trap.any (·.now) then { q with more := q.more ++ [t] }
  else { q with trap := some t, more := q.more ++ (q.trap.filter (·.code == 0x19)).toList }

/-- The operation in execution faults (02 R57): it is left incomplete. The trap is taken at once when nothing else of
its own or an earlier bundle is incomplete, and otherwise when that is so. -/
def State.raiseRec (s : State) (t : TrapRec) : State :=
  let t := { t with seq := s.lat.seq }
  let s := { s with lat := { s.lat with res := .trap } }
  if s.lat.quiet ∧ s.q.trap = none then s.takeTrap t else { s with q := { s.q with trap := mergeTrap s.q.trap t } }

/-- An execution fault with a code and sr.einfo. -/
def State.raise (s : State) (code : BitVec 8) (info : DWord) : State :=
  s.raiseRec { code := code, info := info, slot := s.lat.slot, iss := false, evt := false, now := false }

/-- sr.einfo of traps 0x01 to 0x03 (12 Table 12-4). -/
def wordInfo (slot : BitVec 2) (header stride : Bool) (word : Word) : DWord :=
  BitVec.ofNat 64 (slot.toNat + (if header then 4 else 0) + (if stride then 8 else 0) + word.toNat * 2 ^ 32)

/-- A check of the operation's encoding, privilege or registers fails where the issue checks did not see it. -/
def State.raiseIssue (s : State) (code : BitVec 8) : State :=
  { s with lat := { s.lat with res := .trap } }.enterIssueTrap s.lat.addr
    { code := code, info := wordInfo s.lat.slot false false s.lat.word, slot := s.lat.slot, iss := true, evt := false,
      now := false } 0

/-- A privileged operation: trap 0x03 at bead level (12 R371). -/
def State.privileged (s : State) (f : State → State) : State := if s.c.sys then f s else s.raiseIssue 0x03

/-! ## Returning from a trap (12 R380) -/

/-- The bundles of a replay window and their done bits (02 R58). -/
def replayOf (epc slip : DWord) : List (DWord × BitVec 4) :=
  (List.range (fld slip.toNat 36 4)).map fun j =>
    (epc + BitVec.ofNat 64 (16 * j), BitVec.ofNat 4 (fld slip.toNat (4 * j) 4))

/-- Point a sequencer at a replay window: with n = 0 issue goes on at epc, otherwise the window is replayed and issue
goes on at enpc (02 R58); the REP bundle there resumes with `repc` iterations (02 R44). -/
def resumeAt (c : Ctx) (q : Seq) (epc slip enpc repc : DWord) : Ctx × Seq :=
  let n := fld slip.toNat 36 4
  ({ c with pc := if n = 0 then epc else enpc },
   { q with replay := replayOf epc slip, repLeft := fld repc.toNat 0 10, repCur := none, rteCheck := true })

/-- `rte`: the level of sr.cause.lvl, latches cleared, and the window of sr.epc, sr.slip, sr.enpc and sr.repc, from 6
cycles later. -/
def State.returnTrap (s : State) : State :=
  let r := resumeAt { s.c with sys := s.c.cause.getLsbD 8, latch := Vector.replicate 3 none } s.q s.c.epc s.c.slip s.c.enpc s.c.repc
  { s with c := r.1, q := { r.2 with olfHeld := false, issueFrom := s.coreAfter 6, issueWhy := 16 }, core := { s.core with planes := [], planesLost := s.now } }

end Sys2Proof.Machine
end

