-- ==== Sys2Proof/Machine/Names.lean ====
section
/-! DEFINITION. The registers that an instruction names, and the fields of an operation that its slot word and an EXT header give (02 R40, R45; 05 R140). -/

namespace Sys2Proof.Machine

/-- Code of the EXT third source: bits [8:3] of the V lent field (02 R40). -/
def extSource (e : Ext) : BitVec 6 := BitVec.ofNat 6 (e.v.toNat / 8)

/-- The x, v, m, a and h registers that an instruction reads or writes, and the pattern store. -/
def usesOf (i : Instr) : List Reg :=
  match i with
  | .add d a b _ => [.x d, .x a, .x b]
  | .sub d a b _ => [.x d, .x a, .x b]
  | .mul d a b _ => [.x d, .x a, .x b]
  | .mulh d a b _ => [.x d, .x a, .x b]
  | .mulhn d a b _ => [.x d, .x a, .x b]
  | .div d a b _ => [.x d, .x a, .x b]
  | .divn d a b _ => [.x d, .x a, .x b]
  | .rem d a b _ => [.x d, .x a, .x b]
  | .remn d a b _ => [.x d, .x a, .x b]
  | .and d a b _ => [.x d, .x a, .x b]
  | .or d a b _ => [.x d, .x a, .x b]
  | .xor d a b _ => [.x d, .x a, .x b]
  | .shl d a b _ => [.x d, .x a, .x b]
  | .shr d a b _ => [.x d, .x a, .x b]
  | .sar d a b _ => [.x d, .x a, .x b]
  | .min d a b _ => [.x d, .x a, .x b]
  | .max d a b _ => [.x d, .x a, .x b]
  | .minn d a b _ => [.x d, .x a, .x b]
  | .maxn d a b _ => [.x d, .x a, .x b]
  | .clz d a _ => [.x d, .x a]
  | .popc d a _ => [.x d, .x a]
  | .sext d a _ _ => [.x d, .x a]
  | .zext d a _ _ => [.x d, .x a]
  | .addi d a _ => [.x d, .x a]
  | .andi d a _ => [.x d, .x a]
  | .ori d a _ => [.x d, .x a]
  | .xori d a _ => [.x d, .x a]
  | .shli d a _ => [.x d, .x a]
  | .shri d a _ => [.x d, .x a]
  | .sari d a _ => [.x d, .x a]
  | .li d _ => [.x d]
  | .lih d _ _ => [.x d]
  | .cmp _ a b _ _ => [.x a, .x b]
  | .cmpi _ _ a _ => [.x a]
  | .sel d a b _ _ => [.x d, .x a, .x b]
  | .faddD d a b _ _ => [.x d, .x a, .x b]
  | .fsubD d a b _ _ => [.x d, .x a, .x b]
  | .fmulD d a b _ _ => [.x d, .x a, .x b]
  | .fdivD d a b _ _ => [.x d, .x a, .x b]
  | .fminD d a b _ => [.x d, .x a, .x b]
  | .fmaxD d a b _ => [.x d, .x a, .x b]
  | .fsqrtD d a _ _ => [.x d, .x a]
  | .ffmaD d a b _ c _ => [.x d, .x a, .x b, .x c]
  | .fcmpD _ a b _ _ => [.x a, .x b]
  | .fcvtDI d a _ _ => [.x d, .x a]
  | .fcvtDN d a _ _ => [.x d, .x a]
  | .fcvtID d a _ _ => [.x d, .x a]
  | .fcvtND d a _ _ => [.x d, .x a]
  | .fcvtDS d a _ => [.x d, .x a]
  | .fcvtSD d a _ _ => [.x d, .x a]
  | .jr d a _ => [.x d, .x a]
  | .call _ => [.x 31]
  | .ret _ => [.x 31]
  | .loop a _ => [.x a]
  | .xcV d v _ => [.x d, .v v]
  | .xcA d a => [.x d, .a a]
  | .xcM d k r _ => [.x d, if k = 0 then .m r else .pv (r.setWidth 2)]
  | .xcG d _ => [.x d]
  | .xcH d h _ => [.x d, .h h]
  | .srd d _ => [.x d]
  | .swr a _ => [.x a]
  | .spawn d a b c => [.x d, .x a, .x b, .x c, .x (c + 1), .x (c + 2), .x (c + 3), .x (c + 4)]
  | .suspend a _ => [.x a, .x 1, .x 2, .x 3, .x 4]
  | .join d a b => [.x d, .x a, .x b, .x 1, .x 2, .x 3, .x 4]
  | .cbar d => [.x d]
  | .seg a b _ => [.h a, .h b]
  | .scan d e => [.x d, .x e]
  | .cmap d a b => [.x d, .x a, .x b]
  | .diagInjFlip a b => [.x a, .x b]
  | .diagInjCerr a b => [.x a, .x b]
  | .diagInjPoison a b => [.x a, .x b]
  | .diagInjTpoison a b => [.x a, .x b]
  | .diagInjStrike a b => [.x a, .x b]
  | .vadd d a b _ _ _ => [.v d, .v a, .v b]
  | .vsub d a b _ _ _ => [.v d, .v a, .v b]
  | .vmul d a b _ _ _ => [.v d, .v a, .v b]
  | .vfma d a b _ _ _ => [.v d, .v a, .v b]
  | .vfms d a b _ _ _ => [.v d, .v a, .v b]
  | .vfnma d a b _ _ _ => [.v d, .v a, .v b]
  | .vdiv d a b _ _ _ => [.v d, .v a, .v b]
  | .vsqrt d a _ _ _ => [.v d, .v a]
  | .vrcp d a _ _ _ => [.v d, .v a]
  | .vrsq d a _ _ _ => [.v d, .v a]
  | .vmin d a b _ _ => [.v d, .v a, .v b]
  | .vmax d a b _ _ => [.v d, .v a, .v b]
  | .vabs d a _ _ => [.v d, .v a]
  | .vneg d a _ _ => [.v d, .v a]
  | .vcmp _ a b _ _ _ => [.v a, .v b]
  | .vsel d a b _ _ => [.v d, .v a, .v b]
  | .vclass d a _ _ => [.v d, .v a]
  | .vaddH d a b _ _ _ => [.v d, .v a, .v b]
  | .vsubH d a b _ _ _ => [.v d, .v a, .v b]
  | .vmulH d a b _ _ _ => [.v d, .v a, .v b]
  | .vfmaH d a b _ _ _ => [.v d, .v a, .v b]
  | .vfmsH d a b _ _ _ => [.v d, .v a, .v b]
  | .vfnmaH d a b _ _ _ => [.v d, .v a, .v b]
  | .vminH d a b _ _ => [.v d, .v a, .v b]
  | .vmaxH d a b _ _ => [.v d, .v a, .v b]
  | .vabsH d a _ _ => [.v d, .v a]
  | .vnegH d a _ _ => [.v d, .v a]
  | .vcmpH _ _ a b _ _ _ => [.v a, .v b]
  | .vselH d a b _ _ => [.v d, .v a, .v b]
  | .vaddB d a b _ _ _ => [.v d, .v a, .v b]
  | .vsubB d a b _ _ _ => [.v d, .v a, .v b]
  | .vmulB d a b _ _ _ => [.v d, .v a, .v b]
  | .vfmaB d a b _ _ _ => [.v d, .v a, .v b]
  | .vfmsB d a b _ _ _ => [.v d, .v a, .v b]
  | .vfnmaB d a b _ _ _ => [.v d, .v a, .v b]
  | .vminB d a b _ _ => [.v d, .v a, .v b]
  | .vmaxB d a b _ _ => [.v d, .v a, .v b]
  | .vabsB d a _ _ => [.v d, .v a]
  | .vnegB d a _ _ => [.v d, .v a]
  | .vcmpB _ _ a b _ _ _ => [.v a, .v b]
  | .vselB d a b _ _ => [.v d, .v a, .v b]
  | .vaddx d a b _ _ _ => [.v d, .v a, .v b, .v (d + 1)]
  | .vsubx d a b _ _ _ => [.v d, .v a, .v b, .v (d + 1)]
  | .vmulx d a b _ _ _ => [.v d, .v a, .v b, .v (d + 1)]
  | .dwadd d a b _ _ _ => [.v d, .v a, .v b, .v (d + 1), .v (a + 1), .v (b + 1)]
  | .dwsub d a b _ _ _ => [.v d, .v a, .v b, .v (d + 1), .v (a + 1), .v (b + 1)]
  | .dwmul d a b _ _ _ => [.v d, .v a, .v b, .v (d + 1), .v (a + 1), .v (b + 1)]
  | .dwdiv d a b _ _ _ => [.v d, .v a, .v b, .v (d + 1), .v (a + 1), .v (b + 1)]
  | .dwnorm d a _ _ _ => [.v d, .v a, .v (d + 1), .v (a + 1)]
  | .vsum d a _ _ _ => [.v d, .v a]
  | .vsumx d a _ _ _ => [.v d, .v a, .v (d + 1)]
  | .vmaxr d a _ _ => [.v d, .v a]
  | .vminr d a _ _ => [.v d, .v a]
  | .viadd d a b _ _ _ => [.v d, .v a, .v b]
  | .visub d a b _ _ _ => [.v d, .v a, .v b]
  | .vimul d a b _ _ _ => [.v d, .v a, .v b]
  | .vimad d a b _ _ _ => [.v d, .v a, .v b]
  | .vand d a b _ _ => [.v d, .v a, .v b]
  | .vor d a b _ _ => [.v d, .v a, .v b]
  | .vxor d a b _ _ => [.v d, .v a, .v b]
  | .vnot d a _ _ => [.v d, .v a]
  | .vshl d a b _ _ f => [.v d, .v a] ++ if f = 0 then [.v b] else []
  | .vshr d a b _ _ f => [.v d, .v a] ++ if f = 0 then [.v b] else []
  | .vsar d a b _ _ f => [.v d, .v a] ++ if f = 0 then [.v b] else []
  | .vicmp _ a b _ _ _ => [.v a, .v b]
  | .vcvtPack d a _ _ _ _ => [.v d, .v a]
  | .vcvtUnpack d a _ _ _ _ => [.v d, .v a]
  | .vscl d a b _ _ _ => [.v d, .v a, .v b]
  | .vexp2 d a _ _ _ => [.v d, .v a]
  | .vlog2 d a _ _ _ => [.v d, .v a]
  | .vtanh d a _ _ _ => [.v d, .v a]
  | .vperm d a b _ => [.v d, .v a, .v b]
  | .vpsw => [.pattern]
  | .vrot d a _ _ _ _ => [.v d, .v a]
  | .vbcl d a _ _ _ _ => [.v d, .v a]
  | .xcX d x _ _ => [.v d, .x x]
  | .xcXl d x _ => [.v d, .x x]
  | .mdset m _ _ => [.m m]
  | .mdld m _ => [.m m]
  | .mdst m _ => [.m m]
  | .mbld b => [.m b]
  | .mzero c => [.m c]
  | .moutm c a b _ _ => [.m c, .m a, .m b]
  | .mma c a b _ _ => [.m c, .m a, .m b]
  | .mmaCk c a b _ _ => [.m c, .m a, .m b]
  | .mlu t _ _ _ => [.m t]
  | .mchol t _ _ => [.m t]
  | .mqr t _ _ => [.m t]
  | .mtrsm b t _ _ _ _ _ _ => [.m b, .m t]
  | .mperm t _ _ _ _ _ => [.m t]
  | .xcXMatrix r x _ _ => [.m r, .x x]
  | .adda d a b => [.a d, .a a, .a b]
  | .addaImmediate d a _ => [.a d, .a a]
  | .suba d a b => [.a d, .a a, .a b]
  | .subaImmediate d a _ => [.a d, .a a]
  | .shla d a b => [.a d, .a a, .a b]
  | .shlaImmediate d a _ => [.a d, .a a]
  | .lia d _ => [.a d]
  | .hder d s o l _ => [.h d, .h s, .a o, .a l]
  | .hnul d => [.h d]
  | .hld h b a _ => [.h h, .h b, .a a]
  | .hst h b a _ => [.h h, .h b, .a a]
  | .scinvRange h o l => [.h h, .a o, .a l]
  | .bcfl h o l _ => [.h h, .a o, .a l]
  | .ld x h a _ _ => [.x x, .h h, .a a]
  | .ldn x h a _ _ => [.x x, .h h, .a a]
  | .st x h a _ _ => [.x x, .h h, .a a]
  | .vld v h a _ _ => [.v v, .h h, .a a]
  | .vst v h a _ _ => [.v v, .h h, .a a]
  | .vlds v h a s _ => [.v v, .h h, .a a, .a s]
  | .vsts v h a s _ => [.v v, .h h, .a a, .a s]
  | .vgth v h a j k _ => [.v v, .h h, .a a, .h j, .a k]
  | .vsct v h a j k _ => [.v v, .h h, .a a, .h j, .a k]
  | .cld x h a _ _ => [.x x, .h h, .a a]
  | .cldVector v h a _ _ => [.v v, .h h, .a a]
  | .cst x h a _ _ => [.x x, .h h, .a a]
  | .cstVector v h a _ _ => [.v v, .h h, .a a]
  | .tvld v h a _ _ => [.v v, .h h, .a a]
  | .tvst v h a _ _ => [.v v, .h h, .a a]
  | .pcfg _ h a => [.h h, .a a]
  | .pld h a _ _ => [.h h, .a a]
  | .copy d h s r a _ _ _ _ => [.a d, .h h, .h s, .h r, .a a]
  | .copyq d => [.a d]
  | .copyqSt d => [.a d]
  | .wstr h o l n p => [.h h, .a o, .a l, .a n, .a p]
  | .frfl d h s w t => [.a d, .h h, .a s, .h w, .a t]
  | .shift _ _ h s d l => [.h h, .a s, .a d, .a l]
  | .reduce d h s o k => [.a d, .h h, .a s, .a o, .a k]
  | .atmAdd _ d h a s _ => [.x d, .h h, .a a, .x s]
  | .atmFadd _ d h a s _ => [.x d, .h h, .a a, .x s]
  | .atmMin _ d h a s _ => [.x d, .h h, .a a, .x s]
  | .atmMax _ d h a s _ => [.x d, .h h, .a a, .x s]
  | .atmAnd _ d h a s _ => [.x d, .h h, .a a, .x s]
  | .atmOr _ d h a s _ => [.x d, .h h, .a a, .x s]
  | .atmXor _ d h a s _ => [.x d, .h h, .a a, .x s]
  | .atmXchg _ d h a s _ => [.x d, .h h, .a a, .x s]
  | .atmCas _ d h a s _ => [.x d, .h h, .a a, .x s]
  | .atmInc _ d h a s _ => [.x d, .h h, .a a, .x s]
  | .bobInit d h a s => [.x d, .h h, .a a, .x s]
  | .bobArr d h a => [.x d, .h h, .a a]
  | .bobWait d h a s => [.x d, .h h, .a a, .x s]
  | .tsetf h o l => [.h h, .a o, .a l]
  | .tsete h o l => [.h h, .a o, .a l]
  | .sleepu a => [.a a]
  | .tdefer a => [.a a]
  | .tdead h o l => [.h h, .a o, .a l]
  | .hdead h o l => [.h h, .a o, .a l]
  | .trmw d h o l _ => [.a d, .h h, .a o, .a l]
  | .xcXAddress k r x _ => [.x x, if k = 0 then .a r else .h r]
  | .yield => [.x 1, .x 2, .x 3, .x 4]
  | _ => []

/-- Instructions with an EXT third source (05 Table 5-3). -/
def takesThird (i : Instr) : Bool :=
  match i with
  | .vfma _ _ _ _ _ _ | .vfms _ _ _ _ _ _ | .vfnma _ _ _ _ _ _ => true
  | .vfmaH _ _ _ _ _ _ | .vfmsH _ _ _ _ _ _ | .vfnmaH _ _ _ _ _ _ => true
  | .vfmaB _ _ _ _ _ _ | .vfmsB _ _ _ _ _ _ | .vfnmaB _ _ _ _ _ _ => true
  | .vimad _ _ _ _ _ _ => true
  | _ => false

/-- Destination code of an instruction that reads its destination when no EXT header gives a third source. -/
def thirdDest (i : Instr) : Option (BitVec 6) :=
  match i with
  | .vfma d _ _ _ _ _ | .vfms d _ _ _ _ _ | .vfnma d _ _ _ _ _ => some d
  | .vfmaH d _ _ _ _ _ | .vfmsH d _ _ _ _ _ | .vfnmaH d _ _ _ _ _ => some d
  | .vfmaB d _ _ _ _ _ | .vfmsB d _ _ _ _ _ | .vfnmaB d _ _ _ _ _ => some d
  | .vimad d _ _ _ _ _ => some d
  | _ => none

/-- The third source that an EXT header gives an operation that takes one (02 R40, 05 R140). -/
def Slotted.third (o : Slotted) : Option (BitVec 6) :=
  if o.slot == 1 && takesThird o.instr then o.ext.map extSource else none

/-- The handle and offset registers of the barrier object that an EXT header gives a `copy` (09 R279). -/
def Slotted.barrier (o : Slotted) : List Reg :=
  match o.instr, o.ext with
  | .copy _ _ _ _ _ _ _ _ b, some e => if b = 1 then [.h (e.t.extractLsb' 0 4), .a (e.t.extractLsb' 4 4)] else []
  | _, _ => []

/-- The x, v, m, a and h registers of an operation, those that its EXT header names among them, and the pattern store. -/
def Slotted.uses (o : Slotted) : List Reg := usesOf o.instr ++ (o.third.map Reg.v).toList ++ o.barrier

/-- The guard of an operation of slot C; k0 where its format has no guard field (04 R100). -/
def guardOf (i : Instr) : BitVec 3 :=
  match i with
  | .add _ _ _ g | .sub _ _ _ g | .mul _ _ _ g | .mulh _ _ _ g | .mulhn _ _ _ g | .div _ _ _ g | .divn _ _ _ g => g
  | .rem _ _ _ g | .remn _ _ _ g | .and _ _ _ g | .or _ _ _ g | .xor _ _ _ g | .shl _ _ _ g | .shr _ _ _ g | .sar _ _ _ g => g
  | .min _ _ _ g | .max _ _ _ g | .minn _ _ _ g | .maxn _ _ _ g | .clz _ _ g | .popc _ _ g | .sext _ _ _ g | .zext _ _ _ g => g
  | .cmp _ _ _ g _ | .sel _ _ _ g _ | .kand _ _ _ g | .kor _ _ _ g | .kxor _ _ _ g | .knot _ _ g => g
  | .faddD _ _ _ g _ | .fsubD _ _ _ g _ | .fmulD _ _ _ g _ | .fdivD _ _ _ g _ | .fminD _ _ _ g | .fmaxD _ _ _ g => g
  | .fsqrtD _ _ g _ | .ffmaD _ _ _ g _ _ | .fcmpD _ _ _ g _ => g
  | .fcvtDI _ _ g _ | .fcvtDN _ _ g _ | .fcvtID _ _ g _ | .fcvtND _ _ g _ | .fcvtDS _ _ g | .fcvtSD _ _ g _ => g
  | .jr _ _ g | .ret g => g
  | _ => 0

/-- Port number of an operand or destination code of slot V (02 R46). -/
def portOf (c : BitVec 6) : Option (BitVec 3) := if 48 ≤ c.toNat then some (c.setWidth 3) else none

/-- The ports that a slot V operation pops, peeks or pushes. -/
def Slotted.ports (o : Slotted) : List (BitVec 3) :=
  o.uses.filterMap fun r => match r with
    | .v c => portOf c
    | _ => none

end Sys2Proof.Machine
end

