-- ==== Sys2Proof/Machine/Operands.lean ====
section
/-! DEFINITION. Operand forms: guards, widths, lanes, immediates, handles and their checks, and the translation of object offsets (04 R100; 05 R129; 08 R222-R231, R242). -/

namespace Sys2Proof.Machine

/-! ## Immediates, guards, widths and lanes -/

/-- A signed immediate; under an EXT header the T lent field supplies the bits above it (08 R242). -/
def immT {n : Nat} (imm : BitVec n) (e : Option Ext) : Int :=
  match e with
  | some x => (x.t ++ imm).toInt
  | none => imm.toInt

/-- SignExtend(imm, 64). -/
def sx {n : Nat} (imm : BitVec n) : DWord := imm.signExtend 64

/-- An operation with a guard does nothing when the guard is 0 (04 R100). -/
def State.guarded (s : State) (g : BitVec 3) (f : State → State) : State := if s.c.rk g then f s else s

/-- Lanes of a width code: 00 1024 bits, 01 2048, 10 4096 (05 R129). -/
def lanesOf (w : BitVec 2) : Nat := 32 * 2 ^ w.toNat

/-- Lane `l` of 32 bits. -/
def lane (v : VWord) (l : Nat) : Nat := fld v.toNat (32 * l) 32

/-- The first `n` lanes as numbers. -/
def lanes (v : VWord) (n : Nat) : List Nat := (List.range n).map (lane v)

/-- Lanes side by side, lane 0 lowest. -/
def packLanes : List Nat → Nat
  | [] => 0
  | x :: t => x % 2 ^ 32 + 2 ^ 32 * packLanes t

/-- A vector from its lanes. -/
def ofLanes (l : List Nat) : VWord := BitVec.ofNat 4096 (packLanes l)

/-- The mask of the first `n` lanes. -/
def firstLanes (n : Nat) : VWord := BitVec.ofNat 4096 (2 ^ (32 * n) - 1)

/-- Size codes 0-3: 1, 2, 4, 8 bytes (08 R242). -/
def sizeOf (z : BitVec 2) : Nat := 2 ^ z.toNat

/-- Bits of an element of a format code (03 Table 3-1); 0 for an illegal code (03 R71). -/
def fmtBits (f : BitVec 8) : Nat :=
  let n := f.toNat
  if n = 0x00 then 8 else if n = 0x01 then 32 else if n = 0x02 ∨ n = 0x03 then 16
  else if n = 0x08 ∨ n = 0x0C then 4 else if n = 0x09 ∨ n = 0x0D then 8
  else if n = 0x0A ∨ n = 0x0E then 16 else if n = 0x0B ∨ n = 0x0F then 32
  else if (0x21 ≤ n ∧ n ≤ 0x27) ∨ (0x31 ≤ n ∧ n ≤ 0x37) then 8
  else if (0x41 ≤ n ∧ n ≤ 0x43) ∨ (0x51 ≤ n ∧ n ≤ 0x53) then 4
  else 0

/-! ## Handles (08 Table 8-1) -/

def hLen (h : QWord) : Nat := fld h.toNat 0 48
def hBase (h : QWord) : Nat := fld h.toNat 48 48
def hObj (h : QWord) : Nat := fld h.toNat 96 23
def hCo (h : QWord) : Bool := h.getLsbD 119
def hDv (h : QWord) : Bool := h.getLsbD 120
def hAt (h : QWord) : Bool := h.getLsbD 121
def hWr (h : QWord) : Bool := h.getLsbD 122
def hRd (h : QWord) : Bool := h.getLsbD 123
def hClass (h : QWord) : Nat := fld h.toNat 124 4

/-- A handle from its fields; rights in bits 0-4: co, dv, at, wr, rd. -/
def mkHandle (cls obj base len rights : Nat) : QWord :=
  BitVec.ofNat 128 (len % 2 ^ 48 + base % 2 ^ 48 * 2 ^ 48 + obj % 2 ^ 23 * 2 ^ 96 + rights % 32 * 2 ^ 119 + cls % 16 * 2 ^ 124)

/-- What a failing check reports: trap code, reason, and the offset of the first failing byte (08 R227, R228). -/
structure Flt where
  code : BitVec 8
  reason : Nat
  off : Int
  /-- the global address, for an absent page or object (08 R232) -/
  at? : Option Nat := none
  deriving DecidableEq, Repr

/-- sr.einfo of traps 0x04 to 0x09 of slot T (08 R228). -/
def accessInfo (f : Flt) (h a : BitVec 4) : DWord :=
  BitVec.ofNat 64 (f.reason % 16 + h.toNat * 16 + a.toNat * 256 + (f.off % 2 ^ 48).toNat * 2 ^ 16)

/-- Slot T reports a failing check: a translation fault when a page or object is absent (08 R232), else its trap. -/
def State.fault (s : State) (f : Flt) (h a : BitVec 4) : State :=
  s.raiseRec { code := f.code, info := accessInfo f h a, slot := s.lat.slot, iss := false, evt := false, now := false,
               absent := f.at?.map (BitVec.ofNat 64) }

/-- Checks 1 to 3 of R227: null, class and owner, rights. -/
def checkHandle (logical : Nat) (h : QWord) (classes : List Nat) (right : QWord → Bool) (off : Int) : Option Flt :=
  if hClass h = 0 then some { code := 0x05, reason := 0, off := off }
  else if !classes.contains (hClass h) then some { code := 0x08, reason := 0, off := off }
  else if hClass h ≤ 2 ∧ hObj h ≠ logical then some { code := 0x08, reason := 1, off := off }
  else if !right h then some { code := 0x07, reason := 0, off := off }
  else none

/-- First failing check of a list. -/
def firstFlt : List (Option Flt) → Option Flt
  | [] => none
  | some f :: _ => some f
  | none :: t => firstFlt t

/-! ## Elements: alignment, limits, window (checks 4 to 6 of R227) -/

/-- The offset window of a handle: bytes `o` to `o + n - 1` are inside. -/
def inWindow (h : QWord) (o : Int) (n : Nat) : Bool := decide (0 ≤ o ∧ o + n ≤ (hLen h : Int))

/-- The first byte at or after offset `o` outside the window (08 R228). -/
def firstOutside (h : QWord) (o : Int) : Int := if 0 ≤ o ∧ o < (hLen h : Int) then (hLen h : Int) else o

/-- How far beyond a crown address its logical strip ends, or 0 for an address beyond the last strip (08 R228). -/
def pastStrip (c : Int) : Int := if 2 ^ 23 ≤ c then 0 else 2 ^ 19 - c % 2 ^ 19

/-- A crown element through an A handle: alignment, one logical strip and no wrap, window. An address below 0 is out of the
window and crosses no strip. Answers the logical crown address. -/
def crownElem (h : QWord) (o : Int) (n align : Nat) : Except Flt Nat :=
  let c : Int := hBase h + o
  if c % align ≠ 0 then .error { code := 0x04, reason := 0, off := o }
  else if 0 ≤ c ∧ (c.fdiv (2 ^ 19) ≠ (c + n - 1).fdiv (2 ^ 19) ∨ (2 ^ 23 : Int) < c + n) then
    .error { code := 0x06, reason := 2, off := o + pastStrip c }
  else if !inWindow h o n then .error { code := 0x06, reason := 1, off := firstOutside h o }
  else .ok c.toNat

/-- A crown element whose offset, and not its address, is to be aligned (08 R251, R261). -/
def offsetElem (h : QWord) (o : Int) (n align : Nat) : Except Flt Nat :=
  if o % align ≠ 0 then .error { code := 0x04, reason := 0, off := o } else crownElem h o n 1

/-- Whether a W handle keeps the limits of Table 8-2; one that does not grants nothing (08 R224). -/
def towerHandleOk (h : QWord) : Bool :=
  decide (fld (hBase h) 39 9 = 0 ∧ fld (hBase h) 0 23 + hLen h ≤ 2 ^ 23)

/-- A tower element of logical tower `t` through a W handle. Answers the tower offset. -/
def towerElem (h : QWord) (t : Nat) (o : Int) (n align : Nat) : Except Flt Nat :=
  let f : Int := (fld (hBase h) 0 23 : Nat) + o
  if f % align ≠ 0 then .error { code := 0x04, reason := 0, off := o }
  else if (2 ^ 23 : Int) < f + n then .error { code := 0x06, reason := 2, off := o + max 0 (2 ^ 23 - f) }
  else if !(towerHandleOk h && decide (t < 16) && (hBase h).testBit (23 + t)) then .error { code := 0x06, reason := 1, off := o }
  else if !inWindow h o n then .error { code := 0x06, reason := 1, off := firstOutside h o }
  else .ok f.toNat

/-! ## Translation (08 R229-R231) -/

/-- The map of Table 8-6 for the `n` bytes at a device-half address of this package. -/
def Hub.mapped (k : Hub) (g n : Nat) : Bool :=
  if fld g 46 16 ≠ 0 then false
  else if inStaging g then decide (fld g 26 17 = 0 ∧ fld g 0 26 + n ≤ k.stagingBytes (homeBoard g))
  else decide (fld g 0 43 + n ≤ Config.hbmBytes)

/-- How many bytes from a device-half address the map of Table 8-6 still covers. -/
def Hub.mappedBytes (k : Hub) (g : Nat) : Nat :=
  if fld g 46 16 ≠ 0 then 0
  else if inStaging g then (if fld g 26 17 = 0 then k.stagingBytes (homeBoard g) - fld g 0 26 else 0)
  else Config.hbmBytes - fld g 0 43

/-- The first of the `n` bytes at a host address whose 4 KiB page is absent. -/
def Hub.absentAt (k : Hub) (g n : Nat) : Option Nat :=
  ((List.range ((g + n - 1) / 4096 - g / 4096 + 1)).find? fun i => !k.pages.contains (g / 4096 + i)).map
    fun i => max g ((g / 4096 + i) * 4096)

/-- Check 7 of R227: the translation of `n` bytes at object offset f + o by an entry of the object table. Answers the global address and the
entry. -/
def Hub.translateBy (k : Hub) (entry : Option Nat) (h : QWord) (o : Int) (n : Nat) : Except Flt (Nat × Nat) :=
  match entry with
  | none => .error { code := 0x09, reason := 2, off := o }
  | some e =>
    let p := (hBase h + o).toNat
    let g := oBase e + p
    if !oPresent e then .error { code := 0x09, reason := 1, off := o, at? := some g }
    else if oLen e < p + n then .error { code := 0x06, reason := 3, off := o + (oLen e - p : Nat) }
    else if 2 ^ 64 < g + n then .error { code := 0x09, reason := 2, off := o + (2 ^ 64 - g : Nat) }
    else if deviceHalf g then
      if k.mapped g n then .ok (g, e) else .error { code := 0x09, reason := 2, off := o + k.mappedBytes g }
    else match k.absentAt g n with
      | some b => .error { code := 0x09, reason := 0, off := o + ((b : Int) - g), at? := some b }
      | none => .ok (g, e)

/-- The translation by the table in force. -/
def Hub.translate (k : Hub) (h : QWord) (o : Int) (n : Nat) : Except Flt (Nat × Nat) := k.translateBy (k.object (hObj h)) h o n

/-- A global element through a K or G handle: alignment, window, translation. -/
def Hub.globalElem (k : Hub) (h : QWord) (o : Int) (n align : Nat) : Except Flt (Nat × Nat) :=
  if (hBase h + o) % align ≠ 0 then .error { code := 0x04, reason := 0, off := o }
  else if !inWindow h o n then .error { code := 0x06, reason := 1, off := firstOutside h o }
  else k.translate h o n

/-- Resolve elements in order; the first failure is reported. -/
def resolveAll {α β : Type} (f : α → Except Flt β) : List α → Except Flt (List β)
  | [] => .ok []
  | x :: t => match f x with
    | .error e => .error e
    | .ok y => match resolveAll f t with
      | .error e => .error e
      | .ok ys => .ok (y :: ys)

/-- Where a load of this core's board reads a global address: its board's replica when there is one. -/
def readHome (board : Nat) (ge : Nat × Nat) : Nat :=
  if oReplicated ge.2 && deviceHalf ge.1 && (oBoards ge.2).testBit board then replicaOn ge.1 board else ge.1

/-- Every copy that a write updates: the one at gbase, then the replicas (10 R316). -/
def writeHomes (ge : Nat × Nat) : List Nat :=
  if oReplicated ge.2 && deviceHalf ge.1 then
    ge.1 :: (((List.range 8).filter fun b => (oBoards ge.2).testBit b && b != homeBoard ge.1).map (replicaOn ge.1))
  else [ge.1]

/-- The round trip to the farthest replica board, for which a write to a replicated extent locks its lines (10 R316). -/
def lockTrip (ge : Nat × Nat) : Nat :=
  24 * ((writeHomes ge).map fun g => bridges (homeBoard ge.1) (homeBoard g)).foldl max 0

/-- Whether a write would touch the read-only telemetry object or the arbiter records beside it (09 R304, 12 R408). -/
def Hub.isTelemetry (k : Hub) (g n : Nat) : Bool :=
  match k.telemetry with
  | some t => decide (g < t + 1024 ∧ t < g + n)
  | none => false

/-! ## Segments (11 R357) -/

def Ctx.segOpen (c : Ctx) : Bool := c.seg.getLsbD 0

/-- Whether `n` bytes at offset `o` of a crown or global handle fall inside a write window of the open segment; K and G handles name the
same objects. -/
def Ctx.inSegWindow (c : Ctx) (h : QWord) (o : Int) (n : Nat) : Bool :=
  c.windows.any fun w => (hClass w == hClass h || (decide (3 ≤ hClass w) && decide (3 ≤ hClass h))) && hObj w == hObj h &&
    decide ((hBase w : Int) ≤ hBase h + o ∧ hBase h + o + n ≤ (hBase w + hLen w : Nat))

/-- Whether `n` bytes at offset `f` of a logical tower of a core, by its logical number, fall inside a write window. -/
def Ctx.inTowerWindow (c : Ctx) (obj t : Nat) (f : Int) (n : Nat) : Bool :=
  c.windows.any fun w => hClass w == 1 && hObj w == obj && (hBase w).testBit (23 + t) &&
    decide ((fld (hBase w) 0 23 : Int) ≤ f ∧ f + n ≤ (fld (hBase w) 0 23 + hLen w : Nat))

/-- sr.einfo of trap 0x11. -/
def segInfo (reason : Nat) (h : BitVec 4) : DWord := BitVec.ofNat 64 (reason + h.toNat * 16)

/-! ## Latencies that decide when an access is over (08 Table 8-7; log 6) -/

/-- A global read from the issuing core's board. -/
def globalLatency (k : Hub) (board g : Nat) (hit : Bool) : Nat :=
  if deviceHalf g then (if inStaging g ∨ hit then 60 else 160) + 12 * bridges board (homeBoard g) else k.hostLatency

/-- A global store: the strike hold, the bridges crossed, and the host's half latency. -/
def storeLatency (k : Hub) (board g : Nat) : Nat :=
  if deviceHalf g then 32 + 12 * bridges board (homeBoard g) else 32 + k.hostLatency / 2

end Sys2Proof.Machine
end

