-- ==== Sys2Proof/Machine/Flags.lean ====
section
/-! DEFINITION. Status registers and flags: what `srd` reads and what `swr` may write (04 R123-R128, 03 R93, R94, 12 R382, R391, R392), and how an operation raises its floating-point flags (03 R94, R95). -/

namespace Sys2Proof.Machine

/-! ## Floating-point flags: nv 0, dz 1, of 2, uf 3, nx 4, pinx 5, olf 6 (03 Table 3-11) -/

/-- OR flags into sr.fpsr. -/
def Ctx.orFlags (c : Ctx) (f : Nat) : Ctx := { c with fpsr := c.fpsr ||| BitVec.ofNat 64 (f % 128) }

def State.orFlags (s : State) (f : Nat) : State := { s with c := s.c.orFlags f }

/-- Add to olc, which holds at its maximum (03 Table 3-11). -/
def Ctx.addOlc (c : Ctx) (n : Nat) : Ctx :=
  { c with fpsr := putField c.fpsr 16 32 (min (fld c.fpsr.toNat 16 32 + n) (2 ^ 32 - 1)) }

/-- The flags among nv, dz, of, uf, nx whose trap is enabled in an sr.fpcr (03 Table 3-10). -/
def enabledFlags (fpcr : DWord) (f : Nat) : Nat := (f &&& fld fpcr.toNat 4 5) &&& 31

/-- A slot C floating operation ends: trap 0x0F when an enabled flag would be raised, otherwise flags and result (03
R94, R95; 04 R111: sr.fpcr as at the issue of the bundle). -/
def State.finishFp (s : State) (flags : Nat) (k : State → State) : State :=
  let e := enabledFlags s.lat.iss.fpcr flags
  if e ≠ 0 then s.raise 0x0F (BitVec.ofNat 64 (e + (flags &&& 31) * 256 + 2 ^ 23))
  else k (s.orFlags flags)

/-! ## Status registers -/

/-- Code of the other bank's state (11 Table 11-5). -/
def BankState.code : BankState → Nat
  | .empty => 0
  | .active => 0
  | .draining => 1
  | .drained => 2
  | .sleeping => 3
  | .translation => 4
  | .barrier => 5

/-- sr.ctx (11 Table 11-5). -/
def State.ctxWord (s : State) : DWord :=
  BitVec.ofNat 64 ((if s.core.bank then 1 else 0) + s.oq.state.code * 2 + s.c.preempt.toNat * 2 ^ 8 + s.c.since.toNat * 2 ^ 16)

/-- sr.coreid (04 Table 4-8). -/
def State.coreidWord (s : State) : DWord :=
  BitVec.ofNat 64 (s.core.phys % 64 + boardOf s.core.phys * 2 ^ 6 + s.logical * 2 ^ 16)

/-- sr.remap0 (`hi` false) and sr.remap1 (04 Table 4-9). -/
def Core.remapWord (k : Core) (hi : Bool) : DWord :=
  BitVec.ofNat 64 (bytesNat ((List.range 8).map fun i => BitVec.ofNat 8 (k.tower (i + if hi then 8 else 0))))

/-- Whether the core is deferring refresh (09 R298). -/
def State.deferring (s : State) : Bool :=
  match s.core.deferEnd with
  | some e => decide (s.now < e)
  | none => false

/-- sr.tlimit (09 Table 9-9). -/
def State.tlimitWord (s : State) : DWord :=
  BitVec.ofNat 64 (s.core.tlimit.toNat + s.core.tinterval.toNat * 2 ^ 24 + if s.deferring then 2 ^ 48 else 0)

/-- A monitor unit's register at offset 0-11 (12 Table 12-10). -/
def Mon.reg (m : Mon) (o : Nat) : DWord :=
  match o with
  | 0 => m.ctl
  | 1 => m.min
  | 2 => m.max
  | 3 => m.n
  | o => BitVec.ofNat 64 ((m.bins.toList[2 * (o - 4)]?.getD 0).toNat + (m.bins.toList[2 * (o - 4) + 1]?.getD 0).toNat * 2 ^ 32)

/-- The value `srd` samples from a status register number of Table 4-7 (04 R124). -/
def State.srd (s : State) (n : Nat) : DWord :=
  if n = 0x000 then BitVec.ofNat 64 s.now
  else if n = 0x001 then s.c.fpcr
  else if n = 0x002 then s.c.fpsr
  else if n = 0x003 then s.coreidWord
  else if n = 0x004 then BitVec.ofNat 64 s.hub.map.length
  else if n = 0x005 then s.core.remapWord false
  else if n = 0x006 then s.core.remapWord true
  else if n = 0x007 then s.ctxWord
  else if n = 0x008 then s.c.bead
  else if n = 0x009 then s.c.seg
  else if n = 0x00A then s.core.strikes
  else if n = 0x00B then s.core.orphans
  else if n = 0x00C then s.tlimitWord
  else if n = 0x00D then s.core.parkmax.setWidth 64
  else if n = 0x00E then s.core.sleepmax.setWidth 64
  else if n = 0x010 then s.c.cause
  else if n = 0x011 then s.c.epc
  else if n = 0x012 then s.c.einfo
  else if n = 0x013 then s.c.tbase
  else if n = 0x014 then s.c.repc
  else if n = 0x015 then s.c.slip
  else if n = 0x016 then s.c.enpc
  else if n = 0x017 then s.c.cbmap
  else if n < 0x030 then s.c.cf.toList[n - 0x020]?.getD 0
  else if n < 0x070 then ((s.core.mon.toList[(n - 0x040) / 12]?.getD {}).reg ((n - 0x040) % 12))
  else s.core.stalls.toList[n - 0x070]?.getD 0

/-- Whether `srd` at bead level raises trap 0x03 (04 Table 4-7: access "—"). -/
def srdSystem (n : Nat) : Bool := decide (0x010 ≤ n ∧ n ≤ 0x017)

/-- Whether `swr` at bead level raises trap 0x03 (04 Table 4-7: access "R" or "—"; 12 R391, R392). A write to a read-only register of a
monitor unit traps there like one to the rest of the unit, and at system level it is ignored (DESIGN CHOICE, log 48). -/
def swrSystem (n : Nat) : Bool := decide ((0x007 ≤ n ∧ n ≤ 0x00E) ∨ (0x010 ≤ n ∧ n ≤ 0x017) ∨ 0x040 ≤ n)

/-- Keep only the written bits of a mask. -/
def maskWrite (old new mask : DWord) : DWord := blendBits mask new old

/-! ## Readings of the sensors (12 R401), in quarters of a degree -/

/-- Cores adjacent on a board, diagonals included. -/
def adjacent (p q : Nat) : Bool :=
  let near (a b : Nat) : Bool := decide (a ≤ b + 1 ∧ b ≤ a + 1)
  boardOf p == boardOf q && p != q && near (fileOf p) (fileOf q) && near (rankOf p) (rankOf q)

def maxInt (l : List Int) : Option Int :=
  match l with
  | [] => none
  | x :: t => some (t.foldl (fun a b => if a < b then b else a) x)

/-- Readings of sensors that have not failed, among those that a test admits. -/
def Power.good (p : Power) (ok : Nat → Bool) : List Int :=
  (p.readings.filter fun r => ok r.1 && !p.failedSensors.contains r.1).map (·.2)

/-- A core's reading: its sensor's, or the hottest neighbour's plus 4 degrees, or the hottest of its board plus 4. -/
def Power.reading (p : Power) (phys : Nat) : Option Int :=
  if !p.failedSensors.contains phys then (p.readings.find? (·.1 == phys)).map (·.2)
  else match maxInt (p.good (adjacent phys)) with
    | some x => some (x + 16)
    | none => (maxInt (p.good fun q => boardOf q == boardOf phys)).map (· + 16)

/-- The junction temperature the engine uses for this core (12 R401); 0 before any reading. -/
def State.temperature (s : State) : Int := (s.hub.power.reading s.core.phys).getD 0

/-- The retention bound in force, in units of 1024 cycles (09 R295). -/
def State.retentionBound (s : State) : Nat :=
  if (420 : Int) < s.temperature then Config.retentionHot else Config.retention

/-! ## What `swr` writes -/

/-- Writable fields of sr.cfN (03 Table 3-8). -/
def cfMask : DWord := 0xFFFFFFFFFFFF07FF

/-- The state after `swr` to a status register number of Table 4-7, for a value it accepts (04 R125). -/
def State.swr (s : State) (n : Nat) (w : DWord) : State :=
  if n = 0x001 then { s with c := { s.c with fpcr := maskWrite s.c.fpcr w 0x3FF } }
  else if n = 0x002 then { s with c := { s.c with fpsr := maskWrite s.c.fpsr w 0x0000FFFFFFFF007F } }
  else if n = 0x007 then { s with c := { s.c with preempt := fbv 8 8 w.toNat, since := fbv 48 16 w.toNat } }
  else if n = 0x008 then { s with c := { s.c with bead := w } }
  else if n = 0x009 then { s with c := { s.c with seg := maskWrite s.c.seg w 0xFFFFFFFF01FF000F } }
  else if n = 0x00A then { s with core := { s.core with strikes := maskWrite s.core.strikes w 0x1FFFFFFFFF } }
  else if n = 0x00B then { s with core := { s.core with orphans := maskWrite s.core.orphans w 0xFFFFFF01FFFFFFFF } }
  else if n = 0x00C then
    { s with core := { s.core with
        tlimit := BitVec.ofNat 24 (min (fld w.toNat 0 24) s.retentionBound), tinterval := fbv 24 24 w.toNat } }
  else if n = 0x00D then { s with core := { s.core with parkmax := w.setWidth 32 } }
  else if n = 0x00E then { s with core := { s.core with sleepmax := w.setWidth 32 } }
  else if n = 0x010 then { s with c := { s.c with cause := maskWrite s.c.cause w 0x1FFF } }
  else if n = 0x011 then { s with c := { s.c with epc := maskWrite s.c.epc w 0xFFFFFFFFFFFFFFF0 } }
  else if n = 0x012 then { s with c := { s.c with einfo := w } }
  else if n = 0x013 then { s with c := { s.c with tbase := maskWrite s.c.tbase w 0xFFFFFFFFFFFFF800 } }
  else if n = 0x014 then { s with c := { s.c with repc := maskWrite s.c.repc w 0x3FF } }
  else if n = 0x015 then { s with c := { s.c with slip := maskWrite s.c.slip w 0xFFFFFFFFFF } }
  else if n = 0x016 then { s with c := { s.c with enpc := maskWrite s.c.enpc w 0xFFFFFFFFFFFFFFF0 } }
  else if n = 0x017 then { s with c := { s.c with cbmap := w } }
  else if 0x020 ≤ n ∧ n < 0x030 then
    if h : n - 0x020 < 16 then
      { s with c := { s.c with cf := s.c.cf.set (n - 0x020) (maskWrite s.c.cf[n - 0x020] w cfMask) h } }
    else s
  else if 0x040 ≤ n ∧ n < 0x070 then
    if h : (n - 0x040) / 12 < 4 then
      if (n - 0x040) % 12 = 0 then
        let u := s.core.mon[(n - 0x040) / 12]
        { s with core := { s.core with
            mon := s.core.mon.set ((n - 0x040) / 12) { u with ctl := maskWrite u.ctl w 0x0000FFFFFFFF0F1F } h } }
      else s
    else s
  else if 0x070 ≤ n then
    if h : n - 0x070 < 16 then { s with core := { s.core with stalls := s.core.stalls.set (n - 0x070) w h } } else s
  else s

/-- Values that `swr` refuses with trap 0x01: sr.slip with n above 9 (12 R382), a reserved monitor source (12 R390) and an illegal format
code (03 R71). -/
def swrRefuses (n : Nat) (w : DWord) : Bool :=
  (decide (0x020 ≤ n ∧ n < 0x030) && fmtBits (w.setWidth 8) == 0) ||
  (n == 0x015 && decide (9 < fld w.toNat 36 4)) ||
  (decide (0x040 ≤ n ∧ n < 0x070) && (n - 0x040) % 12 == 0 && decide (11 ≤ fld w.toNat 0 5))

end Sys2Proof.Machine
end

