-- ==== Sys2Proof/Machine/Float.lean ====
section
/-! DEFINITION. Exact values and rounding: IEEE, integer and KkPp formats, the four rounding modes, flags, and the arithmetic that slots C and V and the engines share (03_number_formats.md). Every value is a sign, a magnitude and a power of two, so that a result is computed exactly and rounded once. -/

namespace Sys2Proof.Machine

/-! ## Values -/

/-- A decoded value. A finite value is (-1)^neg × m × 2^e; m = 0 is a signed zero. -/
inductive FV where
  | nan (signalling : Bool)
  | inf (neg : Bool)
  | fin (neg : Bool) (m : Nat) (e : Int)
  deriving DecidableEq, Repr

/-- Flags as bits: nv 1, dz 2, of 4, uf 8, nx 16, pinx 32, olf 64 (03 Table 3-11). -/
abbrev Fl := Nat
def fNv : Fl := 1
def fDz : Fl := 2
def fOf : Fl := 4
def fUf : Fl := 8
def fNx : Fl := 16
def fPinx : Fl := 32
def fOlf : Fl := 64

/-- Rounding modes as encoded: 0 RNE, 1 RTZ, 2 RUP, 3 RDN (03 R79). -/
abbrev Mode := Nat

def FV.isNan : FV → Bool
  | .nan _ => true
  | _ => false
def FV.isSnan : FV → Bool
  | .nan true => true
  | _ => false
def FV.isInf : FV → Bool
  | .inf _ => true
  | _ => false
def FV.isZero : FV → Bool
  | .fin _ 0 _ => true
  | _ => false
def FV.neg : FV → Bool
  | .nan _ => false
  | .inf n => n
  | .fin n _ _ => n
def FV.negate : FV → FV
  | .nan q => .nan q
  | .inf n => .inf (!n)
  | .fin n m e => .fin (!n) m e
def FV.abs : FV → FV
  | .nan q => .nan q
  | .inf _ => .inf false
  | .fin _ m e => .fin false m e

/-- nv when any of the values is a signalling NaN (03 R81). -/
def snanFlag (l : List FV) : Fl := if l.any FV.isSnan then fNv else 0

/-! ## Rounding a magnitude (03 R79) -/

/-- floor(log2 (m × 2^e)) for m > 0. -/
def topExp (m : Nat) (e : Int) : Int := (m.log2 : Int) + e

/-- m × 2^e, plus something less than 2^e when `sticky`, as a multiple of 2^q: the multiple, whether it is inexact, and
the rounding. `odd` is the parity of the encoding of the lower neighbour beyond that of the multiple itself. -/
def roundAt (mode : Mode) (neg : Bool) (m : Nat) (e : Int) (sticky : Bool) (q : Int) (odd : Nat) : Nat × Bool :=
  if q ≤ e then (m * 2 ^ (e - q).toNat, sticky)
  else
    let k := (q - e).toNat
    let n := m / 2 ^ k
    let r := m % 2 ^ k
    let inexact := r != 0 || sticky
    let half := 2 ^ (k - 1)
    let up : Bool := match mode with
      | 0 => decide (half < r) || (r == half && (sticky || (n + odd) % 2 == 1))
      | 1 => false
      | 2 => inexact && !neg
      | _ => inexact && neg
    (if up then n + 1 else n, inexact)

/-- Parity that the exponent adds to an encoding: only for a precision of 1 bit does it count (R79). -/
def expParity (p : Nat) (emin top : Int) : Nat :=
  if p = 1 ∧ emin ≤ top then ((top - emin) % 2).toNat else 0

/-- Round to `p` significant bits with the subnormal spacing below 2^emin and no upper limit (R79, R80): the result is
n × 2^q. -/
def roundSig (mode : Mode) (p : Nat) (emin : Int) (neg : Bool) (m : Nat) (e : Int) (sticky : Bool) : Nat × Int × Bool :=
  let top := topExp m e
  let q := max top emin - (p - 1 : Nat)
  let r := roundAt mode neg m e sticky q (expParity p emin top)
  (r.1, q, r.2)

/-- Tininess after rounding with an unbounded exponent (R83). -/
def isTiny (mode : Mode) (p : Nat) (emin : Int) (neg : Bool) (m : Nat) (e : Int) (sticky : Bool) : Bool :=
  if m = 0 then sticky else
    let top := topExp m e
    if emin ≤ top then false
    else
      let q := top - (p - 1 : Nat)
      let r := roundAt mode neg m e sticky q (if p = 1 then ((top - emin) % 2).toNat else 0)
      -- the rounded value reaches 2^emin only by a carry into the next power of two
      decide (topExp r.1 q < emin)

/-! ## IEEE formats (Table 3-2) -/

/-- Precision, exponent of the smallest normal value, largest exponent, and width. -/
structure Fmt where
  p : Nat
  emin : Int
  emax : Int
  bits : Nat
  deriving DecidableEq, Repr

def fp64 : Fmt := { p := 53, emin := -1022, emax := 1023, bits := 64 }
def fp32 : Fmt := { p := 24, emin := -126, emax := 127, bits := 32 }
def bf16 : Fmt := { p := 8, emin := -126, emax := 127, bits := 16 }
def fp16 : Fmt := { p := 11, emin := -14, emax := 15, bits := 16 }

/-- Bits of the exponent field. -/
def Fmt.ebits (f : Fmt) : Nat := f.bits - f.p
def Fmt.expAll (f : Fmt) : Nat := 2 ^ f.ebits - 1
def Fmt.sign (f : Fmt) (neg : Bool) : Nat := if neg then 2 ^ (f.bits - 1) else 0
/-- The canonical NaN (R81, Table 3-2). -/
def Fmt.nan (f : Fmt) : Nat := f.expAll * 2 ^ (f.p - 1) + 2 ^ (f.p - 2)
def Fmt.infBits (f : Fmt) (neg : Bool) : Nat := f.sign neg + f.expAll * 2 ^ (f.p - 1)
def Fmt.maxBits (f : Fmt) (neg : Bool) : Nat := f.sign neg + f.expAll * 2 ^ (f.p - 1) - 1

/-- The value of a bit pattern; under `daz` a subnormal is a zero of its sign (R74, R83). -/
def Fmt.decode (f : Fmt) (daz : Bool) (w : Nat) : FV :=
  let neg := w.testBit (f.bits - 1)
  let x := fld w (f.p - 1) f.ebits
  let t := fld w 0 (f.p - 1)
  if x = f.expAll then (if t = 0 then .inf neg else .nan (!t.testBit (f.p - 2)))
  else if x = 0 then (if daz then .fin neg 0 0 else .fin neg t (f.emin - (f.p - 1 : Nat)))
  else .fin neg (t + 2 ^ (f.p - 1)) (f.emin + (x - 1 : Nat) - (f.p - 1 : Nat))

/-- The pattern of n × 2^q, a value of the format below its overflow. -/
def Fmt.pack (f : Fmt) (neg : Bool) (n : Nat) (q : Int) : Nat :=
  f.sign neg + (q + (f.p - 1 : Nat) - f.emin).toNat * 2 ^ (f.p - 1) + n

/-- Round a magnitude into an IEEE format: overflow and underflow as R80 and R83, with ftz (R83). -/
def Fmt.round (f : Fmt) (mode : Mode) (ftz neg : Bool) (m : Nat) (e : Int) (sticky : Bool) : Nat × Fl :=
  if m = 0 ∧ !sticky then (f.sign neg, 0)
  else
    let tiny := isTiny mode f.p f.emin neg m e sticky
    if tiny ∧ ftz then (f.sign neg, fUf + fNx)
    else
      let r := roundSig mode f.p f.emin neg m e sticky
      let ovf := decide (f.emax < topExp r.1 r.2.1) && r.1 != 0
      if ovf then
        let toInf : Bool := match mode with
          | 0 => true
          | 1 => false
          | 2 => !neg
          | _ => neg
        (if toInf then f.infBits neg else f.maxBits neg, fOf + fNx)
      else (f.pack neg r.1 r.2.1, (if r.2.2 then fNx else 0) + (if tiny && r.2.2 then fUf else 0))

/-- Round a value into a format; a NaN gives the canonical one, an infinity itself. -/
def Fmt.roundFV (f : Fmt) (mode : Mode) (ftz : Bool) (v : FV) : Nat × Fl :=
  match v with
  | .nan _ => (f.nan, 0)
  | .inf n => (f.infBits n, 0)
  | .fin n m e => f.round mode ftz n m e false

/-! ## Exact arithmetic -/

/-- The sign of an exact zero sum: +0, except -0 under RDN; two zeros of one sign keep it (04 R112). -/
def zeroSign (mode : Mode) (a b : Bool) : Bool := if a = b then a else mode == 3

/-- a + b exactly. -/
def addFin (mode : Mode) (na : Bool) (ma : Nat) (ea : Int) (nb : Bool) (mb : Nat) (eb : Int) : FV :=
  let e := min ea eb
  let x : Int := (if na then -1 else 1) * (ma * 2 ^ (ea - e).toNat : Nat)
  let y : Int := (if nb then -1 else 1) * (mb * 2 ^ (eb - e).toNat : Nat)
  let s := x + y
  if s = 0 then .fin (if ma = 0 ∧ mb = 0 then zeroSign mode na nb else mode == 3) 0 0
  else .fin (decide (s < 0)) s.natAbs e

/-- a + b and its invalid flag. -/
def addFV (mode : Mode) (a b : FV) : FV × Fl :=
  match a, b with
  | .nan _, _ => (.nan false, snanFlag [a, b])
  | _, .nan _ => (.nan false, snanFlag [a, b])
  | .inf x, .inf y => if x = y then (.inf x, 0) else (.nan false, fNv)
  | .inf x, _ => (.inf x, 0)
  | _, .inf y => (.inf y, 0)
  | .fin na ma ea, .fin nb mb eb => (addFin mode na ma ea nb mb eb, 0)

/-- a × b and its invalid flag. -/
def mulFV (a b : FV) : FV × Fl :=
  match a, b with
  | .nan _, _ => (.nan false, snanFlag [a, b])
  | _, .nan _ => (.nan false, snanFlag [a, b])
  | .inf x, .inf y => (.inf (x != y), 0)
  | .inf x, .fin y m _ => if m = 0 then (.nan false, fNv) else (.inf (x != y), 0)
  | .fin x m _, .inf y => if m = 0 then (.nan false, fNv) else (.inf (x != y), 0)
  | .fin x m e, .fin y n d => (.fin (x != y) (m * n) (e + d), 0)

/-- A comparison key: -1, 0, 1 for a below, equal to, above b; zeros are equal. Not for NaN. -/
def cmpFV (a b : FV) : Int :=
  let ord (x : Int) : Int := if x < 0 then -1 else if x = 0 then 0 else 1
  match a, b with
  | .inf x, .inf y => if x = y then 0 else if x then -1 else 1
  | .inf x, _ => if x then -1 else 1
  | _, .inf y => if y then 1 else -1
  | .fin na ma ea, .fin nb mb eb =>
    let e := min ea eb
    let x : Int := (if na then -1 else 1) * (ma * 2 ^ (ea - e).toNat : Nat)
    let y : Int := (if nb then -1 else 1) * (mb * 2 ^ (eb - e).toNat : Nat)
    ord (x - y)
  | _, _ => 0

/-! ## Operations on bit patterns -/

/-- Modes of an operation: rounding, ftz, daz. -/
structure FpEnv where
  mode : Mode
  ftz : Bool
  daz : Bool
  deriving DecidableEq, Repr

def fpAdd (f : Fmt) (v : FpEnv) (a b : Nat) : Nat × Fl :=
  let s := addFV v.mode (f.decode v.daz a) (f.decode v.daz b)
  let r := f.roundFV v.mode v.ftz s.1
  (r.1, s.2 ||| r.2)

/-- a - b: b with its sign changed, after daz. -/
def fpSub (f : Fmt) (v : FpEnv) (a b : Nat) : Nat × Fl :=
  let s := addFV v.mode (f.decode v.daz a) (f.decode v.daz b).negate
  let r := f.roundFV v.mode v.ftz s.1
  (r.1, s.2 ||| r.2)

def fpMul (f : Fmt) (v : FpEnv) (a b : Nat) : Nat × Fl :=
  let s := mulFV (f.decode v.daz a) (f.decode v.daz b)
  let r := f.roundFV v.mode v.ftz s.1
  (r.1, s.2 ||| r.2)

/-- x / y of finite nonzero values, rounded once. -/
def divRound (f : Fmt) (v : FpEnv) (neg : Bool) (m : Nat) (e : Int) (n : Nat) (d : Int) : Nat × Fl :=
  let k := f.p + 3 + n.log2 - m.log2
  let x := m * 2 ^ k
  f.round v.mode v.ftz neg (x / n) (e - d - k) (x % n != 0)

def fpDivFV (f : Fmt) (v : FpEnv) (a b : FV) : Nat × Fl :=
  match a, b with
  | .nan _, _ => (f.nan, snanFlag [a, b])
  | _, .nan _ => (f.nan, snanFlag [a, b])
  | .inf _, .inf _ => (f.nan, fNv)
  | .inf x, .fin y _ _ => (f.infBits (x != y), 0)
  | .fin x _ _, .inf y => (f.sign (x != y), 0)
  | .fin x m e, .fin y n d =>
    if n = 0 then (if m = 0 then (f.nan, fNv) else (f.infBits (x != y), fDz))
    else if m = 0 then (f.sign (x != y), 0)
    else divRound f v (x != y) m e n d

def fpDiv (f : Fmt) (v : FpEnv) (a b : Nat) : Nat × Fl := fpDivFV f v (f.decode v.daz a) (f.decode v.daz b)

/-- Integer square root by trial of bits from `k - 1` down. -/
def isqrt (x : Nat) : Nat → Nat → Nat
  | 0, r => r
  | k + 1, r => isqrt x k (if (r + 2 ^ k) * (r + 2 ^ k) ≤ x then r + 2 ^ k else r)

/-- A magnitude's square root to `b` bits or more: root, exponent, and whether bits are left. -/
def sqrtMag (b : Nat) (m : Nat) (e : Int) : Nat × Int × Bool :=
  let k0 := 2 * b - min (2 * b) m.log2
  let k := if (e - k0) % 2 = 0 then k0 else k0 + 1
  let x := m * 2 ^ k
  let r := isqrt x (x.log2 / 2 + 1) 0
  (r, (e - k) / 2, r * r != x)

/-- √a (04 R113). -/
def fpSqrtFV (f : Fmt) (v : FpEnv) (a : FV) : Nat × Fl :=
  match a with
  | .nan s => (f.nan, if s then fNv else 0)
  | .inf true => (f.nan, fNv)
  | .inf false => (f.infBits false, 0)
  | .fin n m e =>
    if m = 0 then (f.sign n, 0)
    else if n then (f.nan, fNv)
    else
      let r := sqrtMag (f.p + 3) m e
      f.round v.mode v.ftz false r.1 r.2.1 r.2.2

def fpSqrt (f : Fmt) (v : FpEnv) (a : Nat) : Nat × Fl := fpSqrtFV f v (f.decode v.daz a)

/-- a × b + c with one rounding (04 R114). -/
def fmaFV (mode : Mode) (a b c : FV) : FV × Fl :=
  let p := mulFV a b
  if p.1.isNan && !(a.isNan || b.isNan) then (.nan false, fNv ||| snanFlag [c])
  else
    let s := addFV mode p.1 c
    (s.1, p.2 ||| s.2 ||| snanFlag [a, b, c])

def fpFma (f : Fmt) (v : FpEnv) (a b c : Nat) : Nat × Fl :=
  let s := fmaFV v.mode (f.decode v.daz a) (f.decode v.daz b) (f.decode v.daz c)
  let r := f.roundFV v.mode v.ftz s.1
  (r.1, s.2 ||| r.2)

/-- The pattern of an input after daz: a flushed subnormal is a zero of its sign. -/
def Fmt.input (f : Fmt) (daz : Bool) (w : Nat) : Nat :=
  if daz && decide (fld w (f.p - 1) f.ebits = 0) then f.sign (w.testBit (f.bits - 1)) else w

/-- MinFP and MaxFP: NaN when either is a NaN, nv only for a signalling one; -0 below +0; never flushed (04 R112). -/
def fpMinMax (f : Fmt) (daz max : Bool) (a b : Nat) : Nat × Fl :=
  let x := f.decode daz a
  let y := f.decode daz b
  if x.isNan || y.isNan then (f.nan, snanFlag [x, y])
  else
    let c := cmpFV x y
    let aLess := decide (c < 0) || (c == 0 && x.neg && !y.neg)
    (f.input daz (if aLess != max then a else b), 0)

/-- Conditions 0 eq, 1 lt, 2 le, 3 un with their flags (04 R115). -/
def fpCmp (f : Fmt) (daz : Bool) (c : Nat) (a b : Nat) : Bool × Fl :=
  let x := f.decode daz a
  let y := f.decode daz b
  if x.isNan || y.isNan then
    (c == 3, if c == 1 || c == 2 then fNv else snanFlag [x, y])
  else
    let k := cmpFV x y
    (match c with
      | 0 => decide (k = 0)
      | 1 => decide (k < 0)
      | 2 => decide (k ≤ 0)
      | _ => false, 0)

/-! ## Integers (R78) -/

/-- A value rounded to an integer in a mode, with whether it was inexact. -/
def toIntegral (mode : Mode) (neg : Bool) (m : Nat) (e : Int) : Int × Bool :=
  let r := roundAt mode neg m e false 0 0
  ((if neg then -1 else 1) * (r.1 : Int), r.2)

/-- Conversion into an integer range: saturating with nv, NaN to 0 with nv, nx when inexact in range. -/
def toInteger (mode : Mode) (lo hi : Int) (v : FV) : Int × Fl :=
  match v with
  | .nan _ => (0, fNv)
  | .inf n => (if n then lo else hi, fNv)
  | .fin n m e =>
    let r := toIntegral mode n m e
    if r.1 < lo then (lo, fNv) else if hi < r.1 then (hi, fNv) else (r.1, if r.2 then fNx else 0)

/-- The value of an integer. -/
def ofInteger (x : Int) : FV := .fin (decide (x < 0)) x.natAbs 0

/-- Bounds of an integer format of `n` bits. -/
def intLo (n : Nat) (signed : Bool) : Int := if signed then -(2 ^ (n - 1) : Nat) else 0
def intHi (n : Nat) (signed : Bool) : Int := (if signed then 2 ^ (n - 1) else 2 ^ n : Nat) - 1

/-! ## KkPp formats (R75-R77) -/

/-- Width, precision, signedness and infinities. -/
structure Kk where
  k : Nat
  p : Nat
  signed : Bool
  inf : Bool
  deriving DecidableEq, Repr

def Kk.w (f : Kk) : Nat := if f.signed then f.k - f.p else f.k - f.p + 1
def Kk.bias (f : Kk) : Int := (2 ^ (f.w - 1) : Nat)
def Kk.emin (f : Kk) : Int := 1 - f.bias
/-- Bits of the magnitude. -/
def Kk.mbits (f : Kk) : Nat := if f.signed then f.k - 1 else f.k
def Kk.nanCode (f : Kk) : Nat := if f.signed then 2 ^ (f.k - 1) else 2 ^ f.k - 1
/-- Largest finite magnitude code. -/
def Kk.maxCode (f : Kk) : Nat := (if f.signed then 2 ^ (f.k - 1) - 1 else 2 ^ f.k - 2) - (if f.inf then 1 else 0)
def Kk.infCode (f : Kk) (neg : Bool) : Nat := f.maxCode + 1 + (if neg then 2 ^ (f.k - 1) else 0)

/-- The value of a magnitude code. -/
def Kk.magValue (f : Kk) (neg : Bool) (c : Nat) : FV :=
  let e := c / 2 ^ (f.p - 1)
  let t := c % 2 ^ (f.p - 1)
  if e = 0 then (if t = 0 then .fin false 0 0 else .fin neg t (f.emin - (f.p - 1 : Nat)))
  else .fin neg (2 ^ (f.p - 1) + t) ((e : Int) - f.bias - (f.p - 1 : Nat))

def Kk.decode (f : Kk) (code : Nat) : FV :=
  let c := code % 2 ^ f.k
  if c = f.nanCode then .nan false
  else
    let neg := f.signed && c.testBit (f.k - 1)
    let mag := c % 2 ^ f.mbits
    if f.inf && decide (f.maxCode < mag) then .inf neg else f.magValue neg mag

/-- What EncodeK makes of a value (R87): a code with flags, or an outlier with the code it saturates to. -/
inductive KCode where
  | code (c : Nat) (fl : Fl)
  | outlier (saturated : Nat)
  deriving DecidableEq, Repr

/-- Saturate (R88). -/
def Kk.saturate (f : Kk) (neg : Bool) : Nat :=
  if neg then (if f.signed then f.maxCode + 2 ^ (f.k - 1) else 0) else f.maxCode

/-- EncodeK (R87) with the element's scale `s`. -/
def Kk.encode (f : Kk) (s : Int) (mode : Mode) (x : FV) : KCode :=
  match x with
  | .nan q => .code f.nanCode (if q then fNv else 0)
  | .inf neg => if (!neg || f.signed) && f.inf then .code (f.infCode neg) 0 else .outlier (f.saturate neg)
  | .fin neg m e =>
    if m = 0 then .code 0 0
    else
      let e := e - s
      let r := roundSig mode f.p f.emin neg m e false
      let c := (r.2.1 + (f.p - 1 : Nat) - f.emin).toNat * 2 ^ (f.p - 1) + r.1
      if r.1 = 0 then .code 0 (fNx + fUf)
      else if f.maxCode < c ∨ (neg ∧ !f.signed) then .outlier (f.saturate neg)
      else
        let tiny := isTiny mode f.p f.emin neg m e false
        .code (c + if neg then 2 ^ (f.k - 1) else 0) ((if r.2.2 then fNx else 0) + (if tiny && r.2.2 then fUf else 0))

/-! ## Formats by code (Table 3-1) -/

inductive Kind where
  | raw
  | ieee (f : Fmt)
  | int (n : Nat) (signed : Bool)
  | kk (f : Kk)
  deriving DecidableEq, Repr

/-- The kind of a legal format code, with its infinities. -/
def kindOf (code : BitVec 8) (inf : Bool) : Kind :=
  let n := code.toNat
  if n = 0x01 then .ieee fp32 else if n = 0x02 then .ieee bf16 else if n = 0x03 then .ieee fp16
  else if 0x08 ≤ n ∧ n ≤ 0x0B then .int (4 * 2 ^ (n - 8)) true
  else if 0x0C ≤ n ∧ n ≤ 0x0F then .int (4 * 2 ^ (n - 12)) false
  else if 0x21 ≤ n ∧ n ≤ 0x27 then .kk { k := 8, p := n - 0x20, signed := true, inf := inf }
  else if 0x31 ≤ n ∧ n ≤ 0x37 then .kk { k := 8, p := n - 0x30, signed := false, inf := inf }
  else if 0x41 ≤ n ∧ n ≤ 0x43 then .kk { k := 4, p := n - 0x40, signed := true, inf := inf }
  else if 0x51 ≤ n ∧ n ≤ 0x53 then .kk { k := 4, p := n - 0x50, signed := false, inf := inf }
  else .raw

/-- Multiply by 2^s. -/
def FV.scale (v : FV) (s : Int) : FV :=
  match v with
  | .fin n m e => .fin n m (e + s)
  | v => v

/-- The exact value of an element with scale `s`, which only KkPp formats apply (R85). Raw bytes have no value. -/
def Kind.decode (k : Kind) (s : Int) (w : Nat) : FV :=
  match k with
  | .raw => .fin false (w % 256) 0
  | .ieee f => f.decode false w
  | .int n sg => ofInteger (if sg && w.testBit (n - 1) then (w % 2 ^ n : Nat) - (2 ^ n : Nat) else (w % 2 ^ n : Nat))
  | .kk f => (f.decode w).scale s

/-! ## Exact pairs (R96) -/

/-- Round to FP32 in a mode without ftz. -/
def rnd32 (mode : Mode) (v : FV) : Nat × Fl := fp32.roundFV mode false v

def val32 (w : Nat) : FV := fp32.decode false w

/-- Whether a pattern is a NaN or an infinity of FP32. -/
def special32 (w : Nat) : Bool := (val32 w).isNan || (val32 w).isInf

/-- An exactly zero error is +0. -/
def plusZero (v : FV) : FV := if v.isZero then .fin false 0 0 else v

/-- The exact difference of two values. -/
def exactSub (a b : FV) : FV := (addFV 0 a b.negate).1

/-- TwoSum (R96). In a directed mode the error of two values far apart has more digits than FP32 holds: the pseudocode
gives no FP32 value for it, and the one stored is free (log 29). -/
def twoSum (mode : Mode) (a b : Nat) : Nat × Nat × Fl :=
  let t := addFV mode (val32 a) (val32 b)
  let s := rnd32 mode t.1
  let fl := t.2 ||| s.2
  if special32 s.1 || special32 a || special32 b then (s.1, fp32.nan, fl)
  else
    let e := rnd32 mode (plusZero (exactSub t.1 (val32 s.1)))
    (s.1, if e.2 &&& fNx = 0 then e.1 else (Config.sumError mode a b).toNat, fl)

/-- TwoProduct (R96). -/
def twoProduct (mode : Mode) (a b : Nat) : Nat × Nat × Fl :=
  let t := mulFV (val32 a) (val32 b)
  let s := rnd32 mode t.1
  let fl := t.2 ||| s.2
  if special32 s.1 || special32 a || special32 b then (s.1, fp32.nan, fl)
  else
    let e := rnd32 mode (plusZero (exactSub t.1 (val32 s.1)))
    (s.1, e.1, fl ||| (if e.2 &&& fNx ≠ 0 then fPinx else 0))

/-- FastTwoSum: its three roundings, with the flags of s. -/
def fastTwoSum (mode : Mode) (a b : Nat) : Nat × Nat × Fl :=
  let t := addFV mode (val32 a) (val32 b)
  let s := rnd32 mode t.1
  let z := rnd32 mode (addFV mode (val32 s.1) (val32 a).negate).1
  let e := rnd32 mode (addFV mode (val32 b) (val32 z.1).negate).1
  (s.1, if (val32 e.1).isZero then 0 else e.1, t.2 ||| s.2)

end Sys2Proof.Machine
end

