-- ==== Sys2Proof/Machine/Caches.lean ====
section
/-! DEFINITION. The scalar cache of the core (08 R233). -/

namespace Sys2Proof.Machine

/-! ## Scalar cache: 64 sets of 8 ways; most recently used lines first (08 R233) -/

def scSet (line : Nat) : Nat := line / 64 % 64

/-- The line in the cache. -/
def scFind (l : List ScLine) (line : Nat) : Option ScLine := l.find? (·.line == line)

/-- Put a line in front and drop the least recently used one of its set beyond eight. -/
def scFill (l : List ScLine) (n : ScLine) : List ScLine :=
  let l := l.filter (·.line != n.line)
  let same := l.filter fun e => scSet e.line == scSet n.line
  let victims := (same.drop 7).map (·.line)
  n :: l.filter fun e => !victims.contains e.line

/-- Bytes of a cached line with a store's bytes merged in: a store updates a line it hits (08 R233). -/
def scStore (l : List ScLine) (p : Part) : List ScLine :=
  l.map fun e =>
    { e with bytes := (List.range 64).map fun i => (p.at? (e.line + i)).getD (e.bytes[i]?.getD 0) }

/-- Drop the lines that hold any of `n` bytes from `a` (08 R262). -/
def scInvalidate (l : List ScLine) (a n : Nat) : List ScLine :=
  l.filter fun e => decide (n = 0 ∨ a + n ≤ e.line ∨ e.line + 64 ≤ a)

end Sys2Proof.Machine
end

