-- ==== Sys2Proof/Machine/Access.lean ====
section
/-! DEFINITION. Slot T: address and handle instructions, loads and stores, ports, patterns, cache control and copies into a and h (08_memory_access_class.md). Each access is checked as R227 orders, a load reads its bytes and writes its register when LOAD_RETURN completes it (log 7). -/

namespace Sys2Proof.Machine

def canRead (h : QWord) : Bool := hRd h
def canWrite (h : QWord) : Bool := hWr h
def anyRight (_ : QWord) : Bool := true

/-- Signed offset a(a) + imm. -/
def State.offset (s : State) (a : BitVec 4) (i : Int) : Int := (s.c.ra a).toInt + i

/-- A counter that would pass 63 stalls the stream (10 R319). -/
def State.counted (s : State) (k : Ctr) (f : State → State) : State := if 63 ≤ s.count k then s.stall else f s

/-! ## Address and handle instructions (R243-R246) -/

def aluA (f : DWord → DWord → DWord) (d a : BitVec 4) (b : DWord) (s : State) : Ans := .next (s.wa d (f (s.c.ra a) b))

def execAdda (d a b : BitVec 4) (s : State) : Ans := aluA (· + ·) d a (s.c.ra b) s
def execSuba (d a b : BitVec 4) (s : State) : Ans := aluA (· - ·) d a (s.c.ra b) s
def execShla (d a b : BitVec 4) (s : State) : Ans := aluA (fun x y => x <<< (y.toNat % 64)) d a (s.c.ra b) s
def execAddaImmediate (d a : BitVec 4) (i : BitVec 16) (s : State) : Ans :=
  aluA (· + ·) d a (BitVec.ofInt 64 (immT i s.lat.ext)) s
def execSubaImmediate (d a : BitVec 4) (i : BitVec 16) (s : State) : Ans :=
  aluA (· - ·) d a (BitVec.ofInt 64 (immT i s.lat.ext)) s
def execShlaImmediate (d a : BitVec 4) (n : BitVec 6) (s : State) : Ans :=
  aluA (fun x y => x <<< y.toNat) d a (n.setWidth 64) s
def execLia (d : BitVec 4) (i : BitVec 21) (s : State) : Ans :=
  .next (s.wa d (BitVec.ofInt 64 (immT i s.lat.ext)))

/-- The handle that `hder` derives, or its fault (R245); the offset of a fault report is O. -/
def derive (h : QWord) (o l : DWord) (keep : BitVec 5) : Except Flt QWord :=
  let off := o.toInt
  -- keep is rd, wr, at, dv, co from bit 4 down; the handle has co, dv, at, wr, rd from bit 119 up
  let rights := (if hCo h && keep.getLsbD 0 then 1 else 0) + (if hDv h && keep.getLsbD 1 then 2 else 0) +
    (if hAt h && keep.getLsbD 2 then 4 else 0) + (if hWr h && keep.getLsbD 3 then 8 else 0) +
    (if hRd h && keep.getLsbD 4 then 16 else 0)
  if hClass h = 0 then .error { code := 0x05, reason := 0, off := off }
  else if 5 ≤ hClass h then .error { code := 0x08, reason := 0, off := off }
  else if !hDv h then .error { code := 0x07, reason := 0, off := off }
  else if hClass h = 1 then
    let f := fld o.toNat 0 23
    if hLen h < f + l.toNat then .error { code := 0x06, reason := 1, off := off }
    else .ok (mkHandle 1 (hObj h) ((fld (hBase h) 23 16 &&& fld o.toNat 23 16) * 2 ^ 23 + (fld (hBase h) 0 23 + f) % 2 ^ 23) l.toNat rights)
  else if hLen h < o.toNat + l.toNat then .error { code := 0x06, reason := 1, off := off }
  else .ok (mkHandle (hClass h) (hObj h) (hBase h + o.toNat) l.toNat rights)

def execHder (d h o l : BitVec 4) (k : BitVec 5) (s : State) : Ans :=
  match derive (s.c.rh h) (s.c.ra o) (s.c.ra l) k with
  | .error f => .next (s.fault f h o)
  | .ok n => .next (s.wh d n)

def execHnul (d : BitVec 4) (s : State) : Ans := .next (s.wh d 0)

/-! ## Crown access on path L -/

/-- Checks of a crown access of slot T; answers the logical crown address. -/
def State.crownCheck (s : State) (h : BitVec 4) (o : Int) (n align : Nat) (right : QWord → Bool) : Except Flt Nat :=
  match checkHandle s.logical (s.c.rh h) [2] right o with
  | some f => .error f
  | none => crownElem (s.c.rh h) o n align

/-- First bad granule of a read as an offset from the first byte. -/
def badOffset (addr : Nat) (bad : List Nat) : Nat :=
  match bad with
  | [] => 0
  | g :: _ => g - addr

/-- The report of a consumed granule: R228's fields with reason 0. -/
def consumed (o : Int) : Flt := { code := 0x10, reason := 0, off := o }

/-- Cut bytes into 128-byte entries. -/
def entriesOf (bs : List Byte) : List (BitVec 1024) :=
  (List.range (bs.length / 128)).map fun i => BitVec.ofNat 1024 (bytesNat ((bs.drop (128 * i)).take 128))

/-- The register write of a load from its bytes: x(d) whole; v(d) lanes 0 to N-1, other lanes keeping their values; h(d), the null
handle where the unit's tag is clear (R247); entries of a pattern bank (R261). -/
def LoadForm.write (w : LoadForm) (bs : List Byte) (tag : Bool) : RegWrite :=
  match w with
  | .x d signed =>
    .x d (if signed then (BitVec.ofNat (8 * bs.length) (bytesNat bs)).signExtend 64 else BitVec.ofNat 64 (bytesNat bs))
  | .v d => .v d (BitVec.ofNat 4096 (2 ^ (8 * bs.length) - 1)) (BitVec.ofNat 4096 (bytesNat bs))
  | .h d => .h d (BitVec.allOnes 128) (if tag then BitVec.ofNat 128 (bytesNat bs) else 0)
  | .pat e second => .pat e second (entriesOf bs)

/-- A read consumes a bad granule: inside a segment the bead rewinds when the read returns, `w` telling what it would have written (11 R360,
Table 11-10), otherwise trap 0x10 is its execution fault (R235). -/
def State.consumeAt (s : State) (due : Nat) (ctr : Ctr) (info : DWord) (w : RegWrite) : State :=
  if s.c.segOpen then s.launch .l ctr due none (.load w true info 0) else s.raise 0x10 info

/-- The same of a read from crown that gives the operation its own parameters. -/
def State.consume (s : State) (info : DWord) : State := s.consumeAt (s.coreAfter 5) .none info .none

/-- The checks of a crown access whose offset itself must be aligned. -/
def State.offsetCrown (s : State) (h : BitVec 4) (o : Int) (n align : Nat) (right : QWord → Bool) : Except Flt Nat :=
  match checkHandle s.logical (s.c.rh h) [2] right o with
  | some f => .error f
  | none => offsetElem (s.c.rh h) o n align

/-- Launch a load unless a granule of it was bad. -/
def State.launchLoad (s : State) (due : Nat) (bad : List Nat) (info : DWord) (w : Work) : State :=
  if bad.isEmpty then s.launch .l .ld due none w else s.consumeAt due .ld info (match w with
    | .fetch f ranges _ _ _ => f.write (ranges.flatMap fun r => List.replicate r.2 0) false
    | .load r _ _ _ => r
    | _ => .none)

/-- Launch a load whose `n` bytes lie at `addr`; it returns `lat` core cycles on. -/
def State.load (s : State) (addr n lat : Nat) (f : Flt) (h a : BitVec 4) (w : LoadForm) : State :=
  let r := s.eccRead .l addr n
  r.1.launchLoad (s.coreAfter lat) r.2 (accessInfo { f with off := f.off + badOffset addr r.2 } h a) (.fetch w [(addr, n)] [] false none)

/-- A crown read waits until every granule it touches is full (R240). -/
def State.whenFull (s : State) (addr n : Nat) (f : State → State) : State :=
  if s.mem.isFull addr n then f s.unwatch else s.stallWatched

def State.crownLoad (s : State) (h a : BitVec 4) (o : Int) (n align : Nat) (w : LoadForm) : State :=
  match s.crownCheck h o n align canRead with
  | .error f => s.fault f h a
  | .ok la => s.counted .ld fun s => s.whenFull (s.crownAt la) n fun s => s.load (s.crownAt la) n 5 (consumed o) h a w

/-- A crown store: final after the strike hold (R236). -/
def State.crownStore (s : State) (h a : BitVec 4) (o : Int) (align : Nat) (tag : Bool) (bs : List Byte) : State :=
  match s.crownCheck h o bs.length align canWrite with
  | .error f => s.fault f h a
  | .ok la => s.counted .st fun s =>
    s.launch .l .st (s.now + Config.strikeHold) none
      (.write [{ addr := s.crownAt la, bytes := bs }] s.lat.iss.cbmap tag [])

/-- The register that a load writes. -/
def LoadForm.reg (w : LoadForm) : Reg :=
  match w with
  | .x d _ => .x d
  | .v d => .v d
  | .h d => .h d
  | .pat _ _ => .pattern

/-- The tag of a 16-byte unit as an operation in hand sees it: its bead's own last write on path L that touches the unit decides
(R247, R309). -/
def State.tagFor (s : State) (o : Out) (u : Nat) : Bool :=
  match s.outs.reverse.findSome? fun x =>
      if x.bank == o.bank && x.path == o.path && decide (x.id < o.id) then
        match x.work with
        | .write ps _ t _ => if ps.any fun p => (units16 p.addr p.bytes.length).contains u then some t else none
        | _ => none
      else none with
  | some t => t
  | none => s.mem.tags.contains u

/-- The register write of a load that performs now. -/
def State.fetched (s : State) (o : Out) (w : LoadForm) (ranges : List (Nat × Nat)) (held : List (Option Byte)) : RegWrite :=
  let bs := ranges.flatMap fun r => (List.range r.2).map fun i => s.byteFor o (r.1 + i)
  w.write (bs.mapIdx fun i b => ((held[i]?).join).getD b) (s.tagFor o ((ranges.headD (0, 0)).1))

/-- The low `n` bytes of a register as a store takes it: the file as at the issue of the bundle (R238). -/
def State.storeX (s : State) (x : BitVec 5) (n : Nat) : List Byte := natBytes n (s.lat.iss.rx x).toNat

def State.storeV (s : State) (v : BitVec 6) (n : Nat) : List Byte := natBytes n (s.lat.iss.rv v.toNat).toNat

/-- The issue checks of a v field: a port code (trap 0x01), the width code 11 (trap 0x01), a lent bank (trap 0x02)
(R239, R242). -/
def State.vField (s : State) (v : BitVec 6) (w : BitVec 2) (f : State → State) : State :=
  if 48 ≤ v.toNat ∨ w = 3 then s.raiseIssue 0x01
  else if lentV' s.lat.iss.lent v.toNat then s.raiseIssue 0x02
  else f s
where lentV' (lent : BitVec 6) (r : Nat) : Bool := lent.getLsbD (r % 6)

def execHld (h b a : BitVec 4) (i : BitVec 13) (s : State) : Ans :=
  let o := s.offset a (16 * immT i s.lat.ext)
  match s.crownCheck b o 16 16 canRead with
  | .error f => .next (s.fault f b a)
  | .ok la => .next (s.counted .ld fun s => s.whenFull (s.crownAt la) 16 fun s =>
      s.load (s.crownAt la) 16 5 (consumed o) b a (.h h))

def execHst (h b a : BitVec 4) (i : BitVec 13) (s : State) : Ans :=
  .next (s.crownStore b a (s.offset a (16 * immT i s.lat.ext)) 16 true (natBytes 16 (s.c.rh h).toNat))

def execCld (x : BitVec 5) (h a : BitVec 4) (z : BitVec 2) (i : BitVec 9) (s : State) : Ans :=
  .next (s.crownLoad h a (s.offset a (sizeOf z * immT i s.lat.ext)) (sizeOf z) (sizeOf z) (.x x false))
def execCldVector (v : BitVec 6) (h a : BitVec 4) (w : BitVec 2) (i : BitVec 8) (s : State) : Ans :=
  .next (s.vField v w fun s => s.crownLoad h a (s.offset a (32 * immT i s.lat.ext)) (4 * lanesOf w) 32 (.v v))
def execCst (x : BitVec 5) (h a : BitVec 4) (z : BitVec 2) (i : BitVec 9) (s : State) : Ans :=
  .next (s.crownStore h a (s.offset a (sizeOf z * immT i s.lat.ext)) (sizeOf z) false (s.storeX x (sizeOf z)))
def execCstVector (v : BitVec 6) (h a : BitVec 4) (w : BitVec 2) (i : BitVec 8) (s : State) : Ans :=
  .next (s.vField v w fun s =>
    s.crownStore h a (s.offset a (32 * immT i s.lat.ext)) 32 false (s.storeV v (4 * lanesOf w)))

/-! ## Tower access (R253) -/

/-- The checks of a tower access: the handle, then each tower in lane order. Answers the tower offset. -/
def State.towerCheck (s : State) (h : BitVec 4) (o : Int) (towers : Nat) (right : QWord → Bool) : Except Flt (List Nat) :=
  match checkHandle s.logical (s.c.rh h) [1] right o with
  | some f => .error f
  | none => resolveAll (fun t => towerElem (s.c.rh h) t o 32 32) (List.range towers)

/-- Cell addresses of the 32 bytes of each tower. -/
def State.towerAddrs (s : State) (offs : List Nat) : List Nat := offs.mapIdx fun t f => s.towerAt t f

def execTvld (v : BitVec 6) (h a : BitVec 4) (w : BitVec 2) (i : BitVec 9) (s : State) : Ans :=
  .next (s.vField v w fun s =>
    let o := s.offset a (32 * immT i s.lat.ext)
    match s.towerCheck h o (lanesOf w / 8) canRead with
    | .error f => s.fault f h a
    | .ok offs => s.counted .ld fun s =>
      let as := s.towerAddrs offs
      let r := as.foldl (fun (r : State × List Nat) p => let q := r.1.eccRead .l p 32; (q.1, r.2 ++ q.2)) (s, [])
      let lat := if (List.range (lanesOf w / 8)).any fun t => s.core.tower t != t then 10 else 8
      r.1.launchLoad (s.coreAfter lat) r.2 (accessInfo (consumed o) h a) (.fetch (.v v) (as.map fun p => (p, 32)) [] false none))

def execTvst (v : BitVec 6) (h a : BitVec 4) (w : BitVec 2) (i : BitVec 9) (s : State) : Ans :=
  .next (s.vField v w fun s =>
    let o := s.offset a (32 * immT i s.lat.ext)
    match s.towerCheck h o (lanesOf w / 8) canWrite with
    | .error f => s.fault f h a
    | .ok offs => s.counted .st fun s =>
      let bs := s.storeV v (4 * lanesOf w)
      let ps := (s.towerAddrs offs).mapIdx fun t p => ({ addr := p, bytes := (bs.drop (32 * t)).take 32 } : Part)
      s.launch .l .st (s.now + Config.strikeHold) none (.write ps s.lat.iss.cbmap false []))

/-! ## Global loads and stores (R248-R251) -/

/-- The checks of a K or G access of elements of `n` bytes at offsets. -/
def State.globalCheck (s : State) (h : BitVec 4) (offs : List Int) (n align : Nat) (right : QWord → Bool) :
    Except Flt (List (Nat × Nat)) :=
  match checkHandle s.logical (s.c.rh h) [3, 4] right (offs.headD 0) with
  | some f => .error f
  | none => resolveAll (fun o => s.hub.globalElem (s.c.rh h) o n align) offs

/-- The checks of a K or G access whose offset itself, and not its address, must be aligned (09 R285, R286). -/
def State.offsetGlobal (s : State) (h : BitVec 4) (o : Int) (n align : Nat) (right : QWord → Bool) : Except Flt (List (Nat × Nat)) :=
  match checkHandle s.logical (s.c.rh h) [3, 4] right o with
  | some f => .error f
  | none => if o % align ≠ 0 then .error { code := 0x04, reason := 0, off := o } else s.globalCheck h [o] n 1 right

def State.board (s : State) : Nat := boardOf s.core.phys

/-- The line of the scalar cache that a scalar load of an element hits (R233). -/
def State.scHit (s : State) (scalar : Bool) (ge : Nat × Nat) : Option ScLine :=
  if scalar && s.c.scache && oCached ge.2 then scFind s.core.scache (ge.1 / 64 * 64) else none

/-- The bytes of an element that the hold buffer gives (11 R358). -/
def State.heldBytes (s : State) (g n : Nat) : List (Option Byte) := (List.range n).map fun i => heldAt? s.q.held (g + i)

/-- Latency of a global read that misses the scalar cache: 4 when the hold buffer gives all its bytes, else Table 8-7. -/
def State.loadLatency (s : State) (ge : Nat × Nat) (n : Nat) : Nat :=
  if (s.heldBytes ge.1 n).all (·.isSome) then 4
  else globalLatency s.hub s.board (readHome s.board ge) ((lines64 (readHome s.board ge) n).all s.hub.bcHit)

/-- A scalar load that hits takes its value from the line, which moves to the front (R233; 10 R305); it performs after earlier loads of its
bytes (10 R309). -/
def State.scLoad (s : State) (w : LoadForm) (l : ScLine) (ge : Nat × Nat) (n : Nat) : State :=
  let bs := (List.range n).map fun i => (heldAt? s.q.held (ge.1 + i)).getD (l.bytes[ge.1 % 64 + i]?.getD 0)
  { s with core := { s.core with scache := scFill s.core.scache l } }.launch .l .ld (s.coreAfter 4) none
    (.fetch w [(readHome s.board ge, n)] (bs.map some) false none)

/-- The bad granules of an element of a global load: those of which the hold buffer does not give every byte that is read (11 R358). -/
def State.unheldBad (s : State) (ge : Nat × Nat) (n : Nat) (bad : List Nat) : List Nat :=
  let home := readHome s.board ge
  bad.filter fun g => (List.range n).any fun i => (home + i) / granuleSize home * granuleSize home == g && (heldAt? s.q.held (ge.1 + i)).isNone

/-- Launch a global load of elements (R236, R249-R251). A scalar load that misses brings the line of a cacheable extent into the
scalar cache. -/
def State.globalLoad (s : State) (scalar : Bool) (h a : BitVec 4) (offs : List Int) (n align : Nat) (w : LoadForm) : State :=
  match s.globalCheck h offs n align canRead with
  | .error f => s.fault f h a
  | .ok ges => s.counted .ld fun s =>
    let ge0 := ges.headD (0, 0)
    match s.scHit scalar ge0 with
    | some l => s.scLoad w l ge0 n
    | none =>
      let lat := ges.foldl (fun m ge => max m (s.loadLatency ge n)) 0
      let lines := (ges.map fun ge => ge.1 / 64).eraseDups.length
      let r := (ges.zip offs).foldl (fun (r : State × List Int) (ge, o) =>
        let q := r.1.eccRead .l (readHome s.board ge) n
        (q.1, r.2 ++ (s.unheldBad ge n q.2).map fun g => o + (g - readHome s.board ge : Nat))) (s, [])
      let line := ge0.1 / 64 * 64
      let fill := if scalar && s.c.scache && oCached ge0.2 then some (line, readHome s.board (line, ge0.2)) else none
      r.1.launchLoad (s.coreAfter (lat + (if ges.length = 1 then 0 else (lines - 1) / 8))) (r.2.map (·.toNat))
        (accessInfo (consumed (r.2.headD 0)) h a)
        (.fetch w (ges.map fun ge => (readHome s.board ge, n)) (ges.flatMap fun ge => s.heldBytes ge.1 n) (oCached ge0.2) fill)

/-- Merge bytes into the hold buffer; none when it would need a 257th entry (11 R358). -/
def holdMerge (l : List Held) (p : Part) : Option (List Held) :=
  let gs := if p.bytes.isEmpty then [] else
    (List.range ((p.addr + p.bytes.length - 1) / 32 - p.addr / 32 + 1)).map fun i => (p.addr / 32 + i) * 32
  let merge (e : Held) : Held :=
    { e with bytes := (List.range 32).map fun i => ((p.at? (e.addr + i)).map some).getD ((e.bytes[i]?).join) }
  let new := gs.filter fun g => !l.any (·.addr == g)
  if 256 < l.length + new.length then none
  else some ((l.map merge) ++ new.map fun g => merge { addr := g, bytes := List.replicate 32 none })

def State.setHeld (s : State) (l : List Held) : State :=
  { s with q := { s.q with held := l }, c := { s.c with seg := putField s.c.seg 16 9 l.length } }

/-- Trap 0x11 with a reason (11 R357). -/
def State.segFault (s : State) (reason : Nat) (h : BitVec 4) : State := s.raise 0x11 (segInfo reason h)

/-- Stores of elements in order (R248-R251): outside a segment they leave after the strike hold; inside one they are
held (11 R357, R358). -/
def State.globalStore (s : State) (h a : BitVec 4) (offs : List Int) (n align : Nat) (bs : List Byte) : State :=
  match s.globalCheck h offs n align canWrite with
  | .error f => s.fault f h a
  | .ok ges =>
    let ps := (ges.mapIdx fun i ge => (writeHomes ge).map fun g => ({ addr := g, bytes := (bs.drop (n * i)).take n } : Part)).flatten
    if ges.any fun ge => s.hub.isTelemetry ge.1 n then s.fault { code := 0x07, reason := 0, off := offs.headD 0 } h a
    else if s.c.segOpen then
      if ges.any fun ge => !deviceHalf ge.1 then s.segFault 2 h
      else if !offs.all fun o => s.c.inSegWindow (s.c.rh h) o n then s.segFault 0 h
      else
        let qs := ges.mapIdx fun i ge => ({ addr := ge.1, bytes := (bs.drop (n * i)).take n } : Part)
        match qs.foldl (fun l p => l.bind fun l => holdMerge l p) (some s.q.held) with
        | none => s.segFault 1 h
        | some l => s.setHeld l
    else s.counted .st fun s =>
      let due := ges.foldl (fun m ge => max m (storeLatency s.hub s.board ge.1)) 0
      let lock := ges.foldl (fun m ge => max m (lockTrip ge)) 0
      { s with core := { s.core with scache := ps.foldl scStore s.core.scache } }.launch .l .st (s.now + due + lock) none (.gstore ps lock)

def execLd (x : BitVec 5) (h a : BitVec 4) (z : BitVec 2) (i : BitVec 10) (s : State) : Ans :=
  .next (s.globalLoad true h a [s.offset a (sizeOf z * immT i s.lat.ext)] (sizeOf z) (sizeOf z) (.x x true))
def execLdn (x : BitVec 5) (h a : BitVec 4) (z : BitVec 2) (i : BitVec 10) (s : State) : Ans :=
  .next (s.globalLoad true h a [s.offset a (sizeOf z * immT i s.lat.ext)] (sizeOf z) (sizeOf z) (.x x false))
def execSt (x : BitVec 5) (h a : BitVec 4) (z : BitVec 2) (i : BitVec 10) (s : State) : Ans :=
  .next (s.globalStore h a [s.offset a (sizeOf z * immT i s.lat.ext)] (sizeOf z) (sizeOf z) (s.storeX x (sizeOf z)))

def execVld (v : BitVec 6) (h a : BitVec 4) (w : BitVec 2) (i : BitVec 9) (s : State) : Ans :=
  .next (s.vField v w fun s => s.globalLoad false h a [s.offset a (32 * immT i s.lat.ext)] (4 * lanesOf w) 32 (.v v))
def execVst (v : BitVec 6) (h a : BitVec 4) (w : BitVec 2) (i : BitVec 9) (s : State) : Ans :=
  .next (s.vField v w fun s =>
    s.globalStore h a [s.offset a (32 * immT i s.lat.ext)] (4 * lanesOf w) 32 (s.storeV v (4 * lanesOf w)))

/-- Offsets of a strided access (R250). -/
def State.strided (s : State) (a st : BitVec 4) (n : Nat) : List Int :=
  (List.range n).map fun (l : Nat) => (s.c.ra a).toInt + (l : Int) * (s.c.ra st).toInt

def execVlds (v : BitVec 6) (h a st : BitVec 4) (w : BitVec 2) (s : State) : Ans :=
  .next (s.vField v w fun s => s.globalLoad false h a (s.strided a st (lanesOf w)) 4 4 (.v v))
def execVsts (v : BitVec 6) (h a st : BitVec 4) (w : BitVec 2) (s : State) : Ans :=
  .next (s.vField v w fun s => s.globalStore h a (s.strided a st (lanesOf w)) 4 4 (s.storeV v (4 * lanesOf w)))

/-- The index vector of a gather or scatter, read from crown through hi at a(ai) (R251): N signed 32-bit offsets. Both handles are
checked before any element, hi's first (R227). A consumed granule of the vector is reported as the read's own (R235). -/
def State.indexed (s : State) (h j a k : BitVec 4) (right : QWord → Bool) (n : Nat) (f : State → List Int → State) : State :=
  let o := s.offset k 0
  match checkHandle s.logical (s.c.rh j) [2] canRead o with
  | some e => s.fault e j k
  | none => match checkHandle s.logical (s.c.rh h) [3, 4] right (s.offset a 0) with
  | some e => s.fault e h a
  | none => match offsetElem (s.c.rh j) o (4 * n) 32 with
  | .error e => s.fault e j k
  | .ok la => s.whenFull (s.crownAt la) (4 * n) fun s =>
    let bs := s.bytes .l (s.crownAt la) (4 * n)
    let r := s.eccRead .l (s.crownAt la) (4 * n)
    if !r.2.isEmpty then r.1.consume (accessInfo (consumed (o + badOffset (s.crownAt la) r.2)) j k)
    else f r.1 ((List.range n).map fun l => (BitVec.ofNat 32 (bytesNat ((bs.drop (4 * l)).take 4))).toInt)

def execVgth (v : BitVec 6) (h a j k : BitVec 4) (w : BitVec 2) (s : State) : Ans :=
  .next (s.vField v w fun s => s.indexed h j a k canRead (lanesOf w) fun s ix =>
    s.globalLoad false h a (ix.map fun x => (s.c.ra a).toInt + x) 4 4 (.v v))
def execVsct (v : BitVec 6) (h a j k : BitVec 4) (w : BitVec 2) (s : State) : Ans :=
  .next (s.vField v w fun s => s.indexed h j a k canWrite (lanesOf w) fun s ix =>
    s.globalStore h a (ix.map fun x => (s.c.ra a).toInt + x) 4 4 (s.storeV v (4 * lanesOf w)))

/-! ## Ports (R254-R260) -/

/-- Fields of a port parameter set (Table 8-9). -/
def PSet.byte (p : PSet) (i : Nat) : Nat := fld p.record.toNat (8 * i) 8
def PSet.base (p : PSet) : Nat := fld p.record.toNat 0 32
def PSet.isWrite (p : PSet) : Bool := p.record.getLsbD 32
def PSet.cvt (p : PSet) : Bool := p.record.getLsbD 33
def PSet.skew (p : PSet) : Bool := p.record.getLsbD 34
def PSet.fe (p : PSet) : Nat := fld p.record.toNat 35 2
def PSet.levels (p : PSet) : Nat := p.byte 5
def PSet.skl (p : PSet) : Nat := p.byte 6
def PSet.cnt (p : PSet) (j : Nat) : Nat := fld p.record.toNat (64 + 16 * j) 16
def PSet.stride (p : PSet) (j : Nat) : Int := (fbv 32 (128 + 32 * j) p.record.toNat).toInt

/-- Vectors of the walk. -/
def PSet.total (p : PSet) : Nat := ((List.range p.levels).map p.cnt).foldl (· * ·) 1

/-- Index of level `j` at vector `n` of the walk, level 0 innermost (R256). -/
def PSet.idx (p : PSet) (n j : Nat) : Nat := n / ((List.range j).map p.cnt).foldl (· * ·) 1 % p.cnt j

/-- Logical crown address of vector `n` (R256). -/
def PSet.addr (p : PSet) (n : Nat) : Int :=
  p.base + ((List.range p.levels).map fun j => (p.idx n j : Int) * p.stride j).foldl (· + ·) 0

/-- Reserved bytes and field limits of a set (R255 step 1). -/
def PSet.fieldsOk (p : PSet) : Bool :=
  decide (p.base < 2 ^ 23) && decide (p.byte 4 < 32) && decide (p.fe ≠ 3) && decide (1 ≤ p.levels ∧ p.levels ≤ 4) &&
  (if p.skew then !p.cvt && decide (p.skl < p.levels) else decide (p.skl < p.levels)) && p.byte 7 == 0 &&
  (List.range 4).all (fun j => if j < p.levels then decide (1 ≤ p.cnt j) else p.cnt j == 0 && p.stride j == 0) &&
  fld p.record.toNat 256 256 == 0

/-- The first vector of the walk that leaves a strip or the window (R255 step 4), searching from vector `v`. -/
def walkFault (p : PSet) (h : QWord) (size : Nat) : Nat → Nat → Option Flt
  | 0, _ => none
  | k + 1, v =>
    let c := p.addr v
    let o := c - hBase h
    if 0 ≤ c ∧ (c.fdiv (2 ^ 19) ≠ (c + size - 1).fdiv (2 ^ 19) ∨ (2 ^ 23 : Int) < c + size) then
      some { code := 0x06, reason := 2, off := o + pastStrip c }
    else if !inWindow h o size then some { code := 0x06, reason := 1, off := firstOutside h o }
    else walkFault p h size k (v + 1)

/-- Steps 1 to 4 of R255. -/
def walkCheck (p : PSet) (h : QWord) (o : Int) (size : Nat) : Option Flt :=
  let al : Nat := if p.skew then 512 else 32
  if !p.fieldsOk then some { code := 0x06, reason := 4, off := o }
  else if !(if p.isWrite then hWr h else hRd h) then some { code := 0x07, reason := 0, off := o }
  else if !(p.base % al == 0 && (List.range p.levels).all fun j => p.stride j % al == 0) then some { code := 0x04, reason := 0, off := o }
  else walkFault p h size p.total 0

/-- Format register of a logical strip, in the context as at issue. -/
def Ctx.cfOf (c : Ctx) (strip : Nat) : DWord := c.cf.toList[strip]?.getD 0

/-- Bytes of a vector of the walk: 512, or 16 z under cvt with z of the base strip's format (R255, R256). -/
def PSet.vectorBytes (p : PSet) (c : Ctx) : Nat :=
  if p.cvt then 16 * fmtBits ((c.cfOf (p.base / 2 ^ 19)).setWidth 8) else 512

def execPcfg (p : BitVec 3) (h a : BitVec 4) (s : State) : Ans :=
  let o := s.offset a 0
  match s.offsetCrown h o 64 64 canRead with
  | .error f => .next (s.fault f h a)
  | .ok la => .next (s.counted .ld fun s => s.whenFull (s.crownAt la) 64 fun s =>
      let bs := s.bytes .l (s.crownAt la) 64
      let r := s.eccRead .l (s.crownAt la) 64
      let set : PSet := { record := BitVec.ofNat 512 (bytesNat bs), obj := BitVec.ofNat 23 (hObj (s.c.rh h)) }
      let size := set.vectorBytes s.lat.iss
      if !r.2.isEmpty then r.1.consume (accessInfo (consumed (o + badOffset (s.crownAt la) r.2)) h a)
      else match walkCheck set (s.c.rh h) o size with
        | some f => r.1.fault f h a
        | none =>
          let s := r.1.launch .l .ld (s.coreAfter 5) none (.load .none false 0 0)
          { s with c := { s.c with ps := s.c.ps.set p.toNat { set with size := size } p.isLt } })

/-- sr.einfo of trap 0x14 for ports (R258, R259). -/
def portInfo (reason : Nat) (k : BitVec 3) : DWord := BitVec.ofNat 64 (reason + k.toNat * 16)

/-- The binding takes effect when slot V reaches the next bundle (R258). -/
def State.setPort (s : State) (k : BitVec 3) (p : Option Port) : State := s.shadow 1 (.port k p)

def execPgo (k p : BitVec 3) (s : State) : Ans :=
  let set := s.c.ps.get p.toFin
  let cf := s.lat.iss.cfOf (set.base / 2 ^ 19)
  if set.size = 0 then .next (s.raise 0x14 (portInfo 1 k))
  else if set.cvt && 16 * fmtBits (cf.setWidth 8) != set.size then .next (s.raise 0x14 (portInfo 5 k))
  else .next (s.setPort k (some { set := set, pos := 0, cf := cf }))

def execPstop (k : BitVec 3) (s : State) : Ans := .next (s.setPort k none)

/-! ## Pattern loads and cache control (R261-R263) -/

/-- `pld` (R261): the inactive bank as it stands now, after a `vpsw` of its own bundle; it does not begin while an earlier
bundle's `vpsw` waits in slot V (05 R163). The range is one element, and the count is checked after it (DEDUCED, log 50). -/
def execPld (h a : BitVec 4) (e n : BitVec 6) (s : State) : Ans :=
  let count := n.toNat + 1
  let o := s.offset a 0
  let swap := (s.q.ops ++ s.q.vq).any fun t => t.instr == .vpsw && t.seq == s.lat.seq
  if s.q.vq.any fun t => t.instr == .vpsw && decide (t.seq < s.lat.seq) then .next s.stall
  else match s.offsetCrown h o (128 * count) 32 canRead with
  | .error f => .next (s.fault f h a)
  | .ok la =>
    if 64 < e.toNat + count then .next (s.fault { code := 0x06, reason := 4, off := o } h a)
    else .next (s.counted .ld fun s => s.whenFull (s.crownAt la) (128 * count) fun s =>
      s.load (s.crownAt la) (128 * count) 5 (consumed o) h a (.pat e.toNat ((!s.c.patActive) != swap)))

def execScinv (s : State) : Ans := .next { s with core := { s.core with scache := [] } }

/-- Only the null and class checks apply; the range is object offsets a(ao) to a(ao) + a(al) - 1, a(al) being unsigned (DEDUCED, log 50). A range that
does not translate names no line. -/
def execScinvRange (h o l : BitVec 4) (s : State) : Ans :=
  match checkHandle s.logical (s.c.rh h) [3, 4] anyRight (s.offset o 0) with
  | some f => .next (s.fault f h o)
  | none =>
    match s.hub.object (hObj (s.c.rh h)) with
    | none => .next s
    | some e =>
      let g : Int := oBase e + hBase (s.c.rh h) + s.offset o 0
      .next { s with core := { s.core with scache := scInvalidate s.core.scache g.toNat ((s.c.ra l).toNat + min g 0).toNat } }

/-- The lines of `n` bytes of a home on a board, with the cycle in which each reaches its stack: after the hold and the bridges to the
board, one is examined in each core cycle, and it lands 80 cycles later (R263). -/
def State.flushTimes (s : State) (n g : Nat) : List (Nat × Nat) :=
  if bcHome g then (lines64 g n).mapIdx fun i l => (l, s.coreAfter (12 * bridges s.board (homeBoard g) + i + 80) + Config.strikeHold)
  else []

/-- `bcfl` (R263): counts in st; performed when the report of the last line has come back. a(al) is unsigned (DEDUCED, log 50). -/
def execBcfl (h o l : BitVec 4) (v : BitVec 1) (s : State) : Ans :=
  let n := (s.c.ra l).toNat
  match s.globalCheck h [s.offset o 0] n 1 canRead with
  | .error f => .next (s.fault f h o)
  | .ok ges => .next (s.counted .st fun s =>
      let homes := ges.flatMap writeHomes
      let ls := homes.flatMap (s.flushTimes n)
      let last := ls.foldl (fun m l => max m (l.2 + 12 * bridges s.board (homeBoard l.1))) (s.now + Config.strikeHold)
      s.launch .l .st ((ls.map (·.2)).foldl min last) none (.bcfl ls (v == 1) last))

/-! ## Copies into a and h (R264) -/

def execXcXAddress (k : BitVec 2) (r : BitVec 4) (x : BitVec 5) (q : BitVec 1) (s : State) : Ans :=
  if k = 0 ∧ q = 0 then .next (s.shadow 2 (.a r (s.lat.iss.rx x)))
  else if k = 1 then .next (s.privileged fun s =>
    s.shadow 2 (.h r (BitVec.ofNat 128 ((2 ^ 64 - 1) * 2 ^ (64 * q.toNat)))
      (BitVec.ofNat 128 ((s.lat.iss.rx x).toNat * 2 ^ (64 * q.toNat)))))
  else .next (s.raiseIssue 0x01)

end Sys2Proof.Machine
end

