-- ==== Sys2Proof/Machine/Region.lean ====
section
/-! DEFINITION. Region records of `copy`: their fields, elements and places, the checks of a copy, and the promise of a transfer (09 R266-R278). -/

namespace Sys2Proof.Machine

/-! ## Region records (Table 9-4) -/

/-- The 64 bytes of a record as a number. -/
abbrev Region := Nat

def Region.rank (r : Region) : Nat := fld r 0 8
def Region.fmtByte (r : Region) : BitVec 8 := fbv 8 8 r
def Region.cf (r : Region) : Bool := r.testBit 16
def Region.skew (r : Region) : Bool := r.testBit 17
def Region.tsc (r : Region) : Int := (fbv 8 24 r).toInt
def Region.inf (r : Region) : Bool := r.testBit 32
def Region.base (r : Region) : Nat := fld r 64 64
def Region.cnt (r : Region) (j : Nat) : Nat := fld r (128 + 32 * j) 32
def Region.str (r : Region) (j : Nat) : Int := (fbv 64 (256 + 64 * j) r).toInt

/-- Number of elements. -/
def Region.total (r : Region) : Nat := ((List.range r.rank).map r.cnt).foldl (· * ·) 1

/-- Index `j` of element `e`, dimension 0 innermost. -/
def Region.idx (r : Region) (e j : Nat) : Nat := e / ((List.range j).map r.cnt).foldl (· * ·) 1 % r.cnt j

/-- Position of element `e` in bytes, or in 4-bit units. -/
def Region.pos (r : Region) (e : Nat) : Int :=
  r.base + ((List.range r.rank).map fun j => (r.idx e j : Int) * r.str j).foldl (· + ·) 0

/-- The logical strip that holds the base of a cf side (R271). A base that counts 4-bit units lies at half as many bytes; whether it does
is told by the format of the strip that it is to name (log 44). -/
def Region.strip (r : Region) (c : Ctx) (h : QWord) : Nat :=
  let at_ (b : Nat) : Nat := (hBase h + b) / 2 ^ 19 % 16
  let nibbles (k : Nat) : Bool := fmtBits ((c.cfOf k).setWidth 8) == 4
  if nibbles (at_ r.base) && nibbles (at_ (r.base / 2)) then at_ (r.base / 2) else at_ r.base

/-- Format of a side: its record's, or under cf the format register of the strip that holds its base (R269, R271). -/
def Region.fmt (r : Region) (c : Ctx) (h : QWord) : BitVec 8 :=
  if r.cf then (c.cfOf (r.strip c h)).setWidth 8 else r.fmtByte

/-- The limits of Table 9-4 (R270 step 4), except equality of the totals and the rule on `raw`. -/
def Region.fieldsOk (r : Region) (h : QWord) (c : Ctx) : Bool :=
  decide (1 ≤ r.rank ∧ r.rank ≤ 4) && decide (fld r 18 6 = 0) && decide (fld r 33 7 = 0) && decide (fld r 40 24 = 0) &&
  (if r.cf then decide (hClass h = 2) && r.fmtByte == 0 else true) &&
  (!r.skew || decide (hClass h = 2)) &&
  decide (fmtBits (r.fmt c h) ≠ 0) &&
  (List.range 4).all fun j =>
    if j < r.rank then decide (1 ≤ r.cnt j ∧ r.cnt j ≤ 2 ^ 24) else r.cnt j == 0 && r.str j == 0

/-- Bytes that an element occupies. -/
def elemBytes (f : BitVec 8) : Nat := max 1 (fmtBits f / 8)

/-- Byte offset and nibble of element `e`. -/
def Region.at (r : Region) (f : BitVec 8) (e : Nat) : Int × Nat :=
  if fmtBits f = 4 then ((r.pos e).fdiv 2, (r.pos e % 2).toNat) else (r.pos e, 0)

/-- Alignment of base and strides (R270 step 5). -/
def Region.aligned (r : Region) (f : BitVec 8) : Bool :=
  decide (fmtBits f = 4) ||
  (r.base % elemBytes f == 0 && (List.range r.rank).all fun j => r.str j % elemBytes f == 0)

/-- Skew limits of R178 for a region: rows of at most 512 bytes, base and the strides between rows multiples of 512. -/
def Region.skewOk (r : Region) (h : QWord) (f : BitVec 8) : Bool :=
  !r.skew ||
  ((hBase h + r.base / (if fmtBits f = 4 then 2 else 1)) % 512 == 0 && decide (fmtBits f ≠ 4 ∨ r.base % 2 = 0) && decide (0 ≤ r.str 0) &&
   decide ((r.cnt 0 - 1) * (r.str 0).toNat + elemBytes f ≤ (if fmtBits f = 4 then 1024 else 512)) &&
   (List.range r.rank).all fun j => j == 0 || r.str j % (if fmtBits f = 4 then 1024 else 512) == 0)

/-- A logical crown address under the skew of row `i`: its 32-byte unit u moves to (u + i) mod 16 (06 R178). -/
def skewed (la i : Nat) : Nat := la / 512 * 512 + (la % 512 / 32 + i) % 16 * 32 + la % 32

/-- Where an element lies: cell address of its first byte, nibble, and logical crown address under its skew (crown sides). -/
structure Loc where
  addr : Nat
  nib : Nat
  la : Nat
  deriving DecidableEq, Repr

/-! ## Which core and which maps (R272) -/

/-- The physical core that a W or A handle names; none when it is not in the logical core map. -/
def Hub.ownerOf (k : Hub) (h : QWord) : Option Nat := k.map[hObj h]?

/-- The record of another core; one never heard of is idle with identity remap. -/
def Hub.other (k : Hub) (phys : Nat) : Other :=
  (k.others.find? (·.phys == phys)).getD { phys := phys, remap := Vector.ofFn fun i => BitVec.ofNat 5 i.val, guests := [], failed := [] }

/-- The physical tower of a logical tower of any core. -/
def State.towerOn (s : State) (phys t : Nat) : Nat :=
  if phys = s.core.phys then s.core.tower t
  else if h : t < 16 then ((s.hub.other phys).remap[t]).toNat else t

/-- The strip map for a crown side on a core: the issuing bead's own on its core; elsewhere that of a resident bead of
its clasp, the active one first, then of the active bead, else the identity (R272). -/
def State.mapOn (s : State) (phys : Nat) : DWord :=
  if phys = s.core.phys then s.lat.iss.cbmap
  else
    let gs := (s.hub.other phys).guests
    let mates := gs.filter fun g => s.c.claspNo != 0 && fbv 20 16 g.bead.toNat == s.c.claspNo
    match (mates.find? (·.active)).orElse fun _ => mates.head? with
    | some g => g.cbmap
    | none => match gs.find? (·.active) with
      | some g => g.cbmap
      | none => 0xFEDCBA9876543210

/-- The extension of the address map for remote packages (R272): the package of a device-half address with g[61] = 1
and whether it is a fall-back read; none for an address of this package. -/
def remotePackage (g : Nat) : Option (Nat × Bool) :=
  if g.testBit 63 && g.testBit 61 && decide (fld g 53 8 ≠ Config.packageNo) then some (fld g 53 8, g.testBit 52) else none

/-- A device-half address that names this package through g[61] is local. -/
def localForm (g : Nat) : Nat :=
  if g.testBit 63 && g.testBit 61 then fld g 0 46 + (if g.testBit 62 then 2 ^ 62 else 0) + 2 ^ 63 else g

/-- Where `copy`, which alone accepts remote packages, finds object offset f + o through an entry of the object table (R272): the cell address,
the global address and the entry. A fall-back read does not see what the board cache of the target holds dirty (R278). -/
def copyPlace (e : Nat) (h : QWord) (o : Int) : Nat × Nat × Nat :=
  let g := oBase e + (hBase h + o).toNat
  if !(g.testBit 63 && g.testBit 61) then (g, g, e)
  else if (remotePackage g).isSome then (remoteAddr (g - (if g.testBit 52 && !Config.remoteDirty (g / 64) then 2 ^ 52 else 0)), g, e)
  else (localForm g, localForm g, e)

/-- Translation of `n` bytes for `copy`: the object's checks, then the map at the package named (R272). -/
def Hub.copyTranslate (k : Hub) (h : QWord) (o : Int) (n : Nat) : Except Flt (Nat × Nat × Nat) :=
  match k.object (hObj h) with
  | none => .error { code := 0x09, reason := 2, off := o }
  | some e =>
    let g := oBase e + (hBase h + o).toNat
    if !(g.testBit 63 && g.testBit 61) then
      match k.translate h o n with
      | .error f => .error f
      | .ok _ => .ok (copyPlace e h o)
    else
      let l := localForm g
      if !oPresent e then .error { code := 0x09, reason := 1, off := o, at? := some g }
      else if oLen e < (hBase h + o).toNat + n then .error { code := 0x06, reason := 3, off := o }
      else if fld g 46 6 ≠ 0 then .error { code := 0x09, reason := 2, off := o }
      else if !k.mapped l n then .error { code := 0x09, reason := 2, off := o }
      else .ok (copyPlace e h o)

/-! ## A side of a copy -/

/-- One side: handle register and value, record, and whether it is the destination. -/
structure Side where
  reg : BitVec 4
  h : QWord
  rg : Region
  dst : Bool
  deriving DecidableEq, Repr

/-- Step 2 of R270. Steps 2 to 4 fail a side as a whole and report offset 0 (log 22). -/
def State.sideClass (s : State) (d : Side) : Option Flt :=
  let o : Int := 0
  if hClass d.h = 0 then some { code := 0x05, reason := 0, off := o }
  else if 5 ≤ hClass d.h then some { code := 0x08, reason := 0, off := o }
  else if hClass d.h ≤ 2 ∧ (s.hub.ownerOf d.h).isNone then some { code := 0x08, reason := 3, off := o }
  else none

/-- Step 3 of R270. -/
def sideRights (d : Side) : Option Flt :=
  if (if d.dst then hWr d.h else hRd d.h && hCo d.h) then none else some { code := 0x07, reason := 0, off := 0 }

/-- Byte offset of the first byte of element `e` from the handle's base, after the skew of a crown side. -/
def Side.spot (d : Side) (f : BitVec 8) (e : Nat) : Int :=
  let p := (d.rg.at f e).1
  let la : Int := hBase d.h + p
  if d.rg.skew && hClass d.h == 2 && decide (0 ≤ la) then (skewed la.toNat (if d.rg.rank < 2 then 0 else d.rg.idx e 1) : Int) - hBase d.h else p

/-- Bounds of one element (step 6 of R270), at the place that its skew gives it. -/
def boundsOf (d : Side) (f : BitVec 8) (e : Nat) : Option Flt :=
  let p := d.spot f e
  let n := elemBytes f
  match hClass d.h with
  | 1 =>
    if p < 0 ∨ (2 ^ 27 : Int) ≤ p then some { code := 0x06, reason := 1, off := p }
    else match towerElem d.h (p.toNat / 2 ^ 23) (p % 2 ^ 23) n 1 with
      | .error x => some { x with off := p }
      | .ok _ => none
  | 2 => match crownElem d.h p n 1 with
      | .error x => some { x with off := p }
      | .ok _ => none
  | _ => if inWindow d.h p n then none else some { code := 0x06, reason := 1, off := p }

/-- The first element out of bounds. -/
def firstBounds (d : Side) (f : BitVec 8) : Nat → Nat → Option Flt
  | 0, _ => none
  | k + 1, e => match boundsOf d f e with
    | some x => some x
    | none => firstBounds d f k (e + 1)

/-- Step 6 of R270: elements, the single strip of a cf side, the skew limits. -/
def sideBounds (d : Side) (f : BitVec 8) : Option Flt :=
  let strip (e : Nat) : Int := ((hBase d.h : Int) + d.spot f e).fdiv (2 ^ 19)
  match firstBounds d f d.rg.total 0 with
  | some x => some x
  | none =>
    match if d.rg.cf then (List.range d.rg.total).find? fun e => strip e != strip 0 else none with
    | some e => some { code := 0x06, reason := 2, off := (d.rg.at f e).1 }
    | none => if !d.rg.skewOk d.h f then some { code := 0x06, reason := 5, off := (d.rg.at f 0).1 } else none

/-- The byte offset of the first element of a side that is not aligned, that of its first element where only a stride fails (step 5 of
R270). -/
def Region.misaligned (r : Region) (f : BitVec 8) : Int :=
  (r.at f (((List.range r.total).find? fun e => (r.at f e).1 % elemBytes f != 0).getD 0)).1

/-- Lowest and highest byte of a list of first bytes of elements of `n` bytes. -/
def spanOf (as : List Int) (n : Nat) : Int × Int :=
  as.foldl (fun r a => (min r.1 a, max r.2 (a + n - 1))) (as.headD 0, as.headD 0 + n - 1)

def spansMeet (a b : Int × Int) : Bool := decide (a.1 ≤ b.2 ∧ b.1 ≤ a.2)

/-- The place of element `e` of a crown side on a core, through a strip map. -/
def Side.crownLoc (d : Side) (f : BitVec 8) (map : DWord) (owner e : Nat) : Loc :=
  let p := d.rg.at f e
  let la := (hBase d.h + p.1).toNat
  let la' := if d.rg.skew then skewed la (if d.rg.rank < 2 then 0 else d.rg.idx e 1) else la
  { addr := crownThrough map owner la', nib := p.2, la := la' }

/-- Places of the elements of a W or A side. -/
def State.coreLocs (s : State) (d : Side) (f : BitVec 8) : List Loc :=
  let owner := (s.hub.ownerOf d.h).getD s.core.phys
  let map := s.mapOn owner
  (List.range d.rg.total).map fun e =>
    if hClass d.h = 1 then
      let p := d.rg.at f e
      let t := p.1.toNat / 2 ^ 23
      let off := fld (hBase d.h) 0 23 + p.1.toNat % 2 ^ 23
      { addr := towerAddr owner (s.towerOn owner t) off, nib := p.2, la := 0 }
    else d.crownLoc f map owner e

/-- The place of an element that a translation gives: a source is read from this board's replica (08 R230). -/
def State.globalLoc (s : State) (d : Side) (t : Nat × Nat × Nat) (nib : Nat) : Loc :=
  { addr := if d.dst || decide (2 ^ 66 ≤ t.1) then t.1 else readHome s.board (t.1, t.2.2), nib := nib, la := 0 }

/-- Step 8 of R270 for one side: the places of its elements, with the translation of a K or G side. -/
def State.sideLocs (s : State) (d : Side) (f : BitVec 8) : Except Flt (List (Loc × Nat × Nat)) :=
  if hClass d.h ≤ 2 then .ok ((s.coreLocs d f).map fun l => (l, 0, 0))
  else resolveAll (fun e =>
    let p := d.rg.at f e
    match s.hub.copyTranslate d.h p.1 (elemBytes f) with
    | .error x => .error { x with off := p.1 }
    | .ok t => .ok (s.globalLoc d t p.2, t.2.1, t.2.2))
    (List.range d.rg.total)

/-- Byte span of a W or A side as addresses within its core's towers or crown, for step 7 of R270. -/
def sideSpan (d : Side) (f : BitVec 8) : Int × Int :=
  spanOf ((List.range d.rg.total).map fun e => (fld (hBase d.h) 0 23 : Nat) + d.spot f e) (elemBytes f)

/-! ## Promises (R266) -/

/-- Rate cap of copies, refills and the weight stream under actions 7 and 8. -/
def Power.rateCap (p : Power) : Nat := if p.actions < 7 then 1000 else if p.actions = 7 then 32 else 16

/-- Chain hops between two squares, with 4 added across boards (Table 9-2). -/
def hops (a b : Nat) : Nat :=
  let dist (x y : Nat) : Nat := max x y - min x y
  let dx := dist (fileOf a) (fileOf b)
  let dy := dist (rankOf a) (rankOf b)
  dx / 4 + dx % 4 + dy / 4 + dy % 4 + (if bridges (boardOf a) (boardOf b) > 0 then 4 else 0)

/-- Where a side lies, for its latency and its rate. -/
inductive Place where
  | own | chain (phys : Nat) | hbm (board : Nat) | staging (board : Nat) | host | remote (package : Nat) | fallback (package : Nat)
  deriving DecidableEq, Repr

/-- Place of a side by the global address of its first element. -/
def State.placeOf (s : State) (d : Side) (g : Nat) : Place :=
  if hClass d.h ≤ 2 then
    let o := (s.hub.ownerOf d.h).getD s.core.phys
    if o = s.core.phys then .own else .chain o
  else match remotePackage g with
    | some (p, true) => .fallback p
    | some (p, false) => .remote p
    | none => if !deviceHalf g then .host else if inStaging g then .staging (homeBoard g) else .hbm (homeBoard g)

/-- Molmux hops to a package by the hub's route table. -/
def Hub.hopsTo (k : Hub) (p : Nat) : Nat := ((k.hops.find? (·.1 == p)).map (·.2)).getD 1

/-- Table 9-2: latency of a side, as destination when `dst`. -/
def State.sideLatency (s : State) (p : Place) (dst : Bool) : Nat :=
  match p with
  | .own => 4
  | .chain o => 4 + 2 * hops s.core.phys o + 12 * bridges s.board (boardOf o)
  | .hbm b => (if dst then 80 else 156) + 12 * bridges s.board b
  | .staging b => (if dst then 30 else 56) + 12 * bridges s.board b
  | .host => if dst then s.hub.hostLatency / 2 else s.hub.hostLatency
  | .remote p => (if dst then 200 else 400) + 300 * s.hub.hopsTo p
  | .fallback p => 2400 + 300 * s.hub.hopsTo p

/-- Table 9-3, before the cap of actions 7 and 8. -/
def sideRate (p : Place) (tower : Bool) : Nat :=
  match p with
  | .fallback _ => 32
  | .chain _ | .host | .remote _ => 64
  | _ => if tower then 64 else 128

/-- Bytes that the memory port of a board admits to its HBM in a core cycle: of 9.6 TB/s at 700 MHz all, or the share that actions 9 to 11
leave (01 R16; 12 Table 12-13). -/
def Power.portRate (p : Power) : Nat := 13714 * (100 - 25 * min (p.actions - 8) 3) / 100

/-- The rate of a side under the throttle of its memory port. -/
def Power.admits (p : Power) (place : Place) (rate : Nat) : Nat :=
  match place with
  | .hbm _ => min rate p.portRate
  | _ => rate

/-- Compressed bytes that the decompressor of the weight stream fetches in a core cycle (R285). -/
def Power.streamRate (p : Power) : Nat := min (min 512 p.rateCap) p.portRate

/-- ceil(B / rate × 700 / f). -/
def moveCycles (bytes rate clock : Nat) : Nat := (bytes * 700 + rate * clock - 1) / (rate * clock)

/-! ## The course of a transfer (R266, R267) -/

/-- Periods of sr.cycle that a data phase takes at a clock. -/
def Burst.time (b : Burst) (clock : Nat) : Nat := moveCycles b.bytes b.rate clock + b.extra

/-- The burst of a transfer. -/
def Work.burst : Work → Option Burst
  | .copy _ _ _ _ b => some b
  | .refill _ _ _ _ _ b => some b
  | .shift _ _ _ _ b => some b
  | _ => none

/-- Whether a copy may append to an outlier list. -/
def Work.appends (w : Work) : Bool :=
  match w with
  | .copy _ _ _ pair _ => Region.cf (fld pair.toNat 0 512)
  | _ => false

/-- A transfer at another stage. -/
def Work.withStage (w : Work) (g : Stage) : Work :=
  match w with
  | .copy op dmap smap pair b => .copy op dmap smap pair { b with stage := g }
  | .refill src len tower off ranks b => .refill src len tower off ranks { b with stage := g }
  | .shift op dropped lands zeros b => .shift op dropped lands zeros { b with stage := g }
  | w => w

/-- The engine that runs a transfer, one at a time: the copy engine 0, the file's broadcast column 1. -/
def Work.engine : Work → Option (Nat × Burst)
  | .copy _ _ _ _ b => some (0, b)
  | .refill _ _ _ _ _ b => some (1, b)
  | _ => none

/-- The cycle in which an engine ends the data phases of its transfers up to a number, from now on (R266, S). A transfer that waits begins
when the one before it has ended its data phase. -/
def State.engineEnd (s : State) (engine upTo : Nat) : Nat :=
  s.outs.foldl (fun e o => match o.work.engine with
    | some (k, b) => if k ≠ engine ∨ upTo < o.id then e else match b.stage with
      | .queued => e + b.lead + b.time s.hub.power.clock
      | .moving _ => max e o.due
      | .landing _ _ _ _ _ _ => e
    | none => e) s.now

/-- The current estimate of an operation in hand: when it would complete if no further delay arose (R267). -/
def State.estimate (s : State) (o : Out) : Nat :=
  match o.work.engine with
  | some (k, b) => match b.stage with
    | .landing _ _ _ _ _ _ => max o.due (s.now + 1)
    | _ => s.engineEnd k o.id + Config.strikeHold
  | none => max o.due (s.now + 1)

/-- An earlier transfer of the same engine has not ended its data phase (R273, R288). -/
def State.engineHeld (s : State) (o : Out) : Bool :=
  s.outs.any fun x => decide (x.id < o.id) && (match x.work.engine, o.work.engine with
    | some (k, b), some (j, _) => k == j && (match b.stage with
      | .landing _ _ _ _ _ _ => false
      | .moving _ => decide (s.now < x.due)
      | .queued => true)
    | _, _ => false)

end Sys2Proof.Machine
end

