-- ==== Sys2Proof/Machine/Convert.lean ====
section
/-! DEFINITION. Conversion of elements with the scales, outlier lists and flags of format registers (03 R84-R90), and the movement of a copy's elements (09 R271-R275). -/

namespace Sys2Proof.Machine

/-! ## Format registers (03 Table 3-8) -/

def cfFmt (w : DWord) : BitVec 8 := w.setWidth 8
def cfInf (w : DWord) : Bool := w.getLsbD 8
def cfRsc (w : DWord) : Bool := w.getLsbD 9
def cfOlen (w : DWord) : Bool := w.getLsbD 10
def cfTsc (w : DWord) : Int := (fbv 8 16 w.toNat).toInt
def cfRsa (w : DWord) : Nat := fld w.toNat 24 20 * 8
def cfOla (w : DWord) : Nat := fld w.toNat 44 20 * 8

/-- A crown as a conversion reaches it: the path and the bank it acts for, the core, the strip map. -/
structure Via where
  path : Path
  bank : Bool
  core : Nat
  map : DWord
  deriving DecidableEq, Repr

/-- Bytes at a logical crown address. -/
def State.viaBytes (s : State) (v : Via) (la n : Nat) : List Byte :=
  (List.range n).map fun i => s.byte v.path (crownThrough v.map v.core ((la + i) % 2 ^ 23))

/-- Write bytes at a logical crown address, final after the strike hold. -/
def State.viaPut (s : State) (v : Via) (la : Nat) (bs : List Byte) : State :=
  (s.launch v.path .none (s.now + Config.strikeHold) none
    (.write [{ addr := crownThrough v.map v.core (la % 2 ^ 23), bytes := bs }] v.map false [])).onLast fun o => { o with bank := v.bank }

/-- Scale exponent of the element with linear index `i` (03 R85). -/
def State.scaleOf (s : State) (v : Via) (cf : DWord) (i : Nat) : Int :=
  if cfRsc cf then (BitVec.ofNat 8 (bytesNat (s.viaBytes v (cfRsa cf + i / 128) 1))).toInt else cfTsc cf

/-- Append to the outlier list of a format register (03 R88), after the appends of every engine before it (R89): the state after it, and
whether there was room. -/
def State.append (s : State) (v : Via) (cf : DWord) (i value : Nat) : State × Bool :=
  if !cfOlen cf then (s, false)
  else
    let hdr := bytesNat ((List.range 8).map fun i => s.seen (crownThrough v.map v.core ((cfOla cf + i) % 2 ^ 23)))
    let count := fld hdr 0 32
    if count < fld hdr 32 32 then
      let s := s.viaPut v (cfOla cf + 8 + 8 * count) (natBytes 4 i ++ natBytes 4 value)
      (s.viaPut v (cfOla cf) (natBytes 4 (count + 1)), true)
    else (s, false)

/-- What the conversions of one operation have raised: flags, and how many outliers found no room. -/
structure Raised where
  fl : Fl := 0
  lost : Nat := 0
  deriving DecidableEq, Repr

def Raised.add (r : Raised) (fl : Fl) (lost : Nat) : Raised := { fl := r.fl ||| fl, lost := r.lost + lost }

/-- Encode one value into a format (03 R78, R80, R87): the code, with what it raises. `cf` is the format register whose
outlier list takes what does not fit, if any. -/
def State.encodeElem (s : State) (v : Via) (k : Kind) (cf : Option DWord) (scale : Int) (mode : Mode) (i : Nat) (x : FV)
    (r : Raised) : State × Nat × Raised :=
  match k with
  | .raw => (s, match x with
    | .fin _ m _ => m % 256
    | _ => 0, r)
  | .ieee f =>
    let y := f.roundFV mode false x
    (s, y.1, r.add (y.2 ||| snanFlag [x]) 0)
  | .int n sg =>
    let y := toInteger mode (intLo n sg) (intHi n sg) x
    (s, (y.1 % 2 ^ n).toNat, r.add y.2 0)
  | .kk f => match f.encode scale mode x with
    | .code c fl => (s, c, r.add fl 0)
    | .outlier sat =>
      match cf with
      | some w =>
        let a := s.append v w i (rnd32 0 x).1
        if a.2 then (a.1, 0, r) else (a.1, sat, r.add fOlf 1)
      | none => (s, sat, r.add fOlf 1)

/-! ## Bank contexts -/

/-- Change the context of a bank's bead. -/
def State.onBank (s : State) (bank : Bool) (f : Ctx → Ctx) : State :=
  if bank = s.core.bank then { s with c := f s.c } else { s with oc := f s.oc }

def State.bankCtx (s : State) (bank : Bool) : Ctx := if bank = s.core.bank then s.c else s.oc

def State.onBankSeq (s : State) (bank : Bool) (f : Seq → Seq) : State :=
  if bank = s.core.bank then { s with q := f s.q } else { s with oq := f s.oq }

/-- The operations of a queue issued after bundle `n` take a register write that lands now as they would have found it at issue (02
R53). -/
def refreshed (n : Nat) (w : RegWrite) (l : List Slotted) : List Slotted :=
  l.map fun o => if n < o.seq then { o with iss := w.apply o.iss } else o

/-- A register effect of an engine becomes final: it enters the context of the operation's bead and what a strike report would restore, where
the operation was in hand (12 R384). -/
def State.settle (s : State) (o : Out) (f : Ctx → Ctx) : State :=
  { s.onBank o.bank f with undo := s.undo.map fun u => if u.bank == o.bank && u.outs.any (·.id == o.id) then { u with c := f u.c } else u }

/-- The same of an effect on the sequencer. -/
def State.settleSeq (s : State) (o : Out) (f : Seq → Seq) : State :=
  { s.onBankSeq o.bank f with undo := s.undo.map fun u => if u.bank == o.bank && u.outs.any (·.id == o.id) then { u with q := f u.q } else u }

/-- What has left the core for a bank's bead, or reaches it from outside, is final, whatever a strike report takes back. -/
def State.settleBank (s : State) (bank : Bool) (f : Ctx → Ctx) (g : Seq → Seq) : State :=
  { (s.onBank bank f).onBankSeq bank g with undo := s.undo.map fun u => if u.bank == bank then { u with c := f u.c, q := g u.q } else u }

/-- What a register write of an engine does to a sequencer: an earlier copy in its shadow is discarded, and waiting operations of later
bundles find it (02 R53, R54). -/
def Seq.found (q : Seq) (n now : Nat) (w : RegWrite) : Seq :=
  match w.reg with
  | some r =>
    { q with
      shadows := overwrite q.shadows n r
      vq := refreshed n w q.vq
      mq := refreshed n w q.mq
      ops := refreshed n w q.ops
      busy := match r with
        | .v _ => q.busy ++ [(r, n, now)]
        | _ => q.busy }
  | none => q

/-- A register write of an engine lands in a bank's context, for the waiting operations of later bundles too; an earlier copy in its
shadow is discarded (02 R54), and a v register takes its bank's write port for the cycle (05 R135). -/
def State.land (s : State) (bank : Bool) (seq : Nat) (w : RegWrite) : State :=
  (s.onBank bank w.apply).onBankSeq bank fun q => q.found seq s.now w

/-- A register write of an operation in hand lands and is final: no strike takes it back. -/
def State.landFinal (s : State) (o : Out) (w : RegWrite) : State :=
  (s.settle o w.apply).settleSeq o fun q => q.found o.seq s.now w

/-- sr.einfo of trap 0x13: the engine (0 V, 1 copy, 2 matrix) and the logical strip of the format register, or bit 6
when there was none (03 R90). -/
def olfInfo (engine : Nat) (strip : Option Nat) : DWord :=
  BitVec.ofNat 64 (engine * 16 + match strip with
    | some n => n
    | none => 64)

/-- A lost outlier pends trap 0x13. -/
def Seq.pendOlf (q : Seq) (info : DWord) : Seq := { q with olfTrap := q.olfTrap.orElse fun _ => some info }

/-- Flags and outlier counts of a completed operation enter its bead's sr.fpsr; a lost outlier pends trap 0x13 when
`eol` of the sampled sr.fpcr is set (03 R90, R94). -/
def State.finishRaised (s : State) (bank : Bool) (fpcr : DWord) (info : DWord) (r : Raised) : State :=
  let s := s.onBank bank fun c => (c.orFlags r.fl).addOlc r.lost
  if r.lost ≠ 0 ∧ fpcr.getLsbD 9 then s.onBankSeq bank (·.pendOlf info) else s

/-- The same of an operation in hand, whose results are final. -/
def State.settleRaised (s : State) (o : Out) (fpcr : DWord) (info : DWord) (r : Raised) : State :=
  let s := s.settle o fun c => (c.orFlags r.fl).addOlc r.lost
  if r.lost ≠ 0 ∧ fpcr.getLsbD 9 then s.settleSeq o (·.pendOlf info) else s

/-! ## Bytes gathered before they are written together -/

/-- Put a byte into a list of bytes in rising address order. -/
def putByte : List (Nat × Byte) → Nat → Byte → List (Nat × Byte)
  | [], a, b => [(a, b)]
  | (x, y) :: t, a, b =>
    if a < x then (a, b) :: (x, y) :: t else if a = x then (a, b) :: t else (x, y) :: putByte t a b

def putBytes (l : List (Nat × Byte)) (a : Nat) : List Byte → List (Nat × Byte)
  | [] => l
  | b :: t => putBytes (putByte l a b) (a + 1) t

/-- Consecutive bytes as pieces. -/
def runsOf : List (Nat × Byte) → List Part
  | [] => []
  | (a, b) :: t => match runsOf t with
    | [] => [{ addr := a, bytes := [b] }]
    | p :: ps => if p.addr = a + 1 then { addr := a, bytes := b :: p.bytes } :: ps else { addr := a, bytes := [b] } :: p :: ps

/-- The byte gathered for an address. -/
def gotByte (l : List (Nat × Byte)) (a : Nat) : Option Byte := (l.find? (·.1 == a)).map (·.2)

/-! ## The movement of a copy (R271, R275) -/

/-- A side as its elements are converted: kind, fixed scale, format register, crown, places. -/
structure Moving where
  bits : Nat
  kind : Kind
  cf : Option DWord
  tsc : Int
  via : Via
  locs : List Loc

/-- A side of a copy from its record and sampled context. -/
def movingSide (bank : Bool) (c : Ctx) (d : Side) (map : DWord) (owner : Nat) (locs : List Loc) : Moving :=
  let f := d.rg.fmt c d.h
  let cf := if d.rg.cf then some (c.cfOf (d.rg.strip c d.h)) else none
  { bits := fmtBits f, kind := kindOf f ((cf.map cfInf).getD d.rg.inf), cf := cf, tsc := d.rg.tsc,
    via := { path := .k, bank := bank, core := owner, map := map }, locs := locs }

/-- Linear index of an element in its strip (03 R73). -/
def Moving.index (m : Moving) (l : Loc) : Nat := (l.la % 2 ^ 19 * 8 + 4 * l.nib) / m.bits

/-- Scale of an element; 0 outside the KkPp formats. -/
def State.movingScale (s : State) (m : Moving) (l : Loc) : Int :=
  match m.kind with
  | .kk _ => match m.cf with
    | some w => s.scaleOf m.via w (m.index l)
    | none => m.tsc
  | _ => 0

/-- The byte that a transfer has written to an address before a copy and that is not final, if there is one: the copies of an engine take
effect one after another (09 R273). -/
def State.copied (s : State) (id a : Nat) : Option Byte :=
  s.outs.reverse.findSome? fun x => if x.path == .k && decide (x.id < id) then x.byteAt? a else none

/-- The bits of an element as a copy reads it. -/
def State.elemBits (s : State) (id bits : Nat) (l : Loc) : Nat :=
  let w := bytesNat ((List.range (max 1 (bits / 8))).map fun i => (s.copied id (l.addr + i)).getD (s.mem.byte (l.addr + i)))
  if bits = 4 then fld w (4 * l.nib) 4 else w

/-- Put the bits of a destination element among the bytes gathered. -/
def State.gather (s : State) (id bits : Nat) (l : Loc) (w : Nat) (acc : List (Nat × Byte)) : List (Nat × Byte) :=
  if bits = 4 then
    let old := ((gotByte acc l.addr).getD ((s.copied id l.addr).getD (s.mem.byte l.addr))).toNat
    putByte acc l.addr (BitVec.ofNat 8 (if l.nib = 0 then old / 16 * 16 + w % 16 else old % 16 + w % 16 * 16))
  else putBytes acc l.addr (natBytes (bits / 8) w)

/-- Whether two sides copy bits unchanged (R271, 03 R86). -/
def sameForm (a b : Moving) (sa sb : Int) : Bool :=
  a.kind == .raw || (a.kind == b.kind && (match a.kind with
    | .kk _ => sa == sb
    | _ => true))

/-- Move elements one by one: the state (outlier appends), the bytes gathered, what was raised, and the destination
granules to poison. -/
def State.moveElems (s : State) (id : Nat) (mode : Mode) (d m : Moving) (bad : Nat → Bool) :
    List (Loc × Loc) → List (Nat × Byte) → Raised → List Nat → State × List (Nat × Byte) × Raised × List Nat
  | [], acc, r, ps => (s, acc, r, ps)
  | (ld, ls) :: t, acc, r, ps =>
    let w := s.elemBits id m.bits ls
    let ss := s.movingScale m ls
    let sd := s.movingScale d ld
    let e := if sameForm d m sd ss then (s, w, r)
      else s.encodeElem d.via d.kind d.cf sd mode (d.index ld) (m.kind.decode ss w) r
    let ps := if (granules ls.addr (max 1 (m.bits / 8))).any bad then ps ++ granules ld.addr (max 1 (d.bits / 8)) else ps
    e.1.moveElems id mode d m bad t (e.1.gather id d.bits ld e.2.1 acc) e.2.2 ps

/-- The sides of a copy in hand: destination and source, under its sampled context. -/
def copySides (op : Slotted) (pair : BitVec 1024) (h hs : BitVec 4) : Side × Side :=
  ({ reg := h, h := op.iss.rh h, rg := fld pair.toNat 0 512, dst := true },
   { reg := hs, h := op.iss.rh hs, rg := fld pair.toNat 512 512, dst := false })

/-- What a side is translated by as it stands at issue. -/
def State.sideMap (s : State) (d : Side) : SideMap :=
  let owner := (s.hub.ownerOf d.h).getD s.core.phys
  { strips := s.mapOn owner, owner := owner, towers := (List.range 16).map (s.towerOn owner), entry := if hClass d.h ≤ 2 then none else s.hub.object (hObj d.h) }

/-- Where element `e` of a K or G side lies, by the entry that its side was translated by. -/
def Side.globalPlace (d : Side) (f : BitVec 8) (map : SideMap) (e : Nat) : Nat × Nat × Nat := copyPlace (map.entry.getD 0) d.h (d.rg.at f e).1

/-- Places of a side of a copy in hand, through its maps. -/
def State.heldLocs (s : State) (d : Side) (f : BitVec 8) (map : SideMap) : List Loc :=
  (List.range d.rg.total).map fun e =>
    if hClass d.h = 2 then d.crownLoc f map.strips map.owner e
    else if hClass d.h = 1 then
      let p := d.rg.at f e
      { addr := towerAddr map.owner (map.towers[p.1.toNat / 2 ^ 23]?.getD 0) (fld (hBase d.h) 0 23 + p.1.toNat % 2 ^ 23), nib := p.2, la := 0 }
    else s.globalLoc d (d.globalPlace f map e) (d.rg.at f e).2

/-- Whether a granule that a copy reads is to be poisoned, or replaced whole, by earlier transfers that are not final: none where they leave it
(09 R273, R275). -/
def State.copyPoison (s : State) (id g : Nat) : Option Bool :=
  s.outs.foldl (fun (p : Option Bool) x => if x.path == .k && decide (x.id < id) then
    match x.work.burst.map Burst.stage with
    | some (Stage.landing ps _ poison _ _ _) =>
      if poison.contains g then some true
      else if (List.range (granuleSize g)).all fun i => (ps.findSome? (·.at? (g + i))).isSome then some false else p
    | _ => p else p) none

/-- Do a copy's movement: the bytes, what was raised, the granules to poison, and the state with its outlier appends. Its reads pass through
their home ports (01 R20). The bytes are not yet written. -/
def State.copyMove (s : State) (bank : Bool) (id : Nat) (op : Slotted) (pair : BitVec 1024) (h hs : BitVec 4) (dmap smap : SideMap) :
    State × List (Nat × Byte) × Raised × List Nat :=
  let sides := copySides op pair h hs
  let df := sides.1.rg.fmt op.iss sides.1.h
  let sf := sides.2.rg.fmt op.iss sides.2.h
  let d := movingSide bank op.iss sides.1 dmap.strips dmap.owner (s.heldLocs sides.1 df dmap)
  let m := movingSide bank op.iss sides.2 smap.strips smap.owner (s.heldLocs sides.2 sf smap)
  let gs := (m.locs.flatMap fun l => granules l.addr (max 1 (m.bits / 8))).eraseDups
  let ecc := s.mem.checks s.fresh (gs.filter fun g => !(List.range (granuleSize g)).all fun i => (s.copied id (g + i)).isSome)
  let s := ((gs.map fun g => g / 64 * 64).eraseDups).foldl (fun s l => s.portFetch l 64) { s with mem := ecc.1, fresh := s.fresh + 1 }
  s.moveElems id (fld op.iss.fpcr.toNat 0 2) d m (fun g => (s.copyPoison id g).getD (ecc.2.contains g)) (d.locs.zip m.locs) [] {} []

/-- Every global address among pieces, replicated as R316 states. -/
def State.spread (s : State) (ps : List Part) : List Part :=
  ps.flatMap fun p =>
    if deviceHalf p.addr && decide (p.addr < 2 ^ 64) then
      let e := (s.hub.otCells.find? fun c => match s.hub.object ((c.1 - s.hub.otBase) / 16) with
        | some e => oPresent e && oReplicated e && decide (oBase e ≤ p.addr ∧ p.addr < oBase e + oLen e)
        | none => false).bind fun c => s.hub.object ((c.1 - s.hub.otBase) / 16)
      match e with
      | some e => (writeHomes (p.addr, e)).map fun g => { p with addr := g }
      | none => [p]
    else [p]

end Sys2Proof.Machine
end

