-- ==== Sys2Proof/Machine/Transfer.lean ====
section
/-! DEFINITION. Slot T: the transfer instructions up to their launch, the stopping of transfers, tower refresh and dead regions (09_transfer_class.md). What an engine does at the end of an operation stands in Engines.lean. -/

namespace Sys2Proof.Machine

/-! ## Accesses of path L in hand, and locked lines (08 R236; 10 R309, R316) -/

def rangesMeet (l : List (Nat × Nat)) (lo n : Nat) : Bool := l.any fun r => decide (r.1 < lo + n ∧ lo < r.1 + r.2)

/-- Ranges of cells that a load or a global store in hand reads or writes. -/
def Out.spans (o : Out) : List (Nat × Nat) :=
  match o.work with
  | .fetch _ ranges _ _ _ => ranges
  | .gstore ps _ => ps.map fun p => (p.addr, p.bytes.length)
  | _ => []

/-- Whether an operation in hand is a load that has not performed. -/
def Out.fetches (o : Out) : Bool :=
  match o.work with
  | .fetch _ _ _ _ _ => true
  | _ => false

/-- Whether a load in hand has every byte already: from a line of the scalar cache or from the hold buffer. -/
def Out.given (o : Out) : Bool :=
  match o.work with
  | .fetch _ _ held _ _ => !held.isEmpty && held.all (·.isSome)
  | _ => false

/-- A load or store of a bead on path L performs after its earlier ones to the same bytes (08 R236), and the reads of its core's crown
and towers perform in program order (10 R309). -/
def State.behind (s : State) (o : Out) : Bool :=
  let own (x : Out) : Bool := match x.work with
    | .fetch _ ranges _ _ _ => ranges.all fun r => decide (2 ^ 64 ≤ r.1)
    | _ => false
  s.outs.any fun x => x.bank == o.bank && x.path == o.path && decide (x.id < o.id) &&
    ((own x && own o) || (!(o.given && !x.fetches) && o.spans.any fun r => rangesMeet x.spans r.1 r.2))

/-- Lines of global memory that ranges of cells touch. -/
def linesOf (l : List (Nat × Nat)) : List Nat := (l.filter fun r => decide (r.1 < 2 ^ 64)).flatMap fun r => lines64 r.1 r.2

/-- The round trip for which a write of pieces locks the lines of replicated extents: to the farthest replica (10 R316). -/
def State.tripOf (s : State) (ps : List Part) : Nat :=
  (ps.flatMap fun p => (s.spread [p]).map fun q => if q.addr = p.addr then 0 else 24 * bridges (homeBoard p.addr) (homeBoard q.addr)).foldl max 0

/-- A line among ranges of cells is locked in its replica by a write to a replicated extent (10 R316). -/
def State.linesLocked (s : State) (l : List (Nat × Nat)) : Bool :=
  let during (x : Out) (lock : Nat) : Bool := lock != 0 && decide (x.due ≤ s.now + lock ∧ s.now < x.due)
  let meets (w : List (Nat × Nat)) : Bool := (linesOf w).any (linesOf l).contains
  s.outs.any fun x => match x.work with
    | .gstore _ lock => during x lock && meets x.spans
    | .copy _ _ _ _ b => (match b.stage with
      | .landing ps _ _ _ _ _ => during x (s.tripOf ps) && meets ((s.spread ps).map fun p => (p.addr, p.bytes.length))
      | _ => false)
    | .atom r => r.phase == 2 && meets ((s.spread [{ addr := r.addr, bytes := [0] }]).map fun p => (p.addr, 1))
    | _ => false

/-- The operation in execution as an engine holds it: the context at the issue of its bundle, with h and a as slot T
has them now. -/
def State.slotted (s : State) (i : Instr) : Slotted :=
  { instr := i, slot := s.lat.slot, word := s.lat.word, addr := s.lat.addr, seq := s.lat.seq, ext := s.lat.ext,
    iss := { s.lat.iss with h := s.c.h, a := s.c.a } }

/-- Slot T writes its promise and puts the operation in hand (R265). -/
def State.promised (s : State) (d : BitVec 4) (path : Path) (promise due : Nat) (w : Work) : State :=
  (s.wa d (BitVec.ofNat 64 promise)).launch path .cp due (some promise) w

/-! ## Copies: the checks of R270 -/

/-- The record pair (step 1 of R270): 128 bytes of crown, read as slot T reads crown. -/
def State.recordPair (s : State) (r a : BitVec 4) (f : BitVec 1024 → State → State) : State :=
  let o := s.offset a 0
  match s.offsetCrown r o 128 64 canRead with
  | .error x => s.fault x r a
  | .ok la => s.whenFull (s.crownAt la) 128 fun s =>
    let bs := s.bytes .l (s.crownAt la) 128
    let q := s.eccRead .l (s.crownAt la) 128
    if !q.2.isEmpty then q.1.consume (accessInfo (consumed (o + badOffset (s.crownAt la) q.2)) r a)
    else f (BitVec.ofNat 1024 (bytesNat bs)) q.1

/-- Steps 2 to 7 of R270, the destination first in each (DEDUCED for the rights of step 3, log 22). Answers the failure and the handle register it
names. -/
def State.copyShape (s : State) (d m : Side) : Option (Flt × BitVec 4) :=
  let c := s.lat.iss
  let df := d.rg.fmt c d.h
  let mf := m.rg.fmt c m.h
  let bad (x : Side) (f : Flt) : Option (Flt × BitVec 4) := some (f, x.reg)
  let fields : Flt := { code := 0x06, reason := 5, off := 0 }
  match s.sideClass d, s.sideClass m with
  | some f, _ => bad d f
  | none, some f => bad m f
  | none, none =>
    match sideRights d, sideRights m with
    | some f, _ => bad d f
    | none, some f => bad m f
    | none, none =>
      if !d.rg.fieldsOk d.h c then bad d fields
      else if !m.rg.fieldsOk m.h c then bad m fields
      else if d.rg.total ≠ m.rg.total ∨ ((df = 0) ≠ (mf = 0)) then bad d fields
      else if !d.rg.aligned df then bad d { code := 0x04, reason := 0, off := d.rg.misaligned df }
      else if !m.rg.aligned mf then bad m { code := 0x04, reason := 0, off := m.rg.misaligned mf }
      else match sideBounds d df, sideBounds m mf with
        | some f, _ => bad d f
        | none, some f => bad m f
        | none, none =>
          if hClass d.h ≤ 2 ∧ hClass d.h = hClass m.h ∧ hObj d.h = hObj m.h ∧ spansMeet (sideSpan d df) (sideSpan m mf) then
            bad d { code := 0x06, reason := 7, off := (d.rg.at df 0).1 }
          else none

/-- Package and half of a global address: 256 for the host half. -/
def spaceOf (g : Nat) : Nat :=
  match remotePackage g with
  | some (p, _) => p
  | none => if deviceHalf g then Config.packageNo else 256

/-- Global addresses of a K or G side; none of a W or A side. -/
def sideGlobals (d : Side) (ls : List (Loc × Nat × Nat)) : List Nat := if hClass d.h ≤ 2 then [] else ls.map (·.2.1)

/-- Span of the global addresses of a side, as their package numbers them. -/
def globalSpan (gs : List Nat) (f : BitVec 8) : Int × Int := spanOf (gs.map fun g => (localForm g : Int)) (elemBytes f)

/-- Steps 8 and 9 of R270, with the limits of a fall-back read (R278) and the protection of the telemetry (R304). -/
def State.copyGlobal (s : State) (d m : Side) : Except (Flt × BitVec 4) (List (Loc × Nat × Nat) × List (Loc × Nat × Nat)) :=
  let df := d.rg.fmt s.lat.iss d.h
  let mf := m.rg.fmt s.lat.iss m.h
  match s.sideLocs d df with
  | .error f => .error (f, d.reg)
  | .ok ld => match s.sideLocs m mf with
    | .error f => .error (f, m.reg)
    | .ok lm =>
      let dg := sideGlobals d ld
      let mg := sideGlobals m lm
      let back (g : Nat) : Bool := match remotePackage g with
        | some (_, b) => b
        | none => false
      if dg.any fun g => s.hub.isTelemetry g (elemBytes df) then .error ({ code := 0x07, reason := 0, off := (d.rg.at df 0).1 }, d.reg)
      else if dg.any back then .error ({ code := 0x08, reason := 2, off := (d.rg.at df 0).1 }, d.reg)
      else if mg.any fun g => back g && (g.testBit 62 || dg.any fun x => (remotePackage x).isSome) then
        .error ({ code := 0x08, reason := 2, off := (m.rg.at mf 0).1 }, m.reg)
      else if !dg.isEmpty && !mg.isEmpty && spaceOf (dg.headD 0) == spaceOf (mg.headD 0) &&
          spansMeet (globalSpan dg df) (globalSpan mg mf) then
        .error ({ code := 0x06, reason := 7, off := (d.rg.at df 0).1 }, d.reg)
      else .ok (ld, lm)

/-- Step 10: a lost package among the addresses of a side. -/
def State.lostIn (s : State) (gs : List Nat) : Option Nat :=
  gs.findSome? fun g => match remotePackage g with
    | some (p, _) => if s.hub.lost.contains p then some p else none
    | none => none

/-- Whether a write window admits every element of a destination outside the core's own crown and towers (11 R357). -/
def State.copyInWindow (s : State) (d : Side) (f : BitVec 8) : Bool :=
  (hClass d.h ≤ 2 && decide (hObj d.h = s.logical)) ||
  (List.range d.rg.total).all fun e =>
    let p := (d.rg.at f e).1
    if hClass d.h = 1 then s.c.inTowerWindow (hObj d.h) (p.toNat / 2 ^ 23) (fld (hBase d.h) 0 23 + p % 2 ^ 23) (elemBytes f)
    else s.c.inSegWindow d.h p (elemBytes f)

/-- The barrier form's handle: K or G with the at right (R280). -/
def barrierHandle (h : QWord) (o : Int) : Option Flt :=
  if hClass h = 0 then some { code := 0x05, reason := 0, off := o }
  else if hClass h ≠ 3 ∧ hClass h ≠ 4 then some { code := 0x08, reason := 0, off := o }
  else if !hAt h then some { code := 0x07, reason := 0, off := o }
  else none

/-- Whether a side names a tower that its owner's table remaps (R266, Ar). -/
def State.sideRemapped (s : State) (d : Side) (f : BitVec 8) : Bool :=
  hClass d.h == 1 && (List.range d.rg.total).any fun e =>
    let t := (d.rg.at f e).1.toNat / 2 ^ 23
    s.towerOn ((s.hub.ownerOf d.h).getD s.core.phys) t != t

/-- Ar and Af of R266. -/
def State.towerTerms (s : State) (remapped tower : Bool) : Nat × Nat :=
  (if remapped then 2 else 0, if tower && !s.deferring then 96 else 0)

/-- The address that the place of a source is told by: its replica's, where this package replicates it (08 R230). -/
def State.sourceAddr (s : State) (l : Loc × Nat × Nat) : Nat :=
  if (remotePackage l.2.1).isSome then l.2.1 else readHome s.board l.2

/-- The times of a copy between sides whose first elements have these places (R266), and its Af. -/
def State.copyBurst (s : State) (d m : Side) (dl ml : Loc × Nat × Nat) : Burst × Nat :=
  let df := d.rg.fmt s.lat.iss d.h
  let mf := m.rg.fmt s.lat.iss m.h
  let pd := s.placeOf d dl.2.1
  let pm := s.placeOf m (s.sourceAddr ml)
  let tower := decide (hClass d.h = 1 ∨ hClass m.h = 1)
  let t := s.towerTerms (s.sideRemapped d df || s.sideRemapped m mf) tower
  ({ lead := s.sideLatency pm false + s.sideLatency pd true
     bytes := max ((d.rg.total * fmtBits df + 7) / 8) ((m.rg.total * fmtBits mf + 7) / 8)
     rate := min (min (s.hub.power.admits pd (sideRate pd tower)) (s.hub.power.admits pm (sideRate pm tower))) s.hub.power.rateCap
     extra := t.1 }, t.2)

/-! ## The course of a transfer (R266, R273, R274) -/

/-- 4 KiB granules of the places of a crown side. -/
def crownPages (ls : List Loc) : List Nat := ((ls.filter fun l => isCrown l.addr).map fun l => l.addr / 4096 * 4096).eraseDups

/-- Places of both sides of a copy in hand, with their element widths in bytes: destination, source. -/
def State.copyPlaces (s : State) (op : Slotted) (pair : BitVec 1024) (h m : BitVec 4) (dmap smap : SideMap) :
    (List Loc × Nat) × (List Loc × Nat) :=
  let sides := copySides op pair h m
  let df := sides.1.rg.fmt op.iss sides.1.h
  let mf := sides.2.rg.fmt op.iss sides.2.h
  ((s.heldLocs sides.1 df dmap, elemBytes df), (s.heldLocs sides.2 mf smap, elemBytes mf))

/-- Ranges of global memory that a transfer reads. -/
def State.sourceSpans (s : State) (w : Work) : List (Nat × Nat) :=
  match w with
  | .copy op dmap smap pair _ => match op.instr with
    | .copy _ h m _ _ _ _ _ _ =>
      if hClass (op.iss.rh m) ≤ 2 then [] else
      let p := (s.copyPlaces op pair h m dmap smap).2
      p.1.map fun l => (l.addr, p.2)
    | _ => []
  | .refill src len _ _ _ _ => [(src, len)]
  | _ => []

/-- The granules that a copy in hand sets empty when it completes (R274). -/
def State.copyEmpties (s : State) (w : Work) : List Nat :=
  match w with
  | .copy op dmap smap pair _ => match op.instr with
    | .copy _ h m _ _ _ _ t _ => if t = 1 then crownPages (s.copyPlaces op pair h m dmap smap).2.1 else []
    | _ => []
  | _ => []

/-- The source granules of a copy that waits for them are full, and no earlier copy has still to empty one (R273, R274). -/
def State.copyFed (s : State) (o : Out) : Bool :=
  match o.work with
  | .copy op dmap smap pair _ => match op.instr with
    | .copy _ h m _ _ _ w _ _ =>
      w == 0 || (crownPages (s.copyPlaces op pair h m dmap smap).2.1).all fun g =>
        !s.mem.empty.contains g && !s.outs.any fun x => decide (x.id < o.id) && (s.copyEmpties x.work).contains g
    | _ => true
  | _ => true

/-- Whether a transfer moves data to or from a physical tower of a core, or a product takes its A rows from it. -/
def State.usesTowerOn (s : State) (w : Work) (phys tower : Nat) : Bool :=
  let names := (List.range 16).any fun t => s.towerOn phys t == tower
  match w with
  | .copy op _ _ pair _ => match op.instr with
    | .copy _ h m _ _ _ _ _ _ =>
      let sides := copySides op pair h m
      [sides.1, sides.2].any fun d =>
        hClass d.h == 1 && s.hub.ownerOf d.h == some phys &&
        (List.range d.rg.total).any fun e => s.towerOn phys ((d.rg.at (d.rg.fmt op.iss d.h) e).1.toNat / 2 ^ 23) == tower
    | _ => false
  | .refill _ _ t _ ranks _ => phys / 8 == s.core.phys / 8 && ranks.getLsbD (rankOf phys) && s.towerOn phys t == tower
  | .shift _ _ lands _ _ => (phys == s.core.phys || lands.contains phys) && names
  | .tile op _ => (match op.instr with
    | .mma _ _ _ z _ => z == 1
    | .mmaCk _ _ _ z _ => z == 1
    | _ => false) && phys == s.core.phys && names
  | _ => false

/-- The same of a tower of this core. -/
def State.usesTower (s : State) (w : Work) (tower : Nat) : Bool := s.usesTowerOn w s.core.phys tower

/-- A transfer may begin: its engine is free, and its source granules are full where it waits for them. -/
def State.mayBegin (s : State) (o : Out) : Bool := !s.engineHeld o && s.copyFed o

/-- A transfer in its data phase moves nothing in the 96 cycles after cycle `t`: units moved up to then are complete, and the others follow
(R295, R300). -/
def Out.split (o : Out) (t : Nat) : Out :=
  match o.work.burst.map Burst.stage with
  | some (Stage.moving start) =>
    if o.due ≤ t + 1 then o
    else
      let again := max start (t + 97)
      { o with due := again + (o.due - max start (t + 1)), work := o.work.withStage (.moving again) }
  | _ => o

/-- A transfer begins: its data phase follows its side latencies, and it moves nothing while a refresh blocks a tower of it (R291, R295,
R300). -/
def State.begun (s : State) (o : Out) : Out :=
  match o.work.burst with
  | some b =>
    let start := s.now + b.lead
    let go : Out := { o with due := start + b.time s.hub.power.clock, work := o.work.withStage (.moving start) }
    let own := s.core.blocked.foldl (fun (g : Out) x => if s.usesTower o.work x.1 then g.split (x.2 - 96) else g) go
    s.hub.farBlocked.foldl (fun (g : Out) x => if s.usesTowerOn o.work x.1 x.2.1 then g.split (x.2.2 - 96) else g) own
  | none => o

/-- A transfer in hand begins. -/
def State.beginData (s : State) (o : Out) : State := s.again o.id (s.begun o).due (s.begun o).work

/-- A transfer that has just been put in hand begins in the same cycle where it may. -/
def State.beginLaunched (s : State) : State :=
  match s.outs.getLast? with
  | some o => if s.mayBegin o then { s with outs := s.outs.dropLast ++ [s.begun o] } else s
  | none => s

/-- Copies that the copy engine of the core holds, of either bank (R273). -/
def State.copiesHeld (s : State) : Nat :=
  (s.outs.filter fun o => match o.work with
    | .copy _ _ _ _ _ => true
    | _ => false).length

/-- `copy` (R280): the checks of R270, those of the barrier form and of a segment, then the promise and the queue. The offset of
a side comes from no a register, so sr.einfo names a0 for it (08 R228; log 22). -/
def execCopy (d h m r a : BitVec 4) (fs fw ft bo : BitVec 1) (s : State) : Ans :=
  .next (s.recordPair r a fun pair s =>
    let op := s.slotted (.copy d h m r a fs fw ft bo)
    let sides := copySides op pair h m
    let df := sides.1.rg.fmt op.iss sides.1.h
    match s.copyShape sides.1 sides.2 with
    | some (f, reg) => s.fault f reg 0
    | none => match s.copyGlobal sides.1 sides.2 with
      | .error (f, reg) => s.fault f reg 0
      | .ok (ld, lm) =>
        let dg := sideGlobals sides.1 ld
        let mg := sideGlobals sides.2 lm
        let lent := ((op.ext.map fun (e : Ext) => e.t).getD 0).toNat
        let hb : BitVec 4 := BitVec.ofNat 4 (lent % 16)
        let ab : BitVec 4 := BitVec.ofNat 4 (lent / 16)
        match s.lostIn dg, s.lostIn mg with
        | some p, _ => s.raise 0x0A (BitVec.ofNat 64 (p + h.toNat * 256))
        | none, some p => s.raise 0x0A (BitVec.ofNat 64 (p + m.toNat * 256))
        | none, none =>
          match if bo = 1 then barrierHandle (s.c.rh hb) (s.offset ab 0) else none with
          | some f => s.fault f hb ab
          | none =>
            if s.c.segOpen && (bo == 1 || dg.any fun g => !deviceHalf g) then s.segFault 2 (if bo = 1 then hb else h)
            else if s.c.segOpen && !s.copyInWindow sides.1 df then s.segFault 0 h
            else s.counted .cp fun s =>
              if 8 ≤ s.copiesHeld then s.stall else
              let p := s.copyBurst sides.1 sides.2 (ld.headD (⟨0, 0, 0⟩, 0, 0)) (lm.headD (⟨0, 0, 0⟩, 0, 0))
              let due := s.engineEnd 0 s.nextId + p.1.lead + p.1.time s.hub.power.clock
              (s.promised d .k (due + p.2 + Config.strikeHold) due (.copy op (s.sideMap sides.1) (s.sideMap sides.2) pair p.1)).beginLaunched)

/-! ## Promises and status (R281) -/

/-- Promised operations of the bead that are outstanding. -/
def State.promisedOuts (s : State) : List Out := s.outs.filter fun o => o.bank == s.core.bank && o.promise.isSome

def execCopyq (d : BitVec 4) (s : State) : Ans :=
  let es := s.promisedOuts.map s.estimate
  let best := es.foldl max 0
  let u := s.wa d (BitVec.ofNat 64 (if es.isEmpty then s.now else best))
  .next { u with outs := s.outs.map fun o =>
    if o.bank == s.core.bank && o.promise.isSome then { o with promise := some (s.estimate o) } else o }

/-- Sticky fields of the status word: bits 8 to 12 (Table 9-7). -/
def stickyMask : DWord := 0x1F00

def execCopyqSt (d : BitVec 4) (s : State) : Ans :=
  let w := putField s.c.xstat 0 6 s.promisedOuts.length
  let s := s.wa d w
  .next { s with c := { s.c with xstat := s.c.xstat &&& ~~~stickyMask } }

/-! ## Stopping transfers (R282; 09 R277, 11 R360) -/

/-- Write pieces at their homes: every replica, the board caches, then memory. -/
def State.deposit (s : State) (bank : Bool) (cbmap : DWord) (ps : List Part) : State :=
  let ps := s.spread ps
  (s.portWrite ps).commit bank cbmap false ps

/-- Poison granules, in every replica (08 R235; 09 R275; 10 R316). -/
def State.poisonAll (s : State) (gs : List Nat) : State :=
  { s with mem := ((s.spread (gs.map fun g => { addr := g, bytes := [] })).map (·.addr)).foldl Mem.setPoison s.mem }

/-- Set status bits of a bead. -/
def Ctx.addStatus (c : Ctx) (mask : DWord) : Ctx := { c with xstat := c.xstat ||| mask }

/-- An operation in hand sets status bits of its bead. -/
def State.status (s : State) (o : Out) (mask : DWord) : State := s.settle o (·.addStatus mask)

/-- A promised operation leaves its engine, with its samples (12 Table 12-9). -/
def State.leaveEngine (s : State) (o : Out) : State :=
  let s := match o.work with
    | .shift _ _ _ _ _ => s
    | _ => s.sampleAll 0 (s.now - o.issued : Nat)
  let s := match o.promise with
    | some p => s.sampleAll 1 ((p : Int) - s.now)
    | none => s
  s.drop o.id

/-- Some of the 32-byte units of the bytes of a stopped operation are written, which ones being free (log 10). -/
def State.someUnits (s : State) (bank : Bool) (cbmap : DWord) (bs : List (Nat × Byte)) (poison : List Nat) : State :=
  let keep (a : Nat) : Bool := Config.freeChoice s.fresh (a / 32)
  let s1 := s.deposit bank cbmap (runsOf (bs.filter fun b => keep b.1))
  { s1.poisonAll (poison.filter keep) with fresh := s1.fresh + 1 }

/-- The pieces of a refill: the bytes at its source, in tower `t` of each selected core of the file (R288). -/
def State.refillParts (s : State) (src len t off : Nat) (ranks : BitVec 8) : List Part :=
  let bs := s.mem.bytes src len
  ((List.range 8).filter fun k => ranks.getLsbD k).map fun k =>
    let phys := s.core.phys / 8 * 8 + k
    { addr := towerAddr phys (s.towerOn phys t) off, bytes := bs }

/-- Poisoned destination granules of a refill: those whose source granule is bad. -/
def refillPoison (src : Nat) (bad : List Nat) (ps : List Part) : List Nat :=
  ps.flatMap fun p => bad.map fun g => p.addr + (g - src)

def partBytes (ps : List Part) : List (Nat × Byte) := ps.foldl (fun l p => putBytes l p.addr p.bytes) []

/-- Stop a copy or a refill in hand: its destination holds old or new bytes per 32-byte unit, it changes no full/empty
bit, makes no arrival and leaves its counter. One that has not begun has written nothing. -/
def State.stopTransfer (s : State) (o : Out) : State :=
  let u : State := match (o.work.burst.map (·.stage)).getD .queued, o.work with
    | .landing ps map poison _ _ _, _ => s.someUnits o.bank map (partBytes ps) poison
    | .moving _, .copy op dmap smap pair _ => match op.instr with
      | .copy _ h m _ _ _ _ _ _ =>
        let r := s.copyMove o.bank o.id op pair h m dmap smap
        (if Config.freeChoice s.fresh 0 then r.1 else s).someUnits o.bank dmap.strips r.2.1 r.2.2.2
      | _ => s
    | .moving _, .refill src len t off ranks _ =>
      let ps := s.refillParts src len t off ranks
      let e := s.mem.checks s.fresh (granules src len)
      ({ s with mem := e.1 }).someUnits o.bank 0 (partBytes ps) (refillPoison src e.2 ps)
    | _, _ => s
  u.leaveEngine o

/-- Copies and refills of a bank's bead. -/
def State.stoppable (s : State) (bank : Bool) : List Out :=
  s.outs.filter fun o => o.bank == bank && match o.work with
    | .copy _ _ _ _ _ => true
    | .refill _ _ _ _ _ _ => true
    | _ => false

/-- Stop every incomplete copy and refill of a bank's bead. -/
def State.stopAll (s : State) (bank : Bool) : State := (s.stoppable bank).foldl State.stopTransfer s

def execCancel (s : State) : Ans :=
  .next (if (s.stoppable s.core.bank).isEmpty then s else (s.stopAll s.core.bank).onBank s.core.bank (·.addStatus 0x800))

/-! ## The weight stream (R285) -/

/-- A queued product that has still to take rows of the stream. -/
def Out.usesStream (o : Out) : Bool :=
  match o.work with
  | .tile op w => !w.fed && match op.instr with
    | .mma _ _ _ z _ => z == 2
    | .mmaCk _ _ _ z _ => z == 2
    | _ => false
  | _ => false

/-- A formats of Table 6-6: FP32, BF16, FP16, the integers of 4 to 16 bits and KkPp. -/
def operandFmt (f : BitVec 8) : Bool :=
  fmtBits f != 0 && f != 0x00 && f != 0x0B && f != 0x0F

/-- Where the first byte of a stream lies. -/
def State.streamPlace (s : State) (h : QWord) (off : Int) : Place :=
  match s.hub.translate h off 1 with
  | .ok ge => s.placeOf { reg := 0, h := h, rg := 0, dst := false } (readHome s.board ge)
  | .error _ => .hbm s.board

def execWstr (h o l n p : BitVec 4) (s : State) : Ans :=
  let off := s.offset o 0
  let len := (s.c.ra l).toNat
  let par := (s.c.ra p).toNat
  let range : Flt := { code := 0x06, reason := 6, off := off }
  match s.offsetGlobal h off (max len 1) 8 canRead with
  | .error f => .next (s.fault f h o)
  | .ok _ =>
    if fld par 10 54 ≠ 0 ∨ (s.c.ra n).toNat = 0 ∨ 2 ^ 32 ≤ (s.c.ra n).toNat then .next (s.fault range h o)
    else if !operandFmt (BitVec.ofNat 8 par) ∨ fld par 8 2 = 3 then .next (s.raise 0x01 (wordInfo s.lat.slot false false s.lat.word))
    else if s.outs.any fun x => x.bank == s.core.bank && x.usesStream then .next s.stall
    else .next { s with c := { s.c with
      wstr := some { handle := s.c.rh h, off := off.toNat, len := len, rows := (s.c.ra n).toNat, fmt := BitVec.ofNat 8 par,
                     width := 128 * 2 ^ fld par 8 2, pos := 0
                     since := s.coreAfter (s.sideLatency (s.streamPlace (s.c.rh h) off) false), rate := s.hub.power.streamRate } } }

/-! ## Broadcast refill (R286-R288) -/

/-- Whether the W window of an allotment word (Table 11-1) covers a tower range. -/
def allotCovers (home : DWord) (t off len : Nat) : Bool :=
  home.getLsbD (16 + t) && decide (fld home.toNat 32 13 * 1024 ≤ off ∧ off + len ≤ (fld home.toNat 32 13 + fld home.toNat 45 14) * 1024)

/-- The beads that another core holds, of the issuing bead's clasp. -/
def State.matesOn (s : State) (phys : Nat) : List Guest :=
  if s.c.claspNo = 0 then []
  else if phys = s.core.phys then []
  else (s.hub.other phys).guests.filter fun g => fbv 20 16 g.bead.toNat == s.c.claspNo

/-- Physical towers marked failed on a core (12 R412). -/
def State.failedOn (s : State) (phys : Nat) : List Nat :=
  if phys = s.core.phys then s.core.failed else (s.hub.other phys).failed

/-- Checks 4 and 5 of R287: the first rank that refuses, then the first whose tower failed. -/
def State.refillRanks (s : State) (t off len : Nat) (ranks : BitVec 8) : Option (BitVec 8 × DWord) :=
  let ks := (List.range 8).filter fun k => ranks.getLsbD k
  let phys (k : Nat) : Nat := s.core.phys / 8 * 8 + k
  match ks.find? fun k => phys k != s.core.phys && !(s.matesOn (phys k)).any fun g => allotCovers g.home t off len with
  | some k => some (0x07, BitVec.ofNat 64 (2 ^ (56 + k)))
  | none => match ks.find? fun k => (s.failedOn (phys k)).contains (s.towerOn (phys k) t) with
    | some k => some (0x15, BitVec.ofNat 64 (t + phys k * 16))
    | none => none

/-- Whether the selected cores other than the issuing one lie in a write window (11 R357). -/
def State.refillInWindow (s : State) (t off len : Nat) (ranks : BitVec 8) : Bool :=
  ((List.range 8).filter fun k => ranks.getLsbD k).all fun k =>
    let phys := s.core.phys / 8 * 8 + k
    phys == s.core.phys || (s.hub.logicalOf phys).any fun l => s.c.inTowerWindow l t off len

def execFrfl (d h a w t : BitVec 4) (s : State) : Ans :=
  let par := (s.c.ra t).toNat
  let off := fld par 0 23
  let tw := fld par 23 4
  let units := fld par 32 16
  let len := units * 64
  let ranks := fbv 8 56 par
  let o := s.offset a 0
  let param (code : BitVec 8) (reason : Nat) : Flt := { code := code, reason := reason, off := off }
  if fld par 27 5 ≠ 0 ∨ fld par 48 8 ≠ 0 ∨ ranks = 0 ∨ units = 0 ∨ 1024 < units then .next (s.fault (param 0x06 6) h t)
  else if off % 64 ≠ 0 then .next (s.fault (param 0x04 0) h t)
  else match s.offsetGlobal h o len 64 canRead with
  | .error f => .next (s.fault f h a)
  | .ok ges =>
    let ge := ges.headD (0, 0)
    if !deviceHalf ge.1 then .next (s.fault { code := 0x08, reason := 2, off := o } h a)
    else match checkHandle s.logical (s.c.rh w) [1] canWrite off with
    | some f => .next (s.fault f w t)
    | none => match towerElem (s.c.rh w) tw (off - fld (hBase (s.c.rh w)) 0 23 : Int) len 1 with
      | .error f => .next (s.fault f w t)
      | .ok _ => match s.refillRanks tw off len ranks with
        | some (code, info) => .next (s.raise code info)
        | none =>
          if s.c.segOpen && !s.refillInWindow tw off len ranks then .next (s.segFault 0 w)
          else .next (s.counted .cp fun s =>
            let home := readHome s.board ge
            let place := if inStaging home then Place.staging (homeBoard home) else .hbm (homeBoard home)
            let remapped := ((List.range 8).filter fun k => ranks.getLsbD k).any fun k =>
              s.towerOn (s.core.phys / 8 * 8 + k) tw != tw
            let terms := s.towerTerms remapped true
            let b : Burst := { lead := s.sideLatency place false + 4, bytes := len, rate := min 64 (min s.hub.power.rateCap s.hub.power.portRate), extra := terms.1 }
            let due := s.engineEnd 1 s.nextId + b.lead + b.time s.hub.power.clock
            (s.promised d .k (due + terms.2 + Config.strikeHold) due (.refill home len tw off ranks b)).beginLaunched)

/-! ## Systolic shift (R289-R291) -/

/-- The core beyond an edge of a core on its board; directions 0 N, 1 E, 2 S, 3 W (R22). -/
def neighbour (phys : Nat) (dir : BitVec 2) : Option Nat :=
  let f := fileOf phys
  let k := rankOf phys
  match dir.toNat with
  | 0 => if k < 7 then some (phys + 1) else none
  | 1 => if f < 7 then some (phys + 8) else none
  | 2 => if 0 < k then some (phys - 1) else none
  | _ => if 0 < f then some (phys - 8) else none

/-- The cell one row or column away: its number, and whether the step crossed the core's edge (the number is then the
cell on the opposite edge). -/
def stepCell (c : Nat) (dir : BitVec 2) : Nat × Bool :=
  let r := c / 4
  let k := c % 4
  match dir.toNat with
  | 0 => ((r + 3) % 4 * 4 + k, r == 0)
  | 1 => (r * 4 + (k + 1) % 4, k == 3)
  | 2 => ((r + 1) % 4 * 4 + k, r == 3)
  | _ => (r * 4 + (k + 3) % 4, k == 0)

/-- Whether the core beyond an edge holds a bead of the issuing bead's clasp (Table 9-8). -/
def State.partner (s : State) (dir : BitVec 2) : Option Nat :=
  match neighbour s.core.phys dir with
  | some p => if (s.matesOn p).isEmpty then none else some p
  | none => none

def execShift (r m : BitVec 2) (h a d l : BitVec 4) (s : State) : Ans :=
  let hv := s.c.rh h
  let src := s.offset a 0
  let dst := s.offset d 0
  let len := (s.c.ra l).toNat
  let f : Int := fld (hBase hv) 0 23
  let rights (q : QWord) : Bool := hRd q && hWr q
  let mask := towerHandleOk hv && decide (fld (hBase hv) 23 16 = 0xFFFF)
  let bounds (o : Int) : Bool := mask && inWindow hv o len
  let out (o : Int) : Int := if mask then firstOutside hv o else o
  let away := if m = 2 then s.partner r else none
  if m = 3 then .next (s.raiseIssue 0x01)
  else match checkHandle s.logical hv [1] rights src with
  | some x => .next (s.fault x h a)
  | none =>
    if (f + src) % 64 ≠ 0 then .next (s.fault { code := 0x04, reason := 0, off := src } h a)
    else if (f + dst) % 64 ≠ 0 then .next (s.fault { code := 0x04, reason := 0, off := dst } h d)
    else if !bounds src then .next (s.fault { code := 0x06, reason := 1, off := out src } h a)
    else if !bounds dst then .next (s.fault { code := 0x06, reason := 1, off := out dst } h d)
    else if len = 0 ∨ 65536 < len ∨ len % 64 ≠ 0 then .next (s.fault { code := 0x06, reason := 6, off := src } h a)
    else if src < dst + len ∧ dst < src + len then .next (s.fault { code := 0x06, reason := 7, off := dst } h d)
    else if s.c.segOpen && away.any fun p => !(((List.range 16).filter fun c => (stepCell c r).2).all fun c =>
        (s.hub.logicalOf p).any fun n => s.c.inTowerWindow n (stepCell c r).1 (f + dst) len) then
      .next (s.segFault 0 h)
    else .next (s.counted .cp fun s =>
      let remapped := (List.range 16).any fun t => s.core.tower t != t || (away.map fun p => s.towerOn p t != t).getD false
      let dropped := if m = 0 ∨ (m = 2 ∧ away = none) then ((List.range 16).filter fun c => (stepCell c r).2).length else 0
      (s.launch .k .cp 0 none
        (.shift (s.slotted (.shift r m h a d l)) (if m = 2 then dropped else 0) away.toList
          (m == 0 || (m == 2 && (s.partner (r + 2)).isNone))
          { lead := 0, bytes := len + 64 * (4 + if remapped then 2 else 0), rate := 64, extra := 0 })).beginLaunched)

/-! ## Reduce (R292-R294) -/

/-- sr.einfo of trap 0x18 (11 R366). -/
def claspInfo (reason : Nat) (clasp : BitVec 20) : DWord := BitVec.ofNat 64 (reason + clasp.toNat * 2 ^ 32)

/-- The clasp table's entry. -/
def Hub.clasp (k : Hub) (n : BitVec 20) : Option Clasp := k.clasps.find? (·.number == n)

/-- Ceiling of the base-2 logarithm of n > 0. -/
def clog2 (n : Nat) : Nat := if n ≤ 1 then 0 else (n - 1).log2 + 1

def execReduce (d h a o k : BitVec 4) (s : State) : Ans :=
  let n := fld (s.c.ra k).toNat 0 11
  let src := s.offset a 0
  let dst := s.offset o 0
  let rights (q : QWord) : Bool := hRd q && hWr q
  let meets (x y : Int) : Bool := decide (x < y + 4 * n ∧ y < x + 4 * n)
  if s.c.claspNo = 0 then .next (s.raise 0x18 (claspInfo 6 0))
  else match checkHandle s.logical (s.c.rh h) [2] rights src with
  | some f => .next (s.fault f h a)
  | none =>
    if fld (s.c.ra k).toNat 11 5 ≠ 0 ∨ fld (s.c.ra k).toNat 32 32 ≠ 0 ∨ n = 0 ∨ 1024 < n then
      .next (s.fault { code := 0x06, reason := 6, off := src } h a)
    else match resolveAll (fun (e : Int × BitVec 4 × Nat × Nat) => match offsetElem (s.c.rh h) e.1 e.2.2.1 e.2.2.2 with
        | .error f => Except.error { f with reason := f.reason + 16 * e.2.1.toNat }
        | .ok la => .ok la)
        [(src, a, 4 * n, 32), (dst, o, 4 * n, 32), (dst + 4 * n, o, 4 * n, 4)] with
      | .error f => .next (s.fault { f with reason := f.reason % 16 } h (BitVec.ofNat 4 (f.reason / 16)))
      | .ok las =>
        if meets src dst || meets src (dst + 4 * n) then .next (s.fault { code := 0x06, reason := 7, off := dst } h o)
        else if s.c.segOpen then .next (s.segFault 2 h)
        else .next (s.counted .cp fun s =>
          let at0 := s.crownAt (las.headD 0)
          let bs := s.bytes .x at0 (4 * n)
          let q := s.eccRead .x at0 (4 * n)
          if !q.2.isEmpty then q.1.consume (accessInfo (consumed (src + badOffset at0 q.2)) h a)
          else
            let packages := ((s.hub.clasp s.c.claspNo).map (·.packages.length)).getD 1
            let due := s.now + 300 + (n + 15) / 16 + 220 * clog2 packages + 32
            let vals := (List.range n).map fun l => BitVec.ofNat 32 (bytesNat ((bs.drop (4 * l)).take 4))
            q.1.promised d .x due due (.reduce (s.slotted (.reduce d h a o k)) vals))

/-! ## Tower refresh (R295-R300) -/

/-- First cell address of a tower group's 64 rows. -/
def State.groupAt (s : State) (tower : Nat) (group : Nat) : Nat := towerAddr s.core.phys tower (group * 65536)

/-- A scrub or refresh reads a range through ECC (12 R388): single errors are corrected, uncorrectable granules are
poisoned and a record of type 2 is posted for each. -/
def State.scrub (s : State) (lo n : Nat) : State :=
  let gs := (s.mem.suspects lo n).eraseDups
  let e := s.mem.checks s.fresh gs
  let bad := e.2.filter fun g => !s.mem.poison.contains g
  let m := { e.1 with wrong := setDelRange e.1.wrong (8 * lo) (8 * n), poison := bad.foldl setAdd e.1.poison }
  bad.foldl (fun s g => s.post 2 0 s.core.phys 0 (BitVec.ofNat 64 g) (s.dropWord s.c.cbmap g))
    { s with mem := m, fresh := s.fresh + if gs.isEmpty then 0 else 1 }

/-- Bytes of a burst moved before a cycle, its further cycles for remapped towers coming last (R295). -/
def State.movedBefore (s : State) (b : Burst) (due t : Nat) : Nat :=
  min b.bytes ((moveCycles b.bytes b.rate s.hub.power.clock - (due - b.extra - t)) * b.rate * s.hub.power.clock / 700)

/-- A transfer is moving data to or from a tower of a core and ends none of its rows of 1 KiB in this cycle; rows count from its first
byte (R295; log 43). -/
def State.midRowOn (s : State) (phys tower : Nat) : Bool :=
  s.outs.any fun o => match o.work.burst with
    | some b => (match b.stage with
      | .moving start => decide (start ≤ s.now ∧ s.now + 1 < o.due) && s.usesTowerOn o.work phys tower &&
          s.movedBefore b o.due s.now / 1024 == s.movedBefore b o.due (s.now + 1) / 1024
      | _ => false)
    | none => false

/-- The same of a tower of this core. -/
def State.midRow (s : State) (tower : Nat) : Bool := s.midRowOn s.core.phys tower

/-- A group of another core's tower is refreshed in this cycle: a broadcast that selects the core, a shift or a copy that uses the tower
waits (R288, R291, R300). -/
def State.farRefresh (s : State) (phys tower : Nat) : State :=
  { s with
    hub := { s.hub with farBlocked := (phys, tower, s.now + 96) :: s.hub.farBlocked.filter fun b => decide (s.now ≤ b.2.2) }
    outs := s.outs.map fun o => if s.usesTowerOn o.work phys tower then o.split s.now else o }

/-- A group refresh in cycle `t`: its rows pass ECC, its tower is blocked for 96 cycles, and a burst that uses the tower
moves by as much. -/
def State.refresh (s : State) (tower group t : Nat) : State :=
  let s := s.scrub (s.groupAt tower group) 65536
  { s with
    core := { s.core with
      refreshed := (tower, group, t) :: s.core.refreshed.filter fun r => !(r.1 == tower && r.2.1 == group)
      overdue := s.core.overdue.filter (· != (tower, group))
      blocked := s.core.blocked ++ [(tower, t + 96)] }
    outs := s.outs.map fun o => if s.usesTower o.work tower then o.split t else o }

/-- Whether every row of a group is dead: such a group is skipped (R295). -/
def State.groupDead (s : State) (tower group : Nat) : Bool :=
  (List.range 64).all fun i => s.mem.dead.contains (s.groupAt tower group + 1024 * i)

/-- Whether a refresh blocks a tower in this cycle: from the cycle after it begins (R295, R300). -/
def State.isBlocked (s : State) (tower : Nat) : Bool := s.core.blocked.any fun b => b.1 == tower && decide (b.2 < s.now + 96 ∧ s.now ≤ b.2)

/-- Whether a tower can begin no other refresh in this cycle. -/
def State.refreshing (s : State) (tower : Nat) : Bool := s.core.blocked.any fun b => b.1 == tower && decide (s.now < b.2)

/-- Cycle of a group's last refresh. -/
def State.refreshedAt (s : State) (t g : Nat) : Nat :=
  ((s.core.refreshed.find? fun r => r.1 == t && r.2.1 == g).map (·.2.2)).getD 0

/-- The overdue group of a tower that has waited longest (R297). -/
def State.oldestOverdue (s : State) (t : Nat) : Option Nat :=
  ((s.core.overdue.filter (·.1 == t)).map (·.2)).foldl (fun m g => match m with
    | some x => if s.refreshedAt t g < s.refreshedAt t x then some g else m
    | none => some g) none

/-- The group that a tower may refresh now, by normal refresh: none while it is blocked or in the middle of a burst's row; overdue groups
first, oldest first (R295, R297). -/
def State.catchUpGroup (s : State) (t : Nat) : Option Nat :=
  if s.refreshing t || s.midRow t then none else s.oldestOverdue t

/-- Every tower that may refresh an overdue group does (R297, catch-up). -/
def State.catchUp (s : State) : State :=
  (List.range 17).foldl (fun s t => match s.catchUpGroup t with
    | some g => s.refresh t g s.now
    | none => s) s

/-- Deferral ends: normal refresh resumes and overdue groups are caught up. -/
def State.endDeferral (s : State) : State := ({ s with core := { s.core with deferEnd := none } }).catchUp

/-- `tdefer` (R298). -/
def execTdefer (a : BitVec 4) (s : State) : Ans :=
  if (s.c.ra a).toNat ≤ s.now then .next (if s.core.deferEnd.isSome then s.endDeferral else s)
  else .next { s with core := { s.core with deferEnd := some (s.c.ra a).toNat } }

/-! ## Dead regions (R301-R303) -/

/-- The checks of a range of whole rows in one tower: a(ao) is a tower address, which h's window must hold (R302, 12 R412). Answers the
cell address. -/
def State.rowsCheck (s : State) (h o l : BitVec 4) (right : QWord → Bool) : Except Flt Nat :=
  let p := s.offset o 0
  let len := (s.c.ra l).toNat
  match checkHandle s.logical (s.c.rh h) [1] right p with
  | some f => .error f
  | none =>
    if p % 1024 ≠ 0 ∨ len % 1024 ≠ 0 then .error { code := 0x04, reason := 0, off := p }
    else if p < 0 ∨ (2 ^ 27 : Int) ≤ p then .error { code := 0x06, reason := 1, off := p }
    else
      let lo : Int := fld (hBase (s.c.rh h)) 0 23
      match towerElem (s.c.rh h) (p.toNat / 2 ^ 23) (p % 2 ^ 23 - lo) len 1 with
      | .error f => .error { f with off := p - p % 2 ^ 23 + lo + f.off }
      | .ok f => .ok (s.towerAt (p.toNat / 2 ^ 23) f)

/-- Whether pieces touch a range. -/
def partsMeet (ps : List Part) (lo n : Nat) : Bool := ps.any fun p => decide (p.addr < lo + n ∧ lo < p.addr + p.bytes.length)

def locsMeet (ls : List Loc × Nat) (lo n : Nat) : Bool := ls.1.any fun l => decide (l.addr < lo + n ∧ lo < l.addr + ls.2)

/-- Ranges of the towers of this core that a shift reads (source) and writes (destination). -/
def shiftRange (op : Slotted) (dst : Bool) : Nat × Nat :=
  match op.instr with
  | .shift _ _ h a d l =>
    (fld (hBase (op.iss.rh h)) 0 23 + (op.iss.ra (if dst then d else a)).toNat, (op.iss.ra l).toNat)
  | _ => (0, 0)

/-- Whether a transfer or a store in hand writes any of the `n` bytes from a cell address. -/
def State.writesRange (s : State) (o : Out) (lo n : Nat) : Bool :=
  match o.work with
  | .write ps _ _ _ => partsMeet ps lo n
  | .gstore ps _ => partsMeet ps lo n
  | .copy op dmap smap pair _ => match op.instr with
    | .copy _ h m _ _ _ _ _ _ => locsMeet (s.copyPlaces op pair h m dmap smap).1 lo n
    | _ => false
  | .refill _ len t off ranks _ =>
    partsMeet (((List.range 8).filter fun k => ranks.getLsbD k).map fun k =>
      let phys := s.core.phys / 8 * 8 + k
      { addr := towerAddr phys (s.towerOn phys t) off, bytes := List.replicate len 0 }) lo n
  | .shift op _ _ _ _ =>
    let r := shiftRange op true
    (List.range 16).any fun t => decide (s.towerAt t r.1 < lo + n ∧ lo < s.towerAt t r.1 + r.2)
  | _ => false

/-- `tdead` (R302). -/
def execTdead (h o l : BitVec 4) (s : State) : Ans :=
  match s.rowsCheck h o l canWrite with
  | .error f => .next (s.fault f h o)
  | .ok a =>
    let len := (s.c.ra l).toNat
    if s.outs.any fun x => s.writesRange x a len then .next s.stall
    else .next { s with mem := ((List.range (len / 1024)).map fun i => a + 1024 * i).foldl Mem.kill s.mem }

/-- `hdead` (R303). -/
def execHdead (h o l : BitVec 4) (s : State) : Ans :=
  let off := s.offset o 0
  let n := (s.c.ra l).toNat
  match s.globalCheck h [off] n 1 canWrite with
  | .error f => .next (s.fault f h o)
  | .ok ges =>
    let ge := ges.headD (0, 0)
    if !deviceHalf ge.1 || inStaging ge.1 then .next (s.fault { code := 0x08, reason := 2, off := off } h o)
    else if ge.1 % 1024 ≠ 0 ∨ n % 1024 ≠ 0 then .next (s.fault { code := 0x04, reason := 0, off := off } h o)
    else if s.hub.isTelemetry ge.1 n then .next (s.fault { code := 0x07, reason := 0, off := off } h o)
    else if s.c.segOpen && !s.c.inSegWindow (s.c.rh h) off n then .next (s.segFault 0 h)
    else .next (s.counted .st fun s =>
      let us := (writeHomes ge).flatMap fun g => (List.range (n / 1024)).map fun i => g + 1024 * i
      let due := (writeHomes ge).foldl (fun m g => max m (storeLatency s.hub s.board g)) 0
      s.launch .l .st (s.now + due) none (.hdead us))

end Sys2Proof.Machine
end

