-- ==== Sys2Proof/Machine/Tile.lean ====
section
/-! DEFINITION. Slot M: tile descriptors, the checks of tile operations, their queue, and what the engine computes for moves, planes, products and outlier merges (06_matrix_tiles.md; 03 R91, R92). -/

namespace Sys2Proof.Machine

/-! ## Descriptors (Table 6-3) -/

def dBase (d : QWord) : Nat := fld d.toNat 0 23
def dHi (d : QWord) : Nat := fld d.toNat 23 4
def dSkew (d : QWord) : Bool := d.getLsbD 27
def dRows (d : QWord) : Nat := fld d.toNat 28 12 + 1
def dCols (d : QWord) : Nat := fld d.toNat 40 12 + 1
def dPitch (d : QWord) : Nat := fld d.toNat 52 12
def dFmt (d : QWord) : BitVec 8 := fbv 8 64 d.toNat
def dTsc (d : QWord) : Int := (fbv 8 72 d.toNat).toInt
def dInf (d : QWord) : Bool := d.getLsbD 80
def dFe (d : QWord) : Nat := fld d.toNat 81 2
def dProgress (d : QWord) : Nat := fld d.toNat 84 8
def dAux (d : QWord) : Nat := fld d.toNat 92 16 * 128
/-- Row stride S in bytes. -/
def dS (d : QWord) : Nat := 32 * dPitch d
/-- Element size in bits. -/
def dBits (d : QWord) : Nat := fmtBits (dFmt d)

/-- Reserved bits are 0 and fe is legal. -/
def dLegal (d : QWord) : Bool := !d.getLsbD 83 && decide (fld d.toNat 108 20 = 0) && dFe d != 3

/-- The operation in execution with the descriptors, pivots and g registers that slot M has now (R179, R180). -/
def State.slottedM (s : State) (i : Instr) : Slotted :=
  { instr := i, slot := s.lat.slot, word := s.lat.word, addr := s.lat.addr, seq := s.lat.seq, ext := s.lat.ext,
    iss := { s.lat.iss with m := s.c.m, pv := s.c.pv, g := s.c.g } }

/-! ## mdset (R189) -/

/-- The descriptor after `mdset`; none for a field code or an immediate that Table 6-8 does not allow. -/
def mdField (d : QWord) (field imm : Nat) : Option QWord :=
  match field with
  | 0 => if imm < 2 ^ 23 then some (putField d 0 23 imm) else none
  | 1 => if imm < 16 then some (putField d 23 4 imm) else none
  | 2 => if 1 ≤ imm ∧ imm ≤ 4096 then some (putField d 28 12 (imm - 1)) else none
  | 3 => if 1 ≤ imm ∧ imm ≤ 4096 then some (putField d 40 12 (imm - 1)) else none
  | 4 => if imm < 4096 then some (putField d 52 12 imm) else none
  | 5 => if imm < 256 ∧ fmtBits (BitVec.ofNat 8 imm) ≠ 0 then some (putField d 64 8 imm) else none
  | 6 => if imm < 256 then some (putField d 72 8 imm) else none
  | 7 => if imm < 16 ∧ imm / 4 ≠ 3 then
      some (putField (putField (putField d 27 1 (imm % 2)) 80 1 (imm / 2 % 2)) 81 2 (imm / 4)) else none
  | 8 => if imm < 256 then some (putField d 84 8 imm) else none
  | 9 => if imm < 2 ^ 16 then some (putField d 92 16 imm) else none
  | 10 => if imm = 0 then some 0 else none
  | _ => none

/-- The immediate of `mdset`, with the EXT header's bits above bit 14. -/
def mdImm (i : BitVec 15) (e : Option Ext) : Nat :=
  i.toNat + 2 ^ 15 * match e with
    | some x => x.m.toNat
    | none => 0

def execMdset (m : BitVec 3) (f : BitVec 4) (i : BitVec 15) (s : State) : Ans :=
  match mdField (s.c.rm m) f.toNat (mdImm i s.lat.ext) with
  | some d => .next (s.wm m d)
  | none => .next (s.raiseIssue 0x01)

/-! ## Copies into m, pv and g (R190) -/

/-- The 64 bits land as they are: reserved bits of a descriptor (bits 83 and 127 to 108) are kept and read back, and a tile operation that uses a
descriptor with one of them set traps (R182; DESIGN CHOICE beside 00 R11, log 50). -/
def execXcXMatrix (r : BitVec 3) (x : BitVec 5) (k : BitVec 2) (q : BitVec 4) (s : State) : Ans :=
  let v := (s.lat.iss.rx x).toNat
  let lo := 64 * q.toNat
  if k = 0 ∧ q.toNat < 2 then
    .next (s.shadow 2 (.m r (BitVec.ofNat 128 ((2 ^ 64 - 1) * 2 ^ lo)) (BitVec.ofNat 128 (v * 2 ^ lo))))
  else if k = 1 ∧ r.toNat < 4 then
    .next (s.shadow 2 (.pv (r.setWidth 2) (BitVec.ofNat 1024 ((2 ^ 64 - 1) * 2 ^ lo)) (BitVec.ofNat 1024 (v * 2 ^ lo))))
  else if k = 2 ∧ q = 0 ∧ r.toNat < 4 then .next (s.shadow 2 (.g (r.setWidth 2) (s.lat.iss.rx x)))
  else .next (s.raiseIssue 0x01)

/-! ## Layouts (R173, R177, R178) -/

/-- Chunk depth and truncation window for the formats of A and B (03 R92). -/
def chunkDepth (a b : BitVec 8) : Nat :=
  let w := max (fmtBits a) (fmtBits b)
  if 16 ≤ w then 128 else if w = 8 then 256 else 512
def chunkWindow (a b : BitVec 8) : Int := if max (fmtBits a) (fmtBits b) = 32 then 72 else 40

/-- k rows of B that share a 32-byte unit. -/
def kRows (z : Nat) : Nat := 32 / max z 1

/-- Logical crown address and nibble of element (i, k) of a crown tile laid out by rows: C, A, `mzero` targets. -/
def rowElem (d : QWord) (i k : Nat) : Nat × Nat :=
  let la := dBase d + i * dS d + k * dBits d / 8
  (if dSkew d then skewed la i else la, if dBits d = 4 then k % 2 else 0)

/-- Element (k, n) of a B tile. -/
def colElem (d : QWord) (k n : Nat) : Nat × Nat :=
  let z := dBits d
  let r := kRows z
  let u := (k % r * 8 + n % 8) * z
  (dBase d + k / r * dS d + n / 8 * 32 + u / 8, if z = 4 then u / 4 % 2 else 0)

/-- Element (i, k) of an A tile in the towers: logical tower, offset and nibble. -/
def towerElemAt (d : QWord) (depth i k : Nat) : Nat × Nat × Nat :=
  let z := dBits d
  let per := depth / 16
  let unit := if z = 32 then 32 else 16
  (k % depth / per, dBase d + i * dS d + k / depth * unit + k % per * z / 8, if z = 4 then k % per % 2 else 0)

/-! ## Issue checks (R179) -/

/-- A descriptor in a role: 0 C, 1 A, 2 B, 3 aux. Source as [16:15] of `mma`: 0 crown, 1 tower, 2 stream, 3 lent. A
`target` is a tile of `mzero`. -/
structure Role where
  desc : QWord
  reg : BitVec 3
  role : Nat
  src : Nat := 0
  target : Bool := false
  depth : Nat := 128
  /-- of the factorisations (07 Table 7-2): 1 a tile of at most 128 rows and columns, 2 B of a right-side `mtrsm`, 3 and 4
  the row and column forms of `mperm`; 0 elsewhere -/
  kind : Nat := 0
  /-- a further limit of the instruction holds -/
  limit : Bool := true
  deriving DecidableEq, Repr

/-- Trap code and sr.einfo of a failing check. -/
abbrev TileFlt := BitVec 8 × DWord

def Role.flt (x : Role) (code : BitVec 8) (reason : Nat) : TileFlt :=
  (code, BitVec.ofNat 64 (reason + x.reg.toNat * 16 + x.role * 128))

/-- sr.einfo of traps 0x01 and 0x02 of slot M's checks. -/
def State.wordFlt (s : State) (code : BitVec 8) : TileFlt := (code, wordInfo s.lat.slot false false s.lat.word)

def Role.fmtOk (x : Role) : Bool :=
  if x.target ∨ x.kind = 3 then fmtBits (dFmt x.desc) != 0
  else if x.kind = 4 then decide (8 ≤ fmtBits (dFmt x.desc))
  else if x.role = 0 ∨ x.kind = 1 then dFmt x.desc == 0x01
  else operandFmt (dFmt x.desc)

/-- Base bits that Table 6-3 says are 0 are 0. Table 6-5 names no check for them: a set one is reported as 0x06 with reason 6 (DESIGN
CHOICE, log 24). -/
def Role.bitsOk (x : Role) : Bool :=
  let d := x.desc
  dLegal d && (decide (2 ≤ x.src) || dPitch d != 0) && (!dSkew d || x.role == 0 || (x.role == 1 && x.src == 0)) &&
  dHi d == 0 && (if x.src = 3 then decide (dBase d < 8) else if x.src = 2 then dBase d == 0 else true)

def Role.aligned (x : Role) : Bool :=
  let d := x.desc
  if 2 ≤ x.src then true
  else if x.src = 1 then dBase d % (if dBits d = 32 then 32 else 16) == 0
  else if (x.role == 1 || x.kind != 0) && !dSkew d then dBase d % 32 == 0
  else dBase d % 512 == 0 && dPitch d % 16 == 0

/-- Bytes from the start of a row (of a k-group, for B) to its last byte; 512 for a skewed row. -/
def Role.rowBytes (x : Role) : Nat :=
  let d := x.desc
  let z := dBits d
  if 2 ≤ x.src then 0
  else if x.src = 1 then
    let p := (dCols d + x.depth - 1) / x.depth
    let last := min (x.depth / 16) (dCols d - (p - 1) * x.depth)
    (p - 1) * (if z = 32 then 32 else 16) + (last * z + 7) / 8
  else if x.role = 2 then
    let r := min (kRows z) (dRows d)
    (dCols d - 1) / 8 * 32 + (((r - 1) * 8 + (dCols d - 1) % 8) * z + z + 7) / 8
  else if dSkew d then 512 else (dCols d * z + 7) / 8

/-- Rows of the layout: k-groups for B. -/
def Role.layoutRows (x : Role) : Nat :=
  if x.role = 2 then (dRows x.desc + kRows (dBits x.desc) - 1) / kRows (dBits x.desc) else dRows x.desc

/-- Shape limits of Table 6-6 and the row length. R178 gives the limit of 512 bytes on a skewed row and no trap: the model reports it
with the shape, 0x06 reason 4 (DESIGN CHOICE, log 24). -/
def Role.shapeOk (x : Role) : Bool :=
  let d := x.desc
  x.limit &&
  (if x.src = 3 then decide (dRows d ≤ 8 ∧ dCols d * dBits d ≤ 4096)
   else if x.kind = 1 then decide (dRows d ≤ 128 ∧ dCols d ≤ 128)
   else if x.target ∨ 3 ≤ x.kind ∨ x.role = 1 then true else decide (dCols d ≤ 128)) &&
  (decide (2 ≤ x.src) || (decide (x.rowBytes ≤ dS d) && (!dSkew d || decide ((dCols d * dBits d + 7) / 8 ≤ 512))))

/-- Span: first byte and length. -/
def Role.span (x : Role) : Nat × Nat := (dBase x.desc, (x.layoutRows - 1) * dS x.desc + x.rowBytes)

/-- A crown range in one logical strip and in the bead's strips (reasons 2 and 1). -/
def State.crownRange (s : State) (lo n : Nat) : Nat :=
  if lo / 2 ^ 19 ≠ (lo + n - 1) / 2 ^ 19 ∨ 2 ^ 23 < lo + n then 2
  else if s.c.strips * 2 ^ 19 < lo + n then 1
  else 0

/-- A tower range of a tile in its towers and in the bead's tower allotment. -/
def State.towerRange (s : State) (lo n towers : Nat) : Nat :=
  let h := s.c.allot15
  if 2 ^ 23 < lo + n then 2
  else if (List.range towers).all (fun t => (hBase h).testBit (23 + t)) &&
      decide (fld (hBase h) 0 23 ≤ lo ∧ lo + n ≤ fld (hBase h) 0 23 + hLen h) then 0
  else 1

/-- Towers that a tower tile touches. -/
def Role.towers (x : Role) : Nat := (min (dCols x.desc) x.depth - 1) / (x.depth / 16) + 1

/-- Rows of the weight stream that queued products will take. -/
def State.streamClaimed (s : State) : Nat :=
  s.outs.foldl (fun n o => if o.bank == s.core.bank && o.usesStream then
      match o.work with
      | .tile op _ =>
        let a := op.iss.rm (match op.instr with
          | .mma _ a _ _ _ => a
          | .mmaCk _ a _ _ _ => a
          | _ => 0)
        let b := op.iss.rm (match op.instr with
          | .mma _ _ b _ _ => b
          | .mmaCk _ _ b _ _ => b
          | _ => 0)
        let dp := chunkDepth (dFmt a) (dFmt b)
        n + dRows a * ((dCols a + dp - 1) / dp)
      | _ => n
    else n) 0

/-- The weight-stream checks of Table 6-5. -/
def State.streamFlt (s : State) (x : Role) : Option TileFlt :=
  let info (n : Nat) : TileFlt := (0x14, BitVec.ofNat 64 (n + x.reg.toNat * 16))
  match s.c.wstr with
  | none => some (info 3)
  | some w =>
    if w.width ≠ x.depth ∨ w.fmt ≠ dFmt x.desc then some (info 3)
    else if w.rows < w.pos + s.streamClaimed + dRows x.desc * ((dCols x.desc + x.depth - 1) / x.depth) then some (info 4)
    else none

/-- The checks of Table 6-5 on one descriptor. `agree` says whether its shape agrees with the earlier ones, and `c` is
the span of C it must not overlap. -/
def State.roleCheck (s : State) (x : Role) (agree : Bool) (c : Option (Nat × Nat)) : Option TileFlt :=
  let n := x.span
  let range := if x.src = 0 then s.crownRange n.1 n.2 else if x.src = 1 then s.towerRange n.1 n.2 x.towers else 0
  let right := if x.role = 0 then hWr s.c.allot15 else hRd s.c.allot15
  if !x.fmtOk then some (s.wordFlt 0x01)
  else if !x.bitsOk then some (x.flt 0x06 6)
  else if !x.aligned then some (x.flt 0x04 0)
  else if !x.shapeOk then some (x.flt 0x06 4)
  else if !agree then some (x.flt 0x06 3)
  else if range ≠ 0 then some (x.flt 0x06 range)
  else if x.src = 1 ∧ !right then some (x.flt 0x07 0)
  else if x.src = 0 ∧ (c.map fun y => decide (n.1 < y.1 + y.2 ∧ y.1 < n.1 + n.2)).getD false then some (x.flt 0x06 5)
  else if x.src = 3 ∧ (6 ≤ dBase x.desc ∨ !s.c.lent.getLsbD (dBase x.desc)) then some (s.wordFlt 0x02)
  else if x.src = 2 then s.streamFlt x
  else none

/-- The checks of an aux range, named by C's descriptor. -/
def State.auxCheck (s : State) (d : QWord) (reg : BitVec 3) (n : Nat) (c : Nat × Nat) : Option TileFlt :=
  let x : Role := { desc := d, reg := reg, role := 3 }
  let lo := dAux d
  let r := s.crownRange lo n
  if r ≠ 0 then some (x.flt 0x06 r)
  else if lo < c.1 + c.2 ∧ c.1 < lo + n then some (x.flt 0x06 5)
  else none

/-- First failing check. -/
def firstTile : List (Option TileFlt) → Option TileFlt
  | [] => none
  | some f :: _ => some f
  | none :: t => firstTile t

/-! ## The queue (R180-R182) -/

/-- 4 KiB granules of a logical crown range through a strip map. -/
def spanPages (map : DWord) (core lo n : Nat) : List Nat := (pages4k lo n).map (crownThrough map core ·)

/-- Granules for which an operand with fe = 01 or 10 waits. -/
def Role.waits (x : Role) (map : DWord) (core : Nat) : List Nat :=
  if x.src = 0 ∧ (dFe x.desc = 1 ∨ dFe x.desc = 2) then spanPages map core x.span.1 x.span.2 else []

/-- Granules that an operand with fe = 10 clears at completion. -/
def Role.takes (x : Role) (map : DWord) (core : Nat) : List Nat := if dFe x.desc = 2 then x.waits map core else []

/-- Tile operations of a bank's bead, oldest first. -/
def State.tileQueue (s : State) (bank : Bool) : List Out :=
  s.outs.filter fun o => o.bank == bank && match o.work with
    | .tile _ _ => true
    | _ => false

/-- Slot M passes an operation to the queue: its trap, a parking for full granules, a stall for a full queue, or the
launch. -/
def State.tileIssue (s : State) (i : Instr) (f : Option TileFlt) (waits : List Nat) : State :=
  match f with
  | some (code, info) => s.raise code info
  | none =>
    if waits.any s.mem.empty.contains then s.park
    else if 4 ≤ (s.tileQueue s.core.bank).length then s.stall
    else s.launch .m .tl s.now none (.tile (s.slottedM i) {})

/-! ## Issue of the moves (R191-R193) -/

/-- The address of `mdld` and `mdst`: [18:4] in the slot word, [22:19] from an EXT header. -/
def mdAddr (a : BitVec 15) (e : Option Ext) : Nat :=
  a.toNat * 16 + 2 ^ 19 * match e with
    | some x => x.m.toNat % 16
    | none => 0

/-- EXT [16:12] must be 0. -/
def mdExtOk (e : Option Ext) : Bool :=
  match e with
  | some x => decide (x.m.toNat < 16)
  | none => true

def State.mdCheck (s : State) (m : BitVec 3) (a : BitVec 15) : Option TileFlt :=
  let la := mdAddr a s.lat.ext
  if s.c.strips * 2 ^ 19 < la + 16 then some (Role.flt { desc := 0, reg := m, role := 0 } 0x06 1) else none

def execMdld (m : BitVec 3) (a : BitVec 15) (s : State) : Ans :=
  if !mdExtOk s.lat.ext then .next (s.raiseIssue 0x01)
  else .next (s.tileIssue (.mdld m a) (s.mdCheck m a) [])
def execMdst (m : BitVec 3) (a : BitVec 15) (s : State) : Ans :=
  if !mdExtOk s.lat.ext then .next (s.raiseIssue 0x01)
  else .next (s.tileIssue (.mdst m a) (s.mdCheck m a) [])

def bRole (c : Ctx) (b : BitVec 3) (depth : Nat) : Role := { desc := c.rm b, reg := b, role := 2, depth := depth }

/-- The checks of shape and alignment alone (R192). -/
def Role.shapeFlt (x : Role) : Option TileFlt :=
  if !x.aligned then some (x.flt 0x04 0) else if !x.shapeOk then some (x.flt 0x06 4) else none

def execMbld (b : BitVec 3) (s : State) : Ans :=
  let x := bRole s.c b 128
  .next (s.tileIssue (.mbld b) x.shapeFlt (x.waits s.lat.iss.cbmap s.core.phys))

def zeroRole (c : Ctx) (m : BitVec 3) : Role := { desc := c.rm m, reg := m, role := 0, target := true }

def execMzero (m : BitVec 3) (s : State) : Ans :=
  .next (s.tileIssue (.mzero m) (s.roleCheck (zeroRole s.c m) true none) [])

/-! ## Issue of products (R194-R196) -/

/-- The roles of a product. -/
def mmaRoles (c : Ctx) (m a b : BitVec 3) (src : Nat) : Role × Role × Role :=
  let dp := chunkDepth (dFmt (c.rm a)) (dFmt (c.rm b))
  ({ desc := c.rm m, reg := m, role := 0 }, { desc := c.rm a, reg := a, role := 1, src := src, depth := dp }, bRole c b dp)

/-- Bytes of the checksum area: column sums, then row sums from byte 512 (R195). -/
def ckBytes (rows : Nat) : Nat := 512 + 4 * rows

/-- The checks of a product, in the order C, A, B, aux. -/
def State.mmaCheck (s : State) (m a b : BitVec 3) (src : Nat) (ck : Bool) : Option TileFlt :=
  let (x, y, z) := mmaRoles s.c m a b src
  firstTile [
    s.roleCheck x true none,
    s.roleCheck y (dRows y.desc == dRows x.desc) (some x.span),
    s.roleCheck z (dCols y.desc == dRows z.desc && dCols z.desc == dCols x.desc) (some x.span),
    if ck then s.auxCheck x.desc m (ckBytes (dRows x.desc)) x.span else none]

def State.mmaWaits (s : State) (m a b : BitVec 3) (src : Nat) : List Nat :=
  let (_, y, z) := mmaRoles s.c m a b src
  y.waits s.lat.iss.cbmap s.core.phys ++ z.waits s.lat.iss.cbmap s.core.phys

def execMma (c a b : BitVec 3) (src : BitVec 2) (z : BitVec 1) (s : State) : Ans :=
  .next (s.tileIssue (.mma c a b src z) (s.mmaCheck c a b src.toNat false) (s.mmaWaits c a b src.toNat))
def execMmaCk (c a b : BitVec 3) (src : BitVec 2) (z : BitVec 1) (s : State) : Ans :=
  .next (s.tileIssue (.mmaCk c a b src z) (s.mmaCheck c a b src.toNat true) (s.mmaWaits c a b src.toNat))
def execMoutm (c a b : BitVec 3) (k l : BitVec 1) (s : State) : Ans :=
  .next (s.tileIssue (.moutm c a b k l) (s.mmaCheck c a b 0 false) (s.mmaWaits c a b 0))

/-! ## What the engine reads

Crown is read through the strip map as it stood at issue, with the writes of the engine that are not final (R181). A granule that ECC finds
bad gives free bytes (log 14), and rewinds an open segment (11 R360). -/

/-- A reader of a tile operation: the memory it sees and where its crown lies. -/
structure Reader where
  mem : Mem
  map : DWord
  core : Nat
  via : Via

/-- The pieces that the matrix engine has written for a bank's bead and that are not final, oldest first. -/
def State.mPieces (s : State) (bank : Bool) : List Part :=
  s.outs.flatMap fun o => if o.bank == bank && o.path == .m then match o.work with
    | .write ps _ _ _ => ps
    | _ => []
  else []

/-- Memory with pieces written over it. -/
def Mem.over (m : Mem) (ps : List Part) : Mem :=
  ps.foldl (fun m p => { m with cells := cellSets m.cells p.addr p.bytes, junk := junkCut m.junk p.addr p.bytes.length }) m

/-- Whether pieces give every byte of a granule. -/
def covers (ps : List Part) (g : Nat) : Bool := (List.range (granuleSize g)).all fun i => ps.any fun p => (p.at? (g + i)).isSome

/-- Ranges of cells that an operation reads pass ECC: the state after it, the reader, and whether a granule was bad. -/
def State.reader (s : State) (bank : Bool) (op : Slotted) (ranges : List (Nat × Nat)) : State × Reader × Bool :=
  let ps := (s.mPieces bank).filter fun p => rangesMeet ranges p.addr p.bytes.length
  let gs := ((ranges.flatMap fun r => granules r.1 r.2).eraseDups).filter fun g => !covers ps g
  let e := s.mem.checks s.fresh gs
  let s1 := { s with mem := e.1, fresh := s.fresh + 1 }
  (s1, { mem := (e.2.foldl (fun m g => m.scramble s.fresh g (granuleSize g)) e.1).over ps, map := op.iss.cbmap, core := s.core.phys,
         via := { path := .m, bank := bank, core := s.core.phys, map := op.iss.cbmap } }, !e.2.isEmpty)

/-- A logical crown range as ranges of cells, row by row. -/
def rowRanges (map : DWord) (core lo rows stride n : Nat) : List (Nat × Nat) :=
  (List.range rows).map fun i => (crownThrough map core (lo + i * stride), n)

/-- Bytes `lo` to `hi` - 1 of row i of a crown tile as ranges of cells. -/
def rowSpan (map : DWord) (core : Nat) (d : QWord) (i lo hi : Nat) : List (Nat × Nat) :=
  if hi ≤ lo then [] else
  (List.range ((hi - 1) / 32 - lo / 32 + 1)).map fun u =>
    let a := max lo ((lo / 32 + u) * 32)
    let la := dBase d + i * dS d + a
    (crownThrough map core (if dSkew d then skewed la i else la), min hi ((lo / 32 + u + 1) * 32) - a)

/-- Bits of an element at a cell address. -/
def elemAt (m : Mem) (z addr nib : Nat) : Nat :=
  let w := bytesNat (m.bytes addr (max 1 (z / 8)))
  if z = 4 then fld w (4 * nib) 4 else w

/-- Linear index of an element of a strip (03 R73). -/
def stripIndex (la nib z : Nat) : Nat := (la % 2 ^ 19 * 8 + 4 * nib) / max z 1

/-- Code of an element of a crown tile. -/
def Reader.code (r : Reader) (d : QWord) (e : Nat × Nat) : Nat := elemAt r.mem (dBits d) (crownThrough r.map r.core e.1) e.2

/-- Value of a code of a crown tile's element, with the scale and inf bit of its strip's format register (R176). -/
def State.crownValue (s : State) (r : Reader) (op : Slotted) (d : QWord) (e : Nat × Nat) (code : Nat) : FV :=
  let cf := op.iss.cfOf (dBase d / 2 ^ 19 % 16)
  let k := kindOf (dFmt d) (cfInf cf)
  k.decode (match k with
    | .kk _ => s.scaleOf r.via cf (stripIndex e.1 e.2 (dBits d))
    | _ => 0) code

/-- Value of a code of a tower, stream or lent tile. -/
def descValue (d : QWord) (code : Nat) : FV := (kindOf (dFmt d) (dInf d)).decode (dTsc d) code

/-- FP32 words at a logical crown address. -/
def Reader.words (r : Reader) (la n : Nat) : List Nat :=
  (List.range n).map fun i => bytesNat (r.mem.bytes (crownThrough r.map r.core (la + 4 * i)) 4)

/-! ## What the engine writes

A piece that the engine forms is an operation in hand of its own until it is final; the tile operation stands in its queue until all of them
are (R183, R184). -/

/-- Pieces formed for a tile operation, final in a cycle. -/
def State.mWrite (s : State) (o : Out) (op : Slotted) (due : Nat) (ps : List Part) : State :=
  if ps.isEmpty then s else
  { s with
    outs := s.outs ++ [{ id := s.nextId, bank := o.bank, seq := op.seq, path := .m, ctr := .none, issued := s.now, due := due, promise := none,
                         work := .write ps op.iss.cbmap false [] }]
    nextId := s.nextId + 1 }

/-- The cycle in which a row that enters the array now is final (R184). -/
def State.rowFinal (s : State) : Nat := s.coreAfter 20 + Config.strikeHold

/-- A tile operation with other progress and another due cycle. -/
def State.tileGoes (s : State) (o : Out) (op : Slotted) (w : Tiling) (due : Nat) : State :=
  { s with outs := s.outs.map fun x => match x.work with
      | .tile _ _ => if x.id == o.id then { x with due := due, work := .tile op w } else x
      | _ => x }

/-- A crown row as pieces of 32 bytes, so that a skewed row lands unit by unit. -/
def rowParts (map : DWord) (core : Nat) (d : QWord) (i : Nat) (bs : List Byte) : List Part :=
  (List.range ((bs.length + 31) / 32)).map fun u =>
    let la := dBase d + i * dS d + 32 * u
    { addr := crownThrough map core (if dSkew d then skewed la i else la), bytes := (bs.drop (32 * u)).take 32 }

/-- Bytes of FP32 words. -/
def wordBytes (l : List Nat) : List Byte := l.flatMap (natBytes 4)

/-- An open segment of a bank's bead that consumed a bad granule rewinds (11 R360). -/
def State.consumedBy (s : State) (bank bad : Bool) : State :=
  if bad && (s.bankCtx bank).segOpen then s.onBankSeq bank fun q => { q with rewind := true } else s

/-- An array that a request takes in a cycle: physical strip, column-bank, and whether it writes (R173). -/
abbrev Claim := Nat × Nat × Bool

/-- The arrays of this core's crown that ranges of cells touch, of each range its first 512 bytes. -/
def State.arrays (s : State) (write : Bool) (l : List (Nat × Nat)) : List Claim :=
  let base := crownAddr s.core.phys 0
  ((l.flatMap fun r => (List.range ((r.1 % 32 + min r.2 512 + 31) / 32)).map fun i => r.1 + 32 * i).filterMap fun a =>
    if base ≤ a ∧ a < base + 2 ^ 23 then some ((a - base) / 2 ^ 19, a / 32 % 16, write) else none).eraseDups

/-- The matrix engine takes the arrays of the ranges that it reads and of the pieces that it forms in this cycle (R174). -/
def State.engineClaims (s : State) (reads : List (Nat × Nat)) (ps : List Part) : State :=
  let l := s.arrays false reads ++ s.arrays true (ps.map fun p => (p.addr, p.bytes.length))
  { s with core := { s.core with
      tileClaims := (if s.core.tileClaimedAt = s.now then s.core.tileClaims else []) ++ l
      tileClaimedAt := s.now } }

/-! ## The weight stream (09 R283, R284) -/

/-- Ones of a block's mask. -/
def ones64 (mask : Nat) : Nat := ((List.range 64).filter fun i => mask.testBit i).length

/-- Bytes of a block. -/
def blockBytes (mask z : Nat) : Nat := 8 + (ones64 mask * z + 63) / 64 * 8

/-- Codes of the 64 elements of a block from its mask and payload. -/
def blockCodes (mask payload z : Nat) : List Nat :=
  (List.range 64).map fun i =>
    if mask.testBit i then fld payload (((List.range i).filter fun j => mask.testBit j).length * z) z else 0

/-- The next `n` blocks from an offset: their codes, and whether data beyond the end was needed. -/
def streamBlocks (byte : Nat → Byte) (len z : Nat) : Nat → Nat → List (List Nat) × Bool
  | 0, _ => ([], false)
  | n + 1, o =>
    let get (i k : Nat) : Nat := bytesNat ((List.range k).map fun j => if i + j < len then byte (i + j) else 0)
    let mask := get o 8
    let size := blockBytes mask z
    let t := streamBlocks byte len z n (o + size)
    (blockCodes mask (get (o + 8) (size - 8)) z :: t.1, decide (len < o + size) || t.2)

/-- Bytes of a stream in global memory; a byte that no longer translates reads as past the end. -/
def State.streamByte (s : State) (w : Stream) (i : Nat) : Byte :=
  match s.hub.translate w.handle (w.off + i : Nat) 1 with
  | .ok ge => s.mem.byte (readHome s.board ge)
  | .error _ => 0

/-- Rows `lo` to `lo + n - 1` of a stream, and whether data ran out. -/
def State.streamRows (s : State) (w : Stream) (lo n : Nat) : List (List Nat) × Bool :=
  let per := w.width / 64
  let b := streamBlocks (s.streamByte w) w.len (fmtBits w.fmt) ((lo + n) * per) 0
  ((List.range n).map fun i => ((b.1.drop ((lo + i) * per)).take per).flatten, b.2)

/-- One row of a stream. -/
def State.streamRow (s : State) (w : Stream) (n : Nat) : List Nat × Bool :=
  let r := s.streamRows w n 1
  (r.1.headD [], r.2)

/-- Where the next `n` blocks from an offset end. -/
def streamAfter (byte : Nat → Byte) (len z : Nat) : Nat → Nat → Nat
  | 0, o => o
  | n + 1, o =>
    let mask := bytesNat ((List.range 8).map fun j => if o + j < len then byte (o + j) else 0)
    streamAfter byte len z n (o + blockBytes mask z)

/-- Where row `n` of a stream begins among its bytes. -/
def State.streamStart (s : State) (w : Stream) (n : Nat) : Nat :=
  min w.len (streamAfter (s.streamByte w) w.len (fmtBits w.fmt) (n * (w.width / 64)) 0)

/-- The cycle in which row `n` of a stream has arrived at the decompressor's rate, since the stream was configured (09 R285). -/
def State.streamArrives (s : State) (w : Stream) (n : Nat) : Nat :=
  w.since + moveCycles (s.streamStart w (n + 1)) w.rate s.hub.power.clock

/-- The cells of row `n` of a stream, at their home. -/
def State.streamCells (s : State) (w : Stream) (n : Nat) : List (Nat × Nat) :=
  match s.hub.translate w.handle (w.off + s.streamStart w n : Nat) 1 with
  | .ok ge => [(readHome s.board ge, s.streamStart w (n + 1) - s.streamStart w n)]
  | .error _ => []

/-- The bytes of `n` rows of a stream pass through the home ports (01 R20). -/
def State.streamFetch (s : State) (w : Stream) (lo n : Nat) : State :=
  match s.hub.translate w.handle (w.off + s.streamStart w lo : Nat) 1 with
  | .ok ge => s.portFetch (readHome s.board ge) (s.streamStart w (lo + n) - s.streamStart w lo)
  | .error _ => s

/-! ## Chunks (03 R92) -/

/-- Sum of the truncated products of nonzero finite pairs, and whether bits were discarded. -/
def truncSum (q : Int) : List FV → Int × Bool
  | [] => (0, false)
  | .fin n m e :: t =>
    let r := truncSum q t
    let x : Nat × Bool := if q ≤ e then (m * 2 ^ (e - q).toNat, false) else (m / 2 ^ (q - e).toNat, m % 2 ^ (q - e).toNat != 0)
    ((if n then -1 else 1) * (x.1 : Int) + r.1, x.2 || r.2)
  | _ :: t => truncSum q t

/-- ChunkSum over the pairs of one chunk. -/
def chunkSum (w : Int) (ps : List (FV × FV)) : Nat × Fl :=
  let prods := ps.map fun p => mulFV p.1 p.2
  if ps.any fun p => p.1.isNan || p.2.isNan then
    (fp32.nan, if ps.any fun p => p.1.isSnan || p.2.isSnan then fNv else 0)
  else if prods.any (·.1.isNan) then (fp32.nan, fNv)
  else match prods.find? (·.1.isInf) with
    | some p => if prods.any fun x => x.1.isInf && x.1.neg != p.1.neg then (fp32.nan, fNv) else (fp32.infBits p.1.neg, 0)
    | none =>
      let live := (prods.map (·.1)).filter fun v => !v.isZero
      match live with
      | [] => (0, 0)
      | _ =>
        let tops := live.map fun v => match v with
          | .fin _ m e => topExp m e
          | _ => 0
        let q := tops.foldl max (tops.headD 0) - w
        let t := truncSum q live
        let r := rnd32 0 (.fin (decide (t.1 < 0)) t.1.natAbs q)
        (r.1, r.2 ||| if t.2 then fNx else 0)

/-- c + s in FP32, RNE. -/
def addAcc (c s : Nat) : Nat × Fl := fpAdd fp32 { mode := 0, ftz := false, daz := false } c s

/-- Exact sum of values rounded once to FP32 (R195). -/
def sumOnce (vs : List FV) : Nat × Fl :=
  let r := vs.foldl (fun (a : FV × Fl) v => let t := addFV 0 a.1 v; (t.1, a.2 ||| t.2)) (.fin false 0 0, 0)
  let x := rnd32 0 r.1
  (x.1, r.2 ||| x.2)

/-! ## The product (R194, R195) -/

/-- Registers of a product, its source of A, whether it starts from zero and whether it is checked. -/
structure Product where
  c : BitVec 3
  a : BitVec 3
  b : BitVec 3
  src : Nat
  zero : Bool
  ck : Bool
  deriving DecidableEq, Repr

/-- The product that `mma` or `mma.ck` asks for. -/
def productOf (i : Instr) : Option Product :=
  match i with
  | .mma c a b s z => some { c := c, a := a, b := b, src := s.toNat, zero := z == 1, ck := false }
  | .mmaCk c a b s z => some { c := c, a := a, b := b, src := s.toNat, zero := z == 1, ck := true }
  | _ => none

/-- Chunk depth, rows, passes, and row steps of a pass: a row of sums enters after the rows of a checked product (R195). -/
def Product.depth (p : Product) (op : Slotted) : Nat := chunkDepth (dFmt (op.iss.rm p.a)) (dFmt (op.iss.rm p.b))
def Product.rows (p : Product) (op : Slotted) : Nat := dRows (op.iss.rm p.c)
def Product.passes (p : Product) (op : Slotted) : Nat := (dCols (op.iss.rm p.a) + p.depth op - 1) / p.depth op
def Product.per (p : Product) (op : Slotted) : Nat := p.rows op + if p.ck then 1 else 0
def Product.steps (p : Product) (op : Slotted) : Nat := p.passes op * p.per op

/-- The row step that the sampled progress leaves first (R186); a progress past the last row of its pass leaves the next pass whole. -/
def Product.first (p : Product) (op : Slotted) (w : Tiling) : Nat :=
  let g := w.prog.getD (dProgress (op.iss.rm p.c), dProgress (op.iss.rm p.a))
  g.2 * p.per op + min (p.rows op) (16 * g.1)

def fvZero : FV := .fin false 0 0

/-- What a pass works with: B's rows as values, the truncation window, whether the pass starts from zero, and the columns of C. -/
structure Pass where
  b : List (List FV)
  depth : Nat
  window : Int
  zero : Bool
  cols : Nat

/-- Column `n` of the rows of B. -/
def Pass.col (p : Pass) (n : Nat) : List FV := p.b.map fun r => r[n]?.getD fvZero

/-- A row of C after its row of A: the new words with their flags. -/
def Pass.row (p : Pass) (a : List FV) (old : List Nat) : List (Nat × Fl) :=
  (List.range p.cols).map fun n =>
    let s := chunkSum p.window (a.zip (p.col n))
    let r := addAcc (if p.zero then 0 else old[n]?.getD 0) s.1
    (r.1, s.2 ||| r.2)

/-- A block of 128 values of k inside a pass. -/
def block (v : List FV) (q : Nat) : List FV := (v.drop (q * 128)).take 128

/-- Add the terms of a pass's blocks to a predicted sum. -/
def predict (zeroFirst : Bool) (old : Nat) (terms : List (Nat × Fl)) : Nat × Fl :=
  (terms.foldl (fun (r : (Nat × Fl) × Bool) t =>
    let x := addAcc (if r.2 then 0 else r.1.1) t.1
    ((x.1, r.1.2 ||| t.2 ||| x.2), false)) ((old, 0), zeroFirst)).1

/-- Values of rounded words. -/
def words32 (l : List (Nat × Fl)) : List FV := l.map fun x => val32 x.1

/-- The terms of a check: a chunk sum for each block of a pass. -/
def Pass.terms (p : Pass) (x y : List FV) : List (Nat × Fl) := (List.range (p.depth / 128)).map fun q => chunkSum 72 ((block x q).zip (block y q))

/-- RowCheck: the predicted sum of a row of C from its row of A. -/
def Pass.rowCheck (p : Pass) (a : List FV) (old : Nat) : Nat × Fl :=
  let sums := p.b.map sumOnce
  let r := predict p.zero old (p.terms a (words32 sums))
  (r.1, sums.foldl (fun f x => f ||| x.2) r.2)

/-- ColumnCheck: the predicted sums of the columns of C from the rows of A of a pass. -/
def Pass.columnCheck (p : Pass) (rows : List (List FV)) (old : List Nat) : List (Nat × Fl) :=
  let sums := (List.range p.depth).map fun k => sumOnce (rows.map fun r => r[k]?.getD fvZero)
  let fl := sums.foldl (fun f x => f ||| x.2) 0
  (List.range p.cols).map fun n =>
    let r := predict p.zero (old[n]?.getD 0) (p.terms (words32 sums) (p.col n))
    (r.1, r.2 ||| fl)

/-! ## B planes (R192) -/

/-- Row time and plane time (R171), under throttle actions (12 Table 12-13). -/
def rowTime (s : State) (fa fb : BitVec 8) : Nat :=
  let w := max (fmtBits fa) (fmtBits fb)
  if w = 32 then 4 else if w ≤ 8 ∧ 1 ≤ s.hub.power.actions then 2 else 1
def planeTime (fa fb : BitVec 8) : Nat := if max (fmtBits fa) (fmtBits fb) = 32 then 128 else 64

/-- The tag of a plane: the descriptor without its progress, and the depth. -/
def planeTag (d : QWord) : QWord := putField d 84 8 0

/-- The cells of the `depth` rows of a B tile that a pass works with. -/
def planeRanges (map : DWord) (core : Nat) (x : Role) (depth pass : Nat) : List (Nat × Nat) :=
  let g := kRows (dBits x.desc)
  let lo := pass * depth / g
  rowRanges map core (dBase x.desc + lo * dS x.desc) (min (depth / g) (x.layoutRows - lo)) (dS x.desc) x.rowBytes

/-- Codes of those rows, row by row; 0 beyond the tile. -/
def Reader.planeRows (r : Reader) (d : QWord) (depth pass : Nat) : List (List Nat) :=
  (List.range depth).map fun k => (List.range (dCols d)).map fun n =>
    if pass * depth + k < dRows d then r.code d (colElem d (pass * depth + k) n) else 0

/-- Values of those rows from their codes. -/
def State.planeValues (s : State) (r : Reader) (op : Slotted) (d : QWord) (depth pass : Nat) (rows : List (List Nat)) : List (List FV) :=
  rows.mapIdx fun k row => row.mapIdx fun n code =>
    if pass * depth + k < dRows d then s.crownValue r op d (colElem d (pass * depth + k) n) code else fvZero

/-- Keep the tagged planes after a load into one of the two: which of them it takes is free while none is in use (log
10). -/
def keepPlanes (fresh : Nat) (old : List Plane) : List Plane :=
  match old with
  | [] => []
  | [p] => if Config.freeChoice fresh 0 then [p] else []
  | p :: q :: _ => if Config.freeChoice fresh 0 then [p] else [q]

/-- The plane that a product or `mbld` finds loaded. -/
def State.planeFor (s : State) (d : QWord) (depth : Nat) : Option Plane :=
  s.core.planes.find? fun p => p.desc == planeTag d && p.depth == depth

/-- Whether a plane has a tag. -/
def Plane.tagged (p : Plane) (d : QWord) (depth : Nat) : Bool := p.desc == planeTag d && p.depth == depth

/-- The tagged planes when a product that began with pass `first` has loaded the plane of a pass: that of pass 0 gets the tag unless the
planes were made invalid since the load began (R185); a later one carries none, takes the plane that is not in use, and then that of the
pass before. -/
def planesLoaded (fresh : Nat) (old : List Plane) (p : Plane) (first pass : Nat) (live : Bool) : List Plane :=
  if pass = 0 then (if live then p :: keepPlanes fresh old else keepPlanes fresh old)
  else if pass = first then keepPlanes fresh old
  else if first = 0 ∧ pass = 1 then old.filter (·.tagged p.desc p.depth)
  else []

/-! ## The course of a product (R171, R172, R184) -/

/-- Core cycles that the entry of `n` row times takes when `duty` of every eight row slots are used (R171). -/
def entryTime (duty n : Nat) : Nat := (n * 8 + duty - 1) / duty

/-- Plane time where B lies in C's strip: the load waits for the port in every cycle in which a C row takes it (R174). -/
def sharedPlane (plane row rows : Nat) : Nat :=
  if row ≤ 1 ∨ rows * (row - 1) ≤ plane then plane + rows else (plane * row + row - 2) / (row - 1)

/-- The physical strip of a tile. -/
def Slotted.stripOf (op : Slotted) (r : BitVec 3) : Nat := Machine.stripOf op.iss.cbmap (dBase (op.iss.rm r) / 2 ^ 19)

/-- Row time of a product. A tile of A in C's strip competes with C for the strip's read port: each row takes a second cycle (R174). -/
def State.productRow (s : State) (op : Slotted) (p : Product) : Nat :=
  max (rowTime s (dFmt (op.iss.rm p.a)) (dFmt (op.iss.rm p.b))) (if p.src = 0 ∧ op.stripOf p.a = op.stripOf p.c then 2 else 1)

/-- Plane time of a product, for the plane of its first pass and for those that load while rows enter. -/
def Product.plane (p : Product) (op : Slotted) : Nat := planeTime (dFmt (op.iss.rm p.a)) (dFmt (op.iss.rm p.b))
def State.nextPlane (s : State) (op : Slotted) (p : Product) : Nat :=
  if op.stripOf p.b = op.stripOf p.c then sharedPlane (p.plane op) (s.productRow op p) (p.rows op) else p.plane op

/-- A product starts: its first row enters at once when the plane of pass 0 is loaded, and otherwise when its own is (R184, R192); 2 more
for tower rows while a tower is remapped (R172). -/
def State.productStart (s : State) (o : Out) (op : Slotted) (w : Tiling) (p : Product) : State :=
  let first := p.first op w
  let w := { w with started := some s.now, step := first }
  if p.steps op ≤ first then s.tileGoes o op { w with step := p.steps op } s.now else
  let remap := if p.src = 1 ∧ s.remapOf s.core.phys ≠ List.range 16 then 2 else 0
  match if first < p.per op then s.planeFor (op.iss.rm p.b) (p.depth op) else none with
  | some x => s.tileGoes o op { w with plane := x.codes, loads := s.now } (s.coreAfter remap)
  | none => s.tileGoes o op { w with loads := s.coreAfter (p.plane op) } (s.coreAfter (p.plane op + remap))

/-- The plane of a pass is loaded: the state after its reads, and its rows. -/
def State.loadPlane (s : State) (o : Out) (op : Slotted) (w : Tiling) (p : Product) (pass : Nat) : State × List (List Nat) :=
  let d := op.iss.rm p.b
  let rr := s.reader o.bank op (planeRanges op.iss.cbmap s.core.phys (bRole op.iss p.b (p.depth op)) (p.depth op) pass)
  let rows := rr.2.1.planeRows d (p.depth op) pass
  let live := w.started.all fun t0 => decide (s.core.planesLost ≤ t0)
  let x : Plane := { desc := planeTag d, depth := p.depth op, codes := rows }
  let planes := planesLoaded rr.1.fresh rr.1.core.planes x (p.first op w / p.per op) pass live
  (({ rr.1 with core := { rr.1.core with planes := planes } }).consumedBy o.bank rr.2.2, rows)

/-- The planes that a row step works with: that of its pass, and that of the next one once its load, which begins with the pass, is
complete. -/
def State.stepPlanes (s : State) (o : Out) (op : Slotted) (w : Tiling) (p : Product) : State × Tiling :=
  let pass := w.step / p.per op
  let r := if w.plane.isEmpty then s.loadPlane o op w p pass else (s, w.plane)
  let w := { w with plane := r.2 }
  let more := decide (pass + 1 < p.passes op)
  if more && (w.step % p.per op == 0 || w.step == p.first op w) then (r.1, { w with next := [], loads := s.coreAfter (s.nextPlane op p) })
  else if more && w.next.isEmpty && decide (w.loads ≤ s.now) then
    let n := r.1.loadPlane o op w p (pass + 1)
    (n.1, { w with next := n.2 })
  else (r.1, w)

/-- Ranges of cells of the part of row i of A that a pass reads. -/
def State.aRanges (s : State) (op : Slotted) (p : Product) (i pass : Nat) : List (Nat × Nat) :=
  let d := op.iss.rm p.a
  let dp := p.depth op
  match p.src with
  | 0 => rowSpan op.iss.cbmap s.core.phys d i (pass * dp * dBits d / 8) ((min (dCols d) ((pass + 1) * dp) * dBits d + 7) / 8)
  | 1 =>
    let unit := if dBits d = 32 then 32 else 16
    let cols := min dp (dCols d - pass * dp)
    (List.range ((cols + dp / 16 - 1) / (dp / 16))).map fun t =>
      (s.towerAt t (dBase d + i * dS d + pass * unit), (min (dp / 16) (cols - t * (dp / 16)) * dBits d + 7) / 8)
  | _ => []

/-- Codes of that part of the row, from a row of the stream where A comes from there. -/
def State.aCodes (s : State) (bank : Bool) (r : Reader) (op : Slotted) (p : Product) (i pass : Nat) (stream : List Nat) : List Nat :=
  let d := op.iss.rm p.a
  let dp := p.depth op
  (List.range (min dp (dCols d - pass * dp))).map fun k => match p.src with
    | 0 => r.code d (rowElem d i (pass * dp + k))
    | 1 =>
      let e := towerElemAt d dp i (pass * dp + k)
      elemAt r.mem (dBits d) (s.towerAt e.1 e.2.1) e.2.2
    | 2 => stream[k]?.getD 0
    | _ => fld ((s.bankCtx bank).rv (dBase d + 6 * i)).toNat (dBits d * (pass * dp + k)) (dBits d)

/-- Values of those codes; zeros fill the pass. -/
def State.aValues (s : State) (r : Reader) (op : Slotted) (p : Product) (i pass : Nat) (codes : List Nat) : List FV :=
  let d := op.iss.rm p.a
  let dp := p.depth op
  (List.range dp).map fun k => match codes[k]? with
    | none => fvZero
    | some c => if p.src = 0 then s.crownValue r op d (rowElem d i (pass * dp + k)) c else descValue d c

/-- The row of the weight stream that row i of A takes in a pass (09 R284), with its bytes through the home port: the state after it, the
codes, and whether data ran out. -/
def State.takeStream (s : State) (bank : Bool) (p : Product) (op : Slotted) (i pass : Nat) : State × List Nat × Bool :=
  match p.src, (s.bankCtx bank).wstr with
  | 2, some w =>
    let n := w.pos + pass * p.rows op + i
    let rr := s.reader bank op (s.streamCells w n)
    let x := ({ rr.1 with mem := rr.2.1.mem }).streamRow w n
    ((rr.1.streamFetch w n 1).consumedBy bank rr.2.2, x.1, x.2)
  | _, _ => (s, [], false)

/-- The pass of a product with the rows of its plane. -/
def State.passOf (s : State) (r : Reader) (op : Slotted) (p : Product) (pass : Nat) (rows : List (List Nat)) : Pass :=
  { b := s.planeValues r op (op.iss.rm p.b) (p.depth op) pass rows, depth := p.depth op
    window := chunkWindow (dFmt (op.iss.rm p.a)) (dFmt (op.iss.rm p.b)), zero := p.zero && pass == 0, cols := dCols (op.iss.rm p.c) }

/-- A row enters the array (R194, R195): A's row and C's are read, and C's new row, of a checked product its predicted sum too, is formed.
Answers the state, the operation as the queue holds it, and what it formed. -/
def State.enterRow (s : State) (o : Out) (op : Slotted) (w : Tiling) (p : Product) : State × Tiling :=
  let pass := w.step / p.per op
  let i := w.step % p.per op
  let dc := op.iss.rm p.c
  let map := op.iss.cbmap
  let aux := crownThrough map s.core.phys (dAux dc + 512 + 4 * i)
  let reads := s.aRanges op p i pass ++ rowSpan map s.core.phys dc i 0 (4 * dCols dc) ++ if p.ck then [(aux, 4)] else []
  let st := s.takeStream o.bank p op i pass
  let rr := st.1.reader o.bank op reads
  let r := rr.2.1
  let codes := rr.1.aCodes o.bank r op p i pass st.2.1
  let a := rr.1.aValues r op p i pass codes
  let x := rr.1.passOf r op p pass w.plane
  let row := x.row a ((List.range x.cols).map fun k => r.code dc (rowElem dc i k))
  let sum := if p.ck then x.rowCheck a (bytesNat (r.mem.bytes aux 4)) else (0, 0)
  let ps := rowParts map s.core.phys dc i (wordBytes (row.map (·.1))) ++ if p.ck then [{ addr := aux, bytes := natBytes 4 sum.1 }] else []
  let u := ((rr.1.engineClaims reads ps).mWrite o op s.rowFinal ps).consumedBy o.bank rr.2.2
  ((if st.2.2 then u.status o 0x1000 else u),
   { w with flags := row.foldl (fun f y => f ||| y.2) (w.flags ||| sum.2), seen := if p.ck then w.seen ++ [codes] else [] })

/-- The row of sums of a checked product enters after the last row of a pass (R195). Rows of A that entered before the operation stood in
this queue are read again. -/
def State.enterSums (s : State) (o : Out) (op : Slotted) (w : Tiling) (p : Product) : State × Tiling :=
  let pass := w.step / p.per op
  let dc := op.iss.rm p.c
  let map := op.iss.cbmap
  let aux := crownThrough map s.core.phys (dAux dc)
  let gone := p.rows op - w.seen.length
  let reads := (aux, 4 * dCols dc) :: (List.range gone).flatMap fun i => s.aRanges op p i pass
  let rr := s.reader o.bank op reads
  let r := rr.2.1
  let early := (List.range gone).map fun i => rr.1.aCodes o.bank r op p i pass (rr.1.takeStream o.bank p op i pass).2.1
  let rows := (early ++ w.seen).mapIdx fun i c => rr.1.aValues r op p i pass c
  let x := rr.1.passOf r op p pass w.plane
  let sums := x.columnCheck rows (r.words (dAux dc) x.cols)
  let ps : List Part := [{ addr := aux, bytes := wordBytes (sums.map (·.1)) }]
  (((rr.1.engineClaims [(aux, 4 * dCols dc)] ps).mWrite o op s.rowFinal ps).consumedBy o.bank rr.2.2,
   { w with flags := sums.foldl (fun f y => f ||| y.2) w.flags })

/-- Take the rows that a product has taken from the stream (09 R284). -/
def Ctx.takeRows (c : Ctx) (n : Nat) : Ctx :=
  { c with wstr := c.wstr.map fun w => { w with pos := w.pos + n } }

/-- The row step that is due is made, and the next one follows a row time on, that of a new pass not before its plane is loaded (R184). -/
def State.productStep (s : State) (o : Out) (op : Slotted) (w : Tiling) (p : Product) : State :=
  let i := w.step % p.per op
  let l := s.stepPlanes o op w p
  let r := if i < p.rows op then l.1.enterRow o op l.2 p else l.1.enterSums o op l.2 p
  let row := s.productRow op p
  let duty := s.hub.power.duty
  let on := s.coreAfter (entryTime duty ((i + 1) * row) - entryTime duty (i * row))
  let w := { r.2 with step := w.step + 1 }
  if w.step = p.steps op then
    (if p.src = 2 then r.1.settle o (·.takeRows (p.passes op * p.rows op)) else r.1).tileGoes o op { w with fed := true } s.rowFinal
  else if w.step % p.per op = 0 then r.1.tileGoes o op { w with plane := w.next, next := [], seen := [] } (max on w.loads)
  else r.1.tileGoes o op w on

/-- The row that enters next has not arrived: the cycle from which it can, and whether a refresh of its tower holds it (R172). -/
def State.rowHeld (s : State) (o : Out) (op : Slotted) (w : Tiling) (p : Product) : Option (Nat × Bool) :=
  let i := w.step % p.per op
  if p.rows op ≤ i then none
  else if p.src = 1 then (if (List.range 16).any fun t => s.isBlocked (s.core.tower t) then some (s.coreAfter 1, true) else none)
  else match p.src, (s.bankCtx o.bank).wstr with
    | 2, some x =>
      let t := s.streamArrives x (x.pos + w.step / p.per op * p.rows op + i)
      if s.now < t then some (t, false)
      else if s.linesLocked (s.streamCells x (x.pos + w.step / p.per op * p.rows op + i)) then some (s.coreAfter 1, false) else none
    | _, _ => none

/-- The granules an operand takes are cleared, then those of C set full (R182). -/
def State.feDone (s : State) (takes sets : List Nat) : State :=
  let m := takes.foldl (fun m g => m.setFull g false) s.mem
  { s with mem := sets.foldl (fun m g => m.setFull g true) m }

/-- Granules that a C tile sets full at completion. -/
def Role.sets (x : Role) (map : DWord) (core : Nat) : List Nat :=
  if dFe x.desc = 1 ∨ dFe x.desc = 2 then spanPages map core x.span.1 x.span.2 else []

/-- A product whose rows are final completes: the flags of all its row steps enter sr.fpsr (R194). -/
def State.productDone (s : State) (o : Out) (op : Slotted) (w : Tiling) (p : Product) : State :=
  let (x, y, z) := mmaRoles op.iss p.c p.a p.b p.src
  let map := op.iss.cbmap
  let core := s.core.phys
  let s := s.settle o fun c => c.orFlags w.flags
  s.feDone (y.takes map core ++ z.takes map core) (x.sets map core)

/-- Cells that a product reads. -/
def State.productRanges (s : State) (op : Slotted) (p : Product) : List (Nat × Nat) :=
  let dc := op.iss.rm p.c
  ((List.range (p.rows op)).flatMap fun i => rowSpan op.iss.cbmap s.core.phys dc i 0 (4 * dCols dc)) ++
  ((List.range (p.passes op)).flatMap fun j =>
    planeRanges op.iss.cbmap s.core.phys (bRole op.iss p.b (p.depth op)) (p.depth op) j ++ (List.range (p.rows op)).flatMap fun i => s.aRanges op p i j)

/-! ## Outlier merge (R196) -/

/-- What the arms of `moutm` ask for: the registers, the list of B instead of that of A, and whether the list is cleared. -/
structure Merge where
  c : BitVec 3
  a : BitVec 3
  b : BitVec 3
  listB : Bool
  clear : Bool
  deriving DecidableEq, Repr

def mergeOf (i : Instr) : Option Merge :=
  match i with
  | .moutm c a b k l => some { c := c, a := a, b := b, listB := l == 1, clear := k == 1 }
  | _ => none

/-- The tile whose list is merged, and the format register that names the list. -/
def Merge.listed (m : Merge) : BitVec 3 := if m.listB then m.b else m.a
def Merge.cf (m : Merge) (op : Slotted) : DWord := op.iss.cfOf (dBase (op.iss.rm m.listed) / 2 ^ 19 % 16)

/-- Cells of the first `n` bytes of a list: its header and its records. -/
def Merge.list (m : Merge) (op : Slotted) (core off n : Nat) : Nat × Nat := (crownThrough op.iss.cbmap core ((cfOla (m.cf op) + off) % 2 ^ 23), n)

/-- The element of a tile whose linear index in its strip is `idx`. -/
def findElem (d : QWord) (elem : Nat → Nat → Nat × Nat) (idx : Nat) : Option (Nat × Nat) :=
  ((List.range (dRows d)).flatMap fun i => (List.range (dCols d)).map fun k => (i, k)).find? fun p =>
    stripIndex (elem p.1 p.2).1 (elem p.1 p.2).2 (dBits d) == idx

/-- C + x × y with one rounding; of its flags nv, of and nx are raised. -/
def fmaAcc (c : Nat) (x y : FV) : Nat × Fl :=
  let t := fmaFV 0 x y (val32 c)
  let r := rnd32 0 t.1
  (r.1, (t.2 ||| r.2) &&& (fNv ||| fOf ||| fNx))

/-- Core cycles from the start of `moutm` to record `t`: N / 128 of a cycle each for list A, M cycles each for list B. -/
def Merge.time (m : Merge) (op : Slotted) (t : Nat) : Nat :=
  if m.listB then t * dRows (op.iss.rm m.c) else (t * dCols (op.iss.rm m.c) + 127) / 128

/-- The records are merged: the list is cleared where the operation says so, and the operation completes when its rows are final. -/
def State.mergeEnd (s : State) (o : Out) (op : Slotted) (w : Tiling) (m : Merge) (due : Nat) : State :=
  let r := m.list op s.core.phys 0 4
  (if m.clear && cfOlen (m.cf op) then s.mWrite o op due [{ addr := r.1, bytes := natBytes 4 0 }] else s).tileGoes o op w due

/-- `moutm` starts: it reads the list's header; with olen = 0 it has no effect. -/
def State.mergeStart (s : State) (o : Out) (op : Slotted) (w : Tiling) (m : Merge) : State :=
  let w := { w with started := some s.now, step := 0 }
  if !cfOlen (m.cf op) then s.tileGoes o op w s.rowFinal else
  let rr := s.reader o.bank op [m.list op s.core.phys 0 8]
  let n := fld (bytesNat (rr.2.1.mem.bytes (m.list op s.core.phys 0 8).1 8)) 0 32
  let u := (rr.1.engineClaims [m.list op s.core.phys 0 8] []).consumedBy o.bank rr.2.2
  if n = 0 then u.mergeEnd o op w m s.rowFinal else u.tileGoes o op { w with records := n } s.now

/-- The pieces of one record, each with the core cycle after the record in which its row enters, and the flags; and the cells that the record
reads. An index outside the tile is skipped. -/
def State.mergeRecord (s : State) (bank : Bool) (op : Slotted) (m : Merge) (t : Nat) : State × List (Nat × Part) × Fl × List (Nat × Nat) × Bool :=
  let dc := op.iss.rm m.c
  let da := op.iss.rm m.a
  let db := op.iss.rm m.b
  let map := op.iss.cbmap
  let core := s.core.phys
  let at0 := m.list op core (8 + 8 * t) 8
  let h := s.reader bank op [at0]
  let rc := bytesNat (h.2.1.mem.bytes at0.1 8)
  let x := val32 (fld rc 32 32)
  let word (i n : Nat) : Nat × Nat := (crownThrough map core (rowElem dc i n).1, 4)
  if !m.listB then match findElem da (rowElem da) (fld rc 0 32) with
    | none => (h.1, [], 0, [at0], h.2.2)
    | some (i, k) =>
      let reads := rowSpan map core dc i 0 (4 * dCols dc) ++ (List.range (dCols db)).map fun n => (crownThrough map core (colElem db k n).1, max 1 (dBits db / 8))
      let g := h.1.reader bank op reads
      let news := (List.range (dCols dc)).map fun n =>
        fmaAcc (g.2.1.code dc (rowElem dc i n)) x (g.1.crownValue g.2.1 op db (colElem db k n) (g.2.1.code db (colElem db k n)))
      (g.1, (rowParts map core dc i (wordBytes (news.map (·.1)))).map fun p => (0, p), news.foldl (fun f y => f ||| y.2) 0, at0 :: reads, h.2.2 || g.2.2)
  else match findElem db (colElem db) (fld rc 0 32) with
    | none => (h.1, [], 0, [at0], h.2.2)
    | some (k, n) =>
      let reads := (List.range (dRows dc)).flatMap fun i => [word i n, (crownThrough map core (rowElem da i k).1, max 1 (dBits da / 8))]
      let g := h.1.reader bank op reads
      let news := (List.range (dRows dc)).map fun i =>
        fmaAcc (g.2.1.code dc (rowElem dc i n)) (g.1.crownValue g.2.1 op da (rowElem da i k) (g.2.1.code da (rowElem da i k))) x
      (g.1, news.mapIdx (fun i y => (i, { addr := (word i n).1, bytes := natBytes 4 y.1 })), news.foldl (fun f y => f ||| y.2) 0, at0 :: reads,
       h.2.2 || g.2.2)

/-- The next record is merged. -/
def State.mergeStep (s : State) (o : Out) (op : Slotted) (w : Tiling) (m : Merge) : State :=
  let r := s.mergeRecord o.bank op m w.step
  let u := ((r.1.engineClaims (r.2.2.2.1.take 32) (r.2.1.map (·.2))).consumedBy o.bank r.2.2.2.2)
  let u := ((r.2.1.map (·.1)).eraseDups).foldl (fun (u : State) n =>
    u.mWrite o op (s.coreAfter (20 + n) + Config.strikeHold) ((r.2.1.filter fun x => x.1 == n).map (·.2))) u
  let w' := { w with step := w.step + 1, flags := w.flags ||| r.2.2.1 }
  let on := m.time op (w.step + 1) - m.time op w.step
  if w'.step = w.records then u.mergeEnd o op w' m (s.coreAfter (20 + on) + Config.strikeHold) else u.tileGoes o op w' (s.coreAfter on)

/-- Completion of `moutm`; with olen = 0 it has no effect. -/
def State.mergeDone (s : State) (o : Out) (op : Slotted) (w : Tiling) (m : Merge) : State :=
  let (x, y, z) := mmaRoles op.iss m.c m.a m.b 0
  if !cfOlen (m.cf op) then s else
  (s.settle o fun c => c.orFlags w.flags).feDone (y.takes op.iss.cbmap s.core.phys ++ z.takes op.iss.cbmap s.core.phys)
    (x.sets op.iss.cbmap s.core.phys)

/-! ## Moves in the engine (R191-R193) -/

/-- The pieces of row i that `mzero` writes. -/
def State.zeroRow (s : State) (r : Reader) (d : QWord) (i : Nat) : List Part :=
  let whole := dCols d * dBits d / 8
  let last := crownThrough r.map r.core (rowElem d i (dCols d - 1)).1
  rowParts r.map s.core.phys d i (List.replicate whole 0 ++ if dCols d * dBits d % 8 ≠ 0 then [r.mem.byte last &&& 0xF0] else [])

/-- `mzero` clears its next row; a row of a 4-bit tile with an odd number of columns keeps the nibble after it. -/
def State.zeroStep (s : State) (o : Out) (op : Slotted) (w : Tiling) (m : BitVec 3) : State :=
  let d := op.iss.rm m
  let odd := dCols d * dBits d % 8 ≠ 0
  let last := crownThrough op.iss.cbmap s.core.phys (rowElem d w.step (dCols d - 1)).1
  let rr := s.reader o.bank op (if odd then [(last, 1)] else [])
  let ps := rr.1.zeroRow rr.2.1 d w.step
  let u := ((rr.1.engineClaims (ps.map fun p => (p.addr, p.bytes.length)) ps).mWrite o op (s.now + Config.strikeHold) ps).consumedBy o.bank rr.2.2
  u.tileGoes o op { w with step := w.step + 1 } (if w.step + 1 = dRows d then s.now + Config.strikeHold else s.coreAfter 1)

/-- Load a B plane (R192). -/
def State.mbldDone (s : State) (bank : Bool) (op : Slotted) (b : BitVec 3) (live : Bool) : State :=
  let d := op.iss.rm b
  let depth := chunkDepth (dFmt d) (dFmt d)
  let x := bRole op.iss b depth
  let rr := s.reader bank op (planeRanges op.iss.cbmap s.core.phys x depth 0)
  let s := rr.1
  let p : Plane := { desc := planeTag d, depth := depth, codes := rr.2.1.planeRows d depth 0 }
  let others := s.core.planes.filter fun q => !(q.desc == p.desc && q.depth == p.depth)
  let s := { s with core := { s.core with planes := if live then p :: keepPlanes s.fresh others else s.core.planes }, fresh := s.fresh + 1 }
  (s.feDone (x.takes op.iss.cbmap s.core.phys) []).consumedBy bank rr.2.2

/-- A register write of the matrix engine, which no strike takes back: the waiting operations of later bundles find it (02 R53). -/
def State.mdldDone (s : State) (o : Out) (op : Slotted) (m : BitVec 3) (a : BitVec 15) : State :=
  let at0 := crownThrough op.iss.cbmap s.core.phys (mdAddr a op.ext)
  let rr := s.reader o.bank op [(at0, 16)]
  ((rr.1.engineClaims [(at0, 16)] []).landFinal o (.m m (BitVec.allOnes 128) (BitVec.ofNat 128 (bytesNat (rr.2.1.mem.bytes at0 16))))).consumedBy
    o.bank rr.2.2

/-- The piece that `mdst` writes. -/
def State.mdstPart (s : State) (op : Slotted) (m : BitVec 3) (a : BitVec 15) : Part :=
  { addr := crownThrough op.iss.cbmap s.core.phys (mdAddr a op.ext), bytes := natBytes 16 (op.iss.rm m).toNat }

/-- How many cycles before the completion of an operation whose steps are made the next may start (R181, Table 7-5): a product has entered its
last row 52 cycles before; crown writes of another are final 32 cycles after its last step. -/
def leadOf (i : Instr) : Nat :=
  match i with
  | .mma _ _ _ _ _ | .mmaCk _ _ _ _ _ | .moutm _ _ _ _ _ => 51
  | .mbld _ | .mdld _ _ | .mpiv _ _ _ => 0
  | _ => 32

end Sys2Proof.Machine
end

