-- ==== Sys2Proof/Machine/Factor.lean ====
section
/-! DEFINITION. Slot M: factorisations, solves and permutations of one tile (07_matrix_factorisation.md): their checks, their steps, and what the engine writes when they complete, stop or fault. -/

namespace Sys2Proof.Machine

/-! ## The tile under factorisation -/

/-- RNE without ftz and daz (R208). -/
def facEnv : FpEnv := { mode := 0, ftz := false, daz := false }

/-- Magnitude bits of an FP32 pattern. -/
def mag32 (w : Nat) : Nat := w % 2 ^ 31
def isNan32 (w : Nat) : Bool := decide (0x7F800000 < mag32 w)
/-- The pattern with its sign inverted. -/
def flip32 (w : Nat) : Nat := w ^^^ 2 ^ 31

/-- What a factorisation or solve holds while it runs: the region, the triangle of `mtrsm`, what it records for pv and
the τ area, mi and mf as magnitudes, and the fields of g (R203, R204). -/
structure Fac where
  a : List (List Nat)
  t : List (List Nat) := []
  pv : List (Nat × Nat) := []
  tau : List (Nat × Nat) := []
  mi : Nat := 0
  mf : Nat := 0
  nan : Bool := false
  zp : Bool := false
  rsc : Bool := false
  zcount : Nat := 0
  first : Nat := 0xFF
  fl : Fl := 0
  /-- trap code and failing index -/
  failed : Option (BitVec 8 × Nat) := none
  deriving DecidableEq, Repr

/-- Element of a list of rows. -/
def cell (l : List (List Nat)) (i j : Nat) : Nat := (l[i]?.getD [])[j]?.getD 0

def Fac.at (p : Fac) (i j : Nat) : Nat := cell p.a i j

/-- A value written into the region counts for the growth estimate (R204). -/
def Fac.seen (p : Fac) (w : Nat) : Fac :=
  if isNan32 w then { p with nan := true } else { p with mf := max p.mf (mag32 w) }

/-- Write an element with the flags of its rounding. -/
def Fac.put (p : Fac) (i j : Nat) (r : Nat × Fl) : Fac :=
  { (p.seen r.1) with a := p.a.set i ((p.a[i]?.getD []).set j r.1), fl := p.fl ||| r.2 }

/-- Swap two rows; the values moved count for the growth estimate. -/
def Fac.swap (p : Fac) (i j : Nat) : Fac :=
  if i = j then p else
  let ri := p.a[i]?.getD []
  let rj := p.a[j]?.getD []
  { (ri ++ rj).foldl Fac.seen p with a := (p.a.set i rj).set j ri }

/-- RoundFP32(c - x × y), one rounding. -/
def fms32 (c x y : Nat) : Nat × Fl := fpFma fp32 facEnv (flip32 x) y c

/-- Note an event of step k: the first one gives g.info. -/
def Fac.note (p : Fac) (k : Nat) : Fac := if p.first = 0xFF then { p with first := k } else p

/-- The rows or columns from `lo` to `hi - 1`. -/
def upTo (lo hi : Nat) : List Nat := (List.range (hi - lo)).map (lo + ·)

/-! ## `mlu` (R211) -/

/-- The pivot row of step k: the smallest row whose element is NaN, else the smallest one of the largest magnitude. -/
def Fac.pivot (p : Fac) (k m : Nat) : Nat :=
  match (upTo k m).find? fun i => isNan32 (p.at i k) with
  | some i => i
  | none =>
    let top := (upTo k m).foldl (fun x i => max x (mag32 (p.at i k))) 0
    ((upTo k m).find? fun i => mag32 (p.at i k) == top).getD k

def luStep (zc : Bool) (m n : Nat) (p : Fac) (k : Nat) : Fac :=
  let r := p.pivot k m
  let p := { p with pv := p.pv ++ [(k, r)], nan := p.nan || isNan32 (p.at r k) }
  if mag32 (p.at r k) = 0 ∧ zc = false then { p with failed := some (0x0C, k), first := k }
  else
    let p := p.swap k r
    let piv := p.at k k
    if mag32 piv = 0 then
      { (((upTo (k + 1) m).foldl (fun p i => p.put i k (0, 0)) p).note k) with zp := true, zcount := p.zcount + 1 }
    else
      let p := (upTo (k + 1) m).foldl (fun p i => p.put i k (fpDiv fp32 facEnv (p.at i k) piv)) p
      (upTo (k + 1) m).foldl (fun p i =>
        (upTo (k + 1) n).foldl (fun p j => p.put i j (fms32 (p.at i j) (p.at i k) (p.at k j))) p) p

/-! ## `mchol` (R212) -/

def cholStep (n : Nat) (p : Fac) (k : Nat) : Fac :=
  let p := { p with pv := p.pv ++ [(k, k)] }
  let d := p.at k k
  if isNan32 d ∨ mag32 d = 0 ∨ d.testBit 31 then { p with failed := some (0x0D, k), first := k }
  else
    let p := p.put k k (fpSqrt fp32 facEnv d)
    let l := p.at k k
    let p := (upTo (k + 1) n).foldl (fun p i => p.put i k (fpDiv fp32 facEnv (p.at i k) l)) p
    (upTo (k + 1) n).foldl (fun p j =>
      (upTo j n).foldl (fun p i => p.put i j (fms32 (p.at i j) (p.at i k) (p.at j k))) p) p

/-! ## `mqr` (R213-R215) -/

/-- Norm(k) of finite values (R214): the norm, its flags, and whether it was rescaled. -/
def norm32 (col : List Nat) : Nat × Fl × Bool :=
  let q : FV := col.foldl (fun s w => (addFV 0 s (mulFV (val32 w) (val32 w)).1).1) (.fin false 0 0)
  let r := rnd32 0 q
  if r.1 = 0x7F800000 then
    let x := rnd32 0 (q.scale (-128))
    let y := fpSqrt fp32 facEnv x.1
    let z := rnd32 0 ((val32 y.1).scale 64)
    (z.1, r.2 ||| x.2 ||| y.2 ||| z.2, true)
  else if r.1 < 0x00800000 then
    let x := rnd32 0 (q.scale 128)
    let y := fpSqrt fp32 facEnv x.1
    let z := rnd32 0 ((val32 y.1).scale (-64))
    (z.1, r.2 ||| x.2 ||| y.2 ||| z.2, true)
  else
    let y := fpSqrt fp32 facEnv r.1
    (y.1, r.2 ||| y.2, false)

/-- ApplyReflector(k, j) (R215). -/
def Fac.reflect (p : Fac) (m k j tau : Nat) : Fac :=
  let dot := (upTo (k + 1) m).foldl (fun (s : FV × Fl) i =>
    let x := mulFV (val32 (p.at i k)) (val32 (p.at i j))
    let y := addFV 0 s.1 x.1
    (y.1, s.2 ||| x.2 ||| y.2)) (val32 (p.at k j), snanFlag [val32 (p.at k j)])
  let t0 := rnd32 0 dot.1
  let t := fpMul fp32 facEnv tau t0.1
  let p := { p with fl := p.fl ||| dot.2 ||| t0.2 ||| t.2 }
  let p := p.put k j (fpSub fp32 facEnv (p.at k j) t.1)
  (upTo (k + 1) m).foldl (fun p i => p.put i j (fms32 (p.at i j) (p.at i k) t.1)) p

/-- β, τ and w of step k with their flags, and whether the norm was rescaled; a column with an infinity and no NaN has q = +Inf. A NaN or an infinity in the column makes
all three NaN (R213, the sentence after the pseudocode; log 15). -/
def reflector (col : List Nat) : Nat × Nat × Nat × Fl × Bool :=
  let x0 := col.headD 0
  if col.any fun w => decide (0x7F800000 ≤ mag32 w) then
    let fl := snanFlag (col.map val32) ||| if col.any isNan32 then 0 else fNv
    (fp32.nan, fp32.nan, fp32.nan, fl, !col.any isNan32)
  else
    let nrm := norm32 col
    let beta := if x0.testBit 31 then nrm.1 else nrm.1 + 2 ^ 31
    let num := addFV 0 (val32 beta) (val32 x0).negate
    let tau := fpDivFV fp32 facEnv num.1 (val32 beta)
    let w := fpSub fp32 facEnv x0 beta
    (beta, tau.1, w.1, nrm.2.1 ||| num.2 ||| tau.2 ||| w.2, nrm.2.2)

def qrStep (m n : Nat) (p : Fac) (k : Nat) : Fac :=
  let p := { p with pv := p.pv ++ [(k, k)] }
  if (upTo (k + 1) m).all fun i => mag32 (p.at i k) == 0 then { p with tau := p.tau ++ [(k, 0)] }
  else
    let (beta, tau, w, fl, rsc) := reflector ((upTo k m).map fun i => p.at i k)
    let p := if rsc then { p.note k with rsc := true } else p
    let p := { p with tau := p.tau ++ [(k, tau)], fl := p.fl ||| fl, nan := p.nan || isNan32 tau }
    let p := (upTo (k + 1) m).foldl (fun p i => p.put i k (fpDiv fp32 facEnv (p.at i k) w)) p
    let p := p.put k k (beta, 0)
    (upTo (k + 1) n).foldl (fun p j => p.reflect m k j tau) p

/-! ## `mtrsm` (R216) -/

/-- The selections of `mtrsm`. -/
structure Trsm where
  zi : Bool
  right : Bool
  upper : Bool
  trans : Bool
  unit : Bool
  deriving DecidableEq, Repr

/-- op(T) is upper when exactly one of the two bits is set. -/
def Trsm.opUpper (o : Trsm) : Bool := o.upper != o.trans

/-- U(i, j). -/
def Trsm.u (o : Trsm) (p : Fac) (i j : Nat) : Nat := if o.trans then cell p.t j i else cell p.t i j

/-- The diagonal index of step s, and the rows or columns updated (Table 7-8). -/
def Trsm.index (o : Trsm) (n s : Nat) : Nat := if o.opUpper == o.right then s else n - 1 - s
def Trsm.others (o : Trsm) (n k : Nat) : List Nat :=
  if o.opUpper == o.right then upTo (k + 1) n else upTo 0 k

/-- `r` is the number of the columns (left) or rows (right) of B that n does not count. -/
def trsmStep (o : Trsm) (n r : Nat) (p : Fac) (s : Nat) : Fac :=
  let k := o.index n s
  let d := o.u p k k
  if !o.unit && mag32 d == 0 && !o.zi then { p with failed := some (0x0E, k), first := k }
  else
    let p := if !o.unit && mag32 d == 0 then { p.note k with zp := true, zcount := p.zcount + 1 } else p
    if !o.right then
      let p := if o.unit then p else (upTo 0 r).foldl (fun p j => p.put k j (fpDiv fp32 facEnv (p.at k j) d)) p
      (o.others n k).foldl (fun p i =>
        (upTo 0 r).foldl (fun p j => p.put i j (fms32 (p.at i j) (o.u p i k) (p.at k j))) p) p
    else
      let p := if o.unit then p else (upTo 0 r).foldl (fun p i => p.put i k (fpDiv fp32 facEnv (p.at i k) d)) p
      (o.others n k).foldl (fun p j =>
        (upTo 0 r).foldl (fun p i => p.put i j (fms32 (p.at i j) (p.at i k) (o.u p k j))) p) p

/-! ## The four operations that run in steps -/

/-- What the engine needs to know of a factorisation or solve: role C, the triangle's descriptor, pv and g registers,
number of steps, time of a step, and the step itself. -/
structure FacJob where
  c : BitVec 3
  t : Option (BitVec 3)
  pv : Option (BitVec 2)
  g : BitVec 2
  steps : Nat
  /-- only the triangle at and below the diagonal is the region (R204) -/
  lower : Bool
  time : Nat → Nat
  step : Fac → Nat → Fac

/-- The job of an operation; none of any other. -/
def facJob (op : Slotted) : Option FacJob :=
  let rows (r : BitVec 3) : Nat := dRows (op.iss.rm r)
  let cols (r : BitVec 3) : Nat := dCols (op.iss.rm r)
  match op.instr with
  | .mlu t z g p => some { c := t, t := none, pv := some p, g := g, steps := min (rows t) (cols t), lower := false,
                           time := fun s => 16 + (rows t - s - 1), step := luStep (z == 1) (rows t) (cols t) }
  | .mchol t g p => some { c := t, t := none, pv := some p, g := g, steps := rows t, lower := true,
                           time := fun s => 24 + (rows t - s - 1), step := cholStep (rows t) }
  | .mqr t g p => some { c := t, t := none, pv := some p, g := g, steps := min (rows t) (cols t), lower := false,
                         time := fun s => 32 + 2 * (rows t - s), step := qrStep (rows t) (cols t) }
  | .mtrsm b t u x r d z g =>
    let o : Trsm := { zi := z == 1, right := d == 1, upper := r == 1, trans := x == 1, unit := u == 1 }
    some { c := b, t := some t, pv := none, g := g, steps := rows t, lower := false,
           time := fun s => if o.right then 16 + rows b else 16 + (rows t - s - 1),
           step := trsmStep o (rows t) (if o.right then rows b else cols b) }
  | _ => none

/-- Rows of a crown tile of role C or A as codes. -/
def Reader.tile (r : Reader) (d : QWord) : List (List Nat) :=
  (List.range (dRows d)).map fun i => (List.range (dCols d)).map fun k => r.code d (rowElem d i k)

/-- The values of the region (R204). -/
def regionOf (lower : Bool) (a : List (List Nat)) : List Nat :=
  (a.mapIdx fun i row => if lower then row.take (i + 1) else row).flatten

/-- What an operation starts or resumes with: the tile as it stands, and mi, mf and the events of the steps before a stop
(R204, R205). -/
def facStart (a t : List (List Nat)) (lower : Bool) (run : List Nat) : Fac :=
  match run with
  | [_, mi, mf, zc, first, fl, nan, zp, rsc] =>
    { a := a, t := t, mi := mi, mf := mf, zcount := zc, first := first, fl := fl, nan := nan == 1, zp := zp == 1, rsc := rsc == 1 }
  | _ =>
    let fin := ((regionOf lower a).map mag32).filter (· < 0x7F800000)
    let top := fin.foldl max 0
    { a := a, t := t, mi := top, mf := top, nan := (regionOf lower a).any isNan32 }

/-- The running values as the queue holds them; the first number marks a stopped operation. -/
def Fac.saved (p : Fac) : List Nat :=
  [1, p.mi, p.mf, p.zcount, p.first, p.fl, if p.nan then 1 else 0, if p.zp then 1 else 0, if p.rsc then 1 else 0]

/-- The growth field and the flags of its rounding (R204). -/
def Fac.growth (p : Fac) : Nat × Fl :=
  if p.nan then (0x7FC00000, 0)
  else if 0x7F800000 ≤ p.mf then (0x7F800000, 0)
  else if p.mi = 0 then (0x3F800000, 0)
  else fpDiv fp32 { facEnv with mode := 2 } p.mf p.mi

/-- The g register (Table 7-3). -/
def Fac.gWord (p : Fac) : DWord :=
  BitVec.ofNat 64 (p.growth.1 + p.first % 256 * 2 ^ 32 + (if p.zp then 2 ^ 40 else 0) + (if p.nan then 2 ^ 41 else 0) +
    (if p.rsc then 2 ^ 42 else 0) + p.zcount % 256 * 2 ^ 48)

/-- Write entries of a pv register. -/
def putEntries (w : BitVec 1024) (l : List (Nat × Nat)) : BitVec 1024 := l.foldl (fun w e => putField w (8 * e.1) 8 e.2) w

/-! ## In the engine -/

/-- Columns of row i that the region of a factorisation holds, of n. -/
def FacJob.width (j : FacJob) (n i : Nat) : Nat := if j.lower then min n (i + 1) else n

/-- Columns `lo` to `hi` - 1 of row i of T that `mtrsm` reads: those of the named triangle, without a unit diagonal (R216). -/
def triangle (i : Instr) (n row : Nat) : Nat × Nat :=
  match i with
  | .mtrsm _ _ u _ r _ _ _ => if r = 1 then (if u = 1 then row + 1 else row, n) else (0, if u = 1 then row else row + 1)
  | _ => (0, n)

/-- Cells that an operation reads. -/
def State.facRanges (s : State) (op : Slotted) (j : FacJob) : List (Nat × Nat) :=
  let d := op.iss.rm j.c
  let map := op.iss.cbmap
  ((List.range (dRows d)).flatMap fun i => rowSpan map s.core.phys d i 0 (4 * j.width (dCols d) i)) ++ match j.t with
    | some t =>
      let e := op.iss.rm t
      (List.range (dRows e)).flatMap fun i =>
        let k := triangle op.instr (dCols e) i
        rowSpan map s.core.phys e i (4 * k.1) (4 * k.2)
    | none => []

/-- Steps done when a job starts or goes on (R205). -/
def FacJob.progress (j : FacJob) (op : Slotted) (w : Tiling) : Nat := (w.prog.map (·.1)).getD (dProgress (op.iss.rm j.c))

/-- What a job holds before its next step: the tile and the triangle as the engine reads them now, and its running values (R205, R209). Also
the state after the reads, and whether a granule was bad. -/
def State.facHolds (s : State) (bank : Bool) (op : Slotted) (j : FacJob) (w : Tiling) : State × Fac × Bool :=
  let rr := s.reader bank op (s.facRanges op j)
  let t := match j.t with
    | some t => rr.2.1.tile (op.iss.rm t)
    | none => []
  (rr.1, facStart (rr.2.1.tile (op.iss.rm j.c)) t j.lower w.run, rr.2.2)

/-- The 32-byte units of row i of a tile that differ between two rows of words. -/
def changedUnits (map : DWord) (core : Nat) (d : QWord) (i : Nat) (old new : List Nat) : List Part :=
  (List.range ((new.length + 7) / 8)).filterMap fun u =>
    let ws := (new.drop (8 * u)).take 8
    if ws = (old.drop (8 * u)).take 8 then none
    else
      let la := dBase d + i * dS d + 32 * u
      some { addr := crownThrough map core (if dSkew d then skewed la i else la), bytes := wordBytes ws }

/-- The pieces of row i of the tile that a step writes: the units of the region that it changes (R204, R209). -/
def facRow (map : DWord) (core : Nat) (d : QWord) (j : FacJob) (p q : Fac) (i : Nat) : List Part :=
  changedUnits map core d i ((p.a[i]?.getD []).take (j.width (dCols d) i)) ((q.a[i]?.getD []).take (j.width (dCols d) i))

/-- Core cycles of step k under the matrix issue duty (R210, 06 R171). -/
def State.stepTime (s : State) (j : FacJob) (k : Nat) : Nat := (j.time k * 8 + s.hub.power.duty - 1) / s.hub.power.duty

/-- Every entry of the pivot register from the step count on is set to its own index (R202). -/
def State.facFill (s : State) (o : Out) (op : Slotted) (j : FacJob) (w : Tiling) : State :=
  match j.pv with
  | some r => s.settle o fun c => c.wpv r (putEntries (c.rpv r) ((upTo (max j.steps (j.progress op w)) 128).map fun i => (i, i)))
  | none => s

/-- A job starts or goes on: its running values are those of its stop, or of the tile as it stands (R204, R205). -/
def State.facBegin (s : State) (o : Out) (op : Slotted) (w : Tiling) (j : FacJob) : State :=
  let lo := j.progress op w
  let h := s.facHolds o.bank op j w
  let w := { w with started := some s.now, step := min lo j.steps, run := h.2.1.saved }
  let u := h.1.consumedBy o.bank h.2.2
  if j.steps ≤ lo then (u.facFill o op j w).tileGoes o op w (s.now + Config.strikeHold) else u.tileGoes o op w s.now

/-- The register writes of a job that ends: g, and the flags of its roundings (R203, R208). -/
def State.facWrites (s : State) (o : Out) (j : FacJob) (p : Fac) : State :=
  s.settle o fun c => (c.wg j.g p.gWord).orFlags (p.fl ||| p.growth.2)

/-- sr.einfo of traps 0x0C to 0x0E (R206). -/
def facInfo (k : Nat) (j : FacJob) (dropped : Nat) : DWord :=
  BitVec.ofNat 64 (k + j.c.toNat * 2 ^ 8 + (j.t.map (·.toNat)).getD 0 * 2 ^ 11 + min dropped 3 * 2 ^ 16)

/-- A job faults at the start of a step: the operations behind it are discarded, and the trap is due at the first bundle boundary (R206). -/
def State.facFail (s : State) (o : Out) (op : Slotted) (j : FacJob) (p : Fac) (code : BitVec 8) (k : Nat) : State :=
  let behind := (s.tileQueue o.bank).filter fun x => decide (o.id < x.id)
  let s := { s with outs := s.outs.filter fun x => x.id != o.id && !(behind.any (·.id == x.id)) }
  (s.facWrites o j p).settleSeq o fun q => q.pendNow
    { code := code, info := facInfo k j behind.length, slot := 2, iss := false, evt := false, now := true, seq := op.seq }

/-- The next step of a job (R205, R209): it reads the tile when it begins, and what it writes is final a strike hold after its end. -/
def State.facStep (s : State) (o : Out) (op : Slotted) (w : Tiling) (j : FacJob) : State :=
  let d := op.iss.rm j.c
  let map := op.iss.cbmap
  let h := s.facHolds o.bank op j w
  let q := j.step h.2.1 w.step
  let u := h.1.consumedBy o.bank h.2.2
  let u := match j.pv with
    | some r => u.settle o fun c => c.wpv r (putEntries (c.rpv r) q.pv)
    | none => u
  match q.failed with
  | some (code, k) => u.facFail o op j q code k
  | none =>
    let at0 := s.coreAfter (s.stepTime j w.step)
    let tau := q.tau.map fun e => ({ addr := crownThrough map s.core.phys (dAux d + 4 * e.1), bytes := natBytes 4 e.2 } : Part)
    let u := (List.range (dRows d)).foldl (fun (u : State) i =>
      u.mWrite o op (at0 + Config.strikeHold) (facRow map s.core.phys d j h.2.1 q i)) (u.mWrite o op (at0 + Config.strikeHold) tau)
    let w := { w with step := w.step + 1, run := q.saved }
    if w.step = j.steps then (u.facFill o op j w).tileGoes o op w (at0 + Config.strikeHold) else u.tileGoes o op w at0

/-- A factorisation or solve completes (R203, R204). -/
def State.facDone (s : State) (o : Out) (op : Slotted) (w : Tiling) (j : FacJob) : State :=
  let d := op.iss.rm j.c
  let role : Role := { desc := d, reg := j.c, role := 0, kind := 1 }
  let takes := match j.t with
    | some t => Role.takes { desc := op.iss.rm t, reg := t, role := 1, kind := 1 } op.iss.cbmap s.core.phys
    | none => []
  (s.facWrites o j (facStart [] [] j.lower w.run)).feDone takes (role.sets op.iss.cbmap s.core.phys)

/-! ## `mperm` and `mpiv` (R217, R218) -/

/-- Swap two entries of a list. -/
def swapAt (l : List Nat) (i j : Nat) : List Nat := (l.set i (l[j]?.getD 0)).set j (l[i]?.getD 0)

/-- P'(i). -/
def permEntry (pv : BitVec 1024) (count i : Nat) : Nat :=
  let e := fld pv.toNat (8 * i) 8
  if e < count then e else i

/-- The input line that lands at each of lines 0 to count - 1. -/
def permLines (pv : BitVec 1024) (count : Nat) (vector inverse : Bool) : List Nat :=
  let id := List.range count
  if !vector && !inverse then id.foldl (fun l k => swapAt l k (permEntry pv count k)) id
  else if !vector then id.reverse.foldl (fun l k => swapAt l k (permEntry pv count k)) id
  else if !inverse then id.map (permEntry pv count)
  else id.foldl (fun l i => l.set (permEntry pv count i) i) id

/-- Bytes of a row of elements of `z` bits; of a 4-bit row with an odd number of columns the last high half is kept. -/
def rowBytesOf (z : Nat) (old : Byte) (codes : List Nat) : List Byte :=
  let w := (codes.mapIdx fun i c => c % 2 ^ z * 2 ^ (z * i)).foldl (· + ·) 0
  let bits := z * codes.length
  natBytes ((bits + 7) / 8) (w + if bits % 8 = 0 then 0 else old.toNat / 16 * 16 * 2 ^ (bits - bits % 8))

/-- What `mperm` asks for: tile, number of lines, inverse, form, dimension, pivots. -/
structure Perm where
  t : BitVec 3
  count : Nat
  inverse : Bool
  vector : Bool
  columns : Bool
  pv : BitVec 2
  deriving DecidableEq, Repr

def permOf (i : Instr) : Option Perm :=
  match i with
  | .mperm t n i f d p => some { t := t, count := n.toNat + 1, inverse := i == 1, vector := f == 1, columns := d == 1, pv := p }
  | _ => none

/-- The rows that `mperm` moves, and how many elements of each: whole rows, or the columns moved of every row (R217). -/
def Perm.span (x : Perm) (d : QWord) : Nat × Nat := if x.columns then (dRows d, x.count) else (x.count, dCols d)

/-- Core cycles of a row (Table 7-5). -/
def Perm.rowTime (x : Perm) (d : QWord) : Nat := if x.columns then 1 else ((dCols d * dBits d + 7) / 8 + 511) / 512

/-- The rows of a tile after `mperm` with the pivots `pv`. -/
def Perm.rows (x : Perm) (d : QWord) (pv : BitVec 1024) (tile : List (List Nat)) : List (List Nat) :=
  let lines := permLines pv x.count x.vector x.inverse
  let src (i : Nat) : Nat := lines[i]?.getD i
  if x.columns then tile.map fun row => (List.range (x.span d).2).map fun k => row[src k]?.getD 0
  else (List.range (x.span d).1).map fun i => tile[src i]?.getD []

/-- `mperm` starts (R217): its one step reads the tile and the pivots, and its rows follow one after another. With a nonzero progress its one
step is done already (R205). -/
def State.permStart (s : State) (o : Out) (op : Slotted) (w : Tiling) (x : Perm) : State :=
  let d := op.iss.rm x.t
  let map := op.iss.cbmap
  let w := { w with started := some s.now }
  if dProgress d ≠ 0 then s.tileGoes o op w (s.now + Config.strikeHold) else
  let (rows, width) := x.span d
  let at0 (i : Nat) : Nat := s.coreAfter (((8 + i * x.rowTime d) * 8 + s.hub.power.duty - 1) / s.hub.power.duty) + Config.strikeHold
  let rr := s.reader o.bank op ((List.range rows).flatMap fun i => rowSpan map s.core.phys d i 0 ((width * dBits d + 7) / 8))
  let new := x.rows d ((s.bankCtx o.bank).rpv x.pv) (rr.2.1.tile d)
  let last (i : Nat) : Byte := rr.2.1.mem.byte (crownThrough map s.core.phys (rowElem d i (width - 1)).1)
  let u := (List.range rows).foldl (fun (u : State) i =>
    u.mWrite o op (at0 (i + 1)) (rowParts map s.core.phys d i (rowBytesOf (dBits d) (last i) (new[i]?.getD [])))) rr.1
  (u.consumedBy o.bank rr.2.2).tileGoes o op w (at0 rows)

/-- Completion of `mperm`. -/
def State.permDone (s : State) (op : Slotted) (x : Perm) : State :=
  let role : Role := { desc := op.iss.rm x.t, reg := x.t, role := 0, kind := if x.columns then 4 else 3 }
  s.feDone [] (role.sets op.iss.cbmap s.core.phys)

/-- Completion of `mpiv` with the pivots `pv`. -/
def Ctx.mpivDone (c : Ctx) (count : Nat) (pv : BitVec 1024) (d : BitVec 2) : Ctx :=
  let e (k : Nat) : Nat := fld pv.toNat (8 * k) 8
  let p := (List.range count).foldl (fun p k => if e k < count then swapAt p k (e k) else p) (List.range 128)
  c.wpv d (putEntries 0 (p.mapIdx fun i x => (i, x)))

/-! ## The engine's course (06 R180-R187; 07 R201-R210; log 6) -/

/-- Steps of a tile operation: row steps of a product, steps of a factorisation, rows of `mzero`, records of `moutm`. The others make
none: what they do falls in the cycle of their start or of their completion. -/
def Slotted.tileSteps (op : Slotted) (w : Tiling) : Nat :=
  match productOf op.instr, facJob op with
  | some p, _ => p.steps op
  | none, some j => j.steps
  | none, none => match op.instr with
    | .mzero m => dRows (op.iss.rm m)
    | .moutm _ _ _ _ _ => w.records
    | _ => 0

/-- A tile operation starts: it makes its first step at once or when its plane is loaded. -/
def State.tileStart (s : State) (o : Out) (op : Slotted) (w : Tiling) : State :=
  let w := { w with halt := none }
  let go := { w with started := some s.now, step := 0 }
  match productOf op.instr, facJob op, mergeOf op.instr, permOf op.instr with
  | some p, _, _, _ => s.productStart o op w p
  | none, some j, _, _ => s.facBegin o op w j
  | none, none, some m, _ => s.mergeStart o op w m
  | none, none, none, some x => s.permStart o op w x
  | none, none, none, none => match op.instr with
    | .mzero _ => s.tileGoes o op go (s.coreAfter 2)
    | .mdst m a => (s.mWrite o op (s.coreAfter 2 + Config.strikeHold) [s.mdstPart op m a]).tileGoes o op go (s.coreAfter 2 + Config.strikeHold)
    | .mdld _ _ => s.tileGoes o op go (s.coreAfter 2)
    | .mbld b => s.tileGoes o op go (s.coreAfter (planeTime (dFmt (op.iss.rm b)) (dFmt (op.iss.rm b))))
    | .mpiv n src _ =>
      s.tileGoes o op { go with pv := some ((s.bankCtx o.bank).rpv src) }
        (s.coreAfter (((8 + n.toNat + 1) * 8 + s.hub.power.duty - 1) / s.hub.power.duty))
    | _ => s.tileGoes o op go s.now

/-- The next step of a tile operation. -/
def State.tileStep (s : State) (o : Out) (op : Slotted) (w : Tiling) : State :=
  match productOf op.instr, facJob op, mergeOf op.instr with
  | some p, _, _ => match s.rowHeld o op w p with
    | some (t, refresh) => (if refresh then s.countStall 14 else s).tileGoes o op w t
    | none => s.productStep o op w p
  | none, some j, _ => s.facStep o op w j
  | none, none, some m => s.mergeStep o op w m
  | none, none, none => match op.instr with
    | .mzero m => s.zeroStep o op w m
    | _ => s

/-- Completion of a tile operation: registers, flags, full/empty bits. A plane that `mbld` loads is tagged unless the planes were made
invalid since it started (R185). -/
def State.tileDone (s : State) (o : Out) (op : Slotted) (w : Tiling) : State :=
  let live := w.started.all fun t0 => decide (s.core.planesLost ≤ t0)
  match productOf op.instr, facJob op, mergeOf op.instr, permOf op.instr with
  | some p, _, _, _ => s.productDone o op w p
  | none, some j, _, _ => s.facDone o op w j
  | none, none, some m, _ => s.mergeDone o op w m
  | none, none, none, some x => s.permDone op x
  | none, none, none, none => match op.instr with
    | .mzero m => s.feDone [] ((zeroRole op.iss m).sets op.iss.cbmap s.core.phys)
    | .mbld b => s.mbldDone o.bank op b live
    | .mdld m a => s.mdldDone o op m a
    | .mpiv n src d => s.settle o (·.mpivDone (n.toNat + 1) (w.pv.getD ((s.bankCtx o.bank).rpv src)) d)
    | _ => s

/-- An executing product stands at a boundary of 16 rows within its pass, a factorisation between two steps (R185, R205). -/
def Slotted.atBoundary (op : Slotted) (w : Tiling) : Bool :=
  match productOf op.instr with
  | some p => w.step % p.per op % 16 == 0
  | none => (facJob op).isSome

/-- A product or factorisation that its bead's bank switch has stopped, as the queue holds it (R186, R205): the progress of its copies of C
and A, and what it has gathered. -/
def Slotted.stopped (op : Slotted) (w : Tiling) : Tiling :=
  { w with
    started := none, halt := none, plane := [], next := []
    prog := some (match productOf op.instr with
      | some p => (w.step % p.per op / 16, w.step / p.per op)
      | none => (w.step, 0)) }

/-- A tile operation goes on: it stops at its boundary, makes its next step, or completes. -/
def State.tileGo (s : State) (o : Out) (op : Slotted) (w : Tiling) : State :=
  if w.step < op.tileSteps w then
    if w.halt.isSome && op.atBoundary w then s.tileGoes o op (op.stopped w) 0 else s.tileStep o op w
  else (s.tileDone o op w).drop o.id

/-! ## Issue (R199-R201) -/

/-- The pv and g registers that a queued operation names. -/
def facRegs (i : Instr) : List Reg :=
  match i with
  | .mlu _ _ g p => [.pv p, .g g]
  | .mchol _ g p => [.pv p, .g g]
  | .mqr _ g p => [.pv p, .g g]
  | .mtrsm _ _ _ _ _ _ _ g => [.g g]
  | .mperm _ _ _ _ _ p => [.pv p]
  | .mpiv _ s d => [.pv s, .pv d]
  | _ => []

/-- Whether a queued or executing tile operation of the bead names a pv or g register (R201). A later tile operation does not wait for it: the
queue orders them, and 14 R435 has two `mtrsm` that write one g register in one queue (DEDUCED, log 50). -/
def State.regQueued (s : State) (r : Reg) : Bool :=
  (s.tileQueue s.core.bank).any fun o => match o.work with
    | .tile op _ => (facRegs op.instr).contains r
    | _ => false

/-- Role C of a factorisation. -/
def facRole (c : Ctx) (t : BitVec 3) (kind : Nat) (limit : Bool) : Role :=
  { desc := c.rm t, reg := t, role := 0, kind := kind, limit := limit }

/-- Granules for which role C and role A wait (R200). -/
def State.facWaits (s : State) (x : Role) : List Nat := x.waits s.lat.iss.cbmap s.core.phys

def execMlu (t : BitVec 3) (z : BitVec 1) (g p : BitVec 2) (s : State) : Ans :=
  let x := facRole s.c t 1 true
  .next (s.tileIssue (.mlu t z g p) (s.roleCheck x true none) (s.facWaits x))
def execMchol (t : BitVec 3) (g p : BitVec 2) (s : State) : Ans :=
  let x := facRole s.c t 1 true
  .next (s.tileIssue (.mchol t g p) (s.roleCheck x (dRows x.desc == dCols x.desc) none) (s.facWaits x))
def execMqr (t : BitVec 3) (g p : BitVec 2) (s : State) : Ans :=
  let x := facRole s.c t 1 true
  .next (s.tileIssue (.mqr t g p)
    (firstTile [s.roleCheck x true none, s.auxCheck x.desc t (4 * min (dRows x.desc) (dCols x.desc)) x.span]) (s.facWaits x))

/-- u is the unit diagonal, x the transpose, r the triangle, d the side and z the zero mode (Table 7-1). -/
def execMtrsm (b t : BitVec 3) (u x r d z : BitVec 1) (g : BitVec 2) (s : State) : Ans :=
  let y := facRole s.c b (if d = 1 then 2 else 1) true
  let w : Role := { desc := s.c.rm t, reg := t, role := 1, kind := 1 }
  let n := if d = 1 then dCols y.desc else dRows y.desc
  .next (s.tileIssue (.mtrsm b t u x r d z g)
    (firstTile [s.roleCheck y true none, s.roleCheck w (dRows w.desc == dCols w.desc && n == dRows w.desc) (some y.span)])
    (s.facWaits y ++ s.facWaits w))

def execMperm (t : BitVec 3) (n : BitVec 7) (i f d : BitVec 1) (p : BitVec 2) (s : State) : Ans :=
  let count := n.toNat + 1
  let desc := s.c.rm t
  let x := facRole s.c t (if d = 1 then 4 else 3) (decide (count ≤ if d = 1 then dCols desc else dRows desc))
  .next (s.tileIssue (.mperm t n i f d p) (s.roleCheck x true none) (s.facWaits x))
def execMpiv (n : BitVec 7) (src d : BitVec 2) (s : State) : Ans :=
  .next (s.tileIssue (.mpiv n src d) none [])

end Sys2Proof.Machine
end

