-- ==== Sys2Proof/Machine/Vector.lean ====
section
/-! DEFINITION. Slot V: operands, ports, lane masks and the frame that its instructions share (05 R129-R132; 02 R46, R47; 08 R256-R260). -/

namespace Sys2Proof.Machine

/-! ## Port walks (08 R256) -/

/-- Logical crown address of 32-byte unit `u` of vector `n` of a walk. -/
def PSet.unitAddr (p : PSet) (n u : Nat) : Nat :=
  let la := (p.addr n).toNat + 32 * u
  if p.skew then skewed la (p.idx n p.skl) else la

/-- Cell addresses and lengths of the units of a vector, through a strip map. -/
def PSet.units (p : PSet) (map : DWord) (core n : Nat) : List (Nat × Nat) :=
  (List.range ((p.size + 31) / 32)).map fun u => (crownThrough map core (p.unitAddr n u), min 32 (p.size - 32 * u))

/-- 4 KiB granules that a vector touches. -/
def PSet.pages (p : PSet) (map : DWord) (core n : Nat) : List Nat :=
  ((p.units map core n).map fun u => u.1 / 4096 * 4096).eraseDups

/-- Granules that vector `n` touches and no later vector of the walk does (08 R257). -/
def PSet.lastPages (p : PSet) (map : DWord) (core n : Nat) : List Nat :=
  (p.pages map core n).filter fun g =>
    !(List.range (p.total - n - 1)).any fun i => (p.pages map core (n + 1 + i)).contains g

/-- Bits of an element of a converting walk. -/
def PSet.bits (p : PSet) : Nat := p.size / 16

/-- Linear index in its strip of element `l` of a vector of a converting walk. -/
def PSet.index (p : PSet) (n l : Nat) : Nat := ((p.addr n).toNat % 2 ^ 19 * 8 + l * p.bits) / max p.bits 1

/-- The kind and the scale of an element of a converting port. -/
def Port.kind (p : Port) : Kind := kindOf (cfFmt p.cf) (cfInf p.cf)

/-- How slot V reaches crown: path P, the strip map of the bundle, writes final after the strike hold. -/
def State.viaP (s : State) : Via := { path := .p, bank := s.core.bank, core := s.core.phys, map := s.lat.iss.cbmap }

def State.portScale (s : State) (p : Port) (n l : Nat) : Int :=
  match p.kind with
  | .kk _ => s.scaleOf s.viaP p.cf (p.set.index n l)
  | _ => 0

/-- The rounding mode of implicit conversions as at issue. -/
def State.implicitMode (s : State) : Mode := fld s.lat.iss.fpcr.toNat 0 2

/-- The vector that a read port delivers from the bytes of its walk (08 R257), with the conversion flags of its lanes. From a `raw` strip
each lane is its byte, unchanged (03 R86; log 24). -/
def State.portVector (s : State) (p : Port) (n : Nat) (w : Nat) : VWord × List (Nat × Fl) :=
  if !p.set.cvt then (BitVec.ofNat 4096 w, [])
  else
    let z := p.set.bits
    if p.kind == .raw then (ofLanes ((List.range 128).map fun l => fld w (z * l) z), [])
    else
      let es := (List.range 128).map fun l =>
        let v := p.kind.decode (s.portScale p n l) (fld w (z * l) z)
        let r := rnd32 s.implicitMode v
        (r.1, r.2 ||| snanFlag [v])
      (ofLanes (es.map (·.1)), es.mapIdx fun l e => (l, e.2))

/-! ## Operands (02 R46, R47; 08 R259, R260) -/

/-- Why an operation of slot V does not go on: it parks, traps, or rewinds its segment. -/
inductive VStop where
  | park
  | trap (code : BitVec 8) (info : DWord)
  | rewind
  deriving DecidableEq, Repr

def stopWith (s : State) : VStop → State
  | .park => s.park
  | .trap code info => s.raise code info
  | .rewind => { s with lat := { s.lat with res := .park }, q := { s.q with rewind := true } }

/-- The checks of a pop, peek or push of a port, in this order; answers its binding. A port of another core's object traps at a peek too, and
sr.einfo then holds the reason alone (08 R260; DEDUCED, log 27). -/
def State.portCheck (s : State) (ports : Vector (Option Port) 8) (k : BitVec 3) (push : Bool) : Except VStop Port :=
  match ports.get k.toFin with
  | none => .error (.trap 0x14 (portInfo 1 k))
  | some p =>
    if p.set.obj.toNat ≠ s.logical then .error (.trap 0x08 1)
    else if p.set.isWrite != push then .error (.trap 0x14 (portInfo 2 k))
    else if p.set.total ≤ p.pos then .error (.trap 0x14 (portInfo 0 k))
    else .ok p

/-- What the reads of one instruction have done so far: the state after ECC, the port bindings after its pops, the values,
the latches, the flags of port conversions by lane and the granules that its pops take. -/
structure VRead where
  s : State
  ports : Vector (Option Port) 8
  vals : List VWord
  latch : Vector (Option (BitVec 6)) 3
  fls : List (Nat × Fl)
  takes : List Nat

/-- Read one operand: a register, a pop or a peek. `pos` is its latch: 0 destination or third source, 1 a, 2 b. The latch of a position
that names a pair holds the number of its first register (05 R133; log 24). -/
def VRead.operand (r : VRead) (pos : Fin 3) (code : BitVec 6) : Except VStop VRead :=
  let s := r.s
  if code.toNat < 48 then
    .ok { r with vals := r.vals ++ [s.c.rv code.toNat], latch := r.latch.set pos (some code) }
  else
    let k : BitVec 3 := code.setWidth 3
    match s.portCheck r.ports k false with
    | .error e => .error e
    | .ok p =>
      let map := s.lat.iss.cbmap
      let us := p.set.units map s.core.phys p.pos
      let waits := p.set.fe = 1 ∨ p.set.fe = 2
      if waits ∧ (p.set.pages map s.core.phys p.pos).any s.mem.empty.contains then .error .park
      else
        let w := bytesNat (us.flatMap fun u => s.bytes .p u.1 u.2)
        let q := us.foldl (fun (x : State × List Nat) u => let y := x.1.eccRead .p u.1 u.2; (y.1, x.2 ++ y.2)) (s, [])
        if !q.2.isEmpty then .error (if s.lat.iss.segOpen then .rewind else .trap 0x10 0)
        else
          let v := s.portVector p p.pos w
          let popped := decide (code.toNat < 56)
          .ok { r with
            s := q.1
            vals := r.vals ++ [v.1]
            fls := r.fls ++ v.2
            ports := if popped then r.ports.set k.toNat (some { p with pos := p.pos + 1 }) k.isLt else r.ports
            takes := if popped ∧ p.set.fe = 2 then r.takes ++ p.set.lastPages map s.core.phys p.pos else r.takes }

/-- Read operands in order (02 R47). -/
def VRead.operands (r : VRead) : List (Fin 3 × BitVec 6) → Except VStop VRead
  | [] => .ok r
  | (pos, code) :: t => match r.operand pos code with
    | .error e => .error e
    | .ok r => r.operands t

def State.vRead (s : State) (l : List (Fin 3 × BitVec 6)) : Except VStop VRead :=
  ({ s := s, ports := s.c.port, vals := [], latch := s.c.latch, fls := [], takes := [] } : VRead).operands l

/-- Value `i` of an instruction's operands. -/
def VRead.val (r : VRead) (i : Nat) : VWord := r.vals[i]?.getD 0

/-! ## Destinations -/

/-- Encode a pushed vector for a converting port: the state after outlier appends, the packed bits, the flags of its lanes and the lost
outliers. A `raw` strip takes the low byte of each lane, unchanged (03 R86; log 24). -/
def State.encodeLanes (s : State) (p : Port) (v : VWord) : List Nat → Nat → List (Nat × Fl) → Nat → State × Nat × List (Nat × Fl) × Nat
  | [], acc, fls, lost => (s, acc, fls, lost)
  | l :: t, acc, fls, lost =>
    let z := p.set.bits
    let e := if p.kind == .raw then (s, lane v l, ({} : Raised))
      else s.encodeElem s.viaP p.kind (some p.cf) (s.portScale p p.pos l) s.implicitMode (p.set.index p.pos l) (val32 (lane v l)) {}
    e.1.encodeLanes p v t (acc + e.2.1 % 2 ^ z * 2 ^ (z * l)) (fls ++ [(l, e.2.2.fl)]) (lost + e.2.2.lost)

/-- The bits that a push writes, its conversions made: see `encodeLanes`. -/
def State.pushBits (s : State) (p : Port) (v : VWord) : State × Nat × List (Nat × Fl) × Nat :=
  if p.set.cvt then s.encodeLanes p v (List.range 128) 0 [] 0 else (s, v.toNat, [], 0)

/-- Push a whole vector (05 R131; 08 R257): it lands after the strike hold, and sets granules full with it. Answers the lost outliers. -/
def State.push (s : State) (k : BitVec 3) (p : Port) (v : VWord) : State × Nat :=
  let map := s.lat.iss.cbmap
  let e := s.pushBits p v
  let bs := natBytes p.set.size e.2.1
  let parts := (p.set.units map s.core.phys p.pos).mapIdx fun u x => ({ addr := x.1, bytes := (bs.drop (32 * u)).take x.2 } : Part)
  let full := if p.set.fe = 1 ∨ p.set.fe = 2 then p.set.lastPages map s.core.phys p.pos else []
  let s1 := e.1.launch .p .none (s.now + Config.strikeHold) none (.write parts map false full)
  ({ s1 with c := { s1.c with port := s1.c.port.set k.toNat (some { p with pos := p.pos + 1 }) k.isLt } }, e.2.2.2)

/-- The pops of an instruction take effect: its ports go on, and the granules that it takes become empty, which a discard makes full again
(12 R385). -/
def VRead.commit (r : VRead) : State :=
  let s := r.s
  { s with
    c := { s.c with port := r.ports, latch := r.latch }
    mem := r.takes.foldl (fun m g => m.setFull g false) s.mem
    core := { s.core with took := (r.takes.map fun g => (s.core.bank, g, s.now)) ++ s.core.took } }

/-- Complete an instruction that read `r`: the pops are committed, the bits of `value` under `mask` go to a register, or
the whole vector to a port with zeros outside the mask. -/
def VRead.finish (r : VRead) (d : BitVec 6) (mask value : VWord) (fl : Fl) : State :=
  let s := r.commit.orFlags fl
  if d.toNat < 48 then s.wv d (blendBits mask value (s.c.rv d.toNat))
  else
    let k : BitVec 3 := d.setWidth 3
    match s.portCheck s.c.port k true with
    | .error e => stopWith s e
    | .ok p =>
      let x := s.push k p (value &&& mask)
      x.1.finishRaised x.1.core.bank s.lat.iss.fpcr (olfInfo 0 (some (p.set.base / 2 ^ 19 % 16))) { fl := 0, lost := x.2 }

/-- The flags that the conversions of an instruction raise besides its own: of the vectors that it pops or peeks, and of the one that it
pushes (03 R94, R95). -/
def VRead.portFlags (r : VRead) (d : BitVec 6) (mask value : VWord) : List (Nat × Fl) :=
  r.fls ++ (if d.toNat < 48 then []
    else match r.s.portCheck r.ports (d.setWidth 3) true with
      | .error _ => []
      | .ok p => (r.s.pushBits p (value &&& mask)).2.2.1)

/-- The check of a destination port, made before anything is consumed. -/
def VRead.destination (r : VRead) (d : BitVec 6) : Option VStop :=
  if d.toNat < 48 then none
  else match r.s.portCheck r.ports (d.setWidth 3) true with
    | .error e => some e
    | .ok _ => none

/-! ## The frame (R132) -/

/-- Modes of an instruction: its rounding field, ftz and daz of sr.fpcr as at issue. -/
def State.vEnv (s : State) (r : BitVec 2) : FpEnv :=
  { mode := r.toNat, ftz := s.lat.iss.fpcr.getLsbD 2, daz := s.lat.iss.fpcr.getLsbD 3 }

/-- Active lanes (R129). -/
def State.active (s : State) (w : BitVec 2) (m : BitVec 3) : List Nat :=
  (List.range (lanesOf w)).filter fun l => (s.c.rvm m).getLsbD l

/-- The bits of lanes. -/
def lanesMask (l : List Nat) : VWord := BitVec.ofNat 4096 ((l.map fun i => (2 ^ 32 - 1) * 2 ^ (32 * i)).foldl (· + ·) 0)

/-- Values at lanes. -/
def lanesValue (l : List (Nat × Nat)) : VWord :=
  BitVec.ofNat 4096 ((l.map fun x => x.2 % 2 ^ 32 * 2 ^ (32 * x.1)).foldl (· + ·) 0)

/-- sr.einfo of trap 0x0F in slot V (03 R95). -/
def vFlagInfo (fpcr : DWord) (fl : Fl) (lane : Nat) : DWord :=
  BitVec.ofNat 64 (enabledFlags fpcr fl + (fl &&& 31) * 256 + lane * 2 ^ 16)

/-- The lowest of some lanes; 0 of none. -/
def lowest (l : List Nat) : Nat := l.foldl min (l.headD 0)

/-- Trap 0x0F for the flags of lanes, or go on with their OR. Lanes of one source rise; the lowest of all that raised an enabled flag is
reported. -/
def State.vFlags (s : State) (fls : List (Nat × Fl)) (f : Fl → State) : State :=
  let all := fls.foldl (fun a x => a ||| x.2) 0
  let fpcr := s.lat.iss.fpcr
  if enabledFlags fpcr all ≠ 0 then
    s.raise 0x0F (vFlagInfo fpcr all (lowest ((fls.filter fun x => decide (enabledFlags fpcr x.2 ≠ 0)).map (·.1))))
  else f all

/-- Whether a v register field names a register of a lent bank (R139). -/
def lentCode (c : Ctx) (code : BitVec 6) : Bool := decide (code.toNat < 48) && lentReg c.lent code.toNat
where lentReg (lent : BitVec 6) (r : Nat) : Bool := lent.getLsbD (r % 6)

/-- Issue checks of fields: 0x01 for an illegal code or width, then 0x02 for a lent bank (02 R56). -/
def State.vIssue (s : State) (bad : Bool) (regs : List (BitVec 6)) (f : State → State) : State :=
  if bad then s.raiseIssue 0x01
  else if regs.any (lentCode s.lat.iss) then s.raiseIssue 0x02
  else f s

/-- The frame of R132 for sources read in order: LaneOp answers the result of a lane and its flags. -/
def State.laneOp (s : State) (d : BitVec 6) (srcs : List (Fin 3 × BitVec 6)) (w : BitVec 2) (m : BitVec 3)
    (op : VRead → Nat → Nat × Fl) : State :=
  s.vIssue (w == 3 || decide (56 ≤ d.toNat)) (d :: srcs.map (·.2)) fun s =>
    match s.vRead srcs with
    | .error e => stopWith s e
    | .ok r =>
      let act := s.active w m
      let res := act.map fun l => (l, op r l)
      let value := lanesValue (res.map fun x => (x.1, x.2.1))
      s.vFlags (res.map (fun x => (x.1, x.2.2)) ++ r.portFlags d (lanesMask act) value) fun fl =>
        match r.destination d with
        | some e => stopWith s e
        | none => r.finish d (lanesMask act) value fl

/-- One source. -/
def State.lane1 (s : State) (d a : BitVec 6) (w : BitVec 2) (m : BitVec 3) (f : Nat → Nat × Fl) : State :=
  s.laneOp d [(1, a)] w m fun r l => f (lane (r.val 0) l)

/-- Two sources. -/
def State.lane2 (s : State) (d a b : BitVec 6) (w : BitVec 2) (m : BitVec 3) (f : Nat → Nat → Nat × Fl) : State :=
  s.laneOp d [(1, a), (2, b)] w m fun r l => f (lane (r.val 0) l) (lane (r.val 1) l)

/-- Three sources: the third is the EXT field's, read last, or the destination, read first; a port destination may then
not be read (02 R40, R46, R47). -/
def State.lane3 (s : State) (d a b : BitVec 6) (w : BitVec 2) (m : BitVec 3) (f : Nat → Nat → Nat → Nat × Fl) : State :=
  match s.lat.ext with
  | some e =>
    if e.v.toNat % 8 ≠ 0 then s.raiseIssue 0x01
    else s.laneOp d [(1, a), (2, b), (0, extSource e)] w m fun r l => f (lane (r.val 0) l) (lane (r.val 1) l) (lane (r.val 2) l)
  | none =>
    if 48 ≤ d.toNat then s.raiseIssue 0x01
    else s.laneOp d [(0, d), (1, a), (2, b)] w m fun r l => f (lane (r.val 1) l) (lane (r.val 2) l) (lane (r.val 0) l)

/-- An instruction that writes bits of a mask register: active lanes only. -/
def State.laneMask (s : State) (d : BitVec 3) (a b : BitVec 6) (w : BitVec 2) (m : BitVec 3) (f : Nat → Nat → Bool × Fl) : State :=
  s.vIssue (w == 3) [a, b] fun s =>
    match s.vRead [(1, a), (2, b)] with
    | .error e => stopWith s e
    | .ok r =>
      let act := s.active w m
      let res := act.map fun l => (l, f (lane (r.val 0) l) (lane (r.val 1) l))
      s.vFlags (res.map (fun x => (x.1, x.2.2)) ++ r.fls) fun fl =>
        let bits := BitVec.ofNat 128 ((res.map fun x => if x.2.1 then 2 ^ x.1 else 0).foldl (· + ·) 0)
        let mask := BitVec.ofNat 128 ((act.map (2 ^ ·)).foldl (· + ·) 0)
        let s := r.commit
        (s.orFlags fl).wvm d (blendBits mask bits (s.c.rvm d))

end Sys2Proof.Machine
end

