-- ==== Sys2Proof/Machine/Sync.lean ====
section
/-! DEFINITION. Waits, fences, drains, atomics, barrier objects and full/empty instructions (10_ordering_and_sync.md): the instructions, and what the home atomic engine does with a request. -/

namespace Sys2Proof.Machine

/-! ## What an operation in hand accesses, and how far away (R314) -/

/-- Quadrant of a core: 0 NW, 1 NE, 2 SW, 3 SE (01 R19). -/
def quadrantOf (phys : Nat) : Nat := (if 4 ≤ fileOf phys then 1 else 0) + (if 4 ≤ rankOf phys then 0 else 2)

/-- Board and quadrant of the home atomic engine of a global line (01 R19). -/
def engineOf (g : Nat) : Nat × Nat := (if deviceHalf g then homeBoard g else fld g 8 3, fld g 6 2)

/-- The smallest scope that holds a core, for accesses of this core. -/
def State.coreScope (s : State) (phys : Nat) : Nat :=
  if phys = s.core.phys then 0
  else if boardOf phys ≠ s.board then 3
  else if quadrantOf phys = quadrantOf s.core.phys then 1 else 2

/-- The smallest scope that holds a cell address (Table 10-4). -/
def State.scopeOf (s : State) (a : Nat) : Nat :=
  if isCrown a then s.coreScope ((a - 2 ^ 64) / 2 ^ 23)
  else if isTower a then s.coreScope ((a - 2 ^ 65) / 2 ^ 23 / 17)
  else if 2 ^ 64 ≤ a then 4
  else if !deviceHalf a then 3
  else if homeBoard a ≠ s.board then 3
  else if !inStaging a && fld a 6 2 == quadrantOf s.core.phys then 1 else 2

/-- First byte of the weight stream of a product in hand. -/
def State.streamHome (s : State) (bank : Bool) : List Nat :=
  match (s.bankCtx bank).wstr with
  | some w => match s.hub.translate w.handle w.off 1 with
    | .ok ge => [ge.1]
    | .error _ => []
  | none => []

/-- Cell addresses that an operation in hand writes; one for each place that matters to a scope. -/
def State.writeTargets (s : State) (o : Out) : List Nat :=
  match o.work with
  | .write ps _ _ _ => ps.map (·.addr)
  | .gstore ps _ => ps.map (·.addr)
  | .atom r => [r.addr]
  | .copy op dmap smap pair _ => match op.instr with
    | .copy _ h m _ _ _ _ _ _ => (s.copyPlaces op pair h m dmap smap).1.1.map (·.addr)
    | _ => []
  | .refill _ _ t off ranks _ => ((List.range 8).filter fun k => ranks.getLsbD k).map fun k =>
      towerAddr (s.core.phys / 8 * 8 + k) t off
  | .shift _ _ lands _ _ => towerAddr s.core.phys 0 0 :: lands.map fun p => towerAddr p 0 0
  | .reduce _ _ => [crownAddr s.core.phys 0]
  | .tset gs _ => gs
  | .hdead us => us
  | .bcfl ls _ _ => ls.map (·.1)
  | .tile _ _ => [crownAddr s.core.phys 0]
  | .notice _ _ _ _ _ => []
  | .load _ _ _ _ => []
  | .fetch _ _ _ _ _ => []

/-- Cell addresses that an operation in hand has still to read. -/
def State.readTargets (s : State) (o : Out) : List Nat :=
  match o.work with
  | .fetch _ ranges _ _ _ => ranges.map (·.1)
  | .atom r => [r.addr]
  | .copy op dmap smap pair _ => match op.instr with
    | .copy _ h m _ _ _ _ _ _ => (s.copyPlaces op pair h m dmap smap).2.1.map (·.addr)
    | _ => []
  | .refill src _ _ _ _ _ => [src]
  | .shift _ _ _ _ _ => [towerAddr s.core.phys 0 0]
  | .tile _ _ => crownAddr s.core.phys 0 :: if o.usesStream then s.streamHome o.bank else []
  | _ => []

/-- Whether a request comes from the hub: for the barrier object of a clasp (11 R355, R367), or for a `cbar` whose bead has suspended. -/
def AtomReq.ofHub (r : AtomReq) : Bool :=
  r.engine && (match r.instr with
    | .cbar _ => true
    | .leave => true
    | .join _ _ _ => true
    | _ => false)

/-- Whether something in hand is no operation of the bead in the bank: a request of the hub, or a record on its way. -/
def Out.detached (o : Out) : Bool :=
  match o.work with
  | .atom r => r.ofHub
  | .notice _ _ _ _ _ => true
  | _ => false

/-- Operations in hand of the active bead that issued in bundles before `n`. -/
def State.earlier (s : State) (n : Nat) : List Out :=
  s.outs.filter fun o => o.bank == s.core.bank && decide (o.seq < n) && !o.detached

/-- No slot holds an operation of a bundle before `n` (R315, R320). -/
def Seq.slotsEmpty (q : Seq) (n : Nat) : Bool := !(q.vq.any fun o => decide (o.seq < n)) && !(q.mq.any fun o => decide (o.seq < n))

/-- Every access of bundles before `n` with a target in a scope has performed; reads only when `reads`. -/
def State.performed (s : State) (n scope : Nat) (reads : Bool) : Bool :=
  (s.earlier n).all fun o =>
    (s.readTargets o).all (fun a => decide (scope < s.scopeOf a)) &&
    (reads || (s.writeTargets o).all fun a => decide (scope < s.scopeOf a))

/-! ## `wait`, `fence`, `drain` (R313, R315, R320) -/

def execWait (l t c m : BitVec 6) (s : State) : Ans :=
  if s.q.slotsEmpty s.lat.seq && decide (s.count .ld ≤ l.toNat ∧ s.count .st ≤ t.toNat ∧ s.count .cp ≤ c.toNat ∧
      s.count .tl ≤ m.toNat) then .next s
  else .next s.stall

/-- The fence stays in force while an access before it is outstanding. -/
def execFence (a b : BitVec 6) (s : State) : Ans :=
  if a = 0 ∨ b = 0 ∨ a.getLsbD 4 ∨ b.getLsbD 4 then .next (s.raiseIssue 0x01)
  else .next { s with q := { s.q with fences := s.q.fences ++ [(a, b, s.lat.seq)] } }

/-- Empty the scalar cache (R315, acquire). -/
def State.scClear (s : State) : State := { s with core := { s.core with scache := [] } }

/-- Two release holds in force together are one hold of the later bundle and the wider scope. -/
def joinHold (old : Option (BitVec 3 × Nat)) (scope : BitVec 3) (n : Nat) : BitVec 3 × Nat :=
  match old with
  | some (o, _) => (if o.toNat ≤ scope.toNat then scope else o, n)
  | none => (scope, n)

def execDrain (sc : BitVec 3) (k : BitVec 2) (s : State) : Ans :=
  let n := s.lat.seq
  if 5 ≤ sc.toNat then .next (s.raiseIssue 0x01)
  else if !s.q.slotsEmpty n then .next s.stall
  else if k = 2 then .next { s with q := { s.q with relHold := some (joinHold s.q.relHold sc n) } }
  else if !s.performed n sc.toNat (k == 1) then .next s.stall
  else .next (if k = 0 then s else s.scClear)

/-- As `drain.package.rel` before an operation that is sent only then (R326, R330). -/
def State.released (s : State) (f : State → State) : State :=
  if s.q.slotsEmpty s.lat.seq && s.performed s.lat.seq 3 false then f s else s.stall

/-! ## Which path and which data an operation waiting in a slot accesses (R313, R334) -/

/-- The bytes of a format register's scale table for a tile's span in a strip (03 R85). -/
def scaleSpan (map : DWord) (core : Nat) (cf : DWord) (fmt : BitVec 8) (lo n : Nat) : List (Nat × Nat) :=
  match kindOf fmt (cfInf cf) with
  | .kk _ =>
    if !cfRsc cf then [] else
    let z := max 1 (fmtBits fmt)
    let first := lo % 2 ^ 19 * 8 / z / 128
    let last := ((lo + n - 1) % 2 ^ 19 * 8 + 4) / z / 128
    [(crownThrough map core ((cfRsa cf + first) % 2 ^ 23), last - first + 1)]
  | _ => []

/-- The bytes of a format register's outlier list: its header, and as many entries as it may hold (03 R88). -/
def State.listSpan (s : State) (v : Via) (cf : DWord) : List (Nat × Nat) :=
  if !cfOlen cf then [] else
  let at_ (i : Nat) : Nat := crownThrough v.map v.core ((cfOla cf + i) % 2 ^ 23)
  [(at_ 0, 8 + 8 * bytesNat ((List.range 4).map fun i => s.seen (at_ (4 + i))))]

/-- The bytes of a format register's tables that conversions of elements touch: their scales, and the outlier list where they are encoded. -/
def State.tableSpans (s : State) (v : Via) (k : Kind) (cf : DWord) (elems : List Nat) (encoded : Bool) : List (Nat × Nat) :=
  match k with
  | .kk _ =>
    (if cfRsc cf then ((elems.map (· / 128)).eraseDups).map fun j => (crownThrough v.map v.core ((cfRsa cf + j) % 2 ^ 23), 1) else []) ++
      if encoded then s.listSpan v cf else []
  | _ => []

/-- Cell ranges that the next vectors of a port touch, as many as its queued operations may take. -/
def State.portRanges (s : State) (c : Ctx) (k : BitVec 3) (n : Nat) : List (Nat × Nat) :=
  match c.port.get k.toFin with
  | some p => (List.range n).flatMap fun i => p.set.units c.cbmap s.core.phys (p.pos + i)
  | none => []

/-- Those of the tables of its conversions. -/
def State.portTables (s : State) (c : Ctx) (bank : Bool) (k : BitVec 3) (n : Nat) : List (Nat × Nat) :=
  match c.port.get k.toFin with
  | some p =>
    let via : Via := { path := .p, bank := bank, core := s.core.phys, map := c.cbmap }
    if p.set.cvt then (List.range n).flatMap fun i =>
      s.tableSpans via p.kind p.cf ((List.range 128).map (p.set.index (p.pos + i))) p.set.isWrite
    else []
  | none => []

/-- Cell ranges of crown that an operation waiting in slot V touches: vectors of its ports, of `n` operations at most, and the tables of the
format register that a conversion names (05 R161). -/
def State.vectorRanges (s : State) (c : Ctx) (bank : Bool) (n : Nat) (o : Slotted) : List (Nat × Nat) :=
  let table (r : BitVec 4) (encoded : Bool) : List (Nat × Nat) :=
    let cf := o.iss.cfOf r.toNat
    s.tableSpans { path := .p, bank := bank, core := s.core.phys, map := o.iss.cbmap } (kindOf (cfFmt cf) (cfInf cf)) cf (List.range 128) encoded
  (o.ports.flatMap fun k => s.portRanges c k n ++ s.portTables c bank k n) ++
  match o.instr with
  | .vcvtPack _ _ r _ _ _ => table r true
  | .vcvtUnpack _ _ r _ _ _ => table r false
  | _ => []

/-- The tables of format registers that a converting copy reads or writes. -/
def State.copyTables (s : State) (bank : Bool) (op : Slotted) (pair : BitVec 1024) (h hs : BitVec 4) (dmap smap : SideMap) : List (Nat × Nat) :=
  let sides := copySides op pair h hs
  let tables (d : Side) (map : SideMap) : List (Nat × Nat) :=
    let m := movingSide bank op.iss d map.strips map.owner (s.heldLocs d (d.rg.fmt op.iss d.h) map)
    match m.cf with
    | some w => s.tableSpans m.via m.kind w (m.locs.map m.index) d.dst
    | none => []
  tables sides.1 dmap ++ tables sides.2 smap

/-- Cell ranges that a product reads or writes, with the scale tables of its crown operands. -/
def State.productTouches (s : State) (op : Slotted) (p : Product) : List (Nat × Nat) :=
  let (_, y, z) := mmaRoles op.iss p.c p.a p.b p.src
  let scales (x : Role) : List (Nat × Nat) :=
    scaleSpan op.iss.cbmap s.core.phys (op.iss.cfOf (dBase x.desc / 2 ^ 19 % 16)) (dFmt x.desc) x.span.1 x.span.2
  s.productRanges op p ++ scales z ++ if p.src = 0 then scales y else []

/-- Cell ranges that a tile operation reads or writes, by the descriptors it would sample or has sampled. -/
def State.tileRanges (s : State) (op : Slotted) : List (Nat × Nat) :=
  let map := op.iss.cbmap
  let rows (x : Role) : List (Nat × Nat) := rowRanges map s.core.phys (dBase x.desc) x.layoutRows (dS x.desc) x.rowBytes
  let aux (r : BitVec 3) (n : Nat) : Nat × Nat := (crownThrough map s.core.phys (dAux (op.iss.rm r)), n)
  match op.instr with
  | .mdld _ a => [(crownThrough map s.core.phys (mdAddr a op.ext), 16)]
  | .mdst _ a => [(crownThrough map s.core.phys (mdAddr a op.ext), 16)]
  | .mbld b => rows (bRole op.iss b (chunkDepth (dFmt (op.iss.rm b)) (dFmt (op.iss.rm b))))
  | .mzero m => rows (zeroRole op.iss m)
  | .mma c a b x z => s.productTouches op { c := c, a := a, b := b, src := x.toNat, zero := z == 1, ck := false }
  | .mmaCk c a b x z =>
    aux c (ckBytes (dRows (op.iss.rm c))) :: s.productTouches op { c := c, a := a, b := b, src := x.toNat, zero := z == 1, ck := true }
  | .moutm c a b k l =>
    let m : Merge := { c := c, a := a, b := b, listB := l == 1, clear := k == 1 }
    let hdr := m.list op s.core.phys 0 8
    m.list op s.core.phys 0 (8 + 8 * fld (bytesNat ((List.range 8).map fun i => s.seen (hdr.1 + i))) 0 32) ::
      s.productTouches op { c := c, a := a, b := b, src := 0, zero := false, ck := false }
  | .mqr t _ _ => aux t (4 * min (dRows (op.iss.rm t)) (dCols (op.iss.rm t))) ::
      rows { desc := op.iss.rm t, reg := t, role := 0, kind := 1 }
  | .mlu t _ _ _ => rows { desc := op.iss.rm t, reg := t, role := 0, kind := 1 }
  | .mchol t _ _ => rows { desc := op.iss.rm t, reg := t, role := 0, kind := 1 }
  | .mtrsm b t _ _ _ _ _ _ => rows { desc := op.iss.rm b, reg := b, role := 0, kind := 2 } ++
      rows { desc := op.iss.rm t, reg := t, role := 1, kind := 1 }
  | .mperm t _ _ _ _ _ => rows { desc := op.iss.rm t, reg := t, role := 0, kind := 3 }
  | _ => []

/-- Whether an operation in hand reads any of the `n` bytes from a cell address. -/
def State.readsRange (s : State) (o : Out) (lo n : Nat) : Bool :=
  match o.work with
  | .fetch _ ranges _ _ _ => rangesMeet ranges lo n
  | .atom r => !r.waiting && decide (r.addr < lo + n ∧ lo < r.addr + 16)
  | .copy op dmap smap pair _ => match op.instr with
    | .copy _ h m _ _ _ _ _ _ => locsMeet (s.copyPlaces op pair h m dmap smap).2 lo n ||
        rangesMeet (s.copyTables o.bank op pair h m dmap smap) lo n
    | _ => false
  | .refill src len _ _ _ _ => decide (src < lo + n ∧ lo < src + len)
  | .shift op _ _ _ _ =>
    let r := shiftRange op false
    (List.range 16).any fun t => decide (s.towerAt t r.1 < lo + n ∧ lo < s.towerAt t r.1 + r.2)
  | .tile op _ => rangesMeet (s.tileRanges op) lo n
  | .reduce op _ => match op.instr with
    | .reduce _ h _ o k =>
      decide (crownThrough op.iss.cbmap s.core.phys (hBase (op.iss.rh h) + (op.iss.ra o).toNat) < lo + n ∧
        lo < crownThrough op.iss.cbmap s.core.phys (hBase (op.iss.rh h) + (op.iss.ra o).toNat) + 8 * fld (op.iss.ra k).toNat 0 11)
    | _ => false
  | _ => false

/-- Whether every access of a bank's bead in bundles before `seq` to any of `n` bytes has performed: those in hand, and
those that wait in slots V and M. -/
def State.rangeQuiet (s : State) (bank : Bool) (seq lo n : Nat) : Bool :=
  let mine := s.outs.filter fun o => o.bank == bank && decide (o.seq < seq)
  let q := if bank = s.core.bank then s.q else s.oq
  let vs := q.vq.filter fun o => decide (o.seq < seq)
  let ms := q.mq.filter fun o => decide (o.seq < seq)
  !(mine.any fun o => s.writesRange o lo n || s.readsRange o lo n) &&
  !(vs.any fun o => rangesMeet (s.vectorRanges (s.bankCtx bank) bank vs.length o) lo n) &&
  !(ms.any fun o => rangesMeet (s.tileRanges { o with iss := { o.iss with m := (s.bankCtx bank).m } }) lo n)

/-! ## `tsetf`, `tsete` (R334) -/

/-- The checks of R334. -/
def State.tsetCheck (s : State) (h o l : BitVec 4) : Except Flt Nat :=
  let off := s.offset o 0
  let n := (s.c.ra l).toNat
  match checkHandle s.logical (s.c.rh h) [2] canWrite off with
  | some f => .error f
  | none =>
    let la : Int := hBase (s.c.rh h) + off
    if la % 4096 ≠ 0 ∨ n % 4096 ≠ 0 then .error { code := 0x04, reason := 0, off := off }
    else if !inWindow (s.c.rh h) off n then .error { code := 0x06, reason := 1, off := firstOutside (s.c.rh h) off }
    else if (2 ^ 23 : Int) < la + n then .error { code := 0x06, reason := 2, off := off }
    else .ok la.toNat

/-- Due 0 marks an instruction that still waits for earlier accesses; then sixteen granules change a cycle. -/
def State.tset (s : State) (full : Bool) (h o l : BitVec 4) : State :=
  match s.tsetCheck h o l with
  | .error f => s.fault f h o
  | .ok la =>
    let gs := (List.range ((s.c.ra l).toNat / 4096)).map fun i => s.crownAt (la + 4096 * i)
    if gs.isEmpty then s
    else s.counted .st fun s => s.launch .l .st 0 none (.tset gs full)

def execTsetf (h o l : BitVec 4) (s : State) : Ans := .next (s.tset true h o l)
def execTsete (h o l : BitVec 4) (s : State) : Ans := .next (s.tset false h o l)

/-! ## Atomics (R325-R327) -/

/-- New value of an atomic and its flags (Table 10-7), by the low bytes. -/
def atomNew (i : Instr) (n : Nat) (old s d : Nat) : Nat × Fl :=
  let w := 8 * n
  let cut (x : Nat) : Nat := x % 2 ^ w
  let sg (x : Nat) : Int := (BitVec.ofNat w x).toInt
  let s := cut s
  match i with
  | .atmAdd _ _ _ _ _ _ => (cut (old + s), 0)
  | .atmFadd _ _ _ _ _ _ =>
    fpAdd (if n = 4 then fp32 else fp64) { mode := 0, ftz := false, daz := false } old s
  | .atmMin _ _ _ _ _ _ => (if sg s < sg old then s else old, 0)
  | .atmMax _ _ _ _ _ _ => (if sg old < sg s then s else old, 0)
  | .atmAnd _ _ _ _ _ _ => (old &&& s, 0)
  | .atmOr _ _ _ _ _ _ => (old ||| s, 0)
  | .atmXor _ _ _ _ _ _ => (old ^^^ s, 0)
  | .atmXchg _ _ _ _ _ _ => (s, 0)
  | .atmCas _ _ _ _ _ _ => (if old = cut d then s else old, 0)
  | .atmInc _ _ _ _ _ _ => (if s = 0 then cut (old + 1) else if s ≤ old then 0 else old + 1, 0)
  | _ => (old, 0)

/-- Core cycles from issue until a request reaches its engine; the answer takes 12 more (R327; log 6). -/
def State.atomWay (s : State) (g : Nat) : Nat :=
  let e := engineOf g
  if e.1 ≠ s.board then 12 + 12 * bridges s.board e.1 else if e.2 = quadrantOf s.core.phys then 12 else 20

/-- A request of a bead leaves: a discard cannot undo it (12 R386). -/
def State.noteSent (s : State) : State :=
  { s with core := { s.core with sent := (s.core.bank, s.nextId, s.now) :: s.core.sent } }

/-- A request leaves for the home engine of a location. -/
def State.sendAtom (s : State) (ctr : Ctr) (ge : Nat × Nat) (r : AtomReq) : State :=
  let t := s.coreAfter (s.atomWay ge.1)
  s.launch .a ctr t none (.atom { r with addr := ge.1, arrive := t, lock := lockTrip ge })

/-- The issue of an operation of path A: the checks of R327, then the request. `n` is its size. -/
def State.atomIssue (s : State) (i : Instr) (h a : BitVec 4) (n : Nat) (sv dv : DWord) (f : State → Nat → State) : State :=
  let o := s.offset a 0
  match s.globalCheck h [o] n n hAt with
  | .error x => s.fault x h a
  | .ok ges =>
    let ge := ges.headD (0, 0)
    let g := ge.1
    if s.hub.isTelemetry g n then s.fault { code := 0x07, reason := 0, off := o } h a
    else if s.c.segOpen then s.segFault 2 h
    else s.counted .ld fun s =>
      let id := s.nextId
      let s := { s with core := { s.core with scache := scInvalidate s.core.scache g n } }
      let r : AtomReq := { instr := i, addr := g, s := sv, d := dv, engine := false, waiting := false, info := accessInfo (consumed o) h a }
      f (s.noteSent.sendAtom .ld ge r) id

/-- An `atm.*` instruction. -/
def State.atomic (s : State) (i : Instr) (o : BitVec 2) (d : BitVec 5) (h a : BitVec 4) (x : BitVec 5) (z : BitVec 1) : State :=
  let go (s : State) : State := s.atomIssue i h a (if z = 0 then 4 else 8) (s.lat.iss.rx x) (s.lat.iss.rx d) fun s id =>
    if o.getLsbD 0 then { s with q := { s.q with acq := some id } } else s
  if o.getLsbD 1 then s.released go else go s

def execAtmAdd (o : BitVec 2) (d : BitVec 5) (h a : BitVec 4) (x : BitVec 5) (z : BitVec 1) (s : State) : Ans :=
  .next (s.atomic (.atmAdd o d h a x z) o d h a x z)
def execAtmFadd (o : BitVec 2) (d : BitVec 5) (h a : BitVec 4) (x : BitVec 5) (z : BitVec 1) (s : State) : Ans :=
  .next (s.atomic (.atmFadd o d h a x z) o d h a x z)
def execAtmMin (o : BitVec 2) (d : BitVec 5) (h a : BitVec 4) (x : BitVec 5) (z : BitVec 1) (s : State) : Ans :=
  .next (s.atomic (.atmMin o d h a x z) o d h a x z)
def execAtmMax (o : BitVec 2) (d : BitVec 5) (h a : BitVec 4) (x : BitVec 5) (z : BitVec 1) (s : State) : Ans :=
  .next (s.atomic (.atmMax o d h a x z) o d h a x z)
def execAtmAnd (o : BitVec 2) (d : BitVec 5) (h a : BitVec 4) (x : BitVec 5) (z : BitVec 1) (s : State) : Ans :=
  .next (s.atomic (.atmAnd o d h a x z) o d h a x z)
def execAtmOr (o : BitVec 2) (d : BitVec 5) (h a : BitVec 4) (x : BitVec 5) (z : BitVec 1) (s : State) : Ans :=
  .next (s.atomic (.atmOr o d h a x z) o d h a x z)
def execAtmXor (o : BitVec 2) (d : BitVec 5) (h a : BitVec 4) (x : BitVec 5) (z : BitVec 1) (s : State) : Ans :=
  .next (s.atomic (.atmXor o d h a x z) o d h a x z)
def execAtmXchg (o : BitVec 2) (d : BitVec 5) (h a : BitVec 4) (x : BitVec 5) (z : BitVec 1) (s : State) : Ans :=
  .next (s.atomic (.atmXchg o d h a x z) o d h a x z)
def execAtmCas (o : BitVec 2) (d : BitVec 5) (h a : BitVec 4) (x : BitVec 5) (z : BitVec 1) (s : State) : Ans :=
  .next (s.atomic (.atmCas o d h a x z) o d h a x z)
def execAtmInc (o : BitVec 2) (d : BitVec 5) (h a : BitVec 4) (x : BitVec 5) (z : BitVec 1) (s : State) : Ans :=
  .next (s.atomic (.atmInc o d h a x z) o d h a x z)

/-! ## Barrier objects (R328-R331) -/

def execBobInit (d : BitVec 5) (h a : BitVec 4) (x : BitVec 5) (s : State) : Ans :=
  .next (s.atomIssue (.bobInit d h a x) h a 16 (s.lat.iss.rx x) 0 fun s _ => s)
def execBobArr (d : BitVec 5) (h a : BitVec 4) (s : State) : Ans :=
  .next (s.released fun s => s.atomIssue (.bobArr d h a) h a 16 0 0 fun s _ => s)

/-- The request stays at the engine; when its answer has reached the register, the operation ends as
`drain.package.acq` does. -/
def execBobWait (d : BitVec 5) (h a : BitVec 4) (x : BitVec 5) (s : State) : Ans :=
  match s.q.wait with
  | .bob id =>
    if (s.out? id).isSome then .next s.stall
    else if s.q.slotsEmpty s.lat.seq && s.performed s.lat.seq 3 true then .next s.unwatch.scClear
    else .next s.stall
  | _ => .next (s.atomIssue (.bobWait d h a x) h a 16 (s.lat.iss.rx x) 0 fun s id =>
      { s with q := { s.q with wait := .bob id } }.stall)

/-! ## The engine (R323-R332) -/

/-- Fields of a barrier object (Table 10-8). -/
def bobTarget (w : Nat) : Nat := fld w 0 32
def bobArrived (w : Nat) : Nat := fld w 32 32
def bobPhase (w : Nat) : Nat := fld w 64 32
def bobValid (w : Nat) : Bool := w.testBit 96

def mkBob (target arrived phase : Nat) (valid : Bool) (high : Nat) : Nat :=
  target % 2 ^ 32 + arrived % 2 ^ 32 * 2 ^ 32 + phase % 2 ^ 32 * 2 ^ 64 + (if valid then 2 ^ 96 else 0) + high * 2 ^ 97

/-- `bob.init` of an object. -/
def bobReset (w target : Nat) : Nat := mkBob target 0 (bobPhase w + 1) (target % 2 ^ 32 != 0) 0

/-- An arrival on a live object: none when it is an orphan. -/
def bobArrive (w : Nat) : Option Nat :=
  if !bobValid w || bobTarget w == 0 then none
  else if bobTarget w ≤ bobArrived w + 1 then some (mkBob (bobTarget w) 0 (bobPhase w + 1) true (w / 2 ^ 97))
  else some (mkBob (bobTarget w) (bobArrived w + 1) (bobPhase w) true (w / 2 ^ 97))

/-- The object of a clasp that a member leaves loses one from its target; its barrier completes when all others have arrived (11 R367). -/
def bobLower (w : Nat) : Nat :=
  let t := bobTarget w - 1
  if bobValid w ∧ t ≠ 0 ∧ t ≤ bobArrived w then mkBob t 0 (bobPhase w + 1) true (w / 2 ^ 97)
  else mkBob t (bobArrived w) (bobPhase w) (bobValid w) (w / 2 ^ 97)

/-- Whether a waiter on a phase is released: the object is invalid or its phase differs (R331). -/
def bobReleases (w phase : Nat) : Bool := !bobValid w || bobPhase w != phase % 2 ^ 32

/-- What a released waiter receives. -/
def bobAnswer (w : Nat) : DWord := if bobValid w then BitVec.ofNat 64 (bobPhase w) else BitVec.allOnes 64

/-- An orphaned arrival of this core (R330, R333). -/
def State.orphan (s : State) (g : Nat) (engine : Bool) : State :=
  let n := min (fld s.core.orphans.toNat 0 32 + 1) (2 ^ 32 - 1)
  { s with core := { s.core with
      orphans := BitVec.ofNat 64 (n + (if engine then 2 ^ 32 else 0) + fld g 4 24 * 2 ^ 40) } }

/-- The object at an address. -/
def State.bobAt (s : State) (g : Nat) : Nat := bytesNat (s.mem.bytes g 16)

/-- Store an engine's result: replicas, board caches, memory (R316). -/
def State.engineStore (s : State) (bank : Bool) (g n w : Nat) : State := s.deposit bank 0 [{ addr := g, bytes := natBytes n w }]

/-- Lines that waiting requests hold in an engine. -/
def State.heldLines (s : State) : List Nat :=
  s.outs.filterMap fun o => match o.work with
    | .atom r => if r.arrive ≤ s.now then some (r.addr / 64 * 64) else none
    | _ => none

/-- The lines in the engine of a line, most recently used first: 256 at most (R324). -/
def Hub.engineLines (k : Hub) (line : Nat) : List BcLine := k.engines.filter fun e => engineOf e.line == engineOf line

/-- The line that an engine would give up for another: none while it has room, and none when every line is held. -/
def State.engineVictim (s : State) (line : Nat) : Option Nat :=
  if (s.hub.engineLines line).length < 256 then none
  else ((s.hub.engineLines line).reverse.find? fun e => !s.heldLines.contains e.line).map (·.line)

/-- Whether an engine holds a line or can take it. -/
def State.engineRoom (s : State) (line : Nat) : Bool :=
  s.hub.engineHolds line || decide ((s.hub.engineLines line).length < 256) || (s.engineVictim line).isSome

/-- A line leaves its engine: it is written back to its home port where it differs. -/
def State.engineDrop (s : State) (line : Nat) : State :=
  match s.hub.engines.find? (·.line == line) with
  | some e =>
    let k := { s.hub with engines := s.hub.engines.filter (·.line != line) }
    { s with hub := if bcHome line && e.old.isSome then k.bcTouch line (k.cachedAt line) e.old else k }
  | none => s

/-- The engine of a line holds it as its most recently used one, fetched from its home port where it did not. -/
def State.engineTake (s : State) (g : Nat) : State :=
  let line := g / 64 * 64
  let front (s : State) (e : BcLine) : State := { s with hub := { s.hub with engines := e :: s.hub.engines.filter (·.line != line) } }
  match s.hub.engines.find? (·.line == line) with
  | some e => front s e
  | none =>
    let s := (s.engineVictim line).elim s s.engineDrop
    front (s.portFetch line 64) { line := line, old := none }

/-- The register that a request of path A writes, and its size. -/
def atomReg (i : Instr) : Option (BitVec 5 × Nat) :=
  match i with
  | .atmAdd _ d _ _ _ z => some (d, if z = 0 then 4 else 8)
  | .atmFadd _ d _ _ _ z => some (d, if z = 0 then 4 else 8)
  | .atmMin _ d _ _ _ z => some (d, if z = 0 then 4 else 8)
  | .atmMax _ d _ _ _ z => some (d, if z = 0 then 4 else 8)
  | .atmAnd _ d _ _ _ z => some (d, if z = 0 then 4 else 8)
  | .atmOr _ d _ _ _ z => some (d, if z = 0 then 4 else 8)
  | .atmXor _ d _ _ _ z => some (d, if z = 0 then 4 else 8)
  | .atmXchg _ d _ _ _ z => some (d, if z = 0 then 4 else 8)
  | .atmCas _ d _ _ _ z => some (d, if z = 0 then 4 else 8)
  | .atmInc _ d _ _ _ z => some (d, if z = 0 then 4 else 8)
  | .bobInit d _ _ _ => some (d, 16)
  | .bobArr d _ _ => some (d, 16)
  | .bobWait d _ _ _ => some (d, 16)
  | _ => none

/-- An operation in hand counts in no counter any more. -/
def State.uncount (s : State) (id : Nat) : State :=
  { s with outs := s.outs.map fun o => if o.id == id then { o with ctr := .none } else o }

/-- A request has executed: its answer is on its way to the register. One that names x0 no longer counts (R325). -/
def State.atomReply (s : State) (o : Out) (i : Instr) (info : DWord) (bad : Bool) (w : DWord) (fl : Fl) : State :=
  match atomReg i with
  | some (d, _) =>
    let s := s.again o.id (s.coreAfter 12) (.load (.x d w) bad info (BitVec.ofNat 64 fl))
    if d = 0 then s.uncount o.id else s
  | none => s.drop o.id

/-- The home engine executes a request (R325, R329, R330, R331). -/
def State.serveAtom (s : State) (o : Out) (r : AtomReq) : State :=
  let n := ((atomReg r.instr).map (·.2)).getD 16
  let e := s.mem.checks s.fresh (granules r.addr n)
  let s := { s with
    mem := e.1
    fresh := s.fresh + 1
    hub := { s.hub with served := (r.addr / 64, s.now) :: s.hub.served.filter fun x => decide (s.now < x.2 + 8) } }
  let bad := !e.2.isEmpty
  let old := bytesNat (s.mem.bytes r.addr n)
  match r.instr with
  | .bobInit _ _ _ _ =>
    let w := bobReset old r.s.toNat
    (s.engineStore o.bank r.addr 16 w).atomReply o r.instr r.info bad (BitVec.ofNat 64 (bobPhase w)) 0
  | .bobArr _ _ _ =>
    let s := match bobArrive old with
      | some w => s.engineStore o.bank r.addr 16 w
      | none => s.orphan r.addr r.engine
    if r.engine then s.drop o.id
    else s.atomReply o r.instr r.info bad (if (bobArrive old).isSome then BitVec.ofNat 64 (bobPhase old) else BitVec.allOnes 64) 0
  | .bobWait _ _ _ _ => s.again o.id o.due (.atom { r with waiting := true })
  | .cbar _ =>
    let s := match bobArrive old with
      | some w => s.engineStore o.bank r.addr 16 w
      | none => s.orphan r.addr false
    s.again o.id o.due (.atom { r with s := BitVec.ofNat 64 (bobPhase old), waiting := true })
  | .leave => (s.engineStore o.bank r.addr 16 (bobLower old)).drop o.id
  | .join _ _ _ => (s.engineStore o.bank r.addr 16 (bobReset old r.s.toNat)).drop o.id
  | i =>
    let v := atomNew i n old r.s.toNat r.d.toNat
    (s.engineStore o.bank r.addr n v.1).atomReply o i r.info bad (BitVec.ofNat 64 old) v.2

/-- Whether `n` core cycles have passed since a cycle. -/
def State.apart (s : State) (n t : Nat) : Bool := decide (n * 700 ≤ (s.now - t) * s.hub.power.clock)

/-- An engine executes one request in a core cycle, and two of one line two core cycles apart (R323). -/
def State.engineFree (s : State) (g : Nat) : Bool :=
  s.hub.served.all fun x => (x.1 != g / 64 || s.apart 2 x.2) && (engineOf (64 * x.1) != engineOf g || s.apart 1 x.2)

/-- The order of requests for one line: by arrival, those of slot T before the arrivals of copies (R323). -/
def AtomReq.order (r : AtomReq) : Nat :=
  2 * r.arrive + (match r.instr with
    | .bobArr _ _ _ => if r.engine then 1 else 0
    | _ => 0)

/-- A load or store of path L, or a copy's write, that has come to a line held by an atomic engine finds requests there that arrived before it
(R324, R332). -/
def State.queuedBehind (s : State) (o : Out) (lines : List Nat) : Bool :=
  s.outs.any fun x => match x.work with
    | .atom y => !y.waiting && decide (y.arrive ≤ o.due) && lines.contains (y.addr / 64 * 64) && s.hub.engineHolds y.addr
    | _ => false

/-- Nothing that came to its line earlier goes before a request: another request, or an access of path L that the engine which holds the line
serves (R323, R324). -/
def State.lineFirst (s : State) (o : Out) (r : AtomReq) : Bool :=
  s.outs.all fun x => match x.work with
    | .atom y => x.id == o.id || y.addr / 64 != r.addr / 64 || y.waiting ||
        decide (r.order < y.order ∨ (r.order = y.order ∧ o.id < x.id))
    | .fetch _ _ _ _ _ => !(decide (x.due < r.arrive) && s.hub.engineHolds r.addr && !x.given && (linesOf x.spans).contains (r.addr / 64 * 64) && !s.behind x)
    | .gstore _ _ => !(decide (x.due < r.arrive) && s.hub.engineHolds r.addr && (linesOf x.spans).contains (r.addr / 64 * 64) && !s.behind x)
    | _ => true

/-- The engine can go on with a request that has reached it: fetch its line, lock the replicas, or execute it. -/
def State.servable (s : State) (o : Out) (r : AtomReq) : Bool :=
  s.lineFirst o r && s.engineRoom (r.addr / 64 * 64) &&
  (if (r.phase = 0 ∧ s.hub.engineHolds r.addr = false) ∨ (r.phase < 2 ∧ r.lock ≠ 0) then true else s.engineFree r.addr)

/-- The engine goes on with a request: it fetches the line that it does not hold, locks a replicated line in every replica (R316), and
executes the request. -/
def State.serveStep (s : State) (o : Out) (r : AtomReq) : State :=
  if r.phase = 0 ∧ s.hub.engineHolds r.addr = false then
    s.again o.id (s.coreAfter (max 1 (globalLatency s.hub s.board r.addr (s.hub.bcHit r.addr)))) (.atom { r with phase := 1 })
  else
    let s := s.engineTake r.addr
    if r.phase < 2 ∧ r.lock ≠ 0 then s.again o.id (s.now + r.lock) (.atom { r with phase := 2 })
    else s.serveAtom o r

/-- Whether a waiting request can be answered. -/
def State.answerable (s : State) (o : Out) : Bool :=
  match o.work with
  | .atom r => if r.phase = 3 then decide (o.due ≤ s.now) else r.waiting && bobReleases (s.bobAt r.addr) r.s.toNat
  | _ => false

end Sys2Proof.Machine
end

