-- ==== Sys2Proof/Machine/Arbiter.lean ====
section
/-! DEFINITION. Bead records, strands, the arbiter's rounds, clasps and the logical core map (11_work_class.md; 12 R411). What other cores do is data of `Hub.others` (log 3). -/

namespace Sys2Proof.Machine

/-! ## Bead records (Table 11-1) -/

abbrev Rec := BitVec 512

def rState (r : Rec) : Nat := fld r.toNat 0 4
def rPc (r : Rec) : Nat := fld r.toNat 4 60 * 16
def rWord1 (r : Rec) : DWord := fbv 64 64 r.toNat
def rHome (r : Rec) : DWord := fbv 64 128 r.toNat
def rCont (r : Rec) (i : Nat) : DWord := fbv 64 (192 + 64 * i) r.toNat
def rWake (r : Rec) : Nat := fld r.toNat 448 64

def wStrand (w : DWord) : BitVec 16 := fbv 16 0 w.toNat
def wClasp (w : DWord) : BitVec 20 := fbv 20 16 w.toNat
def wPrio (w : DWord) : Nat := fld w.toNat 36 3
def wAff (w : DWord) : Nat := fld w.toNat 39 2
def wAfter (w : DWord) : Bool := w.getLsbD 41
def wPin (w : DWord) : Bool := w.getLsbD 42
def wSys (w : DWord) : Bool := w.getLsbD 43
def wRank (w : DWord) : Nat := fld w.toNat 45 10
/-- Home logical core of bytes 16-23. -/
def hCore (h : DWord) : Nat := fld h.toNat 0 10

/-- A record from its parts. -/
def mkRec (state : Nat) (pc word1 home : DWord) (cont : List DWord) (wake : DWord) : Rec :=
  BitVec.ofNat 512 (bytesNat (natBytes 8 (pc.toNat / 16 * 16 + state % 16) ++ natBytes 8 word1.toNat ++ natBytes 8 home.toNat ++
    cont.flatMap (fun c => natBytes 8 c.toNat) ++ natBytes 8 wake.toNat))

/-- The executable that holds a bundle address. -/
def Hub.exeAt (k : Hub) (pc : Nat) : Option Exe :=
  k.exes.find? fun e => decide (e.base.toNat ≤ pc ∧ pc < e.base.toNat + 16 * e.bundles)

/-- Whether a record is valid (R337); the clasp counts only when `clasp` (R364). -/
def Hub.recOk (k : Hub) (r : Rec) (clasp : Bool) : Bool :=
  let w := rWord1 r
  let h := rHome r
  decide (rState r < 4) && wAff w != 3 && fld w.toNat 55 9 == 0 && fld h.toNat 10 6 == 0 && fld h.toNat 59 5 == 0 &&
  (hCore h == 0x3FF || decide (hCore h < k.map.length)) &&
  !((wAff w == 1 || wAff w == 2) && hCore h == 0x3FF && wPin w) &&
  decide (fld h.toNat 32 13 + fld h.toNat 45 14 ≤ 8192) && (k.exeAt (rPc r)).isSome &&
  (!clasp || wClasp w == 0 || (k.clasp (wClasp w)).isSome)

/-! ## Strands (R338-R342) -/

/-- The record at a queue entry. -/
def State.entry (s : State) (strand i : Nat) : Rec := BitVec.ofNat 512 (bytesNat (s.mem.bytes (s.entryAt strand i) 64))

/-- Whether the retired field of a strand has reached a number (R341). -/
def State.retiredReached (s : State) (strand n : Nat) : Bool := decide ((s.strandRetired strand + 2 ^ 48 - n) % 2 ^ 48 < 2 ^ 47)

/-- Whether a bead that waits in a state can go on (R341). -/
def State.canStart (s : State) (state wake : Nat) : Bool :=
  match state with
  | 2 => decide (wake ≤ s.now)
  | 3 => s.retiredReached (wake % 2 ^ 16) (wake / 2 ^ 16)
  | _ => true

/-- Whether the record at queue index `i` can start: its wait is over and its predecessor has retired under AFTER. -/
def State.headCanStart (s : State) (strand i : Nat) (r : Rec) : Bool :=
  s.canStart (rState r) (rWake r) &&
  (!wAfter (rWord1 r) || !s.hub.started.contains (BitVec.ofNat 16 strand, BitVec.ofNat 32 (i + 2 ^ 32 - 1)))

/-- A strand's queue holds a record. -/
def State.queued (s : State) (strand : Nat) : Bool := s.lcap strand != 0 && s.strandHead strand != s.strandTail strand

/-- Strands whose descriptor is not all zero, with those of waiting beads, rising. -/
def State.strands (s : State) : List Nat :=
  let table (c : Host.Cell) : Bool := decide (s.hub.strandTable ≤ c.1 ∧ c.1 < s.hub.strandTable + 32 * 65536)
  let listed := if s.hub.strandTable = 0 then [] else (s.mem.cells.filter table).map fun c => (c.1 - s.hub.strandTable) / 32
  (listed ++ s.hub.beads.map (·.strand.toNat)).foldl setAdd []

/-- Count a bead of a strand as retired; the interrupt that the runtime has assigned to the new count is raised (12 Table 12-14; log 49). -/
def State.countRetired (s : State) (strand : Nat) : State :=
  let n := (s.strandRetired strand + 1) % 2 ^ 48
  let raised := (s.hub.vectors.filter fun v => v.2.1.toNat == strand && v.2.2 == n).map (·.1)
  let s := s.setRetired strand n
  { s with hub := { s.hub with msix := s.hub.msix ++ raised } }

/-- A record at the head of a queue that could be taken and is invalid is removed, reported and counted as retired, and the next one follows
(R337). -/
def State.purge (s : State) (strand : Nat) : Nat → State
  | 0 => s
  | n + 1 =>
    let i := s.strandHead strand
    if s.queued strand && s.headCanStart strand i (s.entry strand i) && !s.hub.recOk (s.entry strand i) true &&
        !(s.hub.beads.any fun b => b.strand.toNat == strand && b.ready.isSome) && s.hub.errorStrand != some (BitVec.ofNat 16 strand) then
      let s := s.post 5 0 0xFFFF 0 (BitVec.ofNat 64 (strand + i * 2 ^ 32)) 0
      ((s.setHead strand ((i + 1) % 2 ^ 32)).countRetired strand).purge strand n
    else s

/-- The line of the wait pool that holds its bead `i`. -/
def State.poolLine (s : State) (i : Nat) : Nat := s.hub.waitBase + 64 * i

/-- The arbiter writes the record of a new bead of the wait pool, whose bytes are its own (log 9), through the pool's home port (01 R20). -/
def State.poolWrite (s : State) : State :=
  let s := s.portWrite [{ addr := s.poolLine s.hub.beads.length, bytes := List.replicate 64 0 }]
  { s with mem := s.mem.scramble s.fresh s.hub.waitBase (64 * s.hub.waitSize), fresh := s.fresh + 1 }

/-- Record which waiting beads and queue heads have become ready (R342). The arbiter reads the descriptor and the record of a new head
through their home ports (01 R20; log 9). -/
def State.noteReady (s : State) : State :=
  let beads := s.hub.beads.map fun b =>
    if b.ready.isNone && !b.gang && s.canStart (rState b.record) (rWake b.record) then
      { b with ready := some (if rState b.record = 2 then rWake b.record else s.now) } else b
  let heads := s.strands.filterMap fun n =>
    let i := s.strandHead n
    let r := s.entry n i
    let key := (BitVec.ofNat 16 n, BitVec.ofNat 32 i)
    let old := (s.hub.heads.find? fun h => h.1 == key.1 && h.2.1 == key.2).map (·.2.2)
    if !s.queued n || s.hub.errorStrand == some key.1 then none
    else if s.headCanStart n i r then
      some (key.1, key.2, true, match old with
        | some (true, t) => t
        | some (false, t) => if rState r = 2 ∧ t < rWake r then rWake r else s.now
        | none => s.now)
    else some (key.1, key.2, false, s.now)
  let fresh := heads.filter fun h => !s.hub.heads.any fun o => o.1 == h.1 && o.2.1 == h.2.1
  let s := { s with hub := { s.hub with beads := beads, heads := heads } }
  fresh.foldl (fun s h => (s.portFetch (s.hub.strandTable + 32 * h.1.toNat) 32).portFetch (s.entryAt h.1.toNat h.2.1.toNat) 64) s

/-- The head of a strand, if it is ready: the oldest bead of its resume list (a bead held for its gang among them; one
held for a barrier is not ready), else the record at the head of its queue
(R340, R342). -/
def State.head (s : State) (strand : Nat) : Option Bead :=
  let mine := s.hub.beads.filter fun b => b.strand.toNat == strand && b.ready.isSome
  match mine with
  | b :: t => some (t.foldl (fun x y => if (y.ready.getD 0) < (x.ready.getD 0) then y else x) b)
  | [] =>
    let i := s.strandHead strand
    match s.hub.heads.find? fun h => h.1.toNat == strand && h.2.1.toNat == i && h.2.2.1 with
    | some h => some { record := s.entry strand i, strand := h.1, index := h.2.1, ready := some h.2.2.2, strips := 0, saved := none, gang := false }
    | none => none

/-- Effective priority (R342). -/
def Bead.effective (b : Bead) (now : Nat) : Nat :=
  let p := wPrio (rWord1 b.record)
  if 2 ^ 20 < now - b.ready.getD now then min 7 (p + 1) else p

/-- Take a bead out of its queue or out of the waiting beads. -/
def State.takeBead (s : State) (b : Bead) : State :=
  if s.hub.beads.contains b then
    let s := s.portFetch (s.poolLine (s.hub.beads.idxOf b)) 64
    { s with hub := { s.hub with beads := s.hub.beads.filter (· != b) } }
  else
    let n := b.strand.toNat
    let s := s.setHead n ((s.strandHead n + 1) % 2 ^ 32)
    { s with hub := { s.hub with started := s.hub.started ++ [(b.strand, b.index)] } }

/-! ## Cores as the arbiter sees them (R344, R345) -/

/-- Strips that a bead needs (02 R70). -/
def Hub.stripsOf (k : Hub) (pc : Nat) : Nat :=
  match k.exeAt pc with
  | some e => e.strips.foldl (fun m r => max m (r.index.toNat + 1)) 1
  | none => 1

/-- Physical strips of a bead. -/
def heldStrips (map : DWord) (n : Nat) : List Nat := (List.range n).map (stripOf map)

/-- Whether a bead in a bank can issue bundles, now or as soon as the core switches to it. One that was pre-empted while it waited at a
`cbar` can once the barrier has released, and one that waits there keeps its bank unless its clasp has a channel (R368). -/
def State.canIssue (s : State) (c : Ctx) (q : Seq) : Bool :=
  match q.state with
  | .empty => false
  | .active => match q.wait with
    | .sleep w => decide (w ≤ s.now)
    | .barrier _ => !(s.hub.clasp c.claspNo).any (·.channel.isSome)
    | .halted => false
    | _ => true
  | .draining => q.cbarAt.isNone || q.cbarRel.isSome
  | .drained => q.cbarAt.isNone || q.cbarRel.isSome
  | .sleeping => match q.wait with
    | .sleep w => decide (w ≤ s.now)
    | _ => true
  | .translation => q.eligible
  | .barrier => q.cbarRel.isSome

/-- Physical strips of this core that waiting beads keep reserved: those with PIN set and those evicted (R347, R351). -/
def State.reservedStrips (s : State) : List Nat :=
  (s.hub.beads.filter fun b => b.strips != 0 && hCore (rHome b.record) == s.logical).flatMap fun b =>
    heldStrips b.strips (match b.saved with
      | some k => k.1.strips
      | none => s.hub.stripsOf (rPc b.record))

/-- Free strips beside the beads of both banks, which keep theirs also when one of them is evicted (R351), and the reserved ones; a bead
that keeps its strips needs none. -/
def State.stripsFit (s : State) (b : Bead) : Bool :=
  let used (c : Ctx) (q : Seq) : Nat := if q.state = .empty then 0 else c.strips
  b.strips != 0 || decide (s.hub.stripsOf (rPc b.record) + s.reservedStrips.length + used s.c s.q + used s.oc s.oq ≤ 16)

/-- Whether this core is halted (12 R381). -/
def State.isHalted (s : State) : Bool := s.q.wait == .halted || s.oq.wait == .halted

/-- A bead that was pre-empted and waits in its bank. -/
def Seq.preempted (q : Seq) : Bool := q.state == .draining || q.state == .drained

/-- Effective priority of a pre-empted bead, which has been ready since it halted (R342, R352; log 49). -/
def bankPrio (c : Ctx) (q : Seq) (now : Nat) : Nat := if 2 ^ 20 < now - q.haltedAt then min 7 (c.prio + 1) else c.prio

/-- A bank's bead keeps the core from another: it can issue, and was not pre-empted with less effective priority than the other has
(R344, R352). -/
def State.keeps (s : State) (c : Ctx) (q : Seq) (b : Bead) : Bool :=
  s.canIssue c q && !(q.preempted && decide (bankPrio c q s.now < b.effective s.now))

/-- Whether this core is idle for a bead (R344). -/
def State.idleFor (s : State) (b : Bead) : Bool :=
  !s.core.parked && !s.isHalted && s.hub.placing.isEmpty && s.stripsFit b &&
  ((s.q.state == .empty && !s.keeps s.oc s.oq b) || (s.oq.state == .empty && !s.keeps s.c s.q b))

/-- The effective power step: the higher-numbered command, lowered by the thermal rules (12 R394, R402). -/
def Power.step (p : Power) : Nat :=
  if p.tripped then 7 else min 7 (max p.pins.toNat p.command.toNat + if p.lowered then 1 else 0)

/-- Whether a logical core is parked: each action from 19 on parks eight, in descending order; at P7 all are (12 R396 to R398). -/
def Hub.parks (k : Hub) (l : Nat) : Bool := k.power.step == 7 || decide (k.map.length ≤ l + 8 * (k.power.actions - 18))

/-- Whether a bead of another core has drained. -/
def Guest.done (g : Guest) (now : Nat) : Bool := g.drained || (!g.active && decide (g.halted + 142 ≤ now))

/-- Whether another core is idle for a bead. -/
def Other.idleFor (o : Other) (k : Hub) (b : Bead) : Bool :=
  !(o.guests.any (·.active)) && decide (o.guests.length < 2) &&
  decide (k.stripsOf (rPc b.record) + (o.guests.foldl (fun n g => n + g.strips) 0) ≤ 16)

/-- Logical cores that the affinity of a bead admits (R344); victims use the same list (R345). -/
def State.admits (s : State) (b : Bead) (l : Nat) : Bool :=
  let w := rWord1 b.record
  let home := hCore (rHome b.record)
  let waited := s.now - b.ready.getD s.now
  let aff := if wPin w ∨ b.saved.isSome then 2 else wAff w
  match aff with
  | 1 => home == 0x3FF || home == l || decide (4096 < waited)
  | 2 => home == 0x3FF || home == l
  | _ => true

/-- The lowest-numbered idle logical core for a bead, outside those taken. -/
def State.chooseCore (s : State) (b : Bead) (taken : List Nat) : Option Nat :=
  let idle (l : Nat) : Bool := match s.hub.map[l]? with
    | some p => if p = s.core.phys then s.idleFor b else !s.hub.parks l && (s.hub.other p).idleFor s.hub b
    | none => false
  let ok (l : Nat) : Bool := !taken.contains l && idle l && s.admits b l
  let home := hCore (rHome b.record)
  if wAff (rWord1 b.record) = 1 ∧ !wPin (rWord1 b.record) ∧ ok home then some home
  else (List.range s.hub.map.length).find? ok

/-- A `cbar` in hand, which its bead can leave to the hub (R355, R368). -/
def Out.isBarrier (o : Out) : Bool :=
  match o.work with
  | .atom r => (match r.instr with
    | .cbar _ => true
    | _ => false)
  | _ => false

/-- The bead of a `cbar` in hand has left the core: the hub takes the answer. -/
def Out.leftToHub (o : Out) : Out :=
  match o.work with
  | .atom r => if o.isBarrier then { o with work := .atom { r with engine := true } } else o
  | _ => o

/-- The bead of the inactive bank has drained, and may leave it: the wait pool has room for its record, and nothing of it runs in an engine
but what its tile queue holds and a barrier that it waits for (R351; log 19). -/
def State.evictable (s : State) : Bool :=
  s.oq.state == .drained && decide (s.hub.beads.length < s.hub.waitSize) && (s.outs.filter (·.bank != s.core.bank)).all fun o => o.detached || o.isBarrier || match o.work with
    | .tile _ t => t.started.isNone
    | _ => false

/-- A bead that may be pre-empted: its logical core, priority, and cycle of its last dispatch. -/
def State.victims (s : State) (b : Bead) (taken : List Nat) : List (Nat × Nat × Nat) :=
  let p := wPrio (rWord1 b.record)
  (List.range s.hub.map.length).filterMap fun l =>
    if taken.contains l || !s.admits b l then none else
    match s.hub.map[l]? with
    | none => none
    | some ph =>
      if ph = s.core.phys then
        if s.q.state == .active && decide (s.c.prio < p) && (s.oq.state == .empty || s.oq.state == .drained) && !s.q.preemptBy &&
            s.hub.placing.isEmpty && !s.isHalted && !s.core.parked && s.stripsFit b then some (l, s.c.prio, s.q.placedAt) else none
      else if s.hub.parks l then none
      else
        let o := s.hub.other ph
        match o.guests.find? (·.active) with
        | some g => if wPrio g.bead < p && (decide (o.guests.length < 2) || o.guests.any fun x => !x.active && x.done s.now) &&
            decide (s.hub.stripsOf (rPc b.record) + (o.guests.foldl (fun n g => n + g.strips) 0) ≤ 16) then
            some (l, wPrio g.bead, g.since) else none
        | none => none

/-- The victim: lowest priority, then longest running, then lowest core (R345). -/
def State.chooseVictim (s : State) (b : Bead) (taken : List Nat) : Option Nat :=
  match s.victims b taken with
  | [] => none
  | v :: t => some (t.foldl (fun x y => if y.2.1 < x.2.1 ∨ (y.2.1 = x.2.1 ∧ y.2.2 < x.2.2) then y else x) v).1

/-! ## Placing (R343, R344, R354) -/

def Hub.setOther (k : Hub) (o : Other) : Hub := { k with others := o :: k.others.filter (·.phys != o.phys) }

def Hub.countOn (k : Hub) (board : Nat) (f : ArbCount → ArbCount) : Hub :=
  if h : board < 8 then { k with counts := k.counts.set board (f k.counts[board]) h } else k

/-- Bytes 8-15 and 16-23 of the record of a bead placed on a logical core: `pin` affinity without a home binds it. -/
def bindHome (b : Bead) (l : Nat) (gang : Bool) : Bead :=
  let w := rWord1 b.record
  let h := rHome b.record
  if gang ∨ ((wAff w = 2 ∨ wPin w) ∧ hCore h = 0x3FF) then
    { b with record := putField (putField b.record 128 10 l) 106 1 1 }
  else b

/-- The cycle of a bead's first bundle: it is placed in the cycle of its round, which 14 Table 14-15 shows and R343 bounds by 24, and issues 8
core cycles later; 64 more to reload a saved context (R352; log 6). -/
def State.startAt (s : State) (b : Bead) : Nat := s.coreAfter (8 + if b.saved.isSome then 64 else 0)

/-- The bead of the inactive bank goes to the wait pool with state 1 (R351), its queued tile operations with it. One that waits at a
`cbar` is not ready before the barrier has released (R368). The pool's bytes are the arbiter's own (log 9). -/
def State.evict (s : State) : State :=
  let c := s.oc
  let waits := s.oq.cbarAt.isSome && s.oq.cbarRel.isNone
  let stays (o : Out) : Bool := o.bank != s.core.bank && !o.detached && !o.isBarrier
  let b : Bead := { record := mkRec 1 c.pc c.bead (putField c.home 0 10 s.logical) ((List.range 4).map fun i => c.rx (BitVec.ofNat 5 (i + 1))) 0,
                    strand := c.strand, index := c.index, ready := if waits then none else some s.oq.haltedAt
                    strips := c.cbmap, saved := some (c, s.oq, s.outs.filter stays), gang := waits }
  let s := s.poolWrite
  { s with oc := {}, oq := {}, outs := (s.outs.filter fun o => !stays o).map (fun o => if o.bank == s.core.bank then o else o.leftToHub), hub := { s.hub with beads := s.hub.beads ++ [b] } }

/-- When a member of a SYNC clasp is pre-empted, every member is (R354). -/
def State.haltGang (s : State) (n : BitVec 20) : State :=
  match s.hub.clasps.find? fun c => c.number == n && c.sync with
  | none => s
  | some _ =>
    let member (g : Guest) : Bool := g.active && wClasp g.bead == n
    let halt (g : Guest) : Guest := if member g then { g with active := false, halted := s.now } else g
    let own := s.q.state == .active && s.c.claspNo == n && !s.q.preemptBy
    let count (k : Hub) (p : Nat) : Hub := k.countOn (boardOf p) fun x => { x with preemptions := x.preemptions + 1 }
    let cores := (if own then [s.core.phys] else []) ++ (s.hub.others.filter fun o => o.guests.any member).map (·.phys)
    { s with
      q := if own then { s.q with preemptBy := true } else s.q
      hub := cores.foldl count { s.hub with others := s.hub.others.map fun o => { o with guests := o.guests.map halt } } }

/-- The lowest rank that a clasp has free. -/
def Clasp.freeRank (c : Clasp) : Nat := ((List.range (c.size + 1)).find? fun r => !c.ranks.contains r).getD 0

def Hub.setClasp (k : Hub) (c : Clasp) : Hub := { k with clasps := k.clasps.map fun x => if x.number == c.number then c else x }

/-- Whether a bead has not been dispatched before: it comes from its strand's queue. -/
def State.isNew (s : State) (b : Bead) : Bool := !s.hub.beads.contains b

/-- The clasp that a bead joins at its first dispatch, if its record names one (R335). -/
def State.claspToJoin (s : State) (b : Bead) : Option Clasp := if s.isNew b then s.hub.clasp (wClasp (rWord1 b.record)) else none

/-- A record as the arbiter writes it for a new member: with its rank (R335). -/
def Bead.ranked (b : Bead) (n : Nat) : Bead := { b with record := putField b.record 109 10 n }

/-- Every member of a clasp on this core takes trap 0x18 for a failed round (09 R293). -/
def State.failMembers (s : State) (number : BitVec 20) (round : Nat) : State :=
  let t : TrapRec := { code := 0x18, info := BitVec.ofNat 64 (round % 2 ^ 16), slot := 3, iss := false, evt := false, now := true }
  let fail (s : State) (b : Bool) : State :=
    if (s.bankCtx b).claspNo = number ∧ (if b = s.core.bank then s.q else s.oq).state ≠ .empty then s.settleBank b id (·.pendNow t) else s
  fail (fail s false) true

/-- Whether an operation in hand is a contribution to a round of a clasp, that of its bead when its bundle issued (04 R125). -/
def Out.contributes (o : Out) (number : BitVec 20) : Bool :=
  match o.work with
  | .reduce op _ => op.iss.claspNo == number
  | _ => false

/-- A round of a clasp that is open, with a contribution of this core, fails: the contributions end (09 R293). -/
def State.failRound (s : State) (number : BitVec 20) : State :=
  if !s.outs.any (·.contributes number) then s else
  let round := ((s.hub.clasp number).map (·.round)).getD 0 + 1
  let k := (s.hub.clasp number).elim s.hub fun c => s.hub.setClasp { c with round := round }
  ({ s with outs := s.outs.filter fun o => !o.contributes number, hub := k }).failMembers number round

/-- Place a bead on a logical core, displacing the running bead when it was chosen as a victim. -/
def State.place (s : State) (b : Bead) (l : Nat) (victim gang : Bool) : State :=
  let joins := s.claspToJoin b
  let s := (joins.elim s fun c => s.failRound c.number).takeBead b
  let joins := joins.bind fun c => s.hub.clasp c.number
  let aged := decide (wPrio (rWord1 b.record) < b.effective s.now)
  let phys := (s.hub.map[l]?).getD 0
  let b : Bead := bindHome ((joins.map fun c => b.ranked c.freeRank).getD b) l gang
  let k : Hub := ((joins.map fun c => s.hub.setClasp { c with ranks := setAdd c.ranks c.freeRank }).getD s.hub).countOn (boardOf phys) fun n =>
    { n with placed := n.placed + 1, promotions := n.promotions + if aged then 1 else 0, preemptions := n.preemptions + if victim then 1 else 0 }
  if phys = s.core.phys then
    let s : State := if victim && s.evictable then ({ s with hub := k }).evict else { s with hub := k }
    let bank := if victim then !s.core.bank else if s.q.state = .empty then s.core.bank else !s.core.bank
    let s := { s with
      q := if victim then { s.q with preemptBy := true } else s.q
      hub := { s.hub with placing := s.hub.placing ++ [(b, bank, s.startAt b)], placedAt := s.now } }
    if victim then s.haltGang s.c.claspNo else s
  else
    let o := k.other phys
    let w := rWord1 b.record
    let g : Guest := { bead := w, home := rHome b.record, cbmap := 0xFEDCBA9876543210, strips := k.stripsOf (rPc b.record), active := true, drained := false, since := s.now }
    let old := if victim then (o.guests.filter (fun x => x.active || !x.done s.now)).map fun x =>
        if x.active then { x with active := false, halted := s.now } else x
      else o.guests
    let s' := { s with hub := k.setOther { o with guests := old ++ [g] } }
    match if victim then o.guests.find? (·.active) else none with
    | some v => s'.haltGang (wClasp v.bead)
    | none => s'

/-- Members of a SYNC clasp that are ready: those held after a `join`, and those at heads of strands (R354). -/
def State.gang (s : State) (n : BitVec 20) : List Bead :=
  s.hub.beads.filter (fun b => b.gang && b.ready.isSome && wClasp (rWord1 b.record) == n) ++
  (s.strands.filterMap s.head).filter fun b => !b.gang && b.saved.isNone && wClasp (rWord1 b.record) == n

/-- Give ranks to the members that have none: those that have never been dispatched (R354). -/
def rankGang (new : Bead → Bool) (c : Clasp) : List Bead → Clasp × List (Bead × Bead)
  | [] => (c, [])
  | b :: t =>
    if !new b then let r := rankGang new c t; (r.1, (b, b) :: r.2)
    else
      let n := c.freeRank
      let r := rankGang new { c with ranks := setAdd c.ranks n } t
      (r.1, (b, b.ranked n) :: r.2)

def insertRank (x : Bead × Bead) : List (Bead × Bead) → List (Bead × Bead)
  | [] => [x]
  | y :: t => if wRank (rWord1 x.2.record) < wRank (rWord1 y.2.record) then x :: y :: t else y :: insertRank x t

/-- The cores that a victim's pre-emption takes in a round: its own, and those of its fellows in a SYNC clasp (R343, R345). -/
def State.displaced (s : State) (l : Nat) : List Nat :=
  let p := (s.hub.map[l]?).getD 0
  let n : BitVec 20 := if p = s.core.phys then s.c.claspNo else (((s.hub.other p).guests.find? (·.active)).map fun g => wClasp g.bead).getD 0
  if (s.hub.clasp n).any (·.sync) then
    l :: (List.range s.hub.map.length).filter fun i => match s.hub.map[i]? with
      | some q => if q = s.core.phys then s.q.state == .active && s.c.claspNo == n
          else (s.hub.other q).guests.any fun g => g.active && wClasp g.bead == n
      | none => false
  else [l]

/-- Cores for a gang, in rank order: logical core and whether its bead is displaced; none when a member finds none. -/
def State.gangCores (s : State) (taken : List Nat) : List (Bead × Bead) → Option (List (Nat × Bool))
  | [] => some []
  | b :: t =>
    match (s.chooseCore b.2 taken).map (fun l => (l, false)) |>.orElse fun _ => (s.chooseVictim b.2 taken).map fun l => (l, true) with
    | none => none
    | some c => (s.gangCores ((if c.2 then s.displaced c.1 else [c.1]) ++ taken) t).map (c :: ·)

/-- Place a whole gang or none of it. Answers the cores and the strands that are then served. -/
def State.placeGang (s : State) (c : Clasp) (taken : List Nat) : Option (State × List Nat × List Nat) :=
  let g := s.gang c.number
  if g.length < c.size then none else
  let r := rankGang s.isNew c (g.take c.size)
  let bs := r.2.foldr insertRank []
  match s.gangCores taken bs with
  | none => none
  | some ls =>
    let s0 := if g.any s.isNew then s.failRound c.number else s
    let s1 := { s0 with hub := s0.hub.setClasp { r.1 with round := ((s0.hub.clasp c.number).map (·.round)).getD r.1.round } }
    some ((bs.zip ls).foldl (fun s x =>
      -- the member leaves its queue as it stood and is placed with its rank
      let t := s.takeBead x.1.1
      let t := { t with hub := { t.hub with beads := t.hub.beads ++ [x.1.2] } }
      t.place x.1.2 x.2.1 x.2.2 true) s1, taken ++ ls.flatMap (fun x => if x.2 then s.displaced x.1 else [x.1]), bs.map fun b => b.1.strand.toNat)

/-! ## A round (R343) -/

structure Round where
  s : State
  taken : List Nat
  served : List Nat

/-- Strand order of a priority: increasing after rr, wrapping. -/
def roundOrder (rr : Nat) (l : List Nat) : List Nat := l.filter (fun n => decide (rr < n)) ++ l.filter fun n => decide (n ≤ rr)

/-- No other core that holds a member of a clasp runs a bead (R354). -/
def State.fellowsFree (s : State) (n : BitVec 20) : Bool :=
  s.hub.others.all fun o => !(o.guests.any fun g => wClasp g.bead == n) || !(o.guests.any (·.active))

/-- Offer the head of one strand a core; a record whose clasp has no rank free waits (log 45). -/
def Round.serve (r : Round) (p strand : Nat) : Round :=
  if r.served.contains strand then r else
  match r.s.head strand with
  | none => r
  | some b =>
    if b.effective r.s.now ≠ p then r else
    let mark (s : State) : State :=
      { s with hub := { s.hub with rr := if h : p < 8 then s.hub.rr.set p (BitVec.ofNat 16 strand) h else s.hub.rr } }
    match r.s.hub.clasp (wClasp (rWord1 b.record)) with
    | some c =>
      if c.sync && b.saved.isNone then
        match r.s.placeGang c r.taken with
        | some x => { s := mark x.1, taken := x.2.1, served := strand :: x.2.2 ++ r.served }
        | none => r
      else if r.s.isNew b && decide (c.size ≤ c.ranks.length) then r
      else if c.sync && b.saved.isSome && !r.s.fellowsFree c.number then r else one b mark
    | none => one b mark
where
  one (b : Bead) (mark : State → State) : Round :=
    match r.s.chooseCore b r.taken with
    | some l => { s := mark (r.s.place b l false false), taken := l :: r.taken, served := strand :: r.served }
    | none => match r.s.chooseVictim b r.taken with
      | some l => { s := mark (r.s.place b l true false), taken := r.s.displaced l ++ r.taken, served := strand :: r.served }
      | none => r

/-- One dispatch round. -/
def State.dispatchRound (s : State) : State :=
  let ns := s.strands
  let s := (ns.foldl (fun s n => s.purge n (2 ^ 20)) s).noteReady
  let r := [7, 6, 5, 4, 3, 2, 1, 0].foldl (fun (r : Round) p =>
    (roundOrder ((r.s.hub.rr.toList[p]?.getD 0).toNat) ns).foldl (fun r n => r.serve p n) r)
    ({ s := s, taken := [], served := [] } : Round)
  let s := r.s.noteReady
  { s with hub := { s.hub with roundAt := s.now + 1 } }

/-! ## Resumption (R352, R354) -/

/-- A ready bead at the head of a strand has more effective priority than a pre-empted one, and this core can take it (R352). Members of a
gang, which are placed together, do not count. -/
def State.outranked (s : State) (c : Ctx) (q : Seq) : Bool :=
  q.preempted && s.strands.any fun n => (s.head n).any fun b =>
    decide (bankPrio c q s.now < b.effective s.now) && s.hub.map.contains s.core.phys && s.idleFor b && s.admits b s.logical &&
      !((s.hub.clasp (wClasp (rWord1 b.record))).any fun k => k.sync || (s.isNew b && decide (k.size ≤ k.ranks.length)))

/-- A pre-empted member of a SYNC clasp goes on in a round in which no core of its fellows runs a bead (R354). -/
def State.gangFree (s : State) (c : Ctx) (q : Seq) : Bool :=
  !((s.hub.clasp c.claspNo).any (·.sync) && q.preempted) || (decide (s.now % 8 = 0) && s.fellowsFree c.claspNo)

/-- A bank's bead may take or keep the core. -/
def State.bankReady (s : State) (c : Ctx) (q : Seq) : Bool := s.canIssue c q && s.gangFree c q && !s.outranked c q

/-! ## Bead start (R336; 01 R24; 02 R70; 03 R84; 04 R99; 05 R163; 08 R220) -/

/-- The strip map beside the other bank's strips. -/
def loadMap (taken : List Nat) (n : Nat) : DWord :=
  let free := (List.range 16).filter fun p => !taken.contains p
  BitVec.ofNat 64 ((List.range 16).map (fun i => (if i < n then free[i]?.getD 0 else i) * 16 ^ i)).sum

/-- The format register that the loader gives a strip. -/
def loadCf (e : Option Exe) (n i : Nat) : DWord :=
  if n ≤ i then 0 else
  match e.bind fun e => e.strips.find? fun r => r.index.toNat == i with
  | some r => r.format.setWidth 64
  | none => 0

/-- The pattern bank that the loader fills. -/
def loadPats (e : Option Exe) : Vector (BitVec 1024) 64 :=
  Vector.ofFn fun i => match e.bind fun e => e.patterns.find? fun p => p.1.toNat == i.val with
    | some p => p.2
    | none => 0

/-- The tower allotment (R336). -/
def allot15Of (logical : Nat) (home : DWord) : QWord :=
  mkHandle 1 logical (fld home.toNat 16 16 * 2 ^ 23 + fld home.toNat 32 13 * 1024) (fld home.toNat 45 14 * 1024) 31

/-- The context of a bead that starts or resumes from its record. Its format registers come back from the strip records: R84 lets them
follow the context across a suspension, which R347 does not list (DESIGN CHOICE, log 47). -/
def State.startCtx (s : State) (b : Bead) (otherStrips : List Nat) : Ctx :=
  let r := b.record
  let e := s.hub.exeAt (rPc r)
  let n := s.hub.stripsOf (rPc r)
  let w := rWord1 r
  let h15 := allot15Of s.logical (rHome r)
  let x : Vector DWord 32 := Vector.ofFn fun i => if 1 ≤ i.val ∧ i.val ≤ 4 then rCont r (i.val - 1) else 0
  let h : Vector QWord 16 := Vector.ofFn fun i =>
    if i.val = 14 then mkHandle 2 s.logical 0 (n * 2 ^ 19) 31 else if i.val = 15 then h15 else 0
  { pc := BitVec.ofNat 64 (rPc r), sys := wSys w, x := x, h := h
    pat0 := loadPats e
    cf := Vector.ofFn fun i => loadCf e n i.val
    tbase := (e.map (·.tbase)).getD 0 &&& 0xFFFFFFFFFFFFF800
    cbmap := if b.strips ≠ 0 then b.strips else loadMap otherStrips n
    bead := w, since := BitVec.ofNat 48 s.now, home := rHome r, index := b.index, strips := n, allot15 := h15 }

/-- Crown strips that a new bead finds unspecified, full and without tags (R347, 06 R175, 08 R247). -/
def State.freshStrips (s : State) (c : Ctx) : State :=
  { s with
    mem := (heldStrips c.cbmap c.strips).foldl (fun m p =>
      let a := crownAddr s.core.phys (p * 2 ^ 19)
      { (m.scramble s.fresh a (2 ^ 19)) with empty := setDelRange m.empty a (2 ^ 19), tags := setDelRange m.tags a (2 ^ 19) }) s.mem
    fresh := s.fresh + 1 }

/-! ## Clasps (R353, R355, R366, R367) -/

/-- Remove a bead's rank from its clasp: an open barrier completes when every remaining member has arrived, and an empty
clasp dissolves, freeing its channel and its fallback object. -/
def Hub.leaveClasp (k : Hub) (number : BitVec 20) (rank now : Nat) : Hub :=
  match k.clasp number with
  | none => k
  | some c =>
    let c := { c with ranks := setDel c.ranks rank, arrived := setDel c.arrived rank }
    if c.ranks.isEmpty then
      { k with
        clasps := k.clasps.filter (·.number != number)
        channels := k.channels.filter (some · != c.channel)
        pool := if c.runtime then k.pool else k.pool ++ c.fallback.toList }
    else
      k.setClasp (if c.channel.isSome ∧ !c.arrived.isEmpty ∧ c.ranks.all c.arrived.contains ∧ c.released.getD 0 ≤ now then
        { c with released := some (now + 24) } else c)

/-- A bead of a bank that its clasp's membership names. -/
def Ctx.inClasp (c : Ctx) (n rank : Nat) : Ctx := { c with bead := putField (putField c.bead 16 20 n) 45 10 rank }

/-- Every request of the hub for the barrier object of a clasp goes to the home engine of its line (R355, R367). -/
def State.hubRequest (s : State) (g : Nat) (i : Instr) (w : DWord) : State :=
  s.sendAtom .none (g, 0) { instr := i, addr := g, s := w, d := 0, engine := true, waiting := false }

/-- The bead of the active bank leaves its clasp (R367). -/
def State.leaveClasp (s : State) : State :=
  let n := s.c.claspNo
  if n = 0 then s else
  let s := s.failRound n
  let s := ((s.hub.clasp n).bind (·.fallback)).elim s fun g => s.hubRequest g .leave 0
  { s with hub := s.hub.leaveClasp n s.c.rank s.now }.settleBank s.core.bank (·.inClasp 0 0) id

/-! ## The logical core map (12 R411) -/

/-- Whether a bead homed to a logical core waits in a strand or outside cores. -/
def State.homedWaits (s : State) (l : Nat) : Bool :=
  (s.hub.beads.any fun b => hCore (rHome b.record) == l) ||
  s.strands.any fun n => s.queued n && s.hub.errorStrand != some (BitVec.ofNat 16 n) && (List.range ((s.strandTail n + 2 ^ 32 - s.strandHead n) % 2 ^ 32)).any fun j =>
    hCore (rHome (s.entry n (s.strandHead n + j))) == l

/-- Whether both banks of a core are empty. -/
def State.banksEmpty (s : State) (phys : Nat) : Bool :=
  if phys = s.core.phys then s.q.state == .empty && s.oq.state == .empty && s.hub.placing.isEmpty
  else (s.hub.other phys).guests.isEmpty

/-- Whether a removal is busy; `l` is the logical number of the core to remove. -/
def State.removalBusy (s : State) (l : Nat) : Bool :=
  let n := s.hub.map.length
  (l + 1 != n && !(match s.hub.map[n - 1]? with
    | some p => s.banksEmpty p
    | none => true)) ||
  s.homedWaits l || (l + 1 != n && s.homedWaits (n - 1))

/-- Remove a logical core: the last one takes its number. -/
def Hub.removeCore (k : Hub) (l : Nat) : Hub :=
  { k with map := match k.map.getLast? with
      | some p => if l + 1 = k.map.length then k.map.dropLast else (k.map.set l p).dropLast
      | none => k.map }

/-- A bead on a core that takes another logical number: obj of its handles on its own crown and towers, and of its port parameter sets, is
rewritten. -/
def Ctx.renumber (c : Ctx) (new : Nat) : Ctx :=
  let old := hObj c.allot15
  let handle (h : QWord) : QWord := if (hClass h = 1 ∨ hClass h = 2) ∧ hObj h = old then putField h 96 23 new else h
  let set (p : PSet) : PSet := if p.obj.toNat = old then { p with obj := BitVec.ofNat 23 new } else p
  { c with h := c.h.map handle, allot15 := handle c.allot15, ps := c.ps.map set, port := c.port.map (·.map fun p => { p with set := set p.set }) }

/-- This core's beads take the logical number that the map gives it. -/
def State.renumbered (s : State) : State :=
  match s.hub.logicalOf s.core.phys with
  | some l => (s.settleBank s.core.bank (·.renumber l) id).settleBank (!s.core.bank) (·.renumber l) id
  | none => s

/-- A removal takes effect, with its record. -/
def State.doRemove (s : State) (l : Nat) : State :=
  let phys := (s.hub.map[l]?).getD 0
  ({ s with hub := (s.hub.removeCore l).countOn (boardOf phys) fun n => { n with removed := n.removed + 1 } }.renumbered).post
    10 0 phys 0 (BitVec.ofNat 64 phys) 0

/-- A pending self-removal is done or abandoned at the suspension point (R411). -/
def State.pendingRemoval (s : State) : State :=
  if !s.core.removal then s else
  let s := { s with core := { s.core with removal := false } }
  match s.hub.logicalOf s.core.phys with
  | none => s
  | some l => if s.removalBusy l then s.post 10 0 s.core.phys 0 (BitVec.ofNat 64 s.core.phys) 2 else s.doRemove l

end Sys2Proof.Machine
end

