-- ==== Sys2Proof/Machine/Work.lean ====
section
/-! DEFINITION. Work instructions: suspension points, clasps and their barrier, segments and their rewind (11_work_class.md), and `sleepu` (10 R321). -/

namespace Sys2Proof.Machine

/-! ## Segments (R356-R362) -/

/-- Pieces of a held entry's valid bytes. -/
def heldParts (e : Held) : List Part :=
  runsOf ((e.bytes.mapIdx fun i b => b.map fun b => (e.addr + i, b)).filterMap id)

def insertHeld (e : Held) : List Held → List Held
  | [] => [e]
  | f :: t => if e.addr < f.addr then e :: f :: t else f :: insertHeld e t

/-- Send held entries as ordinary stores in increasing address order, as many as the st counter admits (R359). -/
def State.releaseHeld (s : State) : State :=
  let l := s.q.held.foldr insertHeld []
  let n := 63 - s.count .st
  let s := (l.take n).foldl (fun s e =>
    let ps := s.spread (heldParts e)
    let lock := 24 * (ps.map fun p => bridges (homeBoard e.addr) (homeBoard p.addr)).foldl max 0
    { s with core := { s.core with scache := ps.foldl scStore s.core.scache } }.launch .l .st
      (s.now + storeLatency s.hub s.board e.addr + lock) none (.gstore ps lock)) s
  s.setHeld (l.drop n)

/-- The segment is closed: open, rew, nwin and held are 0 (R362). -/
def State.closeSeg (s : State) : State :=
  { s with c := { s.c with seg := s.c.seg &&& 0xFFFFFFFF00000000, windows := [] }, q := { s.q with held := [], snap := none } }

/-- `sege`, then what follows it: release the hold buffer, wait until st is 0, close. -/
def State.endSegment (s : State) (f : State → State) : State :=
  if !s.c.segOpen then f s
  else if !s.q.held.isEmpty then s.releaseHeld.stall
  else if s.count .st ≠ 0 then s.stall
  else f s.closeSeg

/-- Offset of the bead's last logical strip. -/
def Ctx.lastStrip (c : Ctx) : Nat := (c.strips - 1) * 2 ^ 19

/-- Every counter is 0 and no slot holds an operation of an earlier bundle (10 R320). -/
def State.waited (s : State) : Bool :=
  s.q.slotsEmpty s.lat.seq && decide (s.count .ld = 0 ∧ s.count .st = 0 ∧ s.count .cp = 0 ∧ s.count .tl = 0)

/-- Write windows: the handles named, without null ones. -/
def Ctx.windowsOf (c : Ctx) (a b : BitVec 4) (n : BitVec 2) : List QWord :=
  ((if 1 ≤ n.toNat then [c.rh a] else []) ++ (if 2 ≤ n.toNat then [c.rh b] else [])).filter fun h => hClass h != 0

def execSeg (a b : BitVec 4) (n : BitVec 2) (s : State) : Ans :=
  if n = 3 ∨ (n.toNat < 2 ∧ b ≠ 0) ∨ (n = 0 ∧ a ≠ 0) then .next (s.raiseIssue 0x01)
  else .next (s.endSegment fun s =>
    if !s.waited then s.stall else
    let c := landAll s.c s.q.shadows
    let inst := (fld s.c.seg.toNat 32 32 + 1) % 2 ^ 32
    let q : Seq := { s.q with issueFrom := s.coreAfter 24 + Config.strikeHold, issueWhy := 16, snap := some c, held := [] }
    { s with
      c := { s.c with seg := BitVec.ofNat 64 (1 + n.toNat * 4 + inst * 2 ^ 32), windows := c.windowsOf a b n }
      q := q
      mem := s.mem.fill s.fresh (s.crownAt (s.c.lastStrip + 0x78000)) 0x8000
      fresh := s.fresh + 1 })

def execSege (s : State) : Ans := .next (s.endSegment id)

/-- The snapshot put back: the registers, ports, stream position, active pattern bank, modes and pc of the snapshot; the
pattern entries, trap registers and sr.bead stay as they are (R356, R360, 05 R164). -/
def Ctx.restore (c snap : Ctx) : Ctx :=
  { c with
    pc := snap.pc, sys := snap.sys, x := snap.x, k := snap.k, v := snap.v, vm := snap.vm, m := snap.m, pv := snap.pv, g := snap.g
    a := snap.a, h := snap.h, ps := snap.ps, port := snap.port, wstr := snap.wstr, patActive := snap.patActive
    fpcr := snap.fpcr, fpsr := snap.fpsr, cf := snap.cf, latch := Vector.replicate 3 none }

/-- Whether a piece that the matrix engine has formed becomes final although its bead's queue is abandoned (R187): rows of a product or a
merge that have entered, and what is written by now; of the factorisation step in execution the rows before a boundary, which is free (log
10). -/
def State.tileLeft (s : State) (o : Out) : Bool :=
  let op := (s.tileQueue o.bank).findSome? fun x => match x.work with
    | .tile op _ => if x.seq = o.seq then some op else none
    | _ => none
  decide (o.due ≤ s.now + Config.strikeHold) || op.all fun op =>
    (productOf op.instr).isSome || (mergeOf op.instr).isSome || ((facJob op).isSome && s.outs.all fun x =>
      x.path != .m || x.bank != o.bank || x.seq != o.seq || decide (o.id < x.id) || Config.freeChoice s.fresh x.id)

/-- Abandon the tile queue of the active bank at a row boundary (R187). -/
def State.abandonTiles (s : State) : State :=
  { s with
    outs := s.outs.filter fun o => o.bank != s.core.bank || (match o.work with
      | .tile _ _ => false
      | .write _ _ _ _ => o.path != .m || s.tileLeft o
      | _ => true)
    fresh := s.fresh + 1 }

/-- Trap 0x12 (R361): the hold buffer is discarded, and a record of type 7 is posted (log 49). -/
def State.escalate (s : State) : State :=
  let inst : DWord := BitVec.ofNat 64 (fld s.c.seg.toNat 32 32)
  ((({ s with q := { s.q with rewind := false } }).setHeld []).noticeOwn 7 0x12 0 inst).enterTrap
    { code := 0x12, info := inst, slot := 0, iss := false, evt := false, now := false }

/-- A granule was consumed inside a segment (R360, R361): rewind, or trap 0x12 in an instance that has rewound or when the save area itself
is uncorrectable. Both B planes become invalid (06 R185); the bundle after `seg` issues 48 cycles later. -/
def State.doRewind (s : State) : State :=
  match s.q.snap with
  | none => { s with q := { s.q with rewind := false } }
  | some snap =>
    if s.c.seg.getLsbD 1 then s.escalate
    else
      let s := (s.abandonTiles).stopAll s.core.bank
      let r := s.mem.checks s.fresh (s.mem.suspects (crownThrough s.c.cbmap s.core.phys (s.c.lastStrip + 0x78000)) 0x8000)
      let s := { s with mem := r.1, fresh := s.fresh + 1 }
      if !r.2.isEmpty then s.escalate else
      { s with
        c := { s.c.restore snap with seg := s.c.seg ||| 2 }
        q := { s.q.clear with rewind := false, trap := none, acq := none, issueFrom := s.coreAfter 48, issueWhy := 16 }
        outs := (s.outs.filter fun o => o.bank != s.core.bank || o.detached || (match o.work with
          | .load _ _ _ _ => false
          | .fetch _ _ _ _ _ => false
          | .tile _ _ => false
          | _ => true)).map fun o => if o.bank == s.core.bank && !o.detached then { o with ctr := .none, promise := none } else o
        core := { s.core with planes := [], planesLost := s.now } }

/-! ## Suspension points (R346, R347) -/

/-- Nothing of the bead is in flight in a slot or an engine. -/
def State.bankIdle (s : State) : Bool :=
  s.q.vq.isEmpty && s.q.mq.isEmpty && s.outs.all fun o => o.bank != s.core.bank || o.detached

/-- Address of the bundle after the one in execution. -/
def State.nextPc (s : State) : DWord :=
  match s.q.replay with
  | r :: _ => r.1
  | [] => s.c.pc

/-- Steps 1 and 2 of R346, then what follows. -/
def State.suspending (s : State) (f : State → State) : State :=
  s.endSegment fun s => if s.bankIdle then f s else s.stall

/-- A suspension, which takes 40 cycles after its wait to write the record (R365). A full wait pool is trap 0x17 with
reason 3, before the record. -/
def State.recording (s : State) (record : Bool) (f : State → State) : State :=
  let s := match s.q.wait with
    | .record _ => s
    | _ => { s with q := { s.q with wait := .record none } }
  s.suspending fun s =>
    let ended := { s.unwatch with q := { s.unwatch.q with answered := none } }
    if record && decide (s.hub.waitSize ≤ s.hub.beads.length) then ended.raise 0x17 3
    else match s.q.wait with
      | .record (some t) => if t ≤ s.now then f ended else s.stall
      | _ => { s with q := { s.q with wait := .record (some (s.coreAfter 40)) } }.stall

/-- Free the bead's context bank (step 4), with a removal of this core that waits for it (12 R411). -/
def State.freeBank (s : State) : State :=
  ({ s with c := {}, q := {}, undo := s.undo.filter (·.bank != s.core.bank) }).pendingRemoval

/-- Steps 3 and 4: the record goes to the wait pool, whose bytes are the arbiter's own (log 9); a full pool is trap 0x17
with reason 3. -/
def State.writeRecord (s : State) (state : Nat) (pc wake : DWord) (f : Bead → Bead) : State :=
  if s.hub.waitSize ≤ s.hub.beads.length then s.raise 0x17 3
  else
    let c := landAll s.c s.q.shadows
    let b : Bead :=
      { record := mkRec state pc c.bead c.home ((List.range 4).map fun i => c.rx (BitVec.ofNat 5 (i + 1))) wake
        strand := c.strand, index := c.index, ready := if state = 2 ∧ wake.toNat ≤ s.now then some s.now else none, strips := if c.pinned then c.cbmap else 0, saved := none, gang := false }
    let s := s.poolWrite
    { s with hub := { s.hub with beads := s.hub.beads ++ [f b] } }.freeBank.noteReady

def execSuspend (a : BitVec 5) (k : BitVec 1) (s : State) : Ans :=
  .next (s.recording true fun s => s.writeRecord (if k = 1 then 3 else 2) s.nextPc (s.c.rx a) id)

def execYield (s : State) : Ans :=
  .next (s.recording true fun s => s.writeRecord 1 s.nextPc 0 fun b => { b with ready := some s.now })

def execRetire (s : State) : Ans :=
  .next (s.recording false fun s =>
    let n := s.c.strand
    let i := s.c.index
    let s := (s.leaveClasp.countRetired n.toNat).freeBank
    { s with hub := { s.hub with started := s.hub.started.filter (· != (n, i)) } }.noteReady)

/-! ## `sleepu` (10 R321, R322) -/

/-- Kind of a promised operation. -/
def Out.lateKind (o : Out) : Nat :=
  match o.work with
  | .refill _ _ _ _ _ _ => 1
  | .reduce _ _ => 2
  | _ => 0

def lateInfo (l : List Out) : DWord :=
  match l with
  | [] => 0
  | o :: t =>
    let e := t.foldl (fun x y => if y.promise.getD 0 < x.promise.getD 0 then y else x) o
    BitVec.ofNat 64 (min l.length 63 + e.lateKind * 64 + (e.promise.getD 0) % 2 ^ 56 * 256)

/-- Incomplete promised operations whose promise has passed. -/
def State.late (s : State) : List Out := s.promisedOuts.filter fun o => decide (o.promise.getD 0 ≤ s.now)

/-- The late test of a `sleepu` that wakes. -/
def State.wakeTest (s : State) : State :=
  let s := { s with q := { s.q with wait := .none, eligible := false } }
  if s.late.isEmpty then s else s.raise 0x0B (lateInfo s.late)

def execSleepu (a : BitVec 4) (s : State) : Ans :=
  let w := (s.c.ra a).toNat
  match s.q.wait with
  | .sleep _ => .next (if s.q.eligible then s.wakeTest else s.stall)
  | .record _ => .next (s.recording true fun s => s.writeRecord 2 s.nextPc (s.c.ra a) id)
  | _ =>
    if s.now + s.core.sleepmax.toNat < w then .next (s.recording true fun s => s.writeRecord 2 s.nextPc (s.c.ra a) id)
    else if w ≤ s.now then .next s.wakeTest
    else .next { s with q := { s.q with wait := .sleep w, eligible := false } }.stall

/-! ## What an operation of slot C sends (12 R384) -/

/-- An operation of slot C that sends waits until the strike hold ends; then `act` sends and gives the answer, or raises a trap. The answer
comes `n` core cycles after the operation first waited, and `finish` takes it. What has been sent is final. -/
def State.sends (s : State) (n : Nat) (act : State → State × Option DWord) (finish : DWord → State → State) : State :=
  match s.q.answered, s.q.sending with
  | some (w, t), _ => if t ≤ s.now then finish w { s with q := { s.q with answered := none } } else s.stall
  | none, some t =>
    if s.now ≤ t + Config.strikeHold then s.stall
    else
      let r := act { s with q := { s.q with sending := none } }
      match r.2 with
      | some w => (r.1.settleBank s.core.bank id fun q =>
          { q with sending := none, answered := some (w, s.coreAfter (n - (Config.strikeHold + 1))) }).stall
      | none => r.1
  | none, none => { s with q := { s.q with sending := some s.now } }.stall

/-! ## `spawn` (R364) -/

/-- sr.einfo of trap 0x17. -/
def strandInfo (reason strand : Nat) : DWord := BitVec.ofNat 64 (reason + strand * 2 ^ 16)

def execSpawn (d a b c : BitVec 5) (s : State) : Ans :=
  let k := s.lat.iss
  let w := k.rx a
  let n := (wStrand w).toNat
  let pc := k.rx b
  let cont := (List.range 4).map fun i => k.rx (c + BitVec.ofNat 5 (i + 1))
  let r := mkRec 0 pc (putField w 45 10 0) (k.rx c) cont 0
  if c = 0 ∨ 27 < c.toNat then .next (s.raiseIssue 0x01)
  else if s.c.segOpen then .next (s.segFault 2 0)
  else if wSys w && !s.c.sys then .next (s.raise 0x03 (wordInfo s.lat.slot false false s.lat.word))
  else if pc.toNat % 16 ≠ 0 then .next (s.raise 0x04 0)
  else .next (s.released fun s => s.sends 180 (fun s =>
    let tail := s.strandTail n
    if s.lcap n = 0 then (s.raise 0x17 (strandInfo 1 n), none)
    else if !s.hub.recOk r false then (s.raise 0x17 (strandInfo 2 n), none)
    else if 2 ^ s.lcap n ≤ (tail + 2 ^ 32 - s.strandHead n) % 2 ^ 32 then (s.raise 0x17 (strandInfo 0 n), none)
    else ((s.enqueue n (natBytes 64 r.toNat)).noteReady, some (BitVec.ofNat 64 tail))) fun w s => s.wx d w)

/-! ## Clasps (R366-R368) -/

/-- The lowest barrier channel that is free. -/
def Hub.freeChannel (k : Hub) : Option Nat := (List.range 64).find? fun c => !k.channels.contains c

/-- The table entry that `join` joins or creates, or its reason of trap 0x18. -/
def Hub.joinClasp (k : Hub) (n : BitVec 20) (size : Nat) (sync : Bool) : Except Nat (Hub × Clasp × Bool) :=
  match k.clasp n with
  | some c =>
    if c.size ≠ size ∨ c.sync ≠ sync then .error 2
    else if c.size ≤ c.ranks.length then .error 3
    else .ok (k, c, false)
  | none =>
    let mk (ch fb : Option Nat) : Clasp :=
      { number := n, size := size, sync := sync, ranks := [], channel := ch, fallback := fb, packages := [Config.packageNo],
        runtime := false, arrived := [], released := none, round := 0 }
    if 4096 ≤ k.clasps.length then .error 4
    else match sync, k.freeChannel with
      | true, some ch => .ok ({ k with channels := k.channels ++ [ch], clasps := k.clasps ++ [mk (some ch) none] }, mk (some ch) none, false)
      | _, _ => match k.pool with
        | [] => .error 5
        | g :: t => .ok ({ k with pool := t, clasps := k.clasps ++ [mk none (some g)] }, mk none (some g), true)

/-- The bead of the active bank joins a clasp: with its rank, or the reason of trap 0x18. -/
def State.joinClasp (s : State) (i : Instr) (n : BitVec 20) (size : Nat) (sync : Bool) : State × Option DWord :=
  let s := if (s.hub.joinClasp n size sync).toOption.isSome then s.failRound n else s
  match s.hub.joinClasp n size sync with
  | .error r => (s.raise 0x18 (claspInfo r n), none)
  | .ok (k, c, made) =>
    let s := { s with hub := k.setClasp { c with ranks := setAdd c.ranks c.freeRank } }
    let s := match made, c.fallback with
      | true, some g => s.hubRequest g i (BitVec.ofNat 64 size)
      | _, _ => s
    (s.settleBank s.core.bank (·.inClasp n.toNat c.freeRank) id, some (BitVec.ofNat 64 c.freeRank))

/-- A SYNC `join` becomes a suspension point once the bead is a member; its bead waits for its gang. -/
def State.joinRecord (s : State) (d : BitVec 5) (w : DWord) : State :=
  (s.wx d w).recording true fun s => s.writeRecord 1 s.nextPc 0 fun b => { b with gang := true, ready := some s.now }

def execJoin (d a b : BitVec 5) (s : State) : Ans :=
  let n : BitVec 20 := fbv 20 0 (s.lat.iss.rx a).toNat
  let xb := (s.lat.iss.rx b).toNat
  let size := fld xb 0 10
  let sync := xb.testBit 16
  let bad (r : Nat) : Ans := .next (s.raise 0x18 (claspInfo r n))
  let act (s : State) : State × Option DWord := s.joinClasp (.join d a b) n size sync
  match s.q.answered with
  | some (w, t) => .next (if sync && decide (t ≤ s.now) then s.joinRecord d w else s.sends 59 act fun w s => s.wx d w)
  | none =>
    if s.c.segOpen then .next (s.segFault 2 0)
    else if s.c.claspNo ≠ 0 then bad 1
    else if n = 0 ∨ size = 0 ∨ fld xb 10 6 ≠ 0 ∨ fld xb 17 47 ≠ 0 then bad 0
    else match s.hub.joinClasp n size sync with
    | .error r => bad r
    | .ok _ => .next (s.sends (if sync then Config.strikeHold + 1 else 59) act fun w s => s.wx d w)

def execLeave (s : State) : Ans :=
  if s.c.segOpen then .next (s.segFault 2 0) else .next (s.sends 59 (fun s => (s.leaveClasp, some 0)) fun _ s => s)

/-- Arrive on the clasp's barrier: its channel, where the arrival performs in the next cycle (13 R416, R422), or its object through the home
engine (R355, R368). -/
def State.arrive (s : State) (c : Clasp) (d : BitVec 5) : State :=
  let s := s.settleBank s.core.bank id fun q => { q with cbarAt := some s.now, cbarRel := none }
  let s := { s with q := { s.q with wait := .barrier s.now } }
  match c.channel, c.fallback with
  | some _, _ =>
    let c := { c with arrived := setAdd c.arrived s.c.rank }
    { s with hub := s.hub.setClasp (if c.ranks.all c.arrived.contains then { c with released := some (s.now + 25) } else c) }
  | none, some g =>
    s.sendAtom .none (g, 0) { instr := .cbar d, addr := g, s := 0, d := s.c.bead, engine := false, waiting := false }
  | none, none => s

def execCbar (d : BitVec 5) (s : State) : Ans :=
  match s.hub.clasp s.c.claspNo with
  | none => .next (s.raise 0x18 (claspInfo 6 s.c.claspNo))
  | some c =>
    match s.q.cbarAt, s.q.cbarRel with
    | some _, some r =>
      .next ((({ s with q := { s.q with cbarAt := none, cbarRel := none, wait := .none } }.scClear).wx d (BitVec.ofNat 64 r)).hold 2)
    | some t, none => .next { s with q := { s.q with wait := .barrier t } }.stall
    | none, _ => .next (s.suspending fun s => (s.arrive c d).stall)

end Sys2Proof.Machine
end

