-- ==== Sys2Proof/Machine/System.lean ====
section
/-! DEFINITION. System instructions (12_system_class.md): trap, return and halt, the self-test, the core map, the monitors, the fault tools. -/

namespace Sys2Proof.Machine

/-! ## `trap`, `rte`, `halt` (R379-R381) -/

/-- Operations of slots V and M that wait, of this bundle or an earlier one. -/
def State.slotsHeld (s : State) : Bool := !(s.q.slotsEmpty (s.lat.seq + 1))

/-- `trap`: once nothing of its bundle or an earlier one is incomplete, it is complete, and trap 0x19 is taken at the boundary after its
bundle (R379). Where another slot has faulted it stays incomplete with its bundle, and is replayed. -/
def execTrap (i : BitVec 16) (s : State) : Ans :=
  let t : TrapRec := { code := 0x19, info := i.setWidth 64, slot := 0, iss := false, evt := false, now := false, seq := s.lat.seq }
  if s.q.trap.isSome then .next { s with lat := { s.lat with res := .trap } }
  else .next (if s.slotsHeld then s.stall else { s with q := { s.q with trap := some t } })

def execRte (s : State) : Ans := .next (s.privileged fun s => if s.slotsHeld then s.stall else s.returnTrap)

/-- `halt`: the host's "resume" makes the bank eligible again. -/
def execHalt (s : State) : Ans :=
  .next (s.privileged fun s =>
    match s.q.wait with
    | .halted => if s.q.eligible then { s with q := { s.q with wait := .none, eligible := false } } else s.stall
    | _ =>
      if !s.waited then s.stall else
      let s := s.noticeOwn 15 0 0 0
      { s with q := { s.q with wait := .halted, eligible := false } }.stall)

/-! ## `scan` (R409, R410) -/

/-- Length of the self-test in sr.cycle periods, at the throttled clock (R6, R409). -/
def State.scanPeriods (s : State) : Nat := 140000 * 700 / s.hub.power.clock

/-- Cycle from which a scan that started waiting in a cycle has saved the context, and the one at which its test ends. -/
def State.scanEnds (s : State) (since : Nat) : Nat × Nat :=
  (since + s.periods 64, since + s.periods 64 + s.scanPeriods)

/-- The two results of the `scan` that waits in slot C, which are final; it ends in a cycle. -/
def State.scanDone (s : State) (status sig : DWord) (until_ : Nat) : State :=
  let ended (q : Seq) : Seq := match q.wait with
    | .scan _ => { q with wait := .scan until_, eligible := true }
    | _ => q
  match s.q.ops.findSome? (fun o => match o.instr with
      | .scan d e => some (o.seq, d, e)
      | _ => none) with
  | some (n, d, e) => s.settleBank s.core.bank (fun c => (c.wx d status).wx e sig) fun q =>
      ended ((q.found n s.now (.x d status)).found n s.now (.x e sig))
  | none => s.settleBank s.core.bank id ended

def execScan (d e : BitVec 5) (s : State) : Ans :=
  .next (s.privileged fun s =>
    match s.q.wait with
    | .scan t => if s.q.eligible && decide (t ≤ s.now) then { s with q := { s.q with wait := .none, eligible := false } } else s.stall
    | _ =>
      if s.oq.state ≠ .empty then (s.wx d 3).wx e 0
      else if !s.waited then s.stall
      else
        { s with
          q := { s.q with wait := .scan s.now, eligible := false }
          mem := s.mem.fill s.fresh (s.crownAt (s.c.lastStrip + 0x68000)) 0x10000
          fresh := s.fresh + 1
          hub := s.hub.countOn s.board fun k => { k with scans := k.scans + 1 } }.stall)

/-- The self-test has ended: `scan` writes its results when the context is restored (R409). -/
def State.testEnded (s : State) : State :=
  match s.q.wait with
  | .scan began =>
    let sig := Config.scanSignature s.core.phys s.fresh
    let s := { s with fresh := s.fresh + 1 }
    let n := s.scanPeriods * 256
    let fails := { s with hub := s.hub.countOn s.board fun k => { k with scanFails := k.scanFails + 1 } }
    match Config.imageSignature s.hub.boot.config s.core.phys with
      | some w => if w = sig then s.scanDone (BitVec.ofNat 64 n) sig began else fails.scanDone (BitVec.ofNat 64 (n + 1)) sig began
      | none => fails.scanDone (BitVec.ofNat 64 (n + 5)) sig began
  | _ => s

def execSelfTestEnd (s : State) : Ans := .next s.testEnded

/-- A self-test has ended whose context is being restored: nothing aborts it any more (R410). -/
def State.scanEnded (s : State) : Bool :=
  match s.q.wait with
  | .scan t => !s.q.eligible && decide ((s.scanEnds t).2 ≤ s.now)
  | _ => false

/-- A self-test in progress is aborted (R410), unless its test has ended: it stops, and the context is restored when the test has begun. -/
def State.abortScan (s : State) : State :=
  match s.q.wait with
  | .scan t =>
    let began := (s.scanEnds t).1
    let stop := s.now + Config.scanStop
    if s.q.eligible || decide ((s.scanEnds t).2 ≤ s.now) then s else
    ({ s with hub := s.hub.countOn s.board fun k => { k with scanAborts := k.scanAborts + 1 } }).scanDone
      (BitVec.ofNat 64 (2 + (if s.now < began then 0 else stop - began) * 256)) 0 (if s.now < began then stop else stop + s.periods 64)
  | _ => s

/-- An aborted `scan` is over where nothing waits for its context. -/
def State.endScan (s : State) : State :=
  match s.q.wait with
  | .scan _ => if s.q.eligible then
      { s with q := { s.q with
          wait := .none, eligible := false, ops := s.q.ops.filter (·.slot != 0)
          cur := s.q.cur.map fun f => { f with done := f.done ||| 1 } } }
    else s
  | _ => s

/-! ## `cmap` (R411) -/

/-- The removal or restoration of a physical core and the status it answers. -/
def State.mapCore (s : State) (p : Nat) (restore : Bool) : State × Nat :=
  match s.hub.logicalOf p, restore with
  | some _, true => (s, 3)
  | none, false => (s, 3)
  | none, true =>
    (({ s with hub := { s.hub with map := s.hub.map ++ [p] } }.renumbered).post 10 0 p 0 (BitVec.ofNat 64 p) 0, 0)
  | some l, false =>
    if s.removalBusy l then (s, 2)
    else if p = s.core.phys then ({ s with core := { s.core with removal := true } }, 1)
    else (s.doRemove l, 0)

def execCmap (d a b : BitVec 5) (s : State) : Ans :=
  .next (s.privileged fun s =>
    let xa := (s.lat.iss.rx a).toNat
    let xb := (s.lat.iss.rx b).toNat
    s.sends 200 (fun s =>
      if 512 ≤ xa ∨ 2 ≤ xb then (s, some 4)
      else
        let r := s.mapCore xa (xb == 1)
        (r.1, some (BitVec.ofNat 64 r.2))) fun w s => s.wx d w)

/-! ## `pmon` (R390-R393) -/

/-- The parking of a queue's head of slot V or M ends in this cycle, a sample of the monitors (12 Table 12-9). -/
def State.unparked (s : State) (slot : BitVec 2) : State :=
  match if slot = 1 then s.q.vSince else s.q.mSince with
  | some t => s.sampleAll 5 ((s.now : Int) - t)
  | none => s

def execPmonStart (m : BitVec 4) (s : State) : Ans := .next (s.onUnits m Mon.start)
def execPmonStop (m : BitVec 4) (s : State) : Ans := .next (s.onUnits m Mon.stop)
def execPmonClr (m : BitVec 4) (s : State) : Ans := .next (s.onUnits m Mon.clear)
def execPmonClrstart (m : BitVec 4) (s : State) : Ans := .next (s.onUnits m fun u => u.clear.start)

/-! ## `trmw` (R412) -/

/-- Rows of the range that show an error at the lowered margin: a wrong or poisoned bit that is there, or one that the
lowered margin shows (log 10). -/
def State.marginRows (s : State) (a n : Nat) : Nat :=
  ((List.range (n / 1024)).filter fun i =>
    Config.marginError (a + 1024 * i) s.now || (granules (a + 1024 * i) 1024).any fun g => s.mem.wrongIn g != 0 || s.mem.poison.contains g).length

/-- Rewrite the rows with their corrected contents: a single wrong bit of a granule is gone. -/
def Mem.correctAll (m : Mem) (lo n : Nat) : Mem :=
  (granules lo n).foldl (fun m g => if m.wrongIn g = 1 then { m with wrong := setDelRange m.wrong (8 * g) (8 * granuleSize g) } else m) m

def execTrmw (d h o l : BitVec 4) (k : BitVec 1) (s : State) : Ans :=
  .next (s.privileged fun s =>
    match s.rowsCheck h o l canRead with
    | .error f => s.fault f h o
    | .ok a => s.counted .ld fun s =>
      let n := (s.c.ra l).toNat
      let phys := (a - 2 ^ 65) / 2 ^ 23 % 17
      let count := s.marginRows a n
      let was := s.core.failed.contains phys
      let s := { s with mem := s.mem.correctAll a n }
      let s := if k = 1 ∧ count ≠ 0 then
          ({ s with core := { s.core with failed := setAdd s.core.failed phys } }).noticeOwn 11 0 (BitVec.ofNat 64 (phys * 2 ^ 23)) (BitVec.ofNat 64 phys)
        else s
      s.launch .l .ld (s.coreAfter (16 * (n / 1024))) none
        (.load (.a d (BitVec.ofNat 64 (min count 0xFFFF + if was then 0x10000 else 0))) false 0 0))

/-! ## `diag.inj` (R413) -/

/-- Cell address of the granule that `diag.inj` names, or the trap: its code and sr.einfo. -/
def State.injectAt (s : State) (tower : Bool) (w : Nat) : Except (BitVec 8 × Flt) Nat :=
  let bad (code : BitVec 8) (reason : Nat) : Except (BitVec 8 × Flt) Nat := .error (code, { code := code, reason := reason, off := w })
  if w % (if tower then 32 else 8) ≠ 0 then bad 0x04 0
  else if tower then (if 2 ^ 27 ≤ w then bad 0x06 1 else .ok (s.towerAt (w / 2 ^ 23) (w % 2 ^ 23)))
  else if s.c.strips * 2 ^ 19 ≤ w then bad 0x06 1
  else .ok (s.crownAt w)

/-- A `diag.inj` operation that a discard repeats although it is final (R413, R385). -/
def State.injected (s : State) : Bool := s.core.struck.contains (s.core.bank, s.lat.seq)

/-- A `diag.inj` operation is final: a repeat does not issue it again. -/
def State.injects (s : State) : State := { s with core := { s.core with struck := (s.core.bank, s.lat.seq) :: s.core.struck } }

/-- The checks, the wait and the fault of kinds 0 to 3, which is final at once. -/
def State.inject (s : State) (tower bit : Bool) (a b : BitVec 5) (f : Mem → Nat → Nat → Mem) : State :=
  s.privileged fun s =>
    if s.injected then s
    else if bit ∧ 64 ≤ (s.c.rx b).toNat then s.raise 0x01 (wordInfo s.lat.slot false false s.lat.word)
    else match s.injectAt tower (s.c.rx a).toNat with
    | .error e => s.fault e.2 0 0
    | .ok g => if s.rangeQuiet s.core.bank s.lat.seq g (if tower then 32 else 8)
        then { (s.hold 6).injects with mem := f s.mem g (s.c.rx b).toNat } else s.stall

/-- Make the wrong bits of a granule its contents, with check bits that agree. -/
def Mem.bake (m : Mem) (g : Nat) : Mem :=
  let bits := m.wrong.filter fun b => decide (8 * g ≤ b ∧ b < 8 * (g + granuleSize g))
  let m := { m with wrong := setDelRange m.wrong (8 * g) (8 * granuleSize g), poison := setDel m.poison g }
  bits.foldl (fun m b => { m with
    cells := cellSet m.cells (b / 8) (m.byte (b / 8) ^^^ BitVec.ofNat 8 (2 ^ (b % 8))), junk := junkCut m.junk (b / 8) 1 }) m

/-- Invert one bit of a granule's contents. -/
def Mem.flipBit (m : Mem) (g n : Nat) : Mem :=
  let m := m.bake g
  let a := g + n / 8
  { m with cells := cellSet m.cells a (m.byte a ^^^ BitVec.ofNat 8 (2 ^ (n % 8))), junk := junkCut m.junk a 1 }

/-- Invert one bit under the old check bits; a second time restores it. -/
def Mem.wrongBit (m : Mem) (g n : Nat) : Mem :=
  { m with wrong := if m.wrong.contains (8 * g + n) then setDel m.wrong (8 * g + n) else setAdd m.wrong (8 * g + n) }

def execDiagInjFlip (a b : BitVec 5) (s : State) : Ans := .next (s.inject false true a b Mem.flipBit)
def execDiagInjCerr (a b : BitVec 5) (s : State) : Ans := .next (s.inject false true a b Mem.wrongBit)
def execDiagInjPoison (a b : BitVec 5) (s : State) : Ans := .next (s.inject false false a b fun m g _ => m.setPoison g)
def execDiagInjTpoison (a b : BitVec 5) (s : State) : Ans := .next (s.inject true false a b fun m g _ => m.setPoison g)

/-- Strike region of a core (R383). -/
def regionOfCore (phys : Nat) : Nat := 4 * (rankOf phys / 2) + fileOf phys / 2

/-- `diag.inj.strike`: a report for the core's region once its bundle has completed; a repeat of the operation is done
already. -/
def execDiagInjStrike (_a _b : BitVec 5) (s : State) : Ans :=
  .next (s.privileged fun s =>
    if s.injected then s
    else if s.q.vq.any (·.seq == s.lat.seq) || s.q.mq.any (·.seq == s.lat.seq) then s.stall
    else
      { s.injects with
        agenda := (s.now + 1, .strikeReport,
          .region (BitVec.ofNat 3 s.board) (BitVec.ofNat 4 (regionOfCore s.core.phys))) :: s.agenda })

end Sys2Proof.Machine
end

