-- ==== Sys2Proof/Machine/Uses.lean ====
section
/-! DEFINITION. Interlocks: the registers that operations wait for before they execute (02 R53, 04 R101, 05 R136, R163, 07 R201, 08 R238), the write ports of the v banks (05 R135) and bank lending (06 R197). -/

namespace Sys2Proof.Machine

/-- Registers that an operation of a slot reads from a file of another slot (02 R53, 08 R238, 07 R201). -/
def crossReads (i : Instr) : List Reg :=
  match i with
  | .xcV _ v _ => [.v v]
  | .xcM _ k r _ => [if k = 0 then .m r else .pv (r.setWidth 2)]
  | .xcG _ g => [.g g]
  | .vst v _ _ _ _ => [.v v]
  | .vsts v _ _ _ _ => [.v v]
  | .vsct v _ _ _ _ _ => [.v v]
  | .cstVector v _ _ _ _ => [.v v]
  | .tvst v _ _ _ _ => [.v v]
  | _ => []

/-- Whether an instruction's registers are among those that an engine still writes: the pv and g registers that queued
tile operations name (07 R201). -/
def engineRegs (i : Instr) : List Reg :=
  match i with
  | .xcM _ k r _ => if k = 1 then [.pv (r.setWidth 2)] else []
  | .xcG _ g => [.g g]
  | .xcXMatrix r _ k _ => if k = 1 then [.pv (r.setWidth 2)] else if k = 2 then [.g (r.setWidth 2)] else []
  | _ => []

/-- A register that reads as a constant is never waited for. -/
def Reg.constant (r : Reg) : Bool := r == .x 0 || r == .k 0 || r == .vm 0

/-- The register that an operation in hand will write. -/
def Out.pending (o : Out) : Option Reg :=
  match o.work with
  | .load w _ _ _ => w.reg
  | .fetch w _ _ _ _ => some w.reg
  | .atom r => if r.engine then none else (atomReg r.instr).map fun p => .x p.1
  | .tile op _ => match op.instr with
    | .mdld m _ => some (.m m)
    | _ => none
  | _ => none

/-- Registers of the active bead that loads and requests of bundles before `n` still write. -/
def State.pendingRegs (s : State) (n : Nat) : List Reg :=
  s.outs.filterMap fun o => if o.bank == s.core.bank && decide (o.seq < n) then o.pending else none

/-- Whether an operation does not execute: its guard is 0 (04 R100). It reads and writes no register and uses no unit. -/
def Slotted.guardOff (o : Slotted) (c : Ctx) : Bool := o.slot == 0 && !c.rk (guardOf o.instr)

/-! ## Write ports of the v banks (05 R135) -/

/-- The bank of a v register (R133). -/
def vBank (r : BitVec 6) : Nat := r.toNat % 6

/-- The bank that a register write goes to, for a v register. -/
def Reg.bank : Reg → Option Nat
  | .v r => if r.toNat < 48 then some (vBank r) else none
  | _ => none

/-- A result is written to the bank of a register in a cycle. -/
def Seq.bankBusy (q : Seq) (now : Nat) (r : Reg) : Bool :=
  r.bank.isSome && q.busy.any fun b => b.2.2 == now && b.1.bank == r.bank

/-- A load's write waits for the operations of slot V and M of earlier bundles that name its register (08 R237), and for a result
that its bank takes in the same cycle (05 R135). -/
def State.loadFree (s : State) (o : Out) : Bool :=
  let q := if o.bank = s.core.bank then s.q else s.oq
  match o.pending with
  | some r => !((q.vq ++ q.mq).any fun t => decide (t.seq ≤ o.seq) && (t.uses ++ facRegs t.instr).contains r) && !q.bankBusy s.now r
  | none => true

/-! ## Lending (05 R139, 06 R197) -/

/-- The bank that an instruction lends to slot M or takes back, and whether it lends. -/
def lendOf (i : Instr) : Option (Nat × Bool) :=
  match i with
  | .blend0 => some (0, true)
  | .blend1 => some (1, true)
  | .blend2 => some (2, true)
  | .blend3 => some (3, true)
  | .blend4 => some (4, true)
  | .blend5 => some (5, true)
  | .bret0 => some (0, false)
  | .bret1 => some (1, false)
  | .bret2 => some (2, false)
  | .bret3 => some (3, false)
  | .bret4 => some (4, false)
  | .bret5 => some (5, false)
  | _ => none

/-- Whether an operation names a register of a bank. -/
def Slotted.namesBank (o : Slotted) (b : Nat) : Bool := o.uses.any fun r => r.bank == some b

/-- The banks of which an operation names a register. -/
def Slotted.banks (o : Slotted) : BitVec 6 :=
  (List.range 6).foldl (fun (m : BitVec 6) b => if o.namesBank b then m ||| BitVec.ofNat 6 (2 ^ b) else m) 0

/-- A V operation of bundle `n` or an earlier one that names a register of the bank, as destination or source, remains: it waits in slot
V, or has not completed (R139). -/
def State.bankHeld (s : State) (b n : Nat) : Bool :=
  ((s.q.vq ++ s.q.ops.filter (·.slot == 1)).any fun o => decide (o.seq ≤ n) && o.namesBank b) ||
  (s.q.named.any fun x => decide (x.2.1 ≤ n ∧ s.now < x.2.2) && x.1.getLsbD b)

/-- Copies into registers of a bank that are in their shadow land before the bank is lent, so that slot M reads what they wrote
(R139; log 41). -/
def State.landBank (s : State) (b : Nat) : State :=
  let mine (h : Shadow) : Bool := h.write.reg.any fun r => r.bank == some b
  { s with c := landAll s.c (s.q.shadows.filter mine), q := { s.q with shadows := s.q.shadows.filter fun h => !mine h } }

/-- `blend`: wait until no V operation of this or an earlier bundle that names a register of the bank remains, holding the
stream; slot M owns the bank from the next bundle on. -/
def State.lend (s : State) (b : Nat) : State :=
  if s.c.lent.getLsbD b then s
  else if s.bankHeld b s.lat.seq then s.stall
  else
    let u := s.landBank b
    { u with c := { u.c with lent := u.c.lent ||| BitVec.ofNat 6 (2 ^ b) } }

/-- The registers of v that a tile operation still reads as a lent A source. -/
def lentReads (op : Slotted) (w : Tiling) (b : Nat) : Bool :=
  match productOf op.instr with
  | some p => p.src == 3 && dBase (op.iss.rm p.a) == b && decide (w.step < p.steps op)
  | none => false

/-- A tile operation of the bead has rows to read from a bank. -/
def State.bankRead (s : State) (b : Nat) : Bool :=
  (s.tileQueue s.core.bank).any fun o => match o.work with
    | .tile op w => lentReads op w b
    | _ => false

/-- `bret`: wait until no tile operation of the bead has rows to read from the bank. -/
def State.unlend (s : State) (b : Nat) : State :=
  if !s.c.lent.getLsbD b then s
  else if s.bankRead b then s.stall
  else { s with c := { s.c with lent := s.c.lent &&& ~~~BitVec.ofNat 6 (2 ^ b) } }

/-- The lending state once every `blend` and `bret` that waits in slot M has acted: from the bundle after it on a register belongs
to the slot that such an instruction gives it to (R197). -/
def State.lentAhead (s : State) : BitVec 6 :=
  s.q.mq.foldl (fun l o => match lendOf o.instr with
    | some (b, true) => l ||| BitVec.ofNat 6 (2 ^ b)
    | some (b, false) => l &&& ~~~BitVec.ofNat 6 (2 ^ b)
    | none => l) s.c.lent

/-- A `blend` or `bret` at the head of slot M's queue has to wait: it holds the stream (R197). -/
def State.lendHolds (s : State) : Bool :=
  s.q.mq.head?.any fun o => match lendOf o.instr with
    | some (b, true) => !s.c.lent.getLsbD b && s.bankHeld b o.seq
    | some (b, false) => s.c.lent.getLsbD b && s.bankRead b
    | none => false

/-- A `bret` that waits in slot M has still to give back a bank that an operation names. -/
def State.unreturned (s : State) (o : Slotted) : Bool :=
  s.q.mq.any fun t => match lendOf t.instr with
    | some (b, false) => s.c.lent.getLsbD b && o.namesBank b
    | _ => false

def execBlend0 (s : State) : Ans := .next (s.lend 0)
def execBlend1 (s : State) : Ans := .next (s.lend 1)
def execBlend2 (s : State) : Ans := .next (s.lend 2)
def execBlend3 (s : State) : Ans := .next (s.lend 3)
def execBlend4 (s : State) : Ans := .next (s.lend 4)
def execBlend5 (s : State) : Ans := .next (s.lend 5)
def execBret0 (s : State) : Ans := .next (s.unlend 0)
def execBret1 (s : State) : Ans := .next (s.unlend 1)
def execBret2 (s : State) : Ans := .next (s.unlend 2)
def execBret3 (s : State) : Ans := .next (s.unlend 3)
def execBret4 (s : State) : Ans := .next (s.unlend 4)
def execBret5 (s : State) : Ans := .next (s.unlend 5)

end Sys2Proof.Machine
end

