-- ==== Sys2Proof/Machine/VectorFloat.lean ====
section
/-! DEFINITION. Slot V: floating-point lanes, exact pairs, double words and reductions (05 R141-R156). -/

namespace Sys2Proof.Machine

/-! ## Lane operations (R141-R147) -/

/-- Two elements of 16 bits of a lane (R130). -/
def halves1 (f : Nat → Nat × Fl) (a : Nat) : Nat × Fl :=
  let lo := f (a % 2 ^ 16)
  let hi := f (a / 2 ^ 16)
  (lo.1 + hi.1 * 2 ^ 16, lo.2 ||| hi.2)
def halves2 (f : Nat → Nat → Nat × Fl) (a b : Nat) : Nat × Fl :=
  let lo := f (a % 2 ^ 16) (b % 2 ^ 16)
  let hi := f (a / 2 ^ 16) (b / 2 ^ 16)
  (lo.1 + hi.1 * 2 ^ 16, lo.2 ||| hi.2)
def halves3 (f : Nat → Nat → Nat → Nat × Fl) (a b c : Nat) : Nat × Fl :=
  let lo := f (a % 2 ^ 16) (b % 2 ^ 16) (c % 2 ^ 16)
  let hi := f (a / 2 ^ 16) (b / 2 ^ 16) (c / 2 ^ 16)
  (lo.1 + hi.1 * 2 ^ 16, lo.2 ||| hi.2)

/-- The sign bit of a pattern inverted. -/
def Fmt.flip (f : Fmt) (w : Nat) : Nat := if w.testBit (f.bits - 1) then w - 2 ^ (f.bits - 1) else w + 2 ^ (f.bits - 1)

/-- A × B - C: C with its sign changed after daz, as IEEE 754 subtraction has it; NaNs keep their kind. -/
def fpFms (f : Fmt) (v : FpEnv) (a b c : Nat) : Nat × Fl := fpFma f v a b (f.flip c)
/-- -(A × B) + C. -/
def fpFnma (f : Fmt) (v : FpEnv) (a b c : Nat) : Nat × Fl := fpFma f v (f.flip a) b c

/-- `vabs` and `vneg`: a NaN gives the canonical one, nv only when it signals. -/
def fpSign (f : Fmt) (daz abs : Bool) (a : Nat) : Nat × Fl :=
  let v := f.decode daz a
  if v.isNan then (f.nan, snanFlag [v])
  else
    let x := f.input daz a
    (if abs then (if x.testBit (f.bits - 1) then f.flip x else x) else f.flip x, 0)

/-- 1 / A. -/
def fpRcp (f : Fmt) (v : FpEnv) (a : Nat) : Nat × Fl := fpDivFV f v (.fin false 1 0) (f.decode v.daz a)

/-- 1 / √A, rounded once: the quotient of 2^k by the root of a magnitude carried far enough. -/
def fpRsq (f : Fmt) (v : FpEnv) (a : Nat) : Nat × Fl :=
  match f.decode v.daz a with
  | .nan s => (f.nan, if s then fNv else 0)
  | .inf n => if n then (f.nan, fNv) else (f.sign false, 0)
  | .fin n m e =>
    if m = 0 then (f.infBits n, fDz)
    else if n then (f.nan, fNv)
    else
      -- 1/√(m 2^e) = √(2^k / m) 2^(-(e + k)/2) for e + k even
      let k0 := 2 * (f.p + 4) + m.log2 + 1
      let k := if (e + k0) % 2 = 0 then k0 else k0 + 1
      let q := 2 ^ k / m
      let r := isqrt q (q.log2 / 2 + 1) 0
      f.round v.mode v.ftz false r (-((e + k) / 2)) (r * r * m != 2 ^ k)

/-- Class of a pattern as a power of two (R146). -/
def fpClass (f : Fmt) (a : Nat) : Nat :=
  let k : Nat := match f.decode false a with
    | .nan s => if s then 8 else 9
    | .inf n => if n then 0 else 7
    | .fin n m _ =>
      if m = 0 then (if n then 3 else 4)
      else if fld a (f.p - 1) f.ebits = 0 then (if n then 2 else 5)
      else (if n then 1 else 6)
  2 ^ k


/-! ## FP32 (R141-R146) -/

def execVadd (d a b : BitVec 6) (w : BitVec 2) (m : BitVec 3) (r : BitVec 2) (s : State) : Ans :=
  .next (s.lane2 d a b w m (fun x y => fpAdd fp32 (s.vEnv r) x y))
def execVsub (d a b : BitVec 6) (w : BitVec 2) (m : BitVec 3) (r : BitVec 2) (s : State) : Ans :=
  .next (s.lane2 d a b w m (fun x y => fpSub fp32 (s.vEnv r) x y))
def execVmul (d a b : BitVec 6) (w : BitVec 2) (m : BitVec 3) (r : BitVec 2) (s : State) : Ans :=
  .next (s.lane2 d a b w m (fun x y => fpMul fp32 (s.vEnv r) x y))
def execVfma (d a b : BitVec 6) (w : BitVec 2) (m : BitVec 3) (r : BitVec 2) (s : State) : Ans :=
  .next (s.lane3 d a b w m (fun x y z => fpFma fp32 (s.vEnv r) x y z))
def execVfms (d a b : BitVec 6) (w : BitVec 2) (m : BitVec 3) (r : BitVec 2) (s : State) : Ans :=
  .next (s.lane3 d a b w m (fun x y z => fpFms fp32 (s.vEnv r) x y z))
def execVfnma (d a b : BitVec 6) (w : BitVec 2) (m : BitVec 3) (r : BitVec 2) (s : State) : Ans :=
  .next (s.lane3 d a b w m (fun x y z => fpFnma fp32 (s.vEnv r) x y z))
def execVdiv (d a b : BitVec 6) (w : BitVec 2) (m : BitVec 3) (r : BitVec 2) (s : State) : Ans :=
  .next (s.lane2 d a b w m (fun x y => fpDiv fp32 (s.vEnv r) x y))
def execVsqrt (d a : BitVec 6) (w : BitVec 2) (m : BitVec 3) (r : BitVec 2) (s : State) : Ans :=
  .next (s.lane1 d a w m (fun x => fpSqrt fp32 (s.vEnv r) x))
def execVrcp (d a : BitVec 6) (w : BitVec 2) (m : BitVec 3) (r : BitVec 2) (s : State) : Ans :=
  .next (s.lane1 d a w m (fun x => fpRcp fp32 (s.vEnv r) x))
def execVrsq (d a : BitVec 6) (w : BitVec 2) (m : BitVec 3) (r : BitVec 2) (s : State) : Ans :=
  .next (s.lane1 d a w m (fun x => fpRsq fp32 (s.vEnv r) x))
def execVmin (d a b : BitVec 6) (w : BitVec 2) (m : BitVec 3) (s : State) : Ans :=
  .next (s.lane2 d a b w m (fun x y => fpMinMax fp32 (s.vEnv 0).daz false x y))
def execVmax (d a b : BitVec 6) (w : BitVec 2) (m : BitVec 3) (s : State) : Ans :=
  .next (s.lane2 d a b w m (fun x y => fpMinMax fp32 (s.vEnv 0).daz true x y))
def execVabs (d a : BitVec 6) (w : BitVec 2) (m : BitVec 3) (s : State) : Ans :=
  .next (s.lane1 d a w m (fun x => fpSign fp32 (s.vEnv 0).daz true x))
def execVneg (d a : BitVec 6) (w : BitVec 2) (m : BitVec 3) (s : State) : Ans :=
  .next (s.lane1 d a w m (fun x => fpSign fp32 (s.vEnv 0).daz false x))
def execVcmp (d : BitVec 3) (a b : BitVec 6) (w : BitVec 2) (m : BitVec 3) (c : BitVec 2) (s : State) : Ans :=
  .next (s.laneMask d a b w m (fun x y => fpCmp fp32 (s.vEnv 0).daz c.toNat x y))

/-- `vsel`: the mask field selects, and every lane below N is written (R145). -/
def State.select (s : State) (d a b : BitVec 6) (w : BitVec 2) (m : BitVec 3) : State :=
  s.laneOp d [(1, a), (2, b)] w 0 fun r l => (lane (if (s.c.rvm m).getLsbD l then r.val 0 else r.val 1) l, 0)

def execVsel (d a b : BitVec 6) (w : BitVec 2) (m : BitVec 3) (s : State) : Ans := .next (s.select d a b w m)
def execVclass (d a : BitVec 6) (w : BitVec 2) (m : BitVec 3) (s : State) : Ans :=
  .next (s.lane1 d a w m fun x => (fpClass fp32 x, 0))

/-! ## FP16 (R147) -/

def execVaddH (d a b : BitVec 6) (w : BitVec 2) (m : BitVec 3) (r : BitVec 2) (s : State) : Ans :=
  .next (s.lane2 d a b w m (halves2 (fun x y => fpAdd fp16 (s.vEnv r) x y)))
def execVsubH (d a b : BitVec 6) (w : BitVec 2) (m : BitVec 3) (r : BitVec 2) (s : State) : Ans :=
  .next (s.lane2 d a b w m (halves2 (fun x y => fpSub fp16 (s.vEnv r) x y)))
def execVmulH (d a b : BitVec 6) (w : BitVec 2) (m : BitVec 3) (r : BitVec 2) (s : State) : Ans :=
  .next (s.lane2 d a b w m (halves2 (fun x y => fpMul fp16 (s.vEnv r) x y)))
def execVfmaH (d a b : BitVec 6) (w : BitVec 2) (m : BitVec 3) (r : BitVec 2) (s : State) : Ans :=
  .next (s.lane3 d a b w m (halves3 (fun x y z => fpFma fp16 (s.vEnv r) x y z)))
def execVfmsH (d a b : BitVec 6) (w : BitVec 2) (m : BitVec 3) (r : BitVec 2) (s : State) : Ans :=
  .next (s.lane3 d a b w m (halves3 (fun x y z => fpFms fp16 (s.vEnv r) x y z)))
def execVfnmaH (d a b : BitVec 6) (w : BitVec 2) (m : BitVec 3) (r : BitVec 2) (s : State) : Ans :=
  .next (s.lane3 d a b w m (halves3 (fun x y z => fpFnma fp16 (s.vEnv r) x y z)))
def execVminH (d a b : BitVec 6) (w : BitVec 2) (m : BitVec 3) (s : State) : Ans :=
  .next (s.lane2 d a b w m (halves2 (fun x y => fpMinMax fp16 (s.vEnv 0).daz false x y)))
def execVmaxH (d a b : BitVec 6) (w : BitVec 2) (m : BitVec 3) (s : State) : Ans :=
  .next (s.lane2 d a b w m (halves2 (fun x y => fpMinMax fp16 (s.vEnv 0).daz true x y)))
def execVabsH (d a : BitVec 6) (w : BitVec 2) (m : BitVec 3) (s : State) : Ans :=
  .next (s.lane1 d a w m (halves1 (fun x => fpSign fp16 (s.vEnv 0).daz true x)))
def execVnegH (d a : BitVec 6) (w : BitVec 2) (m : BitVec 3) (s : State) : Ans :=
  .next (s.lane1 d a w m (halves1 (fun x => fpSign fp16 (s.vEnv 0).daz false x)))
/-- [22] chooses the element that decides (R144). -/
def execVcmpH (e : BitVec 1) (d : BitVec 3) (a b : BitVec 6) (w : BitVec 2) (m : BitVec 3) (c : BitVec 2) (s : State) : Ans :=
  .next (s.laneMask d a b w m (fun x y => fpCmp fp16 (s.vEnv 0).daz c.toNat (fld x (16 * e.toNat) 16) (fld y (16 * e.toNat) 16)))
def execVselH (d a b : BitVec 6) (w : BitVec 2) (m : BitVec 3) (s : State) : Ans := .next (s.select d a b w m)

/-! ## BF16 (R147) -/

def execVaddB (d a b : BitVec 6) (w : BitVec 2) (m : BitVec 3) (r : BitVec 2) (s : State) : Ans :=
  .next (s.lane2 d a b w m (halves2 (fun x y => fpAdd bf16 (s.vEnv r) x y)))
def execVsubB (d a b : BitVec 6) (w : BitVec 2) (m : BitVec 3) (r : BitVec 2) (s : State) : Ans :=
  .next (s.lane2 d a b w m (halves2 (fun x y => fpSub bf16 (s.vEnv r) x y)))
def execVmulB (d a b : BitVec 6) (w : BitVec 2) (m : BitVec 3) (r : BitVec 2) (s : State) : Ans :=
  .next (s.lane2 d a b w m (halves2 (fun x y => fpMul bf16 (s.vEnv r) x y)))
def execVfmaB (d a b : BitVec 6) (w : BitVec 2) (m : BitVec 3) (r : BitVec 2) (s : State) : Ans :=
  .next (s.lane3 d a b w m (halves3 (fun x y z => fpFma bf16 (s.vEnv r) x y z)))
def execVfmsB (d a b : BitVec 6) (w : BitVec 2) (m : BitVec 3) (r : BitVec 2) (s : State) : Ans :=
  .next (s.lane3 d a b w m (halves3 (fun x y z => fpFms bf16 (s.vEnv r) x y z)))
def execVfnmaB (d a b : BitVec 6) (w : BitVec 2) (m : BitVec 3) (r : BitVec 2) (s : State) : Ans :=
  .next (s.lane3 d a b w m (halves3 (fun x y z => fpFnma bf16 (s.vEnv r) x y z)))
def execVminB (d a b : BitVec 6) (w : BitVec 2) (m : BitVec 3) (s : State) : Ans :=
  .next (s.lane2 d a b w m (halves2 (fun x y => fpMinMax bf16 (s.vEnv 0).daz false x y)))
def execVmaxB (d a b : BitVec 6) (w : BitVec 2) (m : BitVec 3) (s : State) : Ans :=
  .next (s.lane2 d a b w m (halves2 (fun x y => fpMinMax bf16 (s.vEnv 0).daz true x y)))
def execVabsB (d a : BitVec 6) (w : BitVec 2) (m : BitVec 3) (s : State) : Ans :=
  .next (s.lane1 d a w m (halves1 (fun x => fpSign bf16 (s.vEnv 0).daz true x)))
def execVnegB (d a : BitVec 6) (w : BitVec 2) (m : BitVec 3) (s : State) : Ans :=
  .next (s.lane1 d a w m (halves1 (fun x => fpSign bf16 (s.vEnv 0).daz false x)))
/-- [22] chooses the element that decides (R144). -/
def execVcmpB (e : BitVec 1) (d : BitVec 3) (a b : BitVec 6) (w : BitVec 2) (m : BitVec 3) (c : BitVec 2) (s : State) : Ans :=
  .next (s.laneMask d a b w m (fun x y => fpCmp bf16 (s.vEnv 0).daz c.toNat (fld x (16 * e.toNat) 16) (fld y (16 * e.toNat) 16)))
def execVselB (d a b : BitVec 6) (w : BitVec 2) (m : BitVec 3) (s : State) : Ans := .next (s.select d a b w m)

/-! ## Exact pairs and double words (R148-R153) -/

/-- A register field that must be even: 0x01 for a port code, 0x02 for an odd register (R140). -/
def evenBad (code : BitVec 6) : Bool := decide (48 ≤ code.toNat)
def evenOdd (code : BitVec 6) : Bool := code.getLsbD 0

/-- The second register of a pair. -/
def pairHi (code : BitVec 6) : BitVec 6 := code + 1

/-- Checks of an instruction that writes a pair and whose fields `evens` name pairs. -/
def State.pairIssue (s : State) (w : BitVec 2) (evens others : List (BitVec 6)) (f : State → State) : State :=
  if w = 3 ∨ evens.any evenBad then s.raiseIssue 0x01
  else if evens.any evenOdd ∨ (others ++ evens ++ evens.map pairHi).any (lentCode s.lat.iss) then s.raiseIssue 0x02
  else f s

/-- Write lanes of a pair. -/
def VRead.finishPair (r : VRead) (d : BitVec 6) (mask : VWord) (hi lo : VWord) (fl : Fl) : State :=
  let s := r.finish d mask hi fl
  s.wv (pairHi d) (blendBits mask lo (s.c.rv (pairHi d).toNat))

/-- The frame for an instruction whose lane result is a pair. -/
def State.pairOp (s : State) (d : BitVec 6) (evens : List (BitVec 6)) (srcs : List (Fin 3 × BitVec 6)) (w : BitVec 2) (m : BitVec 3)
    (op : VRead → Nat → Nat × Nat × Fl) : State :=
  s.pairIssue w (d :: evens) (srcs.map (·.2)) fun s =>
    match s.vRead srcs with
    | .error e => stopWith s e
    | .ok r =>
      let act := s.active w m
      let res := act.map fun l => (l, op r l)
      s.vFlags (res.map (fun x => (x.1, x.2.2.2)) ++ r.fls) fun fl =>
        r.finishPair d (lanesMask act) (lanesValue (res.map fun x => (x.1, x.2.1))) (lanesValue (res.map fun x => (x.1, x.2.2.1))) fl

def execVaddx (d a b : BitVec 6) (w : BitVec 2) (m : BitVec 3) (r : BitVec 2) (s : State) : Ans :=
  .next (s.pairOp d [] [(1, a), (2, b)] w m fun v l => twoSum r.toNat (lane (v.val 0) l) (lane (v.val 1) l))
def execVsubx (d a b : BitVec 6) (w : BitVec 2) (m : BitVec 3) (r : BitVec 2) (s : State) : Ans :=
  .next (s.pairOp d [] [(1, a), (2, b)] w m fun v l => twoSum r.toNat (lane (v.val 0) l) (fp32.flip (lane (v.val 1) l)))
def execVmulx (d a b : BitVec 6) (w : BitVec 2) (m : BitVec 3) (r : BitVec 2) (s : State) : Ans :=
  .next (s.pairOp d [] [(1, a), (2, b)] w m fun v l => twoProduct r.toNat (lane (v.val 0) l) (lane (v.val 1) l))

/-- Single steps in a mode, without ftz and daz. -/
def stepEnv (r : Mode) : FpEnv := { mode := r, ftz := false, daz := false }
def dAdd (r : Mode) (a b : Nat) : Nat × Fl := fpAdd fp32 (stepEnv r) a b
def dSub (r : Mode) (a b : Nat) : Nat × Fl := fpSub fp32 (stepEnv r) a b

/-- Components that signal set nv whatever the steps read (R153). -/
def signalling (l : List Nat) : Fl := snanFlag (l.map val32)

/-- R153 around a sequence: its leading result with its flags, the input components, and the rest of the steps. -/
def dwResult (lead : Nat × Fl) (inputs : List Nat) (steps : Nat × Nat × Fl) : Nat × Nat × Fl :=
  let sg := signalling inputs
  if special32 lead.1 then (lead.1, fp32.nan, lead.2 ||| sg)
  else if inputs.any special32 then (fp32.nan, fp32.nan, lead.2 ||| steps.2.2 ||| sg)
  else
    let fl := lead.2 ||| steps.2.2 ||| sg
    if special32 steps.1 then (steps.1, fp32.nan, fl)
    else (steps.1, if (val32 steps.2.1).isZero then 0 else steps.2.1, fl)

/-- `dwadd` of (xh, xl) and (yh, yl) (R149). -/
def dwAdd (r : Mode) (xh xl yh yl : Nat) : Nat × Nat × Fl :=
  let s := twoSum r xh yh
  let t := twoSum r xl yl
  let c := dAdd r s.2.1 t.1
  let v := fastTwoSum r s.1 c.1
  let w := dAdd r t.2.1 v.2.1
  let z := fastTwoSum r v.1 w.1
  dwResult (s.1, s.2.2) [xh, xl, yh, yl] (z.1, z.2.1, t.2.2 ||| c.2 ||| fastFl r s.1 c.1 ||| w.2 ||| fastFl r v.1 w.1)
where
  /-- Flags of the three roundings of FastTwoSum. -/
  fastFl (r : Mode) (a b : Nat) : Fl :=
    let s := dAdd r a b
    let z := dSub r s.1 a
    let e := dSub r b z.1
    s.2 ||| z.2 ||| e.2

def fastFlags (r : Mode) (a b : Nat) : Fl := dwAdd.fastFl r a b

/-- `dwmul` (R150). -/
def dwMul (r : Mode) (xh xl yh yl : Nat) : Nat × Nat × Fl :=
  let c := twoProduct r xh yh
  let t0 := fpMul fp32 (stepEnv r) xl yl
  let t1 := fpFma fp32 (stepEnv r) xh yl t0.1
  let c2 := fpFma fp32 (stepEnv r) xl yh t1.1
  let c3 := dAdd r c.2.1 c2.1
  let z := fastTwoSum r c.1 c3.1
  dwResult (c.1, c.2.2) [xh, xl, yh, yl] (z.1, z.2.1, t0.2 ||| t1.2 ||| c2.2 ||| c3.2 ||| fastFlags r c.1 c3.1)

/-- `dwdiv` (R151). -/
def dwDiv (r : Mode) (xh xl yh yl : Nat) : Nat × Nat × Fl :=
  let q := fpDiv fp32 (stepEnv r) xh yh
  let p := twoProduct r q.1 yh
  let r1 := dSub r xh p.1
  let r2 := dSub r r1.1 p.2.1
  let r3 := dAdd r r2.1 xl
  let r4 := fpFma fp32 (stepEnv r) (fp32.flip q.1) yl r3.1
  let c := fpDiv fp32 (stepEnv r) r4.1 yh
  let z := fastTwoSum r q.1 c.1
  dwResult q [xh, xl, yh, yl] (z.1, z.2.1, p.2.2 ||| r1.2 ||| r2.2 ||| r3.2 ||| r4.2 ||| c.2 ||| fastFlags r q.1 c.1)

/-- `dwnorm` (R152). -/
def dwNorm (r : Mode) (xh xl : Nat) : Nat × Nat × Fl :=
  let s := twoSum r xh xl
  dwResult (s.1, s.2.2) [xh, xl] (s.1, s.2.1, 0)

/-- A double-word instruction of two sources. -/
def State.dw2 (s : State) (d a b : BitVec 6) (w : BitVec 2) (m : BitVec 3) (f : Nat → Nat → Nat → Nat → Nat × Nat × Fl) : State :=
  s.pairOp d [a, b] [(1, a), (2, b)] w m fun v l =>
    f (lane (v.val 0) l) (lane (s.c.rv (pairHi a).toNat) l) (lane (v.val 1) l) (lane (s.c.rv (pairHi b).toNat) l)

def execDwadd (d a b : BitVec 6) (w : BitVec 2) (m : BitVec 3) (r : BitVec 2) (s : State) : Ans :=
  .next (s.dw2 d a b w m (dwAdd r.toNat))
def execDwsub (d a b : BitVec 6) (w : BitVec 2) (m : BitVec 3) (r : BitVec 2) (s : State) : Ans :=
  .next (s.dw2 d a b w m fun xh xl yh yl => dwAdd r.toNat xh xl (fp32.flip yh) (fp32.flip yl))
def execDwmul (d a b : BitVec 6) (w : BitVec 2) (m : BitVec 3) (r : BitVec 2) (s : State) : Ans :=
  .next (s.dw2 d a b w m (dwMul r.toNat))
def execDwdiv (d a b : BitVec 6) (w : BitVec 2) (m : BitVec 3) (r : BitVec 2) (s : State) : Ans :=
  .next (s.dw2 d a b w m (dwDiv r.toNat))
def execDwnorm (d a : BitVec 6) (w : BitVec 2) (m : BitVec 3) (r : BitVec 2) (s : State) : Ans :=
  .next (s.pairOp d [a] [(1, a)] w m fun v l => dwNorm r.toNat (lane (v.val 0) l) (lane (s.c.rv (pairHi a).toNat) l))

/-! ## Reductions (R154-R156) -/

/-- One level of the tree: adjacent results combined. -/
def treeLevel {α : Type} (f : α → α → α) : List α → List α
  | a :: b :: t => f a b :: treeLevel f t
  | l => l

/-- `k` levels of the tree over 2^k leaves. -/
def tree {α : Type} (f : α → α → α) : Nat → List α → List α
  | 0, l => l
  | k + 1, l => tree f k (treeLevel f l)

/-- Levels of the tree of a width: 5, 6 or 7. -/
def levelsOf (w : BitVec 2) : Nat := 5 + w.toNat

/-- The frame of a reduction: the leaves of lanes 0 to N - 1, an inactive lane with the value `idle`; the result goes to
lane 0 whether or not a lane is active. Flags of the tree count as lane 0's in sr.einfo (03 R95; log 24). -/
def State.reduction (s : State) (d a : BitVec 6) (w : BitVec 2) (m : BitVec 3) (idle : Nat) (f : List Nat → Nat × Fl) : State :=
  s.vIssue (w == 3 || decide (48 ≤ d.toNat)) [d, a] fun s =>
    match s.vRead [(1, a)] with
    | .error e => stopWith s e
    | .ok r =>
      let leaves := (List.range (lanesOf w)).map fun l => if (s.c.rvm m).getLsbD l then lane (r.val 0) l else idle
      let y := f leaves
      s.vFlags ((0, y.2) :: r.fls) fun fl => r.finish d (lanesMask [0]) (lanesValue [(0, y.1)]) fl

/-- A tree of operations on patterns, with the OR of their flags. -/
def flagTree (f : Nat → Nat → Nat × Fl) (k : Nat) (l : List Nat) : Nat × Fl :=
  (tree (fun (a b : Nat × Fl) => let y := f a.1 b.1; (y.1, a.2 ||| b.2 ||| y.2)) k (l.map fun x => (x, 0))).headD (0, 0)

def execVsum (d a : BitVec 6) (w : BitVec 2) (m : BitVec 3) (r : BitVec 2) (s : State) : Ans :=
  .next (s.reduction d a w m 0 fun l =>
    flagTree (fpAdd fp32 { s.vEnv r with daz := false }) (levelsOf w) (l.map (fp32.input (s.vEnv r).daz)))
def execVmaxr (d a : BitVec 6) (w : BitVec 2) (m : BitVec 3) (s : State) : Ans :=
  .next (s.reduction d a w m (fp32.infBits true) fun l =>
    flagTree (fpMinMax fp32 false true) (levelsOf w) (l.map (fp32.input (s.vEnv 0).daz)))
def execVminr (d a : BitVec 6) (w : BitVec 2) (m : BitVec 3) (s : State) : Ans :=
  .next (s.reduction d a w m (fp32.infBits false) fun l =>
    flagTree (fpMinMax fp32 false false) (levelsOf w) (l.map (fp32.input (s.vEnv 0).daz)))

/-- A node of `vsumx`. -/
def sumxNode (r : Mode) (a b : Nat × Nat × Fl) : Nat × Nat × Fl :=
  let t := twoSum r a.1 b.1
  let e := dAdd r a.2.1 b.2.1
  let u := dAdd r e.1 t.2.1
  (t.1, u.1, a.2.2 ||| b.2.2 ||| t.2.2 ||| e.2 ||| u.2)

/-- The listing of R156. -/
def sumx (r : Mode) (k : Nat) (l : List Nat) : Nat × Nat × Fl :=
  let y := (tree (sumxNode r) k (l.map fun x => (x, 0, 0))).headD (0, 0, 0)
  if special32 y.1 then (y.1, fp32.nan, y.2.2)
  else
    let z := fastTwoSum r y.1 y.2.1
    (z.1, z.2.1, y.2.2 ||| fastFlags r y.1 y.2.1)

def execVsumx (d a : BitVec 6) (w : BitVec 2) (m : BitVec 3) (r : BitVec 2) (s : State) : Ans :=
  .next (s.pairIssue w [d] [a] fun s =>
    match s.vRead [(1, a)] with
    | .error e => stopWith s e
    | .ok v =>
      let leaves := (List.range (lanesOf w)).map fun l => if (s.c.rvm m).getLsbD l then lane (v.val 0) l else 0
      let y := sumx r.toNat (levelsOf w) leaves
      s.vFlags ((0, y.2.2) :: v.fls) fun fl => v.finishPair d (lanesMask [0]) (lanesValue [(0, y.1)]) (lanesValue [(0, y.2.1)]) fl)

end Sys2Proof.Machine
end

