-- ==== Sys2Proof/Machine/Engines.lean ====
section
/-! DEFINITION. Events of the slots and of the core's engines: retries, traps at a boundary, returns of loads and stores, tile operations, transfers, reductions, atomics and barriers. An event acts on what State.arg holds (log 13) and takes no cycle. -/

namespace Sys2Proof.Machine

/-- The operation in hand that the event is about. -/
def State.eventOut (s : State) : Option Out :=
  match s.arg with
  | .op id => s.out? id
  | _ => none

/-! ## Slots and boundaries -/

/-- The head of a slot's queue tries again (02 R48, R49): it is latched, and executes next. -/
def execParkedSlotRetry (s : State) : Ans :=
  match s.arg with
  | .slot 1 => .next { s with run := s.q.vq.head?, q := { s.q with vTried := true } }
  | .slot 2 => .next { s with run := s.q.mq.head?, q := { s.q with mTried := true } }
  | _ => .next s

/-- Trap 0x1A on the bundle of an operation that has waited too long (02 R51, R52, 10 R331); a request of `bob.wait` is
abandoned. -/
def execParkedTooLong (s : State) : Ans :=
  match s.arg with
  | .slot k =>
    match (if k = 1 then s.q.vq.head? else if k = 2 then s.q.mq.head? else s.q.ops.find? (·.slot == k)) with
    | none => .next s
    | some o =>
      let t : TrapRec :=
        { code := 0x1A, info := BitVec.ofNat 64 (k.toNat + s.core.parkmax.toNat * 2 ^ 32), slot := k, iss := false, evt := false,
          now := false, seq := o.seq }
      .next { (if k = 1 ∨ k = 2 then s.unparked k else s) with
        q := { s.q with
          trap := mergeTrap s.q.trap t
          vq := if k = 1 then s.q.vq.tail else s.q.vq
          mq := if k = 2 then s.q.mq.tail else s.q.mq
          vSince := if k = 1 then none else s.q.vSince
          mSince := if k = 2 then none else s.q.mSince
          ops := s.q.ops.filter (· != o)
          wait := if k = 1 ∨ k = 2 then s.q.wait else .none }
        outs := if k = 1 ∨ k = 2 then s.outs else dropBobWait s.outs s.q.wait }
  | _ => .next s

/-- The trap that is due is taken (12 R372); where none is, the oldest that an engine left pending (log 42). -/
def execTrapEntry (s : State) : Ans :=
  match s.q.trap with
  | some t => .next (s.takeTrap t)
  | none => match s.q.more with
    | t :: l => .next (({ s with q := { s.q with more := l } }).takeTrap t)
    | [] => .next s

/-- The pending trap 0x13 is taken (03 R90). -/
def execOutlierListFull (s : State) : Ans :=
  match s.q.olfTrap with
  | some i =>
    .next (({ s with q := { s.q with olfTrap := none } }).enterTrap
      { code := 0x13, info := i, slot := 0, iss := false, evt := true, now := true })
  | none => .next s

/-! ## Loads and stores (08 R235-R237) -/

/-- What an acquire ends with when the request it belongs to has returned (10 R326). -/
def State.acquired (s : State) (o : Out) : State :=
  let u := s.settleSeq o fun q => if q.acq = some o.id then { q with acq := none } else q
  if o.bank = s.core.bank ∧ s.q.acq = some o.id then u.scClear else u

/-- A trap that an engine reports to the bead of an operation is due at its next boundary. -/
def State.pend (s : State) (o : Out) (t : TrapRec) : State := s.settleSeq o (·.pendNow t)

/-- The write of an answer lands; that of a request of path A, which cannot be sent again, is final (12 R386). -/
def State.landAnswer (s : State) (o : Out) (w : RegWrite) (flags : DWord) : State :=
  if o.path = .a then (s.landFinal o w).settle o (·.orFlags flags.toNat)
  else (s.land o.bank o.seq w).onBank o.bank fun c => c.orFlags flags.toNat

/-- The bytes of a line with the writes of this core to it that have not performed merged in (08 R233; 10 R307). -/
def State.lineBytes (s : State) (line home : Nat) : List Byte :=
  let ps := s.outs.flatMap fun o => match o.work with
    | .gstore ps _ => ps
    | _ => []
  (List.range 64).map fun i => (ps.reverse.findSome? (·.at? (line + i))).getD (s.mem.byte (home + i))

/-- A load performs (10 R305): its lines pass through their home ports, and a scalar load that missed brings its line, when every
granule of it is good, into the scalar cache. -/
def State.performLoad (s : State) (o : Out) (w : LoadForm) (ranges : List (Nat × Nat)) (held : List (Option Byte)) (cached : Bool)
    (fill : Option (Nat × Nat)) : State :=
  let u := if o.path = .l && !(held.all (·.isSome) && !held.isEmpty) then ranges.foldl (fun s r => s.portRead r.1 r.2 cached) s else s
  match fill, w with
  | some (line, home), .x _ _ =>
    let r := u.mem.checks u.fresh (granules home 64)
    let u := { u with mem := r.1, fresh := u.fresh + 1 }
    if r.2.isEmpty && o.bank == u.core.bank then { u with core := { u.core with scache := scFill u.core.scache ⟨line, u.lineBytes line home⟩ } } else u
  | _, _ => u

/-- A load or an atomic's answer returns (R237). What it consumed rewinds its segment or traps (R235, 11 R360). -/
def execLoadReturn (s : State) : Ans :=
  match s.eventOut with
  | some o => match o.work with
    | .load w bad info flags =>
      let s := s.drop o.id
      if bad then
        if (s.bankCtx o.bank).segOpen then .next (s.onBankSeq o.bank fun q => { q with rewind := true })
        else .next ((s.acquired o).pend o { code := 0x10, info := info, slot := 3, iss := false, evt := false, now := true })
      else
        .next ((s.landAnswer o w flags).acquired o)
    | .fetch w ranges held cached fill =>
      let u := s.performLoad o w ranges held cached fill
      let u := if ranges.any fun r => decide (r.1 < 2 ^ 64) then u.sampleAll 2 (s.now - o.issued : Nat) else u
      if s.loadFree o then .next (((u.drop o.id).land o.bank o.seq (s.fetched o w ranges held)).acquired o)
      else .next (u.again o.id s.now (.load (s.fetched o w ranges held) false 0 0))
    | _ => .next s
  | none => .next s

/-- A crown or tower write becomes final after the strike hold (R236, 12 R384). -/
def execStrikeWindow (s : State) : Ans :=
  match s.eventOut with
  | some o => match o.work with
    | .write ps map tag full => .next (((s.commit o.bank map tag ps).feDone [] full).drop o.id)
    | _ => .next s
  | none => .next s

/-- Bits still to change of a `tsetf` or `tsete` (10 R334): sixteen granules at a time, and st falls with the last. -/
def State.tsetStep (s : State) (o : Out) (gs : List Nat) (full : Bool) : State :=
  if gs.isEmpty then s.drop o.id
  else if o.due = 0 then s.again o.id (s.coreAfter 3) o.work
  else
    let now := gs.take 16
    let s := if full then s.feDone [] now else s.feDone now []
    if (gs.drop 16).isEmpty then s.drop o.id else s.again o.id (s.coreAfter 1) (.tset (gs.drop 16) full)

/-- Lines of a `bcfl` that have reached their stacks; it ends with the last report (08 R263). -/
def State.bcflStep (s : State) (o : Out) (ls : List (Nat × Nat)) (inv : Bool) (last : Nat) : State :=
  let now := ls.filter fun (l : Nat × Nat) => decide (l.2 ≤ s.now)
  let rest := ls.filter fun (l : Nat × Nat) => decide (s.now < l.2)
  let s := { s with hub := now.foldl (fun (k : Hub) (l : Nat × Nat) => k.bcFlush l.1 inv) s.hub }
  if rest.isEmpty && decide (last ≤ s.now) then s.drop o.id
  else s.again o.id ((rest.map (·.2)).foldl min last) (.bcfl rest inv last)

/-- A store, `bcfl`, `hdead`, `tsetf` or `tsete` performs (R236, 09 R303, 10 R334), or a record leaves the core (12 R389). -/
def execStorePerformed (s : State) : Ans :=
  match s.eventOut with
  | some o => match o.work with
    | .gstore ps _ => .next (((s.portWrite ps).commit o.bank 0 false ps).drop o.id)
    | .tset gs full => .next (s.tsetStep o gs full)
    | .hdead us =>
      .next ({ s with
        mem := us.foldl Mem.kill s.mem
        hub := { s.hub with bcache := s.hub.bcache.filter fun e => !us.any fun u => decide (u ≤ e.line ∧ e.line < u + 1024) } }.drop o.id)
    | .bcfl ls inv last => .next (s.bcflStep o ls inv last)
    | .notice type code bead addr info => .next ((s.drop o.id).post type code s.core.phys bead addr info)
    | _ => .next s
  | none => .next s

/-! ## The matrix engine (06 R180-R186, 07 R201-R206) -/

/-- The next queued tile operation starts. -/
def execTileOperationStart (s : State) : Ans :=
  match s.eventOut with
  | some o => match o.work with
    | .tile op w => .next (s.tileStart o op w)
    | _ => .next s
  | none => .next s

/-- A started tile operation makes its next step, stops at a boundary or completes. -/
def execTileOperationCompletion (s : State) : Ans :=
  match s.eventOut with
  | some o => match o.work with
    | .tile op w => .next (s.tileGo o op w)
    | _ => .next s
  | none => .next s

/-! ## Copies, refills, shifts (09 R271-R277, R288, R290) -/

/-- The engine arrival of a copy with the barrier form (R274, 10 R330); one whose object cannot be reached is an orphan
(log 26). It is an access of the copy's bead and bundle (10 R315, R330). -/
def State.engineArrival (s : State) (out : Out) (op : Slotted) : State :=
  let lent := ((op.ext.map fun (e : Ext) => e.t).getD 0).toNat
  let h := op.iss.rh (BitVec.ofNat 4 (lent % 16))
  let o := (op.iss.ra (BitVec.ofNat 4 (lent / 16))).toInt
  match s.hub.globalElem h o 16 16 with
  | .ok ge =>
    (s.sendAtom .none ge { instr := .bobArr 0 0 0, addr := ge.1, s := 0, d := 0, engine := true, waiting := false }).onLast fun x =>
      { x with bank := out.bank, seq := out.seq }
  | .error f => s.orphan ((f.at?.getD 0)) true

/-- Fall-back reads of another package that its access-control table turns away (R278); the table belongs to that
package, and its answer is free (log 10). -/
def refusedFallBack (gs : List Nat) : Bool :=
  gs.any fun g => match remotePackage g with
    | some (p, true) => !Config.remoteAdmits p (fld g 0 46)
    | _ => false

/-- The bytes of a transfer, whose data phase has ended in its due cycle, are written; they become final when the strike hold ends (R265, 12
R384), those of a replicated extent a round trip later (10 R316). -/
def State.written (s : State) (o : Out) (ps : List Part) (cbmap : DWord) (poison : List Nat) (r : Raised) (status : DWord) : State :=
  s.again o.id (o.due + Config.strikeHold + s.tripOf ps) (o.work.withStage (.landing ps cbmap poison r.fl r.lost status))

/-- What a transfer has written becomes final, with its poison and its status bits. -/
def State.landed (s : State) (o : Out) (ps : List Part) (cbmap : DWord) (poison : List Nat) (status : DWord) : State :=
  ((s.deposit o.bank cbmap ps).poisonAll poison).status o status

/-- The data phase of a copy ends (R271, R275, R278). -/
def State.copyData (s : State) (o : Out) (op : Slotted) (dmap smap : SideMap) (pair : BitVec 1024) (h m : BitVec 4) : State :=
  let side := (copySides op pair h m).2
  let globals := if hClass side.h ≤ 2 then [] else (List.range side.rg.total).map fun e => (side.globalPlace (side.rg.fmt op.iss side.h) smap e).2.1
  if refusedFallBack globals then s.written o [] dmap.strips [] {} 0x200
  else
    let r := s.copyMove o.bank o.id op pair h m dmap smap
    r.1.written o (runsOf r.2.1) dmap.strips r.2.2.2 r.2.2.1 (if r.2.2.2.isEmpty then 0 else 0x400)

/-- A copy completes: its bytes are final, then its flags, its full/empty changes and its barrier arrival (R271, R274, R275). -/
def State.copyDone (s : State) (o : Out) (op : Slotted) (dmap smap : SideMap) (pair : BitVec 1024) (ps : List Part) (cbmap : DWord)
    (poison : List Nat) (r : Raised) (status : DWord) : State :=
  match op.instr with
  | .copy _ h m _ _ fs _ ft bo =>
    let places := s.copyPlaces op pair h m dmap smap
    let sides := copySides op pair h m
    let strip := if sides.1.rg.cf then some (sides.1.rg.strip op.iss sides.1.h) else none
    let s := (s.landed o ps cbmap poison status).settleRaised o op.iss.fpcr (olfInfo 1 strip) r
    let s := s.feDone (if ft = 1 then crownPages places.2.1 else []) (if fs = 1 then crownPages places.1.1 else [])
    let chain (x : Side) : Bool := hClass x.h ≤ 2 && s.hub.ownerOf x.h != some s.core.phys
    let s := if chain sides.1 || chain sides.2 then s.sampleAll 8 0 else s
    (if bo = 1 then s.engineArrival o op else s).leaveEngine o
  | _ => s.drop o.id

/-- A transfer of another core completes with data for this package (R272-R275, R288, R290; 13 R418, R422): its pieces and its poison are
final, then its full/empty changes and its barrier arrival, which the home engine performs (log 39). -/
def State.receive (s : State) (x : Incoming) : State :=
  let ps := s.spread (x.pieces.map fun (p : Nat × List Byte) => { addr := p.1, bytes := p.2 })
  let s := s.portWrite ps
  let r := s.mem.puts s.fresh false ps
  let s := r.2.foldl (fun s g => s.post 3 0 0xFFFF 0 (BitVec.ofNat 64 g) (s.dropWord s.c.cbmap g)) { s with mem := r.1, fresh := s.fresh + 1 }
  let s := (s.poisonAll x.poison).feDone x.empty x.full
  match x.arrival with
  | some g => match bobArrive (s.bobAt g) with
    | some w => s.engineStore s.core.bank g 16 w
    | none => s
  | none => s

/-- An event of a transfer that is none of this core's. -/
def State.others (s : State) : State :=
  match s.arg with
  | .incoming x => s.receive x
  | _ => s

/-- A copy begins, ends its data phase, or completes (R266). -/
def execCopyCompletion (s : State) : Ans :=
  match s.eventOut with
  | some o => match o.work with
    | .copy op dmap smap pair b => match b.stage, op.instr with
      | .queued, _ => .next (s.beginData o)
      | .moving _, .copy _ h m _ _ _ _ _ _ => .next (s.copyData o op dmap smap pair h m)
      | .moving _, _ => .next (s.drop o.id)
      | .landing ps map poison fl lost st, _ => .next (s.copyDone o op dmap smap pair ps map poison { fl := fl, lost := lost } st)
    | _ => .next s
  | none => .next s.others

/-- A broadcast refill begins, ends its data phase, or its last unit is final (R288); bad source granules are forwarded as poison
(log 18). -/
def execRefillCompletion (s : State) : Ans :=
  match s.eventOut with
  | some o => match o.work with
    | .refill src len t off ranks b => match b.stage with
      | .queued => .next (s.beginData o)
      | .moving _ =>
        let ps := s.refillParts src len t off ranks
        let e := s.mem.checks s.fresh (granules src len)
        .next (({ s with mem := e.1, fresh := s.fresh + 1 }.portFetch src len).written o ps 0 (refillPoison src e.2 ps) {} 0)
      | .landing ps map poison _ _ st => .next ((s.landed o ps map poison st).leaveEngine o)
    | _ => .next s
  | none => .next s.others

/-- Pieces and poisoned granules that a shift in hand writes (R289, Table 9-8). It reads what its bead has written on path K, final or not (10
R307). -/
def State.shiftParts (s : State) (o : Out) (op : Slotted) (dir mode : BitVec 2) (lands : List Nat) (zeros : Bool) :
    State × List Part × List Nat :=
  let src := shiftRange op false
  let dst := (shiftRange op true).1
  (List.range 16).foldl (fun (r : State × List Part × List Nat) c =>
    let (c', crossed) := stepCell c dir
    let at0 := r.1.towerAt c src.1
    let bs := (List.range src.2).map fun i => r.1.byteFor o (at0 + i)
    let gs := granules at0 src.2
    let e := r.1.mem.checks r.1.fresh (gs.filter fun g => (r.1.copyPoison o.id g).isNone)
    let bad := gs.filter fun g => (r.1.copyPoison o.id g).getD (e.2.contains g)
    let s1 := { r.1 with mem := e.1, fresh := r.1.fresh + 1 }
    let own := s1.towerAt c' dst
    let goal := if !crossed || mode == 1 then some own
      else if mode == 2 then lands.head?.map fun p => towerAddr p (s1.towerOn p c') dst
      else none
    let sent := goal.toList.map fun a => ({ addr := a, bytes := bs } : Part)
    let zero := if crossed && zeros && mode != 1 then [({ addr := own, bytes := List.replicate src.2 0 } : Part)] else []
    (s1, r.2.1 ++ sent ++ zero, r.2.2 ++ goal.toList.flatMap fun a => bad.map fun g => a + (g - at0))) (s, [], [])

/-- The drops that a shift adds to the status word (Table 9-7). -/
def Ctx.addDrops (c : Ctx) (n : Nat) : Ctx := { c with xstat := putField c.xstat 16 8 (min 255 (fld c.xstat.toNat 16 8 + n)) }

/-- A shift's data phase ends, or its hold has ended too (R291). -/
def execShiftCompletion (s : State) : Ans :=
  match s.eventOut with
  | some o => match o.work with
    | .shift op dropped lands zeros b => match b.stage, op.instr with
      | .queued, _ => .next (s.beginData o)
      | .moving _, .shift r m _ _ _ _ =>
        let p := s.shiftParts o op r m lands zeros
        .next (p.1.written o p.2.1 0 p.2.2 {} 0)
      | .moving _, _ => .next (s.drop o.id)
      | .landing ps map poison _ _ st, _ =>
        .next (((s.landed o ps map poison st).settle o (·.addDrops dropped)).leaveEngine o)
    | _ => .next s
  | none => .next s.others

/-! ## `reduce` (09 R293) -/

/-- The clasp of a `reduce` in hand, that of its bead when its bundle issued (04 R125). -/
def Out.clasp (o : Out) : Option (BitVec 20) :=
  match o.work with
  | .reduce op _ => some op.iss.claspNo
  | _ => none

/-- Operations of a clasp's reductions in hand on this core, the oldest of each bank, with their ranks. -/
def State.reducers (s : State) (clasp : BitVec 20) : List (Out × Nat × List Word) :=
  [false, true].filterMap fun b =>
    (s.outs.find? fun o => o.bank == b && o.clasp == some clasp).bind fun o => match o.work with
      | .reduce op vals => match op.instr with
        | .reduce _ _ _ _ k => some (o, fld (op.iss.ra k).toNat 16 16, vals)
        | _ => none
      | _ => none

/-- A round's contributions with those of this core. -/
def State.contributions (s : State) (clasp : BitVec 20) (others : List Contribution) : List Contribution :=
  others ++ (s.reducers clasp).map fun r => { package := Config.packageNo, rank := r.2.1, values := r.2.2 }

/-- Every member on this package and every other package of the set has contributed. -/
def Clasp.roundFull (c : Clasp) (l : List Contribution) : Bool :=
  decide (c.ranks.length ≤ (l.filter (·.package == Config.packageNo)).length) && c.packages.all fun p => l.any (·.package == p)

def insertContribution (x : Contribution) : List Contribution → List Contribution
  | [] => [x]
  | y :: t => if x.package < y.package ∨ (x.package = y.package ∧ x.rank < y.rank) then x :: y :: t else y :: insertContribution x t

/-- The sum of one lane: the packages in increasing order, the ranks of each in order. -/
def roundLane (l : List Contribution) (lane : Nat) : Nat × Nat × Fl :=
  let word (c : Contribution) : Nat := ((c.values[lane]?).getD 0).toNat
  let add (p q : Nat × Nat × Fl) : Nat × Nat × Fl :=
    let z := dwAdd 0 p.1 p.2.1 q.1 q.2.1
    (z.1, z.2.1, p.2.2 ||| q.2.2 ||| z.2.2)
  let sum (cs : List Contribution) : Nat × Nat × Fl :=
    match cs with
    | [] => (0, 0, 0)
    | c :: t => t.foldl (fun p c => add p (word c, 0, 0)) (word c, 0, 0)
  match (l.map (·.package)).eraseDups.map fun q => sum (l.filter (·.package == q)) with
  | [] => (0, 0, 0)
  | z :: t => t.foldl add z

/-- Whether a round fails: contributions of unequal length, or two with one rank on one package. -/
def roundFails (l : List Contribution) : Bool :=
  let n := ((l.head?.map (·.values.length)).getD 0)
  (l.any fun c => c.values.length != n) || decide ((l.map fun c => (c.package, c.rank)).eraseDups.length < l.length)

/-- The answer to one member of this core: the pair in crown and flags, where the round does not fail. -/
def State.roundAnswer (s : State) (o : Out) (fails : Bool) (z : List (Nat × Nat × Fl)) : State :=
  if fails then s.leaveEngine o
  else match o.work with
  | .reduce op _ => match op.instr with
    | .reduce _ h _ ro _ =>
      let la := hBase (op.iss.rh h) + (op.iss.ra ro).toNat
      let part (off : Nat) (ws : List Nat) : Part :=
        { addr := crownThrough op.iss.cbmap s.core.phys (la + off), bytes := wordBytes ws }
      ((s.commit o.bank op.iss.cbmap false [part 0 (z.map (·.1)), part (4 * z.length) (z.map (·.2.1))]).settle o
        fun c => c.orFlags (z.foldl (fun f x => f ||| x.2.2) 0)).leaveEngine o
    | _ => s.leaveEngine o
  | _ => s.leaveEngine o

/-- The hub combines a round and answers its members; a round that lacks a contribution waits. -/
def execReduceRound (s : State) : Ans :=
  match s.arg with
  | .reduce n others => match s.hub.clasp n with
    | some c =>
      let l := s.contributions n others
      if !c.roundFull l then .next s else
      let sorted := l.foldr insertContribution []
      let lanes := ((l.head?.map (·.values.length)).getD 0)
      let z := (List.range lanes).map (roundLane sorted)
      let fails := roundFails l
      let rs := s.reducers n
      let s := { s with hub := s.hub.setClasp { c with round := c.round + 1 } }
      let s := rs.foldl (fun (s : State) (r : Out × Nat × List Word) => s.roundAnswer r.1 fails z) s
      .next (if fails then s.failMembers n (c.round + 1) else s)
    | none => .next s
  | _ => .next s

/-! ## Atomic engines and barriers (10 R323-R331, 11 R355, R368) -/

/-- The home engine goes on with a request that has reached it. -/
def execAtomicEngineServe (s : State) : Ans :=
  match s.eventOut with
  | some o => match o.work with
    | .atom r => .next (if r.waiting then s else s.serveStep o r)
    | _ => .next s
  | none => .next s

/-- The barrier of a suspended `cbar` is over: its bead is ready, and cont(d-1) takes the cycle when d is 1 to 4; where it was pre-empted,
its `cbar` replays and writes x(d) (R368). -/
def Bead.barrierOver (b : Bead) (word : DWord) (d now : Nat) : Bead :=
  if b.gang && b.ready.isNone && rWord1 b.record == word then
    match b.saved with
    | some (c, q, os) => { b with ready := some now, gang := false, saved := some (c, { q with cbarRel := some now }, os) }
    | none =>
    { b with ready := some now, gang := false,
             record := if 1 ≤ d ∧ d ≤ 4 then putField b.record (192 + 64 * (d - 1)) 64 now else b.record }
  else b

/-- The engine answers a waiting request: `bob.wait`, or a `cbar` on a fallback object, whose bead is still in its bank
or has suspended; the answer takes 12 core cycles to reach the core (10 R327, 11 R355). -/
def execBobWaitAnswer (s : State) : Ans :=
  match s.eventOut with
  | some o => match o.work with
    | .atom r => match r.instr with
      | .bobWait _ _ _ _ => .next (s.atomReply o r.instr r.info false (bobAnswer (s.bobAt r.addr)) 0)
      | .cbar d =>
        if r.phase ≠ 3 then .next (s.again o.id (s.coreAfter 12) (.atom { r with phase := 3 })) else
        let s := s.drop o.id
        if !r.engine then .next (s.settleBank o.bank id fun q => { q with cbarRel := some s.now })
        else .next ({ s with hub := { s.hub with beads := s.hub.beads.map fun b => Bead.barrierOver b r.d d.toNat s.now } }.noteReady)
      | _ => .next s
    | _ => .next s
  | none => .next s

/-- Whether a bank's bead waits on a clasp's channel. -/
def State.waitsOn (s : State) (bank : Bool) (n : BitVec 20) : Bool :=
  (s.bankCtx bank).claspNo == n && (if bank = s.core.bank then s.q else s.oq).cbarAt.isSome &&
    (if bank = s.core.bank then s.q else s.oq).cbarRel.isNone

/-- A bead that was evicted while it waited on a clasp's channel is ready once the barrier has released (R368). -/
def Bead.released (b : Bead) (n : BitVec 20) (rel now : Nat) : Bead :=
  match b.saved with
  | some (c, q, os) =>
    if c.claspNo = n ∧ q.cbarAt.isSome ∧ q.cbarRel.isNone then
      { b with ready := some now, gang := false, saved := some (c, { q with cbarRel := some rel }, os) }
    else b
  | none => b

/-- Members of a clasp's barrier arrive elsewhere, or its release reaches the waiting members of this core. -/
def execBarrierRelease (s : State) : Ans :=
  match s.arg with
  | .barrier n arrivals => match s.hub.clasp n with
    | some c =>
      if !arrivals.isEmpty then
        let c := { c with arrived := arrivals.foldl setAdd c.arrived }
        .next { s with hub := s.hub.setClasp (if c.ranks.all c.arrived.contains then { c with released := some (s.now + 24) } else c) }
      else match c.released with
        | some t =>
          let k := s.hub.setClasp { c with arrived := [], released := none }
          let s := { s with hub := { k with beads := k.beads.map fun b => b.released n t s.now } }
          let free (s : State) (b : Bool) : State :=
            if s.waitsOn b n then s.settleBank b id fun q => { q with cbarRel := some t } else s
          .next (free (free s false) true)
        | none => .next s
    | none => .next s
  | _ => .next s

/-- A `cbar` of a clasp without SYNC that has waited sr.sleepmax cycles becomes a suspension point. -/
def execCbarSuspend (s : State) : Ans :=
  let r := s.writeRecord 1 s.nextPc 0 fun b => { b with gang := true }
  .next (if s.hub.waitSize ≤ s.hub.beads.length then r else { r with outs := r.outs.map fun o => if o.bank == s.core.bank then o.leftToHub else o })

/-- sr.cycle reaches the wake cycle of a `sleepu` (10 R321): its bead can go on. -/
def execSleepuWake (s : State) : Ans :=
  let wake (q : Seq) : Seq :=
    match q.wait with
    | .sleep w => if w ≤ s.now then { q with eligible := true } else q
    | _ => q
  .next { s with q := wake s.q, oq := wake s.oq }

end Sys2Proof.Machine
end

