-- ==== Sys2Proof/Machine/Pace.lean ====
section
/-! DEFINITION. Pace: the latencies and units of slots C, V and T, and the register banks and operand latches of slot V (04 R101, R103; 05 R133-R137). They delay the issue of a bundle and change no value. -/

namespace Sys2Proof.Machine

/-! ## Predicates and masks that an operation names -/

/-- The k registers that an operation of slot C reads or writes. -/
def predsOf (i : Instr) : List Reg :=
  match i with
  | .add _ _ _ g => [.k g]
  | .sub _ _ _ g => [.k g]
  | .mul _ _ _ g => [.k g]
  | .mulh _ _ _ g => [.k g]
  | .mulhn _ _ _ g => [.k g]
  | .div _ _ _ g => [.k g]
  | .divn _ _ _ g => [.k g]
  | .rem _ _ _ g => [.k g]
  | .remn _ _ _ g => [.k g]
  | .and _ _ _ g => [.k g]
  | .or _ _ _ g => [.k g]
  | .xor _ _ _ g => [.k g]
  | .shl _ _ _ g => [.k g]
  | .shr _ _ _ g => [.k g]
  | .sar _ _ _ g => [.k g]
  | .min _ _ _ g => [.k g]
  | .max _ _ _ g => [.k g]
  | .minn _ _ _ g => [.k g]
  | .maxn _ _ _ g => [.k g]
  | .clz _ _ g => [.k g]
  | .popc _ _ g => [.k g]
  | .sext _ _ _ g => [.k g]
  | .zext _ _ _ g => [.k g]
  | .cmp k _ _ g _ => [.k k, .k g]
  | .cmpi k _ _ _ => [.k k]
  | .sel _ _ _ g c => [.k g, .k c]
  | .kand d a b g => [.k d, .k a, .k b, .k g]
  | .kor d a b g => [.k d, .k a, .k b, .k g]
  | .kxor d a b g => [.k d, .k a, .k b, .k g]
  | .knot d a g => [.k d, .k a, .k g]
  | .faddD _ _ _ g _ => [.k g]
  | .fsubD _ _ _ g _ => [.k g]
  | .fmulD _ _ _ g _ => [.k g]
  | .fdivD _ _ _ g _ => [.k g]
  | .fminD _ _ _ g => [.k g]
  | .fmaxD _ _ _ g => [.k g]
  | .fsqrtD _ _ g _ => [.k g]
  | .ffmaD _ _ _ g _ _ => [.k g]
  | .fcmpD k _ _ g _ => [.k k, .k g]
  | .fcvtDI _ _ g _ => [.k g]
  | .fcvtDN _ _ g _ => [.k g]
  | .fcvtID _ _ g _ => [.k g]
  | .fcvtND _ _ g _ => [.k g]
  | .fcvtDS _ _ g => [.k g]
  | .fcvtSD _ _ g _ => [.k g]
  | .brk k _ => [.k k]
  | .brnk k _ => [.k k]
  | .jr _ _ g => [.k g]
  | .ret g => [.k g]
  | _ => []

/-- Field of a word of slot V (05 Table 5-2). -/
def vOp (w : Word) : Nat := fld w.toNat 25 7

/-- Opcodes of slot V whose FP32 form is `n`: the FP32, `.h` and `.b` forms of the first ones. -/
def vKind (w : Word) : Nat :=
  let op := vOp w
  let fp (i : Nat) : Nat := [0x01, 0x02, 0x03, 0x04, 0x05, 0x06, 0x0B, 0x0C, 0x0D, 0x0E, 0x0F, 0x10][i]?.getD 0
  if 0x12 ≤ op ∧ op ≤ 0x1D then fp (op - 0x12) else if 0x1E ≤ op ∧ op ≤ 0x29 then fp (op - 0x1E) else op

/-- Operations of slot V that write a vm register. -/
def vToMask (w : Word) : Bool := [0x0F, 0x4B, 0x4C, 0x4D, 0x4E, 0x4F].contains (vKind w)

/-- The vm registers that an operation of slot V reads or writes. -/
def masksOf (w : Word) : List Reg :=
  let dest := if vToMask w then [Reg.vm (BitVec.ofNat 3 (fld w.toNat 19 3))] else []
  let k := vKind w
  if 0x4C ≤ k ∧ k ≤ 0x4F then
    dest ++ [.vm (BitVec.ofNat 3 (fld w.toNat 13 3))] ++ (if k = 0x4F then [] else [.vm (BitVec.ofNat 3 (fld w.toNat 7 3))])
  else if k = 0x68 ∨ k = 0x69 ∨ k = 0x71 then dest
  else dest ++ [.vm (BitVec.ofNat 3 (fld w.toNat 2 3))]

/-- Every register that an operation names. -/
def Slotted.names (o : Slotted) : List Reg :=
  o.uses ++ (if o.slot = 0 then predsOf o.instr else if o.slot = 1 then masksOf o.word else [])

/-! ## Latencies (04 Table 4-1, 05 Table 5-1, 08 R262, 09 R302) -/

/-- An operation's latency, its unit and how long it keeps that unit, in core cycles; and whether it holds slot V for a cycle more
(R138). -/
structure Pace where
  latency : Nat := 1
  unit : Nat := 0
  hold : Nat := 0
  wide : Bool := false
  deriving DecidableEq, Repr

/-- Slot C: unit 0 divides. -/
def cPace (i : Instr) : Pace :=
  match i with
  | .mul _ _ _ _ => { latency := 3 }
  | .mulh _ _ _ _ | .mulhn _ _ _ _ => { latency := 4 }
  | .div _ _ _ _ | .divn _ _ _ _ | .rem _ _ _ _ | .remn _ _ _ _ => { latency := 36, unit := 0, hold := 36 }
  | .faddD _ _ _ _ _ | .fsubD _ _ _ _ _ => { latency := 4 }
  | .fminD _ _ _ _ | .fmaxD _ _ _ _ | .fcvtDS _ _ _ => { latency := 4 }
  | .fcvtDI _ _ _ _ | .fcvtDN _ _ _ _ | .fcvtID _ _ _ _ | .fcvtND _ _ _ _ | .fcvtSD _ _ _ _ => { latency := 4 }
  | .fcmpD _ _ _ _ _ => { latency := 4 }
  | .fmulD _ _ _ _ _ => { latency := 5 }
  | .ffmaD _ _ _ _ _ _ => { latency := 6 }
  | .fdivD _ _ _ _ _ => { latency := 24, unit := 0, hold := 24 }
  | .fsqrtD _ _ _ _ => { latency := 30, unit := 0, hold := 30 }
  | .srd _ _ => { latency := 2 }
  | _ => {}

/-- Depth of a reduction over the lanes of a width code (R137). -/
def vDepth (w : Word) : Nat := 5 + fld w.toNat 5 2

/-- Whether a conversion's packed side is narrower than 32 bits. -/
def vNarrow (o : Slotted) : Bool :=
  match o.instr with
  | .vcvtPack _ _ c _ _ _ => decide (fmtBits ((o.iss.cfOf c.toNat).setWidth 8) < 32)
  | .vcvtUnpack _ _ c _ _ _ => decide (fmtBits ((o.iss.cfOf c.toNat).setWidth 8) < 32)
  | _ => true

/-- Slot V: unit 1 divides, unit 2 is the function unit, units 3 and 4 those of the double-word and exact operations. -/
def vPace (o : Slotted) : Pace :=
  let k := vKind o.word
  if k ≤ 0x06 ∨ k = 0x59 then { latency := 4 }
  else if k = 0x07 ∨ k = 0x08 then { latency := 14, unit := 1, hold := 7 }
  else if k = 0x09 ∨ k = 0x0A then { latency := 10, unit := 2, hold := 4 }
  else if k ≤ 0x11 then { latency := 2 }
  else if 0x5A ≤ k ∧ k ≤ 0x5C then { latency := 12, unit := 2, hold := 4 }
  else if k ≤ 0x32 ∨ k = 0x37 then { latency := 5 }
  else if k ≤ 0x35 then { latency := 12, unit := 3, hold := 2 }
  else if k = 0x36 then { latency := 34, unit := 1, hold := 14 }
  else if k = 0x38 ∨ k = 0x3A ∨ k = 0x3B then { latency := 4 * vDepth o.word + 2 }
  else if k = 0x39 then { latency := 4 * vDepth o.word + 8, unit := 4, hold := 2 }
  else if k = 0x42 ∨ k = 0x43 ∨ k = 0x68 ∨ k = 0x6A then { latency := 3 }
  else if k = 0x58 then { latency := if vNarrow o then 6 else 4 }
  else if k ≤ 0x4B ∨ k = 0x6B then { latency := 2 }
  else {}

/-- The a register of slot T written 2 cycles after issue: a promise, or an answer of `copyq` (09 R265, R281). -/
def promiseReg (i : Instr) : List Reg :=
  match i with
  | .copy d _ _ _ _ _ _ _ _ => [.a d]
  | .copyq d => [.a d]
  | .copyqSt d => [.a d]
  | .frfl d _ _ _ _ => [.a d]
  | .reduce d _ _ _ _ => [.a d]
  | _ => []

/-- Slot T: unit 5 is the slot itself (08 R262, 09 R302). A part of four lines of a range takes a cycle too (DEDUCED, log 50). -/
def tPace (o : Slotted) : Pace :=
  match o.instr with
  | .scinv => { unit := 5, hold := 2 }
  | .scinvRange h r l =>
    let n := (o.iss.ra l).toNat
    let start := ((hBase (o.iss.rh h) : Int) + (o.iss.ra r).toInt) % 64
    { unit := 5, hold := if n = 0 then 2 else 2 + ((start.toNat + n + 63) / 64 + 3) / 4 }
  | .tdead _ _ l => { unit := 5, hold := 4 + ((o.iss.ra l).toNat + 65535) / 65536 }
  | i => { latency := if (promiseReg i).isEmpty then 1 else 2 }

def Slotted.pace (o : Slotted) : Pace :=
  if o.slot = 0 then cPace o.instr else if o.slot = 1 then vPace o else if o.slot = 3 then tPace o else {}

/-- Whether an operation of slot V acts on 128 lanes: by its width field, or always (`vperm`, R165). -/
def Slotted.full (o : Slotted) : Bool := if vOp o.word = 0x68 then true else fld o.word.toNat 5 2 == 2

/-- The pace under the power step in force: with the width capped at 2048 bits, an instruction of width 4096 runs in two halves
(R138; 12 Table 12-13). -/
def State.paceOf (s : State) (o : Slotted) : Pace :=
  let p := o.pace
  if o.slot == 1 && decide (6 ≤ s.hub.power.actions) && o.full then { p with latency := p.latency + 1, wide := true }
  else p

/-- The registers that an operation writes at its latency: of slot C those named in [25:21] or, for a comparison, in [23:21]; of
slot T promises. -/
def Slotted.results (o : Slotted) : List Reg :=
  if o.slot = 0 then match o.instr with
    | .fcmpD k _ _ _ _ => [.k k]
    | _ => o.uses.take 1
  else if o.slot = 1 then
    if vToMask o.word then (masksOf o.word).take 1
    else if vKind o.word = 0x69 ∨ 0x70 ≤ vKind o.word then []
    else
      let d : BitVec 6 := BitVec.ofNat 6 (fld o.word.toNat 19 6)
      let k := vKind o.word
      let pair := decide (0x30 ≤ k ∧ k ≤ 0x37) || k == 0x39
      if d.toNat < 48 then (if pair then [.v d, .v (d + 1)] else [.v d]) else []
  else promiseReg o.instr

/-- An operation has executed: its results are busy until their latency, and its unit while it keeps it. -/
def State.paced (s : State) (o : Slotted) : State :=
  let p := if o.guardOff o.iss then {} else s.paceOf o
  let busy := if p.latency ≤ 1 then s.q.busy
    else s.q.busy ++ o.results.map fun r => (r, o.seq, s.coreAfter p.latency)
  let units := if p.hold = 0 then s.core.units else (p.unit, s.coreAfter p.hold) :: s.core.units
  let units := if p.wide then (6, s.coreAfter 2) :: units else units
  let named := if o.slot = 1 ∧ 1 < p.latency ∧ o.banks ≠ 0 then (o.banks, o.seq, s.coreAfter p.latency) :: s.q.named else s.q.named
  { s with q := { s.q with busy := busy, named := named }, core := { s.core with units := units } }

/-- `srd` waits for the write of every operation of slot C, and `srd` and `swr` of sr.fpsr for those of slot V too (R124, 03 R94). -/
def Slotted.awaits (o : Slotted) (r : Reg) : Bool :=
  match o.instr, r with
  | .srd _ _, .x _ => true
  | .srd _ _, .k _ => true
  | .srd _ n, _ => n == 2
  | .swr _ n, _ => n == 2
  | _, _ => false

/-- An access to sr.fpsr waits for the operations of earlier bundles in slot V, parked and slipped ones too (03 R94). -/
def Slotted.readsFlags (o : Slotted) : Bool :=
  match o.instr with
  | .srd _ n => n == 2
  | .swr _ n => n == 2
  | _ => false

/-- The registers that an operation waiting in slot V or M will write, and how many bundles on they land (02 R53, R54; the pv and g
registers of a tile operation count as sources too, 07 R201). -/
def Slotted.produces (o : Slotted) : List Reg × Nat :=
  match o.instr with
  | .xcX d _ _ _ => ([.v d], 2)
  | .xcXl d _ _ => ([.v d], 2)
  | .xcXMatrix r _ k _ => ([if k = 0 then .m r else if k = 1 then .pv (r.setWidth 2) else .g (r.setWidth 2)], 2)
  | .mdset m _ _ => ([.m m], 1)
  | .mdld m _ => ([.m m], 1)
  | i => (if o.slot = 1 then o.results else facRegs i, 1)

/-- Whether an operation must wait for a register before it executes: a load or a copy that still writes one that it names, a
producer of another slot's register that waits in that slot (02 R53, 08 R238), or a register that the matrix engine holds (07
R201). -/
def State.interlocked (s : State) (o : Slotted) : Bool :=
  !o.guardOff s.c &&
  ((o.uses.any fun r => !r.constant && (s.pendingRegs o.seq).contains r) ||
  ((o.uses ++ crossReads o.instr).any fun r => s.q.shadows.any fun h => decide (h.due ≤ o.seq) && h.write.reg == some r) ||
  ((crossReads o.instr).any fun r => (s.q.vq ++ s.q.mq).any fun t =>
    t.slot != o.slot && decide (t.seq + t.produces.2 ≤ o.seq) && t.produces.1.contains r) ||
  ((engineRegs o.instr).any s.regQueued))

/-- Whether an operation waits for a result of an earlier bundle or for its unit. -/
def State.unready (s : State) (o : Slotted) : Bool :=
  let p := if o.guardOff s.c then {} else s.paceOf o
  (o.readsFlags && !s.q.vq.isEmpty) || (s.q.busy.any fun b => decide (b.2.1 < o.seq ∧ s.now < b.2.2) && (o.awaits b.1 || !b.1.constant &&
    (if o.guardOff s.c then [Reg.k (guardOf o.instr)] else o.names).contains b.1)) ||
  (p.hold != 0 && s.core.units.any fun u => u.1 == p.unit && decide (s.now < u.2)) ||
  (o.slot == 3 && s.core.units.any fun u => u.1 == 5 && decide (s.now < u.2)) ||
  (o.slot == 1 && s.core.units.any fun u => u.1 == 6 && decide (s.now < u.2))

/-- Whether an operation of slot V that issues now would write a bank in the cycle of an earlier result (R135). -/
def State.clashes (s : State) (o : Slotted) : Bool :=
  o.slot == 1 && o.results.any fun r => s.q.bankBusy (s.coreAfter (s.paceOf o).latency) r

/-- Results that are over before the cycle `now` are forgotten. -/
def Seq.freed (q : Seq) (now : Nat) : Seq :=
  { q with busy := q.busy.filter fun b => decide (now ≤ b.2.2), named := q.named.filter fun x => decide (now < x.2.2) }

/-- Units that are free in the cycle `now` are forgotten, and what has left the core or been popped that no discard reaches any more. -/
def Core.freed (k : Core) (now : Nat) : Core :=
  { k with
    units := k.units.filter fun u => decide (now < u.2)
    sent := k.sent.filter fun x => decide (now ≤ x.2.2 + Config.strikeHold)
    took := k.took.filter fun x => decide (now ≤ x.2.2 + Config.strikeHold) }

/-! ## Bank reads (R133, R134) -/

/-- Register reads of an operation of slot V in order: operand position and register (Table 5-3). -/
def vReads (o : Slotted) : List (Fin 3 × BitVec 6) :=
  let w := o.word.toNat
  let k := vKind o.word
  let d : BitVec 6 := BitVec.ofNat 6 (fld w 19 6)
  let a : BitVec 6 := BitVec.ofNat 6 (fld w 13 6)
  let b : BitVec 6 := BitVec.ofNat 6 (fld w 7 6)
  let fma := decide (0x04 ≤ k ∧ k ≤ 0x06) || k == 0x43
  let noA := decide (0x4C ≤ k ∧ k ≤ 0x4F) || decide (0x69 = k) || decide (0x70 ≤ k)
  let shift := decide (0x48 ≤ k ∧ k ≤ 0x4A) && fld w 0 2 == 1
  let twoSrc := decide (k ≤ 0x07) || [0x0B, 0x0C, 0x0F, 0x10, 0x40, 0x41, 0x42, 0x43, 0x44, 0x45, 0x46, 0x4B, 0x59, 0x68].contains k ||
    decide (0x30 ≤ k ∧ k ≤ 0x36) || (decide (0x48 ≤ k ∧ k ≤ 0x4A) && !shift)
  let pair := decide (0x33 ≤ k ∧ k ≤ 0x37)
  let both (n : Fin 3) (r : BitVec 6) : List (Fin 3 × BitVec 6) := if pair then [(n, r), (n, r + 1)] else [(n, r)]
  let third := match o.ext with
    | some e => [((0 : Fin 3), extSource e)]
    | none => [((0 : Fin 3), d)]
  (if fma then third else []) ++ (if noA then [] else both 1 a) ++ (if twoSrc then both 2 b else [])

/-- Registers that must be read from their banks, given what the latches hold. -/
def bankReads : List (Fin 3 × BitVec 6) → Vector (Option (BitVec 6)) 3 → List (BitVec 6)
  | [], _ => []
  | (n, r) :: t, l =>
    if 48 ≤ r.toNat then bankReads t l
    else if l[n] = some r then bankReads t l
    else r :: bankReads t (l.set n (some r))

/-- Extra cycles that an operation's bank reads take before it issues. -/
def State.bankCost (s : State) (o : Slotted) : Nat :=
  let rs := (bankReads (vReads o) s.c.latch).eraseDups
  ((List.range 6).foldl (fun m b => max m (rs.filter fun r => vBank r == b).length) 1) - 1

end Sys2Proof.Machine
end

