-- ==== Sys2Proof/Machine/Grant.lean ====
section
/-! DEFINITION. Crown grants: the arrays of a core's crown that the matrix engine, the copy engine, slot V and slot T ask for in a core cycle, and who must wait (06 R173, R174; log 46). A tower access waits for its tower's refresh (09 R295). -/

namespace Sys2Proof.Machine

/-- Whether every array of a request is free beside those taken: an array serves one read and one write, a column-bank four of each
(R173). -/
def granted : List Claim → List Claim → Bool
  | _, [] => true
  | taken, c :: t => !taken.contains c && decide ((taken.filter (·.2 == c.2)).length < 4) && granted (c :: taken) t

/-! ## The matrix engine -/

/-- The arrays of the row of a B tile that a plane load reads in this cycle, `left` cycles before the end of its `total`. -/
def State.planeArrays (s : State) (op : Slotted) (b : BitVec 3) (depth pass left total : Nat) : List Claim :=
  let rs := planeRanges op.iss.cbmap s.core.phys (bRole op.iss b depth) depth pass
  if total < left then [] else s.arrays false ((rs.drop ((total - left) * rs.length / max 1 total)).take 1)

/-- The arrays of a row that a factorisation reads and writes back in this cycle: its rows take the last cycles of a step. -/
def State.facArrays (s : State) (o : Out) (op : Slotted) (w : Tiling) (j : FacJob) : List Claim :=
  let d := op.iss.rm j.c
  let ends := if w.step < j.steps then o.due else o.due - Config.strikeHold
  if w.step = j.progress op w ∨ ends ≤ s.now ∨ s.now + dRows d < ends then []
  else
    let i := dRows d - (ends - s.now)
    let rs := rowSpan op.iss.cbmap s.core.phys d i 0 (4 * j.width (dCols d) i)
    s.arrays false rs ++ s.arrays true rs

/-- The arrays of what an operation formed with its start writes in this cycle: rows of `mperm`, the bytes of `mdst`. -/
def State.formedArrays (s : State) (o : Out) : List Claim :=
  s.outs.flatMap fun x => match x.work with
    | .write ps _ _ _ =>
      if x.bank == o.bank && x.path == .m && x.seq == o.seq && x.due == s.now + Config.strikeHold then
        s.arrays true (ps.map fun p => (p.addr, p.bytes.length)) else []
    | _ => []

/-- The arrays that a started tile operation takes in this cycle besides those of its steps. -/
def State.runArrays (s : State) (o : Out) (op : Slotted) (w : Tiling) : List Claim :=
  match productOf op.instr, facJob op with
  | some p, _ =>
    let pass := w.step / p.per op
    if w.loads ≤ s.now then []
    else if w.plane.isEmpty then s.planeArrays op p.b (p.depth op) pass (w.loads - s.now) (s.periods (p.plane op))
    else s.planeArrays op p.b (p.depth op) (pass + 1) (w.loads - s.now) (s.periods (s.nextPlane op p))
  | none, some j => s.facArrays o op w j
  | none, none => match op.instr with
    | .mbld b =>
      let d := op.iss.rm b
      s.planeArrays op b (chunkDepth (dFmt d) (dFmt d)) 0 (o.due - s.now) (s.periods (planeTime (dFmt d) (dFmt d)))
    | .mperm _ _ _ _ _ _ | .mdst _ _ => s.formedArrays o
    | _ => []

/-- The arrays that the matrix engine takes in this cycle (R174, Table 6-2). -/
def State.tileArrays (s : State) : List Claim :=
  ((if s.core.tileClaimedAt = s.now then s.core.tileClaims else []) ++ s.outs.flatMap fun o => match o.work with
    | .tile op w => if w.started.isSome then s.runArrays o op w else []
    | _ => []).eraseDups

/-! ## Path K -/

/-- The arrays that a copy in its data phase asks for in this cycle, by the share of its elements that it moves in it. -/
def State.copyArrays (s : State) (o : Out) : List Claim :=
  match o.work with
  | .copy op dmap smap pair b => match b.stage, op.instr with
    | .moving start, .copy _ h m _ _ _ _ _ _ =>
      if s.now < start ∨ o.due ≤ s.now then [] else
      let side (d : Side) (map : DWord) : List (Nat × Nat) :=
        let f := d.rg.fmt op.iss d.h
        if hClass d.h ≠ 2 ∨ s.hub.ownerOf d.h ≠ some s.core.phys then []
        else
          let lo := s.movedBefore b o.due s.now * d.rg.total / max 1 b.bytes
          let hi := min d.rg.total ((s.movedBefore b o.due (s.now + 1) * d.rg.total + b.bytes - 1) / max 1 b.bytes)
          (List.range (hi - lo)).map fun i => ((d.crownLoc f map s.core.phys (lo + i)).addr, elemBytes f)
      let sides := copySides op pair h m
      s.arrays true (side sides.1 dmap.strips) ++ s.arrays false (side sides.2 smap.strips)
    | _, _ => []
  | _ => []

/-- A refused grant is counted, in a stall counter and for the monitors (12 R390, R392). -/
def State.refuse (s : State) (i : Nat) : State :=
  let s := s.countStall i
  { s with core := { s.core with crownRefused := s.core.crownRefused + 1 } }

/-- A copy whose burst is refused waits a core cycle. -/
def Out.waits (o : Out) (n : Nat) : Out :=
  match o.work.burst.map Burst.stage with
  | some (Stage.moving start) => { o with due := o.due + n, work := o.work.withStage (.moving (start + n)) }
  | _ => o

/-- The bursts of copies that the matrix engine's arrays refuse in this cycle wait. -/
def State.grantCopies (s : State) : State :=
  let taken := s.tileArrays
  if taken.isEmpty then s else
  let late := s.outs.filter fun o => !granted taken (s.copyArrays o)
  late.foldl (fun (s : State) o => ({ s with outs := s.outs.map fun (x : Out) => if x.id == o.id then x.waits (s.periods 1) else x }).refuse 12) s

/-! ## Slots V and T -/

/-- The arrays that an operation of slot V asks for: those of the vectors that it takes from ports or pushes. A port reads nothing while a
granule that it waits for is empty (08 R257). -/
def State.portArrays (s : State) (o : Slotted) : List Claim :=
  if o.slot ≠ 1 then [] else
  (o.ports.eraseDups).flatMap fun k => match s.c.port.get k.toFin with
    | some p =>
      if (p.set.fe = 1 ∨ p.set.fe = 2) ∧ !p.set.isWrite ∧ (p.set.pages s.c.cbmap s.core.phys p.pos).any s.mem.empty.contains then []
      else s.arrays p.set.isWrite (s.portRanges s.c k (if p.set.isWrite then 1 else (o.ports.filter (· == k)).length))
    | none => []

/-- The range of crown cells that an operation of slot T names through a handle; none where its checks fail. -/
def State.namedCrown (s : State) (h a : BitVec 4) (i : Int) (n : Nat) : List (Nat × Nat) :=
  match s.crownCheck h (s.offset a i) n 1 fun _ => true with
  | .ok la => [(crownThrough s.c.cbmap s.core.phys la, n)]
  | .error _ => []

/-- The arrays that an operation of slot T asks for (R174, path L). -/
def State.slotArrays (s : State) (o : Slotted) : List Claim :=
  match o.instr with
  | .cld _ h a z i => s.arrays false (s.namedCrown h a (sizeOf z * immT i o.ext) (sizeOf z))
  | .cst _ h a z i => s.arrays true (s.namedCrown h a (sizeOf z * immT i o.ext) (sizeOf z))
  | .cldVector _ h a w i => s.arrays false (s.namedCrown h a (32 * immT i o.ext) (4 * lanesOf w))
  | .cstVector _ h a w i => s.arrays true (s.namedCrown h a (32 * immT i o.ext) (4 * lanesOf w))
  | .hld _ h a i => s.arrays false (s.namedCrown h a (16 * immT i o.ext) 16)
  | .hst _ h a i => s.arrays true (s.namedCrown h a (16 * immT i o.ext) 16)
  | .pcfg _ h a => s.arrays false (s.namedCrown h a 0 64)
  | .pld h a _ n => s.arrays false (s.namedCrown h a 0 (128 * (n.toNat + 1)))
  | .vgth _ _ _ j k w => s.arrays false (s.namedCrown j k 0 (4 * lanesOf w))
  | .vsct _ _ _ j k w => s.arrays false (s.namedCrown j k 0 (4 * lanesOf w))
  | .copy _ _ _ r a _ _ _ _ => s.arrays false (s.namedCrown r a 0 128)
  | _ => []

/-- The physical towers that an operation of slot T accesses. -/
def State.slotTowers (s : State) (o : Slotted) : List Nat :=
  match o.instr with
  | .tvld _ _ _ w _ => (List.range (lanesOf w / 8)).map s.core.tower
  | .tvst _ _ _ w _ => (List.range (lanesOf w / 8)).map s.core.tower
  | _ => []

/-- The arrays that slot V has taken in this cycle, or asks for in the bundle of an operation of slot T (`v`). -/
def State.takenByV (s : State) (v : Option Slotted) : List Claim :=
  (if s.core.claimedAt = s.now then s.core.claims else []) ++ (v.map s.portArrays).getD []

/-- The stall counter of an operation that gets no grant in this cycle, or finds its tower blocked: path P before path L, both after the
engines (Table 6-2). -/
def State.refusal (s : State) (o : Slotted) (v : Option Slotted) : Option Nat :=
  if (s.slotTowers o).any s.isBlocked then some 14
  else
    let asks := if o.slot = 1 then s.portArrays o else s.slotArrays o
    if asks.isEmpty then none
    else if granted (s.tileArrays ++ s.outs.flatMap s.copyArrays ++ if o.slot = 1 then [] else s.takenByV v) asks then none
    else some (if o.slot = 1 then 13 else 6)

/-- A refused operation: the cycle counts, for slot T in no other counter. -/
def State.turnAway (s : State) (i : Nat) : State :=
  let s := if i = 14 then s.countStall 14 else s.refuse i
  if i = 13 then s else { s with core := { s.core with refusedAt := some s.now } }

/-- Slot V takes the arrays that it asks for. -/
def State.claimed (s : State) (o : Slotted) : State :=
  let l := s.portArrays o
  if l.isEmpty then s else { s with core := { s.core with claims := l, claimedAt := s.now } }

end Sys2Proof.Machine
end

