-- ==== Sys2Proof/Machine/Control.lean ====
section
/-! DEFINITION. Slot C: integer, predicate, branch, cross-slot copies into x, and status access (04_control_class.md), with the no-op and the headers (02 R38-R44). -/

namespace Sys2Proof.Machine

/-! ## Integer arithmetic (04 Table 4-3) -/

def aluMul (a b : DWord) : DWord := a * b
def aluMulh (a b : DWord) : DWord := BitVec.ofInt 64 (a.toInt * b.toInt / 2 ^ 64)
def aluMulhn (a b : DWord) : DWord := BitVec.ofNat 64 (a.toNat * b.toNat / 2 ^ 64)
def aluDiv (a b : DWord) : DWord := if b = 0 then BitVec.allOnes 64 else BitVec.ofInt 64 (a.toInt.tdiv b.toInt)
def aluDivn (a b : DWord) : DWord := if b = 0 then BitVec.allOnes 64 else BitVec.ofNat 64 (a.toNat / b.toNat)
def aluRem (a b : DWord) : DWord := if b = 0 then a else BitVec.ofInt 64 (a.toInt.tmod b.toInt)
def aluRemn (a b : DWord) : DWord := if b = 0 then a else BitVec.ofNat 64 (a.toNat % b.toNat)
def aluShl (a b : DWord) : DWord := a <<< (b.toNat % 64)
def aluShr (a b : DWord) : DWord := a >>> (b.toNat % 64)
def aluSar (a b : DWord) : DWord := a.sshiftRight (b.toNat % 64)
def aluMin (a b : DWord) : DWord := if a.toInt ≤ b.toInt then a else b
def aluMax (a b : DWord) : DWord := if a.toInt ≤ b.toInt then b else a
def aluMinn (a b : DWord) : DWord := if a.toNat ≤ b.toNat then a else b
def aluMaxn (a b : DWord) : DWord := if a.toNat ≤ b.toNat then b else a

/-- Number of leading zero bits, 0-64. -/
def clz64 (a : DWord) : DWord := if a = 0 then 64 else BitVec.ofNat 64 (63 - a.toNat.log2)

/-- Number of one bits. -/
def popc64 (a : DWord) : DWord := BitVec.ofNat 64 ((List.range 64).filter fun i => a.getLsbD i).length

/-- Width of `sext` and `zext`: 8, 16 or 32. -/
def extWidth (w : BitVec 2) : Nat := 8 * 2 ^ w.toNat

def sextTo (w : BitVec 2) (a : DWord) : DWord := (a.setWidth (extWidth w)).signExtend 64
def zextTo (w : BitVec 2) (a : DWord) : DWord := (a.setWidth (extWidth w)).setWidth 64

/-- Format RR (04 R105, R100): x(d) := F(x(a), x(b)) under the guard. -/
def alu (f : DWord → DWord → DWord) (d a b : BitVec 5) (g : BitVec 3) (s : State) : Ans :=
  .next (s.guarded g fun s => s.wx d (f (s.c.rx a) (s.c.rx b)))

/-- One source, guarded. -/
def alu1 (f : DWord → DWord) (d a : BitVec 5) (g : BitVec 3) (s : State) : Ans :=
  .next (s.guarded g fun s => s.wx d (f (s.c.rx a)))

/-- Immediate forms (04 R106, R107): no guard. -/
def aluImm (f : DWord → DWord → DWord) (d a : BitVec 5) (i : DWord) (s : State) : Ans :=
  .next (s.wx d (f (s.c.rx a) i))

def execNoOp (s : State) : Ans := .next s

/-- Iterations that a REP bundle with a count has left, the one about to issue among them: all of them, those that sr.repc left it
(02 R44), or those that its earlier iterations left. -/
def Seq.iterationsLeft (q : Seq) (count : Nat) : Nat :=
  match q.repCur with
  | some r => r.2
  | none => if q.repLeft = 0 then count else q.repLeft

/-- A REP header issues one iteration of its bundle: the same bundle issues again while iterations are left (02 R41, R43). Its strides
act on the words of the bundle as that iteration issues. -/
def execHrep (count : BitVec 10) (_v _m _t _step : BitVec 4) (s : State) : Ans :=
  let left := s.q.iterationsLeft count.toNat
  .next { s with q := { s.q with repCur := if left ≤ 1 then none else some (s.lat.addr, left - 1), repLeft := 0 } }

def execAdd (d a b : BitVec 5) (g : BitVec 3) (s : State) : Ans := alu (· + ·) d a b g s
def execSub (d a b : BitVec 5) (g : BitVec 3) (s : State) : Ans := alu (· - ·) d a b g s
def execMul (d a b : BitVec 5) (g : BitVec 3) (s : State) : Ans := alu aluMul d a b g s
def execMulh (d a b : BitVec 5) (g : BitVec 3) (s : State) : Ans := alu aluMulh d a b g s
def execMulhn (d a b : BitVec 5) (g : BitVec 3) (s : State) : Ans := alu aluMulhn d a b g s
def execDiv (d a b : BitVec 5) (g : BitVec 3) (s : State) : Ans := alu aluDiv d a b g s
def execDivn (d a b : BitVec 5) (g : BitVec 3) (s : State) : Ans := alu aluDivn d a b g s
def execRem (d a b : BitVec 5) (g : BitVec 3) (s : State) : Ans := alu aluRem d a b g s
def execRemn (d a b : BitVec 5) (g : BitVec 3) (s : State) : Ans := alu aluRemn d a b g s
def execAnd (d a b : BitVec 5) (g : BitVec 3) (s : State) : Ans := alu (· &&& ·) d a b g s
def execOr (d a b : BitVec 5) (g : BitVec 3) (s : State) : Ans := alu (· ||| ·) d a b g s
def execXor (d a b : BitVec 5) (g : BitVec 3) (s : State) : Ans := alu (· ^^^ ·) d a b g s
def execShl (d a b : BitVec 5) (g : BitVec 3) (s : State) : Ans := alu aluShl d a b g s
def execShr (d a b : BitVec 5) (g : BitVec 3) (s : State) : Ans := alu aluShr d a b g s
def execSar (d a b : BitVec 5) (g : BitVec 3) (s : State) : Ans := alu aluSar d a b g s
def execMin (d a b : BitVec 5) (g : BitVec 3) (s : State) : Ans := alu aluMin d a b g s
def execMax (d a b : BitVec 5) (g : BitVec 3) (s : State) : Ans := alu aluMax d a b g s
def execMinn (d a b : BitVec 5) (g : BitVec 3) (s : State) : Ans := alu aluMinn d a b g s
def execMaxn (d a b : BitVec 5) (g : BitVec 3) (s : State) : Ans := alu aluMaxn d a b g s
def execClz (d a : BitVec 5) (g : BitVec 3) (s : State) : Ans := alu1 clz64 d a g s
def execPopc (d a : BitVec 5) (g : BitVec 3) (s : State) : Ans := alu1 popc64 d a g s

/-- w = 11 raises trap 0x01 (04). -/
def execSext (d a : BitVec 5) (w : BitVec 2) (g : BitVec 3) (s : State) : Ans :=
  if w = 3 then .next (s.raiseIssue 0x01) else alu1 (sextTo w) d a g s
def execZext (d a : BitVec 5) (w : BitVec 2) (g : BitVec 3) (s : State) : Ans :=
  if w = 3 then .next (s.raiseIssue 0x01) else alu1 (zextTo w) d a g s

def execAddi (d a : BitVec 5) (i : BitVec 16) (s : State) : Ans := aluImm (· + ·) d a (sx i) s
def execAndi (d a : BitVec 5) (i : BitVec 16) (s : State) : Ans := aluImm (· &&& ·) d a (sx i) s
def execOri (d a : BitVec 5) (i : BitVec 16) (s : State) : Ans := aluImm (· ||| ·) d a (i.setWidth 64) s
def execXori (d a : BitVec 5) (i : BitVec 16) (s : State) : Ans := aluImm (· ^^^ ·) d a (i.setWidth 64) s
def execShli (d a : BitVec 5) (n : BitVec 6) (s : State) : Ans := aluImm aluShl d a (n.setWidth 64) s
def execShri (d a : BitVec 5) (n : BitVec 6) (s : State) : Ans := aluImm aluShr d a (n.setWidth 64) s
def execSari (d a : BitVec 5) (n : BitVec 6) (s : State) : Ans := aluImm aluSar d a (n.setWidth 64) s

/-- R108. -/
def execLi (d : BitVec 5) (i : BitVec 21) (s : State) : Ans := .next (s.wx d (sx i))
def execLih (d : BitVec 5) (q : BitVec 2) (i : BitVec 16) (s : State) : Ans :=
  .next (s.wx d (putField (s.c.rx d) (16 * q.toNat) 16 i.toNat))

/-! ## Compare, select, predicates (04 R109, R110) -/

/-- Condition codes 0 eq, 1 ne, 2 lt, 3 ge, 4 ltn, 5 gen. -/
def cmpHolds (c : Nat) (a b : DWord) : Bool :=
  match c with
  | 0 => a == b
  | 1 => a != b
  | 2 => decide (a.toInt < b.toInt)
  | 3 => decide (b.toInt ≤ a.toInt)
  | 4 => decide (a.toNat < b.toNat)
  | _ => decide (b.toNat ≤ a.toNat)

def execCmp (k : BitVec 3) (a b : BitVec 5) (g : BitVec 3) (c : BitVec 8) (s : State) : Ans :=
  if 5 < c.toNat then .next (s.raiseIssue 0x01)
  else .next (s.guarded g fun s => s.wk k (cmpHolds c.toNat (s.c.rx a) (s.c.rx b)))
def execCmpi (k c : BitVec 3) (a : BitVec 5) (i : BitVec 15) (s : State) : Ans :=
  if 5 < c.toNat then .next (s.raiseIssue 0x01) else .next (s.wk k (cmpHolds c.toNat (s.c.rx a) (sx i)))
def execSel (d a b : BitVec 5) (g c : BitVec 3) (s : State) : Ans :=
  .next (s.guarded g fun s => s.wx d (if s.c.rk c then s.c.rx a else s.c.rx b))

/-- Predicate operations. -/
def predOp (f : Bool → Bool → Bool) (d a b g : BitVec 3) (s : State) : Ans :=
  .next (s.guarded g fun s => s.wk d (f (s.c.rk a) (s.c.rk b)))
def execKand (d a b g : BitVec 3) (s : State) : Ans := predOp (· && ·) d a b g s
def execKor (d a b g : BitVec 3) (s : State) : Ans := predOp (· || ·) d a b g s
def execKxor (d a b g : BitVec 3) (s : State) : Ans := predOp (· != ·) d a b g s
def execKnot (d a g : BitVec 3) (s : State) : Ans := predOp (fun a _ => !a) d a a g s

/-! ## Transfers (04 R104, R117, R118; 02 R37) -/

/-- A transfer is taken: the next bundle is at `t`, `n` core cycles on. -/
def State.jump (s : State) (n : Nat) (t : DWord) : State :=
  { s with c := { s.c with pc := t }, q := { s.q with issueFrom := s.coreAfter n, issueWhy := 10, taken := true } }

/-- The offset target PC + 16 x SignExtend(offset, 64). -/
def State.target {n : Nat} (s : State) (o : BitVec n) : DWord := s.lat.addr + 16 * sx o

/-- A transfer to a register's value: trap 0x04, with the bundle without effect, when it is not bundle-aligned (R37,
R118). -/
def State.jumpReg (s : State) (t : DWord) (f : State → State) : State :=
  if t.toNat % 16 ≠ 0 then
    { s with lat := { s.lat with res := .trap } }.enterIssueTrap s.lat.addr
      { code := 0x04, info := t, slot := 0, iss := false, evt := false, now := false } 0
  else (f s).jump 4 t

def execBr (o : BitVec 26) (s : State) : Ans := .next (s.jump 3 (s.target o))
def execCall (o : BitVec 26) (s : State) : Ans := .next ((s.wx 31 (s.lat.addr + 16)).jump 3 (s.target o))
def execBrk (k : BitVec 3) (o : BitVec 23) (s : State) : Ans := .next (if s.c.rk k then s.jump 3 (s.target o) else s)
def execBrnk (k : BitVec 3) (o : BitVec 23) (s : State) : Ans := .next (if s.c.rk k then s else s.jump 3 (s.target o))
def execJr (d a : BitVec 5) (g : BitVec 3) (s : State) : Ans :=
  .next (s.guarded g fun s => s.jumpReg (s.c.rx a) (·.wx d (s.lat.addr + 16)))
def execRet (g : BitVec 3) (s : State) : Ans :=
  .next (s.guarded g fun s => s.jumpReg (s.c.rx 31) id)
/-- A short loop closes: it streams from the sequencer's buffer of the last 17 bundles (R119). -/
def State.loopBack (s : State) (t : DWord) : State :=
  let u := s.jump 1 t
  { u with q := { u.q with looped := some (t, s.lat.addr) } }

def execLoop (a : BitVec 5) (o : BitVec 21) (s : State) : Ans :=
  let s := if s.c.rx a = 0 then s else s.wx a (s.c.rx a - 1)
  .next (if s.c.rx a = 0 then s
    else if -16 ≤ o.toInt ∧ o.toInt ≤ 0 then s.loopBack (s.target o) else s.jump 3 (s.target o))

/-! ## Cross-slot copies into x (04 R120-R122): the source as at issue (02 R53), landing 2 or 3 bundles on (02 R54) -/

/-- Whether a v register lies in a bank lent to slot M (05 R139). -/
def lentV (lent : BitVec 6) (r : Nat) : Bool := lent.getLsbD (r % 6)

def execXcV (d : BitVec 5) (v : BitVec 6) (l : BitVec 7) (s : State) : Ans :=
  if 48 ≤ v.toNat then .next (s.raiseIssue 0x01)
  else if lentV s.lat.iss.lent v.toNat then .next (s.raiseIssue 0x02)
  else .next (s.shadow 3 (.x d (BitVec.ofNat 64 (lane (s.lat.iss.rv v.toNat) l.toNat))))
def execXcA (d : BitVec 5) (a : BitVec 4) (s : State) : Ans := .next (s.shadow 2 (.x d (s.lat.iss.ra a)))

/-- Kind 00 a half of m(r), kind 01 eight entries of pv(r). -/
def execXcM (d : BitVec 5) (k : BitVec 2) (r : BitVec 3) (q : BitVec 4) (s : State) : Ans :=
  if k = 0 then
    if q.toNat < 2 then .next (s.shadow 2 (.x d (fbv 64 (64 * q.toNat) (s.lat.iss.rm r).toNat)))
    else .next (s.raiseIssue 0x01)
  else if k = 1 ∧ r.toNat < 4 then
    .next (s.shadow 2 (.x d (fbv 64 (64 * q.toNat) (s.lat.iss.rpv (r.setWidth 2)).toNat)))
  else .next (s.raiseIssue 0x01)
def execXcG (d : BitVec 5) (g : BitVec 2) (s : State) : Ans := .next (s.shadow 2 (.x d (s.lat.iss.rg g)))
def execXcH (d : BitVec 5) (h : BitVec 4) (q : BitVec 1) (s : State) : Ans :=
  .next (s.shadow 2 (.x d (fbv 64 (64 * q.toNat) (s.lat.iss.rh h).toNat)))

/-! ## Status access (04 R123-R125) -/

def execSrd (d : BitVec 5) (n : BitVec 12) (s : State) : Ans :=
  if !statusDefined n then .next (s.raiseIssue 0x01)
  else if srdSystem n.toNat && !s.c.sys then .next (s.raiseIssue 0x03)
  else .next (s.wx d (s.srd n.toNat))

def execSwr (a : BitVec 5) (n : BitVec 12) (s : State) : Ans :=
  if !statusDefined n then .next (s.raiseIssue 0x01)
  else if swrSystem n.toNat && !s.c.sys then .next (s.raiseIssue 0x03)
  else if swrRefuses n.toNat (s.c.rx a) then .next (s.raise 0x01 (wordInfo s.lat.slot false false s.lat.word))
  else .next (s.swr n.toNat (s.c.rx a))

end Sys2Proof.Machine
end

