-- ==== Sys2Proof/Machine/Banks.lean ====
section
/-! DEFINITION. Events of the arbiter and the context banks: dispatch, bead start, pre-emption, resumption, answers of the host, strikes, and the hub's configuration. -/

namespace Sys2Proof.Machine

/-! ## Leaving and entering a bank (11 R348-R352; 10 R321) -/

/-- The active bank's bead stops at a boundary: its window becomes its resume window, its copies in their shadow land,
and its products and factorisations stop at their next boundary, for `sleepu` and `cbar` too, which 06 R185 does not name (DEDUCED, log 50). Its
undo records stay (R350). -/
def State.parkBank (s : State) (state : BankState) (wait : Waiting) : State :=
  let s := s.haltTiles
  let w := window s.c s.q
  { s with
    c := { landAll s.c s.q.shadows with latch := Vector.replicate 3 none }
    q := { s.q.clear with state := state, wait := wait, resume := w, trap := none, preemptBy := false, haltedAt := s.now }
    outs := dropBobWait s.outs s.q.wait }

/-- State of a bank that another takes the core from while its bead waits in it; a context drains up to a cycle. -/
def Seq.waitState (q : Seq) (drained : Nat) : BankState × Waiting :=
  match q.wait with
  | .sleep w => (.sleeping, .sleep w)
  | .barrier t => (.barrier, .barrier t)
  | _ => (.draining, .watch drained)

/-- The core leaves the active bank, if a bead runs in it, for the other. -/
def State.leaveBank (s : State) : State :=
  if s.q.state = .active then
    let w := s.q.waitState (s.coreAfter 72)
    (s.parkBank w.1 w.2).switchBank
  else s.switchBank

/-- The undo records of the active bank are of a bead that has left it. -/
def State.dropUndo (s : State) : State := { s with undo := s.undo.filter (·.bank != s.core.bank) }

/-- The bead of the active bank goes on (R352, 08 R232): after a translation fault at the window in its trap registers, or
in its handler when the runtime's answer was "fail"; otherwise at its resume window. -/
def State.goOn (s : State) : State :=
  let q := { s.q with state := .active, wait := .none, eligible := false }
  let c := { s.c with since := BitVec.ofNat 48 s.now }
  let r := match s.q.state with
    | .translation =>
      if s.q.atVector then ({ c with pc := c.tbase + 0x240, sys := true }, q)
      else resumeAt c q c.epc c.slip c.enpc c.repc
    | .active => (s.c, s.q)
    | _ => resumeAt c q s.q.resume.1 s.q.resume.2.1 s.q.resume.2.2.1 s.q.resume.2.2.2
  { s.dropUndo with c := r.1, q := r.2 }

/-! ## Dispatch, start, pre-emption -/

/-- A dispatch round (R343); a victim's self-test is aborted (12 R410). -/
def execDispatchRound (s : State) : Ans :=
  let s := s.dispatchRound
  .next (if s.q.preemptBy then s.abortScan else s)

/-- A saved context returns to the active bank (R351, R352). -/
def State.reload (s : State) (c : Ctx) (q : Seq) (os : List Out) : State :=
  let mine := os.map fun o => { o with bank := s.core.bank }
  ({ s with c := c, q := q, outs := s.outs ++ mine }).goOn

/-- A placed bead starts in its bank (R336, R347, R352). A bead dispatched from a strand finds the scalar cache empty (08
R233). -/
def State.startBead (s : State) (b : Bead) : State :=
  match b.saved with
  | some (c, q, os) => { s with core := { s.core with scache := [] } }.reload c { q with placedAt := s.hub.placedAt } os
  | none =>
    let c := s.startCtx b ((if s.oq.state = .empty then [] else heldStrips s.oc.cbmap s.oc.strips) ++ s.reservedStrips)
    let s := if b.strips = 0 then s.freshStrips c else s
    { s.dropUndo with c := c, q := { state := .active, placedAt := s.hub.placedAt }, core := { s.core with scache := [], planes := [], planesLost := s.now } }

/-- A placed bead starts; the drained bead that its bank still holds is evicted first (R351). -/
def execBeadStart (s : State) : Ans :=
  match s.hub.placing with
  | (b, bank, _) :: t =>
    let s := { s with hub := { s.hub with placing := t } }
    let s := if bank ≠ s.core.bank ∧ s.oq.state = .drained then s.evict else s
    .next ((if bank = s.core.bank then s else s.leaveBank).startBead b)
  | [] => .next s

/-- The victim halts (R349): it stays in its bank, draining; the new bead's start, no less than the 8 core cycles of the bank switch later,
switches banks. -/
def execPreemptionHalt (s : State) : Ans :=
  let n := min 255 (s.c.preempt.toNat + 1)
  let later (x : Bead × Bool × Nat) : Bead × Bool × Nat := (x.1, x.2.1, max x.2.2 (s.coreAfter 8))
  let s := { s with c := { s.c with preempt := BitVec.ofNat 8 n }, hub := { s.hub with placing := s.hub.placing.map later } }
  .next (s.parkBank .draining (.watch (s.coreAfter 72)))

/-- A parked core gives up the contexts that have drained (12 R397). -/
def State.evictParked (s : State) : State :=
  if !s.core.parked then s else
  let s := if s.evictable then s.evict else s
  if s.q.state = .drained ∧ s.switchBank.evictable then s.switchBank.evict else s

/-- A context has drained 64 core cycles after the switch, which takes 8: the bytes of its save area are the machine's own (R351; log 9). -/
def execContextDrainFinal (s : State) : Ans :=
  let drained (q : Seq) : Bool := q.state == .draining && (match q.wait with
    | .watch t => decide (t ≤ s.now)
    | _ => false)
  let done (s : State) (c : Ctx) : State :=
    { s with mem := s.mem.fill s.fresh (crownThrough c.cbmap s.core.phys (c.lastStrip + 0x68000)) 0x10000, fresh := s.fresh + 1 }
  let s := if drained s.oq then done { s with oq := { s.oq with state := .drained, wait := .none } } s.oc else s
  let s := if drained s.q then done { s with q := { s.q with state := .drained, wait := .none } } s.c else s
  .next s.evictParked

/-- Members of a SYNC clasp on other cores run again with this one (R354). -/
def State.wakeGang (s : State) (n : BitVec 20) : State :=
  if n = 0 then s else
  let wake (g : Guest) : Guest := if wClasp g.bead = n then { g with active := true } else g
  { s with hub := { s.hub with others := s.hub.others.map fun o => { o with guests := o.guests.map wake } } }

/-- A bead that waits in a bank goes on (R352): that of the active bank when it can, otherwise that of the other. -/
def State.resumed (s : State) : State :=
  let s := if s.q.state ≠ .active && (s.bankReady s.c s.q || !s.bankReady s.oc s.oq) then s else s.leaveBank
  s.goOn.wakeGang s.c.claspNo

def execResumption (s : State) : Ans := .next s.resumed

/-! ## Answers of the host (08 R232; 12 R381) -/

/-- The bank that an answer about a translation fault names. -/
def State.faultedBank (s : State) : Bool :=
  match s.arg with
  | .flag b => b
  | _ => if s.oq.state = .translation then !s.core.bank else s.core.bank

def execTranslationRetry (s : State) : Ans :=
  .next (s.settleBank s.faultedBank id fun q => if q.state = .translation then { q with eligible := true } else q)

/-- "Fail": the bead's next bundle is the first of its handler for trap 0x09. -/
def execTranslationFail (s : State) : Ans :=
  .next (s.settleBank s.faultedBank id fun q => if q.state = .translation then { q with eligible := true, atVector := true } else q)

def execResume (s : State) : Ans :=
  .next (if s.q.wait = .halted then s.settleBank s.core.bank id fun q => if q.wait = .halted then { q with eligible := true } else q else s)

/-- "Reset core": both banks' beads are discarded and each is posted as failed, under type 15 (log 20). -/
def execResetCore (s : State) : Ans :=
  let post (s : State) (c : Ctx) (q : Seq) : State := if q.state = .empty then s else s.post 15 0 s.core.phys c.bead 0 0
  let t := post (post s s.c s.q) s.oc s.oq
  .next { t with c := {}, q := {}, oc := {}, oq := {}, outs := [], undo := [], run := none, core := { t.core with planes := [], planesLost := t.now, scache := [] } }

/-! ## Strikes (12 R383-R387) -/

/-- The state to restore: the oldest record of a bank among the last 32 cycles. -/
def State.undoTo (s : State) (bank : Bool) : Option Undo :=
  (s.undo.filter fun u => u.bank == bank && decide (s.now ≤ u.cycle + Config.strikeHold)).getLast?

/-- An atomic or a barrier-object request whose bundle is discarded: it executes at its engine, and its answer writes nothing (R386). -/
def noAnswer (i : Instr) : Instr :=
  match i with
  | .atmAdd o _ h a x z => .atmAdd o 0 h a x z
  | .atmFadd o _ h a x z => .atmFadd o 0 h a x z
  | .atmMin o _ h a x z => .atmMin o 0 h a x z
  | .atmMax o _ h a x z => .atmMax o 0 h a x z
  | .atmAnd o _ h a x z => .atmAnd o 0 h a x z
  | .atmOr o _ h a x z => .atmOr o 0 h a x z
  | .atmXor o _ h a x z => .atmXor o 0 h a x z
  | .atmXchg o _ h a x z => .atmXchg o 0 h a x z
  | .atmCas o _ h a x z => .atmCas o 0 h a x z
  | .atmInc o _ h a x z => .atmInc o 0 h a x z
  | .bobInit _ h a x => .bobInit 0 h a x
  | .bobArr _ h a => .bobArr 0 h a
  | _ => i

/-- A load, or a load's answer on its way, which a discard makes again. -/
def Out.isLoad (o : Out) : Bool :=
  o.path != .a && (match o.work with
    | .load _ _ _ _ => true
    | .fetch _ _ _ _ _ => true
    | _ => false)

/-- A piece that the matrix engine has formed and that is not final. -/
def Out.isPiece (o : Out) : Bool :=
  o.path == .m && (match o.work with
    | .write _ _ _ _ => true
    | _ => false)

/-- What is left, after a discard, of something in hand that was not in hand at the record: requests of the hub, pieces of tile operations
that were, and requests that left at issue. The rest is discarded. -/
def Out.outlives (old : List Out) (o : Out) : Option Out :=
  match o.work with
  | .notice _ _ _ _ _ => none
  | .atom r =>
    if o.detached then some o
    else match r.instr with
      | .bobWait _ _ _ _ => none
      | .cbar _ => some o
      | i => some { o with ctr := .none, work := .atom { r with instr := noAnswer i } }
  | .write _ _ _ _ => if o.isPiece && old.any (fun x => x.bank == o.bank && x.path == .m && x.seq == o.seq) then some o else none
  | _ => none

/-- For how long a tile operation forms again what a discard takes from it: the time since the oldest of its pieces that are not final was
formed (06 R183, 07 R207). -/
def lostTime (now : Nat) (bank : Bool) (seq : Nat) (l : List Out) : Nat :=
  (l.filter fun x => x.bank == bank && x.seq == seq && x.isPiece && decide (now < x.due)).foldl (fun m x => max m (now + Config.strikeHold - x.due)) 0

/-- A tile operation, or a piece of one, comes later by the time that it forms again what it has lost. -/
def Out.reformed (now : Nat) (l : List Out) (o : Out) : Out :=
  let n := lostTime now o.bank o.seq l
  if o.isPiece then { o with due := o.due + n }
  else match o.work with
    | .tile op w =>
      if w.started.isSome then { o with due := max o.due now + n, work := .tile op { w with loads := w.loads + n } } else o
    | _ => o

/-- Operations in hand after a discard: of those that were in hand, the ones still in hand and loads that had returned, and of those that
have issued since what outlives it. -/
def keepOuts (now : Nat) (bank : Bool) (old l : List Out) : List Out :=
  let kept := old.filterMap fun o =>
    if o.bank != bank then none
    else match l.find? (·.id == o.id) with
      | some x => some x
      | none => if o.isLoad then some o else none
  let new := l.filterMap fun o =>
    if o.bank != bank then some o else if old.any (·.id == o.id) then none else o.outlives old
  (kept ++ new).map fun o => if o.bank == bank then o.reformed now l else o

/-- Requests of path A that have left the core since a record was made (R386). -/
def State.sentSince (s : State) (u : Undo) : Bool := s.core.sent.any fun x => x.1 == u.bank && decide (u.nextId ≤ x.2.1)

/-- A request that left since a record was made cannot be undone (R386). -/
def sentTrap : TrapRec := { code := 0x10, info := 1, slot := 0, iss := false, evt := true, now := true }

/-- A bank whose bead has halted, as a halt at a record would have left it: the resume window moves back to the oldest bundle that has a
discarded result (R350). -/
def haltedAt (c : Ctx) (q : Seq) (u : Undo) (sent : Bool) : Ctx × Seq :=
  ({ landAll u.c u.q.shadows with latch := Vector.replicate 3 none, preempt := c.preempt },
   { u.q.clear with state := q.state, wait := q.wait, resume := window u.c u.q, preemptBy := false
                    trap := if sent && !c.segOpen then some sentTrap else none })

/-- The results of a bank that are not final are discarded: the running bead's issue goes back to the oldest of them (R385, R386), a
halted one's resume window does (R350). The answer says whether there were any. The registers of sr.parkmax, sr.sleepmax and sr.tlimit are
restored with the running bead's. -/
def State.discard (s : State) (bank : Bool) : State × Bool :=
  let x := if bank = s.core.bank then (s.c, s.q) else (s.oc, s.oq)
  match s.undoTo bank with
  | none => (s, false)
  | some u =>
    let sent := s.sentSince u
    let took := s.core.took.filter fun (x : Bool × Nat × Nat) => x.1 == bank && decide (u.cycle ≤ x.2.2)
    let t := { s with
      outs := keepOuts s.now bank u.outs s.outs, undo := s.undo.filter (·.bank != bank)
      mem := took.foldl (fun (m : Mem) (x : Bool × Nat × Nat) => m.setFull x.2.1 true) s.mem
      core := { s.core with took := s.core.took.filter fun x => !took.contains x, sent := s.core.sent.filter (·.1 != bank) } }
    let late := !((s.outs.filter (·.bank == bank)).all fun o => u.outs.any (·.id == o.id))
    if x.2.state = .active then
      let l := u.limits
      let t := { t with
        c := u.c, q := { u.q with issueFrom := s.coreAfter 12, issueWhy := 16 }, run := none
        core := { t.core with parkmax := l.1, sleepmax := l.2.1, tlimit := l.2.2.1, tinterval := l.2.2.2, units := u.units, failed := u.failed } }
      (if sent && !s.c.segOpen then t.enterTrap sentTrap else t, late || decide ({ u.c with pc := s.c.pc } ≠ s.c))
    else if x.2.state = .draining then
      let y := haltedAt x.1 x.2 u sent
      (if bank = s.core.bank then { t with c := y.1, q := y.2 } else { t with oc := y.1, oq := y.2 }, late || decide (y.1 ≠ x.1))
    else (s, false)

/-- The cycle of the oldest bundle of the running bead with a discarded result: the state stood still from the oldest record to it. -/
def State.lostFrom (s : State) : Nat :=
  match s.undoTo s.core.bank with
  | none => s.now
  | some u => (((s.undo.filter fun x => x.bank == s.core.bank && decide (s.now ≤ x.cycle + Config.strikeHold)).reverse.takeWhile
      fun x => x.c == u.c && x.q.seq == u.q.seq).getLast?.map (·.cycle)).getD u.cycle

/-- The core discards what is not final of either bank. The cycles lost are a sample of the monitors, and those of discard and repeat count
in a stall counter (12 Tables 12-9, 12-11). -/
def State.discardAll (s : State) : State × Bool :=
  let n := s.lostFrom
  let o := s.discard (!s.core.bank)
  let d := o.1.discard s.core.bank
  let hit := d.2 || o.2
  if !hit then (d.1, false) else
  let t := d.1.sampleAll 10 ((s.coreAfter 12 : Int) - n)
  ({ t with core := { t.core with strikeEnd := if d.2 then s.coreAfter 12 + (s.now - n) else t.core.strikeEnd } }, true)

/-- A self-test goes on with its core's state where nothing is discarded, and is aborted (R410); one that a discard takes back has not
started. -/
def State.scanStands (s : State) (d : State × Bool) : State × Bool :=
  match s.q.wait with
  | .scan _ => if !d.2 then (s.abortScan, false) else match d.1.q.wait with
    | .scan _ => (d.1.abortScan, true)
    | _ => ({ d.1 with hub := d.1.hub.countOn s.board fun k => { k with scans := k.scans - 1 } }, true)
  | _ => d

/-- sr.strikes (Table 12-6). -/
def strikeWord (old : DWord) (region : Nat) (dsc : Bool) : DWord :=
  BitVec.ofNat 64 (min (fld old.toNat 0 32 + 1) 0xFFFFFFFF + region * 2 ^ 32 + if dsc then 2 ^ 36 else 0)

/-- A report names a region: its cores discard and repeat; more than 16 in 65,536 cycles post a record of type 9. A particle that no detector
reports inverts stored bits, or spoils the next read of granules (08 R235; log 39). -/
def execStrikeReport (s : State) : Ans :=
  match s.arg with
  | .region b r =>
    let mine := b.toNat == s.board && r.toNat == regionOfCore s.core.phys
    let s := if mine then
        let d := s.scanStands s.discardAll
        { d.1 with core := { d.1.core with strikes := strikeWord d.1.core.strikes r.toNat d.2 } }
      else s
    let here (x : Nat × Nat × Nat) : Bool := x.1 == b.toNat && x.2.1 == r.toNat
    let l := (b.toNat, r.toNat, s.now) :: s.hub.reports.filter fun x => decide (s.now < x.2.2 + 65536)
    if 16 < (l.filter here).length then
      .next (({ s with hub := { s.hub with reports := l.filter fun x => !here x } }).post 9 0 0xFFFF 0
        (BitVec.ofNat 64 (b.toNat * 16 + r.toNat)) 0)
    else .next { s with hub := { s.hub with reports := l } }
  | .upset bits reads =>
    .next { s with mem := { s.mem with
      wrong := bits.foldl (fun l b => if l.contains b then setDel l b else setAdd l b) s.mem.wrong
      flaky := reads.foldl setAdd s.mem.flaky } }
  | _ => .next s

/-! ## The host and the hub's configuration (11 R337-R339, R353, R355; 12 Table 12-14) -/

/-- A write of a strand's tail register. -/
def execStrandTailWrite (s : State) : Ans :=
  match s.arg with
  | .tail n v =>
    let t := fld v.toNat 0 32
    if s.lcap n.toNat = 0 ∨ 2 ^ s.lcap n.toNat < (t + 2 ^ 32 - s.strandHead n.toNat) % 2 ^ 32 then
      .next (s.post 6 0 0xFFFF 0 (BitVec.ofNat 64 (n.toNat + t * 2 ^ 32)) 0)
    else .next (s.setTail n.toNat t).noteReady
  | _ => .next s

/-- A clasp that the runtime creates, within the limits of the clasp table (R353); the write of another one has no effect (log 45). -/
def Hub.newClasp (k : Hub) (number : BitVec 20) (size : Nat) (sync : Bool) (packages : List Nat) (fallback : Option Nat) : Hub :=
  if number = 0 ∨ size = 0 ∨ 1023 < size ∨ (k.clasp number).isSome ∨ 4096 ≤ k.clasps.length ∨ (sync ∧ 1 < packages.length) then k else
  let ch := if sync then (List.range 64).find? fun c => !k.channels.contains c else none
  { k with
    channels := k.channels ++ ch.toList
    clasps := k.clasps ++ [
      { number := number, size := size, sync := sync, ranks := [], channel := ch, fallback := if ch.isSome then none else fallback,
        packages := packages, runtime := true, arrived := [], released := none, round := 0 }] }

/-- A record that waits for the error strand is posted once there is one (12 R399; log 11). -/
def State.postOwed (s : State) : State :=
  match s.hub.owed, s.hub.errorStrand with
  | some (t, w), some e =>
    if s.lcap e.toNat = 0 then s
    else { { s with now := t, hub := { s.hub with owed := none } }.post 12 0 0xFFFF 0 0 w with now := s.now }
  | _, _ => s

/-- A write of the runtime to the hub. A table of objects takes effect with the next object invalidation (08 R231). -/
def execHubConfigurationWrite (s : State) : Ans :=
  match s.arg with
  | .hub w => match w with
    | .objectTable base n => .next { s with hub := { s.hub with otNext := some (base.toNat, n) } }
    | .strandTable base => .next ({ s with hub := { s.hub with strandTable := base.toNat } }).noteReady.postOwed
    | .strandEntry n base lcap =>
      .next (s.poke (s.hub.strandTable + 32 * n.toNat) (natBytes 8 base.toNat ++ natBytes 8 lcap.toNat)).noteReady.postOwed
    | .errorStrand n => .next { s with hub := { s.hub with errorStrand := some n } }.postOwed
    | .clasp n size sync ps fb => .next { s with hub := s.hub.newClasp n size.toNat sync ps (fb.map (·.toNat)) }
    | .fallbackPool l => .next { s with hub := { s.hub with pool := l.map (·.toNat) } }
    | .waitPool base n => .next { s with hub := { s.hub with waitBase := base.toNat, waitSize := n } }
    | .hostLatency n => .next { s with hub := { s.hub with hostLatency := n } }
    | .telemetry base => .next { s with hub := { s.hub with telemetry := some base.toNat } }
    | .routeHops p n => .next { s with hub := { s.hub with hops := (p.toNat, n) :: s.hub.hops.filter (·.1 != p.toNat) } }
    | .accessControl p lo hi => .next { s with hub := { s.hub with access := s.hub.access ++ [(p.toNat, lo, hi)] } }
    | .strandVector v n x => .next { s with hub := { s.hub with vectors := s.hub.vectors ++ [(v.toNat, n, x)] } }
  | _ => .next s

/-- The checks of the loader (02 R65, R70). -/
def Exe.ok (e : Exe) : Bool :=
  e.elfClass == 2 && e.elfData == 1 && e.elfType == 2 && e.machine == 0x9A51 && e.eflags == 1 &&
  (e.strips.all fun r => (List.range r.index.toNat).all fun i => e.strips.any fun t => t.index.toNat == i)

/-- The runtime registers an executable; one that the loader refuses is not registered. -/
def execExecutableRegistration (s : State) : Ans :=
  match s.arg with
  | .exe e => .next (if Exe.ok e then { s with hub := { s.hub with exes := e :: s.hub.exes } } else s)
  | _ => .next s

end Sys2Proof.Machine
end

