-- ==== Sys2Proof/Machine/Crypto.lean ====
section
/-! DEFINITION. SHAKE256 (FIPS 202) and Ed448 (RFC 8032), by which images, digests and the attestation are checked and made (00 R2; 12 R404-R406). -/

namespace Sys2Proof.Machine

/-! ## SHAKE256: Keccak-f[1600] on 25 lanes, lane (x, y) at x + 5 y -/

/-- Round constants (FIPS 202, 3.2.5). -/
def keccakConstants : List DWord :=
  [0x0000000000000001, 0x0000000000008082, 0x800000000000808A, 0x8000000080008000, 0x000000000000808B, 0x0000000080000001,
   0x8000000080008081, 0x8000000000008009, 0x000000000000008A, 0x0000000000000088, 0x0000000080008009, 0x000000008000000A] ++
  [0x000000008000808B, 0x800000000000008B, 0x8000000000008089, 0x8000000000008003, 0x8000000000008002, 0x8000000000000080,
   0x000000000000800A, 0x800000008000000A, 0x8000000080008081, 0x8000000000008080, 0x0000000080000001, 0x8000000080008008]

/-- Rotation of each lane (FIPS 202, Table 2). -/
def keccakRotations : List Nat :=
  [0, 1, 62, 28, 27, 36, 44, 6, 55, 20, 3, 10, 43, 25, 39, 41, 45, 15, 21, 8, 18, 2, 61, 56, 14]

/-- Lane (x, y) of a state. -/
def laneAt (a : List DWord) (x y : Nat) : DWord := a[x % 5 + 5 * (y % 5)]?.getD 0

/-- A state from its lanes. -/
def keccakLanes (f : Nat → Nat → DWord) : List DWord := (List.range 25).map fun i => f (i % 5) (i / 5)

/-- One round: theta, rho and pi, chi, iota. -/
def keccakRound (a : List DWord) (rc : DWord) : List DWord :=
  let c := (List.range 5).map fun x => laneAt a x 0 ^^^ laneAt a x 1 ^^^ laneAt a x 2 ^^^ laneAt a x 3 ^^^ laneAt a x 4
  let col (x : Nat) : DWord := c.getD (x % 5) 0
  let t := keccakLanes fun x y => laneAt a x y ^^^ col (x + 4) ^^^ (col (x + 1)).rotateLeft 1
  let b := keccakLanes fun x y => (laneAt t (x + 3 * y) x).rotateLeft (keccakRotations[(x + 3 * y) % 5 + 5 * x]?.getD 0)
  let z := keccakLanes fun x y => laneAt b x y ^^^ (~~~laneAt b (x + 1) y &&& laneAt b (x + 2) y)
  z.modifyHead (· ^^^ rc)

def keccak (a : List DWord) : List DWord := keccakConstants.foldl keccakRound a

/-- Bytes of a block that SHAKE256 absorbs or squeezes at a time. -/
def shakeRate : Nat := 136

/-- The padded message. -/
def shakePad (m : List Byte) : List Byte :=
  let k := shakeRate - m.length % shakeRate
  m ++ if k = 1 then [0x9F] else 0x1F :: List.replicate (k - 2) 0 ++ [0x80]

/-- Add a block to the first lanes of a state. -/
def shakeAbsorb (a : List DWord) (block : List Byte) : List DWord :=
  keccak (a.mapIdx fun i w => w ^^^ BitVec.ofNat 64 (bytesNat ((block.drop (8 * i)).take 8)))

/-- The bytes that a state gives out, block by block. -/
def shakeSqueeze : Nat → List DWord → List Byte
  | 0, _ => []
  | n + 1, a => (a.take 17).flatMap (fun w => natBytes 8 w.toNat) ++ shakeSqueeze n (keccak a)

/-- SHAKE256 with an output of `n` bytes. -/
def shake256 (n : Nat) (m : List Byte) : List Byte :=
  let p := shakePad m
  let a := (List.range (p.length / shakeRate)).foldl (fun a i => shakeAbsorb a ((p.drop (shakeRate * i)).take shakeRate))
    (List.replicate 25 0)
  (shakeSqueeze ((n + shakeRate - 1) / shakeRate) a).take n

/-! ## Ed448 (RFC 8032, 5.2) -/

/-- The field's prime, the curve constant d = -39081, and the order of the base point. -/
def edP : Nat := 2 ^ 448 - 2 ^ 224 - 1
def edD : Nat := edP - 39081
def edL : Nat := 2 ^ 446 - 13818066809895115352007386748515426880336692474882178609894547503885

/-- A power modulo `m`; the first argument bounds the bits of the exponent. -/
def powMod (m : Nat) : Nat → Nat → Nat → Nat
  | 0, _, _ => 1 % m
  | k + 1, b, e =>
    let r := powMod m k (b * b % m) (e / 2)
    if e % 2 = 1 then r * b % m else r

def edInv (x : Nat) : Nat := powMod edP 448 x (edP - 2)

/-- A point in projective coordinates. -/
abbrev EdPoint := Nat × Nat × Nat

def edBase : EdPoint :=
  (224580040295924300187604334099896036246789641632564134246125461686950415467406032909029192869357953282578032075146446173674602635247710,
   298819210078481492676017930443930673437544040154080242095928241372331506189835876003536878655418784733982303233503462500531545062832660, 1)

/-- Sum of two points (RFC 8032, 5.2.4). -/
def edAdd (p q : EdPoint) : EdPoint :=
  let a := p.2.2 * q.2.2 % edP
  let b := a * a % edP
  let c := p.1 * q.1 % edP
  let d := p.2.1 * q.2.1 % edP
  let e := edD * (c * d % edP) % edP
  let f := (b + edP - e) % edP
  let g := (b + e) % edP
  let h := (p.1 + p.2.1) * (q.1 + q.2.1) % edP
  (a * f % edP * ((h + 2 * edP - c - d) % edP) % edP, a * g % edP * ((d + edP - c) % edP) % edP, f * g % edP)

/-- A multiple of a point; the first argument bounds the bits of the factor. -/
def edMul : Nat → Nat → EdPoint → EdPoint
  | 0, _, _ => (0, 1, 1)
  | k + 1, n, p =>
    let r := edMul k (n / 2) (edAdd p p)
    if n % 2 = 1 then edAdd r p else r

def edTimes (n : Nat) (p : EdPoint) : EdPoint := edMul 456 n p

/-- Whether two points are equal. -/
def edSame (p q : EdPoint) : Bool :=
  p.1 * q.2.2 % edP == q.1 * p.2.2 % edP && p.2.1 * q.2.2 % edP == q.2.1 * p.2.2 % edP

/-- The 57 bytes of a point: y, with the low bit of x on top (5.2.2). -/
def edEncode (p : EdPoint) : List Byte :=
  let z := edInv p.2.2
  natBytes 57 (p.2.1 * z % edP + p.1 * z % edP % 2 * 2 ^ 455)

/-- The point of 57 bytes, if they encode one (5.2.3). -/
def edDecode (bs : List Byte) : Option EdPoint :=
  let w := bytesNat bs
  let y := w % 2 ^ 455
  let sign := w / 2 ^ 455 % 2
  if bs.length ≠ 57 ∨ edP ≤ y then none else
  let u := (y * y + edP - 1) % edP
  let v := (edD * (y * y % edP) + edP - 1) % edP
  let u3v := u * u % edP * u % edP * v % edP
  let x := u3v * powMod edP 448 (u3v * (u * u % edP) % edP * (v * v % edP) % edP) ((edP - 3) / 4) % edP
  if v * (x * x % edP) % edP ≠ u then none
  else if x = 0 ∧ sign = 1 then none
  else some (if x % 2 = sign then x else edP - x, y, 1)

/-- The prefix of every hash of Ed448 with an empty context (5.2, dom4). -/
def edDom : List Byte := [0x53, 0x69, 0x67, 0x45, 0x64, 0x34, 0x34, 0x38, 0x00, 0x00]

/-- The secret scalar and the prefix of a 57-byte seed (5.2.5). -/
def edSecret (seed : List Byte) : Nat × List Byte :=
  let h := shake256 114 seed
  (bytesNat (h.take 56) / 4 * 4 % 2 ^ 447 + 2 ^ 447, h.drop 57)

/-- Public key of a seed. -/
def ed448Public (seed : List Byte) : List Byte := edEncode (edTimes (edSecret seed).1 edBase)

/-- The 114-byte signature of a message by a seed (5.2.6). -/
def ed448Sign (seed m : List Byte) : List Byte :=
  let k := edSecret seed
  let a := ed448Public seed
  let r := bytesNat (shake256 114 (edDom ++ k.2 ++ m)) % edL
  let rb := edEncode (edTimes r edBase)
  let h := bytesNat (shake256 114 (edDom ++ rb ++ a ++ m)) % edL
  rb ++ natBytes 57 ((r + h * k.1) % edL)

/-- Whether a signature of a message is valid under a public key (5.2.7). -/
def ed448Verify (key m sig : List Byte) : Bool :=
  match edDecode key, edDecode (sig.take 57) with
  | some a, some r =>
    let s := bytesNat (sig.drop 57)
    let h := bytesNat (shake256 114 (edDom ++ sig.take 57 ++ key ++ m)) % edL
    decide (sig.length = 114 ∧ s < edL) && edSame (edTimes s edBase) (edAdd r (edTimes h a))
  | _, _ => false

/-! ## Images (12 R404) -/

/-- Whether an image verifies: the digest of its header is that of its body, and its signature over the fields before it is one of the
root key or of a key chained to it. -/
def imageValid (bs : List Byte) : Bool :=
  let h := Config.imageHeader bs
  decide (h.1 = shake256 64 h.2.2.2) && Config.signingKeys.any fun k => ed448Verify k (h.2.1 ++ h.1) h.2.2.1

end Sys2Proof.Machine
end

