-- ==== Sys2Proof/Machine/Package.lean ====
section
/-! DEFINITION. Events of the package: refresh and scrub, monitors, power and temperature, links, host and remote accesses, translation, boot and attestation. -/

namespace Sys2Proof.Machine

/-- An input that cannot happen yet comes again in the next cycle. -/
def State.defer (s : State) (i : Instr) (p : Payload) : State := { s with agenda := (s.now + 1, i, p) :: s.agenda }

/-! ## Tower refresh (09 R295-R300) -/

/-- The slots of a tower pass to the next group, an interval's 128th part on (R295). -/
def State.nextSlot (s : State) (t : Nat) (g : BitVec 7) : State :=
  let slot := s.core.slots.toList[t]?.getD (0, 0)
  let at0 := if slot.2 = g ∧ slot.1 ≤ s.now then slot.1 else s.now
  { s with core := { s.core with slots := s.core.slots.setIfInBounds t (at0 + max 1 (8 * s.core.tinterval.toNat), g + 1) } }

/-- A group of a tower falls due for normal refresh. An overdue one is caught up. A slot passes while the core defers, and its group is
overdue; a group whose rows are all dead is skipped; while the tower is blocked, in the middle of a burst's row or has overdue groups, the
slot waits (R295, R297). One that comes from outside sets the phase of the tower's slots (log 43). -/
def State.normalRefresh (s : State) (t : Nat) (g : BitVec 7) : State :=
  let n := g.toNat
  let busy := s.refreshing t || s.midRow t
  if s.deferring then
    let s := s.nextSlot t g
    if s.groupDead t n then s else { s with core := { s.core with overdue := s.core.overdue.filter (· != (t, n)) ++ [(t, n)] } }
  else if s.core.overdue.contains (t, n) && !busy then s.refresh t n s.now
  else if busy || (s.oldestOverdue t).isSome then { s with core := { s.core with slots := s.core.slots.setIfInBounds t (s.now, g) } }
  else
    let s := s.nextSlot t g
    if s.groupDead t n then s else s.refresh t n s.now

def execNormalRefresh (s : State) : Ans :=
  match s.arg with
  | .group t g => .next (if 17 ≤ t then s else s.normalRefresh t g)
  | .far p t => .next (if p = s.core.phys ∨ 17 ≤ t then s else if s.midRowOn p t then s.defer .normalRefresh s.arg else s.farRefresh p t)
  | _ => .next s

/-- A group reaches its limit or the retention bound and is refreshed at once (R297). -/
def execForcedRefresh (s : State) : Ans :=
  match s.arg with
  | .group t g => .next (if 17 ≤ t then s else s.refresh t g.toNat s.now)
  | .far p t => .next (if p = s.core.phys ∨ 17 ≤ t then s else s.farRefresh p t)
  | _ => .next s

/-- Blocks that have ended go, and the next overdue groups follow (R297, R300). -/
def execGroupRefreshEnd (s : State) : Ans :=
  let s := { s with core := { s.core with blocked := s.core.blocked.filter fun b => decide (s.now ≤ b.2) } }
  .next (if s.core.deferEnd.isSome then s else s.catchUp)

def execDeferralEnd (s : State) : Ans := .next s.endDeferral

/-! ## Temperature (12 R401, R402) -/

def insertInt (x : Int) : List Int → List Int
  | [] => [x]
  | y :: t => if x ≤ y then x :: y :: t else y :: insertInt x t

/-- Twice the median. -/
def median2 (l : List Int) : Int :=
  let s := l.foldr insertInt []
  let n := s.length
  if n = 0 then 0 else if n % 2 = 1 then 2 * s[n / 2]?.getD 0 else s[n / 2 - 1]?.getD 0 + s[n / 2]?.getD 0

/-- The age at which a group is refreshed by force, in cycles. -/
def State.forceAge (s : State) : Nat := if s.core.deferEnd.isSome then min (1024 * s.retentionBound) (1024 * s.core.tlimit.toNat) else 1024 * s.retentionBound

/-- Interrupt 2 of the host: a power or thermal event (Table 12-14). -/
def State.powerMsi (s : State) : State := { s with hub := { s.hub with msix := s.hub.msix ++ [2] } }

/-! ## Power steps and throttling (12 R394-R398) -/

/-- Caps of Table 12-12 in milliwatts. -/
def capOf (step : Nat) : Nat := ([3600, 3200, 2700, 2200, 1700, 1200, 700, 300][step]?.getD 300) * 1000

/-- Actions that there are: 18, and one for each eight cores. -/
def Hub.lastAction (k : Hub) : Nat := 18 + (k.map.length + 7) / 8

/-- The core is parked or taken back as the actions state; a bead that runs on a core to be parked is pre-empted, and one on its way to it
is offered again elsewhere. -/
def State.applyPark (s : State) : State :=
  let p : Bool := ((s.hub.logicalOf s.core.phys).map fun l => s.hub.parks l).getD false
  let s := { s with
    core := { s.core with parked := p }
    hub := if p then { s.hub with placing := [], beads := s.hub.beads ++ s.hub.placing.map (fun (x : Bead × Bool × Nat) => x.1) } else s.hub }
  if p = true ∧ s.q.state = .active ∧ s.q.preemptBy = false then
    { s with q := { s.q with preemptBy := true }, hub := s.hub.countOn s.board fun k => { k with preemptions := k.preemptions + 1 } }.abortScan.evictParked
  else s.evictParked

/-- What is left of a data phase takes longer under a lower core clock, and less time under a higher one (09 R267). -/
def Out.retimed (o : Out) (now old new : Nat) : Out :=
  match o.work.burst.map Burst.stage with
  | some (Stage.moving start) =>
    let at0 := max start now
    if old = new then o else { o with due := at0 + ((o.due - at0) * old + new - 1) / new }
  | _ => if old = new then o else
    let slow (t : Nat) : Nat := if t ≤ now then t else now + ((t - now) * old + new - 1) / new
    let held (t : Nat) : Nat := slow (t - Config.strikeHold) + Config.strikeHold
    match o.work with
    | .tile op w =>
      if w.started.isNone then o
      else { o with due := if w.step < op.tileSteps w ∨ leadOf op.instr = 0 then slow o.due else held o.due
                    work := .tile op { w with loads := slow w.loads } }
    | .write _ _ _ _ => if o.path == .m && decide (now + Config.strikeHold < o.due) then { o with due := held o.due } else o
    | _ => o

/-- Interrupt 0 of the host: the mailbox has done a command (Table 12-14). -/
def State.mailboxMsi (s : State) : State := { s with hub := { s.hub with msix := s.hub.msix ++ [0] } }

/-- A change of the power state takes effect: on a new step, the actions that the controller's model predicts. -/
def State.setPower (s : State) (p : Power) : State :=
  let new := p.step != s.hub.power.step
  let p := if new then { p with actions := max p.actions (min (Config.throttleModel p.step) s.hub.lastAction), lowSince := none } else p
  let old := s.hub.power.clock
  let s := { s with hub := { s.hub with power := p }, outs := s.outs.map fun (o : Out) => o.retimed s.now old p.clock }
  (if new then s.powerMsi else s).applyPark

/-- The pins are sampled, and accepted when two samples in turn agree. -/
def execPstepSample (s : State) : Ans :=
  match s.arg with
  | .pins p =>
    let w := s.hub.power
    .next (s.setPower { w with lastPins := p, pins := if p = w.lastPins then p else w.pins })
  | _ => .next s

def execSetPowerStep (s : State) : Ans :=
  match s.arg with
  | .value v => .next (if s.hub.boot.recovery then s else (s.setPower { s.hub.power with command := v.setWidth 3 }).mailboxMsi)
  | _ => .next s

/-- The controller compares the measured power with the cap (R396). -/
def execThrottleEvaluation (s : State) : Ans :=
  match s.arg with
  | .milliwatts n =>
    let p := { s.hub.power with milliwatts := n }
    let cap := capOf p.step
    let q := if cap < n then { p with actions := min (p.actions + 1) s.hub.lastAction, lowSince := none }
      else if n * 10 < cap * 9 then match p.lowSince with
        | none => { p with lowSince := some s.now }
        | some t => if t + 70000 ≤ s.now then { p with actions := p.actions - 1 } else p
      else { p with lowSince := none }
    .next (s.setPower q)
  | _ => .next s

/-- Sensors that differ from the median of their neighbours by more than 6 degrees fail. -/
def Power.newFailures (p : Power) : List Nat :=
  (p.readings.filter fun r =>
    let n := p.good (adjacent r.1)
    !p.failedSensors.contains r.1 && !n.isEmpty && decide (48 < 2 * r.2 - median2 n ∨ 48 < median2 n - 2 * r.2)).map (·.1)

/-- Readings of the sensors (R401) and their effect on the step (R402). -/
def execSensorCheck (s : State) : Ans :=
  match s.arg with
  | .readings rs =>
    let p := { s.hub.power with readings := rs }
    let bad := p.newFailures
    let p := { p with failedSensors := p.failedSensors ++ bad }
    let s := bad.foldl (fun s c => s.post 8 0 c 0 0 0) s
    let now : List Int := rs.filterMap fun r => p.reading r.1
    let hot := now.any fun r => decide (460 ≤ r)
    let warm := now.any fun r => decide (400 ≤ r)
    let cool := now.all fun r => decide (r ≤ 380)
    let lowered := if warm then true else if cool then false else p.lowered
    let q := { p with lowered := lowered, tripped := p.tripped || hot }
    let s := if hot && !p.tripped then s.post 14 0 0xFFFF 0 0 0 else s
    .next (s.setPower q)
  | _ => .next s

/-! ## Monitors (12 R390) -/

/-- Copies in the copy engine and tile operations in the matrix engine. -/
def State.copyDepth (s : State) : Nat := (s.outs.filter fun o => match o.work with
  | .copy _ _ _ _ _ => true
  | _ => false).length

/-- Samples that fall in a cycle for their periods of Table 12-9; a sample of power, or of a source that the model does not
compute, comes from outside (log 13). -/
def execMonitorSample (s : State) : Ans :=
  match s.arg with
  | .sample u v =>
    let on (m : Mon) : Mon := if m.running then m.sample v.toInt else m
    .next { s with core := { s.core with mon := s.core.mon.mapIdx fun i m => if i = u.toNat then on m else m } }
  | _ =>
    let s := { s with core := { s.core with monAt := s.now + 1 } }
    let s := if s.now % 64 = 0 then (s.sampleAll 3 s.copyDepth).sampleAll 4 ((s.tileQueue s.core.bank).length) else s
    let s := if s.now % 1024 = 0 then
        let t := s.sampleAll 9 s.core.crownRefused
        { t with core := { t.core with crownRefused := 0 } }
      else s
    .next (match s.hub.power.reading s.core.phys with
      | some r => if s.now % 700000 = 0 then s.sampleAll 6 r else s
      | none => s)

/-! ## Links and other packages (09 R277, R278, R305; 01 R16) -/

/-- Whether a copy in hand moves data to or from a package. -/
def Out.copyNames (o : Out) (p : Nat) : Bool :=
  match o.work with
  | .copy op dmap smap pair _ => match op.instr with
    | .copy _ h m _ _ _ _ _ _ =>
      let sides := copySides op pair h m
      [(sides.1, dmap), (sides.2, smap)].any fun d => decide (3 ≤ hClass d.1.h) && (List.range d.1.rg.total).any fun e =>
        (remotePackage (d.1.globalPlace (d.1.rg.fmt op.iss d.1.h) d.2 e).2.1).any fun q => q.1 == p
    | _ => false
  | _ => false

/-- A copy in flight ends with status lost: old or new bytes per 32-byte unit, and its barrier arrival is made. -/
def State.loseCopy (s : State) (o : Out) : State :=
  let arrive (s : State) : State :=
    match o.work with
    | .copy op _ _ _ _ => (match op.instr with
      | .copy _ _ _ _ _ _ _ _ bo => if bo = 1 then s.engineArrival o op else s
      | _ => s)
    | _ => s
  arrive ((s.status o 0x100).stopTransfer o)

def execLinkDown (s : State) : Ans :=
  match s.arg with
  | .package p =>
    let n := p.toNat
    let hit := s.outs.filter fun o => o.copyNames n
    let s := { s with hub := { s.hub with lost := setAdd s.hub.lost n, hops := s.hub.hops.filter (·.1 != n) } }
    .next (hit.foldl State.loseCopy s)
  | _ => .next s

def execRouteRestore (s : State) : Ans :=
  match s.arg with
  | .package p => .next { s with hub := { s.hub with lost := setDel s.hub.lost p.toNat } }
  | _ => .next s

/-- An access of the host or of another package at a home memory port: a write, or a read whose bytes are the answer. At
P7 it waits (12 R398). -/
def State.portAccess (s : State) (i : Instr) (addr : DWord) (len : Nat) (data : Option (List Byte)) : State :=
  let a := addr.toNat
  if s.hub.power.step = 7 then s.defer i s.arg else
  match data with
  | some bs =>
    let ps : List Part := [{ addr := a, bytes := bs }]
    let s := s.portWrite ps
    let r := s.mem.puts s.fresh false ps
    r.2.foldl (fun s g => s.post 3 0 0xFFFF 0 (BitVec.ofNat 64 g) (s.dropWord s.c.cbmap g)) { s with mem := r.1, fresh := s.fresh + 1 }
  | none =>
    let e := s.mem.checks s.fresh (granules a len)
    let s := { s with mem := e.1, fresh := s.fresh + 1 }.portRead a len (s.hub.cachedAt a)
    { s with hub := { s.hub with answer := s.mem.bytes a len } }

/-- A host access to device-half memory (12 Table 12-14). -/
def execCxlMemAccess (s : State) : Ans :=
  match s.arg with
  | .access _ a len d => .next (if deviceHalf a.toNat && !s.hub.boot.recovery then s.portAccess .cxlMemAccess a len d else s)
  | _ => .next s

/-- A host access to a host-half line that an atomic engine holds: the engine gives the line up (10 R324). -/
def execCxlCacheRecall (s : State) : Ans :=
  match s.arg with
  | .access _ a len d =>
    if deviceHalf a.toNat then .next s else
    let lines := lines64 a.toNat (max len 1)
    let s := { s with hub := { s.hub with engines := s.hub.engines.filter fun l => !lines.contains l.line } }
    .next (match d with
      | some bs => s.poke a.toNat bs
      | none => { s with hub := { s.hub with answer := s.mem.bytes a.toNat len } })
  | _ => .next s

/-- A copy engine of another package reads or writes device-half memory of this one. -/
def execRemotePackageAccess (s : State) : Ans :=
  match s.arg with
  | .access _ a len d => .next (if deviceHalf a.toNat then s.portAccess .remotePackageAccess a len d else s)
  | _ => .next s

/-- A fall-back read of another package: it sees the stacks, not the board caches, and only what the access-control table
admits. At P7 it waits (12 R398). -/
def execFallBackReadRequest (s : State) : Ans :=
  match s.arg with
  | .access p a len _ =>
    if s.hub.power.step = 7 then .next (s.defer .fallBackReadRequest s.arg) else
    let ok := s.hub.access.any fun x => x.1 == p && decide (x.2.1 ≤ a.toNat ∧ a.toNat + len ≤ x.2.2)
    let bytes := if ok && bcHome a.toNat then (List.range len).map fun i => s.stackByte (a.toNat + i) else []
    .next { s with hub := { s.hub with answer := bytes } }
  | _ => .next s

/-! ## Translation (08 R231) -/

/-- Changes of the object table, of its place and size among them, take effect. -/
def execObjectInvalidation (s : State) : Ans :=
  let t := s.hub.otNext.getD (s.hub.otBase, s.hub.otSize)
  let s := s.portFetch t.1 (16 * t.2)
  .next { s with hub := { s.hub with
    otBase := t.1, otSize := t.2, otNext := none
    otCells := s.mem.cells.filter fun c => decide (t.1 ≤ c.1 ∧ c.1 < t.1 + 16 * t.2) } }

/-- A host page's translation changes, once no access in hand uses it. -/
def execAtsInvalidation (s : State) : Ans :=
  match s.arg with
  | .page p present =>
    if s.outs.any fun o => s.writesRange o (p * 4096) 4096 || s.readsRange o (p * 4096) 4096 then
      .next (s.defer .atsInvalidation s.arg)
    else .next { s with hub := { s.hub with pages := if present then setAdd s.hub.pages p else setDel s.hub.pages p } }
  | _ => .next s

/-! ## Scrubs and telemetry (12 R388, R408; 09 R304) -/

/-- The patrol scrubber reads one crown line: the argument is its physical crown address. -/
def execPatrolScrub (s : State) : Ans :=
  let s := { s with core := { s.core with scrubAt := (s.now / 512 + 1) * 512 } }
  match s.arg with
  | .value v => .next (s.scrub (crownAddr s.core.phys (v.toNat % 2 ^ 23 / 64 * 64)) 64)
  | _ => .next s

/-- Add to a count of `n` bits that holds at its maximum. -/
def holdAdd (n a b : Nat) : Nat := min (2 ^ n - 1) (a + b)

/-- The stack that holds a device-half HBM address (08 Table 8-6). -/
def stackOf (g : Nat) : Nat := 2 * homeBoard g + fld g 8 1

/-- The 32 bytes of a stack's record (Table 9-10). -/
def State.stackRecord (s : State) (k : Nat) : List Byte :=
  let c := s.hub.stackCounts.toList[k]?.getD (0, 0, 0, 0)
  let dead := 1024 * (s.mem.dead.filter fun u => bcHome u && stackOf u == k).length
  natBytes 8 c.1 ++ natBytes 8 c.2.1 ++ natBytes 4 c.2.2.1 ++ natBytes 4 c.2.2.2 ++ natBytes 8 dead

/-- Dispatch rounds since reset: recovery mode makes none (12 R403). -/
def State.rounds (s : State) : Nat :=
  s.now / 8 - s.hub.boot.silent - (match s.hub.boot.silentFrom with
    | some t => s.now / 8 - t / 8
    | none => 0)

/-- The 64 bytes of a board's arbiter record (Table 12-15). -/
def State.arbiterRecord (s : State) (b : Nat) : List Byte :=
  let c := s.hub.counts.toList[b]?.getD {}
  natBytes 8 s.rounds ++ natBytes 8 c.placed ++ natBytes 8 c.preemptions ++ natBytes 8 c.promotions ++ natBytes 8 c.scans ++
    natBytes 8 c.scanAborts ++ natBytes 8 c.scanFails ++ natBytes 4 c.removed ++ natBytes 2 s.hub.map.length ++
    natBytes 1 s.hub.power.step ++
    natBytes 1 ((if s.hub.power.failedSensors.isEmpty then 0 else 1) + if s.hub.power.lowered then 2 else 0)

/-- The telemetry object: sixteen stack records, then the arbiter records of the boards. -/
def State.publish (s : State) : State :=
  match s.hub.telemetry with
  | none => s
  | some a => s.poke a ((List.range 16).flatMap s.stackRecord ++ (List.range 8).flatMap s.arbiterRecord)

/-- A stack controller completes a scrub pass: what it found comes from outside. -/
def execStackScrubPass (s : State) : Ans :=
  match s.arg with
  | .scrub k corr uncorr repairs bad =>
    let c := s.hub.stackCounts.get k.toFin
    let s := bad.foldl (fun s g => { s with mem := s.mem.setPoison (g / 32 * 32) }.post 2 0 0xFFFF 0 (BitVec.ofNat 64 g)
      (s.dropWord s.c.cbmap (g / 32 * 32))) s
    let n := (holdAdd 64 c.1 corr, holdAdd 64 c.2.1 uncorr, holdAdd 32 c.2.2.1 1, holdAdd 32 c.2.2.2 repairs)
    .next { s with hub := { s.hub with stackCounts := s.hub.stackCounts.set k.toNat n k.isLt } }.publish
  | _ => .next s

/-! ## Power failure (12 R399, R400) -/

/-- Trap 0x16 recorded in a context without its handler being entered; a restored bead goes on in that handler. -/
def powerTrap (now source : Nat) (c : Ctx) (q : Seq) (w : DWord × DWord × DWord × DWord) : Ctx × Seq :=
  let t : TrapRec := { code := 0x16, info := BitVec.ofNat 64 (source + now % 2 ^ 56 * 256), slot := 0, iss := false, evt := true, now := true }
  let c := c.trapTo w t q.shadows
  (c, { q.clear with state := .drained, trap := none, atVector := true, resume := (c.pc, 0, c.pc, 0) })

/-- The window at which a bead that waits in a bank would go on. -/
def waitWindow (c : Ctx) (q : Seq) : DWord × DWord × DWord × DWord :=
  if q.state = .translation then (c.epc, c.slip, c.enpc, c.repc) else q.resume

/-- The record of a context that leaves its core (R351). -/
def imagedContext (x : Ctx × Seq) (logical image : Nat) : PfContext :=
  { record := mkRec 1 x.1.pc x.1.bead (putField x.1.home 0 10 logical) ((List.range 4).map fun i => x.1.rx (BitVec.ofNat 5 (i + 1))) 0
    c := x.1, q := x.2, image := image }

/-- What the hub streams to flash for a context: its record, and 64 KiB. -/
def PfContext.bytes (x : PfContext) : List Byte := natBytes 64 x.record.toNat ++ (List.range 65536).map (Config.contextImage x.image)

/-- Power fails: the argument's bit 0 is the source, bit 1 is set when no hold-up charge backs the package. The contexts go
to flash; the engines stop. -/
def execPowerFail (s : State) : Ans :=
  match s.arg with
  | .pins p =>
    let s := (if s.scanEnded then s.testEnded else s.abortScan).endScan
    let source := if p.getLsbD 0 then 1 else 0
    let a := if s.q.state = .active then [powerTrap s.now source s.c s.q (window s.c s.q)]
      else if s.q.state = .empty then [] else [powerTrap s.now source s.c s.q (waitWindow s.c s.q)]
    let b := if s.oq.state = .empty then [] else [powerTrap s.now source s.oc s.oq (waitWindow s.oc s.oq)]
    let contexts := (a ++ b).mapIdx fun i x => imagedContext x s.logical (s.fresh + i)
    let image : PfImage := { complete := !p.getLsbD 1, digest := shake256 64 (contexts.flatMap PfContext.bytes), contexts := contexts }
    .next { s with fresh := s.fresh + contexts.length, c := {}, q := {}, oc := {}, oq := {}, outs := [], run := none, undo := [], agenda := s.agenda
                   hub := { s.hub with boot := { s.hub.boot with pfImage := some image }, placing := [] } }
  | _ => .next s

/-- A context of a checked image as a bead that the arbiter resumes on its core. -/
def restored (now : Nat) (x : PfContext) : Bead :=
  { record := x.record
    strand := x.c.strand, index := x.c.index, ready := some now, strips := x.c.cbmap, saved := some (x.c, x.q, []), gang := false }

/-- A complete image whose digest is that of its bytes. -/
def PfImage.checked (i : PfImage) : Bool := i.complete && i.digest == shake256 64 (i.contexts.flatMap PfContext.bytes)

/-- Power returns: the package resets, with the map of the configuration image (R411), and crown, towers and HBM hold nothing that can be
relied on (log 9). The record of type 12 waits for the runtime to name the error strand again. The argument says whether the runtime restores
the beads of a complete image, whose digest the Bastus controller checks. -/
def execPowerReturn (s : State) : Ans :=
  let image := s.hub.boot.pfImage
  let boot := { s.hub.boot with pfImage := none, digests := [], report := [], signature := [], silent := 0, silentFrom := none }
  let mem : Mem := ({} : Mem).scramble s.fresh (2 ^ 63) (2 ^ 66 - 2 ^ 63)
  let t : State := { mem := mem, fresh := s.fresh + 1, core := { phys := s.core.phys, remap := s.core.remap, strikes := 0 }
                     hub := { map := boot.map, boot := boot, staging := s.hub.staging
                              owed := image.map fun i => (0, if i.complete then 0 else 1) }, agenda := s.agenda }
  match image, s.arg with
  | some i, .flag true => .next (if i.checked then { t with hub := { t.hub with beads := i.contexts.map (restored t.now) } } else t)
  | _, _ => .next t

/-! ## Boot, images, attestation (12 R403-R406) -/

/-- The copy of an image that verifies: A, then B. -/
def BootState.verified (b : BootState) (image : BitVec 5) : Option (List Byte) :=
  let copy (second : Bool) : Option (List Byte) :=
    ((b.flash.find? fun f => f.1 == image && f.2.1 == second).map (·.2.2)).filter imageValid
  match copy false with
  | some x => some x
  | none => copy true

/-- Whether the table that a configuration image holds for a core names one physical tower for two logical towers (01 R26). -/
def remapTwice (bytes : List Byte) (phys : Nat) : Bool :=
  let r := (Config.imageRemap bytes phys).toList
  decide (r.eraseDups.length < r.length)

def insertNat (x : Nat) : List Nat → List Nat
  | [] => [x]
  | y :: t => if x ≤ y then x :: y :: t else y :: insertNat x t

/-- The logical core map of a configuration image (01 R26, R33): the map it gives, or the cores it contains in increasing order, without
those whose remap table the boot rejects. -/
def configMap (bytes : List Byte) : List Nat :=
  ((Config.imageMap bytes).getD ((Config.imageCores bytes).foldr insertNat [])).filter fun p => !remapTwice bytes p

/-- The remap table of a core after the load of a configuration image: a rejected table is not loaded. -/
def configRemap (bytes : List Byte) (phys : Nat) (old : Vector (BitVec 5) 16) : Vector (BitVec 5) 16 :=
  if remapTwice bytes phys then old else Config.imageRemap bytes phys

/-- The records of the other cores with the remap tables that a configuration image holds for them. -/
def Hub.configured (k : Hub) (bytes : List Byte) (own : Nat) : List Other :=
  ((List.range 512).filter (· != own)).map fun p => { k.other p with remap := configRemap bytes p (k.other p).remap }

/-- Load a configuration image at boot: the remap tables of the cores, the map, the staging sizes (01 R26, R33; 04 R128). The spec says
nothing of an entry of 17 to 31: the model loads it as it stands (DESIGN CHOICE, log 11). -/
def State.applyConfig (s : State) (bytes : List Byte) : State :=
  let map := configMap bytes
  { s with
    core := { s.core with remap := configRemap bytes s.core.phys s.core.remap }
    hub := { s.hub with
      map := map
      others := s.hub.configured bytes s.core.phys
      staging := (List.range 8).map (Config.imageStaging bytes)
      boot := { s.hub.boot with config := bytes, map := map } } }

/-- The images of a boot in order, when each has a copy that verifies. -/
def BootState.images (b : BootState) : Option (List (List Byte)) := (List.range 19).mapM fun i => b.verified (BitVec.ofNat 5 i)

/-- The digest that the header of an image holds (R404). -/
def imageDigest (bytes : List Byte) : List Byte := (Config.imageHeader bytes).1

/-- The seed of the device identity: SHAKE256 of the corrected pattern (R405). -/
def BootState.seed (b : BootState) : List Byte := shake256 57 (Config.correctedPattern b.pattern b.helper)

/-- Boot: the images in order (R403), with the pattern of the identity (R405); when one has no copy that verifies, the package stays in
recovery mode, in which no dispatch round falls. -/
def execBoot (s : State) : Ans :=
  let b := { s.hub.boot with pattern := Config.sparePattern s.fresh }
  let s := { s with fresh := s.fresh + 1 }
  match b.images, b.verified Config.configImage with
  | some l, some c =>
    let silent := match b.silentFrom with
      | some t => b.silent + (s.now / 8 - t / 8)
      | none => b.silent
    .next ({ s with hub := { s.hub with boot := { b with
      recovery := false, silent := silent, silentFrom := none, digests := l.map imageDigest } } }.applyConfig c)
  | _, _ => .next { s with hub := { s.hub with boot := { b with recovery := true, silentFrom := some (b.silentFrom.getD s.now) } } }

/-- Attestation: a report with the nonce, signed with the identity key. -/
def execAttestation (s : State) : Ans :=
  match s.arg with
  | .bytes nonce =>
    let b := s.hub.boot
    if b.recovery ∨ 64 < nonce.length then .next s else
    let report := ed448Public b.seed ++ b.digests.flatten ++ shake256 64 b.config ++
      s.hub.map.flatMap (natBytes 2) ++ nonce
    let sig := ed448Sign b.seed report
    .next { s with hub := { s.hub with
      boot := { b with report := report, signature := sig }, answer := report ++ sig } }.mailboxMsi
  | _ => .next s

/-- The host writes an image to flash. A configuration image that verifies ends the changes that `cmap` made to the map
(R411), and attestation reports its digest too (R406); its own tables and map are loaded at the next boot (04 R128). -/
def execImageWrite (s : State) : Ans :=
  match s.arg with
  | .image n second bytes =>
    let b := s.hub.boot
    let flash := (n, second, bytes) :: b.flash.filter fun f => !(f.1 == n && f.2.1 == second)
    let applies := n == Config.configImage && imageValid bytes && !b.recovery
    let digests := if applies && !b.digests.contains (imageDigest bytes) then b.digests ++ [imageDigest bytes] else b.digests
    .next { s with hub := { s.hub with boot := { b with flash := flash, digests := digests }, map := if applies then b.map else s.hub.map } }.mailboxMsi
  | _ => .next s

end Sys2Proof.Machine
end

