-- ==== Sys2Proof/Machine/ScalarFp.lean ====
section
/-! DEFINITION. Slot C: FP64 scalar instructions and conversions (04 R111-R116). ftz, daz and the trap enables are those of sr.fpcr at the issue of the bundle. -/

namespace Sys2Proof.Machine

/-- Modes of a scalar operation with rounding field `r`. -/
def State.fpEnv (s : State) (r : BitVec 2) : FpEnv :=
  { mode := r.toNat, ftz := s.lat.iss.fpcr.getLsbD 2, daz := s.lat.iss.fpcr.getLsbD 3 }

/-- A two-operand operation (R112): x(d) := the rounded result, with flags or trap 0x0F. -/
def fp2 (f : FpEnv → Nat → Nat → Nat × Fl) (d a b : BitVec 5) (g : BitVec 3) (r : BitVec 2) (s : State) : Ans :=
  .next (s.guarded g fun s =>
    let y := f (s.fpEnv r) (s.c.rx a).toNat (s.c.rx b).toNat
    s.finishFp y.2 (·.wx d (BitVec.ofNat 64 y.1)))

def execFaddD (d a b : BitVec 5) (g : BitVec 3) (r : BitVec 2) (s : State) : Ans := fp2 (fpAdd fp64) d a b g r s
def execFsubD (d a b : BitVec 5) (g : BitVec 3) (r : BitVec 2) (s : State) : Ans := fp2 (fpSub fp64) d a b g r s
def execFmulD (d a b : BitVec 5) (g : BitVec 3) (r : BitVec 2) (s : State) : Ans := fp2 (fpMul fp64) d a b g r s
def execFdivD (d a b : BitVec 5) (g : BitVec 3) (r : BitVec 2) (s : State) : Ans := fp2 (fpDiv fp64) d a b g r s
def execFminD (d a b : BitVec 5) (g : BitVec 3) (s : State) : Ans :=
  fp2 (fun v => fpMinMax fp64 v.daz false) d a b g 0 s
def execFmaxD (d a b : BitVec 5) (g : BitVec 3) (s : State) : Ans :=
  fp2 (fun v => fpMinMax fp64 v.daz true) d a b g 0 s

/-- R113. -/
def execFsqrtD (d a : BitVec 5) (g : BitVec 3) (r : BitVec 2) (s : State) : Ans :=
  fp2 (fun v x _ => fpSqrt fp64 v x) d a a g r s

/-- R114. -/
def execFfmaD (d a b : BitVec 5) (g : BitVec 3) (c : BitVec 5) (r : BitVec 2) (s : State) : Ans :=
  .next (s.guarded g fun s =>
    let y := fpFma fp64 (s.fpEnv r) (s.c.rx a).toNat (s.c.rx b).toNat (s.c.rx c).toNat
    s.finishFp y.2 (·.wx d (BitVec.ofNat 64 y.1)))

/-- R115. -/
def execFcmpD (k : BitVec 3) (a b : BitVec 5) (g c : BitVec 3) (s : State) : Ans :=
  if 3 < c.toNat then .next (s.raiseIssue 0x01)
  else .next (s.guarded g fun s =>
    let y := fpCmp fp64 (s.fpEnv 0).daz c.toNat (s.c.rx a).toNat (s.c.rx b).toNat
    s.finishFp y.2 (·.wk k y.1))

/-- i64 or n64 to FP64 (R116): rounded once; an exact zero is +0. -/
def fromInt (x : Int) (v : FpEnv) : Nat × Fl := fp64.roundFV v.mode false (ofInteger x)

def execFcvtDI (d a : BitVec 5) (g : BitVec 3) (r : BitVec 2) (s : State) : Ans :=
  fp2 (fun v x _ => fromInt (BitVec.ofNat 64 x).toInt v) d a a g r s
def execFcvtDN (d a : BitVec 5) (g : BitVec 3) (r : BitVec 2) (s : State) : Ans :=
  fp2 (fun v x _ => fromInt x v) d a a g r s

/-- FP64 to an integer of 64 bits (R78). -/
def toInt64 (signed : Bool) (v : FpEnv) (x : Nat) : Nat × Fl :=
  let y := toInteger v.mode (intLo 64 signed) (intHi 64 signed) (fp64.decode false x)
  ((y.1 % 2 ^ 64).toNat, y.2)

def execFcvtID (d a : BitVec 5) (g : BitVec 3) (r : BitVec 2) (s : State) : Ans :=
  fp2 (fun v x _ => toInt64 true v x) d a a g r s
def execFcvtND (d a : BitVec 5) (g : BitVec 3) (r : BitVec 2) (s : State) : Ans :=
  fp2 (fun v x _ => toInt64 false v x) d a a g r s

/-- A value of one IEEE format rounded into another, with daz on the input and ftz on the result (R83, R116). -/
def fpConvert (src dst : Fmt) (v : FpEnv) (x : Nat) : Nat × Fl :=
  let a := src.decode v.daz x
  let y := dst.roundFV v.mode v.ftz a
  (y.1, y.2 ||| snanFlag [a])

/-- FP32 in x(a)[31:0] to FP64, exact; ftz acts on rounded results only, and nothing is rounded. -/
def execFcvtDS (d a : BitVec 5) (g : BitVec 3) (s : State) : Ans :=
  fp2 (fun v x _ => fpConvert fp32 fp64 { v with ftz := false } (x % 2 ^ 32)) d a a g 0 s
def execFcvtSD (d a : BitVec 5) (g : BitVec 3) (r : BitVec 2) (s : State) : Ans :=
  fp2 (fun v x _ => fpConvert fp64 fp32 v x) d a a g r s

end Sys2Proof.Machine
end

