-- ==== Sys2Proof/Machine/VectorInt.lean ====
section
/-! DEFINITION. Slot V: integer lanes and masks (05 R158-R160). No integer instruction raises a flag. -/

namespace Sys2Proof.Machine

/-- Signed() of a lane, and a signed result modulo 2^32. -/
def sgn32 (a : Nat) : Int := (BitVec.ofNat 32 a).toInt
def wrap32 (a : Int) : Nat := (BitVec.ofInt 32 a).toNat
def satS (a : Int) : Nat := wrap32 (max (-(2 ^ 31)) (min a (2 ^ 31 - 1)))
def satU (a : Int) : Nat := (max 0 (min a (2 ^ 32 - 1))).toNat

/-- Table 5-6, by sub-operation. -/
def iAdd (s a b : Nat) : Nat :=
  match s with
  | 0 => (a + b) % 2 ^ 32
  | 1 => satS (sgn32 a + sgn32 b)
  | _ => satU ((a + b : Nat) : Int)
def iSub (s a b : Nat) : Nat :=
  match s with
  | 0 => wrap32 ((a : Int) - b)
  | 1 => satS (sgn32 a - sgn32 b)
  | _ => satU ((a : Int) - b)
def iMul (s a b : Nat) : Nat :=
  match s with
  | 0 => a * b % 2 ^ 32
  | 1 => wrap32 (sgn32 a * sgn32 b / 2 ^ 32)
  | _ => a * b / 2 ^ 32
def iMad (s a b c : Nat) : Nat :=
  match s with
  | 0 => (a * b + c) % 2 ^ 32
  | _ => satS (sgn32 a * sgn32 b + sgn32 c)

/-- A lane operation without flags. -/
def State.int2 (s : State) (d a b : BitVec 6) (w : BitVec 2) (m : BitVec 3) (f : Nat → Nat → Nat) : State :=
  s.lane2 d a b w m fun x y => (f x y, 0)

def execViadd (d a b : BitVec 6) (w : BitVec 2) (m : BitVec 3) (k : BitVec 2) (s : State) : Ans :=
  .next (if k = 3 then s.raiseIssue 0x01 else s.int2 d a b w m (iAdd k.toNat))
def execVisub (d a b : BitVec 6) (w : BitVec 2) (m : BitVec 3) (k : BitVec 2) (s : State) : Ans :=
  .next (if k = 3 then s.raiseIssue 0x01 else s.int2 d a b w m (iSub k.toNat))
def execVimul (d a b : BitVec 6) (w : BitVec 2) (m : BitVec 3) (k : BitVec 2) (s : State) : Ans :=
  .next (if k = 3 then s.raiseIssue 0x01 else s.int2 d a b w m (iMul k.toNat))
def execVimad (d a b : BitVec 6) (w : BitVec 2) (m : BitVec 3) (k : BitVec 2) (s : State) : Ans :=
  .next (if 2 ≤ k.toNat then s.raiseIssue 0x01 else s.lane3 d a b w m fun x y z => (iMad k.toNat x y z, 0))

def execVand (d a b : BitVec 6) (w : BitVec 2) (m : BitVec 3) (s : State) : Ans := .next (s.int2 d a b w m (· &&& ·))
def execVor (d a b : BitVec 6) (w : BitVec 2) (m : BitVec 3) (s : State) : Ans := .next (s.int2 d a b w m (· ||| ·))
def execVxor (d a b : BitVec 6) (w : BitVec 2) (m : BitVec 3) (s : State) : Ans := .next (s.int2 d a b w m (· ^^^ ·))
def execVnot (d a : BitVec 6) (w : BitVec 2) (m : BitVec 3) (s : State) : Ans :=
  .next (s.lane1 d a w m fun x => (2 ^ 32 - 1 - x, 0))

/-- Shifts of a lane by 0 to 31. -/
def iShl (a n : Nat) : Nat := a * 2 ^ n % 2 ^ 32
def iShr (a n : Nat) : Nat := a / 2 ^ n
def iSar (a n : Nat) : Nat := wrap32 (sgn32 a / 2 ^ n)

/-- A shift: by B[4:0] of the register, or by the b field's value, of which 32-63 is illegal. -/
def State.shiftLanes (s : State) (d a b : BitVec 6) (w : BitVec 2) (m : BitVec 3) (imm : BitVec 1) (f : Nat → Nat → Nat) : State :=
  if imm = 0 then s.lane2 d a b w m fun x y => (f x (y % 32), 0)
  else if 32 ≤ b.toNat then s.raiseIssue 0x01
  else s.lane1 d a w m fun x => (f x b.toNat, 0)

def execVshl (d a b : BitVec 6) (w : BitVec 2) (m : BitVec 3) (f : BitVec 1) (s : State) : Ans :=
  .next (s.shiftLanes d a b w m f iShl)
def execVshr (d a b : BitVec 6) (w : BitVec 2) (m : BitVec 3) (f : BitVec 1) (s : State) : Ans :=
  .next (s.shiftLanes d a b w m f iShr)
def execVsar (d a b : BitVec 6) (w : BitVec 2) (m : BitVec 3) (f : BitVec 1) (s : State) : Ans :=
  .next (s.shiftLanes d a b w m f iSar)

/-- Conditions 0 eq, 1 ne, 2 lt, 3 ltn (R159). -/
def iCmp (c a b : Nat) : Bool :=
  match c with
  | 0 => a == b
  | 1 => a != b
  | 2 => decide (sgn32 a < sgn32 b)
  | _ => decide (a < b)

def execVicmp (d : BitVec 3) (a b : BitVec 6) (w : BitVec 2) (m : BitVec 3) (c : BitVec 2) (s : State) : Ans :=
  .next (s.laneMask d a b w m fun x y => (iCmp c.toNat x y, 0))

/-- Bits 0 to N - 1 of vm(d); the bits above keep their values (R160). -/
def State.maskOp (s : State) (d : BitVec 3) (w : BitVec 2) (v : BitVec 128) : State :=
  if w = 3 then s.raiseIssue 0x01
  else s.wvm d (blendBits (BitVec.ofNat 128 (2 ^ lanesOf w - 1)) v (s.c.rvm d))

def execVmand (d a b : BitVec 3) (w : BitVec 2) (s : State) : Ans := .next (s.maskOp d w (s.c.rvm a &&& s.c.rvm b))
def execVmor (d a b : BitVec 3) (w : BitVec 2) (s : State) : Ans := .next (s.maskOp d w (s.c.rvm a ||| s.c.rvm b))
def execVmxor (d a b : BitVec 3) (w : BitVec 2) (s : State) : Ans := .next (s.maskOp d w (s.c.rvm a ^^^ s.c.rvm b))
def execVmnot (d a : BitVec 3) (w : BitVec 2) (s : State) : Ans := .next (s.maskOp d w (~~~s.c.rvm a))

end Sys2Proof.Machine
end

