-- ==== Sys2Proof/Machine/VectorMove.lean ====
section
/-! DEFINITION. Slot V: special functions, conversions, scaling, rearrangement and copies into v (05 R157, R161-R168). -/

namespace Sys2Proof.Machine

/-! ## Special functions (R157)

Each value is enclosed between two multiples of 2^-P that lie so close together that both round alike; the value is
never itself a multiple, since 2^A, log2 A and tanh A are irrational outside the exact cases. -/

/-- Σ z^(2n+1) / (2n+1) in units of 2^-q: `t` is z^(2n+1), `z2` is z^2. -/
def atanhSum (q z2 : Nat) : Nat → Nat → Nat → Nat
  | 0, _, _ => 0
  | k + 1, n, t => t / (2 * n + 1) + atanhSum q z2 k (n + 1) (t * z2 / 2 ^ q)

/-- ln(x / y) for x ≥ y in units of 2^-q: 2 atanh((x - y) / (x + y)). -/
def lnRatio (q x y : Nat) : Nat :=
  let z := (x - y) * 2 ^ q / (x + y)
  2 * atanhSum q (z * z / 2 ^ q) (q / 3 + 4) 0 z

/-- Σ y^n / n! in units of 2^-q. -/
def expSum (q y : Nat) : Nat → Nat → Nat → Nat
  | 0, _, _ => 0
  | k + 1, n, t => t + expSum q y k (n + 1) (t * y / 2 ^ q / (n + 1))

/-- e^y for 0 ≤ y < 1, both in units of 2^-q. -/
def expFix (q y : Nat) : Nat := expSum q y (q / 3 + 8) 0 (2 ^ q)

/-- Round a magnitude between m - 2^g and m + 2^g units of 2^e: both ends, which agree. -/
def encloseRound (f : Fmt) (v : FpEnv) (neg : Bool) (m g : Nat) (e : Int) : Nat × Fl × Bool :=
  let lo := f.round v.mode v.ftz neg (m - 2 ^ g) e true
  let hi := f.round v.mode v.ftz neg (m + 2 ^ g) e true
  (lo.1, lo.2, lo.1 == hi.1 && lo.2 == hi.2)

/-- Try precisions until the ends of the enclosure agree. -/
def atPrecision (f : Nat → Nat × Fl × Bool) : Nat → Nat → Nat × Fl
  | 0, q => let r := f q; (r.1, r.2.1)
  | k + 1, q => let r := f q; if r.2.2 then (r.1, r.2.1) else atPrecision f k (2 * q)

/-- 2^A of a finite value. -/
def exp2Fin (v : FpEnv) (neg : Bool) (m : Nat) (e : Int) : Nat × Fl :=
  -- A = i + F / 2^s with an integer i and 0 ≤ F < 2^s
  let big := decide (9 < topExp m e)
  if m = 0 then fp32.round v.mode v.ftz false 1 0 false
  else if big then fp32.round v.mode v.ftz false 1 (if neg then -1000 else 1000) true
  else
    let s := (-e).toNat
    let x : Int := (if neg then -1 else 1) * (m * 2 ^ e.toNat : Nat)
    let i := x.fdiv (2 ^ s : Nat)
    let fr := (x - i * (2 ^ s : Nat)).toNat
    if fr = 0 then fp32.round v.mode v.ftz false 1 i false
    else atPrecision (fun q => encloseRound fp32 v false (expFix q (fr * lnRatio q 2 1 / 2 ^ s)) 16 (i - q)) 3 320

def fpExp2 (v : FpEnv) (a : Nat) : Nat × Fl :=
  match fp32.decode v.daz a with
  | .nan s => (fp32.nan, if s then fNv else 0)
  | .inf n => (if n then 0 else fp32.infBits false, 0)
  | .fin n m e => exp2Fin v n m e

/-- log2 of m × 2^e > 0 that is no power of two. -/
def log2Fin (v : FpEnv) (m : Nat) (e : Int) : Nat × Fl :=
  let k := topExp m e
  atPrecision (fun q =>
    let l : Int := (lnRatio q m (2 ^ m.log2) * 2 ^ q / lnRatio q 2 1 : Nat)
    let y := k * (2 ^ q : Nat) + l
    encloseRound fp32 v (decide (y < 0)) y.natAbs 16 (-q)) 3 320

def fpLog2 (v : FpEnv) (a : Nat) : Nat × Fl :=
  match fp32.decode v.daz a with
  | .nan s => (fp32.nan, if s then fNv else 0)
  | .inf n => if n then (fp32.nan, fNv) else (fp32.infBits false, 0)
  | .fin n m e =>
    if m = 0 then (fp32.infBits true, fDz)
    else if n then (fp32.nan, fNv)
    else if m = 2 ^ m.log2 then rnd32 v.mode (ofInteger (topExp m e))
    else log2Fin v m e

/-- tanh of a finite nonzero value. Below 2^-40 it lies just under A, and above 64 just under 1. -/
def tanhFin (v : FpEnv) (neg : Bool) (m : Nat) (e : Int) : Nat × Fl :=
  let top := topExp m e
  if top < -40 then fp32.round v.mode v.ftz neg (m * 2 ^ 60 - 1) (e - 60) true
  else if 6 ≤ top then fp32.round v.mode v.ftz neg (2 ^ 60 - 1) (-60) true
  else atPrecision (fun q =>
    let y := if 0 ≤ e + 1 then m * 2 ^ (e + 1).toNat * 2 ^ q else m * 2 ^ q / 2 ^ (-(e + 1)).toNat
    let ln2 := lnRatio q 2 1
    let k := y / ln2
    let t := expFix q (y - k * ln2) * 2 ^ k
    encloseRound fp32 v neg ((t - 2 ^ q) * 2 ^ q / (t + 2 ^ q)) 32 (-q)) 3 512

def fpTanh (v : FpEnv) (a : Nat) : Nat × Fl :=
  match fp32.decode v.daz a with
  | .nan s => (fp32.nan, if s then fNv else 0)
  | .inf n => rnd32 v.mode (.fin n 1 0)
  | .fin n m e => if m = 0 then (fp32.sign n, 0) else tanhFin v n m e

def execVexp2 (d a : BitVec 6) (w : BitVec 2) (m : BitVec 3) (r : BitVec 2) (s : State) : Ans :=
  .next (s.lane1 d a w m (fpExp2 (s.vEnv r)))
def execVlog2 (d a : BitVec 6) (w : BitVec 2) (m : BitVec 3) (r : BitVec 2) (s : State) : Ans :=
  .next (s.lane1 d a w m (fpLog2 (s.vEnv r)))
def execVtanh (d a : BitVec 6) (w : BitVec 2) (m : BitVec 3) (r : BitVec 2) (s : State) : Ans :=
  .next (s.lane1 d a w m (fpTanh (s.vEnv r)))

/-! ## Conversions (R161) -/

/-- Scale of element `l` under a format register: row 0 of the scale table (R161). -/
def State.cvtScale (s : State) (k : Kind) (cf : DWord) (l : Nat) : Int :=
  match k with
  | .kk _ => s.scaleOf s.viaP cf l
  | _ => 0

/-- Codes of a pack, lane by lane: the state with outlier appends, the packed bits, and per lane its flags. -/
def State.packLanes (s : State) (k : Kind) (cf : DWord) (z : Nat) (mode : Mode) (v : VWord) :
    List Nat → Nat → List (Nat × Fl) → Nat → State × Nat × List (Nat × Fl) × Nat
  | [], acc, fls, lost => (s, acc, fls, lost)
  | l :: t, acc, fls, lost =>
    let x := lane v l
    let e := if k == .ieee fp32 then (s, x, ({} : Raised)) else s.encodeElem s.viaP k (some cf) (s.cvtScale k cf l) mode l (val32 x) {}
    e.1.packLanes k cf z mode v t (acc + e.2.1 % 2 ^ z * 2 ^ (z * l)) (fls ++ [(l, e.2.2.fl)]) (lost + e.2.2.lost)

/-- Bits of elements of z bits. -/
def elemsMask (z : Nat) (l : List Nat) : VWord := BitVec.ofNat 4096 ((l.map fun i => (2 ^ z - 1) * 2 ^ (z * i)).foldl (· + ·) 0)

/-- The 0x01 of a `raw` format register is taken at execution: the register is as at issue, and the trap leaves the bundle as an
execution fault does (log 24). -/
def execVcvtPack (d a : BitVec 6) (c : BitVec 4) (w : BitVec 2) (m : BitVec 3) (r : BitVec 2) (s : State) : Ans :=
  let cf := s.lat.iss.cfOf c.toNat
  let k := kindOf (cfFmt cf) (cfInf cf)
  let z := fmtBits (cfFmt cf)
  .next (s.vIssue (w == 3 || decide (56 ≤ d.toNat)) [d, a] fun s =>
    if k == .raw then s.raise 0x01 (wordInfo s.lat.slot false false s.lat.word)
    else match s.vRead [(1, a)] with
    | .error e => stopWith s e
    | .ok v =>
      let act := s.active w m
      let p := v.s.packLanes k cf z r.toNat (v.val 0) act 0 [] 0
      let v := { v with s := p.1 }
      let value := BitVec.ofNat 4096 p.2.1
      s.vFlags (p.2.2.1 ++ v.portFlags d (elemsMask z act) value) fun fl =>
        match v.destination d with
        | some e => stopWith s e
        | none =>
          let s := v.finish d (elemsMask z act) value fl
          s.finishRaised s.core.bank s.lat.iss.fpcr (olfInfo 0 (some c.toNat)) { fl := 0, lost := p.2.2.2 })

def execVcvtUnpack (d a : BitVec 6) (c : BitVec 4) (w : BitVec 2) (m : BitVec 3) (r : BitVec 2) (s : State) : Ans :=
  let cf := s.lat.iss.cfOf c.toNat
  let k := kindOf (cfFmt cf) (cfInf cf)
  let z := fmtBits (cfFmt cf)
  .next (
    if k == .raw then s.raise 0x01 (wordInfo s.lat.slot false false s.lat.word)
    else s.laneOp d [(1, a)] w m fun v l =>
      let x := k.decode (s.cvtScale k cf l) (fld (v.val 0).toNat (z * l) z)
      let y := rnd32 r.toNat x
      (y.1, y.2 ||| snanFlag [x]))

/-! ## Scaling (R162) -/

/-- A × 2^n: beyond 1024 either way the result is the overflow or the underflow of 1024. -/
def fpScale (v : FpEnv) (a b : Nat) : Nat × Fl :=
  let x := fp32.decode v.daz a
  let n := max (-1024) (min (sgn32 b) 1024)
  let y := fp32.roundFV v.mode v.ftz (x.scale n)
  (y.1, y.2 ||| snanFlag [x])

def execVscl (d a b : BitVec 6) (w : BitVec 2) (m : BitVec 3) (r : BitVec 2) (s : State) : Ans :=
  .next (s.lane2 d a b w m (fpScale (s.vEnv r)))

/-! ## Rearrangement (R163-R167) -/

/-- Entry `e` of the active pattern bank. -/
def Ctx.pattern (c : Ctx) (e : BitVec 6) : BitVec 1024 := if c.patActive then c.pat1.get e.toFin else c.pat0.get e.toFin

def execVperm (d a b e : BitVec 6) (s : State) : Ans :=
  .next (s.laneOp d [(1, a), (2, b)] 2 0 fun r l =>
    let p := fld (s.c.pattern e).toNat (8 * l) 8
    (if p < 128 then lane (r.val 0) p else lane (r.val 1) (p - 128), 0))

/-- `vpsw` issues only after every earlier `pld` has completed (R163). -/
def execVpsw (s : State) : Ans :=
  if s.outs.any fun o => o.bank == s.core.bank && decide (o.seq < s.lat.seq) && (match o.work with
      | .load (.pat _ _ _) _ _ _ => true
      | .fetch (.pat _ _) _ _ _ _ => true
      | _ => false) then .next s.stall
  else .next { s with c := { s.c with patActive := !s.c.patActive } }

/-- The 7-bit amount. -/
def amount (n : BitVec 6) (p : BitVec 1) : Nat := n.toNat + 64 * p.toNat

def execVrot (d a n : BitVec 6) (w : BitVec 2) (m : BitVec 3) (p : BitVec 1) (s : State) : Ans :=
  .next (s.laneOp d [(1, a)] w m fun r l => (lane (r.val 0) ((l + amount n p) % lanesOf w), 0))
def execVbcl (d a n : BitVec 6) (w : BitVec 2) (m : BitVec 3) (p : BitVec 1) (s : State) : Ans :=
  .next (s.laneOp d [(1, a)] w m fun r _ => (lane (r.val 0) (amount n p), 0))

/-! ## Copies into v (R168) -/

def execXcX (d : BitVec 6) (x : BitVec 5) (w : BitVec 2) (m : BitVec 3) (s : State) : Ans :=
  .next (s.vIssue (w == 3 || decide (48 ≤ d.toNat)) [d] fun s =>
    let act := s.active w m
    s.shadow 2 (.v d (lanesMask act) (lanesValue (act.map fun l => (l, (s.lat.iss.rx x).toNat)))))
def execXcXl (d : BitVec 6) (x : BitVec 5) (l : BitVec 7) (s : State) : Ans :=
  .next (s.vIssue (decide (48 ≤ d.toNat)) [d] fun s =>
    s.shadow 2 (.v d (lanesMask [l.toNat]) (lanesValue [(l.toNat, (s.lat.iss.rx x).toNat)])))

end Sys2Proof.Machine
end

