-- ==== Sys2Proof/Machine/Dispatch.lean ====
section
/-! DEFINITION. The meaning of every instruction: one arm per constructor of `Instr`. -/

namespace Sys2Proof.Machine

/-- What an instruction or an event does to the machine. -/
def exec (i : Instr) (s : State) : Host.Outcome State Fault Refusal :=
  match i with
  | .hrep c v m t sn => Sys2Proof.Machine.execHrep c v m t sn s
  | .add d a b g => Sys2Proof.Machine.execAdd d a b g s
  | .sub d a b g => Sys2Proof.Machine.execSub d a b g s
  | .mul d a b g => Sys2Proof.Machine.execMul d a b g s
  | .mulh d a b g => Sys2Proof.Machine.execMulh d a b g s
  | .mulhn d a b g => Sys2Proof.Machine.execMulhn d a b g s
  | .div d a b g => Sys2Proof.Machine.execDiv d a b g s
  | .divn d a b g => Sys2Proof.Machine.execDivn d a b g s
  | .rem d a b g => Sys2Proof.Machine.execRem d a b g s
  | .remn d a b g => Sys2Proof.Machine.execRemn d a b g s
  | .and d a b g => Sys2Proof.Machine.execAnd d a b g s
  | .or d a b g => Sys2Proof.Machine.execOr d a b g s
  | .xor d a b g => Sys2Proof.Machine.execXor d a b g s
  | .shl d a b g => Sys2Proof.Machine.execShl d a b g s
  | .shr d a b g => Sys2Proof.Machine.execShr d a b g s
  | .sar d a b g => Sys2Proof.Machine.execSar d a b g s
  | .min d a b g => Sys2Proof.Machine.execMin d a b g s
  | .max d a b g => Sys2Proof.Machine.execMax d a b g s
  | .minn d a b g => Sys2Proof.Machine.execMinn d a b g s
  | .maxn d a b g => Sys2Proof.Machine.execMaxn d a b g s
  | .clz d a g => Sys2Proof.Machine.execClz d a g s
  | .popc d a g => Sys2Proof.Machine.execPopc d a g s
  | .sext d a w g => Sys2Proof.Machine.execSext d a w g s
  | .zext d a w g => Sys2Proof.Machine.execZext d a w g s
  | .addi d a im => Sys2Proof.Machine.execAddi d a im s
  | .andi d a im => Sys2Proof.Machine.execAndi d a im s
  | .ori d a im => Sys2Proof.Machine.execOri d a im s
  | .xori d a im => Sys2Proof.Machine.execXori d a im s
  | .shli d a n => Sys2Proof.Machine.execShli d a n s
  | .shri d a n => Sys2Proof.Machine.execShri d a n s
  | .sari d a n => Sys2Proof.Machine.execSari d a n s
  | .li d im => Sys2Proof.Machine.execLi d im s
  | .lih d q im => Sys2Proof.Machine.execLih d q im s
  | .cmp k a b g c => Sys2Proof.Machine.execCmp k a b g c s
  | .cmpi k c a im => Sys2Proof.Machine.execCmpi k c a im s
  | .sel d a b g c => Sys2Proof.Machine.execSel d a b g c s
  | .kand d a b g => Sys2Proof.Machine.execKand d a b g s
  | .kor d a b g => Sys2Proof.Machine.execKor d a b g s
  | .kxor d a b g => Sys2Proof.Machine.execKxor d a b g s
  | .knot d a g => Sys2Proof.Machine.execKnot d a g s
  | .faddD d a b g r => Sys2Proof.Machine.execFaddD d a b g r s
  | .fsubD d a b g r => Sys2Proof.Machine.execFsubD d a b g r s
  | .fmulD d a b g r => Sys2Proof.Machine.execFmulD d a b g r s
  | .fdivD d a b g r => Sys2Proof.Machine.execFdivD d a b g r s
  | .fminD d a b g => Sys2Proof.Machine.execFminD d a b g s
  | .fmaxD d a b g => Sys2Proof.Machine.execFmaxD d a b g s
  | .fsqrtD d a g r => Sys2Proof.Machine.execFsqrtD d a g r s
  | .ffmaD d a b g c r => Sys2Proof.Machine.execFfmaD d a b g c r s
  | .fcmpD k a b g c => Sys2Proof.Machine.execFcmpD k a b g c s
  | .fcvtDI d a g r => Sys2Proof.Machine.execFcvtDI d a g r s
  | .fcvtDN d a g r => Sys2Proof.Machine.execFcvtDN d a g r s
  | .fcvtID d a g r => Sys2Proof.Machine.execFcvtID d a g r s
  | .fcvtND d a g r => Sys2Proof.Machine.execFcvtND d a g r s
  | .fcvtDS d a g => Sys2Proof.Machine.execFcvtDS d a g s
  | .fcvtSD d a g r => Sys2Proof.Machine.execFcvtSD d a g r s
  | .br o => Sys2Proof.Machine.execBr o s
  | .brk k o => Sys2Proof.Machine.execBrk k o s
  | .brnk k o => Sys2Proof.Machine.execBrnk k o s
  | .jr d a g => Sys2Proof.Machine.execJr d a g s
  | .call o => Sys2Proof.Machine.execCall o s
  | .ret g => Sys2Proof.Machine.execRet g s
  | .loop a o => Sys2Proof.Machine.execLoop a o s
  | .xcV d v l => Sys2Proof.Machine.execXcV d v l s
  | .xcA d a => Sys2Proof.Machine.execXcA d a s
  | .xcM d k r q => Sys2Proof.Machine.execXcM d k r q s
  | .xcG d g => Sys2Proof.Machine.execXcG d g s
  | .xcH d h q => Sys2Proof.Machine.execXcH d h q s
  | .srd d sn => Sys2Proof.Machine.execSrd d sn s
  | .swr a sn => Sys2Proof.Machine.execSwr a sn s
  | .wait l sn c t => Sys2Proof.Machine.execWait l sn c t s
  | .fence a b => Sys2Proof.Machine.execFence a b s
  | .drain sn k => Sys2Proof.Machine.execDrain sn k s
  | .spawn d a b c => Sys2Proof.Machine.execSpawn d a b c s
  | .suspend a k => Sys2Proof.Machine.execSuspend a k s
  | .join d a b => Sys2Proof.Machine.execJoin d a b s
  | .cbar d => Sys2Proof.Machine.execCbar d s
  | .seg a b n => Sys2Proof.Machine.execSeg a b n s
  | .trap im => Sys2Proof.Machine.execTrap im s
  | .scan d e => Sys2Proof.Machine.execScan d e s
  | .cmap d a b => Sys2Proof.Machine.execCmap d a b s
  | .pmonStart m => Sys2Proof.Machine.execPmonStart m s
  | .pmonStop m => Sys2Proof.Machine.execPmonStop m s
  | .pmonClr m => Sys2Proof.Machine.execPmonClr m s
  | .pmonClrstart m => Sys2Proof.Machine.execPmonClrstart m s
  | .diagInjFlip a b => Sys2Proof.Machine.execDiagInjFlip a b s
  | .diagInjCerr a b => Sys2Proof.Machine.execDiagInjCerr a b s
  | .diagInjPoison a b => Sys2Proof.Machine.execDiagInjPoison a b s
  | .diagInjTpoison a b => Sys2Proof.Machine.execDiagInjTpoison a b s
  | .diagInjStrike a b => Sys2Proof.Machine.execDiagInjStrike a b s
  | .vadd d a b w m r => Sys2Proof.Machine.execVadd d a b w m r s
  | .vsub d a b w m r => Sys2Proof.Machine.execVsub d a b w m r s
  | .vmul d a b w m r => Sys2Proof.Machine.execVmul d a b w m r s
  | .vfma d a b w m r => Sys2Proof.Machine.execVfma d a b w m r s
  | .vfms d a b w m r => Sys2Proof.Machine.execVfms d a b w m r s
  | .vfnma d a b w m r => Sys2Proof.Machine.execVfnma d a b w m r s
  | .vdiv d a b w m r => Sys2Proof.Machine.execVdiv d a b w m r s
  | .vsqrt d a w m r => Sys2Proof.Machine.execVsqrt d a w m r s
  | .vrcp d a w m r => Sys2Proof.Machine.execVrcp d a w m r s
  | .vrsq d a w m r => Sys2Proof.Machine.execVrsq d a w m r s
  | .vmin d a b w m => Sys2Proof.Machine.execVmin d a b w m s
  | .vmax d a b w m => Sys2Proof.Machine.execVmax d a b w m s
  | .vabs d a w m => Sys2Proof.Machine.execVabs d a w m s
  | .vneg d a w m => Sys2Proof.Machine.execVneg d a w m s
  | .vcmp d a b w m c => Sys2Proof.Machine.execVcmp d a b w m c s
  | .vsel d a b w m => Sys2Proof.Machine.execVsel d a b w m s
  | .vclass d a w m => Sys2Proof.Machine.execVclass d a w m s
  | .vaddH d a b w m r => Sys2Proof.Machine.execVaddH d a b w m r s
  | .vsubH d a b w m r => Sys2Proof.Machine.execVsubH d a b w m r s
  | .vmulH d a b w m r => Sys2Proof.Machine.execVmulH d a b w m r s
  | .vfmaH d a b w m r => Sys2Proof.Machine.execVfmaH d a b w m r s
  | .vfmsH d a b w m r => Sys2Proof.Machine.execVfmsH d a b w m r s
  | .vfnmaH d a b w m r => Sys2Proof.Machine.execVfnmaH d a b w m r s
  | .vminH d a b w m => Sys2Proof.Machine.execVminH d a b w m s
  | .vmaxH d a b w m => Sys2Proof.Machine.execVmaxH d a b w m s
  | .vabsH d a w m => Sys2Proof.Machine.execVabsH d a w m s
  | .vnegH d a w m => Sys2Proof.Machine.execVnegH d a w m s
  | .vcmpH e d a b w m c => Sys2Proof.Machine.execVcmpH e d a b w m c s
  | .vselH d a b w m => Sys2Proof.Machine.execVselH d a b w m s
  | .vaddB d a b w m r => Sys2Proof.Machine.execVaddB d a b w m r s
  | .vsubB d a b w m r => Sys2Proof.Machine.execVsubB d a b w m r s
  | .vmulB d a b w m r => Sys2Proof.Machine.execVmulB d a b w m r s
  | .vfmaB d a b w m r => Sys2Proof.Machine.execVfmaB d a b w m r s
  | .vfmsB d a b w m r => Sys2Proof.Machine.execVfmsB d a b w m r s
  | .vfnmaB d a b w m r => Sys2Proof.Machine.execVfnmaB d a b w m r s
  | .vminB d a b w m => Sys2Proof.Machine.execVminB d a b w m s
  | .vmaxB d a b w m => Sys2Proof.Machine.execVmaxB d a b w m s
  | .vabsB d a w m => Sys2Proof.Machine.execVabsB d a w m s
  | .vnegB d a w m => Sys2Proof.Machine.execVnegB d a w m s
  | .vcmpB e d a b w m c => Sys2Proof.Machine.execVcmpB e d a b w m c s
  | .vselB d a b w m => Sys2Proof.Machine.execVselB d a b w m s
  | .vaddx d a b w m r => Sys2Proof.Machine.execVaddx d a b w m r s
  | .vsubx d a b w m r => Sys2Proof.Machine.execVsubx d a b w m r s
  | .vmulx d a b w m r => Sys2Proof.Machine.execVmulx d a b w m r s
  | .dwadd d a b w m r => Sys2Proof.Machine.execDwadd d a b w m r s
  | .dwsub d a b w m r => Sys2Proof.Machine.execDwsub d a b w m r s
  | .dwmul d a b w m r => Sys2Proof.Machine.execDwmul d a b w m r s
  | .dwdiv d a b w m r => Sys2Proof.Machine.execDwdiv d a b w m r s
  | .dwnorm d a w m r => Sys2Proof.Machine.execDwnorm d a w m r s
  | .vsum d a w m r => Sys2Proof.Machine.execVsum d a w m r s
  | .vsumx d a w m r => Sys2Proof.Machine.execVsumx d a w m r s
  | .vmaxr d a w m => Sys2Proof.Machine.execVmaxr d a w m s
  | .vminr d a w m => Sys2Proof.Machine.execVminr d a w m s
  | .viadd d a b w m sn => Sys2Proof.Machine.execViadd d a b w m sn s
  | .visub d a b w m sn => Sys2Proof.Machine.execVisub d a b w m sn s
  | .vimul d a b w m sn => Sys2Proof.Machine.execVimul d a b w m sn s
  | .vimad d a b w m sn => Sys2Proof.Machine.execVimad d a b w m sn s
  | .vand d a b w m => Sys2Proof.Machine.execVand d a b w m s
  | .vor d a b w m => Sys2Proof.Machine.execVor d a b w m s
  | .vxor d a b w m => Sys2Proof.Machine.execVxor d a b w m s
  | .vnot d a w m => Sys2Proof.Machine.execVnot d a w m s
  | .vshl d a b w m f => Sys2Proof.Machine.execVshl d a b w m f s
  | .vshr d a b w m f => Sys2Proof.Machine.execVshr d a b w m f s
  | .vsar d a b w m f => Sys2Proof.Machine.execVsar d a b w m f s
  | .vicmp d a b w m c => Sys2Proof.Machine.execVicmp d a b w m c s
  | .vmand d a b w => Sys2Proof.Machine.execVmand d a b w s
  | .vmor d a b w => Sys2Proof.Machine.execVmor d a b w s
  | .vmxor d a b w => Sys2Proof.Machine.execVmxor d a b w s
  | .vmnot d a w => Sys2Proof.Machine.execVmnot d a w s
  | .vcvtPack d a c w m r => Sys2Proof.Machine.execVcvtPack d a c w m r s
  | .vcvtUnpack d a c w m r => Sys2Proof.Machine.execVcvtUnpack d a c w m r s
  | .vscl d a b w m r => Sys2Proof.Machine.execVscl d a b w m r s
  | .vexp2 d a w m r => Sys2Proof.Machine.execVexp2 d a w m r s
  | .vlog2 d a w m r => Sys2Proof.Machine.execVlog2 d a w m r s
  | .vtanh d a w m r => Sys2Proof.Machine.execVtanh d a w m r s
  | .vperm d a b e => Sys2Proof.Machine.execVperm d a b e s
  | .vrot d a n w m p => Sys2Proof.Machine.execVrot d a n w m p s
  | .vbcl d a n w m p => Sys2Proof.Machine.execVbcl d a n w m p s
  | .xcX d x w m => Sys2Proof.Machine.execXcX d x w m s
  | .xcXl d x l => Sys2Proof.Machine.execXcXl d x l s
  | .mdset m f im => Sys2Proof.Machine.execMdset m f im s
  | .mdld m a => Sys2Proof.Machine.execMdld m a s
  | .mdst m a => Sys2Proof.Machine.execMdst m a s
  | .mbld b => Sys2Proof.Machine.execMbld b s
  | .mzero c => Sys2Proof.Machine.execMzero c s
  | .moutm c a b k l => Sys2Proof.Machine.execMoutm c a b k l s
  | .mma c a b sn z => Sys2Proof.Machine.execMma c a b sn z s
  | .mmaCk c a b sn z => Sys2Proof.Machine.execMmaCk c a b sn z s
  | .mlu t z g p => Sys2Proof.Machine.execMlu t z g p s
  | .mchol t g p => Sys2Proof.Machine.execMchol t g p s
  | .mqr t g p => Sys2Proof.Machine.execMqr t g p s
  | .mtrsm b t u x r sn z g => Sys2Proof.Machine.execMtrsm b t u x r sn z g s
  | .mperm t n im f d p => Sys2Proof.Machine.execMperm t n im f d p s
  | .mpiv n sn d => Sys2Proof.Machine.execMpiv n sn d s
  | .xcXMatrix r x k q => Sys2Proof.Machine.execXcXMatrix r x k q s
  | .adda d a b => Sys2Proof.Machine.execAdda d a b s
  | .addaImmediate d a im => Sys2Proof.Machine.execAddaImmediate d a im s
  | .suba d a b => Sys2Proof.Machine.execSuba d a b s
  | .subaImmediate d a im => Sys2Proof.Machine.execSubaImmediate d a im s
  | .shla d a b => Sys2Proof.Machine.execShla d a b s
  | .shlaImmediate d a n => Sys2Proof.Machine.execShlaImmediate d a n s
  | .lia d im => Sys2Proof.Machine.execLia d im s
  | .hder d sn o l k => Sys2Proof.Machine.execHder d sn o l k s
  | .hnul d => Sys2Proof.Machine.execHnul d s
  | .hld h b a im => Sys2Proof.Machine.execHld h b a im s
  | .hst h b a im => Sys2Proof.Machine.execHst h b a im s
  | .scinvRange h o l => Sys2Proof.Machine.execScinvRange h o l s
  | .bcfl h o l v => Sys2Proof.Machine.execBcfl h o l v s
  | .ld x h a sn im => Sys2Proof.Machine.execLd x h a sn im s
  | .ldn x h a sn im => Sys2Proof.Machine.execLdn x h a sn im s
  | .st x h a sn im => Sys2Proof.Machine.execSt x h a sn im s
  | .vld v h a w im => Sys2Proof.Machine.execVld v h a w im s
  | .vst v h a w im => Sys2Proof.Machine.execVst v h a w im s
  | .vlds v h a sn w => Sys2Proof.Machine.execVlds v h a sn w s
  | .vsts v h a sn w => Sys2Proof.Machine.execVsts v h a sn w s
  | .vgth v h a j k w => Sys2Proof.Machine.execVgth v h a j k w s
  | .vsct v h a j k w => Sys2Proof.Machine.execVsct v h a j k w s
  | .cld x h a sn im => Sys2Proof.Machine.execCld x h a sn im s
  | .cldVector v h a w im => Sys2Proof.Machine.execCldVector v h a w im s
  | .cst x h a sn im => Sys2Proof.Machine.execCst x h a sn im s
  | .cstVector v h a w im => Sys2Proof.Machine.execCstVector v h a w im s
  | .tvld v h a w im => Sys2Proof.Machine.execTvld v h a w im s
  | .tvst v h a w im => Sys2Proof.Machine.execTvst v h a w im s
  | .pcfg p h a => Sys2Proof.Machine.execPcfg p h a s
  | .pgo k p => Sys2Proof.Machine.execPgo k p s
  | .pstop k => Sys2Proof.Machine.execPstop k s
  | .pld h a e n => Sys2Proof.Machine.execPld h a e n s
  | .copy d h sn r a f w t b => Sys2Proof.Machine.execCopy d h sn r a f w t b s
  | .copyq d => Sys2Proof.Machine.execCopyq d s
  | .copyqSt d => Sys2Proof.Machine.execCopyqSt d s
  | .wstr h o l n p => Sys2Proof.Machine.execWstr h o l n p s
  | .frfl d h sn w t => Sys2Proof.Machine.execFrfl d h sn w t s
  | .shift r m h sn d l => Sys2Proof.Machine.execShift r m h sn d l s
  | .reduce d h sn o k => Sys2Proof.Machine.execReduce d h sn o k s
  | .atmAdd o d h a sn z => Sys2Proof.Machine.execAtmAdd o d h a sn z s
  | .atmFadd o d h a sn z => Sys2Proof.Machine.execAtmFadd o d h a sn z s
  | .atmMin o d h a sn z => Sys2Proof.Machine.execAtmMin o d h a sn z s
  | .atmMax o d h a sn z => Sys2Proof.Machine.execAtmMax o d h a sn z s
  | .atmAnd o d h a sn z => Sys2Proof.Machine.execAtmAnd o d h a sn z s
  | .atmOr o d h a sn z => Sys2Proof.Machine.execAtmOr o d h a sn z s
  | .atmXor o d h a sn z => Sys2Proof.Machine.execAtmXor o d h a sn z s
  | .atmXchg o d h a sn z => Sys2Proof.Machine.execAtmXchg o d h a sn z s
  | .atmCas o d h a sn z => Sys2Proof.Machine.execAtmCas o d h a sn z s
  | .atmInc o d h a sn z => Sys2Proof.Machine.execAtmInc o d h a sn z s
  | .bobInit d h a sn => Sys2Proof.Machine.execBobInit d h a sn s
  | .bobArr d h a => Sys2Proof.Machine.execBobArr d h a s
  | .bobWait d h a sn => Sys2Proof.Machine.execBobWait d h a sn s
  | .tsetf h o l => Sys2Proof.Machine.execTsetf h o l s
  | .tsete h o l => Sys2Proof.Machine.execTsete h o l s
  | .sleepu a => Sys2Proof.Machine.execSleepu a s
  | .tdefer a => Sys2Proof.Machine.execTdefer a s
  | .tdead h o l => Sys2Proof.Machine.execTdead h o l s
  | .hdead h o l => Sys2Proof.Machine.execHdead h o l s
  | .trmw d h o l k => Sys2Proof.Machine.execTrmw d h o l k s
  | .xcXAddress k r x q => Sys2Proof.Machine.execXcXAddress k r x q s
  | .noOp => Sys2Proof.Machine.execNoOp s
  | .yield => Sys2Proof.Machine.execYield s
  | .retire => Sys2Proof.Machine.execRetire s
  | .leave => Sys2Proof.Machine.execLeave s
  | .sege => Sys2Proof.Machine.execSege s
  | .rte => Sys2Proof.Machine.execRte s
  | .halt => Sys2Proof.Machine.execHalt s
  | .vpsw => Sys2Proof.Machine.execVpsw s
  | .blend0 => Sys2Proof.Machine.execBlend0 s
  | .blend1 => Sys2Proof.Machine.execBlend1 s
  | .blend2 => Sys2Proof.Machine.execBlend2 s
  | .blend3 => Sys2Proof.Machine.execBlend3 s
  | .blend4 => Sys2Proof.Machine.execBlend4 s
  | .blend5 => Sys2Proof.Machine.execBlend5 s
  | .bret0 => Sys2Proof.Machine.execBret0 s
  | .bret1 => Sys2Proof.Machine.execBret1 s
  | .bret2 => Sys2Proof.Machine.execBret2 s
  | .bret3 => Sys2Proof.Machine.execBret3 s
  | .bret4 => Sys2Proof.Machine.execBret4 s
  | .bret5 => Sys2Proof.Machine.execBret5 s
  | .scinv => Sys2Proof.Machine.execScinv s
  | .cancel => Sys2Proof.Machine.execCancel s
  | .parkedSlotRetry => Sys2Proof.Machine.execParkedSlotRetry s
  | .parkedTooLong => Sys2Proof.Machine.execParkedTooLong s
  | .trapEntry => Sys2Proof.Machine.execTrapEntry s
  | .outlierListFull => Sys2Proof.Machine.execOutlierListFull s
  | .loadReturn => Sys2Proof.Machine.execLoadReturn s
  | .translationRetry => Sys2Proof.Machine.execTranslationRetry s
  | .translationFail => Sys2Proof.Machine.execTranslationFail s
  | .strikeWindow => Sys2Proof.Machine.execStrikeWindow s
  | .strikeReport => Sys2Proof.Machine.execStrikeReport s
  | .dispatchRound => Sys2Proof.Machine.execDispatchRound s
  | .beadStart => Sys2Proof.Machine.execBeadStart s
  | .preemptionHalt => Sys2Proof.Machine.execPreemptionHalt s
  | .contextDrainFinal => Sys2Proof.Machine.execContextDrainFinal s
  | .resumption => Sys2Proof.Machine.execResumption s
  | .strandTailWrite => Sys2Proof.Machine.execStrandTailWrite s
  | .hubConfigurationWrite => Sys2Proof.Machine.execHubConfigurationWrite s
  | .executableRegistration => Sys2Proof.Machine.execExecutableRegistration s
  | .normalRefresh => Sys2Proof.Machine.execNormalRefresh s
  | .forcedRefresh => Sys2Proof.Machine.execForcedRefresh s
  | .groupRefreshEnd => Sys2Proof.Machine.execGroupRefreshEnd s
  | .deferralEnd => Sys2Proof.Machine.execDeferralEnd s
  | .tileOperationStart => Sys2Proof.Machine.execTileOperationStart s
  | .tileOperationCompletion => Sys2Proof.Machine.execTileOperationCompletion s
  | .copyCompletion => Sys2Proof.Machine.execCopyCompletion s
  | .refillCompletion => Sys2Proof.Machine.execRefillCompletion s
  | .shiftCompletion => Sys2Proof.Machine.execShiftCompletion s
  | .reduceRound => Sys2Proof.Machine.execReduceRound s
  | .atomicEngineServe => Sys2Proof.Machine.execAtomicEngineServe s
  | .bobWaitAnswer => Sys2Proof.Machine.execBobWaitAnswer s
  | .barrierRelease => Sys2Proof.Machine.execBarrierRelease s
  | .cbarSuspend => Sys2Proof.Machine.execCbarSuspend s
  | .sleepuWake => Sys2Proof.Machine.execSleepuWake s
  | .resume => Sys2Proof.Machine.execResume s
  | .resetCore => Sys2Proof.Machine.execResetCore s
  | .linkDown => Sys2Proof.Machine.execLinkDown s
  | .routeRestore => Sys2Proof.Machine.execRouteRestore s
  | .objectInvalidation => Sys2Proof.Machine.execObjectInvalidation s
  | .atsInvalidation => Sys2Proof.Machine.execAtsInvalidation s
  | .cxlMemAccess => Sys2Proof.Machine.execCxlMemAccess s
  | .patrolScrub => Sys2Proof.Machine.execPatrolScrub s
  | .monitorSample => Sys2Proof.Machine.execMonitorSample s
  | .selfTestEnd => Sys2Proof.Machine.execSelfTestEnd s
  | .pstepSample => Sys2Proof.Machine.execPstepSample s
  | .setPowerStep => Sys2Proof.Machine.execSetPowerStep s
  | .throttleEvaluation => Sys2Proof.Machine.execThrottleEvaluation s
  | .sensorCheck => Sys2Proof.Machine.execSensorCheck s
  | .powerFail => Sys2Proof.Machine.execPowerFail s
  | .powerReturn => Sys2Proof.Machine.execPowerReturn s
  | .boot => Sys2Proof.Machine.execBoot s
  | .attestation => Sys2Proof.Machine.execAttestation s
  | .storePerformed => Sys2Proof.Machine.execStorePerformed s
  | .cxlCacheRecall => Sys2Proof.Machine.execCxlCacheRecall s
  | .remotePackageAccess => Sys2Proof.Machine.execRemotePackageAccess s
  | .fallBackReadRequest => Sys2Proof.Machine.execFallBackReadRequest s
  | .stackScrubPass => Sys2Proof.Machine.execStackScrubPass s
  | .imageWrite => Sys2Proof.Machine.execImageWrite s

end Sys2Proof.Machine
end

