-- ==== Sys2Proof/Machine/Schedule.lean ====
section
/-! DEFINITION. Which event of the machine itself falls due next. Events of one cycle happen one after another before the cycle's bundle (log 6). Inputs of the outside world come from State.agenda instead (log 13). -/

namespace Sys2Proof.Machine

/-- An event and what it acts on. -/
abbrev Due := Instr × Payload

/-! ## Operations in hand -/

/-- A transfer's next event is due: it begins when its engine is free, and its data phase and its hold end at their cycles (09 R266). A copy
that appends to an outlier list does so after slot V of the same cycle (03 R89). -/
def State.transferDue (s : State) (o : Out) (b : Burst) : Bool :=
  match b.stage with
  | .queued => s.mayBegin o
  | .moving _ => (if o.work.appends then decide (o.due < s.now) else decide (o.due ≤ s.now)) && !s.linesLocked (s.sourceSpans o.work)
  | .landing ps _ _ _ _ _ => decide (o.due ≤ s.now) && !s.queuedBehind o (linesOf (ps.map fun p => (p.addr, p.bytes.length)))

/-- Whether an operation is a product or a factorisation, which an inactive bank does not run (06 R185). -/
def Slotted.stops (op : Slotted) : Bool := (productOf op.instr).isSome || (facJob op).isSome

/-- A tile operation may start: the ones before it in its queue have entered their last row (06 R181). Of a bank that is not active the
products and factorisations stop, and the other operations run in the background (06 R185). -/
def State.tileReady (s : State) (o : Out) (op : Slotted) : Bool :=
  let before := (s.tileQueue o.bank).filter fun x => decide (x.id < o.id)
  let active := o.bank == s.core.bank && s.q.state == .active
  (active || !op.stops) && before.all fun x => match x.work with
    | .tile p w =>
      if w.started.isSome then w.halt.isNone && decide (p.tileSteps w ≤ w.step) && decide (x.due ≤ s.now + leadOf p.instr) else !active && p.stops
    | _ => false

/-- A started tile operation completes in the order of its queue, when what it has written is final: none before it is executing, and no
piece of it is in hand. -/
def State.tileFirst (s : State) (o : Out) : Bool :=
  !(s.tileQueue o.bank).any (fun x => decide (x.id < o.id) && (match x.work with
    | .tile _ w => w.started.isSome
    | _ => false)) &&
  !s.outs.any fun x => x.bank == o.bank && x.path == .m && x.seq == o.seq && (match x.work with
    | .write _ _ _ _ => true
    | _ => false)

/-- A started tile operation goes on: its next step is due, a bank switch stops it at its boundary, or it completes (06 R184, R185). -/
def State.tileGoesOn (s : State) (o : Out) (op : Slotted) (w : Tiling) : Bool :=
  if w.step < op.tileSteps w then decide (o.due ≤ s.now) || (w.halt.isSome && op.atBoundary w)
  else decide (o.due ≤ s.now) && s.tileFirst o

/-- A write of slot V waits for a read that slot T has made in the same bundle, to perform first (10 R310); one that parked keeps no such
order. -/
def State.unread (s : State) (o : Out) : Bool :=
  o.path == .p && s.outs.any fun x => x.bank == o.bank && x.seq == o.seq && x.issued == o.issued && x.path == .l && x.fetches

/-- The event that an operation in hand waits for, when it is due. -/
def State.outEvent (s : State) (o : Out) : Option Instr :=
  let late := decide (o.due ≤ s.now)
  match o.work with
  | .load _ _ _ _ => if late && s.loadFree o then some .loadReturn else none
  | .write _ _ _ _ => if late && !s.unread o then some .strikeWindow else none
  | .fetch _ _ _ _ _ =>
    if late && !s.behind o && (o.given || (!s.linesLocked o.spans && !s.queuedBehind o (linesOf o.spans))) then some .loadReturn else none
  | .gstore _ _ => if late && !s.behind o && !s.queuedBehind o (linesOf o.spans) then some .storePerformed else none
  | .hdead _ => if late then some .storePerformed else none
  | .notice _ _ _ _ _ => if late then some .storePerformed else none
  | .bcfl _ _ _ => if late then some .storePerformed else none
  | .tset gs _ =>
    if late && (o.due != 0 || gs.all fun g => s.rangeQuiet o.bank o.seq g 4096) then some .storePerformed else none
  | .atom r =>
    if r.waiting then (if s.answerable o then some .bobWaitAnswer else none)
    else if late && s.servable o r then some .atomicEngineServe else none
  | .copy _ _ _ _ b => if s.transferDue o b then some .copyCompletion else none
  | .refill _ _ _ _ _ b => if s.transferDue o b then some .refillCompletion else none
  | .shift _ _ _ _ b => if s.transferDue o b then some .shiftCompletion else none
  | .reduce _ _ => none
  | .tile op w =>
    if w.started.isNone then (if s.tileReady o op then some .tileOperationStart else none)
    else if s.tileGoesOn o op w then some .tileOperationCompletion else none

/-- Whether an operation in hand accesses global memory. -/
def Work.global (w : Work) : Bool :=
  match w with
  | .fetch _ ranges _ _ _ => ranges.any fun r => decide (r.1 < 2 ^ 64)
  | .gstore _ _ => true
  | .hdead _ => true
  | .bcfl _ _ _ => true
  | .copy op _ _ _ _ => match op.instr with
    | .copy _ h _ _ _ _ _ _ _ => decide (3 ≤ hClass (op.iss.rh h))
    | _ => false
  | .atom _ => true
  | _ => false

/-- Place of an operation among those whose events fall in one cycle (10 R306): what the cycle before left for after slot V (03 R89); in
crown and towers the order of Table 6-2; at the home ports slot T's operations in bundle order before the copy engine (R323). -/
def State.rank (s : State) (o : Out) : Nat :=
  let arrival := match o.work with
    | .atom r => r.engine
    | _ => false
  if o.work.appends && decide (o.due < s.now) then 0
  else match o.path with
  | .m => 1
  | .k => if o.work.global then 7 else 2
  | .p => 3
  | .l => if o.work.global then 6 else 4
  | .x => 5
  | .a => if arrival then 7 else 6

/-- The first operation in hand whose event is due. Of one place among those of a cycle the older operation goes first, so that a write
granted later overwrites one granted earlier (10 R306). -/
def State.outDue (s : State) : Option Due :=
  (List.range 8).findSome? fun n =>
    s.outs.findSome? fun o => if s.rank o == n then (s.outEvent o).map fun i => (i, .op o.id) else none

/-- A round of `reduce` that has every contribution it needs from this package (09 R293); one that needs other packages
comes from outside. -/
def State.reduceDue (s : State) : Option Due :=
  s.outs.findSome? fun o => o.clasp.bind fun n => (s.hub.clasp n).bind fun c =>
    if decide (o.due ≤ s.now) && c.roundFull (s.contributions n []) then some (.reduceRound, .reduce n []) else none

/-! ## Slots and boundaries of the active bank -/

/-- No operation of a bundle up to `n` is incomplete but those that have faulted. -/
def Seq.doneTo (q : Seq) (n : Nat) : Bool := !((q.vq ++ q.mq ++ q.ops).any fun o => decide (o.seq ≤ n))

/-- The head of a queue may try (02 R48, R49): not again in this cycle, and not past a trap that waits (R57). -/
def Seq.mayTry (q : Seq) (l : List Slotted) (tried : Bool) : Bool :=
  !tried && !q.rewind && l.head?.any fun o => q.trap.all fun t => decide (o.seq ≤ t.seq)

def State.retryDue (s : State) : Option Due :=
  if !s.ticks then none
  else if s.q.mayTry s.q.vq s.q.vTried then some (.parkedSlotRetry, .slot 1)
  else if s.q.mayTry s.q.mq s.q.mTried then some (.parkedSlotRetry, .slot 2)
  else none

/-- A wait of an operation that began in a cycle has lasted longer than sr.parkmax (02 R51, R52), as it stood when its bundle issued
(04 R125). -/
def State.parkedLong (s : State) (o : Slotted) (since : Nat) : Bool :=
  o.limit != 0 && decide (since + o.limit.toNat < s.now)

def State.parkDue (s : State) : Option Due :=
  if s.q.vSince.any fun t => s.q.vq.head?.any fun o => s.parkedLong o t then some (.parkedTooLong, .slot 1)
  else if s.q.mSince.any fun t => s.q.mq.head?.any fun o => s.parkedLong o t then some (.parkedTooLong, .slot 2)
  else
    let t : Option Nat := match s.q.wait with
      | .watch t => some t
      | .bob id => (s.out? id).map Out.issued
      | _ => none
    (s.q.ops.find? fun o => o.slot == 3 && t.any fun t => s.parkedLong o t).map fun (o : Slotted) => (.parkedTooLong, .slot o.slot)

/-- A trap, a pending trap 0x13 or a pre-emption is taken, in the order of 12 R375; an operation of slot C that has sent is not interrupted. -/
def State.boundaryDue (s : State) : Option Due :=
  if s.q.rewind || s.q.answered.isSome then none else
  match s.q.trap with
  | some t => if t.now || s.q.doneTo t.seq then some (.trapEntry, .none) else none
  | none =>
    if !s.q.more.isEmpty && !s.q.olfHeld then some (.trapEntry, .none)
    else if s.q.olfTrap.isSome && !s.q.olfHeld then some (.outlierListFull, .none)
    else if s.q.preemptBy && (match s.q.wait with
      | .scan _ => false
      | .halted => false
      | _ => true) then some (.preemptionHalt, .none)
    else none

/-- A `cbar` without SYNC that has waited longer than sr.sleepmax (11 R368). -/
def State.cbarDue (s : State) : Option Due :=
  match s.q.wait with
  | .barrier t =>
    if s.q.cbarRel.isNone && s.q.trap.isNone && decide (t + s.core.sleepmax.toNat < s.now) &&
        (s.hub.clasp s.c.claspNo).any (fun c => c.channel.isNone) then some (.cbarSuspend, .none) else none
  | _ => none

def State.scanDue (s : State) : Option Due :=
  match s.q.wait with
  | .scan t => if !s.q.eligible && decide ((s.scanEnds t).2 + s.periods 64 ≤ s.now) then some (.selfTestEnd, .none) else none
  | _ => none

/-- Events of a bead that runs. -/
def State.activeDue (s : State) : Option Due :=
  if s.q.state != .active then none
  else s.parkDue.orElse fun _ => s.retryDue.orElse fun _ => s.boundaryDue.orElse fun _ => s.cbarDue.orElse fun _ => s.scanDue

/-! ## Context banks (11 R348-R354) -/

/-- A `sleepu` whose wake cycle has come. -/
def Seq.wakes (q : Seq) (now : Nat) : Bool :=
  !q.eligible && (match q.wait with
    | .sleep w => decide (w ≤ now)
    | _ => false)

/-- A context that has drained. -/
def Seq.drains (q : Seq) (now : Nat) : Bool :=
  q.state == .draining && (match q.wait with
    | .watch t => decide (t ≤ now)
    | _ => false)

/-- The core gives no bead the stream: it is halted (12 R381), or no core of the map (R411). -/
def State.stands (s : State) : Bool := s.isHalted || (s.hub.logicalOf s.core.phys).isNone

/-- A placed bead starts: its bank is empty or its drained bead can be evicted, and the bead that ran has halted or waits (R343, R347). -/
def State.startDue (s : State) : Option Due :=
  match s.hub.placing with
  | (_, bank, t) :: _ =>
    let free := if bank = s.core.bank then s.q.state == .empty else (s.oq.state == .empty || s.evictable) && !(s.q.state == .active && s.canIssue s.c s.q)
    if decide (t ≤ s.now) && free && !s.stands then some (.beadStart, .none) else none
  | [] => none

/-- A waiting bead takes the core (R352): when the running one cannot issue, or when it comes back from a translation fault
with no lower priority (08 R232), or from a sleep whose cycle has come (10 R321). -/
def State.resumeDue (s : State) : Option Due :=
  if s.core.parked || s.stands || !s.hub.placing.isEmpty then none
  else if s.q.state == .active && s.canIssue s.c s.q then
    if (s.oq.state == .translation || s.oq.state == .sleeping) && s.oq.eligible && decide (s.c.prio ≤ s.oc.prio) && s.q.trap.isNone &&
      !s.q.rewind && s.bankReady s.oc s.oq then some (.resumption, .none) else none
  else if (s.q.state != .active && s.bankReady s.c s.q) || s.bankReady s.oc s.oq then some (.resumption, .none)
  else none

def State.bankDue (s : State) : Option Due :=
  if s.q.wakes s.now || s.oq.wakes s.now then some (.sleepuWake, .none)
  else if s.q.drains s.now || s.oq.drains s.now then some (.contextDrainFinal, .none)
  else s.startDue.orElse fun _ => s.resumeDue

/-! ## The hub and the towers -/

/-- A dispatch round falls every 8 cycles (R343); one with nothing to dispatch is left out. None falls in recovery mode or while power is
gone (12 R399, R403). -/
def State.roundDue (s : State) : Option Due :=
  if s.hub.boot.recovery || s.hub.boot.pfImage.isSome then none
  else if s.now % 8 != 0 || s.now < s.hub.roundAt then none
  else if s.hub.beads.isEmpty && s.strands.isEmpty then none
  else some (.dispatchRound, .none)

def State.releaseDue (s : State) : Option Due :=
  s.hub.clasps.findSome? fun c =>
    if !c.arrived.isEmpty && c.released.any fun t => decide (t ≤ s.now) then some (.barrierRelease, .barrier c.number []) else none

/-- The first group that must be refreshed by force (09 R297). -/
def State.forceDue (s : State) : Option Due :=
  if s.now < s.forceAge then none
  else (List.range (17 * 128)).findSome? fun i =>
    if s.refreshedAt (i / 128) (i % 128) + s.forceAge ≤ s.now ∧ s.groupDead (i / 128) (i % 128) = false then
      some (.forcedRefresh, .group (i / 128) (BitVec.ofNat 7 i))
    else none

/-- A normal refresh that a tower makes now: while the core defers, a slot only passes (09 R295, R297). -/
def State.slotDue (s : State) : Option Due :=
  if s.core.overdue.isEmpty && s.core.slots.all fun x => decide (s.now < x.1) then none
  else (List.range 17).findSome? fun t =>
    let slot := s.core.slots.toList[t]?.getD (s.now + 1, 0)
    if s.deferring then (if slot.1 ≤ s.now then some (.normalRefresh, .group t slot.2) else none)
    else match s.catchUpGroup t with
      | some g => some (.normalRefresh, .group t (BitVec.ofNat 7 g))
      | none =>
        if slot.1 ≤ s.now ∧ (s.refreshing t || s.midRow t || (s.oldestOverdue t).isSome) = false then some (.normalRefresh, .group t slot.2)
        else none

def State.towerDue (s : State) : Option Due :=
  if s.core.blocked.any fun b => decide (b.2 < s.now) then some (.groupRefreshEnd, .none)
  else if s.core.deferEnd.any fun t => decide (t ≤ s.now) then some (.deferralEnd, .none)
  else s.forceDue.orElse fun _ => s.slotDue

/-- Samples fall every 64 and every 700,000 cycles; the refused grants count from 0 every 1024 cycles whether a unit runs or not (12 Table 12-9). -/
def State.sampleDue (s : State) : Option Due :=
  if s.core.monAt ≤ s.now ∧ (s.now % 64 = 0 ∨ s.now % 700000 = 0) ∧
      (s.core.mon.toList.any Mon.running = true ∨ (s.now % 1024 = 0 ∧ s.core.crownRefused ≠ 0)) then some (.monitorSample, .none) else none

/-- The patrol scrubber's line: one every 512 cycles, so that each of the 2^17 crown lines is read once per 2^26 cycles, in a cycle that leaves
its arrays free (12 R388; log 43). A line in which nothing is wrong is passed over. -/
def State.scrubDue (s : State) : Option Due :=
  if s.now < s.core.scrubAt then none else
  let la := s.now / 512 % 2 ^ 17 * 64
  let lo := crownAddr s.core.phys la
  if (s.mem.suspects lo 64).isEmpty ||
      !granted (s.tileArrays ++ s.outs.flatMap s.copyArrays ++ if s.core.claimedAt = s.now then s.core.claims else []) (s.arrays false [(lo, 64)]) then none
  else some (.patrolScrub, .value (BitVec.ofNat 64 la))

/-- The machine's next own event in this cycle. -/
def State.due (s : State) : Option Due :=
  s.outDue.orElse fun _ => s.reduceDue.orElse fun _ => s.releaseDue.orElse fun _ => s.towerDue.orElse fun _ =>
    s.sampleDue.orElse fun _ => s.bankDue.orElse fun _ => s.activeDue.orElse fun _ => s.scrubDue.orElse fun _ => s.roundDue

end Sys2Proof.Machine
end

