-- ==== Sys2Proof/Machine/Issue.lean ====
section
/-! DEFINITION. The sequencer (02_bundles_and_encoding.md): fetch, the checks at issue, REP and EXT headers, interlocks and holds, execution of a bundle's slots, parking and slip, and the end of a cycle. -/

namespace Sys2Proof.Machine

/-! ## Fetch (02 R36, 04 R118) -/

/-- The four words of the bundle at a global address; otherwise the first byte in an absent host page, or none where
nothing is mapped. -/
def State.fetch (s : State) (a : DWord) : Except (Option Nat) (List Word) :=
  let g := a.toNat
  let words := (List.range 4).map fun i => BitVec.ofNat 32 (bytesNat (s.mem.bytes (g + 4 * i) 4))
  if deviceHalf g then (if s.hub.mapped g 16 then .ok words else .error none)
  else match s.hub.absentAt g 16 with
    | some b => .error (some b)
    | none => .ok words

/-- ECC over the bundle at an address, read through its home port (01 R20): whether a granule of it is bad. -/
def State.fetchCheck (s : State) (a : DWord) : State × Bool :=
  if s.mem.wrong.isEmpty && s.mem.poison.isEmpty && s.mem.flaky.isEmpty then (s, false)
  else
    let r := s.mem.checks s.fresh (granules a.toNat 16)
    ({ s with mem := r.1, fresh := s.fresh + 1 }, !r.2.isEmpty)

/-- Word `k` of a bundle. -/
def wordOf (ws : List Word) (k : Nat) : Word := ws[k]?.getD 0

/-- The operation of a slot word; an all-zero word is none (R38). -/
def slotInstr (k : Slot) (w : Word) : Except DecodeError (Option Instr) :=
  if w = 0 then .ok none
  else match decodeSlot k w.toNat with
    | .ok i => .ok (some i)
    | .error e => .error e

/-! ## Headers (R39-R44) -/

/-- Instructions whose immediate the T lent field extends (08 R242), and `copy` with a barrier (09 R279). -/
def takesLentT (i : Instr) : Bool :=
  match i with
  | .addaImmediate _ _ _ | .subaImmediate _ _ _ | .lia _ _ | .hld _ _ _ _ | .hst _ _ _ _ => true
  | .ld _ _ _ _ _ | .ldn _ _ _ _ _ | .st _ _ _ _ _ | .vld _ _ _ _ _ | .vst _ _ _ _ _ => true
  | .cld _ _ _ _ _ | .cst _ _ _ _ _ | .cldVector _ _ _ _ _ | .cstVector _ _ _ _ _ | .tvld _ _ _ _ _ | .tvst _ _ _ _ _ => true
  | .copy _ _ _ _ _ _ _ _ b => b == 1
  | _ => false

/-- Bits of the M lent field that an instruction gives a meaning (06 Table 6-7). -/
def lentBitsM (i : Instr) : Nat :=
  match i with
  | .mdset _ _ _ => 512
  | .mdld _ _ | .mdst _ _ => 16
  | _ => 1

/-- The operation that a slot of a bundle holds, when its word is legal. -/
def instrAt (k : Slot) (w : Word) : Option Instr := ((slotInstr k w).toOption).join

/-- Each lent field of an EXT header has a meaning for its slot's operation, or is zero (R40). A slot whose word is illegal
reports that itself. -/
def extOk (e : Ext) (ws : List Word) : Bool :=
  let v := match instrAt .v (wordOf ws 1) with
    | some i => if takesThird i then e.v.toNat % 8 == 0 else e.v == 0
    | none => wordOf ws 1 != 0 || e.v == 0
  let m := match instrAt .m (wordOf ws 2) with
    | some i => decide (e.m.toNat < lentBitsM i)
    | none => wordOf ws 2 != 0 || e.m == 0
  let t := match instrAt .t (wordOf ws 3) with
    | some i => takesLentT i || e.t == 0
    | none => wordOf ws 3 != 0 || e.t == 0
  v && m && t

/-- The EXT fields of a bundle. -/
def extOf (ws : List Word) : Option Ext :=
  match decodeSlot0 (wordOf ws 0).toNat with
  | .ok (.ext v m t) => some { v := v, m := m, t := t }
  | _ => none

/-- A REP header: count, strides of V, M and T, step bits. -/
structure Rep where
  count : Nat
  v : Int
  m : Int
  t : Int
  step : BitVec 4
  deriving DecidableEq, Repr

def repOf (ws : List Word) : Option Rep :=
  match decodeSlot0 (wordOf ws 0).toNat with
  | .ok (.rep (.hrep c v m t st)) => some { count := c.toNat, v := v.toInt, m := m.toInt, t := t.toInt, step := st }
  | _ => none

/-- The REP header of a bundle. -/
def headOf (ws : List Word) : Option Instr :=
  match decodeSlot0 (wordOf ws 0).toNat with
  | .ok (.rep i) => some i
  | _ => none

/-- Where the primary field of a slot T instruction lies, its width, and how many registers its file has (08 Table 8-8). -/
def primaryT (i : Instr) : Option (Nat × Nat × Nat) :=
  match i with
  | .adda _ _ _ | .addaImmediate _ _ _ | .suba _ _ _ | .subaImmediate _ _ _ | .shla _ _ _ | .shlaImmediate _ _ _ => some (21, 4, 16)
  | .lia _ _ | .hder _ _ _ _ _ | .hnul _ | .hld _ _ _ _ | .hst _ _ _ _ => some (21, 4, 16)
  | .ld _ _ _ _ _ | .ldn _ _ _ _ _ | .st _ _ _ _ _ => some (20, 5, 32)
  | .vld _ _ _ _ _ | .vst _ _ _ _ _ | .vlds _ _ _ _ _ | .vsts _ _ _ _ _ | .vgth _ _ _ _ _ _ | .vsct _ _ _ _ _ _ => some (19, 6, 48)
  | .tvld _ _ _ _ _ | .tvst _ _ _ _ _ => some (19, 6, 48)
  | .cld _ _ _ _ _ | .cst _ _ _ _ _ => some (19, 5, 32)
  | .cldVector _ _ _ _ _ | .cstVector _ _ _ _ _ => some (18, 6, 48)
  | .xcXAddress _ _ _ _ => some (19, 4, 16)
  | _ => none

/-- Registers of the file of a slot M instruction's field [25:23], which a REP header steps (R41, 07 R198). -/
def primaryM (i : Instr) : Option Nat :=
  match i with
  | .mdset _ _ _ | .mdld _ _ | .mdst _ _ | .mzero _ | .moutm _ _ _ _ _ | .mma _ _ _ _ _ | .mmaCk _ _ _ _ _ => some 8
  | .mlu _ _ _ _ | .mchol _ _ _ | .mqr _ _ _ | .mtrsm _ _ _ _ _ _ _ _ | .mperm _ _ _ _ _ _ => some 8
  | .xcXMatrix _ _ k _ => some (if k = 0 then 8 else 4)
  | _ => none

/-- Step a field of `n` bits from bit `lo` of a word by a distance; none outside the `lim` registers of its file. -/
def stepField (w : Nat) (lo n lim : Nat) (by_ : Int) : Option Nat :=
  let v : Int := (fld w lo n : Int) + by_
  if 0 ≤ v ∧ v < lim then some (w - fld w lo n * 2 ^ lo + v.toNat * 2 ^ lo) else none

/-- The fields of a slot V word that a REP header steps: its step bit, the field's lowest bit and width, and how many registers its
file has (R41). A comparison of FP16 or BF16 names its vm register in [21:19], and `xc.x` and `xc.xl` their x register in [18:14]
(05 Table 5-3). A field that names no register steps its raw bits (log 31). -/
def steppedV (w : Word) : List (Nat × Nat × Nat × Nat) :=
  let op := vOp w
  [if op = 0x1C ∨ op = 0x28 then (3, 19, 3, 8) else (3, 19, 6, 48),
   if op = 0x70 ∨ op = 0x71 then (2, 14, 5, 32) else (2, 13, 6, 48),
   (1, 7, 6, 48)]

/-- Slot words of iteration `j` of a REP bundle; none when a stepped field leaves its file (R41). -/
def repV (r : Rep) (w : Word) (j : Nat) : Option Word :=
  ((steppedV w).foldl (fun x f => if r.step.getLsbD f.1 ∧ r.v ≠ 0 then x.bind fun n => stepField n f.2.1 f.2.2.1 f.2.2.2 (j * r.v) else x)
    (some w.toNat)).map (BitVec.ofNat 32)

def repM (r : Rep) (w : Word) (j : Nat) : Option Word :=
  match (instrAt .m w).bind primaryM with
  | some lim => if r.m = 0 then some w else (stepField w.toNat 23 3 lim (j * r.m)).map (BitVec.ofNat 32)
  | none => some w

def repT (r : Rep) (w : Word) (j : Nat) : Option Word :=
  match (instrAt .t w).bind primaryT with
  | some p => if r.t = 0 then some w else (stepField w.toNat p.1 p.2.1 p.2.2 (j * r.t)).map (BitVec.ofNat 32)
  | none => some w

/-- The conditions of R42 that raise trap 0x01. -/
def repOk (r : Rep) (ws : List Word) : Bool :=
  let v := wordOf ws 1
  let m := wordOf ws 2
  let t := wordOf ws 3
  let set (bit : Nat) : Bool := r.step.getLsbD bit
  !(r.step.getLsbD 0) &&
  (v != 0 || (!set 1 && !set 2 && !set 3 && r.v == 0)) &&
  ((steppedV v).all fun f => !set f.1 || decide (fld v.toNat f.2.1 f.2.2.1 < f.2.2.2)) &&
  (r.m == 0 || ((instrAt .m m).bind primaryM).isSome) &&
  (r.t == 0 || ((instrAt .t t).bind primaryT).isSome) &&
  !((instrAt .m m).any fun i => (lendOf i).isSome)

/-! ## Checks at issue (R56) -/

/-- Operations for system level only (12 R371; 04 Table 4-7; 08 R264). -/
def needsSystem (i : Instr) : Bool :=
  match i with
  | .rte | .halt => true
  | .scan _ _ | .cmap _ _ _ | .trmw _ _ _ _ _ => true
  | .diagInjFlip _ _ | .diagInjCerr _ _ | .diagInjPoison _ _ | .diagInjTpoison _ _ | .diagInjStrike _ _ => true
  | .srd _ n => srdSystem n.toNat
  | .swr _ n => swrSystem n.toNat
  | .xcXAddress k _ _ _ => k == 1
  | _ => false

/-- An operation names a register of a lent bank (05 R139). -/
def lentUse (lent : BitVec 6) (l : List Reg) : Bool :=
  l.any fun r => match r with
    | .v n => decide (n.toNat < 48) && lentV lent n.toNat
    | _ => false

/-- An operation's registers are legal: the even ones are, and none is lent. -/
def regsOk (lent : BitVec 6) (i : Instr) (ext : Option Ext) : Bool :=
  i.evenOk && !lentUse lent (usesOf i ++ (ext.map fun e => Reg.v (extSource e)).toList)

/-- The immediate of an `mdset`, with the bits that an EXT header gives it, is one that Table 6-8 allows (06 R189). -/
def mdsetOk (i : Instr) (ext : Option Ext) : Bool :=
  match i with
  | .mdset _ f n => (mdField 0 f.toNat (mdImm n ext)).isSome
  | _ => true

/-- A failed check as a trap record. -/
def issueTrap (code : BitVec 8) (slot : BitVec 2) (header stride : Bool) (word : Word) : TrapRec :=
  { code := code, info := wordInfo slot header stride word, slot := slot, iss := true, evt := false, now := false }

/-- The checks of one slot, in the order 0x01, 0x03, 0x02. -/
def State.slotFault (s : State) (k : Slot) (slot : BitVec 2) (w : Word) (ext : Option Ext) : Option TrapRec :=
  match slotInstr k w with
  | .error _ => some (issueTrap 0x01 slot false false w)
  | .ok none => none
  | .ok (some i) =>
    if !mdsetOk i ext || ext.isNone && (thirdDest i).any (fun d => decide (48 ≤ d.toNat)) then some (issueTrap 0x01 slot false false w)
    else if needsSystem i && !s.c.sys then some (issueTrap 0x03 slot false false w)
    else if !regsOk s.lentAhead i (if takesThird i then ext else none) then some (issueTrap 0x02 slot false false w)
    else none

/-- A register of some iteration of a REP bundle is outside its file or lent (R42). -/
def State.repFault (s : State) (k : Slot) (f : Nat → Option Word) (js : List Nat) : Bool :=
  js.any fun j => match f j with
    | none => true
    | some w => match slotInstr k w with
      | .error _ => true
      | .ok none => false
      | .ok (some i) => !regsOk s.lentAhead i none

/-- The iterations of a REP bundle that are left: all, or the last `q.repLeft`. -/
def Seq.iterations (q : Seq) (r : Rep) : List Nat :=
  (List.range r.count).drop (if q.repLeft = 0 then 0 else r.count - q.repLeft)

/-- The checks of slot 0. What fails in a lent field of an EXT header, and the 0x01 conditions of R42, are reported on the header; for
the latter sr.einfo names a stride too (log 31). -/
def State.headFault (s : State) (done : BitVec 4) (ws : List Word) : Option TrapRec :=
  let w := wordOf ws 0
  let header := fld w.toNat 28 4 == 15
  match decodeSlot0 w.toNat with
  | .error _ => if done.getLsbD 0 && !header then none else some (issueTrap 0x01 0 header false w)
  | .ok (.ext v m t) => if extOk { v := v, m := m, t := t } ws then none else some (issueTrap 0x01 0 true false w)
  | .ok (.rep _) => match repOf ws with
    | some r => if repOk r ws then none else some (issueTrap 0x01 0 true true w)
    | none => none
  | .ok (.op _) => if done.getLsbD 0 then none else s.slotFault .c 0 w none

/-- Slots V, M and T, their REP iterations after their own checks; a replay checks only what it issues (R58): of a slot that is done, the
iterations after the first that remains (R44). -/
def State.bodyFault (s : State) (done : BitVec 4) (ws : List Word) : Option TrapRec :=
  let ext := extOf ws
  let one (k : Slot) (slot : BitVec 2) (f : Rep → Word → Nat → Option Word) : Option TrapRec :=
    let w := wordOf ws slot.toNat
    let skip := done.getLsbD slot.toNat
    let later := ((repOf ws).map fun r => (s.q.iterations r).drop (if skip then 1 else 0)).getD []
    if skip && later.isEmpty then none
    else (s.slotFault k slot w ext).orElse fun _ => match repOf ws with
      | some r => if w != 0 && s.repFault k (f r w) later then some (issueTrap 0x02 slot false true w) else none
      | none => none
  (one .v 1 repV).orElse fun _ => (one .m 2 repM).orElse fun _ => one .t 3 repT

/-- The checks of R380 on the first bundle that `rte` resumes. -/
def State.resumeFault (s : State) (ws : List Word) : Option TrapRec :=
  let count := ((repOf ws).map (·.count)).getD 0
  let full (d : BitVec 4) : Bool := (List.range 4).all fun k =>
    d.getLsbD k || wordOf ws k == 0 || (k == 0 && fld (wordOf ws 0).toNat 28 4 == 15)
  if s.q.rteCheck && (decide (count < s.q.repLeft) || s.q.replay.head?.any fun r => full r.2) then
    some (issueTrap 0x01 0 false true (wordOf ws 0))
  else none

/-- The first failed check of a bundle whose done bits are `done`. -/
def State.bundleFault (s : State) (done : BitVec 4) (ws : List Word) : Option TrapRec :=
  (s.resumeFault ws).orElse fun _ => (s.headFault done ws).orElse fun _ => s.bodyFault done ws

/-! ## What an operation accesses (10 R309, R310, R313, R315) -/

/-- Bits of a fence's sets. -/
def pathBit (path : Path) : Nat :=
  match path with
  | .l => 0
  | .p => 1
  | .k => 2
  | .m => 3
  | .a => 4
  | .x => 5

/-- An operation of slot V that reads scale exponents or an outlier list in crown (03 R85, R88). -/
def Slotted.lists (o : Slotted) : Bool :=
  match o.instr with
  | .vcvtPack _ _ _ _ _ _ | .vcvtUnpack _ _ _ _ _ _ => true
  | _ => false

/-- The path on which an operation accesses the issuing core's crown or towers, when it does. -/
def Slotted.pathOf (o : Slotted) : Option Path :=
  if o.slot = 1 then (if o.ports.isEmpty && !o.lists then none else some .p)
  else match o.instr with
  | .cld _ _ _ _ _ | .cst _ _ _ _ _ | .cldVector _ _ _ _ _ | .cstVector _ _ _ _ _ | .tvld _ _ _ _ _ | .tvst _ _ _ _ _ => some .l
  | .hld _ _ _ _ | .hst _ _ _ _ | .pcfg _ _ _ | .pld _ _ _ _ | .vgth _ _ _ _ _ _ | .vsct _ _ _ _ _ _ => some .l
  | .tsetf _ _ _ | .tsete _ _ _ | .trmw _ _ _ _ _ | .tdead _ _ _ => some .l
  | .copy _ _ _ _ _ _ _ _ _ | .frfl _ _ _ _ _ | .shift _ _ _ _ _ _ => some .k
  | .reduce _ _ _ _ _ => some .x
  | .mdld _ _ | .mdst _ _ | .mbld _ | .mzero _ | .moutm _ _ _ _ _ | .mma _ _ _ _ _ | .mmaCk _ _ _ _ _ => some .m
  | .mlu _ _ _ _ | .mchol _ _ _ | .mqr _ _ _ | .mtrsm _ _ _ _ _ _ _ _ | .mperm _ _ _ _ _ _ => some .m
  | _ => none

/-- Whether an operation of slot V pushes to a port, takes from one that empties its granules, or may append to an outlier list. -/
def Slotted.pushes (o : Slotted) : Bool :=
  (o.results.isEmpty && decide (48 ≤ fld o.word.toNat 19 6 ∧ fld o.word.toNat 19 6 < 56) && !vToMask o.word) ||
  (o.ports.any fun k => (o.iss.port.get k.toFin).any fun p => p.set.fe == 2) ||
  (match o.instr with
    | .vcvtPack _ _ _ _ _ _ => true
    | _ => false)

/-- Whether an operation writes memory or a full/empty bit (10 Table 10-5). -/
def Slotted.writer (o : Slotted) : Bool :=
  if o.slot = 1 then o.pushes
  else match o.instr with
  | .st _ _ _ _ _ | .vst _ _ _ _ _ | .vsts _ _ _ _ _ | .vsct _ _ _ _ _ _ | .cst _ _ _ _ _ | .cstVector _ _ _ _ _ => true
  | .tvst _ _ _ _ _ | .hst _ _ _ _ | .bcfl _ _ _ _ | .tsetf _ _ _ | .tsete _ _ _ | .tdead _ _ _ | .hdead _ _ _ => true
  | .copy _ _ _ _ _ _ _ _ _ | .frfl _ _ _ _ _ | .shift _ _ _ _ _ _ | .reduce _ _ _ _ _ => true
  | .atmAdd _ _ _ _ _ _ | .atmFadd _ _ _ _ _ _ | .atmMin _ _ _ _ _ _ | .atmMax _ _ _ _ _ _ | .atmAnd _ _ _ _ _ _ => true
  | .atmOr _ _ _ _ _ _ | .atmXor _ _ _ _ _ _ | .atmXchg _ _ _ _ _ _ | .atmCas _ _ _ _ _ _ | .atmInc _ _ _ _ _ _ => true
  | .bobInit _ _ _ _ | .bobArr _ _ _ | .bobWait _ _ _ _ | .cbar _ => true
  | .mdld _ _ | .mdst _ _ | .mbld _ | .mzero _ | .moutm _ _ _ _ _ | .mma _ _ _ _ _ | .mmaCk _ _ _ _ _ => true
  | .mlu _ _ _ _ | .mchol _ _ _ | .mqr _ _ _ | .mtrsm _ _ _ _ _ _ _ _ | .mperm _ _ _ _ _ _ | .mpiv _ _ _ => true
  | _ => false

/-- Operations of slots C and T that act after the rest of their bundle. A `swr` governs later bundles only (04 R125), but that of
sr.fpsr goes before the flags of its own bundle (03 R94). -/
def actsLast (i : Instr) : Bool :=
  match i with
  | .swr _ n => n != 2
  | .rte | .halt | .yield | .retire | .leave | .sege => true
  | .suspend _ _ | .join _ _ _ | .cbar _ | .seg _ _ _ | .trap _ | .scan _ _ | .diagInjStrike _ _ | .sleepu _ => true
  | _ => false

/-- Place of an operation in its bundle's order (R310): slot C, the reads of slot T, slots V and M, the writes of slot T,
then what acts last, slot T before slot C. -/
def Slotted.phase (o : Slotted) : Nat :=
  if actsLast o.instr then (if o.slot = 0 then 6 else 5)
  else if o.slot = 0 then 0
  else if o.slot = 1 then 2
  else if o.slot = 2 then 3
  else if o.writer then 4 else 1

def inOrder (l : List Slotted) : List Slotted := (List.range 7).flatMap fun n => l.filter fun o => o.phase == n

/-- An access of the bead on a path of a set, before bundle `n`, has not performed (10 R313). -/
def State.fenceOpen (s : State) (paths : BitVec 6) (n : Nat) : Bool :=
  ((s.earlier n).any fun o => paths.getLsbD (pathBit o.path) &&
    (s.readTargets o ++ s.writeTargets o).any fun a => decide (s.scopeOf a = 0)) ||
  ((s.q.vq ++ s.q.mq).any fun o => decide (o.seq < n) && o.pathOf.any fun y => paths.getLsbD (pathBit y))

/-- A fence in force holds an operation. -/
def State.fenced (s : State) (o : Slotted) : Bool :=
  s.q.fences.any fun f => decide (f.2.2 < o.seq) && (o.pathOf.any fun y => f.2.1.getLsbD (pathBit y)) && s.fenceOpen f.1 f.2.2

/-! ## Copies in their shadow (R54) -/

/-- Slot that owns the destination of a register write, and for a port's binding the slot that uses it (08 R258). -/
def RegWrite.slot (w : RegWrite) : BitVec 2 :=
  match w with
  | .v _ _ _ | .vm _ _ _ | .port _ _ => 1
  | .m _ _ _ | .pv _ _ _ | .g _ _ => 2
  | .a _ _ | .h _ _ _ | .pat _ _ _ => 3
  | .none | .x _ _ => 0

/-- The bundle that a slot has reached when bundle `n` issues. -/
def Seq.reached (q : Seq) (slot : BitVec 2) (n : Nat) : Nat :=
  if slot = 1 then ((q.vq.head?).map (·.seq)).getD n else if slot = 2 then ((q.mq.head?).map (·.seq)).getD n else n

/-- A copy lands when its destination slot has reached its bundle, and takes its bank's write port for the cycle; it stays for a cycle
when another result is written there (05 R135). -/
def State.landShadow (n : Nat) (s : State) (h : Shadow) : State :=
  if decide (h.due ≤ s.q.reached h.write.slot n) && !h.write.reg.any (s.q.bankBusy s.now) then
    { s with
      c := h.write.apply s.c
      q := { s.q with busy := s.q.busy ++ (h.write.reg.filter fun r => r.bank.isSome).toList.map fun r => (r, h.seq, s.now) } }
  else { s with q := { s.q with shadows := s.q.shadows ++ [h] } }

/-- Copies land in order, bundle `n` being the one that the stream has reached. -/
def State.landShadows (s : State) (n : Nat) : State :=
  s.q.shadows.foldl (State.landShadow n) { s with q := { s.q with shadows := [] } }

/-! ## Execution of the slots (R48-R50, R57) -/

/-- Mark a slot of bundle `n` complete; complete bundles before the oldest incomplete one are forgotten. -/
def Seq.markDone (q : Seq) (n : Nat) (slot : BitVec 2) : Seq :=
  let bit (f : Flight) : Flight := if f.seq = n then { f with done := f.done ||| BitVec.ofNat 4 (2 ^ slot.toNat) } else f
  { q with win := (q.win.map bit).dropWhile (·.done == 15), cur := q.cur.map bit }

/-- The operation enters its slot. -/
def State.latched (s : State) (o : Slotted) (quiet : Bool) : State :=
  { s with lat := { addr := o.addr, slot := o.slot, word := o.word, seq := o.seq, ext := o.ext, iss := o.iss, res := .done, quiet := quiet } }

/-- Nothing but an operation is incomplete in its bundle and the ones before it. -/
def Seq.alone (q : Seq) (o : Slotted) : Bool :=
  !((q.vq ++ q.mq ++ q.ops).any fun y => decide (y.seq ≤ o.seq) && !(y.seq == o.seq && y.slot == o.slot))

/-- An operation joins the queue of slot V or M; at its head it has been parked since a cycle, or waits for its turn. -/
def Seq.enqueue (q : Seq) (o : Slotted) (since : Option Nat) : Seq :=
  let q := { q with ops := q.ops.filter (·.slot != o.slot) }
  if o.slot = 1 then { q with vq := q.vq ++ [o], vSince := if q.vq.isEmpty then since else q.vSince }
  else { q with mq := q.mq ++ [o], mSince := if q.mq.isEmpty then since else q.mSince }

/-- An operation behind a parked one waits in its slot's queue; `tried` when the slot has executed one in this cycle. -/
def Seq.behind (q : Seq) (o : Slotted) : Bool :=
  (o.slot == 1 && (!q.vq.isEmpty || q.vTried)) || (o.slot == 2 && (!q.mq.isEmpty || q.mTried))

/-- A watched wait is over. -/
def Waiting.rested (w : Waiting) : Waiting :=
  match w with
  | .watch _ => .none
  | _ => w

/-- How an operation of the current bundle left its slot. -/
def State.leaves (s : State) (o : Slotted) : State :=
  match s.lat.res with
  | .done =>
    ({ s with q := { s.q.markDone o.seq o.slot with ops := s.q.ops.filter (·.slot != o.slot), wait := s.q.wait.rested } }).paced o
  | .stall => s
  | .park => { s with q := s.q.enqueue o (some s.now) }
  | .trap => { s with q := { s.q with ops := s.q.ops.filter (·.slot != o.slot) } }

/-- The operation's own bundle is still the current one. -/
def State.holds (s : State) (bank : Bool) (o : Slotted) : Bool := s.core.bank == bank && s.q.cur.any (·.seq == o.seq)

/-- An operation that acts last waits for the rest of its bundle, and a write of slot V for a read of slot T (10 R310). -/
def Seq.early (q : Seq) (o : Slotted) : Bool :=
  (decide (5 ≤ o.phase) && q.ops.any fun y => decide (y.phase < o.phase)) ||
  (o.slot == 1 && o.writer && q.ops.any fun y => y.phase == 1)

/-- The operation of slot V that asks for its grants together with the operations of slot T. -/
def Seq.besideT (q : Seq) : Option Slotted := q.ops.find? fun y => y.slot == 1 && !q.early y && !q.behind y

/-- Execute, queue or hold one operation of the current bundle. -/
def State.runSlot (s : State) (o : Slotted) : Ans :=
  if s.q.early o then .next s
  else if s.q.behind o then .next { s with q := s.q.enqueue o none }
  else if s.fenced o then .next (if o.slot = 1 ∨ o.slot = 2 then { s with q := s.q.enqueue o (some s.now) } else s)
  else match s.refusal o s.q.besideT with
  | some i => .next (if o.slot = 1 then { s.turnAway i with q := s.q.enqueue o (some s.now) } else s.turnAway i)
  | none => match exec o.instr ((s.claimed o).latched o (s.q.alone o)) with
    | .next t => .next (if t.holds s.core.bank o then t.leaves o else t)
    | .fault f => .fault f
    | .refused r => .refused r

/-- The current bundle leaves the bundle register once each of its operations is complete, has faulted or is queued. -/
def State.finish (s : State) : State :=
  match s.q.cur with
  | some f =>
    if s.q.ops.isEmpty then
      { s with q := { s.q with cur := none, win := (s.q.win ++ [f]).dropWhile (·.done == 15) } }
    else s
  | none => s

/-- The operations of the current bundle in order, until one of them takes the stream away. -/
def State.runSlots (s : State) : List Slotted → Ans
  | [] => .next s.finish
  | o :: t => match s.runSlot o with
    | .next u => if u.holds s.core.bank o then u.runSlots t else .next u
    | .fault f => .fault f
    | .refused r => .refused r

/-- The head of a queue leaves it. -/
def Seq.unqueue (q : Seq) (slot : BitVec 2) : Seq :=
  if slot = 1 then { q with vq := q.vq.tail, vSince := none } else { q with mq := q.mq.tail, mSince := none }

/-- The head of a queue stays parked. -/
def Seq.stay (q : Seq) (slot : BitVec 2) (now : Nat) : Seq :=
  if slot = 1 then { q with vSince := some (q.vSince.getD now) } else { q with mSince := some (q.mSince.getD now) }

/-- The head of a queue waits otherwise than parked, which sr.parkmax does not limit (R51). -/
def Seq.delay (q : Seq) (slot : BitVec 2) : Seq := if slot = 1 then { q with vSince := none } else { q with mSince := none }

/-- The operation that `parked slot retry` latched executes (R48, R49). -/
def State.retry (s : State) (o : Slotted) : Ans :=
  let s := { s with run := none }.landShadows (s.q.seq - 1)
  let at0 := match s.q.bankHold with
    | some h => if h.1 = o.seq then h.2 else s.coreAfter (if o.slot = 1 then s.bankCost o else 0)
    | none => s.coreAfter (if o.slot = 1 then s.bankCost o else 0)
  if s.fenced o then .next { s with q := s.q.stay o.slot s.now }
  else if s.interlocked o || s.unready o then .next ({ s.unparked o.slot with q := s.q.delay o.slot }.countStall 1)
  else if s.now < at0 || s.clashes o then
    .next ({ s.unparked o.slot with q := { s.q.delay o.slot with bankHold := some (o.seq, at0) } }.countStalledBy
      ((if s.now < at0 then [0] else []) ++ if s.clashes o then [1] else []))
  else match s.refusal o none with
  | some i => .next { s.turnAway i with q := s.q.stay o.slot s.now }
  | none => match exec o.instr ((s.claimed o).latched o (s.q.alone o)) with
    | .next t =>
      if t.core.bank != s.core.bank || t.q.state != .active ||
          !((if o.slot = 1 then t.q.vq else t.q.mq).head?.any (·.seq == o.seq)) then .next t
      else .next (match t.lat.res with
        | .done => ({ t.unparked o.slot with q := (t.q.markDone o.seq o.slot).unqueue o.slot }).paced o
        | .trap => { t.unparked o.slot with q := t.q.unqueue o.slot }
        | .park => { t with q := t.q.stay o.slot t.now }
        | .stall => { t.unparked o.slot with q := t.q.delay o.slot })
    | .fault f => .fault f
    | .refused r => .refused r

/-! ## Issue -/

/-- A slot's operation of the bundle that issues. -/
def State.slotIn (s : State) (addr : DWord) (ext : Option Ext) (slot : BitVec 2) (w : Word) (i : Instr) : Slotted :=
  { instr := i, slot := slot, word := w, addr := addr, seq := s.q.seq, ext := ext, iss := s.c, limit := s.core.parkmax }

/-- The operations of a bundle whose done bits are 0. -/
def State.opsOf (s : State) (addr : DWord) (done : BitVec 4) (ws : List Word) : List Slotted :=
  let ext := extOf ws
  let one (k : Slot) (slot : BitVec 2) : List Slotted :=
    if done.getLsbD slot.toNat ∨ (slot = 0 ∧ fld (wordOf ws 0).toNat 28 4 = 15) then []
    else match instrAt k (wordOf ws slot.toNat) with
      | some i => [s.slotIn addr ext slot (wordOf ws slot.toNat) i]
      | none => []
  one .c 0 ++ one .v 1 ++ one .m 2 ++ one .t 3

/-- Done bits of a bundle whose incomplete operations are listed. -/
def doneOf (l : List Slotted) : BitVec 4 :=
  l.foldl (fun d o => d &&& ~~~BitVec.ofNat 4 (2 ^ o.slot.toNat)) 15

/-- The target of a `jr` or `ret` that is taken and misaligned (R37, 04 R118). -/
def State.badJump (s : State) (l : List Slotted) : Option DWord :=
  l.findSome? fun o => match o.instr with
    | .jr _ a g => if s.c.rk g ∧ (s.c.rx a).toNat % 16 ≠ 0 then some (s.c.rx a) else none
    | .ret g => if s.c.rk g ∧ (s.c.rx 31).toNat % 16 ≠ 0 then some (s.c.rx 31) else none
    | _ => none

/-- Slots V and M hold nothing of an earlier bundle. -/
def Seq.inStep (q : Seq) : Bool := q.vq.isEmpty && q.mq.isEmpty

/-- The limits of R43 and R49 hold the bundle at an address back. -/
def Seq.limited (q : Seq) (addr : DWord) (rep : Bool) : Bool :=
  (q.win.head?.any fun f => decide (f.seq + 9 ≤ q.seq)) || (q.oldest.any fun n => decide (n + 9 ≤ q.seq)) ||
  ((!q.inStep || q.lagged) && (rep || q.taken || q.win.getLast?.any fun f => f.addr + 16 != addr))

/-- The words of the bundle at an address, from the sequencer's buffer of the last 17 bundles while a short loop streams from it
(04 R119). -/
def State.buffered (s : State) (a : DWord) : Option (List Word) :=
  if s.q.looped.any fun l => decide (l.1 ≤ a ∧ a ≤ l.2) then (s.core.recent.find? (·.1 == a)).map (·.2) else none

/-- The sequencer keeps a bundle that issues; a loop ends with a bundle outside it. -/
def State.keep (s : State) (a : DWord) (ws : List Word) : State :=
  { s with
    core := { s.core with recent := ((a, ws) :: s.core.recent).take 17 }
    q := { s.q with looped := s.q.looped.filter fun l => decide (l.1 ≤ a ∧ a ≤ l.2) } }

/-- The stream passes to the next bundle. -/
def State.advance (s : State) (addr : DWord) (replayed iterating : Bool) : State :=
  { s with
    c := { s.c with pc := if replayed || iterating then s.c.pc else addr + 16 }
    q := { s.q with
      taken := false
      seq := s.q.seq + 1
      replay := if replayed then s.q.replay.tail else s.q.replay
      repLeft := 0
      rteCheck := false
      atVector := false } }

/-- Put a bundle into the bundle register and execute its slots. -/
def State.start (s : State) (addr : DWord) (left : Nat) (ops : List Slotted) : Ans :=
  let f : Flight := { addr := addr, done := doneOf ops, seq := s.q.seq - 1, rep := left }
  { s with q := { s.q with cur := some f, ops := ops } }.runSlots (inOrder ops)

/-- The REP header of a bundle, if it has one, executes before the bundle's slots. -/
def State.header (s : State) (addr : DWord) (head : Option Instr) : Ans :=
  match head with
  | some i => exec i { s with lat := { s.lat with addr := addr } }
  | none => .next { s with q := { s.q with repCur := none } }

/-- A bundle whose checks have passed issues, unless it is held. `head` is its REP header, `left` the number of iterations left, 0
without a header; `raw` are the bundle's words before a header's steps, `held` the stall counters of what holds the stream already. -/
def State.issueOps (s : State) (addr : DWord) (done : BitVec 4) (raw ws : List Word) (replayed iterating : Bool) (head : Option Instr) (left : Nat) (held : List Nat) : Ans :=
  let ops := s.opsOf addr done ws
  let queued (o : Slotted) : Bool := (o.slot == 1 && !s.q.vq.isEmpty) || (o.slot == 2 && !s.q.mq.isEmpty)
  let waits := (ops.filter fun o => (!queued o || o.instr == .vpsw) && (s.interlocked o || s.unready o) || s.unreturned o).map fun (o : Slotted) =>
    if o.slot = 1 then 1 else if o.slot = 0 then 5 else 16
  let kept := if s.q.relHold.any fun h => ops.any (·.writer) && !s.performed h.2 h.1.toNat false then [9] else []
  match held ++ waits ++ kept with
  | c :: l => .next (s.countStalledBy (c :: l))
  | [] =>
    match s.badJump ops with
    | some t =>
      if s.q.inStep then
        .next (s.enterIssueTrap addr { code := 0x04, info := t, slot := 0, iss := false, evt := false, now := false } 0)
      else .next s
    | none =>
      let cost := ops.foldl (fun n o => if o.slot = 1 ∧ !queued o then s.bankCost o else n) 0
      let at0 := match s.q.bankHold with
        | some h => if h.1 = s.q.seq then h.2 else s.coreAfter cost
        | none => s.coreAfter cost
      if s.now < at0 then
        .next ({ s with q := { s.q with bankHold := some (s.q.seq, at0) } }.countStalledBy (0 :: if ops.any fun o => !queued o && s.clashes o then [1] else []))
      else if ops.any fun o => !queued o && s.clashes o then .next (s.countStall 1) else
      let s := if ops.any (·.writer) then { s with q := { s.q with relHold := none } } else s
      match (if iterating then s else s.keep addr raw).header addr head with
      | .next u =>
        let u := u.advance addr replayed iterating
        if head.isSome && left == 0 then .next u else u.start addr left ops
      | .fault f => .fault f
      | .refused r => .refused r

/-- The bundle at an address cannot be fetched (04 R118). At a vector address the core halts as `halt` does, which first waits until every
counter is 0 (12 R374, R381). -/
def State.fetchFault (s : State) (addr : DWord) (why : Option Nat) : State :=
  if s.q.atVector then
    if [Ctr.ld, .st, .cp, .tl].any (fun k => s.count k != 0) then s else
    let s := s.noticeOwn 13 (s.c.cause.toNat % 2 ^ 8) addr s.c.einfo
    { s with q := { s.q with wait := .halted, eligible := false } }
  else
    let t : TrapRec := { code := 0x09, info := addr, slot := 0, iss := false, evt := false, now := false, absent := why.map (BitVec.ofNat 64) }
    s.takeTrap t

/-- The next bundle, and its slots that a handler has marked done. -/
def State.upNext (s : State) : DWord × BitVec 4 :=
  match s.q.repCur, s.q.replay with
  | some r, _ => (r.1, 0)
  | none, r :: _ => r
  | none, [] => (s.c.pc, 0)

/-- Fetch, check and issue the next bundle: the next iteration of a REP bundle, the next one of a replay window, or the one
at the pc. -/
def State.issue (s : State) : Ans :=
  let s := s.landShadows s.q.seq
  let iterating := s.q.repCur.isSome
  let replayed := !iterating && !s.q.replay.isEmpty
  let (addr, done) := s.upNext
  let kept := s.buffered addr
  match kept.elim (s.fetch addr) .ok with
  | .error e => .next (if s.q.inStep then s.fetchFault addr e else s)
  | .ok ws =>
    let r := if kept.isSome then (s, false) else (s.portFetch addr.toNat 16).fetchCheck addr
    let s := r.1
    if r.2 then
      if !s.q.inStep then .next s
      else if s.q.atVector then .next (s.fetchFault addr none)
      else if s.c.segOpen then .next { s with q := { s.q with rewind := true } }
      else .next (s.enterTrap { code := 0x10, info := 0, slot := 0, iss := false, evt := false, now := false })
    else match (if iterating then none else s.bundleFault done ws) with
    | some t => .next (if s.q.inStep then s.enterIssueTrap addr t (if (s.resumeFault ws).isSome then 0 else BitVec.ofNat 64 s.q.repLeft) else s)
    | none =>
      let rep := repOf ws
      let held := (if s.q.limited addr rep.isSome then [11] else []) ++ if s.lendHolds then [16] else []
      match rep with
      | none => s.issueOps addr done ws ws replayed false none 0 held
      | some r =>
        let left := s.q.iterationsLeft r.count
        let j := r.count - left
        let step (f : Rep → Word → Nat → Option Word) (k : Nat) : Word := (f r (wordOf ws k) j).getD 0
        s.issueOps addr done ws [wordOf ws 0, step repV 1, step repM 2, step repT 3] replayed iterating (headOf ws) left held

/-- The next bundle would fail its fetch or its issue checks in this cycle: its trap comes before a pending trap 0x13 and a pre-emption (12
R375). -/
def State.checkFails (s : State) : Bool :=
  let s := s.landShadows s.q.seq
  let (addr, done) := s.upNext
  s.ticks && s.q.cur.isNone && s.q.inStep && s.q.repCur.isNone && s.q.acq.isNone && s.q.wait != .halted && decide (s.q.issueFrom ≤ s.now) &&
  match (s.buffered addr).elim (s.fetch addr) .ok with
  | .error _ => true
  | .ok ws => (s.bundleFault done ws).isSome

/-- What the stream does in a cycle, for a bead that runs. -/
def State.stream (s : State) : Ans :=
  if s.q.rewind then .next s.doRewind
  else match s.q.cur with
  | some _ => s.runSlots (inOrder s.q.ops)
  | none =>
    match s.q.wait with
    | .halted => .next (if s.q.eligible then { s with q := { s.q with wait := .none, eligible := false } } else s)
    | _ => if s.q.trap.isSome || s.q.acq.isSome then .next s
      else if s.now < s.q.issueFrom then .next (s.countStall s.q.issueWhy) else s.issue

/-! ## The end of a cycle -/

/-- The cause that a stalled operation of slot C, M or T counts in (12 Table 12-11); 16 for one that no counter counts. -/
def State.stallCause (s : State) (o : Slotted) : Nat :=
  match o.instr with
  | .wait _ _ _ _ | .fence _ _ | .drain _ _ | .bobWait _ _ _ _ | .tdead _ _ _ => 9
  | _ =>
    if s.fenced o then 9
    else if o.slot = 2 then (if 4 ≤ (s.tileQueue s.core.bank).length then 4 else 16)
    else if o.slot ≠ 3 then 16
    else match s.q.wait with
      | .watch _ => 7
      | _ => if [Ctr.ld, .st, .cp, .tl].any (fun k => decide (63 ≤ s.count k)) then 8 else 16

/-- A refresh of a tower holds a transfer of the active bank that would move data now (09 R295, R300). -/
def State.refreshHolds (s : State) : Bool :=
  s.outs.any fun o => o.bank == s.core.bank && match o.work.burst.map Burst.stage with
    | some (Stage.moving start) => decide (s.now < start) && s.core.blocked.any fun b =>
        decide (start = b.2 + 1) && s.isBlocked b.1 && s.usesTower o.work b.1
    | _ => false

/-- Stalls of the cycle that ends. -/
def State.countStalls (s : State) : State :=
  let s := if s.refreshHolds then s.countStall 14 else s
  let s := if s.q.vSince.isSome then s.countStall 2 else s
  let s := if s.q.mSince.isSome then s.countStall 3 else s
  let s := if s.now < s.core.strikeEnd then s.countStall 15 else s
  (s.q.ops.filter fun o => !(o.slot == 3 && s.core.refusedAt == some s.now)).foldl (fun s o => s.countStall (s.stallCause o)) s

/-- What a strike report would restore (12 R384, R385): one record for each of the last cycles of the active bank. A final `diag.inj` is
remembered while a record leads back to it. -/
def State.record (s : State) : State :=
  if s.q.state != .active then s
  else
    let u : Undo := { cycle := s.now, bank := s.core.bank, c := s.c, q := s.q, outs := s.outs, nextId := s.nextId
                      limits := (s.core.parkmax, s.core.sleepmax, s.core.tlimit, s.core.tinterval), units := s.core.units, failed := s.core.failed }
    let l := u :: s.undo.filter fun x => decide (s.now ≤ x.cycle + Config.strikeHold)
    let live (x : Bool × Nat) : Bool := l.any fun u => u.bank == x.1 && decide (u.q.seq ≤ x.2 + 1)
    { s with undo := l, core := { s.core with struck := s.core.struck.filter live } }

/-- Fences that no longer hold anything are forgotten. -/
def State.dropFences (s : State) : State :=
  { s with q := { s.q with fences := s.q.fences.filter fun f => s.fenceOpen f.1 f.2.2 } }

/-- The slots may try again in the next cycle. -/
def Seq.nextCycle (q : Seq) : Seq :=
  { q with vTried := false, mTried := false, oldest := q.win.head?.map (·.seq), lagged := !q.inStep }

/-- The period of sr.cycle ends: it counts, and the slots may try again. -/
def State.tick (s : State) : State :=
  let s := (if s.ticks then s.countStalls else s).dropFences
  { s with now := s.now + 1, q := s.q.nextCycle.freed (s.now + 1), core := { s.core.freed (s.now + 1) with counted := [] } }.record

/-- A bank that its bead has left in this cycle gives the core to the other bank's bead, where that can go on (11 R352). -/
def State.handOver (s : State) : State := if s.q.state = .empty && s.resumeDue.isSome then s.resumed else s

/-- A tile operation makes the steps that are due in this cycle, at most `n`. -/
def State.tileRun (s : State) (id : Nat) : Nat → State
  | 0 => s
  | n + 1 => match (s.out? id).map fun (o : Out) => (o, o.work) with
    | some (o, .tile op w) => if decide (o.due ≤ s.now) && decide (w.step < op.tileSteps w) then (s.tileGo o op w).tileRun id n else s
    | _ => s

/-- A tile operation that has issued in this cycle starts in it when nothing before it in its queue holds it (06 R184, R192). -/
def State.tilesStart (s : State) : State :=
  (s.outs.filter (·.issued == s.now)).foldl (fun (s : State) o => match o.work with
    | .tile op w => if w.started.isNone && s.tileReady o op then (s.tileStart o op w).tileRun o.id 128 else s
    | _ => s) s

/-- End a cycle. -/
def endCycle (a : Ans) : Ans :=
  match a with
  | .next s => .next s.handOver.tilesStart.tick
  | .fault f => .fault f
  | .refused r => .refused r

/-- A period of sr.cycle: the stream goes on when a core cycle begins in it (00 R6). -/
def State.cycle (s : State) : Ans :=
  let s := if s.ticks then s.grantCopies else s
  endCycle (if s.q.state = .active ∧ s.ticks then s.stream else .next s)

/-! ## One step -/

/-- The first input of the outside world that is due, and the inputs that remain. -/
def takeDue (now : Nat) : List (Nat × Instr × Payload) → Option ((Instr × Payload) × List (Nat × Instr × Payload))
  | [] => none
  | e :: t => if e.1 ≤ now then some (e.2, t) else (takeDue now t).map fun r => (r.1, e :: r.2)

/-- An event happens with what it acts on. -/
def State.happen (s : State) (e : Instr × Payload) : Ans := exec e.1 { s with arg := e.2 }

/-- Accesses that a package in recovery mode does not answer: only the mailbox does (12 R403). -/
def needsBoot (i : Instr) : Bool :=
  match i with
  | .strandTailWrite | .hubConfigurationWrite | .executableRegistration | .cxlMemAccess | .cxlCacheRecall | .remotePackageAccess
  | .fallBackReadRequest | .objectInvalidation | .atsInvalidation => true
  | _ => false

/-- The first power fail that is due, and the inputs that remain. -/
def takePower (now : Nat) : List (Nat × Instr × Payload) → Option (Payload × List (Nat × Instr × Payload))
  | [] => none
  | e :: t => if e.1 ≤ now ∧ e.2.1 = .powerFail then some (e.2.2, t) else (takePower now t).map fun r => (r.1, e :: r.2)

/-- Events of a bundle boundary, and those of them that the issue checks of the next bundle precede (12 R375). -/
def atBoundary (i : Instr) : Bool := i == .trapEntry || i == .outlierListFull || i == .preemptionHalt
def afterChecks (i : Instr) : Bool := i == .outlierListFull || i == .preemptionHalt

/-- The machine's own event that comes next, at a boundary in the order of 12 R375. -/
def State.nextDue (s : State) : Option Due := s.due.bind fun e => if afterChecks e.1 && s.checkFails then s.roundDue else some e

/-- One step: the operation that a retry latched, an event of the machine, an input, or a cycle. -/
def State.turn (s : State) : Ans :=
  match s.run with
  | some o => s.retry o
  | none => match s.nextDue with
    | some e => match (if atBoundary e.1 then takePower s.now s.agenda else none) with
      | some r => { s with agenda := r.2 }.happen (.powerFail, r.1)
      | none => s.happen e
    | none => match takeDue s.now s.agenda with
      | some r => if s.hub.boot.recovery && needsBoot r.1.1 then .next { s with agenda := r.2 } else { s with agenda := r.2 }.happen r.1
      | none => s.cycle

/-! ## Placing a word (log 5) -/

/-- Byte offset of the slot that a lone word of the opcode table belongs to (log 12). -/
def wordOffset (w : Nat) : Nat :=
  match tableSlot w with
  | some .v => 4
  | some .m => 8
  | some .t => 12
  | _ => 0

/-- The bytes of a bundle that holds one word in its slot. -/
def loneBundle (w : Nat) : List Byte := natBytes 16 (w % 2 ^ 32 * 2 ^ (8 * wordOffset w))

/-- The state with a bundle of one word at the pc, its page present, and the active bank's bead running there. -/
def State.placeWord (s : State) (w : Nat) : State :=
  let a := s.c.pc.toNat
  let s := { s with q := { state := .active, seq := s.q.seq }, run := none, hub := { s.hub with pages := setAdd s.hub.pages (a / 4096) } }
  s.poke a (loneBundle w)

end Sys2Proof.Machine
end

