-- ==== Sys2Proof/Machine/Step.lean ====
section
/-! DEFINITION. The step of the machine, and the placing of a word of the opcode table where the next step fetches. -/

namespace Sys2Proof.Machine

/-- One step. The clock of R126 never wraps in service; the model stops where it would. -/
def step (s : State) : Host.Outcome State Fault Refusal :=
  if 2 ^ 64 ≤ s.now + 1 then .fault .clockExhausted else s.turn

/-- `s` with a word of the opcode table stored in its slot of the bundle at the pc, so that `step` fetches and executes it
(log 5). -/
def State.withFetchWord (s : State) (nbits w : Nat) : State := s.placeWord (w % 2 ^ nbits)

end Sys2Proof.Machine
end

