-- ==== Sys2Proof/Safety.lean ====
section
/-! DEFINITION. What counts as a safe run, and the words in which statements about the machine are made: what an operation changes, what a trap leaves, and the tables of instructions of one shape. -/

namespace Sys2Proof

/-- The state after `n` steps, if each of them answers a next state. -/
def Machine.State.after (s : Machine.State) : Nat → Option Machine.State
  | 0 => some s
  | n + 1 => match Machine.step s with
    | .next t => Machine.State.after t n
    | .fault _ => none
    | .refused _ => none

/-- A run of any length from a state neither faults nor is refused before sr.cycle ends: the only stop of the machine is
the end of its clock (04 R126). -/
def Safe (s : Machine.State) : Prop :=
  ∀ n t, s.after n = some t → (∃ u, Machine.step t = .next u) ∨ Machine.step t = .fault .clockExhausted

end Sys2Proof

namespace Sys2Proof.Claims
open Sys2Proof Machine

/-! ## What changes and what does not

Each of these names a next state `t` by what it differs in from `s`; an equation `t = { s with … }` says that every other
register, flag, special register and part of the machine is as before. -/

/-- No byte of memory reads differently: not the machine's own, and not as the active bead reads it on any path. -/
def SameBytes (s t : State) : Prop := t.mem = s.mem ∧ ∀ path a, t.byte path a = s.byte path a

/-- x(d) takes `v`, and x0 discards it (02 R45); a copy into x(d) that an earlier bundle left in its shadow is discarded
(02 R54). -/
def WritesX (s t : State) (d : BitVec 5) (v : DWord) : Prop :=
  t.c.rx d = (if d = 0 then 0 else v) ∧ (∀ r, r ≠ d → t.c.rx r = s.c.rx r) ∧
  t.q.shadows = overwrite s.q.shadows s.lat.seq (.x d) ∧
  t = { s with c := { s.c with x := t.c.x }, q := { s.q with shadows := t.q.shadows } } ∧ SameBytes s t

/-- The same for a predicate register; k0 discards the write. -/
def WritesK (s t : State) (d : BitVec 3) (v : Bool) : Prop :=
  t.c.rk d = (if d = 0 then true else v) ∧ (∀ r, r ≠ d → t.c.rk r = s.c.rk r) ∧
  t.q.shadows = overwrite s.q.shadows s.lat.seq (.k d) ∧
  t = { s with c := { s.c with k := t.c.k }, q := { s.q with shadows := t.q.shadows } } ∧ SameBytes s t

/-- The same for an address register. -/
def WritesA (s t : State) (d : BitVec 4) (v : DWord) : Prop :=
  t.c.ra d = v ∧ (∀ r, r ≠ d → t.c.ra r = s.c.ra r) ∧
  t.q.shadows = overwrite s.q.shadows s.lat.seq (.a d) ∧
  t = { s with c := { s.c with a := t.c.a }, q := { s.q with shadows := t.q.shadows } } ∧ SameBytes s t

/-- The same for a handle register. -/
def WritesH (s t : State) (d : BitVec 4) (v : QWord) : Prop :=
  t.c.rh d = v ∧ (∀ r, r ≠ d → t.c.rh r = s.c.rh r) ∧
  t.q.shadows = overwrite s.q.shadows s.lat.seq (.h d) ∧
  t = { s with c := { s.c with h := t.c.h }, q := { s.q with shadows := t.q.shadows } } ∧ SameBytes s t

/-- The same for a tile descriptor. -/
def WritesM (s t : State) (d : BitVec 3) (v : QWord) : Prop :=
  t.c.rm d = v ∧ (∀ r, r ≠ d → t.c.rm r = s.c.rm r) ∧
  t.q.shadows = overwrite s.q.shadows s.lat.seq (.m d) ∧
  t = { s with c := { s.c with m := t.c.m }, q := { s.q with shadows := t.q.shadows } } ∧ SameBytes s t

/-- The same for a mask register; vm0 discards the write. -/
def WritesVm (s t : State) (d : BitVec 3) (v : BitVec 128) : Prop :=
  t.c.rvm d = (if d = 0 then BitVec.allOnes 128 else v) ∧ (∀ r, r ≠ d → t.c.rvm r = s.c.rvm r) ∧
  t.q.shadows = overwrite s.q.shadows s.lat.seq (.vm d) ∧
  t = { s with c := { s.c with vm := t.c.vm }, q := { s.q with shadows := t.q.shadows } } ∧ SameBytes s t

/-- The next bundle is the one at `a`, and it issues `n` core cycles after this one (04 R117, R119). -/
def Jumps (s t : State) (n : Nat) (a : DWord) : Prop :=
  t = { s with c := { s.c with pc := a }, q := { s.q with issueFrom := s.coreAfter n, issueWhy := 10, taken := true } } ∧ SameBytes s t

/-- A copy to a register enters its shadow and lands when the destination slot is `k` bundles on (02 R54); nothing has
changed yet. -/
def Copies (s t : State) (k : Nat) (w : RegWrite) : Prop :=
  t = { s with q := { s.q with shadows := s.q.shadows ++ [{ write := w, seq := s.lat.seq, due := s.lat.seq + k }] } } ∧ SameBytes s t

/-- The operation stays in its slot and is tried again in the next cycle: nothing has changed. -/
def Waits (s t : State) : Prop := t = { s with lat := { s.lat with res := .stall } } ∧ SameBytes s t

/-! ## Tables of instructions -/

/-- Rows of Table 4-3 with two sources: the instruction and F(A, B). -/
def integerRows : List ((BitVec 5 → BitVec 5 → BitVec 5 → BitVec 3 → Instr) × (DWord → DWord → DWord)) :=
  [(.add, fun a b => BitVec.ofNat 64 (a.toNat + b.toNat)),
   (.sub, fun a b => BitVec.ofInt 64 ((a.toNat : Int) - b.toNat)),
   (.mul, fun a b => BitVec.ofNat 64 (a.toNat * b.toNat)),
   (.mulh, fun a b => (a.signExtend 128 * b.signExtend 128).extractLsb' 64 64),
   (.mulhn, fun a b => (a.setWidth 128 * b.setWidth 128).extractLsb' 64 64),
   (.div, fun a b => if b = 0 then 0xFFFFFFFFFFFFFFFF else a.sdiv b),
   (.divn, fun a b => if b = 0 then 0xFFFFFFFFFFFFFFFF else a / b),
   (.rem, fun a b => if b = 0 then a else a.srem b),
   (.remn, fun a b => if b = 0 then a else a % b),
   (.and, fun a b => a &&& b), (.or, fun a b => a ||| b), (.xor, fun a b => a ^^^ b),
   (.shl, fun a b => a <<< (b &&& 63)), (.shr, fun a b => a >>> (b &&& 63)), (.sar, fun a b => a.sshiftRight' (b &&& 63)),
   (.min, fun a b => if b.slt a then b else a), (.max, fun a b => if a.slt b then b else a),
   (.minn, fun a b => if b < a then b else a), (.maxn, fun a b => if a < b then b else a)]

/-- Conditions of Table 4-2's cond field: the code and the test of A and B (04 R109). -/
def conditionRows : List (Nat × (DWord → DWord → Bool)) :=
  [(0, fun a b => a == b), (1, fun a b => a != b), (2, fun a b => a.slt b), (3, fun a b => b.sle a),
   (4, fun a b => a.ult b), (5, fun a b => b.ule a)]

/-- FP64 operations with one rounding and at most two sources: the instruction, and the correctly rounded result with its
flags for the mode, ftz and daz in force (04 R112, R113, R116). `fmin.d`, `fmax.d` and `fcvt.d.s` have no rounding field. -/
def floatRows : List ((BitVec 5 → BitVec 5 → BitVec 5 → BitVec 3 → BitVec 2 → Instr) × (FpEnv → Nat → Nat → Nat × Fl)) :=
  [(.faddD, fpAdd fp64), (.fsubD, fpSub fp64), (.fmulD, fpMul fp64), (.fdivD, fpDiv fp64),
   (fun d a b g _ => .fminD d a b g, fun v => fpMinMax fp64 v.daz false),
   (fun d a b g _ => .fmaxD d a b g, fun v => fpMinMax fp64 v.daz true),
   (fun d a _ g r => .fsqrtD d a g r, fun v x _ => fpSqrt fp64 v x),
   (fun d a _ g r => .fcvtDI d a g r, fun v x _ => fp64.roundFV v.mode false (ofInteger (BitVec.ofNat 64 x).toInt)),
   (fun d a _ g r => .fcvtDN d a g r, fun v x _ => fp64.roundFV v.mode false (ofInteger x)),
   (fun d a _ g r => .fcvtID d a g r, fun v x _ => toInt64 true v x),
   (fun d a _ g r => .fcvtND d a g r, fun v x _ => toInt64 false v x),
   (fun d a _ g _ => .fcvtDS d a g, fun v x _ => fpConvert fp32 fp64 { v with mode := 0, ftz := false } (x % 2 ^ 32)),
   (fun d a _ g r => .fcvtSD d a g r, fun v x _ => fpConvert fp64 fp32 v x)]

/-- Flags among nv, dz, of, uf, nx whose trap enable is set in the sr.fpcr that the operation uses (03 R95, 04 R111). -/
def Enabled (s : State) (flags : Nat) : Bool := (List.range 5).any fun i => flags.testBit i && s.lat.iss.fpcr.getLsbD (4 + i)

/-- Modes of a slot C operation with rounding field r: ftz and daz of sr.fpcr as at the issue of the bundle. -/
def FloatModes (s : State) (r : BitVec 2) : FpEnv :=
  { mode := r.toNat, ftz := s.lat.iss.fpcr.getLsbD 2, daz := s.lat.iss.fpcr.getLsbD 3 }

/-- Flags are ORed into sr.fpsr (03 R94). -/
def Flags (s u : State) (fl : Fl) : Prop := u = { s with c := { s.c with fpsr := s.c.fpsr ||| BitVec.ofNat 64 (fl % 128) } }

/-- The instruction, unless it traps for an enabled flag, ORs the flags of `y` into sr.fpsr and writes the result to x(d). -/
def Rounded (s : State) (y : Nat × Fl) (i : Instr) (d : BitVec 5) : Prop :=
  Enabled s y.2 = false → ∃ u t, exec i s = .next t ∧ Flags s u y.2 ∧ WritesX u t d (BitVec.ofNat 64 y.1)

/-- Every operation of slot C whose format has a guard field, with guard g (04 Table 4-2). -/
def guarded (d a b c : BitVec 5) (k l : BitVec 3) (r w : BitVec 2) (cond : BitVec 8) (g : BitVec 3) : List Instr :=
  integerRows.map (fun row => row.1 d a b g) ++ floatRows.map (fun row => row.1 d a b g r) ++
  [.clz d a g, .popc d a g, .sext d a w g, .zext d a w g, .cmp k a b g cond, .sel d a b g l, .kand k l k g, .kor k l k g, .kxor k l k g,
   .knot k l g, .ffmaD d a b g c r, .fcmpD k a b g l, .jr d a g, .ret g]

/-! ## Traps -/

/-- `t` is `s` after it has entered the handler of a trap with the replay window `w` (12 R372): the window, the cause with
the level before the trap, sr.einfo, system level, and the handler's address with its 10 core cycles. Copies in their shadow have
landed (02 R55), the operand latches are clear (05 R133) and both B planes are invalid (06 R185). Every other register and
all of memory are as they were. -/
def Enters (s t : State) (w : DWord × DWord × DWord × DWord) (r : TrapRec) : Prop :=
  t.c.epc = w.1 ∧ t.c.slip = w.2.1 ∧ t.c.enpc = w.2.2.1 ∧ t.c.repc = w.2.2.2 ∧
  fld t.c.cause.toNat 0 8 = r.code.toNat ∧ t.c.cause.getLsbD 8 = s.c.sys ∧ t.c.cause.getLsbD 9 = r.iss ∧
  fld t.c.cause.toNat 10 2 = r.slot.toNat ∧ t.c.cause.getLsbD 12 = r.evt ∧ t.c.cause.toNat < 2 ^ 13 ∧
  t.c.einfo = r.info ∧ t.c.sys = true ∧ t.c.pc = s.c.tbase + BitVec.ofNat 64 (64 * r.code.toNat) ∧
  t.c.latch = Vector.replicate 3 none ∧
  t.c = { landAll s.c s.q.shadows with
    epc := t.c.epc, slip := t.c.slip, enpc := t.c.enpc, repc := t.c.repc, cause := t.c.cause, einfo := t.c.einfo
    sys := t.c.sys, pc := t.c.pc, latch := t.c.latch } ∧
  t.q.trap = none ∧ t.q.win = [] ∧ t.q.cur = none ∧ t.q.vq = [] ∧ t.q.mq = [] ∧ t.q.atVector = true ∧
  t.q.issueFrom = s.coreAfter 10 ∧
  t.core = { s.core with planes := [], planesLost := s.now } ∧
  t = { s with c := t.c, q := t.q, lat := t.lat, outs := dropBobWait s.outs s.q.wait, core := t.core }

/-- The window of a failed issue check at bundle `a`: that bundle in full (02 R56). -/
def whole (a : DWord) : DWord × DWord × DWord × DWord := (a, 0, a, 0)

/-- The record of a trap that the operation in execution raises. -/
def recOf (s : State) (code : BitVec 8) (info : DWord) (iss : Bool) : TrapRec :=
  { code := code, info := info, slot := s.lat.slot, iss := iss, evt := false, now := false, seq := if iss then 0 else s.lat.seq }

/-- The operation in execution faults (02 R57): with nothing of its own or an earlier bundle incomplete the handler is
entered; otherwise the trap is pending, and of two pending traps the older bundle's stays. -/
def Faults (s t : State) (code : BitVec 8) (info : DWord) : Prop :=
  if s.lat.quiet = true ∧ s.q.trap = none then Enters s t (window s.c s.q) (recOf s code info false)
  else t = { s with lat := { s.lat with res := .trap }, q := { s.q with trap := mergeTrap s.q.trap (recOf s code info false) } }

/-- An issue check of the operation's encoding, level or registers fails (02 R56): sr.einfo holds the slot and its word. -/
def Refused (s t : State) (code : BitVec 8) : Prop :=
  Enters s t (whole s.lat.addr) (recOf s code (BitVec.ofNat 64 (s.lat.slot.toNat + s.lat.word.toNat * 2 ^ 32)) true)

/-! ## Status registers -/

/-- Status registers that `swr` writes whole or in part: the number, the bits that it writes, and the field (04 Table
4-7, 12 R382). -/
def contextRegisters : List (Nat × DWord × (Ctx → DWord)) :=
  [(0x001, 0x3FF, Ctx.fpcr), (0x002, 0x0000FFFFFFFF007F, Ctx.fpsr), (0x008, 0xFFFFFFFFFFFFFFFF, Ctx.bead),
   (0x009, 0xFFFFFFFF01FF000F, Ctx.seg), (0x010, 0x1FFF, Ctx.cause), (0x011, 0xFFFFFFFFFFFFFFF0, Ctx.epc),
   (0x012, 0xFFFFFFFFFFFFFFFF, Ctx.einfo), (0x013, 0xFFFFFFFFFFFFF800, Ctx.tbase), (0x014, 0x3FF, Ctx.repc),
   (0x015, 0xFFFFFFFFFF, Ctx.slip), (0x016, 0xFFFFFFFFFFFFFFF0, Ctx.enpc), (0x017, 0xFFFFFFFFFFFFFFFF, Ctx.cbmap)]

/-- Registers of the core that `swr` writes in part: the number, the bits, the field (12 R387, 10 R332). -/
def coreRegisters : List (Nat × DWord × (Core → DWord)) :=
  [(0x00A, 0x1FFFFFFFFF, Core.strikes), (0x00B, 0xFFFFFF01FFFFFFFF, Core.orphans)]

/-- Instructions that need system level (12 R371, 08 R264). -/
def privilegedOps (d a b : BitVec 5) (h o l r : BitVec 4) (q k : BitVec 1) : List Instr :=
  [.rte, .halt, .scan d a, .cmap d a b, .diagInjFlip a b, .diagInjCerr a b, .diagInjPoison a b, .diagInjTpoison a b,
   .diagInjStrike a b, .trmw r h o l k, .xcXAddress 1 r a q]

/-- Everything of `s` stays but its sequencer. -/
def OnlySequencer (s t : State) : Prop := t = { s with q := t.q } ∧ SameBytes s t

/-- Everything of `s` stays but the monitor units of its core. -/
def OnlyMonitors (s t : State) : Prop := t = { s with core := { s.core with mon := t.core.mon } } ∧ SameBytes s t

/-- No load, store, transfer or tile operation is outstanding beyond the limits of a `wait`, and no slot holds an operation
of an earlier bundle (10 R320). -/
def WaitOver (s : State) (l t c m : Nat) : Prop :=
  s.q.slotsEmpty s.lat.seq = true ∧ s.count .ld ≤ l ∧ s.count .st ≤ t ∧ s.count .cp ≤ c ∧ s.count .tl ≤ m

/-- No bead operation is in a slot or an engine (11 R346). -/
def Idle (s : State) : Prop := s.q.vq = [] ∧ s.q.mq = [] ∧ ∀ o ∈ s.outs, o.bank ≠ s.core.bank ∨ o.detached = true

/-- The suspension of R346 has ended its segment, waited, and written its record (R365); no removal of the core
waits for it. -/
def Suspended (s : State) : Prop :=
  s.c.segOpen = false ∧ Idle s ∧ s.core.removal = false ∧ ∃ t, s.q.wait = .record (some t) ∧ t ≤ s.now

/-- The bank is free, and the wait pool holds one more record. -/
def Leaves (s t : State) (b : Bead) : Prop :=
  t.c = {} ∧ t.q = {} ∧ t.undo = s.undo.filter (·.bank != s.core.bank) ∧ t.hub.beads.length = s.hub.beads.length + 1 ∧
  t = ({ s.poolWrite with c := t.c, q := t.q, undo := t.undo
                          hub := { s.poolWrite.hub with beads := s.hub.beads ++ [b] } } : State).noteReady ∧
  t.mem = s.mem.scramble s.fresh s.hub.waitBase (64 * s.hub.waitSize)

/-- An operation of slot C that sends waits out the strike hold, and then for its answer (12 R384): nothing else changes. -/
def HeldBack (s : State) (i : Instr) : Prop :=
  (s.q.answered = none → s.q.sending = none →
    exec i s = .next { s with q := { s.q with sending := some s.now }, lat := { s.lat with res := .stall } }) ∧
  (∀ t, s.q.answered = none → s.q.sending = some t → s.now ≤ t + 32 → ∃ u, exec i s = .next u ∧ Waits s u) ∧
  (∀ w t, s.q.answered = some (w, t) → s.now < t → ∃ u, exec i s = .next u ∧ Waits s u)

/-- It sends now: the strike hold is over, and it has no answer yet. -/
def SendsNow (s : State) : Prop := s.q.answered = none ∧ ∃ t, s.q.sending = some t ∧ t + 32 < s.now

/-- The state in which it acts. -/
def unsent (s : State) : State := { s with q := { s.q with sending := none } }

/-- `r` is the state after its act: the answer `v` is on its way and comes `n` core cycles from now, whatever a strike takes back. -/
def Answered (s r t : State) (v : DWord) (n : Nat) : Prop :=
  let go (q : Seq) : Seq := { q with sending := none, answered := some (v, s.coreAfter n) }
  t = { r with q := go r.q, undo := r.undo.map (fun u => if u.bank == s.core.bank then { u with q := go u.q } else u)
               lat := { r.lat with res := .stall } }

/-- The answer has come: it is taken, and the operation ends. -/
def AnswerTaken (s : State) : State := { s with q := { s.q with answered := none } }

/-- The record of a bead that suspends at the running bundle (11 Table 11-1): state, the next bundle, its word 1, home and
x1 to x4, and its wake word. -/
def suspendRecord (s : State) (state : Nat) (wake : DWord) : Rec :=
  let c := landAll s.c s.q.shadows
  mkRec state s.nextPc c.bead c.home [c.rx 1, c.rx 2, c.rx 3, c.rx 4] wake


/-! ## Slot V -/

/-- The fields of a slot V operation are legal: a width, and registers whose banks are not lent (05 R129, R139, R140). -/
def VReady (s : State) (w : BitVec 2) (regs : List (BitVec 6)) : Prop :=
  w ≠ 3 ∧ ∀ r ∈ regs, r.toNat < 48 ∧ s.lat.iss.lent.getLsbD (r.toNat % 6) = false

/-- Lane l is active: below the width, and set in the mask (05 R129). -/
def LaneOn (s : State) (w : BitVec 2) (m : BitVec 3) (l : Nat) : Bool := decide (l < 32 * 2 ^ w.toNat) && (s.c.rvm m).getLsbD l

/-- The registers once every copy in its shadow has landed (02 R54). -/
def landed (s : State) : Ctx := landAll s.c s.q.shadows

/-- A copy to x(d) lands k bundles on; x0 discards it. -/
def CopiesX (s t : State) (k : Nat) (d : BitVec 5) (v : DWord) : Prop :=
  Copies s t k (.x d v) ∧ landed t = { landed s with x := (landed t).x } ∧ (landed t).rx d = (if d = 0 then 0 else v) ∧
  ∀ r, r ≠ d → (landed t).rx r = (landed s).rx r

/-- A copy to the lanes of v(d) that are on lands two bundles on. -/
def CopiesV (s t : State) (d : BitVec 6) (on : Nat → Bool) (y : Nat) : Prop :=
  (∃ n o, Copies s t 2 (.v d n o)) ∧ landed t = { landed s with v := (landed t).v } ∧
  (∀ l < 128, lane ((landed t).rv d.toNat) l = if on l then y else lane ((landed s).rv d.toNat) l) ∧
  ∀ r < 48, r ≠ d.toNat → (landed t).rv r = (landed s).rv r

/-- Of a register that held `o` and holds `n`, the 64-bit part q is y, and the others are as before. -/
def Part64 {w : Nat} (o n : BitVec w) (q : Nat) (y : DWord) : Prop :=
  ∀ k < w, n.getLsbD k = if 64 * q ≤ k ∧ k < 64 * q + 64 then y.getLsbD (k - 64 * q) else o.getLsbD k

/-- OR of what the lanes that are on give. -/
def orOver (on : Nat → Bool) (f : Nat → Nat) : Nat := ((List.range 128).filter on).foldl (fun a l => a ||| f l) 0

/-- The operand latches after the positions have read their registers in order (05 R133). -/
def latched (s : State) (srcs : List (Fin 3 × BitVec 6)) : Vector (Option (BitVec 6)) 3 :=
  srcs.foldl (fun l x => l.set x.1 (some x.2)) s.c.latch

/-- The lanes of v(d) that are on take their values, the others keep theirs, and the flags enter sr.fpsr. -/
def WritesLanes (s t : State) (d : BitVec 6) (srcs : List (Fin 3 × BitVec 6)) (on : Nat → Bool) (f : Nat → Nat) (fl : Nat) : Prop :=
  (∀ l < 128, lane (t.c.rv d.toNat) l = if on l then f l % 2 ^ 32 else lane (s.c.rv d.toNat) l) ∧
  (∀ r < 48, r ≠ d.toNat → t.c.rv r = s.c.rv r) ∧
  t.q.shadows = overwrite s.q.shadows s.lat.seq (.v d) ∧
  t = { s with
    c := { s.c with v := t.c.v, latch := latched s srcs, fpsr := s.c.fpsr ||| BitVec.ofNat 64 (fl % 128) }
    q := { s.q with shadows := t.q.shadows } } ∧ SameBytes s t

/-- The same for the pair v(d), v(d + 1). -/
def WritesPair (s t : State) (d : BitVec 6) (srcs : List (Fin 3 × BitVec 6)) (on : Nat → Bool) (f g : Nat → Nat) (fl : Nat) : Prop :=
  (∀ l < 128, lane (t.c.rv d.toNat) l = (if on l then f l % 2 ^ 32 else lane (s.c.rv d.toNat) l) ∧
    lane (t.c.rv (d.toNat + 1)) l = if on l then g l % 2 ^ 32 else lane (s.c.rv (d.toNat + 1)) l) ∧
  (∀ r < 48, r ≠ d.toNat → r ≠ d.toNat + 1 → t.c.rv r = s.c.rv r) ∧
  t.q.shadows = overwrite (overwrite s.q.shadows s.lat.seq (.v d)) s.lat.seq (.v (d + 1)) ∧
  t = { s with
    c := { s.c with v := t.c.v, latch := latched s srcs, fpsr := s.c.fpsr ||| BitVec.ofNat 64 (fl % 128) }
    q := { s.q with shadows := t.q.shadows } } ∧ SameBytes s t

/-- The bits of vm(d) that are on take their values; vm0 discards them. -/
def WritesMask (s t : State) (d : BitVec 3) (srcs : List (Fin 3 × BitVec 6)) (on : Nat → Bool) (f : Nat → Bool) (fl : Nat) : Prop :=
  (∀ l < 128, (t.c.rvm d).getLsbD l = if d = 0 then true else if on l then f l else (s.c.rvm d).getLsbD l) ∧
  (∀ r, r ≠ d → t.c.rvm r = s.c.rvm r) ∧
  t.q.shadows = overwrite s.q.shadows s.lat.seq (.vm d) ∧
  t = { s with
    c := { s.c with vm := t.c.vm, latch := latched s srcs, fpsr := s.c.fpsr ||| BitVec.ofNat 64 (fl % 128) }
    q := { s.q with shadows := t.q.shadows } } ∧ SameBytes s t

/-- With a flag enabled the operation traps with 0x0F, names the lowest lane that raises an enabled flag, and does nothing
else (05 R132, 03 R95). -/
def LaneTraps (s : State) (i : Instr) (on : Nat → Bool) (fl : Nat → Nat) : Prop :=
  Enabled s (orOver on fl) = true → ∃ t l, on l = true ∧ Enabled s (fl l) = true ∧ (∀ k < l, on k = true → Enabled s (fl k) = false) ∧
    exec i s = .next t ∧ Faults s t 0x0F (BitVec.ofNat 64 ((orOver on fl &&& fld s.lat.iss.fpcr.toNat 4 5 &&& 31) +
      (orOver on fl &&& 31) * 2 ^ 8 + l * 2 ^ 16))

/-- The frame of 05 R132: with no flag enabled the lanes are written. -/
def LaneOp (s : State) (i : Instr) (d : BitVec 6) (srcs : List (Fin 3 × BitVec 6)) (on : Nat → Bool) (op : Nat → Nat × Fl) : Prop :=
  LaneTraps s i on (fun l => (op l).2) ∧
  (Enabled s (orOver on fun l => (op l).2) = false →
    ∃ t, exec i s = .next t ∧ WritesLanes s t d srcs on (fun l => (op l).1) (orOver on fun l => (op l).2))

/-- The frame for a pair. -/
def PairOp (s : State) (i : Instr) (d : BitVec 6) (srcs : List (Fin 3 × BitVec 6)) (on : Nat → Bool) (op : Nat → Nat × Nat × Fl) : Prop :=
  LaneTraps s i on (fun l => (op l).2.2) ∧
  (Enabled s (orOver on fun l => (op l).2.2) = false →
    ∃ t, exec i s = .next t ∧ WritesPair s t d srcs on (fun l => (op l).1) (fun l => (op l).2.1) (orOver on fun l => (op l).2.2))

/-- The frame for a mask. -/
def MaskOp (s : State) (i : Instr) (d : BitVec 3) (srcs : List (Fin 3 × BitVec 6)) (on : Nat → Bool) (op : Nat → Bool × Fl) : Prop :=
  LaneTraps s i on (fun l => (op l).2) ∧
  (Enabled s (orOver on fun l => (op l).2) = false →
    ∃ t, exec i s = .next t ∧ WritesMask s t d srcs on (fun l => (op l).1) (orOver on fun l => (op l).2))

/-- One-source operations of a lane: the instruction and the result for its modes (05 R141 to R147, R157). -/
def vectorRows1 : List ((BitVec 6 → BitVec 6 → BitVec 2 → BitVec 3 → BitVec 2 → Instr) × (FpEnv → Nat → Nat × Fl)) :=
  [(.vsqrt, fpSqrt fp32), (.vrcp, fpRcp fp32), (.vrsq, fpRsq fp32), (.vexp2, fpExp2), (.vlog2, fpLog2), (.vtanh, fpTanh),
   (fun d a w m _ => .vabs d a w m, fun v => fpSign fp32 v.daz true), (fun d a w m _ => .vneg d a w m, fun v => fpSign fp32 v.daz false),
   (fun d a w m _ => .vabsH d a w m, fun v => halves1 (fpSign fp16 v.daz true)),
   (fun d a w m _ => .vnegH d a w m, fun v => halves1 (fpSign fp16 v.daz false)),
   (fun d a w m _ => .vabsB d a w m, fun v => halves1 (fpSign bf16 v.daz true)),
   (fun d a w m _ => .vnegB d a w m, fun v => halves1 (fpSign bf16 v.daz false)),
   (fun d a w m _ => .vclass d a w m, fun _ x => (fpClass fp32 x, 0)),
   (fun d a w m _ => .vnot d a w m, fun _ x => ((~~~(BitVec.ofNat 32 x)).toNat, 0))]

/-- Two-source operations of a lane (05 R141 to R147, R162). -/
def vectorRows2 : List ((BitVec 6 → BitVec 6 → BitVec 6 → BitVec 2 → BitVec 3 → BitVec 2 → Instr) × (FpEnv → Nat → Nat → Nat × Fl)) :=
  [(.vadd, fpAdd fp32), (.vsub, fpSub fp32), (.vmul, fpMul fp32), (.vdiv, fpDiv fp32), (.vscl, fpScale),
   (fun d a b w m _ => .vmin d a b w m, fun v => fpMinMax fp32 v.daz false),
   (fun d a b w m _ => .vmax d a b w m, fun v => fpMinMax fp32 v.daz true),
   (.vaddH, fun v => halves2 (fpAdd fp16 v)), (.vsubH, fun v => halves2 (fpSub fp16 v)), (.vmulH, fun v => halves2 (fpMul fp16 v)),
   (fun d a b w m _ => .vminH d a b w m, fun v => halves2 (fpMinMax fp16 v.daz false)),
   (fun d a b w m _ => .vmaxH d a b w m, fun v => halves2 (fpMinMax fp16 v.daz true)),
   (.vaddB, fun v => halves2 (fpAdd bf16 v)), (.vsubB, fun v => halves2 (fpSub bf16 v)), (.vmulB, fun v => halves2 (fpMul bf16 v)),
   (fun d a b w m _ => .vminB d a b w m, fun v => halves2 (fpMinMax bf16 v.daz false)),
   (fun d a b w m _ => .vmaxB d a b w m, fun v => halves2 (fpMinMax bf16 v.daz true))]

/-- Fused operations: the third source is the EXT field's register, or the destination (05 R141, 02 R40). -/
def vectorRows3 : List ((BitVec 6 → BitVec 6 → BitVec 6 → BitVec 2 → BitVec 3 → BitVec 2 → Instr) × (FpEnv → Nat → Nat → Nat → Nat × Fl)) :=
  [(.vfma, fpFma fp32), (.vfms, fpFms fp32), (.vfnma, fpFnma fp32),
   (.vfmaH, fun v => halves3 (fpFma fp16 v)), (.vfmsH, fun v => halves3 (fpFms fp16 v)), (.vfnmaH, fun v => halves3 (fpFnma fp16 v)),
   (.vfmaB, fun v => halves3 (fpFma bf16 v)), (.vfmsB, fun v => halves3 (fpFms bf16 v)), (.vfnmaB, fun v => halves3 (fpFnma bf16 v)),
   (fun d a b w m _ => .vimad d a b w m 0, fun _ x y z => ((BitVec.ofNat 32 x * BitVec.ofNat 32 y + BitVec.ofNat 32 z).toNat, 0)),
   (fun d a b w m _ => .vimad d a b w m 1, fun _ x y z => ((BitVec.ofInt 32 (clamp
      ((BitVec.ofNat 32 x).toInt * (BitVec.ofNat 32 y).toInt + (BitVec.ofNat 32 z).toInt))).toNat, 0))]
where
  /-- SatS of 05 R158. -/
  clamp (x : Int) : Int := max (-(2 ^ 31)) (min x (2 ^ 31 - 1))

/-- Integer operations of a lane on its bits (05 R158). -/
def vectorIntegerRows : List ((BitVec 6 → BitVec 6 → BitVec 6 → BitVec 2 → BitVec 3 → Instr) × (Word → Word → Word)) :=
  [(fun d a b w m => .viadd d a b w m 0, fun x y => x + y),
   (fun d a b w m => .viadd d a b w m 1, fun x y => BitVec.ofInt 32 (vectorRows3.clamp (x.toInt + y.toInt))),
   (fun d a b w m => .viadd d a b w m 2, fun x y => BitVec.ofNat 32 (min (x.toNat + y.toNat) (2 ^ 32 - 1))),
   (fun d a b w m => .visub d a b w m 0, fun x y => x - y),
   (fun d a b w m => .visub d a b w m 1, fun x y => BitVec.ofInt 32 (vectorRows3.clamp (x.toInt - y.toInt))),
   (fun d a b w m => .visub d a b w m 2, fun x y => BitVec.ofNat 32 (x.toNat - y.toNat)),
   (fun d a b w m => .vimul d a b w m 0, fun x y => x * y),
   (fun d a b w m => .vimul d a b w m 1, fun x y => (x.signExtend 64 * y.signExtend 64).extractLsb' 32 32),
   (fun d a b w m => .vimul d a b w m 2, fun x y => (x.setWidth 64 * y.setWidth 64).extractLsb' 32 32),
   (.vand, fun x y => x &&& y), (.vor, fun x y => x ||| y), (.vxor, fun x y => x ^^^ y),
   (fun d a b w m => .vshl d a b w m 0, fun x y => x <<< (y &&& 31)),
   (fun d a b w m => .vshr d a b w m 0, fun x y => x >>> (y &&& 31)),
   (fun d a b w m => .vsar d a b w m 0, fun x y => x.sshiftRight' (y &&& 31))]

/-- Shifts by the value of the b field. -/
def vectorShiftRows : List ((BitVec 6 → BitVec 6 → BitVec 6 → BitVec 2 → BitVec 3 → Instr) × (Word → Nat → Word)) :=
  [(fun d a b w m => .vshl d a b w m 1, fun x n => x <<< n), (fun d a b w m => .vshr d a b w m 1, fun x n => x >>> n),
   (fun d a b w m => .vsar d a b w m 1, fun x n => x.sshiftRight n)]

/-- Compares of a lane: the instruction, and what it tests and raises (05 R144, R159). -/
def vectorCompareRows (e : BitVec 1) (c : BitVec 2) :
    List ((BitVec 3 → BitVec 6 → BitVec 6 → BitVec 2 → BitVec 3 → Instr) × (Bool → Nat → Nat → Bool × Fl)) :=
  let half (f : Nat → Nat → Bool × Fl) (x y : Nat) : Bool × Fl :=
    f (x / 2 ^ (16 * e.toNat) % 2 ^ 16) (y / 2 ^ (16 * e.toNat) % 2 ^ 16)
  [(fun d a b w m => .vcmp d a b w m c, fun daz => fpCmp fp32 daz c.toNat),
   (fun d a b w m => .vcmpH e d a b w m c, fun daz => half (fpCmp fp16 daz c.toNat)),
   (fun d a b w m => .vcmpB e d a b w m c, fun daz => half (fpCmp bf16 daz c.toNat)),
   (fun d a b w m => .vicmp d a b w m c, fun _ x y => (match c with
      | 0 => x == y
      | 1 => x != y
      | 2 => (BitVec.ofNat 32 x).slt (BitVec.ofNat 32 y)
      | _ => decide (x < y), 0))]

/-- Operations that write a pair: the instruction, the fields that name pairs, and the result from the lanes of va, va + 1,
vb, vb + 1 (05 R148 to R153). -/
def pairRows : List ((BitVec 6 → BitVec 6 → BitVec 6 → BitVec 2 → BitVec 3 → BitVec 2 → Instr) × Bool ×
    (Mode → Nat → Nat → Nat → Nat → Nat × Nat × Fl)) :=
  [(.vaddx, false, fun r x _ y _ => twoSum r x y), (.vsubx, false, fun r x _ y _ => twoSum r x (fp32.flip y)),
   (.vmulx, false, fun r x _ y _ => twoProduct r x y), (.dwadd, true, dwAdd), (.dwmul, true, dwMul), (.dwdiv, true, dwDiv),
   (.dwsub, true, fun r xh xl yh yl => dwAdd r xh xl (fp32.flip yh) (fp32.flip yl))]

/-- An even register and its second one, neither in a lent bank (05 R139, R140). -/
def PairReady (s : State) (d : BitVec 6) : Prop :=
  d.toNat % 2 = 0 ∧ d.toNat < 48 ∧ s.lat.iss.lent.getLsbD (d.toNat % 6) = false ∧ s.lat.iss.lent.getLsbD ((d.toNat + 1) % 6) = false

/-- A code of `vcvt` pack with its flags, where the value is not an outlier of its format (03 R79 to R82, 05 R161). -/
def packed (k : Kind) (scale : Int) (mode : Mode) (x : Nat) : Option (Nat × Fl) :=
  match k with
  | .raw => none
  | .ieee f => if f = fp32 then some (x, 0) else some ((f.roundFV mode false (val32 x)).1, (f.roundFV mode false (val32 x)).2 ||| snanFlag [val32 x])
  | .int n sg => some ((toInteger mode (intLo n sg) (intHi n sg) (val32 x)).1 % 2 ^ n |>.toNat, (toInteger mode (intLo n sg) (intHi n sg) (val32 x)).2)
  | .kk f => match f.encode scale mode (val32 x) with
    | .code c fl => some (c, fl)
    | .outlier _ => none

/-! ## Loads and stores -/

/-- ECC finds nothing wrong anywhere (08 R235). -/
def Clean (s : State) : Prop := s.mem.wrong = [] ∧ s.mem.poison = [] ∧ s.mem.flaky = []

/-- A load goes out on path L and is due in a cycle (08 R236). Nothing has changed yet but the waiting of the stream, which is
over, the number that names the next ECC check, and the order of the lines of the scalar cache (08 R233). -/
def LoadGoes (s t : State) (due : Nat) (w : Work) : Prop :=
  t.outs = s.outs ++ [{ id := s.nextId, bank := s.core.bank, seq := s.lat.seq, path := .l, ctr := .ld, issued := s.now,
                        due := due, promise := none, work := w }] ∧
  t = { s with
    outs := t.outs, nextId := s.nextId + 1, fresh := t.fresh
    q := { s.q with wait := t.q.wait }
    core := { s.core with scache := t.core.scache } } ∧ SameBytes s t

/-- The last byte that pieces give an address. -/
def pieceByte (ps : List Part) (a : Nat) : Option Byte := ps.reverse.findSome? (·.at? a)

/-- A store goes out: its own path reads the bytes from now on, memory holds them when it has performed (08 R236, 10 R307).
Every byte outside its pieces reads as before. -/
def StoreGoes (s t : State) (due : Nat) (path : Path) (ctr : Ctr) (ps : List Part) (w : Work) : Prop :=
  t.outs = s.outs ++ [{ id := s.nextId, bank := s.core.bank, seq := s.lat.seq, path := path, ctr := ctr, issued := s.now,
                        due := due, promise := none, work := w }] ∧
  (∀ q a, t.byte q a = if q = path then (pieceByte ps a).getD (s.byte q a) else s.byte q a) ∧
  t = { s with outs := t.outs, nextId := s.nextId + 1, core := { s.core with scache := t.core.scache } }

/-- What trap 0x04 to 0x09 of slot T reports (08 R228). -/
def accessWord (reason : Nat) (h a : BitVec 4) (o : Int) : DWord :=
  BitVec.ofNat 64 (reason + h.toNat * 2 ^ 4 + a.toNat * 2 ^ 8 + (o % 2 ^ 48).toNat * 2 ^ 16)

/-- Offset of an access: a(a), signed, with its immediate (08 R227, 02 R40). -/
def offsetOf {n : Nat} (s : State) (a : BitVec 4) (scale : Nat) (i : BitVec n) : Int :=
  (s.c.ra a).toInt + scale * (match s.lat.ext with
    | some e => (e.t ++ i).toInt
    | none => i.toInt)

/-- The pieces of elements of n bytes at their homes, in element order (08 R248 to R251, 10 R316). -/
def elementPieces (ges : List (Nat × Nat)) (n : Nat) (bs : List Byte) : List Part :=
  (ges.mapIdx fun i ge => (writeHomes ge).map fun g => ({ addr := g, bytes := (bs.drop (n * i)).take n } : Part)).flatten

/-- Vector `p.pos` of a port that is bound and readable, as path P reads it (08 R256 to R259). -/
def PortReads (s : State) (k : BitVec 3) (p : Port) : Prop :=
  s.c.port[k.toNat]'k.isLt = some p ∧ p.set.obj.toNat = s.logical ∧ p.set.isWrite = false ∧ p.pos < p.set.total ∧ p.set.cvt = false ∧ p.set.fe = 0

/-- The bytes of that vector. -/
def portBytes (s : State) (p : Port) : List Byte :=
  (p.set.units s.lat.iss.cbmap s.core.phys p.pos).flatMap fun u => s.bytes .p u.1 u.2

/-! ## Slots M and T -/

/-- Fields of a tile descriptor that `mdset` writes: the code, the place and width, and the value of an allowed immediate
(06 Table 6-8). -/
def descriptorFields : List (Nat × Nat × Nat × (Nat → Option Nat)) :=
  [(0, 0, 23, fun i => if i < 2 ^ 23 then some i else none), (1, 23, 4, fun i => if i < 16 then some i else none),
   (2, 28, 12, fun i => if 1 ≤ i ∧ i ≤ 4096 then some (i - 1) else none),
   (3, 40, 12, fun i => if 1 ≤ i ∧ i ≤ 4096 then some (i - 1) else none), (4, 52, 12, fun i => if i < 4096 then some i else none),
   (5, 64, 8, fun i => if i < 256 ∧ fmtBits (BitVec.ofNat 8 i) ≠ 0 then some i else none),
   (6, 72, 8, fun i => if i < 256 then some i else none), (8, 84, 8, fun i => if i < 256 then some i else none),
   (9, 92, 16, fun i => if i < 2 ^ 16 then some i else none)]

/-- Tile operations: the instruction, its first failing check (06 Table 6-5, 07 R200), the granules that it waits for, and
the pv and g registers that it writes. -/
def tileOperations (s : State) (m a b : BitVec 3) (x g p : BitVec 2) (z u w r d n : BitVec 1) (e : BitVec 7) (l : BitVec 15) :
    List (Instr × Option TileFlt × List Nat × List Reg) :=
  let map := s.lat.iss.cbmap
  let core := s.core.phys
  let t := facRole s.c m 1 true
  let y := facRole s.c m (if d = 1 then 2 else 1) true
  let v : Role := { desc := s.c.rm a, reg := a, role := 1, kind := 1 }
  let c := facRole s.c m (if d = 1 then 4 else 3) (decide (e.toNat + 1 ≤ if d = 1 then dCols (s.c.rm m) else dRows (s.c.rm m)))
  [(.mma m a b x z, s.mmaCheck m a b x.toNat false, s.mmaWaits m a b x.toNat, []),
   (.mmaCk m a b x z, s.mmaCheck m a b x.toNat true, s.mmaWaits m a b x.toNat, []),
   (.moutm m a b z u, s.mmaCheck m a b 0 false, s.mmaWaits m a b 0, []),
   (.mbld b, (bRole s.c b 128).shapeFlt, (bRole s.c b 128).waits map core, []),
   (.mzero m, s.roleCheck (zeroRole s.c m) true none, [], []),
   (.mdld m l, s.mdCheck m l, [], []), (.mdst m l, s.mdCheck m l, [], []),
   (.mlu m z g p, s.roleCheck t true none, t.waits map core, [.pv p, .g g]),
   (.mchol m g p, s.roleCheck t (dRows t.desc == dCols t.desc) none, t.waits map core, [.pv p, .g g]),
   (.mqr m g p, firstTile [s.roleCheck t true none, s.auxCheck t.desc m (4 * min (dRows t.desc) (dCols t.desc)) t.span],
     t.waits map core, [.pv p, .g g]),
   (.mtrsm m a u w r d n g, firstTile [s.roleCheck y true none, s.roleCheck v (dRows v.desc == dCols v.desc &&
     (if d = 1 then dCols y.desc else dRows y.desc) == dRows v.desc) (some y.span)], y.waits map core ++ v.waits map core, [.g g]),
   (.mperm m e u w d p, s.roleCheck c true none, c.waits map core, []), (.mpiv e x p, none, [], [.pv p])]

/-- A transfer of the running bundle as it is put in hand. -/
def transferOut (s : State) (path : Path) (promise : Option Nat) (due : Nat) (w : Work) : Out :=
  { id := s.nextId, bank := s.core.bank, seq := s.lat.seq, path := path, ctr := .cp, issued := s.now, due := due, promise := promise, work := w }

/-- It is put in hand and counts in cp: its data phase begins at once where its engine is free and its source granules are full, and else
it waits in its engine's queue (09 R265, R266, R273). -/
def TransferGoes (s t : State) (o : Out) : Prop :=
  let v : State := { s with outs := s.outs ++ [o], nextId := s.nextId + 1 }
  (v.mayBegin o = false → t = v) ∧ (v.mayBegin o = true → t = { v with outs := s.outs ++ [v.begun o] }) ∧ SameBytes s t

/-- A promised transfer: a(d) takes the promise, and the operation goes out (09 R265 to R267). -/
def PromiseGoes (s t : State) (d : BitVec 4) (path : Path) (promise due : Nat) (w : Work) : Prop :=
  ∃ u, WritesA s u d (BitVec.ofNat 64 promise) ∧ TransferGoes u t (transferOut s path (some promise) due w)

/-- The state after a read of crown that found its granules full and good. -/
def AfterRead (s : State) : State := { s with fresh := s.fresh + 1, q := { s.q with wait := .none } }

/-- The ten atomics (10 Table 10-7). -/
def atomics (o : BitVec 2) (d : BitVec 5) (h a : BitVec 4) (x : BitVec 5) (z : BitVec 1) : List Instr :=
  [.atmAdd o d h a x z, .atmFadd o d h a x z, .atmMin o d h a x z, .atmMax o d h a x z, .atmAnd o d h a x z, .atmOr o d h a x z,
   .atmXor o d h a x z, .atmXchg o d h a x z, .atmCas o d h a x z, .atmInc o d h a x z]

/-- A request goes out on path A, counts in ld, and its bytes leave the scalar cache (10 R326, R327, 08 R233); no discard can take it back (12
R386). -/
def RequestGoes (s t : State) (i : Instr) (ge : Nat × Nat) (n : Nat) (sv dv info : DWord) : Prop :=
  ∃ due, due = s.coreAfter (s.atomWay ge.1) ∧
    t.outs = s.outs ++ [{ id := s.nextId, bank := s.core.bank, seq := s.lat.seq, path := .a, ctr := .ld, issued := s.now, due := due, promise := none
                          work := .atom { instr := i, addr := ge.1, s := sv, d := dv, engine := false, waiting := false, info := info
                                          arrive := due, lock := lockTrip ge } }] ∧
  t = { s with outs := t.outs, nextId := s.nextId + 1, q := { s.q with acq := t.q.acq, wait := t.q.wait }, lat := { s.lat with res := t.lat.res }
               core := { s.core with
                 scache := scInvalidate s.core.scache ge.1 n, sent := (s.core.bank, s.nextId, s.now) :: s.core.sent } } ∧ SameBytes s t

/-! ## Events -/

/-- Memory is in its canonical form and ECC finds nothing wrong in it. -/
def Sound (s : State) : Prop := s.mem.wf = true ∧ Clean s

/-- The operation in hand leaves, and memory holds its pieces: every other byte is as it was. -/
def Performs (s t : State) (o : Out) (ps : List Part) : Prop :=
  t.outs = s.outs.filter (·.id != o.id) ∧ (∀ a, t.mem.byte a = (pieceByte ps a).getD (s.mem.byte a)) ∧ t.c = s.c ∧ t.oc = s.oc ∧ t.q = s.q

/-- Each piece lies wholly in crown, whose granules are of 8 bytes, or wholly outside it, where they are of 32 (08 R235). -/
def Within (ps : List Part) : Prop := ∀ p ∈ ps, ∀ i < p.bytes.length, granuleSize (p.addr + i) = granuleSize p.addr

/-- The request at an engine turns into its answer, which reaches x(d) 12 core cycles later (10 R325, R327); one to x0 counts no
longer. -/
def Answers (s t : State) (o : Out) (d : BitVec 5) (v : DWord) (info flags : DWord) : Prop :=
  t.outs = s.outs.map fun x => if x.id == o.id then { x with due := s.coreAfter 12, ctr := if d = 0 then .none else x.ctr, work := .load (.x d v) false info flags } else x

/-- The event that a transfer in hand goes on with, and its times. -/
def Moves (i : Instr) (w : Work) (b : Burst) : Prop :=
  (i = .copyCompletion ∧ ∃ op dm sm pair d h m r a fs fw ft bo, w = .copy op dm sm pair b ∧ op.instr = .copy d h m r a fs fw ft bo) ∨
  (i = .refillCompletion ∧ ∃ src len t off ranks, w = .refill src len t off ranks b) ∨
  (i = .shiftCompletion ∧ ∃ op dropped lands zeros r m h a d l, w = .shift op dropped lands zeros b ∧ op.instr = .shift r m h a d l)

/-- It is no copy that arrives on a barrier. -/
def PlainCopy (w : Work) : Prop := ∀ op dm sm pair b d h m r a fs fw ft bo, w = .copy op dm sm pair b → op.instr = .copy d h m r a fs fw ft bo → bo = 0

/-- New values of the integer atomics (10 Table 10-7). -/
def atomicRows (n : Nat) (o : BitVec 2) (d : BitVec 5) (h a : BitVec 4) (x : BitVec 5) (z : BitVec 1) :
    List (Instr × (BitVec n → BitVec n → BitVec n → BitVec n)) :=
  [(.atmAdd o d h a x z, fun v y _ => v + y), (.atmMin o d h a x z, fun v y _ => if y.slt v then y else v),
   (.atmMax o d h a x z, fun v y _ => if v.slt y then y else v), (.atmAnd o d h a x z, fun v y _ => v &&& y),
   (.atmOr o d h a x z, fun v y _ => v ||| y), (.atmXor o d h a x z, fun v y _ => v ^^^ y), (.atmXchg o d h a x z, fun _ y _ => y),
   (.atmCas o d h a x z, fun v y w => if v = w then y else v),
   (.atmInc o d h a x z, fun v y _ => if y = 0 then v + 1 else if y ≤ v then 0 else v + 1)]

/-- Everything but the hub is as it was. -/
def OnlyHub (s t : State) : Prop := t = { s with hub := t.hub }

/-! ## The matrix engine -/

/-- The matrix engine forms pieces for a tile operation, which are final in a cycle (06 R183, R184). -/
def Forms (t : State) (o : Out) (op : Slotted) (due : Nat) (ps : List Part) : Prop :=
  ∃ x ∈ t.outs, x.bank = o.bank ∧ x.seq = op.seq ∧ x.path = .m ∧ x.ctr = .none ∧ x.due = due ∧ x.work = .write ps op.iss.cbmap false []

/-- A tile operation stands in its queue with its progress, and goes on in a cycle. -/
def GoesOn (t : State) (o : Out) (op : Slotted) (due : Nat) (w : Tiling) : Prop := ∃ x ∈ t.outs, x.id = o.id ∧ x.due = due ∧ x.work = .tile op w

/-- A tile operation completes: it leaves its queue, granules that its operands take are empty and those that its result sets are full, and no
byte changes (06 R182). -/
def TileEnds (s t : State) (o : Out) (takes sets : List Nat) : Prop :=
  t.outs = s.outs.filter (·.id != o.id) ∧ (∀ a, t.mem.byte a = s.mem.byte a) ∧
  ∀ g, g ∈ t.mem.empty ↔ g ∉ sets ∧ (g ∈ takes ∨ g ∈ s.mem.empty)

/-- Granules that an operand with fe = 10 empties, and that a result with fe = 01 or 10 fills (06 R182). -/
def feTakes (s : State) (op : Slotted) (x : Role) : List Nat := if dFe x.desc = 2 then x.waits op.iss.cbmap s.core.phys else []
def feSets (s : State) (op : Slotted) (x : Role) : List Nat :=
  if dFe x.desc = 1 ∨ dFe x.desc = 2 then spanPages op.iss.cbmap s.core.phys x.span.1 x.span.2 else []

/-- Word n of a row of C: the chunk of A's row and B's column n, added to C's word (03 R92, 06 R194). -/
def rowWord (x : Pass) (a : List FV) (old : Nat → Nat) (n : Nat) : Nat × Fl :=
  let y := chunkSum x.window (a.zip (x.b.map fun r => r[n]?.getD (.fin false 0 0)))
  let z := fpAdd fp32 { mode := 0, ftz := false, daz := false } (if x.zero then 0 else old n) y.1
  (z.1, y.2 ||| z.2)

/-- Row i of a pass of a product enters the array: its pieces and its flags (06 R194, R195). -/
def RowEnters (s : State) (o : Out) (op : Slotted) (p : Product) (plane : List (List Nat)) (pass i : Nat) (ps : List Part) (fl : Fl) : Prop :=
  let c := op.iss.rm p.c
  let aux := crownThrough op.iss.cbmap s.core.phys (dAux c + 512 + 4 * i)
  let u := s.takeStream o.bank p op i pass
  let r := u.1.reader o.bank op
    (s.aRanges op p i pass ++ rowSpan op.iss.cbmap s.core.phys c i 0 (4 * dCols c) ++ if p.ck then [(aux, 4)] else [])
  let a := r.1.aValues r.2.1 op p i pass (r.1.aCodes o.bank r.2.1 op p i pass u.2.1)
  let x := r.1.passOf r.2.1 op p pass plane
  let word := rowWord x a fun n => r.2.1.code c (rowElem c i n)
  let sum := if p.ck then x.rowCheck a (bytesNat (r.2.1.mem.bytes aux 4)) else (0, 0)
  ps = rowParts op.iss.cbmap s.core.phys c i (wordBytes ((List.range (dCols c)).map fun n => (word n).1)) ++
    (if p.ck then [{ addr := aux, bytes := natBytes 4 sum.1 }] else []) ∧
  fl = (List.range (dCols c)).foldl (fun f n => f ||| (word n).2) sum.2

/-- The row of column sums of a checked product enters after the rows of its pass (06 R195). -/
def SumsEnter (s : State) (o : Out) (op : Slotted) (p : Product) (plane seen : List (List Nat)) (pass : Nat) (ps : List Part) (fl : Fl) : Prop :=
  let c := op.iss.rm p.c
  let aux := crownThrough op.iss.cbmap s.core.phys (dAux c)
  let r := s.reader o.bank op [(aux, 4 * dCols c)]
  let x := r.1.passOf r.2.1 op p pass plane
  let sums := x.columnCheck (seen.mapIdx fun i k => r.1.aValues r.2.1 op p i pass k) (r.2.1.words (dAux c) (dCols c))
  ps = [{ addr := aux, bytes := wordBytes (sums.map (·.1)) }] ∧ fl = sums.foldl (fun f y => f ||| y.2) 0

/-- Record t of list A or of list B is merged (06 R196): C's new words, each piece with the core cycles after which its row enters, and the
flags. An index outside the tile is skipped. -/
def RecordMerges (s : State) (o : Out) (op : Slotted) (m : Merge) (t : Nat) (ps : List (Nat × List Part)) (fl : Fl) : Prop :=
  let c := op.iss.rm m.c
  let a := op.iss.rm m.a
  let b := op.iss.rm m.b
  let cell (e : Nat × Nat) : Nat := crownThrough op.iss.cbmap s.core.phys e.1
  let at0 := crownThrough op.iss.cbmap s.core.phys ((cfOla (m.cf op) + (8 + 8 * t)) % 2 ^ 23)
  let h := s.reader o.bank op [(at0, 8)]
  let rc := bytesNat (h.2.1.mem.bytes at0 8)
  let x := val32 (rc / 2 ^ 32)
  (m.listB = false → match findElem a (rowElem a) (rc % 2 ^ 32) with
    | none => ps = [] ∧ fl = 0
    | some (i, k) =>
      let g := h.1.reader o.bank op (rowSpan op.iss.cbmap s.core.phys c i 0 (4 * dCols c) ++
        (List.range (dCols b)).map fun n => (cell (colElem b k n), max 1 (dBits b / 8)))
      let word (n : Nat) := fmaAcc (g.2.1.code c (rowElem c i n)) x (g.1.crownValue g.2.1 op b (colElem b k n) (g.2.1.code b (colElem b k n)))
      ps = [(0, rowParts op.iss.cbmap s.core.phys c i (wordBytes ((List.range (dCols c)).map fun n => (word n).1)))] ∧
      fl = (List.range (dCols c)).foldl (fun f n => f ||| (word n).2) 0) ∧
  (m.listB = true → match findElem b (colElem b) (rc % 2 ^ 32) with
    | none => ps = [] ∧ fl = 0
    | some (k, n) =>
      let g := h.1.reader o.bank op ((List.range (dRows c)).flatMap fun i =>
        [(cell (rowElem c i n), 4), (cell (rowElem a i k), max 1 (dBits a / 8))])
      let word (i : Nat) := fmaAcc (g.2.1.code c (rowElem c i n)) (g.1.crownValue g.2.1 op a (rowElem a i k) (g.2.1.code a (rowElem a i k))) x
      ps = (List.range (dRows c)).map (fun i => (i, [{ addr := cell (rowElem c i n), bytes := natBytes 4 (word i).1 }])) ∧
      fl = (List.range (dRows c)).foldl (fun f i => f ||| (word i).2) 0)

/-- `mma` and `mma.ck` in the engine: a row, or the row of sums, enters, and the rest of the course follows; at the end the flags enter
sr.fpsr (06 R182 to R186, R194, R195). -/
def ProductRuns (s : State) (o : Out) (op : Slotted) (w : Tiling) (p : Product) : Prop :=
  let pass := w.step / p.per op
  let i := w.step % p.per op
  let enters := s.coreAfter 20 + 32
  let slots (n : Nat) : Nat := entryTime s.hub.power.duty (n * s.productRow op p)
  let on := s.coreAfter (slots (i + 1) - slots i)
  (w.step < p.steps op → (w.halt = none ∨ op.atBoundary w = false) → s.rowHeld o op w p = none → (i < p.rows op ∨ w.seen.length = p.rows op) →
    ∃ t ps fl due v, exec .tileOperationCompletion s = .next t ∧ Forms t o op enters ps ∧ GoesOn t o op due v ∧
      v.step = w.step + 1 ∧ v.flags = w.flags ||| fl ∧
      (i < p.rows op → RowEnters (s.stepPlanes o op w p).1 o op p (s.stepPlanes o op w p).2.plane pass i ps fl) ∧
      (p.rows op ≤ i → SumsEnter (s.stepPlanes o op w p).1 o op p (s.stepPlanes o op w p).2.plane w.seen pass ps fl) ∧
      (w.step + 1 = p.steps op → due = enters) ∧ (w.step + 1 ≠ p.steps op → on ≤ due ∧ ((w.step + 1) % p.per op ≠ 0 → due = on))) ∧
  (w.step < p.steps op → w.halt ≠ none → op.atBoundary w = true → ∃ t v, exec .tileOperationCompletion s = .next t ∧ GoesOn t o op 0 v ∧
    v.started = none ∧ v.halt = none ∧ v.prog = some (i / 16, pass) ∧ t = { s with outs := t.outs }) ∧
  (p.steps op ≤ w.step → ∃ t, exec .tileOperationCompletion s = .next t ∧
    TileEnds s t o (feTakes s op (mmaRoles op.iss p.c p.a p.b p.src).2.1 ++ feTakes s op (mmaRoles op.iss p.c p.a p.b p.src).2.2)
      (feSets s op (mmaRoles op.iss p.c p.a p.b p.src).1) ∧
    (o.bank = s.core.bank → t.c = s.c.orFlags w.flags))

/-- `moutm` in the engine (06 R196). -/
def MergeRuns (s : State) (o : Out) (op : Slotted) (w : Tiling) (m : Merge) : Prop :=
  let on := m.time op (w.step + 1) - m.time op w.step
  (w.step < w.records → ∃ t ps fl due v, exec .tileOperationCompletion s = .next t ∧ RecordMerges s o op m w.step ps fl ∧
    (∀ y ∈ ps, Forms t o op (s.coreAfter (20 + y.1) + 32) y.2) ∧ GoesOn t o op due v ∧ v.step = w.step + 1 ∧ v.flags = w.flags ||| fl ∧
    (w.step + 1 ≠ w.records → due = s.coreAfter on) ∧
    (w.step + 1 = w.records → due = s.coreAfter (20 + on) + 32 ∧ (m.clear = true → cfOlen (m.cf op) = true →
      Forms t o op due [{ addr := crownThrough op.iss.cbmap s.core.phys (cfOla (m.cf op) % 2 ^ 23), bytes := natBytes 4 0 }]))) ∧
  (w.records ≤ w.step → cfOlen (m.cf op) = false → exec .tileOperationCompletion s = .next { s with outs := s.outs.filter (·.id != o.id) }) ∧
  (w.records ≤ w.step → cfOlen (m.cf op) = true → ∃ t, exec .tileOperationCompletion s = .next t ∧
    TileEnds s t o (feTakes s op (mmaRoles op.iss m.c m.a m.b 0).2.1 ++ feTakes s op (mmaRoles op.iss m.c m.a m.b 0).2.2)
      (feSets s op (mmaRoles op.iss m.c m.a m.b 0).1) ∧
    (o.bank = s.core.bank → t.c = s.c.orFlags w.flags))

/-- `mlu`, `mchol`, `mqr` and `mtrsm` in the engine: a step writes the units of its region that it changes, its pivot and its τ; the last one
fills the pivot register; at the end g and the flags follow; a step that fails discards what waits behind it and traps (07 R201 to R216). -/
def FactorRuns (s : State) (o : Out) (op : Slotted) (w : Tiling) (j : FacJob) : Prop :=
  let d := op.iss.rm j.c
  let h := s.facHolds o.bank op j w
  let q := j.step h.2.1 w.step
  let at0 := s.coreAfter ((j.time w.step * 8 + s.hub.power.duty - 1) / s.hub.power.duty)
  let pivots (c : Ctx) (r : BitVec 2) : BitVec 1024 := putEntries (c.rpv r) q.pv
  let stepped (c : Ctx) : Ctx := match j.pv with
    | some r => c.wpv r (pivots c r)
    | none => c
  (w.step < j.steps → w.halt = none → q.failed = none → ∃ t due v, exec .tileOperationCompletion s = .next t ∧
    GoesOn t o op due v ∧ v.step = w.step + 1 ∧ v.run = q.saved ∧ due = (if w.step + 1 = j.steps then at0 + 32 else at0) ∧
    (∀ i < dRows d, facRow op.iss.cbmap s.core.phys d j h.2.1 q i ≠ [] →
      Forms t o op (at0 + 32) (facRow op.iss.cbmap s.core.phys d j h.2.1 q i)) ∧
    (q.tau ≠ [] → Forms t o op (at0 + 32) (q.tau.map fun e =>
      { addr := crownThrough op.iss.cbmap s.core.phys (dAux d + 4 * e.1), bytes := natBytes 4 e.2 })) ∧
    (o.bank = s.core.bank → w.step + 1 ≠ j.steps → t.c = stepped s.c) ∧
    (o.bank = s.core.bank → w.step + 1 = j.steps → j.pv = none → t.c = s.c) ∧
    (∀ r, o.bank = s.core.bank → w.step + 1 = j.steps → j.pv = some r → j.progress op w ≤ j.steps →
      t.c = s.c.wpv r (putEntries (pivots s.c r) ((upTo j.steps 128).map fun i => (i, i))))) ∧
  (∀ code k, w.step < j.steps → w.halt = none → q.failed = some (code, k) → o.bank = s.core.bank → s.q.trap = none →
    ∃ t, exec .tileOperationCompletion s = .next t ∧ t.c = ((stepped s.c).wg j.g q.gWord).orFlags (q.fl ||| q.growth.2) ∧
      let behind := (s.tileQueue o.bank).filter fun x => decide (o.id < x.id)
      t.outs = s.outs.filter (fun x => x.id != o.id && !(behind.any (·.id == x.id))) ∧
      t.q.trap = some { code := code, slot := 2, iss := false, evt := false, now := true, seq := op.seq
                        info := BitVec.ofNat 64 (k + j.c.toNat * 2 ^ 8 + (j.t.map (·.toNat)).getD 0 * 2 ^ 11 + min behind.length 3 * 2 ^ 16) }) ∧
  (j.steps ≤ w.step → ∃ t, exec .tileOperationCompletion s = .next t ∧
    TileEnds s t o (match j.t with
      | some r => feTakes s op { desc := op.iss.rm r, reg := r, role := 1, kind := 1 }
      | none => []) (feSets s op { desc := d, reg := j.c, role := 0, kind := 1 }) ∧
    let e := facStart [] [] j.lower w.run
    (o.bank = s.core.bank → t.c = (s.c.wg j.g e.gWord).orFlags (e.fl ||| e.growth.2)))

/-- The moves in the engine: `mzero` clears its rows, `mbld` loads its plane, and the others complete (06 R191 to R193, 07 R217, R218). -/
def MovesRun (s : State) (o : Out) (op : Slotted) (w : Tiling) : Prop :=
  (∀ m, op.instr = .mzero m →
    let d := op.iss.rm m
    let bits := dCols d * dBits d
    let last := crownThrough op.iss.cbmap s.core.phys (rowElem d w.step (dCols d - 1)).1
    let r := (s.reader o.bank op (if bits % 8 ≠ 0 then [(last, 1)] else [])).2.1
    (w.step < dRows d → bits ≠ 0 → ∃ t, exec .tileOperationCompletion s = .next t ∧
      Forms t o op (s.now + 32) (rowParts op.iss.cbmap s.core.phys d w.step
        (List.replicate (bits / 8) 0 ++ if bits % 8 ≠ 0 then [r.mem.byte last &&& 0xF0] else [])) ∧
      GoesOn t o op (if w.step + 1 = dRows d then s.now + 32 else s.coreAfter 1) { w with step := w.step + 1 }) ∧
    (dRows d ≤ w.step → ∃ t, exec .tileOperationCompletion s = .next t ∧ t.c = s.c ∧ TileEnds s t o [] (feSets s op (zeroRole op.iss m)))) ∧
  (∀ b, op.instr = .mbld b → Clean s → ∃ t, exec .tileOperationCompletion s = .next t ∧ t.c = s.c ∧
    let d := op.iss.rm b
    let depth := chunkDepth (dFmt d) (dFmt d)
    let r := (s.reader o.bank op (planeRanges op.iss.cbmap s.core.phys (bRole op.iss b depth) depth 0)).2.1
    TileEnds s t o (feTakes s op (bRole op.iss b depth)) [] ∧
    ((∃ n, w.started = some n ∧ n < s.core.planesLost) → t.core.planes = s.core.planes) ∧
    (∀ n, w.started = some n → s.core.planesLost ≤ n → ∃ x l, t.core.planes = x :: l ∧ x.desc = putField d 84 8 0 ∧ x.depth = depth ∧
      x.codes = (List.range depth).map fun k => (List.range (dCols d)).map fun n =>
        if k < dRows d then r.code d (colElem d k n) else 0)) ∧
  (∀ m a, op.instr = .mdst m a → ∃ t, exec .tileOperationCompletion s = .next t ∧ t.c = s.c ∧ TileEnds s t o [] []) ∧
  (∀ m a, op.instr = .mdld m a → Clean s → o.bank = s.core.bank → ∃ t, exec .tileOperationCompletion s = .next t ∧ TileEnds s t o [] [] ∧
    let at0 := crownThrough op.iss.cbmap s.core.phys (mdAddr a op.ext)
    t.c = s.c.wm m (BitVec.ofNat 128 (bytesNat ((s.reader o.bank op [(at0, 16)]).2.1.mem.bytes at0 16)))) ∧
  (∀ n x d, op.instr = .mpiv n x d → o.bank = s.core.bank → ∃ t, exec .tileOperationCompletion s = .next t ∧ TileEnds s t o [] [] ∧
    t.c = s.c.mpivDone (n.toNat + 1) (w.pv.getD (s.c.rpv x)) d) ∧
  (∀ x, permOf op.instr = some x → ∃ t, exec .tileOperationCompletion s = .next t ∧ t.c = s.c ∧
    TileEnds s t o [] (feSets s op { desc := op.iss.rm x.t, reg := x.t, role := 0, kind := if x.columns then 4 else 3 }))

/-- A tile operation starts: what it forms at once, what it holds, and the cycle of its next step or of its completion (06 R171, R184, R191
to R196, 07 R204, R205, R210, R217, R218). -/
def TileStarts (s : State) (o : Out) (op : Slotted) (w : Tiling) : Prop :=
  let duty (n : Nat) : Nat := s.coreAfter ((n * 8 + s.hub.power.duty - 1) / s.hub.power.duty)
  let go : Tiling := { w with halt := none, started := some s.now, step := 0 }
  let starts (t : State) : Prop := exec .tileOperationStart s = .next t
  (∀ p, productOf op.instr = some p → ∃ t due v, starts t ∧ GoesOn t o op due v ∧ v.started = some s.now ∧ t = { s with outs := t.outs } ∧
    let more := if p.src = 1 ∧ s.remapOf s.core.phys ≠ List.range 16 then 2 else 0
    let first := p.first op w
    (first < p.steps op → v.step = first ∧
      (∀ x, first < p.per op → s.planeFor (op.iss.rm p.b) (p.depth op) = some x → v.plane = x.codes ∧ due = s.coreAfter more) ∧
      (p.per op ≤ first ∨ s.planeFor (op.iss.rm p.b) (p.depth op) = none → v.plane = w.plane ∧
        due = s.coreAfter ((if max (fmtBits (dFmt (op.iss.rm p.a))) (fmtBits (dFmt (op.iss.rm p.b))) = 32 then 128 else 64) + more))) ∧
    (p.steps op ≤ first → v.step = p.steps op ∧ due = s.now)) ∧
  (∀ j, facJob op = some j → j.progress op w < j.steps → ∃ t v, starts t ∧ GoesOn t o op s.now v ∧ v.step = j.progress op w ∧
    v.run = (s.facHolds o.bank op j w).2.1.saved ∧ t.c = s.c) ∧
  (∀ m, mergeOf op.instr = some m → cfOlen (m.cf op) = false → ∃ t v, starts t ∧ GoesOn t o op (s.coreAfter 20 + 32) v ∧ t = { s with outs := t.outs }) ∧
  (∀ m, mergeOf op.instr = some m → cfOlen (m.cf op) = true → ∃ t v due, starts t ∧ GoesOn t o op due v ∧ v.step = 0 ∧ t.c = s.c ∧
    let at0 := crownThrough op.iss.cbmap s.core.phys (cfOla (m.cf op) % 2 ^ 23)
    let n := bytesNat ((s.reader o.bank op [(at0, 8)]).2.1.mem.bytes at0 8) % 2 ^ 32
    (n ≠ 0 → v.records = n ∧ due = s.now) ∧ (n = 0 → due = s.coreAfter 20 + 32)) ∧
  (∀ x, permOf op.instr = some x → dProgress (op.iss.rm x.t) = 0 → ∃ t v, starts t ∧ t.c = s.c ∧
    let d := op.iss.rm x.t
    let rows := (x.span d).1
    let width := (x.span d).2
    let r := (s.reader o.bank op ((List.range rows).flatMap fun i =>
      rowSpan op.iss.cbmap s.core.phys d i 0 ((width * dBits d + 7) / 8))).2.1
    let new := x.rows d ((s.bankCtx o.bank).rpv x.pv) (r.tile d)
    GoesOn t o op (duty (8 + rows * x.rowTime d) + 32) v ∧
    ∀ i < rows, dBits d ≠ 0 → rows ≤ dRows d → Forms t o op (duty (8 + (i + 1) * x.rowTime d) + 32) (rowParts op.iss.cbmap s.core.phys d i
      (rowBytesOf (dBits d) (r.mem.byte (crownThrough op.iss.cbmap s.core.phys (rowElem d i (width - 1)).1)) (new[i]?.getD [])))) ∧
  (∀ m, op.instr = .mzero m → ∃ t, starts t ∧ GoesOn t o op (s.coreAfter 2) go ∧ t = { s with outs := t.outs }) ∧
  (∀ m a, op.instr = .mdst m a → ∃ t, starts t ∧ GoesOn t o op (s.coreAfter 2 + 32) go ∧
    Forms t o op (s.coreAfter 2 + 32) [{ addr := crownThrough op.iss.cbmap s.core.phys (mdAddr a op.ext), bytes := natBytes 16 (op.iss.rm m).toNat }] ∧
    t = { s with outs := t.outs, nextId := s.nextId + 1 }) ∧
  (∀ m a, op.instr = .mdld m a → ∃ t, starts t ∧ GoesOn t o op (s.coreAfter 2) go ∧ t = { s with outs := t.outs }) ∧
  (∀ b, op.instr = .mbld b → ∃ t, starts t ∧ t = { s with outs := t.outs } ∧
    GoesOn t o op (s.coreAfter (if fmtBits (dFmt (op.iss.rm b)) = 32 then 128 else 64)) go) ∧
  (∀ n x d, op.instr = .mpiv n x d → ∃ t, starts t ∧ t = { s with outs := t.outs } ∧
    GoesOn t o op (duty (8 + n.toNat + 1)) { go with pv := some ((s.bankCtx o.bank).rpv x) })

/-! ## The step -/

/-- The active bank's bead is about to issue the bundle at its pc: nothing of an earlier bundle is incomplete or in its shadow,
no wait, trap, replay or REP bundle is in progress, neither an event nor an input of the outside world is due, and no burst of a copy is
refused. -/
def AtRest (s : State) : Prop :=
  s.now + 1 < 2 ^ 64 ∧ s.ticks = true ∧ s.run = none ∧ s.due = none ∧ takeDue s.now s.agenda = none ∧ s.q.state = .active ∧ s.q.rewind = false ∧
  s.q.cur = none ∧ s.q.wait = .none ∧ s.q.trap = none ∧ s.q.acq = none ∧ s.q.issueFrom ≤ s.now ∧ s.q.repCur = none ∧
  s.q.replay = [] ∧ s.q.shadows = [] ∧ s.q.win = [] ∧ s.q.oldest = none ∧ s.q.vq = [] ∧ s.q.mq = [] ∧ s.q.lagged = false ∧
  s.q.looped = none ∧ s.q.relHold = none ∧ s.q.bankHold = none ∧ s.q.vTried = false ∧ s.q.mTried = false ∧ s.q.fences = [] ∧
  Clean s ∧ s.q.answered = none ∧ s.q.sending = none ∧ s.grantCopies = s

/-- The operation `i` with word `w` alone in the bundle at the pc. -/
def lone (s : State) (k : BitVec 2) (w : Word) (i : Instr) : Slotted := s.slotIn s.c.pc none k w i

/-- The words of a bundle that holds one word. -/
def loneWords (k : BitVec 2) (w : Word) : List Word := (List.range 4).map fun n => if n = k.toNat then w else 0

/-- A lone operation is in its slot: its bundle was read through its home port and is in the bundle register, and the pc names the next
one. -/
def issued (s : State) (o : Slotted) : State :=
  let u := ((s.portFetch s.c.pc.toNat 16).keep s.c.pc (loneWords o.slot o.word)).advance s.c.pc false false
  { u with q := { u.q with cur := some { addr := s.c.pc, done := doneOf [o], seq := s.q.seq, rep := 0 }, ops := [o] } }

/-- The state in which a lone operation executes: it has taken the arrays of crown that it asks for. -/
def entered (s : State) (o : Slotted) : State := ((issued s o).claimed o).latched o true

/-- What is left of the cycle once a lone operation has executed: unless it took the stream away, its slot is complete, parked
or stalled and its bundle leaves the bundle register; then the core goes to the other bank if the
bead has left its own, and the cycle ends. -/
def left (bank : Bool) (o : Slotted) (t : State) : State :=
  let u := if t.holds bank o then t.leaves o else t
  (if u.holds bank o then u.finish else u).handOver.tilesStart.tick

end Sys2Proof.Claims
end

