-- ==== Sys2Proof/Certificates/Slice0/Obligations.lean ====
section
/-! DEFINITION. The statements for the provers, in the words of Safety.lean. -/

section
open Sys2Proof Machine Claims

/-- 04 R105: Table 4-3. -/
def Obligations.IntegerOperationsWriteTableResult : Prop :=
  ∀ (s : State) (d a b : BitVec 5) (w : BitVec 2) (g : BitVec 3), s.c.rk g = true →
    (∀ row ∈ integerRows, ∃ t, exec (row.1 d a b g) s = .next t ∧ WritesX s t d (row.2 (s.c.rx a) (s.c.rx b))) ∧
    (∃ t, exec (.clz d a g) s = .next t ∧ WritesX s t d (s.c.rx a).clz) ∧
    (∃ t, exec (.popc d a g) s = .next t ∧ WritesX s t d (s.c.rx a).cpop) ∧
    (∀ n, (w, n) ∈ [((0 : BitVec 2), 8), (1, 16), (2, 32)] →
      (∃ t, exec (.sext d a w g) s = .next t ∧ WritesX s t d (((s.c.rx a).setWidth n).signExtend 64)) ∧
      (∃ t, exec (.zext d a w g) s = .next t ∧ WritesX s t d (((s.c.rx a).setWidth n).setWidth 64)))

/-- 04 R106 to R108. -/
def Obligations.ImmediateOperationsWriteTheirResult : Prop :=
  ∀ (s : State) (d a : BitVec 5) (i : BitVec 16) (n : BitVec 6) (j : BitVec 21) (q : BitVec 2),
    (∃ t, exec (.addi d a i) s = .next t ∧ WritesX s t d (s.c.rx a + i.signExtend 64)) ∧
    (∃ t, exec (.andi d a i) s = .next t ∧ WritesX s t d (s.c.rx a &&& i.signExtend 64)) ∧
    (∃ t, exec (.ori d a i) s = .next t ∧ WritesX s t d (s.c.rx a ||| i.setWidth 64)) ∧
    (∃ t, exec (.xori d a i) s = .next t ∧ WritesX s t d (s.c.rx a ^^^ i.setWidth 64)) ∧
    (∃ t, exec (.shli d a n) s = .next t ∧ WritesX s t d (s.c.rx a <<< n)) ∧
    (∃ t, exec (.shri d a n) s = .next t ∧ WritesX s t d (s.c.rx a >>> n)) ∧
    (∃ t, exec (.sari d a n) s = .next t ∧ WritesX s t d ((s.c.rx a).sshiftRight' n)) ∧
    (∃ t, exec (.li d j) s = .next t ∧ WritesX s t d (j.signExtend 64)) ∧
    (∃ t v, exec (.lih d q i) s = .next t ∧ WritesX s t d v ∧ ∀ k, k < 64 →
      v.getLsbD k = if 16 * q.toNat ≤ k ∧ k < 16 * q.toNat + 16 then i.getLsbD (k - 16 * q.toNat) else (s.c.rx d).getLsbD k)

/-- 04 R109, R110. -/
def Obligations.CompareSelectAndPredicateResults : Prop :=
  ∀ (s : State) (d a b : BitVec 5) (k l m g : BitVec 3) (i : BitVec 15), s.c.rk g = true →
    (∀ row ∈ conditionRows,
      (∃ t, exec (.cmp k a b g (BitVec.ofNat 8 row.1)) s = .next t ∧ WritesK s t k (row.2 (s.c.rx a) (s.c.rx b))) ∧
      (∃ t, exec (.cmpi k (BitVec.ofNat 3 row.1) a i) s = .next t ∧ WritesK s t k (row.2 (s.c.rx a) (i.signExtend 64)))) ∧
    (∃ t, exec (.sel d a b g l) s = .next t ∧ WritesX s t d (if s.c.rk l then s.c.rx a else s.c.rx b)) ∧
    (∃ t, exec (.kand k l m g) s = .next t ∧ WritesK s t k (s.c.rk l && s.c.rk m)) ∧
    (∃ t, exec (.kor k l m g) s = .next t ∧ WritesK s t k (s.c.rk l || s.c.rk m)) ∧
    (∃ t, exec (.kxor k l m g) s = .next t ∧ WritesK s t k (xor (s.c.rk l) (s.c.rk m))) ∧
    (∃ t, exec (.knot k l g) s = .next t ∧ WritesK s t k (!s.c.rk l))

/-- 04 R100, 02 R59: with a clear guard the operation changes nothing at all; nor does the no-op. -/
def Obligations.ClearGuardsAndNoOpsHaveNoEffect : Prop :=
  (∀ (s : State) (d a b c : BitVec 5) (k l : BitVec 3) (r w : BitVec 2) (cond : BitVec 8) (g : BitVec 3), s.c.rk g = false →
     ∀ i ∈ guarded d a b c k l r w cond g, i.wf = true → exec i s = .next s) ∧
  (∀ (s : State), exec .noOp s = .next s)

/-- 04 R112 to R116, 03 R94: an FP64 operation none of whose flags is enabled writes its result and ORs its flags into
sr.fpsr. -/
def Obligations.ScalarFloatWritesResultAndFlags : Prop :=
  ∀ (s : State) (d a b c : BitVec 5) (k cond g : BitVec 3) (r : BitVec 2), s.c.rk g = true →
    (∀ row ∈ floatRows, Rounded s (row.2 (FloatModes s r) (s.c.rx a).toNat (s.c.rx b).toNat) (row.1 d a b g r) d) ∧
    Rounded s (fpFma fp64 (FloatModes s r) (s.c.rx a).toNat (s.c.rx b).toNat (s.c.rx c).toNat) (.ffmaD d a b g c r) d ∧
    (cond.toNat ≤ 3 → ∀ y, y = fpCmp fp64 (FloatModes s 0).daz cond.toNat (s.c.rx a).toNat (s.c.rx b).toNat →
      Enabled s y.2 = false → ∃ u t, exec (.fcmpD k a b g cond) s = .next t ∧ Flags s u y.2 ∧ WritesK u t k y.1)


/-- 03 R95, 04 R111: an FP64 operation that would raise an enabled flag traps with 0x0F and does nothing else. -/
def Obligations.EnabledFloatFlagTraps : Prop :=
  ∀ (s : State) (d a b c : BitVec 5) (k cond g : BitVec 3) (r : BitVec 2), s.c.rk g = true →
    let info (y : Nat × Fl) : DWord :=
      BitVec.ofNat 64 ((y.2 &&& fld s.lat.iss.fpcr.toNat 4 5 &&& 31) + (y.2 &&& 31) * 2 ^ 8 + 2 ^ 23)
    (∀ row ∈ floatRows, ∀ y, y = row.2 (FloatModes s r) (s.c.rx a).toNat (s.c.rx b).toNat → Enabled s y.2 = true →
      ∃ t, exec (row.1 d a b g r) s = .next t ∧ Faults s t 0x0F (info y)) ∧
    (∀ y, y = fpFma fp64 (FloatModes s r) (s.c.rx a).toNat (s.c.rx b).toNat (s.c.rx c).toNat → Enabled s y.2 = true →
      ∃ t, exec (.ffmaD d a b g c r) s = .next t ∧ Faults s t 0x0F (info y)) ∧
    (cond.toNat ≤ 3 → ∀ y, y = fpCmp fp64 (FloatModes s 0).daz cond.toNat (s.c.rx a).toNat (s.c.rx b).toNat →
      Enabled s y.2 = true → ∃ t, exec (.fcmpD k a b g cond) s = .next t ∧ Faults s t 0x0F (info (0, y.2)))

/-- 02 R37, R41, R43, R44, 04 R117 to R119: where each transfer goes, what it links, and when its target issues; a register target that
is not a multiple of 16 raises trap 0x04 on the transfer's bundle; a REP header has its bundle issue again while iterations are left. -/
def Obligations.TransfersGoToTheirTarget : Prop :=
  (∀ (s : State) (d a : BitVec 5) (k g : BitVec 3) (o : BitVec 26) (p : BitVec 23) (l : BitVec 21),
     (∃ t, exec (.br o) s = .next t ∧ Jumps s t 3 (s.lat.addr + 16 * o.signExtend 64)) ∧
     (∃ u t, exec (.call o) s = .next t ∧ WritesX s u 31 (s.lat.addr + 16) ∧ Jumps u t 3 (s.lat.addr + 16 * o.signExtend 64)) ∧
     (∃ t, exec (.brk k p) s = .next t ∧ if s.c.rk k then Jumps s t 3 (s.lat.addr + 16 * p.signExtend 64) else t = s) ∧
     (∃ t, exec (.brnk k p) s = .next t ∧ if s.c.rk k then t = s else Jumps s t 3 (s.lat.addr + 16 * p.signExtend 64)) ∧
     (s.c.rk g = true → (s.c.rx a).toNat % 16 = 0 →
       ∃ u t, exec (.jr d a g) s = .next t ∧ WritesX s u d (s.lat.addr + 16) ∧ Jumps u t 4 (s.c.rx a)) ∧
     (s.c.rk g = true → (s.c.rx 31).toNat % 16 = 0 → ∃ t, exec (.ret g) s = .next t ∧ Jumps s t 4 (s.c.rx 31)) ∧
     (s.c.rx a = 0 → exec (.loop a l) s = .next s) ∧
     (s.c.rx a ≠ 0 → ∃ u, WritesX s u a (s.c.rx a - 1) ∧
       if s.c.rx a = 1 then exec (.loop a l) s = .next u
       else ∃ v t, exec (.loop a l) s = .next t ∧
         Jumps u v (if -16 ≤ l.toInt ∧ l.toInt ≤ 0 then 1 else 3) (s.lat.addr + 16 * l.signExtend 64) ∧
         t = (if -16 ≤ l.toInt ∧ l.toInt ≤ 0 then { v with q := { v.q with looped := some (v.c.pc, s.lat.addr) } } else v))) ∧
  (∀ (s : State) (d a : BitVec 5) (g : BitVec 3), s.c.rk g = true →
     let r (v : DWord) : TrapRec := { code := 0x04, info := v, slot := 0, iss := false, evt := false, now := false }
     ((s.c.rx a).toNat % 16 ≠ 0 → ∃ t, exec (.jr d a g) s = .next t ∧ Enters s t (whole s.lat.addr) (r (s.c.rx a))) ∧
     ((s.c.rx 31).toNat % 16 ≠ 0 → ∃ t, exec (.ret g) s = .next t ∧ Enters s t (whole s.lat.addr) (r (s.c.rx 31)))) ∧
  (∀ (s : State) (n : BitVec 10) (v m t r : BitVec 4) (left : Nat),
     (s.q.repCur = none ∧ s.q.repLeft = 0 ∧ left = n.toNat) ∨ (s.q.repCur = none ∧ s.q.repLeft ≠ 0 ∧ left = s.q.repLeft) ∨
       (∃ a, s.q.repCur = some (a, left)) →
     exec (.hrep n v m t r) s = .next { s with q := { s.q with repLeft := 0, repCur := if 1 < left then some (s.lat.addr, left - 1) else none } })

/-- 02 R53, R54, 04 R120 to R122, 05 R168, 06 R190, 08 R264: a cross-slot copy takes its source as at the issue of its bundle, and
when the destination slot reaches its bundle the bits that it names take that value; no other register changes. -/
def Obligations.CrossSlotCopiesLandInTheirRegister : Prop :=
  ∀ (s : State) (x d : BitVec 5) (v : BitVec 6) (l : BitVec 7) (a : BitVec 4) (m : BitVec 3) (g w : BitVec 2) (q : BitVec 4) (z : BitVec 1),
    let y := s.lat.iss.rx x
    (VReady s 0 [v] →
      (∃ t, exec (.xcV d v l) s = .next t ∧ CopiesX s t 3 d (BitVec.ofNat 64 (lane (s.lat.iss.rv v.toNat) l.toNat))) ∧
      (∃ t, exec (.xcXl v x l) s = .next t ∧ CopiesV s t v (· == l.toNat) (y.toNat % 2 ^ 32)) ∧
      (w ≠ 3 → ∃ t, exec (.xcX v x w m) s = .next t ∧ CopiesV s t v (LaneOn s w m) (y.toNat % 2 ^ 32))) ∧
    (∃ t, exec (.xcA d a) s = .next t ∧ CopiesX s t 2 d (s.lat.iss.ra a)) ∧
    (∃ t, exec (.xcG d g) s = .next t ∧ CopiesX s t 2 d (s.lat.iss.rg g)) ∧
    (∃ t, exec (.xcH d a z) s = .next t ∧ CopiesX s t 2 d ((s.lat.iss.rh a).extractLsb' (64 * z.toNat) 64)) ∧
    (∃ t, exec (.xcM d 0 m (z.setWidth 4)) s = .next t ∧ CopiesX s t 2 d ((s.lat.iss.rm m).extractLsb' (64 * z.toNat) 64)) ∧
    (∃ t, exec (.xcM d 1 (g.setWidth 3) q) s = .next t ∧ CopiesX s t 2 d ((s.lat.iss.rpv g).extractLsb' (64 * q.toNat) 64)) ∧
    (∃ t, exec (.xcXMatrix m x 0 (z.setWidth 4)) s = .next t ∧ (∃ n o, Copies s t 2 (.m m n o)) ∧
      landed t = { landed s with m := (landed t).m } ∧ Part64 ((landed s).rm m) ((landed t).rm m) z.toNat y ∧
      ∀ r, r ≠ m → (landed t).rm r = (landed s).rm r) ∧
    (∃ t, exec (.xcXMatrix (g.setWidth 3) x 1 q) s = .next t ∧ (∃ n o, Copies s t 2 (.pv g n o)) ∧
      landed t = { landed s with pv := (landed t).pv } ∧ Part64 ((landed s).rpv g) ((landed t).rpv g) q.toNat y ∧
      ∀ r, r ≠ g → (landed t).rpv r = (landed s).rpv r) ∧
    (∃ t, exec (.xcXMatrix (g.setWidth 3) x 2 0) s = .next t ∧ Copies s t 2 (.g g y) ∧
      landed t = { landed s with g := (landed t).g } ∧ (landed t).rg g = y &&& 0x00FF07FFFFFFFFFF ∧ ∀ r, r ≠ g → (landed t).rg r = (landed s).rg r) ∧
    (∃ t, exec (.xcXAddress 0 a x 0) s = .next t ∧ Copies s t 2 (.a a y) ∧
      landed t = { landed s with a := (landed t).a } ∧ (landed t).ra a = y ∧ ∀ r, r ≠ a → (landed t).ra r = (landed s).ra r) ∧
    (s.c.sys = true → ∃ t, exec (.xcXAddress 1 a x z) s = .next t ∧ (∃ n o, Copies s t 2 (.h a n o)) ∧
      landed t = { landed s with h := (landed t).h } ∧ Part64 ((landed s).rh a) ((landed t).rh a) z.toNat y ∧
      ∀ r, r ≠ a → (landed t).rh r = (landed s).rh r)

/-- 04 R124, R125, R127, R128, 11 R348, 12 R382: what `srd` reads and what `swr` writes of the registers that lie in a bead's context:
sr.fpcr and sr.fpsr at either level, the rest at system level but for a read below 0x010; and sr.cycle, sr.ncores, sr.coreid, the remap
registers and sr.ctx. -/
def Obligations.StatusRegistersReadAndWrite : Prop :=
  ∀ (s : State) (d a : BitVec 5),
    (∃ t, exec (.srd d 0x000) s = .next t ∧ WritesX s t d (BitVec.ofNat 64 s.now)) ∧
    (∃ t, exec (.srd d 0x003) s = .next t ∧
      WritesX s t d (BitVec.ofNat 64 (s.core.phys % 64 + s.core.phys / 64 * 2 ^ 6 + s.logical * 2 ^ 16))) ∧
    (∃ t, exec (.srd d 0x004) s = .next t ∧ WritesX s t d (BitVec.ofNat 64 s.hub.map.length)) ∧
    (∃ t, exec (.srd d 0x005) s = .next t ∧
      WritesX s t d (BitVec.ofNat 64 (bytesNat ((List.range 8).map fun i => BitVec.ofNat 8 (s.core.tower i))))) ∧
    (∃ t, exec (.srd d 0x006) s = .next t ∧
      WritesX s t d (BitVec.ofNat 64 (bytesNat ((List.range 8).map fun i => BitVec.ofNat 8 (s.core.tower (i + 8)))))) ∧
    (∃ t, exec (.srd d 0x007) s = .next t ∧
      WritesX s t d (BitVec.ofNat 64 (s.core.bank.toNat + s.oq.state.code * 2 + s.c.preempt.toNat * 2 ^ 8 + s.c.since.toNat * 2 ^ 16))) ∧
    (s.c.sys = true → ∃ t, exec (.swr a 0x007) s = .next t ∧
      t = { s with c := { s.c with preempt := fbv 8 8 (s.c.rx a).toNat, since := fbv 48 16 (s.c.rx a).toNat } }) ∧
    (∀ row ∈ contextRegisters,
      (s.c.sys = true ∨ row.1 < 0x010 →
        ∃ t, exec (.srd d (BitVec.ofNat 12 row.1)) s = .next t ∧ WritesX s t d (row.2.2 s.c)) ∧
      (s.c.sys = true ∨ row.1 < 0x003 → (row.1 = 0x015 → fld (s.c.rx a).toNat 36 4 ≤ 9) →
        ∃ t, exec (.swr a (BitVec.ofNat 12 row.1)) s = .next t ∧
          row.2.2 t.c = (s.c.rx a &&& row.2.1) ||| (row.2.2 s.c &&& ~~~row.2.1) ∧ t = { s with c := t.c } ∧
          t.c = { s.c with fpcr := t.c.fpcr, fpsr := t.c.fpsr, bead := t.c.bead, seg := t.c.seg, cause := t.c.cause, epc := t.c.epc
                           einfo := t.c.einfo, tbase := t.c.tbase, repc := t.c.repc, slip := t.c.slip, enpc := t.c.enpc, cbmap := t.c.cbmap } ∧
          ∀ r ∈ contextRegisters, r.1 ≠ row.1 → r.2.2 t.c = r.2.2 s.c)) ∧
    (s.c.sys = true → 9 < fld (s.c.rx a).toNat 36 4 → ∃ t, exec (.swr a 0x015) s = .next t ∧
      Faults s t 0x01 (BitVec.ofNat 64 (s.lat.slot.toNat + s.lat.word.toNat * 2 ^ 32)))

/-- 04 R124, R125, 12 R371, R391, R392: at bead level a privileged operation and a system register raise trap 0x03, and so does a write to
a monitor register or a stall counter; a number that no register has raises 0x01. That a write to a read-only register of a monitor unit traps
at bead level, and is not ignored there, is the model's choice (log 48). -/
def Obligations.PrivilegeIsChecked : Prop :=
  (∀ (s : State) (d : BitVec 5) (n : BitVec 12),
     (statusDefined n = false →
       (∃ t, exec (.srd d n) s = .next t ∧ Refused s t 0x01) ∧ (∃ t, exec (.swr d n) s = .next t ∧ Refused s t 0x01)) ∧
     (s.c.sys = false → 0x010 ≤ n.toNat → n.toNat ≤ 0x017 →
       (∃ t, exec (.srd d n) s = .next t ∧ Refused s t 0x03) ∧ (∃ t, exec (.swr d n) s = .next t ∧ Refused s t 0x03)) ∧
     (s.c.sys = false → (0x007 ≤ n.toNat ∧ n.toNat ≤ 0x00E) ∨ (0x040 ≤ n.toNat ∧ n.toNat ≤ 0x07F) →
       ∃ t, exec (.swr d n) s = .next t ∧ Refused s t 0x03)) ∧
  (∀ (s : State) (d a b : BitVec 5) (h o l r : BitVec 4) (q k : BitVec 1), s.c.sys = false →
     ∀ i ∈ privilegedOps d a b h o l r q k, ∃ t, exec i s = .next t ∧ Refused s t 0x03)


/-- 03 R84, 09 R296, 10 R332, 12 R387, R390-R392: the format registers, at either level; and the registers of the core, which are read at
either level and written at system level: sr.strikes, sr.orphans, sr.tlimit, the watchdogs, the monitor units and the stall counters. -/
def Obligations.FormatAndCoreRegistersReadAndWrite : Prop :=
  ∀ (s : State) (d a : BitVec 5),
    (∀ (n : Nat) (h : n < 16),
      (∃ t, exec (.srd d (BitVec.ofNat 12 (0x20 + n))) s = .next t ∧ WritesX s t d s.c.cf[n]) ∧
      (fmtBits ((s.c.rx a).setWidth 8) ≠ 0 → ∃ t, exec (.swr a (BitVec.ofNat 12 (0x20 + n))) s = .next t ∧
        t = { s with c := { s.c with cf := s.c.cf.set n ((s.c.rx a &&& 0xFFFFFFFFFFFF07FF) ||| (s.c.cf[n] &&& 0xF800)) h } }) ∧
      (fmtBits ((s.c.rx a).setWidth 8) = 0 → ∃ t, exec (.swr a (BitVec.ofNat 12 (0x20 + n))) s = .next t ∧
        Faults s t 0x01 (BitVec.ofNat 64 (s.lat.slot.toNat + s.lat.word.toNat * 2 ^ 32)))) ∧
    (∀ row ∈ coreRegisters,
      (∃ t, exec (.srd d (BitVec.ofNat 12 row.1)) s = .next t ∧ WritesX s t d (row.2.2 s.core)) ∧
      (s.c.sys = true → ∃ t, exec (.swr a (BitVec.ofNat 12 row.1)) s = .next t ∧ t = { s with core := t.core } ∧
        row.2.2 t.core = (s.c.rx a &&& row.2.1) ||| (row.2.2 s.core &&& ~~~row.2.1) ∧
        ∀ r ∈ coreRegisters, r.1 ≠ row.1 → r.2.2 t.core = r.2.2 s.core)) ∧
    (∃ t, exec (.srd d 0x00D) s = .next t ∧ WritesX s t d (s.core.parkmax.setWidth 64)) ∧
    (∃ t, exec (.srd d 0x00E) s = .next t ∧ WritesX s t d (s.core.sleepmax.setWidth 64)) ∧
    (s.c.sys = true → ∃ t, exec (.swr a 0x00D) s = .next t ∧ t = { s with core := { s.core with parkmax := (s.c.rx a).setWidth 32 } }) ∧
    (s.c.sys = true → ∃ t, exec (.swr a 0x00E) s = .next t ∧ t = { s with core := { s.core with sleepmax := (s.c.rx a).setWidth 32 } }) ∧
    (∃ t, exec (.srd d 0x00C) s = .next t ∧ WritesX s t d
      (BitVec.ofNat 64 (s.core.tlimit.toNat + s.core.tinterval.toNat * 2 ^ 24 + s.deferring.toNat * 2 ^ 48))) ∧
    (s.c.sys = true → ∃ t, exec (.swr a 0x00C) s = .next t ∧ t = { s with core := { s.core with
      tlimit := BitVec.ofNat 24 (min (fld (s.c.rx a).toNat 0 24) s.retentionBound), tinterval := fbv 24 24 (s.c.rx a).toNat } }) ∧
    (∀ (u : Nat) (h : u < 4),
      (∃ t, exec (.srd d (BitVec.ofNat 12 (0x40 + 12 * u))) s = .next t ∧ WritesX s t d s.core.mon[u].ctl) ∧
      (∃ t, exec (.srd d (BitVec.ofNat 12 (0x41 + 12 * u))) s = .next t ∧ WritesX s t d s.core.mon[u].min) ∧
      (∃ t, exec (.srd d (BitVec.ofNat 12 (0x42 + 12 * u))) s = .next t ∧ WritesX s t d s.core.mon[u].max) ∧
      (∃ t, exec (.srd d (BitVec.ofNat 12 (0x43 + 12 * u))) s = .next t ∧ WritesX s t d s.core.mon[u].n) ∧
      (∀ (j : Nat) (hj : j < 8), ∃ t, exec (.srd d (BitVec.ofNat 12 (0x44 + 12 * u + j))) s = .next t ∧ WritesX s t d
        (BitVec.ofNat 64 (s.core.mon[u].bins[2 * j].toNat + s.core.mon[u].bins[2 * j + 1].toNat * 2 ^ 32))) ∧
      (s.c.sys = true → fld (s.c.rx a).toNat 0 5 < 11 → ∃ t, exec (.swr a (BitVec.ofNat 12 (0x40 + 12 * u))) s = .next t ∧
        t = { s with core := { s.core with mon := s.core.mon.set u { s.core.mon[u] with
          ctl := (s.c.rx a &&& 0x0000FFFFFFFF0F1F) ||| (s.core.mon[u].ctl &&& ~~~0x0000FFFFFFFF0F1F) } h } }) ∧
      (s.c.sys = true → 11 ≤ fld (s.c.rx a).toNat 0 5 → ∃ t, exec (.swr a (BitVec.ofNat 12 (0x40 + 12 * u))) s = .next t ∧
        Faults s t 0x01 (BitVec.ofNat 64 (s.lat.slot.toNat + s.lat.word.toNat * 2 ^ 32)))) ∧
    (∀ (n : Nat) (h : n < 16),
      (∃ t, exec (.srd d (BitVec.ofNat 12 (0x70 + n))) s = .next t ∧ WritesX s t d s.core.stalls[n]) ∧
      (s.c.sys = true → ∃ t, exec (.swr a (BitVec.ofNat 12 (0x70 + n))) s = .next t ∧
        t = { s with core := { s.core with stalls := s.core.stalls.set n (s.c.rx a) h } }))

/-- 12 R372, R379: taking a trap; and `trap`, which leaves trap 0x19 for the boundary after its bundle, behind a trap of an older
bundle. -/
def Obligations.TrapsAreTakenAndRaised : Prop :=
  (∀ (s : State) (r : TrapRec), s.q.trap = some r → r.absent = none →
     ∃ t, exec .trapEntry s = .next t ∧ Enters s t (window s.c s.q) r ∧ SameBytes { s with outs := dropBobWait s.outs s.q.wait } t) ∧
  (∀ (s : State) (i : BitVec 16),
     (s.q.trap.isSome = true → exec (.trap i) s = .next { s with lat := { s.lat with res := .trap } }) ∧
     (s.q.trap = none → s.q.slotsEmpty (s.lat.seq + 1) = false → ∃ t, exec (.trap i) s = .next t ∧ Waits s t) ∧
     (s.q.trap = none → s.q.slotsEmpty (s.lat.seq + 1) = true → ∃ t, exec (.trap i) s = .next t ∧ OnlySequencer s t ∧
       t.q = { s.q with trap := some { code := 0x19, info := i.setWidth 64, slot := 0, iss := false, evt := false, now := false, seq := s.lat.seq } }))

/-- 08 R232: an access to an absent page records what trap entry records, posts its record and gives the core to the other
bank; the handler is not entered. -/
def Obligations.AbsentPageSwitchesBanks : Prop :=
  ∀ (s : State) (r : TrapRec) (g : DWord), s.q.trap = some r → r.absent = some g →
    ∃ t, exec .trapEntry s = .next t ∧ t.core.bank = (!s.core.bank) ∧ t.oq.state = .translation ∧
      t.oc.epc = (window s.c s.q).1 ∧ t.oc.slip = (window s.c s.q).2.1 ∧ t.oc.enpc = (window s.c s.q).2.2.1 ∧
      t.oc.repc = (window s.c s.q).2.2.2 ∧ fld t.oc.cause.toNat 0 8 = r.code.toNat ∧ t.oc.cause.getLsbD 8 = s.c.sys ∧
      t.oc.einfo = r.info ∧ t.oc.sys = s.c.sys ∧ t.oc.pc = s.c.pc ∧ t.c = { s.oc with latch := Vector.replicate 3 none } ∧
      t.q.state = s.oq.state ∧ s.coreAfter 8 ≤ t.q.issueFrom

/-- 12 R380, 02 R58: `rte` at system level, once slots V and M hold nothing of its own or an earlier bundle. -/
def Obligations.ReturnFromTrap : Prop :=
  ∀ s : State, s.c.sys = true →
    (s.q.slotsEmpty (s.lat.seq + 1) = false → ∃ t, exec .rte s = .next t ∧ Waits s t) ∧
    (s.q.slotsEmpty (s.lat.seq + 1) = true → ∃ t, exec .rte s = .next t ∧
      let n := s.c.slip.toNat / 2 ^ 36 % 16
      t.c = { s.c with sys := s.c.cause.getLsbD 8, latch := Vector.replicate 3 none, pc := if n = 0 then s.c.epc else s.c.enpc } ∧
      t.q = { s.q with
        replay := (List.range n).map fun j => (s.c.epc + BitVec.ofNat 64 (16 * j), BitVec.ofNat 4 (s.c.slip.toNat / 2 ^ (4 * j) % 16))
        repLeft := s.c.repc.toNat % 2 ^ 10, repCur := none, rteCheck := true, olfHeld := false, issueFrom := s.coreAfter 6, issueWhy := 16 } ∧
      t = { s with c := t.c, q := t.q, core := { s.core with planes := [], planesLost := s.now } } ∧ SameBytes s t)

/-- 12 R381: `halt` waits, posts its record and holds the bead until the host resumes it. -/
def Obligations.HaltWaitsForTheHost : Prop :=
  ∀ s : State, s.c.sys = true →
    (s.q.wait = .none → WaitOver s 0 0 0 0 → ∃ t, exec .halt s = .next t ∧ SameBytes s t ∧
      t = { s with
        q := { s.q with wait := .halted, eligible := false }
        outs := s.outs ++ [{ id := s.nextId, bank := s.core.bank, seq := s.lat.seq, path := .x, ctr := .none, issued := s.now
                             due := s.now + 32, promise := none, work := .notice 15 0 s.c.bead 0 0 }]
        nextId := s.nextId + 1, lat := { s.lat with res := .stall } }) ∧
    (s.q.wait = .none → ¬WaitOver s 0 0 0 0 → ∃ t, exec .halt s = .next t ∧ Waits s t) ∧
    (s.q.wait = .halted → s.q.eligible = false → ∃ t, exec .halt s = .next t ∧ Waits s t) ∧
    (s.q.wait = .halted → s.q.eligible = true →
      ∃ t, exec .halt s = .next t ∧ t = { s with q := { s.q with wait := .none, eligible := false } }) ∧
    (s.q.wait = .halted → ∃ t, exec .resume s = .next t ∧ t = { s with q := { s.q with eligible := true }, undo := t.undo } ∧
      t.undo = s.undo.map fun u => if u.bank == s.core.bank && u.q.wait == .halted then { u with q := { u.q with eligible := true } } else u) ∧
    (s.q.wait ≠ .halted → exec .resume s = .next s)

/-- 12 R409: `scan` answers busy, starts, and writes its results at the end of its self-test. -/
def Obligations.ScanStartsAndReports : Prop :=
  ∀ (s : State) (d e : BitVec 5), s.c.sys = true →
    (s.q.wait = .none → s.oq.state ≠ .empty →
      ∃ u t, exec (.scan d e) s = .next t ∧ WritesX s u d 3 ∧ WritesX u t e 0) ∧
    (s.q.wait = .none → s.oq.state = .empty → WaitOver s 0 0 0 0 →
      ∃ t, exec (.scan d e) s = .next t ∧ t.q = { s.q with wait := .scan s.now, eligible := false } ∧ t.lat.res = .stall ∧ t.c = s.c ∧
        (∀ a, crownThrough s.lat.iss.cbmap s.core.phys (s.c.lastStrip + 0x68000) ≤ a →
          a < crownThrough s.lat.iss.cbmap s.core.phys (s.c.lastStrip + 0x68000) + 0x10000 → t.mem.byte a = Config.freeByte s.fresh a)) ∧
    (∀ since o, s.q.wait = .scan since → s.q.eligible = false → s.q.ops = [o] → o.instr = .scan d e → d ≠ e →
      ∃ t, exec .selfTestEnd s = .next t ∧ t.q.eligible = true ∧ t.q.wait = .scan since ∧
        t.c.rx e = (if e = 0 then 0 else Config.scanSignature s.core.phys s.fresh) ∧
        ((Config.imageSignature s.hub.boot.config s.core.phys).isSome = true → d ≠ 0 →
          (t.c.rx d).toNat % 2 ^ 8 =
            (if Config.imageSignature s.hub.boot.config s.core.phys = some (Config.scanSignature s.core.phys s.fresh) then 0 else 1)) ∧
        (Config.imageSignature s.hub.boot.config s.core.phys = none → d ≠ 0 → (t.c.rx d).toNat % 2 ^ 8 = 5)) ∧
    (∀ since, s.q.wait = .scan since → since ≤ s.now → s.q.eligible = true →
      exec (.scan d e) s = .next { s with q := { s.q with wait := .none, eligible := false } })

/-- 12 R411, R384: `cmap` sends when its strike hold is over; the status that is then on its way, for each operand: one that leaves the map as
it is, the restoration of a core, the removal of the issuing core, which is pending, and the removal of another; and x(d) when the answer comes. -/
def Obligations.CoreMapAnswersItsStatus : Prop :=
  ∀ (s : State) (d a b : BitVec 5), s.c.sys = true →
    let p := (s.lat.iss.rx a).toNat
    let k := (s.lat.iss.rx b).toNat
    let r := unsent s
    HeldBack s (.cmap d a b) ∧
    (∀ w n, s.q.answered = some (w, n) → n ≤ s.now → ∃ t, exec (.cmap d a b) s = .next t ∧ WritesX (AnswerTaken s) t d w) ∧
    (SendsNow s →
      (512 ≤ p ∨ 2 ≤ k → ∃ t, exec (.cmap d a b) s = .next t ∧ Answered s r t 4 167) ∧
      (p < 512 → k = 1 → (s.hub.logicalOf p).isSome = true → ∃ t, exec (.cmap d a b) s = .next t ∧ Answered s r t 3 167) ∧
      (p < 512 → k = 0 → s.hub.logicalOf p = none → ∃ t, exec (.cmap d a b) s = .next t ∧ Answered s r t 3 167) ∧
      (p < 512 → k = 1 → s.hub.logicalOf p = none → ∃ u t, exec (.cmap d a b) s = .next t ∧ Answered s u t 0 167 ∧
        t.hub.map = s.hub.map ++ [p] ∧
        u = (({ r with hub := { s.hub with map := s.hub.map ++ [p] } } : State).renumbered).post 10 0 p 0 (BitVec.ofNat 64 p) 0) ∧
      (∀ l, p < 512 → k = 0 → s.hub.logicalOf p = some l →
        (r.removalBusy l = true → ∃ t, exec (.cmap d a b) s = .next t ∧ Answered s r t 2 167) ∧
        (r.removalBusy l = false → p = s.core.phys →
          ∃ t, exec (.cmap d a b) s = .next t ∧ Answered s { r with core := { s.core with removal := true } } t 1 167) ∧
        (r.removalBusy l = false → p ≠ s.core.phys → ∃ t, exec (.cmap d a b) s = .next t ∧ Answered s (r.doRemove l) t 0 167 ∧
          t.hub.map.length + 1 = s.hub.map.length)))

/-- 12 R393: `pmon` acts on the units of its mask. -/
def Obligations.MonitorsStartStopAndClear : Prop :=
  ∀ (s : State) (m : BitVec 4),
    (∃ t, exec (.pmonStart m) s = .next t ∧ OnlyMonitors s t ∧ ∀ i (h : i < 4), t.core.mon[i] =
      if m.getLsbD i then { s.core.mon[i] with ctl := s.core.mon[i].ctl ||| 32, live := s.core.mon[i].ctl } else s.core.mon[i]) ∧
    (∃ t, exec (.pmonStop m) s = .next t ∧ OnlyMonitors s t ∧ ∀ i (h : i < 4), t.core.mon[i] =
      if m.getLsbD i then { s.core.mon[i] with ctl := s.core.mon[i].ctl &&& ~~~32 } else s.core.mon[i]) ∧
    (∃ t, exec (.pmonClr m) s = .next t ∧ OnlyMonitors s t ∧ ∀ i (h : i < 4), t.core.mon[i] =
      if m.getLsbD i then { ctl := s.core.mon[i].ctl, live := s.core.mon[i].live } else s.core.mon[i]) ∧
    (∃ t, exec (.pmonClrstart m) s = .next t ∧ OnlyMonitors s t ∧ ∀ i (h : i < 4), t.core.mon[i] =
      if m.getLsbD i then { ctl := s.core.mon[i].ctl ||| 32, live := s.core.mon[i].ctl } else s.core.mon[i])

/-- 12 R413: kinds 0 to 3 of `diag.inj`, where every earlier access to the granule has performed, and the strike of kind 4: each is final, and
a repeat after a discard does nothing. -/
def Obligations.InjectedFaults : Prop :=
  ∀ (s : State) (a b : BitVec 5) (n : Nat), s.c.sys = true → (s.c.rx b).toNat = n → n < 64 →
    let final (t : State) : State := { t with core := { t.core with struck := (s.core.bank, s.lat.seq) :: s.core.struck } }
    ((s.core.bank, s.lat.seq) ∈ s.core.struck →
      ∀ i ∈ [Instr.diagInjFlip a b, .diagInjCerr a b, .diagInjPoison a b, .diagInjTpoison a b, .diagInjStrike a b], exec i s = .next s) ∧
    ((s.core.bank, s.lat.seq) ∉ s.core.struck →
    (∀ g, (s.c.rx a).toNat % 8 = 0 → (s.c.rx a).toNat < s.c.strips * 2 ^ 19 →
      g = crownThrough s.lat.iss.cbmap s.core.phys (s.c.rx a).toNat → s.rangeQuiet s.core.bank s.lat.seq g 8 = true →
      (s.mem.wrong = [] → s.mem.wf = true → ∃ t, exec (.diagInjFlip a b) s = .next t ∧ t = { final (s.hold 6) with mem := t.mem } ∧
        t.mem.wrong = [] ∧ t.mem.poison = setDel s.mem.poison g ∧
        (∀ x, x ≠ g + n / 8 → t.mem.byte x = s.mem.byte x) ∧
        (∀ k < 8, (t.mem.byte (g + n / 8)).getLsbD k = ((s.mem.byte (g + n / 8)).getLsbD k != (k == n % 8)))) ∧
      (∃ t, exec (.diagInjCerr a b) s = .next t ∧ t = { final (s.hold 6) with mem := { s.mem with wrong := t.mem.wrong } } ∧
        ∀ x, (x ∈ t.mem.wrong ↔ (x ≠ 8 * g + n ∧ x ∈ s.mem.wrong) ∨ (x = 8 * g + n ∧ x ∉ s.mem.wrong))) ∧
      (∃ t, exec (.diagInjPoison a b) s = .next t ∧ t = { final (s.hold 6) with mem := { s.mem with poison := t.mem.poison } } ∧
        ∀ x, (x ∈ t.mem.poison ↔ x = g ∨ x ∈ s.mem.poison))) ∧
    (∀ g, (s.c.rx a).toNat % 32 = 0 → (s.c.rx a).toNat < 2 ^ 27 →
      g = s.towerAt ((s.c.rx a).toNat / 2 ^ 23) ((s.c.rx a).toNat % 2 ^ 23) → s.rangeQuiet s.core.bank s.lat.seq g 32 = true →
      ∃ t, exec (.diagInjTpoison a b) s = .next t ∧ t = { final (s.hold 6) with mem := { s.mem with poison := t.mem.poison } } ∧
        ∀ x, (x ∈ t.mem.poison ↔ x = g ∨ x ∈ s.mem.poison)) ∧
    ((∀ o ∈ s.q.vq ++ s.q.mq, o.seq ≠ s.lat.seq) → ∃ t, exec (.diagInjStrike a b) s = .next t ∧
      t = { final s with agenda := (s.now + 1, .strikeReport,
        .region (BitVec.ofNat 3 s.board) (BitVec.ofNat 4 (regionOfCore s.core.phys))) :: s.agenda }))

/-- 10 R320, R313, R315. -/
def Obligations.WaitFenceAndDrain : Prop :=
  ∀ (s : State) (l t c m a b : BitVec 6) (sc : BitVec 3) (k : BitVec 2),
    (WaitOver s l.toNat t.toNat c.toNat m.toNat → exec (.wait l t c m) s = .next s) ∧
    (¬WaitOver s l.toNat t.toNat c.toNat m.toNat → ∃ u, exec (.wait l t c m) s = .next u ∧ Waits s u) ∧
    (a ≠ 0 → b ≠ 0 → a.getLsbD 4 = false → b.getLsbD 4 = false →
      exec (.fence a b) s = .next { s with q := { s.q with fences := s.q.fences ++ [(a, b, s.lat.seq)] } }) ∧
    (a = 0 ∨ b = 0 ∨ a.getLsbD 4 = true ∨ b.getLsbD 4 = true → ∃ u, exec (.fence a b) s = .next u ∧ Refused s u 0x01) ∧
    (5 ≤ sc.toNat → ∃ u, exec (.drain sc k) s = .next u ∧ Refused s u 0x01) ∧
    (sc.toNat < 5 → s.q.slotsEmpty s.lat.seq = true →
      (k ≠ 2 → s.performed s.lat.seq sc.toNat (k == 1) = true →
        exec (.drain sc k) s = .next (if k = 0 then s else { s with core := { s.core with scache := [] } })) ∧
      (k ≠ 2 → s.performed s.lat.seq sc.toNat (k == 1) = false → ∃ u, exec (.drain sc k) s = .next u ∧ Waits s u) ∧
      (k = 2 → s.q.relHold = none →
        exec (.drain sc k) s = .next { s with q := { s.q with relHold := some (sc, s.lat.seq) } }) ∧
      (∀ x y, k = 2 → s.q.relHold = some (x, y) →
        exec (.drain sc k) s = .next { s with q := { s.q with relHold := some (if x.toNat ≤ sc.toNat then sc else x, s.lat.seq) } }))

/-- 11 R364, R366, R367, 12 R384: what `spawn`, `join` and `leave` do when their strike hold is over, and what they end with. `spawn`
appends its record and answers the old tail; a `join` that finds its clasp takes the lowest free rank, and with SYNC suspends as a member of its gang;
`leave` gives the rank up. -/
def Obligations.SpawnJoinAndLeave : Prop :=
  (∀ (s : State) (d a b c : BitVec 5) (n tail : Nat) (r : Rec), 1 ≤ c.toNat → c.toNat ≤ 27 → s.c.segOpen = false →
     (wSys (s.lat.iss.rx a) = true → s.c.sys = true) → (s.lat.iss.rx b).toNat % 16 = 0 →
     s.q.slotsEmpty s.lat.seq = true → s.performed s.lat.seq 3 false = true →
     n = (s.lat.iss.rx a).toNat % 2 ^ 16 → tail = s.strandTail n →
     r = mkRec 0 (s.lat.iss.rx b) (putField (s.lat.iss.rx a) 45 10 0) (s.lat.iss.rx c)
       [s.lat.iss.rx (c + 1), s.lat.iss.rx (c + 2), s.lat.iss.rx (c + 3), s.lat.iss.rx (c + 4)] 0 →
     HeldBack s (.spawn d a b c) ∧
     (∀ w m, s.q.answered = some (w, m) → m ≤ s.now → ∃ t, exec (.spawn d a b c) s = .next t ∧ WritesX (AnswerTaken s) t d w) ∧
     (SendsNow s → s.lcap n = 0 → ∃ t, exec (.spawn d a b c) s = .next t ∧ Faults (unsent s) t 0x17 (BitVec.ofNat 64 (1 + n * 2 ^ 16))) ∧
     (SendsNow s → s.lcap n ≠ 0 → s.hub.recOk r false = false →
       ∃ t, exec (.spawn d a b c) s = .next t ∧ Faults (unsent s) t 0x17 (BitVec.ofNat 64 (2 + n * 2 ^ 16))) ∧
     (SendsNow s → s.lcap n ≠ 0 → s.hub.recOk r false = true →
       ((tail + 2 ^ 32 - s.strandHead n) % 2 ^ 32 < 2 ^ s.lcap n → ∃ t, exec (.spawn d a b c) s = .next t ∧
         Answered s ((unsent s).enqueue n (natBytes 64 r.toNat)).noteReady t (BitVec.ofNat 64 tail) 147) ∧
       (2 ^ s.lcap n ≤ (tail + 2 ^ 32 - s.strandHead n) % 2 ^ 32 →
         ∃ t, exec (.spawn d a b c) s = .next t ∧ Faults (unsent s) t 0x17 (BitVec.ofNat 64 (n * 2 ^ 16))))) ∧
  (∀ (s : State) (d a b : BitVec 5) (n : BitVec 20) (size : Nat) (sync : Bool), s.c.segOpen = false →
     (s.lat.iss.rx a).toNat % 2 ^ 20 = n.toNat → (s.lat.iss.rx b).toNat = size + (if sync then 2 ^ 16 else 0) → size < 2 ^ 10 →
     (s.q.answered = none → s.c.claspNo ≠ 0 → ∃ t, exec (.join d a b) s = .next t ∧ Faults s t 0x18 (BitVec.ofNat 64 (1 + n.toNat * 2 ^ 32))) ∧
     (s.q.answered = none → s.c.claspNo = 0 → n = 0 ∨ size = 0 →
       ∃ t, exec (.join d a b) s = .next t ∧ Faults s t 0x18 (BitVec.ofNat 64 (n.toNat * 2 ^ 32))) ∧
     (∀ e, s.c.claspNo = 0 → n ≠ 0 → size ≠ 0 → s.hub.clasp n = some e →
       (s.q.answered = none → e.size ≠ size ∨ e.sync ≠ sync →
         ∃ t, exec (.join d a b) s = .next t ∧ Faults s t 0x18 (BitVec.ofNat 64 (2 + n.toNat * 2 ^ 32))) ∧
       (s.q.answered = none → e.size = size → e.sync = sync → e.size ≤ e.ranks.length →
         ∃ t, exec (.join d a b) s = .next t ∧ Faults s t 0x18 (BitVec.ofNat 64 (3 + n.toNat * 2 ^ 32))) ∧
       (e.size = size → e.sync = sync → e.ranks.length < e.size → HeldBack s (.join d a b) ∧
         (SendsNow s → s.outs.all (fun o => !o.contributes n) = true → ∃ u t, exec (.join d a b) s = .next t ∧
           u = ({ unsent s with hub := s.hub.setClasp { e with ranks := setAdd e.ranks e.freeRank } } : State).settleBank s.core.bank
             (·.inClasp n.toNat e.freeRank) id ∧
           Answered s u t (BitVec.ofNat 64 e.freeRank) (if sync then 0 else 26) ∧ t.c = { s.c with bead := t.c.bead } ∧
           t.c.claspNo = n ∧ t.c.rank = e.freeRank % 2 ^ 10))) ∧
     (∀ w m, s.q.answered = some (w, m) → m ≤ s.now →
       (sync = false → ∃ t, exec (.join d a b) s = .next t ∧ WritesX (AnswerTaken s) t d w) ∧
       (sync = true → s.q.wait = .none → Idle s → s.hub.beads.length < s.hub.waitSize → ∃ u t, exec (.join d a b) s = .next t ∧
         WritesX s u d w ∧ t = { u with q := { u.q with wait := .record (some (s.coreAfter 40)) }, lat := { s.lat with res := .stall } }) ∧
       (sync = true → Suspended s → s.hub.beads.length < s.hub.waitSize → ∃ u t, exec (.join d a b) s = .next t ∧ WritesX s u d w ∧
         Leaves u t { record := suspendRecord u 1 0, strand := s.c.strand, index := s.c.index, ready := some s.now
                      strips := if s.c.pinned then s.c.cbmap else 0, saved := none, gang := true }))) ∧
  (∀ s : State, s.c.segOpen = false →
     HeldBack s .leave ∧ (∀ w m, s.q.answered = some (w, m) → m ≤ s.now → exec .leave s = .next (AnswerTaken s)) ∧
     (SendsNow s → s.c.claspNo = 0 → ∃ t, exec .leave s = .next t ∧ Answered s (unsent s) t 0 26) ∧
     (SendsNow s → s.c.claspNo ≠ 0 → ∃ t, exec .leave s = .next t ∧ Answered s (unsent s).leaveClasp t 0 26 ∧
       t.c = { s.c with bead := t.c.bead } ∧ t.c.claspNo = 0 ∧ t.c.rank = 0))

/-- 11 R346, R365: a suspension with nothing left in its slots and engines takes 40 core cycles; then it writes its record and frees its
bank; `retire` counts instead. -/
def Obligations.SuspensionWritesTheRecord : Prop :=
  (∀ (s : State) (a : BitVec 5) (k : BitVec 1), s.c.segOpen = false → Idle s → s.q.wait = .none → s.hub.beads.length < s.hub.waitSize →
    ∀ i ∈ [Instr.suspend a k, .yield, .retire],
      exec i s = .next { s with q := { s.q with wait := .record (some (s.coreAfter 40)) }, lat := { s.lat with res := .stall } }) ∧
  (∀ (s : State) (a : BitVec 5) (k : BitVec 1) (p : BitVec 4), Suspended s →
    (s.hub.beads.length < s.hub.waitSize →
      let b (st : Nat) (wake : DWord) : Bead :=
        { record := suspendRecord s st wake, strand := s.c.strand, index := s.c.index
          ready := if st = 1 ∨ (st = 2 ∧ wake.toNat ≤ s.now) then some s.now else none
          strips := if s.c.pinned then s.c.cbmap else 0, saved := none, gang := false }
      (∃ t, exec (.suspend a k) s = .next t ∧ Leaves s t (b (if k = 1 then 3 else 2) (s.c.rx a))) ∧
      (∃ t, exec .yield s = .next t ∧ Leaves s t (b 1 0)) ∧
      (∃ t, exec (.sleepu p) s = .next t ∧ Leaves s t (b 2 (s.c.ra p)))) ∧
    (s.hub.waitSize ≤ s.hub.beads.length →
      ∀ i ∈ [Instr.suspend a k, .yield, .sleepu p], ∃ t, exec i s = .next t ∧
        Faults { s with q := { s.q with wait := .none, answered := none } } t 0x17 3) ∧
    (s.c.claspNo = 0 → ∃ t, exec .retire s = .next t ∧ t.c = {} ∧ t.q = {} ∧ t.hub.beads.length = s.hub.beads.length ∧
      (s.c.strand, s.c.index) ∉ t.hub.started))

/-- 11 R356, R362: `seg` opens a segment and takes its snapshot; `sege` closes it. -/
def Obligations.SegmentsOpenAndClose : Prop :=
  ∀ (s : State) (a b : BitVec 4) (n : BitVec 2),
    (s.c.segOpen = false → WaitOver s 0 0 0 0 → n ≠ 3 → (n.toNat < 2 → b = 0) → (n = 0 → a = 0) →
      ∃ t, exec (.seg a b n) s = .next t ∧ t.c.segOpen = true ∧ fld t.c.seg.toNat 1 1 = 0 ∧ fld t.c.seg.toNat 2 2 = n.toNat ∧
        fld t.c.seg.toNat 16 9 = 0 ∧ fld t.c.seg.toNat 32 32 = (fld s.c.seg.toNat 32 32 + 1) % 2 ^ 32 ∧
        t.c = { s.c with seg := t.c.seg, windows := t.c.windows } ∧
        t.c.windows = (([(landed s).rh a, (landed s).rh b].take n.toNat).filter fun h => hClass h != 0) ∧
        t.q.snap = some (landed s) ∧ t.q.held = [] ∧ t.q.issueFrom = s.coreAfter 24 + 32) ∧
    (n = 3 ∨ (n.toNat < 2 ∧ b ≠ 0) ∨ (n = 0 ∧ a ≠ 0) → ∃ t, exec (.seg a b n) s = .next t ∧ Refused s t 0x01) ∧
    (s.c.segOpen = false → exec .sege s = .next s) ∧
    (s.c.segOpen = true → s.q.held = [] → s.count .st = 0 →
      ∃ t, exec .sege s = .next t ∧ t.c.segOpen = false ∧ fld t.c.seg.toNat 0 32 = 0 ∧
        fld t.c.seg.toNat 32 32 = fld s.c.seg.toNat 32 32 ∧ t.q.snap = none ∧
        t = { s with c := { s.c with seg := t.c.seg, windows := [] }, q := { s.q with held := [], snap := none } })

/-- 10 R321: `sleepu` waits for its cycle, and makes the late test when it comes. -/
def Obligations.SleepUntil : Prop :=
  ∀ (s : State) (a : BitVec 4),
    let w := (s.c.ra a).toNat
    let late (o : Out) : Bool := o.bank == s.core.bank && (o.promise.map fun p => decide (p ≤ s.now)).getD false
    (s.q.wait = .none → w ≤ s.now → s.outs.any late = false →
      exec (.sleepu a) s = .next { s with q := { s.q with wait := .none, eligible := false } }) ∧
    (s.q.wait = .none → s.now < w → w ≤ s.now + s.core.sleepmax.toNat →
      exec (.sleepu a) s = .next { s with q := { s.q with wait := .sleep w, eligible := false }, lat := { s.lat with res := .stall } }) ∧
    (∀ n, s.q.wait = .sleep n → s.q.eligible = false → ∃ t, exec (.sleepu a) s = .next t ∧ Waits s t) ∧
    (∀ n, s.q.wait = .sleep n → s.q.eligible = true → s.outs.any late = true →
      ∃ t, exec (.sleepu a) s = .next t ∧
        ∃ info, Faults { s with q := { s.q with wait := .none, eligible := false } } t 0x0B info) ∧
    (∀ n, s.q.wait = .sleep n → n ≤ s.now → ∃ t, exec .sleepuWake s = .next t ∧ t.q = { s.q with eligible := true } ∧ t.c = s.c ∧ t.outs = s.outs)

/-- 11 R368: `cbar` without a clasp traps; with one it arrives and waits, and the release writes x(d). -/
def Obligations.ClaspBarrier : Prop :=
  ∀ (s : State) (d : BitVec 5) (c : Clasp),
    (s.hub.clasp s.c.claspNo = none → ∃ t, exec (.cbar d) s = .next t ∧ Faults s t 0x18 (BitVec.ofNat 64 (6 + s.c.claspNo.toNat * 2 ^ 32))) ∧
    (s.hub.clasp s.c.claspNo = some c →
      (∀ r n, s.q.cbarAt = some n → s.q.cbarRel = some r → ∃ u t, exec (.cbar d) s = .next t ∧
        WritesX { s with q := { s.q with cbarAt := none, cbarRel := none, wait := .none }, core := { s.core with scache := [] } } u d
          (BitVec.ofNat 64 r) ∧ t = u.hold 2) ∧
      (∀ ch, s.q.cbarAt = none → s.q.cbarRel = none → s.c.segOpen = false → Idle s → c.channel = some ch →
        ∃ t, exec (.cbar d) s = .next t ∧ t.q = { s.q with cbarAt := some s.now, wait := .barrier s.now } ∧
          t = { s with q := t.q, hub := t.hub, undo := t.undo, lat := { s.lat with res := .stall } } ∧
          t.hub = s.hub.setClasp { c with
            arrived := setAdd c.arrived s.c.rank
            released := if c.ranks.all (setAdd c.arrived s.c.rank).contains then some (s.now + 25) else c.released }) ∧
      (∀ g, s.q.cbarAt = none → s.q.cbarRel = none → s.c.segOpen = false → Idle s → c.channel = none → c.fallback = some g →
        ∃ t, exec (.cbar d) s = .next t ∧ t.q = { s.q with cbarAt := some s.now, wait := .barrier s.now } ∧ t.c = s.c ∧ t.mem = s.mem ∧
          t.hub = s.hub ∧ t.outs = s.outs ++ [{ id := s.nextId, bank := s.core.bank, seq := s.lat.seq, path := .a, ctr := .none, issued := s.now
                                                due := s.coreAfter (s.atomWay g), promise := none
                                                work := .atom { instr := .cbar d, addr := g, s := 0, d := s.c.bead, engine := false, waiting := false
                                                                arrive := s.coreAfter (s.atomWay g), lock := lockTrip (g, 0) } }]) ∧
      (∀ n, s.q.cbarAt = some n → s.q.cbarRel = none →
        exec (.cbar d) s = .next { s with q := { s.q with wait := .barrier n }, lat := { s.lat with res := .stall } }))

/-- 05 R132, R141 to R147, R157, R162: the lane operations with floating-point results, `vclass` and `vnot`. -/
def Obligations.VectorLanesTakeTheirResult : Prop :=
  ∀ (s : State) (d a b : BitVec 6) (w : BitVec 2) (m : BitVec 3) (r : BitVec 2) (e : Ext), VReady s w [d, a, b] →
    let x (l : Nat) := lane (s.c.rv a.toNat) l
    let y (l : Nat) := lane (s.c.rv b.toNat) l
    (∀ row ∈ vectorRows1, LaneOp s (row.1 d a w m r) d [(1, a)] (LaneOn s w m) fun l => row.2 (FloatModes s r) (x l)) ∧
    (∀ row ∈ vectorRows2, LaneOp s (row.1 d a b w m r) d [(1, a), (2, b)] (LaneOn s w m) fun l => row.2 (FloatModes s r) (x l) (y l)) ∧
    (∀ row ∈ vectorRows3,
      (s.lat.ext = none → LaneOp s (row.1 d a b w m r) d [(0, d), (1, a), (2, b)] (LaneOn s w m)
        fun l => row.2 (FloatModes s r) (x l) (y l) (lane (s.c.rv d.toNat) l)) ∧
      (∀ c : BitVec 6, s.lat.ext = some e → e.v.toNat = 8 * c.toNat → VReady s w [c] →
        LaneOp s (row.1 d a b w m r) d [(1, a), (2, b), (0, c)] (LaneOn s w m)
          fun l => row.2 (FloatModes s r) (x l) (y l) (lane (s.c.rv c.toNat) l)))

/-- 05 R158: the integer lane operations and shifts raise no flag. -/
def Obligations.VectorIntegerLanesTakeTheirResult : Prop :=
  ∀ (s : State) (d a b : BitVec 6) (w : BitVec 2) (m : BitVec 3), VReady s w [d, a] →
    let x (l : Nat) : Word := BitVec.ofNat 32 (lane (s.c.rv a.toNat) l)
    (VReady s w [b] → ∀ row ∈ vectorIntegerRows, ∃ t, exec (row.1 d a b w m) s = .next t ∧
      WritesLanes s t d [(1, a), (2, b)] (LaneOn s w m) (fun l => (row.2 (x l) (BitVec.ofNat 32 (lane (s.c.rv b.toNat) l))).toNat) 0) ∧
    (b.toNat < 32 → ∀ row ∈ vectorShiftRows, ∃ t, exec (row.1 d a b w m) s = .next t ∧
      WritesLanes s t d [(1, a)] (LaneOn s w m) (fun l => (row.2 (x l) b.toNat).toNat) 0) ∧
    (32 ≤ b.toNat → ∀ row ∈ vectorShiftRows, ∃ t, exec (row.1 d a b w m) s = .next t ∧ Refused s t 0x01) ∧
    (∃ t, exec (.viadd d a b w m 3) s = .next t ∧ Refused s t 0x01) ∧ (∃ t, exec (.visub d a b w m 3) s = .next t ∧ Refused s t 0x01) ∧
    (∃ t, exec (.vimul d a b w m 3) s = .next t ∧ Refused s t 0x01) ∧ (∃ t, exec (.vimad d a b w m 2) s = .next t ∧ Refused s t 0x01)

/-- 05 R144, R159, R160: compares write bits of a mask register, and the mask operations combine two. -/
def Obligations.VectorComparesWriteMasks : Prop :=
  ∀ (s : State) (d m n : BitVec 3) (a b : BitVec 6) (w c : BitVec 2) (e : BitVec 1), w ≠ 3 →
    (VReady s w [a, b] → ∀ row ∈ vectorCompareRows e c, MaskOp s (row.1 d a b w m) d [(1, a), (2, b)] (LaneOn s w m)
      fun l => row.2 (FloatModes s 0).daz (lane (s.c.rv a.toNat) l) (lane (s.c.rv b.toNat) l)) ∧
    let on (l : Nat) : Bool := decide (l < 32 * 2 ^ w.toNat)
    let p (l : Nat) := (s.c.rvm m).getLsbD l
    let q (l : Nat) := (s.c.rvm n).getLsbD l
    (∃ t, exec (.vmand d m n w) s = .next t ∧ WritesMask s t d [] on (fun l => p l && q l) 0) ∧
    (∃ t, exec (.vmor d m n w) s = .next t ∧ WritesMask s t d [] on (fun l => p l || q l) 0) ∧
    (∃ t, exec (.vmxor d m n w) s = .next t ∧ WritesMask s t d [] on (fun l => xor (p l) (q l)) 0) ∧
    (∃ t, exec (.vmnot d m w) s = .next t ∧ WritesMask s t d [] on (fun l => !p l) 0)

/-- 05 R145, R165 to R167: lanes move unchanged. `vsel` writes every lane below the width; `vperm` reads the pattern entry of
the active bank; `vpsw` exchanges the banks once every earlier `pld` is complete. -/
def Obligations.VectorLanesMove : Prop :=
  ∀ (s : State) (d a b n e : BitVec 6) (w : BitVec 2) (m : BitVec 3) (p : BitVec 1),
    let x (l : Nat) := lane (s.c.rv a.toNat) l
    let y (l : Nat) := lane (s.c.rv b.toNat) l
    let k := n.toNat + 64 * p.toNat
    let entry := if s.c.patActive then s.c.pat1[e.toNat]'e.isLt else s.c.pat0[e.toNat]'e.isLt
    let byte (l : Nat) := entry.toNat / 2 ^ (8 * l) % 2 ^ 8
    (VReady s w [d, a, b] → ∀ i ∈ [Instr.vsel d a b w m, .vselH d a b w m, .vselB d a b w m], ∃ t, exec i s = .next t ∧
      WritesLanes s t d [(1, a), (2, b)] (fun l => decide (l < 32 * 2 ^ w.toNat)) (fun l => if (s.c.rvm m).getLsbD l then x l else y l) 0) ∧
    (VReady s w [d, a] →
      (∃ t, exec (.vrot d a n w m p) s = .next t ∧ WritesLanes s t d [(1, a)] (LaneOn s w m) (fun l => x ((l + k) % (32 * 2 ^ w.toNat))) 0) ∧
      (∃ t, exec (.vbcl d a n w m p) s = .next t ∧ WritesLanes s t d [(1, a)] (LaneOn s w m) (fun _ => x k) 0)) ∧
    (VReady s 0 [d, a, b] → ∃ t, exec (.vperm d a b e) s = .next t ∧
      WritesLanes s t d [(1, a), (2, b)] (fun _ => true) (fun l => if byte l < 128 then x (byte l) else y (byte l - 128)) 0) ∧
    ((∀ o ∈ s.outs, o.bank = s.core.bank → o.seq < s.lat.seq → (∀ f g h u v z, o.work ≠ .load (.pat f g h) u v z) ∧
        ∀ f g u v y z, o.work ≠ .fetch (.pat f g) u v y z) →
      exec .vpsw s = .next { s with c := { s.c with patActive := !s.c.patActive } })

/-- 05 R148 to R156: exact pairs, double words and reductions. -/
def Obligations.VectorPairsAndReductions : Prop :=
  ∀ (s : State) (d a b : BitVec 6) (w : BitVec 2) (m : BitVec 3) (r : BitVec 2), w ≠ 3 →
    let x (l : Nat) := lane (s.c.rv a.toNat) l
    let x2 (l : Nat) := lane (s.c.rv (a.toNat + 1)) l
    let y (l : Nat) := lane (s.c.rv b.toNat) l
    let y2 (l : Nat) := lane (s.c.rv (b.toNat + 1)) l
    let leaves (idle : Nat) := (List.range (32 * 2 ^ w.toNat)).map fun l => if (s.c.rvm m).getLsbD l then x l else idle
    let daz := (FloatModes s r).daz
    (PairReady s d → VReady s w [a, b] → ∀ row ∈ pairRows, (row.2.1 = true → PairReady s a ∧ PairReady s b) →
      PairOp s (row.1 d a b w m r) d [(1, a), (2, b)] (LaneOn s w m) fun l => row.2.2 r.toNat (x l) (x2 l) (y l) (y2 l)) ∧
    (PairReady s d → PairReady s a → PairOp s (.dwnorm d a w m r) d [(1, a)] (LaneOn s w m) fun l => dwNorm r.toNat (x l) (x2 l)) ∧
    (PairReady s d → VReady s w [a] →
      PairOp s (.vsumx d a w m r) d [(1, a)] (· == 0) fun _ => sumx r.toNat (5 + w.toNat) (leaves 0)) ∧
    (VReady s w [d, a] →
      LaneOp s (.vsum d a w m r) d [(1, a)] (· == 0) (fun _ =>
        flagTree (fpAdd fp32 { FloatModes s r with daz := false }) (5 + w.toNat) ((leaves 0).map (fp32.input daz))) ∧
      LaneOp s (.vmaxr d a w m) d [(1, a)] (· == 0) (fun _ =>
        flagTree (fpMinMax fp32 false true) (5 + w.toNat) ((leaves 0xFF800000).map (fp32.input daz))) ∧
      LaneOp s (.vminr d a w m) d [(1, a)] (· == 0) (fun _ =>
        flagTree (fpMinMax fp32 false false) (5 + w.toNat) ((leaves 0x7F800000).map (fp32.input daz))))

/-- 05 R161: pack and unpack under a format register. -/
def Obligations.VectorConversions : Prop :=
  ∀ (s : State) (d a : BitVec 6) (n : BitVec 4) (w : BitVec 2) (m : BitVec 3) (r : BitVec 2) (cf : DWord) (k : Kind) (z : Nat),
    VReady s w [d, a] → cf = s.lat.iss.cfOf n.toNat → k = kindOf (cfFmt cf) (cfInf cf) → z = fmtBits (cfFmt cf) →
    (k = .raw → ∀ i ∈ [Instr.vcvtPack d a n w m r, .vcvtUnpack d a n w m r],
      ∃ t, exec i s = .next t ∧ Faults s t 0x01 (BitVec.ofNat 64 (s.lat.slot.toNat + s.lat.word.toNat * 2 ^ 32))) ∧
    (k ≠ .raw →
      LaneOp s (.vcvtUnpack d a n w m r) d [(1, a)] (LaneOn s w m) (fun l =>
        let v := k.decode (s.cvtScale k cf l) ((s.c.rv a.toNat).toNat / 2 ^ (z * l) % 2 ^ z)
        ((rnd32 r.toNat v).1, (rnd32 r.toNat v).2 ||| snanFlag [v])) ∧
      ∀ code : Nat → Nat × Fl,
        (∀ l, LaneOn s w m l = true → packed k (s.cvtScale k cf l) r.toNat (lane (s.c.rv a.toNat) l) = some (code l)) →
        LaneTraps s (.vcvtPack d a n w m r) (LaneOn s w m) (fun l => (code l).2) ∧
        (Enabled s (orOver (LaneOn s w m) fun l => (code l).2) = false → ∃ t, exec (.vcvtPack d a n w m r) s = .next t ∧
          (∀ l < 128, (t.c.rv d.toNat).toNat / 2 ^ (z * l) % 2 ^ z =
            if LaneOn s w m l then (code l).1 % 2 ^ z else (s.c.rv d.toNat).toNat / 2 ^ (z * l) % 2 ^ z) ∧
          (t.c.rv d.toNat).toNat / 2 ^ (128 * z) = (s.c.rv d.toNat).toNat / 2 ^ (128 * z) ∧
          (∀ v < 48, v ≠ d.toNat → t.c.rv v = s.c.rv v) ∧
          t.c.fpsr = s.c.fpsr ||| BitVec.ofNat 64 (orOver (LaneOn s w m) (fun l => (code l).2) % 128) ∧
          t.mem = s.mem ∧ t = { s with c := { s.c with v := t.c.v, latch := latched s [(1, a)], fpsr := t.c.fpsr },
                                       q := { s.q with shadows := overwrite s.q.shadows s.lat.seq (.v d) } }))

/-- 08 R243, R244: arithmetic on address registers. -/
def Obligations.AddressArithmetic : Prop :=
  ∀ (s : State) (d a b : BitVec 4) (i : BitVec 16) (n : BitVec 6) (j : BitVec 21),
    (∃ t, exec (.adda d a b) s = .next t ∧ WritesA s t d (s.c.ra a + s.c.ra b)) ∧
    (∃ t, exec (.suba d a b) s = .next t ∧ WritesA s t d (s.c.ra a - s.c.ra b)) ∧
    (∃ t, exec (.shla d a b) s = .next t ∧ WritesA s t d (s.c.ra a <<< (s.c.ra b &&& 63))) ∧
    (∃ t, exec (.shlaImmediate d a n) s = .next t ∧ WritesA s t d (s.c.ra a <<< n)) ∧
    (s.lat.ext = none →
      (∃ t, exec (.addaImmediate d a i) s = .next t ∧ WritesA s t d (s.c.ra a + i.signExtend 64)) ∧
      (∃ t, exec (.subaImmediate d a i) s = .next t ∧ WritesA s t d (s.c.ra a - i.signExtend 64)) ∧
      (∃ t, exec (.lia d j) s = .next t ∧ WritesA s t d (j.signExtend 64))) ∧
    (∀ e, s.lat.ext = some e →
      (∃ t, exec (.addaImmediate d a i) s = .next t ∧ WritesA s t d (s.c.ra a + (e.t ++ i).signExtend 64)) ∧
      (∃ t, exec (.subaImmediate d a i) s = .next t ∧ WritesA s t d (s.c.ra a - (e.t ++ i).signExtend 64)) ∧
      (∃ t, exec (.lia d j) s = .next t ∧ WritesA s t d ((e.t ++ j).signExtend 64)))

/-- 08 R245, R246: `hder` derives a narrower handle or reports why not; `hnul` clears one. -/
def Obligations.HandlesAreDerived : Prop :=
  ∀ (s : State) (d h o l : BitVec 4) (k : BitVec 5),
    let H := s.c.rh h
    let O := s.c.ra o
    let L := s.c.ra l
    let bad (code : BitVec 8) (reason : Nat) : Prop := ∃ t, exec (.hder d h o l k) s = .next t ∧ Faults s t code (accessWord reason h o O.toInt)
    let good (v : QWord) : Prop := ∃ t, exec (.hder d h o l k) s = .next t ∧ WritesH s t d v ∧ hClass v = hClass H ∧ hObj v = hObj H ∧
      hLen v = L.toNat ∧ hRd v = (hRd H && k.getLsbD 4) ∧ hWr v = (hWr H && k.getLsbD 3) ∧ hAt v = (hAt H && k.getLsbD 2) ∧
      hDv v = (hDv H && k.getLsbD 1) ∧ hCo v = (hCo H && k.getLsbD 0)
    (∃ t, exec (.hnul d) s = .next t ∧ WritesH s t d 0) ∧
    (if hClass H = 0 then bad 0x05 0
     else if 5 ≤ hClass H then bad 0x08 0
     else if hDv H = false then bad 0x07 0
     else if hClass H = 1 then
       if hLen H < O.toNat % 2 ^ 23 + L.toNat then bad 0x06 1
       else ∃ v, good v ∧ hBase v % 2 ^ 23 = (hBase H % 2 ^ 23 + O.toNat % 2 ^ 23) % 2 ^ 23 ∧
         hBase v / 2 ^ 23 = (hBase H / 2 ^ 23 % 2 ^ 16 &&& O.toNat / 2 ^ 23 % 2 ^ 16)
     else if hLen H < O.toNat + L.toNat then bad 0x06 1
     else ∃ v, good v ∧ hBase v = (hBase H + O.toNat) % 2 ^ 48)

/-- 08 R227, R228: the checks of an access to crown and of one to global memory come in their order, and the first that fails
is reported. -/
def Obligations.AccessChecksComeInOrder : Prop :=
  ∀ (s : State) (x : BitVec 5) (h a : BitVec 4) (z : BitVec 2) (i : BitVec 9) (j : BitVec 10) (right : QWord → Bool) (I J : Instr),
    (right, I, J) ∈ [(hRd, Instr.cld x h a z i, Instr.ld x h a z j), (hRd, Instr.cld x h a z i, Instr.ldn x h a z j),
                     (hWr, Instr.cst x h a z i, Instr.st x h a z j)] →
    let H := s.c.rh h
    let n := 2 ^ z.toNat
    let o := offsetOf s a n i
    let p := offsetOf s a n j
    let crown (code : BitVec 8) (reason : Nat) (u : Int) : Prop := ∃ t, exec I s = .next t ∧ Faults s t code (accessWord reason h a u)
    let global (code : BitVec 8) (reason : Nat) (u : Int) : Prop := ∃ t, exec J s = .next t ∧ Faults s t code (accessWord reason h a u)
    let g (e : Nat) := oBase e + ((hBase H : Int) + p).toNat
    (hClass H = 0 → crown 0x05 0 o ∧ global 0x05 0 p) ∧
    (hClass H ≠ 0 → hClass H ≠ 2 → crown 0x08 0 o) ∧ (hClass H ≠ 0 → hClass H ≠ 3 → hClass H ≠ 4 → global 0x08 0 p) ∧
    (hClass H = 2 → hObj H ≠ s.logical → crown 0x08 1 o) ∧
    (hClass H = 2 → hObj H = s.logical →
      if right H = false then crown 0x07 0 o
      else if ((hBase H : Int) + o) % n ≠ 0 then crown 0x04 0 o
      else if (2 ^ 23 : Int) < hBase H + o + n then crown 0x06 2 o
      else if o < 0 ∨ (hLen H : Int) < o + n then crown 0x06 1 (firstOutside H o)
      else s.crownCheck h o n n right = .ok ((hBase H : Int) + o).toNat) ∧
    (hClass H = 3 ∨ hClass H = 4 →
      if right H = false then global 0x07 0 p
      else if ((hBase H : Int) + p) % n ≠ 0 then global 0x04 0 p
      else if p < 0 ∨ (hLen H : Int) < p + n then global 0x06 1 (firstOutside H p)
      else if s.hub.object (hObj H) = none then global 0x09 2 p
      else ∀ e, s.hub.object (hObj H) = some e → oPresent e = true →
        if oLen e < ((hBase H : Int) + p).toNat + n then global 0x06 3 (p + (oLen e - ((hBase H : Int) + p).toNat : Nat))
        else deviceHalf (g e) = true → g e + n ≤ 2 ^ 64 →
          if s.hub.mapped (g e) n = false then global 0x09 2 (p + s.hub.mappedBytes (g e))
          else s.globalCheck h [p] n n right = .ok [(g e, e)])

/-- 08 R236, R240, R247, R252, R253, R261: loads from crown and tower go out once their granules are full. -/
def Obligations.CrownAndTowerLoadsGoOut : Prop :=
  ∀ (s : State) (x : BitVec 5) (v e c : BitVec 6) (h a d : BitVec 4) (z w : BitVec 2) (i : BitVec 9) (j : BitVec 8) (k : BitVec 13) (la : Nat),
    let read (f : LoadForm) (n : Nat) : Work := .fetch f [(s.crownAt la, n)] [] false none
    let ready (o : Int) (n align : Nat) : Prop := s.crownCheck h o n align hRd = .ok la ∧ s.mem.isFull (s.crownAt la) n = true
    Clean s → s.count .ld < 63 →
    (ready (offsetOf s a (2 ^ z.toNat) i) (2 ^ z.toNat) (2 ^ z.toNat) → ∃ t, exec (.cld x h a z i) s = .next t ∧
      LoadGoes s t (s.coreAfter 5) (read (.x x false) (2 ^ z.toNat)) ∧ t.core = s.core) ∧
    (VReady s w [v] → ready (offsetOf s a 32 j) (128 * 2 ^ w.toNat) 32 → ∃ t, exec (.cldVector v h a w j) s = .next t ∧
      LoadGoes s t (s.coreAfter 5) (read (.v v) (128 * 2 ^ w.toNat)) ∧ t.core = s.core) ∧
    (ready (offsetOf s a 16 k) 16 16 → ∃ t, exec (.hld d h a k) s = .next t ∧
      LoadGoes s t (s.coreAfter 5) (read (.h d) 16) ∧ t.core = s.core) ∧
    (s.offsetCrown h (s.c.ra a).toInt (128 * (c.toNat + 1)) 32 hRd = .ok la → s.mem.isFull (s.crownAt la) (128 * (c.toNat + 1)) = true →
      e.toNat + c.toNat < 64 → s.q.vq = [] → (∀ o ∈ s.q.ops, o.instr ≠ .vpsw) → ∃ t, exec (.pld h a e c) s = .next t ∧
        LoadGoes s t (s.coreAfter 5) (read (.pat e.toNat (!s.c.patActive)) (128 * (c.toNat + 1))) ∧ t.core = s.core) ∧
    (∀ offs, VReady s w [v] → s.towerCheck h (offsetOf s a 32 i) (4 * 2 ^ w.toNat) hRd = .ok offs →
      ∃ t due, exec (.tvld v h a w i) s = .next t ∧
        LoadGoes s t due (.fetch (.v v) ((s.towerAddrs offs).map fun p => (p, 32)) [] false none) ∧ t.core = s.core) ∧
    (s.crownCheck h (offsetOf s a (2 ^ z.toNat) i) (2 ^ z.toNat) (2 ^ z.toNat) hRd = .ok la → s.mem.isFull (s.crownAt la) (2 ^ z.toNat) = false →
      ∃ t, exec (.cld x h a z i) s = .next t ∧ t = s.stallWatched)

/-- 08 R248 to R251, R233: loads from global memory go out to the homes of their elements, with what the hold buffer gives of each;
a scalar load that hits the scalar cache has its value. -/
def Obligations.GlobalLoadsGoOut : Prop :=
  ∀ (s : State) (x : BitVec 5) (v : BitVec 6) (h a b c : BitVec 4) (z w : BitVec 2) (i : BitVec 9) (j : BitVec 10) (ges : List (Nat × Nat)),
    let n := 2 ^ z.toNat
    let m := 32 * 2 ^ w.toNat
    let go (I : Instr) (f : LoadForm) (k : Nat) : Prop := ∃ t due cached fill, exec I s = .next t ∧ s.now + 4 ≤ due ∧
      LoadGoes s t due (.fetch f (ges.map fun ge => (readHome s.board ge, k))
        (ges.flatMap fun ge => (List.range k).map fun i => heldAt? s.q.held (ge.1 + i)) cached fill) ∧ t.core = s.core
    let hit (I : Instr) (signed : Bool) (bs : List Byte) : Prop := ∃ t, exec I s = .next t ∧ LoadGoes s t (s.coreAfter 4)
      (.fetch (.x x signed) [(readHome s.board (ges.headD (0, 0)), n)] (bs.map some) false none)
    Clean s → s.count .ld < 63 →
    (s.globalCheck h [offsetOf s a n j] n n hRd = .ok ges →
      (s.scHit true (ges.headD (0, 0)) = none → go (.ld x h a z j) (.x x true) n ∧ go (.ldn x h a z j) (.x x false) n) ∧
      (∀ line, s.scHit true (ges.headD (0, 0)) = some line →
        let g := (ges.headD (0, 0)).1
        let bs := (List.range n).map fun i => (heldAt? s.q.held (g + i)).getD (line.bytes[g % 64 + i]?.getD 0)
        hit (.ld x h a z j) true bs ∧ hit (.ldn x h a z j) false bs)) ∧
    (VReady s w [v] →
      (s.globalCheck h [offsetOf s a 32 i] (4 * m) 32 hRd = .ok ges → go (.vld v h a w i) (.v v) (4 * m)) ∧
      (s.globalCheck h ((List.range m).map fun l => (s.c.ra a).toInt + (l : Int) * (s.c.ra b).toInt) 4 4 hRd = .ok ges →
        go (.vlds v h a b w) (.v v) 4) ∧
      (∀ la ix, s.offsetCrown b (s.c.ra c).toInt (4 * m) 32 hRd = .ok la → s.mem.isFull (s.crownAt la) (4 * m) = true →
        ix = (List.range m).map (fun l => (s.c.ra a).toInt +
          (BitVec.ofNat 32 (bytesNat (((s.bytes .l (s.crownAt la) (4 * m)).drop (4 * l)).take 4))).toInt) →
        s.globalCheck h ix 4 4 hRd = .ok ges → go (.vgth v h a b c w) (.v v) 4))

/-- 08 R238, R247, R252, R253: stores to crown and tower; 32 cycles later they are final. -/
def Obligations.CrownAndTowerStoresGoOut : Prop :=
  ∀ (s : State) (x : BitVec 5) (v : BitVec 6) (h a d : BitVec 4) (z w : BitVec 2) (i : BitVec 9) (j : BitVec 8) (k : BitVec 13) (la : Nat),
    let go (I : Instr) (ps : List Part) (tag : Bool) : Prop := ∃ t, exec I s = .next t ∧
      StoreGoes s t (s.now + 32) .l .st ps (.write ps s.lat.iss.cbmap tag []) ∧ t.core = s.core
    s.count .st < 63 →
    (s.crownCheck h (offsetOf s a (2 ^ z.toNat) i) (2 ^ z.toNat) (2 ^ z.toNat) hWr = .ok la →
      go (.cst x h a z i) [{ addr := s.crownAt la, bytes := natBytes (2 ^ z.toNat) (s.lat.iss.rx x).toNat }] false) ∧
    (s.crownCheck h (offsetOf s a 16 k) 16 16 hWr = .ok la →
      go (.hst d h a k) [{ addr := s.crownAt la, bytes := natBytes 16 (s.c.rh d).toNat }] true) ∧
    (VReady s w [v] → s.crownCheck h (offsetOf s a 32 j) (128 * 2 ^ w.toNat) 32 hWr = .ok la →
      go (.cstVector v h a w j) [{ addr := s.crownAt la, bytes := natBytes (128 * 2 ^ w.toNat) (s.lat.iss.rv v.toNat).toNat }] false) ∧
    (∀ offs, VReady s w [v] → s.towerCheck h (offsetOf s a 32 i) (4 * 2 ^ w.toNat) hWr = .ok offs →
      go (.tvst v h a w i) ((s.towerAddrs offs).mapIdx fun t p =>
        { addr := p, bytes := ((natBytes (128 * 2 ^ w.toNat) (s.lat.iss.rv v.toNat).toNat).drop (32 * t)).take 32 }) false)

/-- 08 R248 to R251, 11 R357, R358: stores to global memory; inside a segment they are held; `vsct` stores through the index
vector that it reads from crown. -/
def Obligations.GlobalStoresGoOut : Prop :=
  (∀ (s : State) (x : BitVec 5) (v : BitVec 6) (h a b : BitVec 4) (z w : BitVec 2) (i : BitVec 9) (j : BitVec 10) (ges : List (Nat × Nat))
       (offs : List Int) (n align : Nat) (bs : List Byte) (I : Instr),
     let m := 32 * 2 ^ w.toNat
     let vb := natBytes (4 * m) (s.lat.iss.rv v.toNat).toNat
     (n = 2 ^ z.toNat ∧ align = n ∧ offs = [offsetOf s a n j] ∧ bs = natBytes n (s.lat.iss.rx x).toNat ∧ I = .st x h a z j) ∨
     (VReady s w [v] ∧ n = 4 * m ∧ align = 32 ∧ offs = [offsetOf s a 32 i] ∧ bs = vb ∧ I = .vst v h a w i) ∨
     (VReady s w [v] ∧ n = 4 ∧ align = 4 ∧ bs = vb ∧ I = .vsts v h a b w ∧
       offs = (List.range m).map fun l => (s.c.ra a).toInt + (l : Int) * (s.c.ra b).toInt) →
     s.globalCheck h offs n align hWr = .ok ges → (∀ ge ∈ ges, s.hub.isTelemetry ge.1 n = false) →
     (s.c.segOpen = false → s.count .st < 63 → ∃ t due, exec I s = .next t ∧ s.now + 32 ≤ due ∧
       ∃ lock, StoreGoes s t due .l .st (elementPieces ges n bs) (.gstore (elementPieces ges n bs) lock)) ∧
     (s.c.segOpen = true → (∀ ge ∈ ges, deviceHalf ge.1 = true) → (∀ o ∈ offs, s.c.inSegWindow (s.c.rh h) o n = true) →
       ∀ l, (ges.mapIdx fun i ge => ({ addr := ge.1, bytes := (bs.drop (n * i)).take n } : Part)).foldl (fun l p => l.bind fun l => holdMerge l p) (some s.q.held) = some l →
         ∃ t, exec I s = .next t ∧ t.q = { s.q with held := l } ∧ fld t.c.seg.toNat 16 9 = l.length % 2 ^ 9 ∧
           t = { s with q := t.q, c := { s.c with seg := t.c.seg } })) ∧
  (∀ (s : State) (v : BitVec 6) (h a b c : BitVec 4) (w : BitVec 2) (ges : List (Nat × Nat)) (la : Nat) (ix : List Int),
     let m := 32 * 2 ^ w.toNat
     let ps := elementPieces ges 4 (natBytes (4 * m) (s.lat.iss.rv v.toNat).toNat)
     Clean s → VReady s w [v] → s.c.segOpen = false → s.count .st < 63 →
     s.offsetCrown b (s.c.ra c).toInt (4 * m) 32 hRd = .ok la → s.mem.isFull (s.crownAt la) (4 * m) = true →
     ix = (List.range m).map (fun l => (s.c.ra a).toInt +
       (BitVec.ofNat 32 (bytesNat (((s.bytes .l (s.crownAt la) (4 * m)).drop (4 * l)).take 4))).toInt) →
     s.globalCheck h ix 4 4 hWr = .ok ges → (∀ ge ∈ ges, s.hub.isTelemetry ge.1 4 = false) →
       ∃ u t due lock, exec (.vsct v h a b c w) s = .next t ∧ u = AfterRead s ∧ s.now + 32 ≤ due ∧
         StoreGoes u t due .l .st ps (.gstore ps lock))

/-- 08 R254, R255, R258: a port set is read and checked, bound and unbound. -/
def Obligations.PortsAreConfiguredAndBound : Prop :=
  ∀ (s : State) (k p : BitVec 3) (h a : BitVec 4) (la : Nat) (set : Machine.PSet),
    (∀ cf, set = s.c.ps[p.toNat]'p.isLt → cf = s.lat.iss.cfOf (set.base / 2 ^ 19) →
      (set.size = 0 → ∃ t, exec (.pgo k p) s = .next t ∧ Faults s t 0x14 (BitVec.ofNat 64 (1 + k.toNat * 16))) ∧
      (set.size ≠ 0 → set.cvt = true → 16 * fmtBits (cf.setWidth 8) ≠ set.size →
        ∃ t, exec (.pgo k p) s = .next t ∧ Faults s t 0x14 (BitVec.ofNat 64 (5 + k.toNat * 16))) ∧
      (set.size ≠ 0 → (set.cvt = true → 16 * fmtBits (cf.setWidth 8) = set.size) →
        ∃ t, exec (.pgo k p) s = .next t ∧ Copies s t 1 (.port k (some { set := set, pos := 0, cf := cf })))) ∧
    (∃ t, exec (.pstop k) s = .next t ∧ Copies s t 1 (.port k none)) ∧
    (Clean s → s.count .ld < 63 → s.offsetCrown h (s.c.ra a).toInt 64 64 hRd = .ok la → s.mem.isFull (s.crownAt la) 64 = true →
      set = { record := BitVec.ofNat 512 (bytesNat (s.bytes .l (s.crownAt la) 64)), obj := BitVec.ofNat 23 (hObj (s.c.rh h)) } →
      walkCheck set (s.c.rh h) (s.c.ra a).toInt (set.vectorBytes s.lat.iss) = none →
      ∃ u t, exec (.pcfg p h a) s = .next t ∧ LoadGoes s u (s.coreAfter 5) (.load .none false 0 0) ∧
        t = { u with c := { s.c with ps := s.c.ps.set p.toNat { set with size := set.vectorBytes s.lat.iss } p.isLt } })

/-- 05 R131, 08 R256 to R260: an operand that names a port pops or peeks its vector, a destination pushes; a port that cannot
traps and consumes nothing. -/
def Obligations.PortOperandsPopPeekAndPush : Prop :=
  ∀ (s : State) (d b : BitVec 6) (k : BitVec 3) (w : BitVec 2) (m : BitVec 3) (p : Port), VReady s w [d, b] →
    ∀ row ∈ vectorIntegerRows,
    let pop : BitVec 6 := 48 + k.setWidth 6
    let peek : BitVec 6 := 56 + k.setWidth 6
    let f (x : VWord) (l : Nat) : Nat := (row.2 (BitVec.ofNat 32 (lane x l)) (BitVec.ofNat 32 (lane (s.c.rv b.toNat) l))).toNat
    let x : VWord := BitVec.ofNat 4096 (bytesNat (portBytes s p))
    (PortReads s k p → Clean s →
      (∃ t, exec (row.1 d peek b w m) s = .next t ∧ t.c.port = s.c.port ∧ t.mem = s.mem ∧ t.outs = s.outs ∧
        ∀ l < 128, lane (t.c.rv d.toNat) l = if LaneOn s w m l then f x l else lane (s.c.rv d.toNat) l) ∧
      (∃ t, exec (row.1 d pop b w m) s = .next t ∧ t.c.port = s.c.port.set k.toNat (some { p with pos := p.pos + 1 }) k.isLt ∧
        t.mem = s.mem ∧ t.outs = s.outs ∧ ∀ l < 128, lane (t.c.rv d.toNat) l = if LaneOn s w m l then f x l else lane (s.c.rv d.toNat) l)) ∧
    (s.c.port[k.toNat]'k.isLt = some p → p.set.obj.toNat = s.logical → p.set.isWrite = true → p.pos < p.set.total → p.set.cvt = false →
      p.set.fe = 0 →
      ∃ t v ps, exec (row.1 pop d b w m) s = .next t ∧ t.c.port = s.c.port.set k.toNat (some { p with pos := p.pos + 1 }) k.isLt ∧
        (∀ l < 128, lane v l = if LaneOn s w m l then f (s.c.rv d.toNat) l else 0) ∧
        ps = (p.set.units s.lat.iss.cbmap s.core.phys p.pos).mapIdx (fun u x =>
          ({ addr := x.1, bytes := ((natBytes p.set.size v.toNat).drop (32 * u)).take x.2 } : Part)) ∧
        t.outs = s.outs ++ [{ id := s.nextId, bank := s.core.bank, seq := s.lat.seq, path := .p, ctr := .none, issued := s.now,
                              due := s.now + 32, promise := none, work := .write ps s.lat.iss.cbmap false [] }] ∧
        t.mem = s.mem ∧ t.c.v = s.c.v) ∧
    (s.c.port[k.toNat]'k.isLt = none → ∀ i ∈ [row.1 d pop b w m, row.1 d peek b w m, row.1 pop d b w m],
      ∃ t, exec i s = .next t ∧ Faults s t 0x14 (BitVec.ofNat 64 (1 + k.toNat * 16)))

/-- 06 R189: `mdset` writes the field that its code names and leaves the other bits; any other code or value traps. -/
def Obligations.DescriptorFieldsAreSet : Prop :=
  ∀ (s : State) (m : BitVec 3) (f : BitVec 4) (i : BitVec 15) (n : Nat),
    n = i.toNat + 2 ^ 15 * (match s.lat.ext with
      | some e => e.m.toNat
      | none => 0) →
    let d := s.c.rm m
    let bad : Prop := ∃ t, exec (.mdset m f i) s = .next t ∧ Refused s t 0x01
    (∀ row ∈ descriptorFields, f.toNat = row.1 →
      (∀ v, row.2.2.2 n = some v → ∃ t w, exec (.mdset m f i) s = .next t ∧ WritesM s t m w ∧
        ∀ k < 128, w.getLsbD k = if row.2.1 ≤ k ∧ k < row.2.1 + row.2.2.1 then v.testBit (k - row.2.1) else d.getLsbD k) ∧
      (row.2.2.2 n = none → bad)) ∧
    (f = 7 → n < 16 → n / 4 ≠ 3 → ∃ t w, exec (.mdset m f i) s = .next t ∧ WritesM s t m w ∧
      ∀ k < 128, w.getLsbD k = if k = 27 then n.testBit 0 else if k = 80 then n.testBit 1 else if k = 81 then n.testBit 2
        else if k = 82 then n.testBit 3 else d.getLsbD k) ∧
    (f = 7 → 16 ≤ n ∨ n / 4 = 3 → bad) ∧
    (f = 10 → n = 0 → ∃ t, exec (.mdset m f i) s = .next t ∧ WritesM s t m 0) ∧
    (f = 10 → n ≠ 0 → bad) ∧ (11 ≤ f.toNat → bad)

/-- 06 R179 to R182, 07 R200, R201: a tile operation traps for its first failing check, parks while a granule that it waits
for is empty, waits while the queue is full or an earlier operation holds its registers, and otherwise joins the queue with
the registers that it sampled. -/
def Obligations.TileOperationsJoinTheQueue : Prop :=
  ∀ (s : State) (m a b : BitVec 3) (x g p : BitVec 2) (z u w r d n : BitVec 1) (e : BitVec 7) (l : BitVec 15),
    (mdExtOk s.lat.ext = false → ∀ i ∈ [Instr.mdld m l, .mdst m l], ∃ t, exec i s = .next t ∧ Refused s t 0x01) ∧
    (mdExtOk s.lat.ext = true → ∀ row ∈ tileOperations s m a b x g p z u w r d n e l,
      let queue := s.tileQueue s.core.bank
      (row.2.2.2.any s.regQueued = true → ∃ t, exec row.1 s = .next t ∧ Waits s t) ∧
      (row.2.2.2.any s.regQueued = false →
        (∀ f, row.2.1 = some f → ∃ t, exec row.1 s = .next t ∧ Faults s t f.1 f.2) ∧
        (row.2.1 = none → (∃ y ∈ row.2.2.1, y ∈ s.mem.empty) →
          exec row.1 s = .next { s with lat := { s.lat with res := .park } }) ∧
        (row.2.1 = none → (∀ y ∈ row.2.2.1, y ∉ s.mem.empty) → 4 ≤ queue.length → ∃ t, exec row.1 s = .next t ∧ Waits s t) ∧
        (row.2.1 = none → (∀ y ∈ row.2.2.1, y ∉ s.mem.empty) → queue.length < 4 → ∃ t op, exec row.1 s = .next t ∧
          op.instr = row.1 ∧ op.iss = { s.lat.iss with m := s.c.m, pv := s.c.pv, g := s.c.g } ∧ op.seq = s.lat.seq ∧
          t = { s with
            outs := s.outs ++ [{ id := s.nextId, bank := s.core.bank, seq := s.lat.seq, path := .m, ctr := .tl, issued := s.now,
                                 due := s.now, promise := none, work := .tile op {} }]
            nextId := s.nextId + 1 } ∧ SameBytes s t)))

/-- 05 R139, 06 R197: `blend` lends a bank of v once no waiting operation names it, and `bret` returns it once no tile
operation reads it. -/
def Obligations.BanksAreLentAndReturned : Prop :=
  ∀ (s : State) (n : Nat) (i j : Instr),
    (n, i, j) ∈ [(0, Instr.blend0, Instr.bret0), (1, Instr.blend1, Instr.bret1), (2, Instr.blend2, Instr.bret2),
                 (3, Instr.blend3, Instr.bret3), (4, Instr.blend4, Instr.bret4), (5, Instr.blend5, Instr.bret5)] →
    (s.c.lent.getLsbD n = true → exec i s = .next s) ∧
    (s.c.lent.getLsbD n = false → s.bankHeld n s.lat.seq = false → ∃ t, exec i s = .next t ∧
      (∀ k < 6, t.c.lent.getLsbD k = (k == n || s.c.lent.getLsbD k)) ∧
      let mine (h : Shadow) : Bool := h.write.reg.any fun r => r.bank == some n
      t = { s with c := { landAll s.c (s.q.shadows.filter mine) with lent := t.c.lent }
                   q := { s.q with shadows := s.q.shadows.filter fun h => !mine h } }) ∧
    (s.bankRead n = false → ∃ t, exec j s = .next t ∧ (∀ k < 6, t.c.lent.getLsbD k = (k != n && s.c.lent.getLsbD k)) ∧
      t = { s with c := { s.c with lent := t.c.lent } }) ∧
    (s.c.lent.getLsbD n = false → s.bankHeld n s.lat.seq = true → ∃ t, exec i s = .next t ∧ Waits s t) ∧
    (∀ o ∈ s.q.vq, o.seq ≤ s.lat.seq → o.namesBank n = true → s.bankHeld n s.lat.seq = true) ∧
    (s.c.lent.getLsbD n = true → s.bankRead n = true → ∃ t, exec j s = .next t ∧ Waits s t) ∧
    (∀ x ∈ s.q.named, x.2.1 ≤ s.lat.seq → s.now < x.2.2 → x.1.getLsbD n = true → s.bankHeld n s.lat.seq = true) ∧
    (∀ o ∈ s.tileQueue s.core.bank, ∀ op w, o.work = .tile op w → lentReads op w n = true → s.bankRead n = true)

/-- 08 R262, R263: `scinv` empties the scalar cache or drops the lines of a range; `bcfl` goes out for the lines of its
range, each with the cycle in which it reaches its stack. -/
def Obligations.CacheControl : Prop :=
  ∀ (s : State) (h o l : BitVec 4) (v : BitVec 1) (e : Nat) (ges : List (Nat × Nat)),
    exec .scinv s = .next { s with core := { s.core with scache := [] } } ∧
    (hClass (s.c.rh h) = 3 ∨ hClass (s.c.rh h) = 4 → s.hub.object (hObj (s.c.rh h)) = some e →
      ∃ t, exec (.scinvRange h o l) s = .next t ∧ t = { s with core := { s.core with scache := t.core.scache } } ∧
        let g : Int := (oBase e : Int) + hBase (s.c.rh h) + (s.c.ra o).toInt
        ∀ x, x ∈ t.core.scache ↔ x ∈ s.core.scache ∧ ((s.c.ra l).toNat = 0 ∨ g + (s.c.ra l).toNat ≤ x.line ∨ (x.line : Int) + 64 ≤ g)) ∧
    (hClass (s.c.rh h) = 3 ∨ hClass (s.c.rh h) = 4 → s.hub.object (hObj (s.c.rh h)) = none → exec (.scinvRange h o l) s = .next s) ∧
    (s.globalCheck h [(s.c.ra o).toInt] (s.c.ra l).toNat 1 hRd = .ok ges → s.count .st < 63 →
      ∃ t due last ls, exec (.bcfl h o l v) s = .next t ∧ s.now + 32 ≤ due ∧ due ≤ last ∧
        ls = (ges.flatMap writeHomes).flatMap (s.flushTimes (s.c.ra l).toNat) ∧ (∀ x ∈ ls, due ≤ x.2 ∧ x.2 ≤ last) ∧
        t = { s with
          outs := s.outs ++ [{ id := s.nextId, bank := s.core.bank, seq := s.lat.seq, path := .l, ctr := .st, issued := s.now, due := due,
                               promise := none, work := .bcfl ls (v == 1) last }]
          nextId := s.nextId + 1 } ∧ SameBytes s t)

/-- 09 R265 to R294: a transfer that passes its checks writes its promise, which is its start, its latencies, its data phase, Ar, Af and
the strike hold together, and goes out; a shift promises nothing and goes out; a stream is set up. How long the bytes of a stream take to
come is the model's choice (log 6). -/
def Obligations.TransfersGoOut : Prop :=
  ∀ (s : State) (d h m r a w l k : BitVec 4) (fs fw ft bo : BitVec 1) (x y : BitVec 2) (la : Nat), s.c.segOpen = false → s.count .cp < 63 →
    let f := s.hub.power.clock
    let refresh : Nat := if s.deferring then 0 else 96
    (∀ pair ld lm, Clean s → s.copiesHeld < 8 → s.offsetCrown r (s.c.ra a).toInt 128 64 hRd = .ok la → s.mem.isFull (s.crownAt la) 128 = true →
      pair = BitVec.ofNat 1024 (bytesNat (s.bytes .l (s.crownAt la) 128)) →
      let u := AfterRead s
      let op := u.slotted (.copy d h m r a fs fw ft bo)
      let lent := ((s.lat.ext.map fun (e : Ext) => e.t).getD 0).toNat
      let z := copySides op pair h m
      u.copyShape z.1 z.2 = none → u.copyGlobal z.1 z.2 = .ok (ld, lm) →
      s.lostIn (sideGlobals z.1 ld) = none → s.lostIn (sideGlobals z.2 lm) = none →
      (bo = 1 → barrierHandle (s.c.rh (BitVec.ofNat 4 (lent % 16))) (s.c.ra (BitVec.ofNat 4 (lent / 16))).toInt = none) →
      let p := u.copyBurst z.1 z.2 (ld.headD (⟨0, 0, 0⟩, 0, 0)) (lm.headD (⟨0, 0, 0⟩, 0, 0))
      let due := s.engineEnd 0 s.nextId + p.1.lead + (p.1.bytes * 700 + p.1.rate * f - 1) / (p.1.rate * f) + p.1.extra
      p.2 = (if hClass z.1.h = 1 ∨ hClass z.2.h = 1 then refresh else 0) ∧
      ∃ t, exec (.copy d h m r a fs fw ft bo) s = .next t ∧
        PromiseGoes u t d .k (due + p.2 + 32) due (.copy op (u.sideMap z.1) (u.sideMap z.2) pair p.1)) ∧
    (∀ ge off units tower ranks, (s.c.ra l).toNat = off + tower * 2 ^ 23 + units * 2 ^ 32 + ranks * 2 ^ 56 → off < 2 ^ 23 → tower < 16 →
      0 < units → units ≤ 1024 → 0 < ranks → ranks < 256 → off % 64 = 0 →
      s.offsetGlobal h (s.c.ra a).toInt (units * 64) 64 hRd = .ok [ge] → deviceHalf ge.1 = true →
      checkHandle s.logical (s.c.rh w) [1] hWr (off : Int) = none →
      towerElem (s.c.rh w) tower ((off : Int) - (hBase (s.c.rh w) % 2 ^ 23 : Nat)) (units * 64) 1 = .ok off →
      s.refillRanks tower off (units * 64) (BitVec.ofNat 8 ranks) = none →
      let home := readHome s.board ge
      let away := 12 * bridges s.board (homeBoard home)
      let moved := ∃ n < 8, ranks.testBit n = true ∧ s.towerOn (s.core.phys / 8 * 8 + n) tower ≠ tower
      ∃ t b, exec (.frfl d h a w l) s = .next t ∧ b.bytes = units * 64 ∧ b.lead = (if inStaging home then 56 else 156) + away + 4 ∧
        b.rate = min 64 (min s.hub.power.rateCap s.hub.power.portRate) ∧ (moved → b.extra = 2) ∧ (¬moved → b.extra = 0) ∧ b.stage = .queued ∧
        let due := s.engineEnd 1 s.nextId + b.lead + (b.bytes * 700 + b.rate * f - 1) / (b.rate * f) + b.extra
        PromiseGoes s t d .k (due + refresh + 32) due (.refill home (units * 64) tower off (BitVec.ofNat 8 ranks) b)) ∧
    (∀ n vals c, Clean s → s.c.claspNo ≠ 0 → s.hub.clasp s.c.claspNo = some c →
      (s.c.ra k).toNat % 2 ^ 11 = n → (s.c.ra k).toNat / 2 ^ 11 % 2 ^ 5 = 0 → (s.c.ra k).toNat < 2 ^ 32 →
      0 < n → n ≤ 1024 → hClass (s.c.rh h) = 2 → hObj (s.c.rh h) = s.logical → hRd (s.c.rh h) = true → hWr (s.c.rh h) = true →
      offsetElem (s.c.rh h) (s.c.ra a).toInt (4 * n) 32 = .ok la → (∃ y, offsetElem (s.c.rh h) (s.c.ra l).toInt (4 * n) 32 = .ok y) →
      (∃ y, offsetElem (s.c.rh h) ((s.c.ra l).toInt + 4 * n) (4 * n) 4 = .ok y) →
      (s.c.ra l).toInt + 8 * n ≤ (s.c.ra a).toInt ∨ (s.c.ra a).toInt + 4 * n ≤ (s.c.ra l).toInt →
      vals = ((List.range n).map fun i => BitVec.ofNat 32 (bytesNat (((s.bytes .x (s.crownAt la) (4 * n)).drop (4 * i)).take 4))) →
      let due := s.now + 300 + (n + 15) / 16 + 220 * clog2 c.packages.length + 32
      let v : State := { s with fresh := s.fresh + 1 }
      ∃ t u, exec (.reduce d h a l k) s = .next t ∧ WritesA v u d (BitVec.ofNat 64 due) ∧ SameBytes v t ∧
        t = { u with outs := s.outs ++ [transferOut s .x (some due) due (.reduce (s.slotted (.reduce d h a l k)) vals)], nextId := s.nextId + 1 }) ∧
    (∀ n f src dst, y ≠ 3 → hClass (s.c.rh h) = 1 → hObj (s.c.rh h) = s.logical → hRd (s.c.rh h) = true → hWr (s.c.rh h) = true →
      f = ((hBase (s.c.rh h) % 2 ^ 23 : Nat) : Int) → src = (s.c.ra a).toInt → dst = (s.c.ra d).toInt → (f + src) % 64 = 0 → (f + dst) % 64 = 0 →
      towerHandleOk (s.c.rh h) = true → hBase (s.c.rh h) / 2 ^ 23 % 2 ^ 16 = 0xFFFF → (s.c.ra l).toNat = n → 0 < n → n ≤ 65536 → n % 64 = 0 →
      0 ≤ src → src + n ≤ hLen (s.c.rh h) → 0 ≤ dst → dst + n ≤ hLen (s.c.rh h) → src + n ≤ dst ∨ dst + n ≤ src →
      let away := if y = 2 then s.partner x else none
      let moved := ∃ t < 16, s.core.tower t ≠ t ∨ ∃ p, away = some p ∧ s.towerOn p t ≠ t
      ∃ t e, exec (.shift x y h a d l) s = .next t ∧ (moved → e = 2) ∧ (¬moved → e = 0) ∧
        TransferGoes s t (transferOut s .k none 0 (.shift (s.slotted (.shift x y h a d l)) (if y = 2 ∧ away = none then 4 else 0) away.toList
          (decide (y = 0 ∨ y = 2 ∧ s.partner (x + 2) = none)) { lead := 0, bytes := n + 64 * (4 + e), rate := 64, extra := 0 }))) ∧
    (y = 3 → ∃ t, exec (.shift x y h a d l) s = .next t ∧ Refused s t 0x01) ∧
    (∀ par len ges, (s.c.ra k).toNat = par → (s.c.ra l).toNat = len → s.offsetGlobal h (s.c.ra a).toInt (max len 1) 8 hRd = .ok ges →
      par < 2 ^ 10 → par / 2 ^ 8 ≠ 3 → operandFmt (BitVec.ofNat 8 par) = true → 0 < (s.c.ra r).toNat → (s.c.ra r).toNat < 2 ^ 32 →
      ((∀ o ∈ s.outs, o.bank = s.core.bank → o.usesStream = false) →
        exec (.wstr h a l r k) s = .next { s with c := { s.c with
          wstr := some { handle := s.c.rh h, off := (s.c.ra a).toInt.toNat, len := len, rows := (s.c.ra r).toNat, fmt := BitVec.ofNat 8 par,
                         width := 128 * 2 ^ (par / 2 ^ 8), pos := 0
                         since := s.coreAfter (s.sideLatency (s.streamPlace (s.c.rh h) (s.c.ra a).toInt) false)
                         rate := min (min 512 s.hub.power.rateCap) s.hub.power.portRate } } }) ∧
      ((∃ o ∈ s.outs, o.bank = s.core.bank ∧ o.usesStream = true) → ∃ t, exec (.wstr h a l r k) s = .next t ∧ Waits s t))

/-- 09 R281, R282: `copyq` gives the latest estimate, `copyq.st` the status word, whose sticky bits it clears, and `cancel`
stops nothing where nothing is outstanding and sets its status bit elsewhere. -/
def Obligations.TransferStatus : Prop :=
  ∀ (s : State) (d : BitVec 4),
    (s.promisedOuts = [] → ∃ t, exec (.copyq d) s = .next t ∧ WritesA s t d (BitVec.ofNat 64 s.now)) ∧
    (s.promisedOuts ≠ [] → ∃ t v, exec (.copyq d) s = .next t ∧ t.c.ra d = BitVec.ofNat 64 v ∧
      (∀ o ∈ s.promisedOuts, s.estimate o ≤ v) ∧ (∃ o ∈ s.promisedOuts, v = s.estimate o) ∧ (∀ r, r ≠ d → t.c.ra r = s.c.ra r) ∧
      t = { s with c := { s.c with a := t.c.a }, q := { s.q with shadows := t.q.shadows }, outs := t.outs } ∧
      t.outs = s.outs.map fun o => if o.bank = s.core.bank ∧ o.promise.isSome = true then { o with promise := some (s.estimate o) } else o) ∧
    (∃ t w, exec (.copyqSt d) s = .next t ∧ t.c.ra d = w ∧ w.toNat % 2 ^ 6 = s.promisedOuts.length % 2 ^ 6 ∧ w >>> 6 = s.c.xstat >>> 6 ∧
      t.c.xstat = s.c.xstat &&& ~~~0x1F00 ∧ (∀ r, r ≠ d → t.c.ra r = s.c.ra r) ∧
      t = { s with c := { s.c with a := t.c.a, xstat := t.c.xstat }, q := { s.q with shadows := t.q.shadows } }) ∧
    (s.stoppable s.core.bank = [] → exec .cancel s = .next s) ∧
    (s.stoppable s.core.bank ≠ [] → ∃ t, exec .cancel s = .next t ∧ t.c.xstat.getLsbD 11 = true ∧ t.stoppable s.core.bank = [])

/-- 10 R325 to R331: atomics and barrier operations go to their home engine; `bob.wait` ends when its answer is in its
register, and then acts as an acquire. -/
def Obligations.AtomicsAndBarrierOperationsGoOut : Prop :=
  ∀ (s : State) (o : BitVec 2) (d x : BitVec 5) (h a : BitVec 4) (z : BitVec 1) (g e : Nat), s.c.segOpen = false → s.count .ld < 63 →
    let off := (s.c.ra a).toInt
    let n := if z = 0 then 4 else 8
    let free (k : Nat) : Prop := s.globalCheck h [off] k k hAt = .ok [(g, e)] ∧ s.hub.isTelemetry g k = false
    let released : Prop := s.q.slotsEmpty s.lat.seq = true ∧ s.performed s.lat.seq 3 false = true
    (free n → (o.getLsbD 1 = true → released) → ∀ i ∈ atomics o d h a x z, ∃ t, exec i s = .next t ∧
      RequestGoes s t i (g, e) n (s.lat.iss.rx x) (s.lat.iss.rx d) (accessWord 0 h a off) ∧
      t.q = (if o.getLsbD 0 then { s.q with acq := some s.nextId } else s.q) ∧ t.lat = s.lat) ∧
    (o.getLsbD 1 = true → ¬released → ∀ i ∈ atomics o d h a x z, ∃ t, exec i s = .next t ∧ Waits s t) ∧
    (free 16 →
      (∃ t, exec (.bobInit d h a x) s = .next t ∧ RequestGoes s t (.bobInit d h a x) (g, e) 16 (s.lat.iss.rx x) 0 (accessWord 0 h a off) ∧
        t.q = s.q ∧ t.lat = s.lat) ∧
      (released → ∃ t, exec (.bobArr d h a) s = .next t ∧ RequestGoes s t (.bobArr d h a) (g, e) 16 0 0 (accessWord 0 h a off) ∧ t.q = s.q ∧ t.lat = s.lat) ∧
      ((∀ id, s.q.wait ≠ .bob id) → ∃ t, exec (.bobWait d h a x) s = .next t ∧
        RequestGoes s t (.bobWait d h a x) (g, e) 16 (s.lat.iss.rx x) 0 (accessWord 0 h a off) ∧ t.q = { s.q with wait := .bob s.nextId } ∧
        t.lat.res = .stall)) ∧
    (∀ id, s.q.wait = .bob id → (∀ u ∈ s.outs, u.id ≠ id) → s.q.slotsEmpty s.lat.seq = true → s.performed s.lat.seq 3 true = true →
      exec (.bobWait d h a x) s = .next { s with q := { s.q with wait := .none }, core := { s.core with scache := [] } })

/-- 10 R334, 09 R298, R302, R303, 12 R412: full/empty bits over a range, deferral of refresh, dead rows, and rows at a
lowered margin. -/
def Obligations.RangesOfGranulesAndRows : Prop :=
  ∀ (s : State) (h o l d : BitVec 4) (k : BitVec 1) (la n : Nat), (s.c.ra l).toNat = n →
    let gone (w : Work) (due : Nat) (ctr : Ctr) (t : State) : Prop :=
      t.outs = s.outs ++ [{ id := s.nextId, bank := s.core.bank, seq := s.lat.seq, path := .l, ctr := ctr, issued := s.now, due := due,
                            promise := none, work := w }]
    (∀ i full, (i, full) ∈ [(Instr.tsetf h o l, true), (.tsete h o l, false)] → s.tsetCheck h o l = .ok la →
      (n < 4096 → exec i s = .next s) ∧
      (4096 ≤ n → s.count .st < 63 → ∃ t, exec i s = .next t ∧
        gone (.tset ((List.range (n / 4096)).map fun j => s.crownAt (la + 4096 * j)) full) 0 .st t ∧
        t = { s with outs := t.outs, nextId := s.nextId + 1 } ∧ SameBytes s t)) ∧
    (s.now < n → exec (.tdefer l) s = .next { s with core := { s.core with deferEnd := some n } }) ∧
    (n ≤ s.now → s.core.deferEnd = none → exec (.tdefer l) s = .next s) ∧
    (n ≤ s.now → s.core.deferEnd ≠ none → ∃ t, exec (.tdefer l) s = .next t ∧ t.core.deferEnd = none ∧ t.c = s.c) ∧
    (s.rowsCheck h o l hWr = .ok la → (∀ x ∈ s.outs, s.writesRange x la n = false) → n % 1024 = 0 →
      ∃ t, exec (.tdead h o l) s = .next t ∧ t = { s with mem := t.mem } ∧
        (∀ x, la ≤ x → x < la + n → t.mem.byte x = 0 ∧ la + (x - la) / 1024 * 1024 ∈ t.mem.dead) ∧
        (∀ x, x < la ∨ la + n ≤ x → t.mem.byte x = s.mem.byte x)) ∧
    (s.rowsCheck h o l hWr = .ok la → (∃ x ∈ s.outs, s.writesRange x la n = true) → ∃ t, exec (.tdead h o l) s = .next t ∧ Waits s t) ∧
    (∀ ge, s.globalCheck h [(s.c.ra o).toInt] n 1 hWr = .ok [ge] → deviceHalf ge.1 = true → inStaging ge.1 = false → ge.1 % 1024 = 0 →
      n % 1024 = 0 → s.hub.isTelemetry ge.1 n = false → s.c.segOpen = false → s.count .st < 63 →
      ∃ t due, exec (.hdead h o l) s = .next t ∧ s.now + 32 ≤ due ∧
        gone (.hdead ((writeHomes ge).flatMap fun g => (List.range (n / 1024)).map fun j => g + 1024 * j)) due .st t ∧
        t = { s with outs := t.outs, nextId := s.nextId + 1 } ∧ SameBytes s t) ∧
    (s.c.sys = true → s.rowsCheck h o l hRd = .ok la → s.count .ld < 63 → ∃ t v, exec (.trmw d h o l k) s = .next t ∧
      gone (.load (.a d v) false 0 0) (s.coreAfter (16 * (n / 1024))) .ld t ∧
      v.toNat % 2 ^ 16 = min (s.marginRows la n) 0xFFFF ∧ v.toNat / 2 ^ 16 = (if (la - 2 ^ 65) / 2 ^ 23 % 17 ∈ s.core.failed then 1 else 0) ∧
      (∀ x, t.mem.byte x = s.mem.byte x ∨ k = 1) ∧
      (k = 0 → t.core = s.core) ∧ (k = 1 → s.marginRows la n ≠ 0 → (la - 2 ^ 65) / 2 ^ 23 % 17 ∈ t.core.failed))

/-- 02 R48, R51, 03 R90, 08 R235 to R237, 12 R384: what the events of the slots and of path L do. -/
def Obligations.SlotAndMemoryEvents : Prop :=
  ∀ (s : State) (o : Out),
    (s.arg = .slot 1 → exec .parkedSlotRetry s = .next { s with run := s.q.vq.head?, q := { s.q with vTried := true } }) ∧
    (s.arg = .slot 2 → exec .parkedSlotRetry s = .next { s with run := s.q.mq.head?, q := { s.q with mTried := true } }) ∧
    (∀ p l, s.arg = .slot 1 → s.q.vq = p :: l → s.q.trap = none → ∃ t, exec .parkedTooLong s = .next t ∧ t.c = s.c ∧ t.q.vq = l ∧
      t.q.trap = some { code := 0x1A, info := BitVec.ofNat 64 (1 + s.core.parkmax.toNat * 2 ^ 32), slot := 1, iss := false, evt := false,
                        now := false, seq := p.seq }) ∧
    (∀ p l, s.arg = .slot 2 → s.q.mq = p :: l → s.q.trap = none → ∃ t, exec .parkedTooLong s = .next t ∧ t.c = s.c ∧ t.q.mq = l ∧
      t.q.trap = some { code := 0x1A, info := BitVec.ofNat 64 (2 + s.core.parkmax.toNat * 2 ^ 32), slot := 2, iss := false, evt := false,
                        now := false, seq := p.seq }) ∧
    (∀ k p, k = 0 ∨ k = 3 → s.arg = .slot k → s.q.ops.find? (·.slot == k) = some p → s.q.trap = none →
      ∃ t, exec .parkedTooLong s = .next t ∧ t.c = s.c ∧ p ∉ t.q.ops ∧ t.q.wait = .none ∧
        t.q.trap = some { code := 0x1A, info := BitVec.ofNat 64 (k.toNat + s.core.parkmax.toNat * 2 ^ 32), slot := k, iss := false, evt := false,
                          now := false, seq := p.seq }) ∧
    (∀ i, s.q.olfTrap = some i → ∃ t, exec .outlierListFull s = .next t ∧
      Enters { s with q := { s.q with olfTrap := none } } t (window s.c { s.q with olfTrap := none })
        { code := 0x13, info := i, slot := 0, iss := false, evt := true, now := true }) ∧
    (s.eventOut = some o →
      (∀ w info fl, o.work = .load w false info fl → o.bank = s.core.bank → s.q.acq ≠ some o.id → ∃ t, exec .loadReturn s = .next t ∧
        t.outs = s.outs.filter (·.id != o.id) ∧ t.mem = s.mem ∧
        t.c = { w.apply s.c with fpsr := (w.apply s.c).fpsr ||| BitVec.ofNat 64 (fl.toNat % 128) } ∧
        (∀ r, w.reg = some r → t.q.shadows = overwrite s.q.shadows o.seq r)) ∧
      (∀ w rs hd cached fill, o.work = .fetch w rs hd cached fill → o.bank = s.core.bank → s.q.acq ≠ some o.id → s.loadFree o = true → Clean s →
        ∃ t, exec .loadReturn s = .next t ∧ t.outs = s.outs.filter (·.id != o.id) ∧ (∀ a, t.mem.byte a = s.mem.byte a) ∧
        t.c = (s.fetched o w rs hd).apply s.c ∧ t.q.shadows = overwrite s.q.shadows o.seq w.reg) ∧
      (∀ w rs hd cached fill, o.work = .fetch w rs hd cached fill → s.loadFree o = false → ∃ t, exec .loadReturn s = .next t ∧ t.c = s.c ∧
        ∃ x ∈ t.outs, x.id = o.id ∧ x.due = s.now ∧ ∃ v, x.work = .load v false 0 0) ∧
      (∀ d sg a n, let bs := (List.range n).map fun i => s.byteFor o (a + i)
        s.fetched o (.x d sg) [(a, n)] [] =
          .x d (if sg then (BitVec.ofNat (8 * n) (bytesNat bs)).signExtend 64 else BitVec.ofNat 64 (bytesNat bs))) ∧
      (∀ w info fl, o.work = .load w true info fl → o.bank = s.core.bank → s.c.segOpen = true → ∃ t, exec .loadReturn s = .next t ∧
        t = { s with outs := s.outs.filter (·.id != o.id), q := { s.q with rewind := true } }) ∧
      (∀ w info fl, o.work = .load w true info fl → o.bank = s.core.bank → s.c.segOpen = false → s.q.acq ≠ some o.id →
        s.q.trap = none → ∃ t, exec .loadReturn s = .next t ∧ t.c = s.c ∧ t.mem = s.mem ∧
        t.q.trap = some { code := 0x10, info := info, slot := 3, iss := false, evt := false, now := true }) ∧
      (∀ ps map tag full, Sound s → Within ps → o.work = .write ps map tag full → ∃ t, exec .strikeWindow s = .next t ∧ Performs s t o ps ∧
        ∀ g ∈ full, g ∉ t.mem.empty) ∧
      (∀ ps lock, Sound s → Within ps → o.work = .gstore ps lock → ∃ t, exec .storePerformed s = .next t ∧ Performs s t o ps) ∧
      (∀ g full, o.work = .tset [g] full → o.due ≠ 0 → ∃ t, exec .storePerformed s = .next t ∧ t.c = s.c ∧ (g ∈ t.mem.empty ↔ full = false) ∧
        (∀ x, x ≠ g → (x ∈ t.mem.empty ↔ x ∈ s.mem.empty)) ∧ ∀ a, t.mem.byte a = s.mem.byte a) ∧
      (∀ op w, o.work = .tile op w → TileStarts s o op w))

/-- 06 R191 to R193, 07 R207, 09 R266, R271, R288, R291, R293, 10 R316, R323 to R331, 11 R355, R368: what the engines do when an operation
of theirs begins, goes on, is over, or is served. -/
def Obligations.EnginesFinishTheirOperations : Prop :=
  (∀ (s : State) (o : Out), s.eventOut = some o →
    (∀ bank op rs a, Sound s → (∃ r ∈ rs, r.1 ≤ a ∧ a < r.1 + r.2) →
      (s.reader bank op rs).2.1.mem.byte a = (pieceByte (s.mPieces bank) a).getD (s.mem.byte a)) ∧
    (∀ op w, o.work = .tile op w → (∀ p, productOf op.instr = some p → ProductRuns s o op w p) ∧ (∀ m, mergeOf op.instr = some m → MergeRuns s o op w m) ∧
      (∀ j, facJob op = some j → FactorRuns s o op w j) ∧ MovesRun s o op w) ∧
    (∀ i b, Moves i o.work b →
      (b.stage = .queued → ∃ t start due, exec i s = .next t ∧ s.now + b.lead ≤ start ∧ s.now + b.lead + b.time s.hub.power.clock ≤ due ∧
        (s.core.blocked = [] → s.hub.farBlocked = [] → start = s.now + b.lead ∧ due = start + b.time s.hub.power.clock) ∧
        t = { s with outs := s.outs.map fun x => if x.id == o.id then { x with due := due, work := o.work.withStage (.moving start) } else x }) ∧
      (∀ ps map fl lost st, b.stage = .landing ps map [] fl lost st → Sound s → Within ps → s.spread ps = ps → PlainCopy o.work →
        ∃ t, exec i s = .next t ∧ (∀ x ∈ t.outs, x.id ≠ o.id) ∧ ∀ x, t.mem.byte x = (pieceByte ps x).getD (s.mem.byte x))) ∧
    (let lands (u t : State) (ps : List Part) (map : DWord) (poison : List Nat) (fl lost : Nat) (st : DWord) : Prop :=
        t.c = s.c ∧ t.mem = u.mem ∧ t.outs = u.outs.map fun x => if x.id == o.id then
          { x with due := o.due + 32 + u.tripOf ps, work := o.work.withStage (.landing ps map poison fl lost st) } else x
     (∀ op dm sm pair b n d h m r a fs fw ft bo, o.work = .copy op dm sm pair b → op.instr = .copy d h m r a fs fw ft bo → b.stage = .moving n →
        let side := (copySides op pair h m).2
        let globals := if hClass side.h ≤ 2 then [] else
          (List.range side.rg.total).map fun e => (side.globalPlace (side.rg.fmt op.iss side.h) sm e).2.1
        let y := s.copyMove o.bank o.id op pair h m dm sm
        (refusedFallBack globals = true → ∃ t, exec .copyCompletion s = .next t ∧ lands s t [] dm.strips [] 0 0 0x200) ∧
        (refusedFallBack globals = false → ∃ t, exec .copyCompletion s = .next t ∧
          lands y.1 t (runsOf y.2.1) dm.strips y.2.2.2 y.2.2.1.fl y.2.2.1.lost (if y.2.2.2 = [] then 0 else 0x400))) ∧
     (∀ src len t0 off ranks b n, o.work = .refill src len t0 off ranks b → b.stage = .moving n → Clean s →
        ∃ t, exec .refillCompletion s = .next t ∧ lands s t (((List.range 8).filter fun k => ranks.getLsbD k).map fun k =>
          { addr := towerAddr (s.core.phys / 8 * 8 + k) (s.towerOn (s.core.phys / 8 * 8 + k) t0) off, bytes := s.mem.bytes src len }) 0 [] 0 0 0) ∧
     (∀ op dropped away zeros b n r m h a d l, o.work = .shift op dropped away zeros b → op.instr = .shift r m h a d l → b.stage = .moving n →
        let y := s.shiftParts o op r m away zeros
        ∃ t, exec .shiftCompletion s = .next t ∧ lands y.1 t y.2.1 0 y.2.2 0 0 0) ∧
     (∀ op r m h a d l c, Clean s → op.instr = .shift r m h a d l → c < 16 → (stepCell c r).2 = false →
        let src := (shiftRange op false).1
        let dst := (shiftRange op true).1
        { addr := s.towerAt (stepCell c r).1 dst, bytes := (List.range (shiftRange op false).2).map fun i => s.byteFor o (s.towerAt c src + i) } ∈
          (s.shiftParts o op r m [] false).2.1)) ∧
    (∀ r ord d h a x z n, o.work = .atom r → r.waiting = false → n = (if z = 0 then 32 else 64) → Sound s →
      (r.phase ≠ 0 ∨ s.hub.engineHolds r.addr = true) → (2 ≤ r.phase ∨ r.lock = 0) → (∀ v, Within [{ addr := r.addr, bytes := natBytes (n / 8) v }]) →
      (∀ v, s.spread [{ addr := r.addr, bytes := v }] = [{ addr := r.addr, bytes := v }]) →
      let old := bytesNat (s.mem.bytes r.addr (n / 8))
      let stored (w y : Nat) : Byte := (pieceByte [{ addr := r.addr, bytes := natBytes (n / 8) w }] y).getD (s.mem.byte y)
      (∀ row ∈ atomicRows n ord d h a x z, r.instr = row.1 → ∃ t, exec .atomicEngineServe s = .next t ∧ t.c = s.c ∧
        Answers s t o d (BitVec.ofNat 64 old) r.info 0 ∧
          ∀ y, t.mem.byte y = stored (row.2 (BitVec.ofNat n old) (r.s.setWidth n) (r.d.setWidth n)).toNat y) ∧
      (r.instr = .atmFadd ord d h a x z → ∃ t v, exec .atomicEngineServe s = .next t ∧ t.c = s.c ∧
        v = fpAdd (if n = 32 then fp32 else fp64) { mode := 0, ftz := false, daz := false } old (r.s.toNat % 2 ^ n) ∧
        Answers s t o d (BitVec.ofNat 64 old) r.info (BitVec.ofNat 64 v.2) ∧
        ∀ y, t.mem.byte y = stored v.1 y)) ∧
    (∀ r, o.work = .atom r → r.waiting = false → r.phase = 0 → s.hub.engineHolds r.addr = false →
      ∃ t due, exec .atomicEngineServe s = .next t ∧ s.now ≤ due ∧ t = { s with outs := t.outs } ∧
        t.outs = s.outs.map fun x => if x.id == o.id then { x with due := due, work := .atom { r with phase := 1 } } else x) ∧
    (∀ r d h a x, o.work = .atom r → r.instr = .bobWait d h a x → ∃ t, exec .bobWaitAnswer s = .next t ∧ t = { s with outs := t.outs } ∧
      Answers s t o d (if (s.bobAt r.addr).testBit 96 then BitVec.ofNat 64 (s.bobAt r.addr / 2 ^ 64 % 2 ^ 32) else 0xFFFFFFFFFFFFFFFF) r.info 0)) ∧
  (∀ (s : State) (n : BitVec 20) (others : List Contribution), s.arg = .reduce n others →
    let l := s.contributions n others
    let z := (List.range ((l.head?.map (·.values.length)).getD 0)).map (roundLane (l.foldr insertContribution []))
    (s.hub.clasp n = none → exec .reduceRound s = .next s) ∧
    (∀ c, s.hub.clasp n = some c → c.roundFull l = false → exec .reduceRound s = .next s) ∧
    (∀ c, s.hub.clasp n = some c → c.roundFull l = true → ∃ t, exec .reduceRound s = .next t ∧
      (t.hub.clasp n).map (·.round) = some (c.round + 1) ∧ (∀ r ∈ s.reducers n, ∀ x ∈ t.outs, x.id ≠ r.1.id) ∧
      ∀ o rank vals op d h a ro k ps, s.reducers n = [(o, rank, vals)] → o.work = .reduce op vals → op.instr = .reduce d h a ro k →
        roundFails l = false → Sound s → Within ps →
        ps = [(0, z.map (·.1)), (4 * z.length, z.map (·.2.1))].map (fun x => ({
          addr := crownThrough op.iss.cbmap s.core.phys (hBase (op.iss.rh h) + (op.iss.ra ro).toNat + x.1), bytes := wordBytes x.2 } : Part)) →
        ∀ y, t.mem.byte y = (pieceByte ps y).getD (s.mem.byte y)))

/-- 11 R343 to R354, R368, 08 R232, 12 R383 to R386: how beads come into a bank, leave it and go on. -/
def Obligations.BeadsStartHaltAndResume : Prop :=
  ∀ s : State,
    (∃ t, exec .dispatchRound s = .next t ∧ t.hub.roundAt = s.now + 1) ∧
    (s.hub.beads = [] → s.strands = [] → s.q.preemptBy = false →
      exec .dispatchRound s = .next { s with hub := { s.hub with heads := [], roundAt := s.now + 1 } }) ∧
    (∀ b n, s.hub.beads = [b] → b.ready = some n → s.strands = [b.strand.toNat] → s.queued b.strand.toNat = false →
      s.hub.clasp (wClasp (rWord1 b.record)) = none → s.hub.map = [s.core.phys] → s.idleFor b = true → s.admits b 0 = true →
      s.q.preemptBy = false → ∃ t, exec .dispatchRound s = .next t ∧ t.hub.beads = [] ∧ t.c = s.c ∧ t.q = s.q ∧ t.mem = s.mem ∧
        t.hub.placing = [(bindHome b 0 false, if s.q.state = .empty then s.core.bank else !s.core.bank, s.startAt b)]) ∧
    (∀ b bank at0 l, s.hub.placing = (b, bank, at0) :: l → b.saved = none → bank = s.core.bank ∨ s.q.state ≠ .active →
      ∃ t, exec .beadStart s = .next t ∧ t.hub.placing = l ∧ t.core.bank = bank ∧
      t.q = { state := .active, placedAt := s.hub.placedAt } ∧ t.c.pc = BitVec.ofNat 64 (fld b.record.toNat 4 60 * 16) ∧ t.c.sys = b.record.getLsbD 107 ∧
      t.c.bead = b.record.extractLsb' 64 64 ∧ t.c.home = b.record.extractLsb' 128 64 ∧ t.c.since = BitVec.ofNat 48 s.now ∧
      (∀ r : BitVec 5, t.c.rx r = if 1 ≤ r.toNat ∧ r.toNat ≤ 4 then b.record.extractLsb' (128 + 64 * r.toNat) 64 else 0) ∧
      t.core.scache = [] ∧ t.c.fpcr = 0 ∧ t.c.fpsr = 0 ∧ t.c.wstr = none ∧ t.c.port = Vector.replicate 8 none) ∧
    (s.tileQueue s.core.bank = [] → ∃ t, exec .preemptionHalt s = .next t ∧ t.q.state = .draining ∧ t.q.resume = window s.c s.q ∧
      t.c = { landAll { s.c with preempt := BitVec.ofNat 8 (min 255 (s.c.preempt.toNat + 1)) } s.q.shadows with latch := Vector.replicate 3 none } ∧
      t.q.vq = [] ∧ t.q.mq = [] ∧ t.mem = s.mem) ∧
    (∀ n, s.q.state = .empty → s.oq.state = .draining → s.oq.wait = .watch n → n ≤ s.now → s.core.parked = false →
      ∃ t, exec .contextDrainFinal s = .next t ∧ t.oq = { s.oq with state := .drained, wait := .none } ∧ t.oc = s.oc ∧
        t.c = s.c ∧ t.q = s.q) ∧
    (s.q.state = .empty → s.oq.state ≠ .active → s.bankReady s.oc s.oq = true → ∃ t, exec .resumption s = .next t ∧ t.core.bank = (!s.core.bank) ∧
      t.q.state = .active ∧ t.c.since = BitVec.ofNat 48 s.now) ∧
    (s.q.state = .draining → s.oq.state = .empty → ∃ t, exec .resumption s = .next t ∧ t.q.state = .active ∧ t.c.since = BitVec.ofNat 48 s.now ∧
      (s.q.resume.2.1 = 0 → s.q.resume.2.2.2 = 0 → t.c.pc = s.q.resume.1)) ∧
    (∀ b, s.arg = .flag b → s.oq.state = .translation → s.q.state ≠ .translation → b = (!s.core.bank) →
      (∃ t, exec .translationRetry s = .next t ∧ t = { s with oq := { s.oq with eligible := true }, undo := t.undo }) ∧
      (∃ t, exec .translationFail s = .next t ∧ t = { s with oq := { s.oq with eligible := true, atVector := true }, undo := t.undo })) ∧
    (∃ t, exec .resetCore s = .next t ∧ t.c = {} ∧ t.q = {} ∧ t.oc = {} ∧ t.oq = {} ∧ t.outs = [] ∧ t.core.planes = [] ∧ t.core.scache = []) ∧
    (∀ b r, s.arg = .region b r → b.toNat = s.board → r.toNat = regionOfCore s.core.phys → s.undo = [] → (∀ n, s.q.wait ≠ .scan n) →
      (s.hub.reports.filter fun x => x.1 == b.toNat && x.2.1 == r.toNat).length < 16 →
      ∃ t, exec .strikeReport s = .next t ∧ t.c = s.c ∧ t.core = { s.core with strikes := t.core.strikes } ∧
        t.core.strikes.toNat % 2 ^ 32 = min (s.core.strikes.toNat % 2 ^ 32 + 1) 0xFFFFFFFF ∧
        t.core.strikes.toNat / 2 ^ 32 = r.toNat ∧ (b.toNat, r.toNat, s.now) ∈ t.hub.reports) ∧
    (∀ n c r, s.arg = .barrier n [] → s.hub.clasp n = some c → c.released = some r → s.c.claspNo = n → s.q.cbarAt ≠ none → s.q.cbarRel = none →
      ∃ t, exec .barrierRelease s = .next t ∧ t.q = { s.q with cbarRel := some r } ∧ t.c = s.c ∧ t.mem = s.mem) ∧
    (s.hub.beads.length < s.hub.waitSize → s.core.removal = false → ∃ t, exec .cbarSuspend s = .next t ∧ t.c = {} ∧ t.q = {} ∧
      t.hub.beads.length = s.hub.beads.length + 1 ∧ ∃ b ∈ t.hub.beads, b.gang = true ∧ b.record = suspendRecord s 1 0)

/-- 08 R231, R232, 09 R277, R278, 10 R324, 11 R337 to R339, 12 Table 12-14: what the host and other packages do to the machine. -/
def Obligations.HostAndPackagesReachTheMachine : Prop :=
  ∀ (s : State) (a : DWord) (len p n : Nat) (bs : List Byte) (m : BitVec 16) (v : DWord) (k : BitVec 8),
    (s.arg = .tail m v → s.lcap m.toNat = 0 ∨ 2 ^ s.lcap m.toNat < (v.toNat % 2 ^ 32 + 2 ^ 32 - s.strandHead m.toNat) % 2 ^ 32 →
      ∃ t, exec .strandTailWrite s = .next t ∧ t = s.post 6 0 0xFFFF 0 (BitVec.ofNat 64 (m.toNat + v.toNat % 2 ^ 32 * 2 ^ 32)) 0) ∧
    (s.arg = .tail m v → s.lcap m.toNat ≠ 0 → (v.toNat % 2 ^ 32 + 2 ^ 32 - s.strandHead m.toNat) % 2 ^ 32 ≤ 2 ^ s.lcap m.toNat →
      ∃ t, exec .strandTailWrite s = .next t ∧ t.c = s.c ∧ t = (s.setTail m.toNat (v.toNat % 2 ^ 32)).noteReady) ∧
    (s.arg = .hub (.objectTable a n) → ∃ t, exec .hubConfigurationWrite s = .next t ∧ t = { s with hub := { s.hub with otNext := some (a.toNat, n) } }) ∧
    (s.arg = .hub (.waitPool a n) → ∃ t, exec .hubConfigurationWrite s = .next t ∧ t = { s with hub := { s.hub with waitBase := a.toNat, waitSize := n } }) ∧
    (s.arg = .hub (.errorStrand m) → ∃ t, exec .hubConfigurationWrite s = .next t ∧ t.hub.errorStrand = some m ∧ t.c = s.c ∧
      (s.hub.owed = none → t = { s with hub := { s.hub with errorStrand := some m } }) ∧
      (s.hub.owed ≠ none → s.lcap m.toNat ≠ 0 → t.hub.owed = none)) ∧
    (∀ e, s.arg = .exe e → ∃ t, exec .executableRegistration s = .next t ∧
      t = if Exe.ok e then { s with hub := { s.hub with exes := e :: s.hub.exes } } else s) ∧
    (∃ t, exec .objectInvalidation s = .next t ∧ OnlyHub s t ∧ t.hub.otNext = none ∧
      (t.hub.otBase, t.hub.otSize) = s.hub.otNext.getD (s.hub.otBase, s.hub.otSize) ∧
      ∀ c, c ∈ t.hub.otCells ↔ c ∈ s.mem.cells ∧ t.hub.otBase ≤ c.1 ∧ c.1 < t.hub.otBase + 16 * t.hub.otSize) ∧
    (∀ present, s.arg = .page p present → (∀ o ∈ s.outs, s.writesRange o (p * 4096) 4096 = false ∧ s.readsRange o (p * 4096) 4096 = false) →
      ∃ t, exec .atsInvalidation s = .next t ∧ OnlyHub s t ∧
        (p ∈ t.hub.pages ↔ present = true) ∧ ∀ q, q ≠ p → (q ∈ t.hub.pages ↔ q ∈ s.hub.pages)) ∧
    (∀ present o, s.arg = .page p present → o ∈ s.outs → s.writesRange o (p * 4096) 4096 = true ∨ s.readsRange o (p * 4096) 4096 = true →
      exec .atsInvalidation s = .next { s with agenda := (s.now + 1, .atsInvalidation, .page p present) :: s.agenda }) ∧
    (s.arg = .package k → s.outs = [] → ∃ t, exec .linkDown s = .next t ∧ OnlyHub s t ∧ k.toNat ∈ t.hub.lost ∧ ∀ h ∈ t.hub.hops, h.1 ≠ k.toNat) ∧
    (s.arg = .package k → ∃ t, exec .routeRestore s = .next t ∧ t = { s with hub := { s.hub with lost := t.hub.lost } } ∧ k.toNat ∉ t.hub.lost) ∧
    (∀ i ∈ [Instr.cxlMemAccess, .remotePackageAccess], deviceHalf a.toNat = true → s.hub.boot.recovery = false → s.hub.power.step ≠ 7 →
      (s.arg = .access p a len (some bs) → Sound s → Within [{ addr := a.toNat, bytes := bs }] → ∃ t, exec i s = .next t ∧ t.c = s.c ∧
        ∀ x, t.mem.byte x = (pieceByte [{ addr := a.toNat, bytes := bs }] x).getD (s.mem.byte x)) ∧
      (s.arg = .access p a len none → Clean s → ∃ t, exec i s = .next t ∧ t.c = s.c ∧ t.mem = s.mem ∧ t.hub.answer = s.mem.bytes a.toNat len)) ∧
    (deviceHalf a.toNat = false → s.arg = .access p a len none → ∃ t, exec .cxlCacheRecall s = .next t ∧ OnlyHub s t ∧
      t.hub.answer = s.mem.bytes a.toNat len ∧ ∀ l, l ∈ t.hub.engines ↔ l ∈ s.hub.engines ∧ l.line ∉ lines64 a.toNat (max len 1)) ∧
    (s.arg = .access p a len none → s.hub.power.step = 7 →
      exec .fallBackReadRequest s = .next { s with agenda := (s.now + 1, .fallBackReadRequest, s.arg) :: s.agenda }) ∧
    (s.arg = .access p a len none → s.hub.power.step ≠ 7 → ∃ t, exec .fallBackReadRequest s = .next t ∧ t = { s with hub := { s.hub with answer := t.hub.answer } } ∧
      ((∀ x ∈ s.hub.access, x.1 ≠ p) → t.hub.answer = []) ∧
      (bcHome a.toNat = true → (∃ x ∈ s.hub.access, x.1 = p ∧ x.2.1 ≤ a.toNat ∧ a.toNat + len ≤ x.2.2) →
        t.hub.answer = (List.range len).map fun i => s.stackByte (a.toNat + i)))

/-- 09 R295 to R300, R304, 12 R388, R390, R394 to R407: refresh, scrubs, monitors, power, boot and attestation. That the scrubber's next line
comes at the next multiple of 512 cycles, and that a slot of a tower begins its interval, are the model's choices (log 43); what an image holds
is free (log 11). -/
def Obligations.RefreshPowerAndBoot : Prop :=
  ∀ (s : State) (tower n : Nat) (g : BitVec 7) (p : BitVec 3) (v : DWord),
    (∀ i ∈ [Instr.normalRefresh, .forcedRefresh], s.arg = .group tower g → tower < 17 → s.mem.wrong = [] → s.mem.flaky = [] →
      i = .forcedRefresh ∨ (s.deferring = false ∧ s.refreshing tower = false ∧ s.midRow tower = false ∧ s.groupDead tower g.toNat = false ∧
        (s.oldestOverdue tower = none ∨ (tower, g.toNat) ∈ s.core.overdue)) →
      ∃ t, exec i s = .next t ∧ t.c = s.c ∧
      (∀ a, t.mem.byte a = s.mem.byte a) ∧ (tower, g.toNat, s.now) ∈ t.core.refreshed ∧ (tower, g.toNat) ∉ t.core.overdue ∧
      (tower, s.now + 96) ∈ t.core.blocked) ∧
    (∀ at0, s.arg = .group tower g → tower < 17 → s.deferring = false → s.refreshing tower = false → s.midRow tower = false →
      s.oldestOverdue tower = none → s.core.slots.toList[tower]? = some (at0, g) → at0 ≤ s.now → ∃ t, exec .normalRefresh s = .next t ∧
      t.core.slots.toList[tower]? = some (at0 + max 1 (8 * s.core.tinterval.toNat), g + 1)) ∧
    (s.arg = .group tower g → tower < 17 → s.deferring = true → s.groupDead tower g.toNat = false → ∃ t, exec .normalRefresh s = .next t ∧
      t = { s with core := { s.core with overdue := t.core.overdue, slots := t.core.slots } } ∧ (tower, g.toNat) ∈ t.core.overdue) ∧
    (s.core.overdue = [] → ∃ t, exec .groupRefreshEnd s = .next t ∧ t = { s with core := { s.core with blocked := t.core.blocked } } ∧
      ∀ b, b ∈ t.core.blocked ↔ b ∈ s.core.blocked ∧ s.now ≤ b.2) ∧
    (s.core.overdue = [] → exec .deferralEnd s = .next { s with core := { s.core with deferEnd := none } }) ∧
    (s.arg = .value v → s.mem.wrong = [] → s.mem.flaky = [] → ∃ t, exec .patrolScrub s = .next t ∧ t.c = s.c ∧ (∀ a, t.mem.byte a = s.mem.byte a) ∧
      t.core = { s.core with scrubAt := (s.now / 512 + 1) * 512 }) ∧
    (∀ j c u r, s.arg = .scrub j c u r [] → s.hub.telemetry = none → ∃ t, exec .stackScrubPass s = .next t ∧
      t = { s with hub := { s.hub with stackCounts := t.hub.stackCounts } } ∧
      (t.hub.stackCounts[j.toNat]'j.isLt).2.2.1 = min (2 ^ 32 - 1) ((s.hub.stackCounts[j.toNat]'j.isLt).2.2.1 + 1)) ∧
    (∀ u, s.arg = .sample u v → ∃ t, exec .monitorSample s = .next t ∧ OnlyMonitors s t ∧ (∀ i (h : i < 4), i ≠ u.toNat → t.core.mon[i] = s.core.mon[i]) ∧
      ∀ h : u.toNat < 4, t.core.mon[u.toNat] = (if s.core.mon[u.toNat].running then s.core.mon[u.toNat].sample v.toInt else s.core.mon[u.toNat]) ∧
        (s.core.mon[u.toNat].running = true → t.core.mon[u.toNat].n = holdInc s.core.mon[u.toNat].n)) ∧
    (s.arg = .pins p → s.hub.power.lastPins ≠ p →
      ∃ t, exec .pstepSample s = .next t ∧ t.hub.power.lastPins = p ∧ t.hub.power.pins = s.hub.power.pins) ∧
    (s.arg = .pins p → s.hub.power.lastPins = p → ∃ t, exec .pstepSample s = .next t ∧ t.hub.power.pins = p) ∧
    (s.arg = .value v → s.hub.boot.recovery = false → ∃ t, exec .setPowerStep s = .next t ∧ t.hub.power.command = v.setWidth 3 ∧
      t.hub.msix.getLast? = some 0) ∧
    (s.arg = .value v → s.hub.boot.recovery = true → exec .setPowerStep s = .next s) ∧
    (s.arg = .milliwatts n → capOf s.hub.power.step < n → s.hub.power.actions < s.hub.lastAction → ∃ t, exec .throttleEvaluation s = .next t ∧
      t.hub.power.actions = s.hub.power.actions + 1 ∧ t.hub.power.milliwatts = n) ∧
    (∀ rs, s.arg = .readings rs → ∃ t, exec .sensorCheck s = .next t ∧ t.hub.power.readings = rs) ∧
    (s.arg = .pins p → s.q.state = .active → (∀ c, s.q.wait ≠ .scan c) → ∃ t x c l, exec .powerFail s = .next t ∧ t.c = {} ∧ t.oc = {} ∧ t.outs = [] ∧
      t.mem = s.mem ∧ t.hub.boot.pfImage = some x ∧ x.complete = !p.getLsbD 1 ∧ x.contexts = c :: l ∧
      x.digest = shake256 64 (x.contexts.flatMap PfContext.bytes) ∧ fld c.c.cause.toNat 0 8 = 0x16 ∧ c.c.epc = (window s.c s.q).1 ∧
      c.c.einfo = BitVec.ofNat 64 ((if p.getLsbD 0 then 1 else 0) + s.now % 2 ^ 56 * 2 ^ 8) ∧ c.c.pc = s.c.tbase + 0x580 ∧
      c.record = mkRec 1 c.c.pc c.c.bead (putField c.c.home 0 10 s.logical) [c.c.rx 1, c.c.rx 2, c.c.rx 3, c.c.rx 4] 0) ∧
    (s.hub.boot.pfImage = none → ∃ t, exec .powerReturn s = .next t ∧ t.c = {} ∧ t.oc = {} ∧ t.outs = [] ∧ t.hub.beads = [] ∧ t.now = 0 ∧
      t.core.phys = s.core.phys ∧ t.core.remap = s.core.remap ∧ t.hub.map = s.hub.boot.map ∧ t.hub.owed = none) ∧
    (∀ x, s.hub.boot.pfImage = some x → ∃ t, exec .powerReturn s = .next t ∧ t.c = {} ∧ t.now = 0 ∧ t.hub.owed = some (0, if x.complete then 0 else 1) ∧
      (s.arg = .flag true → x.complete = true → x.digest = shake256 64 (x.contexts.flatMap PfContext.bytes) →
        t.hub.beads = x.contexts.map fun c => { record := c.record, strand := c.c.strand, index := c.c.index, ready := some 0, strips := c.c.cbmap
                                                saved := some (c.c, c.q, []), gang := false }) ∧
      (s.arg ≠ .flag true ∨ x.complete = false ∨ x.digest ≠ shake256 64 (x.contexts.flatMap PfContext.bytes) → t.hub.beads = [])) ∧
    ((∃ i < 19, s.hub.boot.verified (BitVec.ofNat 5 i) = none) → ∃ t, exec .boot s = .next t ∧ t = { s with
      fresh := s.fresh + 1
      hub := { s.hub with boot := { s.hub.boot with
        recovery := true, pattern := t.hub.boot.pattern, silentFrom := some (s.hub.boot.silentFrom.getD s.now) } } }) ∧
    ((∀ i < 19, s.hub.boot.verified (BitVec.ofNat 5 i) ≠ none) → ∃ t, exec .boot s = .next t ∧ t.hub.boot.recovery = false ∧ t.c = s.c ∧ t.mem = s.mem ∧
      some t.hub.boot.config = s.hub.boot.verified 18 ∧ t.hub.map = t.hub.boot.map ∧ t.hub.map = configMap t.hub.boot.config ∧
      t.hub.boot.digests = (List.range 19).map fun i => (Config.imageHeader ((s.hub.boot.verified (BitVec.ofNat 5 i)).getD [])).1) ∧
    (∀ nonce, s.arg = .bytes nonce → s.hub.boot.recovery = false → nonce.length ≤ 64 → ∃ t r seed, exec .attestation s = .next t ∧ OnlyHub s t ∧
      seed = shake256 57 (Config.correctedPattern s.hub.boot.pattern s.hub.boot.helper) ∧
      r = ed448Public seed ++ s.hub.boot.digests.flatten ++ shake256 64 s.hub.boot.config ++
        s.hub.map.flatMap (natBytes 2) ++ nonce ∧ t.hub.answer = r ++ ed448Sign seed r ∧ t.hub.msix = s.hub.msix ++ [0]) ∧
    (∀ i second bytes, s.arg = .image i second bytes → ∃ t, exec .imageWrite s = .next t ∧ OnlyHub s t ∧ t.hub.msix = s.hub.msix ++ [0] ∧
      t.hub.boot.flash.find? (fun f => f.1 == i && f.2.1 == second) = some (i, second, bytes) ∧
      (i ≠ 18 → t.hub.map = s.hub.map ∧ t.hub.boot.digests = s.hub.boot.digests) ∧
      (i = 18 → imageValid bytes = true → s.hub.boot.recovery = false → t.hub.map = s.hub.boot.map ∧
        (Config.imageHeader bytes).1 ∈ t.hub.boot.digests))


/-- The Reset columns of Tables 2-4 to 2-8, 2-16, 3-10, 3-11, 6-3, 7-3, 8-1, 9-7, 9-9, 10-9, 11-2, 11-5, 12-1, 12-2, 12-6, and 04
R126, 11 R343: what package reset leaves where the manual gives a value. -/
def Obligations.ResetLeavesTheStatedValues : Prop :=
  let s := State.reset
  s.now = 0 ∧ (∀ n, n < 16 → fld s.c.cbmap.toNat (4 * n) 4 = n) ∧ s.core.parkmax = 0x00100000 ∧ s.core.sleepmax = 0x00004000 ∧
  s.core.tlimit = 0x1A13B8 ∧ s.core.tinterval = 0xA6E4A ∧ s.core.deferEnd = none ∧ s.core.strikes = 0 ∧ s.core.orphans = 0 ∧
  s.core.bank = false ∧ s.oq.state = .empty ∧ s.hub.hostLatency = 1400 ∧ (∀ p : Fin 8, s.hub.rr[p] = 65535) ∧
  s.c.repc = 0 ∧ s.c.slip = 0 ∧ s.c.enpc = 0 ∧ s.c.epc = 0 ∧ s.c.cause = 0 ∧ s.c.fpcr = 0 ∧ s.c.fpsr = 0 ∧ s.c.xstat = 0 ∧
  s.c.preempt = 0 ∧ s.c.since = 0 ∧ (∀ d, s.c.rm d = 0) ∧ (∀ h, s.c.rh h = 0) ∧ (∀ g, s.c.rg g = 0)

/-- 02 R37, R45, R50: a bundle whose only word decodes to an operation, and whose checks, interlocks and bank reads find nothing
to hold, executes that operation in this cycle: `exec` on the state in which it has entered its slot, then the end of the
cycle. A header word is no operation of a slot. -/
def Obligations.StepExecutesTheDecodedOperation : Prop :=
  ∀ (s : State) (k : Slot) (n : BitVec 2) (w : Word) (i : Instr) (o : Slotted),
    (k, n) ∈ [(Slot.c, (0 : BitVec 2)), (.v, 1), (.m, 2), (.t, 3)] → AtRest s → s.fetch s.c.pc = .ok (loneWords n w) → w ≠ 0 →
    (n = 0 → fld w.toNat 28 4 ≠ 15) → decodeSlot k w.toNat = .ok i → s.bundleFault 0 (loneWords n w) = none → o = lone s n w i →
    s.interlocked o = false → s.unready o = false → s.clashes o = false → s.badJump [o] = none → (n = 1 → s.bankCost o = 0) →
    (issued s o).refusal o none = none →
      step s = match exec i (entered s o) with
        | .next t => .next (left s.core.bank o t)
        | .fault f => .fault f
        | .refused r => .refused r

/-- Words that the manual writes out in its examples (02 after R44, 04 Table 4-10, 05, 06, 07, 08 Table 8-10, 10 R312). -/
def Obligations.WordsOfTheManualDecode : Prop :=
  decodeSlot0 0xF404100E = .ok (.rep (.hrep 4 1 0 0 0xE)) ∧ decodeSlot0 0xF1E00000 = .ok (.ext (30 * 8) 0 0) ∧
  decodeSlot .c 0x1C200005 = .ok (.li 1 5) ∧ decodeSlot .c 0x0C610001 = .ok (.andi 3 1 1) ∧
  decodeSlot .c 0x28918000 = .ok (.cmpi 1 1 3 0) ∧ decodeSlot .c 0x04420900 = .ok (.add 2 2 1 1) ∧
  decodeSlot .c 0x783FFFFD = .ok (.loop 1 (-3)) ∧ decodeSlot .v 0x0831AA40 = .ok (.vfma 6 13 20 2 0 0) ∧
  decodeSlot .v 0x084000C0 = .ok (.vfma 8 0 1 2 0 0) ∧ decodeSlot .m 0x45020001 = .ok (.mmaCk 2 0 1 0 1) ∧
  decodeSlot .m 0x82000009 = .ok (.mlu 4 0 2 1) ∧ decodeSlot .t 0x0A722580 = .ok (.hder 3 9 1 2 0b11000) ∧
  decodeSlot .t 0x2A219A00 = .ok (.vlds 4 3 3 4 0) ∧ decodeSlot .t 0x107CA000 = .ok (.hst 3 14 5 0) ∧
  decodeSlot .t 0x34072808 = .ok (.cst 0 14 5 0 8) ∧ decodeSlot .t 0x0EDCA000 = .ok (.hld 6 14 5 0) ∧
  decodeSlot .t 0xA0109047 = .ok (.atmAdd 2 2 4 1 3 1)

/-- 02 R39, R46, R47 and the encoding tables of the class chapters: every well-formed operation of a slot decodes from its word,
with every field at every value. -/
def Obligations.EveryOperationDecodesFromItsWord : Prop :=
  ∀ (i : Instr) (k : Slot), slotOf i = some k → i.wf = true → encodeNat i < 2 ^ 32 ∧ decodeSlot k (encodeNat i) = .ok i

/-- 00 R10, 02 R46: a word that decodes is the word of its operation, so no bit of it is ignored and a reserved field is 0. -/
def Obligations.EveryDecodedWordIsItsOperationsWord : Prop :=
  ∀ (k : Slot) (w : Nat) (i : Instr), w ≠ 0 → w < 2 ^ 32 → decodeSlot k w = .ok i → slotOf i = some k ∧ i.wf = true ∧ encodeNat i = w

/-- Every step keeps memory in its canonical form: strictly rising addresses, and no cell that holds what an unlisted address
reads as. The form is the model's own (log 1). -/
def Obligations.EveryStepKeepsMemoryCanonical : Prop :=
  ∀ s t : State, s.mem.wf = true → step s = .next t → t.mem.wf = true

/-- The machine stops nowhere: whatever its state, a step answers a next state, unless the clock of 04 R126, which never wraps in
service, is at its end. -/
def Obligations.NoInstructionStopsTheMachine : Prop :=
  ∀ s : State, (s.now + 1 < 2 ^ 64 → ∃ t, step s = .next t) ∧ (2 ^ 64 ≤ s.now + 1 → step s = .fault .clockExhausted)

end
end

