-- ==== Sys2Proof/Laws/State.lean ====
section
/-! SUPPORT. What each named update of the context and of the state leaves in each field, so that no proof unfolds a record update; and what a register reads after a write. -/

namespace Sys2Proof.Machine

/-! ## `Ctx.wx` -/

/-- Only the field `x` changes. -/
theorem Ctx.wx_frame (c : Ctx) (r : BitVec 5) (w : DWord) : c.wx r w = { c with x := (c.wx r w).x } := by
  unfold Ctx.wx; split <;> rfl

@[simp] theorem Ctx.wx_pc (c : Ctx) (r : BitVec 5) (w : DWord) : (c.wx r w).pc = c.pc := 
  (congrArg Ctx.pc (Ctx.wx_frame c r w)).trans ((fun z => (rfl : ({ c with x := z } : Ctx).pc = c.pc)) _)
@[simp] theorem Ctx.wx_sys (c : Ctx) (r : BitVec 5) (w : DWord) : (c.wx r w).sys = c.sys := 
  (congrArg Ctx.sys (Ctx.wx_frame c r w)).trans ((fun z => (rfl : ({ c with x := z } : Ctx).sys = c.sys)) _)
@[simp] theorem Ctx.wx_k (c : Ctx) (r : BitVec 5) (w : DWord) : (c.wx r w).k = c.k := 
  (congrArg Ctx.k (Ctx.wx_frame c r w)).trans ((fun z => (rfl : ({ c with x := z } : Ctx).k = c.k)) _)
@[simp] theorem Ctx.wx_v (c : Ctx) (r : BitVec 5) (w : DWord) : (c.wx r w).v = c.v := 
  (congrArg Ctx.v (Ctx.wx_frame c r w)).trans ((fun z => (rfl : ({ c with x := z } : Ctx).v = c.v)) _)
@[simp] theorem Ctx.wx_vm (c : Ctx) (r : BitVec 5) (w : DWord) : (c.wx r w).vm = c.vm := 
  (congrArg Ctx.vm (Ctx.wx_frame c r w)).trans ((fun z => (rfl : ({ c with x := z } : Ctx).vm = c.vm)) _)
@[simp] theorem Ctx.wx_m (c : Ctx) (r : BitVec 5) (w : DWord) : (c.wx r w).m = c.m := 
  (congrArg Ctx.m (Ctx.wx_frame c r w)).trans ((fun z => (rfl : ({ c with x := z } : Ctx).m = c.m)) _)
@[simp] theorem Ctx.wx_pv (c : Ctx) (r : BitVec 5) (w : DWord) : (c.wx r w).pv = c.pv := 
  (congrArg Ctx.pv (Ctx.wx_frame c r w)).trans ((fun z => (rfl : ({ c with x := z } : Ctx).pv = c.pv)) _)
@[simp] theorem Ctx.wx_g (c : Ctx) (r : BitVec 5) (w : DWord) : (c.wx r w).g = c.g := 
  (congrArg Ctx.g (Ctx.wx_frame c r w)).trans ((fun z => (rfl : ({ c with x := z } : Ctx).g = c.g)) _)
@[simp] theorem Ctx.wx_a (c : Ctx) (r : BitVec 5) (w : DWord) : (c.wx r w).a = c.a := 
  (congrArg Ctx.a (Ctx.wx_frame c r w)).trans ((fun z => (rfl : ({ c with x := z } : Ctx).a = c.a)) _)
@[simp] theorem Ctx.wx_h (c : Ctx) (r : BitVec 5) (w : DWord) : (c.wx r w).h = c.h := 
  (congrArg Ctx.h (Ctx.wx_frame c r w)).trans ((fun z => (rfl : ({ c with x := z } : Ctx).h = c.h)) _)
@[simp] theorem Ctx.wx_ps (c : Ctx) (r : BitVec 5) (w : DWord) : (c.wx r w).ps = c.ps := 
  (congrArg Ctx.ps (Ctx.wx_frame c r w)).trans ((fun z => (rfl : ({ c with x := z } : Ctx).ps = c.ps)) _)
@[simp] theorem Ctx.wx_port (c : Ctx) (r : BitVec 5) (w : DWord) : (c.wx r w).port = c.port := 
  (congrArg Ctx.port (Ctx.wx_frame c r w)).trans ((fun z => (rfl : ({ c with x := z } : Ctx).port = c.port)) _)
@[simp] theorem Ctx.wx_pat0 (c : Ctx) (r : BitVec 5) (w : DWord) : (c.wx r w).pat0 = c.pat0 := 
  (congrArg Ctx.pat0 (Ctx.wx_frame c r w)).trans ((fun z => (rfl : ({ c with x := z } : Ctx).pat0 = c.pat0)) _)
@[simp] theorem Ctx.wx_pat1 (c : Ctx) (r : BitVec 5) (w : DWord) : (c.wx r w).pat1 = c.pat1 := 
  (congrArg Ctx.pat1 (Ctx.wx_frame c r w)).trans ((fun z => (rfl : ({ c with x := z } : Ctx).pat1 = c.pat1)) _)
@[simp] theorem Ctx.wx_patActive (c : Ctx) (r : BitVec 5) (w : DWord) : (c.wx r w).patActive = c.patActive := 
  (congrArg Ctx.patActive (Ctx.wx_frame c r w)).trans ((fun z => (rfl : ({ c with x := z } : Ctx).patActive = c.patActive)) _)
@[simp] theorem Ctx.wx_fpcr (c : Ctx) (r : BitVec 5) (w : DWord) : (c.wx r w).fpcr = c.fpcr := 
  (congrArg Ctx.fpcr (Ctx.wx_frame c r w)).trans ((fun z => (rfl : ({ c with x := z } : Ctx).fpcr = c.fpcr)) _)
@[simp] theorem Ctx.wx_fpsr (c : Ctx) (r : BitVec 5) (w : DWord) : (c.wx r w).fpsr = c.fpsr := 
  (congrArg Ctx.fpsr (Ctx.wx_frame c r w)).trans ((fun z => (rfl : ({ c with x := z } : Ctx).fpsr = c.fpsr)) _)
@[simp] theorem Ctx.wx_cf (c : Ctx) (r : BitVec 5) (w : DWord) : (c.wx r w).cf = c.cf := 
  (congrArg Ctx.cf (Ctx.wx_frame c r w)).trans ((fun z => (rfl : ({ c with x := z } : Ctx).cf = c.cf)) _)
@[simp] theorem Ctx.wx_cause (c : Ctx) (r : BitVec 5) (w : DWord) : (c.wx r w).cause = c.cause := 
  (congrArg Ctx.cause (Ctx.wx_frame c r w)).trans ((fun z => (rfl : ({ c with x := z } : Ctx).cause = c.cause)) _)
@[simp] theorem Ctx.wx_epc (c : Ctx) (r : BitVec 5) (w : DWord) : (c.wx r w).epc = c.epc := 
  (congrArg Ctx.epc (Ctx.wx_frame c r w)).trans ((fun z => (rfl : ({ c with x := z } : Ctx).epc = c.epc)) _)
@[simp] theorem Ctx.wx_einfo (c : Ctx) (r : BitVec 5) (w : DWord) : (c.wx r w).einfo = c.einfo := 
  (congrArg Ctx.einfo (Ctx.wx_frame c r w)).trans ((fun z => (rfl : ({ c with x := z } : Ctx).einfo = c.einfo)) _)
@[simp] theorem Ctx.wx_tbase (c : Ctx) (r : BitVec 5) (w : DWord) : (c.wx r w).tbase = c.tbase := 
  (congrArg Ctx.tbase (Ctx.wx_frame c r w)).trans ((fun z => (rfl : ({ c with x := z } : Ctx).tbase = c.tbase)) _)
@[simp] theorem Ctx.wx_repc (c : Ctx) (r : BitVec 5) (w : DWord) : (c.wx r w).repc = c.repc := 
  (congrArg Ctx.repc (Ctx.wx_frame c r w)).trans ((fun z => (rfl : ({ c with x := z } : Ctx).repc = c.repc)) _)
@[simp] theorem Ctx.wx_slip (c : Ctx) (r : BitVec 5) (w : DWord) : (c.wx r w).slip = c.slip := 
  (congrArg Ctx.slip (Ctx.wx_frame c r w)).trans ((fun z => (rfl : ({ c with x := z } : Ctx).slip = c.slip)) _)
@[simp] theorem Ctx.wx_enpc (c : Ctx) (r : BitVec 5) (w : DWord) : (c.wx r w).enpc = c.enpc := 
  (congrArg Ctx.enpc (Ctx.wx_frame c r w)).trans ((fun z => (rfl : ({ c with x := z } : Ctx).enpc = c.enpc)) _)
@[simp] theorem Ctx.wx_cbmap (c : Ctx) (r : BitVec 5) (w : DWord) : (c.wx r w).cbmap = c.cbmap := 
  (congrArg Ctx.cbmap (Ctx.wx_frame c r w)).trans ((fun z => (rfl : ({ c with x := z } : Ctx).cbmap = c.cbmap)) _)
@[simp] theorem Ctx.wx_seg (c : Ctx) (r : BitVec 5) (w : DWord) : (c.wx r w).seg = c.seg := 
  (congrArg Ctx.seg (Ctx.wx_frame c r w)).trans ((fun z => (rfl : ({ c with x := z } : Ctx).seg = c.seg)) _)
@[simp] theorem Ctx.wx_bead (c : Ctx) (r : BitVec 5) (w : DWord) : (c.wx r w).bead = c.bead := 
  (congrArg Ctx.bead (Ctx.wx_frame c r w)).trans ((fun z => (rfl : ({ c with x := z } : Ctx).bead = c.bead)) _)
@[simp] theorem Ctx.wx_preempt (c : Ctx) (r : BitVec 5) (w : DWord) : (c.wx r w).preempt = c.preempt := 
  (congrArg Ctx.preempt (Ctx.wx_frame c r w)).trans ((fun z => (rfl : ({ c with x := z } : Ctx).preempt = c.preempt)) _)
@[simp] theorem Ctx.wx_since (c : Ctx) (r : BitVec 5) (w : DWord) : (c.wx r w).since = c.since := 
  (congrArg Ctx.since (Ctx.wx_frame c r w)).trans ((fun z => (rfl : ({ c with x := z } : Ctx).since = c.since)) _)
@[simp] theorem Ctx.wx_home (c : Ctx) (r : BitVec 5) (w : DWord) : (c.wx r w).home = c.home := 
  (congrArg Ctx.home (Ctx.wx_frame c r w)).trans ((fun z => (rfl : ({ c with x := z } : Ctx).home = c.home)) _)
@[simp] theorem Ctx.wx_index (c : Ctx) (r : BitVec 5) (w : DWord) : (c.wx r w).index = c.index := 
  (congrArg Ctx.index (Ctx.wx_frame c r w)).trans ((fun z => (rfl : ({ c with x := z } : Ctx).index = c.index)) _)
@[simp] theorem Ctx.wx_strips (c : Ctx) (r : BitVec 5) (w : DWord) : (c.wx r w).strips = c.strips := 
  (congrArg Ctx.strips (Ctx.wx_frame c r w)).trans ((fun z => (rfl : ({ c with x := z } : Ctx).strips = c.strips)) _)
@[simp] theorem Ctx.wx_allot15 (c : Ctx) (r : BitVec 5) (w : DWord) : (c.wx r w).allot15 = c.allot15 := 
  (congrArg Ctx.allot15 (Ctx.wx_frame c r w)).trans ((fun z => (rfl : ({ c with x := z } : Ctx).allot15 = c.allot15)) _)
@[simp] theorem Ctx.wx_xstat (c : Ctx) (r : BitVec 5) (w : DWord) : (c.wx r w).xstat = c.xstat := 
  (congrArg Ctx.xstat (Ctx.wx_frame c r w)).trans ((fun z => (rfl : ({ c with x := z } : Ctx).xstat = c.xstat)) _)
@[simp] theorem Ctx.wx_lent (c : Ctx) (r : BitVec 5) (w : DWord) : (c.wx r w).lent = c.lent := 
  (congrArg Ctx.lent (Ctx.wx_frame c r w)).trans ((fun z => (rfl : ({ c with x := z } : Ctx).lent = c.lent)) _)
@[simp] theorem Ctx.wx_wstr (c : Ctx) (r : BitVec 5) (w : DWord) : (c.wx r w).wstr = c.wstr := 
  (congrArg Ctx.wstr (Ctx.wx_frame c r w)).trans ((fun z => (rfl : ({ c with x := z } : Ctx).wstr = c.wstr)) _)
@[simp] theorem Ctx.wx_latch (c : Ctx) (r : BitVec 5) (w : DWord) : (c.wx r w).latch = c.latch := 
  (congrArg Ctx.latch (Ctx.wx_frame c r w)).trans ((fun z => (rfl : ({ c with x := z } : Ctx).latch = c.latch)) _)
@[simp] theorem Ctx.wx_windows (c : Ctx) (r : BitVec 5) (w : DWord) : (c.wx r w).windows = c.windows := 
  (congrArg Ctx.windows (Ctx.wx_frame c r w)).trans ((fun z => (rfl : ({ c with x := z } : Ctx).windows = c.windows)) _)

/-! ## `Ctx.wk` -/

/-- Only the field `k` changes. -/
theorem Ctx.wk_frame (c : Ctx) (r : BitVec 3) (w : Bool) : c.wk r w = { c with k := (c.wk r w).k } := by
  unfold Ctx.wk; split <;> rfl

@[simp] theorem Ctx.wk_pc (c : Ctx) (r : BitVec 3) (w : Bool) : (c.wk r w).pc = c.pc := 
  (congrArg Ctx.pc (Ctx.wk_frame c r w)).trans ((fun z => (rfl : ({ c with k := z } : Ctx).pc = c.pc)) _)
@[simp] theorem Ctx.wk_sys (c : Ctx) (r : BitVec 3) (w : Bool) : (c.wk r w).sys = c.sys := 
  (congrArg Ctx.sys (Ctx.wk_frame c r w)).trans ((fun z => (rfl : ({ c with k := z } : Ctx).sys = c.sys)) _)
@[simp] theorem Ctx.wk_x (c : Ctx) (r : BitVec 3) (w : Bool) : (c.wk r w).x = c.x := 
  (congrArg Ctx.x (Ctx.wk_frame c r w)).trans ((fun z => (rfl : ({ c with k := z } : Ctx).x = c.x)) _)
@[simp] theorem Ctx.wk_v (c : Ctx) (r : BitVec 3) (w : Bool) : (c.wk r w).v = c.v := 
  (congrArg Ctx.v (Ctx.wk_frame c r w)).trans ((fun z => (rfl : ({ c with k := z } : Ctx).v = c.v)) _)
@[simp] theorem Ctx.wk_vm (c : Ctx) (r : BitVec 3) (w : Bool) : (c.wk r w).vm = c.vm := 
  (congrArg Ctx.vm (Ctx.wk_frame c r w)).trans ((fun z => (rfl : ({ c with k := z } : Ctx).vm = c.vm)) _)
@[simp] theorem Ctx.wk_m (c : Ctx) (r : BitVec 3) (w : Bool) : (c.wk r w).m = c.m := 
  (congrArg Ctx.m (Ctx.wk_frame c r w)).trans ((fun z => (rfl : ({ c with k := z } : Ctx).m = c.m)) _)
@[simp] theorem Ctx.wk_pv (c : Ctx) (r : BitVec 3) (w : Bool) : (c.wk r w).pv = c.pv := 
  (congrArg Ctx.pv (Ctx.wk_frame c r w)).trans ((fun z => (rfl : ({ c with k := z } : Ctx).pv = c.pv)) _)
@[simp] theorem Ctx.wk_g (c : Ctx) (r : BitVec 3) (w : Bool) : (c.wk r w).g = c.g := 
  (congrArg Ctx.g (Ctx.wk_frame c r w)).trans ((fun z => (rfl : ({ c with k := z } : Ctx).g = c.g)) _)
@[simp] theorem Ctx.wk_a (c : Ctx) (r : BitVec 3) (w : Bool) : (c.wk r w).a = c.a := 
  (congrArg Ctx.a (Ctx.wk_frame c r w)).trans ((fun z => (rfl : ({ c with k := z } : Ctx).a = c.a)) _)
@[simp] theorem Ctx.wk_h (c : Ctx) (r : BitVec 3) (w : Bool) : (c.wk r w).h = c.h := 
  (congrArg Ctx.h (Ctx.wk_frame c r w)).trans ((fun z => (rfl : ({ c with k := z } : Ctx).h = c.h)) _)
@[simp] theorem Ctx.wk_ps (c : Ctx) (r : BitVec 3) (w : Bool) : (c.wk r w).ps = c.ps := 
  (congrArg Ctx.ps (Ctx.wk_frame c r w)).trans ((fun z => (rfl : ({ c with k := z } : Ctx).ps = c.ps)) _)
@[simp] theorem Ctx.wk_port (c : Ctx) (r : BitVec 3) (w : Bool) : (c.wk r w).port = c.port := 
  (congrArg Ctx.port (Ctx.wk_frame c r w)).trans ((fun z => (rfl : ({ c with k := z } : Ctx).port = c.port)) _)
@[simp] theorem Ctx.wk_pat0 (c : Ctx) (r : BitVec 3) (w : Bool) : (c.wk r w).pat0 = c.pat0 := 
  (congrArg Ctx.pat0 (Ctx.wk_frame c r w)).trans ((fun z => (rfl : ({ c with k := z } : Ctx).pat0 = c.pat0)) _)
@[simp] theorem Ctx.wk_pat1 (c : Ctx) (r : BitVec 3) (w : Bool) : (c.wk r w).pat1 = c.pat1 := 
  (congrArg Ctx.pat1 (Ctx.wk_frame c r w)).trans ((fun z => (rfl : ({ c with k := z } : Ctx).pat1 = c.pat1)) _)
@[simp] theorem Ctx.wk_patActive (c : Ctx) (r : BitVec 3) (w : Bool) : (c.wk r w).patActive = c.patActive := 
  (congrArg Ctx.patActive (Ctx.wk_frame c r w)).trans ((fun z => (rfl : ({ c with k := z } : Ctx).patActive = c.patActive)) _)
@[simp] theorem Ctx.wk_fpcr (c : Ctx) (r : BitVec 3) (w : Bool) : (c.wk r w).fpcr = c.fpcr := 
  (congrArg Ctx.fpcr (Ctx.wk_frame c r w)).trans ((fun z => (rfl : ({ c with k := z } : Ctx).fpcr = c.fpcr)) _)
@[simp] theorem Ctx.wk_fpsr (c : Ctx) (r : BitVec 3) (w : Bool) : (c.wk r w).fpsr = c.fpsr := 
  (congrArg Ctx.fpsr (Ctx.wk_frame c r w)).trans ((fun z => (rfl : ({ c with k := z } : Ctx).fpsr = c.fpsr)) _)
@[simp] theorem Ctx.wk_cf (c : Ctx) (r : BitVec 3) (w : Bool) : (c.wk r w).cf = c.cf := 
  (congrArg Ctx.cf (Ctx.wk_frame c r w)).trans ((fun z => (rfl : ({ c with k := z } : Ctx).cf = c.cf)) _)
@[simp] theorem Ctx.wk_cause (c : Ctx) (r : BitVec 3) (w : Bool) : (c.wk r w).cause = c.cause := 
  (congrArg Ctx.cause (Ctx.wk_frame c r w)).trans ((fun z => (rfl : ({ c with k := z } : Ctx).cause = c.cause)) _)
@[simp] theorem Ctx.wk_epc (c : Ctx) (r : BitVec 3) (w : Bool) : (c.wk r w).epc = c.epc := 
  (congrArg Ctx.epc (Ctx.wk_frame c r w)).trans ((fun z => (rfl : ({ c with k := z } : Ctx).epc = c.epc)) _)
@[simp] theorem Ctx.wk_einfo (c : Ctx) (r : BitVec 3) (w : Bool) : (c.wk r w).einfo = c.einfo := 
  (congrArg Ctx.einfo (Ctx.wk_frame c r w)).trans ((fun z => (rfl : ({ c with k := z } : Ctx).einfo = c.einfo)) _)
@[simp] theorem Ctx.wk_tbase (c : Ctx) (r : BitVec 3) (w : Bool) : (c.wk r w).tbase = c.tbase := 
  (congrArg Ctx.tbase (Ctx.wk_frame c r w)).trans ((fun z => (rfl : ({ c with k := z } : Ctx).tbase = c.tbase)) _)
@[simp] theorem Ctx.wk_repc (c : Ctx) (r : BitVec 3) (w : Bool) : (c.wk r w).repc = c.repc := 
  (congrArg Ctx.repc (Ctx.wk_frame c r w)).trans ((fun z => (rfl : ({ c with k := z } : Ctx).repc = c.repc)) _)
@[simp] theorem Ctx.wk_slip (c : Ctx) (r : BitVec 3) (w : Bool) : (c.wk r w).slip = c.slip := 
  (congrArg Ctx.slip (Ctx.wk_frame c r w)).trans ((fun z => (rfl : ({ c with k := z } : Ctx).slip = c.slip)) _)
@[simp] theorem Ctx.wk_enpc (c : Ctx) (r : BitVec 3) (w : Bool) : (c.wk r w).enpc = c.enpc := 
  (congrArg Ctx.enpc (Ctx.wk_frame c r w)).trans ((fun z => (rfl : ({ c with k := z } : Ctx).enpc = c.enpc)) _)
@[simp] theorem Ctx.wk_cbmap (c : Ctx) (r : BitVec 3) (w : Bool) : (c.wk r w).cbmap = c.cbmap := 
  (congrArg Ctx.cbmap (Ctx.wk_frame c r w)).trans ((fun z => (rfl : ({ c with k := z } : Ctx).cbmap = c.cbmap)) _)
@[simp] theorem Ctx.wk_seg (c : Ctx) (r : BitVec 3) (w : Bool) : (c.wk r w).seg = c.seg := 
  (congrArg Ctx.seg (Ctx.wk_frame c r w)).trans ((fun z => (rfl : ({ c with k := z } : Ctx).seg = c.seg)) _)
@[simp] theorem Ctx.wk_bead (c : Ctx) (r : BitVec 3) (w : Bool) : (c.wk r w).bead = c.bead := 
  (congrArg Ctx.bead (Ctx.wk_frame c r w)).trans ((fun z => (rfl : ({ c with k := z } : Ctx).bead = c.bead)) _)
@[simp] theorem Ctx.wk_preempt (c : Ctx) (r : BitVec 3) (w : Bool) : (c.wk r w).preempt = c.preempt := 
  (congrArg Ctx.preempt (Ctx.wk_frame c r w)).trans ((fun z => (rfl : ({ c with k := z } : Ctx).preempt = c.preempt)) _)
@[simp] theorem Ctx.wk_since (c : Ctx) (r : BitVec 3) (w : Bool) : (c.wk r w).since = c.since := 
  (congrArg Ctx.since (Ctx.wk_frame c r w)).trans ((fun z => (rfl : ({ c with k := z } : Ctx).since = c.since)) _)
@[simp] theorem Ctx.wk_home (c : Ctx) (r : BitVec 3) (w : Bool) : (c.wk r w).home = c.home := 
  (congrArg Ctx.home (Ctx.wk_frame c r w)).trans ((fun z => (rfl : ({ c with k := z } : Ctx).home = c.home)) _)
@[simp] theorem Ctx.wk_index (c : Ctx) (r : BitVec 3) (w : Bool) : (c.wk r w).index = c.index := 
  (congrArg Ctx.index (Ctx.wk_frame c r w)).trans ((fun z => (rfl : ({ c with k := z } : Ctx).index = c.index)) _)
@[simp] theorem Ctx.wk_strips (c : Ctx) (r : BitVec 3) (w : Bool) : (c.wk r w).strips = c.strips := 
  (congrArg Ctx.strips (Ctx.wk_frame c r w)).trans ((fun z => (rfl : ({ c with k := z } : Ctx).strips = c.strips)) _)
@[simp] theorem Ctx.wk_allot15 (c : Ctx) (r : BitVec 3) (w : Bool) : (c.wk r w).allot15 = c.allot15 := 
  (congrArg Ctx.allot15 (Ctx.wk_frame c r w)).trans ((fun z => (rfl : ({ c with k := z } : Ctx).allot15 = c.allot15)) _)
@[simp] theorem Ctx.wk_xstat (c : Ctx) (r : BitVec 3) (w : Bool) : (c.wk r w).xstat = c.xstat := 
  (congrArg Ctx.xstat (Ctx.wk_frame c r w)).trans ((fun z => (rfl : ({ c with k := z } : Ctx).xstat = c.xstat)) _)
@[simp] theorem Ctx.wk_lent (c : Ctx) (r : BitVec 3) (w : Bool) : (c.wk r w).lent = c.lent := 
  (congrArg Ctx.lent (Ctx.wk_frame c r w)).trans ((fun z => (rfl : ({ c with k := z } : Ctx).lent = c.lent)) _)
@[simp] theorem Ctx.wk_wstr (c : Ctx) (r : BitVec 3) (w : Bool) : (c.wk r w).wstr = c.wstr := 
  (congrArg Ctx.wstr (Ctx.wk_frame c r w)).trans ((fun z => (rfl : ({ c with k := z } : Ctx).wstr = c.wstr)) _)
@[simp] theorem Ctx.wk_latch (c : Ctx) (r : BitVec 3) (w : Bool) : (c.wk r w).latch = c.latch := 
  (congrArg Ctx.latch (Ctx.wk_frame c r w)).trans ((fun z => (rfl : ({ c with k := z } : Ctx).latch = c.latch)) _)
@[simp] theorem Ctx.wk_windows (c : Ctx) (r : BitVec 3) (w : Bool) : (c.wk r w).windows = c.windows := 
  (congrArg Ctx.windows (Ctx.wk_frame c r w)).trans ((fun z => (rfl : ({ c with k := z } : Ctx).windows = c.windows)) _)

/-! ## `Ctx.wvm` -/

/-- Only the field `vm` changes. -/
theorem Ctx.wvm_frame (c : Ctx) (r : BitVec 3) (w : BitVec 128) : c.wvm r w = { c with vm := (c.wvm r w).vm } := by
  unfold Ctx.wvm; split <;> rfl

@[simp] theorem Ctx.wvm_pc (c : Ctx) (r : BitVec 3) (w : BitVec 128) : (c.wvm r w).pc = c.pc := 
  (congrArg Ctx.pc (Ctx.wvm_frame c r w)).trans ((fun z => (rfl : ({ c with vm := z } : Ctx).pc = c.pc)) _)
@[simp] theorem Ctx.wvm_sys (c : Ctx) (r : BitVec 3) (w : BitVec 128) : (c.wvm r w).sys = c.sys := 
  (congrArg Ctx.sys (Ctx.wvm_frame c r w)).trans ((fun z => (rfl : ({ c with vm := z } : Ctx).sys = c.sys)) _)
@[simp] theorem Ctx.wvm_x (c : Ctx) (r : BitVec 3) (w : BitVec 128) : (c.wvm r w).x = c.x := 
  (congrArg Ctx.x (Ctx.wvm_frame c r w)).trans ((fun z => (rfl : ({ c with vm := z } : Ctx).x = c.x)) _)
@[simp] theorem Ctx.wvm_k (c : Ctx) (r : BitVec 3) (w : BitVec 128) : (c.wvm r w).k = c.k := 
  (congrArg Ctx.k (Ctx.wvm_frame c r w)).trans ((fun z => (rfl : ({ c with vm := z } : Ctx).k = c.k)) _)
@[simp] theorem Ctx.wvm_v (c : Ctx) (r : BitVec 3) (w : BitVec 128) : (c.wvm r w).v = c.v := 
  (congrArg Ctx.v (Ctx.wvm_frame c r w)).trans ((fun z => (rfl : ({ c with vm := z } : Ctx).v = c.v)) _)
@[simp] theorem Ctx.wvm_m (c : Ctx) (r : BitVec 3) (w : BitVec 128) : (c.wvm r w).m = c.m := 
  (congrArg Ctx.m (Ctx.wvm_frame c r w)).trans ((fun z => (rfl : ({ c with vm := z } : Ctx).m = c.m)) _)
@[simp] theorem Ctx.wvm_pv (c : Ctx) (r : BitVec 3) (w : BitVec 128) : (c.wvm r w).pv = c.pv := 
  (congrArg Ctx.pv (Ctx.wvm_frame c r w)).trans ((fun z => (rfl : ({ c with vm := z } : Ctx).pv = c.pv)) _)
@[simp] theorem Ctx.wvm_g (c : Ctx) (r : BitVec 3) (w : BitVec 128) : (c.wvm r w).g = c.g := 
  (congrArg Ctx.g (Ctx.wvm_frame c r w)).trans ((fun z => (rfl : ({ c with vm := z } : Ctx).g = c.g)) _)
@[simp] theorem Ctx.wvm_a (c : Ctx) (r : BitVec 3) (w : BitVec 128) : (c.wvm r w).a = c.a := 
  (congrArg Ctx.a (Ctx.wvm_frame c r w)).trans ((fun z => (rfl : ({ c with vm := z } : Ctx).a = c.a)) _)
@[simp] theorem Ctx.wvm_h (c : Ctx) (r : BitVec 3) (w : BitVec 128) : (c.wvm r w).h = c.h := 
  (congrArg Ctx.h (Ctx.wvm_frame c r w)).trans ((fun z => (rfl : ({ c with vm := z } : Ctx).h = c.h)) _)
@[simp] theorem Ctx.wvm_ps (c : Ctx) (r : BitVec 3) (w : BitVec 128) : (c.wvm r w).ps = c.ps := 
  (congrArg Ctx.ps (Ctx.wvm_frame c r w)).trans ((fun z => (rfl : ({ c with vm := z } : Ctx).ps = c.ps)) _)
@[simp] theorem Ctx.wvm_port (c : Ctx) (r : BitVec 3) (w : BitVec 128) : (c.wvm r w).port = c.port := 
  (congrArg Ctx.port (Ctx.wvm_frame c r w)).trans ((fun z => (rfl : ({ c with vm := z } : Ctx).port = c.port)) _)
@[simp] theorem Ctx.wvm_pat0 (c : Ctx) (r : BitVec 3) (w : BitVec 128) : (c.wvm r w).pat0 = c.pat0 := 
  (congrArg Ctx.pat0 (Ctx.wvm_frame c r w)).trans ((fun z => (rfl : ({ c with vm := z } : Ctx).pat0 = c.pat0)) _)
@[simp] theorem Ctx.wvm_pat1 (c : Ctx) (r : BitVec 3) (w : BitVec 128) : (c.wvm r w).pat1 = c.pat1 := 
  (congrArg Ctx.pat1 (Ctx.wvm_frame c r w)).trans ((fun z => (rfl : ({ c with vm := z } : Ctx).pat1 = c.pat1)) _)
@[simp] theorem Ctx.wvm_patActive (c : Ctx) (r : BitVec 3) (w : BitVec 128) : (c.wvm r w).patActive = c.patActive := 
  (congrArg Ctx.patActive (Ctx.wvm_frame c r w)).trans ((fun z => (rfl : ({ c with vm := z } : Ctx).patActive = c.patActive)) _)
@[simp] theorem Ctx.wvm_fpcr (c : Ctx) (r : BitVec 3) (w : BitVec 128) : (c.wvm r w).fpcr = c.fpcr := 
  (congrArg Ctx.fpcr (Ctx.wvm_frame c r w)).trans ((fun z => (rfl : ({ c with vm := z } : Ctx).fpcr = c.fpcr)) _)
@[simp] theorem Ctx.wvm_fpsr (c : Ctx) (r : BitVec 3) (w : BitVec 128) : (c.wvm r w).fpsr = c.fpsr := 
  (congrArg Ctx.fpsr (Ctx.wvm_frame c r w)).trans ((fun z => (rfl : ({ c with vm := z } : Ctx).fpsr = c.fpsr)) _)
@[simp] theorem Ctx.wvm_cf (c : Ctx) (r : BitVec 3) (w : BitVec 128) : (c.wvm r w).cf = c.cf := 
  (congrArg Ctx.cf (Ctx.wvm_frame c r w)).trans ((fun z => (rfl : ({ c with vm := z } : Ctx).cf = c.cf)) _)
@[simp] theorem Ctx.wvm_cause (c : Ctx) (r : BitVec 3) (w : BitVec 128) : (c.wvm r w).cause = c.cause := 
  (congrArg Ctx.cause (Ctx.wvm_frame c r w)).trans ((fun z => (rfl : ({ c with vm := z } : Ctx).cause = c.cause)) _)
@[simp] theorem Ctx.wvm_epc (c : Ctx) (r : BitVec 3) (w : BitVec 128) : (c.wvm r w).epc = c.epc := 
  (congrArg Ctx.epc (Ctx.wvm_frame c r w)).trans ((fun z => (rfl : ({ c with vm := z } : Ctx).epc = c.epc)) _)
@[simp] theorem Ctx.wvm_einfo (c : Ctx) (r : BitVec 3) (w : BitVec 128) : (c.wvm r w).einfo = c.einfo := 
  (congrArg Ctx.einfo (Ctx.wvm_frame c r w)).trans ((fun z => (rfl : ({ c with vm := z } : Ctx).einfo = c.einfo)) _)
@[simp] theorem Ctx.wvm_tbase (c : Ctx) (r : BitVec 3) (w : BitVec 128) : (c.wvm r w).tbase = c.tbase := 
  (congrArg Ctx.tbase (Ctx.wvm_frame c r w)).trans ((fun z => (rfl : ({ c with vm := z } : Ctx).tbase = c.tbase)) _)
@[simp] theorem Ctx.wvm_repc (c : Ctx) (r : BitVec 3) (w : BitVec 128) : (c.wvm r w).repc = c.repc := 
  (congrArg Ctx.repc (Ctx.wvm_frame c r w)).trans ((fun z => (rfl : ({ c with vm := z } : Ctx).repc = c.repc)) _)
@[simp] theorem Ctx.wvm_slip (c : Ctx) (r : BitVec 3) (w : BitVec 128) : (c.wvm r w).slip = c.slip := 
  (congrArg Ctx.slip (Ctx.wvm_frame c r w)).trans ((fun z => (rfl : ({ c with vm := z } : Ctx).slip = c.slip)) _)
@[simp] theorem Ctx.wvm_enpc (c : Ctx) (r : BitVec 3) (w : BitVec 128) : (c.wvm r w).enpc = c.enpc := 
  (congrArg Ctx.enpc (Ctx.wvm_frame c r w)).trans ((fun z => (rfl : ({ c with vm := z } : Ctx).enpc = c.enpc)) _)
@[simp] theorem Ctx.wvm_cbmap (c : Ctx) (r : BitVec 3) (w : BitVec 128) : (c.wvm r w).cbmap = c.cbmap := 
  (congrArg Ctx.cbmap (Ctx.wvm_frame c r w)).trans ((fun z => (rfl : ({ c with vm := z } : Ctx).cbmap = c.cbmap)) _)
@[simp] theorem Ctx.wvm_seg (c : Ctx) (r : BitVec 3) (w : BitVec 128) : (c.wvm r w).seg = c.seg := 
  (congrArg Ctx.seg (Ctx.wvm_frame c r w)).trans ((fun z => (rfl : ({ c with vm := z } : Ctx).seg = c.seg)) _)
@[simp] theorem Ctx.wvm_bead (c : Ctx) (r : BitVec 3) (w : BitVec 128) : (c.wvm r w).bead = c.bead := 
  (congrArg Ctx.bead (Ctx.wvm_frame c r w)).trans ((fun z => (rfl : ({ c with vm := z } : Ctx).bead = c.bead)) _)
@[simp] theorem Ctx.wvm_preempt (c : Ctx) (r : BitVec 3) (w : BitVec 128) : (c.wvm r w).preempt = c.preempt := 
  (congrArg Ctx.preempt (Ctx.wvm_frame c r w)).trans ((fun z => (rfl : ({ c with vm := z } : Ctx).preempt = c.preempt)) _)
@[simp] theorem Ctx.wvm_since (c : Ctx) (r : BitVec 3) (w : BitVec 128) : (c.wvm r w).since = c.since := 
  (congrArg Ctx.since (Ctx.wvm_frame c r w)).trans ((fun z => (rfl : ({ c with vm := z } : Ctx).since = c.since)) _)
@[simp] theorem Ctx.wvm_home (c : Ctx) (r : BitVec 3) (w : BitVec 128) : (c.wvm r w).home = c.home := 
  (congrArg Ctx.home (Ctx.wvm_frame c r w)).trans ((fun z => (rfl : ({ c with vm := z } : Ctx).home = c.home)) _)
@[simp] theorem Ctx.wvm_index (c : Ctx) (r : BitVec 3) (w : BitVec 128) : (c.wvm r w).index = c.index := 
  (congrArg Ctx.index (Ctx.wvm_frame c r w)).trans ((fun z => (rfl : ({ c with vm := z } : Ctx).index = c.index)) _)
@[simp] theorem Ctx.wvm_strips (c : Ctx) (r : BitVec 3) (w : BitVec 128) : (c.wvm r w).strips = c.strips := 
  (congrArg Ctx.strips (Ctx.wvm_frame c r w)).trans ((fun z => (rfl : ({ c with vm := z } : Ctx).strips = c.strips)) _)
@[simp] theorem Ctx.wvm_allot15 (c : Ctx) (r : BitVec 3) (w : BitVec 128) : (c.wvm r w).allot15 = c.allot15 := 
  (congrArg Ctx.allot15 (Ctx.wvm_frame c r w)).trans ((fun z => (rfl : ({ c with vm := z } : Ctx).allot15 = c.allot15)) _)
@[simp] theorem Ctx.wvm_xstat (c : Ctx) (r : BitVec 3) (w : BitVec 128) : (c.wvm r w).xstat = c.xstat := 
  (congrArg Ctx.xstat (Ctx.wvm_frame c r w)).trans ((fun z => (rfl : ({ c with vm := z } : Ctx).xstat = c.xstat)) _)
@[simp] theorem Ctx.wvm_lent (c : Ctx) (r : BitVec 3) (w : BitVec 128) : (c.wvm r w).lent = c.lent := 
  (congrArg Ctx.lent (Ctx.wvm_frame c r w)).trans ((fun z => (rfl : ({ c with vm := z } : Ctx).lent = c.lent)) _)
@[simp] theorem Ctx.wvm_wstr (c : Ctx) (r : BitVec 3) (w : BitVec 128) : (c.wvm r w).wstr = c.wstr := 
  (congrArg Ctx.wstr (Ctx.wvm_frame c r w)).trans ((fun z => (rfl : ({ c with vm := z } : Ctx).wstr = c.wstr)) _)
@[simp] theorem Ctx.wvm_latch (c : Ctx) (r : BitVec 3) (w : BitVec 128) : (c.wvm r w).latch = c.latch := 
  (congrArg Ctx.latch (Ctx.wvm_frame c r w)).trans ((fun z => (rfl : ({ c with vm := z } : Ctx).latch = c.latch)) _)
@[simp] theorem Ctx.wvm_windows (c : Ctx) (r : BitVec 3) (w : BitVec 128) : (c.wvm r w).windows = c.windows := 
  (congrArg Ctx.windows (Ctx.wvm_frame c r w)).trans ((fun z => (rfl : ({ c with vm := z } : Ctx).windows = c.windows)) _)

/-! ## `Ctx.wv` -/

/-- Only the field `v` changes. -/
theorem Ctx.wv_frame (c : Ctx) (r : Nat) (w : VWord) : c.wv r w = { c with v := (c.wv r w).v } := by
  unfold Ctx.wv; split <;> rfl

@[simp] theorem Ctx.wv_pc (c : Ctx) (r : Nat) (w : VWord) : (c.wv r w).pc = c.pc := 
  (congrArg Ctx.pc (Ctx.wv_frame c r w)).trans ((fun z => (rfl : ({ c with v := z } : Ctx).pc = c.pc)) _)
@[simp] theorem Ctx.wv_sys (c : Ctx) (r : Nat) (w : VWord) : (c.wv r w).sys = c.sys := 
  (congrArg Ctx.sys (Ctx.wv_frame c r w)).trans ((fun z => (rfl : ({ c with v := z } : Ctx).sys = c.sys)) _)
@[simp] theorem Ctx.wv_x (c : Ctx) (r : Nat) (w : VWord) : (c.wv r w).x = c.x := 
  (congrArg Ctx.x (Ctx.wv_frame c r w)).trans ((fun z => (rfl : ({ c with v := z } : Ctx).x = c.x)) _)
@[simp] theorem Ctx.wv_k (c : Ctx) (r : Nat) (w : VWord) : (c.wv r w).k = c.k := 
  (congrArg Ctx.k (Ctx.wv_frame c r w)).trans ((fun z => (rfl : ({ c with v := z } : Ctx).k = c.k)) _)
@[simp] theorem Ctx.wv_vm (c : Ctx) (r : Nat) (w : VWord) : (c.wv r w).vm = c.vm := 
  (congrArg Ctx.vm (Ctx.wv_frame c r w)).trans ((fun z => (rfl : ({ c with v := z } : Ctx).vm = c.vm)) _)
@[simp] theorem Ctx.wv_m (c : Ctx) (r : Nat) (w : VWord) : (c.wv r w).m = c.m := 
  (congrArg Ctx.m (Ctx.wv_frame c r w)).trans ((fun z => (rfl : ({ c with v := z } : Ctx).m = c.m)) _)
@[simp] theorem Ctx.wv_pv (c : Ctx) (r : Nat) (w : VWord) : (c.wv r w).pv = c.pv := 
  (congrArg Ctx.pv (Ctx.wv_frame c r w)).trans ((fun z => (rfl : ({ c with v := z } : Ctx).pv = c.pv)) _)
@[simp] theorem Ctx.wv_g (c : Ctx) (r : Nat) (w : VWord) : (c.wv r w).g = c.g := 
  (congrArg Ctx.g (Ctx.wv_frame c r w)).trans ((fun z => (rfl : ({ c with v := z } : Ctx).g = c.g)) _)
@[simp] theorem Ctx.wv_a (c : Ctx) (r : Nat) (w : VWord) : (c.wv r w).a = c.a := 
  (congrArg Ctx.a (Ctx.wv_frame c r w)).trans ((fun z => (rfl : ({ c with v := z } : Ctx).a = c.a)) _)
@[simp] theorem Ctx.wv_h (c : Ctx) (r : Nat) (w : VWord) : (c.wv r w).h = c.h := 
  (congrArg Ctx.h (Ctx.wv_frame c r w)).trans ((fun z => (rfl : ({ c with v := z } : Ctx).h = c.h)) _)
@[simp] theorem Ctx.wv_ps (c : Ctx) (r : Nat) (w : VWord) : (c.wv r w).ps = c.ps := 
  (congrArg Ctx.ps (Ctx.wv_frame c r w)).trans ((fun z => (rfl : ({ c with v := z } : Ctx).ps = c.ps)) _)
@[simp] theorem Ctx.wv_port (c : Ctx) (r : Nat) (w : VWord) : (c.wv r w).port = c.port := 
  (congrArg Ctx.port (Ctx.wv_frame c r w)).trans ((fun z => (rfl : ({ c with v := z } : Ctx).port = c.port)) _)
@[simp] theorem Ctx.wv_pat0 (c : Ctx) (r : Nat) (w : VWord) : (c.wv r w).pat0 = c.pat0 := 
  (congrArg Ctx.pat0 (Ctx.wv_frame c r w)).trans ((fun z => (rfl : ({ c with v := z } : Ctx).pat0 = c.pat0)) _)
@[simp] theorem Ctx.wv_pat1 (c : Ctx) (r : Nat) (w : VWord) : (c.wv r w).pat1 = c.pat1 := 
  (congrArg Ctx.pat1 (Ctx.wv_frame c r w)).trans ((fun z => (rfl : ({ c with v := z } : Ctx).pat1 = c.pat1)) _)
@[simp] theorem Ctx.wv_patActive (c : Ctx) (r : Nat) (w : VWord) : (c.wv r w).patActive = c.patActive := 
  (congrArg Ctx.patActive (Ctx.wv_frame c r w)).trans ((fun z => (rfl : ({ c with v := z } : Ctx).patActive = c.patActive)) _)
@[simp] theorem Ctx.wv_fpcr (c : Ctx) (r : Nat) (w : VWord) : (c.wv r w).fpcr = c.fpcr := 
  (congrArg Ctx.fpcr (Ctx.wv_frame c r w)).trans ((fun z => (rfl : ({ c with v := z } : Ctx).fpcr = c.fpcr)) _)
@[simp] theorem Ctx.wv_fpsr (c : Ctx) (r : Nat) (w : VWord) : (c.wv r w).fpsr = c.fpsr := 
  (congrArg Ctx.fpsr (Ctx.wv_frame c r w)).trans ((fun z => (rfl : ({ c with v := z } : Ctx).fpsr = c.fpsr)) _)
@[simp] theorem Ctx.wv_cf (c : Ctx) (r : Nat) (w : VWord) : (c.wv r w).cf = c.cf := 
  (congrArg Ctx.cf (Ctx.wv_frame c r w)).trans ((fun z => (rfl : ({ c with v := z } : Ctx).cf = c.cf)) _)
@[simp] theorem Ctx.wv_cause (c : Ctx) (r : Nat) (w : VWord) : (c.wv r w).cause = c.cause := 
  (congrArg Ctx.cause (Ctx.wv_frame c r w)).trans ((fun z => (rfl : ({ c with v := z } : Ctx).cause = c.cause)) _)
@[simp] theorem Ctx.wv_epc (c : Ctx) (r : Nat) (w : VWord) : (c.wv r w).epc = c.epc := 
  (congrArg Ctx.epc (Ctx.wv_frame c r w)).trans ((fun z => (rfl : ({ c with v := z } : Ctx).epc = c.epc)) _)
@[simp] theorem Ctx.wv_einfo (c : Ctx) (r : Nat) (w : VWord) : (c.wv r w).einfo = c.einfo := 
  (congrArg Ctx.einfo (Ctx.wv_frame c r w)).trans ((fun z => (rfl : ({ c with v := z } : Ctx).einfo = c.einfo)) _)
@[simp] theorem Ctx.wv_tbase (c : Ctx) (r : Nat) (w : VWord) : (c.wv r w).tbase = c.tbase := 
  (congrArg Ctx.tbase (Ctx.wv_frame c r w)).trans ((fun z => (rfl : ({ c with v := z } : Ctx).tbase = c.tbase)) _)
@[simp] theorem Ctx.wv_repc (c : Ctx) (r : Nat) (w : VWord) : (c.wv r w).repc = c.repc := 
  (congrArg Ctx.repc (Ctx.wv_frame c r w)).trans ((fun z => (rfl : ({ c with v := z } : Ctx).repc = c.repc)) _)
@[simp] theorem Ctx.wv_slip (c : Ctx) (r : Nat) (w : VWord) : (c.wv r w).slip = c.slip := 
  (congrArg Ctx.slip (Ctx.wv_frame c r w)).trans ((fun z => (rfl : ({ c with v := z } : Ctx).slip = c.slip)) _)
@[simp] theorem Ctx.wv_enpc (c : Ctx) (r : Nat) (w : VWord) : (c.wv r w).enpc = c.enpc := 
  (congrArg Ctx.enpc (Ctx.wv_frame c r w)).trans ((fun z => (rfl : ({ c with v := z } : Ctx).enpc = c.enpc)) _)
@[simp] theorem Ctx.wv_cbmap (c : Ctx) (r : Nat) (w : VWord) : (c.wv r w).cbmap = c.cbmap := 
  (congrArg Ctx.cbmap (Ctx.wv_frame c r w)).trans ((fun z => (rfl : ({ c with v := z } : Ctx).cbmap = c.cbmap)) _)
@[simp] theorem Ctx.wv_seg (c : Ctx) (r : Nat) (w : VWord) : (c.wv r w).seg = c.seg := 
  (congrArg Ctx.seg (Ctx.wv_frame c r w)).trans ((fun z => (rfl : ({ c with v := z } : Ctx).seg = c.seg)) _)
@[simp] theorem Ctx.wv_bead (c : Ctx) (r : Nat) (w : VWord) : (c.wv r w).bead = c.bead := 
  (congrArg Ctx.bead (Ctx.wv_frame c r w)).trans ((fun z => (rfl : ({ c with v := z } : Ctx).bead = c.bead)) _)
@[simp] theorem Ctx.wv_preempt (c : Ctx) (r : Nat) (w : VWord) : (c.wv r w).preempt = c.preempt := 
  (congrArg Ctx.preempt (Ctx.wv_frame c r w)).trans ((fun z => (rfl : ({ c with v := z } : Ctx).preempt = c.preempt)) _)
@[simp] theorem Ctx.wv_since (c : Ctx) (r : Nat) (w : VWord) : (c.wv r w).since = c.since := 
  (congrArg Ctx.since (Ctx.wv_frame c r w)).trans ((fun z => (rfl : ({ c with v := z } : Ctx).since = c.since)) _)
@[simp] theorem Ctx.wv_home (c : Ctx) (r : Nat) (w : VWord) : (c.wv r w).home = c.home := 
  (congrArg Ctx.home (Ctx.wv_frame c r w)).trans ((fun z => (rfl : ({ c with v := z } : Ctx).home = c.home)) _)
@[simp] theorem Ctx.wv_index (c : Ctx) (r : Nat) (w : VWord) : (c.wv r w).index = c.index := 
  (congrArg Ctx.index (Ctx.wv_frame c r w)).trans ((fun z => (rfl : ({ c with v := z } : Ctx).index = c.index)) _)
@[simp] theorem Ctx.wv_strips (c : Ctx) (r : Nat) (w : VWord) : (c.wv r w).strips = c.strips := 
  (congrArg Ctx.strips (Ctx.wv_frame c r w)).trans ((fun z => (rfl : ({ c with v := z } : Ctx).strips = c.strips)) _)
@[simp] theorem Ctx.wv_allot15 (c : Ctx) (r : Nat) (w : VWord) : (c.wv r w).allot15 = c.allot15 := 
  (congrArg Ctx.allot15 (Ctx.wv_frame c r w)).trans ((fun z => (rfl : ({ c with v := z } : Ctx).allot15 = c.allot15)) _)
@[simp] theorem Ctx.wv_xstat (c : Ctx) (r : Nat) (w : VWord) : (c.wv r w).xstat = c.xstat := 
  (congrArg Ctx.xstat (Ctx.wv_frame c r w)).trans ((fun z => (rfl : ({ c with v := z } : Ctx).xstat = c.xstat)) _)
@[simp] theorem Ctx.wv_lent (c : Ctx) (r : Nat) (w : VWord) : (c.wv r w).lent = c.lent := 
  (congrArg Ctx.lent (Ctx.wv_frame c r w)).trans ((fun z => (rfl : ({ c with v := z } : Ctx).lent = c.lent)) _)
@[simp] theorem Ctx.wv_wstr (c : Ctx) (r : Nat) (w : VWord) : (c.wv r w).wstr = c.wstr := 
  (congrArg Ctx.wstr (Ctx.wv_frame c r w)).trans ((fun z => (rfl : ({ c with v := z } : Ctx).wstr = c.wstr)) _)
@[simp] theorem Ctx.wv_latch (c : Ctx) (r : Nat) (w : VWord) : (c.wv r w).latch = c.latch := 
  (congrArg Ctx.latch (Ctx.wv_frame c r w)).trans ((fun z => (rfl : ({ c with v := z } : Ctx).latch = c.latch)) _)
@[simp] theorem Ctx.wv_windows (c : Ctx) (r : Nat) (w : VWord) : (c.wv r w).windows = c.windows := 
  (congrArg Ctx.windows (Ctx.wv_frame c r w)).trans ((fun z => (rfl : ({ c with v := z } : Ctx).windows = c.windows)) _)

/-! ## `Ctx.wa` -/

@[simp] theorem Ctx.wa_pc (c : Ctx) (r : BitVec 4) (w : DWord) : (c.wa r w).pc = c.pc := rfl
@[simp] theorem Ctx.wa_sys (c : Ctx) (r : BitVec 4) (w : DWord) : (c.wa r w).sys = c.sys := rfl
@[simp] theorem Ctx.wa_x (c : Ctx) (r : BitVec 4) (w : DWord) : (c.wa r w).x = c.x := rfl
@[simp] theorem Ctx.wa_k (c : Ctx) (r : BitVec 4) (w : DWord) : (c.wa r w).k = c.k := rfl
@[simp] theorem Ctx.wa_v (c : Ctx) (r : BitVec 4) (w : DWord) : (c.wa r w).v = c.v := rfl
@[simp] theorem Ctx.wa_vm (c : Ctx) (r : BitVec 4) (w : DWord) : (c.wa r w).vm = c.vm := rfl
@[simp] theorem Ctx.wa_m (c : Ctx) (r : BitVec 4) (w : DWord) : (c.wa r w).m = c.m := rfl
@[simp] theorem Ctx.wa_pv (c : Ctx) (r : BitVec 4) (w : DWord) : (c.wa r w).pv = c.pv := rfl
@[simp] theorem Ctx.wa_g (c : Ctx) (r : BitVec 4) (w : DWord) : (c.wa r w).g = c.g := rfl
@[simp] theorem Ctx.wa_h (c : Ctx) (r : BitVec 4) (w : DWord) : (c.wa r w).h = c.h := rfl
@[simp] theorem Ctx.wa_ps (c : Ctx) (r : BitVec 4) (w : DWord) : (c.wa r w).ps = c.ps := rfl
@[simp] theorem Ctx.wa_port (c : Ctx) (r : BitVec 4) (w : DWord) : (c.wa r w).port = c.port := rfl
@[simp] theorem Ctx.wa_pat0 (c : Ctx) (r : BitVec 4) (w : DWord) : (c.wa r w).pat0 = c.pat0 := rfl
@[simp] theorem Ctx.wa_pat1 (c : Ctx) (r : BitVec 4) (w : DWord) : (c.wa r w).pat1 = c.pat1 := rfl
@[simp] theorem Ctx.wa_patActive (c : Ctx) (r : BitVec 4) (w : DWord) : (c.wa r w).patActive = c.patActive := rfl
@[simp] theorem Ctx.wa_fpcr (c : Ctx) (r : BitVec 4) (w : DWord) : (c.wa r w).fpcr = c.fpcr := rfl
@[simp] theorem Ctx.wa_fpsr (c : Ctx) (r : BitVec 4) (w : DWord) : (c.wa r w).fpsr = c.fpsr := rfl
@[simp] theorem Ctx.wa_cf (c : Ctx) (r : BitVec 4) (w : DWord) : (c.wa r w).cf = c.cf := rfl
@[simp] theorem Ctx.wa_cause (c : Ctx) (r : BitVec 4) (w : DWord) : (c.wa r w).cause = c.cause := rfl
@[simp] theorem Ctx.wa_epc (c : Ctx) (r : BitVec 4) (w : DWord) : (c.wa r w).epc = c.epc := rfl
@[simp] theorem Ctx.wa_einfo (c : Ctx) (r : BitVec 4) (w : DWord) : (c.wa r w).einfo = c.einfo := rfl
@[simp] theorem Ctx.wa_tbase (c : Ctx) (r : BitVec 4) (w : DWord) : (c.wa r w).tbase = c.tbase := rfl
@[simp] theorem Ctx.wa_repc (c : Ctx) (r : BitVec 4) (w : DWord) : (c.wa r w).repc = c.repc := rfl
@[simp] theorem Ctx.wa_slip (c : Ctx) (r : BitVec 4) (w : DWord) : (c.wa r w).slip = c.slip := rfl
@[simp] theorem Ctx.wa_enpc (c : Ctx) (r : BitVec 4) (w : DWord) : (c.wa r w).enpc = c.enpc := rfl
@[simp] theorem Ctx.wa_cbmap (c : Ctx) (r : BitVec 4) (w : DWord) : (c.wa r w).cbmap = c.cbmap := rfl
@[simp] theorem Ctx.wa_seg (c : Ctx) (r : BitVec 4) (w : DWord) : (c.wa r w).seg = c.seg := rfl
@[simp] theorem Ctx.wa_bead (c : Ctx) (r : BitVec 4) (w : DWord) : (c.wa r w).bead = c.bead := rfl
@[simp] theorem Ctx.wa_preempt (c : Ctx) (r : BitVec 4) (w : DWord) : (c.wa r w).preempt = c.preempt := rfl
@[simp] theorem Ctx.wa_since (c : Ctx) (r : BitVec 4) (w : DWord) : (c.wa r w).since = c.since := rfl
@[simp] theorem Ctx.wa_home (c : Ctx) (r : BitVec 4) (w : DWord) : (c.wa r w).home = c.home := rfl
@[simp] theorem Ctx.wa_index (c : Ctx) (r : BitVec 4) (w : DWord) : (c.wa r w).index = c.index := rfl
@[simp] theorem Ctx.wa_strips (c : Ctx) (r : BitVec 4) (w : DWord) : (c.wa r w).strips = c.strips := rfl
@[simp] theorem Ctx.wa_allot15 (c : Ctx) (r : BitVec 4) (w : DWord) : (c.wa r w).allot15 = c.allot15 := rfl
@[simp] theorem Ctx.wa_xstat (c : Ctx) (r : BitVec 4) (w : DWord) : (c.wa r w).xstat = c.xstat := rfl
@[simp] theorem Ctx.wa_lent (c : Ctx) (r : BitVec 4) (w : DWord) : (c.wa r w).lent = c.lent := rfl
@[simp] theorem Ctx.wa_wstr (c : Ctx) (r : BitVec 4) (w : DWord) : (c.wa r w).wstr = c.wstr := rfl
@[simp] theorem Ctx.wa_latch (c : Ctx) (r : BitVec 4) (w : DWord) : (c.wa r w).latch = c.latch := rfl
@[simp] theorem Ctx.wa_windows (c : Ctx) (r : BitVec 4) (w : DWord) : (c.wa r w).windows = c.windows := rfl

/-! ## `Ctx.wh` -/

@[simp] theorem Ctx.wh_pc (c : Ctx) (r : BitVec 4) (w : QWord) : (c.wh r w).pc = c.pc := rfl
@[simp] theorem Ctx.wh_sys (c : Ctx) (r : BitVec 4) (w : QWord) : (c.wh r w).sys = c.sys := rfl
@[simp] theorem Ctx.wh_x (c : Ctx) (r : BitVec 4) (w : QWord) : (c.wh r w).x = c.x := rfl
@[simp] theorem Ctx.wh_k (c : Ctx) (r : BitVec 4) (w : QWord) : (c.wh r w).k = c.k := rfl
@[simp] theorem Ctx.wh_v (c : Ctx) (r : BitVec 4) (w : QWord) : (c.wh r w).v = c.v := rfl
@[simp] theorem Ctx.wh_vm (c : Ctx) (r : BitVec 4) (w : QWord) : (c.wh r w).vm = c.vm := rfl
@[simp] theorem Ctx.wh_m (c : Ctx) (r : BitVec 4) (w : QWord) : (c.wh r w).m = c.m := rfl
@[simp] theorem Ctx.wh_pv (c : Ctx) (r : BitVec 4) (w : QWord) : (c.wh r w).pv = c.pv := rfl
@[simp] theorem Ctx.wh_g (c : Ctx) (r : BitVec 4) (w : QWord) : (c.wh r w).g = c.g := rfl
@[simp] theorem Ctx.wh_a (c : Ctx) (r : BitVec 4) (w : QWord) : (c.wh r w).a = c.a := rfl
@[simp] theorem Ctx.wh_ps (c : Ctx) (r : BitVec 4) (w : QWord) : (c.wh r w).ps = c.ps := rfl
@[simp] theorem Ctx.wh_port (c : Ctx) (r : BitVec 4) (w : QWord) : (c.wh r w).port = c.port := rfl
@[simp] theorem Ctx.wh_pat0 (c : Ctx) (r : BitVec 4) (w : QWord) : (c.wh r w).pat0 = c.pat0 := rfl
@[simp] theorem Ctx.wh_pat1 (c : Ctx) (r : BitVec 4) (w : QWord) : (c.wh r w).pat1 = c.pat1 := rfl
@[simp] theorem Ctx.wh_patActive (c : Ctx) (r : BitVec 4) (w : QWord) : (c.wh r w).patActive = c.patActive := rfl
@[simp] theorem Ctx.wh_fpcr (c : Ctx) (r : BitVec 4) (w : QWord) : (c.wh r w).fpcr = c.fpcr := rfl
@[simp] theorem Ctx.wh_fpsr (c : Ctx) (r : BitVec 4) (w : QWord) : (c.wh r w).fpsr = c.fpsr := rfl
@[simp] theorem Ctx.wh_cf (c : Ctx) (r : BitVec 4) (w : QWord) : (c.wh r w).cf = c.cf := rfl
@[simp] theorem Ctx.wh_cause (c : Ctx) (r : BitVec 4) (w : QWord) : (c.wh r w).cause = c.cause := rfl
@[simp] theorem Ctx.wh_epc (c : Ctx) (r : BitVec 4) (w : QWord) : (c.wh r w).epc = c.epc := rfl
@[simp] theorem Ctx.wh_einfo (c : Ctx) (r : BitVec 4) (w : QWord) : (c.wh r w).einfo = c.einfo := rfl
@[simp] theorem Ctx.wh_tbase (c : Ctx) (r : BitVec 4) (w : QWord) : (c.wh r w).tbase = c.tbase := rfl
@[simp] theorem Ctx.wh_repc (c : Ctx) (r : BitVec 4) (w : QWord) : (c.wh r w).repc = c.repc := rfl
@[simp] theorem Ctx.wh_slip (c : Ctx) (r : BitVec 4) (w : QWord) : (c.wh r w).slip = c.slip := rfl
@[simp] theorem Ctx.wh_enpc (c : Ctx) (r : BitVec 4) (w : QWord) : (c.wh r w).enpc = c.enpc := rfl
@[simp] theorem Ctx.wh_cbmap (c : Ctx) (r : BitVec 4) (w : QWord) : (c.wh r w).cbmap = c.cbmap := rfl
@[simp] theorem Ctx.wh_seg (c : Ctx) (r : BitVec 4) (w : QWord) : (c.wh r w).seg = c.seg := rfl
@[simp] theorem Ctx.wh_bead (c : Ctx) (r : BitVec 4) (w : QWord) : (c.wh r w).bead = c.bead := rfl
@[simp] theorem Ctx.wh_preempt (c : Ctx) (r : BitVec 4) (w : QWord) : (c.wh r w).preempt = c.preempt := rfl
@[simp] theorem Ctx.wh_since (c : Ctx) (r : BitVec 4) (w : QWord) : (c.wh r w).since = c.since := rfl
@[simp] theorem Ctx.wh_home (c : Ctx) (r : BitVec 4) (w : QWord) : (c.wh r w).home = c.home := rfl
@[simp] theorem Ctx.wh_index (c : Ctx) (r : BitVec 4) (w : QWord) : (c.wh r w).index = c.index := rfl
@[simp] theorem Ctx.wh_strips (c : Ctx) (r : BitVec 4) (w : QWord) : (c.wh r w).strips = c.strips := rfl
@[simp] theorem Ctx.wh_allot15 (c : Ctx) (r : BitVec 4) (w : QWord) : (c.wh r w).allot15 = c.allot15 := rfl
@[simp] theorem Ctx.wh_xstat (c : Ctx) (r : BitVec 4) (w : QWord) : (c.wh r w).xstat = c.xstat := rfl
@[simp] theorem Ctx.wh_lent (c : Ctx) (r : BitVec 4) (w : QWord) : (c.wh r w).lent = c.lent := rfl
@[simp] theorem Ctx.wh_wstr (c : Ctx) (r : BitVec 4) (w : QWord) : (c.wh r w).wstr = c.wstr := rfl
@[simp] theorem Ctx.wh_latch (c : Ctx) (r : BitVec 4) (w : QWord) : (c.wh r w).latch = c.latch := rfl
@[simp] theorem Ctx.wh_windows (c : Ctx) (r : BitVec 4) (w : QWord) : (c.wh r w).windows = c.windows := rfl

/-! ## `Ctx.wm` -/

@[simp] theorem Ctx.wm_pc (c : Ctx) (r : BitVec 3) (w : QWord) : (c.wm r w).pc = c.pc := rfl
@[simp] theorem Ctx.wm_sys (c : Ctx) (r : BitVec 3) (w : QWord) : (c.wm r w).sys = c.sys := rfl
@[simp] theorem Ctx.wm_x (c : Ctx) (r : BitVec 3) (w : QWord) : (c.wm r w).x = c.x := rfl
@[simp] theorem Ctx.wm_k (c : Ctx) (r : BitVec 3) (w : QWord) : (c.wm r w).k = c.k := rfl
@[simp] theorem Ctx.wm_v (c : Ctx) (r : BitVec 3) (w : QWord) : (c.wm r w).v = c.v := rfl
@[simp] theorem Ctx.wm_vm (c : Ctx) (r : BitVec 3) (w : QWord) : (c.wm r w).vm = c.vm := rfl
@[simp] theorem Ctx.wm_pv (c : Ctx) (r : BitVec 3) (w : QWord) : (c.wm r w).pv = c.pv := rfl
@[simp] theorem Ctx.wm_g (c : Ctx) (r : BitVec 3) (w : QWord) : (c.wm r w).g = c.g := rfl
@[simp] theorem Ctx.wm_a (c : Ctx) (r : BitVec 3) (w : QWord) : (c.wm r w).a = c.a := rfl
@[simp] theorem Ctx.wm_h (c : Ctx) (r : BitVec 3) (w : QWord) : (c.wm r w).h = c.h := rfl
@[simp] theorem Ctx.wm_ps (c : Ctx) (r : BitVec 3) (w : QWord) : (c.wm r w).ps = c.ps := rfl
@[simp] theorem Ctx.wm_port (c : Ctx) (r : BitVec 3) (w : QWord) : (c.wm r w).port = c.port := rfl
@[simp] theorem Ctx.wm_pat0 (c : Ctx) (r : BitVec 3) (w : QWord) : (c.wm r w).pat0 = c.pat0 := rfl
@[simp] theorem Ctx.wm_pat1 (c : Ctx) (r : BitVec 3) (w : QWord) : (c.wm r w).pat1 = c.pat1 := rfl
@[simp] theorem Ctx.wm_patActive (c : Ctx) (r : BitVec 3) (w : QWord) : (c.wm r w).patActive = c.patActive := rfl
@[simp] theorem Ctx.wm_fpcr (c : Ctx) (r : BitVec 3) (w : QWord) : (c.wm r w).fpcr = c.fpcr := rfl
@[simp] theorem Ctx.wm_fpsr (c : Ctx) (r : BitVec 3) (w : QWord) : (c.wm r w).fpsr = c.fpsr := rfl
@[simp] theorem Ctx.wm_cf (c : Ctx) (r : BitVec 3) (w : QWord) : (c.wm r w).cf = c.cf := rfl
@[simp] theorem Ctx.wm_cause (c : Ctx) (r : BitVec 3) (w : QWord) : (c.wm r w).cause = c.cause := rfl
@[simp] theorem Ctx.wm_epc (c : Ctx) (r : BitVec 3) (w : QWord) : (c.wm r w).epc = c.epc := rfl
@[simp] theorem Ctx.wm_einfo (c : Ctx) (r : BitVec 3) (w : QWord) : (c.wm r w).einfo = c.einfo := rfl
@[simp] theorem Ctx.wm_tbase (c : Ctx) (r : BitVec 3) (w : QWord) : (c.wm r w).tbase = c.tbase := rfl
@[simp] theorem Ctx.wm_repc (c : Ctx) (r : BitVec 3) (w : QWord) : (c.wm r w).repc = c.repc := rfl
@[simp] theorem Ctx.wm_slip (c : Ctx) (r : BitVec 3) (w : QWord) : (c.wm r w).slip = c.slip := rfl
@[simp] theorem Ctx.wm_enpc (c : Ctx) (r : BitVec 3) (w : QWord) : (c.wm r w).enpc = c.enpc := rfl
@[simp] theorem Ctx.wm_cbmap (c : Ctx) (r : BitVec 3) (w : QWord) : (c.wm r w).cbmap = c.cbmap := rfl
@[simp] theorem Ctx.wm_seg (c : Ctx) (r : BitVec 3) (w : QWord) : (c.wm r w).seg = c.seg := rfl
@[simp] theorem Ctx.wm_bead (c : Ctx) (r : BitVec 3) (w : QWord) : (c.wm r w).bead = c.bead := rfl
@[simp] theorem Ctx.wm_preempt (c : Ctx) (r : BitVec 3) (w : QWord) : (c.wm r w).preempt = c.preempt := rfl
@[simp] theorem Ctx.wm_since (c : Ctx) (r : BitVec 3) (w : QWord) : (c.wm r w).since = c.since := rfl
@[simp] theorem Ctx.wm_home (c : Ctx) (r : BitVec 3) (w : QWord) : (c.wm r w).home = c.home := rfl
@[simp] theorem Ctx.wm_index (c : Ctx) (r : BitVec 3) (w : QWord) : (c.wm r w).index = c.index := rfl
@[simp] theorem Ctx.wm_strips (c : Ctx) (r : BitVec 3) (w : QWord) : (c.wm r w).strips = c.strips := rfl
@[simp] theorem Ctx.wm_allot15 (c : Ctx) (r : BitVec 3) (w : QWord) : (c.wm r w).allot15 = c.allot15 := rfl
@[simp] theorem Ctx.wm_xstat (c : Ctx) (r : BitVec 3) (w : QWord) : (c.wm r w).xstat = c.xstat := rfl
@[simp] theorem Ctx.wm_lent (c : Ctx) (r : BitVec 3) (w : QWord) : (c.wm r w).lent = c.lent := rfl
@[simp] theorem Ctx.wm_wstr (c : Ctx) (r : BitVec 3) (w : QWord) : (c.wm r w).wstr = c.wstr := rfl
@[simp] theorem Ctx.wm_latch (c : Ctx) (r : BitVec 3) (w : QWord) : (c.wm r w).latch = c.latch := rfl
@[simp] theorem Ctx.wm_windows (c : Ctx) (r : BitVec 3) (w : QWord) : (c.wm r w).windows = c.windows := rfl

/-! ## `Ctx.wpv` -/

@[simp] theorem Ctx.wpv_pc (c : Ctx) (r : BitVec 2) (w : BitVec 1024) : (c.wpv r w).pc = c.pc := rfl
@[simp] theorem Ctx.wpv_sys (c : Ctx) (r : BitVec 2) (w : BitVec 1024) : (c.wpv r w).sys = c.sys := rfl
@[simp] theorem Ctx.wpv_x (c : Ctx) (r : BitVec 2) (w : BitVec 1024) : (c.wpv r w).x = c.x := rfl
@[simp] theorem Ctx.wpv_k (c : Ctx) (r : BitVec 2) (w : BitVec 1024) : (c.wpv r w).k = c.k := rfl
@[simp] theorem Ctx.wpv_v (c : Ctx) (r : BitVec 2) (w : BitVec 1024) : (c.wpv r w).v = c.v := rfl
@[simp] theorem Ctx.wpv_vm (c : Ctx) (r : BitVec 2) (w : BitVec 1024) : (c.wpv r w).vm = c.vm := rfl
@[simp] theorem Ctx.wpv_m (c : Ctx) (r : BitVec 2) (w : BitVec 1024) : (c.wpv r w).m = c.m := rfl
@[simp] theorem Ctx.wpv_g (c : Ctx) (r : BitVec 2) (w : BitVec 1024) : (c.wpv r w).g = c.g := rfl
@[simp] theorem Ctx.wpv_a (c : Ctx) (r : BitVec 2) (w : BitVec 1024) : (c.wpv r w).a = c.a := rfl
@[simp] theorem Ctx.wpv_h (c : Ctx) (r : BitVec 2) (w : BitVec 1024) : (c.wpv r w).h = c.h := rfl
@[simp] theorem Ctx.wpv_ps (c : Ctx) (r : BitVec 2) (w : BitVec 1024) : (c.wpv r w).ps = c.ps := rfl
@[simp] theorem Ctx.wpv_port (c : Ctx) (r : BitVec 2) (w : BitVec 1024) : (c.wpv r w).port = c.port := rfl
@[simp] theorem Ctx.wpv_pat0 (c : Ctx) (r : BitVec 2) (w : BitVec 1024) : (c.wpv r w).pat0 = c.pat0 := rfl
@[simp] theorem Ctx.wpv_pat1 (c : Ctx) (r : BitVec 2) (w : BitVec 1024) : (c.wpv r w).pat1 = c.pat1 := rfl
@[simp] theorem Ctx.wpv_patActive (c : Ctx) (r : BitVec 2) (w : BitVec 1024) : (c.wpv r w).patActive = c.patActive := rfl
@[simp] theorem Ctx.wpv_fpcr (c : Ctx) (r : BitVec 2) (w : BitVec 1024) : (c.wpv r w).fpcr = c.fpcr := rfl
@[simp] theorem Ctx.wpv_fpsr (c : Ctx) (r : BitVec 2) (w : BitVec 1024) : (c.wpv r w).fpsr = c.fpsr := rfl
@[simp] theorem Ctx.wpv_cf (c : Ctx) (r : BitVec 2) (w : BitVec 1024) : (c.wpv r w).cf = c.cf := rfl
@[simp] theorem Ctx.wpv_cause (c : Ctx) (r : BitVec 2) (w : BitVec 1024) : (c.wpv r w).cause = c.cause := rfl
@[simp] theorem Ctx.wpv_epc (c : Ctx) (r : BitVec 2) (w : BitVec 1024) : (c.wpv r w).epc = c.epc := rfl
@[simp] theorem Ctx.wpv_einfo (c : Ctx) (r : BitVec 2) (w : BitVec 1024) : (c.wpv r w).einfo = c.einfo := rfl
@[simp] theorem Ctx.wpv_tbase (c : Ctx) (r : BitVec 2) (w : BitVec 1024) : (c.wpv r w).tbase = c.tbase := rfl
@[simp] theorem Ctx.wpv_repc (c : Ctx) (r : BitVec 2) (w : BitVec 1024) : (c.wpv r w).repc = c.repc := rfl
@[simp] theorem Ctx.wpv_slip (c : Ctx) (r : BitVec 2) (w : BitVec 1024) : (c.wpv r w).slip = c.slip := rfl
@[simp] theorem Ctx.wpv_enpc (c : Ctx) (r : BitVec 2) (w : BitVec 1024) : (c.wpv r w).enpc = c.enpc := rfl
@[simp] theorem Ctx.wpv_cbmap (c : Ctx) (r : BitVec 2) (w : BitVec 1024) : (c.wpv r w).cbmap = c.cbmap := rfl
@[simp] theorem Ctx.wpv_seg (c : Ctx) (r : BitVec 2) (w : BitVec 1024) : (c.wpv r w).seg = c.seg := rfl
@[simp] theorem Ctx.wpv_bead (c : Ctx) (r : BitVec 2) (w : BitVec 1024) : (c.wpv r w).bead = c.bead := rfl
@[simp] theorem Ctx.wpv_preempt (c : Ctx) (r : BitVec 2) (w : BitVec 1024) : (c.wpv r w).preempt = c.preempt := rfl
@[simp] theorem Ctx.wpv_since (c : Ctx) (r : BitVec 2) (w : BitVec 1024) : (c.wpv r w).since = c.since := rfl
@[simp] theorem Ctx.wpv_home (c : Ctx) (r : BitVec 2) (w : BitVec 1024) : (c.wpv r w).home = c.home := rfl
@[simp] theorem Ctx.wpv_index (c : Ctx) (r : BitVec 2) (w : BitVec 1024) : (c.wpv r w).index = c.index := rfl
@[simp] theorem Ctx.wpv_strips (c : Ctx) (r : BitVec 2) (w : BitVec 1024) : (c.wpv r w).strips = c.strips := rfl
@[simp] theorem Ctx.wpv_allot15 (c : Ctx) (r : BitVec 2) (w : BitVec 1024) : (c.wpv r w).allot15 = c.allot15 := rfl
@[simp] theorem Ctx.wpv_xstat (c : Ctx) (r : BitVec 2) (w : BitVec 1024) : (c.wpv r w).xstat = c.xstat := rfl
@[simp] theorem Ctx.wpv_lent (c : Ctx) (r : BitVec 2) (w : BitVec 1024) : (c.wpv r w).lent = c.lent := rfl
@[simp] theorem Ctx.wpv_wstr (c : Ctx) (r : BitVec 2) (w : BitVec 1024) : (c.wpv r w).wstr = c.wstr := rfl
@[simp] theorem Ctx.wpv_latch (c : Ctx) (r : BitVec 2) (w : BitVec 1024) : (c.wpv r w).latch = c.latch := rfl
@[simp] theorem Ctx.wpv_windows (c : Ctx) (r : BitVec 2) (w : BitVec 1024) : (c.wpv r w).windows = c.windows := rfl

/-! ## `Ctx.wg` -/

@[simp] theorem Ctx.wg_pc (c : Ctx) (r : BitVec 2) (w : DWord) : (c.wg r w).pc = c.pc := rfl
@[simp] theorem Ctx.wg_sys (c : Ctx) (r : BitVec 2) (w : DWord) : (c.wg r w).sys = c.sys := rfl
@[simp] theorem Ctx.wg_x (c : Ctx) (r : BitVec 2) (w : DWord) : (c.wg r w).x = c.x := rfl
@[simp] theorem Ctx.wg_k (c : Ctx) (r : BitVec 2) (w : DWord) : (c.wg r w).k = c.k := rfl
@[simp] theorem Ctx.wg_v (c : Ctx) (r : BitVec 2) (w : DWord) : (c.wg r w).v = c.v := rfl
@[simp] theorem Ctx.wg_vm (c : Ctx) (r : BitVec 2) (w : DWord) : (c.wg r w).vm = c.vm := rfl
@[simp] theorem Ctx.wg_m (c : Ctx) (r : BitVec 2) (w : DWord) : (c.wg r w).m = c.m := rfl
@[simp] theorem Ctx.wg_pv (c : Ctx) (r : BitVec 2) (w : DWord) : (c.wg r w).pv = c.pv := rfl
@[simp] theorem Ctx.wg_a (c : Ctx) (r : BitVec 2) (w : DWord) : (c.wg r w).a = c.a := rfl
@[simp] theorem Ctx.wg_h (c : Ctx) (r : BitVec 2) (w : DWord) : (c.wg r w).h = c.h := rfl
@[simp] theorem Ctx.wg_ps (c : Ctx) (r : BitVec 2) (w : DWord) : (c.wg r w).ps = c.ps := rfl
@[simp] theorem Ctx.wg_port (c : Ctx) (r : BitVec 2) (w : DWord) : (c.wg r w).port = c.port := rfl
@[simp] theorem Ctx.wg_pat0 (c : Ctx) (r : BitVec 2) (w : DWord) : (c.wg r w).pat0 = c.pat0 := rfl
@[simp] theorem Ctx.wg_pat1 (c : Ctx) (r : BitVec 2) (w : DWord) : (c.wg r w).pat1 = c.pat1 := rfl
@[simp] theorem Ctx.wg_patActive (c : Ctx) (r : BitVec 2) (w : DWord) : (c.wg r w).patActive = c.patActive := rfl
@[simp] theorem Ctx.wg_fpcr (c : Ctx) (r : BitVec 2) (w : DWord) : (c.wg r w).fpcr = c.fpcr := rfl
@[simp] theorem Ctx.wg_fpsr (c : Ctx) (r : BitVec 2) (w : DWord) : (c.wg r w).fpsr = c.fpsr := rfl
@[simp] theorem Ctx.wg_cf (c : Ctx) (r : BitVec 2) (w : DWord) : (c.wg r w).cf = c.cf := rfl
@[simp] theorem Ctx.wg_cause (c : Ctx) (r : BitVec 2) (w : DWord) : (c.wg r w).cause = c.cause := rfl
@[simp] theorem Ctx.wg_epc (c : Ctx) (r : BitVec 2) (w : DWord) : (c.wg r w).epc = c.epc := rfl
@[simp] theorem Ctx.wg_einfo (c : Ctx) (r : BitVec 2) (w : DWord) : (c.wg r w).einfo = c.einfo := rfl
@[simp] theorem Ctx.wg_tbase (c : Ctx) (r : BitVec 2) (w : DWord) : (c.wg r w).tbase = c.tbase := rfl
@[simp] theorem Ctx.wg_repc (c : Ctx) (r : BitVec 2) (w : DWord) : (c.wg r w).repc = c.repc := rfl
@[simp] theorem Ctx.wg_slip (c : Ctx) (r : BitVec 2) (w : DWord) : (c.wg r w).slip = c.slip := rfl
@[simp] theorem Ctx.wg_enpc (c : Ctx) (r : BitVec 2) (w : DWord) : (c.wg r w).enpc = c.enpc := rfl
@[simp] theorem Ctx.wg_cbmap (c : Ctx) (r : BitVec 2) (w : DWord) : (c.wg r w).cbmap = c.cbmap := rfl
@[simp] theorem Ctx.wg_seg (c : Ctx) (r : BitVec 2) (w : DWord) : (c.wg r w).seg = c.seg := rfl
@[simp] theorem Ctx.wg_bead (c : Ctx) (r : BitVec 2) (w : DWord) : (c.wg r w).bead = c.bead := rfl
@[simp] theorem Ctx.wg_preempt (c : Ctx) (r : BitVec 2) (w : DWord) : (c.wg r w).preempt = c.preempt := rfl
@[simp] theorem Ctx.wg_since (c : Ctx) (r : BitVec 2) (w : DWord) : (c.wg r w).since = c.since := rfl
@[simp] theorem Ctx.wg_home (c : Ctx) (r : BitVec 2) (w : DWord) : (c.wg r w).home = c.home := rfl
@[simp] theorem Ctx.wg_index (c : Ctx) (r : BitVec 2) (w : DWord) : (c.wg r w).index = c.index := rfl
@[simp] theorem Ctx.wg_strips (c : Ctx) (r : BitVec 2) (w : DWord) : (c.wg r w).strips = c.strips := rfl
@[simp] theorem Ctx.wg_allot15 (c : Ctx) (r : BitVec 2) (w : DWord) : (c.wg r w).allot15 = c.allot15 := rfl
@[simp] theorem Ctx.wg_xstat (c : Ctx) (r : BitVec 2) (w : DWord) : (c.wg r w).xstat = c.xstat := rfl
@[simp] theorem Ctx.wg_lent (c : Ctx) (r : BitVec 2) (w : DWord) : (c.wg r w).lent = c.lent := rfl
@[simp] theorem Ctx.wg_wstr (c : Ctx) (r : BitVec 2) (w : DWord) : (c.wg r w).wstr = c.wstr := rfl
@[simp] theorem Ctx.wg_latch (c : Ctx) (r : BitVec 2) (w : DWord) : (c.wg r w).latch = c.latch := rfl
@[simp] theorem Ctx.wg_windows (c : Ctx) (r : BitVec 2) (w : DWord) : (c.wg r w).windows = c.windows := rfl

/-! ## `Ctx.orFlags` -/

/-- Only the field `fpsr` changes. -/
theorem Ctx.orFlags_frame (c : Ctx) (f : Nat) : c.orFlags f = { c with fpsr := (c.orFlags f).fpsr } := by
  rfl

@[simp] theorem Ctx.orFlags_pc (c : Ctx) (f : Nat) : (c.orFlags f).pc = c.pc := 
  (congrArg Ctx.pc (Ctx.orFlags_frame c f)).trans ((fun z => (rfl : ({ c with fpsr := z } : Ctx).pc = c.pc)) _)
@[simp] theorem Ctx.orFlags_sys (c : Ctx) (f : Nat) : (c.orFlags f).sys = c.sys := 
  (congrArg Ctx.sys (Ctx.orFlags_frame c f)).trans ((fun z => (rfl : ({ c with fpsr := z } : Ctx).sys = c.sys)) _)
@[simp] theorem Ctx.orFlags_x (c : Ctx) (f : Nat) : (c.orFlags f).x = c.x := 
  (congrArg Ctx.x (Ctx.orFlags_frame c f)).trans ((fun z => (rfl : ({ c with fpsr := z } : Ctx).x = c.x)) _)
@[simp] theorem Ctx.orFlags_k (c : Ctx) (f : Nat) : (c.orFlags f).k = c.k := 
  (congrArg Ctx.k (Ctx.orFlags_frame c f)).trans ((fun z => (rfl : ({ c with fpsr := z } : Ctx).k = c.k)) _)
@[simp] theorem Ctx.orFlags_v (c : Ctx) (f : Nat) : (c.orFlags f).v = c.v := 
  (congrArg Ctx.v (Ctx.orFlags_frame c f)).trans ((fun z => (rfl : ({ c with fpsr := z } : Ctx).v = c.v)) _)
@[simp] theorem Ctx.orFlags_vm (c : Ctx) (f : Nat) : (c.orFlags f).vm = c.vm := 
  (congrArg Ctx.vm (Ctx.orFlags_frame c f)).trans ((fun z => (rfl : ({ c with fpsr := z } : Ctx).vm = c.vm)) _)
@[simp] theorem Ctx.orFlags_m (c : Ctx) (f : Nat) : (c.orFlags f).m = c.m := 
  (congrArg Ctx.m (Ctx.orFlags_frame c f)).trans ((fun z => (rfl : ({ c with fpsr := z } : Ctx).m = c.m)) _)
@[simp] theorem Ctx.orFlags_pv (c : Ctx) (f : Nat) : (c.orFlags f).pv = c.pv := 
  (congrArg Ctx.pv (Ctx.orFlags_frame c f)).trans ((fun z => (rfl : ({ c with fpsr := z } : Ctx).pv = c.pv)) _)
@[simp] theorem Ctx.orFlags_g (c : Ctx) (f : Nat) : (c.orFlags f).g = c.g := 
  (congrArg Ctx.g (Ctx.orFlags_frame c f)).trans ((fun z => (rfl : ({ c with fpsr := z } : Ctx).g = c.g)) _)
@[simp] theorem Ctx.orFlags_a (c : Ctx) (f : Nat) : (c.orFlags f).a = c.a := 
  (congrArg Ctx.a (Ctx.orFlags_frame c f)).trans ((fun z => (rfl : ({ c with fpsr := z } : Ctx).a = c.a)) _)
@[simp] theorem Ctx.orFlags_h (c : Ctx) (f : Nat) : (c.orFlags f).h = c.h := 
  (congrArg Ctx.h (Ctx.orFlags_frame c f)).trans ((fun z => (rfl : ({ c with fpsr := z } : Ctx).h = c.h)) _)
@[simp] theorem Ctx.orFlags_ps (c : Ctx) (f : Nat) : (c.orFlags f).ps = c.ps := 
  (congrArg Ctx.ps (Ctx.orFlags_frame c f)).trans ((fun z => (rfl : ({ c with fpsr := z } : Ctx).ps = c.ps)) _)
@[simp] theorem Ctx.orFlags_port (c : Ctx) (f : Nat) : (c.orFlags f).port = c.port := 
  (congrArg Ctx.port (Ctx.orFlags_frame c f)).trans ((fun z => (rfl : ({ c with fpsr := z } : Ctx).port = c.port)) _)
@[simp] theorem Ctx.orFlags_pat0 (c : Ctx) (f : Nat) : (c.orFlags f).pat0 = c.pat0 := 
  (congrArg Ctx.pat0 (Ctx.orFlags_frame c f)).trans ((fun z => (rfl : ({ c with fpsr := z } : Ctx).pat0 = c.pat0)) _)
@[simp] theorem Ctx.orFlags_pat1 (c : Ctx) (f : Nat) : (c.orFlags f).pat1 = c.pat1 := 
  (congrArg Ctx.pat1 (Ctx.orFlags_frame c f)).trans ((fun z => (rfl : ({ c with fpsr := z } : Ctx).pat1 = c.pat1)) _)
@[simp] theorem Ctx.orFlags_patActive (c : Ctx) (f : Nat) : (c.orFlags f).patActive = c.patActive := 
  (congrArg Ctx.patActive (Ctx.orFlags_frame c f)).trans ((fun z => (rfl : ({ c with fpsr := z } : Ctx).patActive = c.patActive)) _)
@[simp] theorem Ctx.orFlags_fpcr (c : Ctx) (f : Nat) : (c.orFlags f).fpcr = c.fpcr := 
  (congrArg Ctx.fpcr (Ctx.orFlags_frame c f)).trans ((fun z => (rfl : ({ c with fpsr := z } : Ctx).fpcr = c.fpcr)) _)
@[simp] theorem Ctx.orFlags_cf (c : Ctx) (f : Nat) : (c.orFlags f).cf = c.cf := 
  (congrArg Ctx.cf (Ctx.orFlags_frame c f)).trans ((fun z => (rfl : ({ c with fpsr := z } : Ctx).cf = c.cf)) _)
@[simp] theorem Ctx.orFlags_cause (c : Ctx) (f : Nat) : (c.orFlags f).cause = c.cause := 
  (congrArg Ctx.cause (Ctx.orFlags_frame c f)).trans ((fun z => (rfl : ({ c with fpsr := z } : Ctx).cause = c.cause)) _)
@[simp] theorem Ctx.orFlags_epc (c : Ctx) (f : Nat) : (c.orFlags f).epc = c.epc := 
  (congrArg Ctx.epc (Ctx.orFlags_frame c f)).trans ((fun z => (rfl : ({ c with fpsr := z } : Ctx).epc = c.epc)) _)
@[simp] theorem Ctx.orFlags_einfo (c : Ctx) (f : Nat) : (c.orFlags f).einfo = c.einfo := 
  (congrArg Ctx.einfo (Ctx.orFlags_frame c f)).trans ((fun z => (rfl : ({ c with fpsr := z } : Ctx).einfo = c.einfo)) _)
@[simp] theorem Ctx.orFlags_tbase (c : Ctx) (f : Nat) : (c.orFlags f).tbase = c.tbase := 
  (congrArg Ctx.tbase (Ctx.orFlags_frame c f)).trans ((fun z => (rfl : ({ c with fpsr := z } : Ctx).tbase = c.tbase)) _)
@[simp] theorem Ctx.orFlags_repc (c : Ctx) (f : Nat) : (c.orFlags f).repc = c.repc := 
  (congrArg Ctx.repc (Ctx.orFlags_frame c f)).trans ((fun z => (rfl : ({ c with fpsr := z } : Ctx).repc = c.repc)) _)
@[simp] theorem Ctx.orFlags_slip (c : Ctx) (f : Nat) : (c.orFlags f).slip = c.slip := 
  (congrArg Ctx.slip (Ctx.orFlags_frame c f)).trans ((fun z => (rfl : ({ c with fpsr := z } : Ctx).slip = c.slip)) _)
@[simp] theorem Ctx.orFlags_enpc (c : Ctx) (f : Nat) : (c.orFlags f).enpc = c.enpc := 
  (congrArg Ctx.enpc (Ctx.orFlags_frame c f)).trans ((fun z => (rfl : ({ c with fpsr := z } : Ctx).enpc = c.enpc)) _)
@[simp] theorem Ctx.orFlags_cbmap (c : Ctx) (f : Nat) : (c.orFlags f).cbmap = c.cbmap := 
  (congrArg Ctx.cbmap (Ctx.orFlags_frame c f)).trans ((fun z => (rfl : ({ c with fpsr := z } : Ctx).cbmap = c.cbmap)) _)
@[simp] theorem Ctx.orFlags_seg (c : Ctx) (f : Nat) : (c.orFlags f).seg = c.seg := 
  (congrArg Ctx.seg (Ctx.orFlags_frame c f)).trans ((fun z => (rfl : ({ c with fpsr := z } : Ctx).seg = c.seg)) _)
@[simp] theorem Ctx.orFlags_bead (c : Ctx) (f : Nat) : (c.orFlags f).bead = c.bead := 
  (congrArg Ctx.bead (Ctx.orFlags_frame c f)).trans ((fun z => (rfl : ({ c with fpsr := z } : Ctx).bead = c.bead)) _)
@[simp] theorem Ctx.orFlags_preempt (c : Ctx) (f : Nat) : (c.orFlags f).preempt = c.preempt := 
  (congrArg Ctx.preempt (Ctx.orFlags_frame c f)).trans ((fun z => (rfl : ({ c with fpsr := z } : Ctx).preempt = c.preempt)) _)
@[simp] theorem Ctx.orFlags_since (c : Ctx) (f : Nat) : (c.orFlags f).since = c.since := 
  (congrArg Ctx.since (Ctx.orFlags_frame c f)).trans ((fun z => (rfl : ({ c with fpsr := z } : Ctx).since = c.since)) _)
@[simp] theorem Ctx.orFlags_home (c : Ctx) (f : Nat) : (c.orFlags f).home = c.home := 
  (congrArg Ctx.home (Ctx.orFlags_frame c f)).trans ((fun z => (rfl : ({ c with fpsr := z } : Ctx).home = c.home)) _)
@[simp] theorem Ctx.orFlags_index (c : Ctx) (f : Nat) : (c.orFlags f).index = c.index := 
  (congrArg Ctx.index (Ctx.orFlags_frame c f)).trans ((fun z => (rfl : ({ c with fpsr := z } : Ctx).index = c.index)) _)
@[simp] theorem Ctx.orFlags_strips (c : Ctx) (f : Nat) : (c.orFlags f).strips = c.strips := 
  (congrArg Ctx.strips (Ctx.orFlags_frame c f)).trans ((fun z => (rfl : ({ c with fpsr := z } : Ctx).strips = c.strips)) _)
@[simp] theorem Ctx.orFlags_allot15 (c : Ctx) (f : Nat) : (c.orFlags f).allot15 = c.allot15 := 
  (congrArg Ctx.allot15 (Ctx.orFlags_frame c f)).trans ((fun z => (rfl : ({ c with fpsr := z } : Ctx).allot15 = c.allot15)) _)
@[simp] theorem Ctx.orFlags_xstat (c : Ctx) (f : Nat) : (c.orFlags f).xstat = c.xstat := 
  (congrArg Ctx.xstat (Ctx.orFlags_frame c f)).trans ((fun z => (rfl : ({ c with fpsr := z } : Ctx).xstat = c.xstat)) _)
@[simp] theorem Ctx.orFlags_lent (c : Ctx) (f : Nat) : (c.orFlags f).lent = c.lent := 
  (congrArg Ctx.lent (Ctx.orFlags_frame c f)).trans ((fun z => (rfl : ({ c with fpsr := z } : Ctx).lent = c.lent)) _)
@[simp] theorem Ctx.orFlags_wstr (c : Ctx) (f : Nat) : (c.orFlags f).wstr = c.wstr := 
  (congrArg Ctx.wstr (Ctx.orFlags_frame c f)).trans ((fun z => (rfl : ({ c with fpsr := z } : Ctx).wstr = c.wstr)) _)
@[simp] theorem Ctx.orFlags_latch (c : Ctx) (f : Nat) : (c.orFlags f).latch = c.latch := 
  (congrArg Ctx.latch (Ctx.orFlags_frame c f)).trans ((fun z => (rfl : ({ c with fpsr := z } : Ctx).latch = c.latch)) _)
@[simp] theorem Ctx.orFlags_windows (c : Ctx) (f : Nat) : (c.orFlags f).windows = c.windows := 
  (congrArg Ctx.windows (Ctx.orFlags_frame c f)).trans ((fun z => (rfl : ({ c with fpsr := z } : Ctx).windows = c.windows)) _)

/-! ## `Ctx.addOlc` -/

/-- Only the field `fpsr` changes. -/
theorem Ctx.addOlc_frame (c : Ctx) (n : Nat) : c.addOlc n = { c with fpsr := (c.addOlc n).fpsr } := by
  rfl

@[simp] theorem Ctx.addOlc_pc (c : Ctx) (n : Nat) : (c.addOlc n).pc = c.pc := 
  (congrArg Ctx.pc (Ctx.addOlc_frame c n)).trans ((fun z => (rfl : ({ c with fpsr := z } : Ctx).pc = c.pc)) _)
@[simp] theorem Ctx.addOlc_sys (c : Ctx) (n : Nat) : (c.addOlc n).sys = c.sys := 
  (congrArg Ctx.sys (Ctx.addOlc_frame c n)).trans ((fun z => (rfl : ({ c with fpsr := z } : Ctx).sys = c.sys)) _)
@[simp] theorem Ctx.addOlc_x (c : Ctx) (n : Nat) : (c.addOlc n).x = c.x := 
  (congrArg Ctx.x (Ctx.addOlc_frame c n)).trans ((fun z => (rfl : ({ c with fpsr := z } : Ctx).x = c.x)) _)
@[simp] theorem Ctx.addOlc_k (c : Ctx) (n : Nat) : (c.addOlc n).k = c.k := 
  (congrArg Ctx.k (Ctx.addOlc_frame c n)).trans ((fun z => (rfl : ({ c with fpsr := z } : Ctx).k = c.k)) _)
@[simp] theorem Ctx.addOlc_v (c : Ctx) (n : Nat) : (c.addOlc n).v = c.v := 
  (congrArg Ctx.v (Ctx.addOlc_frame c n)).trans ((fun z => (rfl : ({ c with fpsr := z } : Ctx).v = c.v)) _)
@[simp] theorem Ctx.addOlc_vm (c : Ctx) (n : Nat) : (c.addOlc n).vm = c.vm := 
  (congrArg Ctx.vm (Ctx.addOlc_frame c n)).trans ((fun z => (rfl : ({ c with fpsr := z } : Ctx).vm = c.vm)) _)
@[simp] theorem Ctx.addOlc_m (c : Ctx) (n : Nat) : (c.addOlc n).m = c.m := 
  (congrArg Ctx.m (Ctx.addOlc_frame c n)).trans ((fun z => (rfl : ({ c with fpsr := z } : Ctx).m = c.m)) _)
@[simp] theorem Ctx.addOlc_pv (c : Ctx) (n : Nat) : (c.addOlc n).pv = c.pv := 
  (congrArg Ctx.pv (Ctx.addOlc_frame c n)).trans ((fun z => (rfl : ({ c with fpsr := z } : Ctx).pv = c.pv)) _)
@[simp] theorem Ctx.addOlc_g (c : Ctx) (n : Nat) : (c.addOlc n).g = c.g := 
  (congrArg Ctx.g (Ctx.addOlc_frame c n)).trans ((fun z => (rfl : ({ c with fpsr := z } : Ctx).g = c.g)) _)
@[simp] theorem Ctx.addOlc_a (c : Ctx) (n : Nat) : (c.addOlc n).a = c.a := 
  (congrArg Ctx.a (Ctx.addOlc_frame c n)).trans ((fun z => (rfl : ({ c with fpsr := z } : Ctx).a = c.a)) _)
@[simp] theorem Ctx.addOlc_h (c : Ctx) (n : Nat) : (c.addOlc n).h = c.h := 
  (congrArg Ctx.h (Ctx.addOlc_frame c n)).trans ((fun z => (rfl : ({ c with fpsr := z } : Ctx).h = c.h)) _)
@[simp] theorem Ctx.addOlc_ps (c : Ctx) (n : Nat) : (c.addOlc n).ps = c.ps := 
  (congrArg Ctx.ps (Ctx.addOlc_frame c n)).trans ((fun z => (rfl : ({ c with fpsr := z } : Ctx).ps = c.ps)) _)
@[simp] theorem Ctx.addOlc_port (c : Ctx) (n : Nat) : (c.addOlc n).port = c.port := 
  (congrArg Ctx.port (Ctx.addOlc_frame c n)).trans ((fun z => (rfl : ({ c with fpsr := z } : Ctx).port = c.port)) _)
@[simp] theorem Ctx.addOlc_pat0 (c : Ctx) (n : Nat) : (c.addOlc n).pat0 = c.pat0 := 
  (congrArg Ctx.pat0 (Ctx.addOlc_frame c n)).trans ((fun z => (rfl : ({ c with fpsr := z } : Ctx).pat0 = c.pat0)) _)
@[simp] theorem Ctx.addOlc_pat1 (c : Ctx) (n : Nat) : (c.addOlc n).pat1 = c.pat1 := 
  (congrArg Ctx.pat1 (Ctx.addOlc_frame c n)).trans ((fun z => (rfl : ({ c with fpsr := z } : Ctx).pat1 = c.pat1)) _)
@[simp] theorem Ctx.addOlc_patActive (c : Ctx) (n : Nat) : (c.addOlc n).patActive = c.patActive := 
  (congrArg Ctx.patActive (Ctx.addOlc_frame c n)).trans ((fun z => (rfl : ({ c with fpsr := z } : Ctx).patActive = c.patActive)) _)
@[simp] theorem Ctx.addOlc_fpcr (c : Ctx) (n : Nat) : (c.addOlc n).fpcr = c.fpcr := 
  (congrArg Ctx.fpcr (Ctx.addOlc_frame c n)).trans ((fun z => (rfl : ({ c with fpsr := z } : Ctx).fpcr = c.fpcr)) _)
@[simp] theorem Ctx.addOlc_cf (c : Ctx) (n : Nat) : (c.addOlc n).cf = c.cf := 
  (congrArg Ctx.cf (Ctx.addOlc_frame c n)).trans ((fun z => (rfl : ({ c with fpsr := z } : Ctx).cf = c.cf)) _)
@[simp] theorem Ctx.addOlc_cause (c : Ctx) (n : Nat) : (c.addOlc n).cause = c.cause := 
  (congrArg Ctx.cause (Ctx.addOlc_frame c n)).trans ((fun z => (rfl : ({ c with fpsr := z } : Ctx).cause = c.cause)) _)
@[simp] theorem Ctx.addOlc_epc (c : Ctx) (n : Nat) : (c.addOlc n).epc = c.epc := 
  (congrArg Ctx.epc (Ctx.addOlc_frame c n)).trans ((fun z => (rfl : ({ c with fpsr := z } : Ctx).epc = c.epc)) _)
@[simp] theorem Ctx.addOlc_einfo (c : Ctx) (n : Nat) : (c.addOlc n).einfo = c.einfo := 
  (congrArg Ctx.einfo (Ctx.addOlc_frame c n)).trans ((fun z => (rfl : ({ c with fpsr := z } : Ctx).einfo = c.einfo)) _)
@[simp] theorem Ctx.addOlc_tbase (c : Ctx) (n : Nat) : (c.addOlc n).tbase = c.tbase := 
  (congrArg Ctx.tbase (Ctx.addOlc_frame c n)).trans ((fun z => (rfl : ({ c with fpsr := z } : Ctx).tbase = c.tbase)) _)
@[simp] theorem Ctx.addOlc_repc (c : Ctx) (n : Nat) : (c.addOlc n).repc = c.repc := 
  (congrArg Ctx.repc (Ctx.addOlc_frame c n)).trans ((fun z => (rfl : ({ c with fpsr := z } : Ctx).repc = c.repc)) _)
@[simp] theorem Ctx.addOlc_slip (c : Ctx) (n : Nat) : (c.addOlc n).slip = c.slip := 
  (congrArg Ctx.slip (Ctx.addOlc_frame c n)).trans ((fun z => (rfl : ({ c with fpsr := z } : Ctx).slip = c.slip)) _)
@[simp] theorem Ctx.addOlc_enpc (c : Ctx) (n : Nat) : (c.addOlc n).enpc = c.enpc := 
  (congrArg Ctx.enpc (Ctx.addOlc_frame c n)).trans ((fun z => (rfl : ({ c with fpsr := z } : Ctx).enpc = c.enpc)) _)
@[simp] theorem Ctx.addOlc_cbmap (c : Ctx) (n : Nat) : (c.addOlc n).cbmap = c.cbmap := 
  (congrArg Ctx.cbmap (Ctx.addOlc_frame c n)).trans ((fun z => (rfl : ({ c with fpsr := z } : Ctx).cbmap = c.cbmap)) _)
@[simp] theorem Ctx.addOlc_seg (c : Ctx) (n : Nat) : (c.addOlc n).seg = c.seg := 
  (congrArg Ctx.seg (Ctx.addOlc_frame c n)).trans ((fun z => (rfl : ({ c with fpsr := z } : Ctx).seg = c.seg)) _)
@[simp] theorem Ctx.addOlc_bead (c : Ctx) (n : Nat) : (c.addOlc n).bead = c.bead := 
  (congrArg Ctx.bead (Ctx.addOlc_frame c n)).trans ((fun z => (rfl : ({ c with fpsr := z } : Ctx).bead = c.bead)) _)
@[simp] theorem Ctx.addOlc_preempt (c : Ctx) (n : Nat) : (c.addOlc n).preempt = c.preempt := 
  (congrArg Ctx.preempt (Ctx.addOlc_frame c n)).trans ((fun z => (rfl : ({ c with fpsr := z } : Ctx).preempt = c.preempt)) _)
@[simp] theorem Ctx.addOlc_since (c : Ctx) (n : Nat) : (c.addOlc n).since = c.since := 
  (congrArg Ctx.since (Ctx.addOlc_frame c n)).trans ((fun z => (rfl : ({ c with fpsr := z } : Ctx).since = c.since)) _)
@[simp] theorem Ctx.addOlc_home (c : Ctx) (n : Nat) : (c.addOlc n).home = c.home := 
  (congrArg Ctx.home (Ctx.addOlc_frame c n)).trans ((fun z => (rfl : ({ c with fpsr := z } : Ctx).home = c.home)) _)
@[simp] theorem Ctx.addOlc_index (c : Ctx) (n : Nat) : (c.addOlc n).index = c.index := 
  (congrArg Ctx.index (Ctx.addOlc_frame c n)).trans ((fun z => (rfl : ({ c with fpsr := z } : Ctx).index = c.index)) _)
@[simp] theorem Ctx.addOlc_strips (c : Ctx) (n : Nat) : (c.addOlc n).strips = c.strips := 
  (congrArg Ctx.strips (Ctx.addOlc_frame c n)).trans ((fun z => (rfl : ({ c with fpsr := z } : Ctx).strips = c.strips)) _)
@[simp] theorem Ctx.addOlc_allot15 (c : Ctx) (n : Nat) : (c.addOlc n).allot15 = c.allot15 := 
  (congrArg Ctx.allot15 (Ctx.addOlc_frame c n)).trans ((fun z => (rfl : ({ c with fpsr := z } : Ctx).allot15 = c.allot15)) _)
@[simp] theorem Ctx.addOlc_xstat (c : Ctx) (n : Nat) : (c.addOlc n).xstat = c.xstat := 
  (congrArg Ctx.xstat (Ctx.addOlc_frame c n)).trans ((fun z => (rfl : ({ c with fpsr := z } : Ctx).xstat = c.xstat)) _)
@[simp] theorem Ctx.addOlc_lent (c : Ctx) (n : Nat) : (c.addOlc n).lent = c.lent := 
  (congrArg Ctx.lent (Ctx.addOlc_frame c n)).trans ((fun z => (rfl : ({ c with fpsr := z } : Ctx).lent = c.lent)) _)
@[simp] theorem Ctx.addOlc_wstr (c : Ctx) (n : Nat) : (c.addOlc n).wstr = c.wstr := 
  (congrArg Ctx.wstr (Ctx.addOlc_frame c n)).trans ((fun z => (rfl : ({ c with fpsr := z } : Ctx).wstr = c.wstr)) _)
@[simp] theorem Ctx.addOlc_latch (c : Ctx) (n : Nat) : (c.addOlc n).latch = c.latch := 
  (congrArg Ctx.latch (Ctx.addOlc_frame c n)).trans ((fun z => (rfl : ({ c with fpsr := z } : Ctx).latch = c.latch)) _)
@[simp] theorem Ctx.addOlc_windows (c : Ctx) (n : Nat) : (c.addOlc n).windows = c.windows := 
  (congrArg Ctx.windows (Ctx.addOlc_frame c n)).trans ((fun z => (rfl : ({ c with fpsr := z } : Ctx).windows = c.windows)) _)

/-! ## `State.wx` -/

@[simp] theorem State.wx_now (s : State) (r : BitVec 5) (w : DWord) : (s.wx r w).now = s.now := rfl
@[simp] theorem State.wx_c (s : State) (r : BitVec 5) (w : DWord) : (s.wx r w).c = s.c.wx r w := rfl
@[simp] theorem State.wx_q (s : State) (r : BitVec 5) (w : DWord) : (s.wx r w).q = { s.q with shadows := overwrite s.q.shadows s.lat.seq (.x r) } := rfl
@[simp] theorem State.wx_oc (s : State) (r : BitVec 5) (w : DWord) : (s.wx r w).oc = s.oc := rfl
@[simp] theorem State.wx_oq (s : State) (r : BitVec 5) (w : DWord) : (s.wx r w).oq = s.oq := rfl
@[simp] theorem State.wx_lat (s : State) (r : BitVec 5) (w : DWord) : (s.wx r w).lat = s.lat := rfl
@[simp] theorem State.wx_core (s : State) (r : BitVec 5) (w : DWord) : (s.wx r w).core = s.core := rfl
@[simp] theorem State.wx_mem (s : State) (r : BitVec 5) (w : DWord) : (s.wx r w).mem = s.mem := rfl
@[simp] theorem State.wx_outs (s : State) (r : BitVec 5) (w : DWord) : (s.wx r w).outs = s.outs := rfl
@[simp] theorem State.wx_nextId (s : State) (r : BitVec 5) (w : DWord) : (s.wx r w).nextId = s.nextId := rfl
@[simp] theorem State.wx_fresh (s : State) (r : BitVec 5) (w : DWord) : (s.wx r w).fresh = s.fresh := rfl
@[simp] theorem State.wx_hub (s : State) (r : BitVec 5) (w : DWord) : (s.wx r w).hub = s.hub := rfl
@[simp] theorem State.wx_undo (s : State) (r : BitVec 5) (w : DWord) : (s.wx r w).undo = s.undo := rfl
@[simp] theorem State.wx_run (s : State) (r : BitVec 5) (w : DWord) : (s.wx r w).run = s.run := rfl
@[simp] theorem State.wx_arg (s : State) (r : BitVec 5) (w : DWord) : (s.wx r w).arg = s.arg := rfl
@[simp] theorem State.wx_agenda (s : State) (r : BitVec 5) (w : DWord) : (s.wx r w).agenda = s.agenda := rfl

/-! ## `State.wk` -/

@[simp] theorem State.wk_now (s : State) (r : BitVec 3) (w : Bool) : (s.wk r w).now = s.now := rfl
@[simp] theorem State.wk_c (s : State) (r : BitVec 3) (w : Bool) : (s.wk r w).c = s.c.wk r w := rfl
@[simp] theorem State.wk_q (s : State) (r : BitVec 3) (w : Bool) : (s.wk r w).q = { s.q with shadows := overwrite s.q.shadows s.lat.seq (.k r) } := rfl
@[simp] theorem State.wk_oc (s : State) (r : BitVec 3) (w : Bool) : (s.wk r w).oc = s.oc := rfl
@[simp] theorem State.wk_oq (s : State) (r : BitVec 3) (w : Bool) : (s.wk r w).oq = s.oq := rfl
@[simp] theorem State.wk_lat (s : State) (r : BitVec 3) (w : Bool) : (s.wk r w).lat = s.lat := rfl
@[simp] theorem State.wk_core (s : State) (r : BitVec 3) (w : Bool) : (s.wk r w).core = s.core := rfl
@[simp] theorem State.wk_mem (s : State) (r : BitVec 3) (w : Bool) : (s.wk r w).mem = s.mem := rfl
@[simp] theorem State.wk_outs (s : State) (r : BitVec 3) (w : Bool) : (s.wk r w).outs = s.outs := rfl
@[simp] theorem State.wk_nextId (s : State) (r : BitVec 3) (w : Bool) : (s.wk r w).nextId = s.nextId := rfl
@[simp] theorem State.wk_fresh (s : State) (r : BitVec 3) (w : Bool) : (s.wk r w).fresh = s.fresh := rfl
@[simp] theorem State.wk_hub (s : State) (r : BitVec 3) (w : Bool) : (s.wk r w).hub = s.hub := rfl
@[simp] theorem State.wk_undo (s : State) (r : BitVec 3) (w : Bool) : (s.wk r w).undo = s.undo := rfl
@[simp] theorem State.wk_run (s : State) (r : BitVec 3) (w : Bool) : (s.wk r w).run = s.run := rfl
@[simp] theorem State.wk_arg (s : State) (r : BitVec 3) (w : Bool) : (s.wk r w).arg = s.arg := rfl
@[simp] theorem State.wk_agenda (s : State) (r : BitVec 3) (w : Bool) : (s.wk r w).agenda = s.agenda := rfl

/-! ## `State.wa` -/

@[simp] theorem State.wa_now (s : State) (r : BitVec 4) (w : DWord) : (s.wa r w).now = s.now := rfl
@[simp] theorem State.wa_c (s : State) (r : BitVec 4) (w : DWord) : (s.wa r w).c = s.c.wa r w := rfl
@[simp] theorem State.wa_q (s : State) (r : BitVec 4) (w : DWord) : (s.wa r w).q = { s.q with shadows := overwrite s.q.shadows s.lat.seq (.a r) } := rfl
@[simp] theorem State.wa_oc (s : State) (r : BitVec 4) (w : DWord) : (s.wa r w).oc = s.oc := rfl
@[simp] theorem State.wa_oq (s : State) (r : BitVec 4) (w : DWord) : (s.wa r w).oq = s.oq := rfl
@[simp] theorem State.wa_lat (s : State) (r : BitVec 4) (w : DWord) : (s.wa r w).lat = s.lat := rfl
@[simp] theorem State.wa_core (s : State) (r : BitVec 4) (w : DWord) : (s.wa r w).core = s.core := rfl
@[simp] theorem State.wa_mem (s : State) (r : BitVec 4) (w : DWord) : (s.wa r w).mem = s.mem := rfl
@[simp] theorem State.wa_outs (s : State) (r : BitVec 4) (w : DWord) : (s.wa r w).outs = s.outs := rfl
@[simp] theorem State.wa_nextId (s : State) (r : BitVec 4) (w : DWord) : (s.wa r w).nextId = s.nextId := rfl
@[simp] theorem State.wa_fresh (s : State) (r : BitVec 4) (w : DWord) : (s.wa r w).fresh = s.fresh := rfl
@[simp] theorem State.wa_hub (s : State) (r : BitVec 4) (w : DWord) : (s.wa r w).hub = s.hub := rfl
@[simp] theorem State.wa_undo (s : State) (r : BitVec 4) (w : DWord) : (s.wa r w).undo = s.undo := rfl
@[simp] theorem State.wa_run (s : State) (r : BitVec 4) (w : DWord) : (s.wa r w).run = s.run := rfl
@[simp] theorem State.wa_arg (s : State) (r : BitVec 4) (w : DWord) : (s.wa r w).arg = s.arg := rfl
@[simp] theorem State.wa_agenda (s : State) (r : BitVec 4) (w : DWord) : (s.wa r w).agenda = s.agenda := rfl

/-! ## `State.wh` -/

@[simp] theorem State.wh_now (s : State) (r : BitVec 4) (w : QWord) : (s.wh r w).now = s.now := rfl
@[simp] theorem State.wh_c (s : State) (r : BitVec 4) (w : QWord) : (s.wh r w).c = s.c.wh r w := rfl
@[simp] theorem State.wh_q (s : State) (r : BitVec 4) (w : QWord) : (s.wh r w).q = { s.q with shadows := overwrite s.q.shadows s.lat.seq (.h r) } := rfl
@[simp] theorem State.wh_oc (s : State) (r : BitVec 4) (w : QWord) : (s.wh r w).oc = s.oc := rfl
@[simp] theorem State.wh_oq (s : State) (r : BitVec 4) (w : QWord) : (s.wh r w).oq = s.oq := rfl
@[simp] theorem State.wh_lat (s : State) (r : BitVec 4) (w : QWord) : (s.wh r w).lat = s.lat := rfl
@[simp] theorem State.wh_core (s : State) (r : BitVec 4) (w : QWord) : (s.wh r w).core = s.core := rfl
@[simp] theorem State.wh_mem (s : State) (r : BitVec 4) (w : QWord) : (s.wh r w).mem = s.mem := rfl
@[simp] theorem State.wh_outs (s : State) (r : BitVec 4) (w : QWord) : (s.wh r w).outs = s.outs := rfl
@[simp] theorem State.wh_nextId (s : State) (r : BitVec 4) (w : QWord) : (s.wh r w).nextId = s.nextId := rfl
@[simp] theorem State.wh_fresh (s : State) (r : BitVec 4) (w : QWord) : (s.wh r w).fresh = s.fresh := rfl
@[simp] theorem State.wh_hub (s : State) (r : BitVec 4) (w : QWord) : (s.wh r w).hub = s.hub := rfl
@[simp] theorem State.wh_undo (s : State) (r : BitVec 4) (w : QWord) : (s.wh r w).undo = s.undo := rfl
@[simp] theorem State.wh_run (s : State) (r : BitVec 4) (w : QWord) : (s.wh r w).run = s.run := rfl
@[simp] theorem State.wh_arg (s : State) (r : BitVec 4) (w : QWord) : (s.wh r w).arg = s.arg := rfl
@[simp] theorem State.wh_agenda (s : State) (r : BitVec 4) (w : QWord) : (s.wh r w).agenda = s.agenda := rfl

/-! ## `State.wm` -/

@[simp] theorem State.wm_now (s : State) (r : BitVec 3) (w : QWord) : (s.wm r w).now = s.now := rfl
@[simp] theorem State.wm_c (s : State) (r : BitVec 3) (w : QWord) : (s.wm r w).c = s.c.wm r w := rfl
@[simp] theorem State.wm_q (s : State) (r : BitVec 3) (w : QWord) : (s.wm r w).q = { s.q with shadows := overwrite s.q.shadows s.lat.seq (.m r) } := rfl
@[simp] theorem State.wm_oc (s : State) (r : BitVec 3) (w : QWord) : (s.wm r w).oc = s.oc := rfl
@[simp] theorem State.wm_oq (s : State) (r : BitVec 3) (w : QWord) : (s.wm r w).oq = s.oq := rfl
@[simp] theorem State.wm_lat (s : State) (r : BitVec 3) (w : QWord) : (s.wm r w).lat = s.lat := rfl
@[simp] theorem State.wm_core (s : State) (r : BitVec 3) (w : QWord) : (s.wm r w).core = s.core := rfl
@[simp] theorem State.wm_mem (s : State) (r : BitVec 3) (w : QWord) : (s.wm r w).mem = s.mem := rfl
@[simp] theorem State.wm_outs (s : State) (r : BitVec 3) (w : QWord) : (s.wm r w).outs = s.outs := rfl
@[simp] theorem State.wm_nextId (s : State) (r : BitVec 3) (w : QWord) : (s.wm r w).nextId = s.nextId := rfl
@[simp] theorem State.wm_fresh (s : State) (r : BitVec 3) (w : QWord) : (s.wm r w).fresh = s.fresh := rfl
@[simp] theorem State.wm_hub (s : State) (r : BitVec 3) (w : QWord) : (s.wm r w).hub = s.hub := rfl
@[simp] theorem State.wm_undo (s : State) (r : BitVec 3) (w : QWord) : (s.wm r w).undo = s.undo := rfl
@[simp] theorem State.wm_run (s : State) (r : BitVec 3) (w : QWord) : (s.wm r w).run = s.run := rfl
@[simp] theorem State.wm_arg (s : State) (r : BitVec 3) (w : QWord) : (s.wm r w).arg = s.arg := rfl
@[simp] theorem State.wm_agenda (s : State) (r : BitVec 3) (w : QWord) : (s.wm r w).agenda = s.agenda := rfl

/-! ## `State.wv` -/

@[simp] theorem State.wv_now (s : State) (r : BitVec 6) (w : VWord) : (s.wv r w).now = s.now := rfl
@[simp] theorem State.wv_c (s : State) (r : BitVec 6) (w : VWord) : (s.wv r w).c = s.c.wv r.toNat w := rfl
@[simp] theorem State.wv_q (s : State) (r : BitVec 6) (w : VWord) : (s.wv r w).q = { s.q with shadows := overwrite s.q.shadows s.lat.seq (.v r) } := rfl
@[simp] theorem State.wv_oc (s : State) (r : BitVec 6) (w : VWord) : (s.wv r w).oc = s.oc := rfl
@[simp] theorem State.wv_oq (s : State) (r : BitVec 6) (w : VWord) : (s.wv r w).oq = s.oq := rfl
@[simp] theorem State.wv_lat (s : State) (r : BitVec 6) (w : VWord) : (s.wv r w).lat = s.lat := rfl
@[simp] theorem State.wv_core (s : State) (r : BitVec 6) (w : VWord) : (s.wv r w).core = s.core := rfl
@[simp] theorem State.wv_mem (s : State) (r : BitVec 6) (w : VWord) : (s.wv r w).mem = s.mem := rfl
@[simp] theorem State.wv_outs (s : State) (r : BitVec 6) (w : VWord) : (s.wv r w).outs = s.outs := rfl
@[simp] theorem State.wv_nextId (s : State) (r : BitVec 6) (w : VWord) : (s.wv r w).nextId = s.nextId := rfl
@[simp] theorem State.wv_fresh (s : State) (r : BitVec 6) (w : VWord) : (s.wv r w).fresh = s.fresh := rfl
@[simp] theorem State.wv_hub (s : State) (r : BitVec 6) (w : VWord) : (s.wv r w).hub = s.hub := rfl
@[simp] theorem State.wv_undo (s : State) (r : BitVec 6) (w : VWord) : (s.wv r w).undo = s.undo := rfl
@[simp] theorem State.wv_run (s : State) (r : BitVec 6) (w : VWord) : (s.wv r w).run = s.run := rfl
@[simp] theorem State.wv_arg (s : State) (r : BitVec 6) (w : VWord) : (s.wv r w).arg = s.arg := rfl
@[simp] theorem State.wv_agenda (s : State) (r : BitVec 6) (w : VWord) : (s.wv r w).agenda = s.agenda := rfl

/-! ## `State.wvm` -/

@[simp] theorem State.wvm_now (s : State) (r : BitVec 3) (w : BitVec 128) : (s.wvm r w).now = s.now := rfl
@[simp] theorem State.wvm_c (s : State) (r : BitVec 3) (w : BitVec 128) : (s.wvm r w).c = s.c.wvm r w := rfl
@[simp] theorem State.wvm_q (s : State) (r : BitVec 3) (w : BitVec 128) : (s.wvm r w).q = { s.q with shadows := overwrite s.q.shadows s.lat.seq (.vm r) } := rfl
@[simp] theorem State.wvm_oc (s : State) (r : BitVec 3) (w : BitVec 128) : (s.wvm r w).oc = s.oc := rfl
@[simp] theorem State.wvm_oq (s : State) (r : BitVec 3) (w : BitVec 128) : (s.wvm r w).oq = s.oq := rfl
@[simp] theorem State.wvm_lat (s : State) (r : BitVec 3) (w : BitVec 128) : (s.wvm r w).lat = s.lat := rfl
@[simp] theorem State.wvm_core (s : State) (r : BitVec 3) (w : BitVec 128) : (s.wvm r w).core = s.core := rfl
@[simp] theorem State.wvm_mem (s : State) (r : BitVec 3) (w : BitVec 128) : (s.wvm r w).mem = s.mem := rfl
@[simp] theorem State.wvm_outs (s : State) (r : BitVec 3) (w : BitVec 128) : (s.wvm r w).outs = s.outs := rfl
@[simp] theorem State.wvm_nextId (s : State) (r : BitVec 3) (w : BitVec 128) : (s.wvm r w).nextId = s.nextId := rfl
@[simp] theorem State.wvm_fresh (s : State) (r : BitVec 3) (w : BitVec 128) : (s.wvm r w).fresh = s.fresh := rfl
@[simp] theorem State.wvm_hub (s : State) (r : BitVec 3) (w : BitVec 128) : (s.wvm r w).hub = s.hub := rfl
@[simp] theorem State.wvm_undo (s : State) (r : BitVec 3) (w : BitVec 128) : (s.wvm r w).undo = s.undo := rfl
@[simp] theorem State.wvm_run (s : State) (r : BitVec 3) (w : BitVec 128) : (s.wvm r w).run = s.run := rfl
@[simp] theorem State.wvm_arg (s : State) (r : BitVec 3) (w : BitVec 128) : (s.wvm r w).arg = s.arg := rfl
@[simp] theorem State.wvm_agenda (s : State) (r : BitVec 3) (w : BitVec 128) : (s.wvm r w).agenda = s.agenda := rfl

/-! ## `State.shadow` -/

@[simp] theorem State.shadow_now (s : State) (k : Nat) (w : RegWrite) : (s.shadow k w).now = s.now := rfl
@[simp] theorem State.shadow_c (s : State) (k : Nat) (w : RegWrite) : (s.shadow k w).c = s.c := rfl
@[simp] theorem State.shadow_q (s : State) (k : Nat) (w : RegWrite) : (s.shadow k w).q = { s.q with shadows := s.q.shadows ++ [{ write := w, seq := s.lat.seq, due := s.lat.seq + k }] } := rfl
@[simp] theorem State.shadow_oc (s : State) (k : Nat) (w : RegWrite) : (s.shadow k w).oc = s.oc := rfl
@[simp] theorem State.shadow_oq (s : State) (k : Nat) (w : RegWrite) : (s.shadow k w).oq = s.oq := rfl
@[simp] theorem State.shadow_lat (s : State) (k : Nat) (w : RegWrite) : (s.shadow k w).lat = s.lat := rfl
@[simp] theorem State.shadow_core (s : State) (k : Nat) (w : RegWrite) : (s.shadow k w).core = s.core := rfl
@[simp] theorem State.shadow_mem (s : State) (k : Nat) (w : RegWrite) : (s.shadow k w).mem = s.mem := rfl
@[simp] theorem State.shadow_outs (s : State) (k : Nat) (w : RegWrite) : (s.shadow k w).outs = s.outs := rfl
@[simp] theorem State.shadow_nextId (s : State) (k : Nat) (w : RegWrite) : (s.shadow k w).nextId = s.nextId := rfl
@[simp] theorem State.shadow_fresh (s : State) (k : Nat) (w : RegWrite) : (s.shadow k w).fresh = s.fresh := rfl
@[simp] theorem State.shadow_hub (s : State) (k : Nat) (w : RegWrite) : (s.shadow k w).hub = s.hub := rfl
@[simp] theorem State.shadow_undo (s : State) (k : Nat) (w : RegWrite) : (s.shadow k w).undo = s.undo := rfl
@[simp] theorem State.shadow_run (s : State) (k : Nat) (w : RegWrite) : (s.shadow k w).run = s.run := rfl
@[simp] theorem State.shadow_arg (s : State) (k : Nat) (w : RegWrite) : (s.shadow k w).arg = s.arg := rfl
@[simp] theorem State.shadow_agenda (s : State) (k : Nat) (w : RegWrite) : (s.shadow k w).agenda = s.agenda := rfl

/-! ## `State.stall` -/

@[simp] theorem State.stall_now (s : State) : (s.stall).now = s.now := rfl
@[simp] theorem State.stall_c (s : State) : (s.stall).c = s.c := rfl
@[simp] theorem State.stall_q (s : State) : (s.stall).q = s.q := rfl
@[simp] theorem State.stall_oc (s : State) : (s.stall).oc = s.oc := rfl
@[simp] theorem State.stall_oq (s : State) : (s.stall).oq = s.oq := rfl
@[simp] theorem State.stall_lat (s : State) : (s.stall).lat = { s.lat with res := .stall } := rfl
@[simp] theorem State.stall_core (s : State) : (s.stall).core = s.core := rfl
@[simp] theorem State.stall_mem (s : State) : (s.stall).mem = s.mem := rfl
@[simp] theorem State.stall_outs (s : State) : (s.stall).outs = s.outs := rfl
@[simp] theorem State.stall_nextId (s : State) : (s.stall).nextId = s.nextId := rfl
@[simp] theorem State.stall_fresh (s : State) : (s.stall).fresh = s.fresh := rfl
@[simp] theorem State.stall_hub (s : State) : (s.stall).hub = s.hub := rfl
@[simp] theorem State.stall_undo (s : State) : (s.stall).undo = s.undo := rfl
@[simp] theorem State.stall_run (s : State) : (s.stall).run = s.run := rfl
@[simp] theorem State.stall_arg (s : State) : (s.stall).arg = s.arg := rfl
@[simp] theorem State.stall_agenda (s : State) : (s.stall).agenda = s.agenda := rfl

/-! ## `State.park` -/

@[simp] theorem State.park_now (s : State) : (s.park).now = s.now := rfl
@[simp] theorem State.park_c (s : State) : (s.park).c = s.c := rfl
@[simp] theorem State.park_q (s : State) : (s.park).q = s.q := rfl
@[simp] theorem State.park_oc (s : State) : (s.park).oc = s.oc := rfl
@[simp] theorem State.park_oq (s : State) : (s.park).oq = s.oq := rfl
@[simp] theorem State.park_lat (s : State) : (s.park).lat = { s.lat with res := .park } := rfl
@[simp] theorem State.park_core (s : State) : (s.park).core = s.core := rfl
@[simp] theorem State.park_mem (s : State) : (s.park).mem = s.mem := rfl
@[simp] theorem State.park_outs (s : State) : (s.park).outs = s.outs := rfl
@[simp] theorem State.park_nextId (s : State) : (s.park).nextId = s.nextId := rfl
@[simp] theorem State.park_fresh (s : State) : (s.park).fresh = s.fresh := rfl
@[simp] theorem State.park_hub (s : State) : (s.park).hub = s.hub := rfl
@[simp] theorem State.park_undo (s : State) : (s.park).undo = s.undo := rfl
@[simp] theorem State.park_run (s : State) : (s.park).run = s.run := rfl
@[simp] theorem State.park_arg (s : State) : (s.park).arg = s.arg := rfl
@[simp] theorem State.park_agenda (s : State) : (s.park).agenda = s.agenda := rfl

/-! ## `State.unwatch` -/

@[simp] theorem State.unwatch_now (s : State) : (s.unwatch).now = s.now := rfl
@[simp] theorem State.unwatch_c (s : State) : (s.unwatch).c = s.c := rfl
@[simp] theorem State.unwatch_q (s : State) : (s.unwatch).q = { s.q with wait := .none } := rfl
@[simp] theorem State.unwatch_oc (s : State) : (s.unwatch).oc = s.oc := rfl
@[simp] theorem State.unwatch_oq (s : State) : (s.unwatch).oq = s.oq := rfl
@[simp] theorem State.unwatch_lat (s : State) : (s.unwatch).lat = s.lat := rfl
@[simp] theorem State.unwatch_core (s : State) : (s.unwatch).core = s.core := rfl
@[simp] theorem State.unwatch_mem (s : State) : (s.unwatch).mem = s.mem := rfl
@[simp] theorem State.unwatch_outs (s : State) : (s.unwatch).outs = s.outs := rfl
@[simp] theorem State.unwatch_nextId (s : State) : (s.unwatch).nextId = s.nextId := rfl
@[simp] theorem State.unwatch_fresh (s : State) : (s.unwatch).fresh = s.fresh := rfl
@[simp] theorem State.unwatch_hub (s : State) : (s.unwatch).hub = s.hub := rfl
@[simp] theorem State.unwatch_undo (s : State) : (s.unwatch).undo = s.undo := rfl
@[simp] theorem State.unwatch_run (s : State) : (s.unwatch).run = s.run := rfl
@[simp] theorem State.unwatch_arg (s : State) : (s.unwatch).arg = s.arg := rfl
@[simp] theorem State.unwatch_agenda (s : State) : (s.unwatch).agenda = s.agenda := rfl

/-! ## `State.launch` -/

@[simp] theorem State.launch_now (s : State) (path : Path) (k : Ctr) (due : Nat) (t : Option Nat) (w : Work) : (s.launch path k due t w).now = s.now := rfl
@[simp] theorem State.launch_c (s : State) (path : Path) (k : Ctr) (due : Nat) (t : Option Nat) (w : Work) : (s.launch path k due t w).c = s.c := rfl
@[simp] theorem State.launch_q (s : State) (path : Path) (k : Ctr) (due : Nat) (t : Option Nat) (w : Work) : (s.launch path k due t w).q = s.q := rfl
@[simp] theorem State.launch_oc (s : State) (path : Path) (k : Ctr) (due : Nat) (t : Option Nat) (w : Work) : (s.launch path k due t w).oc = s.oc := rfl
@[simp] theorem State.launch_oq (s : State) (path : Path) (k : Ctr) (due : Nat) (t : Option Nat) (w : Work) : (s.launch path k due t w).oq = s.oq := rfl
@[simp] theorem State.launch_lat (s : State) (path : Path) (k : Ctr) (due : Nat) (t : Option Nat) (w : Work) : (s.launch path k due t w).lat = s.lat := rfl
@[simp] theorem State.launch_core (s : State) (path : Path) (k : Ctr) (due : Nat) (t : Option Nat) (w : Work) : (s.launch path k due t w).core = s.core := rfl
@[simp] theorem State.launch_mem (s : State) (path : Path) (k : Ctr) (due : Nat) (t : Option Nat) (w : Work) : (s.launch path k due t w).mem = s.mem := rfl
@[simp] theorem State.launch_outs (s : State) (path : Path) (k : Ctr) (due : Nat) (t : Option Nat) (w : Work) : (s.launch path k due t w).outs = s.outs ++ [{ id := s.nextId, bank := s.core.bank, seq := s.lat.seq, path := path, ctr := k, issued := s.now, due := due, promise := t, work := w }] := rfl
@[simp] theorem State.launch_nextId (s : State) (path : Path) (k : Ctr) (due : Nat) (t : Option Nat) (w : Work) : (s.launch path k due t w).nextId = s.nextId + 1 := rfl
@[simp] theorem State.launch_fresh (s : State) (path : Path) (k : Ctr) (due : Nat) (t : Option Nat) (w : Work) : (s.launch path k due t w).fresh = s.fresh := rfl
@[simp] theorem State.launch_hub (s : State) (path : Path) (k : Ctr) (due : Nat) (t : Option Nat) (w : Work) : (s.launch path k due t w).hub = s.hub := rfl
@[simp] theorem State.launch_undo (s : State) (path : Path) (k : Ctr) (due : Nat) (t : Option Nat) (w : Work) : (s.launch path k due t w).undo = s.undo := rfl
@[simp] theorem State.launch_run (s : State) (path : Path) (k : Ctr) (due : Nat) (t : Option Nat) (w : Work) : (s.launch path k due t w).run = s.run := rfl
@[simp] theorem State.launch_arg (s : State) (path : Path) (k : Ctr) (due : Nat) (t : Option Nat) (w : Work) : (s.launch path k due t w).arg = s.arg := rfl
@[simp] theorem State.launch_agenda (s : State) (path : Path) (k : Ctr) (due : Nat) (t : Option Nat) (w : Work) : (s.launch path k due t w).agenda = s.agenda := rfl

/-! ## `State.drop` -/

@[simp] theorem State.drop_now (s : State) (id : Nat) : (s.drop id).now = s.now := rfl
@[simp] theorem State.drop_c (s : State) (id : Nat) : (s.drop id).c = s.c := rfl
@[simp] theorem State.drop_q (s : State) (id : Nat) : (s.drop id).q = s.q := rfl
@[simp] theorem State.drop_oc (s : State) (id : Nat) : (s.drop id).oc = s.oc := rfl
@[simp] theorem State.drop_oq (s : State) (id : Nat) : (s.drop id).oq = s.oq := rfl
@[simp] theorem State.drop_lat (s : State) (id : Nat) : (s.drop id).lat = s.lat := rfl
@[simp] theorem State.drop_core (s : State) (id : Nat) : (s.drop id).core = s.core := rfl
@[simp] theorem State.drop_mem (s : State) (id : Nat) : (s.drop id).mem = s.mem := rfl
@[simp] theorem State.drop_outs (s : State) (id : Nat) : (s.drop id).outs = s.outs.filter (·.id != id) := rfl
@[simp] theorem State.drop_nextId (s : State) (id : Nat) : (s.drop id).nextId = s.nextId := rfl
@[simp] theorem State.drop_fresh (s : State) (id : Nat) : (s.drop id).fresh = s.fresh := rfl
@[simp] theorem State.drop_hub (s : State) (id : Nat) : (s.drop id).hub = s.hub := rfl
@[simp] theorem State.drop_undo (s : State) (id : Nat) : (s.drop id).undo = s.undo := rfl
@[simp] theorem State.drop_run (s : State) (id : Nat) : (s.drop id).run = s.run := rfl
@[simp] theorem State.drop_arg (s : State) (id : Nat) : (s.drop id).arg = s.arg := rfl
@[simp] theorem State.drop_agenda (s : State) (id : Nat) : (s.drop id).agenda = s.agenda := rfl

/-! ## `State.again` -/

@[simp] theorem State.again_now (s : State) (id due : Nat) (w : Work) : (s.again id due w).now = s.now := rfl
@[simp] theorem State.again_c (s : State) (id due : Nat) (w : Work) : (s.again id due w).c = s.c := rfl
@[simp] theorem State.again_q (s : State) (id due : Nat) (w : Work) : (s.again id due w).q = s.q := rfl
@[simp] theorem State.again_oc (s : State) (id due : Nat) (w : Work) : (s.again id due w).oc = s.oc := rfl
@[simp] theorem State.again_oq (s : State) (id due : Nat) (w : Work) : (s.again id due w).oq = s.oq := rfl
@[simp] theorem State.again_lat (s : State) (id due : Nat) (w : Work) : (s.again id due w).lat = s.lat := rfl
@[simp] theorem State.again_core (s : State) (id due : Nat) (w : Work) : (s.again id due w).core = s.core := rfl
@[simp] theorem State.again_mem (s : State) (id due : Nat) (w : Work) : (s.again id due w).mem = s.mem := rfl
@[simp] theorem State.again_nextId (s : State) (id due : Nat) (w : Work) : (s.again id due w).nextId = s.nextId := rfl
@[simp] theorem State.again_fresh (s : State) (id due : Nat) (w : Work) : (s.again id due w).fresh = s.fresh := rfl
@[simp] theorem State.again_hub (s : State) (id due : Nat) (w : Work) : (s.again id due w).hub = s.hub := rfl
@[simp] theorem State.again_undo (s : State) (id due : Nat) (w : Work) : (s.again id due w).undo = s.undo := rfl
@[simp] theorem State.again_run (s : State) (id due : Nat) (w : Work) : (s.again id due w).run = s.run := rfl
@[simp] theorem State.again_arg (s : State) (id due : Nat) (w : Work) : (s.again id due w).arg = s.arg := rfl
@[simp] theorem State.again_agenda (s : State) (id due : Nat) (w : Work) : (s.again id due w).agenda = s.agenda := rfl

/-! ## `State.orFlags` -/

@[simp] theorem State.orFlags_now (s : State) (f : Nat) : (s.orFlags f).now = s.now := rfl
@[simp] theorem State.orFlags_c (s : State) (f : Nat) : (s.orFlags f).c = s.c.orFlags f := rfl
@[simp] theorem State.orFlags_q (s : State) (f : Nat) : (s.orFlags f).q = s.q := rfl
@[simp] theorem State.orFlags_oc (s : State) (f : Nat) : (s.orFlags f).oc = s.oc := rfl
@[simp] theorem State.orFlags_oq (s : State) (f : Nat) : (s.orFlags f).oq = s.oq := rfl
@[simp] theorem State.orFlags_lat (s : State) (f : Nat) : (s.orFlags f).lat = s.lat := rfl
@[simp] theorem State.orFlags_core (s : State) (f : Nat) : (s.orFlags f).core = s.core := rfl
@[simp] theorem State.orFlags_mem (s : State) (f : Nat) : (s.orFlags f).mem = s.mem := rfl
@[simp] theorem State.orFlags_outs (s : State) (f : Nat) : (s.orFlags f).outs = s.outs := rfl
@[simp] theorem State.orFlags_nextId (s : State) (f : Nat) : (s.orFlags f).nextId = s.nextId := rfl
@[simp] theorem State.orFlags_fresh (s : State) (f : Nat) : (s.orFlags f).fresh = s.fresh := rfl
@[simp] theorem State.orFlags_hub (s : State) (f : Nat) : (s.orFlags f).hub = s.hub := rfl
@[simp] theorem State.orFlags_undo (s : State) (f : Nat) : (s.orFlags f).undo = s.undo := rfl
@[simp] theorem State.orFlags_run (s : State) (f : Nat) : (s.orFlags f).run = s.run := rfl
@[simp] theorem State.orFlags_arg (s : State) (f : Nat) : (s.orFlags f).arg = s.arg := rfl
@[simp] theorem State.orFlags_agenda (s : State) (f : Nat) : (s.orFlags f).agenda = s.agenda := rfl

/-! ## `State.jump` -/

@[simp] theorem State.jump_now (s : State) (n : Nat) (t : DWord) : (s.jump n t).now = s.now := rfl
@[simp] theorem State.jump_c (s : State) (n : Nat) (t : DWord) : (s.jump n t).c = { s.c with pc := t } := rfl
@[simp] theorem State.jump_q (s : State) (n : Nat) (t : DWord) : (s.jump n t).q = { s.q with issueFrom := s.coreAfter n, issueWhy := 10, taken := true } := rfl
@[simp] theorem State.jump_oc (s : State) (n : Nat) (t : DWord) : (s.jump n t).oc = s.oc := rfl
@[simp] theorem State.jump_oq (s : State) (n : Nat) (t : DWord) : (s.jump n t).oq = s.oq := rfl
@[simp] theorem State.jump_lat (s : State) (n : Nat) (t : DWord) : (s.jump n t).lat = s.lat := rfl
@[simp] theorem State.jump_core (s : State) (n : Nat) (t : DWord) : (s.jump n t).core = s.core := rfl
@[simp] theorem State.jump_mem (s : State) (n : Nat) (t : DWord) : (s.jump n t).mem = s.mem := rfl
@[simp] theorem State.jump_outs (s : State) (n : Nat) (t : DWord) : (s.jump n t).outs = s.outs := rfl
@[simp] theorem State.jump_nextId (s : State) (n : Nat) (t : DWord) : (s.jump n t).nextId = s.nextId := rfl
@[simp] theorem State.jump_fresh (s : State) (n : Nat) (t : DWord) : (s.jump n t).fresh = s.fresh := rfl
@[simp] theorem State.jump_hub (s : State) (n : Nat) (t : DWord) : (s.jump n t).hub = s.hub := rfl
@[simp] theorem State.jump_undo (s : State) (n : Nat) (t : DWord) : (s.jump n t).undo = s.undo := rfl
@[simp] theorem State.jump_run (s : State) (n : Nat) (t : DWord) : (s.jump n t).run = s.run := rfl
@[simp] theorem State.jump_arg (s : State) (n : Nat) (t : DWord) : (s.jump n t).arg = s.arg := rfl
@[simp] theorem State.jump_agenda (s : State) (n : Nat) (t : DWord) : (s.jump n t).agenda = s.agenda := rfl

/-! ## `State.switchBank` -/

@[simp] theorem State.switchBank_now (s : State) : (s.switchBank).now = s.now := rfl
@[simp] theorem State.switchBank_q (s : State) : (s.switchBank).q = { s.oq with issueFrom := max s.oq.issueFrom (s.coreAfter 8), issueWhy := 16 } := rfl
@[simp] theorem State.switchBank_oq (s : State) : (s.switchBank).oq = s.q := rfl
@[simp] theorem State.switchBank_lat (s : State) : (s.switchBank).lat = s.lat := rfl
@[simp] theorem State.switchBank_mem (s : State) : (s.switchBank).mem = s.mem := rfl
@[simp] theorem State.switchBank_outs (s : State) : (s.switchBank).outs = s.outs := rfl
@[simp] theorem State.switchBank_nextId (s : State) : (s.switchBank).nextId = s.nextId := rfl
@[simp] theorem State.switchBank_fresh (s : State) : (s.switchBank).fresh = s.fresh := rfl
@[simp] theorem State.switchBank_hub (s : State) : (s.switchBank).hub = s.hub := rfl
@[simp] theorem State.switchBank_undo (s : State) : (s.switchBank).undo = s.undo := rfl
@[simp] theorem State.switchBank_run (s : State) : (s.switchBank).run = s.run := rfl
@[simp] theorem State.switchBank_arg (s : State) : (s.switchBank).arg = s.arg := rfl
@[simp] theorem State.switchBank_agenda (s : State) : (s.switchBank).agenda = s.agenda := rfl

/-! ## Registers after a write -/

@[simp] theorem Ctx.rx_zero (c : Ctx) : c.rx 0 = 0 := rfl
@[simp] theorem Ctx.rk_zero (c : Ctx) : c.rk 0 = true := rfl
@[simp] theorem Ctx.rvm_zero (c : Ctx) : c.rvm 0 = BitVec.allOnes 128 := rfl

/-- The register written reads the value; number 0 keeps its constant. -/
theorem Ctx.rx_wx_same (c : Ctx) (r : BitVec 5) (w : DWord) : (c.wx r w).rx r = if r = 0 then 0 else w := by
  unfold Ctx.wx Ctx.rx
  split
  · rfl
  · exact Vector.getElem_set_self _

/-- Every other register keeps its value. -/
theorem Ctx.rx_wx_ne (c : Ctx) (r i : BitVec 5) (w : DWord) (h : i ≠ r) : (c.wx r w).rx i = c.rx i := by
  unfold Ctx.wx
  by_cases hr : r = 0
  · rw [if_pos hr]
  · rw [if_neg hr]; unfold Ctx.rx
    by_cases hi : i = 0
    · rw [if_pos hi, if_pos hi]
    · rw [if_neg hi, if_neg hi]
      exact Vector.getElem_set_ne r.isLt _ fun e => h (BitVec.eq_of_toNat_eq e.symm)

/-- The register written reads the value; number 0 keeps its constant. -/
theorem Ctx.rk_wk_same (c : Ctx) (r : BitVec 3) (w : Bool) : (c.wk r w).rk r = if r = 0 then true else w := by
  unfold Ctx.wk Ctx.rk
  split
  · rfl
  · exact Vector.getElem_set_self _

/-- Every other register keeps its value. -/
theorem Ctx.rk_wk_ne (c : Ctx) (r i : BitVec 3) (w : Bool) (h : i ≠ r) : (c.wk r w).rk i = c.rk i := by
  unfold Ctx.wk
  by_cases hr : r = 0
  · rw [if_pos hr]
  · rw [if_neg hr]; unfold Ctx.rk
    by_cases hi : i = 0
    · rw [if_pos hi, if_pos hi]
    · rw [if_neg hi, if_neg hi]
      exact Vector.getElem_set_ne r.isLt _ fun e => h (BitVec.eq_of_toNat_eq e.symm)

/-- The register written reads the value; number 0 keeps its constant. -/
theorem Ctx.rvm_wvm_same (c : Ctx) (r : BitVec 3) (w : BitVec 128) : (c.wvm r w).rvm r = if r = 0 then BitVec.allOnes 128 else w := by
  unfold Ctx.wvm Ctx.rvm
  split
  · rfl
  · exact Vector.getElem_set_self _

/-- Every other register keeps its value. -/
theorem Ctx.rvm_wvm_ne (c : Ctx) (r i : BitVec 3) (w : BitVec 128) (h : i ≠ r) : (c.wvm r w).rvm i = c.rvm i := by
  unfold Ctx.wvm
  by_cases hr : r = 0
  · rw [if_pos hr]
  · rw [if_neg hr]; unfold Ctx.rvm
    by_cases hi : i = 0
    · rw [if_pos hi, if_pos hi]
    · rw [if_neg hi, if_neg hi]
      exact Vector.getElem_set_ne r.isLt _ fun e => h (BitVec.eq_of_toNat_eq e.symm)

@[simp] theorem Ctx.ra_wa_same (c : Ctx) (r : BitVec 4) (w : DWord) : (c.wa r w).ra r = w :=
  Vector.getElem_set_self _

theorem Ctx.ra_wa_ne (c : Ctx) (r i : BitVec 4) (w : DWord) (h : i ≠ r) : (c.wa r w).ra i = c.ra i :=
  Vector.getElem_set_ne r.isLt _ fun e => h (BitVec.eq_of_toNat_eq e.symm)

@[simp] theorem Ctx.rh_wh_same (c : Ctx) (r : BitVec 4) (w : QWord) : (c.wh r w).rh r = w :=
  Vector.getElem_set_self _

theorem Ctx.rh_wh_ne (c : Ctx) (r i : BitVec 4) (w : QWord) (h : i ≠ r) : (c.wh r w).rh i = c.rh i :=
  Vector.getElem_set_ne r.isLt _ fun e => h (BitVec.eq_of_toNat_eq e.symm)

@[simp] theorem Ctx.rm_wm_same (c : Ctx) (r : BitVec 3) (w : QWord) : (c.wm r w).rm r = w :=
  Vector.getElem_set_self _

theorem Ctx.rm_wm_ne (c : Ctx) (r i : BitVec 3) (w : QWord) (h : i ≠ r) : (c.wm r w).rm i = c.rm i :=
  Vector.getElem_set_ne r.isLt _ fun e => h (BitVec.eq_of_toNat_eq e.symm)

@[simp] theorem Ctx.rpv_wpv_same (c : Ctx) (r : BitVec 2) (w : BitVec 1024) : (c.wpv r w).rpv r = w :=
  Vector.getElem_set_self _

theorem Ctx.rpv_wpv_ne (c : Ctx) (r i : BitVec 2) (w : BitVec 1024) (h : i ≠ r) : (c.wpv r w).rpv i = c.rpv i :=
  Vector.getElem_set_ne r.isLt _ fun e => h (BitVec.eq_of_toNat_eq e.symm)

@[simp] theorem Ctx.rg_wg_same (c : Ctx) (r : BitVec 2) (w : DWord) : (c.wg r w).rg r = w :=
  Vector.getElem_set_self _

theorem Ctx.rg_wg_ne (c : Ctx) (r i : BitVec 2) (w : DWord) (h : i ≠ r) : (c.wg r w).rg i = c.rg i :=
  Vector.getElem_set_ne r.isLt _ fun e => h (BitVec.eq_of_toNat_eq e.symm)

/-- v registers have numbers below 48. -/
theorem Ctx.rv_wv_same (c : Ctx) (r : Nat) (w : VWord) (h : r < 48) : (c.wv r w).rv r = w := by
  unfold Ctx.wv Ctx.rv
  rw [dif_pos h, dif_pos h]
  exact Vector.getElem_set_self _

theorem Ctx.rv_wv_ne (c : Ctx) (r i : Nat) (w : VWord) (h : i ≠ r) : (c.wv r w).rv i = c.rv i := by
  unfold Ctx.wv
  by_cases hr : r < 48
  · rw [dif_pos hr]; unfold Ctx.rv
    by_cases hi : i < 48
    · rw [dif_pos hi, dif_pos hi]; exact Vector.getElem_set_ne hr _ fun e => h e.symm
    · rw [dif_neg hi, dif_neg hi]
  · rw [dif_neg hr]

end Sys2Proof.Machine
end

