-- ==== Sys2Proof/Laws/Claims.lean ====
section
/-! SUPPORT. What the shared operations do, in the words of Safety.lean: register writes, jumps, copies, traps. -/

namespace Sys2Proof.Laws
open Sys2Proof Machine Claims

/-- Bytes read alike when memory, the operations in hand and the active bank are the same. -/
theorem byte_congr {s t : State} (hm : t.mem = s.mem) (ho : t.outs = s.outs) (hb : t.core.bank = s.core.bank) (path : Path) (a : Nat) :
    t.byte path a = s.byte path a := by
  unfold State.byte; rw [hm, ho, hb]

theorem sameBytes_of {s t : State} (hm : t.mem = s.mem) (ho : t.outs = s.outs) (hb : t.core.bank = s.core.bank) : SameBytes s t :=
  ⟨hm, byte_congr hm ho hb⟩

/-! ## Error records -/

/-- What a port does to the hub: lines of the board caches and of the atomic engines. -/
def CachesOnly (k l : Hub) : Prop := ∃ b e, l = { k with bcache := b, engines := e }

theorem CachesOnly.refl (k : Hub) : CachesOnly k k := ⟨k.bcache, k.engines, rfl⟩

theorem CachesOnly.trans {k l m : Hub} (h : CachesOnly k l) (g : CachesOnly l m) : CachesOnly k m := by
  obtain ⟨_, _, rfl⟩ := h
  obtain ⟨b, e, rfl⟩ := g
  exact ⟨b, e, rfl⟩

theorem CachesOnly.foldl {α : Type} (f : Hub → α → Hub) (h : ∀ k x, CachesOnly k (f k x)) (l : List α) (k : Hub) :
    CachesOnly k (l.foldl f k) := by
  induction l generalizing k with
  | nil => exact .refl k
  | cons x t ih => exact (h k x).trans (ih _)

theorem cachesOnly_bcTouch (k : Hub) (l : Nat) (c : Bool) (o : Option (List Byte)) : CachesOnly k (k.bcTouch l c o) := by
  unfold Hub.bcTouch
  split
  · exact ⟨_, k.engines, rfl⟩
  · split
    · exact .refl k
    · exact ⟨_, k.engines, rfl⟩

/-- A write changes no more of the hub than the lines of its caches. -/
theorem cachesOnly_portWrite (s : State) (ps : List Part) : CachesOnly s.hub (s.portWrite ps).hub := by
  refine CachesOnly.foldl _ (fun k p => ?_) ps s.hub
  split
  · refine CachesOnly.foldl _ (fun k l => ?_) _ k
    split
    · exact ⟨k.bcache, _, rfl⟩
    · exact cachesOnly_bcTouch ..
  · exact .refl k

/-- A store at its home changes memory and lines of the hub's caches. -/
theorem poke_eq (s : State) (a : Nat) (bs : List Byte) : ∃ m h, s.poke a bs = { s with mem := m, hub := h } ∧ CachesOnly s.hub h :=
  ⟨_, _, rfl, cachesOnly_portWrite s _⟩

theorem enqueue_eq (s : State) (n : Nat) (bs : List Byte) : ∃ m h, s.enqueue n bs = { s with mem := m, hub := h } ∧ CachesOnly s.hub h := by
  unfold State.enqueue State.setTail
  dsimp only
  generalize (s.strandTail n + 1) % 2 ^ 32 = v
  generalize s.entryAt n (s.strandTail n) = a
  obtain ⟨m, h, e, c⟩ := poke_eq s a bs
  rw [e]
  obtain ⟨m2, h2, e2, c2⟩ := poke_eq { s with mem := m, hub := h } (h.strandTable + 32 * n + 20) (natBytes 4 v)
  exact ⟨m2, h2, e2, c.trans c2⟩

/-- A record changes memory and the hub. -/
theorem post_eq (s : State) (ty code core : Nat) (b a i : DWord) :
    ∃ m h, s.post ty code core b a i = { s with mem := m, hub := h } ∧ h.map = s.hub.map := by
  unfold State.post
  split
  · exact ⟨_, _, rfl, rfl⟩
  · next e _ =>
    dsimp only
    split
    · exact ⟨_, _, rfl, rfl⟩
    · generalize _ ++ natBytes 24 0 = r
      obtain ⟨m, h, eq, b, n, rfl⟩ := enqueue_eq s e.toNat r
      rw [eq]
      exact ⟨_, _, rfl, rfl⟩

theorem post_frame (s : State) (ty code core : Nat) (b a i : DWord) :
    s.post ty code core b a i = { s with mem := (s.post ty code core b a i).mem, hub := (s.post ty code core b a i).hub } := by
  obtain ⟨m, h, e, -⟩ := post_eq s ty code core b a i
  rw [e]

theorem post_c (s : State) (ty code core : Nat) (b a i : DWord) : (s.post ty code core b a i).c = s.c := by rw [post_frame]
theorem post_q (s : State) (ty code core : Nat) (b a i : DWord) : (s.post ty code core b a i).q = s.q := by rw [post_frame]
theorem post_oc (s : State) (ty code core : Nat) (b a i : DWord) : (s.post ty code core b a i).oc = s.oc := by rw [post_frame]
theorem post_oq (s : State) (ty code core : Nat) (b a i : DWord) : (s.post ty code core b a i).oq = s.oq := by rw [post_frame]
theorem post_core (s : State) (ty code core : Nat) (b a i : DWord) : (s.post ty code core b a i).core = s.core := by rw [post_frame]
theorem post_now (s : State) (ty code core : Nat) (b a i : DWord) : (s.post ty code core b a i).now = s.now := by rw [post_frame]

/-- A record leaves the core map as it is. -/
theorem post_map (s : State) (ty code core : Nat) (b a i : DWord) : (s.post ty code core b a i).hub.map = s.hub.map := by
  obtain ⟨m, h, e, e2⟩ := post_eq s ty code core b a i
  rw [e]; exact e2

/-! ## Register writes -/

theorem writesX_wx (s : State) (d : BitVec 5) (v : DWord) : WritesX s (s.wx d v) d v := by
  refine ⟨Ctx.rx_wx_same .., fun r h => Ctx.rx_wx_ne _ _ _ _ h, rfl, ?_, rfl, fun _ _ => rfl⟩
  exact congrArg (fun c => ({ s with c := c, q := { s.q with shadows := overwrite s.q.shadows s.lat.seq (.x d) } } : State)) (Ctx.wx_frame s.c d v)

theorem writesX_of {s : State} {d : BitVec 5} {v w : DWord} (h : v = w) : WritesX s (s.wx d v) d w := h ▸ writesX_wx s d v

theorem writesK_wk (s : State) (d : BitVec 3) (v : Bool) : WritesK s (s.wk d v) d v := by
  refine ⟨Ctx.rk_wk_same .., fun r h => Ctx.rk_wk_ne _ _ _ _ h, rfl, ?_, rfl, fun _ _ => rfl⟩
  exact congrArg (fun c => ({ s with c := c, q := { s.q with shadows := overwrite s.q.shadows s.lat.seq (.k d) } } : State)) (Ctx.wk_frame s.c d v)

theorem writesK_of {s : State} {d : BitVec 3} {v w : Bool} (h : v = w) : WritesK s (s.wk d v) d w := h ▸ writesK_wk s d v

theorem writesVm_wvm (s : State) (d : BitVec 3) (v : BitVec 128) : WritesVm s (s.wvm d v) d v := by
  refine ⟨Ctx.rvm_wvm_same .., fun r h => Ctx.rvm_wvm_ne _ _ _ _ h, rfl, ?_, rfl, fun _ _ => rfl⟩
  exact congrArg (fun c => ({ s with c := c, q := { s.q with shadows := overwrite s.q.shadows s.lat.seq (.vm d) } } : State)) (Ctx.wvm_frame s.c d v)

theorem writesA_wa (s : State) (d : BitVec 4) (v : DWord) : WritesA s (s.wa d v) d v :=
  ⟨Ctx.ra_wa_same .., fun _ h => Ctx.ra_wa_ne _ _ _ _ h, rfl, rfl, rfl, fun _ _ => rfl⟩

theorem writesA_of {s : State} {d : BitVec 4} {v w : DWord} (h : v = w) : WritesA s (s.wa d v) d w := h ▸ writesA_wa s d v

theorem writesH_wh (s : State) (d : BitVec 4) (v : QWord) : WritesH s (s.wh d v) d v :=
  ⟨Ctx.rh_wh_same .., fun _ h => Ctx.rh_wh_ne _ _ _ _ h, rfl, rfl, rfl, fun _ _ => rfl⟩

theorem writesM_wm (s : State) (d : BitVec 3) (v : QWord) : WritesM s (s.wm d v) d v :=
  ⟨Ctx.rm_wm_same .., fun _ h => Ctx.rm_wm_ne _ _ _ _ h, rfl, rfl, rfl, fun _ _ => rfl⟩

theorem jumps_jump (s : State) (n : Nat) (a : DWord) : Jumps s (s.jump n a) n a := ⟨rfl, rfl, fun _ _ => rfl⟩

theorem copies_shadow (s : State) (k : Nat) (w : RegWrite) : Copies s (s.shadow k w) k w := ⟨rfl, rfl, fun _ _ => rfl⟩

theorem waits_stall (s : State) : Waits s s.stall := ⟨rfl, rfl, fun _ _ => rfl⟩

/-! ## Traps -/

/-- No copy lands in the vector base. -/
theorem apply_tbase (w : RegWrite) (c : Ctx) : (w.apply c).tbase = c.tbase := by
  cases w <;> simp only [RegWrite.apply, Ctx.wx_tbase, Ctx.wv_tbase, Ctx.wm_tbase, Ctx.wa_tbase, Ctx.wh_tbase, Ctx.wpv_tbase, Ctx.wg_tbase, Ctx.wvm_tbase]
  split <;> rfl

theorem landAll_tbase (l : List Shadow) (c : Ctx) : (landAll c l).tbase = c.tbase := by
  induction l generalizing c with
  | nil => rfl
  | cons h t ih => exact (ih _).trans (apply_tbase _ _)

/-- Nor in the level. -/
theorem apply_sys (w : RegWrite) (c : Ctx) : (w.apply c).sys = c.sys := by
  cases w <;> simp only [RegWrite.apply, Ctx.wx_sys, Ctx.wv_sys, Ctx.wm_sys, Ctx.wa_sys, Ctx.wh_sys, Ctx.wpv_sys, Ctx.wg_sys, Ctx.wvm_sys]
  split <;> rfl

theorem landAll_sys (l : List Shadow) (c : Ctx) : (landAll c l).sys = c.sys := by
  induction l generalizing c with
  | nil => rfl
  | cons h t ih => exact (ih _).trans (apply_sys _ _)

/-- The fields of sr.cause. -/
theorem causeWord_fields (t : TrapRec) (sys : Bool) :
    fld (causeWord t sys).toNat 0 8 = t.code.toNat ∧ (causeWord t sys).getLsbD 8 = sys ∧ (causeWord t sys).getLsbD 9 = t.iss ∧
    fld (causeWord t sys).toNat 10 2 = t.slot.toNat ∧ (causeWord t sys).getLsbD 12 = t.evt ∧ (causeWord t sys).toNat < 2 ^ 13 := by
  have hc := t.code.isLt
  have hs := t.slot.isLt
  have e : (causeWord t sys).toNat = t.code.toNat + (if sys then 2 ^ 8 else 0) + (if t.iss then 2 ^ 9 else 0) + t.slot.toNat * 2 ^ 10 +
      (if t.evt then 2 ^ 12 else 0) := by
    unfold causeWord; rw [BitVec.toNat_ofNat]; apply Nat.mod_eq_of_lt; split <;> split <;> split <;> omega
  simp only [BitVec.getLsbD, e, Nat.testBit_eq_decide_div_mod_eq, fld]
  refine ⟨?_, ?_, ?_, ?_, ?_, ?_⟩ <;> cases sys <;> cases t.iss <;> cases t.evt <;> simp <;> omega

theorem enters_enterTrap (s : State) (r : TrapRec) : Enters s (s.enterTrap r) (window s.c s.q) r := by
  obtain ⟨h1, h2, h3, h4, h5, h6⟩ := causeWord_fields r (landAll s.c s.q.shadows).sys
  refine ⟨rfl, rfl, rfl, rfl, h1, h2.trans (landAll_sys ..), h3, h4, h5, h6, rfl, rfl, ?_, rfl, rfl, rfl, rfl, rfl, rfl, rfl, rfl, rfl, rfl, rfl⟩
  exact congrArg (· + BitVec.ofNat 64 (64 * r.code.toNat)) (landAll_tbase ..)

/-- A copy lands whatever the pc. -/
theorem apply_pc (w : RegWrite) (c : Ctx) (a : DWord) : w.apply { c with pc := a } = { w.apply c with pc := a } := by
  cases w <;> simp only [RegWrite.apply, Ctx.wx, Ctx.wvm, Ctx.wv] <;> first | rfl | (split <;> rfl)

theorem landAll_pc (l : List Shadow) (c : Ctx) (a : DWord) : landAll { c with pc := a } l = { landAll c l with pc := a } := by
  induction l generalizing c with
  | nil => rfl
  | cons h t ih => exact (congrArg (landAll · t) (apply_pc ..)).trans (ih _)

theorem enters_enterIssueTrap (s : State) (a : DWord) (r : TrapRec) (n : DWord) :
    Enters s (s.enterIssueTrap a r n) (a, 0, a, n) r := by
  obtain ⟨h1, h2, h3, h4, h5, h6⟩ := causeWord_fields r (landAll { s.c with pc := a } s.q.shadows).sys
  refine ⟨rfl, rfl, rfl, rfl, h1, h2.trans (landAll_sys ..), h3, h4, h5, h6, rfl, rfl, ?_, rfl, ?_, rfl, rfl, rfl, rfl, rfl, rfl, rfl, rfl, rfl⟩
  · exact congrArg (· + BitVec.ofNat 64 (64 * r.code.toNat)) (landAll_tbase s.q.shadows { s.c with pc := a })
  · simp only [State.enterIssueTrap, Ctx.trapTo, landAll_pc]

/-- With nothing else incomplete a fault enters its handler. -/
theorem raise_quiet {s : State} (h : s.lat.quiet = true ∧ s.q.trap = none) (code : BitVec 8) (info : DWord) :
    s.raise code info = { s with lat := { s.lat with res := .trap } }.enterTrap (recOf s code info false) :=
  if_pos h

/-- Otherwise it is pending. -/
theorem raise_pending {s : State} (h : ¬(s.lat.quiet = true ∧ s.q.trap = none)) (code : BitVec 8) (info : DWord) :
    s.raise code info =
      { s with lat := { s.lat with res := .trap }, q := { s.q with trap := mergeTrap s.q.trap (recOf s code info false) } } :=
  if_neg h

theorem faults_raise (s : State) (code : BitVec 8) (info : DWord) : Faults s (s.raise code info) code info := by
  by_cases h : s.lat.quiet = true ∧ s.q.trap = none
  · rw [raise_quiet h, Faults, if_pos h]
    exact enters_enterTrap { s with lat := { s.lat with res := .trap } } (recOf s code info false)
  · rw [raise_pending h, Faults, if_neg h]

/-- No copy lands in the pc. -/
theorem apply_pc_eq (w : RegWrite) (c : Ctx) : (w.apply c).pc = c.pc := by
  cases w <;> simp only [RegWrite.apply, Ctx.wx_pc, Ctx.wv_pc, Ctx.wm_pc, Ctx.wa_pc, Ctx.wh_pc, Ctx.wpv_pc, Ctx.wg_pc, Ctx.wvm_pc]
  split <;> rfl

theorem landAll_pc_eq (l : List Shadow) (c : Ctx) : (landAll c l).pc = c.pc := by
  induction l generalizing c with
  | nil => rfl
  | cons h t ih => exact (ih _).trans (apply_pc_eq _ _)

theorem refused_raiseIssue (s : State) (code : BitVec 8) : Refused s (s.raiseIssue code) code :=
  enters_enterIssueTrap { s with lat := { s.lat with res := .trap } } s.lat.addr
    (recOf s code (BitVec.ofNat 64 (s.lat.slot.toNat + s.lat.word.toNat * 2 ^ 32)) true) 0

end Sys2Proof.Laws
end

