-- ==== Sys2Proof/Laws/Access.lean ====
section
/-! SUPPORT. What going out does to a load and to a store, and what ECC does where nothing is wrong. -/

namespace Sys2Proof.Laws
open Sys2Proof Machine Claims

/-! ## ECC -/

theorem check_clean {m : Mem} (h1 : m.wrong = []) (h2 : m.poison = []) (h3 : m.flaky = []) (fresh g : Nat) : m.check fresh g = (m, false) := by
  unfold Mem.check Mem.wrongIn
  rw [h1, h2, h3]; rfl

theorem checks_clean {m : Mem} (h1 : m.wrong = []) (h2 : m.poison = []) (h3 : m.flaky = []) (fresh : Nat) (l : List Nat) : m.checks fresh l = (m, []) := by
  induction l with
  | nil => rfl
  | cons g t ih => rw [Mem.checks, check_clean h1 h2 h3]; simp only [ih]; rfl

theorem eccRead_clean {s : State} (h : Clean s) (path : Path) (a n : Nat) : s.eccRead path a n = ({ s with fresh := s.fresh + 1 }, []) := by
  unfold State.eccRead
  dsimp only
  rw [checks_clean h.1 h.2.1 h.2.2]

/-! ## What an operation in hand gives a path -/

/-- The last operation in hand decides first. -/
theorem byte_append {s t : State} (o : Out) (ho : t.outs = s.outs ++ [o]) (hm : t.mem = s.mem) (hb : t.core.bank = s.core.bank) (path : Path) (a : Nat) :
    t.byte path a = ((if o.bank == s.core.bank && o.path == path then o.byteAt? a else none).getD (s.byte path a)) := by
  unfold State.byte
  rw [ho, hm, hb, List.reverse_append, List.reverse_singleton, List.singleton_append, List.findSome?_cons]
  cases (if o.bank == s.core.bank && o.path == path then o.byteAt? a else none) <;> rfl

/-- An operation that writes nothing leaves every byte as it reads. -/
theorem sameBytes_append {s t : State} (o : Out) (ho : t.outs = s.outs ++ [o]) (hm : t.mem = s.mem) (hb : t.core.bank = s.core.bank)
    (hw : ∀ a, o.byteAt? a = none) : SameBytes s t := by
  refine ⟨hm, fun path a => ?_⟩
  rw [byte_append o ho hm hb, hw]
  split <;> rfl

/-- A load that finds good data goes out. -/
theorem launchLoad_good (s : State) (due : Nat) (info : DWord) (w : Work) :
    s.launchLoad due [] info w = s.launch .l .ld due none w := rfl

/-- Bytes read alike when memory, the operations in hand and the active bank are the same. -/
theorem bytes_congr {s t : State} (hm : t.mem = s.mem) (ho : t.outs = s.outs) (hb : t.core.bank = s.core.bank) (path : Path) (n a : Nat) :
    t.bytes path a n = s.bytes path a n := by
  induction n generalizing a with
  | zero => rfl
  | succ n ih => rw [State.bytes, State.bytes, ih, byte_congr hm ho hb]

/-- A crown load that passes its checks and finds its granules full. -/
theorem loadGoes_crownLoad {s : State} (h : Clean s) (hc : s.count .ld < 63) {hr a : BitVec 4} {o : Int} {n align la : Nat}
    (he : s.crownCheck hr o n align canRead = .ok la) (hf : s.mem.isFull (s.crownAt la) n = true) (w : LoadForm) :
    LoadGoes s (s.crownLoad hr a o n align w) (s.coreAfter 5) (.fetch w [(s.crownAt la, n)] [] false none) ∧
      (s.crownLoad hr a o n align w).core = s.core := by
  have e : s.crownLoad hr a o n align w = s.unwatch.load (s.crownAt la) n 5 (consumed o) hr a w := by
    unfold State.crownLoad State.counted
    rw [he]
    dsimp only
    rw [if_neg (by omega)]
    unfold State.whenFull
    rw [if_pos hf]; rfl
  rw [e]
  unfold State.load
  rw [eccRead_clean (s := s.unwatch) h]
  exact ⟨⟨rfl, rfl, sameBytes_append _ rfl rfl rfl fun _ => rfl⟩, rfl⟩

/-! ## Stores -/

/-- A write that goes out is what its own path reads from now on; every other byte and every other path read as before. -/
theorem storeGoes_launch (s : State) (path : Path) (ctr : Ctr) (due : Nat) (ps : List Part) (w : Work)
    (hw : (∃ lock, w = .gstore ps lock) ∨ ∃ m t f, w = .write ps m t f) : StoreGoes s (s.launch path ctr due none w) due path ctr ps w := by
  refine ⟨rfl, fun q a => ?_, rfl⟩
  rw [byte_append (s := s) (t := s.launch path ctr due none w) _ rfl rfl rfl]
  have hb : (Out.byteAt? ⟨s.nextId, s.core.bank, s.lat.seq, path, ctr, s.now, due, none, w⟩ a) = pieceByte ps a := by
    rcases hw with ⟨l, rfl⟩ | ⟨m, t, f, rfl⟩ <;> rfl
  rw [hb]
  by_cases h : q = path
  · subst h; simp
  · simp [h, Ne.symm h]

/-- A crown store that passes its checks. -/
theorem storeGoes_crownStore {s : State} (hc : s.count .st < 63) {hr a : BitVec 4} {o : Int} {align la : Nat} {tag : Bool} {bs : List Byte}
    (he : s.crownCheck hr o bs.length align canWrite = .ok la) :
    StoreGoes s (s.crownStore hr a o align tag bs) (s.now + 32) .l .st [{ addr := s.crownAt la, bytes := bs }]
      (.write [{ addr := s.crownAt la, bytes := bs }] s.lat.iss.cbmap tag []) ∧ (s.crownStore hr a o align tag bs).core = s.core := by
  have e : s.crownStore hr a o align tag bs = s.launch .l .st (s.now + 32) none (.write [{ addr := s.crownAt la, bytes := bs }] s.lat.iss.cbmap tag []) := by
    unfold State.crownStore State.counted
    rw [he]
    dsimp only
    rw [if_neg (by omega)]
    rfl
  rw [e]
  exact ⟨storeGoes_launch s .l .st (s.now + 32) _ _ (.inr ⟨_, _, _, rfl⟩), rfl⟩

/-- The numbers of a register are as many bytes as asked for. -/
theorem natBytes_length (n w : Nat) : (natBytes n w).length = n := by
  induction n generalizing w with
  | zero => rfl
  | succ n ih => rw [natBytes, List.length_cons, ih]

end Sys2Proof.Laws
end

