-- ==== Sys2Proof/Laws/Memory.lean ====
section
/-! SUPPORT. The cells of memory: reading after writing, and that every operation on memory keeps the canonical form. -/

namespace Sys2Proof.Machine

/-! ## One cell -/

/-- A store is read back, and every other address keeps its byte. -/
theorem cellGet_cellSet (l : List Host.Cell) (a b : Nat) (w : Byte) (h : cellsWf l = true) :
    cellGet (cellSet l a w) b = if b = a then w else cellGet l b := by
  induction l with
  | nil =>
    unfold cellSet
    by_cases hw : w = 0
    · simp [hw, cellGet]
    · simp only [hw, if_false, cellGet]
      by_cases hb : b = a
      · simp [hb]
      · simp [hb, Ne.symm hb]
  | cons c t ih =>
    obtain ⟨x, y⟩ := c
    have ht : cellsWf t = true := by
      cases t with
      | nil => rfl
      | cons d t => simp only [cellsWf, Bool.and_eq_true] at h; exact h.2
    have low : ∀ k, k ≤ x → cellGet t k = 0 := by
      clear ih
      induction t generalizing x y with
      | nil => intros; rfl
      | cons d t ih =>
        intro k hk
        simp only [cellsWf, Bool.and_eq_true, decide_eq_true_eq] at h
        have hd : x < d.1 := h.1.2
        simp only [cellGet]
        rw [if_neg (by omega)]
        refine ih d.1 d.2 ?_ ?_ k (by omega)
        · cases t with
          | nil => simpa [cellsWf] using h.2
          | cons e t => exact h.2
        · cases t with
          | nil => rfl
          | cons e t => have := h.2; simp only [cellsWf, Bool.and_eq_true] at this; exact this.2
    unfold cellSet
    by_cases h1 : a < x
    · simp only [h1, if_true]
      by_cases hw : w = 0
      · simp only [hw, if_true]
        by_cases hb : b = a
        · subst hb; simp only [if_true, cellGet]; rw [if_neg (by omega)]; exact low _ (by omega)
        · simp [hb]
      · simp only [hw, if_false]
        by_cases hb : b = a
        · simp [hb, cellGet]
        · rw [if_neg hb]; conv_lhs => rw [cellGet]
          rw [if_neg (Ne.symm hb)]
    · simp only [h1, if_false]
      by_cases h2 : a = x
      · subst h2; simp only [if_true]
        by_cases hw : w = 0
        · simp only [hw, if_true]
          by_cases hb : b = a
          · subst hb; rw [if_pos rfl]; exact low _ (by omega)
          · rw [if_neg hb]; simp only [cellGet]; rw [if_neg (Ne.symm hb)]
        · simp only [hw, if_false, cellGet]
          by_cases hb : b = a
          · simp [hb]
          · simp [hb, Ne.symm hb]
      · simp only [h2, if_false, cellGet]
        by_cases hx : x = b
        · subst hx; simp [Ne.symm h2]
        · simp only [hx, if_false]; exact ih ht

/-- The first address of a written list is the written one or the old first one. -/
theorem head_cellSet (l : List Host.Cell) (a : Nat) (w : Byte) (lo : Nat)
    (h : ∀ c ∈ l.head?, lo < c.1) (ha : lo < a) (hl : cellsWf l = true) : ∀ c ∈ (cellSet l a w).head?, lo < c.1 := by
  intro c hc
  cases l with
  | nil =>
    unfold cellSet at hc
    split at hc
    · simp at hc
    · simp at hc; subst hc; exact ha
  | cons d t =>
    obtain ⟨x, y⟩ := d
    have hx : lo < x := h (x, y) (by simp)
    unfold cellSet at hc
    split at hc
    · split at hc
      · simp at hc; subst hc; exact hx
      · simp at hc; subst hc; exact ha
    · split at hc
      · split at hc
        · cases t with
          | nil => simp at hc
          | cons e t =>
            simp at hc; subst hc
            simp only [cellsWf, Bool.and_eq_true, decide_eq_true_eq] at hl
            have := hl.1.2
            omega
        · simp at hc; subst hc; exact ha
      · simp at hc; subst hc; exact hx

/-- The canonical form of a list with a first cell. -/
theorem cellsWf_cons (c : Host.Cell) (t : List Host.Cell) :
    cellsWf (c :: t) = true ↔ c.2 ≠ 0 ∧ (∀ d ∈ t.head?, c.1 < d.1) ∧ cellsWf t = true := by
  cases t with
  | nil => simp [cellsWf]
  | cons d t => simp [cellsWf, and_assoc]

/-- A store keeps the canonical form. -/
theorem cellsWf_cellSet (l : List Host.Cell) (a : Nat) (w : Byte) (h : cellsWf l = true) : cellsWf (cellSet l a w) = true := by
  induction l with
  | nil => unfold cellSet; split <;> simp_all [cellsWf]
  | cons c t ih =>
    obtain ⟨x, y⟩ := c
    have hc := (cellsWf_cons _ _).1 h
    unfold cellSet
    split
    · split
      · exact h
      · exact (cellsWf_cons _ _).2 ⟨‹_›, by simpa using ‹a < x›, h⟩
    · split
      · split
        · exact hc.2.2
        · subst_vars; exact (cellsWf_cons _ _).2 ⟨‹_›, hc.2.1, hc.2.2⟩
      · exact (cellsWf_cons _ _).2 ⟨hc.1, head_cellSet t a w x hc.2.1 (by omega) hc.2.2, ih hc.2.2⟩

theorem cellsWf_cellSets (bs : List Byte) (l : List Host.Cell) (a : Nat) (h : cellsWf l = true) :
    cellsWf (cellSets l a bs) = true := by
  induction bs generalizing l a with
  | nil => exact h
  | cons b t ih => exact ih _ _ (cellsWf_cellSet l a b h)

/-- Consecutive stores are read back, and every address outside them keeps its byte. -/
theorem cellGet_cellSets (bs : List Byte) (l : List Host.Cell) (a b : Nat) (h : cellsWf l = true) :
    cellGet (cellSets l a bs) b = if a ≤ b ∧ b < a + bs.length then bs[b - a]?.getD 0 else cellGet l b := by
  induction bs generalizing l a with
  | nil => simp [cellSets]
  | cons w t ih =>
    rw [cellSets, ih _ _ (cellsWf_cellSet l a w h), cellGet_cellSet l a b w h]
    simp only [List.length_cons]
    by_cases h1 : a + 1 ≤ b ∧ b < a + 1 + t.length
    · rw [if_pos h1, if_pos (by omega), show b - a = (b - (a + 1)) + 1 by omega, List.getElem?_cons_succ]
    · rw [if_neg h1]
      by_cases h2 : b = a
      · subst h2; simp
      · rw [if_neg h2, if_neg (by omega)]

/-- Leaving cells out keeps the canonical form. -/
theorem cellsWf_filter (f : Host.Cell → Bool) (l : List Host.Cell) (h : cellsWf l = true) : cellsWf (l.filter f) = true := by
  suffices H : cellsWf (l.filter f) = true ∧ ∀ lo, (∀ c ∈ l.head?, lo < c.1) → ∀ c ∈ (l.filter f).head?, lo < c.1 from H.1
  induction l with
  | nil => exact ⟨h, fun lo hh => hh⟩
  | cons c t ih =>
    have hc := (cellsWf_cons _ _).1 h
    have i := ih hc.2.2
    by_cases hf : f c = true
    · rw [List.filter_cons_of_pos hf]
      exact ⟨(cellsWf_cons _ _).2 ⟨hc.1, i.2 _ hc.2.1, i.1⟩, fun lo hh => hh⟩
    · rw [List.filter_cons_of_neg hf]
      refine ⟨i.1, fun lo hh => i.2 lo fun d hd => ?_⟩
      have h1 := hh c (by simp)
      have h2 := hc.2.1 d hd
      omega

theorem cellsWf_cellsClear (l : List Host.Cell) (lo n : Nat) (h : cellsWf l = true) : cellsWf (cellsClear l lo n) = true :=
  cellsWf_filter _ l h

/-! ## Memory -/

/-- What ECC does to one granule leaves the cells alone. -/
@[simp] theorem Mem.check_cells (m : Mem) (fresh g : Nat) : (m.check fresh g).1.cells = m.cells := by
  unfold Mem.check
  split
  · rfl
  · dsimp only
    split
    · rfl
    · rfl
    · rfl
    · split <;> rfl

@[simp] theorem Mem.checks_cells (m : Mem) (fresh : Nat) (gs : List Nat) : (m.checks fresh gs).1.cells = m.cells := by
  induction gs generalizing m with
  | nil => rfl
  | cons g t ih => rw [Mem.checks]; exact (ih _).trans (m.check_cells fresh g)

theorem Mem.wf_putGranule (m : Mem) (fresh g : Nat) (p : Part) (h : m.wf = true) : (m.putGranule fresh g p).1.wf = true := by
  unfold Mem.putGranule
  generalize hl : (if m.dead.contains (g / 1024 * 1024) = true then _ else m : Mem) = live
  have hl' : live.cells = m.cells := by subst hl; split <;> rfl
  dsimp only
  generalize hr : (if (p.clip g (granuleSize g)).bytes.length = granuleSize g then _ else live.check fresh g) = r
  have hr' : r.1.cells = m.cells := by
    subst hr
    split
    · exact hl'
    · rw [Mem.check_cells, hl']
  split
  · exact (congrArg cellsWf hr').trans h
  · exact cellsWf_cellSets _ _ _ ((congrArg cellsWf hr').trans h)

theorem Mem.wf_putGranules (m : Mem) (fresh : Nat) (p : Part) (gs : List Nat) (h : m.wf = true) :
    (m.putGranules fresh p gs).1.wf = true := by
  induction gs generalizing m with
  | nil => exact h
  | cons g t ih => exact ih _ (m.wf_putGranule fresh g p h)

theorem Mem.wf_put (m : Mem) (fresh : Nat) (tag : Bool) (p : Part) (h : m.wf = true) : (m.put fresh tag p).1.wf = true :=
  m.wf_putGranules fresh p _ h

theorem Mem.wf_puts (m : Mem) (fresh : Nat) (tag : Bool) (ps : List Part) (h : m.wf = true) : (m.puts fresh tag ps).1.wf = true := by
  induction ps generalizing m with
  | nil => exact h
  | cons p t ih => exact ih _ (m.wf_put fresh tag p h)

theorem Mem.wf_kill (m : Mem) (u : Nat) (h : m.wf = true) : (m.kill u).wf = true := cellsWf_cellsClear _ _ _ h

theorem Mem.wf_fill (m : Mem) (time lo n : Nat) : (m.fill time lo n).wf = m.wf := rfl
theorem Mem.wf_scramble (m : Mem) (time lo n : Nat) : (m.scramble time lo n).wf = m.wf := rfl
theorem Mem.wf_setFull (m : Mem) (g : Nat) (full : Bool) : (m.setFull g full).wf = m.wf := rfl
theorem Mem.wf_setPoison (m : Mem) (g : Nat) : (m.setPoison g).wf = m.wf := rfl
theorem Mem.wf_wrongBit (m : Mem) (g n : Nat) : (m.wrongBit g n).wf = m.wf := rfl

theorem Mem.wf_correctAll (m : Mem) (lo n : Nat) : (m.correctAll lo n).wf = m.wf := by
  unfold Mem.correctAll
  generalize granules lo n = gs
  induction gs generalizing m with
  | nil => rfl
  | cons g t ih => rw [List.foldl_cons, ih]; split <;> rfl

theorem Mem.wf_bake (m : Mem) (g : Nat) (h : m.wf = true) : (m.bake g).wf = true := by
  unfold Mem.bake
  generalize (m.wrong.filter fun b => decide (8 * g ≤ b ∧ b < 8 * (g + granuleSize g))) = bits
  have : ∀ (bits : List Nat) (m : Mem), m.wf = true → (bits.foldl (fun m b => { m with
      cells := cellSet m.cells (b / 8) (m.byte (b / 8) ^^^ BitVec.ofNat 8 (2 ^ (b % 8))), junk := junkCut m.junk (b / 8) 1 }) m).wf = true := by
    intro bits
    induction bits with
    | nil => exact fun _ h => h
    | cons b t ih => exact fun m h => ih _ (cellsWf_cellSet _ _ _ h)
  exact this bits _ h

theorem Mem.wf_flipBit (m : Mem) (g n : Nat) (h : m.wf = true) : (m.flipBit g n).wf = true :=
  cellsWf_cellSet _ _ _ (m.wf_bake g h)

/-- Memory at reset has the canonical form. -/
theorem State.reset_wf : State.reset.mem.wf = true := rfl

/-! ## Operations of the state that write memory -/

@[simp] theorem State.portWrite_mem (s : State) (ps : List Part) : (s.portWrite ps).mem = s.mem := rfl

theorem State.wf_poke (s : State) (a : Nat) (bs : List Byte) (h : s.mem.wf = true) : (s.poke a bs).mem.wf = true :=
  s.mem.wf_put s.fresh false _ h

theorem State.wf_setTail (s : State) (n v : Nat) (h : s.mem.wf = true) : (s.setTail n v).mem.wf = true := s.wf_poke _ _ h

theorem State.wf_enqueue (s : State) (n : Nat) (bs : List Byte) (h : s.mem.wf = true) : (s.enqueue n bs).mem.wf = true :=
  State.wf_setTail _ _ _ (s.wf_poke _ _ h)

theorem State.wf_post (s : State) (ty code core : Nat) (bead addr info : DWord) (h : s.mem.wf = true) :
    (s.post ty code core bead addr info).mem.wf = true := by
  unfold State.post
  generalize natBytes 24 0 = z
  generalize natBytes 4 0 = y
  split
  · exact h
  · rename_i e _
    dsimp only
    split
    · exact h
    · have w := s.wf_enqueue e.toNat (natBytes 1 ty ++ natBytes 1 code ++ natBytes 2 core ++ y ++ natBytes 8 bead.toNat ++
        natBytes 8 addr.toNat ++ natBytes 8 info.toNat ++ natBytes 8 s.now ++ z) h
      generalize s.enqueue _ _ = u at w ⊢
      exact w

theorem State.wf_reportDrops (gs : List Nat) (s : State) (bank : Bool) (map : DWord) (h : s.mem.wf = true) :
    (s.reportDrops bank map gs).mem.wf = true := by
  induction gs generalizing s with
  | nil => exact h
  | cons g t ih =>
    rw [State.reportDrops]
    refine ih _ (State.wf_post _ _ _ _ _ _ _ ?_)
    split
    · split <;> exact h
    · split <;> exact h

/-- Writing pieces for a bead keeps the canonical form. -/
theorem State.wf_commit (s : State) (bank : Bool) (map : DWord) (tag : Bool) (ps : List Part) (h : s.mem.wf = true) :
    (s.commit bank map tag ps).mem.wf = true :=
  State.wf_reportDrops _ _ _ _ (s.mem.wf_puts s.fresh tag ps h)

/-- Refresh and the patrol scrubber correct check bits and poison granules; what they write is the record of a bad granule. -/
theorem State.wf_scrub (s : State) (lo n : Nat) (h : s.mem.wf = true) : (s.scrub lo n).mem.wf = true := by
  unfold State.scrub
  dsimp only
  have post (l : List Nat) (u : State) (hu : u.mem.wf = true) :
      (l.foldl (fun s g => s.post 2 0 s.core.phys 0 (BitVec.ofNat 64 g) (s.dropWord s.c.cbmap g)) u).mem.wf = true := by
    induction l generalizing u with
    | nil => exact hu
    | cons g t ih => exact ih _ (State.wf_post _ _ _ _ _ _ _ hu)
  exact post _ _ ((congrArg cellsWf (s.mem.checks_cells s.fresh _)).trans h)

/-- Reading through ECC leaves every stored byte alone. -/
@[simp] theorem State.eccRead_cells (s : State) (path : Path) (a n : Nat) : (s.eccRead path a n).1.mem.cells = s.mem.cells :=
  s.mem.checks_cells s.fresh _

end Sys2Proof.Machine
end

