-- ==== Sys2Proof/Laws/PerInstr.lean ====
section
/-! SUPPORT. Families of facts about every instruction as syntax: RoundTrip, an operation decodes from the word that encodes it, one lemma per constructor. -/

set_option linter.unusedSimpArgs false

namespace Sys2Proof.Laws

/-- The operation's word fits 32 bits and decodes to it in its slot. -/
def RoundTrip.Statement (i : Instr) : Prop :=
  ∀ k, slotOf i = some k → i.wf = true → encodeNat i < 2 ^ 32 ∧ decodeSlot k (encodeNat i) = .ok i

theorem RoundTrip.unslotted {i : Instr} (h : slotOf i = none) : RoundTrip.Statement i := by
  intro k hk; rw [h] at hk; cases hk

/-- A word laid out as adjacent fields, the lowest first. -/
def RoundTrip.word : List ((n : Nat) × BitVec n) → Nat
  | [] => 0
  | x :: t => x.2.toNat + 2 ^ x.1 * RoundTrip.word t

/-- Bits that a list of fields takes. -/
def RoundTrip.bits (l : List ((n : Nat) × BitVec n)) : Nat := (l.map (·.1)).sum

theorem RoundTrip.word_lt (l : List ((n : Nat) × BitVec n)) : RoundTrip.word l < 2 ^ RoundTrip.bits l := by
  induction l with
  | nil => exact Nat.one_pos
  | cons x t ih =>
    have h : x.2.toNat + 1 ≤ 2 ^ x.1 := x.2.isLt
    have := Nat.mul_le_mul_left (2 ^ x.1) (Nat.succ_le_of_lt ih)
    simp only [RoundTrip.word, RoundTrip.bits, List.map_cons, List.sum_cons, Nat.pow_add]
    simp only [RoundTrip.bits] at this
    rw [Nat.mul_succ] at this
    omega

theorem RoundTrip.word_append (l m : List ((n : Nat) × BitVec n)) :
    RoundTrip.word (l ++ m) = RoundTrip.word l + 2 ^ RoundTrip.bits l * RoundTrip.word m := by
  induction l with
  | nil => simp [RoundTrip.word, RoundTrip.bits]
  | cons x t ih =>
    simp only [List.cons_append, RoundTrip.word, RoundTrip.bits, List.map_cons, List.sum_cons, Nat.pow_add, ih]
    ring

/-- A field read from a word is the word of the fields that lie there. -/
theorem RoundTrip.range {w lo n x : Nat} {l : List ((n : Nat) × BitVec n)} (h : w = RoundTrip.word l) (k j : Nat)
    (hl : RoundTrip.bits (l.take k) = lo) (hn : RoundTrip.bits ((l.drop k).take j) = n)
    (hx : RoundTrip.word ((l.drop k).take j) = x) : fld w lo n = x := by
  subst hl hn hx h
  have key (a b c : List ((n : Nat) × BitVec n)) : fld (RoundTrip.word (a ++ (b ++ c))) (RoundTrip.bits a) (RoundTrip.bits b) = RoundTrip.word b := by
    unfold fld
    rw [RoundTrip.word_append, RoundTrip.word_append, Nat.add_mul_div_left _ _ (Nat.two_pow_pos _),
      Nat.div_eq_of_lt (RoundTrip.word_lt _), Nat.zero_add, Nat.add_mul_mod_self_left, Nat.mod_eq_of_lt (RoundTrip.word_lt _)]
  have := key (l.take k) ((l.drop k).take j) ((l.drop k).drop j)
  rwa [List.take_append_drop, List.take_append_drop] at this

/-- The same for one field. -/
theorem RoundTrip.field {w lo n : Nat} {x : BitVec n} {l : List ((n : Nat) × BitVec n)} (h : w = RoundTrip.word l) (k : Nat)
    (hl : RoundTrip.bits (l.take k) = lo) (hx : (l.drop k).take 1 = [⟨n, x⟩]) : fbv n lo w = x := by
  apply BitVec.eq_of_toNat_eq
  have : fld w lo n = x.toNat := RoundTrip.range h k 1 hl (by rw [hx]; simp [RoundTrip.bits]) (by rw [hx]; simp [RoundTrip.word])
  simp only [fbv, this, BitVec.toNat_ofNat]
  exact Nat.mod_eq_of_lt x.isLt

theorem RoundTrip.ofC {i : Instr} (l : List ((n : Nat) × BitVec n)) (hs : slotOf i = some .c) (hl : RoundTrip.bits l = 32)
    (hw : encodeNat i = RoundTrip.word l) (h : ∀ w, w = RoundTrip.word l → rawC w = .ok i) : RoundTrip.Statement i := by
  intro k hk wf
  rw [hs] at hk
  obtain rfl := Option.some.inj hk
  have := RoundTrip.word_lt l
  rw [hl] at this
  refine ⟨hw ▸ this, ?_⟩
  unfold decodeSlot
  simp only [h _ hw, wf, if_true]

theorem RoundTrip.ofV {i : Instr} (l : List ((n : Nat) × BitVec n)) (hs : slotOf i = some .v) (hl : RoundTrip.bits l = 32)
    (hw : encodeNat i = RoundTrip.word l) (h : ∀ w, w = RoundTrip.word l → rawV w = .ok i) : RoundTrip.Statement i := by
  intro k hk wf
  rw [hs] at hk
  obtain rfl := Option.some.inj hk
  have := RoundTrip.word_lt l
  rw [hl] at this
  refine ⟨hw ▸ this, ?_⟩
  unfold decodeSlot
  simp only [h _ hw, wf, if_true]

theorem RoundTrip.ofM {i : Instr} (l : List ((n : Nat) × BitVec n)) (hs : slotOf i = some .m) (hl : RoundTrip.bits l = 32)
    (hw : encodeNat i = RoundTrip.word l) (h : ∀ w, w = RoundTrip.word l → rawM w = .ok i) : RoundTrip.Statement i := by
  intro k hk wf
  rw [hs] at hk
  obtain rfl := Option.some.inj hk
  have := RoundTrip.word_lt l
  rw [hl] at this
  refine ⟨hw ▸ this, ?_⟩
  unfold decodeSlot
  simp only [h _ hw, wf, if_true]

theorem RoundTrip.ofT {i : Instr} (l : List ((n : Nat) × BitVec n)) (hs : slotOf i = some .t) (hl : RoundTrip.bits l = 32)
    (hw : encodeNat i = RoundTrip.word l) (h : ∀ w, w = RoundTrip.word l → rawT w = .ok i) : RoundTrip.Statement i := by
  intro k hk wf
  rw [hs] at hk
  obtain rfl := Option.some.inj hk
  have := RoundTrip.word_lt l
  rw [hl] at this
  refine ⟨hw ▸ this, ?_⟩
  unfold decodeSlot
  simp only [h _ hw, wf, if_true]

theorem RoundTrip.to_rawC01 {w : Nat} (h : fld w 26 6 = 1) : rawC w = rawC01 w := by
  unfold rawC; rw [h]; rfl

theorem RoundTrip.to_rawC02 {w : Nat} (h : fld w 26 6 = 2) : rawC w = rawC02 w := by
  unfold rawC; rw [h]; rfl

theorem RoundTrip.to_rawC03 {w : Nat} (h : fld w 26 6 = 3) : rawC w = rawC03 w := by
  unfold rawC; rw [h]; rfl

theorem RoundTrip.to_rawC04 {w : Nat} (h : fld w 26 6 = 4) : rawC w = rawC04 w := by
  unfold rawC; rw [h]; rfl

theorem RoundTrip.to_rawC05 {w : Nat} (h : fld w 26 6 = 5) : rawC w = rawC05 w := by
  unfold rawC; rw [h]; rfl

theorem RoundTrip.to_rawC06 {w : Nat} (h : fld w 26 6 = 6) : rawC w = rawC06 w := by
  unfold rawC; rw [h]; rfl

theorem RoundTrip.to_rawC07 {w : Nat} (h : fld w 26 6 = 7) : rawC w = rawC07 w := by
  unfold rawC; rw [h]; rfl

theorem RoundTrip.to_rawC08 {w : Nat} (h : fld w 26 6 = 8) : rawC w = rawC08 w := by
  unfold rawC; rw [h]; rfl

theorem RoundTrip.to_rawC09 {w : Nat} (h : fld w 26 6 = 9) : rawC w = rawC09 w := by
  unfold rawC; rw [h]; rfl

theorem RoundTrip.to_rawC0A {w : Nat} (h : fld w 26 6 = 10) : rawC w = rawC0A w := by
  unfold rawC; rw [h]; rfl

theorem RoundTrip.to_rawC0B {w : Nat} (h : fld w 26 6 = 11) : rawC w = rawC0B w := by
  unfold rawC; rw [h]; rfl

theorem RoundTrip.to_rawC0C {w : Nat} (h : fld w 26 6 = 12) : rawC w = rawC0C w := by
  unfold rawC; rw [h]; rfl

theorem RoundTrip.to_rawC10 {w : Nat} (h : fld w 26 6 = 16) : rawC w = rawC10 w := by
  unfold rawC; rw [h]; rfl

theorem RoundTrip.to_rawC11 {w : Nat} (h : fld w 26 6 = 17) : rawC w = rawC11 w := by
  unfold rawC; rw [h]; rfl

theorem RoundTrip.to_rawC12 {w : Nat} (h : fld w 26 6 = 18) : rawC w = rawC12 w := by
  unfold rawC; rw [h]; rfl

theorem RoundTrip.to_rawC13 {w : Nat} (h : fld w 26 6 = 19) : rawC w = rawC13 w := by
  unfold rawC; rw [h]; rfl

theorem RoundTrip.to_rawC14 {w : Nat} (h : fld w 26 6 = 20) : rawC w = rawC14 w := by
  unfold rawC; rw [h]; rfl

theorem RoundTrip.to_rawC18 {w : Nat} (h : fld w 26 6 = 24) : rawC w = rawC18 w := by
  unfold rawC; rw [h]; rfl

theorem RoundTrip.to_rawC19 {w : Nat} (h : fld w 26 6 = 25) : rawC w = rawC19 w := by
  unfold rawC; rw [h]; rfl

theorem RoundTrip.to_rawC1A {w : Nat} (h : fld w 26 6 = 26) : rawC w = rawC1A w := by
  unfold rawC; rw [h]; rfl

theorem RoundTrip.to_rawC1B {w : Nat} (h : fld w 26 6 = 27) : rawC w = rawC1B w := by
  unfold rawC; rw [h]; rfl

theorem RoundTrip.to_rawC1C {w : Nat} (h : fld w 26 6 = 28) : rawC w = rawC1C w := by
  unfold rawC; rw [h]; rfl

theorem RoundTrip.to_rawC1D {w : Nat} (h : fld w 26 6 = 29) : rawC w = rawC1D w := by
  unfold rawC; rw [h]; rfl

theorem RoundTrip.to_rawC1E {w : Nat} (h : fld w 26 6 = 30) : rawC w = rawC1E w := by
  unfold rawC; rw [h]; rfl

theorem RoundTrip.to_rawC20 {w : Nat} (h : fld w 26 6 = 32) : rawC w = rawC20 w := by
  unfold rawC; rw [h]; rfl

theorem RoundTrip.to_rawC21 {w : Nat} (h : fld w 26 6 = 33) : rawC w = rawC21 w := by
  unfold rawC; rw [h]; rfl

theorem RoundTrip.to_rawC22 {w : Nat} (h : fld w 26 6 = 34) : rawC w = rawC22 w := by
  unfold rawC; rw [h]; rfl

theorem RoundTrip.to_rawC23 {w : Nat} (h : fld w 26 6 = 35) : rawC w = rawC23 w := by
  unfold rawC; rw [h]; rfl

theorem RoundTrip.to_rawC24 {w : Nat} (h : fld w 26 6 = 36) : rawC w = rawC24 w := by
  unfold rawC; rw [h]; rfl

theorem RoundTrip.to_rawC25 {w : Nat} (h : fld w 26 6 = 37) : rawC w = rawC25 w := by
  unfold rawC; rw [h]; rfl

theorem RoundTrip.to_rawC26 {w : Nat} (h : fld w 26 6 = 38) : rawC w = rawC26 w := by
  unfold rawC; rw [h]; rfl

theorem RoundTrip.to_rawC28 {w : Nat} (h : fld w 26 6 = 40) : rawC w = rawC28 w := by
  unfold rawC; rw [h]; rfl

theorem RoundTrip.to_rawC29 {w : Nat} (h : fld w 26 6 = 41) : rawC w = rawC29 w := by
  unfold rawC; rw [h]; rfl

theorem RoundTrip.to_rawC2A {w : Nat} (h : fld w 26 6 = 42) : rawC w = rawC2A w := by
  unfold rawC; rw [h]; rfl

theorem RoundTrip.to_rawC30 {w : Nat} (h : fld w 26 6 = 48) : rawC w = rawC30 w := by
  unfold rawC; rw [h]; rfl

theorem RoundTrip.to_rawC31 {w : Nat} (h : fld w 26 6 = 49) : rawC w = rawC31 w := by
  unfold rawC; rw [h]; rfl

theorem RoundTrip.to_rawC32 {w : Nat} (h : fld w 26 6 = 50) : rawC w = rawC32 w := by
  unfold rawC; rw [h]; rfl

theorem RoundTrip.to_rawC33 {w : Nat} (h : fld w 26 6 = 51) : rawC w = rawC33 w := by
  unfold rawC; rw [h]; rfl

theorem RoundTrip.to_rawC34 {w : Nat} (h : fld w 26 6 = 52) : rawC w = rawC34 w := by
  unfold rawC; rw [h]; rfl

theorem RoundTrip.to_rawC35 {w : Nat} (h : fld w 26 6 = 53) : rawC w = rawC35 w := by
  unfold rawC; rw [h]; rfl

theorem RoundTrip.to_rawC36 {w : Nat} (h : fld w 26 6 = 54) : rawC w = rawC36 w := by
  unfold rawC; rw [h]; rfl

theorem RoundTrip.to_rawC37 {w : Nat} (h : fld w 26 6 = 55) : rawC w = rawC37 w := by
  unfold rawC; rw [h]; rfl

theorem RoundTrip.to_rawC3D {w : Nat} (h : fld w 26 6 = 61) : rawC w = rawC3D w := by
  unfold rawC; rw [h]; rfl

theorem RoundTrip.to_rawM01 {w : Nat} (h : fld w 26 6 = 1) : rawM w = rawM01 w := by
  unfold rawM; rw [h]; rfl

theorem RoundTrip.to_rawM02 {w : Nat} (h : fld w 26 6 = 2) : rawM w = rawM02 w := by
  unfold rawM; rw [h]; rfl

theorem RoundTrip.to_rawM03 {w : Nat} (h : fld w 26 6 = 3) : rawM w = rawM03 w := by
  unfold rawM; rw [h]; rfl

theorem RoundTrip.to_rawM04 {w : Nat} (h : fld w 26 6 = 4) : rawM w = rawM04 w := by
  unfold rawM; rw [h]; rfl

theorem RoundTrip.to_rawM05 {w : Nat} (h : fld w 26 6 = 5) : rawM w = rawM05 w := by
  unfold rawM; rw [h]; rfl

theorem RoundTrip.to_rawM06 {w : Nat} (h : fld w 26 6 = 6) : rawM w = rawM06 w := by
  unfold rawM; rw [h]; rfl

theorem RoundTrip.to_rawM07 {w : Nat} (h : fld w 26 6 = 7) : rawM w = rawM07 w := by
  unfold rawM; rw [h]; rfl

theorem RoundTrip.to_rawM08 {w : Nat} (h : fld w 26 6 = 8) : rawM w = rawM08 w := by
  unfold rawM; rw [h]; rfl

theorem RoundTrip.to_rawM10 {w : Nat} (h : fld w 26 6 = 16) : rawM w = rawM10 w := by
  unfold rawM; rw [h]; rfl

theorem RoundTrip.to_rawM11 {w : Nat} (h : fld w 26 6 = 17) : rawM w = rawM11 w := by
  unfold rawM; rw [h]; rfl

theorem RoundTrip.to_rawM20 {w : Nat} (h : fld w 26 6 = 32) : rawM w = rawM20 w := by
  unfold rawM; rw [h]; rfl

theorem RoundTrip.to_rawM21 {w : Nat} (h : fld w 26 6 = 33) : rawM w = rawM21 w := by
  unfold rawM; rw [h]; rfl

theorem RoundTrip.to_rawM22 {w : Nat} (h : fld w 26 6 = 34) : rawM w = rawM22 w := by
  unfold rawM; rw [h]; rfl

theorem RoundTrip.to_rawM23 {w : Nat} (h : fld w 26 6 = 35) : rawM w = rawM23 w := by
  unfold rawM; rw [h]; rfl

theorem RoundTrip.to_rawM24 {w : Nat} (h : fld w 26 6 = 36) : rawM w = rawM24 w := by
  unfold rawM; rw [h]; rfl

theorem RoundTrip.to_rawM25 {w : Nat} (h : fld w 26 6 = 37) : rawM w = rawM25 w := by
  unfold rawM; rw [h]; rfl

theorem RoundTrip.to_rawM30 {w : Nat} (h : fld w 26 6 = 48) : rawM w = rawM30 w := by
  unfold rawM; rw [h]; rfl

theorem RoundTrip.to_rawT01 {w : Nat} (h : fld w 25 7 = 1) : rawT w = rawT01 w := by
  unfold rawT; rw [h]; rfl

theorem RoundTrip.to_rawT02 {w : Nat} (h : fld w 25 7 = 2) : rawT w = rawT02 w := by
  unfold rawT; rw [h]; rfl

theorem RoundTrip.to_rawT03 {w : Nat} (h : fld w 25 7 = 3) : rawT w = rawT03 w := by
  unfold rawT; rw [h]; rfl

theorem RoundTrip.to_rawT04 {w : Nat} (h : fld w 25 7 = 4) : rawT w = rawT04 w := by
  unfold rawT; rw [h]; rfl

theorem RoundTrip.to_rawT05 {w : Nat} (h : fld w 25 7 = 5) : rawT w = rawT05 w := by
  unfold rawT; rw [h]; rfl

theorem RoundTrip.to_rawT06 {w : Nat} (h : fld w 25 7 = 6) : rawT w = rawT06 w := by
  unfold rawT; rw [h]; rfl

theorem RoundTrip.to_rawT07 {w : Nat} (h : fld w 25 7 = 7) : rawT w = rawT07 w := by
  unfold rawT; rw [h]; rfl

theorem RoundTrip.to_rawT08 {w : Nat} (h : fld w 25 7 = 8) : rawT w = rawT08 w := by
  unfold rawT; rw [h]; rfl

theorem RoundTrip.to_rawT09 {w : Nat} (h : fld w 25 7 = 9) : rawT w = rawT09 w := by
  unfold rawT; rw [h]; rfl

theorem RoundTrip.to_rawT0A {w : Nat} (h : fld w 25 7 = 10) : rawT w = rawT0A w := by
  unfold rawT; rw [h]; rfl

theorem RoundTrip.to_rawT10 {w : Nat} (h : fld w 25 7 = 16) : rawT w = rawT10 w := by
  unfold rawT; rw [h]; rfl

theorem RoundTrip.to_rawT11 {w : Nat} (h : fld w 25 7 = 17) : rawT w = rawT11 w := by
  unfold rawT; rw [h]; rfl

theorem RoundTrip.to_rawT12 {w : Nat} (h : fld w 25 7 = 18) : rawT w = rawT12 w := by
  unfold rawT; rw [h]; rfl

theorem RoundTrip.to_rawT13 {w : Nat} (h : fld w 25 7 = 19) : rawT w = rawT13 w := by
  unfold rawT; rw [h]; rfl

theorem RoundTrip.to_rawT14 {w : Nat} (h : fld w 25 7 = 20) : rawT w = rawT14 w := by
  unfold rawT; rw [h]; rfl

theorem RoundTrip.to_rawT15 {w : Nat} (h : fld w 25 7 = 21) : rawT w = rawT15 w := by
  unfold rawT; rw [h]; rfl

theorem RoundTrip.to_rawT16 {w : Nat} (h : fld w 25 7 = 22) : rawT w = rawT16 w := by
  unfold rawT; rw [h]; rfl

theorem RoundTrip.to_rawT17 {w : Nat} (h : fld w 25 7 = 23) : rawT w = rawT17 w := by
  unfold rawT; rw [h]; rfl

theorem RoundTrip.to_rawT18 {w : Nat} (h : fld w 25 7 = 24) : rawT w = rawT18 w := by
  unfold rawT; rw [h]; rfl

theorem RoundTrip.to_rawT19 {w : Nat} (h : fld w 25 7 = 25) : rawT w = rawT19 w := by
  unfold rawT; rw [h]; rfl

theorem RoundTrip.to_rawT1A {w : Nat} (h : fld w 25 7 = 26) : rawT w = rawT1A w := by
  unfold rawT; rw [h]; rfl

theorem RoundTrip.to_rawT1B {w : Nat} (h : fld w 25 7 = 27) : rawT w = rawT1B w := by
  unfold rawT; rw [h]; rfl

theorem RoundTrip.to_rawT1C {w : Nat} (h : fld w 25 7 = 28) : rawT w = rawT1C w := by
  unfold rawT; rw [h]; rfl

theorem RoundTrip.to_rawT30 {w : Nat} (h : fld w 25 7 = 48) : rawT w = rawT30 w := by
  unfold rawT; rw [h]; rfl

theorem RoundTrip.to_rawT31 {w : Nat} (h : fld w 25 7 = 49) : rawT w = rawT31 w := by
  unfold rawT; rw [h]; rfl

theorem RoundTrip.to_rawT32 {w : Nat} (h : fld w 25 7 = 50) : rawT w = rawT32 w := by
  unfold rawT; rw [h]; rfl

theorem RoundTrip.to_rawT33 {w : Nat} (h : fld w 25 7 = 51) : rawT w = rawT33 w := by
  unfold rawT; rw [h]; rfl

theorem RoundTrip.to_rawT40 {w : Nat} (h : fld w 25 7 = 64) : rawT w = rawT40 w := by
  unfold rawT; rw [h]; rfl

theorem RoundTrip.to_rawT41 {w : Nat} (h : fld w 25 7 = 65) : rawT w = rawT41 w := by
  unfold rawT; rw [h]; rfl

theorem RoundTrip.to_rawT42 {w : Nat} (h : fld w 25 7 = 66) : rawT w = rawT42 w := by
  unfold rawT; rw [h]; rfl

theorem RoundTrip.to_rawT43 {w : Nat} (h : fld w 25 7 = 67) : rawT w = rawT43 w := by
  unfold rawT; rw [h]; rfl

theorem RoundTrip.to_rawT44 {w : Nat} (h : fld w 25 7 = 68) : rawT w = rawT44 w := by
  unfold rawT; rw [h]; rfl

theorem RoundTrip.to_rawT45 {w : Nat} (h : fld w 25 7 = 69) : rawT w = rawT45 w := by
  unfold rawT; rw [h]; rfl

theorem RoundTrip.to_rawT46 {w : Nat} (h : fld w 25 7 = 70) : rawT w = rawT46 w := by
  unfold rawT; rw [h]; rfl

theorem RoundTrip.to_rawT50 {w : Nat} (h : fld w 25 7 = 80) : rawT w = rawT50 w := by
  unfold rawT; rw [h]; rfl

theorem RoundTrip.to_rawT51 {w : Nat} (h : fld w 25 7 = 81) : rawT w = rawT51 w := by
  unfold rawT; rw [h]; rfl

theorem RoundTrip.to_rawT52 {w : Nat} (h : fld w 25 7 = 82) : rawT w = rawT52 w := by
  unfold rawT; rw [h]; rfl

theorem RoundTrip.to_rawT53 {w : Nat} (h : fld w 25 7 = 83) : rawT w = rawT53 w := by
  unfold rawT; rw [h]; rfl

theorem RoundTrip.to_rawT54 {w : Nat} (h : fld w 25 7 = 84) : rawT w = rawT54 w := by
  unfold rawT; rw [h]; rfl

theorem RoundTrip.to_rawT55 {w : Nat} (h : fld w 25 7 = 85) : rawT w = rawT55 w := by
  unfold rawT; rw [h]; rfl

theorem RoundTrip.to_rawT60 {w : Nat} (h : fld w 25 7 = 96) : rawT w = rawT60 w := by
  unfold rawT; rw [h]; rfl

theorem RoundTrip.to_rawT61 {w : Nat} (h : fld w 25 7 = 97) : rawT w = rawT61 w := by
  unfold rawT; rw [h]; rfl

theorem RoundTrip.to_rawT62 {w : Nat} (h : fld w 25 7 = 98) : rawT w = rawT62 w := by
  unfold rawT; rw [h]; rfl

theorem RoundTrip.to_rawT63 {w : Nat} (h : fld w 25 7 = 99) : rawT w = rawT63 w := by
  unfold rawT; rw [h]; rfl

theorem RoundTrip.to_rawT64 {w : Nat} (h : fld w 25 7 = 100) : rawT w = rawT64 w := by
  unfold rawT; rw [h]; rfl

theorem RoundTrip.to_rawT68 {w : Nat} (h : fld w 25 7 = 104) : rawT w = rawT68 w := by
  unfold rawT; rw [h]; rfl

theorem RoundTrip.to_rawV01 {w : Nat} (h : fld w 25 7 = 1) : rawV w = rawV01 w := by
  unfold rawV; rw [h]; rfl

theorem RoundTrip.to_rawV02 {w : Nat} (h : fld w 25 7 = 2) : rawV w = rawV02 w := by
  unfold rawV; rw [h]; rfl

theorem RoundTrip.to_rawV03 {w : Nat} (h : fld w 25 7 = 3) : rawV w = rawV03 w := by
  unfold rawV; rw [h]; rfl

theorem RoundTrip.to_rawV04 {w : Nat} (h : fld w 25 7 = 4) : rawV w = rawV04 w := by
  unfold rawV; rw [h]; rfl

theorem RoundTrip.to_rawV05 {w : Nat} (h : fld w 25 7 = 5) : rawV w = rawV05 w := by
  unfold rawV; rw [h]; rfl

theorem RoundTrip.to_rawV06 {w : Nat} (h : fld w 25 7 = 6) : rawV w = rawV06 w := by
  unfold rawV; rw [h]; rfl

theorem RoundTrip.to_rawV07 {w : Nat} (h : fld w 25 7 = 7) : rawV w = rawV07 w := by
  unfold rawV; rw [h]; rfl

theorem RoundTrip.to_rawV08 {w : Nat} (h : fld w 25 7 = 8) : rawV w = rawV08 w := by
  unfold rawV; rw [h]; rfl

theorem RoundTrip.to_rawV09 {w : Nat} (h : fld w 25 7 = 9) : rawV w = rawV09 w := by
  unfold rawV; rw [h]; rfl

theorem RoundTrip.to_rawV0A {w : Nat} (h : fld w 25 7 = 10) : rawV w = rawV0A w := by
  unfold rawV; rw [h]; rfl

theorem RoundTrip.to_rawV0B {w : Nat} (h : fld w 25 7 = 11) : rawV w = rawV0B w := by
  unfold rawV; rw [h]; rfl

theorem RoundTrip.to_rawV0C {w : Nat} (h : fld w 25 7 = 12) : rawV w = rawV0C w := by
  unfold rawV; rw [h]; rfl

theorem RoundTrip.to_rawV0D {w : Nat} (h : fld w 25 7 = 13) : rawV w = rawV0D w := by
  unfold rawV; rw [h]; rfl

theorem RoundTrip.to_rawV0E {w : Nat} (h : fld w 25 7 = 14) : rawV w = rawV0E w := by
  unfold rawV; rw [h]; rfl

theorem RoundTrip.to_rawV0F {w : Nat} (h : fld w 25 7 = 15) : rawV w = rawV0F w := by
  unfold rawV; rw [h]; rfl

theorem RoundTrip.to_rawV10 {w : Nat} (h : fld w 25 7 = 16) : rawV w = rawV10 w := by
  unfold rawV; rw [h]; rfl

theorem RoundTrip.to_rawV11 {w : Nat} (h : fld w 25 7 = 17) : rawV w = rawV11 w := by
  unfold rawV; rw [h]; rfl

theorem RoundTrip.to_rawV12 {w : Nat} (h : fld w 25 7 = 18) : rawV w = rawV12 w := by
  unfold rawV; rw [h]; rfl

theorem RoundTrip.to_rawV13 {w : Nat} (h : fld w 25 7 = 19) : rawV w = rawV13 w := by
  unfold rawV; rw [h]; rfl

theorem RoundTrip.to_rawV14 {w : Nat} (h : fld w 25 7 = 20) : rawV w = rawV14 w := by
  unfold rawV; rw [h]; rfl

theorem RoundTrip.to_rawV15 {w : Nat} (h : fld w 25 7 = 21) : rawV w = rawV15 w := by
  unfold rawV; rw [h]; rfl

theorem RoundTrip.to_rawV16 {w : Nat} (h : fld w 25 7 = 22) : rawV w = rawV16 w := by
  unfold rawV; rw [h]; rfl

theorem RoundTrip.to_rawV17 {w : Nat} (h : fld w 25 7 = 23) : rawV w = rawV17 w := by
  unfold rawV; rw [h]; rfl

theorem RoundTrip.to_rawV18 {w : Nat} (h : fld w 25 7 = 24) : rawV w = rawV18 w := by
  unfold rawV; rw [h]; rfl

theorem RoundTrip.to_rawV19 {w : Nat} (h : fld w 25 7 = 25) : rawV w = rawV19 w := by
  unfold rawV; rw [h]; rfl

theorem RoundTrip.to_rawV1A {w : Nat} (h : fld w 25 7 = 26) : rawV w = rawV1A w := by
  unfold rawV; rw [h]; rfl

theorem RoundTrip.to_rawV1B {w : Nat} (h : fld w 25 7 = 27) : rawV w = rawV1B w := by
  unfold rawV; rw [h]; rfl

theorem RoundTrip.to_rawV1C {w : Nat} (h : fld w 25 7 = 28) : rawV w = rawV1C w := by
  unfold rawV; rw [h]; rfl

theorem RoundTrip.to_rawV1D {w : Nat} (h : fld w 25 7 = 29) : rawV w = rawV1D w := by
  unfold rawV; rw [h]; rfl

theorem RoundTrip.to_rawV1E {w : Nat} (h : fld w 25 7 = 30) : rawV w = rawV1E w := by
  unfold rawV; rw [h]; rfl

theorem RoundTrip.to_rawV1F {w : Nat} (h : fld w 25 7 = 31) : rawV w = rawV1F w := by
  unfold rawV; rw [h]; rfl

theorem RoundTrip.to_rawV20 {w : Nat} (h : fld w 25 7 = 32) : rawV w = rawV20 w := by
  unfold rawV; rw [h]; rfl

theorem RoundTrip.to_rawV21 {w : Nat} (h : fld w 25 7 = 33) : rawV w = rawV21 w := by
  unfold rawV; rw [h]; rfl

theorem RoundTrip.to_rawV22 {w : Nat} (h : fld w 25 7 = 34) : rawV w = rawV22 w := by
  unfold rawV; rw [h]; rfl

theorem RoundTrip.to_rawV23 {w : Nat} (h : fld w 25 7 = 35) : rawV w = rawV23 w := by
  unfold rawV; rw [h]; rfl

theorem RoundTrip.to_rawV24 {w : Nat} (h : fld w 25 7 = 36) : rawV w = rawV24 w := by
  unfold rawV; rw [h]; rfl

theorem RoundTrip.to_rawV25 {w : Nat} (h : fld w 25 7 = 37) : rawV w = rawV25 w := by
  unfold rawV; rw [h]; rfl

theorem RoundTrip.to_rawV26 {w : Nat} (h : fld w 25 7 = 38) : rawV w = rawV26 w := by
  unfold rawV; rw [h]; rfl

theorem RoundTrip.to_rawV27 {w : Nat} (h : fld w 25 7 = 39) : rawV w = rawV27 w := by
  unfold rawV; rw [h]; rfl

theorem RoundTrip.to_rawV28 {w : Nat} (h : fld w 25 7 = 40) : rawV w = rawV28 w := by
  unfold rawV; rw [h]; rfl

theorem RoundTrip.to_rawV29 {w : Nat} (h : fld w 25 7 = 41) : rawV w = rawV29 w := by
  unfold rawV; rw [h]; rfl

theorem RoundTrip.to_rawV30 {w : Nat} (h : fld w 25 7 = 48) : rawV w = rawV30 w := by
  unfold rawV; rw [h]; rfl

theorem RoundTrip.to_rawV31 {w : Nat} (h : fld w 25 7 = 49) : rawV w = rawV31 w := by
  unfold rawV; rw [h]; rfl

theorem RoundTrip.to_rawV32 {w : Nat} (h : fld w 25 7 = 50) : rawV w = rawV32 w := by
  unfold rawV; rw [h]; rfl

theorem RoundTrip.to_rawV33 {w : Nat} (h : fld w 25 7 = 51) : rawV w = rawV33 w := by
  unfold rawV; rw [h]; rfl

theorem RoundTrip.to_rawV34 {w : Nat} (h : fld w 25 7 = 52) : rawV w = rawV34 w := by
  unfold rawV; rw [h]; rfl

theorem RoundTrip.to_rawV35 {w : Nat} (h : fld w 25 7 = 53) : rawV w = rawV35 w := by
  unfold rawV; rw [h]; rfl

theorem RoundTrip.to_rawV36 {w : Nat} (h : fld w 25 7 = 54) : rawV w = rawV36 w := by
  unfold rawV; rw [h]; rfl

theorem RoundTrip.to_rawV37 {w : Nat} (h : fld w 25 7 = 55) : rawV w = rawV37 w := by
  unfold rawV; rw [h]; rfl

theorem RoundTrip.to_rawV38 {w : Nat} (h : fld w 25 7 = 56) : rawV w = rawV38 w := by
  unfold rawV; rw [h]; rfl

theorem RoundTrip.to_rawV39 {w : Nat} (h : fld w 25 7 = 57) : rawV w = rawV39 w := by
  unfold rawV; rw [h]; rfl

theorem RoundTrip.to_rawV3A {w : Nat} (h : fld w 25 7 = 58) : rawV w = rawV3A w := by
  unfold rawV; rw [h]; rfl

theorem RoundTrip.to_rawV3B {w : Nat} (h : fld w 25 7 = 59) : rawV w = rawV3B w := by
  unfold rawV; rw [h]; rfl

theorem RoundTrip.to_rawV40 {w : Nat} (h : fld w 25 7 = 64) : rawV w = rawV40 w := by
  unfold rawV; rw [h]; rfl

theorem RoundTrip.to_rawV41 {w : Nat} (h : fld w 25 7 = 65) : rawV w = rawV41 w := by
  unfold rawV; rw [h]; rfl

theorem RoundTrip.to_rawV42 {w : Nat} (h : fld w 25 7 = 66) : rawV w = rawV42 w := by
  unfold rawV; rw [h]; rfl

theorem RoundTrip.to_rawV43 {w : Nat} (h : fld w 25 7 = 67) : rawV w = rawV43 w := by
  unfold rawV; rw [h]; rfl

theorem RoundTrip.to_rawV44 {w : Nat} (h : fld w 25 7 = 68) : rawV w = rawV44 w := by
  unfold rawV; rw [h]; rfl

theorem RoundTrip.to_rawV45 {w : Nat} (h : fld w 25 7 = 69) : rawV w = rawV45 w := by
  unfold rawV; rw [h]; rfl

theorem RoundTrip.to_rawV46 {w : Nat} (h : fld w 25 7 = 70) : rawV w = rawV46 w := by
  unfold rawV; rw [h]; rfl

theorem RoundTrip.to_rawV47 {w : Nat} (h : fld w 25 7 = 71) : rawV w = rawV47 w := by
  unfold rawV; rw [h]; rfl

theorem RoundTrip.to_rawV48 {w : Nat} (h : fld w 25 7 = 72) : rawV w = rawV48 w := by
  unfold rawV; rw [h]; rfl

theorem RoundTrip.to_rawV49 {w : Nat} (h : fld w 25 7 = 73) : rawV w = rawV49 w := by
  unfold rawV; rw [h]; rfl

theorem RoundTrip.to_rawV4A {w : Nat} (h : fld w 25 7 = 74) : rawV w = rawV4A w := by
  unfold rawV; rw [h]; rfl

theorem RoundTrip.to_rawV4B {w : Nat} (h : fld w 25 7 = 75) : rawV w = rawV4B w := by
  unfold rawV; rw [h]; rfl

theorem RoundTrip.to_rawV4C {w : Nat} (h : fld w 25 7 = 76) : rawV w = rawV4C w := by
  unfold rawV; rw [h]; rfl

theorem RoundTrip.to_rawV4D {w : Nat} (h : fld w 25 7 = 77) : rawV w = rawV4D w := by
  unfold rawV; rw [h]; rfl

theorem RoundTrip.to_rawV4E {w : Nat} (h : fld w 25 7 = 78) : rawV w = rawV4E w := by
  unfold rawV; rw [h]; rfl

theorem RoundTrip.to_rawV4F {w : Nat} (h : fld w 25 7 = 79) : rawV w = rawV4F w := by
  unfold rawV; rw [h]; rfl

theorem RoundTrip.to_rawV58 {w : Nat} (h : fld w 25 7 = 88) : rawV w = rawV58 w := by
  unfold rawV; rw [h]; rfl

theorem RoundTrip.to_rawV59 {w : Nat} (h : fld w 25 7 = 89) : rawV w = rawV59 w := by
  unfold rawV; rw [h]; rfl

theorem RoundTrip.to_rawV5A {w : Nat} (h : fld w 25 7 = 90) : rawV w = rawV5A w := by
  unfold rawV; rw [h]; rfl

theorem RoundTrip.to_rawV5B {w : Nat} (h : fld w 25 7 = 91) : rawV w = rawV5B w := by
  unfold rawV; rw [h]; rfl

theorem RoundTrip.to_rawV5C {w : Nat} (h : fld w 25 7 = 92) : rawV w = rawV5C w := by
  unfold rawV; rw [h]; rfl

theorem RoundTrip.to_rawV68 {w : Nat} (h : fld w 25 7 = 104) : rawV w = rawV68 w := by
  unfold rawV; rw [h]; rfl

theorem RoundTrip.to_rawV69 {w : Nat} (h : fld w 25 7 = 105) : rawV w = rawV69 w := by
  unfold rawV; rw [h]; rfl

theorem RoundTrip.to_rawV6A {w : Nat} (h : fld w 25 7 = 106) : rawV w = rawV6A w := by
  unfold rawV; rw [h]; rfl

theorem RoundTrip.to_rawV6B {w : Nat} (h : fld w 25 7 = 107) : rawV w = rawV6B w := by
  unfold rawV; rw [h]; rfl

theorem RoundTrip.to_rawV70 {w : Nat} (h : fld w 25 7 = 112) : rawV w = rawV70 w := by
  unfold rawV; rw [h]; rfl

theorem RoundTrip.to_rawV71 {w : Nat} (h : fld w 25 7 = 113) : rawV w = rawV71 w := by
  unfold rawV; rw [h]; rfl

theorem RoundTrip.hrep (c : BitVec 10) (v : BitVec 4) (m : BitVec 4) (t : BitVec 4) (s : BitVec 4) : RoundTrip.Statement (.hrep c v m t s) := by
  refine RoundTrip.ofC [⟨4, s⟩, ⟨4, t⟩, ⟨4, m⟩, ⟨4, v⟩, ⟨10, c⟩, ⟨6, 61⟩] rfl rfl ?_ fun w h => ?_
  · show en5 0xF4000000 c 16 v 12 m 8 t 4 s 0 = _
    simp only [en5, en4, en3, en2, en1, RoundTrip.word, BitVec.reduceToNat, Nat.reducePow]; omega
  rw [RoundTrip.to_rawC3D (RoundTrip.range h 5 1 rfl rfl rfl), rawC3D]
  rw [show fbv 10 16 w = c from RoundTrip.field h 4 rfl rfl,
    show fbv 4 12 w = v from RoundTrip.field h 3 rfl rfl,
    show fbv 4 8 w = m from RoundTrip.field h 2 rfl rfl,
    show fbv 4 4 w = t from RoundTrip.field h 1 rfl rfl,
    show fbv 4 0 w = s from RoundTrip.field h 0 rfl rfl]

theorem RoundTrip.add (d : BitVec 5) (a : BitVec 5) (b : BitVec 5) (g : BitVec 3) : RoundTrip.Statement (.add d a b g) := by
  refine RoundTrip.ofC [⟨8, 0⟩, ⟨3, g⟩, ⟨5, b⟩, ⟨5, a⟩, ⟨5, d⟩, ⟨6, 1⟩] rfl rfl ?_ fun w h => ?_
  · show en4 0x04000000 d 21 a 16 b 11 g 8 = _
    simp only [en4, en3, en2, en1, RoundTrip.word, BitVec.reduceToNat, Nat.reducePow]; omega
  rw [RoundTrip.to_rawC01 (RoundTrip.range h 5 1 rfl rfl rfl), rawC01]
  have f0 : fld w 0 8 = 0 := RoundTrip.range h 0 1 rfl rfl rfl
  simp only [f0, Nat.reduceEqDiff, OfNat.ofNat_ne_zero, OfNat.zero_ne_ofNat, one_ne_zero, zero_ne_one, false_and, and_false, and_self, if_true, if_false]
  rw [show fbv 5 21 w = d from RoundTrip.field h 4 rfl rfl,
    show fbv 5 16 w = a from RoundTrip.field h 3 rfl rfl,
    show fbv 5 11 w = b from RoundTrip.field h 2 rfl rfl,
    show fbv 3 8 w = g from RoundTrip.field h 1 rfl rfl]

theorem RoundTrip.sub (d : BitVec 5) (a : BitVec 5) (b : BitVec 5) (g : BitVec 3) : RoundTrip.Statement (.sub d a b g) := by
  refine RoundTrip.ofC [⟨8, 1⟩, ⟨3, g⟩, ⟨5, b⟩, ⟨5, a⟩, ⟨5, d⟩, ⟨6, 1⟩] rfl rfl ?_ fun w h => ?_
  · show en4 0x04000001 d 21 a 16 b 11 g 8 = _
    simp only [en4, en3, en2, en1, RoundTrip.word, BitVec.reduceToNat, Nat.reducePow]; omega
  rw [RoundTrip.to_rawC01 (RoundTrip.range h 5 1 rfl rfl rfl), rawC01]
  have f0 : fld w 0 8 = 1 := RoundTrip.range h 0 1 rfl rfl rfl
  simp only [f0, Nat.reduceEqDiff, OfNat.ofNat_ne_zero, OfNat.zero_ne_ofNat, one_ne_zero, zero_ne_one, false_and, and_false, and_self, if_true, if_false]
  rw [show fbv 5 21 w = d from RoundTrip.field h 4 rfl rfl,
    show fbv 5 16 w = a from RoundTrip.field h 3 rfl rfl,
    show fbv 5 11 w = b from RoundTrip.field h 2 rfl rfl,
    show fbv 3 8 w = g from RoundTrip.field h 1 rfl rfl]

theorem RoundTrip.mul (d : BitVec 5) (a : BitVec 5) (b : BitVec 5) (g : BitVec 3) : RoundTrip.Statement (.mul d a b g) := by
  refine RoundTrip.ofC [⟨8, 2⟩, ⟨3, g⟩, ⟨5, b⟩, ⟨5, a⟩, ⟨5, d⟩, ⟨6, 1⟩] rfl rfl ?_ fun w h => ?_
  · show en4 0x04000002 d 21 a 16 b 11 g 8 = _
    simp only [en4, en3, en2, en1, RoundTrip.word, BitVec.reduceToNat, Nat.reducePow]; omega
  rw [RoundTrip.to_rawC01 (RoundTrip.range h 5 1 rfl rfl rfl), rawC01]
  have f0 : fld w 0 8 = 2 := RoundTrip.range h 0 1 rfl rfl rfl
  simp only [f0, Nat.reduceEqDiff, OfNat.ofNat_ne_zero, OfNat.zero_ne_ofNat, one_ne_zero, zero_ne_one, false_and, and_false, and_self, if_true, if_false]
  rw [show fbv 5 21 w = d from RoundTrip.field h 4 rfl rfl,
    show fbv 5 16 w = a from RoundTrip.field h 3 rfl rfl,
    show fbv 5 11 w = b from RoundTrip.field h 2 rfl rfl,
    show fbv 3 8 w = g from RoundTrip.field h 1 rfl rfl]

theorem RoundTrip.mulh (d : BitVec 5) (a : BitVec 5) (b : BitVec 5) (g : BitVec 3) : RoundTrip.Statement (.mulh d a b g) := by
  refine RoundTrip.ofC [⟨8, 3⟩, ⟨3, g⟩, ⟨5, b⟩, ⟨5, a⟩, ⟨5, d⟩, ⟨6, 1⟩] rfl rfl ?_ fun w h => ?_
  · show en4 0x04000003 d 21 a 16 b 11 g 8 = _
    simp only [en4, en3, en2, en1, RoundTrip.word, BitVec.reduceToNat, Nat.reducePow]; omega
  rw [RoundTrip.to_rawC01 (RoundTrip.range h 5 1 rfl rfl rfl), rawC01]
  have f0 : fld w 0 8 = 3 := RoundTrip.range h 0 1 rfl rfl rfl
  simp only [f0, Nat.reduceEqDiff, OfNat.ofNat_ne_zero, OfNat.zero_ne_ofNat, one_ne_zero, zero_ne_one, false_and, and_false, and_self, if_true, if_false]
  rw [show fbv 5 21 w = d from RoundTrip.field h 4 rfl rfl,
    show fbv 5 16 w = a from RoundTrip.field h 3 rfl rfl,
    show fbv 5 11 w = b from RoundTrip.field h 2 rfl rfl,
    show fbv 3 8 w = g from RoundTrip.field h 1 rfl rfl]

theorem RoundTrip.mulhn (d : BitVec 5) (a : BitVec 5) (b : BitVec 5) (g : BitVec 3) : RoundTrip.Statement (.mulhn d a b g) := by
  refine RoundTrip.ofC [⟨8, 4⟩, ⟨3, g⟩, ⟨5, b⟩, ⟨5, a⟩, ⟨5, d⟩, ⟨6, 1⟩] rfl rfl ?_ fun w h => ?_
  · show en4 0x04000004 d 21 a 16 b 11 g 8 = _
    simp only [en4, en3, en2, en1, RoundTrip.word, BitVec.reduceToNat, Nat.reducePow]; omega
  rw [RoundTrip.to_rawC01 (RoundTrip.range h 5 1 rfl rfl rfl), rawC01]
  have f0 : fld w 0 8 = 4 := RoundTrip.range h 0 1 rfl rfl rfl
  simp only [f0, Nat.reduceEqDiff, OfNat.ofNat_ne_zero, OfNat.zero_ne_ofNat, one_ne_zero, zero_ne_one, false_and, and_false, and_self, if_true, if_false]
  rw [show fbv 5 21 w = d from RoundTrip.field h 4 rfl rfl,
    show fbv 5 16 w = a from RoundTrip.field h 3 rfl rfl,
    show fbv 5 11 w = b from RoundTrip.field h 2 rfl rfl,
    show fbv 3 8 w = g from RoundTrip.field h 1 rfl rfl]

theorem RoundTrip.div (d : BitVec 5) (a : BitVec 5) (b : BitVec 5) (g : BitVec 3) : RoundTrip.Statement (.div d a b g) := by
  refine RoundTrip.ofC [⟨8, 5⟩, ⟨3, g⟩, ⟨5, b⟩, ⟨5, a⟩, ⟨5, d⟩, ⟨6, 1⟩] rfl rfl ?_ fun w h => ?_
  · show en4 0x04000005 d 21 a 16 b 11 g 8 = _
    simp only [en4, en3, en2, en1, RoundTrip.word, BitVec.reduceToNat, Nat.reducePow]; omega
  rw [RoundTrip.to_rawC01 (RoundTrip.range h 5 1 rfl rfl rfl), rawC01]
  have f0 : fld w 0 8 = 5 := RoundTrip.range h 0 1 rfl rfl rfl
  simp only [f0, Nat.reduceEqDiff, OfNat.ofNat_ne_zero, OfNat.zero_ne_ofNat, one_ne_zero, zero_ne_one, false_and, and_false, and_self, if_true, if_false]
  rw [show fbv 5 21 w = d from RoundTrip.field h 4 rfl rfl,
    show fbv 5 16 w = a from RoundTrip.field h 3 rfl rfl,
    show fbv 5 11 w = b from RoundTrip.field h 2 rfl rfl,
    show fbv 3 8 w = g from RoundTrip.field h 1 rfl rfl]

theorem RoundTrip.divn (d : BitVec 5) (a : BitVec 5) (b : BitVec 5) (g : BitVec 3) : RoundTrip.Statement (.divn d a b g) := by
  refine RoundTrip.ofC [⟨8, 6⟩, ⟨3, g⟩, ⟨5, b⟩, ⟨5, a⟩, ⟨5, d⟩, ⟨6, 1⟩] rfl rfl ?_ fun w h => ?_
  · show en4 0x04000006 d 21 a 16 b 11 g 8 = _
    simp only [en4, en3, en2, en1, RoundTrip.word, BitVec.reduceToNat, Nat.reducePow]; omega
  rw [RoundTrip.to_rawC01 (RoundTrip.range h 5 1 rfl rfl rfl), rawC01]
  have f0 : fld w 0 8 = 6 := RoundTrip.range h 0 1 rfl rfl rfl
  simp only [f0, Nat.reduceEqDiff, OfNat.ofNat_ne_zero, OfNat.zero_ne_ofNat, one_ne_zero, zero_ne_one, false_and, and_false, and_self, if_true, if_false]
  rw [show fbv 5 21 w = d from RoundTrip.field h 4 rfl rfl,
    show fbv 5 16 w = a from RoundTrip.field h 3 rfl rfl,
    show fbv 5 11 w = b from RoundTrip.field h 2 rfl rfl,
    show fbv 3 8 w = g from RoundTrip.field h 1 rfl rfl]

theorem RoundTrip.rem (d : BitVec 5) (a : BitVec 5) (b : BitVec 5) (g : BitVec 3) : RoundTrip.Statement (.rem d a b g) := by
  refine RoundTrip.ofC [⟨8, 7⟩, ⟨3, g⟩, ⟨5, b⟩, ⟨5, a⟩, ⟨5, d⟩, ⟨6, 1⟩] rfl rfl ?_ fun w h => ?_
  · show en4 0x04000007 d 21 a 16 b 11 g 8 = _
    simp only [en4, en3, en2, en1, RoundTrip.word, BitVec.reduceToNat, Nat.reducePow]; omega
  rw [RoundTrip.to_rawC01 (RoundTrip.range h 5 1 rfl rfl rfl), rawC01]
  have f0 : fld w 0 8 = 7 := RoundTrip.range h 0 1 rfl rfl rfl
  simp only [f0, Nat.reduceEqDiff, OfNat.ofNat_ne_zero, OfNat.zero_ne_ofNat, one_ne_zero, zero_ne_one, false_and, and_false, and_self, if_true, if_false]
  rw [show fbv 5 21 w = d from RoundTrip.field h 4 rfl rfl,
    show fbv 5 16 w = a from RoundTrip.field h 3 rfl rfl,
    show fbv 5 11 w = b from RoundTrip.field h 2 rfl rfl,
    show fbv 3 8 w = g from RoundTrip.field h 1 rfl rfl]

theorem RoundTrip.remn (d : BitVec 5) (a : BitVec 5) (b : BitVec 5) (g : BitVec 3) : RoundTrip.Statement (.remn d a b g) := by
  refine RoundTrip.ofC [⟨8, 8⟩, ⟨3, g⟩, ⟨5, b⟩, ⟨5, a⟩, ⟨5, d⟩, ⟨6, 1⟩] rfl rfl ?_ fun w h => ?_
  · show en4 0x04000008 d 21 a 16 b 11 g 8 = _
    simp only [en4, en3, en2, en1, RoundTrip.word, BitVec.reduceToNat, Nat.reducePow]; omega
  rw [RoundTrip.to_rawC01 (RoundTrip.range h 5 1 rfl rfl rfl), rawC01]
  have f0 : fld w 0 8 = 8 := RoundTrip.range h 0 1 rfl rfl rfl
  simp only [f0, Nat.reduceEqDiff, OfNat.ofNat_ne_zero, OfNat.zero_ne_ofNat, one_ne_zero, zero_ne_one, false_and, and_false, and_self, if_true, if_false]
  rw [show fbv 5 21 w = d from RoundTrip.field h 4 rfl rfl,
    show fbv 5 16 w = a from RoundTrip.field h 3 rfl rfl,
    show fbv 5 11 w = b from RoundTrip.field h 2 rfl rfl,
    show fbv 3 8 w = g from RoundTrip.field h 1 rfl rfl]

theorem RoundTrip.and (d : BitVec 5) (a : BitVec 5) (b : BitVec 5) (g : BitVec 3) : RoundTrip.Statement (.and d a b g) := by
  refine RoundTrip.ofC [⟨8, 9⟩, ⟨3, g⟩, ⟨5, b⟩, ⟨5, a⟩, ⟨5, d⟩, ⟨6, 1⟩] rfl rfl ?_ fun w h => ?_
  · show en4 0x04000009 d 21 a 16 b 11 g 8 = _
    simp only [en4, en3, en2, en1, RoundTrip.word, BitVec.reduceToNat, Nat.reducePow]; omega
  rw [RoundTrip.to_rawC01 (RoundTrip.range h 5 1 rfl rfl rfl), rawC01]
  have f0 : fld w 0 8 = 9 := RoundTrip.range h 0 1 rfl rfl rfl
  simp only [f0, Nat.reduceEqDiff, OfNat.ofNat_ne_zero, OfNat.zero_ne_ofNat, one_ne_zero, zero_ne_one, false_and, and_false, and_self, if_true, if_false]
  rw [show fbv 5 21 w = d from RoundTrip.field h 4 rfl rfl,
    show fbv 5 16 w = a from RoundTrip.field h 3 rfl rfl,
    show fbv 5 11 w = b from RoundTrip.field h 2 rfl rfl,
    show fbv 3 8 w = g from RoundTrip.field h 1 rfl rfl]

theorem RoundTrip.or (d : BitVec 5) (a : BitVec 5) (b : BitVec 5) (g : BitVec 3) : RoundTrip.Statement (.or d a b g) := by
  refine RoundTrip.ofC [⟨8, 10⟩, ⟨3, g⟩, ⟨5, b⟩, ⟨5, a⟩, ⟨5, d⟩, ⟨6, 1⟩] rfl rfl ?_ fun w h => ?_
  · show en4 0x0400000A d 21 a 16 b 11 g 8 = _
    simp only [en4, en3, en2, en1, RoundTrip.word, BitVec.reduceToNat, Nat.reducePow]; omega
  rw [RoundTrip.to_rawC01 (RoundTrip.range h 5 1 rfl rfl rfl), rawC01]
  have f0 : fld w 0 8 = 10 := RoundTrip.range h 0 1 rfl rfl rfl
  simp only [f0, Nat.reduceEqDiff, OfNat.ofNat_ne_zero, OfNat.zero_ne_ofNat, one_ne_zero, zero_ne_one, false_and, and_false, and_self, if_true, if_false]
  rw [show fbv 5 21 w = d from RoundTrip.field h 4 rfl rfl,
    show fbv 5 16 w = a from RoundTrip.field h 3 rfl rfl,
    show fbv 5 11 w = b from RoundTrip.field h 2 rfl rfl,
    show fbv 3 8 w = g from RoundTrip.field h 1 rfl rfl]

theorem RoundTrip.xor (d : BitVec 5) (a : BitVec 5) (b : BitVec 5) (g : BitVec 3) : RoundTrip.Statement (.xor d a b g) := by
  refine RoundTrip.ofC [⟨8, 11⟩, ⟨3, g⟩, ⟨5, b⟩, ⟨5, a⟩, ⟨5, d⟩, ⟨6, 1⟩] rfl rfl ?_ fun w h => ?_
  · show en4 0x0400000B d 21 a 16 b 11 g 8 = _
    simp only [en4, en3, en2, en1, RoundTrip.word, BitVec.reduceToNat, Nat.reducePow]; omega
  rw [RoundTrip.to_rawC01 (RoundTrip.range h 5 1 rfl rfl rfl), rawC01]
  have f0 : fld w 0 8 = 11 := RoundTrip.range h 0 1 rfl rfl rfl
  simp only [f0, Nat.reduceEqDiff, OfNat.ofNat_ne_zero, OfNat.zero_ne_ofNat, one_ne_zero, zero_ne_one, false_and, and_false, and_self, if_true, if_false]
  rw [show fbv 5 21 w = d from RoundTrip.field h 4 rfl rfl,
    show fbv 5 16 w = a from RoundTrip.field h 3 rfl rfl,
    show fbv 5 11 w = b from RoundTrip.field h 2 rfl rfl,
    show fbv 3 8 w = g from RoundTrip.field h 1 rfl rfl]

theorem RoundTrip.shl (d : BitVec 5) (a : BitVec 5) (b : BitVec 5) (g : BitVec 3) : RoundTrip.Statement (.shl d a b g) := by
  refine RoundTrip.ofC [⟨8, 12⟩, ⟨3, g⟩, ⟨5, b⟩, ⟨5, a⟩, ⟨5, d⟩, ⟨6, 1⟩] rfl rfl ?_ fun w h => ?_
  · show en4 0x0400000C d 21 a 16 b 11 g 8 = _
    simp only [en4, en3, en2, en1, RoundTrip.word, BitVec.reduceToNat, Nat.reducePow]; omega
  rw [RoundTrip.to_rawC01 (RoundTrip.range h 5 1 rfl rfl rfl), rawC01]
  have f0 : fld w 0 8 = 12 := RoundTrip.range h 0 1 rfl rfl rfl
  simp only [f0, Nat.reduceEqDiff, OfNat.ofNat_ne_zero, OfNat.zero_ne_ofNat, one_ne_zero, zero_ne_one, false_and, and_false, and_self, if_true, if_false]
  rw [show fbv 5 21 w = d from RoundTrip.field h 4 rfl rfl,
    show fbv 5 16 w = a from RoundTrip.field h 3 rfl rfl,
    show fbv 5 11 w = b from RoundTrip.field h 2 rfl rfl,
    show fbv 3 8 w = g from RoundTrip.field h 1 rfl rfl]

theorem RoundTrip.shr (d : BitVec 5) (a : BitVec 5) (b : BitVec 5) (g : BitVec 3) : RoundTrip.Statement (.shr d a b g) := by
  refine RoundTrip.ofC [⟨8, 13⟩, ⟨3, g⟩, ⟨5, b⟩, ⟨5, a⟩, ⟨5, d⟩, ⟨6, 1⟩] rfl rfl ?_ fun w h => ?_
  · show en4 0x0400000D d 21 a 16 b 11 g 8 = _
    simp only [en4, en3, en2, en1, RoundTrip.word, BitVec.reduceToNat, Nat.reducePow]; omega
  rw [RoundTrip.to_rawC01 (RoundTrip.range h 5 1 rfl rfl rfl), rawC01]
  have f0 : fld w 0 8 = 13 := RoundTrip.range h 0 1 rfl rfl rfl
  simp only [f0, Nat.reduceEqDiff, OfNat.ofNat_ne_zero, OfNat.zero_ne_ofNat, one_ne_zero, zero_ne_one, false_and, and_false, and_self, if_true, if_false]
  rw [show fbv 5 21 w = d from RoundTrip.field h 4 rfl rfl,
    show fbv 5 16 w = a from RoundTrip.field h 3 rfl rfl,
    show fbv 5 11 w = b from RoundTrip.field h 2 rfl rfl,
    show fbv 3 8 w = g from RoundTrip.field h 1 rfl rfl]

theorem RoundTrip.sar (d : BitVec 5) (a : BitVec 5) (b : BitVec 5) (g : BitVec 3) : RoundTrip.Statement (.sar d a b g) := by
  refine RoundTrip.ofC [⟨8, 14⟩, ⟨3, g⟩, ⟨5, b⟩, ⟨5, a⟩, ⟨5, d⟩, ⟨6, 1⟩] rfl rfl ?_ fun w h => ?_
  · show en4 0x0400000E d 21 a 16 b 11 g 8 = _
    simp only [en4, en3, en2, en1, RoundTrip.word, BitVec.reduceToNat, Nat.reducePow]; omega
  rw [RoundTrip.to_rawC01 (RoundTrip.range h 5 1 rfl rfl rfl), rawC01]
  have f0 : fld w 0 8 = 14 := RoundTrip.range h 0 1 rfl rfl rfl
  simp only [f0, Nat.reduceEqDiff, OfNat.ofNat_ne_zero, OfNat.zero_ne_ofNat, one_ne_zero, zero_ne_one, false_and, and_false, and_self, if_true, if_false]
  rw [show fbv 5 21 w = d from RoundTrip.field h 4 rfl rfl,
    show fbv 5 16 w = a from RoundTrip.field h 3 rfl rfl,
    show fbv 5 11 w = b from RoundTrip.field h 2 rfl rfl,
    show fbv 3 8 w = g from RoundTrip.field h 1 rfl rfl]

theorem RoundTrip.min (d : BitVec 5) (a : BitVec 5) (b : BitVec 5) (g : BitVec 3) : RoundTrip.Statement (.min d a b g) := by
  refine RoundTrip.ofC [⟨8, 15⟩, ⟨3, g⟩, ⟨5, b⟩, ⟨5, a⟩, ⟨5, d⟩, ⟨6, 1⟩] rfl rfl ?_ fun w h => ?_
  · show en4 0x0400000F d 21 a 16 b 11 g 8 = _
    simp only [en4, en3, en2, en1, RoundTrip.word, BitVec.reduceToNat, Nat.reducePow]; omega
  rw [RoundTrip.to_rawC01 (RoundTrip.range h 5 1 rfl rfl rfl), rawC01]
  have f0 : fld w 0 8 = 15 := RoundTrip.range h 0 1 rfl rfl rfl
  simp only [f0, Nat.reduceEqDiff, OfNat.ofNat_ne_zero, OfNat.zero_ne_ofNat, one_ne_zero, zero_ne_one, false_and, and_false, and_self, if_true, if_false]
  rw [show fbv 5 21 w = d from RoundTrip.field h 4 rfl rfl,
    show fbv 5 16 w = a from RoundTrip.field h 3 rfl rfl,
    show fbv 5 11 w = b from RoundTrip.field h 2 rfl rfl,
    show fbv 3 8 w = g from RoundTrip.field h 1 rfl rfl]

theorem RoundTrip.max (d : BitVec 5) (a : BitVec 5) (b : BitVec 5) (g : BitVec 3) : RoundTrip.Statement (.max d a b g) := by
  refine RoundTrip.ofC [⟨8, 16⟩, ⟨3, g⟩, ⟨5, b⟩, ⟨5, a⟩, ⟨5, d⟩, ⟨6, 1⟩] rfl rfl ?_ fun w h => ?_
  · show en4 0x04000010 d 21 a 16 b 11 g 8 = _
    simp only [en4, en3, en2, en1, RoundTrip.word, BitVec.reduceToNat, Nat.reducePow]; omega
  rw [RoundTrip.to_rawC01 (RoundTrip.range h 5 1 rfl rfl rfl), rawC01]
  have f0 : fld w 0 8 = 16 := RoundTrip.range h 0 1 rfl rfl rfl
  simp only [f0, Nat.reduceEqDiff, OfNat.ofNat_ne_zero, OfNat.zero_ne_ofNat, one_ne_zero, zero_ne_one, false_and, and_false, and_self, if_true, if_false]
  rw [show fbv 5 21 w = d from RoundTrip.field h 4 rfl rfl,
    show fbv 5 16 w = a from RoundTrip.field h 3 rfl rfl,
    show fbv 5 11 w = b from RoundTrip.field h 2 rfl rfl,
    show fbv 3 8 w = g from RoundTrip.field h 1 rfl rfl]

theorem RoundTrip.minn (d : BitVec 5) (a : BitVec 5) (b : BitVec 5) (g : BitVec 3) : RoundTrip.Statement (.minn d a b g) := by
  refine RoundTrip.ofC [⟨8, 17⟩, ⟨3, g⟩, ⟨5, b⟩, ⟨5, a⟩, ⟨5, d⟩, ⟨6, 1⟩] rfl rfl ?_ fun w h => ?_
  · show en4 0x04000011 d 21 a 16 b 11 g 8 = _
    simp only [en4, en3, en2, en1, RoundTrip.word, BitVec.reduceToNat, Nat.reducePow]; omega
  rw [RoundTrip.to_rawC01 (RoundTrip.range h 5 1 rfl rfl rfl), rawC01]
  have f0 : fld w 0 8 = 17 := RoundTrip.range h 0 1 rfl rfl rfl
  simp only [f0, Nat.reduceEqDiff, OfNat.ofNat_ne_zero, OfNat.zero_ne_ofNat, one_ne_zero, zero_ne_one, false_and, and_false, and_self, if_true, if_false]
  rw [show fbv 5 21 w = d from RoundTrip.field h 4 rfl rfl,
    show fbv 5 16 w = a from RoundTrip.field h 3 rfl rfl,
    show fbv 5 11 w = b from RoundTrip.field h 2 rfl rfl,
    show fbv 3 8 w = g from RoundTrip.field h 1 rfl rfl]

theorem RoundTrip.maxn (d : BitVec 5) (a : BitVec 5) (b : BitVec 5) (g : BitVec 3) : RoundTrip.Statement (.maxn d a b g) := by
  refine RoundTrip.ofC [⟨8, 18⟩, ⟨3, g⟩, ⟨5, b⟩, ⟨5, a⟩, ⟨5, d⟩, ⟨6, 1⟩] rfl rfl ?_ fun w h => ?_
  · show en4 0x04000012 d 21 a 16 b 11 g 8 = _
    simp only [en4, en3, en2, en1, RoundTrip.word, BitVec.reduceToNat, Nat.reducePow]; omega
  rw [RoundTrip.to_rawC01 (RoundTrip.range h 5 1 rfl rfl rfl), rawC01]
  have f0 : fld w 0 8 = 18 := RoundTrip.range h 0 1 rfl rfl rfl
  simp only [f0, Nat.reduceEqDiff, OfNat.ofNat_ne_zero, OfNat.zero_ne_ofNat, one_ne_zero, zero_ne_one, false_and, and_false, and_self, if_true, if_false]
  rw [show fbv 5 21 w = d from RoundTrip.field h 4 rfl rfl,
    show fbv 5 16 w = a from RoundTrip.field h 3 rfl rfl,
    show fbv 5 11 w = b from RoundTrip.field h 2 rfl rfl,
    show fbv 3 8 w = g from RoundTrip.field h 1 rfl rfl]

theorem RoundTrip.clz (d : BitVec 5) (a : BitVec 5) (g : BitVec 3) : RoundTrip.Statement (.clz d a g) := by
  refine RoundTrip.ofC [⟨8, 19⟩, ⟨3, g⟩, ⟨5, 0⟩, ⟨5, a⟩, ⟨5, d⟩, ⟨6, 1⟩] rfl rfl ?_ fun w h => ?_
  · show en3 0x04000013 d 21 a 16 g 8 = _
    simp only [en3, en2, en1, RoundTrip.word, BitVec.reduceToNat, Nat.reducePow]; omega
  rw [RoundTrip.to_rawC01 (RoundTrip.range h 5 1 rfl rfl rfl), rawC01]
  have f0 : fld w 0 8 = 19 := RoundTrip.range h 0 1 rfl rfl rfl
  have f1 : fld w 11 5 = 0 := RoundTrip.range h 2 1 rfl rfl rfl
  simp only [f0, f1, Nat.reduceEqDiff, OfNat.ofNat_ne_zero, OfNat.zero_ne_ofNat, one_ne_zero, zero_ne_one, false_and, and_false, and_self, if_true, if_false]
  rw [show fbv 5 21 w = d from RoundTrip.field h 4 rfl rfl,
    show fbv 5 16 w = a from RoundTrip.field h 3 rfl rfl,
    show fbv 3 8 w = g from RoundTrip.field h 1 rfl rfl]

theorem RoundTrip.popc (d : BitVec 5) (a : BitVec 5) (g : BitVec 3) : RoundTrip.Statement (.popc d a g) := by
  refine RoundTrip.ofC [⟨8, 20⟩, ⟨3, g⟩, ⟨5, 0⟩, ⟨5, a⟩, ⟨5, d⟩, ⟨6, 1⟩] rfl rfl ?_ fun w h => ?_
  · show en3 0x04000014 d 21 a 16 g 8 = _
    simp only [en3, en2, en1, RoundTrip.word, BitVec.reduceToNat, Nat.reducePow]; omega
  rw [RoundTrip.to_rawC01 (RoundTrip.range h 5 1 rfl rfl rfl), rawC01]
  have f0 : fld w 0 8 = 20 := RoundTrip.range h 0 1 rfl rfl rfl
  have f1 : fld w 11 5 = 0 := RoundTrip.range h 2 1 rfl rfl rfl
  simp only [f0, f1, Nat.reduceEqDiff, OfNat.ofNat_ne_zero, OfNat.zero_ne_ofNat, one_ne_zero, zero_ne_one, false_and, and_false, and_self, if_true, if_false]
  rw [show fbv 5 21 w = d from RoundTrip.field h 4 rfl rfl,
    show fbv 5 16 w = a from RoundTrip.field h 3 rfl rfl,
    show fbv 3 8 w = g from RoundTrip.field h 1 rfl rfl]

theorem RoundTrip.sext (d : BitVec 5) (a : BitVec 5) (w0 : BitVec 2) (g : BitVec 3) : RoundTrip.Statement (.sext d a w0 g) := by
  refine RoundTrip.ofC [⟨8, 21⟩, ⟨3, g⟩, ⟨2, w0⟩, ⟨3, 0⟩, ⟨5, a⟩, ⟨5, d⟩, ⟨6, 1⟩] rfl rfl ?_ fun w h => ?_
  · show en4 0x04000015 d 21 a 16 w0 11 g 8 = _
    simp only [en4, en3, en2, en1, RoundTrip.word, BitVec.reduceToNat, Nat.reducePow]; omega
  rw [RoundTrip.to_rawC01 (RoundTrip.range h 6 1 rfl rfl rfl), rawC01]
  have f0 : fld w 0 8 = 21 := RoundTrip.range h 0 1 rfl rfl rfl
  have f1 : fld w 13 3 = 0 := RoundTrip.range h 3 1 rfl rfl rfl
  simp only [f0, f1, Nat.reduceEqDiff, OfNat.ofNat_ne_zero, OfNat.zero_ne_ofNat, one_ne_zero, zero_ne_one, false_and, and_false, and_self, if_true, if_false]
  rw [show fbv 5 21 w = d from RoundTrip.field h 5 rfl rfl,
    show fbv 5 16 w = a from RoundTrip.field h 4 rfl rfl,
    show fbv 2 11 w = w0 from RoundTrip.field h 2 rfl rfl,
    show fbv 3 8 w = g from RoundTrip.field h 1 rfl rfl]

theorem RoundTrip.zext (d : BitVec 5) (a : BitVec 5) (w0 : BitVec 2) (g : BitVec 3) : RoundTrip.Statement (.zext d a w0 g) := by
  refine RoundTrip.ofC [⟨8, 22⟩, ⟨3, g⟩, ⟨2, w0⟩, ⟨3, 0⟩, ⟨5, a⟩, ⟨5, d⟩, ⟨6, 1⟩] rfl rfl ?_ fun w h => ?_
  · show en4 0x04000016 d 21 a 16 w0 11 g 8 = _
    simp only [en4, en3, en2, en1, RoundTrip.word, BitVec.reduceToNat, Nat.reducePow]; omega
  rw [RoundTrip.to_rawC01 (RoundTrip.range h 6 1 rfl rfl rfl), rawC01]
  have f0 : fld w 0 8 = 22 := RoundTrip.range h 0 1 rfl rfl rfl
  have f1 : fld w 13 3 = 0 := RoundTrip.range h 3 1 rfl rfl rfl
  simp only [f0, f1, Nat.reduceEqDiff, OfNat.ofNat_ne_zero, OfNat.zero_ne_ofNat, one_ne_zero, zero_ne_one, false_and, and_false, and_self, if_true, if_false]
  rw [show fbv 5 21 w = d from RoundTrip.field h 5 rfl rfl,
    show fbv 5 16 w = a from RoundTrip.field h 4 rfl rfl,
    show fbv 2 11 w = w0 from RoundTrip.field h 2 rfl rfl,
    show fbv 3 8 w = g from RoundTrip.field h 1 rfl rfl]

theorem RoundTrip.addi (d : BitVec 5) (a : BitVec 5) (i : BitVec 16) : RoundTrip.Statement (.addi d a i) := by
  refine RoundTrip.ofC [⟨16, i⟩, ⟨5, a⟩, ⟨5, d⟩, ⟨6, 2⟩] rfl rfl ?_ fun w h => ?_
  · show en3 0x08000000 d 21 a 16 i 0 = _
    simp only [en3, en2, en1, RoundTrip.word, BitVec.reduceToNat, Nat.reducePow]; omega
  rw [RoundTrip.to_rawC02 (RoundTrip.range h 3 1 rfl rfl rfl), rawC02]
  rw [show fbv 5 21 w = d from RoundTrip.field h 2 rfl rfl,
    show fbv 5 16 w = a from RoundTrip.field h 1 rfl rfl,
    show fbv 16 0 w = i from RoundTrip.field h 0 rfl rfl]

theorem RoundTrip.andi (d : BitVec 5) (a : BitVec 5) (i : BitVec 16) : RoundTrip.Statement (.andi d a i) := by
  refine RoundTrip.ofC [⟨16, i⟩, ⟨5, a⟩, ⟨5, d⟩, ⟨6, 3⟩] rfl rfl ?_ fun w h => ?_
  · show en3 0x0C000000 d 21 a 16 i 0 = _
    simp only [en3, en2, en1, RoundTrip.word, BitVec.reduceToNat, Nat.reducePow]; omega
  rw [RoundTrip.to_rawC03 (RoundTrip.range h 3 1 rfl rfl rfl), rawC03]
  rw [show fbv 5 21 w = d from RoundTrip.field h 2 rfl rfl,
    show fbv 5 16 w = a from RoundTrip.field h 1 rfl rfl,
    show fbv 16 0 w = i from RoundTrip.field h 0 rfl rfl]

theorem RoundTrip.ori (d : BitVec 5) (a : BitVec 5) (i : BitVec 16) : RoundTrip.Statement (.ori d a i) := by
  refine RoundTrip.ofC [⟨16, i⟩, ⟨5, a⟩, ⟨5, d⟩, ⟨6, 4⟩] rfl rfl ?_ fun w h => ?_
  · show en3 0x10000000 d 21 a 16 i 0 = _
    simp only [en3, en2, en1, RoundTrip.word, BitVec.reduceToNat, Nat.reducePow]; omega
  rw [RoundTrip.to_rawC04 (RoundTrip.range h 3 1 rfl rfl rfl), rawC04]
  rw [show fbv 5 21 w = d from RoundTrip.field h 2 rfl rfl,
    show fbv 5 16 w = a from RoundTrip.field h 1 rfl rfl,
    show fbv 16 0 w = i from RoundTrip.field h 0 rfl rfl]

theorem RoundTrip.xori (d : BitVec 5) (a : BitVec 5) (i : BitVec 16) : RoundTrip.Statement (.xori d a i) := by
  refine RoundTrip.ofC [⟨16, i⟩, ⟨5, a⟩, ⟨5, d⟩, ⟨6, 5⟩] rfl rfl ?_ fun w h => ?_
  · show en3 0x14000000 d 21 a 16 i 0 = _
    simp only [en3, en2, en1, RoundTrip.word, BitVec.reduceToNat, Nat.reducePow]; omega
  rw [RoundTrip.to_rawC05 (RoundTrip.range h 3 1 rfl rfl rfl), rawC05]
  rw [show fbv 5 21 w = d from RoundTrip.field h 2 rfl rfl,
    show fbv 5 16 w = a from RoundTrip.field h 1 rfl rfl,
    show fbv 16 0 w = i from RoundTrip.field h 0 rfl rfl]

theorem RoundTrip.shli (d : BitVec 5) (a : BitVec 5) (n : BitVec 6) : RoundTrip.Statement (.shli d a n) := by
  refine RoundTrip.ofC [⟨6, n⟩, ⟨10, 0⟩, ⟨5, a⟩, ⟨5, d⟩, ⟨6, 6⟩] rfl rfl ?_ fun w h => ?_
  · show en3 0x18000000 d 21 a 16 n 0 = _
    simp only [en3, en2, en1, RoundTrip.word, BitVec.reduceToNat, Nat.reducePow]; omega
  rw [RoundTrip.to_rawC06 (RoundTrip.range h 4 1 rfl rfl rfl), rawC06]
  have f0 : fld w 6 10 = 0 := RoundTrip.range h 1 1 rfl rfl rfl
  simp only [f0, Nat.reduceEqDiff, OfNat.ofNat_ne_zero, OfNat.zero_ne_ofNat, one_ne_zero, zero_ne_one, false_and, and_false, and_self, if_true, if_false]
  rw [show fbv 5 21 w = d from RoundTrip.field h 3 rfl rfl,
    show fbv 5 16 w = a from RoundTrip.field h 2 rfl rfl,
    show fbv 6 0 w = n from RoundTrip.field h 0 rfl rfl]

theorem RoundTrip.shri (d : BitVec 5) (a : BitVec 5) (n : BitVec 6) : RoundTrip.Statement (.shri d a n) := by
  refine RoundTrip.ofC [⟨6, n⟩, ⟨10, 256⟩, ⟨5, a⟩, ⟨5, d⟩, ⟨6, 6⟩] rfl rfl ?_ fun w h => ?_
  · show en3 0x18004000 d 21 a 16 n 0 = _
    simp only [en3, en2, en1, RoundTrip.word, BitVec.reduceToNat, Nat.reducePow]; omega
  rw [RoundTrip.to_rawC06 (RoundTrip.range h 4 1 rfl rfl rfl), rawC06]
  have f0 : fld w 6 10 = 256 := RoundTrip.range h 1 1 rfl rfl rfl
  simp only [f0, Nat.reduceEqDiff, OfNat.ofNat_ne_zero, OfNat.zero_ne_ofNat, one_ne_zero, zero_ne_one, false_and, and_false, and_self, if_true, if_false]
  rw [show fbv 5 21 w = d from RoundTrip.field h 3 rfl rfl,
    show fbv 5 16 w = a from RoundTrip.field h 2 rfl rfl,
    show fbv 6 0 w = n from RoundTrip.field h 0 rfl rfl]

theorem RoundTrip.sari (d : BitVec 5) (a : BitVec 5) (n : BitVec 6) : RoundTrip.Statement (.sari d a n) := by
  refine RoundTrip.ofC [⟨6, n⟩, ⟨10, 512⟩, ⟨5, a⟩, ⟨5, d⟩, ⟨6, 6⟩] rfl rfl ?_ fun w h => ?_
  · show en3 0x18008000 d 21 a 16 n 0 = _
    simp only [en3, en2, en1, RoundTrip.word, BitVec.reduceToNat, Nat.reducePow]; omega
  rw [RoundTrip.to_rawC06 (RoundTrip.range h 4 1 rfl rfl rfl), rawC06]
  have f0 : fld w 6 10 = 512 := RoundTrip.range h 1 1 rfl rfl rfl
  simp only [f0, Nat.reduceEqDiff, OfNat.ofNat_ne_zero, OfNat.zero_ne_ofNat, one_ne_zero, zero_ne_one, false_and, and_false, and_self, if_true, if_false]
  rw [show fbv 5 21 w = d from RoundTrip.field h 3 rfl rfl,
    show fbv 5 16 w = a from RoundTrip.field h 2 rfl rfl,
    show fbv 6 0 w = n from RoundTrip.field h 0 rfl rfl]

theorem RoundTrip.li (d : BitVec 5) (i : BitVec 21) : RoundTrip.Statement (.li d i) := by
  refine RoundTrip.ofC [⟨21, i⟩, ⟨5, d⟩, ⟨6, 7⟩] rfl rfl ?_ fun w h => ?_
  · show en2 0x1C000000 d 21 i 0 = _
    simp only [en2, en1, RoundTrip.word, BitVec.reduceToNat, Nat.reducePow]; omega
  rw [RoundTrip.to_rawC07 (RoundTrip.range h 2 1 rfl rfl rfl), rawC07]
  rw [show fbv 5 21 w = d from RoundTrip.field h 1 rfl rfl,
    show fbv 21 0 w = i from RoundTrip.field h 0 rfl rfl]

theorem RoundTrip.lih (d : BitVec 5) (q : BitVec 2) (i : BitVec 16) : RoundTrip.Statement (.lih d q i) := by
  refine RoundTrip.ofC [⟨16, i⟩, ⟨2, q⟩, ⟨3, 0⟩, ⟨5, d⟩, ⟨6, 8⟩] rfl rfl ?_ fun w h => ?_
  · show en3 0x20000000 d 21 q 16 i 0 = _
    simp only [en3, en2, en1, RoundTrip.word, BitVec.reduceToNat, Nat.reducePow]; omega
  rw [RoundTrip.to_rawC08 (RoundTrip.range h 4 1 rfl rfl rfl), rawC08]
  have f0 : fld w 18 3 = 0 := RoundTrip.range h 2 1 rfl rfl rfl
  simp only [f0, Nat.reduceEqDiff, OfNat.ofNat_ne_zero, OfNat.zero_ne_ofNat, one_ne_zero, zero_ne_one, false_and, and_false, and_self, if_true, if_false]
  rw [show fbv 5 21 w = d from RoundTrip.field h 3 rfl rfl,
    show fbv 2 16 w = q from RoundTrip.field h 1 rfl rfl,
    show fbv 16 0 w = i from RoundTrip.field h 0 rfl rfl]

theorem RoundTrip.cmp (k : BitVec 3) (a : BitVec 5) (b : BitVec 5) (g : BitVec 3) (c : BitVec 8) : RoundTrip.Statement (.cmp k a b g c) := by
  refine RoundTrip.ofC [⟨8, c⟩, ⟨3, g⟩, ⟨5, b⟩, ⟨5, a⟩, ⟨3, k⟩, ⟨2, 0⟩, ⟨6, 9⟩] rfl rfl ?_ fun w h => ?_
  · show en5 0x24000000 k 21 a 16 b 11 g 8 c 0 = _
    simp only [en5, en4, en3, en2, en1, RoundTrip.word, BitVec.reduceToNat, Nat.reducePow]; omega
  rw [RoundTrip.to_rawC09 (RoundTrip.range h 6 1 rfl rfl rfl), rawC09]
  have f0 : fld w 24 2 = 0 := RoundTrip.range h 5 1 rfl rfl rfl
  simp only [f0, Nat.reduceEqDiff, OfNat.ofNat_ne_zero, OfNat.zero_ne_ofNat, one_ne_zero, zero_ne_one, false_and, and_false, and_self, if_true, if_false]
  rw [show fbv 3 21 w = k from RoundTrip.field h 4 rfl rfl,
    show fbv 5 16 w = a from RoundTrip.field h 3 rfl rfl,
    show fbv 5 11 w = b from RoundTrip.field h 2 rfl rfl,
    show fbv 3 8 w = g from RoundTrip.field h 1 rfl rfl,
    show fbv 8 0 w = c from RoundTrip.field h 0 rfl rfl]

theorem RoundTrip.cmpi (k : BitVec 3) (c : BitVec 3) (a : BitVec 5) (i : BitVec 15) : RoundTrip.Statement (.cmpi k c a i) := by
  refine RoundTrip.ofC [⟨15, i⟩, ⟨5, a⟩, ⟨3, c⟩, ⟨3, k⟩, ⟨6, 10⟩] rfl rfl ?_ fun w h => ?_
  · show en4 0x28000000 k 23 c 20 a 15 i 0 = _
    simp only [en4, en3, en2, en1, RoundTrip.word, BitVec.reduceToNat, Nat.reducePow]; omega
  rw [RoundTrip.to_rawC0A (RoundTrip.range h 4 1 rfl rfl rfl), rawC0A]
  rw [show fbv 3 23 w = k from RoundTrip.field h 3 rfl rfl,
    show fbv 3 20 w = c from RoundTrip.field h 2 rfl rfl,
    show fbv 5 15 w = a from RoundTrip.field h 1 rfl rfl,
    show fbv 15 0 w = i from RoundTrip.field h 0 rfl rfl]

theorem RoundTrip.sel (d : BitVec 5) (a : BitVec 5) (b : BitVec 5) (g : BitVec 3) (c : BitVec 3) : RoundTrip.Statement (.sel d a b g c) := by
  refine RoundTrip.ofC [⟨5, 0⟩, ⟨3, c⟩, ⟨3, g⟩, ⟨5, b⟩, ⟨5, a⟩, ⟨5, d⟩, ⟨6, 11⟩] rfl rfl ?_ fun w h => ?_
  · show en5 0x2C000000 d 21 a 16 b 11 g 8 c 5 = _
    simp only [en5, en4, en3, en2, en1, RoundTrip.word, BitVec.reduceToNat, Nat.reducePow]; omega
  rw [RoundTrip.to_rawC0B (RoundTrip.range h 6 1 rfl rfl rfl), rawC0B]
  have f0 : fld w 0 5 = 0 := RoundTrip.range h 0 1 rfl rfl rfl
  simp only [f0, Nat.reduceEqDiff, OfNat.ofNat_ne_zero, OfNat.zero_ne_ofNat, one_ne_zero, zero_ne_one, false_and, and_false, and_self, if_true, if_false]
  rw [show fbv 5 21 w = d from RoundTrip.field h 5 rfl rfl,
    show fbv 5 16 w = a from RoundTrip.field h 4 rfl rfl,
    show fbv 5 11 w = b from RoundTrip.field h 3 rfl rfl,
    show fbv 3 8 w = g from RoundTrip.field h 2 rfl rfl,
    show fbv 3 5 w = c from RoundTrip.field h 1 rfl rfl]

theorem RoundTrip.kand (d : BitVec 3) (a : BitVec 3) (b : BitVec 3) (g : BitVec 3) : RoundTrip.Statement (.kand d a b g) := by
  refine RoundTrip.ofC [⟨8, 0⟩, ⟨3, g⟩, ⟨6, 0⟩, ⟨3, b⟩, ⟨3, a⟩, ⟨3, d⟩, ⟨6, 12⟩] rfl rfl ?_ fun w h => ?_
  · show en4 0x30000000 d 23 a 20 b 17 g 8 = _
    simp only [en4, en3, en2, en1, RoundTrip.word, BitVec.reduceToNat, Nat.reducePow]; omega
  rw [RoundTrip.to_rawC0C (RoundTrip.range h 6 1 rfl rfl rfl), rawC0C]
  have f0 : fld w 11 6 = 0 := RoundTrip.range h 2 1 rfl rfl rfl
  have f1 : fld w 0 8 = 0 := RoundTrip.range h 0 1 rfl rfl rfl
  simp only [f0, f1, Nat.reduceEqDiff, OfNat.ofNat_ne_zero, OfNat.zero_ne_ofNat, one_ne_zero, zero_ne_one, false_and, and_false, and_self, if_true, if_false]
  rw [show fbv 3 23 w = d from RoundTrip.field h 5 rfl rfl,
    show fbv 3 20 w = a from RoundTrip.field h 4 rfl rfl,
    show fbv 3 17 w = b from RoundTrip.field h 3 rfl rfl,
    show fbv 3 8 w = g from RoundTrip.field h 1 rfl rfl]

theorem RoundTrip.kor (d : BitVec 3) (a : BitVec 3) (b : BitVec 3) (g : BitVec 3) : RoundTrip.Statement (.kor d a b g) := by
  refine RoundTrip.ofC [⟨8, 1⟩, ⟨3, g⟩, ⟨6, 0⟩, ⟨3, b⟩, ⟨3, a⟩, ⟨3, d⟩, ⟨6, 12⟩] rfl rfl ?_ fun w h => ?_
  · show en4 0x30000001 d 23 a 20 b 17 g 8 = _
    simp only [en4, en3, en2, en1, RoundTrip.word, BitVec.reduceToNat, Nat.reducePow]; omega
  rw [RoundTrip.to_rawC0C (RoundTrip.range h 6 1 rfl rfl rfl), rawC0C]
  have f0 : fld w 0 8 = 1 := RoundTrip.range h 0 1 rfl rfl rfl
  have f1 : fld w 11 6 = 0 := RoundTrip.range h 2 1 rfl rfl rfl
  simp only [f0, f1, Nat.reduceEqDiff, OfNat.ofNat_ne_zero, OfNat.zero_ne_ofNat, one_ne_zero, zero_ne_one, false_and, and_false, and_self, if_true, if_false]
  rw [show fbv 3 23 w = d from RoundTrip.field h 5 rfl rfl,
    show fbv 3 20 w = a from RoundTrip.field h 4 rfl rfl,
    show fbv 3 17 w = b from RoundTrip.field h 3 rfl rfl,
    show fbv 3 8 w = g from RoundTrip.field h 1 rfl rfl]

theorem RoundTrip.kxor (d : BitVec 3) (a : BitVec 3) (b : BitVec 3) (g : BitVec 3) : RoundTrip.Statement (.kxor d a b g) := by
  refine RoundTrip.ofC [⟨8, 2⟩, ⟨3, g⟩, ⟨6, 0⟩, ⟨3, b⟩, ⟨3, a⟩, ⟨3, d⟩, ⟨6, 12⟩] rfl rfl ?_ fun w h => ?_
  · show en4 0x30000002 d 23 a 20 b 17 g 8 = _
    simp only [en4, en3, en2, en1, RoundTrip.word, BitVec.reduceToNat, Nat.reducePow]; omega
  rw [RoundTrip.to_rawC0C (RoundTrip.range h 6 1 rfl rfl rfl), rawC0C]
  have f0 : fld w 0 8 = 2 := RoundTrip.range h 0 1 rfl rfl rfl
  have f1 : fld w 11 6 = 0 := RoundTrip.range h 2 1 rfl rfl rfl
  simp only [f0, f1, Nat.reduceEqDiff, OfNat.ofNat_ne_zero, OfNat.zero_ne_ofNat, one_ne_zero, zero_ne_one, false_and, and_false, and_self, if_true, if_false]
  rw [show fbv 3 23 w = d from RoundTrip.field h 5 rfl rfl,
    show fbv 3 20 w = a from RoundTrip.field h 4 rfl rfl,
    show fbv 3 17 w = b from RoundTrip.field h 3 rfl rfl,
    show fbv 3 8 w = g from RoundTrip.field h 1 rfl rfl]

theorem RoundTrip.knot (d : BitVec 3) (a : BitVec 3) (g : BitVec 3) : RoundTrip.Statement (.knot d a g) := by
  refine RoundTrip.ofC [⟨8, 3⟩, ⟨3, g⟩, ⟨9, 0⟩, ⟨3, a⟩, ⟨3, d⟩, ⟨6, 12⟩] rfl rfl ?_ fun w h => ?_
  · show en3 0x30000003 d 23 a 20 g 8 = _
    simp only [en3, en2, en1, RoundTrip.word, BitVec.reduceToNat, Nat.reducePow]; omega
  rw [RoundTrip.to_rawC0C (RoundTrip.range h 5 1 rfl rfl rfl), rawC0C]
  have f0 : fld w 0 8 = 3 := RoundTrip.range h 0 1 rfl rfl rfl
  have f1 : fld w 11 9 = 0 := RoundTrip.range h 2 1 rfl rfl rfl
  simp only [f0, f1, Nat.reduceEqDiff, OfNat.ofNat_ne_zero, OfNat.zero_ne_ofNat, one_ne_zero, zero_ne_one, false_and, and_false, and_self, if_true, if_false]
  rw [show fbv 3 23 w = d from RoundTrip.field h 4 rfl rfl,
    show fbv 3 20 w = a from RoundTrip.field h 3 rfl rfl,
    show fbv 3 8 w = g from RoundTrip.field h 1 rfl rfl]

theorem RoundTrip.faddD (d : BitVec 5) (a : BitVec 5) (b : BitVec 5) (g : BitVec 3) (r : BitVec 2) : RoundTrip.Statement (.faddD d a b g r) := by
  refine RoundTrip.ofC [⟨3, 0⟩, ⟨2, r⟩, ⟨3, 0⟩, ⟨3, g⟩, ⟨5, b⟩, ⟨5, a⟩, ⟨5, d⟩, ⟨6, 16⟩] rfl rfl ?_ fun w h => ?_
  · show en5 0x40000000 d 21 a 16 b 11 g 8 r 3 = _
    simp only [en5, en4, en3, en2, en1, RoundTrip.word, BitVec.reduceToNat, Nat.reducePow]; omega
  rw [RoundTrip.to_rawC10 (RoundTrip.range h 7 1 rfl rfl rfl), rawC10]
  have f0 : fld w 5 3 = 0 := RoundTrip.range h 2 1 rfl rfl rfl
  have f1 : fld w 0 3 = 0 := RoundTrip.range h 0 1 rfl rfl rfl
  simp only [f0, f1, Nat.reduceEqDiff, OfNat.ofNat_ne_zero, OfNat.zero_ne_ofNat, one_ne_zero, zero_ne_one, false_and, and_false, and_self, if_true, if_false]
  rw [show fbv 5 21 w = d from RoundTrip.field h 6 rfl rfl,
    show fbv 5 16 w = a from RoundTrip.field h 5 rfl rfl,
    show fbv 5 11 w = b from RoundTrip.field h 4 rfl rfl,
    show fbv 3 8 w = g from RoundTrip.field h 3 rfl rfl,
    show fbv 2 3 w = r from RoundTrip.field h 1 rfl rfl]

theorem RoundTrip.fsubD (d : BitVec 5) (a : BitVec 5) (b : BitVec 5) (g : BitVec 3) (r : BitVec 2) : RoundTrip.Statement (.fsubD d a b g r) := by
  refine RoundTrip.ofC [⟨3, 1⟩, ⟨2, r⟩, ⟨3, 0⟩, ⟨3, g⟩, ⟨5, b⟩, ⟨5, a⟩, ⟨5, d⟩, ⟨6, 16⟩] rfl rfl ?_ fun w h => ?_
  · show en5 0x40000001 d 21 a 16 b 11 g 8 r 3 = _
    simp only [en5, en4, en3, en2, en1, RoundTrip.word, BitVec.reduceToNat, Nat.reducePow]; omega
  rw [RoundTrip.to_rawC10 (RoundTrip.range h 7 1 rfl rfl rfl), rawC10]
  have f0 : fld w 0 3 = 1 := RoundTrip.range h 0 1 rfl rfl rfl
  have f1 : fld w 5 3 = 0 := RoundTrip.range h 2 1 rfl rfl rfl
  simp only [f0, f1, Nat.reduceEqDiff, OfNat.ofNat_ne_zero, OfNat.zero_ne_ofNat, one_ne_zero, zero_ne_one, false_and, and_false, and_self, if_true, if_false]
  rw [show fbv 5 21 w = d from RoundTrip.field h 6 rfl rfl,
    show fbv 5 16 w = a from RoundTrip.field h 5 rfl rfl,
    show fbv 5 11 w = b from RoundTrip.field h 4 rfl rfl,
    show fbv 3 8 w = g from RoundTrip.field h 3 rfl rfl,
    show fbv 2 3 w = r from RoundTrip.field h 1 rfl rfl]

theorem RoundTrip.fmulD (d : BitVec 5) (a : BitVec 5) (b : BitVec 5) (g : BitVec 3) (r : BitVec 2) : RoundTrip.Statement (.fmulD d a b g r) := by
  refine RoundTrip.ofC [⟨3, 2⟩, ⟨2, r⟩, ⟨3, 0⟩, ⟨3, g⟩, ⟨5, b⟩, ⟨5, a⟩, ⟨5, d⟩, ⟨6, 16⟩] rfl rfl ?_ fun w h => ?_
  · show en5 0x40000002 d 21 a 16 b 11 g 8 r 3 = _
    simp only [en5, en4, en3, en2, en1, RoundTrip.word, BitVec.reduceToNat, Nat.reducePow]; omega
  rw [RoundTrip.to_rawC10 (RoundTrip.range h 7 1 rfl rfl rfl), rawC10]
  have f0 : fld w 0 3 = 2 := RoundTrip.range h 0 1 rfl rfl rfl
  have f1 : fld w 5 3 = 0 := RoundTrip.range h 2 1 rfl rfl rfl
  simp only [f0, f1, Nat.reduceEqDiff, OfNat.ofNat_ne_zero, OfNat.zero_ne_ofNat, one_ne_zero, zero_ne_one, false_and, and_false, and_self, if_true, if_false]
  rw [show fbv 5 21 w = d from RoundTrip.field h 6 rfl rfl,
    show fbv 5 16 w = a from RoundTrip.field h 5 rfl rfl,
    show fbv 5 11 w = b from RoundTrip.field h 4 rfl rfl,
    show fbv 3 8 w = g from RoundTrip.field h 3 rfl rfl,
    show fbv 2 3 w = r from RoundTrip.field h 1 rfl rfl]

theorem RoundTrip.fdivD (d : BitVec 5) (a : BitVec 5) (b : BitVec 5) (g : BitVec 3) (r : BitVec 2) : RoundTrip.Statement (.fdivD d a b g r) := by
  refine RoundTrip.ofC [⟨3, 3⟩, ⟨2, r⟩, ⟨3, 0⟩, ⟨3, g⟩, ⟨5, b⟩, ⟨5, a⟩, ⟨5, d⟩, ⟨6, 16⟩] rfl rfl ?_ fun w h => ?_
  · show en5 0x40000003 d 21 a 16 b 11 g 8 r 3 = _
    simp only [en5, en4, en3, en2, en1, RoundTrip.word, BitVec.reduceToNat, Nat.reducePow]; omega
  rw [RoundTrip.to_rawC10 (RoundTrip.range h 7 1 rfl rfl rfl), rawC10]
  have f0 : fld w 0 3 = 3 := RoundTrip.range h 0 1 rfl rfl rfl
  have f1 : fld w 5 3 = 0 := RoundTrip.range h 2 1 rfl rfl rfl
  simp only [f0, f1, Nat.reduceEqDiff, OfNat.ofNat_ne_zero, OfNat.zero_ne_ofNat, one_ne_zero, zero_ne_one, false_and, and_false, and_self, if_true, if_false]
  rw [show fbv 5 21 w = d from RoundTrip.field h 6 rfl rfl,
    show fbv 5 16 w = a from RoundTrip.field h 5 rfl rfl,
    show fbv 5 11 w = b from RoundTrip.field h 4 rfl rfl,
    show fbv 3 8 w = g from RoundTrip.field h 3 rfl rfl,
    show fbv 2 3 w = r from RoundTrip.field h 1 rfl rfl]

theorem RoundTrip.fminD (d : BitVec 5) (a : BitVec 5) (b : BitVec 5) (g : BitVec 3) : RoundTrip.Statement (.fminD d a b g) := by
  refine RoundTrip.ofC [⟨3, 4⟩, ⟨5, 0⟩, ⟨3, g⟩, ⟨5, b⟩, ⟨5, a⟩, ⟨5, d⟩, ⟨6, 16⟩] rfl rfl ?_ fun w h => ?_
  · show en4 0x40000004 d 21 a 16 b 11 g 8 = _
    simp only [en4, en3, en2, en1, RoundTrip.word, BitVec.reduceToNat, Nat.reducePow]; omega
  rw [RoundTrip.to_rawC10 (RoundTrip.range h 6 1 rfl rfl rfl), rawC10]
  have f0 : fld w 0 3 = 4 := RoundTrip.range h 0 1 rfl rfl rfl
  have f1 : fld w 0 8 = 4 := RoundTrip.range h 0 2 rfl rfl rfl
  simp only [f0, f1, Nat.reduceEqDiff, OfNat.ofNat_ne_zero, OfNat.zero_ne_ofNat, one_ne_zero, zero_ne_one, false_and, and_false, and_self, if_true, if_false]
  rw [show fbv 5 21 w = d from RoundTrip.field h 5 rfl rfl,
    show fbv 5 16 w = a from RoundTrip.field h 4 rfl rfl,
    show fbv 5 11 w = b from RoundTrip.field h 3 rfl rfl,
    show fbv 3 8 w = g from RoundTrip.field h 2 rfl rfl]

theorem RoundTrip.fmaxD (d : BitVec 5) (a : BitVec 5) (b : BitVec 5) (g : BitVec 3) : RoundTrip.Statement (.fmaxD d a b g) := by
  refine RoundTrip.ofC [⟨3, 5⟩, ⟨5, 0⟩, ⟨3, g⟩, ⟨5, b⟩, ⟨5, a⟩, ⟨5, d⟩, ⟨6, 16⟩] rfl rfl ?_ fun w h => ?_
  · show en4 0x40000005 d 21 a 16 b 11 g 8 = _
    simp only [en4, en3, en2, en1, RoundTrip.word, BitVec.reduceToNat, Nat.reducePow]; omega
  rw [RoundTrip.to_rawC10 (RoundTrip.range h 6 1 rfl rfl rfl), rawC10]
  have f0 : fld w 0 3 = 5 := RoundTrip.range h 0 1 rfl rfl rfl
  have f1 : fld w 0 8 = 5 := RoundTrip.range h 0 2 rfl rfl rfl
  simp only [f0, f1, Nat.reduceEqDiff, OfNat.ofNat_ne_zero, OfNat.zero_ne_ofNat, one_ne_zero, zero_ne_one, false_and, and_false, and_self, if_true, if_false]
  rw [show fbv 5 21 w = d from RoundTrip.field h 5 rfl rfl,
    show fbv 5 16 w = a from RoundTrip.field h 4 rfl rfl,
    show fbv 5 11 w = b from RoundTrip.field h 3 rfl rfl,
    show fbv 3 8 w = g from RoundTrip.field h 2 rfl rfl]

theorem RoundTrip.fsqrtD (d : BitVec 5) (a : BitVec 5) (g : BitVec 3) (r : BitVec 2) : RoundTrip.Statement (.fsqrtD d a g r) := by
  refine RoundTrip.ofC [⟨3, 0⟩, ⟨2, r⟩, ⟨3, 0⟩, ⟨3, g⟩, ⟨5, 0⟩, ⟨5, a⟩, ⟨5, d⟩, ⟨6, 17⟩] rfl rfl ?_ fun w h => ?_
  · show en4 0x44000000 d 21 a 16 g 8 r 3 = _
    simp only [en4, en3, en2, en1, RoundTrip.word, BitVec.reduceToNat, Nat.reducePow]; omega
  rw [RoundTrip.to_rawC11 (RoundTrip.range h 7 1 rfl rfl rfl), rawC11]
  have f0 : fld w 11 5 = 0 := RoundTrip.range h 4 1 rfl rfl rfl
  have f1 : fld w 5 3 = 0 := RoundTrip.range h 2 1 rfl rfl rfl
  have f2 : fld w 0 3 = 0 := RoundTrip.range h 0 1 rfl rfl rfl
  simp only [f0, f1, f2, Nat.reduceEqDiff, OfNat.ofNat_ne_zero, OfNat.zero_ne_ofNat, one_ne_zero, zero_ne_one, false_and, and_false, and_self, if_true, if_false]
  rw [show fbv 5 21 w = d from RoundTrip.field h 6 rfl rfl,
    show fbv 5 16 w = a from RoundTrip.field h 5 rfl rfl,
    show fbv 3 8 w = g from RoundTrip.field h 3 rfl rfl,
    show fbv 2 3 w = r from RoundTrip.field h 1 rfl rfl]

theorem RoundTrip.ffmaD (d : BitVec 5) (a : BitVec 5) (b : BitVec 5) (g : BitVec 3) (c : BitVec 5) (r : BitVec 2) : RoundTrip.Statement (.ffmaD d a b g c r) := by
  refine RoundTrip.ofC [⟨2, r⟩, ⟨1, 0⟩, ⟨5, c⟩, ⟨3, g⟩, ⟨5, b⟩, ⟨5, a⟩, ⟨5, d⟩, ⟨6, 18⟩] rfl rfl ?_ fun w h => ?_
  · show en6 0x48000000 d 21 a 16 b 11 g 8 c 3 r 0 = _
    simp only [en6, en5, en4, en3, en2, en1, RoundTrip.word, BitVec.reduceToNat, Nat.reducePow]; omega
  rw [RoundTrip.to_rawC12 (RoundTrip.range h 7 1 rfl rfl rfl), rawC12]
  have f0 : fld w 2 1 = 0 := RoundTrip.range h 1 1 rfl rfl rfl
  simp only [f0, Nat.reduceEqDiff, OfNat.ofNat_ne_zero, OfNat.zero_ne_ofNat, one_ne_zero, zero_ne_one, false_and, and_false, and_self, if_true, if_false]
  rw [show fbv 5 21 w = d from RoundTrip.field h 6 rfl rfl,
    show fbv 5 16 w = a from RoundTrip.field h 5 rfl rfl,
    show fbv 5 11 w = b from RoundTrip.field h 4 rfl rfl,
    show fbv 3 8 w = g from RoundTrip.field h 3 rfl rfl,
    show fbv 5 3 w = c from RoundTrip.field h 2 rfl rfl,
    show fbv 2 0 w = r from RoundTrip.field h 0 rfl rfl]

theorem RoundTrip.fcmpD (k : BitVec 3) (a : BitVec 5) (b : BitVec 5) (g : BitVec 3) (c : BitVec 3) : RoundTrip.Statement (.fcmpD k a b g c) := by
  refine RoundTrip.ofC [⟨3, c⟩, ⟨5, 0⟩, ⟨3, g⟩, ⟨5, b⟩, ⟨5, a⟩, ⟨3, k⟩, ⟨2, 0⟩, ⟨6, 19⟩] rfl rfl ?_ fun w h => ?_
  · show en5 0x4C000000 k 21 a 16 b 11 g 8 c 0 = _
    simp only [en5, en4, en3, en2, en1, RoundTrip.word, BitVec.reduceToNat, Nat.reducePow]; omega
  rw [RoundTrip.to_rawC13 (RoundTrip.range h 7 1 rfl rfl rfl), rawC13]
  have f0 : fld w 24 2 = 0 := RoundTrip.range h 6 1 rfl rfl rfl
  have f1 : fld w 3 5 = 0 := RoundTrip.range h 1 1 rfl rfl rfl
  simp only [f0, f1, Nat.reduceEqDiff, OfNat.ofNat_ne_zero, OfNat.zero_ne_ofNat, one_ne_zero, zero_ne_one, false_and, and_false, and_self, if_true, if_false]
  rw [show fbv 3 21 w = k from RoundTrip.field h 5 rfl rfl,
    show fbv 5 16 w = a from RoundTrip.field h 4 rfl rfl,
    show fbv 5 11 w = b from RoundTrip.field h 3 rfl rfl,
    show fbv 3 8 w = g from RoundTrip.field h 2 rfl rfl,
    show fbv 3 0 w = c from RoundTrip.field h 0 rfl rfl]

theorem RoundTrip.fcvtDI (d : BitVec 5) (a : BitVec 5) (g : BitVec 3) (r : BitVec 2) : RoundTrip.Statement (.fcvtDI d a g r) := by
  refine RoundTrip.ofC [⟨3, 0⟩, ⟨2, r⟩, ⟨3, 0⟩, ⟨3, g⟩, ⟨5, 0⟩, ⟨5, a⟩, ⟨5, d⟩, ⟨6, 20⟩] rfl rfl ?_ fun w h => ?_
  · show en4 0x50000000 d 21 a 16 g 8 r 3 = _
    simp only [en4, en3, en2, en1, RoundTrip.word, BitVec.reduceToNat, Nat.reducePow]; omega
  rw [RoundTrip.to_rawC14 (RoundTrip.range h 7 1 rfl rfl rfl), rawC14]
  have f0 : fld w 11 5 = 0 := RoundTrip.range h 4 1 rfl rfl rfl
  have f1 : fld w 5 3 = 0 := RoundTrip.range h 2 1 rfl rfl rfl
  have f2 : fld w 0 3 = 0 := RoundTrip.range h 0 1 rfl rfl rfl
  simp only [f0, f1, f2, Nat.reduceEqDiff, OfNat.ofNat_ne_zero, OfNat.zero_ne_ofNat, one_ne_zero, zero_ne_one, false_and, and_false, and_self, if_true, if_false]
  rw [show fbv 5 21 w = d from RoundTrip.field h 6 rfl rfl,
    show fbv 5 16 w = a from RoundTrip.field h 5 rfl rfl,
    show fbv 3 8 w = g from RoundTrip.field h 3 rfl rfl,
    show fbv 2 3 w = r from RoundTrip.field h 1 rfl rfl]

theorem RoundTrip.fcvtDN (d : BitVec 5) (a : BitVec 5) (g : BitVec 3) (r : BitVec 2) : RoundTrip.Statement (.fcvtDN d a g r) := by
  refine RoundTrip.ofC [⟨3, 1⟩, ⟨2, r⟩, ⟨3, 0⟩, ⟨3, g⟩, ⟨5, 0⟩, ⟨5, a⟩, ⟨5, d⟩, ⟨6, 20⟩] rfl rfl ?_ fun w h => ?_
  · show en4 0x50000001 d 21 a 16 g 8 r 3 = _
    simp only [en4, en3, en2, en1, RoundTrip.word, BitVec.reduceToNat, Nat.reducePow]; omega
  rw [RoundTrip.to_rawC14 (RoundTrip.range h 7 1 rfl rfl rfl), rawC14]
  have f0 : fld w 0 3 = 1 := RoundTrip.range h 0 1 rfl rfl rfl
  have f1 : fld w 11 5 = 0 := RoundTrip.range h 4 1 rfl rfl rfl
  have f2 : fld w 5 3 = 0 := RoundTrip.range h 2 1 rfl rfl rfl
  simp only [f0, f1, f2, Nat.reduceEqDiff, OfNat.ofNat_ne_zero, OfNat.zero_ne_ofNat, one_ne_zero, zero_ne_one, false_and, and_false, and_self, if_true, if_false]
  rw [show fbv 5 21 w = d from RoundTrip.field h 6 rfl rfl,
    show fbv 5 16 w = a from RoundTrip.field h 5 rfl rfl,
    show fbv 3 8 w = g from RoundTrip.field h 3 rfl rfl,
    show fbv 2 3 w = r from RoundTrip.field h 1 rfl rfl]

theorem RoundTrip.fcvtID (d : BitVec 5) (a : BitVec 5) (g : BitVec 3) (r : BitVec 2) : RoundTrip.Statement (.fcvtID d a g r) := by
  refine RoundTrip.ofC [⟨3, 2⟩, ⟨2, r⟩, ⟨3, 0⟩, ⟨3, g⟩, ⟨5, 0⟩, ⟨5, a⟩, ⟨5, d⟩, ⟨6, 20⟩] rfl rfl ?_ fun w h => ?_
  · show en4 0x50000002 d 21 a 16 g 8 r 3 = _
    simp only [en4, en3, en2, en1, RoundTrip.word, BitVec.reduceToNat, Nat.reducePow]; omega
  rw [RoundTrip.to_rawC14 (RoundTrip.range h 7 1 rfl rfl rfl), rawC14]
  have f0 : fld w 0 3 = 2 := RoundTrip.range h 0 1 rfl rfl rfl
  have f1 : fld w 11 5 = 0 := RoundTrip.range h 4 1 rfl rfl rfl
  have f2 : fld w 5 3 = 0 := RoundTrip.range h 2 1 rfl rfl rfl
  simp only [f0, f1, f2, Nat.reduceEqDiff, OfNat.ofNat_ne_zero, OfNat.zero_ne_ofNat, one_ne_zero, zero_ne_one, false_and, and_false, and_self, if_true, if_false]
  rw [show fbv 5 21 w = d from RoundTrip.field h 6 rfl rfl,
    show fbv 5 16 w = a from RoundTrip.field h 5 rfl rfl,
    show fbv 3 8 w = g from RoundTrip.field h 3 rfl rfl,
    show fbv 2 3 w = r from RoundTrip.field h 1 rfl rfl]

theorem RoundTrip.fcvtND (d : BitVec 5) (a : BitVec 5) (g : BitVec 3) (r : BitVec 2) : RoundTrip.Statement (.fcvtND d a g r) := by
  refine RoundTrip.ofC [⟨3, 3⟩, ⟨2, r⟩, ⟨3, 0⟩, ⟨3, g⟩, ⟨5, 0⟩, ⟨5, a⟩, ⟨5, d⟩, ⟨6, 20⟩] rfl rfl ?_ fun w h => ?_
  · show en4 0x50000003 d 21 a 16 g 8 r 3 = _
    simp only [en4, en3, en2, en1, RoundTrip.word, BitVec.reduceToNat, Nat.reducePow]; omega
  rw [RoundTrip.to_rawC14 (RoundTrip.range h 7 1 rfl rfl rfl), rawC14]
  have f0 : fld w 0 3 = 3 := RoundTrip.range h 0 1 rfl rfl rfl
  have f1 : fld w 11 5 = 0 := RoundTrip.range h 4 1 rfl rfl rfl
  have f2 : fld w 5 3 = 0 := RoundTrip.range h 2 1 rfl rfl rfl
  simp only [f0, f1, f2, Nat.reduceEqDiff, OfNat.ofNat_ne_zero, OfNat.zero_ne_ofNat, one_ne_zero, zero_ne_one, false_and, and_false, and_self, if_true, if_false]
  rw [show fbv 5 21 w = d from RoundTrip.field h 6 rfl rfl,
    show fbv 5 16 w = a from RoundTrip.field h 5 rfl rfl,
    show fbv 3 8 w = g from RoundTrip.field h 3 rfl rfl,
    show fbv 2 3 w = r from RoundTrip.field h 1 rfl rfl]

theorem RoundTrip.fcvtDS (d : BitVec 5) (a : BitVec 5) (g : BitVec 3) : RoundTrip.Statement (.fcvtDS d a g) := by
  refine RoundTrip.ofC [⟨3, 4⟩, ⟨5, 0⟩, ⟨3, g⟩, ⟨5, 0⟩, ⟨5, a⟩, ⟨5, d⟩, ⟨6, 20⟩] rfl rfl ?_ fun w h => ?_
  · show en3 0x50000004 d 21 a 16 g 8 = _
    simp only [en3, en2, en1, RoundTrip.word, BitVec.reduceToNat, Nat.reducePow]; omega
  rw [RoundTrip.to_rawC14 (RoundTrip.range h 6 1 rfl rfl rfl), rawC14]
  have f0 : fld w 0 3 = 4 := RoundTrip.range h 0 1 rfl rfl rfl
  have f1 : fld w 11 5 = 0 := RoundTrip.range h 3 1 rfl rfl rfl
  have f2 : fld w 0 8 = 4 := RoundTrip.range h 0 2 rfl rfl rfl
  simp only [f0, f1, f2, Nat.reduceEqDiff, OfNat.ofNat_ne_zero, OfNat.zero_ne_ofNat, one_ne_zero, zero_ne_one, false_and, and_false, and_self, if_true, if_false]
  rw [show fbv 5 21 w = d from RoundTrip.field h 5 rfl rfl,
    show fbv 5 16 w = a from RoundTrip.field h 4 rfl rfl,
    show fbv 3 8 w = g from RoundTrip.field h 2 rfl rfl]

theorem RoundTrip.fcvtSD (d : BitVec 5) (a : BitVec 5) (g : BitVec 3) (r : BitVec 2) : RoundTrip.Statement (.fcvtSD d a g r) := by
  refine RoundTrip.ofC [⟨3, 5⟩, ⟨2, r⟩, ⟨3, 0⟩, ⟨3, g⟩, ⟨5, 0⟩, ⟨5, a⟩, ⟨5, d⟩, ⟨6, 20⟩] rfl rfl ?_ fun w h => ?_
  · show en4 0x50000005 d 21 a 16 g 8 r 3 = _
    simp only [en4, en3, en2, en1, RoundTrip.word, BitVec.reduceToNat, Nat.reducePow]; omega
  rw [RoundTrip.to_rawC14 (RoundTrip.range h 7 1 rfl rfl rfl), rawC14]
  have f0 : fld w 0 3 = 5 := RoundTrip.range h 0 1 rfl rfl rfl
  have f1 : fld w 11 5 = 0 := RoundTrip.range h 4 1 rfl rfl rfl
  have f2 : fld w 5 3 = 0 := RoundTrip.range h 2 1 rfl rfl rfl
  have g4 : ¬(fld w 0 8 = 4) := by unfold fld at *; omega
  simp only [g4, f0, f1, f2, Nat.reduceEqDiff, OfNat.ofNat_ne_zero, OfNat.zero_ne_ofNat, one_ne_zero, zero_ne_one, false_and, and_false, and_self, if_true, if_false]
  rw [show fbv 5 21 w = d from RoundTrip.field h 6 rfl rfl,
    show fbv 5 16 w = a from RoundTrip.field h 5 rfl rfl,
    show fbv 3 8 w = g from RoundTrip.field h 3 rfl rfl,
    show fbv 2 3 w = r from RoundTrip.field h 1 rfl rfl]

theorem RoundTrip.br (o : BitVec 26) : RoundTrip.Statement (.br o) := by
  refine RoundTrip.ofC [⟨26, o⟩, ⟨6, 24⟩] rfl rfl ?_ fun w h => ?_
  · show en1 0x60000000 o 0 = _
    simp only [en1, RoundTrip.word, BitVec.reduceToNat, Nat.reducePow]; omega
  rw [RoundTrip.to_rawC18 (RoundTrip.range h 1 1 rfl rfl rfl), rawC18]
  rw [show fbv 26 0 w = o from RoundTrip.field h 0 rfl rfl]

theorem RoundTrip.brk (k : BitVec 3) (o : BitVec 23) : RoundTrip.Statement (.brk k o) := by
  refine RoundTrip.ofC [⟨23, o⟩, ⟨3, k⟩, ⟨6, 25⟩] rfl rfl ?_ fun w h => ?_
  · show en2 0x64000000 k 23 o 0 = _
    simp only [en2, en1, RoundTrip.word, BitVec.reduceToNat, Nat.reducePow]; omega
  rw [RoundTrip.to_rawC19 (RoundTrip.range h 2 1 rfl rfl rfl), rawC19]
  rw [show fbv 3 23 w = k from RoundTrip.field h 1 rfl rfl,
    show fbv 23 0 w = o from RoundTrip.field h 0 rfl rfl]

theorem RoundTrip.brnk (k : BitVec 3) (o : BitVec 23) : RoundTrip.Statement (.brnk k o) := by
  refine RoundTrip.ofC [⟨23, o⟩, ⟨3, k⟩, ⟨6, 26⟩] rfl rfl ?_ fun w h => ?_
  · show en2 0x68000000 k 23 o 0 = _
    simp only [en2, en1, RoundTrip.word, BitVec.reduceToNat, Nat.reducePow]; omega
  rw [RoundTrip.to_rawC1A (RoundTrip.range h 2 1 rfl rfl rfl), rawC1A]
  rw [show fbv 3 23 w = k from RoundTrip.field h 1 rfl rfl,
    show fbv 23 0 w = o from RoundTrip.field h 0 rfl rfl]

theorem RoundTrip.jr (d : BitVec 5) (a : BitVec 5) (g : BitVec 3) : RoundTrip.Statement (.jr d a g) := by
  refine RoundTrip.ofC [⟨8, 0⟩, ⟨3, g⟩, ⟨5, 0⟩, ⟨5, a⟩, ⟨5, d⟩, ⟨6, 27⟩] rfl rfl ?_ fun w h => ?_
  · show en3 0x6C000000 d 21 a 16 g 8 = _
    simp only [en3, en2, en1, RoundTrip.word, BitVec.reduceToNat, Nat.reducePow]; omega
  rw [RoundTrip.to_rawC1B (RoundTrip.range h 5 1 rfl rfl rfl), rawC1B]
  have f0 : fld w 11 5 = 0 := RoundTrip.range h 2 1 rfl rfl rfl
  have f1 : fld w 0 8 = 0 := RoundTrip.range h 0 1 rfl rfl rfl
  simp only [f0, f1, Nat.reduceEqDiff, OfNat.ofNat_ne_zero, OfNat.zero_ne_ofNat, one_ne_zero, zero_ne_one, false_and, and_false, and_self, if_true, if_false]
  rw [show fbv 5 21 w = d from RoundTrip.field h 4 rfl rfl,
    show fbv 5 16 w = a from RoundTrip.field h 3 rfl rfl,
    show fbv 3 8 w = g from RoundTrip.field h 1 rfl rfl]

theorem RoundTrip.call (o : BitVec 26) : RoundTrip.Statement (.call o) := by
  refine RoundTrip.ofC [⟨26, o⟩, ⟨6, 28⟩] rfl rfl ?_ fun w h => ?_
  · show en1 0x70000000 o 0 = _
    simp only [en1, RoundTrip.word, BitVec.reduceToNat, Nat.reducePow]; omega
  rw [RoundTrip.to_rawC1C (RoundTrip.range h 1 1 rfl rfl rfl), rawC1C]
  rw [show fbv 26 0 w = o from RoundTrip.field h 0 rfl rfl]

theorem RoundTrip.ret (g : BitVec 3) : RoundTrip.Statement (.ret g) := by
  refine RoundTrip.ofC [⟨8, 0⟩, ⟨3, g⟩, ⟨15, 0⟩, ⟨6, 29⟩] rfl rfl ?_ fun w h => ?_
  · show en1 0x74000000 g 8 = _
    simp only [en1, RoundTrip.word, BitVec.reduceToNat, Nat.reducePow]; omega
  rw [RoundTrip.to_rawC1D (RoundTrip.range h 3 1 rfl rfl rfl), rawC1D]
  have f0 : fld w 11 15 = 0 := RoundTrip.range h 2 1 rfl rfl rfl
  have f1 : fld w 0 8 = 0 := RoundTrip.range h 0 1 rfl rfl rfl
  simp only [f0, f1, Nat.reduceEqDiff, OfNat.ofNat_ne_zero, OfNat.zero_ne_ofNat, one_ne_zero, zero_ne_one, false_and, and_false, and_self, if_true, if_false]
  rw [show fbv 3 8 w = g from RoundTrip.field h 1 rfl rfl]

theorem RoundTrip.loop (a : BitVec 5) (o : BitVec 21) : RoundTrip.Statement (.loop a o) := by
  refine RoundTrip.ofC [⟨21, o⟩, ⟨5, a⟩, ⟨6, 30⟩] rfl rfl ?_ fun w h => ?_
  · show en2 0x78000000 a 21 o 0 = _
    simp only [en2, en1, RoundTrip.word, BitVec.reduceToNat, Nat.reducePow]; omega
  rw [RoundTrip.to_rawC1E (RoundTrip.range h 2 1 rfl rfl rfl), rawC1E]
  rw [show fbv 5 21 w = a from RoundTrip.field h 1 rfl rfl,
    show fbv 21 0 w = o from RoundTrip.field h 0 rfl rfl]

theorem RoundTrip.xcV (d : BitVec 5) (v : BitVec 6) (l : BitVec 7) : RoundTrip.Statement (.xcV d v l) := by
  refine RoundTrip.ofC [⟨8, 0⟩, ⟨7, l⟩, ⟨6, v⟩, ⟨5, d⟩, ⟨6, 32⟩] rfl rfl ?_ fun w h => ?_
  · show en3 0x80000000 d 21 v 15 l 8 = _
    simp only [en3, en2, en1, RoundTrip.word, BitVec.reduceToNat, Nat.reducePow]; omega
  rw [RoundTrip.to_rawC20 (RoundTrip.range h 4 1 rfl rfl rfl), rawC20]
  have f0 : fld w 0 8 = 0 := RoundTrip.range h 0 1 rfl rfl rfl
  simp only [f0, Nat.reduceEqDiff, OfNat.ofNat_ne_zero, OfNat.zero_ne_ofNat, one_ne_zero, zero_ne_one, false_and, and_false, and_self, if_true, if_false]
  rw [show fbv 5 21 w = d from RoundTrip.field h 3 rfl rfl,
    show fbv 6 15 w = v from RoundTrip.field h 2 rfl rfl,
    show fbv 7 8 w = l from RoundTrip.field h 1 rfl rfl]

theorem RoundTrip.xcA (d : BitVec 5) (a : BitVec 4) : RoundTrip.Statement (.xcA d a) := by
  refine RoundTrip.ofC [⟨17, 0⟩, ⟨4, a⟩, ⟨5, d⟩, ⟨6, 33⟩] rfl rfl ?_ fun w h => ?_
  · show en2 0x84000000 d 21 a 17 = _
    simp only [en2, en1, RoundTrip.word, BitVec.reduceToNat, Nat.reducePow]; omega
  rw [RoundTrip.to_rawC21 (RoundTrip.range h 3 1 rfl rfl rfl), rawC21]
  have f0 : fld w 0 17 = 0 := RoundTrip.range h 0 1 rfl rfl rfl
  simp only [f0, Nat.reduceEqDiff, OfNat.ofNat_ne_zero, OfNat.zero_ne_ofNat, one_ne_zero, zero_ne_one, false_and, and_false, and_self, if_true, if_false]
  rw [show fbv 5 21 w = d from RoundTrip.field h 2 rfl rfl,
    show fbv 4 17 w = a from RoundTrip.field h 1 rfl rfl]

theorem RoundTrip.xcM (d : BitVec 5) (k : BitVec 2) (r : BitVec 3) (q : BitVec 4) : RoundTrip.Statement (.xcM d k r q) := by
  refine RoundTrip.ofC [⟨12, 0⟩, ⟨4, q⟩, ⟨3, r⟩, ⟨2, k⟩, ⟨5, d⟩, ⟨6, 34⟩] rfl rfl ?_ fun w h => ?_
  · show en4 0x88000000 d 21 k 19 r 16 q 12 = _
    simp only [en4, en3, en2, en1, RoundTrip.word, BitVec.reduceToNat, Nat.reducePow]; omega
  rw [RoundTrip.to_rawC22 (RoundTrip.range h 5 1 rfl rfl rfl), rawC22]
  have f0 : fld w 0 12 = 0 := RoundTrip.range h 0 1 rfl rfl rfl
  simp only [f0, Nat.reduceEqDiff, OfNat.ofNat_ne_zero, OfNat.zero_ne_ofNat, one_ne_zero, zero_ne_one, false_and, and_false, and_self, if_true, if_false]
  rw [show fbv 5 21 w = d from RoundTrip.field h 4 rfl rfl,
    show fbv 2 19 w = k from RoundTrip.field h 3 rfl rfl,
    show fbv 3 16 w = r from RoundTrip.field h 2 rfl rfl,
    show fbv 4 12 w = q from RoundTrip.field h 1 rfl rfl]

theorem RoundTrip.xcG (d : BitVec 5) (g : BitVec 2) : RoundTrip.Statement (.xcG d g) := by
  refine RoundTrip.ofC [⟨16, 0⟩, ⟨2, g⟩, ⟨3, 0⟩, ⟨5, d⟩, ⟨6, 35⟩] rfl rfl ?_ fun w h => ?_
  · show en2 0x8C000000 d 21 g 16 = _
    simp only [en2, en1, RoundTrip.word, BitVec.reduceToNat, Nat.reducePow]; omega
  rw [RoundTrip.to_rawC23 (RoundTrip.range h 4 1 rfl rfl rfl), rawC23]
  have f0 : fld w 18 3 = 0 := RoundTrip.range h 2 1 rfl rfl rfl
  have f1 : fld w 0 16 = 0 := RoundTrip.range h 0 1 rfl rfl rfl
  simp only [f0, f1, Nat.reduceEqDiff, OfNat.ofNat_ne_zero, OfNat.zero_ne_ofNat, one_ne_zero, zero_ne_one, false_and, and_false, and_self, if_true, if_false]
  rw [show fbv 5 21 w = d from RoundTrip.field h 3 rfl rfl,
    show fbv 2 16 w = g from RoundTrip.field h 1 rfl rfl]

theorem RoundTrip.xcH (d : BitVec 5) (h0 : BitVec 4) (q : BitVec 1) : RoundTrip.Statement (.xcH d h0 q) := by
  refine RoundTrip.ofC [⟨16, 0⟩, ⟨1, q⟩, ⟨4, h0⟩, ⟨5, d⟩, ⟨6, 36⟩] rfl rfl ?_ fun w h => ?_
  · show en3 0x90000000 d 21 h0 17 q 16 = _
    simp only [en3, en2, en1, RoundTrip.word, BitVec.reduceToNat, Nat.reducePow]; omega
  rw [RoundTrip.to_rawC24 (RoundTrip.range h 4 1 rfl rfl rfl), rawC24]
  have f0 : fld w 0 16 = 0 := RoundTrip.range h 0 1 rfl rfl rfl
  simp only [f0, Nat.reduceEqDiff, OfNat.ofNat_ne_zero, OfNat.zero_ne_ofNat, one_ne_zero, zero_ne_one, false_and, and_false, and_self, if_true, if_false]
  rw [show fbv 5 21 w = d from RoundTrip.field h 3 rfl rfl,
    show fbv 4 17 w = h0 from RoundTrip.field h 2 rfl rfl,
    show fbv 1 16 w = q from RoundTrip.field h 1 rfl rfl]

theorem RoundTrip.srd (d : BitVec 5) (s : BitVec 12) : RoundTrip.Statement (.srd d s) := by
  refine RoundTrip.ofC [⟨9, 0⟩, ⟨12, s⟩, ⟨5, d⟩, ⟨6, 37⟩] rfl rfl ?_ fun w h => ?_
  · show en2 0x94000000 d 21 s 9 = _
    simp only [en2, en1, RoundTrip.word, BitVec.reduceToNat, Nat.reducePow]; omega
  rw [RoundTrip.to_rawC25 (RoundTrip.range h 3 1 rfl rfl rfl), rawC25]
  have f0 : fld w 0 9 = 0 := RoundTrip.range h 0 1 rfl rfl rfl
  simp only [f0, Nat.reduceEqDiff, OfNat.ofNat_ne_zero, OfNat.zero_ne_ofNat, one_ne_zero, zero_ne_one, false_and, and_false, and_self, if_true, if_false]
  rw [show fbv 5 21 w = d from RoundTrip.field h 2 rfl rfl,
    show fbv 12 9 w = s from RoundTrip.field h 1 rfl rfl]

theorem RoundTrip.swr (a : BitVec 5) (s : BitVec 12) : RoundTrip.Statement (.swr a s) := by
  refine RoundTrip.ofC [⟨9, 0⟩, ⟨12, s⟩, ⟨5, a⟩, ⟨6, 38⟩] rfl rfl ?_ fun w h => ?_
  · show en2 0x98000000 a 21 s 9 = _
    simp only [en2, en1, RoundTrip.word, BitVec.reduceToNat, Nat.reducePow]; omega
  rw [RoundTrip.to_rawC26 (RoundTrip.range h 3 1 rfl rfl rfl), rawC26]
  have f0 : fld w 0 9 = 0 := RoundTrip.range h 0 1 rfl rfl rfl
  simp only [f0, Nat.reduceEqDiff, OfNat.ofNat_ne_zero, OfNat.zero_ne_ofNat, one_ne_zero, zero_ne_one, false_and, and_false, and_self, if_true, if_false]
  rw [show fbv 5 21 w = a from RoundTrip.field h 2 rfl rfl,
    show fbv 12 9 w = s from RoundTrip.field h 1 rfl rfl]

theorem RoundTrip.wait (l : BitVec 6) (s : BitVec 6) (c : BitVec 6) (t : BitVec 6) : RoundTrip.Statement (.wait l s c t) := by
  refine RoundTrip.ofC [⟨2, 0⟩, ⟨6, t⟩, ⟨6, c⟩, ⟨6, s⟩, ⟨6, l⟩, ⟨6, 40⟩] rfl rfl ?_ fun w h => ?_
  · show en4 0xA0000000 l 20 s 14 c 8 t 2 = _
    simp only [en4, en3, en2, en1, RoundTrip.word, BitVec.reduceToNat, Nat.reducePow]; omega
  rw [RoundTrip.to_rawC28 (RoundTrip.range h 5 1 rfl rfl rfl), rawC28]
  have f0 : fld w 0 2 = 0 := RoundTrip.range h 0 1 rfl rfl rfl
  simp only [f0, Nat.reduceEqDiff, OfNat.ofNat_ne_zero, OfNat.zero_ne_ofNat, one_ne_zero, zero_ne_one, false_and, and_false, and_self, if_true, if_false]
  rw [show fbv 6 20 w = l from RoundTrip.field h 4 rfl rfl,
    show fbv 6 14 w = s from RoundTrip.field h 3 rfl rfl,
    show fbv 6 8 w = c from RoundTrip.field h 2 rfl rfl,
    show fbv 6 2 w = t from RoundTrip.field h 1 rfl rfl]

theorem RoundTrip.fence (a : BitVec 6) (b : BitVec 6) : RoundTrip.Statement (.fence a b) := by
  refine RoundTrip.ofC [⟨14, 0⟩, ⟨6, b⟩, ⟨6, a⟩, ⟨6, 41⟩] rfl rfl ?_ fun w h => ?_
  · show en2 0xA4000000 a 20 b 14 = _
    simp only [en2, en1, RoundTrip.word, BitVec.reduceToNat, Nat.reducePow]; omega
  rw [RoundTrip.to_rawC29 (RoundTrip.range h 3 1 rfl rfl rfl), rawC29]
  have f0 : fld w 0 14 = 0 := RoundTrip.range h 0 1 rfl rfl rfl
  simp only [f0, Nat.reduceEqDiff, OfNat.ofNat_ne_zero, OfNat.zero_ne_ofNat, one_ne_zero, zero_ne_one, false_and, and_false, and_self, if_true, if_false]
  rw [show fbv 6 20 w = a from RoundTrip.field h 2 rfl rfl,
    show fbv 6 14 w = b from RoundTrip.field h 1 rfl rfl]

theorem RoundTrip.drain (s : BitVec 3) (k : BitVec 2) : RoundTrip.Statement (.drain s k) := by
  refine RoundTrip.ofC [⟨21, 0⟩, ⟨2, k⟩, ⟨3, s⟩, ⟨6, 42⟩] rfl rfl ?_ fun w h => ?_
  · show en2 0xA8000000 s 23 k 21 = _
    simp only [en2, en1, RoundTrip.word, BitVec.reduceToNat, Nat.reducePow]; omega
  rw [RoundTrip.to_rawC2A (RoundTrip.range h 3 1 rfl rfl rfl), rawC2A]
  have f0 : fld w 0 21 = 0 := RoundTrip.range h 0 1 rfl rfl rfl
  simp only [f0, Nat.reduceEqDiff, OfNat.ofNat_ne_zero, OfNat.zero_ne_ofNat, one_ne_zero, zero_ne_one, false_and, and_false, and_self, if_true, if_false]
  rw [show fbv 3 23 w = s from RoundTrip.field h 2 rfl rfl,
    show fbv 2 21 w = k from RoundTrip.field h 1 rfl rfl]

theorem RoundTrip.spawn (d : BitVec 5) (a : BitVec 5) (b : BitVec 5) (c : BitVec 5) : RoundTrip.Statement (.spawn d a b c) := by
  refine RoundTrip.ofC [⟨6, 0⟩, ⟨5, c⟩, ⟨5, b⟩, ⟨5, a⟩, ⟨5, d⟩, ⟨6, 48⟩] rfl rfl ?_ fun w h => ?_
  · show en4 0xC0000000 d 21 a 16 b 11 c 6 = _
    simp only [en4, en3, en2, en1, RoundTrip.word, BitVec.reduceToNat, Nat.reducePow]; omega
  rw [RoundTrip.to_rawC30 (RoundTrip.range h 5 1 rfl rfl rfl), rawC30]
  have f0 : fld w 0 6 = 0 := RoundTrip.range h 0 1 rfl rfl rfl
  simp only [f0, Nat.reduceEqDiff, OfNat.ofNat_ne_zero, OfNat.zero_ne_ofNat, one_ne_zero, zero_ne_one, false_and, and_false, and_self, if_true, if_false]
  rw [show fbv 5 21 w = d from RoundTrip.field h 4 rfl rfl,
    show fbv 5 16 w = a from RoundTrip.field h 3 rfl rfl,
    show fbv 5 11 w = b from RoundTrip.field h 2 rfl rfl,
    show fbv 5 6 w = c from RoundTrip.field h 1 rfl rfl]

theorem RoundTrip.suspend (a : BitVec 5) (k : BitVec 1) : RoundTrip.Statement (.suspend a k) := by
  refine RoundTrip.ofC [⟨2, 0⟩, ⟨1, k⟩, ⟨13, 0⟩, ⟨5, a⟩, ⟨5, 0⟩, ⟨6, 49⟩] rfl rfl ?_ fun w h => ?_
  · show en2 0xC4000000 a 16 k 2 = _
    simp only [en2, en1, RoundTrip.word, BitVec.reduceToNat, Nat.reducePow]; omega
  rw [RoundTrip.to_rawC31 (RoundTrip.range h 5 1 rfl rfl rfl), rawC31]
  have f0 : fld w 21 5 = 0 := RoundTrip.range h 4 1 rfl rfl rfl
  have f1 : fld w 3 13 = 0 := RoundTrip.range h 2 1 rfl rfl rfl
  have f2 : fld w 0 2 = 0 := RoundTrip.range h 0 1 rfl rfl rfl
  simp only [f0, f1, f2, Nat.reduceEqDiff, OfNat.ofNat_ne_zero, OfNat.zero_ne_ofNat, one_ne_zero, zero_ne_one, false_and, and_false, and_self, if_true, if_false]
  rw [show fbv 5 16 w = a from RoundTrip.field h 3 rfl rfl,
    show fbv 1 2 w = k from RoundTrip.field h 1 rfl rfl]

theorem RoundTrip.join (d : BitVec 5) (a : BitVec 5) (b : BitVec 5) : RoundTrip.Statement (.join d a b) := by
  refine RoundTrip.ofC [⟨11, 0⟩, ⟨5, b⟩, ⟨5, a⟩, ⟨5, d⟩, ⟨6, 50⟩] rfl rfl ?_ fun w h => ?_
  · show en3 0xC8000000 d 21 a 16 b 11 = _
    simp only [en3, en2, en1, RoundTrip.word, BitVec.reduceToNat, Nat.reducePow]; omega
  rw [RoundTrip.to_rawC32 (RoundTrip.range h 4 1 rfl rfl rfl), rawC32]
  have f0 : fld w 0 11 = 0 := RoundTrip.range h 0 1 rfl rfl rfl
  simp only [f0, Nat.reduceEqDiff, OfNat.ofNat_ne_zero, OfNat.zero_ne_ofNat, one_ne_zero, zero_ne_one, false_and, and_false, and_self, if_true, if_false]
  rw [show fbv 5 21 w = d from RoundTrip.field h 3 rfl rfl,
    show fbv 5 16 w = a from RoundTrip.field h 2 rfl rfl,
    show fbv 5 11 w = b from RoundTrip.field h 1 rfl rfl]

theorem RoundTrip.cbar (d : BitVec 5) : RoundTrip.Statement (.cbar d) := by
  refine RoundTrip.ofC [⟨11, 2⟩, ⟨10, 0⟩, ⟨5, d⟩, ⟨6, 50⟩] rfl rfl ?_ fun w h => ?_
  · show en1 0xC8000002 d 21 = _
    simp only [en1, RoundTrip.word, BitVec.reduceToNat, Nat.reducePow]; omega
  rw [RoundTrip.to_rawC32 (RoundTrip.range h 3 1 rfl rfl rfl), rawC32]
  have f0 : fld w 0 11 = 2 := RoundTrip.range h 0 1 rfl rfl rfl
  have f1 : fld w 0 21 = 2 := RoundTrip.range h 0 2 rfl rfl rfl
  have g1 : ¬(fld w 0 26 = 1) := by unfold fld at *; omega
  simp only [g1, f0, f1, Nat.reduceEqDiff, OfNat.ofNat_ne_zero, OfNat.zero_ne_ofNat, one_ne_zero, zero_ne_one, false_and, and_false, and_self, if_true, if_false]
  rw [show fbv 5 21 w = d from RoundTrip.field h 2 rfl rfl]

theorem RoundTrip.seg (a : BitVec 4) (b : BitVec 4) (n : BitVec 2) : RoundTrip.Statement (.seg a b n) := by
  refine RoundTrip.ofC [⟨16, 0⟩, ⟨2, n⟩, ⟨4, b⟩, ⟨4, a⟩, ⟨6, 51⟩] rfl rfl ?_ fun w h => ?_
  · show en3 0xCC000000 a 22 b 18 n 16 = _
    simp only [en3, en2, en1, RoundTrip.word, BitVec.reduceToNat, Nat.reducePow]; omega
  rw [RoundTrip.to_rawC33 (RoundTrip.range h 4 1 rfl rfl rfl), rawC33]
  have f0 : fld w 0 16 = 0 := RoundTrip.range h 0 1 rfl rfl rfl
  simp only [f0, Nat.reduceEqDiff, OfNat.ofNat_ne_zero, OfNat.zero_ne_ofNat, one_ne_zero, zero_ne_one, false_and, and_false, and_self, if_true, if_false]
  rw [show fbv 4 22 w = a from RoundTrip.field h 3 rfl rfl,
    show fbv 4 18 w = b from RoundTrip.field h 2 rfl rfl,
    show fbv 2 16 w = n from RoundTrip.field h 1 rfl rfl]

theorem RoundTrip.trap (i : BitVec 16) : RoundTrip.Statement (.trap i) := by
  refine RoundTrip.ofC [⟨10, 0⟩, ⟨16, i⟩, ⟨6, 52⟩] rfl rfl ?_ fun w h => ?_
  · show en1 0xD0000000 i 10 = _
    simp only [en1, RoundTrip.word, BitVec.reduceToNat, Nat.reducePow]; omega
  rw [RoundTrip.to_rawC34 (RoundTrip.range h 2 1 rfl rfl rfl), rawC34]
  have f0 : fld w 0 10 = 0 := RoundTrip.range h 0 1 rfl rfl rfl
  simp only [f0, Nat.reduceEqDiff, OfNat.ofNat_ne_zero, OfNat.zero_ne_ofNat, one_ne_zero, zero_ne_one, false_and, and_false, and_self, if_true, if_false]
  rw [show fbv 16 10 w = i from RoundTrip.field h 1 rfl rfl]

theorem RoundTrip.scan (d : BitVec 5) (e : BitVec 5) : RoundTrip.Statement (.scan d e) := by
  refine RoundTrip.ofC [⟨16, 0⟩, ⟨5, e⟩, ⟨5, d⟩, ⟨6, 53⟩] rfl rfl ?_ fun w h => ?_
  · show en2 0xD4000000 d 21 e 16 = _
    simp only [en2, en1, RoundTrip.word, BitVec.reduceToNat, Nat.reducePow]; omega
  rw [RoundTrip.to_rawC35 (RoundTrip.range h 3 1 rfl rfl rfl), rawC35]
  have f0 : fld w 0 16 = 0 := RoundTrip.range h 0 1 rfl rfl rfl
  simp only [f0, Nat.reduceEqDiff, OfNat.ofNat_ne_zero, OfNat.zero_ne_ofNat, one_ne_zero, zero_ne_one, false_and, and_false, and_self, if_true, if_false]
  rw [show fbv 5 21 w = d from RoundTrip.field h 2 rfl rfl,
    show fbv 5 16 w = e from RoundTrip.field h 1 rfl rfl]

theorem RoundTrip.cmap (d : BitVec 5) (a : BitVec 5) (b : BitVec 5) : RoundTrip.Statement (.cmap d a b) := by
  refine RoundTrip.ofC [⟨11, 1⟩, ⟨5, b⟩, ⟨5, a⟩, ⟨5, d⟩, ⟨6, 53⟩] rfl rfl ?_ fun w h => ?_
  · show en3 0xD4000001 d 21 a 16 b 11 = _
    simp only [en3, en2, en1, RoundTrip.word, BitVec.reduceToNat, Nat.reducePow]; omega
  rw [RoundTrip.to_rawC35 (RoundTrip.range h 4 1 rfl rfl rfl), rawC35]
  have f0 : fld w 0 11 = 1 := RoundTrip.range h 0 1 rfl rfl rfl
  have g0 : ¬(fld w 0 16 = 0) := by unfold fld at *; omega
  simp only [g0, f0, Nat.reduceEqDiff, OfNat.ofNat_ne_zero, OfNat.zero_ne_ofNat, one_ne_zero, zero_ne_one, false_and, and_false, and_self, if_true, if_false]
  rw [show fbv 5 21 w = d from RoundTrip.field h 3 rfl rfl,
    show fbv 5 16 w = a from RoundTrip.field h 2 rfl rfl,
    show fbv 5 11 w = b from RoundTrip.field h 1 rfl rfl]

theorem RoundTrip.pmonStart (m : BitVec 4) : RoundTrip.Statement (.pmonStart m) := by
  refine RoundTrip.ofC [⟨20, 0⟩, ⟨4, m⟩, ⟨2, 0⟩, ⟨6, 54⟩] rfl rfl ?_ fun w h => ?_
  · show en1 0xD8000000 m 20 = _
    simp only [en1, RoundTrip.word, BitVec.reduceToNat, Nat.reducePow]; omega
  rw [RoundTrip.to_rawC36 (RoundTrip.range h 3 1 rfl rfl rfl), rawC36]
  have f0 : fld w 24 2 = 0 := RoundTrip.range h 2 1 rfl rfl rfl
  have f1 : fld w 0 20 = 0 := RoundTrip.range h 0 1 rfl rfl rfl
  simp only [f0, f1, Nat.reduceEqDiff, OfNat.ofNat_ne_zero, OfNat.zero_ne_ofNat, one_ne_zero, zero_ne_one, false_and, and_false, and_self, if_true, if_false]
  rw [show fbv 4 20 w = m from RoundTrip.field h 1 rfl rfl]

theorem RoundTrip.pmonStop (m : BitVec 4) : RoundTrip.Statement (.pmonStop m) := by
  refine RoundTrip.ofC [⟨20, 0⟩, ⟨4, m⟩, ⟨2, 1⟩, ⟨6, 54⟩] rfl rfl ?_ fun w h => ?_
  · show en1 0xD9000000 m 20 = _
    simp only [en1, RoundTrip.word, BitVec.reduceToNat, Nat.reducePow]; omega
  rw [RoundTrip.to_rawC36 (RoundTrip.range h 3 1 rfl rfl rfl), rawC36]
  have f0 : fld w 24 2 = 1 := RoundTrip.range h 2 1 rfl rfl rfl
  have f1 : fld w 0 20 = 0 := RoundTrip.range h 0 1 rfl rfl rfl
  simp only [f0, f1, Nat.reduceEqDiff, OfNat.ofNat_ne_zero, OfNat.zero_ne_ofNat, one_ne_zero, zero_ne_one, false_and, and_false, and_self, if_true, if_false]
  rw [show fbv 4 20 w = m from RoundTrip.field h 1 rfl rfl]

theorem RoundTrip.pmonClr (m : BitVec 4) : RoundTrip.Statement (.pmonClr m) := by
  refine RoundTrip.ofC [⟨20, 0⟩, ⟨4, m⟩, ⟨2, 2⟩, ⟨6, 54⟩] rfl rfl ?_ fun w h => ?_
  · show en1 0xDA000000 m 20 = _
    simp only [en1, RoundTrip.word, BitVec.reduceToNat, Nat.reducePow]; omega
  rw [RoundTrip.to_rawC36 (RoundTrip.range h 3 1 rfl rfl rfl), rawC36]
  have f0 : fld w 24 2 = 2 := RoundTrip.range h 2 1 rfl rfl rfl
  have f1 : fld w 0 20 = 0 := RoundTrip.range h 0 1 rfl rfl rfl
  simp only [f0, f1, Nat.reduceEqDiff, OfNat.ofNat_ne_zero, OfNat.zero_ne_ofNat, one_ne_zero, zero_ne_one, false_and, and_false, and_self, if_true, if_false]
  rw [show fbv 4 20 w = m from RoundTrip.field h 1 rfl rfl]

theorem RoundTrip.pmonClrstart (m : BitVec 4) : RoundTrip.Statement (.pmonClrstart m) := by
  refine RoundTrip.ofC [⟨20, 0⟩, ⟨4, m⟩, ⟨2, 3⟩, ⟨6, 54⟩] rfl rfl ?_ fun w h => ?_
  · show en1 0xDB000000 m 20 = _
    simp only [en1, RoundTrip.word, BitVec.reduceToNat, Nat.reducePow]; omega
  rw [RoundTrip.to_rawC36 (RoundTrip.range h 3 1 rfl rfl rfl), rawC36]
  have f0 : fld w 24 2 = 3 := RoundTrip.range h 2 1 rfl rfl rfl
  have f1 : fld w 0 20 = 0 := RoundTrip.range h 0 1 rfl rfl rfl
  simp only [f0, f1, Nat.reduceEqDiff, OfNat.ofNat_ne_zero, OfNat.zero_ne_ofNat, one_ne_zero, zero_ne_one, false_and, and_false, and_self, if_true, if_false]
  rw [show fbv 4 20 w = m from RoundTrip.field h 1 rfl rfl]

theorem RoundTrip.diagInjFlip (a : BitVec 5) (b : BitVec 5) : RoundTrip.Statement (.diagInjFlip a b) := by
  refine RoundTrip.ofC [⟨16, 0⟩, ⟨5, b⟩, ⟨5, a⟩, ⟨6, 55⟩] rfl rfl ?_ fun w h => ?_
  · show en2 0xDC000000 a 21 b 16 = _
    simp only [en2, en1, RoundTrip.word, BitVec.reduceToNat, Nat.reducePow]; omega
  rw [RoundTrip.to_rawC37 (RoundTrip.range h 3 1 rfl rfl rfl), rawC37]
  have f0 : fld w 0 16 = 0 := RoundTrip.range h 0 1 rfl rfl rfl
  simp only [f0, Nat.reduceEqDiff, OfNat.ofNat_ne_zero, OfNat.zero_ne_ofNat, one_ne_zero, zero_ne_one, false_and, and_false, and_self, if_true, if_false]
  rw [show fbv 5 21 w = a from RoundTrip.field h 2 rfl rfl,
    show fbv 5 16 w = b from RoundTrip.field h 1 rfl rfl]

theorem RoundTrip.diagInjCerr (a : BitVec 5) (b : BitVec 5) : RoundTrip.Statement (.diagInjCerr a b) := by
  refine RoundTrip.ofC [⟨16, 8192⟩, ⟨5, b⟩, ⟨5, a⟩, ⟨6, 55⟩] rfl rfl ?_ fun w h => ?_
  · show en2 0xDC002000 a 21 b 16 = _
    simp only [en2, en1, RoundTrip.word, BitVec.reduceToNat, Nat.reducePow]; omega
  rw [RoundTrip.to_rawC37 (RoundTrip.range h 3 1 rfl rfl rfl), rawC37]
  have f0 : fld w 0 16 = 8192 := RoundTrip.range h 0 1 rfl rfl rfl
  simp only [f0, Nat.reduceEqDiff, OfNat.ofNat_ne_zero, OfNat.zero_ne_ofNat, one_ne_zero, zero_ne_one, false_and, and_false, and_self, if_true, if_false]
  rw [show fbv 5 21 w = a from RoundTrip.field h 2 rfl rfl,
    show fbv 5 16 w = b from RoundTrip.field h 1 rfl rfl]

theorem RoundTrip.diagInjPoison (a : BitVec 5) (b : BitVec 5) : RoundTrip.Statement (.diagInjPoison a b) := by
  refine RoundTrip.ofC [⟨16, 16384⟩, ⟨5, b⟩, ⟨5, a⟩, ⟨6, 55⟩] rfl rfl ?_ fun w h => ?_
  · show en2 0xDC004000 a 21 b 16 = _
    simp only [en2, en1, RoundTrip.word, BitVec.reduceToNat, Nat.reducePow]; omega
  rw [RoundTrip.to_rawC37 (RoundTrip.range h 3 1 rfl rfl rfl), rawC37]
  have f0 : fld w 0 16 = 16384 := RoundTrip.range h 0 1 rfl rfl rfl
  simp only [f0, Nat.reduceEqDiff, OfNat.ofNat_ne_zero, OfNat.zero_ne_ofNat, one_ne_zero, zero_ne_one, false_and, and_false, and_self, if_true, if_false]
  rw [show fbv 5 21 w = a from RoundTrip.field h 2 rfl rfl,
    show fbv 5 16 w = b from RoundTrip.field h 1 rfl rfl]

theorem RoundTrip.diagInjTpoison (a : BitVec 5) (b : BitVec 5) : RoundTrip.Statement (.diagInjTpoison a b) := by
  refine RoundTrip.ofC [⟨16, 24576⟩, ⟨5, b⟩, ⟨5, a⟩, ⟨6, 55⟩] rfl rfl ?_ fun w h => ?_
  · show en2 0xDC006000 a 21 b 16 = _
    simp only [en2, en1, RoundTrip.word, BitVec.reduceToNat, Nat.reducePow]; omega
  rw [RoundTrip.to_rawC37 (RoundTrip.range h 3 1 rfl rfl rfl), rawC37]
  have f0 : fld w 0 16 = 24576 := RoundTrip.range h 0 1 rfl rfl rfl
  simp only [f0, Nat.reduceEqDiff, OfNat.ofNat_ne_zero, OfNat.zero_ne_ofNat, one_ne_zero, zero_ne_one, false_and, and_false, and_self, if_true, if_false]
  rw [show fbv 5 21 w = a from RoundTrip.field h 2 rfl rfl,
    show fbv 5 16 w = b from RoundTrip.field h 1 rfl rfl]

theorem RoundTrip.diagInjStrike (a : BitVec 5) (b : BitVec 5) : RoundTrip.Statement (.diagInjStrike a b) := by
  refine RoundTrip.ofC [⟨16, 32768⟩, ⟨5, b⟩, ⟨5, a⟩, ⟨6, 55⟩] rfl rfl ?_ fun w h => ?_
  · show en2 0xDC008000 a 21 b 16 = _
    simp only [en2, en1, RoundTrip.word, BitVec.reduceToNat, Nat.reducePow]; omega
  rw [RoundTrip.to_rawC37 (RoundTrip.range h 3 1 rfl rfl rfl), rawC37]
  have f0 : fld w 0 16 = 32768 := RoundTrip.range h 0 1 rfl rfl rfl
  simp only [f0, Nat.reduceEqDiff, OfNat.ofNat_ne_zero, OfNat.zero_ne_ofNat, one_ne_zero, zero_ne_one, false_and, and_false, and_self, if_true, if_false]
  rw [show fbv 5 21 w = a from RoundTrip.field h 2 rfl rfl,
    show fbv 5 16 w = b from RoundTrip.field h 1 rfl rfl]

theorem RoundTrip.vadd (d : BitVec 6) (a : BitVec 6) (b : BitVec 6) (w0 : BitVec 2) (m : BitVec 3) (r : BitVec 2) : RoundTrip.Statement (.vadd d a b w0 m r) := by
  refine RoundTrip.ofV [⟨2, r⟩, ⟨3, m⟩, ⟨2, w0⟩, ⟨6, b⟩, ⟨6, a⟩, ⟨6, d⟩, ⟨7, 1⟩] rfl rfl ?_ fun w h => ?_
  · show en6 0x02000000 d 19 a 13 b 7 w0 5 m 2 r 0 = _
    simp only [en6, en5, en4, en3, en2, en1, RoundTrip.word, BitVec.reduceToNat, Nat.reducePow]; omega
  rw [RoundTrip.to_rawV01 (RoundTrip.range h 6 1 rfl rfl rfl), rawV01]
  rw [show fbv 6 19 w = d from RoundTrip.field h 5 rfl rfl,
    show fbv 6 13 w = a from RoundTrip.field h 4 rfl rfl,
    show fbv 6 7 w = b from RoundTrip.field h 3 rfl rfl,
    show fbv 2 5 w = w0 from RoundTrip.field h 2 rfl rfl,
    show fbv 3 2 w = m from RoundTrip.field h 1 rfl rfl,
    show fbv 2 0 w = r from RoundTrip.field h 0 rfl rfl]

theorem RoundTrip.vsub (d : BitVec 6) (a : BitVec 6) (b : BitVec 6) (w0 : BitVec 2) (m : BitVec 3) (r : BitVec 2) : RoundTrip.Statement (.vsub d a b w0 m r) := by
  refine RoundTrip.ofV [⟨2, r⟩, ⟨3, m⟩, ⟨2, w0⟩, ⟨6, b⟩, ⟨6, a⟩, ⟨6, d⟩, ⟨7, 2⟩] rfl rfl ?_ fun w h => ?_
  · show en6 0x04000000 d 19 a 13 b 7 w0 5 m 2 r 0 = _
    simp only [en6, en5, en4, en3, en2, en1, RoundTrip.word, BitVec.reduceToNat, Nat.reducePow]; omega
  rw [RoundTrip.to_rawV02 (RoundTrip.range h 6 1 rfl rfl rfl), rawV02]
  rw [show fbv 6 19 w = d from RoundTrip.field h 5 rfl rfl,
    show fbv 6 13 w = a from RoundTrip.field h 4 rfl rfl,
    show fbv 6 7 w = b from RoundTrip.field h 3 rfl rfl,
    show fbv 2 5 w = w0 from RoundTrip.field h 2 rfl rfl,
    show fbv 3 2 w = m from RoundTrip.field h 1 rfl rfl,
    show fbv 2 0 w = r from RoundTrip.field h 0 rfl rfl]

theorem RoundTrip.vmul (d : BitVec 6) (a : BitVec 6) (b : BitVec 6) (w0 : BitVec 2) (m : BitVec 3) (r : BitVec 2) : RoundTrip.Statement (.vmul d a b w0 m r) := by
  refine RoundTrip.ofV [⟨2, r⟩, ⟨3, m⟩, ⟨2, w0⟩, ⟨6, b⟩, ⟨6, a⟩, ⟨6, d⟩, ⟨7, 3⟩] rfl rfl ?_ fun w h => ?_
  · show en6 0x06000000 d 19 a 13 b 7 w0 5 m 2 r 0 = _
    simp only [en6, en5, en4, en3, en2, en1, RoundTrip.word, BitVec.reduceToNat, Nat.reducePow]; omega
  rw [RoundTrip.to_rawV03 (RoundTrip.range h 6 1 rfl rfl rfl), rawV03]
  rw [show fbv 6 19 w = d from RoundTrip.field h 5 rfl rfl,
    show fbv 6 13 w = a from RoundTrip.field h 4 rfl rfl,
    show fbv 6 7 w = b from RoundTrip.field h 3 rfl rfl,
    show fbv 2 5 w = w0 from RoundTrip.field h 2 rfl rfl,
    show fbv 3 2 w = m from RoundTrip.field h 1 rfl rfl,
    show fbv 2 0 w = r from RoundTrip.field h 0 rfl rfl]

theorem RoundTrip.vfma (d : BitVec 6) (a : BitVec 6) (b : BitVec 6) (w0 : BitVec 2) (m : BitVec 3) (r : BitVec 2) : RoundTrip.Statement (.vfma d a b w0 m r) := by
  refine RoundTrip.ofV [⟨2, r⟩, ⟨3, m⟩, ⟨2, w0⟩, ⟨6, b⟩, ⟨6, a⟩, ⟨6, d⟩, ⟨7, 4⟩] rfl rfl ?_ fun w h => ?_
  · show en6 0x08000000 d 19 a 13 b 7 w0 5 m 2 r 0 = _
    simp only [en6, en5, en4, en3, en2, en1, RoundTrip.word, BitVec.reduceToNat, Nat.reducePow]; omega
  rw [RoundTrip.to_rawV04 (RoundTrip.range h 6 1 rfl rfl rfl), rawV04]
  rw [show fbv 6 19 w = d from RoundTrip.field h 5 rfl rfl,
    show fbv 6 13 w = a from RoundTrip.field h 4 rfl rfl,
    show fbv 6 7 w = b from RoundTrip.field h 3 rfl rfl,
    show fbv 2 5 w = w0 from RoundTrip.field h 2 rfl rfl,
    show fbv 3 2 w = m from RoundTrip.field h 1 rfl rfl,
    show fbv 2 0 w = r from RoundTrip.field h 0 rfl rfl]

theorem RoundTrip.vfms (d : BitVec 6) (a : BitVec 6) (b : BitVec 6) (w0 : BitVec 2) (m : BitVec 3) (r : BitVec 2) : RoundTrip.Statement (.vfms d a b w0 m r) := by
  refine RoundTrip.ofV [⟨2, r⟩, ⟨3, m⟩, ⟨2, w0⟩, ⟨6, b⟩, ⟨6, a⟩, ⟨6, d⟩, ⟨7, 5⟩] rfl rfl ?_ fun w h => ?_
  · show en6 0x0A000000 d 19 a 13 b 7 w0 5 m 2 r 0 = _
    simp only [en6, en5, en4, en3, en2, en1, RoundTrip.word, BitVec.reduceToNat, Nat.reducePow]; omega
  rw [RoundTrip.to_rawV05 (RoundTrip.range h 6 1 rfl rfl rfl), rawV05]
  rw [show fbv 6 19 w = d from RoundTrip.field h 5 rfl rfl,
    show fbv 6 13 w = a from RoundTrip.field h 4 rfl rfl,
    show fbv 6 7 w = b from RoundTrip.field h 3 rfl rfl,
    show fbv 2 5 w = w0 from RoundTrip.field h 2 rfl rfl,
    show fbv 3 2 w = m from RoundTrip.field h 1 rfl rfl,
    show fbv 2 0 w = r from RoundTrip.field h 0 rfl rfl]

theorem RoundTrip.vfnma (d : BitVec 6) (a : BitVec 6) (b : BitVec 6) (w0 : BitVec 2) (m : BitVec 3) (r : BitVec 2) : RoundTrip.Statement (.vfnma d a b w0 m r) := by
  refine RoundTrip.ofV [⟨2, r⟩, ⟨3, m⟩, ⟨2, w0⟩, ⟨6, b⟩, ⟨6, a⟩, ⟨6, d⟩, ⟨7, 6⟩] rfl rfl ?_ fun w h => ?_
  · show en6 0x0C000000 d 19 a 13 b 7 w0 5 m 2 r 0 = _
    simp only [en6, en5, en4, en3, en2, en1, RoundTrip.word, BitVec.reduceToNat, Nat.reducePow]; omega
  rw [RoundTrip.to_rawV06 (RoundTrip.range h 6 1 rfl rfl rfl), rawV06]
  rw [show fbv 6 19 w = d from RoundTrip.field h 5 rfl rfl,
    show fbv 6 13 w = a from RoundTrip.field h 4 rfl rfl,
    show fbv 6 7 w = b from RoundTrip.field h 3 rfl rfl,
    show fbv 2 5 w = w0 from RoundTrip.field h 2 rfl rfl,
    show fbv 3 2 w = m from RoundTrip.field h 1 rfl rfl,
    show fbv 2 0 w = r from RoundTrip.field h 0 rfl rfl]

theorem RoundTrip.vdiv (d : BitVec 6) (a : BitVec 6) (b : BitVec 6) (w0 : BitVec 2) (m : BitVec 3) (r : BitVec 2) : RoundTrip.Statement (.vdiv d a b w0 m r) := by
  refine RoundTrip.ofV [⟨2, r⟩, ⟨3, m⟩, ⟨2, w0⟩, ⟨6, b⟩, ⟨6, a⟩, ⟨6, d⟩, ⟨7, 7⟩] rfl rfl ?_ fun w h => ?_
  · show en6 0x0E000000 d 19 a 13 b 7 w0 5 m 2 r 0 = _
    simp only [en6, en5, en4, en3, en2, en1, RoundTrip.word, BitVec.reduceToNat, Nat.reducePow]; omega
  rw [RoundTrip.to_rawV07 (RoundTrip.range h 6 1 rfl rfl rfl), rawV07]
  rw [show fbv 6 19 w = d from RoundTrip.field h 5 rfl rfl,
    show fbv 6 13 w = a from RoundTrip.field h 4 rfl rfl,
    show fbv 6 7 w = b from RoundTrip.field h 3 rfl rfl,
    show fbv 2 5 w = w0 from RoundTrip.field h 2 rfl rfl,
    show fbv 3 2 w = m from RoundTrip.field h 1 rfl rfl,
    show fbv 2 0 w = r from RoundTrip.field h 0 rfl rfl]

theorem RoundTrip.vsqrt (d : BitVec 6) (a : BitVec 6) (w0 : BitVec 2) (m : BitVec 3) (r : BitVec 2) : RoundTrip.Statement (.vsqrt d a w0 m r) := by
  refine RoundTrip.ofV [⟨2, r⟩, ⟨3, m⟩, ⟨2, w0⟩, ⟨6, 0⟩, ⟨6, a⟩, ⟨6, d⟩, ⟨7, 8⟩] rfl rfl ?_ fun w h => ?_
  · show en5 0x10000000 d 19 a 13 w0 5 m 2 r 0 = _
    simp only [en5, en4, en3, en2, en1, RoundTrip.word, BitVec.reduceToNat, Nat.reducePow]; omega
  rw [RoundTrip.to_rawV08 (RoundTrip.range h 6 1 rfl rfl rfl), rawV08]
  have f0 : fld w 7 6 = 0 := RoundTrip.range h 3 1 rfl rfl rfl
  simp only [f0, Nat.reduceEqDiff, OfNat.ofNat_ne_zero, OfNat.zero_ne_ofNat, one_ne_zero, zero_ne_one, false_and, and_false, and_self, if_true, if_false]
  rw [show fbv 6 19 w = d from RoundTrip.field h 5 rfl rfl,
    show fbv 6 13 w = a from RoundTrip.field h 4 rfl rfl,
    show fbv 2 5 w = w0 from RoundTrip.field h 2 rfl rfl,
    show fbv 3 2 w = m from RoundTrip.field h 1 rfl rfl,
    show fbv 2 0 w = r from RoundTrip.field h 0 rfl rfl]

theorem RoundTrip.vrcp (d : BitVec 6) (a : BitVec 6) (w0 : BitVec 2) (m : BitVec 3) (r : BitVec 2) : RoundTrip.Statement (.vrcp d a w0 m r) := by
  refine RoundTrip.ofV [⟨2, r⟩, ⟨3, m⟩, ⟨2, w0⟩, ⟨6, 0⟩, ⟨6, a⟩, ⟨6, d⟩, ⟨7, 9⟩] rfl rfl ?_ fun w h => ?_
  · show en5 0x12000000 d 19 a 13 w0 5 m 2 r 0 = _
    simp only [en5, en4, en3, en2, en1, RoundTrip.word, BitVec.reduceToNat, Nat.reducePow]; omega
  rw [RoundTrip.to_rawV09 (RoundTrip.range h 6 1 rfl rfl rfl), rawV09]
  have f0 : fld w 7 6 = 0 := RoundTrip.range h 3 1 rfl rfl rfl
  simp only [f0, Nat.reduceEqDiff, OfNat.ofNat_ne_zero, OfNat.zero_ne_ofNat, one_ne_zero, zero_ne_one, false_and, and_false, and_self, if_true, if_false]
  rw [show fbv 6 19 w = d from RoundTrip.field h 5 rfl rfl,
    show fbv 6 13 w = a from RoundTrip.field h 4 rfl rfl,
    show fbv 2 5 w = w0 from RoundTrip.field h 2 rfl rfl,
    show fbv 3 2 w = m from RoundTrip.field h 1 rfl rfl,
    show fbv 2 0 w = r from RoundTrip.field h 0 rfl rfl]

theorem RoundTrip.vrsq (d : BitVec 6) (a : BitVec 6) (w0 : BitVec 2) (m : BitVec 3) (r : BitVec 2) : RoundTrip.Statement (.vrsq d a w0 m r) := by
  refine RoundTrip.ofV [⟨2, r⟩, ⟨3, m⟩, ⟨2, w0⟩, ⟨6, 0⟩, ⟨6, a⟩, ⟨6, d⟩, ⟨7, 10⟩] rfl rfl ?_ fun w h => ?_
  · show en5 0x14000000 d 19 a 13 w0 5 m 2 r 0 = _
    simp only [en5, en4, en3, en2, en1, RoundTrip.word, BitVec.reduceToNat, Nat.reducePow]; omega
  rw [RoundTrip.to_rawV0A (RoundTrip.range h 6 1 rfl rfl rfl), rawV0A]
  have f0 : fld w 7 6 = 0 := RoundTrip.range h 3 1 rfl rfl rfl
  simp only [f0, Nat.reduceEqDiff, OfNat.ofNat_ne_zero, OfNat.zero_ne_ofNat, one_ne_zero, zero_ne_one, false_and, and_false, and_self, if_true, if_false]
  rw [show fbv 6 19 w = d from RoundTrip.field h 5 rfl rfl,
    show fbv 6 13 w = a from RoundTrip.field h 4 rfl rfl,
    show fbv 2 5 w = w0 from RoundTrip.field h 2 rfl rfl,
    show fbv 3 2 w = m from RoundTrip.field h 1 rfl rfl,
    show fbv 2 0 w = r from RoundTrip.field h 0 rfl rfl]

theorem RoundTrip.vmin (d : BitVec 6) (a : BitVec 6) (b : BitVec 6) (w0 : BitVec 2) (m : BitVec 3) : RoundTrip.Statement (.vmin d a b w0 m) := by
  refine RoundTrip.ofV [⟨2, 0⟩, ⟨3, m⟩, ⟨2, w0⟩, ⟨6, b⟩, ⟨6, a⟩, ⟨6, d⟩, ⟨7, 11⟩] rfl rfl ?_ fun w h => ?_
  · show en5 0x16000000 d 19 a 13 b 7 w0 5 m 2 = _
    simp only [en5, en4, en3, en2, en1, RoundTrip.word, BitVec.reduceToNat, Nat.reducePow]; omega
  rw [RoundTrip.to_rawV0B (RoundTrip.range h 6 1 rfl rfl rfl), rawV0B]
  have f0 : fld w 0 2 = 0 := RoundTrip.range h 0 1 rfl rfl rfl
  simp only [f0, Nat.reduceEqDiff, OfNat.ofNat_ne_zero, OfNat.zero_ne_ofNat, one_ne_zero, zero_ne_one, false_and, and_false, and_self, if_true, if_false]
  rw [show fbv 6 19 w = d from RoundTrip.field h 5 rfl rfl,
    show fbv 6 13 w = a from RoundTrip.field h 4 rfl rfl,
    show fbv 6 7 w = b from RoundTrip.field h 3 rfl rfl,
    show fbv 2 5 w = w0 from RoundTrip.field h 2 rfl rfl,
    show fbv 3 2 w = m from RoundTrip.field h 1 rfl rfl]

theorem RoundTrip.vmax (d : BitVec 6) (a : BitVec 6) (b : BitVec 6) (w0 : BitVec 2) (m : BitVec 3) : RoundTrip.Statement (.vmax d a b w0 m) := by
  refine RoundTrip.ofV [⟨2, 0⟩, ⟨3, m⟩, ⟨2, w0⟩, ⟨6, b⟩, ⟨6, a⟩, ⟨6, d⟩, ⟨7, 12⟩] rfl rfl ?_ fun w h => ?_
  · show en5 0x18000000 d 19 a 13 b 7 w0 5 m 2 = _
    simp only [en5, en4, en3, en2, en1, RoundTrip.word, BitVec.reduceToNat, Nat.reducePow]; omega
  rw [RoundTrip.to_rawV0C (RoundTrip.range h 6 1 rfl rfl rfl), rawV0C]
  have f0 : fld w 0 2 = 0 := RoundTrip.range h 0 1 rfl rfl rfl
  simp only [f0, Nat.reduceEqDiff, OfNat.ofNat_ne_zero, OfNat.zero_ne_ofNat, one_ne_zero, zero_ne_one, false_and, and_false, and_self, if_true, if_false]
  rw [show fbv 6 19 w = d from RoundTrip.field h 5 rfl rfl,
    show fbv 6 13 w = a from RoundTrip.field h 4 rfl rfl,
    show fbv 6 7 w = b from RoundTrip.field h 3 rfl rfl,
    show fbv 2 5 w = w0 from RoundTrip.field h 2 rfl rfl,
    show fbv 3 2 w = m from RoundTrip.field h 1 rfl rfl]

theorem RoundTrip.vabs (d : BitVec 6) (a : BitVec 6) (w0 : BitVec 2) (m : BitVec 3) : RoundTrip.Statement (.vabs d a w0 m) := by
  refine RoundTrip.ofV [⟨2, 0⟩, ⟨3, m⟩, ⟨2, w0⟩, ⟨6, 0⟩, ⟨6, a⟩, ⟨6, d⟩, ⟨7, 13⟩] rfl rfl ?_ fun w h => ?_
  · show en4 0x1A000000 d 19 a 13 w0 5 m 2 = _
    simp only [en4, en3, en2, en1, RoundTrip.word, BitVec.reduceToNat, Nat.reducePow]; omega
  rw [RoundTrip.to_rawV0D (RoundTrip.range h 6 1 rfl rfl rfl), rawV0D]
  have f0 : fld w 7 6 = 0 := RoundTrip.range h 3 1 rfl rfl rfl
  have f1 : fld w 0 2 = 0 := RoundTrip.range h 0 1 rfl rfl rfl
  simp only [f0, f1, Nat.reduceEqDiff, OfNat.ofNat_ne_zero, OfNat.zero_ne_ofNat, one_ne_zero, zero_ne_one, false_and, and_false, and_self, if_true, if_false]
  rw [show fbv 6 19 w = d from RoundTrip.field h 5 rfl rfl,
    show fbv 6 13 w = a from RoundTrip.field h 4 rfl rfl,
    show fbv 2 5 w = w0 from RoundTrip.field h 2 rfl rfl,
    show fbv 3 2 w = m from RoundTrip.field h 1 rfl rfl]

theorem RoundTrip.vneg (d : BitVec 6) (a : BitVec 6) (w0 : BitVec 2) (m : BitVec 3) : RoundTrip.Statement (.vneg d a w0 m) := by
  refine RoundTrip.ofV [⟨2, 0⟩, ⟨3, m⟩, ⟨2, w0⟩, ⟨6, 0⟩, ⟨6, a⟩, ⟨6, d⟩, ⟨7, 14⟩] rfl rfl ?_ fun w h => ?_
  · show en4 0x1C000000 d 19 a 13 w0 5 m 2 = _
    simp only [en4, en3, en2, en1, RoundTrip.word, BitVec.reduceToNat, Nat.reducePow]; omega
  rw [RoundTrip.to_rawV0E (RoundTrip.range h 6 1 rfl rfl rfl), rawV0E]
  have f0 : fld w 7 6 = 0 := RoundTrip.range h 3 1 rfl rfl rfl
  have f1 : fld w 0 2 = 0 := RoundTrip.range h 0 1 rfl rfl rfl
  simp only [f0, f1, Nat.reduceEqDiff, OfNat.ofNat_ne_zero, OfNat.zero_ne_ofNat, one_ne_zero, zero_ne_one, false_and, and_false, and_self, if_true, if_false]
  rw [show fbv 6 19 w = d from RoundTrip.field h 5 rfl rfl,
    show fbv 6 13 w = a from RoundTrip.field h 4 rfl rfl,
    show fbv 2 5 w = w0 from RoundTrip.field h 2 rfl rfl,
    show fbv 3 2 w = m from RoundTrip.field h 1 rfl rfl]

theorem RoundTrip.vcmp (d : BitVec 3) (a : BitVec 6) (b : BitVec 6) (w0 : BitVec 2) (m : BitVec 3) (c : BitVec 2) : RoundTrip.Statement (.vcmp d a b w0 m c) := by
  refine RoundTrip.ofV [⟨2, c⟩, ⟨3, m⟩, ⟨2, w0⟩, ⟨6, b⟩, ⟨6, a⟩, ⟨3, d⟩, ⟨3, 0⟩, ⟨7, 15⟩] rfl rfl ?_ fun w h => ?_
  · show en6 0x1E000000 d 19 a 13 b 7 w0 5 m 2 c 0 = _
    simp only [en6, en5, en4, en3, en2, en1, RoundTrip.word, BitVec.reduceToNat, Nat.reducePow]; omega
  rw [RoundTrip.to_rawV0F (RoundTrip.range h 7 1 rfl rfl rfl), rawV0F]
  have f0 : fld w 22 3 = 0 := RoundTrip.range h 6 1 rfl rfl rfl
  simp only [f0, Nat.reduceEqDiff, OfNat.ofNat_ne_zero, OfNat.zero_ne_ofNat, one_ne_zero, zero_ne_one, false_and, and_false, and_self, if_true, if_false]
  rw [show fbv 3 19 w = d from RoundTrip.field h 5 rfl rfl,
    show fbv 6 13 w = a from RoundTrip.field h 4 rfl rfl,
    show fbv 6 7 w = b from RoundTrip.field h 3 rfl rfl,
    show fbv 2 5 w = w0 from RoundTrip.field h 2 rfl rfl,
    show fbv 3 2 w = m from RoundTrip.field h 1 rfl rfl,
    show fbv 2 0 w = c from RoundTrip.field h 0 rfl rfl]

theorem RoundTrip.vsel (d : BitVec 6) (a : BitVec 6) (b : BitVec 6) (w0 : BitVec 2) (m : BitVec 3) : RoundTrip.Statement (.vsel d a b w0 m) := by
  refine RoundTrip.ofV [⟨2, 0⟩, ⟨3, m⟩, ⟨2, w0⟩, ⟨6, b⟩, ⟨6, a⟩, ⟨6, d⟩, ⟨7, 16⟩] rfl rfl ?_ fun w h => ?_
  · show en5 0x20000000 d 19 a 13 b 7 w0 5 m 2 = _
    simp only [en5, en4, en3, en2, en1, RoundTrip.word, BitVec.reduceToNat, Nat.reducePow]; omega
  rw [RoundTrip.to_rawV10 (RoundTrip.range h 6 1 rfl rfl rfl), rawV10]
  have f0 : fld w 0 2 = 0 := RoundTrip.range h 0 1 rfl rfl rfl
  simp only [f0, Nat.reduceEqDiff, OfNat.ofNat_ne_zero, OfNat.zero_ne_ofNat, one_ne_zero, zero_ne_one, false_and, and_false, and_self, if_true, if_false]
  rw [show fbv 6 19 w = d from RoundTrip.field h 5 rfl rfl,
    show fbv 6 13 w = a from RoundTrip.field h 4 rfl rfl,
    show fbv 6 7 w = b from RoundTrip.field h 3 rfl rfl,
    show fbv 2 5 w = w0 from RoundTrip.field h 2 rfl rfl,
    show fbv 3 2 w = m from RoundTrip.field h 1 rfl rfl]

theorem RoundTrip.vclass (d : BitVec 6) (a : BitVec 6) (w0 : BitVec 2) (m : BitVec 3) : RoundTrip.Statement (.vclass d a w0 m) := by
  refine RoundTrip.ofV [⟨2, 0⟩, ⟨3, m⟩, ⟨2, w0⟩, ⟨6, 0⟩, ⟨6, a⟩, ⟨6, d⟩, ⟨7, 17⟩] rfl rfl ?_ fun w h => ?_
  · show en4 0x22000000 d 19 a 13 w0 5 m 2 = _
    simp only [en4, en3, en2, en1, RoundTrip.word, BitVec.reduceToNat, Nat.reducePow]; omega
  rw [RoundTrip.to_rawV11 (RoundTrip.range h 6 1 rfl rfl rfl), rawV11]
  have f0 : fld w 7 6 = 0 := RoundTrip.range h 3 1 rfl rfl rfl
  have f1 : fld w 0 2 = 0 := RoundTrip.range h 0 1 rfl rfl rfl
  simp only [f0, f1, Nat.reduceEqDiff, OfNat.ofNat_ne_zero, OfNat.zero_ne_ofNat, one_ne_zero, zero_ne_one, false_and, and_false, and_self, if_true, if_false]
  rw [show fbv 6 19 w = d from RoundTrip.field h 5 rfl rfl,
    show fbv 6 13 w = a from RoundTrip.field h 4 rfl rfl,
    show fbv 2 5 w = w0 from RoundTrip.field h 2 rfl rfl,
    show fbv 3 2 w = m from RoundTrip.field h 1 rfl rfl]

theorem RoundTrip.vaddH (d : BitVec 6) (a : BitVec 6) (b : BitVec 6) (w0 : BitVec 2) (m : BitVec 3) (r : BitVec 2) : RoundTrip.Statement (.vaddH d a b w0 m r) := by
  refine RoundTrip.ofV [⟨2, r⟩, ⟨3, m⟩, ⟨2, w0⟩, ⟨6, b⟩, ⟨6, a⟩, ⟨6, d⟩, ⟨7, 18⟩] rfl rfl ?_ fun w h => ?_
  · show en6 0x24000000 d 19 a 13 b 7 w0 5 m 2 r 0 = _
    simp only [en6, en5, en4, en3, en2, en1, RoundTrip.word, BitVec.reduceToNat, Nat.reducePow]; omega
  rw [RoundTrip.to_rawV12 (RoundTrip.range h 6 1 rfl rfl rfl), rawV12]
  rw [show fbv 6 19 w = d from RoundTrip.field h 5 rfl rfl,
    show fbv 6 13 w = a from RoundTrip.field h 4 rfl rfl,
    show fbv 6 7 w = b from RoundTrip.field h 3 rfl rfl,
    show fbv 2 5 w = w0 from RoundTrip.field h 2 rfl rfl,
    show fbv 3 2 w = m from RoundTrip.field h 1 rfl rfl,
    show fbv 2 0 w = r from RoundTrip.field h 0 rfl rfl]

theorem RoundTrip.vsubH (d : BitVec 6) (a : BitVec 6) (b : BitVec 6) (w0 : BitVec 2) (m : BitVec 3) (r : BitVec 2) : RoundTrip.Statement (.vsubH d a b w0 m r) := by
  refine RoundTrip.ofV [⟨2, r⟩, ⟨3, m⟩, ⟨2, w0⟩, ⟨6, b⟩, ⟨6, a⟩, ⟨6, d⟩, ⟨7, 19⟩] rfl rfl ?_ fun w h => ?_
  · show en6 0x26000000 d 19 a 13 b 7 w0 5 m 2 r 0 = _
    simp only [en6, en5, en4, en3, en2, en1, RoundTrip.word, BitVec.reduceToNat, Nat.reducePow]; omega
  rw [RoundTrip.to_rawV13 (RoundTrip.range h 6 1 rfl rfl rfl), rawV13]
  rw [show fbv 6 19 w = d from RoundTrip.field h 5 rfl rfl,
    show fbv 6 13 w = a from RoundTrip.field h 4 rfl rfl,
    show fbv 6 7 w = b from RoundTrip.field h 3 rfl rfl,
    show fbv 2 5 w = w0 from RoundTrip.field h 2 rfl rfl,
    show fbv 3 2 w = m from RoundTrip.field h 1 rfl rfl,
    show fbv 2 0 w = r from RoundTrip.field h 0 rfl rfl]

theorem RoundTrip.vmulH (d : BitVec 6) (a : BitVec 6) (b : BitVec 6) (w0 : BitVec 2) (m : BitVec 3) (r : BitVec 2) : RoundTrip.Statement (.vmulH d a b w0 m r) := by
  refine RoundTrip.ofV [⟨2, r⟩, ⟨3, m⟩, ⟨2, w0⟩, ⟨6, b⟩, ⟨6, a⟩, ⟨6, d⟩, ⟨7, 20⟩] rfl rfl ?_ fun w h => ?_
  · show en6 0x28000000 d 19 a 13 b 7 w0 5 m 2 r 0 = _
    simp only [en6, en5, en4, en3, en2, en1, RoundTrip.word, BitVec.reduceToNat, Nat.reducePow]; omega
  rw [RoundTrip.to_rawV14 (RoundTrip.range h 6 1 rfl rfl rfl), rawV14]
  rw [show fbv 6 19 w = d from RoundTrip.field h 5 rfl rfl,
    show fbv 6 13 w = a from RoundTrip.field h 4 rfl rfl,
    show fbv 6 7 w = b from RoundTrip.field h 3 rfl rfl,
    show fbv 2 5 w = w0 from RoundTrip.field h 2 rfl rfl,
    show fbv 3 2 w = m from RoundTrip.field h 1 rfl rfl,
    show fbv 2 0 w = r from RoundTrip.field h 0 rfl rfl]

theorem RoundTrip.vfmaH (d : BitVec 6) (a : BitVec 6) (b : BitVec 6) (w0 : BitVec 2) (m : BitVec 3) (r : BitVec 2) : RoundTrip.Statement (.vfmaH d a b w0 m r) := by
  refine RoundTrip.ofV [⟨2, r⟩, ⟨3, m⟩, ⟨2, w0⟩, ⟨6, b⟩, ⟨6, a⟩, ⟨6, d⟩, ⟨7, 21⟩] rfl rfl ?_ fun w h => ?_
  · show en6 0x2A000000 d 19 a 13 b 7 w0 5 m 2 r 0 = _
    simp only [en6, en5, en4, en3, en2, en1, RoundTrip.word, BitVec.reduceToNat, Nat.reducePow]; omega
  rw [RoundTrip.to_rawV15 (RoundTrip.range h 6 1 rfl rfl rfl), rawV15]
  rw [show fbv 6 19 w = d from RoundTrip.field h 5 rfl rfl,
    show fbv 6 13 w = a from RoundTrip.field h 4 rfl rfl,
    show fbv 6 7 w = b from RoundTrip.field h 3 rfl rfl,
    show fbv 2 5 w = w0 from RoundTrip.field h 2 rfl rfl,
    show fbv 3 2 w = m from RoundTrip.field h 1 rfl rfl,
    show fbv 2 0 w = r from RoundTrip.field h 0 rfl rfl]

theorem RoundTrip.vfmsH (d : BitVec 6) (a : BitVec 6) (b : BitVec 6) (w0 : BitVec 2) (m : BitVec 3) (r : BitVec 2) : RoundTrip.Statement (.vfmsH d a b w0 m r) := by
  refine RoundTrip.ofV [⟨2, r⟩, ⟨3, m⟩, ⟨2, w0⟩, ⟨6, b⟩, ⟨6, a⟩, ⟨6, d⟩, ⟨7, 22⟩] rfl rfl ?_ fun w h => ?_
  · show en6 0x2C000000 d 19 a 13 b 7 w0 5 m 2 r 0 = _
    simp only [en6, en5, en4, en3, en2, en1, RoundTrip.word, BitVec.reduceToNat, Nat.reducePow]; omega
  rw [RoundTrip.to_rawV16 (RoundTrip.range h 6 1 rfl rfl rfl), rawV16]
  rw [show fbv 6 19 w = d from RoundTrip.field h 5 rfl rfl,
    show fbv 6 13 w = a from RoundTrip.field h 4 rfl rfl,
    show fbv 6 7 w = b from RoundTrip.field h 3 rfl rfl,
    show fbv 2 5 w = w0 from RoundTrip.field h 2 rfl rfl,
    show fbv 3 2 w = m from RoundTrip.field h 1 rfl rfl,
    show fbv 2 0 w = r from RoundTrip.field h 0 rfl rfl]

theorem RoundTrip.vfnmaH (d : BitVec 6) (a : BitVec 6) (b : BitVec 6) (w0 : BitVec 2) (m : BitVec 3) (r : BitVec 2) : RoundTrip.Statement (.vfnmaH d a b w0 m r) := by
  refine RoundTrip.ofV [⟨2, r⟩, ⟨3, m⟩, ⟨2, w0⟩, ⟨6, b⟩, ⟨6, a⟩, ⟨6, d⟩, ⟨7, 23⟩] rfl rfl ?_ fun w h => ?_
  · show en6 0x2E000000 d 19 a 13 b 7 w0 5 m 2 r 0 = _
    simp only [en6, en5, en4, en3, en2, en1, RoundTrip.word, BitVec.reduceToNat, Nat.reducePow]; omega
  rw [RoundTrip.to_rawV17 (RoundTrip.range h 6 1 rfl rfl rfl), rawV17]
  rw [show fbv 6 19 w = d from RoundTrip.field h 5 rfl rfl,
    show fbv 6 13 w = a from RoundTrip.field h 4 rfl rfl,
    show fbv 6 7 w = b from RoundTrip.field h 3 rfl rfl,
    show fbv 2 5 w = w0 from RoundTrip.field h 2 rfl rfl,
    show fbv 3 2 w = m from RoundTrip.field h 1 rfl rfl,
    show fbv 2 0 w = r from RoundTrip.field h 0 rfl rfl]

theorem RoundTrip.vminH (d : BitVec 6) (a : BitVec 6) (b : BitVec 6) (w0 : BitVec 2) (m : BitVec 3) : RoundTrip.Statement (.vminH d a b w0 m) := by
  refine RoundTrip.ofV [⟨2, 0⟩, ⟨3, m⟩, ⟨2, w0⟩, ⟨6, b⟩, ⟨6, a⟩, ⟨6, d⟩, ⟨7, 24⟩] rfl rfl ?_ fun w h => ?_
  · show en5 0x30000000 d 19 a 13 b 7 w0 5 m 2 = _
    simp only [en5, en4, en3, en2, en1, RoundTrip.word, BitVec.reduceToNat, Nat.reducePow]; omega
  rw [RoundTrip.to_rawV18 (RoundTrip.range h 6 1 rfl rfl rfl), rawV18]
  have f0 : fld w 0 2 = 0 := RoundTrip.range h 0 1 rfl rfl rfl
  simp only [f0, Nat.reduceEqDiff, OfNat.ofNat_ne_zero, OfNat.zero_ne_ofNat, one_ne_zero, zero_ne_one, false_and, and_false, and_self, if_true, if_false]
  rw [show fbv 6 19 w = d from RoundTrip.field h 5 rfl rfl,
    show fbv 6 13 w = a from RoundTrip.field h 4 rfl rfl,
    show fbv 6 7 w = b from RoundTrip.field h 3 rfl rfl,
    show fbv 2 5 w = w0 from RoundTrip.field h 2 rfl rfl,
    show fbv 3 2 w = m from RoundTrip.field h 1 rfl rfl]

theorem RoundTrip.vmaxH (d : BitVec 6) (a : BitVec 6) (b : BitVec 6) (w0 : BitVec 2) (m : BitVec 3) : RoundTrip.Statement (.vmaxH d a b w0 m) := by
  refine RoundTrip.ofV [⟨2, 0⟩, ⟨3, m⟩, ⟨2, w0⟩, ⟨6, b⟩, ⟨6, a⟩, ⟨6, d⟩, ⟨7, 25⟩] rfl rfl ?_ fun w h => ?_
  · show en5 0x32000000 d 19 a 13 b 7 w0 5 m 2 = _
    simp only [en5, en4, en3, en2, en1, RoundTrip.word, BitVec.reduceToNat, Nat.reducePow]; omega
  rw [RoundTrip.to_rawV19 (RoundTrip.range h 6 1 rfl rfl rfl), rawV19]
  have f0 : fld w 0 2 = 0 := RoundTrip.range h 0 1 rfl rfl rfl
  simp only [f0, Nat.reduceEqDiff, OfNat.ofNat_ne_zero, OfNat.zero_ne_ofNat, one_ne_zero, zero_ne_one, false_and, and_false, and_self, if_true, if_false]
  rw [show fbv 6 19 w = d from RoundTrip.field h 5 rfl rfl,
    show fbv 6 13 w = a from RoundTrip.field h 4 rfl rfl,
    show fbv 6 7 w = b from RoundTrip.field h 3 rfl rfl,
    show fbv 2 5 w = w0 from RoundTrip.field h 2 rfl rfl,
    show fbv 3 2 w = m from RoundTrip.field h 1 rfl rfl]

theorem RoundTrip.vabsH (d : BitVec 6) (a : BitVec 6) (w0 : BitVec 2) (m : BitVec 3) : RoundTrip.Statement (.vabsH d a w0 m) := by
  refine RoundTrip.ofV [⟨2, 0⟩, ⟨3, m⟩, ⟨2, w0⟩, ⟨6, 0⟩, ⟨6, a⟩, ⟨6, d⟩, ⟨7, 26⟩] rfl rfl ?_ fun w h => ?_
  · show en4 0x34000000 d 19 a 13 w0 5 m 2 = _
    simp only [en4, en3, en2, en1, RoundTrip.word, BitVec.reduceToNat, Nat.reducePow]; omega
  rw [RoundTrip.to_rawV1A (RoundTrip.range h 6 1 rfl rfl rfl), rawV1A]
  have f0 : fld w 7 6 = 0 := RoundTrip.range h 3 1 rfl rfl rfl
  have f1 : fld w 0 2 = 0 := RoundTrip.range h 0 1 rfl rfl rfl
  simp only [f0, f1, Nat.reduceEqDiff, OfNat.ofNat_ne_zero, OfNat.zero_ne_ofNat, one_ne_zero, zero_ne_one, false_and, and_false, and_self, if_true, if_false]
  rw [show fbv 6 19 w = d from RoundTrip.field h 5 rfl rfl,
    show fbv 6 13 w = a from RoundTrip.field h 4 rfl rfl,
    show fbv 2 5 w = w0 from RoundTrip.field h 2 rfl rfl,
    show fbv 3 2 w = m from RoundTrip.field h 1 rfl rfl]

theorem RoundTrip.vnegH (d : BitVec 6) (a : BitVec 6) (w0 : BitVec 2) (m : BitVec 3) : RoundTrip.Statement (.vnegH d a w0 m) := by
  refine RoundTrip.ofV [⟨2, 0⟩, ⟨3, m⟩, ⟨2, w0⟩, ⟨6, 0⟩, ⟨6, a⟩, ⟨6, d⟩, ⟨7, 27⟩] rfl rfl ?_ fun w h => ?_
  · show en4 0x36000000 d 19 a 13 w0 5 m 2 = _
    simp only [en4, en3, en2, en1, RoundTrip.word, BitVec.reduceToNat, Nat.reducePow]; omega
  rw [RoundTrip.to_rawV1B (RoundTrip.range h 6 1 rfl rfl rfl), rawV1B]
  have f0 : fld w 7 6 = 0 := RoundTrip.range h 3 1 rfl rfl rfl
  have f1 : fld w 0 2 = 0 := RoundTrip.range h 0 1 rfl rfl rfl
  simp only [f0, f1, Nat.reduceEqDiff, OfNat.ofNat_ne_zero, OfNat.zero_ne_ofNat, one_ne_zero, zero_ne_one, false_and, and_false, and_self, if_true, if_false]
  rw [show fbv 6 19 w = d from RoundTrip.field h 5 rfl rfl,
    show fbv 6 13 w = a from RoundTrip.field h 4 rfl rfl,
    show fbv 2 5 w = w0 from RoundTrip.field h 2 rfl rfl,
    show fbv 3 2 w = m from RoundTrip.field h 1 rfl rfl]

theorem RoundTrip.vcmpH (e : BitVec 1) (d : BitVec 3) (a : BitVec 6) (b : BitVec 6) (w0 : BitVec 2) (m : BitVec 3) (c : BitVec 2) : RoundTrip.Statement (.vcmpH e d a b w0 m c) := by
  refine RoundTrip.ofV [⟨2, c⟩, ⟨3, m⟩, ⟨2, w0⟩, ⟨6, b⟩, ⟨6, a⟩, ⟨3, d⟩, ⟨1, e⟩, ⟨2, 0⟩, ⟨7, 28⟩] rfl rfl ?_ fun w h => ?_
  · show en7 0x38000000 e 22 d 19 a 13 b 7 w0 5 m 2 c 0 = _
    simp only [en7, en6, en5, en4, en3, en2, en1, RoundTrip.word, BitVec.reduceToNat, Nat.reducePow]; omega
  rw [RoundTrip.to_rawV1C (RoundTrip.range h 8 1 rfl rfl rfl), rawV1C]
  have f0 : fld w 23 2 = 0 := RoundTrip.range h 7 1 rfl rfl rfl
  simp only [f0, Nat.reduceEqDiff, OfNat.ofNat_ne_zero, OfNat.zero_ne_ofNat, one_ne_zero, zero_ne_one, false_and, and_false, and_self, if_true, if_false]
  rw [show fbv 1 22 w = e from RoundTrip.field h 6 rfl rfl,
    show fbv 3 19 w = d from RoundTrip.field h 5 rfl rfl,
    show fbv 6 13 w = a from RoundTrip.field h 4 rfl rfl,
    show fbv 6 7 w = b from RoundTrip.field h 3 rfl rfl,
    show fbv 2 5 w = w0 from RoundTrip.field h 2 rfl rfl,
    show fbv 3 2 w = m from RoundTrip.field h 1 rfl rfl,
    show fbv 2 0 w = c from RoundTrip.field h 0 rfl rfl]

theorem RoundTrip.vselH (d : BitVec 6) (a : BitVec 6) (b : BitVec 6) (w0 : BitVec 2) (m : BitVec 3) : RoundTrip.Statement (.vselH d a b w0 m) := by
  refine RoundTrip.ofV [⟨2, 0⟩, ⟨3, m⟩, ⟨2, w0⟩, ⟨6, b⟩, ⟨6, a⟩, ⟨6, d⟩, ⟨7, 29⟩] rfl rfl ?_ fun w h => ?_
  · show en5 0x3A000000 d 19 a 13 b 7 w0 5 m 2 = _
    simp only [en5, en4, en3, en2, en1, RoundTrip.word, BitVec.reduceToNat, Nat.reducePow]; omega
  rw [RoundTrip.to_rawV1D (RoundTrip.range h 6 1 rfl rfl rfl), rawV1D]
  have f0 : fld w 0 2 = 0 := RoundTrip.range h 0 1 rfl rfl rfl
  simp only [f0, Nat.reduceEqDiff, OfNat.ofNat_ne_zero, OfNat.zero_ne_ofNat, one_ne_zero, zero_ne_one, false_and, and_false, and_self, if_true, if_false]
  rw [show fbv 6 19 w = d from RoundTrip.field h 5 rfl rfl,
    show fbv 6 13 w = a from RoundTrip.field h 4 rfl rfl,
    show fbv 6 7 w = b from RoundTrip.field h 3 rfl rfl,
    show fbv 2 5 w = w0 from RoundTrip.field h 2 rfl rfl,
    show fbv 3 2 w = m from RoundTrip.field h 1 rfl rfl]

theorem RoundTrip.vaddB (d : BitVec 6) (a : BitVec 6) (b : BitVec 6) (w0 : BitVec 2) (m : BitVec 3) (r : BitVec 2) : RoundTrip.Statement (.vaddB d a b w0 m r) := by
  refine RoundTrip.ofV [⟨2, r⟩, ⟨3, m⟩, ⟨2, w0⟩, ⟨6, b⟩, ⟨6, a⟩, ⟨6, d⟩, ⟨7, 30⟩] rfl rfl ?_ fun w h => ?_
  · show en6 0x3C000000 d 19 a 13 b 7 w0 5 m 2 r 0 = _
    simp only [en6, en5, en4, en3, en2, en1, RoundTrip.word, BitVec.reduceToNat, Nat.reducePow]; omega
  rw [RoundTrip.to_rawV1E (RoundTrip.range h 6 1 rfl rfl rfl), rawV1E]
  rw [show fbv 6 19 w = d from RoundTrip.field h 5 rfl rfl,
    show fbv 6 13 w = a from RoundTrip.field h 4 rfl rfl,
    show fbv 6 7 w = b from RoundTrip.field h 3 rfl rfl,
    show fbv 2 5 w = w0 from RoundTrip.field h 2 rfl rfl,
    show fbv 3 2 w = m from RoundTrip.field h 1 rfl rfl,
    show fbv 2 0 w = r from RoundTrip.field h 0 rfl rfl]

theorem RoundTrip.vsubB (d : BitVec 6) (a : BitVec 6) (b : BitVec 6) (w0 : BitVec 2) (m : BitVec 3) (r : BitVec 2) : RoundTrip.Statement (.vsubB d a b w0 m r) := by
  refine RoundTrip.ofV [⟨2, r⟩, ⟨3, m⟩, ⟨2, w0⟩, ⟨6, b⟩, ⟨6, a⟩, ⟨6, d⟩, ⟨7, 31⟩] rfl rfl ?_ fun w h => ?_
  · show en6 0x3E000000 d 19 a 13 b 7 w0 5 m 2 r 0 = _
    simp only [en6, en5, en4, en3, en2, en1, RoundTrip.word, BitVec.reduceToNat, Nat.reducePow]; omega
  rw [RoundTrip.to_rawV1F (RoundTrip.range h 6 1 rfl rfl rfl), rawV1F]
  rw [show fbv 6 19 w = d from RoundTrip.field h 5 rfl rfl,
    show fbv 6 13 w = a from RoundTrip.field h 4 rfl rfl,
    show fbv 6 7 w = b from RoundTrip.field h 3 rfl rfl,
    show fbv 2 5 w = w0 from RoundTrip.field h 2 rfl rfl,
    show fbv 3 2 w = m from RoundTrip.field h 1 rfl rfl,
    show fbv 2 0 w = r from RoundTrip.field h 0 rfl rfl]

theorem RoundTrip.vmulB (d : BitVec 6) (a : BitVec 6) (b : BitVec 6) (w0 : BitVec 2) (m : BitVec 3) (r : BitVec 2) : RoundTrip.Statement (.vmulB d a b w0 m r) := by
  refine RoundTrip.ofV [⟨2, r⟩, ⟨3, m⟩, ⟨2, w0⟩, ⟨6, b⟩, ⟨6, a⟩, ⟨6, d⟩, ⟨7, 32⟩] rfl rfl ?_ fun w h => ?_
  · show en6 0x40000000 d 19 a 13 b 7 w0 5 m 2 r 0 = _
    simp only [en6, en5, en4, en3, en2, en1, RoundTrip.word, BitVec.reduceToNat, Nat.reducePow]; omega
  rw [RoundTrip.to_rawV20 (RoundTrip.range h 6 1 rfl rfl rfl), rawV20]
  rw [show fbv 6 19 w = d from RoundTrip.field h 5 rfl rfl,
    show fbv 6 13 w = a from RoundTrip.field h 4 rfl rfl,
    show fbv 6 7 w = b from RoundTrip.field h 3 rfl rfl,
    show fbv 2 5 w = w0 from RoundTrip.field h 2 rfl rfl,
    show fbv 3 2 w = m from RoundTrip.field h 1 rfl rfl,
    show fbv 2 0 w = r from RoundTrip.field h 0 rfl rfl]

theorem RoundTrip.vfmaB (d : BitVec 6) (a : BitVec 6) (b : BitVec 6) (w0 : BitVec 2) (m : BitVec 3) (r : BitVec 2) : RoundTrip.Statement (.vfmaB d a b w0 m r) := by
  refine RoundTrip.ofV [⟨2, r⟩, ⟨3, m⟩, ⟨2, w0⟩, ⟨6, b⟩, ⟨6, a⟩, ⟨6, d⟩, ⟨7, 33⟩] rfl rfl ?_ fun w h => ?_
  · show en6 0x42000000 d 19 a 13 b 7 w0 5 m 2 r 0 = _
    simp only [en6, en5, en4, en3, en2, en1, RoundTrip.word, BitVec.reduceToNat, Nat.reducePow]; omega
  rw [RoundTrip.to_rawV21 (RoundTrip.range h 6 1 rfl rfl rfl), rawV21]
  rw [show fbv 6 19 w = d from RoundTrip.field h 5 rfl rfl,
    show fbv 6 13 w = a from RoundTrip.field h 4 rfl rfl,
    show fbv 6 7 w = b from RoundTrip.field h 3 rfl rfl,
    show fbv 2 5 w = w0 from RoundTrip.field h 2 rfl rfl,
    show fbv 3 2 w = m from RoundTrip.field h 1 rfl rfl,
    show fbv 2 0 w = r from RoundTrip.field h 0 rfl rfl]

theorem RoundTrip.vfmsB (d : BitVec 6) (a : BitVec 6) (b : BitVec 6) (w0 : BitVec 2) (m : BitVec 3) (r : BitVec 2) : RoundTrip.Statement (.vfmsB d a b w0 m r) := by
  refine RoundTrip.ofV [⟨2, r⟩, ⟨3, m⟩, ⟨2, w0⟩, ⟨6, b⟩, ⟨6, a⟩, ⟨6, d⟩, ⟨7, 34⟩] rfl rfl ?_ fun w h => ?_
  · show en6 0x44000000 d 19 a 13 b 7 w0 5 m 2 r 0 = _
    simp only [en6, en5, en4, en3, en2, en1, RoundTrip.word, BitVec.reduceToNat, Nat.reducePow]; omega
  rw [RoundTrip.to_rawV22 (RoundTrip.range h 6 1 rfl rfl rfl), rawV22]
  rw [show fbv 6 19 w = d from RoundTrip.field h 5 rfl rfl,
    show fbv 6 13 w = a from RoundTrip.field h 4 rfl rfl,
    show fbv 6 7 w = b from RoundTrip.field h 3 rfl rfl,
    show fbv 2 5 w = w0 from RoundTrip.field h 2 rfl rfl,
    show fbv 3 2 w = m from RoundTrip.field h 1 rfl rfl,
    show fbv 2 0 w = r from RoundTrip.field h 0 rfl rfl]

theorem RoundTrip.vfnmaB (d : BitVec 6) (a : BitVec 6) (b : BitVec 6) (w0 : BitVec 2) (m : BitVec 3) (r : BitVec 2) : RoundTrip.Statement (.vfnmaB d a b w0 m r) := by
  refine RoundTrip.ofV [⟨2, r⟩, ⟨3, m⟩, ⟨2, w0⟩, ⟨6, b⟩, ⟨6, a⟩, ⟨6, d⟩, ⟨7, 35⟩] rfl rfl ?_ fun w h => ?_
  · show en6 0x46000000 d 19 a 13 b 7 w0 5 m 2 r 0 = _
    simp only [en6, en5, en4, en3, en2, en1, RoundTrip.word, BitVec.reduceToNat, Nat.reducePow]; omega
  rw [RoundTrip.to_rawV23 (RoundTrip.range h 6 1 rfl rfl rfl), rawV23]
  rw [show fbv 6 19 w = d from RoundTrip.field h 5 rfl rfl,
    show fbv 6 13 w = a from RoundTrip.field h 4 rfl rfl,
    show fbv 6 7 w = b from RoundTrip.field h 3 rfl rfl,
    show fbv 2 5 w = w0 from RoundTrip.field h 2 rfl rfl,
    show fbv 3 2 w = m from RoundTrip.field h 1 rfl rfl,
    show fbv 2 0 w = r from RoundTrip.field h 0 rfl rfl]

theorem RoundTrip.vminB (d : BitVec 6) (a : BitVec 6) (b : BitVec 6) (w0 : BitVec 2) (m : BitVec 3) : RoundTrip.Statement (.vminB d a b w0 m) := by
  refine RoundTrip.ofV [⟨2, 0⟩, ⟨3, m⟩, ⟨2, w0⟩, ⟨6, b⟩, ⟨6, a⟩, ⟨6, d⟩, ⟨7, 36⟩] rfl rfl ?_ fun w h => ?_
  · show en5 0x48000000 d 19 a 13 b 7 w0 5 m 2 = _
    simp only [en5, en4, en3, en2, en1, RoundTrip.word, BitVec.reduceToNat, Nat.reducePow]; omega
  rw [RoundTrip.to_rawV24 (RoundTrip.range h 6 1 rfl rfl rfl), rawV24]
  have f0 : fld w 0 2 = 0 := RoundTrip.range h 0 1 rfl rfl rfl
  simp only [f0, Nat.reduceEqDiff, OfNat.ofNat_ne_zero, OfNat.zero_ne_ofNat, one_ne_zero, zero_ne_one, false_and, and_false, and_self, if_true, if_false]
  rw [show fbv 6 19 w = d from RoundTrip.field h 5 rfl rfl,
    show fbv 6 13 w = a from RoundTrip.field h 4 rfl rfl,
    show fbv 6 7 w = b from RoundTrip.field h 3 rfl rfl,
    show fbv 2 5 w = w0 from RoundTrip.field h 2 rfl rfl,
    show fbv 3 2 w = m from RoundTrip.field h 1 rfl rfl]

theorem RoundTrip.vmaxB (d : BitVec 6) (a : BitVec 6) (b : BitVec 6) (w0 : BitVec 2) (m : BitVec 3) : RoundTrip.Statement (.vmaxB d a b w0 m) := by
  refine RoundTrip.ofV [⟨2, 0⟩, ⟨3, m⟩, ⟨2, w0⟩, ⟨6, b⟩, ⟨6, a⟩, ⟨6, d⟩, ⟨7, 37⟩] rfl rfl ?_ fun w h => ?_
  · show en5 0x4A000000 d 19 a 13 b 7 w0 5 m 2 = _
    simp only [en5, en4, en3, en2, en1, RoundTrip.word, BitVec.reduceToNat, Nat.reducePow]; omega
  rw [RoundTrip.to_rawV25 (RoundTrip.range h 6 1 rfl rfl rfl), rawV25]
  have f0 : fld w 0 2 = 0 := RoundTrip.range h 0 1 rfl rfl rfl
  simp only [f0, Nat.reduceEqDiff, OfNat.ofNat_ne_zero, OfNat.zero_ne_ofNat, one_ne_zero, zero_ne_one, false_and, and_false, and_self, if_true, if_false]
  rw [show fbv 6 19 w = d from RoundTrip.field h 5 rfl rfl,
    show fbv 6 13 w = a from RoundTrip.field h 4 rfl rfl,
    show fbv 6 7 w = b from RoundTrip.field h 3 rfl rfl,
    show fbv 2 5 w = w0 from RoundTrip.field h 2 rfl rfl,
    show fbv 3 2 w = m from RoundTrip.field h 1 rfl rfl]

theorem RoundTrip.vabsB (d : BitVec 6) (a : BitVec 6) (w0 : BitVec 2) (m : BitVec 3) : RoundTrip.Statement (.vabsB d a w0 m) := by
  refine RoundTrip.ofV [⟨2, 0⟩, ⟨3, m⟩, ⟨2, w0⟩, ⟨6, 0⟩, ⟨6, a⟩, ⟨6, d⟩, ⟨7, 38⟩] rfl rfl ?_ fun w h => ?_
  · show en4 0x4C000000 d 19 a 13 w0 5 m 2 = _
    simp only [en4, en3, en2, en1, RoundTrip.word, BitVec.reduceToNat, Nat.reducePow]; omega
  rw [RoundTrip.to_rawV26 (RoundTrip.range h 6 1 rfl rfl rfl), rawV26]
  have f0 : fld w 7 6 = 0 := RoundTrip.range h 3 1 rfl rfl rfl
  have f1 : fld w 0 2 = 0 := RoundTrip.range h 0 1 rfl rfl rfl
  simp only [f0, f1, Nat.reduceEqDiff, OfNat.ofNat_ne_zero, OfNat.zero_ne_ofNat, one_ne_zero, zero_ne_one, false_and, and_false, and_self, if_true, if_false]
  rw [show fbv 6 19 w = d from RoundTrip.field h 5 rfl rfl,
    show fbv 6 13 w = a from RoundTrip.field h 4 rfl rfl,
    show fbv 2 5 w = w0 from RoundTrip.field h 2 rfl rfl,
    show fbv 3 2 w = m from RoundTrip.field h 1 rfl rfl]

theorem RoundTrip.vnegB (d : BitVec 6) (a : BitVec 6) (w0 : BitVec 2) (m : BitVec 3) : RoundTrip.Statement (.vnegB d a w0 m) := by
  refine RoundTrip.ofV [⟨2, 0⟩, ⟨3, m⟩, ⟨2, w0⟩, ⟨6, 0⟩, ⟨6, a⟩, ⟨6, d⟩, ⟨7, 39⟩] rfl rfl ?_ fun w h => ?_
  · show en4 0x4E000000 d 19 a 13 w0 5 m 2 = _
    simp only [en4, en3, en2, en1, RoundTrip.word, BitVec.reduceToNat, Nat.reducePow]; omega
  rw [RoundTrip.to_rawV27 (RoundTrip.range h 6 1 rfl rfl rfl), rawV27]
  have f0 : fld w 7 6 = 0 := RoundTrip.range h 3 1 rfl rfl rfl
  have f1 : fld w 0 2 = 0 := RoundTrip.range h 0 1 rfl rfl rfl
  simp only [f0, f1, Nat.reduceEqDiff, OfNat.ofNat_ne_zero, OfNat.zero_ne_ofNat, one_ne_zero, zero_ne_one, false_and, and_false, and_self, if_true, if_false]
  rw [show fbv 6 19 w = d from RoundTrip.field h 5 rfl rfl,
    show fbv 6 13 w = a from RoundTrip.field h 4 rfl rfl,
    show fbv 2 5 w = w0 from RoundTrip.field h 2 rfl rfl,
    show fbv 3 2 w = m from RoundTrip.field h 1 rfl rfl]

theorem RoundTrip.vcmpB (e : BitVec 1) (d : BitVec 3) (a : BitVec 6) (b : BitVec 6) (w0 : BitVec 2) (m : BitVec 3) (c : BitVec 2) : RoundTrip.Statement (.vcmpB e d a b w0 m c) := by
  refine RoundTrip.ofV [⟨2, c⟩, ⟨3, m⟩, ⟨2, w0⟩, ⟨6, b⟩, ⟨6, a⟩, ⟨3, d⟩, ⟨1, e⟩, ⟨2, 0⟩, ⟨7, 40⟩] rfl rfl ?_ fun w h => ?_
  · show en7 0x50000000 e 22 d 19 a 13 b 7 w0 5 m 2 c 0 = _
    simp only [en7, en6, en5, en4, en3, en2, en1, RoundTrip.word, BitVec.reduceToNat, Nat.reducePow]; omega
  rw [RoundTrip.to_rawV28 (RoundTrip.range h 8 1 rfl rfl rfl), rawV28]
  have f0 : fld w 23 2 = 0 := RoundTrip.range h 7 1 rfl rfl rfl
  simp only [f0, Nat.reduceEqDiff, OfNat.ofNat_ne_zero, OfNat.zero_ne_ofNat, one_ne_zero, zero_ne_one, false_and, and_false, and_self, if_true, if_false]
  rw [show fbv 1 22 w = e from RoundTrip.field h 6 rfl rfl,
    show fbv 3 19 w = d from RoundTrip.field h 5 rfl rfl,
    show fbv 6 13 w = a from RoundTrip.field h 4 rfl rfl,
    show fbv 6 7 w = b from RoundTrip.field h 3 rfl rfl,
    show fbv 2 5 w = w0 from RoundTrip.field h 2 rfl rfl,
    show fbv 3 2 w = m from RoundTrip.field h 1 rfl rfl,
    show fbv 2 0 w = c from RoundTrip.field h 0 rfl rfl]

theorem RoundTrip.vselB (d : BitVec 6) (a : BitVec 6) (b : BitVec 6) (w0 : BitVec 2) (m : BitVec 3) : RoundTrip.Statement (.vselB d a b w0 m) := by
  refine RoundTrip.ofV [⟨2, 0⟩, ⟨3, m⟩, ⟨2, w0⟩, ⟨6, b⟩, ⟨6, a⟩, ⟨6, d⟩, ⟨7, 41⟩] rfl rfl ?_ fun w h => ?_
  · show en5 0x52000000 d 19 a 13 b 7 w0 5 m 2 = _
    simp only [en5, en4, en3, en2, en1, RoundTrip.word, BitVec.reduceToNat, Nat.reducePow]; omega
  rw [RoundTrip.to_rawV29 (RoundTrip.range h 6 1 rfl rfl rfl), rawV29]
  have f0 : fld w 0 2 = 0 := RoundTrip.range h 0 1 rfl rfl rfl
  simp only [f0, Nat.reduceEqDiff, OfNat.ofNat_ne_zero, OfNat.zero_ne_ofNat, one_ne_zero, zero_ne_one, false_and, and_false, and_self, if_true, if_false]
  rw [show fbv 6 19 w = d from RoundTrip.field h 5 rfl rfl,
    show fbv 6 13 w = a from RoundTrip.field h 4 rfl rfl,
    show fbv 6 7 w = b from RoundTrip.field h 3 rfl rfl,
    show fbv 2 5 w = w0 from RoundTrip.field h 2 rfl rfl,
    show fbv 3 2 w = m from RoundTrip.field h 1 rfl rfl]

theorem RoundTrip.vaddx (d : BitVec 6) (a : BitVec 6) (b : BitVec 6) (w0 : BitVec 2) (m : BitVec 3) (r : BitVec 2) : RoundTrip.Statement (.vaddx d a b w0 m r) := by
  refine RoundTrip.ofV [⟨2, r⟩, ⟨3, m⟩, ⟨2, w0⟩, ⟨6, b⟩, ⟨6, a⟩, ⟨6, d⟩, ⟨7, 48⟩] rfl rfl ?_ fun w h => ?_
  · show en6 0x60000000 d 19 a 13 b 7 w0 5 m 2 r 0 = _
    simp only [en6, en5, en4, en3, en2, en1, RoundTrip.word, BitVec.reduceToNat, Nat.reducePow]; omega
  rw [RoundTrip.to_rawV30 (RoundTrip.range h 6 1 rfl rfl rfl), rawV30]
  rw [show fbv 6 19 w = d from RoundTrip.field h 5 rfl rfl,
    show fbv 6 13 w = a from RoundTrip.field h 4 rfl rfl,
    show fbv 6 7 w = b from RoundTrip.field h 3 rfl rfl,
    show fbv 2 5 w = w0 from RoundTrip.field h 2 rfl rfl,
    show fbv 3 2 w = m from RoundTrip.field h 1 rfl rfl,
    show fbv 2 0 w = r from RoundTrip.field h 0 rfl rfl]

theorem RoundTrip.vsubx (d : BitVec 6) (a : BitVec 6) (b : BitVec 6) (w0 : BitVec 2) (m : BitVec 3) (r : BitVec 2) : RoundTrip.Statement (.vsubx d a b w0 m r) := by
  refine RoundTrip.ofV [⟨2, r⟩, ⟨3, m⟩, ⟨2, w0⟩, ⟨6, b⟩, ⟨6, a⟩, ⟨6, d⟩, ⟨7, 49⟩] rfl rfl ?_ fun w h => ?_
  · show en6 0x62000000 d 19 a 13 b 7 w0 5 m 2 r 0 = _
    simp only [en6, en5, en4, en3, en2, en1, RoundTrip.word, BitVec.reduceToNat, Nat.reducePow]; omega
  rw [RoundTrip.to_rawV31 (RoundTrip.range h 6 1 rfl rfl rfl), rawV31]
  rw [show fbv 6 19 w = d from RoundTrip.field h 5 rfl rfl,
    show fbv 6 13 w = a from RoundTrip.field h 4 rfl rfl,
    show fbv 6 7 w = b from RoundTrip.field h 3 rfl rfl,
    show fbv 2 5 w = w0 from RoundTrip.field h 2 rfl rfl,
    show fbv 3 2 w = m from RoundTrip.field h 1 rfl rfl,
    show fbv 2 0 w = r from RoundTrip.field h 0 rfl rfl]

theorem RoundTrip.vmulx (d : BitVec 6) (a : BitVec 6) (b : BitVec 6) (w0 : BitVec 2) (m : BitVec 3) (r : BitVec 2) : RoundTrip.Statement (.vmulx d a b w0 m r) := by
  refine RoundTrip.ofV [⟨2, r⟩, ⟨3, m⟩, ⟨2, w0⟩, ⟨6, b⟩, ⟨6, a⟩, ⟨6, d⟩, ⟨7, 50⟩] rfl rfl ?_ fun w h => ?_
  · show en6 0x64000000 d 19 a 13 b 7 w0 5 m 2 r 0 = _
    simp only [en6, en5, en4, en3, en2, en1, RoundTrip.word, BitVec.reduceToNat, Nat.reducePow]; omega
  rw [RoundTrip.to_rawV32 (RoundTrip.range h 6 1 rfl rfl rfl), rawV32]
  rw [show fbv 6 19 w = d from RoundTrip.field h 5 rfl rfl,
    show fbv 6 13 w = a from RoundTrip.field h 4 rfl rfl,
    show fbv 6 7 w = b from RoundTrip.field h 3 rfl rfl,
    show fbv 2 5 w = w0 from RoundTrip.field h 2 rfl rfl,
    show fbv 3 2 w = m from RoundTrip.field h 1 rfl rfl,
    show fbv 2 0 w = r from RoundTrip.field h 0 rfl rfl]

theorem RoundTrip.dwadd (d : BitVec 6) (a : BitVec 6) (b : BitVec 6) (w0 : BitVec 2) (m : BitVec 3) (r : BitVec 2) : RoundTrip.Statement (.dwadd d a b w0 m r) := by
  refine RoundTrip.ofV [⟨2, r⟩, ⟨3, m⟩, ⟨2, w0⟩, ⟨6, b⟩, ⟨6, a⟩, ⟨6, d⟩, ⟨7, 51⟩] rfl rfl ?_ fun w h => ?_
  · show en6 0x66000000 d 19 a 13 b 7 w0 5 m 2 r 0 = _
    simp only [en6, en5, en4, en3, en2, en1, RoundTrip.word, BitVec.reduceToNat, Nat.reducePow]; omega
  rw [RoundTrip.to_rawV33 (RoundTrip.range h 6 1 rfl rfl rfl), rawV33]
  rw [show fbv 6 19 w = d from RoundTrip.field h 5 rfl rfl,
    show fbv 6 13 w = a from RoundTrip.field h 4 rfl rfl,
    show fbv 6 7 w = b from RoundTrip.field h 3 rfl rfl,
    show fbv 2 5 w = w0 from RoundTrip.field h 2 rfl rfl,
    show fbv 3 2 w = m from RoundTrip.field h 1 rfl rfl,
    show fbv 2 0 w = r from RoundTrip.field h 0 rfl rfl]

theorem RoundTrip.dwsub (d : BitVec 6) (a : BitVec 6) (b : BitVec 6) (w0 : BitVec 2) (m : BitVec 3) (r : BitVec 2) : RoundTrip.Statement (.dwsub d a b w0 m r) := by
  refine RoundTrip.ofV [⟨2, r⟩, ⟨3, m⟩, ⟨2, w0⟩, ⟨6, b⟩, ⟨6, a⟩, ⟨6, d⟩, ⟨7, 52⟩] rfl rfl ?_ fun w h => ?_
  · show en6 0x68000000 d 19 a 13 b 7 w0 5 m 2 r 0 = _
    simp only [en6, en5, en4, en3, en2, en1, RoundTrip.word, BitVec.reduceToNat, Nat.reducePow]; omega
  rw [RoundTrip.to_rawV34 (RoundTrip.range h 6 1 rfl rfl rfl), rawV34]
  rw [show fbv 6 19 w = d from RoundTrip.field h 5 rfl rfl,
    show fbv 6 13 w = a from RoundTrip.field h 4 rfl rfl,
    show fbv 6 7 w = b from RoundTrip.field h 3 rfl rfl,
    show fbv 2 5 w = w0 from RoundTrip.field h 2 rfl rfl,
    show fbv 3 2 w = m from RoundTrip.field h 1 rfl rfl,
    show fbv 2 0 w = r from RoundTrip.field h 0 rfl rfl]

theorem RoundTrip.dwmul (d : BitVec 6) (a : BitVec 6) (b : BitVec 6) (w0 : BitVec 2) (m : BitVec 3) (r : BitVec 2) : RoundTrip.Statement (.dwmul d a b w0 m r) := by
  refine RoundTrip.ofV [⟨2, r⟩, ⟨3, m⟩, ⟨2, w0⟩, ⟨6, b⟩, ⟨6, a⟩, ⟨6, d⟩, ⟨7, 53⟩] rfl rfl ?_ fun w h => ?_
  · show en6 0x6A000000 d 19 a 13 b 7 w0 5 m 2 r 0 = _
    simp only [en6, en5, en4, en3, en2, en1, RoundTrip.word, BitVec.reduceToNat, Nat.reducePow]; omega
  rw [RoundTrip.to_rawV35 (RoundTrip.range h 6 1 rfl rfl rfl), rawV35]
  rw [show fbv 6 19 w = d from RoundTrip.field h 5 rfl rfl,
    show fbv 6 13 w = a from RoundTrip.field h 4 rfl rfl,
    show fbv 6 7 w = b from RoundTrip.field h 3 rfl rfl,
    show fbv 2 5 w = w0 from RoundTrip.field h 2 rfl rfl,
    show fbv 3 2 w = m from RoundTrip.field h 1 rfl rfl,
    show fbv 2 0 w = r from RoundTrip.field h 0 rfl rfl]

theorem RoundTrip.dwdiv (d : BitVec 6) (a : BitVec 6) (b : BitVec 6) (w0 : BitVec 2) (m : BitVec 3) (r : BitVec 2) : RoundTrip.Statement (.dwdiv d a b w0 m r) := by
  refine RoundTrip.ofV [⟨2, r⟩, ⟨3, m⟩, ⟨2, w0⟩, ⟨6, b⟩, ⟨6, a⟩, ⟨6, d⟩, ⟨7, 54⟩] rfl rfl ?_ fun w h => ?_
  · show en6 0x6C000000 d 19 a 13 b 7 w0 5 m 2 r 0 = _
    simp only [en6, en5, en4, en3, en2, en1, RoundTrip.word, BitVec.reduceToNat, Nat.reducePow]; omega
  rw [RoundTrip.to_rawV36 (RoundTrip.range h 6 1 rfl rfl rfl), rawV36]
  rw [show fbv 6 19 w = d from RoundTrip.field h 5 rfl rfl,
    show fbv 6 13 w = a from RoundTrip.field h 4 rfl rfl,
    show fbv 6 7 w = b from RoundTrip.field h 3 rfl rfl,
    show fbv 2 5 w = w0 from RoundTrip.field h 2 rfl rfl,
    show fbv 3 2 w = m from RoundTrip.field h 1 rfl rfl,
    show fbv 2 0 w = r from RoundTrip.field h 0 rfl rfl]

theorem RoundTrip.dwnorm (d : BitVec 6) (a : BitVec 6) (w0 : BitVec 2) (m : BitVec 3) (r : BitVec 2) : RoundTrip.Statement (.dwnorm d a w0 m r) := by
  refine RoundTrip.ofV [⟨2, r⟩, ⟨3, m⟩, ⟨2, w0⟩, ⟨6, 0⟩, ⟨6, a⟩, ⟨6, d⟩, ⟨7, 55⟩] rfl rfl ?_ fun w h => ?_
  · show en5 0x6E000000 d 19 a 13 w0 5 m 2 r 0 = _
    simp only [en5, en4, en3, en2, en1, RoundTrip.word, BitVec.reduceToNat, Nat.reducePow]; omega
  rw [RoundTrip.to_rawV37 (RoundTrip.range h 6 1 rfl rfl rfl), rawV37]
  have f0 : fld w 7 6 = 0 := RoundTrip.range h 3 1 rfl rfl rfl
  simp only [f0, Nat.reduceEqDiff, OfNat.ofNat_ne_zero, OfNat.zero_ne_ofNat, one_ne_zero, zero_ne_one, false_and, and_false, and_self, if_true, if_false]
  rw [show fbv 6 19 w = d from RoundTrip.field h 5 rfl rfl,
    show fbv 6 13 w = a from RoundTrip.field h 4 rfl rfl,
    show fbv 2 5 w = w0 from RoundTrip.field h 2 rfl rfl,
    show fbv 3 2 w = m from RoundTrip.field h 1 rfl rfl,
    show fbv 2 0 w = r from RoundTrip.field h 0 rfl rfl]

theorem RoundTrip.vsum (d : BitVec 6) (a : BitVec 6) (w0 : BitVec 2) (m : BitVec 3) (r : BitVec 2) : RoundTrip.Statement (.vsum d a w0 m r) := by
  refine RoundTrip.ofV [⟨2, r⟩, ⟨3, m⟩, ⟨2, w0⟩, ⟨6, 0⟩, ⟨6, a⟩, ⟨6, d⟩, ⟨7, 56⟩] rfl rfl ?_ fun w h => ?_
  · show en5 0x70000000 d 19 a 13 w0 5 m 2 r 0 = _
    simp only [en5, en4, en3, en2, en1, RoundTrip.word, BitVec.reduceToNat, Nat.reducePow]; omega
  rw [RoundTrip.to_rawV38 (RoundTrip.range h 6 1 rfl rfl rfl), rawV38]
  have f0 : fld w 7 6 = 0 := RoundTrip.range h 3 1 rfl rfl rfl
  simp only [f0, Nat.reduceEqDiff, OfNat.ofNat_ne_zero, OfNat.zero_ne_ofNat, one_ne_zero, zero_ne_one, false_and, and_false, and_self, if_true, if_false]
  rw [show fbv 6 19 w = d from RoundTrip.field h 5 rfl rfl,
    show fbv 6 13 w = a from RoundTrip.field h 4 rfl rfl,
    show fbv 2 5 w = w0 from RoundTrip.field h 2 rfl rfl,
    show fbv 3 2 w = m from RoundTrip.field h 1 rfl rfl,
    show fbv 2 0 w = r from RoundTrip.field h 0 rfl rfl]

theorem RoundTrip.vsumx (d : BitVec 6) (a : BitVec 6) (w0 : BitVec 2) (m : BitVec 3) (r : BitVec 2) : RoundTrip.Statement (.vsumx d a w0 m r) := by
  refine RoundTrip.ofV [⟨2, r⟩, ⟨3, m⟩, ⟨2, w0⟩, ⟨6, 0⟩, ⟨6, a⟩, ⟨6, d⟩, ⟨7, 57⟩] rfl rfl ?_ fun w h => ?_
  · show en5 0x72000000 d 19 a 13 w0 5 m 2 r 0 = _
    simp only [en5, en4, en3, en2, en1, RoundTrip.word, BitVec.reduceToNat, Nat.reducePow]; omega
  rw [RoundTrip.to_rawV39 (RoundTrip.range h 6 1 rfl rfl rfl), rawV39]
  have f0 : fld w 7 6 = 0 := RoundTrip.range h 3 1 rfl rfl rfl
  simp only [f0, Nat.reduceEqDiff, OfNat.ofNat_ne_zero, OfNat.zero_ne_ofNat, one_ne_zero, zero_ne_one, false_and, and_false, and_self, if_true, if_false]
  rw [show fbv 6 19 w = d from RoundTrip.field h 5 rfl rfl,
    show fbv 6 13 w = a from RoundTrip.field h 4 rfl rfl,
    show fbv 2 5 w = w0 from RoundTrip.field h 2 rfl rfl,
    show fbv 3 2 w = m from RoundTrip.field h 1 rfl rfl,
    show fbv 2 0 w = r from RoundTrip.field h 0 rfl rfl]

theorem RoundTrip.vmaxr (d : BitVec 6) (a : BitVec 6) (w0 : BitVec 2) (m : BitVec 3) : RoundTrip.Statement (.vmaxr d a w0 m) := by
  refine RoundTrip.ofV [⟨2, 0⟩, ⟨3, m⟩, ⟨2, w0⟩, ⟨6, 0⟩, ⟨6, a⟩, ⟨6, d⟩, ⟨7, 58⟩] rfl rfl ?_ fun w h => ?_
  · show en4 0x74000000 d 19 a 13 w0 5 m 2 = _
    simp only [en4, en3, en2, en1, RoundTrip.word, BitVec.reduceToNat, Nat.reducePow]; omega
  rw [RoundTrip.to_rawV3A (RoundTrip.range h 6 1 rfl rfl rfl), rawV3A]
  have f0 : fld w 7 6 = 0 := RoundTrip.range h 3 1 rfl rfl rfl
  have f1 : fld w 0 2 = 0 := RoundTrip.range h 0 1 rfl rfl rfl
  simp only [f0, f1, Nat.reduceEqDiff, OfNat.ofNat_ne_zero, OfNat.zero_ne_ofNat, one_ne_zero, zero_ne_one, false_and, and_false, and_self, if_true, if_false]
  rw [show fbv 6 19 w = d from RoundTrip.field h 5 rfl rfl,
    show fbv 6 13 w = a from RoundTrip.field h 4 rfl rfl,
    show fbv 2 5 w = w0 from RoundTrip.field h 2 rfl rfl,
    show fbv 3 2 w = m from RoundTrip.field h 1 rfl rfl]

theorem RoundTrip.vminr (d : BitVec 6) (a : BitVec 6) (w0 : BitVec 2) (m : BitVec 3) : RoundTrip.Statement (.vminr d a w0 m) := by
  refine RoundTrip.ofV [⟨2, 0⟩, ⟨3, m⟩, ⟨2, w0⟩, ⟨6, 0⟩, ⟨6, a⟩, ⟨6, d⟩, ⟨7, 59⟩] rfl rfl ?_ fun w h => ?_
  · show en4 0x76000000 d 19 a 13 w0 5 m 2 = _
    simp only [en4, en3, en2, en1, RoundTrip.word, BitVec.reduceToNat, Nat.reducePow]; omega
  rw [RoundTrip.to_rawV3B (RoundTrip.range h 6 1 rfl rfl rfl), rawV3B]
  have f0 : fld w 7 6 = 0 := RoundTrip.range h 3 1 rfl rfl rfl
  have f1 : fld w 0 2 = 0 := RoundTrip.range h 0 1 rfl rfl rfl
  simp only [f0, f1, Nat.reduceEqDiff, OfNat.ofNat_ne_zero, OfNat.zero_ne_ofNat, one_ne_zero, zero_ne_one, false_and, and_false, and_self, if_true, if_false]
  rw [show fbv 6 19 w = d from RoundTrip.field h 5 rfl rfl,
    show fbv 6 13 w = a from RoundTrip.field h 4 rfl rfl,
    show fbv 2 5 w = w0 from RoundTrip.field h 2 rfl rfl,
    show fbv 3 2 w = m from RoundTrip.field h 1 rfl rfl]

theorem RoundTrip.viadd (d : BitVec 6) (a : BitVec 6) (b : BitVec 6) (w0 : BitVec 2) (m : BitVec 3) (s : BitVec 2) : RoundTrip.Statement (.viadd d a b w0 m s) := by
  refine RoundTrip.ofV [⟨2, s⟩, ⟨3, m⟩, ⟨2, w0⟩, ⟨6, b⟩, ⟨6, a⟩, ⟨6, d⟩, ⟨7, 64⟩] rfl rfl ?_ fun w h => ?_
  · show en6 0x80000000 d 19 a 13 b 7 w0 5 m 2 s 0 = _
    simp only [en6, en5, en4, en3, en2, en1, RoundTrip.word, BitVec.reduceToNat, Nat.reducePow]; omega
  rw [RoundTrip.to_rawV40 (RoundTrip.range h 6 1 rfl rfl rfl), rawV40]
  rw [show fbv 6 19 w = d from RoundTrip.field h 5 rfl rfl,
    show fbv 6 13 w = a from RoundTrip.field h 4 rfl rfl,
    show fbv 6 7 w = b from RoundTrip.field h 3 rfl rfl,
    show fbv 2 5 w = w0 from RoundTrip.field h 2 rfl rfl,
    show fbv 3 2 w = m from RoundTrip.field h 1 rfl rfl,
    show fbv 2 0 w = s from RoundTrip.field h 0 rfl rfl]

theorem RoundTrip.visub (d : BitVec 6) (a : BitVec 6) (b : BitVec 6) (w0 : BitVec 2) (m : BitVec 3) (s : BitVec 2) : RoundTrip.Statement (.visub d a b w0 m s) := by
  refine RoundTrip.ofV [⟨2, s⟩, ⟨3, m⟩, ⟨2, w0⟩, ⟨6, b⟩, ⟨6, a⟩, ⟨6, d⟩, ⟨7, 65⟩] rfl rfl ?_ fun w h => ?_
  · show en6 0x82000000 d 19 a 13 b 7 w0 5 m 2 s 0 = _
    simp only [en6, en5, en4, en3, en2, en1, RoundTrip.word, BitVec.reduceToNat, Nat.reducePow]; omega
  rw [RoundTrip.to_rawV41 (RoundTrip.range h 6 1 rfl rfl rfl), rawV41]
  rw [show fbv 6 19 w = d from RoundTrip.field h 5 rfl rfl,
    show fbv 6 13 w = a from RoundTrip.field h 4 rfl rfl,
    show fbv 6 7 w = b from RoundTrip.field h 3 rfl rfl,
    show fbv 2 5 w = w0 from RoundTrip.field h 2 rfl rfl,
    show fbv 3 2 w = m from RoundTrip.field h 1 rfl rfl,
    show fbv 2 0 w = s from RoundTrip.field h 0 rfl rfl]

theorem RoundTrip.vimul (d : BitVec 6) (a : BitVec 6) (b : BitVec 6) (w0 : BitVec 2) (m : BitVec 3) (s : BitVec 2) : RoundTrip.Statement (.vimul d a b w0 m s) := by
  refine RoundTrip.ofV [⟨2, s⟩, ⟨3, m⟩, ⟨2, w0⟩, ⟨6, b⟩, ⟨6, a⟩, ⟨6, d⟩, ⟨7, 66⟩] rfl rfl ?_ fun w h => ?_
  · show en6 0x84000000 d 19 a 13 b 7 w0 5 m 2 s 0 = _
    simp only [en6, en5, en4, en3, en2, en1, RoundTrip.word, BitVec.reduceToNat, Nat.reducePow]; omega
  rw [RoundTrip.to_rawV42 (RoundTrip.range h 6 1 rfl rfl rfl), rawV42]
  rw [show fbv 6 19 w = d from RoundTrip.field h 5 rfl rfl,
    show fbv 6 13 w = a from RoundTrip.field h 4 rfl rfl,
    show fbv 6 7 w = b from RoundTrip.field h 3 rfl rfl,
    show fbv 2 5 w = w0 from RoundTrip.field h 2 rfl rfl,
    show fbv 3 2 w = m from RoundTrip.field h 1 rfl rfl,
    show fbv 2 0 w = s from RoundTrip.field h 0 rfl rfl]

theorem RoundTrip.vimad (d : BitVec 6) (a : BitVec 6) (b : BitVec 6) (w0 : BitVec 2) (m : BitVec 3) (s : BitVec 2) : RoundTrip.Statement (.vimad d a b w0 m s) := by
  refine RoundTrip.ofV [⟨2, s⟩, ⟨3, m⟩, ⟨2, w0⟩, ⟨6, b⟩, ⟨6, a⟩, ⟨6, d⟩, ⟨7, 67⟩] rfl rfl ?_ fun w h => ?_
  · show en6 0x86000000 d 19 a 13 b 7 w0 5 m 2 s 0 = _
    simp only [en6, en5, en4, en3, en2, en1, RoundTrip.word, BitVec.reduceToNat, Nat.reducePow]; omega
  rw [RoundTrip.to_rawV43 (RoundTrip.range h 6 1 rfl rfl rfl), rawV43]
  rw [show fbv 6 19 w = d from RoundTrip.field h 5 rfl rfl,
    show fbv 6 13 w = a from RoundTrip.field h 4 rfl rfl,
    show fbv 6 7 w = b from RoundTrip.field h 3 rfl rfl,
    show fbv 2 5 w = w0 from RoundTrip.field h 2 rfl rfl,
    show fbv 3 2 w = m from RoundTrip.field h 1 rfl rfl,
    show fbv 2 0 w = s from RoundTrip.field h 0 rfl rfl]

theorem RoundTrip.vand (d : BitVec 6) (a : BitVec 6) (b : BitVec 6) (w0 : BitVec 2) (m : BitVec 3) : RoundTrip.Statement (.vand d a b w0 m) := by
  refine RoundTrip.ofV [⟨2, 0⟩, ⟨3, m⟩, ⟨2, w0⟩, ⟨6, b⟩, ⟨6, a⟩, ⟨6, d⟩, ⟨7, 68⟩] rfl rfl ?_ fun w h => ?_
  · show en5 0x88000000 d 19 a 13 b 7 w0 5 m 2 = _
    simp only [en5, en4, en3, en2, en1, RoundTrip.word, BitVec.reduceToNat, Nat.reducePow]; omega
  rw [RoundTrip.to_rawV44 (RoundTrip.range h 6 1 rfl rfl rfl), rawV44]
  have f0 : fld w 0 2 = 0 := RoundTrip.range h 0 1 rfl rfl rfl
  simp only [f0, Nat.reduceEqDiff, OfNat.ofNat_ne_zero, OfNat.zero_ne_ofNat, one_ne_zero, zero_ne_one, false_and, and_false, and_self, if_true, if_false]
  rw [show fbv 6 19 w = d from RoundTrip.field h 5 rfl rfl,
    show fbv 6 13 w = a from RoundTrip.field h 4 rfl rfl,
    show fbv 6 7 w = b from RoundTrip.field h 3 rfl rfl,
    show fbv 2 5 w = w0 from RoundTrip.field h 2 rfl rfl,
    show fbv 3 2 w = m from RoundTrip.field h 1 rfl rfl]

theorem RoundTrip.vor (d : BitVec 6) (a : BitVec 6) (b : BitVec 6) (w0 : BitVec 2) (m : BitVec 3) : RoundTrip.Statement (.vor d a b w0 m) := by
  refine RoundTrip.ofV [⟨2, 0⟩, ⟨3, m⟩, ⟨2, w0⟩, ⟨6, b⟩, ⟨6, a⟩, ⟨6, d⟩, ⟨7, 69⟩] rfl rfl ?_ fun w h => ?_
  · show en5 0x8A000000 d 19 a 13 b 7 w0 5 m 2 = _
    simp only [en5, en4, en3, en2, en1, RoundTrip.word, BitVec.reduceToNat, Nat.reducePow]; omega
  rw [RoundTrip.to_rawV45 (RoundTrip.range h 6 1 rfl rfl rfl), rawV45]
  have f0 : fld w 0 2 = 0 := RoundTrip.range h 0 1 rfl rfl rfl
  simp only [f0, Nat.reduceEqDiff, OfNat.ofNat_ne_zero, OfNat.zero_ne_ofNat, one_ne_zero, zero_ne_one, false_and, and_false, and_self, if_true, if_false]
  rw [show fbv 6 19 w = d from RoundTrip.field h 5 rfl rfl,
    show fbv 6 13 w = a from RoundTrip.field h 4 rfl rfl,
    show fbv 6 7 w = b from RoundTrip.field h 3 rfl rfl,
    show fbv 2 5 w = w0 from RoundTrip.field h 2 rfl rfl,
    show fbv 3 2 w = m from RoundTrip.field h 1 rfl rfl]

theorem RoundTrip.vxor (d : BitVec 6) (a : BitVec 6) (b : BitVec 6) (w0 : BitVec 2) (m : BitVec 3) : RoundTrip.Statement (.vxor d a b w0 m) := by
  refine RoundTrip.ofV [⟨2, 0⟩, ⟨3, m⟩, ⟨2, w0⟩, ⟨6, b⟩, ⟨6, a⟩, ⟨6, d⟩, ⟨7, 70⟩] rfl rfl ?_ fun w h => ?_
  · show en5 0x8C000000 d 19 a 13 b 7 w0 5 m 2 = _
    simp only [en5, en4, en3, en2, en1, RoundTrip.word, BitVec.reduceToNat, Nat.reducePow]; omega
  rw [RoundTrip.to_rawV46 (RoundTrip.range h 6 1 rfl rfl rfl), rawV46]
  have f0 : fld w 0 2 = 0 := RoundTrip.range h 0 1 rfl rfl rfl
  simp only [f0, Nat.reduceEqDiff, OfNat.ofNat_ne_zero, OfNat.zero_ne_ofNat, one_ne_zero, zero_ne_one, false_and, and_false, and_self, if_true, if_false]
  rw [show fbv 6 19 w = d from RoundTrip.field h 5 rfl rfl,
    show fbv 6 13 w = a from RoundTrip.field h 4 rfl rfl,
    show fbv 6 7 w = b from RoundTrip.field h 3 rfl rfl,
    show fbv 2 5 w = w0 from RoundTrip.field h 2 rfl rfl,
    show fbv 3 2 w = m from RoundTrip.field h 1 rfl rfl]

theorem RoundTrip.vnot (d : BitVec 6) (a : BitVec 6) (w0 : BitVec 2) (m : BitVec 3) : RoundTrip.Statement (.vnot d a w0 m) := by
  refine RoundTrip.ofV [⟨2, 0⟩, ⟨3, m⟩, ⟨2, w0⟩, ⟨6, 0⟩, ⟨6, a⟩, ⟨6, d⟩, ⟨7, 71⟩] rfl rfl ?_ fun w h => ?_
  · show en4 0x8E000000 d 19 a 13 w0 5 m 2 = _
    simp only [en4, en3, en2, en1, RoundTrip.word, BitVec.reduceToNat, Nat.reducePow]; omega
  rw [RoundTrip.to_rawV47 (RoundTrip.range h 6 1 rfl rfl rfl), rawV47]
  have f0 : fld w 7 6 = 0 := RoundTrip.range h 3 1 rfl rfl rfl
  have f1 : fld w 0 2 = 0 := RoundTrip.range h 0 1 rfl rfl rfl
  simp only [f0, f1, Nat.reduceEqDiff, OfNat.ofNat_ne_zero, OfNat.zero_ne_ofNat, one_ne_zero, zero_ne_one, false_and, and_false, and_self, if_true, if_false]
  rw [show fbv 6 19 w = d from RoundTrip.field h 5 rfl rfl,
    show fbv 6 13 w = a from RoundTrip.field h 4 rfl rfl,
    show fbv 2 5 w = w0 from RoundTrip.field h 2 rfl rfl,
    show fbv 3 2 w = m from RoundTrip.field h 1 rfl rfl]

theorem RoundTrip.vshl (d : BitVec 6) (a : BitVec 6) (b : BitVec 6) (w0 : BitVec 2) (m : BitVec 3) (f : BitVec 1) : RoundTrip.Statement (.vshl d a b w0 m f) := by
  refine RoundTrip.ofV [⟨1, f⟩, ⟨1, 0⟩, ⟨3, m⟩, ⟨2, w0⟩, ⟨6, b⟩, ⟨6, a⟩, ⟨6, d⟩, ⟨7, 72⟩] rfl rfl ?_ fun w h => ?_
  · show en6 0x90000000 d 19 a 13 b 7 w0 5 m 2 f 0 = _
    simp only [en6, en5, en4, en3, en2, en1, RoundTrip.word, BitVec.reduceToNat, Nat.reducePow]; omega
  rw [RoundTrip.to_rawV48 (RoundTrip.range h 7 1 rfl rfl rfl), rawV48]
  have f0 : fld w 1 1 = 0 := RoundTrip.range h 1 1 rfl rfl rfl
  simp only [f0, Nat.reduceEqDiff, OfNat.ofNat_ne_zero, OfNat.zero_ne_ofNat, one_ne_zero, zero_ne_one, false_and, and_false, and_self, if_true, if_false]
  rw [show fbv 6 19 w = d from RoundTrip.field h 6 rfl rfl,
    show fbv 6 13 w = a from RoundTrip.field h 5 rfl rfl,
    show fbv 6 7 w = b from RoundTrip.field h 4 rfl rfl,
    show fbv 2 5 w = w0 from RoundTrip.field h 3 rfl rfl,
    show fbv 3 2 w = m from RoundTrip.field h 2 rfl rfl,
    show fbv 1 0 w = f from RoundTrip.field h 0 rfl rfl]

theorem RoundTrip.vshr (d : BitVec 6) (a : BitVec 6) (b : BitVec 6) (w0 : BitVec 2) (m : BitVec 3) (f : BitVec 1) : RoundTrip.Statement (.vshr d a b w0 m f) := by
  refine RoundTrip.ofV [⟨1, f⟩, ⟨1, 0⟩, ⟨3, m⟩, ⟨2, w0⟩, ⟨6, b⟩, ⟨6, a⟩, ⟨6, d⟩, ⟨7, 73⟩] rfl rfl ?_ fun w h => ?_
  · show en6 0x92000000 d 19 a 13 b 7 w0 5 m 2 f 0 = _
    simp only [en6, en5, en4, en3, en2, en1, RoundTrip.word, BitVec.reduceToNat, Nat.reducePow]; omega
  rw [RoundTrip.to_rawV49 (RoundTrip.range h 7 1 rfl rfl rfl), rawV49]
  have f0 : fld w 1 1 = 0 := RoundTrip.range h 1 1 rfl rfl rfl
  simp only [f0, Nat.reduceEqDiff, OfNat.ofNat_ne_zero, OfNat.zero_ne_ofNat, one_ne_zero, zero_ne_one, false_and, and_false, and_self, if_true, if_false]
  rw [show fbv 6 19 w = d from RoundTrip.field h 6 rfl rfl,
    show fbv 6 13 w = a from RoundTrip.field h 5 rfl rfl,
    show fbv 6 7 w = b from RoundTrip.field h 4 rfl rfl,
    show fbv 2 5 w = w0 from RoundTrip.field h 3 rfl rfl,
    show fbv 3 2 w = m from RoundTrip.field h 2 rfl rfl,
    show fbv 1 0 w = f from RoundTrip.field h 0 rfl rfl]

theorem RoundTrip.vsar (d : BitVec 6) (a : BitVec 6) (b : BitVec 6) (w0 : BitVec 2) (m : BitVec 3) (f : BitVec 1) : RoundTrip.Statement (.vsar d a b w0 m f) := by
  refine RoundTrip.ofV [⟨1, f⟩, ⟨1, 0⟩, ⟨3, m⟩, ⟨2, w0⟩, ⟨6, b⟩, ⟨6, a⟩, ⟨6, d⟩, ⟨7, 74⟩] rfl rfl ?_ fun w h => ?_
  · show en6 0x94000000 d 19 a 13 b 7 w0 5 m 2 f 0 = _
    simp only [en6, en5, en4, en3, en2, en1, RoundTrip.word, BitVec.reduceToNat, Nat.reducePow]; omega
  rw [RoundTrip.to_rawV4A (RoundTrip.range h 7 1 rfl rfl rfl), rawV4A]
  have f0 : fld w 1 1 = 0 := RoundTrip.range h 1 1 rfl rfl rfl
  simp only [f0, Nat.reduceEqDiff, OfNat.ofNat_ne_zero, OfNat.zero_ne_ofNat, one_ne_zero, zero_ne_one, false_and, and_false, and_self, if_true, if_false]
  rw [show fbv 6 19 w = d from RoundTrip.field h 6 rfl rfl,
    show fbv 6 13 w = a from RoundTrip.field h 5 rfl rfl,
    show fbv 6 7 w = b from RoundTrip.field h 4 rfl rfl,
    show fbv 2 5 w = w0 from RoundTrip.field h 3 rfl rfl,
    show fbv 3 2 w = m from RoundTrip.field h 2 rfl rfl,
    show fbv 1 0 w = f from RoundTrip.field h 0 rfl rfl]

theorem RoundTrip.vicmp (d : BitVec 3) (a : BitVec 6) (b : BitVec 6) (w0 : BitVec 2) (m : BitVec 3) (c : BitVec 2) : RoundTrip.Statement (.vicmp d a b w0 m c) := by
  refine RoundTrip.ofV [⟨2, c⟩, ⟨3, m⟩, ⟨2, w0⟩, ⟨6, b⟩, ⟨6, a⟩, ⟨3, d⟩, ⟨3, 0⟩, ⟨7, 75⟩] rfl rfl ?_ fun w h => ?_
  · show en6 0x96000000 d 19 a 13 b 7 w0 5 m 2 c 0 = _
    simp only [en6, en5, en4, en3, en2, en1, RoundTrip.word, BitVec.reduceToNat, Nat.reducePow]; omega
  rw [RoundTrip.to_rawV4B (RoundTrip.range h 7 1 rfl rfl rfl), rawV4B]
  have f0 : fld w 22 3 = 0 := RoundTrip.range h 6 1 rfl rfl rfl
  simp only [f0, Nat.reduceEqDiff, OfNat.ofNat_ne_zero, OfNat.zero_ne_ofNat, one_ne_zero, zero_ne_one, false_and, and_false, and_self, if_true, if_false]
  rw [show fbv 3 19 w = d from RoundTrip.field h 5 rfl rfl,
    show fbv 6 13 w = a from RoundTrip.field h 4 rfl rfl,
    show fbv 6 7 w = b from RoundTrip.field h 3 rfl rfl,
    show fbv 2 5 w = w0 from RoundTrip.field h 2 rfl rfl,
    show fbv 3 2 w = m from RoundTrip.field h 1 rfl rfl,
    show fbv 2 0 w = c from RoundTrip.field h 0 rfl rfl]

theorem RoundTrip.vmand (d : BitVec 3) (a : BitVec 3) (b : BitVec 3) (w0 : BitVec 2) : RoundTrip.Statement (.vmand d a b w0) := by
  refine RoundTrip.ofV [⟨5, 0⟩, ⟨2, w0⟩, ⟨3, b⟩, ⟨3, 0⟩, ⟨3, a⟩, ⟨3, 0⟩, ⟨3, d⟩, ⟨3, 0⟩, ⟨7, 76⟩] rfl rfl ?_ fun w h => ?_
  · show en4 0x98000000 d 19 a 13 b 7 w0 5 = _
    simp only [en4, en3, en2, en1, RoundTrip.word, BitVec.reduceToNat, Nat.reducePow]; omega
  rw [RoundTrip.to_rawV4C (RoundTrip.range h 8 1 rfl rfl rfl), rawV4C]
  have f0 : fld w 22 3 = 0 := RoundTrip.range h 7 1 rfl rfl rfl
  have f1 : fld w 16 3 = 0 := RoundTrip.range h 5 1 rfl rfl rfl
  have f2 : fld w 10 3 = 0 := RoundTrip.range h 3 1 rfl rfl rfl
  have f3 : fld w 0 5 = 0 := RoundTrip.range h 0 1 rfl rfl rfl
  simp only [f0, f1, f2, f3, Nat.reduceEqDiff, OfNat.ofNat_ne_zero, OfNat.zero_ne_ofNat, one_ne_zero, zero_ne_one, false_and, and_false, and_self, if_true, if_false]
  rw [show fbv 3 19 w = d from RoundTrip.field h 6 rfl rfl,
    show fbv 3 13 w = a from RoundTrip.field h 4 rfl rfl,
    show fbv 3 7 w = b from RoundTrip.field h 2 rfl rfl,
    show fbv 2 5 w = w0 from RoundTrip.field h 1 rfl rfl]

theorem RoundTrip.vmor (d : BitVec 3) (a : BitVec 3) (b : BitVec 3) (w0 : BitVec 2) : RoundTrip.Statement (.vmor d a b w0) := by
  refine RoundTrip.ofV [⟨5, 0⟩, ⟨2, w0⟩, ⟨3, b⟩, ⟨3, 0⟩, ⟨3, a⟩, ⟨3, 0⟩, ⟨3, d⟩, ⟨3, 0⟩, ⟨7, 77⟩] rfl rfl ?_ fun w h => ?_
  · show en4 0x9A000000 d 19 a 13 b 7 w0 5 = _
    simp only [en4, en3, en2, en1, RoundTrip.word, BitVec.reduceToNat, Nat.reducePow]; omega
  rw [RoundTrip.to_rawV4D (RoundTrip.range h 8 1 rfl rfl rfl), rawV4D]
  have f0 : fld w 22 3 = 0 := RoundTrip.range h 7 1 rfl rfl rfl
  have f1 : fld w 16 3 = 0 := RoundTrip.range h 5 1 rfl rfl rfl
  have f2 : fld w 10 3 = 0 := RoundTrip.range h 3 1 rfl rfl rfl
  have f3 : fld w 0 5 = 0 := RoundTrip.range h 0 1 rfl rfl rfl
  simp only [f0, f1, f2, f3, Nat.reduceEqDiff, OfNat.ofNat_ne_zero, OfNat.zero_ne_ofNat, one_ne_zero, zero_ne_one, false_and, and_false, and_self, if_true, if_false]
  rw [show fbv 3 19 w = d from RoundTrip.field h 6 rfl rfl,
    show fbv 3 13 w = a from RoundTrip.field h 4 rfl rfl,
    show fbv 3 7 w = b from RoundTrip.field h 2 rfl rfl,
    show fbv 2 5 w = w0 from RoundTrip.field h 1 rfl rfl]

theorem RoundTrip.vmxor (d : BitVec 3) (a : BitVec 3) (b : BitVec 3) (w0 : BitVec 2) : RoundTrip.Statement (.vmxor d a b w0) := by
  refine RoundTrip.ofV [⟨5, 0⟩, ⟨2, w0⟩, ⟨3, b⟩, ⟨3, 0⟩, ⟨3, a⟩, ⟨3, 0⟩, ⟨3, d⟩, ⟨3, 0⟩, ⟨7, 78⟩] rfl rfl ?_ fun w h => ?_
  · show en4 0x9C000000 d 19 a 13 b 7 w0 5 = _
    simp only [en4, en3, en2, en1, RoundTrip.word, BitVec.reduceToNat, Nat.reducePow]; omega
  rw [RoundTrip.to_rawV4E (RoundTrip.range h 8 1 rfl rfl rfl), rawV4E]
  have f0 : fld w 22 3 = 0 := RoundTrip.range h 7 1 rfl rfl rfl
  have f1 : fld w 16 3 = 0 := RoundTrip.range h 5 1 rfl rfl rfl
  have f2 : fld w 10 3 = 0 := RoundTrip.range h 3 1 rfl rfl rfl
  have f3 : fld w 0 5 = 0 := RoundTrip.range h 0 1 rfl rfl rfl
  simp only [f0, f1, f2, f3, Nat.reduceEqDiff, OfNat.ofNat_ne_zero, OfNat.zero_ne_ofNat, one_ne_zero, zero_ne_one, false_and, and_false, and_self, if_true, if_false]
  rw [show fbv 3 19 w = d from RoundTrip.field h 6 rfl rfl,
    show fbv 3 13 w = a from RoundTrip.field h 4 rfl rfl,
    show fbv 3 7 w = b from RoundTrip.field h 2 rfl rfl,
    show fbv 2 5 w = w0 from RoundTrip.field h 1 rfl rfl]

theorem RoundTrip.vmnot (d : BitVec 3) (a : BitVec 3) (w0 : BitVec 2) : RoundTrip.Statement (.vmnot d a w0) := by
  refine RoundTrip.ofV [⟨5, 0⟩, ⟨2, w0⟩, ⟨6, 0⟩, ⟨3, a⟩, ⟨3, 0⟩, ⟨3, d⟩, ⟨3, 0⟩, ⟨7, 79⟩] rfl rfl ?_ fun w h => ?_
  · show en3 0x9E000000 d 19 a 13 w0 5 = _
    simp only [en3, en2, en1, RoundTrip.word, BitVec.reduceToNat, Nat.reducePow]; omega
  rw [RoundTrip.to_rawV4F (RoundTrip.range h 7 1 rfl rfl rfl), rawV4F]
  have f0 : fld w 22 3 = 0 := RoundTrip.range h 6 1 rfl rfl rfl
  have f1 : fld w 16 3 = 0 := RoundTrip.range h 4 1 rfl rfl rfl
  have f2 : fld w 7 6 = 0 := RoundTrip.range h 2 1 rfl rfl rfl
  have f3 : fld w 0 5 = 0 := RoundTrip.range h 0 1 rfl rfl rfl
  simp only [f0, f1, f2, f3, Nat.reduceEqDiff, OfNat.ofNat_ne_zero, OfNat.zero_ne_ofNat, one_ne_zero, zero_ne_one, false_and, and_false, and_self, if_true, if_false]
  rw [show fbv 3 19 w = d from RoundTrip.field h 5 rfl rfl,
    show fbv 3 13 w = a from RoundTrip.field h 3 rfl rfl,
    show fbv 2 5 w = w0 from RoundTrip.field h 1 rfl rfl]

theorem RoundTrip.vcvtPack (d : BitVec 6) (a : BitVec 6) (c : BitVec 4) (w0 : BitVec 2) (m : BitVec 3) (r : BitVec 2) : RoundTrip.Statement (.vcvtPack d a c w0 m r) := by
  refine RoundTrip.ofV [⟨2, r⟩, ⟨3, m⟩, ⟨2, w0⟩, ⟨4, c⟩, ⟨2, 0⟩, ⟨6, a⟩, ⟨6, d⟩, ⟨7, 88⟩] rfl rfl ?_ fun w h => ?_
  · show en6 0xB0000000 d 19 a 13 c 7 w0 5 m 2 r 0 = _
    simp only [en6, en5, en4, en3, en2, en1, RoundTrip.word, BitVec.reduceToNat, Nat.reducePow]; omega
  rw [RoundTrip.to_rawV58 (RoundTrip.range h 7 1 rfl rfl rfl), rawV58]
  have f0 : fld w 11 2 = 0 := RoundTrip.range h 4 1 rfl rfl rfl
  simp only [f0, Nat.reduceEqDiff, OfNat.ofNat_ne_zero, OfNat.zero_ne_ofNat, one_ne_zero, zero_ne_one, false_and, and_false, and_self, if_true, if_false]
  rw [show fbv 6 19 w = d from RoundTrip.field h 6 rfl rfl,
    show fbv 6 13 w = a from RoundTrip.field h 5 rfl rfl,
    show fbv 4 7 w = c from RoundTrip.field h 3 rfl rfl,
    show fbv 2 5 w = w0 from RoundTrip.field h 2 rfl rfl,
    show fbv 3 2 w = m from RoundTrip.field h 1 rfl rfl,
    show fbv 2 0 w = r from RoundTrip.field h 0 rfl rfl]

theorem RoundTrip.vcvtUnpack (d : BitVec 6) (a : BitVec 6) (c : BitVec 4) (w0 : BitVec 2) (m : BitVec 3) (r : BitVec 2) : RoundTrip.Statement (.vcvtUnpack d a c w0 m r) := by
  refine RoundTrip.ofV [⟨2, r⟩, ⟨3, m⟩, ⟨2, w0⟩, ⟨4, c⟩, ⟨2, 1⟩, ⟨6, a⟩, ⟨6, d⟩, ⟨7, 88⟩] rfl rfl ?_ fun w h => ?_
  · show en6 0xB0000800 d 19 a 13 c 7 w0 5 m 2 r 0 = _
    simp only [en6, en5, en4, en3, en2, en1, RoundTrip.word, BitVec.reduceToNat, Nat.reducePow]; omega
  rw [RoundTrip.to_rawV58 (RoundTrip.range h 7 1 rfl rfl rfl), rawV58]
  have f0 : fld w 11 2 = 1 := RoundTrip.range h 4 1 rfl rfl rfl
  simp only [f0, Nat.reduceEqDiff, OfNat.ofNat_ne_zero, OfNat.zero_ne_ofNat, one_ne_zero, zero_ne_one, false_and, and_false, and_self, if_true, if_false]
  rw [show fbv 6 19 w = d from RoundTrip.field h 6 rfl rfl,
    show fbv 6 13 w = a from RoundTrip.field h 5 rfl rfl,
    show fbv 4 7 w = c from RoundTrip.field h 3 rfl rfl,
    show fbv 2 5 w = w0 from RoundTrip.field h 2 rfl rfl,
    show fbv 3 2 w = m from RoundTrip.field h 1 rfl rfl,
    show fbv 2 0 w = r from RoundTrip.field h 0 rfl rfl]

theorem RoundTrip.vscl (d : BitVec 6) (a : BitVec 6) (b : BitVec 6) (w0 : BitVec 2) (m : BitVec 3) (r : BitVec 2) : RoundTrip.Statement (.vscl d a b w0 m r) := by
  refine RoundTrip.ofV [⟨2, r⟩, ⟨3, m⟩, ⟨2, w0⟩, ⟨6, b⟩, ⟨6, a⟩, ⟨6, d⟩, ⟨7, 89⟩] rfl rfl ?_ fun w h => ?_
  · show en6 0xB2000000 d 19 a 13 b 7 w0 5 m 2 r 0 = _
    simp only [en6, en5, en4, en3, en2, en1, RoundTrip.word, BitVec.reduceToNat, Nat.reducePow]; omega
  rw [RoundTrip.to_rawV59 (RoundTrip.range h 6 1 rfl rfl rfl), rawV59]
  rw [show fbv 6 19 w = d from RoundTrip.field h 5 rfl rfl,
    show fbv 6 13 w = a from RoundTrip.field h 4 rfl rfl,
    show fbv 6 7 w = b from RoundTrip.field h 3 rfl rfl,
    show fbv 2 5 w = w0 from RoundTrip.field h 2 rfl rfl,
    show fbv 3 2 w = m from RoundTrip.field h 1 rfl rfl,
    show fbv 2 0 w = r from RoundTrip.field h 0 rfl rfl]

theorem RoundTrip.vexp2 (d : BitVec 6) (a : BitVec 6) (w0 : BitVec 2) (m : BitVec 3) (r : BitVec 2) : RoundTrip.Statement (.vexp2 d a w0 m r) := by
  refine RoundTrip.ofV [⟨2, r⟩, ⟨3, m⟩, ⟨2, w0⟩, ⟨6, 0⟩, ⟨6, a⟩, ⟨6, d⟩, ⟨7, 90⟩] rfl rfl ?_ fun w h => ?_
  · show en5 0xB4000000 d 19 a 13 w0 5 m 2 r 0 = _
    simp only [en5, en4, en3, en2, en1, RoundTrip.word, BitVec.reduceToNat, Nat.reducePow]; omega
  rw [RoundTrip.to_rawV5A (RoundTrip.range h 6 1 rfl rfl rfl), rawV5A]
  have f0 : fld w 7 6 = 0 := RoundTrip.range h 3 1 rfl rfl rfl
  simp only [f0, Nat.reduceEqDiff, OfNat.ofNat_ne_zero, OfNat.zero_ne_ofNat, one_ne_zero, zero_ne_one, false_and, and_false, and_self, if_true, if_false]
  rw [show fbv 6 19 w = d from RoundTrip.field h 5 rfl rfl,
    show fbv 6 13 w = a from RoundTrip.field h 4 rfl rfl,
    show fbv 2 5 w = w0 from RoundTrip.field h 2 rfl rfl,
    show fbv 3 2 w = m from RoundTrip.field h 1 rfl rfl,
    show fbv 2 0 w = r from RoundTrip.field h 0 rfl rfl]

theorem RoundTrip.vlog2 (d : BitVec 6) (a : BitVec 6) (w0 : BitVec 2) (m : BitVec 3) (r : BitVec 2) : RoundTrip.Statement (.vlog2 d a w0 m r) := by
  refine RoundTrip.ofV [⟨2, r⟩, ⟨3, m⟩, ⟨2, w0⟩, ⟨6, 0⟩, ⟨6, a⟩, ⟨6, d⟩, ⟨7, 91⟩] rfl rfl ?_ fun w h => ?_
  · show en5 0xB6000000 d 19 a 13 w0 5 m 2 r 0 = _
    simp only [en5, en4, en3, en2, en1, RoundTrip.word, BitVec.reduceToNat, Nat.reducePow]; omega
  rw [RoundTrip.to_rawV5B (RoundTrip.range h 6 1 rfl rfl rfl), rawV5B]
  have f0 : fld w 7 6 = 0 := RoundTrip.range h 3 1 rfl rfl rfl
  simp only [f0, Nat.reduceEqDiff, OfNat.ofNat_ne_zero, OfNat.zero_ne_ofNat, one_ne_zero, zero_ne_one, false_and, and_false, and_self, if_true, if_false]
  rw [show fbv 6 19 w = d from RoundTrip.field h 5 rfl rfl,
    show fbv 6 13 w = a from RoundTrip.field h 4 rfl rfl,
    show fbv 2 5 w = w0 from RoundTrip.field h 2 rfl rfl,
    show fbv 3 2 w = m from RoundTrip.field h 1 rfl rfl,
    show fbv 2 0 w = r from RoundTrip.field h 0 rfl rfl]

theorem RoundTrip.vtanh (d : BitVec 6) (a : BitVec 6) (w0 : BitVec 2) (m : BitVec 3) (r : BitVec 2) : RoundTrip.Statement (.vtanh d a w0 m r) := by
  refine RoundTrip.ofV [⟨2, r⟩, ⟨3, m⟩, ⟨2, w0⟩, ⟨6, 0⟩, ⟨6, a⟩, ⟨6, d⟩, ⟨7, 92⟩] rfl rfl ?_ fun w h => ?_
  · show en5 0xB8000000 d 19 a 13 w0 5 m 2 r 0 = _
    simp only [en5, en4, en3, en2, en1, RoundTrip.word, BitVec.reduceToNat, Nat.reducePow]; omega
  rw [RoundTrip.to_rawV5C (RoundTrip.range h 6 1 rfl rfl rfl), rawV5C]
  have f0 : fld w 7 6 = 0 := RoundTrip.range h 3 1 rfl rfl rfl
  simp only [f0, Nat.reduceEqDiff, OfNat.ofNat_ne_zero, OfNat.zero_ne_ofNat, one_ne_zero, zero_ne_one, false_and, and_false, and_self, if_true, if_false]
  rw [show fbv 6 19 w = d from RoundTrip.field h 5 rfl rfl,
    show fbv 6 13 w = a from RoundTrip.field h 4 rfl rfl,
    show fbv 2 5 w = w0 from RoundTrip.field h 2 rfl rfl,
    show fbv 3 2 w = m from RoundTrip.field h 1 rfl rfl,
    show fbv 2 0 w = r from RoundTrip.field h 0 rfl rfl]

theorem RoundTrip.vperm (d : BitVec 6) (a : BitVec 6) (b : BitVec 6) (e : BitVec 6) : RoundTrip.Statement (.vperm d a b e) := by
  refine RoundTrip.ofV [⟨1, 0⟩, ⟨6, e⟩, ⟨6, b⟩, ⟨6, a⟩, ⟨6, d⟩, ⟨7, 104⟩] rfl rfl ?_ fun w h => ?_
  · show en4 0xD0000000 d 19 a 13 b 7 e 1 = _
    simp only [en4, en3, en2, en1, RoundTrip.word, BitVec.reduceToNat, Nat.reducePow]; omega
  rw [RoundTrip.to_rawV68 (RoundTrip.range h 5 1 rfl rfl rfl), rawV68]
  have f0 : fld w 0 1 = 0 := RoundTrip.range h 0 1 rfl rfl rfl
  simp only [f0, Nat.reduceEqDiff, OfNat.ofNat_ne_zero, OfNat.zero_ne_ofNat, one_ne_zero, zero_ne_one, false_and, and_false, and_self, if_true, if_false]
  rw [show fbv 6 19 w = d from RoundTrip.field h 4 rfl rfl,
    show fbv 6 13 w = a from RoundTrip.field h 3 rfl rfl,
    show fbv 6 7 w = b from RoundTrip.field h 2 rfl rfl,
    show fbv 6 1 w = e from RoundTrip.field h 1 rfl rfl]

theorem RoundTrip.vrot (d : BitVec 6) (a : BitVec 6) (n : BitVec 6) (w0 : BitVec 2) (m : BitVec 3) (p : BitVec 1) : RoundTrip.Statement (.vrot d a n w0 m p) := by
  refine RoundTrip.ofV [⟨1, p⟩, ⟨1, 0⟩, ⟨3, m⟩, ⟨2, w0⟩, ⟨6, n⟩, ⟨6, a⟩, ⟨6, d⟩, ⟨7, 106⟩] rfl rfl ?_ fun w h => ?_
  · show en6 0xD4000000 d 19 a 13 n 7 w0 5 m 2 p 0 = _
    simp only [en6, en5, en4, en3, en2, en1, RoundTrip.word, BitVec.reduceToNat, Nat.reducePow]; omega
  rw [RoundTrip.to_rawV6A (RoundTrip.range h 7 1 rfl rfl rfl), rawV6A]
  have f0 : fld w 1 1 = 0 := RoundTrip.range h 1 1 rfl rfl rfl
  simp only [f0, Nat.reduceEqDiff, OfNat.ofNat_ne_zero, OfNat.zero_ne_ofNat, one_ne_zero, zero_ne_one, false_and, and_false, and_self, if_true, if_false]
  rw [show fbv 6 19 w = d from RoundTrip.field h 6 rfl rfl,
    show fbv 6 13 w = a from RoundTrip.field h 5 rfl rfl,
    show fbv 6 7 w = n from RoundTrip.field h 4 rfl rfl,
    show fbv 2 5 w = w0 from RoundTrip.field h 3 rfl rfl,
    show fbv 3 2 w = m from RoundTrip.field h 2 rfl rfl,
    show fbv 1 0 w = p from RoundTrip.field h 0 rfl rfl]

theorem RoundTrip.vbcl (d : BitVec 6) (a : BitVec 6) (n : BitVec 6) (w0 : BitVec 2) (m : BitVec 3) (p : BitVec 1) : RoundTrip.Statement (.vbcl d a n w0 m p) := by
  refine RoundTrip.ofV [⟨1, p⟩, ⟨1, 0⟩, ⟨3, m⟩, ⟨2, w0⟩, ⟨6, n⟩, ⟨6, a⟩, ⟨6, d⟩, ⟨7, 107⟩] rfl rfl ?_ fun w h => ?_
  · show en6 0xD6000000 d 19 a 13 n 7 w0 5 m 2 p 0 = _
    simp only [en6, en5, en4, en3, en2, en1, RoundTrip.word, BitVec.reduceToNat, Nat.reducePow]; omega
  rw [RoundTrip.to_rawV6B (RoundTrip.range h 7 1 rfl rfl rfl), rawV6B]
  have f0 : fld w 1 1 = 0 := RoundTrip.range h 1 1 rfl rfl rfl
  simp only [f0, Nat.reduceEqDiff, OfNat.ofNat_ne_zero, OfNat.zero_ne_ofNat, one_ne_zero, zero_ne_one, false_and, and_false, and_self, if_true, if_false]
  rw [show fbv 6 19 w = d from RoundTrip.field h 6 rfl rfl,
    show fbv 6 13 w = a from RoundTrip.field h 5 rfl rfl,
    show fbv 6 7 w = n from RoundTrip.field h 4 rfl rfl,
    show fbv 2 5 w = w0 from RoundTrip.field h 3 rfl rfl,
    show fbv 3 2 w = m from RoundTrip.field h 2 rfl rfl,
    show fbv 1 0 w = p from RoundTrip.field h 0 rfl rfl]

theorem RoundTrip.xcX (d : BitVec 6) (x : BitVec 5) (w0 : BitVec 2) (m : BitVec 3) : RoundTrip.Statement (.xcX d x w0 m) := by
  refine RoundTrip.ofV [⟨2, 0⟩, ⟨3, m⟩, ⟨2, w0⟩, ⟨7, 0⟩, ⟨5, x⟩, ⟨6, d⟩, ⟨7, 112⟩] rfl rfl ?_ fun w h => ?_
  · show en4 0xE0000000 d 19 x 14 w0 5 m 2 = _
    simp only [en4, en3, en2, en1, RoundTrip.word, BitVec.reduceToNat, Nat.reducePow]; omega
  rw [RoundTrip.to_rawV70 (RoundTrip.range h 6 1 rfl rfl rfl), rawV70]
  have f0 : fld w 7 7 = 0 := RoundTrip.range h 3 1 rfl rfl rfl
  have f1 : fld w 0 2 = 0 := RoundTrip.range h 0 1 rfl rfl rfl
  simp only [f0, f1, Nat.reduceEqDiff, OfNat.ofNat_ne_zero, OfNat.zero_ne_ofNat, one_ne_zero, zero_ne_one, false_and, and_false, and_self, if_true, if_false]
  rw [show fbv 6 19 w = d from RoundTrip.field h 5 rfl rfl,
    show fbv 5 14 w = x from RoundTrip.field h 4 rfl rfl,
    show fbv 2 5 w = w0 from RoundTrip.field h 2 rfl rfl,
    show fbv 3 2 w = m from RoundTrip.field h 1 rfl rfl]

theorem RoundTrip.xcXl (d : BitVec 6) (x : BitVec 5) (l : BitVec 7) : RoundTrip.Statement (.xcXl d x l) := by
  refine RoundTrip.ofV [⟨7, 0⟩, ⟨7, l⟩, ⟨5, x⟩, ⟨6, d⟩, ⟨7, 113⟩] rfl rfl ?_ fun w h => ?_
  · show en3 0xE2000000 d 19 x 14 l 7 = _
    simp only [en3, en2, en1, RoundTrip.word, BitVec.reduceToNat, Nat.reducePow]; omega
  rw [RoundTrip.to_rawV71 (RoundTrip.range h 4 1 rfl rfl rfl), rawV71]
  have f0 : fld w 0 7 = 0 := RoundTrip.range h 0 1 rfl rfl rfl
  simp only [f0, Nat.reduceEqDiff, OfNat.ofNat_ne_zero, OfNat.zero_ne_ofNat, one_ne_zero, zero_ne_one, false_and, and_false, and_self, if_true, if_false]
  rw [show fbv 6 19 w = d from RoundTrip.field h 3 rfl rfl,
    show fbv 5 14 w = x from RoundTrip.field h 2 rfl rfl,
    show fbv 7 7 w = l from RoundTrip.field h 1 rfl rfl]

theorem RoundTrip.mdset (m : BitVec 3) (f : BitVec 4) (i : BitVec 15) : RoundTrip.Statement (.mdset m f i) := by
  refine RoundTrip.ofM [⟨15, i⟩, ⟨4, 0⟩, ⟨4, f⟩, ⟨3, m⟩, ⟨6, 1⟩] rfl rfl ?_ fun w h => ?_
  · show en3 0x04000000 m 23 f 19 i 0 = _
    simp only [en3, en2, en1, RoundTrip.word, BitVec.reduceToNat, Nat.reducePow]; omega
  rw [RoundTrip.to_rawM01 (RoundTrip.range h 4 1 rfl rfl rfl), rawM01]
  have f0 : fld w 15 4 = 0 := RoundTrip.range h 1 1 rfl rfl rfl
  simp only [f0, Nat.reduceEqDiff, OfNat.ofNat_ne_zero, OfNat.zero_ne_ofNat, one_ne_zero, zero_ne_one, false_and, and_false, and_self, if_true, if_false]
  rw [show fbv 3 23 w = m from RoundTrip.field h 3 rfl rfl,
    show fbv 4 19 w = f from RoundTrip.field h 2 rfl rfl,
    show fbv 15 0 w = i from RoundTrip.field h 0 rfl rfl]

theorem RoundTrip.mdld (m : BitVec 3) (a : BitVec 15) : RoundTrip.Statement (.mdld m a) := by
  refine RoundTrip.ofM [⟨15, a⟩, ⟨8, 0⟩, ⟨3, m⟩, ⟨6, 2⟩] rfl rfl ?_ fun w h => ?_
  · show en2 0x08000000 m 23 a 0 = _
    simp only [en2, en1, RoundTrip.word, BitVec.reduceToNat, Nat.reducePow]; omega
  rw [RoundTrip.to_rawM02 (RoundTrip.range h 3 1 rfl rfl rfl), rawM02]
  have f0 : fld w 15 8 = 0 := RoundTrip.range h 1 1 rfl rfl rfl
  simp only [f0, Nat.reduceEqDiff, OfNat.ofNat_ne_zero, OfNat.zero_ne_ofNat, one_ne_zero, zero_ne_one, false_and, and_false, and_self, if_true, if_false]
  rw [show fbv 3 23 w = m from RoundTrip.field h 2 rfl rfl,
    show fbv 15 0 w = a from RoundTrip.field h 0 rfl rfl]

theorem RoundTrip.mdst (m : BitVec 3) (a : BitVec 15) : RoundTrip.Statement (.mdst m a) := by
  refine RoundTrip.ofM [⟨15, a⟩, ⟨8, 0⟩, ⟨3, m⟩, ⟨6, 3⟩] rfl rfl ?_ fun w h => ?_
  · show en2 0x0C000000 m 23 a 0 = _
    simp only [en2, en1, RoundTrip.word, BitVec.reduceToNat, Nat.reducePow]; omega
  rw [RoundTrip.to_rawM03 (RoundTrip.range h 3 1 rfl rfl rfl), rawM03]
  have f0 : fld w 15 8 = 0 := RoundTrip.range h 1 1 rfl rfl rfl
  simp only [f0, Nat.reduceEqDiff, OfNat.ofNat_ne_zero, OfNat.zero_ne_ofNat, one_ne_zero, zero_ne_one, false_and, and_false, and_self, if_true, if_false]
  rw [show fbv 3 23 w = m from RoundTrip.field h 2 rfl rfl,
    show fbv 15 0 w = a from RoundTrip.field h 0 rfl rfl]

theorem RoundTrip.mbld (b : BitVec 3) : RoundTrip.Statement (.mbld b) := by
  refine RoundTrip.ofM [⟨17, 0⟩, ⟨3, b⟩, ⟨6, 0⟩, ⟨6, 4⟩] rfl rfl ?_ fun w h => ?_
  · show en1 0x10000000 b 17 = _
    simp only [en1, RoundTrip.word, BitVec.reduceToNat, Nat.reducePow]; omega
  rw [RoundTrip.to_rawM04 (RoundTrip.range h 3 1 rfl rfl rfl), rawM04]
  have f0 : fld w 20 6 = 0 := RoundTrip.range h 2 1 rfl rfl rfl
  have f1 : fld w 0 17 = 0 := RoundTrip.range h 0 1 rfl rfl rfl
  simp only [f0, f1, Nat.reduceEqDiff, OfNat.ofNat_ne_zero, OfNat.zero_ne_ofNat, one_ne_zero, zero_ne_one, false_and, and_false, and_self, if_true, if_false]
  rw [show fbv 3 17 w = b from RoundTrip.field h 1 rfl rfl]

theorem RoundTrip.mzero (c : BitVec 3) : RoundTrip.Statement (.mzero c) := by
  refine RoundTrip.ofM [⟨23, 0⟩, ⟨3, c⟩, ⟨6, 5⟩] rfl rfl ?_ fun w h => ?_
  · show en1 0x14000000 c 23 = _
    simp only [en1, RoundTrip.word, BitVec.reduceToNat, Nat.reducePow]; omega
  rw [RoundTrip.to_rawM05 (RoundTrip.range h 2 1 rfl rfl rfl), rawM05]
  have f0 : fld w 0 23 = 0 := RoundTrip.range h 0 1 rfl rfl rfl
  simp only [f0, Nat.reduceEqDiff, OfNat.ofNat_ne_zero, OfNat.zero_ne_ofNat, one_ne_zero, zero_ne_one, false_and, and_false, and_self, if_true, if_false]
  rw [show fbv 3 23 w = c from RoundTrip.field h 1 rfl rfl]

theorem RoundTrip.moutm (c : BitVec 3) (a : BitVec 3) (b : BitVec 3) (k : BitVec 1) (l : BitVec 1) : RoundTrip.Statement (.moutm c a b k l) := by
  refine RoundTrip.ofM [⟨1, l⟩, ⟨1, k⟩, ⟨15, 0⟩, ⟨3, b⟩, ⟨3, a⟩, ⟨3, c⟩, ⟨6, 6⟩] rfl rfl ?_ fun w h => ?_
  · show en5 0x18000000 c 23 a 20 b 17 k 1 l 0 = _
    simp only [en5, en4, en3, en2, en1, RoundTrip.word, BitVec.reduceToNat, Nat.reducePow]; omega
  rw [RoundTrip.to_rawM06 (RoundTrip.range h 6 1 rfl rfl rfl), rawM06]
  have f0 : fld w 2 15 = 0 := RoundTrip.range h 2 1 rfl rfl rfl
  simp only [f0, Nat.reduceEqDiff, OfNat.ofNat_ne_zero, OfNat.zero_ne_ofNat, one_ne_zero, zero_ne_one, false_and, and_false, and_self, if_true, if_false]
  rw [show fbv 3 23 w = c from RoundTrip.field h 5 rfl rfl,
    show fbv 3 20 w = a from RoundTrip.field h 4 rfl rfl,
    show fbv 3 17 w = b from RoundTrip.field h 3 rfl rfl,
    show fbv 1 1 w = k from RoundTrip.field h 1 rfl rfl,
    show fbv 1 0 w = l from RoundTrip.field h 0 rfl rfl]

theorem RoundTrip.mma (c : BitVec 3) (a : BitVec 3) (b : BitVec 3) (s : BitVec 2) (z : BitVec 1) : RoundTrip.Statement (.mma c a b s z) := by
  refine RoundTrip.ofM [⟨1, z⟩, ⟨14, 0⟩, ⟨2, s⟩, ⟨3, b⟩, ⟨3, a⟩, ⟨3, c⟩, ⟨6, 16⟩] rfl rfl ?_ fun w h => ?_
  · show en5 0x40000000 c 23 a 20 b 17 s 15 z 0 = _
    simp only [en5, en4, en3, en2, en1, RoundTrip.word, BitVec.reduceToNat, Nat.reducePow]; omega
  rw [RoundTrip.to_rawM10 (RoundTrip.range h 6 1 rfl rfl rfl), rawM10]
  have f0 : fld w 1 14 = 0 := RoundTrip.range h 1 1 rfl rfl rfl
  simp only [f0, Nat.reduceEqDiff, OfNat.ofNat_ne_zero, OfNat.zero_ne_ofNat, one_ne_zero, zero_ne_one, false_and, and_false, and_self, if_true, if_false]
  rw [show fbv 3 23 w = c from RoundTrip.field h 5 rfl rfl,
    show fbv 3 20 w = a from RoundTrip.field h 4 rfl rfl,
    show fbv 3 17 w = b from RoundTrip.field h 3 rfl rfl,
    show fbv 2 15 w = s from RoundTrip.field h 2 rfl rfl,
    show fbv 1 0 w = z from RoundTrip.field h 0 rfl rfl]

theorem RoundTrip.mmaCk (c : BitVec 3) (a : BitVec 3) (b : BitVec 3) (s : BitVec 2) (z : BitVec 1) : RoundTrip.Statement (.mmaCk c a b s z) := by
  refine RoundTrip.ofM [⟨1, z⟩, ⟨14, 0⟩, ⟨2, s⟩, ⟨3, b⟩, ⟨3, a⟩, ⟨3, c⟩, ⟨6, 17⟩] rfl rfl ?_ fun w h => ?_
  · show en5 0x44000000 c 23 a 20 b 17 s 15 z 0 = _
    simp only [en5, en4, en3, en2, en1, RoundTrip.word, BitVec.reduceToNat, Nat.reducePow]; omega
  rw [RoundTrip.to_rawM11 (RoundTrip.range h 6 1 rfl rfl rfl), rawM11]
  have f0 : fld w 1 14 = 0 := RoundTrip.range h 1 1 rfl rfl rfl
  simp only [f0, Nat.reduceEqDiff, OfNat.ofNat_ne_zero, OfNat.zero_ne_ofNat, one_ne_zero, zero_ne_one, false_and, and_false, and_self, if_true, if_false]
  rw [show fbv 3 23 w = c from RoundTrip.field h 5 rfl rfl,
    show fbv 3 20 w = a from RoundTrip.field h 4 rfl rfl,
    show fbv 3 17 w = b from RoundTrip.field h 3 rfl rfl,
    show fbv 2 15 w = s from RoundTrip.field h 2 rfl rfl,
    show fbv 1 0 w = z from RoundTrip.field h 0 rfl rfl]

theorem RoundTrip.mlu (t : BitVec 3) (z : BitVec 1) (g : BitVec 2) (p : BitVec 2) : RoundTrip.Statement (.mlu t z g p) := by
  refine RoundTrip.ofM [⟨2, p⟩, ⟨2, g⟩, ⟨1, z⟩, ⟨18, 0⟩, ⟨3, t⟩, ⟨6, 32⟩] rfl rfl ?_ fun w h => ?_
  · show en4 0x80000000 t 23 z 4 g 2 p 0 = _
    simp only [en4, en3, en2, en1, RoundTrip.word, BitVec.reduceToNat, Nat.reducePow]; omega
  rw [RoundTrip.to_rawM20 (RoundTrip.range h 5 1 rfl rfl rfl), rawM20]
  have f0 : fld w 5 18 = 0 := RoundTrip.range h 3 1 rfl rfl rfl
  simp only [f0, Nat.reduceEqDiff, OfNat.ofNat_ne_zero, OfNat.zero_ne_ofNat, one_ne_zero, zero_ne_one, false_and, and_false, and_self, if_true, if_false]
  rw [show fbv 3 23 w = t from RoundTrip.field h 4 rfl rfl,
    show fbv 1 4 w = z from RoundTrip.field h 2 rfl rfl,
    show fbv 2 2 w = g from RoundTrip.field h 1 rfl rfl,
    show fbv 2 0 w = p from RoundTrip.field h 0 rfl rfl]

theorem RoundTrip.mchol (t : BitVec 3) (g : BitVec 2) (p : BitVec 2) : RoundTrip.Statement (.mchol t g p) := by
  refine RoundTrip.ofM [⟨2, p⟩, ⟨2, g⟩, ⟨19, 0⟩, ⟨3, t⟩, ⟨6, 33⟩] rfl rfl ?_ fun w h => ?_
  · show en3 0x84000000 t 23 g 2 p 0 = _
    simp only [en3, en2, en1, RoundTrip.word, BitVec.reduceToNat, Nat.reducePow]; omega
  rw [RoundTrip.to_rawM21 (RoundTrip.range h 4 1 rfl rfl rfl), rawM21]
  have f0 : fld w 4 19 = 0 := RoundTrip.range h 2 1 rfl rfl rfl
  simp only [f0, Nat.reduceEqDiff, OfNat.ofNat_ne_zero, OfNat.zero_ne_ofNat, one_ne_zero, zero_ne_one, false_and, and_false, and_self, if_true, if_false]
  rw [show fbv 3 23 w = t from RoundTrip.field h 3 rfl rfl,
    show fbv 2 2 w = g from RoundTrip.field h 1 rfl rfl,
    show fbv 2 0 w = p from RoundTrip.field h 0 rfl rfl]

theorem RoundTrip.mqr (t : BitVec 3) (g : BitVec 2) (p : BitVec 2) : RoundTrip.Statement (.mqr t g p) := by
  refine RoundTrip.ofM [⟨2, p⟩, ⟨2, g⟩, ⟨19, 0⟩, ⟨3, t⟩, ⟨6, 34⟩] rfl rfl ?_ fun w h => ?_
  · show en3 0x88000000 t 23 g 2 p 0 = _
    simp only [en3, en2, en1, RoundTrip.word, BitVec.reduceToNat, Nat.reducePow]; omega
  rw [RoundTrip.to_rawM22 (RoundTrip.range h 4 1 rfl rfl rfl), rawM22]
  have f0 : fld w 4 19 = 0 := RoundTrip.range h 2 1 rfl rfl rfl
  simp only [f0, Nat.reduceEqDiff, OfNat.ofNat_ne_zero, OfNat.zero_ne_ofNat, one_ne_zero, zero_ne_one, false_and, and_false, and_self, if_true, if_false]
  rw [show fbv 3 23 w = t from RoundTrip.field h 3 rfl rfl,
    show fbv 2 2 w = g from RoundTrip.field h 1 rfl rfl,
    show fbv 2 0 w = p from RoundTrip.field h 0 rfl rfl]

theorem RoundTrip.mtrsm (b : BitVec 3) (t : BitVec 3) (u : BitVec 1) (x : BitVec 1) (r : BitVec 1) (s : BitVec 1) (z : BitVec 1) (g : BitVec 2) : RoundTrip.Statement (.mtrsm b t u x r s z g) := by
  refine RoundTrip.ofM [⟨2, 0⟩, ⟨2, g⟩, ⟨1, z⟩, ⟨1, s⟩, ⟨1, r⟩, ⟨1, x⟩, ⟨1, u⟩, ⟨11, 0⟩, ⟨3, t⟩, ⟨3, b⟩, ⟨6, 35⟩] rfl rfl ?_ fun w h => ?_
  · show en8 0x8C000000 b 23 t 20 u 8 x 7 r 6 s 5 z 4 g 2 = _
    simp only [en8, en7, en6, en5, en4, en3, en2, en1, RoundTrip.word, BitVec.reduceToNat, Nat.reducePow]; omega
  rw [RoundTrip.to_rawM23 (RoundTrip.range h 10 1 rfl rfl rfl), rawM23]
  have f0 : fld w 9 11 = 0 := RoundTrip.range h 7 1 rfl rfl rfl
  have f1 : fld w 0 2 = 0 := RoundTrip.range h 0 1 rfl rfl rfl
  simp only [f0, f1, Nat.reduceEqDiff, OfNat.ofNat_ne_zero, OfNat.zero_ne_ofNat, one_ne_zero, zero_ne_one, false_and, and_false, and_self, if_true, if_false]
  rw [show fbv 3 23 w = b from RoundTrip.field h 9 rfl rfl,
    show fbv 3 20 w = t from RoundTrip.field h 8 rfl rfl,
    show fbv 1 8 w = u from RoundTrip.field h 6 rfl rfl,
    show fbv 1 7 w = x from RoundTrip.field h 5 rfl rfl,
    show fbv 1 6 w = r from RoundTrip.field h 4 rfl rfl,
    show fbv 1 5 w = s from RoundTrip.field h 3 rfl rfl,
    show fbv 1 4 w = z from RoundTrip.field h 2 rfl rfl,
    show fbv 2 2 w = g from RoundTrip.field h 1 rfl rfl]

theorem RoundTrip.mperm (t : BitVec 3) (n : BitVec 7) (i : BitVec 1) (f : BitVec 1) (d : BitVec 1) (p : BitVec 2) : RoundTrip.Statement (.mperm t n i f d p) := by
  refine RoundTrip.ofM [⟨2, p⟩, ⟨2, 0⟩, ⟨1, d⟩, ⟨1, f⟩, ⟨1, i⟩, ⟨7, n⟩, ⟨9, 0⟩, ⟨3, t⟩, ⟨6, 36⟩] rfl rfl ?_ fun w h => ?_
  · show en6 0x90000000 t 23 n 7 i 6 f 5 d 4 p 0 = _
    simp only [en6, en5, en4, en3, en2, en1, RoundTrip.word, BitVec.reduceToNat, Nat.reducePow]; omega
  rw [RoundTrip.to_rawM24 (RoundTrip.range h 8 1 rfl rfl rfl), rawM24]
  have f0 : fld w 14 9 = 0 := RoundTrip.range h 6 1 rfl rfl rfl
  have f1 : fld w 2 2 = 0 := RoundTrip.range h 1 1 rfl rfl rfl
  simp only [f0, f1, Nat.reduceEqDiff, OfNat.ofNat_ne_zero, OfNat.zero_ne_ofNat, one_ne_zero, zero_ne_one, false_and, and_false, and_self, if_true, if_false]
  rw [show fbv 3 23 w = t from RoundTrip.field h 7 rfl rfl,
    show fbv 7 7 w = n from RoundTrip.field h 5 rfl rfl,
    show fbv 1 6 w = i from RoundTrip.field h 4 rfl rfl,
    show fbv 1 5 w = f from RoundTrip.field h 3 rfl rfl,
    show fbv 1 4 w = d from RoundTrip.field h 2 rfl rfl,
    show fbv 2 0 w = p from RoundTrip.field h 0 rfl rfl]

theorem RoundTrip.mpiv (n : BitVec 7) (s : BitVec 2) (d : BitVec 2) : RoundTrip.Statement (.mpiv n s d) := by
  refine RoundTrip.ofM [⟨2, d⟩, ⟨2, s⟩, ⟨7, n⟩, ⟨15, 0⟩, ⟨6, 37⟩] rfl rfl ?_ fun w h => ?_
  · show en3 0x94000000 n 4 s 2 d 0 = _
    simp only [en3, en2, en1, RoundTrip.word, BitVec.reduceToNat, Nat.reducePow]; omega
  rw [RoundTrip.to_rawM25 (RoundTrip.range h 4 1 rfl rfl rfl), rawM25]
  have f0 : fld w 11 15 = 0 := RoundTrip.range h 3 1 rfl rfl rfl
  simp only [f0, Nat.reduceEqDiff, OfNat.ofNat_ne_zero, OfNat.zero_ne_ofNat, one_ne_zero, zero_ne_one, false_and, and_false, and_self, if_true, if_false]
  rw [show fbv 7 4 w = n from RoundTrip.field h 2 rfl rfl,
    show fbv 2 2 w = s from RoundTrip.field h 1 rfl rfl,
    show fbv 2 0 w = d from RoundTrip.field h 0 rfl rfl]

theorem RoundTrip.xcXMatrix (r : BitVec 3) (x : BitVec 5) (k : BitVec 2) (q : BitVec 4) : RoundTrip.Statement (.xcXMatrix r x k q) := by
  refine RoundTrip.ofM [⟨9, 0⟩, ⟨4, q⟩, ⟨2, k⟩, ⟨3, 0⟩, ⟨5, x⟩, ⟨3, r⟩, ⟨6, 48⟩] rfl rfl ?_ fun w h => ?_
  · show en4 0xC0000000 r 23 x 18 k 13 q 9 = _
    simp only [en4, en3, en2, en1, RoundTrip.word, BitVec.reduceToNat, Nat.reducePow]; omega
  rw [RoundTrip.to_rawM30 (RoundTrip.range h 6 1 rfl rfl rfl), rawM30]
  have f0 : fld w 15 3 = 0 := RoundTrip.range h 3 1 rfl rfl rfl
  have f1 : fld w 0 9 = 0 := RoundTrip.range h 0 1 rfl rfl rfl
  simp only [f0, f1, Nat.reduceEqDiff, OfNat.ofNat_ne_zero, OfNat.zero_ne_ofNat, one_ne_zero, zero_ne_one, false_and, and_false, and_self, if_true, if_false]
  rw [show fbv 3 23 w = r from RoundTrip.field h 5 rfl rfl,
    show fbv 5 18 w = x from RoundTrip.field h 4 rfl rfl,
    show fbv 2 13 w = k from RoundTrip.field h 2 rfl rfl,
    show fbv 4 9 w = q from RoundTrip.field h 1 rfl rfl]

theorem RoundTrip.adda (d : BitVec 4) (a : BitVec 4) (b : BitVec 4) : RoundTrip.Statement (.adda d a b) := by
  refine RoundTrip.ofT [⟨12, 0⟩, ⟨4, b⟩, ⟨1, 0⟩, ⟨4, a⟩, ⟨4, d⟩, ⟨7, 1⟩] rfl rfl ?_ fun w h => ?_
  · show en3 0x02000000 d 21 a 17 b 12 = _
    simp only [en3, en2, en1, RoundTrip.word, BitVec.reduceToNat, Nat.reducePow]; omega
  rw [RoundTrip.to_rawT01 (RoundTrip.range h 5 1 rfl rfl rfl), rawT01]
  have f0 : fld w 16 1 = 0 := RoundTrip.range h 2 1 rfl rfl rfl
  have f1 : fld w 0 12 = 0 := RoundTrip.range h 0 1 rfl rfl rfl
  simp only [f0, f1, Nat.reduceEqDiff, OfNat.ofNat_ne_zero, OfNat.zero_ne_ofNat, one_ne_zero, zero_ne_one, false_and, and_false, and_self, if_true, if_false]
  rw [show fbv 4 21 w = d from RoundTrip.field h 4 rfl rfl,
    show fbv 4 17 w = a from RoundTrip.field h 3 rfl rfl,
    show fbv 4 12 w = b from RoundTrip.field h 1 rfl rfl]

theorem RoundTrip.addaImmediate (d : BitVec 4) (a : BitVec 4) (i : BitVec 16) : RoundTrip.Statement (.addaImmediate d a i) := by
  refine RoundTrip.ofT [⟨16, i⟩, ⟨1, 1⟩, ⟨4, a⟩, ⟨4, d⟩, ⟨7, 1⟩] rfl rfl ?_ fun w h => ?_
  · show en3 0x02010000 d 21 a 17 i 0 = _
    simp only [en3, en2, en1, RoundTrip.word, BitVec.reduceToNat, Nat.reducePow]; omega
  rw [RoundTrip.to_rawT01 (RoundTrip.range h 4 1 rfl rfl rfl), rawT01]
  have f0 : fld w 16 1 = 1 := RoundTrip.range h 1 1 rfl rfl rfl
  simp only [f0, Nat.reduceEqDiff, OfNat.ofNat_ne_zero, OfNat.zero_ne_ofNat, one_ne_zero, zero_ne_one, false_and, and_false, and_self, if_true, if_false]
  rw [show fbv 4 21 w = d from RoundTrip.field h 3 rfl rfl,
    show fbv 4 17 w = a from RoundTrip.field h 2 rfl rfl,
    show fbv 16 0 w = i from RoundTrip.field h 0 rfl rfl]

theorem RoundTrip.suba (d : BitVec 4) (a : BitVec 4) (b : BitVec 4) : RoundTrip.Statement (.suba d a b) := by
  refine RoundTrip.ofT [⟨12, 0⟩, ⟨4, b⟩, ⟨1, 0⟩, ⟨4, a⟩, ⟨4, d⟩, ⟨7, 2⟩] rfl rfl ?_ fun w h => ?_
  · show en3 0x04000000 d 21 a 17 b 12 = _
    simp only [en3, en2, en1, RoundTrip.word, BitVec.reduceToNat, Nat.reducePow]; omega
  rw [RoundTrip.to_rawT02 (RoundTrip.range h 5 1 rfl rfl rfl), rawT02]
  have f0 : fld w 16 1 = 0 := RoundTrip.range h 2 1 rfl rfl rfl
  have f1 : fld w 0 12 = 0 := RoundTrip.range h 0 1 rfl rfl rfl
  simp only [f0, f1, Nat.reduceEqDiff, OfNat.ofNat_ne_zero, OfNat.zero_ne_ofNat, one_ne_zero, zero_ne_one, false_and, and_false, and_self, if_true, if_false]
  rw [show fbv 4 21 w = d from RoundTrip.field h 4 rfl rfl,
    show fbv 4 17 w = a from RoundTrip.field h 3 rfl rfl,
    show fbv 4 12 w = b from RoundTrip.field h 1 rfl rfl]

theorem RoundTrip.subaImmediate (d : BitVec 4) (a : BitVec 4) (i : BitVec 16) : RoundTrip.Statement (.subaImmediate d a i) := by
  refine RoundTrip.ofT [⟨16, i⟩, ⟨1, 1⟩, ⟨4, a⟩, ⟨4, d⟩, ⟨7, 2⟩] rfl rfl ?_ fun w h => ?_
  · show en3 0x04010000 d 21 a 17 i 0 = _
    simp only [en3, en2, en1, RoundTrip.word, BitVec.reduceToNat, Nat.reducePow]; omega
  rw [RoundTrip.to_rawT02 (RoundTrip.range h 4 1 rfl rfl rfl), rawT02]
  have f0 : fld w 16 1 = 1 := RoundTrip.range h 1 1 rfl rfl rfl
  simp only [f0, Nat.reduceEqDiff, OfNat.ofNat_ne_zero, OfNat.zero_ne_ofNat, one_ne_zero, zero_ne_one, false_and, and_false, and_self, if_true, if_false]
  rw [show fbv 4 21 w = d from RoundTrip.field h 3 rfl rfl,
    show fbv 4 17 w = a from RoundTrip.field h 2 rfl rfl,
    show fbv 16 0 w = i from RoundTrip.field h 0 rfl rfl]

theorem RoundTrip.shla (d : BitVec 4) (a : BitVec 4) (b : BitVec 4) : RoundTrip.Statement (.shla d a b) := by
  refine RoundTrip.ofT [⟨12, 0⟩, ⟨4, b⟩, ⟨1, 0⟩, ⟨4, a⟩, ⟨4, d⟩, ⟨7, 3⟩] rfl rfl ?_ fun w h => ?_
  · show en3 0x06000000 d 21 a 17 b 12 = _
    simp only [en3, en2, en1, RoundTrip.word, BitVec.reduceToNat, Nat.reducePow]; omega
  rw [RoundTrip.to_rawT03 (RoundTrip.range h 5 1 rfl rfl rfl), rawT03]
  have f0 : fld w 16 1 = 0 := RoundTrip.range h 2 1 rfl rfl rfl
  have f1 : fld w 0 12 = 0 := RoundTrip.range h 0 1 rfl rfl rfl
  simp only [f0, f1, Nat.reduceEqDiff, OfNat.ofNat_ne_zero, OfNat.zero_ne_ofNat, one_ne_zero, zero_ne_one, false_and, and_false, and_self, if_true, if_false]
  rw [show fbv 4 21 w = d from RoundTrip.field h 4 rfl rfl,
    show fbv 4 17 w = a from RoundTrip.field h 3 rfl rfl,
    show fbv 4 12 w = b from RoundTrip.field h 1 rfl rfl]

theorem RoundTrip.shlaImmediate (d : BitVec 4) (a : BitVec 4) (n : BitVec 6) : RoundTrip.Statement (.shlaImmediate d a n) := by
  refine RoundTrip.ofT [⟨6, n⟩, ⟨10, 0⟩, ⟨1, 1⟩, ⟨4, a⟩, ⟨4, d⟩, ⟨7, 3⟩] rfl rfl ?_ fun w h => ?_
  · show en3 0x06010000 d 21 a 17 n 0 = _
    simp only [en3, en2, en1, RoundTrip.word, BitVec.reduceToNat, Nat.reducePow]; omega
  rw [RoundTrip.to_rawT03 (RoundTrip.range h 5 1 rfl rfl rfl), rawT03]
  have f0 : fld w 16 1 = 1 := RoundTrip.range h 2 1 rfl rfl rfl
  have f1 : fld w 6 11 = 1024 := RoundTrip.range h 1 2 rfl rfl rfl
  simp only [f0, f1, Nat.reduceEqDiff, OfNat.ofNat_ne_zero, OfNat.zero_ne_ofNat, one_ne_zero, zero_ne_one, false_and, and_false, and_self, if_true, if_false]
  rw [show fbv 4 21 w = d from RoundTrip.field h 4 rfl rfl,
    show fbv 4 17 w = a from RoundTrip.field h 3 rfl rfl,
    show fbv 6 0 w = n from RoundTrip.field h 0 rfl rfl]

theorem RoundTrip.lia (d : BitVec 4) (i : BitVec 21) : RoundTrip.Statement (.lia d i) := by
  refine RoundTrip.ofT [⟨21, i⟩, ⟨4, d⟩, ⟨7, 4⟩] rfl rfl ?_ fun w h => ?_
  · show en2 0x08000000 d 21 i 0 = _
    simp only [en2, en1, RoundTrip.word, BitVec.reduceToNat, Nat.reducePow]; omega
  rw [RoundTrip.to_rawT04 (RoundTrip.range h 2 1 rfl rfl rfl), rawT04]
  rw [show fbv 4 21 w = d from RoundTrip.field h 1 rfl rfl,
    show fbv 21 0 w = i from RoundTrip.field h 0 rfl rfl]

theorem RoundTrip.hder (d : BitVec 4) (s : BitVec 4) (o : BitVec 4) (l : BitVec 4) (k : BitVec 5) : RoundTrip.Statement (.hder d s o l k) := by
  refine RoundTrip.ofT [⟨4, 0⟩, ⟨5, k⟩, ⟨4, l⟩, ⟨4, o⟩, ⟨4, s⟩, ⟨4, d⟩, ⟨7, 5⟩] rfl rfl ?_ fun w h => ?_
  · show en5 0x0A000000 d 21 s 17 o 13 l 9 k 4 = _
    simp only [en5, en4, en3, en2, en1, RoundTrip.word, BitVec.reduceToNat, Nat.reducePow]; omega
  rw [RoundTrip.to_rawT05 (RoundTrip.range h 6 1 rfl rfl rfl), rawT05]
  have f0 : fld w 0 4 = 0 := RoundTrip.range h 0 1 rfl rfl rfl
  simp only [f0, Nat.reduceEqDiff, OfNat.ofNat_ne_zero, OfNat.zero_ne_ofNat, one_ne_zero, zero_ne_one, false_and, and_false, and_self, if_true, if_false]
  rw [show fbv 4 21 w = d from RoundTrip.field h 5 rfl rfl,
    show fbv 4 17 w = s from RoundTrip.field h 4 rfl rfl,
    show fbv 4 13 w = o from RoundTrip.field h 3 rfl rfl,
    show fbv 4 9 w = l from RoundTrip.field h 2 rfl rfl,
    show fbv 5 4 w = k from RoundTrip.field h 1 rfl rfl]

theorem RoundTrip.hnul (d : BitVec 4) : RoundTrip.Statement (.hnul d) := by
  refine RoundTrip.ofT [⟨21, 0⟩, ⟨4, d⟩, ⟨7, 6⟩] rfl rfl ?_ fun w h => ?_
  · show en1 0x0C000000 d 21 = _
    simp only [en1, RoundTrip.word, BitVec.reduceToNat, Nat.reducePow]; omega
  rw [RoundTrip.to_rawT06 (RoundTrip.range h 2 1 rfl rfl rfl), rawT06]
  have f0 : fld w 0 21 = 0 := RoundTrip.range h 0 1 rfl rfl rfl
  simp only [f0, Nat.reduceEqDiff, OfNat.ofNat_ne_zero, OfNat.zero_ne_ofNat, one_ne_zero, zero_ne_one, false_and, and_false, and_self, if_true, if_false]
  rw [show fbv 4 21 w = d from RoundTrip.field h 1 rfl rfl]

theorem RoundTrip.hld (h0 : BitVec 4) (b : BitVec 4) (a : BitVec 4) (i : BitVec 13) : RoundTrip.Statement (.hld h0 b a i) := by
  refine RoundTrip.ofT [⟨13, i⟩, ⟨4, a⟩, ⟨4, b⟩, ⟨4, h0⟩, ⟨7, 7⟩] rfl rfl ?_ fun w h => ?_
  · show en4 0x0E000000 h0 21 b 17 a 13 i 0 = _
    simp only [en4, en3, en2, en1, RoundTrip.word, BitVec.reduceToNat, Nat.reducePow]; omega
  rw [RoundTrip.to_rawT07 (RoundTrip.range h 4 1 rfl rfl rfl), rawT07]
  rw [show fbv 4 21 w = h0 from RoundTrip.field h 3 rfl rfl,
    show fbv 4 17 w = b from RoundTrip.field h 2 rfl rfl,
    show fbv 4 13 w = a from RoundTrip.field h 1 rfl rfl,
    show fbv 13 0 w = i from RoundTrip.field h 0 rfl rfl]

theorem RoundTrip.hst (h0 : BitVec 4) (b : BitVec 4) (a : BitVec 4) (i : BitVec 13) : RoundTrip.Statement (.hst h0 b a i) := by
  refine RoundTrip.ofT [⟨13, i⟩, ⟨4, a⟩, ⟨4, b⟩, ⟨4, h0⟩, ⟨7, 8⟩] rfl rfl ?_ fun w h => ?_
  · show en4 0x10000000 h0 21 b 17 a 13 i 0 = _
    simp only [en4, en3, en2, en1, RoundTrip.word, BitVec.reduceToNat, Nat.reducePow]; omega
  rw [RoundTrip.to_rawT08 (RoundTrip.range h 4 1 rfl rfl rfl), rawT08]
  rw [show fbv 4 21 w = h0 from RoundTrip.field h 3 rfl rfl,
    show fbv 4 17 w = b from RoundTrip.field h 2 rfl rfl,
    show fbv 4 13 w = a from RoundTrip.field h 1 rfl rfl,
    show fbv 13 0 w = i from RoundTrip.field h 0 rfl rfl]

theorem RoundTrip.scinvRange (h0 : BitVec 4) (o : BitVec 4) (l : BitVec 4) : RoundTrip.Statement (.scinvRange h0 o l) := by
  refine RoundTrip.ofT [⟨12, 0⟩, ⟨4, l⟩, ⟨4, o⟩, ⟨4, h0⟩, ⟨1, 1⟩, ⟨7, 9⟩] rfl rfl ?_ fun w h => ?_
  · show en3 0x13000000 h0 20 o 16 l 12 = _
    simp only [en3, en2, en1, RoundTrip.word, BitVec.reduceToNat, Nat.reducePow]; omega
  rw [RoundTrip.to_rawT09 (RoundTrip.range h 5 1 rfl rfl rfl), rawT09]
  have f0 : fld w 24 1 = 1 := RoundTrip.range h 4 1 rfl rfl rfl
  have f1 : fld w 0 12 = 0 := RoundTrip.range h 0 1 rfl rfl rfl
  have g0 : ¬(fld w 0 25 = 0) := by unfold fld at *; omega
  simp only [g0, f0, f1, Nat.reduceEqDiff, OfNat.ofNat_ne_zero, OfNat.zero_ne_ofNat, one_ne_zero, zero_ne_one, false_and, and_false, and_self, if_true, if_false]
  rw [show fbv 4 20 w = h0 from RoundTrip.field h 3 rfl rfl,
    show fbv 4 16 w = o from RoundTrip.field h 2 rfl rfl,
    show fbv 4 12 w = l from RoundTrip.field h 1 rfl rfl]

theorem RoundTrip.bcfl (h0 : BitVec 4) (o : BitVec 4) (l : BitVec 4) (v : BitVec 1) : RoundTrip.Statement (.bcfl h0 o l v) := by
  refine RoundTrip.ofT [⟨12, 0⟩, ⟨1, v⟩, ⟨4, l⟩, ⟨4, o⟩, ⟨4, h0⟩, ⟨7, 10⟩] rfl rfl ?_ fun w h => ?_
  · show en4 0x14000000 h0 21 o 17 l 13 v 12 = _
    simp only [en4, en3, en2, en1, RoundTrip.word, BitVec.reduceToNat, Nat.reducePow]; omega
  rw [RoundTrip.to_rawT0A (RoundTrip.range h 5 1 rfl rfl rfl), rawT0A]
  have f0 : fld w 0 12 = 0 := RoundTrip.range h 0 1 rfl rfl rfl
  simp only [f0, Nat.reduceEqDiff, OfNat.ofNat_ne_zero, OfNat.zero_ne_ofNat, one_ne_zero, zero_ne_one, false_and, and_false, and_self, if_true, if_false]
  rw [show fbv 4 21 w = h0 from RoundTrip.field h 4 rfl rfl,
    show fbv 4 17 w = o from RoundTrip.field h 3 rfl rfl,
    show fbv 4 13 w = l from RoundTrip.field h 2 rfl rfl,
    show fbv 1 12 w = v from RoundTrip.field h 1 rfl rfl]

theorem RoundTrip.ld (x : BitVec 5) (h0 : BitVec 4) (a : BitVec 4) (s : BitVec 2) (i : BitVec 10) : RoundTrip.Statement (.ld x h0 a s i) := by
  refine RoundTrip.ofT [⟨10, i⟩, ⟨2, s⟩, ⟨4, a⟩, ⟨4, h0⟩, ⟨5, x⟩, ⟨7, 16⟩] rfl rfl ?_ fun w h => ?_
  · show en5 0x20000000 x 20 h0 16 a 12 s 10 i 0 = _
    simp only [en5, en4, en3, en2, en1, RoundTrip.word, BitVec.reduceToNat, Nat.reducePow]; omega
  rw [RoundTrip.to_rawT10 (RoundTrip.range h 5 1 rfl rfl rfl), rawT10]
  rw [show fbv 5 20 w = x from RoundTrip.field h 4 rfl rfl,
    show fbv 4 16 w = h0 from RoundTrip.field h 3 rfl rfl,
    show fbv 4 12 w = a from RoundTrip.field h 2 rfl rfl,
    show fbv 2 10 w = s from RoundTrip.field h 1 rfl rfl,
    show fbv 10 0 w = i from RoundTrip.field h 0 rfl rfl]

theorem RoundTrip.ldn (x : BitVec 5) (h0 : BitVec 4) (a : BitVec 4) (s : BitVec 2) (i : BitVec 10) : RoundTrip.Statement (.ldn x h0 a s i) := by
  refine RoundTrip.ofT [⟨10, i⟩, ⟨2, s⟩, ⟨4, a⟩, ⟨4, h0⟩, ⟨5, x⟩, ⟨7, 17⟩] rfl rfl ?_ fun w h => ?_
  · show en5 0x22000000 x 20 h0 16 a 12 s 10 i 0 = _
    simp only [en5, en4, en3, en2, en1, RoundTrip.word, BitVec.reduceToNat, Nat.reducePow]; omega
  rw [RoundTrip.to_rawT11 (RoundTrip.range h 5 1 rfl rfl rfl), rawT11]
  rw [show fbv 5 20 w = x from RoundTrip.field h 4 rfl rfl,
    show fbv 4 16 w = h0 from RoundTrip.field h 3 rfl rfl,
    show fbv 4 12 w = a from RoundTrip.field h 2 rfl rfl,
    show fbv 2 10 w = s from RoundTrip.field h 1 rfl rfl,
    show fbv 10 0 w = i from RoundTrip.field h 0 rfl rfl]

theorem RoundTrip.st (x : BitVec 5) (h0 : BitVec 4) (a : BitVec 4) (s : BitVec 2) (i : BitVec 10) : RoundTrip.Statement (.st x h0 a s i) := by
  refine RoundTrip.ofT [⟨10, i⟩, ⟨2, s⟩, ⟨4, a⟩, ⟨4, h0⟩, ⟨5, x⟩, ⟨7, 18⟩] rfl rfl ?_ fun w h => ?_
  · show en5 0x24000000 x 20 h0 16 a 12 s 10 i 0 = _
    simp only [en5, en4, en3, en2, en1, RoundTrip.word, BitVec.reduceToNat, Nat.reducePow]; omega
  rw [RoundTrip.to_rawT12 (RoundTrip.range h 5 1 rfl rfl rfl), rawT12]
  rw [show fbv 5 20 w = x from RoundTrip.field h 4 rfl rfl,
    show fbv 4 16 w = h0 from RoundTrip.field h 3 rfl rfl,
    show fbv 4 12 w = a from RoundTrip.field h 2 rfl rfl,
    show fbv 2 10 w = s from RoundTrip.field h 1 rfl rfl,
    show fbv 10 0 w = i from RoundTrip.field h 0 rfl rfl]

theorem RoundTrip.vld (v : BitVec 6) (h0 : BitVec 4) (a : BitVec 4) (w0 : BitVec 2) (i : BitVec 9) : RoundTrip.Statement (.vld v h0 a w0 i) := by
  refine RoundTrip.ofT [⟨9, i⟩, ⟨2, w0⟩, ⟨4, a⟩, ⟨4, h0⟩, ⟨6, v⟩, ⟨7, 19⟩] rfl rfl ?_ fun w h => ?_
  · show en5 0x26000000 v 19 h0 15 a 11 w0 9 i 0 = _
    simp only [en5, en4, en3, en2, en1, RoundTrip.word, BitVec.reduceToNat, Nat.reducePow]; omega
  rw [RoundTrip.to_rawT13 (RoundTrip.range h 5 1 rfl rfl rfl), rawT13]
  rw [show fbv 6 19 w = v from RoundTrip.field h 4 rfl rfl,
    show fbv 4 15 w = h0 from RoundTrip.field h 3 rfl rfl,
    show fbv 4 11 w = a from RoundTrip.field h 2 rfl rfl,
    show fbv 2 9 w = w0 from RoundTrip.field h 1 rfl rfl,
    show fbv 9 0 w = i from RoundTrip.field h 0 rfl rfl]

theorem RoundTrip.vst (v : BitVec 6) (h0 : BitVec 4) (a : BitVec 4) (w0 : BitVec 2) (i : BitVec 9) : RoundTrip.Statement (.vst v h0 a w0 i) := by
  refine RoundTrip.ofT [⟨9, i⟩, ⟨2, w0⟩, ⟨4, a⟩, ⟨4, h0⟩, ⟨6, v⟩, ⟨7, 20⟩] rfl rfl ?_ fun w h => ?_
  · show en5 0x28000000 v 19 h0 15 a 11 w0 9 i 0 = _
    simp only [en5, en4, en3, en2, en1, RoundTrip.word, BitVec.reduceToNat, Nat.reducePow]; omega
  rw [RoundTrip.to_rawT14 (RoundTrip.range h 5 1 rfl rfl rfl), rawT14]
  rw [show fbv 6 19 w = v from RoundTrip.field h 4 rfl rfl,
    show fbv 4 15 w = h0 from RoundTrip.field h 3 rfl rfl,
    show fbv 4 11 w = a from RoundTrip.field h 2 rfl rfl,
    show fbv 2 9 w = w0 from RoundTrip.field h 1 rfl rfl,
    show fbv 9 0 w = i from RoundTrip.field h 0 rfl rfl]

theorem RoundTrip.vlds (v : BitVec 6) (h0 : BitVec 4) (a : BitVec 4) (s : BitVec 4) (w0 : BitVec 2) : RoundTrip.Statement (.vlds v h0 a s w0) := by
  refine RoundTrip.ofT [⟨5, 0⟩, ⟨2, w0⟩, ⟨4, s⟩, ⟨4, a⟩, ⟨4, h0⟩, ⟨6, v⟩, ⟨7, 21⟩] rfl rfl ?_ fun w h => ?_
  · show en5 0x2A000000 v 19 h0 15 a 11 s 7 w0 5 = _
    simp only [en5, en4, en3, en2, en1, RoundTrip.word, BitVec.reduceToNat, Nat.reducePow]; omega
  rw [RoundTrip.to_rawT15 (RoundTrip.range h 6 1 rfl rfl rfl), rawT15]
  have f0 : fld w 0 5 = 0 := RoundTrip.range h 0 1 rfl rfl rfl
  simp only [f0, Nat.reduceEqDiff, OfNat.ofNat_ne_zero, OfNat.zero_ne_ofNat, one_ne_zero, zero_ne_one, false_and, and_false, and_self, if_true, if_false]
  rw [show fbv 6 19 w = v from RoundTrip.field h 5 rfl rfl,
    show fbv 4 15 w = h0 from RoundTrip.field h 4 rfl rfl,
    show fbv 4 11 w = a from RoundTrip.field h 3 rfl rfl,
    show fbv 4 7 w = s from RoundTrip.field h 2 rfl rfl,
    show fbv 2 5 w = w0 from RoundTrip.field h 1 rfl rfl]

theorem RoundTrip.vsts (v : BitVec 6) (h0 : BitVec 4) (a : BitVec 4) (s : BitVec 4) (w0 : BitVec 2) : RoundTrip.Statement (.vsts v h0 a s w0) := by
  refine RoundTrip.ofT [⟨5, 0⟩, ⟨2, w0⟩, ⟨4, s⟩, ⟨4, a⟩, ⟨4, h0⟩, ⟨6, v⟩, ⟨7, 22⟩] rfl rfl ?_ fun w h => ?_
  · show en5 0x2C000000 v 19 h0 15 a 11 s 7 w0 5 = _
    simp only [en5, en4, en3, en2, en1, RoundTrip.word, BitVec.reduceToNat, Nat.reducePow]; omega
  rw [RoundTrip.to_rawT16 (RoundTrip.range h 6 1 rfl rfl rfl), rawT16]
  have f0 : fld w 0 5 = 0 := RoundTrip.range h 0 1 rfl rfl rfl
  simp only [f0, Nat.reduceEqDiff, OfNat.ofNat_ne_zero, OfNat.zero_ne_ofNat, one_ne_zero, zero_ne_one, false_and, and_false, and_self, if_true, if_false]
  rw [show fbv 6 19 w = v from RoundTrip.field h 5 rfl rfl,
    show fbv 4 15 w = h0 from RoundTrip.field h 4 rfl rfl,
    show fbv 4 11 w = a from RoundTrip.field h 3 rfl rfl,
    show fbv 4 7 w = s from RoundTrip.field h 2 rfl rfl,
    show fbv 2 5 w = w0 from RoundTrip.field h 1 rfl rfl]

theorem RoundTrip.vgth (v : BitVec 6) (h0 : BitVec 4) (a : BitVec 4) (j : BitVec 4) (k : BitVec 4) (w0 : BitVec 2) : RoundTrip.Statement (.vgth v h0 a j k w0) := by
  refine RoundTrip.ofT [⟨1, 0⟩, ⟨2, w0⟩, ⟨4, k⟩, ⟨4, j⟩, ⟨4, a⟩, ⟨4, h0⟩, ⟨6, v⟩, ⟨7, 23⟩] rfl rfl ?_ fun w h => ?_
  · show en6 0x2E000000 v 19 h0 15 a 11 j 7 k 3 w0 1 = _
    simp only [en6, en5, en4, en3, en2, en1, RoundTrip.word, BitVec.reduceToNat, Nat.reducePow]; omega
  rw [RoundTrip.to_rawT17 (RoundTrip.range h 7 1 rfl rfl rfl), rawT17]
  have f0 : fld w 0 1 = 0 := RoundTrip.range h 0 1 rfl rfl rfl
  simp only [f0, Nat.reduceEqDiff, OfNat.ofNat_ne_zero, OfNat.zero_ne_ofNat, one_ne_zero, zero_ne_one, false_and, and_false, and_self, if_true, if_false]
  rw [show fbv 6 19 w = v from RoundTrip.field h 6 rfl rfl,
    show fbv 4 15 w = h0 from RoundTrip.field h 5 rfl rfl,
    show fbv 4 11 w = a from RoundTrip.field h 4 rfl rfl,
    show fbv 4 7 w = j from RoundTrip.field h 3 rfl rfl,
    show fbv 4 3 w = k from RoundTrip.field h 2 rfl rfl,
    show fbv 2 1 w = w0 from RoundTrip.field h 1 rfl rfl]

theorem RoundTrip.vsct (v : BitVec 6) (h0 : BitVec 4) (a : BitVec 4) (j : BitVec 4) (k : BitVec 4) (w0 : BitVec 2) : RoundTrip.Statement (.vsct v h0 a j k w0) := by
  refine RoundTrip.ofT [⟨1, 0⟩, ⟨2, w0⟩, ⟨4, k⟩, ⟨4, j⟩, ⟨4, a⟩, ⟨4, h0⟩, ⟨6, v⟩, ⟨7, 24⟩] rfl rfl ?_ fun w h => ?_
  · show en6 0x30000000 v 19 h0 15 a 11 j 7 k 3 w0 1 = _
    simp only [en6, en5, en4, en3, en2, en1, RoundTrip.word, BitVec.reduceToNat, Nat.reducePow]; omega
  rw [RoundTrip.to_rawT18 (RoundTrip.range h 7 1 rfl rfl rfl), rawT18]
  have f0 : fld w 0 1 = 0 := RoundTrip.range h 0 1 rfl rfl rfl
  simp only [f0, Nat.reduceEqDiff, OfNat.ofNat_ne_zero, OfNat.zero_ne_ofNat, one_ne_zero, zero_ne_one, false_and, and_false, and_self, if_true, if_false]
  rw [show fbv 6 19 w = v from RoundTrip.field h 6 rfl rfl,
    show fbv 4 15 w = h0 from RoundTrip.field h 5 rfl rfl,
    show fbv 4 11 w = a from RoundTrip.field h 4 rfl rfl,
    show fbv 4 7 w = j from RoundTrip.field h 3 rfl rfl,
    show fbv 4 3 w = k from RoundTrip.field h 2 rfl rfl,
    show fbv 2 1 w = w0 from RoundTrip.field h 1 rfl rfl]

theorem RoundTrip.cld (x : BitVec 5) (h0 : BitVec 4) (a : BitVec 4) (s : BitVec 2) (i : BitVec 9) : RoundTrip.Statement (.cld x h0 a s i) := by
  refine RoundTrip.ofT [⟨9, i⟩, ⟨2, s⟩, ⟨4, a⟩, ⟨4, h0⟩, ⟨5, x⟩, ⟨1, 0⟩, ⟨7, 25⟩] rfl rfl ?_ fun w h => ?_
  · show en5 0x32000000 x 19 h0 15 a 11 s 9 i 0 = _
    simp only [en5, en4, en3, en2, en1, RoundTrip.word, BitVec.reduceToNat, Nat.reducePow]; omega
  rw [RoundTrip.to_rawT19 (RoundTrip.range h 6 1 rfl rfl rfl), rawT19]
  have f0 : fld w 24 1 = 0 := RoundTrip.range h 5 1 rfl rfl rfl
  simp only [f0, Nat.reduceEqDiff, OfNat.ofNat_ne_zero, OfNat.zero_ne_ofNat, one_ne_zero, zero_ne_one, false_and, and_false, and_self, if_true, if_false]
  rw [show fbv 5 19 w = x from RoundTrip.field h 4 rfl rfl,
    show fbv 4 15 w = h0 from RoundTrip.field h 3 rfl rfl,
    show fbv 4 11 w = a from RoundTrip.field h 2 rfl rfl,
    show fbv 2 9 w = s from RoundTrip.field h 1 rfl rfl,
    show fbv 9 0 w = i from RoundTrip.field h 0 rfl rfl]

theorem RoundTrip.cldVector (v : BitVec 6) (h0 : BitVec 4) (a : BitVec 4) (w0 : BitVec 2) (i : BitVec 8) : RoundTrip.Statement (.cldVector v h0 a w0 i) := by
  refine RoundTrip.ofT [⟨8, i⟩, ⟨2, w0⟩, ⟨4, a⟩, ⟨4, h0⟩, ⟨6, v⟩, ⟨1, 1⟩, ⟨7, 25⟩] rfl rfl ?_ fun w h => ?_
  · show en5 0x33000000 v 18 h0 14 a 10 w0 8 i 0 = _
    simp only [en5, en4, en3, en2, en1, RoundTrip.word, BitVec.reduceToNat, Nat.reducePow]; omega
  rw [RoundTrip.to_rawT19 (RoundTrip.range h 6 1 rfl rfl rfl), rawT19]
  have f0 : fld w 24 1 = 1 := RoundTrip.range h 5 1 rfl rfl rfl
  simp only [f0, Nat.reduceEqDiff, OfNat.ofNat_ne_zero, OfNat.zero_ne_ofNat, one_ne_zero, zero_ne_one, false_and, and_false, and_self, if_true, if_false]
  rw [show fbv 6 18 w = v from RoundTrip.field h 4 rfl rfl,
    show fbv 4 14 w = h0 from RoundTrip.field h 3 rfl rfl,
    show fbv 4 10 w = a from RoundTrip.field h 2 rfl rfl,
    show fbv 2 8 w = w0 from RoundTrip.field h 1 rfl rfl,
    show fbv 8 0 w = i from RoundTrip.field h 0 rfl rfl]

theorem RoundTrip.cst (x : BitVec 5) (h0 : BitVec 4) (a : BitVec 4) (s : BitVec 2) (i : BitVec 9) : RoundTrip.Statement (.cst x h0 a s i) := by
  refine RoundTrip.ofT [⟨9, i⟩, ⟨2, s⟩, ⟨4, a⟩, ⟨4, h0⟩, ⟨5, x⟩, ⟨1, 0⟩, ⟨7, 26⟩] rfl rfl ?_ fun w h => ?_
  · show en5 0x34000000 x 19 h0 15 a 11 s 9 i 0 = _
    simp only [en5, en4, en3, en2, en1, RoundTrip.word, BitVec.reduceToNat, Nat.reducePow]; omega
  rw [RoundTrip.to_rawT1A (RoundTrip.range h 6 1 rfl rfl rfl), rawT1A]
  have f0 : fld w 24 1 = 0 := RoundTrip.range h 5 1 rfl rfl rfl
  simp only [f0, Nat.reduceEqDiff, OfNat.ofNat_ne_zero, OfNat.zero_ne_ofNat, one_ne_zero, zero_ne_one, false_and, and_false, and_self, if_true, if_false]
  rw [show fbv 5 19 w = x from RoundTrip.field h 4 rfl rfl,
    show fbv 4 15 w = h0 from RoundTrip.field h 3 rfl rfl,
    show fbv 4 11 w = a from RoundTrip.field h 2 rfl rfl,
    show fbv 2 9 w = s from RoundTrip.field h 1 rfl rfl,
    show fbv 9 0 w = i from RoundTrip.field h 0 rfl rfl]

theorem RoundTrip.cstVector (v : BitVec 6) (h0 : BitVec 4) (a : BitVec 4) (w0 : BitVec 2) (i : BitVec 8) : RoundTrip.Statement (.cstVector v h0 a w0 i) := by
  refine RoundTrip.ofT [⟨8, i⟩, ⟨2, w0⟩, ⟨4, a⟩, ⟨4, h0⟩, ⟨6, v⟩, ⟨1, 1⟩, ⟨7, 26⟩] rfl rfl ?_ fun w h => ?_
  · show en5 0x35000000 v 18 h0 14 a 10 w0 8 i 0 = _
    simp only [en5, en4, en3, en2, en1, RoundTrip.word, BitVec.reduceToNat, Nat.reducePow]; omega
  rw [RoundTrip.to_rawT1A (RoundTrip.range h 6 1 rfl rfl rfl), rawT1A]
  have f0 : fld w 24 1 = 1 := RoundTrip.range h 5 1 rfl rfl rfl
  simp only [f0, Nat.reduceEqDiff, OfNat.ofNat_ne_zero, OfNat.zero_ne_ofNat, one_ne_zero, zero_ne_one, false_and, and_false, and_self, if_true, if_false]
  rw [show fbv 6 18 w = v from RoundTrip.field h 4 rfl rfl,
    show fbv 4 14 w = h0 from RoundTrip.field h 3 rfl rfl,
    show fbv 4 10 w = a from RoundTrip.field h 2 rfl rfl,
    show fbv 2 8 w = w0 from RoundTrip.field h 1 rfl rfl,
    show fbv 8 0 w = i from RoundTrip.field h 0 rfl rfl]

theorem RoundTrip.tvld (v : BitVec 6) (h0 : BitVec 4) (a : BitVec 4) (w0 : BitVec 2) (i : BitVec 9) : RoundTrip.Statement (.tvld v h0 a w0 i) := by
  refine RoundTrip.ofT [⟨9, i⟩, ⟨2, w0⟩, ⟨4, a⟩, ⟨4, h0⟩, ⟨6, v⟩, ⟨7, 27⟩] rfl rfl ?_ fun w h => ?_
  · show en5 0x36000000 v 19 h0 15 a 11 w0 9 i 0 = _
    simp only [en5, en4, en3, en2, en1, RoundTrip.word, BitVec.reduceToNat, Nat.reducePow]; omega
  rw [RoundTrip.to_rawT1B (RoundTrip.range h 5 1 rfl rfl rfl), rawT1B]
  rw [show fbv 6 19 w = v from RoundTrip.field h 4 rfl rfl,
    show fbv 4 15 w = h0 from RoundTrip.field h 3 rfl rfl,
    show fbv 4 11 w = a from RoundTrip.field h 2 rfl rfl,
    show fbv 2 9 w = w0 from RoundTrip.field h 1 rfl rfl,
    show fbv 9 0 w = i from RoundTrip.field h 0 rfl rfl]

theorem RoundTrip.tvst (v : BitVec 6) (h0 : BitVec 4) (a : BitVec 4) (w0 : BitVec 2) (i : BitVec 9) : RoundTrip.Statement (.tvst v h0 a w0 i) := by
  refine RoundTrip.ofT [⟨9, i⟩, ⟨2, w0⟩, ⟨4, a⟩, ⟨4, h0⟩, ⟨6, v⟩, ⟨7, 28⟩] rfl rfl ?_ fun w h => ?_
  · show en5 0x38000000 v 19 h0 15 a 11 w0 9 i 0 = _
    simp only [en5, en4, en3, en2, en1, RoundTrip.word, BitVec.reduceToNat, Nat.reducePow]; omega
  rw [RoundTrip.to_rawT1C (RoundTrip.range h 5 1 rfl rfl rfl), rawT1C]
  rw [show fbv 6 19 w = v from RoundTrip.field h 4 rfl rfl,
    show fbv 4 15 w = h0 from RoundTrip.field h 3 rfl rfl,
    show fbv 4 11 w = a from RoundTrip.field h 2 rfl rfl,
    show fbv 2 9 w = w0 from RoundTrip.field h 1 rfl rfl,
    show fbv 9 0 w = i from RoundTrip.field h 0 rfl rfl]

theorem RoundTrip.pcfg (p : BitVec 3) (h0 : BitVec 4) (a : BitVec 4) : RoundTrip.Statement (.pcfg p h0 a) := by
  refine RoundTrip.ofT [⟨14, 0⟩, ⟨4, a⟩, ⟨4, h0⟩, ⟨3, p⟩, ⟨7, 48⟩] rfl rfl ?_ fun w h => ?_
  · show en3 0x60000000 p 22 h0 18 a 14 = _
    simp only [en3, en2, en1, RoundTrip.word, BitVec.reduceToNat, Nat.reducePow]; omega
  rw [RoundTrip.to_rawT30 (RoundTrip.range h 4 1 rfl rfl rfl), rawT30]
  have f0 : fld w 0 14 = 0 := RoundTrip.range h 0 1 rfl rfl rfl
  simp only [f0, Nat.reduceEqDiff, OfNat.ofNat_ne_zero, OfNat.zero_ne_ofNat, one_ne_zero, zero_ne_one, false_and, and_false, and_self, if_true, if_false]
  rw [show fbv 3 22 w = p from RoundTrip.field h 3 rfl rfl,
    show fbv 4 18 w = h0 from RoundTrip.field h 2 rfl rfl,
    show fbv 4 14 w = a from RoundTrip.field h 1 rfl rfl]

theorem RoundTrip.pgo (k : BitVec 3) (p : BitVec 3) : RoundTrip.Statement (.pgo k p) := by
  refine RoundTrip.ofT [⟨19, 0⟩, ⟨3, p⟩, ⟨3, k⟩, ⟨7, 49⟩] rfl rfl ?_ fun w h => ?_
  · show en2 0x62000000 k 22 p 19 = _
    simp only [en2, en1, RoundTrip.word, BitVec.reduceToNat, Nat.reducePow]; omega
  rw [RoundTrip.to_rawT31 (RoundTrip.range h 3 1 rfl rfl rfl), rawT31]
  have f0 : fld w 0 19 = 0 := RoundTrip.range h 0 1 rfl rfl rfl
  simp only [f0, Nat.reduceEqDiff, OfNat.ofNat_ne_zero, OfNat.zero_ne_ofNat, one_ne_zero, zero_ne_one, false_and, and_false, and_self, if_true, if_false]
  rw [show fbv 3 22 w = k from RoundTrip.field h 2 rfl rfl,
    show fbv 3 19 w = p from RoundTrip.field h 1 rfl rfl]

theorem RoundTrip.pstop (k : BitVec 3) : RoundTrip.Statement (.pstop k) := by
  refine RoundTrip.ofT [⟨22, 0⟩, ⟨3, k⟩, ⟨7, 50⟩] rfl rfl ?_ fun w h => ?_
  · show en1 0x64000000 k 22 = _
    simp only [en1, RoundTrip.word, BitVec.reduceToNat, Nat.reducePow]; omega
  rw [RoundTrip.to_rawT32 (RoundTrip.range h 2 1 rfl rfl rfl), rawT32]
  have f0 : fld w 0 22 = 0 := RoundTrip.range h 0 1 rfl rfl rfl
  simp only [f0, Nat.reduceEqDiff, OfNat.ofNat_ne_zero, OfNat.zero_ne_ofNat, one_ne_zero, zero_ne_one, false_and, and_false, and_self, if_true, if_false]
  rw [show fbv 3 22 w = k from RoundTrip.field h 1 rfl rfl]

theorem RoundTrip.pld (h0 : BitVec 4) (a : BitVec 4) (e : BitVec 6) (n : BitVec 6) : RoundTrip.Statement (.pld h0 a e n) := by
  refine RoundTrip.ofT [⟨5, 0⟩, ⟨6, n⟩, ⟨6, e⟩, ⟨4, a⟩, ⟨4, h0⟩, ⟨7, 51⟩] rfl rfl ?_ fun w h => ?_
  · show en4 0x66000000 h0 21 a 17 e 11 n 5 = _
    simp only [en4, en3, en2, en1, RoundTrip.word, BitVec.reduceToNat, Nat.reducePow]; omega
  rw [RoundTrip.to_rawT33 (RoundTrip.range h 5 1 rfl rfl rfl), rawT33]
  have f0 : fld w 0 5 = 0 := RoundTrip.range h 0 1 rfl rfl rfl
  simp only [f0, Nat.reduceEqDiff, OfNat.ofNat_ne_zero, OfNat.zero_ne_ofNat, one_ne_zero, zero_ne_one, false_and, and_false, and_self, if_true, if_false]
  rw [show fbv 4 21 w = h0 from RoundTrip.field h 4 rfl rfl,
    show fbv 4 17 w = a from RoundTrip.field h 3 rfl rfl,
    show fbv 6 11 w = e from RoundTrip.field h 2 rfl rfl,
    show fbv 6 5 w = n from RoundTrip.field h 1 rfl rfl]

theorem RoundTrip.copy (d : BitVec 4) (h0 : BitVec 4) (s : BitVec 4) (r : BitVec 4) (a : BitVec 4) (f : BitVec 1) (w0 : BitVec 1) (t : BitVec 1) (b : BitVec 1) : RoundTrip.Statement (.copy d h0 s r a f w0 t b) := by
  refine RoundTrip.ofT [⟨1, 0⟩, ⟨1, b⟩, ⟨1, t⟩, ⟨1, w0⟩, ⟨1, f⟩, ⟨4, a⟩, ⟨4, r⟩, ⟨4, s⟩, ⟨4, h0⟩, ⟨4, d⟩, ⟨7, 64⟩] rfl rfl ?_ fun w h => ?_
  · show en9 0x80000000 d 21 h0 17 s 13 r 9 a 5 f 4 w0 3 t 2 b 1 = _
    simp only [en9, en8, en7, en6, en5, en4, en3, en2, en1, RoundTrip.word, BitVec.reduceToNat, Nat.reducePow]; omega
  rw [RoundTrip.to_rawT40 (RoundTrip.range h 10 1 rfl rfl rfl), rawT40]
  have f0 : fld w 0 1 = 0 := RoundTrip.range h 0 1 rfl rfl rfl
  simp only [f0, Nat.reduceEqDiff, OfNat.ofNat_ne_zero, OfNat.zero_ne_ofNat, one_ne_zero, zero_ne_one, false_and, and_false, and_self, if_true, if_false]
  rw [show fbv 4 21 w = d from RoundTrip.field h 9 rfl rfl,
    show fbv 4 17 w = h0 from RoundTrip.field h 8 rfl rfl,
    show fbv 4 13 w = s from RoundTrip.field h 7 rfl rfl,
    show fbv 4 9 w = r from RoundTrip.field h 6 rfl rfl,
    show fbv 4 5 w = a from RoundTrip.field h 5 rfl rfl,
    show fbv 1 4 w = f from RoundTrip.field h 4 rfl rfl,
    show fbv 1 3 w = w0 from RoundTrip.field h 3 rfl rfl,
    show fbv 1 2 w = t from RoundTrip.field h 2 rfl rfl,
    show fbv 1 1 w = b from RoundTrip.field h 1 rfl rfl]

theorem RoundTrip.copyq (d : BitVec 4) : RoundTrip.Statement (.copyq d) := by
  refine RoundTrip.ofT [⟨21, 0⟩, ⟨4, d⟩, ⟨7, 65⟩] rfl rfl ?_ fun w h => ?_
  · show en1 0x82000000 d 21 = _
    simp only [en1, RoundTrip.word, BitVec.reduceToNat, Nat.reducePow]; omega
  rw [RoundTrip.to_rawT41 (RoundTrip.range h 2 1 rfl rfl rfl), rawT41]
  have f0 : fld w 0 21 = 0 := RoundTrip.range h 0 1 rfl rfl rfl
  simp only [f0, Nat.reduceEqDiff, OfNat.ofNat_ne_zero, OfNat.zero_ne_ofNat, one_ne_zero, zero_ne_one, false_and, and_false, and_self, if_true, if_false]
  rw [show fbv 4 21 w = d from RoundTrip.field h 1 rfl rfl]

theorem RoundTrip.copyqSt (d : BitVec 4) : RoundTrip.Statement (.copyqSt d) := by
  refine RoundTrip.ofT [⟨21, 1048576⟩, ⟨4, d⟩, ⟨7, 65⟩] rfl rfl ?_ fun w h => ?_
  · show en1 0x82100000 d 21 = _
    simp only [en1, RoundTrip.word, BitVec.reduceToNat, Nat.reducePow]; omega
  rw [RoundTrip.to_rawT41 (RoundTrip.range h 2 1 rfl rfl rfl), rawT41]
  have f0 : fld w 0 21 = 1048576 := RoundTrip.range h 0 1 rfl rfl rfl
  simp only [f0, Nat.reduceEqDiff, OfNat.ofNat_ne_zero, OfNat.zero_ne_ofNat, one_ne_zero, zero_ne_one, false_and, and_false, and_self, if_true, if_false]
  rw [show fbv 4 21 w = d from RoundTrip.field h 1 rfl rfl]

theorem RoundTrip.wstr (h0 : BitVec 4) (o : BitVec 4) (l : BitVec 4) (n : BitVec 4) (p : BitVec 4) : RoundTrip.Statement (.wstr h0 o l n p) := by
  refine RoundTrip.ofT [⟨5, 0⟩, ⟨4, p⟩, ⟨4, n⟩, ⟨4, l⟩, ⟨4, o⟩, ⟨4, h0⟩, ⟨7, 67⟩] rfl rfl ?_ fun w h => ?_
  · show en5 0x86000000 h0 21 o 17 l 13 n 9 p 5 = _
    simp only [en5, en4, en3, en2, en1, RoundTrip.word, BitVec.reduceToNat, Nat.reducePow]; omega
  rw [RoundTrip.to_rawT43 (RoundTrip.range h 6 1 rfl rfl rfl), rawT43]
  have f0 : fld w 0 5 = 0 := RoundTrip.range h 0 1 rfl rfl rfl
  simp only [f0, Nat.reduceEqDiff, OfNat.ofNat_ne_zero, OfNat.zero_ne_ofNat, one_ne_zero, zero_ne_one, false_and, and_false, and_self, if_true, if_false]
  rw [show fbv 4 21 w = h0 from RoundTrip.field h 5 rfl rfl,
    show fbv 4 17 w = o from RoundTrip.field h 4 rfl rfl,
    show fbv 4 13 w = l from RoundTrip.field h 3 rfl rfl,
    show fbv 4 9 w = n from RoundTrip.field h 2 rfl rfl,
    show fbv 4 5 w = p from RoundTrip.field h 1 rfl rfl]

theorem RoundTrip.frfl (d : BitVec 4) (h0 : BitVec 4) (s : BitVec 4) (w0 : BitVec 4) (t : BitVec 4) : RoundTrip.Statement (.frfl d h0 s w0 t) := by
  refine RoundTrip.ofT [⟨5, 0⟩, ⟨4, t⟩, ⟨4, w0⟩, ⟨4, s⟩, ⟨4, h0⟩, ⟨4, d⟩, ⟨7, 68⟩] rfl rfl ?_ fun w h => ?_
  · show en5 0x88000000 d 21 h0 17 s 13 w0 9 t 5 = _
    simp only [en5, en4, en3, en2, en1, RoundTrip.word, BitVec.reduceToNat, Nat.reducePow]; omega
  rw [RoundTrip.to_rawT44 (RoundTrip.range h 6 1 rfl rfl rfl), rawT44]
  have f0 : fld w 0 5 = 0 := RoundTrip.range h 0 1 rfl rfl rfl
  simp only [f0, Nat.reduceEqDiff, OfNat.ofNat_ne_zero, OfNat.zero_ne_ofNat, one_ne_zero, zero_ne_one, false_and, and_false, and_self, if_true, if_false]
  rw [show fbv 4 21 w = d from RoundTrip.field h 5 rfl rfl,
    show fbv 4 17 w = h0 from RoundTrip.field h 4 rfl rfl,
    show fbv 4 13 w = s from RoundTrip.field h 3 rfl rfl,
    show fbv 4 9 w = w0 from RoundTrip.field h 2 rfl rfl,
    show fbv 4 5 w = t from RoundTrip.field h 1 rfl rfl]

theorem RoundTrip.shift (r : BitVec 2) (m : BitVec 2) (h0 : BitVec 4) (s : BitVec 4) (d : BitVec 4) (l : BitVec 4) : RoundTrip.Statement (.shift r m h0 s d l) := by
  refine RoundTrip.ofT [⟨5, 0⟩, ⟨4, l⟩, ⟨4, d⟩, ⟨4, s⟩, ⟨4, h0⟩, ⟨2, m⟩, ⟨2, r⟩, ⟨7, 69⟩] rfl rfl ?_ fun w h => ?_
  · show en6 0x8A000000 r 23 m 21 h0 17 s 13 d 9 l 5 = _
    simp only [en6, en5, en4, en3, en2, en1, RoundTrip.word, BitVec.reduceToNat, Nat.reducePow]; omega
  rw [RoundTrip.to_rawT45 (RoundTrip.range h 7 1 rfl rfl rfl), rawT45]
  have f0 : fld w 0 5 = 0 := RoundTrip.range h 0 1 rfl rfl rfl
  simp only [f0, Nat.reduceEqDiff, OfNat.ofNat_ne_zero, OfNat.zero_ne_ofNat, one_ne_zero, zero_ne_one, false_and, and_false, and_self, if_true, if_false]
  rw [show fbv 2 23 w = r from RoundTrip.field h 6 rfl rfl,
    show fbv 2 21 w = m from RoundTrip.field h 5 rfl rfl,
    show fbv 4 17 w = h0 from RoundTrip.field h 4 rfl rfl,
    show fbv 4 13 w = s from RoundTrip.field h 3 rfl rfl,
    show fbv 4 9 w = d from RoundTrip.field h 2 rfl rfl,
    show fbv 4 5 w = l from RoundTrip.field h 1 rfl rfl]

theorem RoundTrip.reduce (d : BitVec 4) (h0 : BitVec 4) (s : BitVec 4) (o : BitVec 4) (k : BitVec 4) : RoundTrip.Statement (.reduce d h0 s o k) := by
  refine RoundTrip.ofT [⟨5, 0⟩, ⟨4, k⟩, ⟨4, o⟩, ⟨4, s⟩, ⟨4, h0⟩, ⟨4, d⟩, ⟨7, 70⟩] rfl rfl ?_ fun w h => ?_
  · show en5 0x8C000000 d 21 h0 17 s 13 o 9 k 5 = _
    simp only [en5, en4, en3, en2, en1, RoundTrip.word, BitVec.reduceToNat, Nat.reducePow]; omega
  rw [RoundTrip.to_rawT46 (RoundTrip.range h 6 1 rfl rfl rfl), rawT46]
  have f0 : fld w 0 5 = 0 := RoundTrip.range h 0 1 rfl rfl rfl
  simp only [f0, Nat.reduceEqDiff, OfNat.ofNat_ne_zero, OfNat.zero_ne_ofNat, one_ne_zero, zero_ne_one, false_and, and_false, and_self, if_true, if_false]
  rw [show fbv 4 21 w = d from RoundTrip.field h 5 rfl rfl,
    show fbv 4 17 w = h0 from RoundTrip.field h 4 rfl rfl,
    show fbv 4 13 w = s from RoundTrip.field h 3 rfl rfl,
    show fbv 4 9 w = o from RoundTrip.field h 2 rfl rfl,
    show fbv 4 5 w = k from RoundTrip.field h 1 rfl rfl]

theorem RoundTrip.atmAdd (o : BitVec 2) (d : BitVec 5) (h0 : BitVec 4) (a : BitVec 4) (s : BitVec 5) (z : BitVec 1) : RoundTrip.Statement (.atmAdd o d h0 a s z) := by
  refine RoundTrip.ofT [⟨1, z⟩, ⟨5, s⟩, ⟨4, a⟩, ⟨4, h0⟩, ⟨5, d⟩, ⟨2, o⟩, ⟨4, 0⟩, ⟨7, 80⟩] rfl rfl ?_ fun w h => ?_
  · show en6 0xA0000000 o 19 d 14 h0 10 a 6 s 1 z 0 = _
    simp only [en6, en5, en4, en3, en2, en1, RoundTrip.word, BitVec.reduceToNat, Nat.reducePow]; omega
  rw [RoundTrip.to_rawT50 (RoundTrip.range h 7 1 rfl rfl rfl), rawT50]
  have f0 : fld w 21 4 = 0 := RoundTrip.range h 6 1 rfl rfl rfl
  simp only [f0, Nat.reduceEqDiff, OfNat.ofNat_ne_zero, OfNat.zero_ne_ofNat, one_ne_zero, zero_ne_one, false_and, and_false, and_self, if_true, if_false]
  rw [show fbv 2 19 w = o from RoundTrip.field h 5 rfl rfl,
    show fbv 5 14 w = d from RoundTrip.field h 4 rfl rfl,
    show fbv 4 10 w = h0 from RoundTrip.field h 3 rfl rfl,
    show fbv 4 6 w = a from RoundTrip.field h 2 rfl rfl,
    show fbv 5 1 w = s from RoundTrip.field h 1 rfl rfl,
    show fbv 1 0 w = z from RoundTrip.field h 0 rfl rfl]

theorem RoundTrip.atmFadd (o : BitVec 2) (d : BitVec 5) (h0 : BitVec 4) (a : BitVec 4) (s : BitVec 5) (z : BitVec 1) : RoundTrip.Statement (.atmFadd o d h0 a s z) := by
  refine RoundTrip.ofT [⟨1, z⟩, ⟨5, s⟩, ⟨4, a⟩, ⟨4, h0⟩, ⟨5, d⟩, ⟨2, o⟩, ⟨4, 1⟩, ⟨7, 80⟩] rfl rfl ?_ fun w h => ?_
  · show en6 0xA0200000 o 19 d 14 h0 10 a 6 s 1 z 0 = _
    simp only [en6, en5, en4, en3, en2, en1, RoundTrip.word, BitVec.reduceToNat, Nat.reducePow]; omega
  rw [RoundTrip.to_rawT50 (RoundTrip.range h 7 1 rfl rfl rfl), rawT50]
  have f0 : fld w 21 4 = 1 := RoundTrip.range h 6 1 rfl rfl rfl
  simp only [f0, Nat.reduceEqDiff, OfNat.ofNat_ne_zero, OfNat.zero_ne_ofNat, one_ne_zero, zero_ne_one, false_and, and_false, and_self, if_true, if_false]
  rw [show fbv 2 19 w = o from RoundTrip.field h 5 rfl rfl,
    show fbv 5 14 w = d from RoundTrip.field h 4 rfl rfl,
    show fbv 4 10 w = h0 from RoundTrip.field h 3 rfl rfl,
    show fbv 4 6 w = a from RoundTrip.field h 2 rfl rfl,
    show fbv 5 1 w = s from RoundTrip.field h 1 rfl rfl,
    show fbv 1 0 w = z from RoundTrip.field h 0 rfl rfl]

theorem RoundTrip.atmMin (o : BitVec 2) (d : BitVec 5) (h0 : BitVec 4) (a : BitVec 4) (s : BitVec 5) (z : BitVec 1) : RoundTrip.Statement (.atmMin o d h0 a s z) := by
  refine RoundTrip.ofT [⟨1, z⟩, ⟨5, s⟩, ⟨4, a⟩, ⟨4, h0⟩, ⟨5, d⟩, ⟨2, o⟩, ⟨4, 2⟩, ⟨7, 80⟩] rfl rfl ?_ fun w h => ?_
  · show en6 0xA0400000 o 19 d 14 h0 10 a 6 s 1 z 0 = _
    simp only [en6, en5, en4, en3, en2, en1, RoundTrip.word, BitVec.reduceToNat, Nat.reducePow]; omega
  rw [RoundTrip.to_rawT50 (RoundTrip.range h 7 1 rfl rfl rfl), rawT50]
  have f0 : fld w 21 4 = 2 := RoundTrip.range h 6 1 rfl rfl rfl
  simp only [f0, Nat.reduceEqDiff, OfNat.ofNat_ne_zero, OfNat.zero_ne_ofNat, one_ne_zero, zero_ne_one, false_and, and_false, and_self, if_true, if_false]
  rw [show fbv 2 19 w = o from RoundTrip.field h 5 rfl rfl,
    show fbv 5 14 w = d from RoundTrip.field h 4 rfl rfl,
    show fbv 4 10 w = h0 from RoundTrip.field h 3 rfl rfl,
    show fbv 4 6 w = a from RoundTrip.field h 2 rfl rfl,
    show fbv 5 1 w = s from RoundTrip.field h 1 rfl rfl,
    show fbv 1 0 w = z from RoundTrip.field h 0 rfl rfl]

theorem RoundTrip.atmMax (o : BitVec 2) (d : BitVec 5) (h0 : BitVec 4) (a : BitVec 4) (s : BitVec 5) (z : BitVec 1) : RoundTrip.Statement (.atmMax o d h0 a s z) := by
  refine RoundTrip.ofT [⟨1, z⟩, ⟨5, s⟩, ⟨4, a⟩, ⟨4, h0⟩, ⟨5, d⟩, ⟨2, o⟩, ⟨4, 3⟩, ⟨7, 80⟩] rfl rfl ?_ fun w h => ?_
  · show en6 0xA0600000 o 19 d 14 h0 10 a 6 s 1 z 0 = _
    simp only [en6, en5, en4, en3, en2, en1, RoundTrip.word, BitVec.reduceToNat, Nat.reducePow]; omega
  rw [RoundTrip.to_rawT50 (RoundTrip.range h 7 1 rfl rfl rfl), rawT50]
  have f0 : fld w 21 4 = 3 := RoundTrip.range h 6 1 rfl rfl rfl
  simp only [f0, Nat.reduceEqDiff, OfNat.ofNat_ne_zero, OfNat.zero_ne_ofNat, one_ne_zero, zero_ne_one, false_and, and_false, and_self, if_true, if_false]
  rw [show fbv 2 19 w = o from RoundTrip.field h 5 rfl rfl,
    show fbv 5 14 w = d from RoundTrip.field h 4 rfl rfl,
    show fbv 4 10 w = h0 from RoundTrip.field h 3 rfl rfl,
    show fbv 4 6 w = a from RoundTrip.field h 2 rfl rfl,
    show fbv 5 1 w = s from RoundTrip.field h 1 rfl rfl,
    show fbv 1 0 w = z from RoundTrip.field h 0 rfl rfl]

theorem RoundTrip.atmAnd (o : BitVec 2) (d : BitVec 5) (h0 : BitVec 4) (a : BitVec 4) (s : BitVec 5) (z : BitVec 1) : RoundTrip.Statement (.atmAnd o d h0 a s z) := by
  refine RoundTrip.ofT [⟨1, z⟩, ⟨5, s⟩, ⟨4, a⟩, ⟨4, h0⟩, ⟨5, d⟩, ⟨2, o⟩, ⟨4, 4⟩, ⟨7, 80⟩] rfl rfl ?_ fun w h => ?_
  · show en6 0xA0800000 o 19 d 14 h0 10 a 6 s 1 z 0 = _
    simp only [en6, en5, en4, en3, en2, en1, RoundTrip.word, BitVec.reduceToNat, Nat.reducePow]; omega
  rw [RoundTrip.to_rawT50 (RoundTrip.range h 7 1 rfl rfl rfl), rawT50]
  have f0 : fld w 21 4 = 4 := RoundTrip.range h 6 1 rfl rfl rfl
  simp only [f0, Nat.reduceEqDiff, OfNat.ofNat_ne_zero, OfNat.zero_ne_ofNat, one_ne_zero, zero_ne_one, false_and, and_false, and_self, if_true, if_false]
  rw [show fbv 2 19 w = o from RoundTrip.field h 5 rfl rfl,
    show fbv 5 14 w = d from RoundTrip.field h 4 rfl rfl,
    show fbv 4 10 w = h0 from RoundTrip.field h 3 rfl rfl,
    show fbv 4 6 w = a from RoundTrip.field h 2 rfl rfl,
    show fbv 5 1 w = s from RoundTrip.field h 1 rfl rfl,
    show fbv 1 0 w = z from RoundTrip.field h 0 rfl rfl]

theorem RoundTrip.atmOr (o : BitVec 2) (d : BitVec 5) (h0 : BitVec 4) (a : BitVec 4) (s : BitVec 5) (z : BitVec 1) : RoundTrip.Statement (.atmOr o d h0 a s z) := by
  refine RoundTrip.ofT [⟨1, z⟩, ⟨5, s⟩, ⟨4, a⟩, ⟨4, h0⟩, ⟨5, d⟩, ⟨2, o⟩, ⟨4, 5⟩, ⟨7, 80⟩] rfl rfl ?_ fun w h => ?_
  · show en6 0xA0A00000 o 19 d 14 h0 10 a 6 s 1 z 0 = _
    simp only [en6, en5, en4, en3, en2, en1, RoundTrip.word, BitVec.reduceToNat, Nat.reducePow]; omega
  rw [RoundTrip.to_rawT50 (RoundTrip.range h 7 1 rfl rfl rfl), rawT50]
  have f0 : fld w 21 4 = 5 := RoundTrip.range h 6 1 rfl rfl rfl
  simp only [f0, Nat.reduceEqDiff, OfNat.ofNat_ne_zero, OfNat.zero_ne_ofNat, one_ne_zero, zero_ne_one, false_and, and_false, and_self, if_true, if_false]
  rw [show fbv 2 19 w = o from RoundTrip.field h 5 rfl rfl,
    show fbv 5 14 w = d from RoundTrip.field h 4 rfl rfl,
    show fbv 4 10 w = h0 from RoundTrip.field h 3 rfl rfl,
    show fbv 4 6 w = a from RoundTrip.field h 2 rfl rfl,
    show fbv 5 1 w = s from RoundTrip.field h 1 rfl rfl,
    show fbv 1 0 w = z from RoundTrip.field h 0 rfl rfl]

theorem RoundTrip.atmXor (o : BitVec 2) (d : BitVec 5) (h0 : BitVec 4) (a : BitVec 4) (s : BitVec 5) (z : BitVec 1) : RoundTrip.Statement (.atmXor o d h0 a s z) := by
  refine RoundTrip.ofT [⟨1, z⟩, ⟨5, s⟩, ⟨4, a⟩, ⟨4, h0⟩, ⟨5, d⟩, ⟨2, o⟩, ⟨4, 6⟩, ⟨7, 80⟩] rfl rfl ?_ fun w h => ?_
  · show en6 0xA0C00000 o 19 d 14 h0 10 a 6 s 1 z 0 = _
    simp only [en6, en5, en4, en3, en2, en1, RoundTrip.word, BitVec.reduceToNat, Nat.reducePow]; omega
  rw [RoundTrip.to_rawT50 (RoundTrip.range h 7 1 rfl rfl rfl), rawT50]
  have f0 : fld w 21 4 = 6 := RoundTrip.range h 6 1 rfl rfl rfl
  simp only [f0, Nat.reduceEqDiff, OfNat.ofNat_ne_zero, OfNat.zero_ne_ofNat, one_ne_zero, zero_ne_one, false_and, and_false, and_self, if_true, if_false]
  rw [show fbv 2 19 w = o from RoundTrip.field h 5 rfl rfl,
    show fbv 5 14 w = d from RoundTrip.field h 4 rfl rfl,
    show fbv 4 10 w = h0 from RoundTrip.field h 3 rfl rfl,
    show fbv 4 6 w = a from RoundTrip.field h 2 rfl rfl,
    show fbv 5 1 w = s from RoundTrip.field h 1 rfl rfl,
    show fbv 1 0 w = z from RoundTrip.field h 0 rfl rfl]

theorem RoundTrip.atmXchg (o : BitVec 2) (d : BitVec 5) (h0 : BitVec 4) (a : BitVec 4) (s : BitVec 5) (z : BitVec 1) : RoundTrip.Statement (.atmXchg o d h0 a s z) := by
  refine RoundTrip.ofT [⟨1, z⟩, ⟨5, s⟩, ⟨4, a⟩, ⟨4, h0⟩, ⟨5, d⟩, ⟨2, o⟩, ⟨4, 7⟩, ⟨7, 80⟩] rfl rfl ?_ fun w h => ?_
  · show en6 0xA0E00000 o 19 d 14 h0 10 a 6 s 1 z 0 = _
    simp only [en6, en5, en4, en3, en2, en1, RoundTrip.word, BitVec.reduceToNat, Nat.reducePow]; omega
  rw [RoundTrip.to_rawT50 (RoundTrip.range h 7 1 rfl rfl rfl), rawT50]
  have f0 : fld w 21 4 = 7 := RoundTrip.range h 6 1 rfl rfl rfl
  simp only [f0, Nat.reduceEqDiff, OfNat.ofNat_ne_zero, OfNat.zero_ne_ofNat, one_ne_zero, zero_ne_one, false_and, and_false, and_self, if_true, if_false]
  rw [show fbv 2 19 w = o from RoundTrip.field h 5 rfl rfl,
    show fbv 5 14 w = d from RoundTrip.field h 4 rfl rfl,
    show fbv 4 10 w = h0 from RoundTrip.field h 3 rfl rfl,
    show fbv 4 6 w = a from RoundTrip.field h 2 rfl rfl,
    show fbv 5 1 w = s from RoundTrip.field h 1 rfl rfl,
    show fbv 1 0 w = z from RoundTrip.field h 0 rfl rfl]

theorem RoundTrip.atmCas (o : BitVec 2) (d : BitVec 5) (h0 : BitVec 4) (a : BitVec 4) (s : BitVec 5) (z : BitVec 1) : RoundTrip.Statement (.atmCas o d h0 a s z) := by
  refine RoundTrip.ofT [⟨1, z⟩, ⟨5, s⟩, ⟨4, a⟩, ⟨4, h0⟩, ⟨5, d⟩, ⟨2, o⟩, ⟨4, 8⟩, ⟨7, 80⟩] rfl rfl ?_ fun w h => ?_
  · show en6 0xA1000000 o 19 d 14 h0 10 a 6 s 1 z 0 = _
    simp only [en6, en5, en4, en3, en2, en1, RoundTrip.word, BitVec.reduceToNat, Nat.reducePow]; omega
  rw [RoundTrip.to_rawT50 (RoundTrip.range h 7 1 rfl rfl rfl), rawT50]
  have f0 : fld w 21 4 = 8 := RoundTrip.range h 6 1 rfl rfl rfl
  simp only [f0, Nat.reduceEqDiff, OfNat.ofNat_ne_zero, OfNat.zero_ne_ofNat, one_ne_zero, zero_ne_one, false_and, and_false, and_self, if_true, if_false]
  rw [show fbv 2 19 w = o from RoundTrip.field h 5 rfl rfl,
    show fbv 5 14 w = d from RoundTrip.field h 4 rfl rfl,
    show fbv 4 10 w = h0 from RoundTrip.field h 3 rfl rfl,
    show fbv 4 6 w = a from RoundTrip.field h 2 rfl rfl,
    show fbv 5 1 w = s from RoundTrip.field h 1 rfl rfl,
    show fbv 1 0 w = z from RoundTrip.field h 0 rfl rfl]

theorem RoundTrip.atmInc (o : BitVec 2) (d : BitVec 5) (h0 : BitVec 4) (a : BitVec 4) (s : BitVec 5) (z : BitVec 1) : RoundTrip.Statement (.atmInc o d h0 a s z) := by
  refine RoundTrip.ofT [⟨1, z⟩, ⟨5, s⟩, ⟨4, a⟩, ⟨4, h0⟩, ⟨5, d⟩, ⟨2, o⟩, ⟨4, 9⟩, ⟨7, 80⟩] rfl rfl ?_ fun w h => ?_
  · show en6 0xA1200000 o 19 d 14 h0 10 a 6 s 1 z 0 = _
    simp only [en6, en5, en4, en3, en2, en1, RoundTrip.word, BitVec.reduceToNat, Nat.reducePow]; omega
  rw [RoundTrip.to_rawT50 (RoundTrip.range h 7 1 rfl rfl rfl), rawT50]
  have f0 : fld w 21 4 = 9 := RoundTrip.range h 6 1 rfl rfl rfl
  simp only [f0, Nat.reduceEqDiff, OfNat.ofNat_ne_zero, OfNat.zero_ne_ofNat, one_ne_zero, zero_ne_one, false_and, and_false, and_self, if_true, if_false]
  rw [show fbv 2 19 w = o from RoundTrip.field h 5 rfl rfl,
    show fbv 5 14 w = d from RoundTrip.field h 4 rfl rfl,
    show fbv 4 10 w = h0 from RoundTrip.field h 3 rfl rfl,
    show fbv 4 6 w = a from RoundTrip.field h 2 rfl rfl,
    show fbv 5 1 w = s from RoundTrip.field h 1 rfl rfl,
    show fbv 1 0 w = z from RoundTrip.field h 0 rfl rfl]

theorem RoundTrip.bobInit (d : BitVec 5) (h0 : BitVec 4) (a : BitVec 4) (s : BitVec 5) : RoundTrip.Statement (.bobInit d h0 a s) := by
  refine RoundTrip.ofT [⟨1, 0⟩, ⟨5, s⟩, ⟨4, a⟩, ⟨4, h0⟩, ⟨5, d⟩, ⟨6, 0⟩, ⟨7, 81⟩] rfl rfl ?_ fun w h => ?_
  · show en4 0xA2000000 d 14 h0 10 a 6 s 1 = _
    simp only [en4, en3, en2, en1, RoundTrip.word, BitVec.reduceToNat, Nat.reducePow]; omega
  rw [RoundTrip.to_rawT51 (RoundTrip.range h 6 1 rfl rfl rfl), rawT51]
  have f0 : fld w 19 6 = 0 := RoundTrip.range h 5 1 rfl rfl rfl
  have f1 : fld w 0 1 = 0 := RoundTrip.range h 0 1 rfl rfl rfl
  simp only [f0, f1, Nat.reduceEqDiff, OfNat.ofNat_ne_zero, OfNat.zero_ne_ofNat, one_ne_zero, zero_ne_one, false_and, and_false, and_self, if_true, if_false]
  rw [show fbv 5 14 w = d from RoundTrip.field h 4 rfl rfl,
    show fbv 4 10 w = h0 from RoundTrip.field h 3 rfl rfl,
    show fbv 4 6 w = a from RoundTrip.field h 2 rfl rfl,
    show fbv 5 1 w = s from RoundTrip.field h 1 rfl rfl]

theorem RoundTrip.bobArr (d : BitVec 5) (h0 : BitVec 4) (a : BitVec 4) : RoundTrip.Statement (.bobArr d h0 a) := by
  refine RoundTrip.ofT [⟨6, 0⟩, ⟨4, a⟩, ⟨4, h0⟩, ⟨5, d⟩, ⟨6, 0⟩, ⟨7, 82⟩] rfl rfl ?_ fun w h => ?_
  · show en3 0xA4000000 d 14 h0 10 a 6 = _
    simp only [en3, en2, en1, RoundTrip.word, BitVec.reduceToNat, Nat.reducePow]; omega
  rw [RoundTrip.to_rawT52 (RoundTrip.range h 5 1 rfl rfl rfl), rawT52]
  have f0 : fld w 19 6 = 0 := RoundTrip.range h 4 1 rfl rfl rfl
  have f1 : fld w 0 6 = 0 := RoundTrip.range h 0 1 rfl rfl rfl
  simp only [f0, f1, Nat.reduceEqDiff, OfNat.ofNat_ne_zero, OfNat.zero_ne_ofNat, one_ne_zero, zero_ne_one, false_and, and_false, and_self, if_true, if_false]
  rw [show fbv 5 14 w = d from RoundTrip.field h 3 rfl rfl,
    show fbv 4 10 w = h0 from RoundTrip.field h 2 rfl rfl,
    show fbv 4 6 w = a from RoundTrip.field h 1 rfl rfl]

theorem RoundTrip.bobWait (d : BitVec 5) (h0 : BitVec 4) (a : BitVec 4) (s : BitVec 5) : RoundTrip.Statement (.bobWait d h0 a s) := by
  refine RoundTrip.ofT [⟨1, 0⟩, ⟨5, s⟩, ⟨4, a⟩, ⟨4, h0⟩, ⟨5, d⟩, ⟨6, 0⟩, ⟨7, 83⟩] rfl rfl ?_ fun w h => ?_
  · show en4 0xA6000000 d 14 h0 10 a 6 s 1 = _
    simp only [en4, en3, en2, en1, RoundTrip.word, BitVec.reduceToNat, Nat.reducePow]; omega
  rw [RoundTrip.to_rawT53 (RoundTrip.range h 6 1 rfl rfl rfl), rawT53]
  have f0 : fld w 19 6 = 0 := RoundTrip.range h 5 1 rfl rfl rfl
  have f1 : fld w 0 1 = 0 := RoundTrip.range h 0 1 rfl rfl rfl
  simp only [f0, f1, Nat.reduceEqDiff, OfNat.ofNat_ne_zero, OfNat.zero_ne_ofNat, one_ne_zero, zero_ne_one, false_and, and_false, and_self, if_true, if_false]
  rw [show fbv 5 14 w = d from RoundTrip.field h 4 rfl rfl,
    show fbv 4 10 w = h0 from RoundTrip.field h 3 rfl rfl,
    show fbv 4 6 w = a from RoundTrip.field h 2 rfl rfl,
    show fbv 5 1 w = s from RoundTrip.field h 1 rfl rfl]

theorem RoundTrip.tsetf (h0 : BitVec 4) (o : BitVec 4) (l : BitVec 4) : RoundTrip.Statement (.tsetf h0 o l) := by
  refine RoundTrip.ofT [⟨13, 0⟩, ⟨4, l⟩, ⟨4, o⟩, ⟨4, h0⟩, ⟨7, 84⟩] rfl rfl ?_ fun w h => ?_
  · show en3 0xA8000000 h0 21 o 17 l 13 = _
    simp only [en3, en2, en1, RoundTrip.word, BitVec.reduceToNat, Nat.reducePow]; omega
  rw [RoundTrip.to_rawT54 (RoundTrip.range h 4 1 rfl rfl rfl), rawT54]
  have f0 : fld w 0 13 = 0 := RoundTrip.range h 0 1 rfl rfl rfl
  simp only [f0, Nat.reduceEqDiff, OfNat.ofNat_ne_zero, OfNat.zero_ne_ofNat, one_ne_zero, zero_ne_one, false_and, and_false, and_self, if_true, if_false]
  rw [show fbv 4 21 w = h0 from RoundTrip.field h 3 rfl rfl,
    show fbv 4 17 w = o from RoundTrip.field h 2 rfl rfl,
    show fbv 4 13 w = l from RoundTrip.field h 1 rfl rfl]

theorem RoundTrip.tsete (h0 : BitVec 4) (o : BitVec 4) (l : BitVec 4) : RoundTrip.Statement (.tsete h0 o l) := by
  refine RoundTrip.ofT [⟨13, 0⟩, ⟨4, l⟩, ⟨4, o⟩, ⟨4, h0⟩, ⟨7, 85⟩] rfl rfl ?_ fun w h => ?_
  · show en3 0xAA000000 h0 21 o 17 l 13 = _
    simp only [en3, en2, en1, RoundTrip.word, BitVec.reduceToNat, Nat.reducePow]; omega
  rw [RoundTrip.to_rawT55 (RoundTrip.range h 4 1 rfl rfl rfl), rawT55]
  have f0 : fld w 0 13 = 0 := RoundTrip.range h 0 1 rfl rfl rfl
  simp only [f0, Nat.reduceEqDiff, OfNat.ofNat_ne_zero, OfNat.zero_ne_ofNat, one_ne_zero, zero_ne_one, false_and, and_false, and_self, if_true, if_false]
  rw [show fbv 4 21 w = h0 from RoundTrip.field h 3 rfl rfl,
    show fbv 4 17 w = o from RoundTrip.field h 2 rfl rfl,
    show fbv 4 13 w = l from RoundTrip.field h 1 rfl rfl]

theorem RoundTrip.sleepu (a : BitVec 4) : RoundTrip.Statement (.sleepu a) := by
  refine RoundTrip.ofT [⟨21, 0⟩, ⟨4, a⟩, ⟨7, 96⟩] rfl rfl ?_ fun w h => ?_
  · show en1 0xC0000000 a 21 = _
    simp only [en1, RoundTrip.word, BitVec.reduceToNat, Nat.reducePow]; omega
  rw [RoundTrip.to_rawT60 (RoundTrip.range h 2 1 rfl rfl rfl), rawT60]
  have f0 : fld w 0 21 = 0 := RoundTrip.range h 0 1 rfl rfl rfl
  simp only [f0, Nat.reduceEqDiff, OfNat.ofNat_ne_zero, OfNat.zero_ne_ofNat, one_ne_zero, zero_ne_one, false_and, and_false, and_self, if_true, if_false]
  rw [show fbv 4 21 w = a from RoundTrip.field h 1 rfl rfl]

theorem RoundTrip.tdefer (a : BitVec 4) : RoundTrip.Statement (.tdefer a) := by
  refine RoundTrip.ofT [⟨21, 0⟩, ⟨4, a⟩, ⟨7, 97⟩] rfl rfl ?_ fun w h => ?_
  · show en1 0xC2000000 a 21 = _
    simp only [en1, RoundTrip.word, BitVec.reduceToNat, Nat.reducePow]; omega
  rw [RoundTrip.to_rawT61 (RoundTrip.range h 2 1 rfl rfl rfl), rawT61]
  have f0 : fld w 0 21 = 0 := RoundTrip.range h 0 1 rfl rfl rfl
  simp only [f0, Nat.reduceEqDiff, OfNat.ofNat_ne_zero, OfNat.zero_ne_ofNat, one_ne_zero, zero_ne_one, false_and, and_false, and_self, if_true, if_false]
  rw [show fbv 4 21 w = a from RoundTrip.field h 1 rfl rfl]

theorem RoundTrip.tdead (h0 : BitVec 4) (o : BitVec 4) (l : BitVec 4) : RoundTrip.Statement (.tdead h0 o l) := by
  refine RoundTrip.ofT [⟨13, 0⟩, ⟨4, l⟩, ⟨4, o⟩, ⟨4, h0⟩, ⟨7, 98⟩] rfl rfl ?_ fun w h => ?_
  · show en3 0xC4000000 h0 21 o 17 l 13 = _
    simp only [en3, en2, en1, RoundTrip.word, BitVec.reduceToNat, Nat.reducePow]; omega
  rw [RoundTrip.to_rawT62 (RoundTrip.range h 4 1 rfl rfl rfl), rawT62]
  have f0 : fld w 0 13 = 0 := RoundTrip.range h 0 1 rfl rfl rfl
  simp only [f0, Nat.reduceEqDiff, OfNat.ofNat_ne_zero, OfNat.zero_ne_ofNat, one_ne_zero, zero_ne_one, false_and, and_false, and_self, if_true, if_false]
  rw [show fbv 4 21 w = h0 from RoundTrip.field h 3 rfl rfl,
    show fbv 4 17 w = o from RoundTrip.field h 2 rfl rfl,
    show fbv 4 13 w = l from RoundTrip.field h 1 rfl rfl]

theorem RoundTrip.hdead (h0 : BitVec 4) (o : BitVec 4) (l : BitVec 4) : RoundTrip.Statement (.hdead h0 o l) := by
  refine RoundTrip.ofT [⟨13, 0⟩, ⟨4, l⟩, ⟨4, o⟩, ⟨4, h0⟩, ⟨7, 99⟩] rfl rfl ?_ fun w h => ?_
  · show en3 0xC6000000 h0 21 o 17 l 13 = _
    simp only [en3, en2, en1, RoundTrip.word, BitVec.reduceToNat, Nat.reducePow]; omega
  rw [RoundTrip.to_rawT63 (RoundTrip.range h 4 1 rfl rfl rfl), rawT63]
  have f0 : fld w 0 13 = 0 := RoundTrip.range h 0 1 rfl rfl rfl
  simp only [f0, Nat.reduceEqDiff, OfNat.ofNat_ne_zero, OfNat.zero_ne_ofNat, one_ne_zero, zero_ne_one, false_and, and_false, and_self, if_true, if_false]
  rw [show fbv 4 21 w = h0 from RoundTrip.field h 3 rfl rfl,
    show fbv 4 17 w = o from RoundTrip.field h 2 rfl rfl,
    show fbv 4 13 w = l from RoundTrip.field h 1 rfl rfl]

theorem RoundTrip.trmw (d : BitVec 4) (h0 : BitVec 4) (o : BitVec 4) (l : BitVec 4) (k : BitVec 1) : RoundTrip.Statement (.trmw d h0 o l k) := by
  refine RoundTrip.ofT [⟨8, 0⟩, ⟨1, k⟩, ⟨4, l⟩, ⟨4, o⟩, ⟨4, h0⟩, ⟨4, d⟩, ⟨7, 100⟩] rfl rfl ?_ fun w h => ?_
  · show en5 0xC8000000 d 21 h0 17 o 13 l 9 k 8 = _
    simp only [en5, en4, en3, en2, en1, RoundTrip.word, BitVec.reduceToNat, Nat.reducePow]; omega
  rw [RoundTrip.to_rawT64 (RoundTrip.range h 6 1 rfl rfl rfl), rawT64]
  have f0 : fld w 0 8 = 0 := RoundTrip.range h 0 1 rfl rfl rfl
  simp only [f0, Nat.reduceEqDiff, OfNat.ofNat_ne_zero, OfNat.zero_ne_ofNat, one_ne_zero, zero_ne_one, false_and, and_false, and_self, if_true, if_false]
  rw [show fbv 4 21 w = d from RoundTrip.field h 5 rfl rfl,
    show fbv 4 17 w = h0 from RoundTrip.field h 4 rfl rfl,
    show fbv 4 13 w = o from RoundTrip.field h 3 rfl rfl,
    show fbv 4 9 w = l from RoundTrip.field h 2 rfl rfl,
    show fbv 1 8 w = k from RoundTrip.field h 1 rfl rfl]

theorem RoundTrip.xcXAddress (k : BitVec 2) (r : BitVec 4) (x : BitVec 5) (q : BitVec 1) : RoundTrip.Statement (.xcXAddress k r x q) := by
  refine RoundTrip.ofT [⟨13, 0⟩, ⟨1, q⟩, ⟨5, x⟩, ⟨4, r⟩, ⟨2, k⟩, ⟨7, 104⟩] rfl rfl ?_ fun w h => ?_
  · show en4 0xD0000000 k 23 r 19 x 14 q 13 = _
    simp only [en4, en3, en2, en1, RoundTrip.word, BitVec.reduceToNat, Nat.reducePow]; omega
  rw [RoundTrip.to_rawT68 (RoundTrip.range h 5 1 rfl rfl rfl), rawT68]
  have f0 : fld w 0 13 = 0 := RoundTrip.range h 0 1 rfl rfl rfl
  simp only [f0, Nat.reduceEqDiff, OfNat.ofNat_ne_zero, OfNat.zero_ne_ofNat, one_ne_zero, zero_ne_one, false_and, and_false, and_self, if_true, if_false]
  rw [show fbv 2 23 w = k from RoundTrip.field h 4 rfl rfl,
    show fbv 4 19 w = r from RoundTrip.field h 3 rfl rfl,
    show fbv 5 14 w = x from RoundTrip.field h 2 rfl rfl,
    show fbv 1 13 w = q from RoundTrip.field h 1 rfl rfl]

theorem RoundTrip.noOp : RoundTrip.Statement .noOp := RoundTrip.unslotted rfl

theorem RoundTrip.yield : RoundTrip.Statement .yield := by
  refine RoundTrip.ofC [⟨2, 1⟩, ⟨24, 0⟩, ⟨6, 49⟩] rfl rfl ?_ fun w h => ?_
  · rfl
  rw [RoundTrip.to_rawC31 (RoundTrip.range h 2 1 rfl rfl rfl), rawC31]
  have f0 : fld w 0 2 = 1 := RoundTrip.range h 0 1 rfl rfl rfl
  have f1 : fld w 0 26 = 1 := RoundTrip.range h 0 2 rfl rfl rfl
  simp only [f0, f1, Nat.reduceEqDiff, OfNat.ofNat_ne_zero, OfNat.zero_ne_ofNat, one_ne_zero, zero_ne_one, false_and, and_false, and_self, if_true, if_false]

theorem RoundTrip.retire : RoundTrip.Statement .retire := by
  refine RoundTrip.ofC [⟨2, 2⟩, ⟨24, 0⟩, ⟨6, 49⟩] rfl rfl ?_ fun w h => ?_
  · rfl
  rw [RoundTrip.to_rawC31 (RoundTrip.range h 2 1 rfl rfl rfl), rawC31]
  have f0 : fld w 0 2 = 2 := RoundTrip.range h 0 1 rfl rfl rfl
  have f1 : fld w 0 26 = 2 := RoundTrip.range h 0 2 rfl rfl rfl
  simp only [f0, f1, Nat.reduceEqDiff, OfNat.ofNat_ne_zero, OfNat.zero_ne_ofNat, one_ne_zero, zero_ne_one, false_and, and_false, and_self, if_true, if_false]

theorem RoundTrip.leave : RoundTrip.Statement .leave := by
  refine RoundTrip.ofC [⟨11, 1⟩, ⟨15, 0⟩, ⟨6, 50⟩] rfl rfl ?_ fun w h => ?_
  · rfl
  rw [RoundTrip.to_rawC32 (RoundTrip.range h 2 1 rfl rfl rfl), rawC32]
  have f0 : fld w 0 11 = 1 := RoundTrip.range h 0 1 rfl rfl rfl
  have f1 : fld w 0 26 = 1 := RoundTrip.range h 0 2 rfl rfl rfl
  simp only [f0, f1, Nat.reduceEqDiff, OfNat.ofNat_ne_zero, OfNat.zero_ne_ofNat, one_ne_zero, zero_ne_one, false_and, and_false, and_self, if_true, if_false]

theorem RoundTrip.sege : RoundTrip.Statement .sege := by
  refine RoundTrip.ofC [⟨16, 1⟩, ⟨10, 0⟩, ⟨6, 51⟩] rfl rfl ?_ fun w h => ?_
  · rfl
  rw [RoundTrip.to_rawC33 (RoundTrip.range h 2 1 rfl rfl rfl), rawC33]
  have f0 : fld w 0 16 = 1 := RoundTrip.range h 0 1 rfl rfl rfl
  have f1 : fld w 0 26 = 1 := RoundTrip.range h 0 2 rfl rfl rfl
  simp only [f0, f1, Nat.reduceEqDiff, OfNat.ofNat_ne_zero, OfNat.zero_ne_ofNat, one_ne_zero, zero_ne_one, false_and, and_false, and_self, if_true, if_false]

theorem RoundTrip.rte : RoundTrip.Statement .rte := by
  refine RoundTrip.ofC [⟨10, 1⟩, ⟨16, 0⟩, ⟨6, 52⟩] rfl rfl ?_ fun w h => ?_
  · rfl
  rw [RoundTrip.to_rawC34 (RoundTrip.range h 2 1 rfl rfl rfl), rawC34]
  have f0 : fld w 0 10 = 1 := RoundTrip.range h 0 1 rfl rfl rfl
  have f1 : fld w 0 26 = 1 := RoundTrip.range h 0 2 rfl rfl rfl
  simp only [f0, f1, Nat.reduceEqDiff, OfNat.ofNat_ne_zero, OfNat.zero_ne_ofNat, one_ne_zero, zero_ne_one, false_and, and_false, and_self, if_true, if_false]

theorem RoundTrip.halt : RoundTrip.Statement .halt := by
  refine RoundTrip.ofC [⟨10, 2⟩, ⟨16, 0⟩, ⟨6, 52⟩] rfl rfl ?_ fun w h => ?_
  · rfl
  rw [RoundTrip.to_rawC34 (RoundTrip.range h 2 1 rfl rfl rfl), rawC34]
  have f0 : fld w 0 10 = 2 := RoundTrip.range h 0 1 rfl rfl rfl
  have f1 : fld w 0 26 = 2 := RoundTrip.range h 0 2 rfl rfl rfl
  simp only [f0, f1, Nat.reduceEqDiff, OfNat.ofNat_ne_zero, OfNat.zero_ne_ofNat, one_ne_zero, zero_ne_one, false_and, and_false, and_self, if_true, if_false]

theorem RoundTrip.vpsw : RoundTrip.Statement .vpsw := by
  refine RoundTrip.ofV [⟨25, 0⟩, ⟨7, 105⟩] rfl rfl ?_ fun w h => ?_
  · rfl
  rw [RoundTrip.to_rawV69 (RoundTrip.range h 1 1 rfl rfl rfl), rawV69]
  have f0 : fld w 0 25 = 0 := RoundTrip.range h 0 1 rfl rfl rfl
  simp only [f0, Nat.reduceEqDiff, OfNat.ofNat_ne_zero, OfNat.zero_ne_ofNat, one_ne_zero, zero_ne_one, false_and, and_false, and_self, if_true, if_false]

theorem RoundTrip.blend0 : RoundTrip.Statement .blend0 := by
  refine RoundTrip.ofM [⟨26, 0⟩, ⟨6, 7⟩] rfl rfl ?_ fun w h => ?_
  · rfl
  rw [RoundTrip.to_rawM07 (RoundTrip.range h 1 1 rfl rfl rfl), rawM07]
  have f0 : fld w 0 26 = 0 := RoundTrip.range h 0 1 rfl rfl rfl
  simp only [f0, Nat.reduceEqDiff, OfNat.ofNat_ne_zero, OfNat.zero_ne_ofNat, one_ne_zero, zero_ne_one, false_and, and_false, and_self, if_true, if_false]

theorem RoundTrip.blend1 : RoundTrip.Statement .blend1 := by
  refine RoundTrip.ofM [⟨26, 1⟩, ⟨6, 7⟩] rfl rfl ?_ fun w h => ?_
  · rfl
  rw [RoundTrip.to_rawM07 (RoundTrip.range h 1 1 rfl rfl rfl), rawM07]
  have f0 : fld w 0 26 = 1 := RoundTrip.range h 0 1 rfl rfl rfl
  simp only [f0, Nat.reduceEqDiff, OfNat.ofNat_ne_zero, OfNat.zero_ne_ofNat, one_ne_zero, zero_ne_one, false_and, and_false, and_self, if_true, if_false]

theorem RoundTrip.blend2 : RoundTrip.Statement .blend2 := by
  refine RoundTrip.ofM [⟨26, 2⟩, ⟨6, 7⟩] rfl rfl ?_ fun w h => ?_
  · rfl
  rw [RoundTrip.to_rawM07 (RoundTrip.range h 1 1 rfl rfl rfl), rawM07]
  have f0 : fld w 0 26 = 2 := RoundTrip.range h 0 1 rfl rfl rfl
  simp only [f0, Nat.reduceEqDiff, OfNat.ofNat_ne_zero, OfNat.zero_ne_ofNat, one_ne_zero, zero_ne_one, false_and, and_false, and_self, if_true, if_false]

theorem RoundTrip.blend3 : RoundTrip.Statement .blend3 := by
  refine RoundTrip.ofM [⟨26, 3⟩, ⟨6, 7⟩] rfl rfl ?_ fun w h => ?_
  · rfl
  rw [RoundTrip.to_rawM07 (RoundTrip.range h 1 1 rfl rfl rfl), rawM07]
  have f0 : fld w 0 26 = 3 := RoundTrip.range h 0 1 rfl rfl rfl
  simp only [f0, Nat.reduceEqDiff, OfNat.ofNat_ne_zero, OfNat.zero_ne_ofNat, one_ne_zero, zero_ne_one, false_and, and_false, and_self, if_true, if_false]

theorem RoundTrip.blend4 : RoundTrip.Statement .blend4 := by
  refine RoundTrip.ofM [⟨26, 4⟩, ⟨6, 7⟩] rfl rfl ?_ fun w h => ?_
  · rfl
  rw [RoundTrip.to_rawM07 (RoundTrip.range h 1 1 rfl rfl rfl), rawM07]
  have f0 : fld w 0 26 = 4 := RoundTrip.range h 0 1 rfl rfl rfl
  simp only [f0, Nat.reduceEqDiff, OfNat.ofNat_ne_zero, OfNat.zero_ne_ofNat, one_ne_zero, zero_ne_one, false_and, and_false, and_self, if_true, if_false]

theorem RoundTrip.blend5 : RoundTrip.Statement .blend5 := by
  refine RoundTrip.ofM [⟨26, 5⟩, ⟨6, 7⟩] rfl rfl ?_ fun w h => ?_
  · rfl
  rw [RoundTrip.to_rawM07 (RoundTrip.range h 1 1 rfl rfl rfl), rawM07]
  have f0 : fld w 0 26 = 5 := RoundTrip.range h 0 1 rfl rfl rfl
  simp only [f0, Nat.reduceEqDiff, OfNat.ofNat_ne_zero, OfNat.zero_ne_ofNat, one_ne_zero, zero_ne_one, false_and, and_false, and_self, if_true, if_false]

theorem RoundTrip.bret0 : RoundTrip.Statement .bret0 := by
  refine RoundTrip.ofM [⟨26, 0⟩, ⟨6, 8⟩] rfl rfl ?_ fun w h => ?_
  · rfl
  rw [RoundTrip.to_rawM08 (RoundTrip.range h 1 1 rfl rfl rfl), rawM08]
  have f0 : fld w 0 26 = 0 := RoundTrip.range h 0 1 rfl rfl rfl
  simp only [f0, Nat.reduceEqDiff, OfNat.ofNat_ne_zero, OfNat.zero_ne_ofNat, one_ne_zero, zero_ne_one, false_and, and_false, and_self, if_true, if_false]

theorem RoundTrip.bret1 : RoundTrip.Statement .bret1 := by
  refine RoundTrip.ofM [⟨26, 1⟩, ⟨6, 8⟩] rfl rfl ?_ fun w h => ?_
  · rfl
  rw [RoundTrip.to_rawM08 (RoundTrip.range h 1 1 rfl rfl rfl), rawM08]
  have f0 : fld w 0 26 = 1 := RoundTrip.range h 0 1 rfl rfl rfl
  simp only [f0, Nat.reduceEqDiff, OfNat.ofNat_ne_zero, OfNat.zero_ne_ofNat, one_ne_zero, zero_ne_one, false_and, and_false, and_self, if_true, if_false]

theorem RoundTrip.bret2 : RoundTrip.Statement .bret2 := by
  refine RoundTrip.ofM [⟨26, 2⟩, ⟨6, 8⟩] rfl rfl ?_ fun w h => ?_
  · rfl
  rw [RoundTrip.to_rawM08 (RoundTrip.range h 1 1 rfl rfl rfl), rawM08]
  have f0 : fld w 0 26 = 2 := RoundTrip.range h 0 1 rfl rfl rfl
  simp only [f0, Nat.reduceEqDiff, OfNat.ofNat_ne_zero, OfNat.zero_ne_ofNat, one_ne_zero, zero_ne_one, false_and, and_false, and_self, if_true, if_false]

theorem RoundTrip.bret3 : RoundTrip.Statement .bret3 := by
  refine RoundTrip.ofM [⟨26, 3⟩, ⟨6, 8⟩] rfl rfl ?_ fun w h => ?_
  · rfl
  rw [RoundTrip.to_rawM08 (RoundTrip.range h 1 1 rfl rfl rfl), rawM08]
  have f0 : fld w 0 26 = 3 := RoundTrip.range h 0 1 rfl rfl rfl
  simp only [f0, Nat.reduceEqDiff, OfNat.ofNat_ne_zero, OfNat.zero_ne_ofNat, one_ne_zero, zero_ne_one, false_and, and_false, and_self, if_true, if_false]

theorem RoundTrip.bret4 : RoundTrip.Statement .bret4 := by
  refine RoundTrip.ofM [⟨26, 4⟩, ⟨6, 8⟩] rfl rfl ?_ fun w h => ?_
  · rfl
  rw [RoundTrip.to_rawM08 (RoundTrip.range h 1 1 rfl rfl rfl), rawM08]
  have f0 : fld w 0 26 = 4 := RoundTrip.range h 0 1 rfl rfl rfl
  simp only [f0, Nat.reduceEqDiff, OfNat.ofNat_ne_zero, OfNat.zero_ne_ofNat, one_ne_zero, zero_ne_one, false_and, and_false, and_self, if_true, if_false]

theorem RoundTrip.bret5 : RoundTrip.Statement .bret5 := by
  refine RoundTrip.ofM [⟨26, 5⟩, ⟨6, 8⟩] rfl rfl ?_ fun w h => ?_
  · rfl
  rw [RoundTrip.to_rawM08 (RoundTrip.range h 1 1 rfl rfl rfl), rawM08]
  have f0 : fld w 0 26 = 5 := RoundTrip.range h 0 1 rfl rfl rfl
  simp only [f0, Nat.reduceEqDiff, OfNat.ofNat_ne_zero, OfNat.zero_ne_ofNat, one_ne_zero, zero_ne_one, false_and, and_false, and_self, if_true, if_false]

theorem RoundTrip.scinv : RoundTrip.Statement .scinv := by
  refine RoundTrip.ofT [⟨25, 0⟩, ⟨7, 9⟩] rfl rfl ?_ fun w h => ?_
  · rfl
  rw [RoundTrip.to_rawT09 (RoundTrip.range h 1 1 rfl rfl rfl), rawT09]
  have f0 : fld w 0 25 = 0 := RoundTrip.range h 0 1 rfl rfl rfl
  simp only [f0, Nat.reduceEqDiff, OfNat.ofNat_ne_zero, OfNat.zero_ne_ofNat, one_ne_zero, zero_ne_one, false_and, and_false, and_self, if_true, if_false]

theorem RoundTrip.cancel : RoundTrip.Statement .cancel := by
  refine RoundTrip.ofT [⟨25, 0⟩, ⟨7, 66⟩] rfl rfl ?_ fun w h => ?_
  · rfl
  rw [RoundTrip.to_rawT42 (RoundTrip.range h 1 1 rfl rfl rfl), rawT42]
  have f0 : fld w 0 25 = 0 := RoundTrip.range h 0 1 rfl rfl rfl
  simp only [f0, Nat.reduceEqDiff, OfNat.ofNat_ne_zero, OfNat.zero_ne_ofNat, one_ne_zero, zero_ne_one, false_and, and_false, and_self, if_true, if_false]

theorem RoundTrip.parkedSlotRetry : RoundTrip.Statement .parkedSlotRetry := RoundTrip.unslotted rfl

theorem RoundTrip.parkedTooLong : RoundTrip.Statement .parkedTooLong := RoundTrip.unslotted rfl

theorem RoundTrip.trapEntry : RoundTrip.Statement .trapEntry := RoundTrip.unslotted rfl

theorem RoundTrip.outlierListFull : RoundTrip.Statement .outlierListFull := RoundTrip.unslotted rfl

theorem RoundTrip.loadReturn : RoundTrip.Statement .loadReturn := RoundTrip.unslotted rfl

theorem RoundTrip.translationRetry : RoundTrip.Statement .translationRetry := RoundTrip.unslotted rfl

theorem RoundTrip.translationFail : RoundTrip.Statement .translationFail := RoundTrip.unslotted rfl

theorem RoundTrip.strikeWindow : RoundTrip.Statement .strikeWindow := RoundTrip.unslotted rfl

theorem RoundTrip.strikeReport : RoundTrip.Statement .strikeReport := RoundTrip.unslotted rfl

theorem RoundTrip.dispatchRound : RoundTrip.Statement .dispatchRound := RoundTrip.unslotted rfl

theorem RoundTrip.beadStart : RoundTrip.Statement .beadStart := RoundTrip.unslotted rfl

theorem RoundTrip.preemptionHalt : RoundTrip.Statement .preemptionHalt := RoundTrip.unslotted rfl

theorem RoundTrip.contextDrainFinal : RoundTrip.Statement .contextDrainFinal := RoundTrip.unslotted rfl

theorem RoundTrip.resumption : RoundTrip.Statement .resumption := RoundTrip.unslotted rfl

theorem RoundTrip.strandTailWrite : RoundTrip.Statement .strandTailWrite := RoundTrip.unslotted rfl

theorem RoundTrip.hubConfigurationWrite : RoundTrip.Statement .hubConfigurationWrite := RoundTrip.unslotted rfl

theorem RoundTrip.executableRegistration : RoundTrip.Statement .executableRegistration := RoundTrip.unslotted rfl

theorem RoundTrip.normalRefresh : RoundTrip.Statement .normalRefresh := RoundTrip.unslotted rfl

theorem RoundTrip.forcedRefresh : RoundTrip.Statement .forcedRefresh := RoundTrip.unslotted rfl

theorem RoundTrip.groupRefreshEnd : RoundTrip.Statement .groupRefreshEnd := RoundTrip.unslotted rfl

theorem RoundTrip.deferralEnd : RoundTrip.Statement .deferralEnd := RoundTrip.unslotted rfl

theorem RoundTrip.tileOperationStart : RoundTrip.Statement .tileOperationStart := RoundTrip.unslotted rfl

theorem RoundTrip.tileOperationCompletion : RoundTrip.Statement .tileOperationCompletion := RoundTrip.unslotted rfl

theorem RoundTrip.copyCompletion : RoundTrip.Statement .copyCompletion := RoundTrip.unslotted rfl

theorem RoundTrip.refillCompletion : RoundTrip.Statement .refillCompletion := RoundTrip.unslotted rfl

theorem RoundTrip.shiftCompletion : RoundTrip.Statement .shiftCompletion := RoundTrip.unslotted rfl

theorem RoundTrip.reduceRound : RoundTrip.Statement .reduceRound := RoundTrip.unslotted rfl

theorem RoundTrip.atomicEngineServe : RoundTrip.Statement .atomicEngineServe := RoundTrip.unslotted rfl

theorem RoundTrip.bobWaitAnswer : RoundTrip.Statement .bobWaitAnswer := RoundTrip.unslotted rfl

theorem RoundTrip.barrierRelease : RoundTrip.Statement .barrierRelease := RoundTrip.unslotted rfl

theorem RoundTrip.cbarSuspend : RoundTrip.Statement .cbarSuspend := RoundTrip.unslotted rfl

theorem RoundTrip.sleepuWake : RoundTrip.Statement .sleepuWake := RoundTrip.unslotted rfl

theorem RoundTrip.resume : RoundTrip.Statement .resume := RoundTrip.unslotted rfl

theorem RoundTrip.resetCore : RoundTrip.Statement .resetCore := RoundTrip.unslotted rfl

theorem RoundTrip.linkDown : RoundTrip.Statement .linkDown := RoundTrip.unslotted rfl

theorem RoundTrip.routeRestore : RoundTrip.Statement .routeRestore := RoundTrip.unslotted rfl

theorem RoundTrip.objectInvalidation : RoundTrip.Statement .objectInvalidation := RoundTrip.unslotted rfl

theorem RoundTrip.atsInvalidation : RoundTrip.Statement .atsInvalidation := RoundTrip.unslotted rfl

theorem RoundTrip.cxlMemAccess : RoundTrip.Statement .cxlMemAccess := RoundTrip.unslotted rfl

theorem RoundTrip.patrolScrub : RoundTrip.Statement .patrolScrub := RoundTrip.unslotted rfl

theorem RoundTrip.monitorSample : RoundTrip.Statement .monitorSample := RoundTrip.unslotted rfl

theorem RoundTrip.selfTestEnd : RoundTrip.Statement .selfTestEnd := RoundTrip.unslotted rfl

theorem RoundTrip.pstepSample : RoundTrip.Statement .pstepSample := RoundTrip.unslotted rfl

theorem RoundTrip.setPowerStep : RoundTrip.Statement .setPowerStep := RoundTrip.unslotted rfl

theorem RoundTrip.throttleEvaluation : RoundTrip.Statement .throttleEvaluation := RoundTrip.unslotted rfl

theorem RoundTrip.sensorCheck : RoundTrip.Statement .sensorCheck := RoundTrip.unslotted rfl

theorem RoundTrip.powerFail : RoundTrip.Statement .powerFail := RoundTrip.unslotted rfl

theorem RoundTrip.powerReturn : RoundTrip.Statement .powerReturn := RoundTrip.unslotted rfl

theorem RoundTrip.boot : RoundTrip.Statement .boot := RoundTrip.unslotted rfl

theorem RoundTrip.attestation : RoundTrip.Statement .attestation := RoundTrip.unslotted rfl

theorem RoundTrip.storePerformed : RoundTrip.Statement .storePerformed := RoundTrip.unslotted rfl

theorem RoundTrip.cxlCacheRecall : RoundTrip.Statement .cxlCacheRecall := RoundTrip.unslotted rfl

theorem RoundTrip.remotePackageAccess : RoundTrip.Statement .remotePackageAccess := RoundTrip.unslotted rfl

theorem RoundTrip.fallBackReadRequest : RoundTrip.Statement .fallBackReadRequest := RoundTrip.unslotted rfl

theorem RoundTrip.stackScrubPass : RoundTrip.Statement .stackScrubPass := RoundTrip.unslotted rfl

theorem RoundTrip.imageWrite : RoundTrip.Statement .imageWrite := RoundTrip.unslotted rfl

end Sys2Proof.Laws
end

