-- ==== Sys2Proof/Laws/Vector.lean ====
section
/-! SUPPORT. What the frame of slot V does where its operands are registers. -/

namespace Sys2Proof.Laws
open Sys2Proof Machine Claims

/-! ## Lanes side by side -/

/-- Values below 2^z at the places of a list of lanes, one above the other. -/
def packedSum (z : Nat) (on : Nat → Bool) (f : Nat → Nat) (n : Nat) : Nat :=
  (((List.range n).filter on).map fun l => f l * 2 ^ (z * l)).foldl (· + ·) 0

theorem packedSum_succ (z : Nat) (on : Nat → Bool) (f : Nat → Nat) (n : Nat) :
    packedSum z on f (n + 1) = packedSum z on f n + if on n then f n * 2 ^ (z * n) else 0 := by
  unfold packedSum
  rw [List.range_succ, List.filter_append, List.map_append, List.foldl_append]
  cases h : on n <;> simp [h]

theorem packedSum_lt (z : Nat) (on : Nat → Bool) (f : Nat → Nat) (hf : ∀ l, f l < 2 ^ z) (n : Nat) : packedSum z on f n < 2 ^ (z * n) := by
  induction n with
  | zero => simp [packedSum]
  | succ n ih =>
    rw [packedSum_succ, Nat.mul_succ, Nat.pow_add]
    have h1 : (if on n then f n * 2 ^ (z * n) else 0) ≤ (2 ^ z - 1) * 2 ^ (z * n) := by
      split
      · exact Nat.mul_le_mul_right _ (Nat.le_sub_one_of_lt (hf n))
      · exact Nat.zero_le _
    have h2 : (2 ^ z - 1) * 2 ^ (z * n) + 2 ^ (z * n) = 2 ^ (z * n) * 2 ^ z := by
      rw [Nat.sub_mul, Nat.one_mul, Nat.mul_comm (2 ^ z)]
      exact Nat.sub_add_cancel (Nat.le_mul_of_pos_right _ (Nat.two_pow_pos z))
    omega

/-- The field of lane l. -/
theorem packedSum_field (z : Nat) (on : Nat → Bool) (f : Nat → Nat) (hf : ∀ l, f l < 2 ^ z) (n l : Nat) (h : l < n) :
    packedSum z on f n / 2 ^ (z * l) % 2 ^ z = if on l then f l else 0 := by
  induction n with
  | zero => omega
  | succ n ih =>
    rw [packedSum_succ]
    by_cases e : l = n
    · subst e
      have := packedSum_lt z on f hf l
      split
      · rw [Nat.add_mul_div_right _ _ (Nat.two_pow_pos _), Nat.div_eq_of_lt this, Nat.zero_add, Nat.mod_eq_of_lt (hf l)]
      · rw [Nat.add_zero, Nat.div_eq_of_lt this, Nat.zero_mod]
    · rw [← ih (by omega)]
      split
      · obtain ⟨k, rfl⟩ : ∃ k, n = l + 1 + k := ⟨n - l - 1, by omega⟩
        rw [show f (l + 1 + k) * 2 ^ (z * (l + 1 + k)) = f (l + 1 + k) * 2 ^ (z * k) * 2 ^ z * 2 ^ (z * l) by
          rw [show z * (l + 1 + k) = z * k + z + z * l by ring, Nat.pow_add, Nat.pow_add]; ring]
        rw [Nat.add_mul_div_right _ _ (Nat.two_pow_pos _), Nat.add_mul_mod_self_right]
      · rw [Nat.add_zero]

/-- Bit by bit. -/
theorem packedSum_testBit (z : Nat) (on : Nat → Bool) (f : Nat → Nat) (hf : ∀ l, f l < 2 ^ z) (n l k : Nat) (h : l < n) (hk : k < z) :
    (packedSum z on f n).testBit (z * l + k) = (on l && (f l).testBit k) := by
  have e := congrArg (Nat.testBit · k) (packedSum_field z on f hf n l h)
  simp only [Nat.testBit_mod_two_pow, Nat.testBit_div_two_pow, hk, decide_true, Bool.true_and] at e
  rw [Nat.add_comm] at e
  rw [e]
  cases on l <;> simp

theorem lanesMask_eq (on : Nat → Bool) (n : Nat) : lanesMask ((List.range n).filter on) = BitVec.ofNat 4096 (packedSum 32 on (fun _ => 2 ^ 32 - 1) n) := rfl

theorem lanesValue_eq (on : Nat → Bool) (f : Nat → Nat) (n : Nat) :
    lanesValue (((List.range n).filter on).map fun l => (l, f l)) = BitVec.ofNat 4096 (packedSum 32 on (fun l => f l % 2 ^ 32) n) := by
  unfold lanesValue packedSum
  rw [List.map_map]; rfl

theorem packedSum_above (z : Nat) (on : Nat → Bool) (f : Nat → Nat) (hf : ∀ l, f l < 2 ^ z) (n k : Nat) (h : z * n ≤ k) :
    (packedSum z on f n).testBit k = false :=
  Nat.testBit_lt_two_pow (Nat.lt_of_lt_of_le (packedSum_lt z on f hf n) (Nat.pow_le_pow_right (by omega) h))

/-- Fields of z bits put into a register under their own mask: those of the lanes that are on change. -/
theorem blend_testBit (z : Nat) (on : Nat → Bool) (f : Nat → Nat) (hf : ∀ l, f l < 2 ^ z) (n : Nat) (old : VWord) (l k : Nat)
    (hk : k < z) (hb : z * l + k < 4096) :
    (blendBits (BitVec.ofNat 4096 (packedSum z on (fun _ => 2 ^ z - 1) n)) (BitVec.ofNat 4096 (packedSum z on f n)) old).getLsbD (z * l + k)
      = if l < n ∧ on l = true then (f l).testBit k else old.getLsbD (z * l + k) := by
  have hm : ∀ l, (fun _ : Nat => 2 ^ z - 1) l < 2 ^ z := fun _ => Nat.sub_lt (Nat.two_pow_pos z) Nat.one_pos
  unfold blendBits
  simp only [BitVec.getLsbD_or, BitVec.getLsbD_and, BitVec.getLsbD_not, BitVec.getLsbD_ofNat, hb, decide_true, Bool.true_and]
  by_cases h : l < n
  · rw [packedSum_testBit z on _ hm n l k h hk, packedSum_testBit z on f hf n l k h hk]
    cases ho : on l <;> simp [h, hk]
  · have : z * n ≤ z * l + k := Nat.le_trans (Nat.mul_le_mul_left z (Nat.le_of_not_lt h)) (Nat.le_add_right ..)
    rw [packedSum_above z on _ hm n _ this, packedSum_above z on f hf n _ this]
    simp [h]

/-- A lane of a register after lanes were written. -/
theorem lane_blend (on : Nat → Bool) (f : Nat → Nat) (n : Nat) (old : VWord) (l : Nat) (hl : l < 128) :
    lane (blendBits (lanesMask ((List.range n).filter on)) (lanesValue (((List.range n).filter on).map fun l => (l, f l))) old) l
      = if l < n ∧ on l = true then f l % 2 ^ 32 else lane old l := by
  rw [lanesMask_eq, lanesValue_eq]
  apply Nat.eq_of_testBit_eq
  intro k
  have hf : ∀ l, (fun l => f l % 2 ^ 32) l < 2 ^ 32 := fun _ => Nat.mod_lt _ (Nat.two_pow_pos 32)
  by_cases hk : k < 32
  · have := blend_testBit 32 on (fun l => f l % 2 ^ 32) hf n old l k hk (by omega)
    unfold lane fld
    simp only [Nat.testBit_mod_two_pow, Nat.testBit_div_two_pow, hk, decide_true, Bool.true_and]
    rw [Nat.add_comm k]
    refine Eq.trans this ?_
    split
    · rfl
    · simp only [Nat.testBit_mod_two_pow, Nat.testBit_div_two_pow, hk, decide_true, Bool.true_and]
      rw [Nat.add_comm k]; rfl
  · have h : ∀ x : Nat, (x % 2 ^ 32).testBit k = false := fun x => (Nat.testBit_mod_two_pow x 32 k).trans (by rw [decide_eq_false hk]; rfl)
    unfold lane fld
    split <;> simp only [h]

/-! ## The frame -/

theorem lent_false {s : State} {w : BitVec 2} {regs : List (BitVec 6)} (h : VReady s w regs) : regs.any (lentCode s.lat.iss) = false := by
  rw [List.any_eq_false]
  intro r hr
  obtain ⟨h1, h2⟩ := h.2 r hr
  unfold lentCode lentCode.lentReg
  simp [h1, h2]

/-- Operands that are registers are read in order, and nothing else happens. -/
theorem operands_registers (l : List (Fin 3 × BitVec 6)) (r : VRead) (h : ∀ x ∈ l, x.2.toNat < 48) :
    r.operands l = .ok { r with vals := r.vals ++ l.map (fun x => r.s.c.rv x.2.toNat),
                                latch := l.foldl (fun v x => v.set x.1 (some x.2)) r.latch } := by
  induction l generalizing r with
  | nil => simp [VRead.operands]
  | cons a t ih =>
    obtain ⟨pos, code⟩ := a
    have h1 : code.toNat < 48 := h _ (List.mem_cons_self ..)
    have e : r.operand pos code = .ok { r with vals := r.vals ++ [r.s.c.rv code.toNat], latch := r.latch.set pos (some code) } := if_pos h1
    rw [VRead.operands, e]
    simp only
    rw [ih _ fun x hx => h x (List.mem_cons_of_mem _ hx)]
    simp [List.append_assoc]

theorem vRead_registers (s : State) (l : List (Fin 3 × BitVec 6)) (h : ∀ x ∈ l, x.2.toNat < 48) :
    s.vRead l = .ok { s := s, ports := s.c.port, vals := l.map (fun x => s.c.rv x.2.toNat), latch := latched s l, fls := [], takes := [] } := by
  unfold State.vRead
  rw [operands_registers l _ h]
  simp [latched]

/-- Active lanes are those of the width whose bit is set. -/
theorem active_eq (s : State) (w : BitVec 2) (m : BitVec 3) (hw : w ≠ 3) : s.active w m = (List.range 128).filter (LaneOn s w m) := by
  have h : w.toNat < 3 := by
    have := w.isLt
    have : w.toNat ≠ 3 := fun e => hw (BitVec.eq_of_toNat_eq e)
    omega
  have cut : ∀ (n k : Nat) (p : Nat → Bool), (List.range (n + k)).filter (fun l => decide (l < n) && p l) = (List.range n).filter p := by
    intro n k p
    rw [List.range_add, List.filter_append]
    rw [show ((List.range k).map (n + ·)).filter (fun l => decide (l < n) && p l) = [] from List.filter_eq_nil_iff.2 (by
      intro x hx
      obtain ⟨y, -, rfl⟩ := List.mem_map.1 hx
      simp), List.append_nil]
    apply List.filter_congr
    intro x hx
    simp [List.mem_range.1 hx]
  unfold State.active lanesOf
  have e : 128 = 32 * 2 ^ w.toNat + (128 - 32 * 2 ^ w.toNat) := by
    have : w.toNat = 0 ∨ w.toNat = 1 ∨ w.toNat = 2 := by omega
    rcases this with h | h | h <;> rw [h] <;> rfl
  exact (cut _ _ _).symm.trans (congrArg (fun n => (List.range n).filter (LaneOn s w m)) e.symm)

theorem enabled_iff (s : State) (fl : Nat) : Enabled s fl = true ↔ enabledFlags s.lat.iss.fpcr fl ≠ 0 := by
  have key : ∀ i < 5, (enabledFlags s.lat.iss.fpcr fl).testBit i = (fl.testBit i && s.lat.iss.fpcr.getLsbD (4 + i)) := by
    intro i hi
    unfold enabledFlags fld
    rw [Nat.testBit_and, Nat.testBit_and, Nat.testBit_mod_two_pow, Nat.testBit_div_two_pow, show (31 : Nat) = 2 ^ 5 - 1 by rfl,
      Nat.testBit_two_pow_sub_one]
    simp [hi, BitVec.getLsbD, Nat.add_comm]
  constructor
  · intro h c
    obtain ⟨i, hi, hb⟩ := List.any_eq_true.1 h
    rw [← key i (List.mem_range.1 hi), c] at hb
    simp at hb
  · intro h
    obtain ⟨i, hi⟩ := Nat.exists_testBit_of_ne_zero h
    have hlt : i < 5 := by
      by_contra c
      have : enabledFlags s.lat.iss.fpcr fl < 2 ^ i :=
        Nat.lt_of_lt_of_le (Nat.lt_of_le_of_lt Nat.and_le_right (by decide : 31 < 2 ^ 5)) (Nat.pow_le_pow_right (by omega) (by omega))
      rw [Nat.testBit_lt_two_pow this] at hi
      cases hi
    exact List.any_eq_true.2 ⟨i, List.mem_range.2 hlt, (key i hlt) ▸ hi⟩

/-- Flags of the lanes that are on: a trap for the lowest lane with an enabled flag, or the operation goes on. -/
theorem vFlags_off (s : State) (on : Nat → Bool) (fl : Nat → Nat) (f : Nat → State) (h : Enabled s (orOver on fl) = false) :
    s.vFlags (((List.range 128).filter on).map fun l => (l, fl l)) f = f (orOver on fl) := by
  have e : (((List.range 128).filter on).map fun l => (l, fl l)).foldl (fun a x => a ||| x.2) 0 = orOver on fl := List.foldl_map ..
  unfold State.vFlags
  rw [e]
  have : ¬ enabledFlags s.lat.iss.fpcr (orOver on fl) ≠ 0 := fun c => by rw [(enabled_iff ..).2 c] at h; cases h
  exact if_neg this

/-- Where an enabled flag is raised, some lane raises one. -/
theorem enabled_foldl (s : State) (fl : Nat → Nat) (l : List Nat) (a : Nat) (h : Enabled s (l.foldl (fun a l => a ||| fl l) a) = true) :
    Enabled s a = true ∨ ∃ x ∈ l, Enabled s (fl x) = true := by
  induction l generalizing a with
  | nil => exact .inl h
  | cons x t ih =>
    obtain h | ⟨y, hy, h⟩ := ih _ h
    · obtain ⟨i, hi, hb⟩ := List.any_eq_true.1 h
      rw [Nat.testBit_or, Bool.and_eq_true, Bool.or_eq_true] at hb
      obtain h1 | h1 := hb.1
      · exact .inl (List.any_eq_true.2 ⟨i, hi, by rw [h1, hb.2]; rfl⟩)
      · exact .inr ⟨x, List.mem_cons_self .., List.any_eq_true.2 ⟨i, hi, by rw [h1, hb.2]; rfl⟩⟩
    · exact .inr ⟨y, List.mem_cons_of_mem _ hy, h⟩

/-- The first lane of a rising list that has a property. -/
theorem find_lowest (on : Nat → Bool) (p : Nat → Bool) (n : Nat) (h : ∃ x ∈ (List.range n).filter on, p x = true) :
    ∃ l, ((List.range n).filter on).find? p = some l ∧ on l = true ∧ p l = true ∧ ∀ k < l, on k = true → p k = false := by
  induction n with
  | zero => obtain ⟨x, hx, -⟩ := h; simp at hx
  | succ n ih =>
    rw [List.range_succ, List.filter_append] at h ⊢
    rw [List.find?_append]
    by_cases c : ∃ x ∈ (List.range n).filter on, p x = true
    · obtain ⟨l, e, h1, h2, h3⟩ := ih c
      exact ⟨l, by rw [e]; rfl, h1, h2, h3⟩
    · obtain ⟨x, hx, hp⟩ := h
      rcases List.mem_append.1 hx with hx | hx
      · exact absurd ⟨x, hx, hp⟩ c
      · obtain ⟨hx, ho⟩ := List.mem_filter.1 hx
        obtain rfl := List.mem_singleton.1 hx
        refine ⟨x, ?_, ho, hp, fun k hk hk2 => ?_⟩
        · rw [List.find?_eq_none.2 fun y hy hy2 => c ⟨y, hy, hy2⟩]
          simp [ho, hp]
        · cases hpk : p k
          · rfl
          · exact absurd ⟨k, List.mem_filter.2 ⟨List.mem_range.2 hk, hk2⟩, hpk⟩ c

/-- The smallest element of a list is its lowest. -/
theorem lowest_eq (L : List Nat) (l : Nat) (hm : l ∈ L) (hle : ∀ x ∈ L, l ≤ x) : lowest L = l := by
  have key : ∀ (M : List Nat) (a : Nat), (∀ x ∈ M, l ≤ x) → l ≤ a → l ∈ a :: M → M.foldl min a = l := by
    intro M
    induction M with
    | nil => intro a _ _ h; exact (List.mem_singleton.1 h).symm
    | cons x t ih =>
      intro a hM ha h
      have hx := hM x (List.mem_cons_self ..)
      refine ih (min a x) (fun y hy => hM y (List.mem_cons_of_mem _ hy)) (Nat.le_min.2 ⟨ha, hx⟩) ?_
      rcases List.mem_cons.1 h with h | h
      · rw [← h, Nat.min_eq_left hx]; exact List.mem_cons_self ..
      · rcases List.mem_cons.1 h with h | h
        · rw [← h, Nat.min_eq_right ha]; exact List.mem_cons_self ..
        · exact List.mem_cons_of_mem _ h
  cases L with
  | nil => cases hm
  | cons a M => exact key (a :: M) a hle (hle a (List.mem_cons_self ..)) (List.mem_cons_of_mem _ hm)

theorem vFlags_on (s : State) (i : Instr) (on : Nat → Bool) (fl : Nat → Nat) (f : Nat → State)
    (he : exec i s = .next (s.vFlags (((List.range 128).filter on).map fun l => (l, fl l)) f)) : LaneTraps s i on fl := by
  intro h
  obtain h0 | h0 := enabled_foldl s fl _ _ h
  · simp [Enabled] at h0
  obtain ⟨l, e, h1, h2, h3⟩ := find_lowest on (fun l => Enabled s (fl l)) 128 h0
  refine ⟨_, l, h1, h2, h3, he, ?_⟩
  have e1 : (((List.range 128).filter on).map fun l => (l, fl l)).foldl (fun a x => a ||| x.2) 0 = orOver on fl := List.foldl_map ..
  have e2 : lowest (((((List.range 128).filter on).map fun l => (l, fl l)).filter fun x => decide (enabledFlags s.lat.iss.fpcr x.2 ≠ 0)).map
      (·.1)) = l := by
    refine lowest_eq _ _ (List.mem_map.2 ⟨(l, fl l), List.mem_filter.2 ⟨List.mem_map.2 ⟨l, List.mem_of_find?_eq_some e, rfl⟩, ?_⟩, rfl⟩) ?_
    · exact decide_eq_true ((enabled_iff ..).1 h2)
    · intro k hk
      obtain ⟨x, hx, rfl⟩ := List.mem_map.1 hk
      obtain ⟨hx, hp⟩ := List.mem_filter.1 hx
      obtain ⟨y, hy, rfl⟩ := List.mem_map.1 hx
      by_contra c
      have := h3 y (Nat.lt_of_not_le c) (List.mem_filter.1 hy).2
      rw [(enabled_iff ..).2 (of_decide_eq_true hp)] at this
      cases this
  unfold State.vFlags
  dsimp only
  rw [e1, e2]
  have : enabledFlags s.lat.iss.fpcr (orOver on fl) ≠ 0 := (enabled_iff ..).1 h
  exact (congrArg (fun t => Faults s t 0x0F _) (if_pos this)).mpr (faults_raise ..)

/-- The write that ends the frame. -/
theorem writesLanes_wv (s : State) (d : BitVec 6) (hd : d.toNat < 48) (srcs : List (Fin 3 × BitVec 6)) (on : Nat → Bool) (f : Nat → Nat) (fl : Nat) :
    WritesLanes s (({ s with c := { s.c with latch := latched s srcs, fpsr := s.c.fpsr ||| BitVec.ofNat 64 (fl % 128) } } : State).wv d
      (blendBits (lanesMask ((List.range 128).filter on)) (lanesValue (((List.range 128).filter on).map fun l => (l, f l))) (s.c.rv d.toNat)))
      d srcs on f fl := by
  refine ⟨fun l hl => ?_, fun r hr hn => ?_, rfl, ?_, rfl, fun _ _ => rfl⟩
  · rw [State.wv, State.write, Ctx.rv_wv_same _ _ _ hd, lane_blend _ _ _ _ _ hl]
    simp only [hl, true_and]
  · exact Ctx.rv_wv_ne _ _ _ _ hn
  · unfold State.wv State.write Ctx.wv
    simp only [hd, dif_pos]

/-- An operation of slot V with registers for operands: the frame of R132. -/
theorem laneOp_frame {s : State} {i : Instr} {d : BitVec 6} {srcs : List (Fin 3 × BitVec 6)} {w : BitVec 2} {m : BitVec 3}
    {op : VRead → Nat → Nat × Fl} (f : Nat → Nat × Fl) (h : VReady s w (d :: srcs.map (·.2)))
    (he : exec i s = .next (s.laneOp d srcs w m op))
    (hf : ∀ l, op { s := s, ports := s.c.port, vals := srcs.map (fun x => s.c.rv x.2.toNat), latch := latched s srcs, fls := [], takes := [] } l = f l) :
    LaneOp s i d srcs (LaneOn s w m) f := by
  have hd : d.toNat < 48 := (h.2 d (List.mem_cons_self ..)).1
  have hs : ∀ x ∈ srcs, x.2.toNat < 48 := fun x hx => (h.2 x.2 (List.mem_cons_of_mem _ (List.mem_map_of_mem hx))).1
  have hw : (w == 3 || decide (56 ≤ d.toNat)) = false := by
    rw [Bool.or_eq_false_iff]; exact ⟨beq_eq_false_iff_ne.2 h.1, decide_eq_false (by omega)⟩
  have e : s.laneOp d srcs w m op =
      s.vFlags (((List.range 128).filter (LaneOn s w m)).map fun l => (l, (f l).2)) fun fl =>
        ({ s := s, ports := s.c.port, vals := srcs.map (fun x => s.c.rv x.2.toNat), latch := latched s srcs, fls := [], takes := [] } : VRead).finish d
          (lanesMask ((List.range 128).filter (LaneOn s w m)))
          (lanesValue (((List.range 128).filter (LaneOn s w m)).map fun l => (l, (f l).1))) fl := by
    unfold State.laneOp State.vIssue
    rw [hw, lent_false h]
    simp only [Bool.false_eq_true, if_false, vRead_registers s srcs hs, active_eq s w m h.1, funext hf, List.map_map, Function.comp_def,
      VRead.destination, VRead.portFlags, List.append_nil, hd, if_true]
  rw [e] at he
  refine ⟨vFlags_on s i _ _ _ he, fun h0 => ⟨_, he, ?_⟩⟩
  rw [vFlags_off _ _ _ _ h0]
  unfold VRead.finish
  rw [if_pos hd]
  exact writesLanes_wv s d hd srcs _ _ _

end Sys2Proof.Laws
end

