-- ==== Sys2Proof/Tests/Slice0.lean ====
section
/-! SUPPORT. Tests: ill-formed operations, words written out from the encoding tables and examples of the manual, single steps from the manual's examples, and for each statement a state and operands that meet its hypotheses. -/

namespace Sys2Proof.Tests
set_option Elab.async false
open Sys2Proof Machine Claims

/-! ## Ill-formed operations are refused, one for each check of WellFormed -/

theorem test_ill_formed_slot_c :
    Instr.wf (.sext 1 2 3 0) = false ∧ Instr.wf (.zext 1 2 3 0) = false ∧ Instr.wf (.cmp 1 2 3 0 6) = false ∧
    Instr.wf (.cmpi 1 6 2 0) = false ∧ Instr.wf (.fcmpD 1 2 3 0 4) = false ∧ Instr.wf (.xcV 1 48 0) = false ∧
    Instr.wf (.xcM 1 0 0 2) = false ∧ Instr.wf (.xcM 1 1 4 0) = false ∧ Instr.wf (.xcM 1 2 0 0) = false ∧
    Instr.wf (.srd 1 0x00F) = false ∧ Instr.wf (.swr 1 0x018) = false ∧ Instr.wf (.srd 1 0x030) = false ∧ Instr.wf (.swr 1 0x080) = false ∧
    Instr.wf (.fence 0 1) = false ∧ Instr.wf (.fence 1 0) = false ∧ Instr.wf (.fence 16 1) = false ∧ Instr.wf (.fence 1 16) = false ∧
    Instr.wf (.drain 5 0) = false ∧ Instr.wf (.spawn 1 2 3 0) = false ∧ Instr.wf (.spawn 1 2 3 28) = false ∧
    Instr.wf (.seg 0 0 3) = false ∧ Instr.wf (.seg 1 0 0) = false ∧ Instr.wf (.seg 1 1 1) = false := by decide

theorem test_ill_formed_slot_v :
    Instr.wf (.vadd 1 2 3 3 0 0) = false ∧ Instr.wf (.vadd 56 2 3 2 0 0) = false ∧ Instr.wf (.vcmp 1 2 3 3 0 0) = false ∧
    Instr.wf (.vaddx 48 2 4 2 0 0) = false ∧ Instr.wf (.dwadd 2 48 4 2 0 0) = false ∧ Instr.wf (.dwadd 2 4 48 2 0 0) = false ∧
    Instr.wf (.dwnorm 2 48 2 0 0) = false ∧ Instr.wf (.vsum 48 2 2 0 0) = false ∧ Instr.wf (.viadd 1 2 3 2 0 3) = false ∧
    Instr.wf (.vimad 1 2 3 2 0 2) = false ∧ Instr.wf (.vshl 1 2 32 2 0 1) = false ∧ Instr.wf (.vmand 1 2 3 3) = false ∧
    Instr.wf (.vperm 56 2 3 0) = false ∧ Instr.wf (.xcX 48 1 2 0) = false ∧ Instr.wf (.xcXl 48 1 0) = false ∧
    Instr.evenOk (.vaddx 3 2 4 2 0 0) = false ∧ Instr.evenOk (.dwadd 2 5 4 2 0 0) = false ∧ Instr.evenOk (.dwadd 2 4 7 2 0 0) = false := by
  decide

theorem test_ill_formed_slots_m_and_t :
    Instr.wf (.mdset 1 11 0) = false ∧ Instr.wf (.xcXMatrix 0 1 0 2) = false ∧ Instr.wf (.xcXMatrix 4 1 1 0) = false ∧
    Instr.wf (.xcXMatrix 4 1 2 0) = false ∧ Instr.wf (.xcXMatrix 0 1 2 1) = false ∧ Instr.wf (.xcXMatrix 0 1 3 0) = false ∧
    Instr.wf (.vld 48 1 2 2 0) = false ∧ Instr.wf (.vld 1 1 2 3 0) = false ∧ Instr.wf (.shift 0 3 1 2 3 4) = false ∧
    Instr.wf (.xcXAddress 0 1 2 1) = false := by decide

/-- Words that no operation has: opcode 0 with other bits set, an illegal opcode, an illegal selector, a reserved bit, an
operand field outside its limits, and header kind 2 (02 R38, R39, R59, 00 R10). -/
theorem test_illegal_words :
    decodeSlot .c 0x00000001 = .error .zeroOpcode ∧ decodeSlot .c 0x34000000 = .error .unassignedOpcode ∧
    decodeSlot .c 0x04000017 = .error .unassignedFields ∧ decodeSlot .v 0x08400060 = .error .illFormed ∧
    decodeSlot .m 0x45020021 = .error .unassignedFields ∧ decodeSlot0 0xF8000000 = .error .headerKind :=
  ⟨rfl, rfl, rfl, rfl, rfl, rfl⟩

/-! ## Words written out from the encoding tables: for each operation its constant bits and one value of each field -/

theorem test_decode_integer_and_compare :
  decodeSlot .c 0xF5D0E9EF = .ok (.hrep 464 14 9 14 15) ∧ decodeSlot .c 0x072F7D00 = .ok (.add 25 15 15 5) ∧
  decodeSlot .c 0x07933A01 = .ok (.sub 28 19 7 2) ∧ decodeSlot .c 0x07518602 = .ok (.mul 26 17 16 6) ∧
  decodeSlot .c 0x069A3103 = .ok (.mulh 20 26 6 1) ∧ decodeSlot .c 0x05EA2904 = .ok (.mulhn 15 10 5 1) ∧
  decodeSlot .c 0x065AEE05 = .ok (.div 18 26 29 6) ∧ decodeSlot .c 0x06A2A406 = .ok (.divn 21 2 20 4) ∧
  decodeSlot .c 0x07EFAE07 = .ok (.rem 31 15 21 6) ∧ decodeSlot .c 0x06953508 = .ok (.remn 20 21 6 5) ∧
  decodeSlot .c 0x043B8909 = .ok (.and 1 27 17 1) ∧ decodeSlot .c 0x04423A0A = .ok (.or 2 2 7 2) ∧ decodeSlot .c 0x0681CC0B = .ok (.xor 20 1 25 4) ∧
  decodeSlot .c 0x056F9F0C = .ok (.shl 11 15 19 7) ∧ decodeSlot .c 0x04F1460D = .ok (.shr 7 17 8 6) ∧
  decodeSlot .c 0x05500E0E = .ok (.sar 10 16 1 6) ∧ decodeSlot .c 0x046FAB0F = .ok (.min 3 15 21 3) ∧
  decodeSlot .c 0x05D2F710 = .ok (.max 14 18 30 7) ∧ decodeSlot .c 0x04774B11 = .ok (.minn 3 23 9 3) ∧
  decodeSlot .c 0x07288B12 = .ok (.maxn 25 8 17 3) ∧ decodeSlot .c 0x04230513 = .ok (.clz 1 3 5) ∧ decodeSlot .c 0x07240414 = .ok (.popc 25 4 4) ∧
  decodeSlot .c 0x049C1415 = .ok (.sext 4 28 2 4) ∧ decodeSlot .c 0x047F0F16 = .ok (.zext 3 31 1 7) ∧
  decodeSlot .c 0x0AC136A9 = .ok (.addi 22 1 13993) ∧ decodeSlot .c 0x0CFEE908 = .ok (.andi 7 30 59656) ∧
  decodeSlot .c 0x1050601F = .ok (.ori 2 16 24607) ∧ decodeSlot .c 0x16ED6B78 = .ok (.xori 23 13 27512) ∧
  decodeSlot .c 0x18730029 = .ok (.shli 3 19 41) ∧ decodeSlot .c 0x18F9402C = .ok (.shri 7 25 44) ∧ decodeSlot .c 0x192B8006 = .ok (.sari 9 11 6) ∧
  decodeSlot .c 0x1D4AA48B = .ok (.li 10 697483) ∧ decodeSlot .c 0x2022C20F = .ok (.lih 1 2 49679) ∧
  decodeSlot .c 0x24254605 = .ok (.cmp 1 5 8 6 5) ∧ decodeSlot .c 0x28C087AB = .ok (.cmpi 1 4 1 1963) ∧
  decodeSlot .c 0x2DFA82C0 = .ok (.sel 15 26 16 2 6) ∧ decodeSlot .c 0x32A80500 = .ok (.kand 5 2 4 5) ∧
  decodeSlot .c 0x316E0201 = .ok (.kor 2 6 7 2) ∧ decodeSlot .c 0x32680102 = .ok (.kxor 4 6 4 1) ∧ decodeSlot .c 0x32400203 = .ok (.knot 4 4 2) ∧
  decodeSlot .c 0x4029E718 = .ok (.faddD 1 9 28 7 3) ∧ decodeSlot .c 0x415D0A09 = .ok (.fsubD 10 29 1 2 1) ∧
  decodeSlot .c 0x41BCA61A = .ok (.fmulD 13 28 20 6 3) ∧ decodeSlot .c 0x40822A13 = .ok (.fdivD 4 2 5 2 2) ∧
  decodeSlot .c 0x4121CD04 = .ok (.fminD 9 1 25 5) ∧ decodeSlot .c 0x417B5405 = .ok (.fmaxD 11 27 10 4) ∧
  decodeSlot .c 0x44630108 = .ok (.fsqrtD 3 3 1 1) ∧ decodeSlot .c 0x4A7541A2 = .ok (.ffmaD 19 21 8 1 20 2) ∧
  decodeSlot .c 0x4C747A03 = .ok (.fcmpD 3 20 15 2 3) ∧ decodeSlot .c 0x53F30418 = .ok (.fcvtDI 31 19 4 3) ∧
  decodeSlot .c 0x50BC0409 = .ok (.fcvtDN 5 28 4 1) ∧ decodeSlot .c 0x52A5030A = .ok (.fcvtID 21 5 3 1) ∧
  decodeSlot .c 0x5374021B = .ok (.fcvtND 27 20 2 3) := 
  ⟨rfl, rfl, rfl, rfl, rfl, rfl, rfl, rfl, rfl, rfl, rfl, rfl, rfl, rfl, rfl, rfl, rfl, rfl, rfl, rfl, rfl, rfl, rfl, rfl, rfl,
   rfl, rfl, rfl, rfl, rfl, rfl, rfl, rfl, rfl, rfl, rfl, rfl, rfl, rfl, rfl, rfl, rfl, rfl, rfl, rfl, rfl, rfl, rfl, rfl, rfl,
   rfl, rfl, rfl⟩

theorem test_decode_control_and_system :
  decodeSlot .c 0x50E60604 = .ok (.fcvtDS 7 6 6) ∧ decodeSlot .c 0x52BF050D = .ok (.fcvtSD 21 31 5 1) ∧
  decodeSlot .c 0x62BF761D = .ok (.br 46102045) ∧ decodeSlot .c 0x6670EB99 = .ok (.brk 4 7400345) ∧
  decodeSlot .c 0x6A4D409C = .ok (.brnk 4 5062812) ∧ decodeSlot .c 0x6C6E0100 = .ok (.jr 3 14 1) ∧ decodeSlot .c 0x706A54F4 = .ok (.call 6968564) ∧
  decodeSlot .c 0x74000100 = .ok (.ret 1) ∧ decodeSlot .c 0x78506539 = .ok (.loop 2 1074489) ∧ decodeSlot .c 0x83F5A100 = .ok (.xcV 31 43 33) ∧
  decodeSlot .c 0x85180000 = .ok (.xcA 8 12) ∧ decodeSlot .c 0x8AEBE000 = .ok (.xcM 23 1 3 14) ∧ decodeSlot .c 0x8DA20000 = .ok (.xcG 13 2) ∧
  decodeSlot .c 0x91DD0000 = .ok (.xcH 14 14 1) ∧ decodeSlot .c 0x95408E00 = .ok (.srd 10 71) ∧ decodeSlot .c 0x9A202A00 = .ok (.swr 17 21) ∧
  decodeSlot .c 0xA0CF2FFC = .ok (.wait 12 60 47 63) ∧ decodeSlot .c 0xA6118000 = .ok (.fence 33 6) ∧ decodeSlot .c 0xAA200000 = .ok (.drain 4 1) ∧
  decodeSlot .c 0xC0A886C0 = .ok (.spawn 5 8 16 27) ∧ decodeSlot .c 0xC4120004 = .ok (.suspend 18 1) ∧ decodeSlot .c 0xC4000001 = .ok .yield ∧
  decodeSlot .c 0xC4000002 = .ok .retire ∧ decodeSlot .c 0xC927F000 = .ok (.join 9 7 30) ∧ decodeSlot .c 0xC8000001 = .ok .leave ∧
  decodeSlot .c 0xCBC00002 = .ok (.cbar 30) ∧ decodeSlot .c 0xCD320000 = .ok (.seg 4 12 2) ∧ decodeSlot .c 0xCC000001 = .ok .sege ∧
  decodeSlot .c 0xD010FC00 = .ok (.trap 1087) ∧ decodeSlot .c 0xD0000001 = .ok .rte ∧ decodeSlot .c 0xD0000002 = .ok .halt ∧
  decodeSlot .c 0xD4690000 = .ok (.scan 3 9) ∧ decodeSlot .c 0xD5CF4001 = .ok (.cmap 14 15 8) ∧ decodeSlot .c 0xD8100000 = .ok (.pmonStart 1) ∧
  decodeSlot .c 0xD9100000 = .ok (.pmonStop 1) ∧ decodeSlot .c 0xDA300000 = .ok (.pmonClr 3) ∧ decodeSlot .c 0xDB500000 = .ok (.pmonClrstart 5) ∧
  decodeSlot .c 0xDD910000 = .ok (.diagInjFlip 12 17) ∧ decodeSlot .c 0xDE652000 = .ok (.diagInjCerr 19 5) ∧
  decodeSlot .c 0xDC6C4000 = .ok (.diagInjPoison 3 12) ∧ decodeSlot .c 0xDCBD6000 = .ok (.diagInjTpoison 5 29) ∧
  decodeSlot .c 0xDDEB8000 = .ok (.diagInjStrike 15 11) := 
  ⟨rfl, rfl, rfl, rfl, rfl, rfl, rfl, rfl, rfl, rfl, rfl, rfl, rfl, rfl, rfl, rfl, rfl, rfl, rfl, rfl, rfl, rfl, rfl, rfl, rfl,
   rfl, rfl, rfl, rfl, rfl, rfl, rfl, rfl, rfl, rfl, rfl, rfl, rfl, rfl, rfl, rfl, rfl⟩

theorem test_decode_vector_float :
  decodeSlot .v 0x0375D735 = .ok (.vadd 46 46 46 1 5 1) ∧ decodeSlot .v 0x0414CB45 = .ok (.vsub 2 38 22 2 1 1) ∧
  decodeSlot .v 0x0765C147 = .ok (.vmul 44 46 2 2 1 3) ∧ decodeSlot .v 0x08B2C526 = .ok (.vfma 22 22 10 1 1 2) ∧
  decodeSlot .v 0x0B62D73B = .ok (.vfms 44 22 46 1 6 3) ∧ decodeSlot .v 0x0D714B47 = .ok (.vfnma 46 10 22 2 1 3) ∧
  decodeSlot .v 0x0F30533E = .ok (.vdiv 38 2 38 1 7 2) ∧ decodeSlot .v 0x11604053 = .ok (.vsqrt 44 2 2 4 3) ∧
  decodeSlot .v 0x12158025 = .ok (.vrcp 2 44 1 1 1) ∧ decodeSlot .v 0x15704053 = .ok (.vrsq 46 2 2 4 3) ∧
  decodeSlot .v 0x16B4D750 = .ok (.vmin 22 38 46 2 4) ∧ decodeSlot .v 0x1935812C = .ok (.vmax 38 44 2 1 3) ∧
  decodeSlot .v 0x1B604044 = .ok (.vabs 44 2 2 1) ∧ decodeSlot .v 0x1C55C030 = .ok (.vneg 10 46 1 4) ∧
  decodeSlot .v 0x1E3D974D = .ok (.vcmp 7 44 46 2 3 1) ∧ decodeSlot .v 0x20B2C534 = .ok (.vsel 22 22 10 1 5) ∧
  decodeSlot .v 0x2252C050 = .ok (.vclass 10 22 2 4) ∧ decodeSlot .v 0x2452D34B = .ok (.vaddH 10 22 38 2 2 3) ∧
  decodeSlot .v 0x2731454B = .ok (.vsubH 38 10 10 2 2 3) ∧ decodeSlot .v 0x28B14532 = .ok (.vmulH 22 10 10 1 4 2) ∧
  decodeSlot .v 0x2A15C15D = .ok (.vfmaH 2 46 2 2 7 1) ∧ decodeSlot .v 0x2C14D34A = .ok (.vfmsH 2 38 38 2 2 2) ∧
  decodeSlot .v 0x2F35D65A = .ok (.vfnmaH 38 46 44 2 6 2) ∧ decodeSlot .v 0x31759344 = .ok (.vminH 46 44 38 2 1) ∧
  decodeSlot .v 0x3212D638 = .ok (.vmaxH 2 22 44 1 6) ∧ decodeSlot .v 0x3572C04C = .ok (.vabsH 46 22 2 3) ∧
  decodeSlot .v 0x37758038 = .ok (.vnegH 46 44 1 6) ∧ decodeSlot .v 0x3864C53E = .ok (.vcmpH 1 4 38 10 1 7 2) ∧
  decodeSlot .v 0x3A514130 = .ok (.vselH 10 10 2 1 4) ∧ decodeSlot .v 0x3C15D647 = .ok (.vaddB 2 46 44 2 1 3) ∧
  decodeSlot .v 0x3E51534B = .ok (.vsubB 10 10 38 2 2 3) ∧ decodeSlot .v 0x4014D629 = .ok (.vmulB 2 38 44 1 2 1) ∧
  decodeSlot .v 0x42B2D633 = .ok (.vfmaB 22 22 44 1 4 3) ∧ decodeSlot .v 0x4450534A = .ok (.vfmsB 10 2 38 2 2 2) ∧
  decodeSlot .v 0x47315733 = .ok (.vfnmaB 38 10 46 1 4 3) ∧ decodeSlot .v 0x4965D650 = .ok (.vminB 44 46 44 2 4) ∧
  decodeSlot .v 0x4AB5C538 = .ok (.vmaxB 22 46 10 1 6) ∧ decodeSlot .v 0x4D75C028 = .ok (.vabsB 46 46 1 2) ∧
  decodeSlot .v 0x4E54C02C = .ok (.vnegB 10 38 1 3) ∧ decodeSlot .v 0x505DC155 = .ok (.vcmpB 1 3 46 2 2 5 1) ∧
  decodeSlot .v 0x5214CB5C = .ok (.vselB 2 38 22 2 7) ∧ decodeSlot .v 0x60B4C13D = .ok (.vaddx 22 38 2 1 7 1) ∧
  decodeSlot .v 0x63304559 = .ok (.vsubx 38 2 10 2 6 1) ∧ decodeSlot .v 0x65315653 = .ok (.vmulx 38 10 44 2 4 3) := 
  ⟨rfl, rfl, rfl, rfl, rfl, rfl, rfl, rfl, rfl, rfl, rfl, rfl, rfl, rfl, rfl, rfl, rfl, rfl, rfl, rfl, rfl, rfl, rfl, rfl, rfl,
   rfl, rfl, rfl, rfl, rfl, rfl, rfl, rfl, rfl, rfl, rfl, rfl, rfl, rfl, rfl, rfl, rfl, rfl, rfl⟩

theorem test_decode_vector_pair_integer_convert :
  decodeSlot .v 0x67704557 = .ok (.dwadd 46 2 10 2 5 3) ∧ decodeSlot .v 0x68B5D637 = .ok (.dwsub 22 46 44 1 5 3) ∧
  decodeSlot .v 0x6B62CB5F = .ok (.dwmul 44 22 22 2 7 3) ∧ decodeSlot .v 0x6C52C556 = .ok (.dwdiv 10 22 10 2 5 2) ∧
  decodeSlot .v 0x6E54C035 = .ok (.dwnorm 10 38 1 5 1) ∧ decodeSlot .v 0x7164C035 = .ok (.vsum 44 38 1 5 1) ∧
  decodeSlot .v 0x7364C031 = .ok (.vsumx 44 38 1 4 1) ∧ decodeSlot .v 0x75714034 = .ok (.vmaxr 46 10 1 5) ∧
  decodeSlot .v 0x7734C04C = .ok (.vminr 38 38 2 3) ∧ decodeSlot .v 0x8054D32D = .ok (.viadd 10 38 38 1 3 1) ∧
  decodeSlot .v 0x8334D645 = .ok (.visub 38 38 44 2 1 1) ∧ decodeSlot .v 0x8454D62D = .ok (.vimul 10 38 44 1 3 1) ∧
  decodeSlot .v 0x8655C129 = .ok (.vimad 10 46 2 1 2 1) ∧ decodeSlot .v 0x8851414C = .ok (.vand 10 10 2 2 3) ∧
  decodeSlot .v 0x8B72C544 = .ok (.vor 46 22 10 2 1) ∧ decodeSlot .v 0x8D35D63C = .ok (.vxor 38 46 44 1 7) ∧
  decodeSlot .v 0x8F658058 = .ok (.vnot 44 44 2 6) ∧ decodeSlot .v 0x9055CEC5 = .ok (.vshl 10 46 29 2 1 1) ∧
  decodeSlot .v 0x9374CEB5 = .ok (.vshr 46 38 29 1 5 1) ∧ decodeSlot .v 0x95758EB5 = .ok (.vsar 46 44 29 1 5 1) ∧
  decodeSlot .v 0x963D962B = .ok (.vicmp 7 44 44 1 2 3) ∧ decodeSlot .v 0x9830E1A0 = .ok (.vmand 6 7 3 1) ∧
  decodeSlot .v 0x9A18A1A0 = .ok (.vmor 3 5 3 1) ∧ decodeSlot .v 0x9C10E120 = .ok (.vmxor 2 7 2 1) ∧ decodeSlot .v 0x9E104020 = .ok (.vmnot 2 2 1) ∧
  decodeSlot .v 0xB17042C6 = .ok (.vcvtPack 46 2 5 2 1 2) ∧ decodeSlot .v 0xB1358EAA = .ok (.vcvtUnpack 38 44 13 1 2 2) ∧
  decodeSlot .v 0xB375C12B = .ok (.vscl 46 46 2 1 2 3) ∧ decodeSlot .v 0xB572C047 = .ok (.vexp2 46 22 2 1 3) ∧
  decodeSlot .v 0xB765C057 = .ok (.vlog2 44 46 2 5 3) ∧ decodeSlot .v 0xB8504045 = .ok (.vtanh 10 2 2 1 1) ∧
  decodeSlot .v 0xD0159658 = .ok (.vperm 2 44 44 44) ∧ decodeSlot .v 0xD2000000 = .ok .vpsw ∧ decodeSlot .v 0xD564C529 = .ok (.vrot 44 38 10 1 2 1) ∧
  decodeSlot .v 0xD6514559 = .ok (.vbcl 10 10 10 2 6 1) ∧ decodeSlot .v 0xE1608038 = .ok (.xcX 44 2 1 6) ∧
  decodeSlot .v 0xE330F100 = .ok (.xcXl 38 3 98) := 
  ⟨rfl, rfl, rfl, rfl, rfl, rfl, rfl, rfl, rfl, rfl, rfl, rfl, rfl, rfl, rfl, rfl, rfl, rfl, rfl, rfl, rfl, rfl, rfl, rfl, rfl,
   rfl, rfl, rfl, rfl, rfl, rfl, rfl, rfl, rfl, rfl, rfl, rfl⟩

theorem test_decode_matrix :
  decodeSlot .m 0x04D029D6 = .ok (.mdset 1 10 10710) ∧ decodeSlot .m 0x0A003BC6 = .ok (.mdld 4 15302) ∧
  decodeSlot .m 0x0E0041F5 = .ok (.mdst 4 16885) ∧ decodeSlot .m 0x10060000 = .ok (.mbld 3) ∧ decodeSlot .m 0x16000000 = .ok (.mzero 4) ∧
  decodeSlot .m 0x19560003 = .ok (.moutm 2 5 3 1 1) ∧ decodeSlot .m 0x1C000000 = .ok .blend0 ∧ decodeSlot .m 0x1C000001 = .ok .blend1 ∧
  decodeSlot .m 0x1C000002 = .ok .blend2 ∧ decodeSlot .m 0x1C000003 = .ok .blend3 ∧ decodeSlot .m 0x1C000004 = .ok .blend4 ∧
  decodeSlot .m 0x1C000005 = .ok .blend5 ∧ decodeSlot .m 0x20000000 = .ok .bret0 ∧ decodeSlot .m 0x20000001 = .ok .bret1 ∧
  decodeSlot .m 0x20000002 = .ok .bret2 ∧ decodeSlot .m 0x20000003 = .ok .bret3 ∧ decodeSlot .m 0x20000004 = .ok .bret4 ∧
  decodeSlot .m 0x20000005 = .ok .bret5 ∧ decodeSlot .m 0x43A50001 = .ok (.mma 7 2 2 2 1) ∧ decodeSlot .m 0x45E70001 = .ok (.mmaCk 3 6 3 2 1) ∧
  decodeSlot .m 0x82800017 = .ok (.mlu 5 1 1 3) ∧ decodeSlot .m 0x87800006 = .ok (.mchol 7 1 2) ∧ decodeSlot .m 0x8880000F = .ok (.mqr 1 3 3) ∧
  decodeSlot .m 0x8E5001FC = .ok (.mtrsm 4 5 1 1 1 1 1 3) ∧ decodeSlot .m 0x93003272 = .ok (.mperm 6 100 1 1 1 2) ∧
  decodeSlot .m 0x9400071F = .ok (.mpiv 113 3 3) ∧ decodeSlot .m 0xC1B04000 = .ok (.xcXMatrix 3 12 2 0) := 
  ⟨rfl, rfl, rfl, rfl, rfl, rfl, rfl, rfl, rfl, rfl, rfl, rfl, rfl, rfl, rfl, rfl, rfl, rfl, rfl, rfl, rfl, rfl, rfl, rfl, rfl,
   rfl, rfl⟩

theorem test_decode_address_and_access :
  decodeSlot .t 0x03AED000 = .ok (.adda 13 7 13) ∧ decodeSlot .t 0x026F34F3 = .ok (.addaImmediate 3 7 13555) ∧
  decodeSlot .t 0x05862000 = .ok (.suba 12 3 2) ∧ decodeSlot .t 0x05AD4D3C = .ok (.subaImmediate 13 6 19772) ∧
  decodeSlot .t 0x07041000 = .ok (.shla 8 2 1) ∧ decodeSlot .t 0x07ED0029 = .ok (.shlaImmediate 15 6 41) ∧
  decodeSlot .t 0x09F3F7FA = .ok (.lia 15 1308666) ∧ decodeSlot .t 0x0A28B6A0 = .ok (.hder 1 4 5 11 10) ∧ decodeSlot .t 0x0CC00000 = .ok (.hnul 6) ∧
  decodeSlot .t 0x0E96F23A = .ok (.hld 4 11 7 4666) ∧ decodeSlot .t 0x10724C78 = .ok (.hst 3 9 2 3192) ∧ decodeSlot .t 0x12000000 = .ok .scinv ∧
  decodeSlot .t 0x1398B000 = .ok (.scinvRange 9 8 11) ∧ decodeSlot .t 0x14985000 = .ok (.bcfl 4 12 2 1) ∧
  decodeSlot .t 0x21312C6F = .ok (.ld 19 1 2 3 111) ∧ decodeSlot .t 0x2384599C = .ok (.ldn 24 4 5 2 412) ∧
  decodeSlot .t 0x2511D698 = .ok (.st 17 1 13 1 664) ∧ decodeSlot .t 0x27789481 = .ok (.vld 47 1 2 2 129) ∧
  decodeSlot .t 0x294FB5F0 = .ok (.vst 41 15 6 2 496) ∧ decodeSlot .t 0x2A4DC6A0 = .ok (.vlds 9 11 8 13 1) ∧
  decodeSlot .t 0x2C4BF9C0 = .ok (.vsts 9 7 15 3 2) ∧ decodeSlot .t 0x2F79F44A = .ok (.vgth 47 3 14 8 9 1) ∧
  decodeSlot .t 0x317C3ACC = .ok (.vsct 47 8 7 5 9 2) ∧ decodeSlot .t 0x32A2B693 = .ok (.cld 20 5 6 3 147) ∧
  decodeSlot .t 0x33BED6AA = .ok (.cldVector 47 11 5 2 170) ∧ decodeSlot .t 0x34BE2A08 = .ok (.cst 23 12 5 1 8) ∧
  decodeSlot .t 0x355A8569 = .ok (.cstVector 22 10 1 1 105) ∧ decodeSlot .t 0x3778FD80 = .ok (.tvld 47 1 15 2 384) ∧
  decodeSlot .t 0x3978D426 = .ok (.tvst 47 1 10 2 38) ∧ decodeSlot .t 0x61FD0000 = .ok (.pcfg 7 15 4) ∧ decodeSlot .t 0x63300000 = .ok (.pgo 4 6) ∧
  decodeSlot .t 0x65000000 = .ok (.pstop 4) ∧ decodeSlot .t 0x66BA8060 = .ok (.pld 5 13 16 3) ∧
  decodeSlot .t 0x8125FB9E = .ok (.copy 9 2 15 13 12 1 1 1 1) := 
  ⟨rfl, rfl, rfl, rfl, rfl, rfl, rfl, rfl, rfl, rfl, rfl, rfl, rfl, rfl, rfl, rfl, rfl, rfl, rfl, rfl, rfl, rfl, rfl, rfl, rfl,
   rfl, rfl, rfl, rfl, rfl, rfl, rfl, rfl, rfl⟩

theorem test_decode_transfer_atomic_system :
  decodeSlot .t 0x82200000 = .ok (.copyq 1) ∧ decodeSlot .t 0x83500000 = .ok (.copyqSt 10) ∧ decodeSlot .t 0x84000000 = .ok .cancel ∧
  decodeSlot .t 0x86F049C0 = .ok (.wstr 7 8 2 4 14) ∧ decodeSlot .t 0x882D2640 = .ok (.frfl 1 6 9 3 2) ∧
  decodeSlot .t 0x8B5076E0 = .ok (.shift 2 2 8 3 11 7) ∧ decodeSlot .t 0x8D14B740 = .ok (.reduce 8 10 5 11 10) ∧
  decodeSlot .t 0xA01B9B71 = .ok (.atmAdd 3 14 6 13 24 1) ∧ decodeSlot .t 0xA0360D21 = .ok (.atmFadd 2 24 3 4 16 1) ∧
  decodeSlot .t 0xA05F5763 = .ok (.atmMin 3 29 5 13 17 1) ∧ decodeSlot .t 0xA0726AF1 = .ok (.atmMax 2 9 10 11 24 1) ∧
  decodeSlot .t 0xA09A750F = .ok (.atmAnd 3 9 13 4 7 1) ∧ decodeSlot .t 0xA0BD7D3B = .ok (.atmOr 3 21 15 4 29 1) ∧
  decodeSlot .t 0xA0D88553 = .ok (.atmXor 3 2 1 5 9 1) ∧ decodeSlot .t 0xA0ED0491 = .ok (.atmXchg 1 20 1 2 8 1) ∧
  decodeSlot .t 0xA10E4BED = .ok (.atmCas 1 25 2 15 22 1) ∧ decodeSlot .t 0xA13A2DA1 = .ok (.atmInc 3 8 11 6 16 1) ∧
  decodeSlot .t 0xA2031196 = .ok (.bobInit 12 4 6 11) ∧ decodeSlot .t 0xA40430C0 = .ok (.bobArr 16 12 3) ∧
  decodeSlot .t 0xA606F8B4 = .ok (.bobWait 27 14 2 26) ∧ decodeSlot .t 0xA851A000 = .ok (.tsetf 2 8 13) ∧
  decodeSlot .t 0xABD5C000 = .ok (.tsete 14 10 14) ∧ decodeSlot .t 0xC1A00000 = .ok (.sleepu 13) ∧ decodeSlot .t 0xC3A00000 = .ok (.tdefer 13) ∧
  decodeSlot .t 0xC490E000 = .ok (.tdead 4 8 7) ∧ decodeSlot .t 0xC78AE000 = .ok (.hdead 12 5 7) ∧
  decodeSlot .t 0xC9A6C700 = .ok (.trmw 13 3 6 3 1) ∧ decodeSlot .t 0xD02C8000 = .ok (.xcXAddress 0 5 18 0) := 
  ⟨rfl, rfl, rfl, rfl, rfl, rfl, rfl, rfl, rfl, rfl, rfl, rfl, rfl, rfl, rfl, rfl, rfl, rfl, rfl, rfl, rfl, rfl, rfl, rfl, rfl,
   rfl, rfl, rfl⟩

/-! ## States -/

/-- A bead at system level that holds h1 (class A over two strips), h2 (class W over the sixteen towers) and h3 (class G over
object 1, a megabyte of this board's HBM). -/
def bead : State :=
  let h : Vector QWord 16 := ((Vector.replicate 16 0).set 1 0x2F800000000000000000000000100000).set 2 0x1F800000007FFF800000000000800000
  let hub : Hub := { otSize := 2, otCells := [(18, 0x10), (23, 0x80), (26, 0x10), (30, 1)] }
  { c := { h := h.set 3 0x4F800001000000000000000000100000, strips := 2 }, q := { state := .active, seq := 1 }, hub := hub }

/-- The same with x(r) holding a value. -/
def withX (s : State) (r : BitVec 5) (v : DWord) : State := { s with c := s.c.wx r v }

/-- The same for x(r) as at the issue of the running bundle. -/
def withIss (s : State) (r : BitVec 5) (v : DWord) : State := { s with lat := { s.lat with iss := s.lat.iss.wx r v } }

/-- Its operation of slot C waits out the strike hold; its hold is over; its answer has come. -/
def held32 (s : State) : State := { s with q := { s.q with sending := some 0 } }
def sends (s : State) : State := { held32 s with now := 33 }
def answered (s : State) (v : DWord) : State := { s with q := { s.q with answered := some (v, 0) } }

/-- The same with a(r) holding a value. -/
def withA (s : State) (r : BitVec 4) (v : DWord) : State := { s with c := s.c.wa r v }

/-- An operation of the active bank in hand of an engine. -/
def held (id : Nat) (w : Work) : Out :=
  { id := id, bank := false, seq := 0, path := .k, ctr := .cp, issued := 0, due := 9, promise := some 9, work := w }

/-- A store that has not performed. -/
def pending : Out :=
  { id := 5, bank := false, seq := 0, path := .l, ctr := .st, issued := 0, due := 32, promise := none, work := .gstore [{ addr := 0, bytes := [1] }] 0 }

/-- The event that acts on an operation in hand. -/
def onOut (w : Work) : State := { bead with outs := [held 5 w], arg := .op 5 }

/-- An operation in a slot. -/
def slotted (slot : BitVec 2) (i : Instr) : Slotted := { instr := i, slot := slot, word := 1, addr := 0, seq := 0, ext := none, iss := {} }

/-- The state in which a word stands alone at the pc. -/
def placed (w : Nat) : State := State.reset.withFetchWord 32 w

/-- What one step of a placed word leaves. -/
def stepped (w : Nat) (f : State → Bool) : Bool :=
  match step (placed w) with
  | .next t => f t
  | .fault _ => false
  | .refused _ => false

/-! ## Single steps -/

/-- 04 Table 4-10: `li x1, 5` writes 5; the next bundle is the one after it, one cycle later. -/
theorem test_li_steps : stepped 0x1C200005 (fun t => t.c.rx 1 == 5 && t.c.pc == 16 && t.now == 1) = true := by decide +kernel

/-- 02 R45: a write to x0 is discarded. -/
theorem test_write_to_x0_is_discarded : stepped 0x1C000005 (fun t => t.c.rx 0 == 0 && t.c.pc == 16) = true := by decide +kernel

/-- 02 R56, 12 R372, Table 12-4: an illegal word traps to the vector of 0x01 with the slot and the word in sr.einfo. -/
theorem test_illegal_word_traps :
    stepped 1 (fun t => t.c.pc == 0x40 && t.c.cause == 0x301 && t.c.einfo == 0x100000000 && t.c.epc == 0 &&
      t.q.issueFrom == 10) = true := by decide +kernel

/-- 04 R108: `li x5, -1` followed by `lih x5, 0x1234, 3`. -/
theorem test_lih : (match exec (.lih 5 3 0x1234) (withX bead 5 (-1)) with
    | .next t => t.c.rx 5 == 0x1234FFFFFFFFFFFF
    | _ => false) = true := by decide +kernel

/-- 08 Table 8-10: `hder h3, h9, a1, a2, rd wr` on a G handle. -/
theorem test_hder : (match exec (.hder 3 9 1 2 0b11000)
      (withA (withA { bead with c := bead.c.wh 9 0x4F800031000000000000000000100000 } 1 0x80000) 2 0x1000) with
    | .next t => t.c.rh 3 == 0x4C000031000000080000000000001000
    | _ => false) = true := by decide +kernel

/-- 04 R105: the most negative number divided by −1, and division by 0. -/
theorem test_div_corners : (match exec (.div 1 2 3 0) (withX (withX bead 2 0x8000000000000000) 3 (-1)), exec (.div 1 2 3 0) bead with
    | .next t, .next u => t.c.rx 1 == 0x8000000000000000 && u.c.rx 1 == 0xFFFFFFFFFFFFFFFF
    | _, _ => false) = true := by decide +kernel

/-- 03 Table 3-5 to 3-7 example: 2^−70 × (1 + 2^−23) squared is 2^−140 rounded, subnormal and inexact. -/
theorem test_vmul_underflow : fpMul fp32 { mode := 0, ftz := false, daz := false } 0x1C800001 0x1C800001 = (0x00000200, 0x18) := by decide +kernel

/-! ## Witnesses: for each statement, states and operands that meet the hypotheses of each of its clauses -/

theorem witness_IntegerOperationsWriteTableResult : bead.c.rk 0 = true ∧ (withX bead 3 0).c.rx 3 = 0 := by decide +kernel

theorem witness_CompareSelectAndPredicateResults : bead.c.rk 0 = true ∧ bead.c.rk 1 = false := by decide +kernel

theorem witness_ClearGuardsAndNoOpsHaveNoEffect : bead.c.rk 7 = false ∧ Instr.wf (.add 1 2 3 7) = true ∧
    Instr.add 1 2 3 7 ∈ guarded 1 2 3 0 0 0 0 0 0 7 := by decide +kernel

/-- 1 / 0 raises dz: it is recorded where dz is not enabled and traps where it is. -/
theorem witness_ScalarFloatWritesResultAndFlags :
    let s := withX bead 2 0x3FF0000000000000
    s.c.rk 0 = true ∧ Enabled s (fpDiv fp64 (FloatModes s 0) (s.c.rx 2).toNat (s.c.rx 3).toNat).2 = false := by decide +kernel

theorem witness_EnabledFloatFlagTraps :
    let s := { withX bead 2 0x3FF0000000000000 with lat := { bead.lat with iss := { bead.c with fpcr := 0x20 } } }
    s.c.rk 0 = true ∧ Enabled s (fpDiv fp64 (FloatModes s 0) (s.c.rx 2).toNat (s.c.rx 3).toNat).2 = true := by decide +kernel

theorem witness_TransfersGoToTheirTarget : let s := withX (withX bead 2 16) 3 17
    s.c.rk 0 = true ∧ (s.c.rx 2).toNat % 16 = 0 ∧ (s.c.rx 31).toNat % 16 = 0 ∧ (s.c.rx 3).toNat % 16 ≠ 0 ∧
    ((withX s 31 8).c.rx 31).toNat % 16 ≠ 0 ∧ s.c.rx 4 = 0 ∧ s.c.rx 2 ≠ 0 ∧ (s.q.repCur = none ∧ s.q.repLeft = 0 ∧ 1023 = (1023 : BitVec 10).toNat) ∧
    (let q : Seq := { s.q with repLeft := 2 }
     q.repCur = none ∧ q.repLeft ≠ 0) ∧ ({ s.q with repCur := some (16, 1) } : Seq).repCur = some (16, 1) := by decide +kernel

theorem witness_CrossSlotCopiesLandInTheirRegister : VReady bead 0 [47] ∧ bead.c.sys = true ∧ (2 : BitVec 2) ≠ 3 := by
  unfold VReady; decide +kernel

theorem witness_StatusRegistersReadAndWrite : bead.c.sys = true ∧ fld ((withX bead 2 0x9000000000).c.rx 2).toNat 36 4 ≤ 9 ∧
    9 < fld ((withX bead 2 0xA000000000).c.rx 2).toNat 36 4 ∧ (0x009 < 0x010 ∧ 0x002 < 0x003) := by decide +kernel

theorem witness_PrivilegeIsChecked : statusDefined 0x00F = false ∧ statusDefined 0x080 = false ∧ ({ bead.c with sys := false } : Ctx).sys = false ∧
    (0x010 : BitVec 12).toNat ≤ 0x017 ∧ 0x007 ≤ (0x00E : BitVec 12).toNat ∧ 0x040 ≤ (0x07F : BitVec 12).toNat := by decide +kernel

theorem witness_FormatAndCoreRegistersReadAndWrite : bead.c.sys = true ∧ 15 < 16 ∧ 3 < 4 ∧ 7 < 8 ∧
    (fld ((withX bead 2 10).c.rx 2).toNat 0 5 < 11 ∧ 11 ≤ fld ((withX bead 2 11).c.rx 2).toNat 0 5) ∧
    fmtBits (((withX bead 2 4).c.rx 2).setWidth 8) = 0 ∧ (∃ v : DWord, fmtBits (((withX bead 2 v).c.rx 2).setWidth 8) ≠ 0) :=
  ⟨rfl, by decide, by decide, by decide, by decide +kernel, by decide +kernel, 1, by decide +kernel⟩

theorem witness_TrapsAreTakenAndRaised :
    let r : TrapRec := { code := 0x06, info := 0x331, slot := 3, iss := false, evt := false, now := false }
    let s := { bead with q := { bead.q with trap := some r }, lat := { bead.lat with seq := 1 } }
    s.q.trap = some r ∧ r.absent = none ∧ r.seq < s.lat.seq ∧ bead.q.trap = none := by decide +kernel

theorem witness_AbsentPageSwitchesBanks :
    let r : TrapRec := { code := 0x09, info := 0x30, slot := 3, iss := false, evt := false, now := false, absent := some 0x1000 }
    ({ bead with q := { bead.q with trap := some r } } : State).q.trap = some r ∧ r.absent = some 0x1000 := by decide +kernel

theorem witness_ReturnFromTrap : bead.c.sys = true ∧ bead.q.slotsEmpty (bead.lat.seq + 1) = true ∧
    ({ bead.q with vq := [slotted 1 .vpsw] } : Seq).slotsEmpty (bead.lat.seq + 1) = false := by decide +kernel

theorem witness_HaltWaitsForTheHost : bead.c.sys = true ∧ bead.q.wait = .none ∧ WaitOver bead 0 0 0 0 ∧
    ¬WaitOver (onOut (.tset [] true)) 0 0 0 0 ∧ ({ bead.q with wait := .halted, eligible := true } : Seq).wait = .halted := by
  unfold WaitOver; decide +kernel

theorem witness_ScanStartsAndReports : bead.c.sys = true ∧ bead.q.wait = .none ∧ bead.oq.state = .empty ∧ WaitOver bead 0 0 0 0 ∧
    ({ bead.oq with state := .drained } : Seq).state ≠ .empty ∧
    (let s := { bead with q := { bead.q with wait := .scan 7, ops := [slotted 0 (.scan 1 2)] } }
     s.q.wait = .scan 7 ∧ s.q.eligible = false ∧ s.q.ops = [slotted 0 (.scan 1 2)] ∧ (slotted 0 (.scan 1 2)).instr = .scan 1 2) ∧
    (let s := { bead with q := { bead.q with wait := .scan 7, eligible := true }, now := 7 }
     s.q.wait = .scan 7 ∧ 7 ≤ s.now ∧ s.q.eligible = true) := by
  unfold WaitOver; decide +kernel

/-- A bead pinned to logical core 511, waiting. -/
def pinned : Bead :=
  let r := mkRec 0 0 (BitVec.ofNat 64 (2 ^ 42)) 511 [] 0
  { record := r, strand := 0, index := 0, ready := none, strips := 0, saved := none, gang := false }

theorem witness_CoreMapAnswersItsStatus :
    let s (p op : Nat) := sends (withIss (withIss bead 2 (BitVec.ofNat 64 p)) 3 (BitVec.ofNat 64 op))
    let r (p op : Nat) := unsent (s p op)
    let removed (t : State) : State := { t with hub := { t.hub with map := List.range 511 } }
    (∀ p op, SendsNow (s p op)) ∧ (s 0 0).c.sys = true ∧
    ((s 511 1).lat.iss.rx 2).toNat = 511 ∧ ((s 511 1).lat.iss.rx 3).toNat = 1 ∧ ((s 511 1).hub.logicalOf 511).isSome = true ∧
    (removed (s 511 0)).hub.logicalOf 511 = none ∧ 2 ≤ ((s 511 2).lat.iss.rx 3).toNat ∧ (s 0 0).hub.logicalOf 0 = some 0 ∧
    (r 0 0).removalBusy 0 = false ∧ (0 : Nat) = (s 0 0).core.phys ∧ (r 511 0).removalBusy 511 = false ∧ 511 ≠ (s 511 0).core.phys ∧
    ({ r 511 0 with hub := { bead.hub with beads := [pinned] } } : State).removalBusy 511 = true ∧
    (answered bead 3).q.answered = some (3, 0) ∧ 0 ≤ (answered bead 3).now ∧ (held32 bead).q.sending = some 0 ∧ (held32 bead).now ≤ 0 + 32 :=
  ⟨fun _ _ => ⟨rfl, 0, rfl, Nat.lt_succ_self 32⟩, by decide +kernel⟩

theorem witness_InjectedFaults :
    let s := withX (withX bead 2 0xFFFF8) 3 63
    s.c.sys = true ∧ (s.c.rx 3).toNat = 63 ∧ (s.c.rx 2).toNat % 8 = 0 ∧ (s.c.rx 2).toNat < s.c.strips * 2 ^ 19 ∧ s.mem.wrong = [] ∧
    s.rangeQuiet s.core.bank s.lat.seq (crownThrough s.lat.iss.cbmap s.core.phys (s.c.rx 2).toNat) 8 = true ∧
    ((withX s 2 0x7FFFFE0).c.rx 2).toNat % 32 = 0 ∧ ((withX s 2 0x7FFFFE0).c.rx 2).toNat < 2 ^ 27 ∧
    (withX s 2 0x7FFFFE0).rangeQuiet s.core.bank s.lat.seq ((withX s 2 0x7FFFFE0).towerAt 15 0x7FFFE0) 32 = true ∧
    s.mem.wf = true ∧ (s.core.bank, s.lat.seq) ∉ s.core.struck ∧ s.q.vq ++ s.q.mq = [] ∧
    (let u := { s with core := { s.core with struck := [(false, 0)] } }
     (u.core.bank, u.lat.seq) ∈ u.core.struck) := by decide +kernel

theorem witness_WaitFenceAndDrain : WaitOver bead 0 0 0 0 ∧ WaitOver (onOut (.tset [] true)) 0 0 1 0 ∧ ¬WaitOver (onOut (.tset [] true)) 63 63 0 63 ∧
    bead.q.slotsEmpty bead.lat.seq = true ∧ bead.performed bead.lat.seq 4 true = true ∧ bead.performed bead.lat.seq 0 false = true ∧
    ({ bead with outs := [pending] } : State).performed 1 4 false = false ∧ bead.q.relHold = none ∧
    ({ bead.q with relHold := some (3, 0) } : Seq).relHold = some (3, 0) := by unfold WaitOver; decide +kernel

/-- A strand table at 0x1000 whose strand 7 holds up to 2 records, empty. -/
def strands : State :=
  let exe : Exe := { elfClass := 2, elfData := 1, elfType := 2, machine := 0x9A51, eflags := 1, base := 0, bundles := 8, tbase := 0, strips := [], patterns := [] }
  let hub : Hub := { bead.hub with strandTable := 0x1000, exes := [exe] }
  withIss { bead with hub := hub, mem := { cells := [(0x1000 + 32 * 7 + 8, 1)] } } 2 7

theorem witness_SpawnJoinAndLeave :
    let c (ranks : List Nat) : Clasp := { number := 9, size := 2, sync := false, ranks := ranks, channel := none, fallback := none, packages := []
                                          runtime := false, arrived := [], released := none, round := 0 }
    let s (ranks : List Nat) := sends { withIss (withIss bead 2 9) 3 2 with hub := { bead.hub with clasps := [c ranks] } }
    let member := sends { bead with c := { bead.c with bead := 0x90000 }, hub := (s [0]).hub }
    SendsNow (s [0]) ∧ (s [0]).c.segOpen = false ∧ (s [0]).c.claspNo = 0 ∧ ((s [0]).lat.iss.rx 2).toNat % 2 ^ 20 = (9 : BitVec 20).toNat ∧
    ((s [0]).lat.iss.rx 3).toNat = 2 + (if false then 2 ^ 16 else 0) ∧ (s [0]).hub.clasp 9 = some (c [0]) ∧ (c [0]).ranks.length < (c [0]).size ∧
    (s [0]).outs.all (fun o => !o.contributes 9) = true ∧ (c [0, 1]).size ≤ (c [0, 1]).ranks.length ∧ (s [0, 1]).hub.clasp 9 = some (c [0, 1]) ∧
    ((c [0]).size ≠ 3 ∨ (c [0]).sync ≠ false) ∧ bead.q.answered = none ∧ member.c.claspNo ≠ 0 ∧ SendsNow member ∧
    (answered bead 3).q.answered = some (3, 0) ∧ 0 ≤ (answered bead 3).now ∧ (held32 bead).q.sending = some 0 ∧ (held32 bead).now ≤ 0 + 32 ∧
    (let u := sends strands
     let r := mkRec 0 (u.lat.iss.rx 3) (putField (u.lat.iss.rx 2) 45 10 0) (u.lat.iss.rx 4) [u.lat.iss.rx 5, u.lat.iss.rx 6, u.lat.iss.rx 7, u.lat.iss.rx 8] 0
     SendsNow u ∧ wSys (u.lat.iss.rx 2) = false ∧ (u.lat.iss.rx 3).toNat % 16 = 0 ∧ u.q.slotsEmpty u.lat.seq = true ∧
     u.performed u.lat.seq 3 false = true ∧ (u.lat.iss.rx 2).toNat % 2 ^ 16 = 7 ∧ u.lcap 7 ≠ 0 ∧ u.lcap 6 = 0 ∧
     (u.strandTail 7 + 2 ^ 32 - u.strandHead 7) % 2 ^ 32 < 2 ^ u.lcap 7 ∧ u.hub.recOk r false = true ∧
     ({ u.hub with exes := [] } : Hub).recOk r false = false) ∧
    (let u := { strands with mem := { cells := strands.mem.cells ++ [(0x1000 + 32 * 7 + 20, 2)] } }
     2 ^ u.lcap 7 ≤ (u.strandTail 7 + 2 ^ 32 - u.strandHead 7) % 2 ^ 32) := by
  refine ⟨⟨rfl, 0, rfl, by decide⟩, ?_, ?_, ?_, ?_, ?_, ?_, ?_, ?_, ?_, ?_, ?_, ?_, ⟨rfl, 0, rfl, by decide⟩, ?_, ?_, ?_, ?_, ⟨⟨rfl, 0, rfl, by decide⟩, ?_⟩, ?_⟩ <;>
    decide +kernel
theorem witness_SuspensionWritesTheRecord :
    let s := { bead with now := 47, q := { bead.q with wait := .record (some 7) }, hub := { bead.hub with waitSize := 1 } }
    let u := { bead with hub := { bead.hub with waitSize := 1 } }
    Suspended s ∧ (u.c.segOpen = false ∧ Idle u ∧ u.q.wait = .none ∧ u.hub.beads.length < u.hub.waitSize) ∧
    s.hub.beads.length < s.hub.waitSize ∧ s.c.pinned = false ∧ bead.hub.waitSize ≤ bead.hub.beads.length ∧ s.c.claspNo = 0 ∧
    Suspended { s with hub := { s.hub with waitSize := 0 } } := by
  have idle : ∀ u : State, u.q.vq = [] → u.q.mq = [] → u.outs = [] → Idle u := fun u a b c => ⟨a, b, fun o h => by simp [c] at h⟩
  exact ⟨⟨by decide +kernel, idle _ rfl rfl rfl, rfl, 7, rfl, by decide⟩, ⟨by decide +kernel, idle _ rfl rfl rfl, rfl, by decide⟩,
    by decide, by decide +kernel, by decide, by decide +kernel, by decide +kernel, idle _ rfl rfl rfl, rfl, 7, rfl, by decide⟩

theorem witness_SegmentsOpenAndClose : bead.c.segOpen = false ∧ WaitOver bead 0 0 0 0 ∧ ((2 : BitVec 2).toNat < 2 → (1 : BitVec 4) = 0) ∧
    ({ bead.c with seg := 1 } : Ctx).segOpen = true ∧ bead.q.held = [] ∧ bead.count .st = 0 ∧
    ((1 : BitVec 2).toNat < 2 ∧ (15 : BitVec 4) ≠ 0) ∧ ((0 : BitVec 2) = 0 ∧ (15 : BitVec 4) ≠ 0) := by
  unfold WaitOver; decide +kernel

theorem witness_SleepUntil :
    let s := { withA bead 2 7 with now := 7 }
    let late (s : State) (o : Out) : Bool := o.bank == s.core.bank && (o.promise.map fun p => decide (p ≤ s.now)).getD false
    let asleep := { s with now := 9, outs := [held 5 (.tset [] true)], q := { s.q with wait := .sleep 9, eligible := true } }
    s.q.wait = .none ∧ (s.c.ra 2).toNat ≤ s.now ∧ s.outs.any (late s) = false ∧ bead.now < ((withA bead 2 0x4000).c.ra 2).toNat ∧
    ((withA bead 2 0x4000).c.ra 2).toNat ≤ bead.now + bead.core.sleepmax.toNat ∧ asleep.q.wait = .sleep 9 ∧ 9 ≤ asleep.now ∧
    asleep.q.eligible = true ∧ asleep.outs.any (late asleep) = true := by decide +kernel

theorem witness_ClaspBarrier :
    let c : Clasp := { number := 9, size := 2, sync := true, ranks := [0, 1], channel := some 3, fallback := none, packages := [], runtime := false,
                       arrived := [1], released := none, round := 0 }
    let s (c : Clasp) := { bead with c := { bead.c with bead := 0x90000 }, hub := { bead.hub with clasps := [c] } }
    let f : Clasp := { c with channel := none, fallback := some 0x8000000000100000 }
    bead.hub.clasp bead.c.claspNo = none ∧ (s c).hub.clasp (s c).c.claspNo = some c ∧ (s c).q.cbarAt = none ∧ (s c).q.cbarRel = none ∧
    (s c).c.segOpen = false ∧ (s c).q.vq = [] ∧ (s c).q.mq = [] ∧ (s c).outs = [] ∧ c.channel = some 3 ∧
    c.ranks.all (setAdd c.arrived (s c).c.rank).contains = true ∧ (s f).hub.clasp (s f).c.claspNo = some f ∧ f.channel = none ∧
    f.fallback = some 0x8000000000100000 ∧ ({ (s c).q with cbarAt := some 4, cbarRel := some 30 } : Seq).cbarRel = some 30 := by decide +kernel

theorem witness_VectorLanesTakeTheirResult : VReady bead 0 [0, 47, 20] ∧ VReady bead 2 [5] ∧ ((240 : BitVec 9).toNat = 8 * (30 : BitVec 6).toNat) := by
  unfold VReady; decide +kernel

theorem witness_VectorIntegerLanesTakeTheirResult : VReady bead 2 [0, 47] ∧ VReady bead 2 [1] ∧ (31 : BitVec 6).toNat < 32 ∧
    32 ≤ (32 : BitVec 6).toNat := by unfold VReady; decide +kernel

theorem witness_VectorComparesWriteMasks : (2 : BitVec 2) ≠ 3 ∧ VReady bead 2 [0, 47] := by unfold VReady; decide +kernel

theorem witness_VectorLanesMove : VReady bead 0 [0, 1, 47] ∧ bead.outs = [] := by unfold VReady; decide +kernel

theorem witness_VectorPairsAndReductions : (1 : BitVec 2) ≠ 3 ∧ PairReady bead 46 ∧ PairReady bead 0 ∧ VReady bead 1 [3, 47] := by
  unfold VReady PairReady; decide +kernel

/-- fp16 is format 2 or 3 of Table 3-1 and `raw` another: a kind that packs exactly, and one that traps. -/
theorem witness_VectorConversions : VReady bead 2 [1, 2] ∧ kindOf (cfFmt (bead.lat.iss.cfOf 0)) (cfInf (bead.lat.iss.cfOf 0)) = .raw ∧
    kindOf (cfFmt 1) (cfInf 1) ≠ .raw ∧ fmtBits 1 = 32 ∧ packed (kindOf (cfFmt 1) (cfInf 1)) 0 0 0x3F800000 = some (0x3F800000, 0) := by
  unfold VReady; decide +kernel

theorem witness_AddressArithmetic : bead.lat.ext = none ∧ ({ bead.lat with ext := some { v := 0, m := 0, t := 255 } } : Latch).ext ≠ none := by
  decide +kernel

theorem witness_HandlesAreDerived : hClass (bead.c.rh 0) = 0 ∧ 5 ≤ hClass 0x5F800000000000000000000000100000 ∧ hDv (bead.c.rh 3) = true ∧
    hClass (bead.c.rh 2) = 1 ∧ hBase (bead.c.rh 2) % 2 ^ 23 + (0x7FFFFF : DWord).toNat % 2 ^ 23 < 2 ^ 23 ∧
    hLen (bead.c.rh 2) < (0x7FFFFF : DWord).toNat % 2 ^ 23 + (2 : DWord).toNat ∧ ¬hLen (bead.c.rh 2) < (0x7FFFFF : DWord).toNat % 2 ^ 23 + (1 : DWord).toNat ∧
    ¬hLen (bead.c.rh 3) < (0xFFFFF : DWord).toNat + (1 : DWord).toNat ∧ hLen (bead.c.rh 3) < (0xFFFFF : DWord).toNat + (2 : DWord).toNat := by decide +kernel

theorem witness_AccessChecksComeInOrder :
    hClass (bead.c.rh 0) = 0 ∧ hClass (bead.c.rh 1) = 2 ∧ hObj (bead.c.rh 1) = bead.logical ∧ hObj 0x2F800001000000000000000000100000 ≠ bead.logical ∧
    hClass (bead.c.rh 2) = 1 ∧ hRd (bead.c.rh 1) = true ∧ hLen (bead.c.rh 1) = 0x100000 ∧ hClass (bead.c.rh 3) = 4 ∧
    bead.hub.object (hObj (bead.c.rh 3)) = some 0x00010000001000008000000000100000 ∧ oPresent 0x00010000001000008000000000100000 = true ∧
    deviceHalf (oBase 0x00010000001000008000000000100000 + 0xFFFF8) = true ∧ bead.hub.object 0 = none ∧ bead.hub.object 2 = none ∧
    bead.globalCheck 3 [0xFFFF8] 8 8 hWr = .ok [(oBase 0x00010000001000008000000000100000 + 0xFFFF8, 0x00010000001000008000000000100000)] := by
  decide +kernel

theorem witness_CrownAndTowerLoadsGoOut : bead.mem.wrong = [] ∧ bead.mem.poison = [] ∧ bead.count .ld < 63 ∧
    bead.crownCheck 1 (offsetOf (withA bead 4 0xFFFF8) 4 8 (0 : BitVec 9)) 8 8 hRd = .ok 0xFFFF8 ∧ bead.mem.isFull (bead.crownAt 0xFFFF8) 8 = true ∧
    VReady bead 2 [7] ∧ bead.crownCheck 1 (offsetOf bead 4 32 (0 : BitVec 8)) 512 32 hRd = .ok 0 ∧
    bead.crownCheck 1 (offsetOf bead 4 16 (0 : BitVec 13)) 16 16 hRd = .ok 0 ∧ bead.offsetCrown 1 (bead.c.ra 4).toInt (128 * (63 + 1)) 32 hRd = .ok 0 ∧
    (0 : BitVec 6).toNat + (63 : BitVec 6).toNat < 64 ∧ bead.q.vq = [] ∧ bead.q.ops = [] ∧
    bead.towerCheck 2 (offsetOf bead 4 32 (0 : BitVec 9)) 16 hRd = .ok (List.replicate 16 0) ∧
    ({ bead.mem with empty := [bead.crownAt 0] } : Mem).isFull (bead.crownAt 0) 8 = false := by unfold VReady; decide +kernel

theorem witness_GlobalLoadsGoOut : bead.mem.wrong = [] ∧ bead.mem.flaky = [] ∧ bead.scHit true (0x8000000000100000, 0) = none ∧
    (let s := { bead with c := { bead.c with bead := 2 ^ 44 }, core := { bead.core with scache := [{ line := 0x8000000000100000, bytes := List.replicate 64 7 }] } }
     (s.scHit true (0x8000000000100000, 2 ^ 113)).isSome = true) ∧ bead.mem.poison = [] ∧ bead.count .ld < 63 ∧ VReady bead 0 [7] ∧
    (bead.globalCheck 3 [offsetOf bead 4 8 (0 : BitVec 10)] 8 8 hRd).toOption.isSome = true ∧
    (bead.globalCheck 3 [offsetOf bead 4 32 (0 : BitVec 9)] 128 32 hRd).toOption.isSome = true ∧
    (bead.globalCheck 3 ((List.range 32).map fun l => ((withA bead 4 124).c.ra 4).toInt + (l : Int) * ((withA bead 5 (-4)).c.ra 5).toInt) 4 4 hRd).toOption.isSome = true ∧
    bead.offsetCrown 1 (bead.c.ra 6).toInt 128 32 hRd = .ok 0 ∧ bead.mem.isFull (bead.crownAt 0) 128 = true := by unfold VReady; decide +kernel

theorem witness_CrownAndTowerStoresGoOut : bead.count .st < 63 ∧ bead.crownCheck 1 (offsetOf bead 4 8 (0 : BitVec 9)) 8 8 hWr = .ok 0 ∧
    bead.crownCheck 1 (offsetOf bead 4 16 (0 : BitVec 13)) 16 16 hWr = .ok 0 ∧ VReady bead 0 [7] ∧
    bead.crownCheck 1 (offsetOf bead 4 32 (0 : BitVec 8)) 128 32 hWr = .ok 0 ∧
    bead.towerCheck 2 (offsetOf bead 4 32 (0 : BitVec 9)) 4 hWr = .ok [0, 0, 0, 0] := by unfold VReady; decide +kernel

theorem witness_GlobalStoresGoOut :
    let ge := (0x8000000000100000, 0x00010000001000008000000000100000)
    let s := { bead with c := { bead.c with seg := 1, windows := [bead.c.rh 3] } }
    bead.globalCheck 3 [offsetOf bead 4 8 (0 : BitVec 10)] 8 8 hWr = .ok [ge] ∧ bead.hub.isTelemetry ge.1 8 = false ∧ bead.c.segOpen = false ∧
    bead.count .st < 63 ∧ VReady bead 0 [7] ∧ (bead.globalCheck 3 [0] 128 32 hWr).toOption.isSome = true ∧
    s.c.segOpen = true ∧ s.globalCheck 3 [0] 8 8 hWr = .ok [ge] ∧ deviceHalf ge.1 = true ∧ s.c.inSegWindow (s.c.rh 3) 0 8 = true ∧
    ((elementPieces [ge] 8 [1, 2, 3, 4, 5, 6, 7, 8]).foldl (fun l p => l.bind fun l => holdMerge l p) (some s.q.held)).isSome = true ∧
    bead.offsetCrown 1 (bead.c.ra 6).toInt 128 32 hRd = .ok 0 ∧ bead.mem.isFull (bead.crownAt 0) 128 = true := by unfold VReady; decide +kernel

/-- A set that walks four vectors of 512 bytes from logical crown address 0, 512 bytes apart. -/
def walk (write : Nat) : Machine.PSet := { record := BitVec.ofNat 512 (write * 2 ^ 32 + 2 ^ 40 + 4 * 2 ^ 64 + 512 * 2 ^ 128), obj := 0, size := 512 }

theorem witness_PortsAreConfiguredAndBound :
    let s := { bead with c := { bead.c with ps := bead.c.ps.set 1 (walk 0) }, mem := { cells := cellSets [] (bead.crownAt 0) (natBytes 64 (walk 0).record.toNat) } }
    s.mem.flaky = [] ∧ s.offsetCrown 1 (s.c.ra 4).toInt 64 64 hRd = .ok 0 ∧ (s.c.ps[0]).size = 0 ∧ (s.c.ps[1]).size ≠ 0 ∧ (s.c.ps[1]).cvt = false ∧ s.mem.wrong = [] ∧ s.mem.poison = [] ∧ s.count .ld < 63 ∧
    s.crownCheck 1 (s.c.ra 4).toInt 64 64 hRd = .ok 0 ∧ s.mem.isFull (s.crownAt 0) 64 = true ∧
    BitVec.ofNat 512 (bytesNat (s.bytes .l (s.crownAt 0) 64)) = (walk 0).record ∧
    walkCheck (walk 0) (s.c.rh 1) (s.c.ra 4).toInt ((walk 0).vectorBytes s.lat.iss) = none ∧
    (let c : Machine.PSet := { record := BitVec.ofNat 512 (2 ^ 33), obj := 0, size := 512 }
     c.cvt = true ∧ 16 * fmtBits ((bead.lat.iss.cfOf (c.base / 2 ^ 19)).setWidth 8) ≠ c.size) := by decide +kernel

theorem witness_PortOperandsPopPeekAndPush :
    let p (w : Nat) : Port := { set := walk w, pos := 3, cf := 0 }
    let s (w : Nat) : State := { bead with c := { bead.c with port := bead.c.port.set 2 (some (p w)) } }
    VReady (s 0) 2 [1, 2] ∧ PortReads (s 0) 2 (p 0) ∧ (s 0).mem.wrong = [] ∧ (s 0).mem.poison = [] ∧ (s 1).c.port[2] = some (p 1) ∧
    (p 1).set.obj.toNat = (s 1).logical ∧ (p 1).set.isWrite = true ∧ (p 1).pos < (p 1).set.total ∧ (p 1).set.cvt = false ∧ (p 1).set.fe = 0 ∧
    (s 0).c.port[3] = none := by unfold VReady PortReads; decide +kernel

theorem witness_DescriptorFieldsAreSet :
    let f (k : Nat) : Nat → Option Nat := ((descriptorFields.find? (·.1 == k)).map (·.2.2.2)).getD fun _ => none
    f 0 (2 ^ 23 - 1) = some (2 ^ 23 - 1) ∧ f 0 (2 ^ 23) = none ∧ f 1 15 = some 15 ∧ f 1 16 = none ∧ f 2 0 = none ∧ f 2 1 = some 0 ∧
    f 2 4096 = some 4095 ∧ f 2 4097 = none ∧ f 3 0 = none ∧ f 3 4096 = some 4095 ∧ f 4 4095 = some 4095 ∧ f 4 4096 = none ∧ f 5 0x53 = some 0x53 ∧
    f 5 0x54 = none ∧ f 6 255 = some 255 ∧ f 6 256 = none ∧ f 8 255 = some 255 ∧ f 8 256 = none ∧ f 9 65535 = some 65535 ∧ f 9 65536 = none ∧
    (11 : Nat) < 16 ∧ 11 / 4 ≠ 3 ∧ 12 / 4 = 3 ∧ (15 : BitVec 4).toNat = 15 := by decide +kernel

/-- Descriptor m1: 8 rows of 8 binary32 elements at crown address 0, read when full. -/
def tiled (outs : List Out) (mem : Mem) : State :=
  let c := bead.c.wm 1 0x00000000000200010010070070000000
  { bead with c := c, outs := outs, mem := mem, lat := { bead.lat with iss := { bead.lat.iss with cbmap := c.cbmap } } }

/-- A queued tile operation of the active bank. -/
def queued (id : Nat) (i : Instr) : Out := { held id (.tile (slotted 2 i) {}) with path := .m, ctr := .tl, promise := none }

theorem witness_TileOperationsJoinTheQueue :
    mdExtOk bead.lat.ext = true ∧ mdExtOk (some { v := 0, m := 0x100, t := 0 }) = false ∧
    let row (s : State) := tileOperations s 1 1 1 0 0 0 0 0 0 0 0 1 0 0
    let s := tiled [] {}
    (∃ r ∈ row s, r.1 = .mlu 1 0 0 0 ∧ r.2.1 = none ∧ r.2.2.1 ≠ [] ∧ r.2.2.2.any s.regQueued = false ∧ ∀ y ∈ r.2.2.1, y ∉ s.mem.empty) ∧
    (let s := tiled [] { empty := [bead.crownAt 0] }
     ∃ r ∈ row s, r.1 = .mlu 1 0 0 0 ∧ r.2.1 = none ∧ ∃ y ∈ r.2.2.1, y ∈ s.mem.empty) ∧
    (let s := tiled (List.replicate 4 (queued 1 (.mzero 1))) {}
     4 ≤ (s.tileQueue s.core.bank).length ∧ (row s).all (fun r => !(r.2.2.2.any s.regQueued)) = true) ∧
    (let s := tiled [queued 1 (.mlu 1 0 0 0)] {}
     ∃ r ∈ row s, r.1 = .mchol 1 0 0 ∧ r.2.2.2.any s.regQueued = true) ∧
    (∃ r ∈ row bead, r.1 = .mlu 1 0 0 0 ∧ r.2.1.isSome = true) := by decide +kernel

theorem witness_BanksAreLentAndReturned :
    bead.bankHeld 0 bead.lat.seq = false ∧ bead.q.vq = [] ∧ bead.tileQueue bead.core.bank = [] ∧
    (let o := slotted 1 (.vabs 1 6 0 0)
     let s := { bead with q := { bead.q with vq := [o] } }
     o ∈ s.q.vq ∧ o.seq ≤ s.lat.seq ∧ s.c.lent.getLsbD 0 = false ∧ o.namesBank 0 = true ∧ s.bankHeld 0 s.lat.seq = true) ∧ bead.bankRead 0 = false ∧
    (let s := { bead with q := { bead.q with named := [(1, 0, 9)] } }
     (1, 0, 9) ∈ s.q.named ∧ 0 ≤ s.lat.seq ∧ s.now < 9 ∧ (1 : BitVec 6).getLsbD 0 = true ∧ s.bankHeld 0 s.lat.seq = true) ∧
    (let s := { tiled [queued 1 (.mma 2 1 3 3 0)] {} with c := { bead.c with lent := 1 } }
     queued 1 (.mma 2 1 3 3 0) ∈ s.tileQueue s.core.bank ∧ s.c.lent.getLsbD 0 = true ∧ lentReads (slotted 2 (.mma 2 1 3 3 0)) {} 0 = true ∧
     s.bankRead 0 = true) := by decide +kernel

theorem witness_CacheControl : hClass (bead.c.rh 3) = 4 ∧ bead.hub.object (hObj (bead.c.rh 3)) = some 0x00010000001000008000000000100000 ∧
    (bead.globalCheck 3 [((withA bead 4 64).c.ra 4).toInt] ((withA bead 5 128).c.ra 5).toNat 1 hRd).toOption.isSome = true ∧ bead.count .st < 63 := by
  decide +kernel

/-- The region pair of a copy of four bytes within crown, from 0x1000 to 0. -/
def pairOfFour : BitVec 1024 :=
  let r (base : Nat) : Nat := 1 + base * 2 ^ 64 + 4 * 2 ^ 128 + 2 ^ 256
  BitVec.ofNat 1024 (r 0 + r 0x1000 * 2 ^ 512)

/-- Crown holds the pair at 0x2000, and a(4) names it. -/
def copying : State :=
  let b := { bead with lat := { bead.lat with iss := bead.c } }
  withA { b with mem := { cells := cellSets [] (bead.crownAt 0x2000) (natBytes 128 pairOfFour.toNat) } } 4 0x2000

theorem witness_TransfersGoOut_copy :
    let s := copying
    let u := AfterRead s
    let sides := copySides (u.slotted (.copy 5 1 1 1 4 0 0 0 0)) pairOfFour 1 1
    s.c.segOpen = false ∧ s.count .cp < 63 ∧ s.mem.wrong = [] ∧ s.mem.poison = [] ∧ s.copiesHeld < 8 ∧
    s.offsetCrown 1 (s.c.ra 4).toInt 128 64 hRd = .ok 0x2000 ∧ s.mem.isFull (s.crownAt 0x2000) 128 = true ∧
    BitVec.ofNat 1024 (bytesNat (s.bytes .l (s.crownAt 0x2000) 128)) = pairOfFour ∧ u.copyShape sides.1 sides.2 = none ∧
    (match u.copyGlobal sides.1 sides.2 with
      | .ok (ld, lm) => s.lostIn (sideGlobals sides.1 ld) == none && s.lostIn (sideGlobals sides.2 lm) == none
      | .error _ => false) = true := by decide +kernel

/-- `frfl` of 1024 units from object 1 (h3) into tower 15 of rank 0; the largest and the smallest length. -/
theorem witness_TransfersGoOut_refill :
    (∀ u ∈ [1, 1024], (withA bead 6 (BitVec.ofNat 64 (0 + 15 * 2 ^ 23 + u * 2 ^ 32 + 2 ^ 56))).c.ra 6 = BitVec.ofNat 64 (15 * 2 ^ 23 + u * 2 ^ 32 + 2 ^ 56) ∧
      (bead.offsetGlobal 3 (bead.c.ra 4).toInt (u * 64) 64 hRd).toOption.isSome = true ∧
      checkHandle bead.logical (bead.c.rh 2) [1] hWr 0 = none ∧
      towerElem (bead.c.rh 2) 15 ((0 : Int) - (hBase (bead.c.rh 2) % 2 ^ 23 : Nat)) (u * 64) 1 = .ok 0 ∧
      bead.refillRanks 15 0 (u * 64) 1 = none) := by decide +kernel

/-- `reduce` of the largest vector, and a `shift` of the longest range, of a member of clasp 9. -/
theorem witness_TransfersGoOut_reduce_and_shift :
    let s := withA { bead with c := { bead.c with bead := 0x90000 } } 6 0x1000
    s.c.claspNo ≠ 0 ∧ (∀ n ∈ [1, 1024], ((withA s 7 (BitVec.ofNat 64 n)).c.ra 7).toNat % 2 ^ 11 = n ∧ n / 2 ^ 11 % 2 ^ 5 = 0 ∧
      (offsetElem (s.c.rh 1) (s.c.ra 4).toInt (4 * n) 32).toOption.isSome = true ∧
      (offsetElem (s.c.rh 1) (s.c.ra 6).toInt (4 * n) 32).toOption.isSome = true ∧
      (offsetElem (s.c.rh 1) ((s.c.ra 6).toInt + 4 * n) (4 * n) 4).toOption.isSome = true ∧
      (s.c.ra 4).toInt + 4 * n ≤ (s.c.ra 6).toInt ∧ s.mem.isFull (s.crownAt 0) (4 * n) = true) ∧
    hClass (s.c.rh 1) = 2 ∧ hObj (s.c.rh 1) = s.logical ∧ hRd (s.c.rh 1) = true ∧ hWr (s.c.rh 1) = true ∧
    (let s := withA (withA bead 6 0x10000) 7 0x10000
     hClass (s.c.rh 2) = 1 ∧ hObj (s.c.rh 2) = s.logical ∧ hRd (s.c.rh 2) = true ∧ hWr (s.c.rh 2) = true ∧
     towerHandleOk (s.c.rh 2) = true ∧ hBase (s.c.rh 2) / 2 ^ 23 % 2 ^ 16 = 0xFFFF ∧ (s.c.ra 7).toNat = 65536 ∧ (s.c.ra 4).toInt = 0 ∧
     (s.c.ra 6).toInt = 65536 ∧ (65536 : Int) + 65536 ≤ hLen (s.c.rh 2)) := by decide +kernel

theorem witness_TransfersGoOut_stream :
    let s := withA (withA (withA bead 7 (2 ^ 32 - 1)) 8 0x201) 9 64
    (s.c.ra 8).toNat < 2 ^ 10 ∧ (s.c.ra 8).toNat / 2 ^ 8 ≠ 3 ∧ operandFmt (BitVec.ofNat 8 (s.c.ra 8).toNat) = true ∧ 0 < (s.c.ra 7).toNat ∧
    (s.c.ra 7).toNat < 2 ^ 32 ∧ (s.offsetGlobal 3 (s.c.ra 4).toInt (max (s.c.ra 9).toNat 1) 8 hRd).toOption.isSome = true ∧ s.outs = [] ∧
    (queued 1 (.mma 2 1 3 2 0)).bank = s.core.bank ∧ (queued 1 (.mma 2 1 3 2 0)).usesStream = true := by decide +kernel

theorem witness_TransferStatus : bead.promisedOuts = [] ∧ (onOut (.tset [] true)).promisedOuts ≠ [] ∧ bead.stoppable false = [] ∧
    bead.stoppable bead.core.bank = [] ∧ (onOut (.refill 0 64 0 0 1 { lead := 32, bytes := 64, rate := 64, extra := 0 })).stoppable bead.core.bank ≠ [] := by decide +kernel

theorem witness_AtomicsAndBarrierOperationsGoOut :
    let ge := (0x8000000000100000, 0x00010000001000008000000000100000)
    let w := onOut (.tset [] true)
    (∀ k ∈ [4, 8, 16], bead.globalCheck 3 [(bead.c.ra 4).toInt] k k hAt = .ok [ge]) ∧ bead.hub.isTelemetry 0x8000000000100000 16 = false ∧
    bead.c.segOpen = false ∧ bead.count .ld < 63 ∧ bead.q.slotsEmpty bead.lat.seq = true ∧ bead.performed bead.lat.seq 3 false = true ∧
    (3 : BitVec 2).getLsbD 1 = true ∧ (2 : BitVec 2).getLsbD 0 = false ∧
    (let s := { w with outs := [pending], lat := { w.lat with seq := 1 } }
     s.performed s.lat.seq 3 false = false) ∧ bead.q.wait = .none ∧
    (let s := { bead with q := { bead.q with wait := .bob 5 } }
     s.q.wait = .bob 5 ∧ s.outs = [] ∧ s.performed s.lat.seq 3 true = true) := by decide +kernel

theorem witness_RangesOfGranulesAndRows :
    let s := withA bead 7 4096
    let t := withA bead 7 1024
    s.tsetCheck 1 4 7 = .ok 0 ∧ bead.tsetCheck 1 4 4 = .ok 0 ∧ s.count .st < 63 ∧ s.count .ld < 63 ∧ s.now < 4096 ∧ s.core.deferEnd = none ∧
    ({ s with core := { s.core with deferEnd := some 9 } } : State).core.deferEnd ≠ none ∧
    (t.rowsCheck 2 4 7 hWr).toOption.isSome = true ∧ (t.rowsCheck 2 4 7 hRd).toOption.isSome = true ∧ t.outs = [] ∧ t.c.sys = true ∧
    (match t.rowsCheck 2 4 7 hWr with
      | .ok la => t.writesRange (held 5 (.write [{ addr := la, bytes := [1] }] 0 false [])) la 1024
      | .error _ => false) = true ∧
    (t.globalCheck 3 [(t.c.ra 4).toInt] 1024 1 hWr).toOption.isSome = true ∧ inStaging 0x8000000000100000 = false ∧
    0x8000000000100000 % 1024 = 0 := by decide +kernel

theorem witness_SlotAndMemoryEvents :
    let parked := { bead with arg := .slot 1, q := { bead.q with vq := [slotted 1 (.vabs 1 6 0 0)] } }
    let w (bad : Bool) := held 5 (.load (.x 3 7) bad 0 0)
    parked.q.vq = [slotted 1 (.vabs 1 6 0 0)] ∧ parked.q.trap = none ∧
    (let p := { bead with arg := .slot 2, q := { bead.q with mq := [slotted 2 (.mzero 1)] } }
     p.q.mq = [slotted 2 (.mzero 1)] ∧ p.q.trap = none) ∧
    (∀ k ∈ [(0 : BitVec 2), 3], let p := { bead with arg := .slot k, q := { bead.q with ops := [slotted k (.drain 0 0)] } }
     p.q.ops.find? (·.slot == k) = some (slotted k (.drain 0 0)) ∧ p.q.trap = none) ∧
    ({ bead with q := { bead.q with olfTrap := some 0 } } : State).q.olfTrap = some 0 ∧
    (onOut (w false).work).eventOut = some (w false) ∧ (w false).bank = bead.core.bank ∧ bead.q.acq = none ∧ bead.q.trap = none ∧
    (onOut (w true).work).eventOut = some (w true) ∧ bead.c.segOpen = false ∧
    ({ onOut (w true).work with c := { bead.c with seg := 1 } } : State).c.segOpen = true ∧
    (onOut (.write [{ addr := 0, bytes := [1] }] 0 false [0])).eventOut = some (held 5 (.write [{ addr := 0, bytes := [1] }] 0 false [0])) ∧
    (onOut (.gstore [] 0)).eventOut = some (held 5 (.gstore [] 0)) ∧ (onOut (.tset [0] true)).eventOut = some (held 5 (.tset [0] true)) ∧
    granuleSize 0 = granuleSize (0 + 0) ∧ (held 5 (.tset [0] true)).due ≠ 0 ∧ bead.mem.wf = true ∧ bead.mem.wrong = [] ∧ bead.mem.poison = [] ∧
    (let o := slotted 2 (.mzero 1)
     (onOut (.tile o {})).eventOut = some (held 5 (.tile o {}))) ∧
    (let f := onOut (.fetch (.x 3 true) [(0, 8)] [] false none)
     f.eventOut = some (held 5 (.fetch (.x 3 true) [(0, 8)] [] false none)) ∧ f.loadFree (held 5 (.fetch (.x 3 true) [(0, 8)] [] false none)) = true) ∧
    (let f := onOut (.fetch (.v 6) [(0, 512)] [] false none)
     let b := { f with q := { f.q with busy := [(.v 12, 0, 0)] } }
     b.eventOut = some (held 5 (.fetch (.v 6) [(0, 512)] [] false none)) ∧ b.loadFree (held 5 (.fetch (.v 6) [(0, 512)] [] false none)) = false) := by
  decide +kernel

theorem witness_EnginesFinishTheirOperations :
    let r (i : Instr) (p : Nat) : AtomReq := { instr := i, addr := 0x8000000000100000, s := 1, d := 0, engine := true, waiting := false, phase := p }
    let b (g : Stage) : Burst := { lead := 32, bytes := 64, rate := 64, extra := 0, stage := g }
    let p : List Part := [{ addr := 0x8000000000100000, bytes := [1, 2, 3, 4, 5, 6, 7, 8] }]
    let m : SideMap := { strips := 0 }
    let moves (g : Stage) : List Work := [.copy (slotted 3 (.copy 5 1 1 1 4 0 0 0 0)) m m 0 (b g), .refill 0 64 0 0 1 (b g),
      .shift (slotted 3 (.shift 0 0 2 4 5 6)) 0 [] false (b g)]
    let atoms : List Work := [.atom (r (.atmAdd 0 3 3 4 2 0) 1), .atom (r (.atmFadd 0 3 3 4 2 1) 2), .atom (r (.atmAdd 0 3 3 4 2 0) 0),
      .atom (r (.bobWait 3 3 4 2) 2)]
    let c : Clasp := { number := 9, size := 1, sync := false, ranks := [0], channel := none, fallback := none, packages := [], runtime := false,
                       arrived := [], released := none, round := 0 }
    let s := { bead with arg := .reduce 9 [{ package := Config.packageNo, rank := 0, values := [1] }], hub := { bead.hub with clasps := [c] } }
    (∀ w ∈ moves .queued ++ moves (.moving 3) ++ moves (.landing p 0 [] 0 0 0) ++ atoms,
       (onOut w).eventOut = some (held 5 w) ∧ (held 5 w).bank = (onOut w).core.bank ∧ (onOut w).mem.wf = true ∧ (onOut w).mem.poison = [] ∧
       (onOut w).mem.flaky = [] ∧ (onOut w).core.blocked = [] ∧ (onOut w).hub.farBlocked = []) ∧
    (r (.atmAdd 0 3 3 4 2 0) 1).waiting = false ∧ (r (.atmAdd 0 3 3 4 2 0) 1).phase ≠ 0 ∧ (r (.atmAdd 0 3 3 4 2 0) 1).lock = 0 ∧
    bead.hub.engineHolds 0x8000000000100000 = false ∧ bead.spread p = p ∧ (∀ i < 8, granuleSize (0x8000000000100000 + i) = granuleSize 0x8000000000100000) ∧
    refusedFallBack [] = false ∧ (15 < 16 ∧ (stepCell 15 0).2 = false) ∧ s.hub.clasp 9 = some c ∧
    bead.hub.clasp 9 = none ∧ c.roundFull (s.contributions 9 [{ package := Config.packageNo, rank := 0, values := [1] }]) = true ∧
    (let u := { s with arg := .reduce 9 [] }
     u.hub.clasp 9 = some c ∧ c.roundFull (u.contributions 9 []) = false) ∧
    (let op := { slotted 3 (.reduce 5 1 4 6 7) with iss := { bead.c with bead := 0x90000 } }
     let u := { onOut (.reduce op [1]) with c := { bead.c with bead := 0x90000 }, hub := { bead.hub with clasps := [c] }, arg := .reduce 9 [] }
     u.reducers 9 = [(held 5 (.reduce op [1]), 0, [1])] ∧ c.roundFull (u.contributions 9 []) = true ∧ roundFails (u.contributions 9 []) = false ∧
     u.mem.wf = true) := by
  decide +kernel

/-- A tile operation on m1 in the engine, with its progress. -/
def inEngine (i : Instr) : Slotted := { slotted 2 i with iss := (tiled [] {}).c }
def engine (i : Instr) (w : Tiling) : State := onOut (.tile (inEngine i) w)

theorem witness_EnginesFinishTheirOperations_products :
    let i : Instr := .mma 1 1 1 0 1
    let k : Instr := .mmaCk 1 1 1 0 0
    let p : Product := { c := 1, a := 1, b := 1, src := 0, zero := true, ck := false }
    let q : Product := { c := 1, a := 1, b := 1, src := 0, zero := false, ck := true }
    let w : Tiling := {}
    let seen : List (List Nat) := [[], [], [], [], [], [], [], []]
    let o (i : Instr) (w : Tiling) := held 5 (.tile (inEngine i) w)
    productOf i = some p ∧ productOf k = some q ∧ p.rows (inEngine i) = 8 ∧ p.steps (inEngine i) = 8 ∧ q.steps (inEngine k) = 9 ∧
    (engine i w).eventOut = some (o i w) ∧ (engine i w).rowHeld (o i w) (inEngine i) w p = none ∧
    (engine k { step := 8, seen := seen }).rowHeld (o k { step := 8, seen := seen }) (inEngine k) { step := 8, seen := seen } q = none ∧
    seen.length = q.rows (inEngine k) ∧ (inEngine i).atBoundary { step := 0, halt := some 3 } = true ∧ (inEngine i).atBoundary { step := 4 } = false ∧
    p.first (inEngine i) {} < p.steps (inEngine i) ∧ p.steps (inEngine i) ≤ p.first (inEngine i) { prog := some (0, 1) } ∧
    (engine i w).planeFor ((inEngine i).iss.rm p.b) (p.depth (inEngine i)) = none ∧
    ({ engine i w with core := { bead.core with planes := [{ desc := planeTag ((inEngine i).iss.rm p.b), depth := p.depth (inEngine i), codes := [] }] } } : State).planeFor
      ((inEngine i).iss.rm p.b) (p.depth (inEngine i)) ≠ none := by decide +kernel

theorem witness_EnginesFinishTheirOperations_merges_and_moves :
    let m (l : Bool) : Merge := { c := 1, a := 1, b := 1, listB := l, clear := true }
    let op := inEngine (.moutm 1 1 1 1 0)
    let on : Slotted := { op with iss := { op.iss with cf := op.iss.cf.set 0 (2 ^ 10) } }
    mergeOf (.moutm 1 1 1 1 0) = some (m false) ∧ mergeOf (.moutm 1 1 1 0 1) = some { m true with clear := false } ∧ cfOlen ((m false).cf op) = false ∧
    cfOlen ((m false).cf on) = true ∧ ({ records := 1 } : Tiling).step < ({ records := 1 } : Tiling).records ∧
    dRows ((inEngine (.mzero 1)).iss.rm 1) = 8 ∧ dCols (op.iss.rm 1) * dBits (op.iss.rm 1) ≠ 0 ∧ (∃ n, ({ started := some 3 } : Tiling).started = some n ∧ n < 4) ∧
    permOf (.mperm 1 7 0 0 0 2) = some { t := 1, count := 8, inverse := false, vector := false, columns := false, pv := 2 } ∧
    dProgress (op.iss.rm 1) = 0 ∧ 8 ≤ dRows (op.iss.rm 1) ∧
    (∀ i ∈ [Instr.mzero 1, .mbld 1, .mdst 1 0, .mdld 1 0, .mpiv 127 3 0, .mperm 1 7 0 0 0 2],
      (engine i { started := some 0 }).eventOut = some (held 5 (.tile (inEngine i) { started := some 0 }))) :=
  ⟨rfl, rfl, by decide +kernel, by decide +kernel, by decide, by decide +kernel, by decide +kernel, ⟨3, rfl, by decide⟩, rfl, by decide +kernel,
    by decide +kernel, by decide +kernel⟩

/-- The zero tile: `mlu` that does not replace a zero pivot fails in its first step, `mlu` that replaces one does not. -/
theorem witness_EnginesFinishTheirOperations_factorisations :
    let failed (i : Instr) : Option (Option (BitVec 8 × Nat)) :=
      (facJob (inEngine i)).map fun j => (j.step ((engine i {}).facHolds false (inEngine i) j {}).2.1 0).failed
    (facJob (inEngine (.mlu 1 0 0 0))).map (·.steps) = some 8 ∧ (facJob (inEngine (.mlu 1 0 0 0))).map (·.pv) = some (some 0) ∧
    (facJob (inEngine (.mtrsm 1 1 0 0 0 0 1 0))).map (·.pv) = some none ∧ (failed (.mlu 1 0 0 0)).map (·.isSome) = some true ∧
    failed (.mlu 1 1 0 0) = some none ∧ (engine (.mlu 1 0 0 0) {}).q.trap = none ∧
    (facJob (inEngine (.mlu 1 0 0 0))).map (fun j => decide (j.progress (inEngine (.mlu 1 0 0 0)) {} < j.steps)) = some true := by decide +kernel

theorem witness_BeadsStartHaltAndResume :
    let b : Bead := { record := 0, strand := 7, index := 0, ready := some 0, strips := 0, saved := none, gang := false }
    let placing := { bead with hub := { bead.hub with placing := [(b, bead.core.bank, 0)] } }
    let drained := { bead with q := {}, oq := { state := .draining, wait := .watch 0 }, now := 64 }
    let draining := { bead with q := { bead.q with state := .draining } }
    let lost := { bead with arg := .flag true, oq := { state := .translation } }
    let strike := { bead with arg := .region 0 0 }
    let c : Clasp := { number := 9, size := 2, sync := true, ranks := [0, 1], channel := none, fallback := none, packages := [], runtime := false,
                       arrived := [], released := some 5, round := 0 }
    let s := { bead with arg := .barrier 9 [], c := { bead.c with bead := 0x90000 }, q := { bead.q with cbarAt := some 1 }, hub := { bead.hub with clasps := [c] } }
    placing.hub.placing = [(b, placing.core.bank, 0)] ∧ b.saved = none ∧ drained.q.state ≠ .active ∧ bead.tileQueue bead.core.bank = [] ∧
    bead.hub.beads = [] ∧ bead.strands = [] ∧ bead.q.preemptBy = false ∧
    (let u := { bead with q := {}, hub := { bead.hub with beads := [b], map := [bead.core.phys] } }
     u.hub.beads = [b] ∧ b.ready = some 0 ∧ u.strands = [b.strand.toNat] ∧ u.queued b.strand.toNat = false ∧
     u.hub.clasp (wClasp (rWord1 b.record)) = none ∧ u.idleFor b = true ∧ u.admits b 0 = true ∧ u.q.preemptBy = false) ∧
    drained.q.state = .empty ∧ drained.oq.state = .draining ∧ drained.oq.wait = .watch 0 ∧ 0 ≤ drained.now ∧ drained.core.parked = false ∧
    (let u := { bead with q := {}, oq := { state := .barrier, cbarAt := some 1, cbarRel := some 5 } }
     u.q.state = .empty ∧ u.oq.state ≠ .active ∧ u.bankReady u.oc u.oq = true) ∧
    draining.q.state = .draining ∧ draining.oq.state = .empty ∧ draining.q.resume.2.1 = 0 ∧ draining.q.resume.2.2.2 = 0 ∧
    lost.oq.state = .translation ∧ lost.q.state ≠ .translation ∧ true = (!lost.core.bank) ∧
    (0 : BitVec 3).toNat = strike.board ∧ (0 : BitVec 4).toNat = regionOfCore strike.core.phys ∧ strike.undo = [] ∧ strike.q.wait = .none ∧
    (strike.hub.reports.filter fun x => x.1 == 0 && x.2.1 == 0).length < 16 ∧
    s.hub.clasp 9 = some c ∧ c.released = some 5 ∧ s.c.claspNo = 9 ∧ s.q.cbarAt ≠ none ∧ s.q.cbarRel = none ∧
    (let u := { s with hub := { s.hub with waitSize := 1 } }
     u.hub.beads.length < u.hub.waitSize ∧ u.core.removal = false) := by decide +kernel

theorem witness_HostAndPackagesReachTheMachine :
    let a : DWord := 0x8000000000100000
    let s := strands
    s.hub.owed = none ∧ ({ s.hub with owed := some (0, 1) } : Hub).owed ≠ none ∧ ({ bead.hub.power with command := 7 } : Power).step = 7 ∧
    s.lcap 6 = 0 ∧ s.lcap 7 = 1 ∧ 2 ^ s.lcap 7 < (3 + 2 ^ 32 - s.strandHead 7) % 2 ^ 32 ∧ (2 + 2 ^ 32 - s.strandHead 7) % 2 ^ 32 ≤ 2 ^ s.lcap 7 ∧
    bead.outs = [] ∧ (onOut (.gstore [{ addr := 7 * 4096, bytes := [1] }] 0)).writesRange (held 5 (.gstore [{ addr := 7 * 4096, bytes := [1] }] 0)) (7 * 4096) 4096 = true ∧
    deviceHalf a.toNat = true ∧ bead.hub.boot.recovery = false ∧ bead.hub.power.step ≠ 7 ∧ bead.mem.wf = true ∧
    bead.mem.wrong = [] ∧ bead.mem.poison = [] ∧ deviceHalf 0x100000 = false ∧ bead.hub.access = [] ∧
    (let u := { bead with hub := { bead.hub with access := [(3, a.toNat, a.toNat + 64)] } }
     (∃ x ∈ u.hub.access, x.1 = 3 ∧ x.2.1 ≤ a.toNat ∧ a.toNat + 64 ≤ x.2.2) ∧ bcHome a.toNat = true) := by decide +kernel

theorem witness_RefreshPowerAndBoot :
    let scrub := { bead with arg := .scrub 1 2 3 4 [] }
    let pins := { bead with arg := .pins 2 }
    (16 : Nat) < 17 ∧ bead.mem.wrong = [] ∧ bead.mem.flaky = [] ∧ bead.deferring = false ∧ bead.refreshing 16 = false ∧ bead.midRow 16 = false ∧ bead.groupDead 16 127 = false ∧ bead.oldestOverdue 16 = none ∧
    bead.core.slots.toList[16]? = some (0xA6E4A * 8, 0) ∧ 0xA6E4A * 8 ≤ ({ bead with now := 0xA6E4A * 8 } : State).now ∧
    ({ bead with core := { bead.core with deferEnd := some 9 } } : State).deferring = true ∧ bead.core.overdue = [] ∧
    scrub.hub.telemetry = none ∧ pins.hub.power.lastPins ≠ 2 ∧ ({ pins with arg := .pins 0 } : State).hub.power.lastPins = 0 ∧
    bead.hub.boot.recovery = false ∧ bead.mem.flaky = [] ∧ capOf bead.hub.power.step < 3600001 ∧
    bead.hub.power.actions < bead.hub.lastAction ∧ pins.q.state = .active ∧ pins.q.wait = .none ∧
    bead.hub.boot.pfImage = none ∧ bead.hub.boot.verified 0 = none := by decide +kernel

/-- Which images verify is a free value (log 11): where one does, nineteen copies of it are a board flash whose images all verify. -/
theorem witness_RefreshPowerAndBoot_images : ∀ x, imageValid x = true →
    ∀ i < 19, ({ flash := (List.range 19).map fun k => (BitVec.ofNat 5 k, false, x) } : BootState).verified (BitVec.ofNat 5 i) ≠ none := by
  intro x h i hi
  have e : ((List.range 19).map fun k => (BitVec.ofNat 5 k, false, x)).find? (fun f => f.1 == BitVec.ofNat 5 i && f.2.1 == false) = some (BitVec.ofNat 5 i, false, x) := by
    interval_cases i <;> rfl
  unfold BootState.verified
  dsimp only
  rw [e]
  simp [Option.filter, h]

/-- An image of no context that is complete, with the digest of its contents. -/
theorem witness_RefreshPowerAndBoot_power :
    ∃ x : PfImage, x.complete = true ∧ x.digest = shake256 64 (x.contexts.flatMap PfContext.bytes) :=
  ⟨{ complete := true, contexts := [], digest := shake256 64 (([] : List PfContext).flatMap PfContext.bytes) }, rfl, by dsimp only⟩

/-- `li x1, 5` alone at the pc after reset. -/
theorem witness_StepExecutesTheDecodedOperation : AtRest (placed 0x1C200005) := by
  unfold AtRest Clean
  refine ⟨?_, ?_, ?_, ?_, ?_, ?_, ?_, ?_, ?_, ?_, ?_, ?_, ?_, ?_, ?_, ?_, ?_, ?_, ?_, ?_, ?_, ?_, ?_, ?_, ?_, ?_, ⟨?_, ?_, ?_⟩, ?_, ?_, ?_⟩ <;> decide +kernel

theorem witness_StepExecutesTheDecodedOperation_issue :
    let s := placed 0x1C200005
    let o := lone s 0 0x1C200005 (.li 1 5)
    s.fetch s.c.pc = .ok (loneWords 0 0x1C200005) ∧ decodeSlot .c 0x1C200005 = .ok (.li 1 5) ∧ s.bundleFault 0 (loneWords 0 0x1C200005) = none ∧
    s.interlocked o = false ∧ s.unready o = false ∧ s.clashes o = false ∧ s.badJump [o] = none ∧ (issued s o).refusal o none = none := by
  decide +kernel

theorem witness_EveryOperationDecodesFromItsWord : slotOf (.li 31 (-1)) = some .c ∧ Instr.wf (.li 31 (-1)) = true :=
  ⟨rfl, rfl⟩

theorem witness_EveryDecodedWordIsItsOperationsWord : (0x1C200005 : Nat) ≠ 0 ∧ 0x1C200005 < 2 ^ 32 ∧ decodeSlot .c 0x1C200005 = .ok (.li 1 5) :=
  ⟨by decide, by decide, rfl⟩

theorem witness_EveryStepKeepsMemoryCanonical : State.reset.mem.wf = true ∧ bead.mem.wf = true ∧
    (match step (placed 0x1C200005) with
      | .next t => t.mem.wf
      | .fault _ => false
      | .refused _ => false) = true := by decide +kernel

theorem witness_NoInstructionStopsTheMachine : State.reset.now + 1 < 2 ^ 64 ∧ 2 ^ 64 ≤ ({ bead with now := 2 ^ 64 - 1 } : State).now + 1 := by
  decide +kernel

end Sys2Proof.Tests
end

section
/-! SUPPORT. O58: a word that decodes is the word of its operation. Each arm of the decoder tests some fields of the word and passes
the others on as operands. A field is the difference of two cleared words (`place_fbv`), so the fields of an arm, added up as
`encodeNat` adds them, telescope to the whole word exactly when they leave no bit out. -/

namespace Sys2Proof.DecodedWord

/-- The word `w` with its bits below bit `k` cleared; an integer, so that differences of cleared words add up. -/
def above (w k : Nat) : ℤ := (2 ^ k * (w / 2 ^ k) : Nat)

@[simp] theorem above_zero (w : Nat) : above w 0 = w := by simp [above]

theorem above_32 {w : Nat} (hw : w < 2 ^ 32) : above w 32 = 0 := by
  rw [above, Nat.div_eq_of_lt hw, Nat.mul_zero, Nat.cast_zero]

/-- A field in its place is what clearing it takes away. -/
theorem place_fld (w lo n : Nat) : ((fld w lo n * 2 ^ lo : Nat) : ℤ) = above w lo - above w (lo + n) := by
  rw [eq_sub_iff_add_eq', above, above, ← Nat.cast_add, fld, Nat.pow_add, Nat.mul_assoc, ← Nat.div_div_eq_div_mul,
    Nat.mul_comm (_ % _), ← Nat.mul_add, Nat.div_add_mod]

theorem place_fbv (w lo n : Nat) : (((fbv n lo w).toNat * 2 ^ lo : Nat) : ℤ) = above w lo - above w (lo + n) := by
  rw [← place_fld, fbv, BitVec.toNat_ofNat, fld, Nat.mod_mod]

theorem fld_eq_iff (w lo n c : Nat) : fld w lo n = c ↔ above w lo - above w (lo + n) = (c * 2 ^ lo : Nat) := by
  rw [← place_fld, Nat.cast_inj, Nat.mul_left_inj (Nat.two_pow_pos lo).ne']

/-- Whatever operation the decoding `r` answers, it is one of slot `k` and its word is `w`. -/
def Spelled (k : Slot) (w : Nat) (r : Except DecodeError Instr) : Prop :=
  ∀ i, r = .ok i → slotOf i = some k ∧ encodeNat i = w

theorem Spelled.ok_iff {k : Slot} {w : Nat} {i : Instr} :
    Spelled k w (.ok i) ↔ slotOf i = some k ∧ (encodeNat i : ℤ) = w := by
  simp [Spelled, Nat.cast_inj]

theorem Spelled.error {k : Slot} {w : Nat} {e : DecodeError} : Spelled k w (.error e) := nofun

/-- A test of an arm: what fails it goes on to the rest, which needs no failed test. -/
theorem Spelled.ite {k : Slot} {w : Nat} {c : Prop} [Decidable c] {a b : Except DecodeError Instr} (ha : c → Spelled k w a)
    (hb : Spelled k w b) : Spelled k w (if c then a else b) := by
  split
  · exact ha ‹c›
  · exact hb

/-- Slot C (02 Table 2-9): one case an opcode, one an operation of the opcode. -/
theorem rawC_spelled {w : Nat} (h0 : w ≠ 0) (hw : w < 2 ^ 32) : Spelled .c w (rawC w) := by
  unfold rawC
  split
  case h_1 => exact .ite (absurd · h0) .error
  case h_45 => exact .error
  -- an opcode's arm: what is left is each of its answers, under the tests that lead to it
  all_goals
    simp only [rawC01, rawC02, rawC03, rawC04, rawC05, rawC06, rawC07, rawC08, rawC09, rawC0A, rawC0B, rawC0C, rawC10, rawC11, rawC12, rawC13,
      rawC14, rawC18, rawC19, rawC1A, rawC1B, rawC1C, rawC1D, rawC1E, rawC20, rawC21, rawC22, rawC23, rawC24, rawC25, rawC26,
      rawC28, rawC29, rawC2A, rawC30, rawC31, rawC32, rawC33, rawC34, rawC35, rawC36, rawC37, rawC3D]
    repeat' refine .ite (fun hc => ?_) ?_
  -- an operation: its fields, its tests and the opcode as differences of cleared words, which add up to `w`
  all_goals simp only [Spelled.error, Spelled.ok_iff, slotOf.eq_def, encodeNat.eq_def, en1, en2, en3, en4, en5, en6,
    Nat.cast_add, place_fbv, fld_eq_iff, Nat.reduceAdd, above_zero, above_32 hw, true_and] at *
  all_goals omega

/-- Slot V (02 Table 2-10): one case an opcode, one an operation of the opcode. -/
theorem rawV_spelled {w : Nat} (h0 : w ≠ 0) (hw : w < 2 ^ 32) : Spelled .v w (rawV w) := by
  unfold rawV
  split
  case h_1 => exact .ite (absurd · h0) .error
  case h_82 => exact .error
  -- an opcode's arm: what is left is each of its answers, under the tests that lead to it
  all_goals
    simp only [rawV01, rawV02, rawV03, rawV04, rawV05, rawV06, rawV07, rawV08, rawV09, rawV0A, rawV0B, rawV0C, rawV0D, rawV0E, rawV0F, rawV10,
      rawV11, rawV12, rawV13, rawV14, rawV15, rawV16, rawV17, rawV18, rawV19, rawV1A, rawV1B, rawV1C, rawV1D, rawV1E, rawV1F,
      rawV20, rawV21, rawV22, rawV23, rawV24, rawV25, rawV26, rawV27, rawV28, rawV29, rawV30, rawV31, rawV32, rawV33, rawV34,
      rawV35, rawV36, rawV37, rawV38, rawV39, rawV3A, rawV3B, rawV40, rawV41, rawV42, rawV43, rawV44, rawV45, rawV46, rawV47,
      rawV48, rawV49, rawV4A, rawV4B, rawV4C, rawV4D, rawV4E, rawV4F, rawV58, rawV59, rawV5A, rawV5B, rawV5C, rawV68, rawV69,
      rawV6A, rawV6B, rawV70, rawV71]
    repeat' refine .ite (fun hc => ?_) ?_
  -- an operation: its fields, its tests and the opcode as differences of cleared words, which add up to `w`
  all_goals simp only [Spelled.error, Spelled.ok_iff, slotOf.eq_def, encodeNat.eq_def, en1, en2, en3, en4, en5, en6, en7,
    Nat.cast_add, place_fbv, fld_eq_iff, Nat.reduceAdd, above_zero, above_32 hw, true_and] at *
  all_goals omega

/-- Slot M (02 Table 2-11): one case an opcode, one an operation of the opcode. -/
theorem rawM_spelled {w : Nat} (h0 : w ≠ 0) (hw : w < 2 ^ 32) : Spelled .m w (rawM w) := by
  unfold rawM
  split
  case h_1 => exact .ite (absurd · h0) .error
  case h_19 => exact .error
  -- an opcode's arm: what is left is each of its answers, under the tests that lead to it
  all_goals
    simp only [rawM01, rawM02, rawM03, rawM04, rawM05, rawM06, rawM07, rawM08, rawM10, rawM11, rawM20, rawM21, rawM22, rawM23, rawM24, rawM25,
      rawM30]
    repeat' refine .ite (fun hc => ?_) ?_
  -- an operation: its fields, its tests and the opcode as differences of cleared words, which add up to `w`
  all_goals simp only [Spelled.error, Spelled.ok_iff, slotOf.eq_def, encodeNat.eq_def, en1, en2, en3, en4, en5, en6, en7, en8,
    Nat.cast_add, place_fbv, fld_eq_iff, Nat.reduceAdd, above_zero, above_32 hw, true_and] at *
  all_goals omega

/-- Slot T (02 Table 2-12): one case an opcode, one an operation of the opcode. -/
theorem rawT_spelled {w : Nat} (h0 : w ≠ 0) (hw : w < 2 ^ 32) : Spelled .t w (rawT w) := by
  unfold rawT
  split
  case h_1 => exact .ite (absurd · h0) .error
  case h_48 => exact .error
  -- an opcode's arm: what is left is each of its answers, under the tests that lead to it
  all_goals
    simp only [rawT01, rawT02, rawT03, rawT04, rawT05, rawT06, rawT07, rawT08, rawT09, rawT0A, rawT10, rawT11, rawT12, rawT13, rawT14, rawT15,
      rawT16, rawT17, rawT18, rawT19, rawT1A, rawT1B, rawT1C, rawT30, rawT31, rawT32, rawT33, rawT40, rawT41, rawT42, rawT43,
      rawT44, rawT45, rawT46, rawT50, rawT51, rawT52, rawT53, rawT54, rawT55, rawT60, rawT61, rawT62, rawT63, rawT64, rawT68]
    repeat' refine .ite (fun hc => ?_) ?_
  -- an operation: its fields, its tests and the opcode as differences of cleared words, which add up to `w`
  all_goals simp only [Spelled.error, Spelled.ok_iff, slotOf.eq_def, encodeNat.eq_def, en1, en2, en3, en4, en5, en6, en7, en8, en9,
    Nat.cast_add, place_fbv, fld_eq_iff, Nat.reduceAdd, above_zero, above_32 hw, true_and] at *
  all_goals omega

/-- What a slot's decoder answers is well formed, belongs to the slot and has the word decoded. -/
theorem decodeSlot_ok {k : Slot} {w : Nat} {i : Instr} (h0 : w ≠ 0) (hw : w < 2 ^ 32) (h : decodeSlot k w = .ok i) :
    slotOf i = some k ∧ i.wf = true ∧ encodeNat i = w := by
  unfold decodeSlot at h
  dsimp only at h
  split at h
  case h_2 => cases h
  case h_1 j hj =>
    split at h
    case isFalse => cases h
    case isTrue hwf =>
      obtain rfl := Except.ok.inj h
      have hs : slotOf j = some k ∧ encodeNat j = w := by
        cases k with
        | c => exact rawC_spelled h0 hw j hj
        | v => exact rawV_spelled h0 hw j hj
        | m => exact rawM_spelled h0 hw j hj
        | t => exact rawT_spelled h0 hw j hj
      exact ⟨hs.1, hwf, hs.2⟩

/-- Settles O58: the fields that an arm of the decoder tests and passes on fill the word. -/
theorem everyDecodedWordIsItsOperationsWord : Obligations.EveryDecodedWordIsItsOperationsWord :=
  fun _ _ _ => decodeSlot_ok

end Sys2Proof.DecodedWord
end

section
/-! SUPPORT. O56 and O57: words of the manual, and every operation decodes from its word. -/

namespace Sys2Proof.WordRoundTrip
open Sys2Proof Machine Claims Laws

/-- One case an operation: its fields, read back from its word (Laws/PerInstr). -/
theorem roundTrip : ∀ i : Instr, RoundTrip.Statement i
  | .hrep .. => RoundTrip.hrep _ _ _ _ _ | .add .. => RoundTrip.add _ _ _ _ | .sub .. => RoundTrip.sub _ _ _ _ | .mul .. => RoundTrip.mul _ _ _ _
  | .mulh .. => RoundTrip.mulh _ _ _ _ | .mulhn .. => RoundTrip.mulhn _ _ _ _ | .div .. => RoundTrip.div _ _ _ _
  | .divn .. => RoundTrip.divn _ _ _ _ | .rem .. => RoundTrip.rem _ _ _ _ | .remn .. => RoundTrip.remn _ _ _ _ | .and .. => RoundTrip.and _ _ _ _
  | .or .. => RoundTrip.or _ _ _ _ | .xor .. => RoundTrip.xor _ _ _ _ | .shl .. => RoundTrip.shl _ _ _ _ | .shr .. => RoundTrip.shr _ _ _ _
  | .sar .. => RoundTrip.sar _ _ _ _ | .min .. => RoundTrip.min _ _ _ _ | .max .. => RoundTrip.max _ _ _ _ | .minn .. => RoundTrip.minn _ _ _ _
  | .maxn .. => RoundTrip.maxn _ _ _ _ | .clz .. => RoundTrip.clz _ _ _ | .popc .. => RoundTrip.popc _ _ _ | .sext .. => RoundTrip.sext _ _ _ _
  | .zext .. => RoundTrip.zext _ _ _ _ | .addi .. => RoundTrip.addi _ _ _ | .andi .. => RoundTrip.andi _ _ _ | .ori .. => RoundTrip.ori _ _ _
  | .xori .. => RoundTrip.xori _ _ _ | .shli .. => RoundTrip.shli _ _ _ | .shri .. => RoundTrip.shri _ _ _ | .sari .. => RoundTrip.sari _ _ _
  | .li .. => RoundTrip.li _ _ | .lih .. => RoundTrip.lih _ _ _ | .cmp .. => RoundTrip.cmp _ _ _ _ _ | .cmpi .. => RoundTrip.cmpi _ _ _ _
  | .sel .. => RoundTrip.sel _ _ _ _ _ | .kand .. => RoundTrip.kand _ _ _ _ | .kor .. => RoundTrip.kor _ _ _ _ | .kxor .. => RoundTrip.kxor _ _ _ _
  | .knot .. => RoundTrip.knot _ _ _ | .faddD .. => RoundTrip.faddD _ _ _ _ _ | .fsubD .. => RoundTrip.fsubD _ _ _ _ _
  | .fmulD .. => RoundTrip.fmulD _ _ _ _ _ | .fdivD .. => RoundTrip.fdivD _ _ _ _ _ | .fminD .. => RoundTrip.fminD _ _ _ _
  | .fmaxD .. => RoundTrip.fmaxD _ _ _ _ | .fsqrtD .. => RoundTrip.fsqrtD _ _ _ _ | .ffmaD .. => RoundTrip.ffmaD _ _ _ _ _ _
  | .fcmpD .. => RoundTrip.fcmpD _ _ _ _ _ | .fcvtDI .. => RoundTrip.fcvtDI _ _ _ _ | .fcvtDN .. => RoundTrip.fcvtDN _ _ _ _
  | .fcvtID .. => RoundTrip.fcvtID _ _ _ _ | .fcvtND .. => RoundTrip.fcvtND _ _ _ _ | .fcvtDS .. => RoundTrip.fcvtDS _ _ _
  | .fcvtSD .. => RoundTrip.fcvtSD _ _ _ _ | .br .. => RoundTrip.br _ | .brk .. => RoundTrip.brk _ _ | .brnk .. => RoundTrip.brnk _ _
  | .jr .. => RoundTrip.jr _ _ _ | .call .. => RoundTrip.call _ | .ret .. => RoundTrip.ret _ | .loop .. => RoundTrip.loop _ _
  | .xcV .. => RoundTrip.xcV _ _ _ | .xcA .. => RoundTrip.xcA _ _ | .xcM .. => RoundTrip.xcM _ _ _ _ | .xcG .. => RoundTrip.xcG _ _
  | .xcH .. => RoundTrip.xcH _ _ _ | .srd .. => RoundTrip.srd _ _ | .swr .. => RoundTrip.swr _ _ | .wait .. => RoundTrip.wait _ _ _ _
  | .fence .. => RoundTrip.fence _ _ | .drain .. => RoundTrip.drain _ _ | .spawn .. => RoundTrip.spawn _ _ _ _
  | .suspend .. => RoundTrip.suspend _ _ | .join .. => RoundTrip.join _ _ _ | .cbar .. => RoundTrip.cbar _ | .seg .. => RoundTrip.seg _ _ _
  | .trap .. => RoundTrip.trap _ | .scan .. => RoundTrip.scan _ _ | .cmap .. => RoundTrip.cmap _ _ _ | .pmonStart .. => RoundTrip.pmonStart _
  | .pmonStop .. => RoundTrip.pmonStop _ | .pmonClr .. => RoundTrip.pmonClr _ | .pmonClrstart .. => RoundTrip.pmonClrstart _
  | .diagInjFlip .. => RoundTrip.diagInjFlip _ _ | .diagInjCerr .. => RoundTrip.diagInjCerr _ _ | .diagInjPoison .. => RoundTrip.diagInjPoison _ _
  | .diagInjTpoison .. => RoundTrip.diagInjTpoison _ _ | .diagInjStrike .. => RoundTrip.diagInjStrike _ _ | .vadd .. => RoundTrip.vadd _ _ _ _ _ _
  | .vsub .. => RoundTrip.vsub _ _ _ _ _ _ | .vmul .. => RoundTrip.vmul _ _ _ _ _ _ | .vfma .. => RoundTrip.vfma _ _ _ _ _ _
  | .vfms .. => RoundTrip.vfms _ _ _ _ _ _ | .vfnma .. => RoundTrip.vfnma _ _ _ _ _ _ | .vdiv .. => RoundTrip.vdiv _ _ _ _ _ _
  | .vsqrt .. => RoundTrip.vsqrt _ _ _ _ _ | .vrcp .. => RoundTrip.vrcp _ _ _ _ _ | .vrsq .. => RoundTrip.vrsq _ _ _ _ _
  | .vmin .. => RoundTrip.vmin _ _ _ _ _ | .vmax .. => RoundTrip.vmax _ _ _ _ _ | .vabs .. => RoundTrip.vabs _ _ _ _
  | .vneg .. => RoundTrip.vneg _ _ _ _ | .vcmp .. => RoundTrip.vcmp _ _ _ _ _ _ | .vsel .. => RoundTrip.vsel _ _ _ _ _
  | .vclass .. => RoundTrip.vclass _ _ _ _ | .vaddH .. => RoundTrip.vaddH _ _ _ _ _ _ | .vsubH .. => RoundTrip.vsubH _ _ _ _ _ _
  | .vmulH .. => RoundTrip.vmulH _ _ _ _ _ _ | .vfmaH .. => RoundTrip.vfmaH _ _ _ _ _ _ | .vfmsH .. => RoundTrip.vfmsH _ _ _ _ _ _
  | .vfnmaH .. => RoundTrip.vfnmaH _ _ _ _ _ _ | .vminH .. => RoundTrip.vminH _ _ _ _ _ | .vmaxH .. => RoundTrip.vmaxH _ _ _ _ _
  | .vabsH .. => RoundTrip.vabsH _ _ _ _ | .vnegH .. => RoundTrip.vnegH _ _ _ _ | .vcmpH .. => RoundTrip.vcmpH _ _ _ _ _ _ _
  | .vselH .. => RoundTrip.vselH _ _ _ _ _ | .vaddB .. => RoundTrip.vaddB _ _ _ _ _ _ | .vsubB .. => RoundTrip.vsubB _ _ _ _ _ _
  | .vmulB .. => RoundTrip.vmulB _ _ _ _ _ _ | .vfmaB .. => RoundTrip.vfmaB _ _ _ _ _ _ | .vfmsB .. => RoundTrip.vfmsB _ _ _ _ _ _
  | .vfnmaB .. => RoundTrip.vfnmaB _ _ _ _ _ _ | .vminB .. => RoundTrip.vminB _ _ _ _ _ | .vmaxB .. => RoundTrip.vmaxB _ _ _ _ _
  | .vabsB .. => RoundTrip.vabsB _ _ _ _ | .vnegB .. => RoundTrip.vnegB _ _ _ _ | .vcmpB .. => RoundTrip.vcmpB _ _ _ _ _ _ _
  | .vselB .. => RoundTrip.vselB _ _ _ _ _ | .vaddx .. => RoundTrip.vaddx _ _ _ _ _ _ | .vsubx .. => RoundTrip.vsubx _ _ _ _ _ _
  | .vmulx .. => RoundTrip.vmulx _ _ _ _ _ _ | .dwadd .. => RoundTrip.dwadd _ _ _ _ _ _ | .dwsub .. => RoundTrip.dwsub _ _ _ _ _ _
  | .dwmul .. => RoundTrip.dwmul _ _ _ _ _ _ | .dwdiv .. => RoundTrip.dwdiv _ _ _ _ _ _ | .dwnorm .. => RoundTrip.dwnorm _ _ _ _ _
  | .vsum .. => RoundTrip.vsum _ _ _ _ _ | .vsumx .. => RoundTrip.vsumx _ _ _ _ _ | .vmaxr .. => RoundTrip.vmaxr _ _ _ _
  | .vminr .. => RoundTrip.vminr _ _ _ _ | .viadd .. => RoundTrip.viadd _ _ _ _ _ _ | .visub .. => RoundTrip.visub _ _ _ _ _ _
  | .vimul .. => RoundTrip.vimul _ _ _ _ _ _ | .vimad .. => RoundTrip.vimad _ _ _ _ _ _ | .vand .. => RoundTrip.vand _ _ _ _ _
  | .vor .. => RoundTrip.vor _ _ _ _ _ | .vxor .. => RoundTrip.vxor _ _ _ _ _ | .vnot .. => RoundTrip.vnot _ _ _ _
  | .vshl .. => RoundTrip.vshl _ _ _ _ _ _ | .vshr .. => RoundTrip.vshr _ _ _ _ _ _ | .vsar .. => RoundTrip.vsar _ _ _ _ _ _
  | .vicmp .. => RoundTrip.vicmp _ _ _ _ _ _ | .vmand .. => RoundTrip.vmand _ _ _ _ | .vmor .. => RoundTrip.vmor _ _ _ _
  | .vmxor .. => RoundTrip.vmxor _ _ _ _ | .vmnot .. => RoundTrip.vmnot _ _ _ | .vcvtPack .. => RoundTrip.vcvtPack _ _ _ _ _ _
  | .vcvtUnpack .. => RoundTrip.vcvtUnpack _ _ _ _ _ _ | .vscl .. => RoundTrip.vscl _ _ _ _ _ _ | .vexp2 .. => RoundTrip.vexp2 _ _ _ _ _
  | .vlog2 .. => RoundTrip.vlog2 _ _ _ _ _ | .vtanh .. => RoundTrip.vtanh _ _ _ _ _ | .vperm .. => RoundTrip.vperm _ _ _ _
  | .vrot .. => RoundTrip.vrot _ _ _ _ _ _ | .vbcl .. => RoundTrip.vbcl _ _ _ _ _ _ | .xcX .. => RoundTrip.xcX _ _ _ _
  | .xcXl .. => RoundTrip.xcXl _ _ _ | .mdset .. => RoundTrip.mdset _ _ _ | .mdld .. => RoundTrip.mdld _ _ | .mdst .. => RoundTrip.mdst _ _
  | .mbld .. => RoundTrip.mbld _ | .mzero .. => RoundTrip.mzero _ | .moutm .. => RoundTrip.moutm _ _ _ _ _ | .mma .. => RoundTrip.mma _ _ _ _ _
  | .mmaCk .. => RoundTrip.mmaCk _ _ _ _ _ | .mlu .. => RoundTrip.mlu _ _ _ _ | .mchol .. => RoundTrip.mchol _ _ _ | .mqr .. => RoundTrip.mqr _ _ _
  | .mtrsm .. => RoundTrip.mtrsm _ _ _ _ _ _ _ _ | .mperm .. => RoundTrip.mperm _ _ _ _ _ _ | .mpiv .. => RoundTrip.mpiv _ _ _
  | .xcXMatrix .. => RoundTrip.xcXMatrix _ _ _ _ | .adda .. => RoundTrip.adda _ _ _ | .addaImmediate .. => RoundTrip.addaImmediate _ _ _
  | .suba .. => RoundTrip.suba _ _ _ | .subaImmediate .. => RoundTrip.subaImmediate _ _ _ | .shla .. => RoundTrip.shla _ _ _
  | .shlaImmediate .. => RoundTrip.shlaImmediate _ _ _ | .lia .. => RoundTrip.lia _ _ | .hder .. => RoundTrip.hder _ _ _ _ _
  | .hnul .. => RoundTrip.hnul _ | .hld .. => RoundTrip.hld _ _ _ _ | .hst .. => RoundTrip.hst _ _ _ _
  | .scinvRange .. => RoundTrip.scinvRange _ _ _ | .bcfl .. => RoundTrip.bcfl _ _ _ _ | .ld .. => RoundTrip.ld _ _ _ _ _
  | .ldn .. => RoundTrip.ldn _ _ _ _ _ | .st .. => RoundTrip.st _ _ _ _ _ | .vld .. => RoundTrip.vld _ _ _ _ _ | .vst .. => RoundTrip.vst _ _ _ _ _
  | .vlds .. => RoundTrip.vlds _ _ _ _ _ | .vsts .. => RoundTrip.vsts _ _ _ _ _ | .vgth .. => RoundTrip.vgth _ _ _ _ _ _
  | .vsct .. => RoundTrip.vsct _ _ _ _ _ _ | .cld .. => RoundTrip.cld _ _ _ _ _ | .cldVector .. => RoundTrip.cldVector _ _ _ _ _
  | .cst .. => RoundTrip.cst _ _ _ _ _ | .cstVector .. => RoundTrip.cstVector _ _ _ _ _ | .tvld .. => RoundTrip.tvld _ _ _ _ _
  | .tvst .. => RoundTrip.tvst _ _ _ _ _ | .pcfg .. => RoundTrip.pcfg _ _ _ | .pgo .. => RoundTrip.pgo _ _ | .pstop .. => RoundTrip.pstop _
  | .pld .. => RoundTrip.pld _ _ _ _ | .copy .. => RoundTrip.copy _ _ _ _ _ _ _ _ _ | .copyq .. => RoundTrip.copyq _
  | .copyqSt .. => RoundTrip.copyqSt _ | .wstr .. => RoundTrip.wstr _ _ _ _ _ | .frfl .. => RoundTrip.frfl _ _ _ _ _
  | .shift .. => RoundTrip.shift _ _ _ _ _ _ | .reduce .. => RoundTrip.reduce _ _ _ _ _ | .atmAdd .. => RoundTrip.atmAdd _ _ _ _ _ _
  | .atmFadd .. => RoundTrip.atmFadd _ _ _ _ _ _ | .atmMin .. => RoundTrip.atmMin _ _ _ _ _ _ | .atmMax .. => RoundTrip.atmMax _ _ _ _ _ _
  | .atmAnd .. => RoundTrip.atmAnd _ _ _ _ _ _ | .atmOr .. => RoundTrip.atmOr _ _ _ _ _ _ | .atmXor .. => RoundTrip.atmXor _ _ _ _ _ _
  | .atmXchg .. => RoundTrip.atmXchg _ _ _ _ _ _ | .atmCas .. => RoundTrip.atmCas _ _ _ _ _ _ | .atmInc .. => RoundTrip.atmInc _ _ _ _ _ _
  | .bobInit .. => RoundTrip.bobInit _ _ _ _ | .bobArr .. => RoundTrip.bobArr _ _ _ | .bobWait .. => RoundTrip.bobWait _ _ _ _
  | .tsetf .. => RoundTrip.tsetf _ _ _ | .tsete .. => RoundTrip.tsete _ _ _ | .sleepu .. => RoundTrip.sleepu _ | .tdefer .. => RoundTrip.tdefer _
  | .tdead .. => RoundTrip.tdead _ _ _ | .hdead .. => RoundTrip.hdead _ _ _ | .trmw .. => RoundTrip.trmw _ _ _ _ _
  | .xcXAddress .. => RoundTrip.xcXAddress _ _ _ _ | .noOp => RoundTrip.noOp | .yield => RoundTrip.yield | .retire => RoundTrip.retire
  | .leave => RoundTrip.leave | .sege => RoundTrip.sege | .rte => RoundTrip.rte | .halt => RoundTrip.halt | .vpsw => RoundTrip.vpsw
  | .blend0 => RoundTrip.blend0 | .blend1 => RoundTrip.blend1 | .blend2 => RoundTrip.blend2 | .blend3 => RoundTrip.blend3
  | .blend4 => RoundTrip.blend4 | .blend5 => RoundTrip.blend5 | .bret0 => RoundTrip.bret0 | .bret1 => RoundTrip.bret1 | .bret2 => RoundTrip.bret2
  | .bret3 => RoundTrip.bret3 | .bret4 => RoundTrip.bret4 | .bret5 => RoundTrip.bret5 | .scinv => RoundTrip.scinv | .cancel => RoundTrip.cancel
  | .parkedSlotRetry => RoundTrip.parkedSlotRetry | .parkedTooLong => RoundTrip.parkedTooLong | .trapEntry => RoundTrip.trapEntry
  | .outlierListFull => RoundTrip.outlierListFull | .loadReturn => RoundTrip.loadReturn | .translationRetry => RoundTrip.translationRetry
  | .translationFail => RoundTrip.translationFail | .strikeWindow => RoundTrip.strikeWindow | .strikeReport => RoundTrip.strikeReport
  | .dispatchRound => RoundTrip.dispatchRound | .beadStart => RoundTrip.beadStart | .preemptionHalt => RoundTrip.preemptionHalt
  | .contextDrainFinal => RoundTrip.contextDrainFinal | .resumption => RoundTrip.resumption | .strandTailWrite => RoundTrip.strandTailWrite
  | .hubConfigurationWrite => RoundTrip.hubConfigurationWrite | .executableRegistration => RoundTrip.executableRegistration
  | .normalRefresh => RoundTrip.normalRefresh | .forcedRefresh => RoundTrip.forcedRefresh | .groupRefreshEnd => RoundTrip.groupRefreshEnd
  | .deferralEnd => RoundTrip.deferralEnd | .tileOperationStart => RoundTrip.tileOperationStart
  | .tileOperationCompletion => RoundTrip.tileOperationCompletion | .copyCompletion => RoundTrip.copyCompletion
  | .refillCompletion => RoundTrip.refillCompletion | .shiftCompletion => RoundTrip.shiftCompletion | .reduceRound => RoundTrip.reduceRound
  | .atomicEngineServe => RoundTrip.atomicEngineServe | .bobWaitAnswer => RoundTrip.bobWaitAnswer | .barrierRelease => RoundTrip.barrierRelease
  | .cbarSuspend => RoundTrip.cbarSuspend | .sleepuWake => RoundTrip.sleepuWake | .resume => RoundTrip.resume | .resetCore => RoundTrip.resetCore
  | .linkDown => RoundTrip.linkDown | .routeRestore => RoundTrip.routeRestore | .objectInvalidation => RoundTrip.objectInvalidation
  | .atsInvalidation => RoundTrip.atsInvalidation | .cxlMemAccess => RoundTrip.cxlMemAccess | .patrolScrub => RoundTrip.patrolScrub
  | .monitorSample => RoundTrip.monitorSample | .selfTestEnd => RoundTrip.selfTestEnd | .pstepSample => RoundTrip.pstepSample
  | .setPowerStep => RoundTrip.setPowerStep | .throttleEvaluation => RoundTrip.throttleEvaluation | .sensorCheck => RoundTrip.sensorCheck
  | .powerFail => RoundTrip.powerFail | .powerReturn => RoundTrip.powerReturn | .boot => RoundTrip.boot | .attestation => RoundTrip.attestation
  | .storePerformed => RoundTrip.storePerformed | .cxlCacheRecall => RoundTrip.cxlCacheRecall
  | .remotePackageAccess => RoundTrip.remotePackageAccess | .fallBackReadRequest => RoundTrip.fallBackReadRequest
  | .stackScrubPass => RoundTrip.stackScrubPass | .imageWrite => RoundTrip.imageWrite
/-- Settles O57: one lemma an operation says that its fields come back from its word. -/
theorem everyOperationDecodesFromItsWord : Obligations.EveryOperationDecodesFromItsWord :=
  roundTrip

/-- Settles O56: the decoder evaluates on each word. -/
theorem wordsOfTheManualDecode : Obligations.WordsOfTheManualDecode :=
  ⟨rfl, rfl, rfl, rfl, rfl, rfl, rfl, rfl, rfl, rfl, rfl, rfl, rfl, rfl, rfl, rfl, rfl⟩

end Sys2Proof.WordRoundTrip
end

section
/-! SUPPORT. O8: a cross-slot copy. -/

namespace Sys2Proof.CrossSlotCopies
open Sys2Proof Machine Claims Laws

/-- What the shadows leave once one more of them has landed. -/
theorem landed_shadow (s : State) (k : Nat) (w : RegWrite) : landed (s.shadow k w) = w.apply (landed s) := by
  simp only [landed, State.shadow, landAll, List.foldl_append, List.foldl_cons, List.foldl_nil]

theorem copiesX_shadow (s : State) (k : Nat) (d : BitVec 5) (v : DWord) : CopiesX s (s.shadow k (.x d v)) k d v := by
  refine ⟨copies_shadow s k _, ?_⟩
  rw [landed_shadow]
  exact ⟨Ctx.wx_frame .., Ctx.rx_wx_same .., fun r h => Ctx.rx_wx_ne _ _ _ _ h⟩

/-- A copy into the lanes that are on, of one value. -/
theorem copiesV_shadow (s : State) (d : BitVec 6) (on : Nat → Bool) (y : Nat) (hd : d.toNat < 48) :
    CopiesV s (s.shadow 2 (.v d (lanesMask ((List.range 128).filter on)) (lanesValue (((List.range 128).filter on).map fun l => (l, y))))) d on
      (y % 2 ^ 32) := by
  refine ⟨⟨_, _, copies_shadow ..⟩, ?_⟩
  rw [landed_shadow]
  refine ⟨Ctx.wv_frame .., fun l hl => ?_, fun r _ h => Ctx.rv_wv_ne _ _ _ _ h⟩
  simp only [RegWrite.apply, Ctx.rv_wv_same _ _ _ hd, lane_blend on (fun _ => y) 128 _ l hl, hl, true_and]

/-- One lane alone is on. -/
theorem filter_beq_range {l n : Nat} (h : l < n) : (List.range n).filter (· == l) = [l] := by
  rw [List.filter_beq, List.count_eq_one_of_mem List.nodup_range (List.mem_range.2 h), List.replicate_one]

/-- A field of a register as bits. -/
theorem fbv_eq_extractLsb' {n : Nat} (k lo : Nat) (x : BitVec n) : fbv k lo x.toNat = x.extractLsb' lo k := by
  apply BitVec.eq_of_toNat_eq
  simp [fbv, fld, Nat.shiftRight_eq_div_pow]

/-- The bits of word q of a register of w bits, and a value of 64 bits in their place (05 R168, 06 R190, 08 R264). -/
def part64Mask (w q : Nat) : BitVec w := BitVec.ofNat w ((2 ^ 64 - 1) * 2 ^ (64 * q))
def part64Value (w q : Nat) (y : DWord) : BitVec w := BitVec.ofNat w (y.toNat * 2 ^ (64 * q))

/-- 64 bits blended into a register at word q. -/
theorem part64_blendBits {w : Nat} (old : BitVec w) (q : Nat) (y : DWord) :
    Part64 old (blendBits (part64Mask w q) (part64Value w q y) old) q y := by
  intro k hk
  simp only [blendBits, part64Mask, part64Value, BitVec.getLsbD_or, BitVec.getLsbD_and, BitVec.getLsbD_not, BitVec.getLsbD_ofNat, hk, decide_true, Bool.true_and,
    Nat.testBit_mul_two_pow, Nat.testBit_two_pow_sub_one]
  by_cases h : 64 * q ≤ k ∧ k < 64 * q + 64
  · have : k - 64 * q < 64 := by omega
    simp [h.1, h.2, this, BitVec.testBit_toNat]
  · have : 64 * q ≤ k → ¬ k - 64 * q < 64 := by omega
    simp only [h, if_false]
    by_cases e : 64 * q ≤ k <;> simp [e, this]

/-! ## Each copy -/

theorem xcV_copies {s : State} {v : BitVec 6} (h : VReady s 0 [v]) (d : BitVec 5) (l : BitVec 7) :
    ∃ t, exec (.xcV d v l) s = .next t ∧ CopiesX s t 3 d (BitVec.ofNat 64 (lane (s.lat.iss.rv v.toNat) l.toNat)) := by
  obtain ⟨hv, hlent⟩ := h.2 v (List.mem_singleton_self v)
  refine ⟨_, ?_, copiesX_shadow ..⟩
  show execXcV d v l s = _
  rw [execXcV, if_neg (by omega), lentV, hlent, if_neg Bool.false_ne_true]

/-- The form of the copies into v, where nothing is lent and the fields are legal. -/
theorem vIssue_ready {s : State} {v : BitVec 6} {w : BitVec 2} {bad : Bool} (h : VReady s w [v]) (hb : bad = false) (f : State → State) :
    s.vIssue bad [v] f = f s := by
  rw [State.vIssue, hb, lent_false h]; rfl

theorem xcXl_copies {s : State} {v : BitVec 6} (h : VReady s 0 [v]) (x : BitVec 5) (l : BitVec 7) :
    ∃ t, exec (.xcXl v x l) s = .next t ∧ CopiesV s t v (· == l.toNat) ((s.lat.iss.rx x).toNat % 2 ^ 32) := by
  obtain ⟨hv, -⟩ := h.2 v (List.mem_singleton_self v)
  have c := copiesV_shadow s v (· == l.toNat) (s.lat.iss.rx x).toNat hv
  rw [filter_beq_range l.isLt] at c
  refine ⟨_, ?_, c⟩
  show execXcXl v x l s = _
  rw [execXcXl, vIssue_ready h (decide_eq_false (by omega))]; rfl

theorem xcX_copies {s : State} {v : BitVec 6} (h : VReady s 0 [v]) {w : BitVec 2} (hw : w ≠ 3) (x : BitVec 5) (m : BitVec 3) :
    ∃ t, exec (.xcX v x w m) s = .next t ∧ CopiesV s t v (LaneOn s w m) ((s.lat.iss.rx x).toNat % 2 ^ 32) := by
  obtain ⟨hv, -⟩ := h.2 v (List.mem_singleton_self v)
  refine ⟨_, ?_, copiesV_shadow s v (LaneOn s w m) (s.lat.iss.rx x).toNat hv⟩
  show execXcX v x w m s = _
  rw [execXcX, vIssue_ready h (by simpa [hv] using hw), active_eq s w m hw]

theorem xcM_copies_half (s : State) (d : BitVec 5) (m : BitVec 3) (z : BitVec 1) :
    ∃ t, exec (.xcM d 0 m (z.setWidth 4)) s = .next t ∧ CopiesX s t 2 d ((s.lat.iss.rm m).extractLsb' (64 * z.toNat) 64) := by
  have hz : (z.setWidth 4).toNat = z.toNat := BitVec.toNat_setWidth_of_le (by decide)
  refine ⟨_, ?_, copiesX_shadow ..⟩
  show execXcM d 0 m (z.setWidth 4) s = _
  rw [execXcM, if_pos rfl, hz, if_pos z.isLt, fbv_eq_extractLsb']

theorem setWidth_pv_lt (g : BitVec 2) : (g.setWidth 3).toNat < 4 := by
  rw [BitVec.toNat_setWidth_of_le (by decide)]; exact g.isLt

theorem setWidth_pv_back (g : BitVec 2) : (g.setWidth 3).setWidth 2 = g := BitVec.setWidth_setWidth_of_le g (by decide)

theorem xcM_copies_entries (s : State) (d : BitVec 5) (g : BitVec 2) (q : BitVec 4) :
    ∃ t, exec (.xcM d 1 (g.setWidth 3) q) s = .next t ∧ CopiesX s t 2 d ((s.lat.iss.rpv g).extractLsb' (64 * q.toNat) 64) := by
  refine ⟨_, ?_, copiesX_shadow ..⟩
  show execXcM d 1 (g.setWidth 3) q s = _
  rw [execXcM, if_neg (by decide), if_pos ⟨rfl, setWidth_pv_lt g⟩, fbv_eq_extractLsb', setWidth_pv_back]

theorem xcH_copies (s : State) (d : BitVec 5) (a : BitVec 4) (z : BitVec 1) :
    ∃ t, exec (.xcH d a z) s = .next t ∧ CopiesX s t 2 d ((s.lat.iss.rh a).extractLsb' (64 * z.toNat) 64) := by
  refine ⟨_, ?_, copiesX_shadow ..⟩
  show execXcH d a z s = _
  rw [execXcH, fbv_eq_extractLsb']

theorem exec_xcXMatrix_half (s : State) (m : BitVec 3) (x : BitVec 5) (z : BitVec 1) :
    exec (.xcXMatrix m x 0 (z.setWidth 4)) s =
      .next (s.shadow 2 (.m m (part64Mask 128 z.toNat) (part64Value 128 z.toNat (s.lat.iss.rx x)))) := by
  have hz : (z.setWidth 4).toNat = z.toNat := BitVec.toNat_setWidth_of_le (by decide)
  show execXcXMatrix m x 0 (z.setWidth 4) s = _
  rw [execXcXMatrix, if_pos ⟨rfl, hz ▸ z.isLt⟩, hz]; rfl

theorem exec_xcXMatrix_entries (s : State) (g : BitVec 2) (x : BitVec 5) (q : BitVec 4) :
    exec (.xcXMatrix (g.setWidth 3) x 1 q) s =
      .next (s.shadow 2 (.pv g (part64Mask 1024 q.toNat) (part64Value 1024 q.toNat (s.lat.iss.rx x)))) := by
  show execXcXMatrix (g.setWidth 3) x 1 q s = _
  rw [execXcXMatrix, if_neg (by simp), if_pos ⟨rfl, setWidth_pv_lt g⟩, setWidth_pv_back]; rfl

theorem exec_xcXMatrix_g (s : State) (g : BitVec 2) (x : BitVec 5) :
    exec (.xcXMatrix (g.setWidth 3) x 2 0) s = .next (s.shadow 2 (.g g (s.lat.iss.rx x))) := by
  show execXcXMatrix (g.setWidth 3) x 2 0 s = _
  rw [execXcXMatrix, if_neg (by simp), if_neg (by simp), if_pos ⟨rfl, rfl, setWidth_pv_lt g⟩, setWidth_pv_back]

theorem exec_xcXAddress_handle {s : State} (h : s.c.sys = true) (a : BitVec 4) (x : BitVec 5) (z : BitVec 1) :
    exec (.xcXAddress 1 a x z) s =
      .next (s.shadow 2 (.h a (part64Mask 128 z.toNat) (part64Value 128 z.toNat (s.lat.iss.rx x)))) := by
  show execXcXAddress 1 a x z s = _
  rw [execXcXAddress, if_neg (by simp), if_pos rfl, State.privileged, if_pos h]; rfl

theorem xcXMatrix_copies_half (s : State) (m : BitVec 3) (x : BitVec 5) (z : BitVec 1) :
    ∃ t, exec (.xcXMatrix m x 0 (z.setWidth 4)) s = .next t ∧ (∃ n o, Copies s t 2 (.m m n o)) ∧
      landed t = { landed s with m := (landed t).m } ∧ Part64 ((landed s).rm m) ((landed t).rm m) z.toNat (s.lat.iss.rx x) ∧
      ∀ r, r ≠ m → (landed t).rm r = (landed s).rm r := by
  refine ⟨_, exec_xcXMatrix_half s m x z, ⟨_, _, copies_shadow ..⟩, ?_⟩
  rw [landed_shadow, RegWrite.apply, Ctx.rm_wm_same]
  exact ⟨rfl, part64_blendBits _ _ _, fun r h => Ctx.rm_wm_ne _ _ _ _ h⟩

theorem xcXMatrix_copies_entries (s : State) (g : BitVec 2) (x : BitVec 5) (q : BitVec 4) :
    ∃ t, exec (.xcXMatrix (g.setWidth 3) x 1 q) s = .next t ∧ (∃ n o, Copies s t 2 (.pv g n o)) ∧
      landed t = { landed s with pv := (landed t).pv } ∧ Part64 ((landed s).rpv g) ((landed t).rpv g) q.toNat (s.lat.iss.rx x) ∧
      ∀ r, r ≠ g → (landed t).rpv r = (landed s).rpv r := by
  refine ⟨_, exec_xcXMatrix_entries s g x q, ⟨_, _, copies_shadow ..⟩, ?_⟩
  rw [landed_shadow, RegWrite.apply, Ctx.rpv_wpv_same]
  exact ⟨rfl, part64_blendBits _ _ _, fun r h => Ctx.rpv_wpv_ne _ _ _ _ h⟩

theorem xcXMatrix_copies_g (s : State) (g : BitVec 2) (x : BitVec 5) :
    ∃ t, exec (.xcXMatrix (g.setWidth 3) x 2 0) s = .next t ∧ Copies s t 2 (.g g (s.lat.iss.rx x)) ∧
      landed t = { landed s with g := (landed t).g } ∧ (landed t).rg g = s.lat.iss.rx x &&& 0x00FF07FFFFFFFFFF ∧
      ∀ r, r ≠ g → (landed t).rg r = (landed s).rg r := by
  refine ⟨_, exec_xcXMatrix_g s g x, copies_shadow .., ?_⟩
  rw [landed_shadow, RegWrite.apply, Ctx.rg_wg_same]
  exact ⟨rfl, rfl, fun r h => Ctx.rg_wg_ne _ _ _ _ h⟩

theorem xcXAddress_copies_address (s : State) (a : BitVec 4) (x : BitVec 5) :
    ∃ t, exec (.xcXAddress 0 a x 0) s = .next t ∧ Copies s t 2 (.a a (s.lat.iss.rx x)) ∧
      landed t = { landed s with a := (landed t).a } ∧ (landed t).ra a = s.lat.iss.rx x ∧ ∀ r, r ≠ a → (landed t).ra r = (landed s).ra r := by
  have e : exec (.xcXAddress 0 a x 0) s = .next (s.shadow 2 (.a a (s.lat.iss.rx x))) := rfl
  refine ⟨_, e, copies_shadow .., ?_⟩
  rw [landed_shadow, RegWrite.apply, Ctx.ra_wa_same]
  exact ⟨rfl, rfl, fun r h => Ctx.ra_wa_ne _ _ _ _ h⟩

theorem xcXAddress_copies_handle {s : State} (h : s.c.sys = true) (a : BitVec 4) (x : BitVec 5) (z : BitVec 1) :
    ∃ t, exec (.xcXAddress 1 a x z) s = .next t ∧ (∃ n o, Copies s t 2 (.h a n o)) ∧
      landed t = { landed s with h := (landed t).h } ∧ Part64 ((landed s).rh a) ((landed t).rh a) z.toNat (s.lat.iss.rx x) ∧
      ∀ r, r ≠ a → (landed t).rh r = (landed s).rh r := by
  refine ⟨_, exec_xcXAddress_handle h a x z, ⟨_, _, copies_shadow ..⟩, ?_⟩
  rw [landed_shadow, RegWrite.apply, Ctx.rh_wh_same]
  exact ⟨rfl, part64_blendBits _ _ _, fun r h => Ctx.rh_wh_ne _ _ _ _ h⟩

/-- Settles O8: each copy appends one shadow, and what the shadows leave once it has landed is read back. -/
theorem crossSlotCopiesLandInTheirRegister : Obligations.CrossSlotCopiesLandInTheirRegister := by
  intro s x d v l a m g w q z
  exact ⟨fun h => ⟨xcV_copies h d l, xcXl_copies h x l, fun hw => xcX_copies h hw x m⟩,
    ⟨_, rfl, copiesX_shadow s 2 d _⟩, ⟨_, rfl, copiesX_shadow s 2 d _⟩, xcH_copies s d a z, xcM_copies_half s d m z,
    xcM_copies_entries s d g q, xcXMatrix_copies_half s m x z, xcXMatrix_copies_entries s g x q, xcXMatrix_copies_g s g x,
    xcXAddress_copies_address s a x, fun h => xcXAddress_copies_handle h a x z⟩

end Sys2Proof.CrossSlotCopies
end

section
/-! SUPPORT. O10 and O11: what stops `srd`, `swr` and the privileged operations, and what the format registers and the registers of the core
read as and are written to. -/

namespace Sys2Proof.StatusAccess
open Sys2Proof Machine Claims Laws

/-! ## What an access does: the three ways it can go (04 R123 to R125) -/

theorem srd_undefined {s : State} {n : BitVec 12} (h : statusDefined n = false) (d : BitVec 5) :
    ∃ t, exec (.srd d n) s = .next t ∧ Refused s t 0x01 := by
  refine ⟨_, ?_, refused_raiseIssue s 0x01⟩
  show execSrd d n s = _
  rw [execSrd, h]; rfl

theorem srd_privileged {s : State} {n : BitVec 12} (h : statusDefined n = true) (hs : s.c.sys = false) (hn : srdSystem n.toNat = true)
    (d : BitVec 5) : ∃ t, exec (.srd d n) s = .next t ∧ Refused s t 0x03 := by
  refine ⟨_, ?_, refused_raiseIssue s 0x03⟩
  show execSrd d n s = _
  rw [execSrd, h, hn, hs]; rfl

theorem srd_reads {s : State} {n : BitVec 12} (h : statusDefined n = true) (hn : srdSystem n.toNat = false) {v : DWord}
    (hv : s.srd n.toNat = v) (d : BitVec 5) : ∃ t, exec (.srd d n) s = .next t ∧ WritesX s t d v := by
  refine ⟨_, ?_, writesX_of hv⟩
  show execSrd d n s = _
  rw [execSrd, h, hn]; rfl

theorem swr_undefined {s : State} {n : BitVec 12} (h : statusDefined n = false) (a : BitVec 5) :
    ∃ t, exec (.swr a n) s = .next t ∧ Refused s t 0x01 := by
  refine ⟨_, ?_, refused_raiseIssue s 0x01⟩
  show execSwr a n s = _
  rw [execSwr, h]; rfl

theorem swr_privileged {s : State} {n : BitVec 12} (h : statusDefined n = true) (hs : s.c.sys = false) (hn : swrSystem n.toNat = true)
    (a : BitVec 5) : ∃ t, exec (.swr a n) s = .next t ∧ Refused s t 0x03 := by
  refine ⟨_, ?_, refused_raiseIssue s 0x03⟩
  show execSwr a n s = _
  rw [execSwr, h, hn, hs]; rfl

/-- The level allows a write: at bead level, to a register that is not of the system. -/
def MayWrite (s : State) (n : Nat) : Prop := (swrSystem n && !s.c.sys) = false

theorem mayWrite_of_sys {s : State} (h : s.c.sys = true) (n : Nat) : MayWrite s n := by rw [MayWrite, h, Bool.not_true, Bool.and_false]

theorem swr_faults {s : State} {n : BitVec 12} {a : BitVec 5} (h : statusDefined n = true) (hn : MayWrite s n.toNat)
    (hr : swrRefuses n.toNat (s.c.rx a) = true) :
    ∃ t, exec (.swr a n) s = .next t ∧ Faults s t 0x01 (BitVec.ofNat 64 (s.lat.slot.toNat + s.lat.word.toNat * 2 ^ 32)) := by
  refine ⟨_, ?_, faults_raise s 0x01 _⟩
  show execSwr a n s = _
  rw [execSwr, h, hn, hr]; rfl

theorem swr_writes {s : State} {n : BitVec 12} {a : BitVec 5} (h : statusDefined n = true) (hn : MayWrite s n.toNat)
    (hr : swrRefuses n.toNat (s.c.rx a) = false) : exec (.swr a n) s = .next (s.swr n.toNat (s.c.rx a)) := by
  show execSwr a n s = _
  rw [execSwr, h, hn, hr]; rfl

/-! ## O10 -/

theorem statusDefined_iff (n : BitVec 12) : statusDefined n = true ↔
    n.toNat ≤ 0x00E ∨ (0x010 ≤ n.toNat ∧ n.toNat ≤ 0x017) ∨ (0x020 ≤ n.toNat ∧ n.toNat ≤ 0x02F) ∨ (0x040 ≤ n.toNat ∧ n.toNat ≤ 0x07F) := by
  simp only [statusDefined, Bool.or_eq_true, decide_eq_true_eq, or_assoc]

/-- Each privileged operation does all that it does behind the check of the level. -/
theorem exec_privileged (s : State) {d a b : BitVec 5} {h o l r : BitVec 4} {q k : BitVec 1} :
    ∀ i ∈ privilegedOps d a b h o l r q k, ∃ f, exec i s = .next (s.privileged f) := by
  simp only [privilegedOps, List.forall_mem_cons]
  exact ⟨⟨_, rfl⟩, ⟨_, rfl⟩, ⟨_, rfl⟩, ⟨_, rfl⟩, ⟨_, rfl⟩, ⟨_, rfl⟩, ⟨_, rfl⟩, ⟨_, rfl⟩, ⟨_, rfl⟩, ⟨_, rfl⟩, ⟨_, rfl⟩, nofun⟩

theorem refused_privileged {s : State} (h : s.c.sys = false) (f : State → State) : Refused s (s.privileged f) 0x03 := by
  rw [State.privileged, h]
  exact refused_raiseIssue s 0x03

/-- Settles O10. -/
theorem privilegeIsChecked : Obligations.PrivilegeIsChecked := by
  refine ⟨fun s d n => ⟨fun h => ⟨srd_undefined h d, swr_undefined h d⟩, fun hs lo hi => ?_, fun hs hn => ?_⟩, ?_⟩
  · have hd : statusDefined n = true := (statusDefined_iff n).2 (by omega)
    exact ⟨srd_privileged hd hs (decide_eq_true ⟨lo, hi⟩) d, swr_privileged hd hs (decide_eq_true (.inr (.inl ⟨lo, hi⟩))) d⟩
  · exact swr_privileged ((statusDefined_iff n).2 (by omega)) hs (decide_eq_true (by omega)) d
  · intro s d a b h o l r q k hs i hi
    obtain ⟨f, hf⟩ := exec_privileged s i hi
    exact ⟨_, hf, refused_privileged hs f⟩

/-! ## Values and writes of the registers of O11 -/

/-- A register number in its 12 bits. -/
theorem number_toNat {n : Nat} (h : n < 0x80) : (BitVec.ofNat 12 n).toNat = n := by
  rw [BitVec.toNat_ofNat]; exact Nat.mod_eq_of_lt (by omega)

theorem statusDefined_number {n : Nat} (h : n < 0x80) (hd : (0x20 ≤ n ∧ n < 0x30) ∨ 0x40 ≤ n) : statusDefined (BitVec.ofNat 12 n) = true := by
  rw [statusDefined_iff, number_toNat h]; omega

/-- The registers of a number above 0x020 are read at either level. -/
theorem srd_reads_number {s : State} {n : Nat} (h : n < 0x80) (hd : (0x20 ≤ n ∧ n < 0x30) ∨ 0x40 ≤ n) {v : DWord} (hv : s.srd n = v)
    (d : BitVec 5) : ∃ t, exec (.srd d (BitVec.ofNat 12 n)) s = .next t ∧ WritesX s t d v :=
  srd_reads (statusDefined_number h hd) (decide_eq_false (by rw [number_toNat h]; omega)) ((congrArg s.srd (number_toNat h)).trans hv) d

theorem swr_writes_number {s : State} {n : Nat} {a : BitVec 5} (h : n < 0x80) (hd : (0x20 ≤ n ∧ n < 0x30) ∨ 0x40 ≤ n) (hn : MayWrite s n)
    (hr : swrRefuses n (s.c.rx a) = false) : exec (.swr a (BitVec.ofNat 12 n)) s = .next (s.swr n (s.c.rx a)) := by
  have e := number_toNat h
  rw [swr_writes (statusDefined_number h hd) (e.symm ▸ hn) (e.symm ▸ hr), e]

theorem swr_faults_number {s : State} {n : Nat} {a : BitVec 5} (h : n < 0x80) (hd : (0x20 ≤ n ∧ n < 0x30) ∨ 0x40 ≤ n) (hn : MayWrite s n)
    (hr : swrRefuses n (s.c.rx a) = true) : ∃ t, exec (.swr a (BitVec.ofNat 12 n)) s = .next t ∧
      Faults s t 0x01 (BitVec.ofNat 64 (s.lat.slot.toNat + s.lat.word.toNat * 2 ^ 32)) :=
  swr_faults (statusDefined_number h hd) ((number_toNat h).symm ▸ hn) ((number_toNat h).symm ▸ hr)

theorem srd_format (s : State) {n : Nat} (h : n < 16) : s.srd (0x20 + n) = s.c.cf[n] := by
  unfold State.srd
  iterate 23 rw [if_neg (by omega)]
  rw [if_pos (by omega), Nat.add_sub_cancel_left]
  simp [h]

theorem srd_monitor (s : State) {u j : Nat} (hu : u < 4) (hj : j < 12) : s.srd (0x40 + 12 * u + j) = s.core.mon[u].reg j := by
  unfold State.srd
  iterate 24 rw [if_neg (by omega)]
  rw [if_pos (by omega), show (0x40 + 12 * u + j - 0x40) / 12 = u by omega, show (0x40 + 12 * u + j - 0x40) % 12 = j by omega]
  simp [hu]

theorem srd_stall (s : State) {n : Nat} (h : n < 16) : s.srd (0x70 + n) = s.core.stalls[n] := by
  unfold State.srd
  iterate 25 rw [if_neg (by omega)]
  rw [Nat.add_sub_cancel_left]
  simp [h]

theorem swr_format (s : State) {n : Nat} (h : n < 16) (w : DWord) : s.swr (0x20 + n) w =
    { s with c := { s.c with cf := s.c.cf.set n ((w &&& 0xFFFFFFFFFFFF07FF) ||| (s.c.cf[n] &&& 0xF800)) h } } := by
  unfold State.swr
  iterate 18 rw [if_neg (by omega)]
  rw [if_pos (by omega)]
  simp only [Nat.add_sub_cancel_left, h, dite_true]; rfl

theorem swr_monitor (s : State) {u : Nat} (h : u < 4) (w : DWord) : s.swr (0x40 + 12 * u) w =
    { s with core := { s.core with mon := s.core.mon.set u { s.core.mon[u] with
      ctl := (w &&& 0x0000FFFFFFFF0F1F) ||| (s.core.mon[u].ctl &&& ~~~0x0000FFFFFFFF0F1F) } h } } := by
  unfold State.swr
  iterate 19 rw [if_neg (by omega)]
  rw [if_pos (by omega)]
  simp only [Nat.add_sub_cancel_left, Nat.mul_div_cancel_left u (by decide : 0 < 12), Nat.mul_mod_right, h, dite_true, if_true]; rfl

theorem swr_stall (s : State) {n : Nat} (h : n < 16) (w : DWord) : s.swr (0x70 + n) w =
    { s with core := { s.core with stalls := s.core.stalls.set n w h } } := by
  unfold State.swr
  iterate 20 rw [if_neg (by omega)]
  rw [if_pos (by omega)]
  simp only [Nat.add_sub_cancel_left, h, dite_true]

/-- A format register refuses a value with a reserved format. -/
theorem swrRefuses_format {n : Nat} (h : n < 16) (w : DWord) : swrRefuses (0x20 + n) w = (fmtBits (w.setWidth 8) == 0) := by
  have h1 : 0x20 + n < 0x30 := by omega
  have h2 : (0x20 + n == 0x15) = false := beq_false_of_ne (by omega)
  have h3 : ¬(0x40 ≤ 0x20 + n ∧ 0x20 + n < 0x70) := by omega
  simp only [swrRefuses, h1, h2, h3, Nat.le_add_right, and_self, decide_true, decide_false, Bool.true_and, Bool.false_and, Bool.or_false]

/-- The control register of a monitor unit refuses a source that no table gives. -/
theorem swrRefuses_monitor {u : Nat} (h : u < 4) (w : DWord) : swrRefuses (0x40 + 12 * u) w = decide (11 ≤ fld w.toNat 0 5) := by
  have h1 : ¬(0x20 ≤ 0x40 + 12 * u ∧ 0x40 + 12 * u < 0x30) := by omega
  have h2 : (0x40 + 12 * u == 0x15) = false := beq_false_of_ne (by omega)
  have h3 : 0x40 ≤ 0x40 + 12 * u ∧ 0x40 + 12 * u < 0x70 := by omega
  simp only [swrRefuses, h1, h2, h3, Nat.add_sub_cancel_left, Nat.mul_mod_right, and_self, decide_true, decide_false, beq_self_eq_true,
    Bool.true_and, Bool.false_and, Bool.false_or]

theorem swrRefuses_stall {n : Nat} (w : DWord) : swrRefuses (0x70 + n) w = false := by
  have h1 : ¬(0x20 ≤ 0x70 + n ∧ 0x70 + n < 0x30) := by omega
  have h2 : (0x70 + n == 0x15) = false := beq_false_of_ne (by omega)
  have h3 : ¬(0x40 ≤ 0x70 + n ∧ 0x70 + n < 0x70) := by omega
  simp only [swrRefuses, h1, h2, h3, decide_false, Bool.false_and, Bool.or_false]

/-! ## O11 -/

/-- Format register n is read and written at either level (03 R84). -/
theorem format_register (s : State) (d a : BitVec 5) {n : Nat} (h : n < 16) :
    (∃ t, exec (.srd d (BitVec.ofNat 12 (0x20 + n))) s = .next t ∧ WritesX s t d s.c.cf[n]) ∧
    (fmtBits ((s.c.rx a).setWidth 8) ≠ 0 → ∃ t, exec (.swr a (BitVec.ofNat 12 (0x20 + n))) s = .next t ∧
      t = { s with c := { s.c with cf := s.c.cf.set n ((s.c.rx a &&& 0xFFFFFFFFFFFF07FF) ||| (s.c.cf[n] &&& 0xF800)) h } }) ∧
    (fmtBits ((s.c.rx a).setWidth 8) = 0 → ∃ t, exec (.swr a (BitVec.ofNat 12 (0x20 + n))) s = .next t ∧
      Faults s t 0x01 (BitVec.ofNat 64 (s.lat.slot.toNat + s.lat.word.toNat * 2 ^ 32))) := by
  have lt : 0x20 + n < 0x80 := by omega
  have hd : (0x20 ≤ 0x20 + n ∧ 0x20 + n < 0x30) ∨ 0x40 ≤ 0x20 + n := by omega
  have hn : MayWrite s (0x20 + n) := by
    have : swrSystem (0x20 + n) = false := decide_eq_false (by omega)
    rw [MayWrite, this, Bool.false_and]
  refine ⟨srd_reads_number lt hd (srd_format s h) d, fun hf => ?_, fun hf => ?_⟩
  · exact ⟨_, swr_writes_number lt hd hn ((swrRefuses_format h _).trans (beq_false_of_ne hf)), swr_format s h _⟩
  · exact swr_faults_number lt hd hn ((swrRefuses_format h _).trans (beq_of_eq hf))

/-- sr.strikes and sr.orphans are written under their masks (10 R332, 12 R387). -/
theorem core_registers (s : State) (d a : BitVec 5) : ∀ row ∈ coreRegisters,
    (∃ t, exec (.srd d (BitVec.ofNat 12 row.1)) s = .next t ∧ WritesX s t d (row.2.2 s.core)) ∧
    (s.c.sys = true → ∃ t, exec (.swr a (BitVec.ofNat 12 row.1)) s = .next t ∧ t = { s with core := t.core } ∧
      row.2.2 t.core = (s.c.rx a &&& row.2.1) ||| (row.2.2 s.core &&& ~~~row.2.1) ∧
      ∀ r ∈ coreRegisters, r.1 ≠ row.1 → r.2.2 t.core = r.2.2 s.core) := by
  simp only [coreRegisters, List.forall_mem_cons]
  exact ⟨⟨srd_reads rfl rfl rfl d, fun hs => ⟨_, swr_writes rfl (mayWrite_of_sys hs _) rfl, rfl, rfl, fun h => absurd rfl h, fun _ => rfl, nofun⟩⟩,
    ⟨srd_reads rfl rfl rfl d, fun hs => ⟨_, swr_writes rfl (mayWrite_of_sys hs _) rfl, rfl, rfl, fun _ => rfl, fun h => absurd rfl h, nofun⟩⟩, nofun⟩

/-- The registers of a monitor unit are read at either level, and its control register is written at system level (12 R391). -/
theorem monitor_registers (s : State) (d a : BitVec 5) {u : Nat} (h : u < 4) :
    (∃ t, exec (.srd d (BitVec.ofNat 12 (0x40 + 12 * u))) s = .next t ∧ WritesX s t d s.core.mon[u].ctl) ∧
    (∃ t, exec (.srd d (BitVec.ofNat 12 (0x41 + 12 * u))) s = .next t ∧ WritesX s t d s.core.mon[u].min) ∧
    (∃ t, exec (.srd d (BitVec.ofNat 12 (0x42 + 12 * u))) s = .next t ∧ WritesX s t d s.core.mon[u].max) ∧
    (∃ t, exec (.srd d (BitVec.ofNat 12 (0x43 + 12 * u))) s = .next t ∧ WritesX s t d s.core.mon[u].n) ∧
    (∀ (j : Nat) (hj : j < 8), ∃ t, exec (.srd d (BitVec.ofNat 12 (0x44 + 12 * u + j))) s = .next t ∧ WritesX s t d
      (BitVec.ofNat 64 (s.core.mon[u].bins[2 * j].toNat + s.core.mon[u].bins[2 * j + 1].toNat * 2 ^ 32))) ∧
    (s.c.sys = true → fld (s.c.rx a).toNat 0 5 < 11 → ∃ t, exec (.swr a (BitVec.ofNat 12 (0x40 + 12 * u))) s = .next t ∧
      t = { s with core := { s.core with mon := s.core.mon.set u { s.core.mon[u] with
        ctl := (s.c.rx a &&& 0x0000FFFFFFFF0F1F) ||| (s.core.mon[u].ctl &&& ~~~0x0000FFFFFFFF0F1F) } h } }) ∧
    (s.c.sys = true → 11 ≤ fld (s.c.rx a).toNat 0 5 → ∃ t, exec (.swr a (BitVec.ofNat 12 (0x40 + 12 * u))) s = .next t ∧
      Faults s t 0x01 (BitVec.ofNat 64 (s.lat.slot.toNat + s.lat.word.toNat * 2 ^ 32))) := by
  have reads {n j : Nat} (hj : j < 12) (e : n = 0x40 + 12 * u + j) {v : DWord} (hv : s.core.mon[u].reg j = v) :
      ∃ t, exec (.srd d (BitVec.ofNat 12 n)) s = .next t ∧ WritesX s t d v :=
    srd_reads_number (by omega) (by omega) ((congrArg s.srd e).trans ((srd_monitor s h hj).trans hv)) d
  have lt : 0x40 + 12 * u < 0x80 := by omega
  have hd : (0x20 ≤ 0x40 + 12 * u ∧ 0x40 + 12 * u < 0x30) ∨ 0x40 ≤ 0x40 + 12 * u := by omega
  refine ⟨reads (j := 0) (by omega) (by omega) rfl, reads (j := 1) (by omega) (by omega) rfl, reads (j := 2) (by omega) (by omega) rfl,
    reads (j := 3) (by omega) (by omega) rfl, fun j hj => reads (j := j + 4) (by omega) (by omega) ?_, fun hs hf => ?_, fun hs hf => ?_⟩
  · have h1 : 2 * j < 16 := by omega
    have h2 : 2 * j + 1 < 16 := by omega
    simp [Mon.reg, h1, h2]
  · exact ⟨_, swr_writes_number lt hd (mayWrite_of_sys hs _) ((swrRefuses_monitor h _).trans (decide_eq_false (by omega))), swr_monitor s h _⟩
  · exact swr_faults_number lt hd (mayWrite_of_sys hs _) ((swrRefuses_monitor h _).trans (decide_eq_true hf))

/-- A stall counter is read at either level and written at system level (12 R392). -/
theorem stall_register (s : State) (d a : BitVec 5) {n : Nat} (h : n < 16) :
    (∃ t, exec (.srd d (BitVec.ofNat 12 (0x70 + n))) s = .next t ∧ WritesX s t d s.core.stalls[n]) ∧
    (s.c.sys = true → ∃ t, exec (.swr a (BitVec.ofNat 12 (0x70 + n))) s = .next t ∧
      t = { s with core := { s.core with stalls := s.core.stalls.set n (s.c.rx a) h } }) :=
  ⟨srd_reads_number (by omega) (by omega) (srd_stall s h) d,
    fun hs => ⟨_, swr_writes_number (by omega) (by omega) (mayWrite_of_sys hs _) (swrRefuses_stall _), swr_stall s h _⟩⟩

theorem tlimitWord_eq (s : State) :
    s.tlimitWord = BitVec.ofNat 64 (s.core.tlimit.toNat + s.core.tinterval.toNat * 2 ^ 24 + s.deferring.toNat * 2 ^ 48) := by
  unfold State.tlimitWord
  cases s.deferring <;> rfl

/-- Settles O11: each register as one number of the two chains of `State.srd` and `State.swr`. -/
theorem formatAndCoreRegistersReadAndWrite : Obligations.FormatAndCoreRegistersReadAndWrite := by
  intro s d a
  exact ⟨fun n h => format_register s d a h, core_registers s d a, srd_reads rfl rfl rfl d, srd_reads rfl rfl rfl d,
    fun hs => ⟨_, swr_writes rfl (mayWrite_of_sys hs _) rfl, rfl⟩, fun hs => ⟨_, swr_writes rfl (mayWrite_of_sys hs _) rfl, rfl⟩,
    srd_reads (n := 0x00C) rfl rfl (tlimitWord_eq s) d, fun hs => ⟨_, swr_writes rfl (mayWrite_of_sys hs _) rfl, rfl⟩,
    fun u h => monitor_registers s d a h, fun n h => stall_register s d a h⟩

end Sys2Proof.StatusAccess
end

section
/-! SUPPORT. O55: from a bead at rest to the operation of a bundle that holds one word, and on to the end of its cycle. -/

namespace Sys2Proof.LoneIssue
open Sys2Proof Machine Claims Laws

/-! ## The words of a bundle that holds one -/

/-- A bundle whose slot 0 is no header has neither EXT fields nor a REP header. -/
theorem decodeSlot0_of_no_header {w : Nat} (h : fld w 28 4 ≠ 15) :
    (∃ i, decodeSlot0 w = .ok (.op i)) ∨ ∃ e, decodeSlot0 w = .error e := by
  unfold decodeSlot0
  rw [if_neg h]
  cases decodeSlot .c w with
  | ok i => exact .inl ⟨i, rfl⟩
  | error e => exact .inr ⟨e, rfl⟩

theorem extOf_of_no_header {ws : List Word} (h : fld (wordOf ws 0).toNat 28 4 ≠ 15) : extOf ws = none := by
  unfold extOf
  obtain ⟨i, e⟩ | ⟨i, e⟩ := decodeSlot0_of_no_header h <;> rw [e]

theorem repOf_of_no_header {ws : List Word} (h : fld (wordOf ws 0).toNat 28 4 ≠ 15) : repOf ws = none := by
  unfold repOf
  obtain ⟨i, e⟩ | ⟨i, e⟩ := decodeSlot0_of_no_header h <;> rw [e]

theorem instrAt_zero (k : Slot) : instrAt k 0#32 = none := rfl

theorem instrAt_of_decode {k : Slot} {w : Word} {i : Instr} (h0 : w ≠ 0) (h : decodeSlot k w.toNat = .ok i) : instrAt k w = some i := by
  rw [instrAt, slotInstr, if_neg h0, h]; rfl

/-- The slots of a bundle and their numbers. -/
def slotNumbers : List (Slot × BitVec 2) := [(.c, 0), (.v, 1), (.m, 2), (.t, 3)]

theorem lone_no_header {n : BitVec 2} {w : Word} (h : n = 0 → fld w.toNat 28 4 ≠ 15) (k : Slot) (hk : (k, n) ∈ slotNumbers) :
    fld (wordOf (loneWords n w) 0).toNat 28 4 ≠ 15 := by
  simp only [slotNumbers, List.mem_cons, Prod.mk.injEq, List.not_mem_nil, or_false] at hk
  rcases hk with ⟨rfl, rfl⟩ | ⟨rfl, rfl⟩ | ⟨rfl, rfl⟩ | ⟨rfl, rfl⟩
  · exact h rfl
  all_goals exact (by decide : fld 0 28 4 ≠ 15)

/-- The only operation of the bundle. -/
theorem opsOf_lone (s : State) (a : DWord) {k : Slot} {n : BitVec 2} {w : Word} {i : Instr} (hk : (k, n) ∈ slotNumbers) (h0 : w ≠ 0)
    (hh : n = 0 → fld w.toNat 28 4 ≠ 15) (h : decodeSlot k w.toNat = .ok i) :
    s.opsOf a 0 (loneWords n w) = [s.slotIn a none n w i] := by
  have hd := instrAt_of_decode h0 h
  have he := extOf_of_no_header (lone_no_header hh k hk)
  unfold State.opsOf
  rw [he]
  simp only [slotNumbers, List.mem_cons, Prod.mk.injEq, List.not_mem_nil, or_false] at hk
  rcases hk with ⟨rfl, rfl⟩ | ⟨rfl, rfl⟩ | ⟨rfl, rfl⟩ | ⟨rfl, rfl⟩
  · simp [loneWords, wordOf, List.range_succ, instrAt_zero, hd, hh rfl]
  all_goals simp [loneWords, wordOf, List.range_succ, instrAt_zero, hd]

/-! ## The port of the fetch -/

/-- What a port reads for the sequencer changes nothing but the lines of the board's caches. -/
theorem portFetch_eq (s : State) (g n : Nat) :
    ∃ b e, s.portFetch g n = { s with hub := { s.hub with bcache := b, engines := e } } := by
  by_cases h : bcHome g = true
  · have c : CachesOnly s.hub
        ((lines64 g n).foldl (fun k l => if k.engineHolds l then k else k.bcTouch l (s.hub.cachedAt g) none) s.hub) := by
      refine CachesOnly.foldl _ (fun k l => ?_) _ _
      split
      · exact .refl k
      · exact cachesOnly_bcTouch ..
    obtain ⟨b, e, hc⟩ := c
    refine ⟨b, e, ?_⟩
    rw [State.portFetch, if_pos h, State.portRead, if_pos h, hc]
  · refine ⟨s.hub.bcache, s.hub.engines, ?_⟩
    rw [State.portFetch, if_neg h]

theorem fetchCheck_clean {s : State} (h : Clean s) (a : DWord) : s.fetchCheck a = (s, false) := by
  obtain ⟨hw, hp, hf⟩ := h
  rw [State.fetchCheck, hw, hp, hf]; rfl

theorem landShadows_nil {s : State} (h : s.q.shadows = []) (n : Nat) : s.landShadows n = s := by
  rw [State.landShadows, h, List.foldl_nil, ← h]

/-! ## The operation in its slot -/

theorem phase_lt (o : Slotted) : o.phase < 7 := by
  unfold Slotted.phase
  repeat' split
  all_goals decide

theorem inOrder_singleton (o : Slotted) : inOrder [o] = [o] := by
  have h := phase_lt o
  generalize hp : o.phase = p at h
  unfold inOrder
  have e (n : Nat) : [o].filter (fun o => o.phase == n) = if p = n then [o] else [] := by
    rw [List.filter_singleton, hp]; simp
  simp only [e]
  interval_cases p <;> rfl

/-- Slot V asks for its own grants, whatever stands beside it, and no operation of slot V stands beside another slot's. -/
theorem refusal_alone {s : State} {o : Slotted} (h : s.refusal o none = none) (hops : s.q.ops = [o]) : s.refusal o s.q.besideT = none := by
  by_cases hs : o.slot = 1
  · unfold State.refusal at h ⊢
    simpa only [hs, if_true] using h
  · have : s.q.besideT = none := by
      rw [Seq.besideT, hops, List.find?_singleton, beq_false_of_ne hs]; rfl
    rw [this, h]

/-- Alone in the bundle register and in order, an operation is neither early nor behind another. -/
theorem early_singleton {q : Seq} {o : Slotted} (h : q.ops = [o]) : q.early o = false := by
  rw [Seq.early, h]
  by_cases hs : o.slot = 1
  · have hp : o.phase ≠ 1 := by
      rw [Slotted.phase, hs]
      by_cases ha : actsLast o.instr = true
      · rw [if_pos ha]; decide
      · rw [if_neg ha, if_neg (by decide), if_pos rfl]; decide
    simp [hp]
  · rw [beq_false_of_ne hs]; simp

theorem alone_singleton {q : Seq} {o : Slotted} (h : q.ops = [o]) (hv : q.vq = []) (hm : q.mq = []) : q.alone o = true := by
  rw [Seq.alone, hv, hm, h]; simp

theorem behind_nothing {q : Seq} (hv : q.vq = []) (hm : q.mq = []) (htv : q.vTried = false) (htm : q.mTried = false) (o : Slotted) :
    q.behind o = false := by
  rw [Seq.behind, hv, hm, htv, htm]; simp

theorem fenced_nothing {s : State} (h : s.q.fences = []) (o : Slotted) : s.fenced o = false := by
  rw [State.fenced, h]; rfl

/-! ## From rest to the slot -/

/-- The state of a lone operation's bundle in the bundle register runs its one slot, and the bundle leaves the register if it can. -/
theorem runSlots_singleton {u : State} {o : Slotted} (hops : u.q.ops = [o]) (hv : u.q.vq = []) (hm : u.q.mq = []) (htv : u.q.vTried = false)
    (htm : u.q.mTried = false) (hf : u.q.fences = []) (hr : u.refusal o none = none) :
    u.runSlots (inOrder [o]) = match exec o.instr ((u.claimed o).latched o true) with
      | .next t => .next (let v := if t.holds u.core.bank o then t.leaves o else t
          if v.holds u.core.bank o then v.finish else v)
      | .fault f => .fault f
      | .refused r => .refused r := by
  rw [inOrder_singleton, State.runSlots, State.runSlot, early_singleton hops, behind_nothing hv hm htv htm, fenced_nothing hf,
    refusal_alone hr hops, alone_singleton hops hv hm]
  simp only [Bool.false_eq_true, if_false]
  cases exec o.instr ((u.claimed o).latched o true) with
  | next t =>
    simp only [State.runSlots]
    exact (apply_ite Host.Outcome.next ..).symm
  | fault f => rfl
  | refused r => rfl

theorem relHold_dropped {s : State} (h : s.q.relHold = none) (c : Prop) [Decidable c] :
    (if c then { s with q := { s.q with relHold := none } } else s) = s := by
  rw [← h, ite_self]

theorem header_none {s : State} (h : s.q.repCur = none) (a : DWord) : s.header a none = .next s := by
  rw [State.header, ← h]

theorem coreAfter_zero (s : State) : s.coreAfter 0 = s.now := if_pos (.inr rfl)

/-- No operation waits for a bank that a queued one gives back. -/
theorem unreturned_nothing {s : State} (h : s.q.mq = []) (o : Slotted) : s.unreturned o = false := by
  rw [State.unreturned, h]; rfl

/-- A lone operation that nothing holds issues. -/
theorem issueOps_lone {s : State} {a : DWord} {ws : List Word} {o : Slotted} (hops : s.opsOf a 0 ws = [o]) (hi : s.interlocked o = false)
    (hu : s.unready o = false) (hc : s.clashes o = false) (hj : s.badJump [o] = none) (hb : o.slot = 1 → s.bankCost o = 0)
    (hv : s.q.vq = []) (hm : s.q.mq = []) (hrel : s.q.relHold = none) (hbank : s.q.bankHold = none) (hrep : s.q.repCur = none) :
    s.issueOps a 0 ws ws false false none 0 [] = ((s.keep a ws).advance a false false).start a 0 [o] := by
  have cost : (if o.slot = 1 then s.bankCost o else 0) = 0 := by
    split
    · exact hb ‹_›
    · rfl
  have head : (s.keep a ws).header a none = .next (s.keep a ws) := header_none (s := s.keep a ws) hrep a
  unfold State.issueOps
  simp only [hops, List.any_cons, List.any_nil, Bool.or_false]
  rw [relHold_dropped hrel]
  simp only [head, hrel, hv, hm, hi, hu, hc, hj, hbank, unreturned_nothing hm, List.isEmpty_nil, Bool.not_true, Bool.and_false, Bool.or_false,
    Bool.not_false, Bool.true_or, List.filter_cons, List.filter_nil, Bool.false_eq_true, if_false, List.map_nil, Option.any_none,
    List.append_nil, List.foldl_cons, List.foldl_nil, and_true, cost, coreAfter_zero, Nat.lt_irrefl]
  rfl

/-- A bead at rest fetches the bundle at its pc, and a lone operation that nothing holds stands in the bundle register. -/
theorem issue_lone {s : State} {k : Slot} {n : BitVec 2} {w : Word} {i : Instr} (h : AtRest s) (hk : (k, n) ∈ slotNumbers)
    (hfetch : s.fetch s.c.pc = .ok (loneWords n w)) (h0 : w ≠ 0) (hh : n = 0 → fld w.toNat 28 4 ≠ 15) (hd : decodeSlot k w.toNat = .ok i)
    (hcheck : s.bundleFault 0 (loneWords n w) = none) (hi : s.interlocked (lone s n w i) = false) (hu : s.unready (lone s n w i) = false)
    (hc : s.clashes (lone s n w i) = false) (hj : s.badJump [lone s n w i] = none) (hb : n = 1 → s.bankCost (lone s n w i) = 0) :
    s.issue = (issued s (lone s n w i)).runSlots (inOrder [lone s n w i]) := by
  obtain ⟨-, -, -, -, -, -, -, -, -, -, -, -, hrep, hreplay, hshadows, hwin, hold, hvq, hmq, hlag, hloop, hrel, hbank, -, -, -, hclean, -⟩ := h
  obtain ⟨b, e, hport⟩ := portFetch_eq s s.c.pc.toNat 16
  have next : s.upNext = (s.c.pc, 0) := by rw [State.upNext, hrep, hreplay]
  have kept : s.buffered s.c.pc = none := by rw [State.buffered, hloop]; rfl
  have clean : Clean (s.portFetch s.c.pc.toNat 16) := by rw [hport]; exact hclean
  have check : (s.portFetch s.c.pc.toNat 16).bundleFault 0 (loneWords n w) = none := by rw [hport]; exact hcheck
  have free : (s.portFetch s.c.pc.toNat 16).q.limited s.c.pc false = false := by
    rw [hport, Seq.limited, Seq.inStep, hwin, hold, hvq, hmq, hlag]; rfl
  have lend : (s.portFetch s.c.pc.toNat 16).lendHolds = false := by rw [hport, State.lendHolds, hmq]; rfl
  unfold State.issue
  simp only [landShadows_nil hshadows, next, kept, Option.elim, hfetch, Option.isSome_none, Bool.false_eq_true, if_false, fetchCheck_clean clean, hrep,
    hreplay, check, repOf_of_no_header (lone_no_header hh k hk), free, lend, List.isEmpty_nil, Bool.not_false, Bool.not_true, Bool.and_false,
    List.append_nil]
  have ops := opsOf_lone (s.portFetch s.c.pc.toNat 16) s.c.pc hk h0 hh hd
  unfold issued
  rw [hport] at ops ⊢
  exact issueOps_lone (o := lone s n w i) ops hi hu hc hj hb hvq hmq hrel hbank hrep

/-- A bead at rest begins a core cycle: its stream issues the bundle at its pc, and the cycle ends. -/
theorem step_at_rest {s : State} (h : AtRest s) : step s = endCycle s.issue := by
  obtain ⟨hnow, hticks, hrun, hdue, hagenda, hstate, hrewind, hcur, hwait, htrap, hacq, hfrom, -, -, -, -, -, -, -, -, -, -, -, -, -, -, -, -, -,
    hgrant⟩ := h
  have stream : s.stream = s.issue := by
    rw [State.stream, hrewind, hcur, hwait, htrap, hacq]
    exact (if_neg (by decide)).trans (if_neg (Nat.not_lt.2 hfrom))
  rw [step, if_neg (by omega), State.turn, hrun, State.nextDue, hdue, Option.bind_none, hagenda, State.cycle, if_pos hticks, hgrant,
    if_pos ⟨hstate, hticks⟩, stream]

/-- Settles O55: the step of a bead at rest is the issue of its bundle, whose one slot executes the operation. -/
theorem stepExecutesTheDecodedOperation : Obligations.StepExecutesTheDecodedOperation := by
  rintro s k n w i o hk h hfetch h0 hh hd hcheck rfl hi hu hc hj hb hr
  have rest := h
  obtain ⟨-, -, -, -, -, -, -, -, -, -, -, -, -, -, -, -, -, hvq, hmq, -, -, -, -, htv, htm, hf, -⟩ := rest
  obtain ⟨b, e, hport⟩ := portFetch_eq s s.c.pc.toNat 16
  have hq : (issued s (lone s n w i)).q.vq = [] ∧ (issued s (lone s n w i)).q.mq = [] ∧ (issued s (lone s n w i)).q.vTried = false ∧
      (issued s (lone s n w i)).q.mTried = false ∧ (issued s (lone s n w i)).q.fences = [] ∧
      (issued s (lone s n w i)).core.bank = s.core.bank := by
    unfold issued
    rw [hport]
    exact ⟨hvq, hmq, htv, htm, hf, rfl⟩
  obtain ⟨qv, qm, qtv, qtm, qf, qb⟩ := hq
  rw [step_at_rest h, issue_lone h hk hfetch h0 hh hd hcheck hi hu hc hj hb, runSlots_singleton rfl qv qm qtv qtm qf hr, qb]
  show endCycle (match exec i (entered s (lone s n w i)) with | .next t => _ | .fault f => _ | .refused r => _) = _
  cases exec i (entered s (lone s n w i)) <;> rfl

end Sys2Proof.LoneIssue
end

section
/-! SUPPORT. Pieces written to memory that ECC finds nothing wrong in (08 R235, R236): every granule takes its bytes, none is dropped, and the
full/empty bits and the list of operations in hand that an event changes. -/

namespace Sys2Proof.MemoryEvents
open Sys2Proof Machine Claims Laws

/-! ## A granule, a piece, the pieces of a write -/

/-- Memory in its canonical form, in which ECC finds nothing wrong. -/
def Plain (m : Mem) : Prop := m.wf = true ∧ m.wrong = [] ∧ m.poison = [] ∧ m.flaky = []

theorem plain_of_sound {s : State} (h : Sound s) : Plain s.mem := h

theorem junkAt_cons (r : Nat × Nat × Nat) (l : List (Nat × Nat × Nat)) (a : Nat) :
    junkAt (r :: l) a = if r.1 ≤ a ∧ a < r.1 + r.2.1 then some r.2.2 else junkAt l a := by
  unfold junkAt
  split_ifs with h <;> simp [h]

theorem junkAt_append (l₁ l₂ : List (Nat × Nat × Nat)) (a : Nat) : junkAt (l₁ ++ l₂) a = (junkAt l₁ a).or (junkAt l₂ a) := by
  simp [junkAt, List.find?_append, Option.map_or]

/-- Cutting a range out of the unspecified ones makes its addresses specified, and no other. -/
theorem junkAt_junkCut (l : List (Nat × Nat × Nat)) (lo n a : Nat) :
    junkAt (junkCut l lo n) a = if lo ≤ a ∧ a < lo + n then none else junkAt l a := by
  induction l with
  | nil => simp [junkCut, junkAt]
  | cons r t ih =>
    have hnil : junkAt [] a = none := rfl
    have hcut : junkCut (r :: t) lo n = junkCut [r] lo n ++ junkCut t lo n := by simp [junkCut]
    have hone : junkAt (junkCut [r] lo n) a = if lo ≤ a ∧ a < lo + n then none else junkAt [r] a := by
      simp only [junkCut, List.flatMap_cons, List.flatMap_nil, List.append_nil]
      grind [junkAt_cons]
    rw [hcut, junkAt_append, ih, hone, show junkAt (r :: t) a = _ from junkAt_append [r] t a]
    split_ifs <;> rfl

/-- A byte after consecutive stores that make their range specified. -/
theorem byte_of_cellSets {m t : Mem} (h : m.wf = true) (q : Part) (hcells : t.cells = cellSets m.cells q.addr q.bytes)
    (hjunk : t.junk = junkCut m.junk q.addr q.bytes.length) (a : Nat) : t.byte a = (q.at? a).getD (m.byte a) := by
  simp only [Mem.byte, hcells, hjunk, junkAt_junkCut, cellGet_cellSets _ _ _ _ h, Part.at?]
  by_cases ha : q.addr ≤ a ∧ a < q.addr + q.bytes.length
  · have : a - q.addr < q.bytes.length := by omega
    simp [ha, this]
  · by_cases hlo : q.addr ≤ a
    · have : q.bytes.length ≤ a - q.addr := by omega
      have hb : ¬ a < q.addr + q.bytes.length := by omega
      simp [hb, hlo, List.getElem?_eq_none this]
    · simp [hlo]

theorem at?_clip (p : Part) (lo n a : Nat) : (p.clip lo n).at? a = if lo ≤ a ∧ a < lo + n then p.at? a else none := by
  simp only [Part.clip, Part.at?, List.getElem?_take, List.getElem?_drop]
  grind

/-- A granule takes its bytes of a piece: it is not dropped. -/
theorem putGranule_plain {m : Mem} (h : Plain m) (fresh g : Nat) (p : Part) :
    (m.putGranule fresh g p).2 = false ∧ Plain (m.putGranule fresh g p).1 ∧
      (m.putGranule fresh g p).1.empty = m.empty ∧
      ∀ a, (m.putGranule fresh g p).1.byte a = ((p.clip g (granuleSize g)).at? a).getD (m.byte a) := by
  have hwf := m.wf_putGranule fresh g p h.1
  obtain ⟨hm, hw, hp, hf⟩ := h
  unfold Mem.putGranule at hwf ⊢
  generalize hl : (if m.dead.contains (g / 1024 * 1024) = true then _ else m : Mem) = live at hwf ⊢
  have hlive : live = { m with dead := live.dead } := by subst hl; split <;> rfl
  have hcheck : live.check fresh g = (live, false) := by
    rw [hlive]; exact check_clean (m := { m with dead := live.dead }) hw hp hf fresh g
  have hset : ({ live with wrong := setDelRange live.wrong (8 * g) (8 * granuleSize g), poison := setDel live.poison g } : Mem) = live := by
    rw [hlive]; simp [hw, hp, setDelRange, setDel]
  simp only [hset, hcheck, ite_self] at hwf ⊢
  refine ⟨rfl, ⟨hwf, ?_⟩, ?_, byte_of_cellSets hm _ ?_ ?_⟩
  all_goals rw [hlive]
  · exact ⟨hw, hp, hf⟩
  · rfl
  · rfl
  · rfl

theorem putGranules_plain {m : Mem} (h : Plain m) (fresh : Nat) (p : Part) (gs : List Nat) :
    (m.putGranules fresh p gs).2 = [] ∧ Plain (m.putGranules fresh p gs).1 ∧ (m.putGranules fresh p gs).1.empty = m.empty ∧
      ∀ a, (m.putGranules fresh p gs).1.byte a =
        if ∃ g ∈ gs, g ≤ a ∧ a < g + granuleSize g then (p.at? a).getD (m.byte a) else m.byte a := by
  induction gs generalizing m with
  | nil => simpa [Mem.putGranules] using h
  | cons g t ih =>
    obtain ⟨hdrop, hplain, hempty, hbyte⟩ := putGranule_plain h fresh g p
    obtain ⟨hdrop', hplain', hempty', hbyte'⟩ := ih hplain
    refine ⟨by simp [Mem.putGranules, hdrop, hdrop'], hplain', hempty'.trans hempty, fun a => ?_⟩
    rw [Mem.putGranules, hbyte', hbyte, at?_clip]
    simp only [List.exists_mem_cons_iff]
    by_cases hg : g ≤ a ∧ a < g + granuleSize g
    · cases p.at? a <;> simp [hg]
    · simp [hg]

/-- The granule of an address begins in the same kind of memory. -/
theorem granuleSize_base (x : Nat) : granuleSize (x / granuleSize x * granuleSize x) = granuleSize x := by
  unfold granuleSize isCrown
  by_cases h : 2 ^ 64 ≤ x ∧ x < 2 ^ 65
  · have : 2 ^ 64 ≤ x / 8 * 8 ∧ x / 8 * 8 < 2 ^ 65 := by omega
    simp only [h, this, and_self, decide_true, if_true]
  · have : ¬ (2 ^ 64 ≤ x / 32 * 32 ∧ x / 32 * 32 < 2 ^ 65) := by omega
    simp only [h, this, decide_false, Bool.false_eq_true, if_false]

theorem granuleSize_pos (x : Nat) : 0 < granuleSize x := by unfold granuleSize; split <;> decide

/-- Each address of a piece in one kind of memory lies in a granule of the piece. -/
theorem exists_granule {p : Part} (h : ∀ i < p.bytes.length, granuleSize (p.addr + i) = granuleSize p.addr) {a : Nat} (ha : p.addr ≤ a)
    (hl : a < p.addr + p.bytes.length) : ∃ g ∈ granules p.addr p.bytes.length, g ≤ a ∧ a < g + granuleSize g := by
  have hz : granuleSize a = granuleSize p.addr := by
    have := h (a - p.addr) (by omega)
    rwa [Nat.add_sub_cancel' ha] at this
  have hbase := granuleSize_base a
  have hpos := granuleSize_pos p.addr
  rw [hz] at hbase
  unfold granules
  generalize granuleSize p.addr = z at *
  have h1 : p.addr / z ≤ a / z := Nat.div_le_div_right ha
  have h2 : a / z ≤ (p.addr + p.bytes.length - 1) / z := Nat.div_le_div_right (by omega)
  refine ⟨a / z * z, ?_, Nat.div_mul_le_self a z, ?_⟩
  · rw [if_neg (by omega), List.mem_map]
    exact ⟨a / z - p.addr / z, List.mem_range.2 (by omega), by rw [Nat.add_sub_cancel' h1]⟩
  · rw [hbase]
    calc a = a / z * z + a % z := (Nat.div_add_mod' a z).symm
      _ < a / z * z + z := Nat.add_lt_add_left (Nat.mod_lt a hpos) _

theorem put_plain {m : Mem} (h : Plain m) (fresh : Nat) (tag : Bool) {p : Part}
    (hp : ∀ i < p.bytes.length, granuleSize (p.addr + i) = granuleSize p.addr) :
    (m.put fresh tag p).2 = [] ∧ Plain (m.put fresh tag p).1 ∧ (m.put fresh tag p).1.empty = m.empty ∧
      ∀ a, (m.put fresh tag p).1.byte a = (p.at? a).getD (m.byte a) := by
  obtain ⟨hdrop, hplain, hempty, hbyte⟩ := putGranules_plain h fresh p (granules p.addr p.bytes.length)
  refine ⟨hdrop, hplain, hempty, fun a => (hbyte a).trans ?_⟩
  split_ifs with hg
  · rfl
  · by_cases ha : p.addr ≤ a ∧ a < p.addr + p.bytes.length
    · exact absurd (exists_granule hp ha.1 ha.2) hg
    · have : p.at? a = none := by
        unfold Part.at?
        split_ifs with hle
        · exact List.getElem?_eq_none (by omega)
        · rfl
      rw [this]; rfl

theorem pieceByte_cons (p : Part) (ps : List Part) (a : Nat) : pieceByte (p :: ps) a = (pieceByte ps a).or (p.at? a) := by
  simp [pieceByte, List.findSome?_append]

/-- Pieces that each lie in one kind of memory are all written, one after another. -/
theorem puts_plain {m : Mem} (h : Plain m) (fresh : Nat) (tag : Bool) {ps : List Part} (hps : Within ps) :
    (m.puts fresh tag ps).2 = [] ∧ Plain (m.puts fresh tag ps).1 ∧ (m.puts fresh tag ps).1.empty = m.empty ∧
      ∀ a, (m.puts fresh tag ps).1.byte a = (pieceByte ps a).getD (m.byte a) := by
  induction ps generalizing m with
  | nil => exact ⟨rfl, h, rfl, fun _ => rfl⟩
  | cons p t ih =>
    obtain ⟨hdrop, hplain, hempty, hbyte⟩ := put_plain h fresh tag (hps p List.mem_cons_self)
    obtain ⟨hdrop', hplain', hempty', hbyte'⟩ := ih hplain fun q hq => hps q (List.mem_cons_of_mem p hq)
    refine ⟨by simp [Mem.puts, hdrop, hdrop'], hplain', hempty'.trans hempty, fun a => ?_⟩
    rw [Mem.puts, hbyte', hbyte, pieceByte_cons]
    cases pieceByte t a <;> simp

/-- Pieces become final: memory holds them and nothing else changes. -/
theorem commit_sound {s : State} (h : Sound s) {ps : List Part} (hps : Within ps) (bank : Bool) (map : DWord) (tag : Bool) :
    s.commit bank map tag ps = { s with mem := (s.mem.puts s.fresh tag ps).1, fresh := s.fresh + 1 } := by
  simp only [State.commit, (puts_plain (plain_of_sound h) s.fresh tag hps).1, State.reportDrops]

end Sys2Proof.MemoryEvents
end

section
/-! SUPPORT. Events of the slots (02 R48, R51), returning loads (08 R237) and stores that perform (08 R236). -/

namespace Sys2Proof.SlotEvents
open Sys2Proof Machine Claims Laws MemoryEvents

/-! ## The operation in hand of an event -/

theorem mem_of_eventOut {s : State} {o : Out} (h : s.eventOut = some o) : o ∈ s.outs := by
  unfold State.eventOut at h
  split at h
  · exact List.mem_of_find?_eq_some h
  · simp at h

/-! ## Parked slots -/

theorem unparked_frame (s : State) (k : BitVec 2) : ∃ m, s.unparked k = { s with core := { s.core with mon := m } } := by
  unfold State.unparked
  split
  · exact ⟨_, rfl⟩
  · exact ⟨_, rfl⟩

@[simp] theorem unparked_c (s : State) (k : BitVec 2) : (s.unparked k).c = s.c := by
  obtain ⟨m, h⟩ := unparked_frame s k
  rw [h]

/-- The trap on a bundle that has waited too long is the one that the slot's bead takes, where none is pending. -/
theorem parkedTooLong_slotV {s : State} {p : Slotted} {l : List Slotted} (harg : s.arg = .slot 1) (hq : s.q.vq = p :: l)
    (ht : s.q.trap = none) : ∃ t, exec .parkedTooLong s = .next t ∧ t.c = s.c ∧ t.q.vq = l ∧
      t.q.trap = some { code := 0x1A, info := BitVec.ofNat 64 (1 + s.core.parkmax.toNat * 2 ^ 32), slot := 1, iss := false, evt := false,
                        now := false, seq := p.seq } := by
  refine ⟨_, by simp only [exec, execParkedTooLong, harg, hq]; rfl, ?_, ?_, ?_⟩
  · simp
  · simp
  · simp [ht, mergeTrap]

theorem parkedTooLong_slotM {s : State} {p : Slotted} {l : List Slotted} (harg : s.arg = .slot 2) (hq : s.q.mq = p :: l)
    (ht : s.q.trap = none) : ∃ t, exec .parkedTooLong s = .next t ∧ t.c = s.c ∧ t.q.mq = l ∧
      t.q.trap = some { code := 0x1A, info := BitVec.ofNat 64 (2 + s.core.parkmax.toNat * 2 ^ 32), slot := 2, iss := false, evt := false,
                        now := false, seq := p.seq } := by
  refine ⟨_, by simp only [exec, execParkedTooLong, harg, hq]; rfl, ?_, ?_, ?_⟩
  · simp
  · simp
  · simp [ht, mergeTrap]

theorem parkedTooLong_held {s : State} {k : BitVec 2} {p : Slotted} (hk : k = 0 ∨ k = 3) (harg : s.arg = .slot k)
    (hq : s.q.ops.find? (·.slot == k) = some p) (ht : s.q.trap = none) :
    ∃ t, exec .parkedTooLong s = .next t ∧ t.c = s.c ∧ p ∉ t.q.ops ∧ t.q.wait = .none ∧
      t.q.trap = some { code := 0x1A, info := BitVec.ofNat 64 (k.toNat + s.core.parkmax.toNat * 2 ^ 32), slot := k, iss := false, evt := false,
                        now := false, seq := p.seq } := by
  have h1 : k ≠ 1 := by rcases hk with rfl | rfl <;> decide
  have h2 : k ≠ 2 := by rcases hk with rfl | rfl <;> decide
  refine ⟨_, by simp only [exec, execParkedTooLong, harg, h1, h2, if_false, hq]; rfl, ?_, ?_, ?_, ?_⟩
  · rfl
  · simp
  · rfl
  · simp [ht, mergeTrap]

theorem outlierListFull_enters {s : State} {i : DWord} (h : s.q.olfTrap = some i) : ∃ t, exec .outlierListFull s = .next t ∧
    Enters { s with q := { s.q with olfTrap := none } } t (window s.c { s.q with olfTrap := none })
      { code := 0x13, info := i, slot := 0, iss := false, evt := true, now := true } := by
  refine ⟨_, by simp only [exec, execOutlierListFull, h]; rfl, ?_⟩
  exact enters_enterTrap { s with q := { s.q with olfTrap := none } } _

/-! ## What the landing of an answer and the end of an acquire change -/

@[simp] theorem found_acq (q : Seq) (n now : Nat) (w : RegWrite) : (q.found n now w).acq = q.acq := by
  unfold Seq.found; split <;> rfl

theorem found_shadows {w : RegWrite} {r : Reg} (h : w.reg = some r) (q : Seq) (n now : Nat) :
    (q.found n now w).shadows = overwrite q.shadows n r := by
  simp [Seq.found, h]

theorem land_active {s : State} {bank : Bool} (h : bank = s.core.bank) (n : Nat) (w : RegWrite) :
    s.land bank n w = { s with c := w.apply s.c, q := s.q.found n s.now w } := by
  simp [State.land, State.onBank, State.onBankSeq, h]

/-- An answer that reaches the active bank writes its register and raises its flags. -/
theorem landAnswer_active {s : State} {o : Out} (h : o.bank = s.core.bank) (w : RegWrite) (fl : DWord) :
    ∃ u, s.landAnswer o w fl =
      { s with c := (w.apply s.c).orFlags fl.toNat, q := s.q.found o.seq s.now w, undo := u } := by
  unfold State.landAnswer
  split
  · exact ⟨_, by simp only [State.landFinal, State.settle, State.settleSeq, State.onBank, State.onBankSeq, h, if_true]; rfl⟩
  · exact ⟨s.undo, by rw [land_active h, State.onBank, if_pos h]⟩

/-- The return of a request that no acquire waits for ends no acquire. -/
theorem acquired_other {s : State} {o : Out} (h : o.bank = s.core.bank) (hacq : s.q.acq ≠ some o.id) :
    ∃ u, s.acquired o = { s with undo := u } := by
  simp only [State.acquired, hacq, and_false, if_false, State.settleSeq, State.onBankSeq, h, if_true]
  exact ⟨_, rfl⟩

theorem pend_active {s : State} {o : Out} (h : o.bank = s.core.bank) (r : TrapRec) :
    ∃ u, s.pend o r = { s with q := s.q.pendNow r, undo := u } := by
  simp only [State.pend, State.settleSeq, State.onBankSeq, h, if_true]
  exact ⟨_, rfl⟩

/-! ## The performing of a load -/

theorem portRead_frame (s : State) (g n : Nat) (cached : Bool) : ∃ k, s.portRead g n cached = { s with hub := k } := by
  unfold State.portRead
  split
  · exact ⟨_, rfl⟩
  · exact ⟨s.hub, rfl⟩

theorem portReads_frame (l : List (Nat × Nat)) (s : State) (cached : Bool) :
    ∃ k, l.foldl (fun s r => s.portRead r.1 r.2 cached) s = { s with hub := k } := by
  induction l generalizing s with
  | nil => exact ⟨s.hub, rfl⟩
  | cons r t ih =>
    obtain ⟨k, hk⟩ := portRead_frame s r.1 r.2 cached
    obtain ⟨k', hk'⟩ := ih { s with hub := k }
    exact ⟨k', by rw [List.foldl_cons, hk, hk']⟩

/-- A load that performs changes the caches, and memory only by the errors that ECC corrects. -/
theorem performLoad_frame (s : State) (o : Out) (w : LoadForm) (ranges : List (Nat × Nat)) (held : List (Option Byte)) (cached : Bool)
    (fill : Option (Nat × Nat)) :
    ∃ k sc m f, s.performLoad o w ranges held cached fill =
        { s with hub := k, core := { s.core with scache := sc }, mem := m, fresh := f } ∧ (Clean s → m = s.mem) := by
  have hports : ∃ k, (if o.path = .l && !(held.all (·.isSome) && !held.isEmpty) then
      ranges.foldl (fun s r => s.portRead r.1 r.2 cached) s else s) = { s with hub := k } := by
    split
    · exact portReads_frame ranges s cached
    · exact ⟨s.hub, rfl⟩
  obtain ⟨k, hk⟩ := hports
  unfold State.performLoad
  rw [hk]
  split
  · have hclean (h : Clean s) (home : Nat) : (s.mem.checks s.fresh (granules home 64)).1 = s.mem := by
      rw [checks_clean h.1 h.2.1 h.2.2]
    dsimp only
    split
    · exact ⟨k, _, _, _, rfl, fun h => hclean h _⟩
    · exact ⟨k, s.core.scache, _, _, rfl, fun h => hclean h _⟩
  · exact ⟨k, s.core.scache, s.mem, s.fresh, rfl, fun _ => rfl⟩

/-- The state in which a load performs and its latency is sampled. -/
theorem fetch_frame (s : State) (o : Out) (w : LoadForm) (ranges : List (Nat × Nat)) (held : List (Option Byte)) (cached : Bool)
    (fill : Option (Nat × Nat)) :
    ∃ k sc mon m f, (let u := s.performLoad o w ranges held cached fill
        if ranges.any fun r => decide (r.1 < 2 ^ 64) then u.sampleAll 2 (s.now - o.issued : Nat) else u) =
        { s with hub := k, core := { s.core with scache := sc, mon := mon }, mem := m, fresh := f } ∧ (Clean s → m = s.mem) := by
  obtain ⟨k, sc, m, f, hu, hm⟩ := performLoad_frame s o w ranges held cached fill
  rw [hu]
  dsimp only
  split
  · exact ⟨k, sc, _, m, f, rfl, hm⟩
  · exact ⟨k, sc, s.core.mon, m, f, rfl, hm⟩

/-! ## Loads that return -/

theorem loadReturn_answer {s : State} {o : Out} (hev : s.eventOut = some o) {w : RegWrite} {info fl : DWord}
    (hw : o.work = .load w false info fl) (hb : o.bank = s.core.bank) (hacq : s.q.acq ≠ some o.id) :
    ∃ t, exec .loadReturn s = .next t ∧ t.outs = s.outs.filter (·.id != o.id) ∧ t.mem = s.mem ∧
      t.c = { w.apply s.c with fpsr := (w.apply s.c).fpsr ||| BitVec.ofNat 64 (fl.toNat % 128) } ∧
      (∀ r, w.reg = some r → t.q.shadows = overwrite s.q.shadows o.seq r) := by
  obtain ⟨u, hu⟩ := landAnswer_active (s := s.drop o.id) hb w fl
  obtain ⟨u', hu'⟩ := acquired_other (s := (s.drop o.id).landAnswer o w fl) (by rw [hu]; exact hb) (by rw [hu]; simpa using hacq)
  refine ⟨((s.drop o.id).landAnswer o w fl).acquired o, by simp [exec, execLoadReturn, hev, hw], ?_⟩
  rw [hu', hu]
  exact ⟨rfl, rfl, rfl, fun r hr => found_shadows hr _ _ _⟩

theorem write_reg (w : LoadForm) (bs : List Byte) (tag : Bool) : (w.write bs tag).reg = some w.reg := by
  cases w <;> rfl

theorem loadReturn_fetch {s : State} {o : Out} (hev : s.eventOut = some o) {w : LoadForm} {rs : List (Nat × Nat)}
    {hd : List (Option Byte)} {cached : Bool} {fill : Option (Nat × Nat)} (hw : o.work = .fetch w rs hd cached fill)
    (hb : o.bank = s.core.bank) (hacq : s.q.acq ≠ some o.id) (hfree : s.loadFree o = true) (hclean : Clean s) :
    ∃ t, exec .loadReturn s = .next t ∧ t.outs = s.outs.filter (·.id != o.id) ∧ (∀ a, t.mem.byte a = s.mem.byte a) ∧
      t.c = (s.fetched o w rs hd).apply s.c ∧ t.q.shadows = overwrite s.q.shadows o.seq w.reg := by
  obtain ⟨k, sc, mon, m, f, hu, hm⟩ := fetch_frame s o w rs hd cached fill
  dsimp only at hu
  refine ⟨_, by simp only [exec, execLoadReturn, hev, hw, hfree, if_true, hu]; rfl, ?_⟩
  generalize hv : ({ s with hub := k, core := { s.core with scache := sc, mon := mon }, mem := m, fresh := f } : State).drop o.id = v
  have hvb : o.bank = v.core.bank := by rw [← hv]; exact hb
  obtain ⟨u, hu'⟩ := acquired_other (s := v.land o.bank o.seq (s.fetched o w rs hd)) (by rw [land_active hvb]; exact hvb)
    (by rw [land_active hvb, ← hv]; simpa using hacq)
  rw [hu', land_active hvb, ← hv, hm hclean]
  exact ⟨rfl, fun _ => rfl, rfl, found_shadows (write_reg _ _ _) _ _ _⟩

theorem loadReturn_waits {s : State} {o : Out} (hev : s.eventOut = some o) {w : LoadForm} {rs : List (Nat × Nat)}
    {hd : List (Option Byte)} {cached : Bool} {fill : Option (Nat × Nat)} (hw : o.work = .fetch w rs hd cached fill)
    (hfree : s.loadFree o = false) : ∃ t, exec .loadReturn s = .next t ∧ t.c = s.c ∧
      ∃ x ∈ t.outs, x.id = o.id ∧ x.due = s.now ∧ ∃ v, x.work = .load v false 0 0 := by
  obtain ⟨k, sc, mon, m, f, hu, hm⟩ := fetch_frame s o w rs hd cached fill
  dsimp only at hu
  refine ⟨({ s with hub := k, core := { s.core with scache := sc, mon := mon }, mem := m, fresh := f } : State).again o.id s.now
    (.load (s.fetched o w rs hd) false 0 0), by simp only [exec, execLoadReturn, hev, hw, hfree, Bool.false_eq_true, if_false, hu], rfl, ?_⟩
  refine ⟨{ o with due := s.now, work := .load (s.fetched o w rs hd) false 0 0 }, ?_, rfl, rfl, _, rfl⟩
  exact List.mem_map.2 ⟨o, mem_of_eventOut hev, by simp⟩

theorem mapIdx_unheld (bs : List Byte) : (bs.mapIdx fun i b => ((([] : List (Option Byte))[i]?).join).getD b) = bs := by
  simp only [List.getElem?_nil, Option.join_none, Option.getD_none]
  exact List.mapIdx_eq_iff.2 fun i => by simp

theorem write_scalar (d : BitVec 5) (sg tag : Bool) {bs : List Byte} {n : Nat} (h : bs.length = n) : (LoadForm.x d sg).write bs tag =
    .x d (if sg then (BitVec.ofNat (8 * n) (bytesNat bs)).signExtend 64 else BitVec.ofNat 64 (bytesNat bs)) := by
  subst h
  rfl

/-- A scalar load of which no byte was held takes the bytes of its range. -/
theorem fetched_scalar (s : State) (o : Out) (d : BitVec 5) (sg : Bool) (a n : Nat) :
    let bs := (List.range n).map fun i => s.byteFor o (a + i)
    s.fetched o (.x d sg) [(a, n)] [] =
      .x d (if sg then (BitVec.ofNat (8 * n) (bytesNat bs)).signExtend 64 else BitVec.ofNat 64 (bytesNat bs)) := by
  intro bs
  have hbs : [(a, n)].flatMap (fun r => (List.range r.2).map fun i => s.byteFor o (r.1 + i)) = bs := by simp [bs]
  unfold State.fetched
  rw [hbs]
  dsimp only
  rw [mapIdx_unheld]
  exact write_scalar d sg _ (by simp [bs])

theorem loadReturn_rewinds {s : State} {o : Out} (hev : s.eventOut = some o) {w : RegWrite} {info fl : DWord}
    (hw : o.work = .load w true info fl) (hb : o.bank = s.core.bank) (hseg : s.c.segOpen = true) :
    ∃ t, exec .loadReturn s = .next t ∧ t = { s with outs := s.outs.filter (·.id != o.id), q := { s.q with rewind := true } } := by
  refine ⟨_, ?_, rfl⟩
  simp [exec, execLoadReturn, hev, hw, State.bankCtx, State.onBankSeq, State.drop, hb, hseg]

theorem loadReturn_traps {s : State} {o : Out} (hev : s.eventOut = some o) {w : RegWrite} {info fl : DWord}
    (hw : o.work = .load w true info fl) (hb : o.bank = s.core.bank) (hseg : s.c.segOpen = false) (hacq : s.q.acq ≠ some o.id)
    (htrap : s.q.trap = none) : ∃ t, exec .loadReturn s = .next t ∧ t.c = s.c ∧ t.mem = s.mem ∧
      t.q.trap = some { code := 0x10, info := info, slot := 3, iss := false, evt := false, now := true } := by
  obtain ⟨u, hu⟩ := acquired_other (s := s.drop o.id) hb hacq
  obtain ⟨u', hu'⟩ := pend_active (s := (s.drop o.id).acquired o) (o := o) (by rw [hu]; exact hb)
    { code := 0x10, info := info, slot := 3, iss := false, evt := false, now := true }
  refine ⟨((s.drop o.id).acquired o).pend o { code := 0x10, info := info, slot := 3, iss := false, evt := false, now := true }, ?_, ?_⟩
  · have hctx : ((s.drop o.id).bankCtx o.bank).segOpen = false := by rw [State.bankCtx, if_pos (by exact hb)]; exact hseg
    simp only [exec, execLoadReturn, hev, hw, hctx, if_true, Bool.false_eq_true, if_false]
  · rw [hu', hu]
    exact ⟨rfl, rfl, by simp [Seq.pendNow, State.drop, htrap]⟩

/-! ## Stores that perform, and full/empty bits -/

theorem mem_setAdd (l : List Nat) (a x : Nat) : x ∈ setAdd l a ↔ x = a ∨ x ∈ l := by
  induction l with
  | nil => simp [setAdd]
  | cons b t ih =>
    unfold setAdd
    split_ifs with hlt heq
    · simp
    · subst heq; simp
    · simp [ih]; tauto

theorem mem_setDel (l : List Nat) (a x : Nat) : x ∈ setDel l a ↔ x ∈ l ∧ x ≠ a := by
  simp [setDel]

theorem mem_setFull (m : Mem) (g x : Nat) (full : Bool) :
    x ∈ (m.setFull g full).empty ↔ if x = g then full = false else x ∈ m.empty := by
  cases full <;> simp [Mem.setFull, mem_setAdd, mem_setDel] <;> grind

theorem mem_setFull_same (m : Mem) (g : Nat) (full : Bool) : g ∈ (m.setFull g full).empty ↔ full = false := by
  rw [mem_setFull, if_pos rfl]

theorem mem_setFull_ne (m : Mem) {g x : Nat} (h : x ≠ g) (full : Bool) : x ∈ (m.setFull g full).empty ↔ x ∈ m.empty := by
  rw [mem_setFull, if_neg h]

/-- Granules set full are full, and no byte changes. -/
theorem setFulls_true (gs : List Nat) (m : Mem) :
    ∃ e, gs.foldl (fun m g => m.setFull g true) m = { m with empty := e } ∧ ∀ x, x ∈ e ↔ x ∈ m.empty ∧ x ∉ gs := by
  induction gs generalizing m with
  | nil => exact ⟨m.empty, rfl, by simp⟩
  | cons g t ih =>
    obtain ⟨e, he, hmem⟩ := ih (m.setFull g true)
    refine ⟨e, by rw [List.foldl_cons, he]; rfl, fun x => ?_⟩
    rw [hmem, mem_setFull]
    by_cases hx : x = g <;> simp [hx]

theorem strikeWindow_performs {s : State} {o : Out} (hev : s.eventOut = some o) {ps : List Part} {map : DWord} {tag : Bool} {full : List Nat}
    (hs : Sound s) (hps : Within ps) (hw : o.work = .write ps map tag full) :
    ∃ t, exec .strikeWindow s = .next t ∧ Performs s t o ps ∧ ∀ g ∈ full, g ∉ t.mem.empty := by
  obtain ⟨e, he, hmem⟩ := setFulls_true full (s.mem.puts s.fresh tag ps).1
  obtain ⟨-, -, -, hbyte⟩ := puts_plain (plain_of_sound hs) s.fresh tag hps
  refine ⟨_, by simp only [exec, execStrikeWindow, hev, hw, commit_sound hs hps, State.feDone, List.foldl_nil, he]; rfl, ?_, ?_⟩
  · exact ⟨rfl, hbyte, rfl, rfl, rfl⟩
  · exact fun g hg hin => ((hmem g).1 hin).2 hg

theorem storePerformed_performs {s : State} {o : Out} (hev : s.eventOut = some o) {ps : List Part} {lock : Nat}
    (hs : Sound s) (hps : Within ps) (hw : o.work = .gstore ps lock) : ∃ t, exec .storePerformed s = .next t ∧ Performs s t o ps := by
  have hport : Sound (s.portWrite ps) := hs
  obtain ⟨-, -, -, hbyte⟩ := puts_plain (plain_of_sound hs) s.fresh false hps
  refine ⟨_, by simp only [exec, execStorePerformed, hev, hw, commit_sound hport hps]; rfl, ?_⟩
  exact ⟨rfl, hbyte, rfl, rfl, rfl⟩

theorem storePerformed_tset {s : State} {o : Out} (hev : s.eventOut = some o) {g : Nat} {full : Bool} (hw : o.work = .tset [g] full)
    (hdue : o.due ≠ 0) : ∃ t, exec .storePerformed s = .next t ∧ t.c = s.c ∧ (g ∈ t.mem.empty ↔ full = false) ∧
      (∀ x, x ≠ g → (x ∈ t.mem.empty ↔ x ∈ s.mem.empty)) ∧ ∀ a, t.mem.byte a = s.mem.byte a := by
  have hstep : s.tsetStep o [g] full = ({ s with mem := s.mem.setFull g full } : State).drop o.id := by
    cases full <;> simp [State.tsetStep, hdue, State.feDone]
  refine ⟨({ s with mem := s.mem.setFull g full } : State).drop o.id, by simp only [exec, execStorePerformed, hev, hw, hstep], rfl, ?_,
    fun x hx => ?_, fun _ => rfl⟩
  · exact mem_setFull_same s.mem g full
  · exact mem_setFull_ne s.mem hx full

end Sys2Proof.SlotEvents
end

section
/-! SUPPORT. The start of a tile operation (06 R184, 07 R205): what each kind of operation forms at once, and how it goes on. -/

namespace Sys2Proof.TileStart
open Sys2Proof Machine Claims Laws MemoryEvents SlotEvents

/-! ## The queue of the matrix engine -/

/-- A tile operation of the queue goes on as it is told. -/
theorem goesOn_tileGoes {u : State} {o : Out} {op : Slotted} {w : Tiling} (ho : o ∈ u.outs) (hw : o.work = .tile op w) (v : Tiling) (due : Nat) :
    GoesOn (u.tileGoes o op v due) o op due v :=
  ⟨{ o with due := due, work := .tile op v }, List.mem_map.2 ⟨o, ho, by simp [hw]⟩, rfl, rfl, rfl⟩

@[simp] theorem tileGoes_c (u : State) (o : Out) (op : Slotted) (v : Tiling) (due : Nat) : (u.tileGoes o op v due).c = u.c := rfl

/-- Formed pieces stay while a tile operation goes on. -/
theorem forms_tileGoes {u : State} {o : Out} {op : Slotted} {due : Nat} {ps : List Part} (h : Forms u o op due ps) (v : Tiling) (due' : Nat) :
    Forms (u.tileGoes o op v due') o op due ps := by
  obtain ⟨x, hx, hbank, hseq, hpath, hctr, hdue, hwork⟩ := h
  exact ⟨x, List.mem_map.2 ⟨x, hx, by simp [hwork]⟩, hbank, hseq, hpath, hctr, hdue, hwork⟩

theorem forms_mWrite (u : State) (o : Out) (op : Slotted) (due : Nat) {ps : List Part} (h : ps ≠ []) :
    Forms (u.mWrite o op due ps) o op due ps := by
  have hne : ps.isEmpty = false := by simpa using h
  unfold State.mWrite
  rw [hne]
  exact ⟨_, List.mem_append_right _ (List.mem_singleton_self _), rfl, rfl, rfl, rfl, rfl, rfl⟩

/-- Pieces that are formed join those that stand. -/
theorem mWrite_frame (u : State) (o : Out) (op : Slotted) (due : Nat) (ps : List Part) :
    ∃ l n, u.mWrite o op due ps = { u with outs := u.outs ++ l, nextId := n } := by
  unfold State.mWrite
  split
  · exact ⟨[], u.nextId, by rw [List.append_nil]⟩
  · exact ⟨_, _, rfl⟩

/-- The pieces of row after row. -/
def mWrites (u : State) (o : Out) (op : Slotted) (due : Nat → Nat) (ps : Nat → List Part) (l : List Nat) : State :=
  l.foldl (fun u i => u.mWrite o op (due i) (ps i)) u

theorem mWrites_frame (u : State) (o : Out) (op : Slotted) (due : Nat → Nat) (ps : Nat → List Part) (l : List Nat) :
    ∃ x n, mWrites u o op due ps l = { u with outs := u.outs ++ x, nextId := n } := by
  induction l generalizing u with
  | nil => exact ⟨[], u.nextId, by rw [List.append_nil]; rfl⟩
  | cons i t ih =>
    obtain ⟨x, n, hx⟩ := mWrite_frame u o op (due i) (ps i)
    obtain ⟨x', n', hx'⟩ := ih (u.mWrite o op (due i) (ps i))
    exact ⟨x ++ x', n', by rw [mWrites, List.foldl_cons]; rw [mWrites] at hx'; rw [hx', hx, List.append_assoc]⟩

/-- Each row with pieces is formed. -/
theorem forms_mWrites (u : State) (o : Out) (op : Slotted) (due : Nat → Nat) (ps : Nat → List Part) {l : List Nat} {i : Nat} (hi : i ∈ l)
    (hne : ps i ≠ []) : Forms (mWrites u o op due ps l) o op (due i) (ps i) := by
  induction l generalizing u with
  | nil => simp at hi
  | cons j t ih =>
    rcases List.mem_cons.1 hi with rfl | ht
    · obtain ⟨x, hx, hform⟩ := forms_mWrite u o op (due i) hne
      obtain ⟨l', n, hl'⟩ := mWrites_frame (u.mWrite o op (due i) (ps i)) o op due ps t
      exact ⟨x, by rw [mWrites, List.foldl_cons]; rw [mWrites] at hl'; rw [hl']; exact List.mem_append_left _ hx, hform⟩
    · exact ih (u.mWrite o op (due j) (ps j)) ht

/-! ## What the engine's reads change -/

/-- A read by the engine changes memory alone, by the errors that ECC corrects. -/
theorem reader_frame (s : State) (bank : Bool) (op : Slotted) (rs : List (Nat × Nat)) :
    ∃ m f, (s.reader bank op rs).1 = { s with mem := m, fresh := f } := ⟨_, _, rfl⟩

@[simp] theorem reader_c (s : State) (bank : Bool) (op : Slotted) (rs : List (Nat × Nat)) : (s.reader bank op rs).1.c = s.c := by
  obtain ⟨m, f, h⟩ := reader_frame s bank op rs
  rw [h]

@[simp] theorem reader_outs (s : State) (bank : Bool) (op : Slotted) (rs : List (Nat × Nat)) : (s.reader bank op rs).1.outs = s.outs := by
  obtain ⟨m, f, h⟩ := reader_frame s bank op rs
  rw [h]

theorem engineClaims_frame (s : State) (rs : List (Nat × Nat)) (ps : List Part) : ∃ k, s.engineClaims rs ps = { s with core := k } := ⟨_, rfl⟩

@[simp] theorem engineClaims_c (s : State) (rs : List (Nat × Nat)) (ps : List Part) : (s.engineClaims rs ps).c = s.c := by
  obtain ⟨k, h⟩ := engineClaims_frame s rs ps
  rw [h]

@[simp] theorem engineClaims_outs (s : State) (rs : List (Nat × Nat)) (ps : List Part) : (s.engineClaims rs ps).outs = s.outs := by
  obtain ⟨k, h⟩ := engineClaims_frame s rs ps
  rw [h]

/-- A consumed granule that is bad rewinds the segment of the operation's bead. -/
theorem consumedBy_frame (u : State) (bank bad : Bool) : ∃ q q', u.consumedBy bank bad = { u with q := q, oq := q' } := by
  unfold State.consumedBy State.onBankSeq
  split
  · split
    · exact ⟨_, u.oq, rfl⟩
    · exact ⟨u.q, _, rfl⟩
  · exact ⟨u.q, u.oq, rfl⟩

@[simp] theorem consumedBy_c (u : State) (bank bad : Bool) : (u.consumedBy bank bad).c = u.c := by
  obtain ⟨q, q', h⟩ := consumedBy_frame u bank bad
  rw [h]

@[simp] theorem consumedBy_outs (u : State) (bank bad : Bool) : (u.consumedBy bank bad).outs = u.outs := by
  obtain ⟨q, q', h⟩ := consumedBy_frame u bank bad
  rw [h]

/-! ## Which start an operation makes -/

theorem start_of_tile {s : State} {o : Out} {op : Slotted} {w : Tiling} (hev : s.eventOut = some o) (hw : o.work = .tile op w) :
    exec .tileOperationStart s = .next (s.tileStart o op w) := by
  simp only [exec, execTileOperationStart, hev, hw]

theorem tileStart_product {op : Slotted} {p : Product} (h : productOf op.instr = some p) (s : State) (o : Out) (w : Tiling) :
    s.tileStart o op w = s.productStart o op { w with halt := none } p := by
  simp only [State.tileStart, h]

theorem tileStart_job {op : Slotted} {j : FacJob} (h : facJob op = some j) (s : State) (o : Out) (w : Tiling) :
    s.tileStart o op w = s.facBegin o op { w with halt := none } j := by
  have hp : productOf op.instr = none := by
    unfold facJob at h
    split at h <;> simp_all [productOf]
  simp only [State.tileStart, hp, h]

theorem tileStart_merge {op : Slotted} {m : Merge} (h : mergeOf op.instr = some m) (s : State) (o : Out) (w : Tiling) :
    s.tileStart o op w = s.mergeStart o op { w with halt := none } m := by
  have hp : productOf op.instr = none ∧ facJob op = none := by
    unfold mergeOf at h
    split at h <;> simp_all [productOf, facJob]
  simp only [State.tileStart, hp, h]

theorem tileStart_perm {op : Slotted} {x : Perm} (h : permOf op.instr = some x) (s : State) (o : Out) (w : Tiling) :
    s.tileStart o op w = s.permStart o op { w with halt := none } x := by
  have hp : productOf op.instr = none ∧ facJob op = none ∧ mergeOf op.instr = none := by
    unfold permOf at h
    split at h <;> simp_all [productOf, facJob, mergeOf]
  simp only [State.tileStart, hp, h]

/-! ## Products, factorisations and merges -/

/-- A product loads its plane unless it finds it loaded, or has no row to enter. -/
theorem productStart_goes {s : State} {o : Out} {op : Slotted} {w : Tiling} (ho : o ∈ s.outs) (hw : o.work = .tile op w) (p : Product) :
    ∃ due v, GoesOn (s.productStart o op { w with halt := none } p) o op due v ∧ v.started = some s.now ∧
      s.productStart o op { w with halt := none } p = { s with outs := (s.productStart o op { w with halt := none } p).outs } ∧
      let more := if p.src = 1 ∧ s.remapOf s.core.phys ≠ List.range 16 then 2 else 0
      let first := p.first op w
      (first < p.steps op → v.step = first ∧
        (∀ x, first < p.per op → s.planeFor (op.iss.rm p.b) (p.depth op) = some x → v.plane = x.codes ∧ due = s.coreAfter more) ∧
        (p.per op ≤ first ∨ s.planeFor (op.iss.rm p.b) (p.depth op) = none → v.plane = w.plane ∧ due = s.coreAfter (p.plane op + more))) ∧
      (p.steps op ≤ first → v.step = p.steps op ∧ due = s.now) := by
  have hfirst : p.first op { w with halt := none } = p.first op w := rfl
  simp only [State.productStart, hfirst]
  by_cases hsteps : p.steps op ≤ p.first op w
  · simp only [hsteps, if_true]
    exact ⟨_, _, goesOn_tileGoes ho hw _ _, rfl, rfl, fun hlt => absurd hsteps (by omega), fun _ => ⟨rfl, rfl⟩⟩
  · simp only [hsteps, if_false]
    cases hplane : (if p.first op w < p.per op then s.planeFor (op.iss.rm p.b) (p.depth op) else none) with
    | some x =>
      split_ifs at hplane with hper
      refine ⟨_, _, goesOn_tileGoes ho hw _ _, rfl, rfl, fun _ => ⟨rfl, fun y _ hy => ?_, fun hno => ?_⟩, fun h => h.elim⟩
      · rw [hplane, Option.some_inj] at hy
        exact ⟨congrArg Plane.codes hy, rfl⟩
      · rcases hno with hno | hno
        · exact absurd hper (by omega)
        · simp [hno] at hplane
    | none =>
      refine ⟨_, _, goesOn_tileGoes ho hw _ _, rfl, rfl, fun _ => ⟨rfl, fun y hper hy => ?_, fun _ => ⟨rfl, rfl⟩⟩, fun h => h.elim⟩
      rw [if_pos hper, hy] at hplane
      simp at hplane

/-- A factorisation with a step to make holds its running values. -/
theorem facBegin_goes {s : State} {o : Out} {op : Slotted} {w : Tiling} (ho : o ∈ s.outs) (hw : o.work = .tile op w) {j : FacJob}
    (hlt : j.progress op w < j.steps) : ∃ v, GoesOn (s.facBegin o op { w with halt := none } j) o op s.now v ∧ v.step = j.progress op w ∧
      v.run = (s.facHolds o.bank op j w).2.1.saved ∧ (s.facBegin o op { w with halt := none } j).c = s.c := by
  have hprog : j.progress op { w with halt := none } = j.progress op w := rfl
  have hholds : s.facHolds o.bank op j { w with halt := none } = s.facHolds o.bank op j w := rfl
  simp only [State.facBegin, hprog, hholds, if_neg (Nat.not_le.2 hlt)]
  have hread : (s.facHolds o.bank op j w).1 = (s.reader o.bank op (s.facRanges op j)).1 := rfl
  refine ⟨_, goesOn_tileGoes (by rw [consumedBy_outs, hread, reader_outs]; exact ho) hw _ _, Nat.min_eq_left hlt.le, rfl, ?_⟩
  rw [tileGoes_c, consumedBy_c, hread, reader_c]

/-- `moutm` of a list that is off has no effect until it completes. -/
theorem mergeStart_off {s : State} {o : Out} {op : Slotted} {w : Tiling} (ho : o ∈ s.outs) (hw : o.work = .tile op w) {m : Merge}
    (hoff : cfOlen (m.cf op) = false) : ∃ v, GoesOn (s.mergeStart o op { w with halt := none } m) o op (s.coreAfter 20 + 32) v ∧
      s.mergeStart o op { w with halt := none } m = { s with outs := (s.mergeStart o op { w with halt := none } m).outs } := by
  simp only [State.mergeStart, hoff, Bool.not_false, if_true]
  exact ⟨_, goesOn_tileGoes ho hw _ _, rfl⟩

theorem mergeEnd_goes {u : State} {o : Out} {op : Slotted} {w : Tiling} (ho : o ∈ u.outs) (hw : o.work = .tile op w) (v : Tiling) (m : Merge)
    (due : Nat) : GoesOn (u.mergeEnd o op v m due) o op due v ∧ (u.mergeEnd o op v m due).c = u.c := by
  unfold State.mergeEnd
  dsimp only
  split
  · obtain ⟨l, n, h⟩ := mWrite_frame u o op due [{ addr := (m.list op u.core.phys 0 4).1, bytes := natBytes 4 0 }]
    rw [h]
    exact ⟨goesOn_tileGoes (List.mem_append_left l ho) hw v due, rfl⟩
  · exact ⟨goesOn_tileGoes ho hw v due, rfl⟩

theorem fld_low (x n : Nat) : fld x 0 n = x % 2 ^ n := by
  rw [fld, Nat.pow_zero, Nat.div_one]

/-- `moutm` reads the number of its records from its list. -/
theorem mergeStart_on {s : State} {o : Out} {op : Slotted} {w : Tiling} (ho : o ∈ s.outs) (hw : o.work = .tile op w) {m : Merge}
    (hon : cfOlen (m.cf op) = true) :
    ∃ v due, GoesOn (s.mergeStart o op { w with halt := none } m) o op due v ∧ v.step = 0 ∧ (s.mergeStart o op { w with halt := none } m).c = s.c ∧
      let at0 := crownThrough op.iss.cbmap s.core.phys (cfOla (m.cf op) % 2 ^ 23)
      let n := bytesNat ((s.reader o.bank op [(at0, 8)]).2.1.mem.bytes at0 8) % 2 ^ 32
      (n ≠ 0 → v.records = n ∧ due = s.now) ∧ (n = 0 → due = s.coreAfter 20 + 32) := by
  have hlist : m.list op s.core.phys 0 8 = (crownThrough op.iss.cbmap s.core.phys (cfOla (m.cf op) % 2 ^ 23), 8) := by
    rw [Merge.list, Nat.add_zero]
  simp only [State.mergeStart, hon, Bool.not_true, Bool.false_eq_true, if_false, hlist, fld_low]
  generalize hr : s.reader o.bank op [(crownThrough op.iss.cbmap s.core.phys (cfOla (m.cf op) % 2 ^ 23), 8)] = rr
  have hc : rr.1.c = s.c := by rw [← hr, reader_c]
  have houts : o ∈ rr.1.outs := by rw [← hr, reader_outs]; exact ho
  generalize hu : (rr.1.engineClaims _ []).consumedBy o.bank rr.2.2 = u
  have hc' : u.c = s.c := by rw [← hu, consumedBy_c, engineClaims_c, hc]
  have ho' : o ∈ u.outs := by rw [← hu, consumedBy_outs, engineClaims_outs]; exact houts
  generalize bytesNat _ % 2 ^ 32 = n
  split_ifs with hn
  · obtain ⟨hgoes, hctx⟩ := mergeEnd_goes ho' hw { w with halt := none, started := some s.now, step := 0 } m s.rowFinal
    exact ⟨_, _, hgoes, rfl, hctx.trans hc', fun h => absurd hn h, fun _ => rfl⟩
  · exact ⟨_, _, goesOn_tileGoes ho' hw _ _, rfl, (tileGoes_c _ _ _ _ _).trans hc', fun _ => ⟨rfl, rfl⟩, fun h => absurd h hn⟩

/-! ## `mperm` -/

theorem permEntry_lt (pv : BitVec 1024) {count i : Nat} (h : i < count) : permEntry pv count i < count := by
  unfold permEntry
  dsimp only
  split_ifs with he
  · exact he
  · exact h

theorem set_lt {l : List Nat} {count : Nat} (h : ∀ x ∈ l, x < count) (i : Nat) {v : Nat} (hv : v < count) : ∀ x ∈ l.set i v, x < count := by
  intro x hx
  rcases List.mem_or_eq_of_mem_set hx with hx | rfl
  · exact h x hx
  · exact hv

theorem getD_lt {l : List Nat} {count : Nat} (h : ∀ x ∈ l, x < count) (i : Nat) {v : Nat} (hv : v < count) : l[i]?.getD v < count := by
  cases hi : l[i]? with
  | none => exact hv
  | some x => exact h x (List.mem_of_getElem? hi)

theorem swapAt_lt {l : List Nat} {count : Nat} (hpos : 0 < count) (h : ∀ x ∈ l, x < count) (i j : Nat) : ∀ x ∈ swapAt l i j, x < count :=
  set_lt (set_lt h i (getD_lt h j hpos)) j (getD_lt h i hpos)

/-- A list that is rearranged step by step keeps its bound. -/
theorem foldl_lt {count : Nat} (f : List Nat → Nat → List Nat) (ks : List Nat)
    (hf : ∀ k ∈ ks, ∀ l : List Nat, (∀ x ∈ l, x < count) → ∀ x ∈ f l k, x < count) (l : List Nat) (h : ∀ x ∈ l, x < count) :
    ∀ x ∈ ks.foldl f l, x < count := by
  induction ks generalizing l with
  | nil => exact h
  | cons k t ih =>
    exact ih (fun k' hk' => hf k' (List.mem_cons_of_mem k hk')) (f l k) (hf k List.mem_cons_self l h)

/-- The input line of a moved line is one of the lines that move. -/
theorem permLines_lt (pv : BitVec 1024) {count : Nat} (hpos : 0 < count) (vector inverse : Bool) : ∀ x ∈ permLines pv count vector inverse, x < count := by
  have hid : ∀ x ∈ List.range count, x < count := fun x => List.mem_range.1
  unfold permLines
  dsimp only
  split_ifs
  · exact foldl_lt _ _ (fun k _ l h => swapAt_lt hpos h k _) _ hid
  · exact foldl_lt _ _ (fun k _ l h => swapAt_lt hpos h k _) _ hid
  · intro x hx
    obtain ⟨k, hk, rfl⟩ := List.mem_map.1 hx
    exact permEntry_lt pv (hid k hk)
  · exact foldl_lt _ _ (fun k hk l h => set_lt h _ (hid k hk)) _ hid

theorem count_pos_of_permOf {i : Instr} {x : Perm} (h : permOf i = some x) : 0 < x.count := by
  unfold permOf at h
  split at h
  · rw [← Option.some.inj h]
    exact Nat.succ_pos _
  · simp at h

/-- Every row that `mperm` moves has an element. -/
theorem perm_row_ne_nil {x : Perm} (hcount : 0 < x.count) (d : QWord) (pv : BitVec 1024) (r : Reader) {i : Nat} (hi : i < (x.span d).1)
    (hrows : (x.span d).1 ≤ dRows d) : (x.rows d pv (r.tile d))[i]?.getD [] ≠ [] := by
  unfold Perm.rows
  dsimp only
  by_cases hc : x.columns = true
  · have hin : i < dRows d := hi.trans_le hrows
    simp [hc, Perm.span, Reader.tile, hin]
    omega
  · have hspan : (x.span d).1 = x.count := by simp [Perm.span, hc]
    have hsrc : ((permLines pv x.count x.vector x.inverse)[i]?.getD i) < dRows d :=
      (getD_lt (permLines_lt pv hcount _ _) i (hspan ▸ hi)).trans_le (hspan ▸ hrows)
    have hin : i < x.count := hspan ▸ hi
    rw [if_neg hc, hspan]
    simp [hin, Reader.tile, hsrc, dCols]

theorem rowParts_ne_nil (map : DWord) (core : Nat) (d : QWord) (i : Nat) {bs : List Byte} (h : bs ≠ []) : rowParts map core d i bs ≠ [] := by
  have := List.length_pos_iff.2 h
  simp [rowParts, List.range_eq_nil]
  omega

theorem rowBytesOf_ne_nil {z : Nat} (hz : z ≠ 0) (old : Byte) {codes : List Nat} (h : codes ≠ []) : rowBytesOf z old codes ≠ [] := by
  have hbits : 0 < z * codes.length := Nat.mul_pos (by omega) (List.length_pos_iff.2 h)
  apply List.ne_nil_of_length_pos
  rw [rowBytesOf, natBytes_length]
  omega

/-- What `mperm` reads: the rows that it moves. -/
def permRead (s : State) (o : Out) (op : Slotted) (x : Perm) : State × Reader × Bool :=
  let d := op.iss.rm x.t
  s.reader o.bank op ((List.range (x.span d).1).flatMap fun i =>
    rowSpan op.iss.cbmap s.core.phys d i 0 (((x.span d).2 * dBits d + 7) / 8))

/-- The cycle in which the first `i` rows of `mperm` are final. -/
def permDue (s : State) (op : Slotted) (x : Perm) (i : Nat) : Nat :=
  s.coreAfter (((8 + i * x.rowTime (op.iss.rm x.t)) * 8 + s.hub.power.duty - 1) / s.hub.power.duty) + 32

/-- The pieces of row `i` after `mperm`. -/
def permPieces (s : State) (o : Out) (op : Slotted) (x : Perm) (i : Nat) : List Part :=
  let d := op.iss.rm x.t
  let r := (permRead s o op x).2.1
  rowParts op.iss.cbmap s.core.phys d i
    (rowBytesOf (dBits d) (r.mem.byte (crownThrough op.iss.cbmap s.core.phys (rowElem d i ((x.span d).2 - 1)).1))
      ((x.rows d ((s.bankCtx o.bank).rpv x.pv) (r.tile d))[i]?.getD []))

theorem permPieces_ne_nil {op : Slotted} {x : Perm} (hcount : 0 < x.count) (s : State) (o : Out) {i : Nat}
    (hi : i < (x.span (op.iss.rm x.t)).1) (hz : dBits (op.iss.rm x.t) ≠ 0) (hrows : (x.span (op.iss.rm x.t)).1 ≤ dRows (op.iss.rm x.t)) :
    permPieces s o op x i ≠ [] :=
  rowParts_ne_nil _ _ _ _ (rowBytesOf_ne_nil hz _ (perm_row_ne_nil hcount _ _ _ hi hrows))

/-- `mperm` forms its rows one after another, and completes when the last is final. -/
theorem permStart_eq (s : State) (o : Out) {op : Slotted} (w : Tiling) {x : Perm} (hprog : dProgress (op.iss.rm x.t) = 0) :
    s.permStart o op w x =
      ((mWrites (permRead s o op x).1 o op (fun i => permDue s op x (i + 1)) (permPieces s o op x)
        (List.range (x.span (op.iss.rm x.t)).1)).consumedBy o.bank (permRead s o op x).2.2).tileGoes o op
        { w with started := some s.now } (permDue s op x (x.span (op.iss.rm x.t)).1) := by
  unfold State.permStart
  dsimp only
  rw [if_neg (not_not.2 hprog)]
  rfl

theorem permRead_c (s : State) (o : Out) (op : Slotted) (x : Perm) : (permRead s o op x).1.c = s.c := reader_c s o.bank op _

theorem permRead_outs (s : State) (o : Out) (op : Slotted) (x : Perm) : (permRead s o op x).1.outs = s.outs := reader_outs s o.bank op _

theorem permStart_c (s : State) (o : Out) {op : Slotted} (w : Tiling) {x : Perm} (hprog : dProgress (op.iss.rm x.t) = 0) :
    (s.permStart o op w x).c = s.c := by
  obtain ⟨l, n, hl⟩ := mWrites_frame (permRead s o op x).1 o op (fun i => permDue s op x (i + 1)) (permPieces s o op x)
    (List.range (x.span (op.iss.rm x.t)).1)
  rw [permStart_eq s o w hprog, tileGoes_c, consumedBy_c, hl]
  exact permRead_c s o op x

theorem permStart_goes {s : State} {o : Out} {op : Slotted} {w : Tiling} (ho : o ∈ s.outs) (hw : o.work = .tile op w) (v : Tiling) {x : Perm}
    (hprog : dProgress (op.iss.rm x.t) = 0) :
    GoesOn (s.permStart o op v x) o op (permDue s op x (x.span (op.iss.rm x.t)).1) { v with started := some s.now } := by
  obtain ⟨l, n, hl⟩ := mWrites_frame (permRead s o op x).1 o op (fun i => permDue s op x (i + 1)) (permPieces s o op x)
    (List.range (x.span (op.iss.rm x.t)).1)
  rw [permStart_eq s o v hprog]
  refine goesOn_tileGoes ?_ hw _ _
  rw [consumedBy_outs, hl]
  exact List.mem_append_left l (by rw [permRead_outs]; exact ho)

theorem permStart_forms (s : State) (o : Out) {op : Slotted} (w : Tiling) {x : Perm} (hcount : 0 < x.count)
    (hprog : dProgress (op.iss.rm x.t) = 0) {i : Nat} (hi : i < (x.span (op.iss.rm x.t)).1) (hz : dBits (op.iss.rm x.t) ≠ 0)
    (hrows : (x.span (op.iss.rm x.t)).1 ≤ dRows (op.iss.rm x.t)) :
    Forms (s.permStart o op w x) o op (permDue s op x (i + 1)) (permPieces s o op x i) := by
  obtain ⟨y, hy, hform⟩ := forms_mWrites (permRead s o op x).1 o op (fun i => permDue s op x (i + 1)) (permPieces s o op x)
    (List.mem_range.2 hi) (permPieces_ne_nil hcount s o hi hz hrows)
  rw [permStart_eq s o w hprog]
  exact forms_tileGoes ⟨y, by rw [consumedBy_outs]; exact hy, hform⟩ _ _

/-! ## Every tile operation -/

theorem tileStart_starts {s : State} {o : Out} {op : Slotted} {w : Tiling} (hev : s.eventOut = some o) (hw : o.work = .tile op w) :
    TileStarts s o op w := by
  have ho := mem_of_eventOut hev
  have hstart := start_of_tile hev hw
  unfold TileStarts
  dsimp only
  refine ⟨fun p hp => ?_, fun j hj hlt => ?_, fun m hm hoff => ?_, fun m hm hon => ?_, fun x hx hprog => ?_, fun m hi => ?_, fun m a hi => ?_,
    fun m a hi => ?_, fun b hi => ?_, fun n x d hi => ?_⟩
  · obtain ⟨due, v, hgoes, hrest⟩ := productStart_goes ho hw p
    exact ⟨_, due, v, hstart.trans (congrArg _ (tileStart_product hp s o w)), hgoes, hrest⟩
  · obtain ⟨v, hgoes⟩ := facBegin_goes ho hw hlt
    exact ⟨_, v, hstart.trans (congrArg _ (tileStart_job hj s o w)), hgoes⟩
  · obtain ⟨v, hgoes⟩ := mergeStart_off ho hw hoff
    exact ⟨_, v, hstart.trans (congrArg _ (tileStart_merge hm s o w)), hgoes⟩
  · obtain ⟨v, due, hgoes⟩ := mergeStart_on ho hw hon
    exact ⟨_, v, due, hstart.trans (congrArg _ (tileStart_merge hm s o w)), hgoes⟩
  · exact ⟨_, _, hstart.trans (congrArg _ (tileStart_perm hx s o w)), permStart_c s o _ hprog, permStart_goes ho hw _ hprog,
      fun i hi hz hrows => permStart_forms s o _ (count_pos_of_permOf hx) hprog hi hz hrows⟩
  · refine ⟨_, hstart, ?_⟩
    simp only [State.tileStart, hi, productOf, facJob, mergeOf, permOf]
    exact ⟨goesOn_tileGoes ho hw _ _, rfl⟩
  · refine ⟨_, hstart, ?_⟩
    simp only [State.tileStart, hi, productOf, facJob, mergeOf, permOf]
    refine ⟨goesOn_tileGoes (List.mem_append_left _ ho) hw _ _, forms_tileGoes (forms_mWrite s o op _ (List.cons_ne_nil _ _)) _ _, rfl⟩
  · refine ⟨_, hstart, ?_⟩
    simp only [State.tileStart, hi, productOf, facJob, mergeOf, permOf]
    exact ⟨goesOn_tileGoes ho hw _ _, rfl⟩
  · refine ⟨_, hstart, ?_⟩
    simp only [State.tileStart, hi, productOf, facJob, mergeOf, permOf, planeTime, Nat.max_self]
    exact ⟨rfl, goesOn_tileGoes ho hw _ _⟩
  · refine ⟨_, hstart, ?_⟩
    simp only [State.tileStart, hi, productOf, facJob, mergeOf, permOf]
    exact ⟨rfl, goesOn_tileGoes ho hw _ _⟩

end Sys2Proof.TileStart
end

section
/-! SUPPORT. The events of the slots, of path L and of the matrix engine. -/

namespace Sys2Proof.SlotEvents
open Sys2Proof Machine Claims Laws MemoryEvents TileStart

/-- Settles O49: the events of parked slots and of the outlier list, the return of a load, the performing of a store, and the start of a tile
operation, each by the lemma about its event. -/
theorem slotAndMemoryEvents : Obligations.SlotAndMemoryEvents := by
  unfold Obligations.SlotAndMemoryEvents
  intro s o
  refine ⟨fun harg => ?_, fun harg => ?_, fun p l => parkedTooLong_slotV, fun p l => parkedTooLong_slotM, fun k p => parkedTooLong_held,
    fun i => outlierListFull_enters, fun hev => ⟨fun w info fl => loadReturn_answer hev, fun w rs hd cached fill => loadReturn_fetch hev,
      fun w rs hd cached fill => loadReturn_waits hev, fetched_scalar s o, fun w info fl => loadReturn_rewinds hev,
      fun w info fl => loadReturn_traps hev, fun ps map tag full hs hps => strikeWindow_performs hev hs hps,
      fun ps lock hs hps => storePerformed_performs hev hs hps, fun g full => storePerformed_tset hev, fun op w => tileStart_starts hev⟩⟩
  · simp only [exec, execParkedSlotRetry, harg]
    rfl
  · simp only [exec, execParkedSlotRetry, harg]
    rfl

end Sys2Proof.SlotEvents
end

section
/-! SUPPORT. O6: an FP64 operation of slot C whose flags trap. -/

namespace Sys2Proof.ScalarFloat
open Sys2Proof Machine Claims Laws

/-- The shared two-operand operation with its guard set: the function's flags end it, and its result goes to x(d) (04 R112). -/
theorem fp2_finishes {s : State} {g : BitVec 3} (hg : s.c.rk g = true) (f : FpEnv → Nat → Nat → Nat × Fl) (d a b : BitVec 5) (r : BitVec 2) :
    let y := f (s.fpEnv r) (s.c.rx a).toNat (s.c.rx b).toNat
    fp2 f d a b g r s = .next (s.finishFp y.2 (·.wx d (BitVec.ofNat 64 y.1))) := congrArg Host.Outcome.next (if_pos hg)

/-- Every row of the table is the shared operation: without a second source the first stands for it, and without a rounding field RNE
(04 R112, R113, R116). -/
theorem exec_floatRow_fp2 (s : State) (d a b : BitVec 5) (g : BitVec 3) (r : BitVec 2) : ∀ row ∈ floatRows, ∃ e m,
    exec (row.1 d a b g r) s = fp2 row.2 d a e g m s ∧
    row.2 (s.fpEnv m) (s.c.rx a).toNat (s.c.rx e).toNat = row.2 (FloatModes s r) (s.c.rx a).toNat (s.c.rx b).toNat := by
  simp only [floatRows, List.forall_mem_cons]
  exact ⟨⟨b, r, rfl, rfl⟩, ⟨b, r, rfl, rfl⟩, ⟨b, r, rfl, rfl⟩, ⟨b, r, rfl, rfl⟩, ⟨b, 0, rfl, rfl⟩, ⟨b, 0, rfl, rfl⟩, ⟨a, r, rfl, rfl⟩,
    ⟨a, r, rfl, rfl⟩, ⟨a, r, rfl, rfl⟩, ⟨a, r, rfl, rfl⟩, ⟨a, r, rfl, rfl⟩, ⟨a, 0, rfl, rfl⟩, ⟨a, r, rfl, rfl⟩, nofun⟩

theorem exec_floatRow {s : State} {g : BitVec 3} (hg : s.c.rk g = true) (d a b : BitVec 5) (r : BitVec 2) {row} (hrow : row ∈ floatRows) :
    let y := row.2 (FloatModes s r) (s.c.rx a).toNat (s.c.rx b).toNat
    exec (row.1 d a b g r) s = .next (s.finishFp y.2 (·.wx d (BitVec.ofNat 64 y.1))) := by
  obtain ⟨e, m, hx, hy⟩ := exec_floatRow_fp2 s d a b g r row hrow
  rw [hx, fp2_finishes hg, hy]

theorem exec_ffmaD {s : State} {g : BitVec 3} (hg : s.c.rk g = true) (d a b c : BitVec 5) (r : BitVec 2) :
    let y := fpFma fp64 (FloatModes s r) (s.c.rx a).toNat (s.c.rx b).toNat (s.c.rx c).toNat
    exec (.ffmaD d a b g c r) s = .next (s.finishFp y.2 (·.wx d (BitVec.ofNat 64 y.1))) := congrArg Host.Outcome.next (if_pos hg)

theorem exec_fcmpD {s : State} {g cond : BitVec 3} (hg : s.c.rk g = true) (hc : cond.toNat ≤ 3) (k : BitVec 3) (a b : BitVec 5) :
    let y := fpCmp fp64 (FloatModes s 0).daz cond.toNat (s.c.rx a).toNat (s.c.rx b).toNat
    exec (.fcmpD k a b g cond) s = .next (s.finishFp y.2 (·.wk k y.1)) :=
  (if_neg (Nat.not_lt.2 hc)).trans (congrArg Host.Outcome.next (if_pos hg))

/-- An operation that would raise an enabled flag faults before it writes anything (03 R95). -/
theorem faults_finishFp {s : State} {fl : Fl} (he : Enabled s fl = true) (write : State → State) :
    Faults s (s.finishFp fl write) 0x0F (BitVec.ofNat 64 (enabledFlags s.lat.iss.fpcr fl + (fl &&& 31) * 2 ^ 8 + 2 ^ 23)) := by
  have h : s.finishFp fl write = s.raise 0x0F _ := if_pos ((enabled_iff s fl).1 he)
  rw [h]
  exact faults_raise ..

/-- Settles O6: each operation ends with its flags, and enabled ones trap there. -/
theorem enabledFloatFlagTraps : Obligations.EnabledFloatFlagTraps := by
  intro s d a b c k cond g r hg
  refine ⟨?_, ?_, ?_⟩
  · rintro row hrow y rfl he
    exact ⟨_, exec_floatRow hg d a b r hrow, faults_finishFp he _⟩
  · rintro y rfl he
    exact ⟨_, exec_ffmaD hg d a b c r, faults_finishFp he _⟩
  · rintro hc y rfl he
    exact ⟨_, exec_fcmpD hg hc k a b, faults_finishFp he _⟩

end Sys2Proof.ScalarFloat
end

section
/-! SUPPORT. O9: the status registers that lie in a bead's context, and the words that the core makes up for a read. -/

namespace Sys2Proof.ContextRegisters
open Sys2Proof Machine Claims Laws StatusAccess

/-! ## Reads at the level that a register asks for (04 R123, R124) -/

/-- The level allows a read: at bead level, of a register that is not of the system. -/
def MayRead (s : State) (n : Nat) : Prop := (srdSystem n && !s.c.sys) = false

theorem mayRead_of {s : State} {n : Nat} (h : s.c.sys = true ∨ n < 0x010) : MayRead s n := by
  obtain hs | hn := h
  · rw [MayRead, hs, Bool.not_true, Bool.and_false]
  · have : srdSystem n = false := decide_eq_false (by omega)
    rw [MayRead, this, Bool.false_and]

theorem srd_samples {s : State} {n : BitVec 12} (h : statusDefined n = true) (hn : MayRead s n.toNat) (d : BitVec 5) :
    ∃ t, exec (.srd d n) s = .next t ∧ WritesX s t d (s.srd n.toNat) := by
  refine ⟨_, ?_, writesX_wx ..⟩
  show execSrd d n s = _
  rw [execSrd, h, hn]; rfl

/-- sr.fpcr and sr.fpsr are written at either level. -/
theorem mayWrite_of {s : State} {n : Nat} (h : s.c.sys = true ∨ n < 0x003) : MayWrite s n := by
  obtain hs | hn := h
  · exact mayWrite_of_sys hs n
  · have : swrSystem n = false := decide_eq_false (by omega)
    rw [MayWrite, this, Bool.false_and]

/-- Below the format registers only sr.slip refuses a value. -/
theorem swrRefuses_context {n : Nat} {w : DWord} (h : n < 0x020) (hw : n = 0x015 → fld w.toNat 36 4 ≤ 9) : swrRefuses n w = false := by
  have h1 : ¬(0x20 ≤ n ∧ n < 0x30) := by omega
  have h2 : ¬(0x40 ≤ n ∧ n < 0x70) := by omega
  have h3 : (n == 0x15 && decide (9 < fld w.toNat 36 4)) = false := by
    rw [Bool.and_eq_false_imp, beq_iff_eq]
    exact fun e => decide_eq_false (Nat.not_lt.2 (hw e))
  simp only [swrRefuses, h1, h2, h3, decide_false, Bool.false_and, Bool.or_false]

/-! ## The twelve registers as one write -/

/-- The context with register `n` of the table at `v`. -/
def put (n : Nat) (v : DWord) (c : Ctx) : Ctx :=
  let field (m : Nat) (old : DWord) : DWord := if n = m then v else old
  { c with
    fpcr := field 0x001 c.fpcr, fpsr := field 0x002 c.fpsr, bead := field 0x008 c.bead, seg := field 0x009 c.seg
    cause := field 0x010 c.cause, epc := field 0x011 c.epc, einfo := field 0x012 c.einfo, tbase := field 0x013 c.tbase
    repc := field 0x014 c.repc, slip := field 0x015 c.slip, enpc := field 0x016 c.enpc, cbmap := field 0x017 c.cbmap }

/-- A register of the table after a write to one of them. -/
theorem read_put (n : Nat) (v : DWord) (c : Ctx) : ∀ r ∈ contextRegisters, r.2.2 (put n v c) = if n = r.1 then v else r.2.2 c := by
  simp only [contextRegisters, List.forall_mem_cons]
  exact ⟨rfl, rfl, rfl, rfl, rfl, rfl, rfl, rfl, rfl, rfl, rfl, rfl, nofun⟩

/-- A register without reserved bits takes the whole word. -/
theorem maskWrite_full (old new : DWord) : maskWrite old new 0xFFFFFFFFFFFFFFFF = new := by
  have h : (0xFFFFFFFFFFFFFFFF : DWord) = BitVec.allOnes 64 := rfl
  simp only [maskWrite, blendBits, h, BitVec.and_allOnes, BitVec.not_allOnes, BitVec.and_zero, BitVec.or_zero]

theorem srd_context (s : State) : ∀ row ∈ contextRegisters, s.srd row.1 = row.2.2 s.c := by
  simp only [contextRegisters, List.forall_mem_cons]
  exact ⟨rfl, rfl, rfl, rfl, rfl, rfl, rfl, rfl, rfl, rfl, rfl, rfl, nofun⟩

/-- `swr` puts the written bits of x(a) into the register and keeps its others (04 R125). -/
theorem swr_context (s : State) (w : DWord) : ∀ row ∈ contextRegisters,
    s.swr row.1 w = { s with c := put row.1 (maskWrite (row.2.2 s.c) w row.2.1) s.c } := by
  simp only [contextRegisters, List.forall_mem_cons, maskWrite_full]
  exact ⟨rfl, rfl, rfl, rfl, rfl, rfl, rfl, rfl, rfl, rfl, rfl, rfl, nofun⟩

theorem context_numbers : ∀ row ∈ contextRegisters, row.1 < 0x020 ∧ statusDefined (BitVec.ofNat 12 row.1) = true := by decide

theorem context_read {s : State} {row : Nat × DWord × (Ctx → DWord)} (hrow : row ∈ contextRegisters) (h : s.c.sys = true ∨ row.1 < 0x010)
    (d : BitVec 5) : ∃ t, exec (.srd d (BitVec.ofNat 12 row.1)) s = .next t ∧ WritesX s t d (row.2.2 s.c) := by
  obtain ⟨lt, hd⟩ := context_numbers row hrow
  have e : (BitVec.ofNat 12 row.1).toNat = row.1 := number_toNat (by omega)
  have hr := srd_samples hd (e.symm ▸ mayRead_of h) d
  rwa [e, srd_context s row hrow] at hr

theorem context_write {s : State} {row : Nat × DWord × (Ctx → DWord)} {a : BitVec 5} (hrow : row ∈ contextRegisters)
    (h : s.c.sys = true ∨ row.1 < 0x003) (hw : row.1 = 0x015 → fld (s.c.rx a).toNat 36 4 ≤ 9) :
    exec (.swr a (BitVec.ofNat 12 row.1)) s = .next { s with c := put row.1 (maskWrite (row.2.2 s.c) (s.c.rx a) row.2.1) s.c } := by
  obtain ⟨lt, hd⟩ := context_numbers row hrow
  have e : (BitVec.ofNat 12 row.1).toNat = row.1 := number_toNat (by omega)
  rw [swr_writes hd (e.symm ▸ mayWrite_of h) (e.symm ▸ swrRefuses_context lt hw), e, swr_context s _ row hrow]

/-! ## O9 -/

theorem ctxWord_eq (s : State) : s.ctxWord =
    BitVec.ofNat 64 (s.core.bank.toNat + s.oq.state.code * 2 + s.c.preempt.toNat * 2 ^ 8 + s.c.since.toNat * 2 ^ 16) := by
  unfold State.ctxWord
  cases s.core.bank <;> rfl

theorem swrRefuses_slip {w : DWord} (h : 9 < fld w.toNat 36 4) : swrRefuses 0x015 w = true := by
  simp [swrRefuses, h]

/-- Settles O9: a register of the context by the table of the twelve, each other one as a number of the chains of `State.srd` and
`State.swr`. -/
theorem statusRegistersReadAndWrite : Obligations.StatusRegistersReadAndWrite := by
  intro s d a
  refine ⟨srd_reads rfl rfl rfl d, srd_reads rfl rfl rfl d, srd_reads rfl rfl rfl d, srd_reads rfl rfl rfl d, srd_reads rfl rfl rfl d,
    srd_reads (n := 0x007) rfl rfl (ctxWord_eq s) d, fun hs => ⟨_, swr_writes rfl (mayWrite_of_sys hs _) rfl, rfl⟩,
    fun row hrow => ⟨fun h => context_read hrow h d, fun h hw => ⟨_, context_write hrow h hw, ?_, rfl, rfl, ?_⟩⟩,
    fun hs hw => swr_faults (n := 0x015) rfl (mayWrite_of_sys hs _) (swrRefuses_slip hw)⟩
  · exact (read_put _ _ _ row hrow).trans (if_pos rfl)
  · exact fun r hr hne => (read_put _ _ _ r hr).trans (if_neg hne.symm)

end Sys2Proof.ContextRegisters
end

section
/-! SUPPORT. O60: no operation and no event stops the machine, so a step stops it only at the end of the clock. -/

namespace Sys2Proof.EveryStepGoes
open Sys2Proof Machine

/-- The answer is a next state. -/
def Goes (a : Ans) : Prop := ∃ t, a = .next t

theorem goes_next (t : State) : Goes (.next t) := ⟨t, rfl⟩

theorem goes_ite {p : Prop} [Decidable p] {a b : Ans} (ha : Goes a) (hb : Goes b) : Goes (if p then a else b) := by
  split
  · exact ha
  · exact hb

/-- A check that chooses between two next states. -/
theorem goes_either {p : Prop} [Decidable p] (t u : State) : Goes (if p then .next t else .next u) :=
  goes_ite (goes_next t) (goes_next u)

/-! ## Operations with several checks -/

theorem execSpawn_goes (d a b c : BitVec 5) (s : State) : Goes (execSpawn d a b c s) :=
  goes_ite (goes_next _) (goes_ite (goes_next _) (goes_ite (goes_next _) (goes_either ..)))

theorem execJoin_goes (d a b : BitVec 5) (s : State) : Goes (execJoin d a b s) := by
  unfold execJoin
  split
  · exact goes_next _
  · refine goes_ite (goes_next _) (goes_ite (goes_next _) (goes_ite (goes_next _) ?_))
    split <;> exact goes_next _

theorem execPld_goes (h a : BitVec 4) (e n : BitVec 6) (s : State) : Goes (execPld h a e n s) := by
  unfold execPld
  refine goes_ite (goes_next _) ?_
  split
  · exact goes_next _
  · exact goes_either ..

theorem execWstr_goes (h o l n p : BitVec 4) (s : State) : Goes (execWstr h o l n p s) := by
  simp only [execWstr]
  split
  · exact goes_next _
  · exact goes_ite (goes_next _) (goes_ite (goes_next _) (goes_either ..))

theorem execFrfl_goes (d h a w t : BitVec 4) (s : State) : Goes (execFrfl d h a w t s) := by
  unfold execFrfl
  refine goes_ite (goes_next _) (goes_ite (goes_next _) ?_)
  split
  · exact goes_next _
  refine goes_ite (goes_next _) ?_
  split
  · exact goes_next _
  split
  · exact goes_next _
  split
  · exact goes_next _
  · exact goes_either ..

theorem execShift_goes (r m : BitVec 2) (h a d l : BitVec 4) (s : State) : Goes (execShift r m h a d l s) := by
  unfold execShift
  refine goes_ite (goes_next _) ?_
  split
  · exact goes_next _
  · exact goes_ite (goes_next _) (goes_ite (goes_next _) (goes_ite (goes_next _) (goes_ite (goes_next _)
      (goes_ite (goes_next _) (goes_ite (goes_next _) (goes_either ..))))))

theorem execReduce_goes (d h a o k : BitVec 4) (s : State) : Goes (execReduce d h a o k s) := by
  unfold execReduce
  refine goes_ite (goes_next _) ?_
  split
  · exact goes_next _
  refine goes_ite (goes_next _) ?_
  split
  · exact goes_next _
  · exact goes_ite (goes_next _) (goes_either ..)

theorem execBobWait_goes (d : BitVec 5) (h a : BitVec 4) (x : BitVec 5) (s : State) : Goes (execBobWait d h a x s) := by
  unfold execBobWait
  split
  · exact goes_ite (goes_next _) (goes_either ..)
  · exact goes_next _

theorem execSleepu_goes (a : BitVec 4) (s : State) : Goes (execSleepu a s) := by
  unfold execSleepu
  split
  · exact goes_next _
  · exact goes_next _
  · exact goes_ite (goes_next _) (goes_either ..)

theorem execTdead_goes (h o l : BitVec 4) (s : State) : Goes (execTdead h o l s) := by
  unfold execTdead
  split
  · exact goes_next _
  · exact goes_either ..

theorem execHdead_goes (h o l : BitVec 4) (s : State) : Goes (execHdead h o l s) := by
  simp only [execHdead]
  split
  · exact goes_next _
  · exact goes_ite (goes_next _) (goes_ite (goes_next _) (goes_ite (goes_next _) (goes_either ..)))

/-! ## Events with several outcomes -/

theorem execLoadReturn_goes (s : State) : Goes (execLoadReturn s) := by
  unfold execLoadReturn
  split
  · split
    · exact goes_ite (goes_either ..) (goes_next _)
    · exact goes_either ..
    · exact goes_next _
  · exact goes_next _

theorem execStrikeReport_goes (s : State) : Goes (execStrikeReport s) := by
  unfold execStrikeReport
  split
  · exact goes_either ..
  · exact goes_next _
  · exact goes_next _

theorem execReduceRound_goes (s : State) : Goes (execReduceRound s) := by
  unfold execReduceRound
  split
  · split
    · exact goes_either ..
    · exact goes_next _
  · exact goes_next _

theorem execBobWaitAnswer_goes (s : State) : Goes (execBobWaitAnswer s) := by
  unfold execBobWaitAnswer
  split
  · split
    · split
      · exact goes_next _
      · exact goes_ite (goes_next _) (goes_either ..)
      · exact goes_next _
    · exact goes_next _
  · exact goes_next _

theorem execBarrierRelease_goes (s : State) : Goes (execBarrierRelease s) := by
  unfold execBarrierRelease
  split
  · split
    · refine goes_ite (goes_next _) ?_
      split <;> exact goes_next _
    · exact goes_next _
  · exact goes_next _

/-! ## Every instruction and every event -/

/-- What is not listed answers a next state outright. -/
theorem exec_goes (i : Instr) (s : State) : Goes (exec i s) := by
  cases i with
  | spawn => exact execSpawn_goes ..
  | join => exact execJoin_goes ..
  | pld => exact execPld_goes ..
  | wstr => exact execWstr_goes ..
  | frfl => exact execFrfl_goes ..
  | shift => exact execShift_goes ..
  | reduce => exact execReduce_goes ..
  | bobWait => exact execBobWait_goes ..
  | sleepu => exact execSleepu_goes ..
  | tdead => exact execTdead_goes ..
  | hdead => exact execHdead_goes ..
  | loadReturn => exact execLoadReturn_goes s
  | strikeReport => exact execStrikeReport_goes s
  | reduceRound => exact execReduceRound_goes s
  | bobWaitAnswer => exact execBobWaitAnswer_goes s
  | barrierRelease => exact execBarrierRelease_goes s
  -- operations with checks of their encoding or of what they wait for
  | sext | zext | cmp | cmpi | fcmpD | wait | fence | seg | mdld | mdst | tdefer | leave | vpsw | trap => exact goes_either ..
  | xcM => exact goes_ite (goes_either ..) (goes_either ..)
  | xcV | srd | pgo | xcXAddress => exact goes_ite (goes_next _) (goes_either ..)
  | swr | xcXMatrix => exact goes_ite (goes_next _) (goes_ite (goes_next _) (goes_either ..))
  | drain => exact goes_ite (goes_next _) (goes_ite (goes_next _) (goes_ite (goes_next _) (goes_either ..)))
  | mdset | hder | hld | bcfl | pcfg =>
    simp only [exec, execMdset, execHder, execHld, execBcfl, execPcfg]
    split <;> exact goes_next _
  -- events, each by the payload or the operation in hand that it is about
  | parkedSlotRetry | outlierListFull | beadStart | executableRegistration | normalRefresh | forcedRefresh | linkDown | routeRestore
  | cxlMemAccess | patrolScrub | monitorSample | pstepSample | setPowerStep | throttleEvaluation | sensorCheck | powerFail | powerReturn
  | boot | remotePackageAccess | stackScrubPass | imageWrite =>
    simp only [exec, execParkedSlotRetry, execOutlierListFull, execBeadStart, execExecutableRegistration, execNormalRefresh,
      execForcedRefresh, execLinkDown, execRouteRestore, execCxlMemAccess, execPatrolScrub, execMonitorSample, execPstepSample,
      execSetPowerStep, execThrottleEvaluation, execSensorCheck, execPowerFail, execPowerReturn, execBoot, execRemotePackageAccess,
      execStackScrubPass, execImageWrite]
    split <;> exact goes_next _
  | cbar | scinvRange | trapEntry =>
    simp only [exec, execCbar, execScinvRange, execTrapEntry]
    split
    · exact goes_next _
    · split <;> exact goes_next _
  | strandTailWrite | atsInvalidation | attestation | cxlCacheRecall | fallBackReadRequest =>
    simp only [exec, execStrandTailWrite, execAtsInvalidation, execAttestation, execCxlCacheRecall, execFallBackReadRequest]
    split
    · exact goes_either ..
    · exact goes_next _
  | parkedTooLong | strikeWindow | hubConfigurationWrite | tileOperationStart | tileOperationCompletion | atomicEngineServe
  | storePerformed =>
    simp only [exec, execParkedTooLong, execStrikeWindow, execHubConfigurationWrite, execTileOperationStart, execTileOperationCompletion,
      execAtomicEngineServe, execStorePerformed]
    split
    · split <;> exact goes_next _
    · exact goes_next _
  | copyCompletion | refillCompletion | shiftCompletion =>
    simp only [exec, execCopyCompletion, execRefillCompletion, execShiftCompletion]
    split
    · split
      · split <;> exact goes_next _
      · exact goes_next _
    · exact goes_next _
  | _ => exact goes_next _

/-! ## The stream, a cycle and a step -/

theorem runSlot_goes (s : State) (o : Slotted) : Goes (s.runSlot o) := by
  unfold State.runSlot
  refine goes_ite (goes_next _) (goes_ite (goes_next _) (goes_ite (goes_next _) ?_))
  split
  · exact goes_next _
  · obtain ⟨t, e⟩ := exec_goes o.instr ((s.claimed o).latched o (s.q.alone o))
    rw [e]
    exact goes_next _

theorem runSlots_goes (l : List Slotted) (s : State) : Goes (s.runSlots l) := by
  induction l generalizing s with
  | nil => exact goes_next _
  | cons o l ih =>
    obtain ⟨u, e⟩ := runSlot_goes s o
    rw [State.runSlots, e]
    exact goes_ite (ih u) (goes_next u)

theorem retry_goes (s : State) (o : Slotted) : Goes (s.retry o) := by
  unfold State.retry
  refine goes_ite (goes_next _) (goes_ite (goes_next _) (goes_ite (goes_next _) ?_))
  split
  · exact goes_next _
  · generalize exec_goes o.instr _ = h
    obtain ⟨t, e⟩ := h
    rw [e]
    exact goes_either ..

theorem header_goes (s : State) (addr : DWord) (head : Option Instr) : Goes (s.header addr head) := by
  cases head with
  | none => exact goes_next _
  | some i => exact exec_goes i _

theorem issueOps_goes (s : State) (addr : DWord) (done : BitVec 4) (raw ws : List Word) (replayed iterating : Bool) (head : Option Instr)
    (left : Nat) (held : List Nat) : Goes (s.issueOps addr done raw ws replayed iterating head left held) := by
  unfold State.issueOps
  dsimp only
  split
  · exact goes_next _
  split
  · exact goes_either ..
  refine goes_ite (goes_next _) (goes_ite (goes_next _) ?_)
  generalize hh : State.header _ addr head = a
  obtain ⟨u, rfl⟩ : Goes a := hh ▸ header_goes ..
  exact goes_ite (goes_next _) (runSlots_goes ..)

theorem issue_goes (s : State) : Goes s.issue := by
  unfold State.issue
  dsimp only
  split
  · exact goes_next _
  refine goes_ite (goes_ite (goes_next _) (goes_ite (goes_next _) (goes_either ..))) ?_
  split
  · exact goes_next _
  split
  · exact issueOps_goes ..
  · exact issueOps_goes ..

theorem stream_goes (s : State) : Goes s.stream := by
  unfold State.stream
  refine goes_ite (goes_next _) ?_
  split
  · exact runSlots_goes ..
  split
  · exact goes_next _
  · exact goes_ite (goes_next _) (goes_ite (goes_next _) (issue_goes s))

theorem endCycle_goes {a : Ans} (h : Goes a) : Goes (endCycle a) := by
  obtain ⟨t, rfl⟩ := h
  exact goes_next _

theorem cycle_goes (s : State) : Goes s.cycle := endCycle_goes (goes_ite (stream_goes _) (goes_next _))

theorem happen_goes (s : State) (e : Instr × Payload) : Goes (s.happen e) := exec_goes e.1 _

theorem turn_goes (s : State) : Goes s.turn := by
  unfold State.turn
  split
  · exact retry_goes ..
  split
  · split <;> exact happen_goes ..
  split
  · exact goes_ite (goes_next _) (happen_goes ..)
  · exact cycle_goes s

/-- Settles O60: a turn answers a next state, so only the end of the clock stops a step. -/
theorem noInstructionStopsTheMachine : Obligations.NoInstructionStopsTheMachine :=
  fun s => ⟨fun h => (show step s = s.turn from if_neg (Nat.not_le.2 h)) ▸ turn_goes s, fun h => if_pos h⟩

end Sys2Proof.EveryStepGoes
end

section
/-! SUPPORT. O1, O2, O3: the integer, immediate, compare and predicate operations of slot C. -/

namespace Sys2Proof.IntegerControl
open Sys2Proof Machine Claims Laws

/-! ## The model's arithmetic as the table gives it (04 Table 4-3) -/

theorem sub_eq_ofInt (a b : DWord) : a - b = BitVec.ofInt 64 ((a.toNat : Int) - b.toNat) := by
  apply BitVec.eq_of_toNat_eq
  rw [BitVec.toNat_sub, BitVec.toNat_ofInt]
  omega

theorem aluMul_eq (a b : DWord) : aluMul a b = BitVec.ofNat 64 (a.toNat * b.toNat) := BitVec.eq_of_toNat_eq (by simp [aluMul])

theorem aluMulhn_eq (a b : DWord) : aluMulhn a b = (a.setWidth 128 * b.setWidth 128).extractLsb' 64 64 := by
  have ha := a.isLt
  have hb := b.isLt
  have h : a.toNat * b.toNat < 2 ^ 128 := calc
    a.toNat * b.toNat < 2 ^ 64 * 2 ^ 64 := Nat.mul_lt_mul'' ha hb
    _ = 2 ^ 128 := by decide
  apply BitVec.eq_of_toNat_eq
  simp only [aluMulhn, BitVec.toNat_ofNat, BitVec.extractLsb'_toNat, BitVec.toNat_mul, BitVec.toNat_setWidth, Nat.shiftRight_eq_div_pow]
  rw [Nat.mod_eq_of_lt (show a.toNat < 2 ^ 128 by omega), Nat.mod_eq_of_lt (show b.toNat < 2 ^ 128 by omega), Nat.mod_eq_of_lt h]

/-- The high half of a product of 128 bits is the floor of the signed product by 2^64. -/
theorem extract_high (x y : Int) : BitVec.ofInt 64 (x * y / 2 ^ 64) = (BitVec.ofInt 128 x * BitVec.ofInt 128 y).extractLsb' 64 64 := by
  rw [← BitVec.ofInt_mul]
  generalize x * y = p
  apply BitVec.eq_of_toNat_eq
  simp only [BitVec.toNat_ofInt, BitVec.extractLsb'_toNat, Nat.shiftRight_eq_div_pow]
  omega

theorem aluMulh_eq (a b : DWord) : aluMulh a b = (a.signExtend 128 * b.signExtend 128).extractLsb' 64 64 := extract_high a.toInt b.toInt

theorem aluDiv_eq (a b : DWord) : aluDiv a b = if b = 0 then 0xFFFFFFFFFFFFFFFF else a.sdiv b := by
  unfold aluDiv
  split
  · rfl
  · apply BitVec.eq_of_toInt_eq
    rw [BitVec.toInt_ofInt, BitVec.toInt_sdiv]

theorem aluDivn_eq (a b : DWord) : aluDivn a b = if b = 0 then 0xFFFFFFFFFFFFFFFF else a / b := by
  unfold aluDivn
  split
  · rfl
  · exact BitVec.udiv_def.symm

theorem aluRem_eq (a b : DWord) : aluRem a b = if b = 0 then a else a.srem b := by
  unfold aluRem
  split
  · rfl
  · rw [← BitVec.toInt_srem, BitVec.ofInt_toInt]

theorem aluRemn_eq (a b : DWord) : aluRemn a b = if b = 0 then a else a % b := by
  unfold aluRemn
  split
  · rfl
  · exact BitVec.umod_def.symm

/-- A shift uses the six low bits of its amount. -/
theorem amount_toNat (b : DWord) : (b &&& 63).toNat = b.toNat % 64 := Nat.and_two_pow_sub_one_eq_mod b.toNat 6

theorem aluShl_eq (a b : DWord) : aluShl a b = a <<< (b &&& 63) := by rw [aluShl, BitVec.shiftLeft_eq', amount_toNat]
theorem aluShr_eq (a b : DWord) : aluShr a b = a >>> (b &&& 63) := by rw [aluShr, BitVec.ushiftRight_eq', amount_toNat]
theorem aluSar_eq (a b : DWord) : aluSar a b = a.sshiftRight' (b &&& 63) := by rw [aluSar, BitVec.sshiftRight_eq', amount_toNat]

/-- Which of two is taken when they compare equal makes no difference. -/
theorem ite_le_eq_ite_lt {α : Type} (f : DWord → α) [LinearOrder α] (hf : Function.Injective f) (a b : DWord) :
    (if f a ≤ f b then a else b) = (if f b < f a then b else a) ∧ (if f a ≤ f b then b else a) = (if f a < f b then b else a) := by
  rcases lt_trichotomy (f a) (f b) with h | h | h
  · simp only [h, h.le, h.not_gt, if_true, if_false, and_self]
  · simp only [hf h, le_refl, lt_irrefl, if_true, if_false, and_self]
  · simp only [h, h.not_ge, h.not_gt, if_true, if_false, and_self]

theorem aluMin_eq (a b : DWord) : aluMin a b = if b.slt a then b else a := by
  simp only [BitVec.slt_iff_toInt_lt]
  exact (ite_le_eq_ite_lt BitVec.toInt (fun _ _ => BitVec.eq_of_toInt_eq) a b).1
theorem aluMax_eq (a b : DWord) : aluMax a b = if a.slt b then b else a := by
  simp only [BitVec.slt_iff_toInt_lt]
  exact (ite_le_eq_ite_lt BitVec.toInt (fun _ _ => BitVec.eq_of_toInt_eq) a b).2
theorem aluMinn_eq (a b : DWord) : aluMinn a b = if b < a then b else a := (ite_le_eq_ite_lt BitVec.toNat (fun _ _ => BitVec.eq_of_toNat_eq) a b).1
theorem aluMaxn_eq (a b : DWord) : aluMaxn a b = if a < b then b else a := (ite_le_eq_ite_lt BitVec.toNat (fun _ _ => BitVec.eq_of_toNat_eq) a b).2

theorem log2_eq_clz {a : DWord} (h : a ≠ 0) : a.toNat.log2 = 63 - a.clz.toNat := by
  have lt : a.clz.toNat < 64 := BitVec.clz_lt_iff_ne_zero.2 h
  rw [Nat.log2_eq_iff fun e => h (BitVec.eq_of_toNat_eq e), show 63 - a.clz.toNat + 1 = 64 - a.clz.toNat by omega]
  exact ⟨BitVec.two_pow_sub_clz_le_toNat_of_ne_zero (by decide) h, BitVec.toNat_lt_two_pow_sub_clz⟩

theorem clz64_eq (a : DWord) : clz64 a = a.clz := by
  unfold clz64
  split
  · next h => rw [h]; decide
  · next h =>
    have lt : a.clz.toNat < 64 := BitVec.clz_lt_iff_ne_zero.2 h
    rw [log2_eq_clz h, Nat.sub_sub_self (by omega), BitVec.ofNat_toNat, BitVec.setWidth_eq]

/-- The library counts from the highest bit down. -/
theorem count_bits (a : DWord) (n : Nat) : ((List.range n).filter fun i => a.getLsbD i).length = a.cpopNatRec n 0 := by
  induction n with
  | zero => rfl
  | succ n ih =>
    rw [List.range_succ, List.filter_append, List.length_append, ih, BitVec.cpopNatRec_succ, BitVec.cpopNatRec_eq (0 + _), Nat.zero_add]
    cases h : a.getLsbD n <;> simp [h]

theorem popc64_eq (a : DWord) : popc64 a = a.cpop := congrArg (BitVec.ofNat 64) (count_bits a 64)

/-! ## The shared operations with their guard set -/

section
variable {s : State} {g : BitVec 3} (hg : s.c.rk g = true)
include hg

/-- A guarded write of an x register that the guard lets through (04 R100). -/
theorem guarded_writesX {f : State → DWord} {d : BitVec 5} {v : DWord} (h : f s = v) :
    ∃ t, Host.Outcome.next (s.guarded g fun s => s.wx d (f s)) = (.next t : Ans) ∧ WritesX s t d v :=
  ⟨_, congrArg Host.Outcome.next (if_pos hg), writesX_of h⟩

theorem guarded_writesK {f : State → Bool} {d : BitVec 3} {v : Bool} (h : f s = v) :
    ∃ t, Host.Outcome.next (s.guarded g fun s => s.wk d (f s)) = (.next t : Ans) ∧ WritesK s t d v :=
  ⟨_, congrArg Host.Outcome.next (if_pos hg), writesK_of h⟩

theorem alu_writes {f : DWord → DWord → DWord} {d a b : BitVec 5} {v : DWord} (h : f (s.c.rx a) (s.c.rx b) = v) :
    ∃ t, alu f d a b g s = .next t ∧ WritesX s t d v := guarded_writesX hg h

theorem alu1_writes {f : DWord → DWord} {d a : BitVec 5} {v : DWord} (h : f (s.c.rx a) = v) :
    ∃ t, alu1 f d a g s = .next t ∧ WritesX s t d v := guarded_writesX hg h

theorem integerRow_writes (d a b : BitVec 5) : ∀ row ∈ integerRows,
    ∃ t, exec (row.1 d a b g) s = .next t ∧ WritesX s t d (row.2 (s.c.rx a) (s.c.rx b)) := by
  simp only [integerRows, List.forall_mem_cons]
  exact ⟨alu_writes hg (BitVec.add_def ..), alu_writes hg (sub_eq_ofInt ..), alu_writes hg (aluMul_eq ..), alu_writes hg (aluMulh_eq ..),
    alu_writes hg (aluMulhn_eq ..), alu_writes hg (aluDiv_eq ..), alu_writes hg (aluDivn_eq ..), alu_writes hg (aluRem_eq ..),
    alu_writes hg (aluRemn_eq ..), alu_writes hg rfl, alu_writes hg rfl, alu_writes hg rfl, alu_writes hg (aluShl_eq ..),
    alu_writes hg (aluShr_eq ..), alu_writes hg (aluSar_eq ..), alu_writes hg (aluMin_eq ..), alu_writes hg (aluMax_eq ..),
    alu_writes hg (aluMinn_eq ..), alu_writes hg (aluMaxn_eq ..), nofun⟩

/-- The widths of Table 4-3's `sext` and `zext`. -/
theorem extend_writes (d a : BitVec 5) {w : BitVec 2} {n : Nat} (h : (w, n) ∈ [((0 : BitVec 2), 8), (1, 16), (2, 32)]) :
    (∃ t, exec (.sext d a w g) s = .next t ∧ WritesX s t d (((s.c.rx a).setWidth n).signExtend 64)) ∧
    (∃ t, exec (.zext d a w g) s = .next t ∧ WritesX s t d (((s.c.rx a).setWidth n).setWidth 64)) := by
  revert h
  simp only [List.mem_cons, List.not_mem_nil, or_false, Prod.mk.injEq]
  rintro (⟨rfl, rfl⟩ | ⟨rfl, rfl⟩ | ⟨rfl, rfl⟩) <;> exact ⟨alu1_writes hg rfl, alu1_writes hg rfl⟩

end

/-- Settles O1: the rows of the table by the lemmas about the model's arithmetic. -/
theorem integerOperationsWriteTableResult : Obligations.IntegerOperationsWriteTableResult := by
  intro s d a b w g hg
  exact ⟨integerRow_writes hg d a b, alu1_writes hg (clz64_eq _), alu1_writes hg (popc64_eq _), fun n h => extend_writes hg d a h⟩

/-! ## Immediates (04 R106 to R108) -/

theorem aluImm_writes (s : State) {f : DWord → DWord → DWord} {d a : BitVec 5} {i v : DWord} (h : f (s.c.rx a) i = v) :
    ∃ t, aluImm f d a i s = .next t ∧ WritesX s t d v := ⟨_, rfl, writesX_of h⟩

/-- An encoded shift amount stays below 64. -/
theorem encodedAmount (n : BitVec 6) : (n.setWidth 64).toNat % 64 = n.toNat := by
  rw [BitVec.toNat_setWidth]
  omega

/-- The bits of a register with one field replaced. -/
theorem getLsbD_putField {m : Nat} (w : BitVec m) (lo n v k : Nat) (hk : k < m) :
    (putField w lo n v).getLsbD k = if lo ≤ k ∧ k < lo + n then v.testBit (k - lo) else w.getLsbD k := by
  simp only [putField, blendBits, BitVec.getLsbD_or, BitVec.getLsbD_and, BitVec.getLsbD_not, BitVec.getLsbD_ofNat, hk, decide_true,
    Bool.true_and, Nat.testBit_mul_two_pow, Nat.testBit_two_pow_sub_one, Nat.testBit_mod_two_pow]
  by_cases h : lo ≤ k ∧ k < lo + n
  · have : k - lo < n := by omega
    simp [h, this]
  · have : lo ≤ k → ¬k - lo < n := by omega
    simp only [h, if_false]
    by_cases e : lo ≤ k <;> simp [e, this]

theorem lih_writes (s : State) (d : BitVec 5) (q : BitVec 2) (i : BitVec 16) : ∃ t v, exec (.lih d q i) s = .next t ∧ WritesX s t d v ∧
    ∀ k, k < 64 → v.getLsbD k =
      if 16 * q.toNat ≤ k ∧ k < 16 * q.toNat + 16 then i.getLsbD (k - 16 * q.toNat) else (s.c.rx d).getLsbD k := by
  refine ⟨_, _, rfl, writesX_wx .., fun k hk => ?_⟩
  rw [getLsbD_putField _ _ _ _ _ hk, BitVec.testBit_toNat]

/-- Settles O2: each form writes x(d) outright. -/
theorem immediateOperationsWriteTheirResult : Obligations.ImmediateOperationsWriteTheirResult := by
  intro s d a i n j q
  have shift (f : DWord → Nat → DWord) : f (s.c.rx a) ((n.setWidth 64).toNat % 64) = f (s.c.rx a) n.toNat := by rw [encodedAmount]
  exact ⟨aluImm_writes s rfl, aluImm_writes s rfl, aluImm_writes s rfl, aluImm_writes s rfl, aluImm_writes s (shift (· <<< ·)),
    aluImm_writes s (shift (· >>> ·)), aluImm_writes s (shift BitVec.sshiftRight), ⟨_, rfl, writesX_wx ..⟩, lih_writes s d q i⟩

/-! ## Compares, `sel` and the predicates (04 R109, R110) -/

/-- Each code of a condition in its field of `cmp` and of `cmpi`: not refused, and the test of the table. -/
theorem condition_codes : ∀ row ∈ conditionRows, (BitVec.ofNat 8 row.1).toNat = row.1 ∧ (BitVec.ofNat 3 row.1).toNat = row.1 ∧ row.1 ≤ 5 := by
  decide

theorem cmpHolds_row (a b : DWord) : ∀ row ∈ conditionRows, cmpHolds row.1 a b = row.2 a b := by
  simp only [conditionRows, List.forall_mem_cons, cmpHolds, BitVec.slt_eq_decide, BitVec.sle_eq_decide, BitVec.ult_eq_decide,
    BitVec.ule_eq_decide, true_and]
  exact nofun

theorem cmp_writes {s : State} {g : BitVec 3} (hg : s.c.rk g = true) (k : BitVec 3) (a b : BitVec 5) {row} (h : row ∈ conditionRows) :
    ∃ t, exec (.cmp k a b g (BitVec.ofNat 8 row.1)) s = .next t ∧ WritesK s t k (row.2 (s.c.rx a) (s.c.rx b)) := by
  obtain ⟨code, -, le⟩ := condition_codes row h
  show ∃ t, execCmp k a b g (BitVec.ofNat 8 row.1) s = _ ∧ _
  rw [execCmp, code, if_neg (Nat.not_lt.2 le)]
  exact guarded_writesK hg (cmpHolds_row _ _ row h)

theorem cmpi_writes (s : State) (k : BitVec 3) (a : BitVec 5) (i : BitVec 15) {row} (h : row ∈ conditionRows) :
    ∃ t, exec (.cmpi k (BitVec.ofNat 3 row.1) a i) s = .next t ∧ WritesK s t k (row.2 (s.c.rx a) (i.signExtend 64)) := by
  obtain ⟨-, code, le⟩ := condition_codes row h
  show ∃ t, execCmpi k (BitVec.ofNat 3 row.1) a i s = _ ∧ _
  rw [execCmpi, code, if_neg (Nat.not_lt.2 le)]
  exact ⟨_, rfl, writesK_of (cmpHolds_row _ _ row h)⟩

/-- Settles O3: the compares by their table, the others as guarded writes. -/
theorem compareSelectAndPredicateResults : Obligations.CompareSelectAndPredicateResults := by
  intro s d a b k l m g i hg
  exact ⟨fun row h => ⟨cmp_writes hg k a b h, cmpi_writes s k a i h⟩, guarded_writesX hg rfl, guarded_writesK hg rfl, guarded_writesK hg rfl,
    guarded_writesK hg rfl, guarded_writesK hg rfl⟩

end Sys2Proof.IntegerControl
end

section
/-! SUPPORT. O4: operations whose guard is clear, and the no-op. -/

namespace Sys2Proof.ClearGuards
open Sys2Proof Machine Claims

/-- What a clear guard leaves of an operation (04 R100). -/
theorem guarded_clear {s : State} {g : BitVec 3} (hg : s.c.rk g = false) (f : State → State) :
    (.next (s.guarded g f) : Ans) = .next s := congrArg Host.Outcome.next (if_neg (hg ▸ Bool.false_ne_true))

/-- The same for an operation whose encoding is checked first, and is legal. -/
theorem checked_clear {s : State} {g : BitVec 3} (hg : s.c.rk g = false) {p : Prop} [Decidable p] (hp : ¬p) (x : Ans) (f : State → State) :
    (if p then x else .next (s.guarded g f)) = .next s := (if_neg hp).trans (guarded_clear hg f)

/-- Every row of the two tables is a guarded operation. -/
theorem integerRow_clear {s : State} {g : BitVec 3} (hg : s.c.rk g = false) (d a b : BitVec 5) :
    ∀ row ∈ integerRows, exec (row.1 d a b g) s = .next s := by
  simp only [integerRows, List.forall_mem_cons, List.not_mem_nil, false_imp_iff, implies_true, and_true]
  and_intros <;> exact guarded_clear hg _

theorem floatRow_clear {s : State} {g : BitVec 3} (hg : s.c.rk g = false) (d a b : BitVec 5) (r : BitVec 2) :
    ∀ row ∈ floatRows, exec (row.1 d a b g r) s = .next s := by
  simp only [floatRows, List.forall_mem_cons, List.not_mem_nil, false_imp_iff, implies_true, and_true]
  and_intros <;> exact guarded_clear hg _

/-- Settles O4: `sext`, `zext`, `cmp` and `fcmp.d` pass the check of their encoding, and every operation then meets its guard. -/
theorem clearGuardsAndNoOpsHaveNoEffect : Obligations.ClearGuardsAndNoOpsHaveNoEffect := by
  refine ⟨fun s d a b c k l r w cond g hg => ?_, fun _ => rfl⟩
  simp only [guarded, List.forall_mem_append, List.forall_mem_map, List.forall_mem_cons, List.not_mem_nil, false_imp_iff, implies_true,
    and_true]
  have plain {f : State → State} {p : Prop} : p → (.next (s.guarded g f) : Ans) = .next s := fun _ => guarded_clear hg f
  exact ⟨⟨fun row h _ => integerRow_clear hg d a b row h, fun row h _ => floatRow_clear hg d a b r row h⟩, plain, plain,
    fun wf => checked_clear hg (bne_iff_ne.1 wf) _ _, fun wf => checked_clear hg (bne_iff_ne.1 wf) _ _,
    fun wf => checked_clear hg (Nat.not_lt.2 (of_decide_eq_true wf)) _ _, plain, plain, plain, plain, plain, plain,
    fun wf => checked_clear hg (Nat.not_lt.2 (of_decide_eq_true wf)) _ _, plain, plain⟩

end Sys2Proof.ClearGuards
end

section
/-! SUPPORT. O5: an FP64 operation of slot C that raises no enabled flag. -/

namespace Sys2Proof.ScalarFloat
open Sys2Proof Machine Claims Laws

/-- An operation that raises no enabled flag ORs its flags and then writes (03 R94). -/
theorem finishFp_writes {s : State} {fl : Fl} (he : Enabled s fl = false) (write : State → State) :
    s.finishFp fl write = write (s.orFlags fl) ∧ Flags s (s.orFlags fl) fl :=
  ⟨if_neg fun h => Bool.false_ne_true (he.symm.trans ((enabled_iff s fl).2 h)), rfl⟩

theorem rounded_of {s : State} {y : Nat × Fl} {i : Instr} {d : BitVec 5}
    (h : exec i s = .next (s.finishFp y.2 (·.wx d (BitVec.ofNat 64 y.1)))) : Rounded s y i d := by
  intro he
  obtain ⟨e, flags⟩ := finishFp_writes he (·.wx d (BitVec.ofNat 64 y.1))
  exact ⟨_, _, h.trans (congrArg _ e), flags, writesX_wx ..⟩

/-- Settles O5: each operation ends with its flags, and writes its result where none of them is enabled. -/
theorem scalarFloatWritesResultAndFlags : Obligations.ScalarFloatWritesResultAndFlags := by
  intro s d a b c k cond g r hg
  refine ⟨fun row hrow => rounded_of (exec_floatRow hg d a b r hrow), rounded_of (exec_ffmaD hg d a b c r), ?_⟩
  rintro hc y rfl he
  obtain ⟨e, flags⟩ := finishFp_writes he (·.wk k _)
  exact ⟨_, _, (exec_fcmpD hg hc k a b).trans (congrArg _ e), flags, writesK_wk ..⟩

end Sys2Proof.ScalarFloat
end

section
/-! SUPPORT. O7: the control transfers, and the iterations of a REP bundle. -/

namespace Sys2Proof.ControlTransfers
open Sys2Proof Machine Claims Laws

/-! ## Conditional and register transfers (04 R117, R118) -/

theorem brk_jumps (s : State) (k : BitVec 3) (p : BitVec 23) :
    ∃ t, exec (.brk k p) s = .next t ∧ if s.c.rk k then Jumps s t 3 (s.target p) else t = s := by
  refine ⟨_, rfl, ?_⟩
  split
  · exact jumps_jump ..
  · rfl

theorem brnk_jumps (s : State) (k : BitVec 3) (p : BitVec 23) :
    ∃ t, exec (.brnk k p) s = .next t ∧ if s.c.rk k then t = s else Jumps s t 3 (s.target p) := by
  refine ⟨_, rfl, ?_⟩
  split
  · rfl
  · exact jumps_jump ..

/-- An aligned target is the next bundle, after what the transfer links. -/
theorem jumpReg_aligned {s : State} {t : DWord} (h : t.toNat % 16 = 0) (f : State → State) : s.jumpReg t f = (f s).jump 4 t :=
  if_neg (not_not_intro h)

/-- Any other traps on the transfer's own bundle (02 R37). -/
theorem jumpReg_misaligned {s : State} {t : DWord} (h : t.toNat % 16 ≠ 0) (f : State → State) :
    Enters s (s.jumpReg t f) (whole s.lat.addr) { code := 0x04, info := t, slot := 0, iss := false, evt := false, now := false } := by
  rw [State.jumpReg, if_pos h]
  exact enters_enterIssueTrap { s with lat := { s.lat with res := .trap } } ..

section
variable {s : State} {g : BitVec 3} (hg : s.c.rk g = true)
include hg

theorem exec_jr (d a : BitVec 5) : exec (.jr d a g) s = .next (s.jumpReg (s.c.rx a) (·.wx d (s.lat.addr + 16))) :=
  congrArg Host.Outcome.next (if_pos hg)

theorem exec_ret : exec (.ret g) s = .next (s.jumpReg (s.c.rx 31) id) := congrArg Host.Outcome.next (if_pos hg)

theorem jr_jumps (d : BitVec 5) {a : BitVec 5} (h : (s.c.rx a).toNat % 16 = 0) :
    ∃ u t, exec (.jr d a g) s = .next t ∧ WritesX s u d (s.lat.addr + 16) ∧ Jumps u t 4 (s.c.rx a) :=
  ⟨_, _, (exec_jr hg d a).trans (congrArg _ (jumpReg_aligned h _)), writesX_wx .., jumps_jump ..⟩

theorem ret_jumps (h : (s.c.rx 31).toNat % 16 = 0) : ∃ t, exec (.ret g) s = .next t ∧ Jumps s t 4 (s.c.rx 31) :=
  ⟨_, (exec_ret hg).trans (congrArg _ (jumpReg_aligned h _)), jumps_jump ..⟩

end

/-! ## `loop` -/

theorem loop_ends {s : State} {a : BitVec 5} (h : s.c.rx a = 0) (l : BitVec 21) : exec (.loop a l) s = .next s := by
  simp only [exec, execLoop, h, if_true]

/-- The counter falls before it is tested. -/
theorem exec_loop {s : State} {a : BitVec 5} (h : s.c.rx a ≠ 0) (l : BitVec 21) :
    let u := s.wx a (s.c.rx a - 1)
    exec (.loop a l) s = .next (if s.c.rx a = 1 then u
      else if -16 ≤ l.toInt ∧ l.toInt ≤ 0 then u.loopBack (s.target l) else u.jump 3 (s.target l)) := by
  have ha : a ≠ 0 := fun e => h (e ▸ rfl)
  have counter : (s.wx a (s.c.rx a - 1)).c.rx a = s.c.rx a - 1 := (Ctx.rx_wx_same ..).trans (if_neg ha)
  simp only [exec, execLoop, h, if_false, counter, sub_eq_zero]
  rfl

theorem loop_jumps {s : State} {a : BitVec 5} (h : s.c.rx a ≠ 0) (l : BitVec 21) : ∃ u, WritesX s u a (s.c.rx a - 1) ∧
    if s.c.rx a = 1 then exec (.loop a l) s = .next u
    else ∃ v t, exec (.loop a l) s = .next t ∧ Jumps u v (if -16 ≤ l.toInt ∧ l.toInt ≤ 0 then 1 else 3) (s.target l) ∧
      t = (if -16 ≤ l.toInt ∧ l.toInt ≤ 0 then { v with q := { v.q with looped := some (v.c.pc, s.lat.addr) } } else v) := by
  refine ⟨_, writesX_wx .., ?_⟩
  rw [exec_loop h]
  split
  · rfl
  · split
    · exact ⟨_, _, rfl, jumps_jump .., rfl⟩
    · exact ⟨_, _, rfl, jumps_jump .., rfl⟩

/-! ## REP (02 R41, R43, R44) -/

/-- A header counts down the iterations that `left` gives. -/
theorem hrep_counts {s : State} {n : BitVec 10} {left : Nat} (h : s.q.iterationsLeft n.toNat = left) (v m t r : BitVec 4) :
    exec (.hrep n v m t r) s =
      .next { s with q := { s.q with repLeft := 0, repCur := if 1 < left then some (s.lat.addr, left - 1) else none } } := by
  subst h
  simp only [exec, execHrep, ← not_lt, ite_not]

theorem iterationsLeft_of {q : Seq} {count left : Nat} (h : (q.repCur = none ∧ q.repLeft = 0 ∧ left = count) ∨
    (q.repCur = none ∧ q.repLeft ≠ 0 ∧ left = q.repLeft) ∨ ∃ a, q.repCur = some (a, left)) : q.iterationsLeft count = left := by
  unfold Seq.iterationsLeft
  obtain ⟨hc, hl, rfl⟩ | ⟨hc, hl, rfl⟩ | ⟨a, hc⟩ := h
  · rw [hc, if_pos hl]
  · rw [hc, if_neg hl]
  · rw [hc]

/-- Settles O7: transfers to an offset outright, those to a register by their target's alignment, `loop` by its counter, and a header by the
iterations that are left. -/
theorem transfersGoToTheirTarget : Obligations.TransfersGoToTheirTarget := by
  refine ⟨fun s d a k g o p l => ⟨⟨_, rfl, jumps_jump ..⟩, ⟨_, _, rfl, writesX_wx .., jumps_jump ..⟩, brk_jumps s k p, brnk_jumps s k p,
    fun hg h => jr_jumps hg d h, fun hg h => ret_jumps hg h, fun h => loop_ends h l, fun h => loop_jumps h l⟩, fun s d a g hg => ?_,
    fun s n v m t r left h => hrep_counts (iterationsLeft_of h) v m t r⟩
  exact ⟨fun h => ⟨_, exec_jr hg d a, jumpReg_misaligned h _⟩, fun h => ⟨_, exec_ret hg, jumpReg_misaligned h _⟩⟩

end Sys2Proof.ControlTransfers
end

section
/-! SUPPORT. O54: the state that package reset leaves. -/

namespace Sys2Proof.PackageReset
open Sys2Proof Machine

/-- Logical strip n is physical strip n (02 Table 2-17). -/
theorem reset_cbmap : ∀ n < 16, fld State.reset.c.cbmap.toNat (4 * n) 4 = n := by decide

theorem reset_rm (d : BitVec 3) : State.reset.c.rm d = 0 := Vector.getElem_replicate _
theorem reset_rh (h : BitVec 4) : State.reset.c.rh h = 0 := Vector.getElem_replicate _
theorem reset_rg (g : BitVec 2) : State.reset.c.rg g = 0 := Vector.getElem_replicate _

theorem reset_rr (p : Fin 8) : State.reset.hub.rr[p] = 65535 := Vector.getElem_replicate _

/-- Settles O54: the fields' default values, and every element of a register file. -/
theorem resetLeavesTheStatedValues : Obligations.ResetLeavesTheStatedValues :=
  ⟨rfl, reset_cbmap, rfl, rfl, rfl, rfl, rfl, rfl, rfl, rfl, rfl, rfl, reset_rr, rfl, rfl, rfl, rfl, rfl, rfl, rfl, rfl, rfl, rfl,
    reset_rm, reset_rh, reset_rg⟩

end Sys2Proof.PackageReset
end

section
/-! SUPPORT. O41: the fields of a tile descriptor (06 R189). -/

namespace Sys2Proof.DescriptorFields
set_option Elab.async false
open Sys2Proof Machine Claims Laws IntegerControl

theorem mdset_writes {s : State} {m : BitVec 3} {f : BitVec 4} {i : BitVec 15} {n : Nat} {w : QWord} (hn : mdImm i s.lat.ext = n)
    (h : mdField (s.c.rm m) f.toNat n = some w) : ∃ t, exec (.mdset m f i) s = .next t ∧ WritesM s t m w :=
  ⟨s.wm m w, by simp only [exec, execMdset, hn, h], writesM_wm s m w⟩

theorem mdset_refused {s : State} {m : BitVec 3} {f : BitVec 4} {i : BitVec 15} {n : Nat} (hn : mdImm i s.lat.ext = n)
    (h : mdField (s.c.rm m) f.toNat n = none) : ∃ t, exec (.mdset m f i) s = .next t ∧ Refused s t 0x01 :=
  ⟨s.raiseIssue 0x01, by simp only [exec, execMdset, hn, h], refused_raiseIssue s 0x01⟩

/-- A field of Table 6-8 takes the value of its immediate, where the immediate is allowed. -/
theorem mdField_row (d : QWord) (n : Nat) :
    ∀ row ∈ descriptorFields, mdField d row.1 n = (row.2.2.2 n).map (putField d row.2.1 row.2.2.1) := by
  simp [descriptorFields, mdField, apply_ite]

/-- The skew, the inf bit and fe are the fields of one immediate (06 Table 6-8). -/
theorem getLsbD_flags (d : QWord) {n k : Nat} (hk : k < 128) :
    (putField (putField (putField d 27 1 (n % 2)) 80 1 (n / 2 % 2)) 81 2 (n / 4)).getLsbD k =
      if k = 27 then n.testBit 0 else if k = 80 then n.testBit 1 else if k = 81 then n.testBit 2 else if k = 82 then n.testBit 3
      else d.getLsbD k := by
  rw [getLsbD_putField _ _ _ _ _ hk, getLsbD_putField _ _ _ _ _ hk, getLsbD_putField _ _ _ _ _ hk]
  have hlow : (n % 2).testBit 0 = n.testBit 0 := by simp [Nat.testBit_zero]
  have hmid : (n / 2 % 2).testBit 0 = n.testBit 1 := by rw [Nat.testBit_succ]; simp
  have hfe (j : Nat) : (n / 4).testBit j = n.testBit (j + 2) := Nat.testBit_div_two_pow (n := 2) n j
  obtain rfl | rfl | rfl | rfl | ⟨h27, h80, h81, h82⟩ : k = 27 ∨ k = 80 ∨ k = 81 ∨ k = 82 ∨ (k ≠ 27 ∧ k ≠ 80 ∧ k ≠ 81 ∧ k ≠ 82) := by omega
  · exact hlow
  · exact hmid
  · exact hfe 0
  · exact hfe 1
  · rw [if_neg (by omega), if_neg (by omega), if_neg (by omega), if_neg h27, if_neg h80, if_neg h81, if_neg h82]

theorem mdField_reserved (d : QWord) (n : Nat) {f : Nat} (h : 11 ≤ f) : mdField d f n = none := by
  obtain ⟨k, rfl⟩ := Nat.exists_eq_add_of_le' h
  rfl

/-- Settles O41: the rows of Table 6-8, the flags, the clearing of a descriptor, and the codes that name no field. -/
theorem descriptorFieldsAreSet : Obligations.DescriptorFieldsAreSet := by
  intro s m f i n hn
  have hn : mdImm i s.lat.ext = n := hn.symm
  refine ⟨fun row hrow hf => ⟨fun v hv => ?_, fun hv => ?_⟩, fun hf hlt hfe => ?_, fun hf hbad => ?_, fun hf hz => ?_, fun hf hz => ?_, fun hf => ?_⟩
  · obtain ⟨t, hstep, hw⟩ := mdset_writes (m := m) (f := f) hn (by rw [hf, mdField_row _ _ row hrow, hv]; rfl)
    exact ⟨t, _, hstep, hw, fun k hk => getLsbD_putField _ _ _ _ _ hk⟩
  · exact mdset_refused hn (by rw [hf, mdField_row _ _ row hrow, hv]; rfl)
  · obtain ⟨t, hstep, hw⟩ := mdset_writes (m := m) (f := f) hn (by rw [hf]; exact if_pos ⟨hlt, hfe⟩)
    exact ⟨t, _, hstep, hw, fun k hk => getLsbD_flags _ hk⟩
  · exact mdset_refused hn (by rw [hf]; exact if_neg (by omega))
  · exact mdset_writes hn (by rw [hf]; exact if_pos hz)
  · exact mdset_refused hn (by rw [hf]; exact if_neg hz)
  · exact mdset_refused hn (mdField_reserved _ _ hf)

end Sys2Proof.DescriptorFields
end

section
/-! SUPPORT. What the matrix engine's reads see and leave alone (06 R181), and what its operations leave behind when they are over (06 R182). -/

namespace Sys2Proof.TileEngine
set_option Elab.async false
open Sys2Proof Machine Claims Laws MemoryEvents SlotEvents TileStart

/-! ## What a read sees -/

/-- Memory with pieces over it holds the last piece's byte. -/
theorem over_byte {m : Mem} (h : m.wf = true) (ps : List Part) (a : Nat) : (m.over ps).byte a = (pieceByte ps a).getD (m.byte a) := by
  induction ps generalizing m with
  | nil => rfl
  | cons p t ih =>
    have hp : ({ m with cells := cellSets m.cells p.addr p.bytes, junk := junkCut m.junk p.addr p.bytes.length } : Mem).byte a =
        (p.at? a).getD (m.byte a) := byte_of_cellSets h p rfl rfl a
    rw [Mem.over, List.foldl_cons, ← Mem.over, ih (cellsWf_cellSets p.bytes m.cells p.addr h), hp, pieceByte_cons]
    cases pieceByte t a <;> rfl

/-- Pieces that give an address no byte may be left out. -/
theorem pieceByte_filter (f : Part → Bool) {ps : List Part} {a : Nat} (h : ∀ p ∈ ps, p.at? a ≠ none → f p = true) :
    pieceByte (ps.filter f) a = pieceByte ps a := by
  induction ps with
  | nil => rfl
  | cons p t ih =>
    have ht := ih fun q hq => h q (List.mem_cons_of_mem p hq)
    by_cases hf : f p = true
    · rw [List.filter_cons_of_pos hf, pieceByte_cons, pieceByte_cons, ht]
    · have hp : p.at? a = none := not_not.1 fun hne => hf (h p List.mem_cons_self hne)
      rw [List.filter_cons_of_neg hf, pieceByte_cons, ht, hp, Option.or_none]

theorem range_of_at? {p : Part} {a : Nat} (h : p.at? a ≠ none) : p.addr ≤ a ∧ a < p.addr + p.bytes.length := by
  unfold Part.at? at h
  split_ifs at h with hle
  · have := (List.getElem?_eq_some_iff.1 (Option.ne_none_iff_exists'.1 h).choose_spec).choose
    omega
  · exact absurd rfl h

/-- A piece that gives a byte of a range meets the range. -/
theorem rangesMeet_of_mem {rs : List (Nat × Nat)} {a : Nat} (h : ∃ r ∈ rs, r.1 ≤ a ∧ a < r.1 + r.2) {p : Part} (hp : p.at? a ≠ none) :
    rangesMeet rs p.addr p.bytes.length = true := by
  obtain ⟨r, hr, hlo, hhi⟩ := h
  obtain ⟨hplo, hphi⟩ := range_of_at? hp
  exact List.any_eq_true.2 ⟨r, hr, decide_eq_true ⟨by omega, by omega⟩⟩

/-- In clean memory a read finds nothing wrong. -/
theorem reader_clean {s : State} (h : Clean s) (bank : Bool) (op : Slotted) (rs : List (Nat × Nat)) :
    (s.reader bank op rs).1 = { s with fresh := s.fresh + 1 } ∧ (s.reader bank op rs).2.2 = false ∧
      (s.reader bank op rs).2.1.mem = s.mem.over ((s.mPieces bank).filter fun p => rangesMeet rs p.addr p.bytes.length) := by
  obtain ⟨hw, hp, hf⟩ := h
  unfold State.reader
  dsimp only
  rw [checks_clean hw hp hf]
  exact ⟨rfl, rfl, rfl⟩

/-- The engine reads its own last write of a byte, final or not, and else memory's (06 R181). -/
theorem reader_byte {s : State} (h : Sound s) (bank : Bool) (op : Slotted) {rs : List (Nat × Nat)} {a : Nat}
    (ha : ∃ r ∈ rs, r.1 ≤ a ∧ a < r.1 + r.2) :
    (s.reader bank op rs).2.1.mem.byte a = (pieceByte (s.mPieces bank) a).getD (s.mem.byte a) := by
  obtain ⟨hwf, hclean⟩ := h
  obtain ⟨-, -, hmem⟩ := reader_clean hclean bank op rs
  rw [hmem, over_byte hwf, pieceByte_filter _ fun p _ hp => rangesMeet_of_mem ha hp]

/-! ## What a read leaves alone -/

/-- What stays while the engine reads: registers, operations in hand, clock, and which core and bank they belong to. -/
structure Steady (s u : State) : Prop where
  c : u.c = s.c
  outs : u.outs = s.outs
  now : u.now = s.now
  power : u.hub.power = s.hub.power
  phys : u.core.phys = s.core.phys
  bank : u.core.bank = s.core.bank
  trap : u.q.trap = s.q.trap

theorem Steady.refl (s : State) : Steady s s := ⟨rfl, rfl, rfl, rfl, rfl, rfl, rfl⟩

theorem Steady.trans {s u v : State} (h : Steady s u) (g : Steady u v) : Steady s v :=
  ⟨g.c.trans h.c, g.outs.trans h.outs, g.now.trans h.now, g.power.trans h.power, g.phys.trans h.phys, g.bank.trans h.bank, g.trap.trans h.trap⟩

theorem Steady.coreAfter {s u : State} (h : Steady s u) (n : Nat) : u.coreAfter n = s.coreAfter n := by
  unfold State.coreAfter
  rw [h.now, h.power]

theorem Steady.rowFinal {s u : State} (h : Steady s u) : u.rowFinal = s.rowFinal := congrArg (· + Config.strikeHold) (h.coreAfter 20)

theorem steady_reader (s : State) (bank : Bool) (op : Slotted) (rs : List (Nat × Nat)) : Steady s (s.reader bank op rs).1 :=
  ⟨rfl, rfl, rfl, rfl, rfl, rfl, rfl⟩

theorem steady_engineClaims (s : State) (rs : List (Nat × Nat)) (ps : List Part) : Steady s (s.engineClaims rs ps) :=
  ⟨rfl, rfl, rfl, rfl, rfl, rfl, rfl⟩

theorem steady_consumedBy (s : State) (bank bad : Bool) : Steady s (s.consumedBy bank bad) := by
  unfold State.consumedBy State.onBankSeq
  split_ifs
  all_goals exact ⟨rfl, rfl, rfl, rfl, rfl, rfl, rfl⟩

theorem steady_portFetch (s : State) (g n : Nat) : Steady s (s.portFetch g n) := by
  obtain ⟨b, e, h⟩ := LoneIssue.portFetch_eq s g n
  rw [h]
  exact ⟨rfl, rfl, rfl, rfl, rfl, rfl, rfl⟩

theorem steady_streamFetch (s : State) (w : Stream) (lo n : Nat) : Steady s (s.streamFetch w lo n) := by
  unfold State.streamFetch
  split
  · exact steady_portFetch ..
  · exact .refl s

theorem steady_takeStream (s : State) (bank : Bool) (p : Product) (op : Slotted) (i pass : Nat) :
    Steady s (s.takeStream bank p op i pass).1 := by
  unfold State.takeStream
  split
  · exact ((steady_reader ..).trans (steady_streamFetch ..)).trans (steady_consumedBy ..)
  · exact .refl s

theorem steady_loadPlane (s : State) (o : Out) (op : Slotted) (w : Tiling) (p : Product) (pass : Nat) :
    Steady s (s.loadPlane o op w p pass).1 := by
  unfold State.loadPlane
  dsimp only
  refine .trans ?_ (steady_consumedBy ..)
  exact ⟨rfl, rfl, rfl, rfl, rfl, rfl, rfl⟩

/-- The planes of a row step change nothing else of the operation but the cycle in which the next one is loaded. -/
theorem stepPlanes_keeps (s : State) (o : Out) (op : Slotted) (w : Tiling) (p : Product) :
    Steady s (s.stepPlanes o op w p).1 ∧ (s.stepPlanes o op w p).2.step = w.step ∧ (s.stepPlanes o op w p).2.flags = w.flags ∧
      (s.stepPlanes o op w p).2.seen = w.seen := by
  have hload : Steady s (if w.plane.isEmpty then s.loadPlane o op w p (w.step / p.per op) else (s, w.plane)).1 := by
    split
    · exact steady_loadPlane ..
    · exact .refl s
  unfold State.stepPlanes
  dsimp only
  generalize (if w.plane.isEmpty then s.loadPlane o op w p (w.step / p.per op) else (s, w.plane)) = r at hload
  split_ifs
  · exact ⟨hload, rfl, rfl, rfl⟩
  · exact ⟨hload.trans (steady_loadPlane ..), rfl, rfl, rfl⟩
  · exact ⟨hload, rfl, rfl, rfl⟩

end Sys2Proof.TileEngine
end

section
/-! SUPPORT. Which way a tile operation goes on, and what its effects on registers and granules leave alone (06 R182). -/

namespace Sys2Proof.TileEngine
set_option Elab.async false
open Sys2Proof Machine Claims Laws MemoryEvents SlotEvents TileStart

/-! ## Which way an operation goes on -/

theorem productOf_of_job {op : Slotted} {j : FacJob} (h : facJob op = some j) : productOf op.instr = none := by
  unfold facJob at h
  split at h <;> simp_all [productOf]

theorem kinds_of_merge {op : Slotted} {m : Merge} (h : mergeOf op.instr = some m) : productOf op.instr = none ∧ facJob op = none := by
  unfold mergeOf at h
  split at h <;> simp_all [productOf, facJob]

theorem kinds_of_perm {op : Slotted} {x : Perm} (h : permOf op.instr = some x) :
    productOf op.instr = none ∧ facJob op = none ∧ mergeOf op.instr = none := by
  unfold permOf at h
  split at h <;> simp_all [productOf, facJob, mergeOf]

/-- Only products and factorisations stop at a boundary. -/
theorem atBoundary_move {op : Slotted} (hp : productOf op.instr = none) (hj : facJob op = none) (w : Tiling) : op.atBoundary w = false := by
  simp only [Slotted.atBoundary, hp, hj, Option.isSome_none]

theorem tileSteps_product {op : Slotted} {p : Product} (h : productOf op.instr = some p) (w : Tiling) : op.tileSteps w = p.steps op := by
  simp only [Slotted.tileSteps, h]

theorem tileSteps_job {op : Slotted} {j : FacJob} (h : facJob op = some j) (w : Tiling) : op.tileSteps w = j.steps := by
  simp only [Slotted.tileSteps, productOf_of_job h, h]

theorem tileSteps_merge {op : Slotted} {m : Merge} (h : mergeOf op.instr = some m) (w : Tiling) : op.tileSteps w = w.records := by
  obtain ⟨-, hj⟩ := kinds_of_merge h
  unfold mergeOf at h
  split at h
  next hi => simp only [Slotted.tileSteps, hj, hi, productOf]
  next => exact absurd h (by simp)

theorem tileSteps_perm {op : Slotted} {x : Perm} (h : permOf op.instr = some x) (w : Tiling) : op.tileSteps w = 0 := by
  obtain ⟨-, hj, -⟩ := kinds_of_perm h
  unfold permOf at h
  split at h
  next hi => simp only [Slotted.tileSteps, hj, hi, productOf]
  next => exact absurd h (by simp)

section
variable {s : State} {o : Out} {op : Slotted} {w : Tiling}

theorem go_of_tile (hev : s.eventOut = some o) (hw : o.work = .tile op w) :
    exec .tileOperationCompletion s = .next (s.tileGo o op w) := by
  simp only [exec, execTileOperationCompletion, hev, hw]

theorem tileGo_step (hlt : w.step < op.tileSteps w) (hgo : w.halt = none ∨ op.atBoundary w = false) : s.tileGo o op w = s.tileStep o op w := by
  have hstop : (w.halt.isSome && op.atBoundary w) = false := by
    rcases hgo with h | h
    · rw [h]; rfl
    · rw [h, Bool.and_false]
  rw [State.tileGo, if_pos hlt, hstop, if_neg Bool.false_ne_true]

theorem tileGo_stop (hlt : w.step < op.tileSteps w) (hhalt : w.halt ≠ none) (hat : op.atBoundary w = true) :
    s.tileGo o op w = s.tileGoes o op (op.stopped w) 0 := by
  have hstop : (w.halt.isSome && op.atBoundary w) = true := by rw [hat, Option.isSome_iff_ne_none.2 hhalt]; rfl
  rw [State.tileGo, if_pos hlt, hstop, if_pos rfl]

theorem tileGo_done (hle : op.tileSteps w ≤ w.step) : s.tileGo o op w = (s.tileDone o op w).drop o.id :=
  if_neg (Nat.not_lt.2 hle)

end

/-! ## Effects on the registers of the bead -/

/-- What settles is a bead's registers, and what a strike would restore of them. -/
theorem settle_frame (s : State) (o : Out) (f : Ctx → Ctx) : ∃ c oc u, s.settle o f = { s with c := c, oc := oc, undo := u } := by
  unfold State.settle State.onBank
  split
  · exact ⟨_, s.oc, _, rfl⟩
  · exact ⟨s.c, _, _, rfl⟩

@[simp] theorem settle_outs (s : State) (o : Out) (f : Ctx → Ctx) : (s.settle o f).outs = s.outs := by
  obtain ⟨c, oc, u, h⟩ := settle_frame s o f
  rw [h]

@[simp] theorem settle_mem (s : State) (o : Out) (f : Ctx → Ctx) : (s.settle o f).mem = s.mem := by
  obtain ⟨c, oc, u, h⟩ := settle_frame s o f
  rw [h]

@[simp] theorem settle_core (s : State) (o : Out) (f : Ctx → Ctx) : (s.settle o f).core = s.core := by
  obtain ⟨c, oc, u, h⟩ := settle_frame s o f
  rw [h]

@[simp] theorem settle_q (s : State) (o : Out) (f : Ctx → Ctx) : (s.settle o f).q = s.q := by
  obtain ⟨c, oc, u, h⟩ := settle_frame s o f
  rw [h]

/-- An effect on the active bead enters the registers of the core. -/
theorem settle_c {s : State} {o : Out} (h : o.bank = s.core.bank) (f : Ctx → Ctx) : (s.settle o f).c = f s.c := by
  unfold State.settle State.onBank
  rw [if_pos h]

theorem settleSeq_frame (s : State) (o : Out) (f : Seq → Seq) : ∃ q oq u, s.settleSeq o f = { s with q := q, oq := oq, undo := u } := by
  unfold State.settleSeq State.onBankSeq
  split
  · exact ⟨_, s.oq, _, rfl⟩
  · exact ⟨s.q, _, _, rfl⟩

theorem settleSeq_q {s : State} {o : Out} (h : o.bank = s.core.bank) (f : Seq → Seq) : (s.settleSeq o f).q = f s.q := by
  unfold State.settleSeq State.onBankSeq
  rw [if_pos h]

/-! ## The end of an operation -/

/-- Granules set empty are empty, and no byte changes. -/
theorem setFulls_false (gs : List Nat) (m : Mem) :
    ∃ e, gs.foldl (fun m g => m.setFull g false) m = { m with empty := e } ∧ ∀ x, x ∈ e ↔ x ∈ gs ∨ x ∈ m.empty := by
  induction gs generalizing m with
  | nil => exact ⟨m.empty, rfl, by simp⟩
  | cons g t ih =>
    obtain ⟨e, he, hmem⟩ := ih (m.setFull g false)
    refine ⟨e, by rw [List.foldl_cons, he]; rfl, fun x => ?_⟩
    rw [hmem, mem_setFull]
    by_cases hx : x = g <;> simp [hx]

/-- The granules that an operation takes turn empty, those that it sets turn full, and no byte changes (06 R182). -/
theorem feDone_frame (s : State) (takes sets : List Nat) : ∃ e, s.feDone takes sets = { s with mem := { s.mem with empty := e } } ∧
    ∀ g, g ∈ e ↔ g ∉ sets ∧ (g ∈ takes ∨ g ∈ s.mem.empty) := by
  obtain ⟨e, he, hmem⟩ := setFulls_false takes s.mem
  obtain ⟨e', he', hmem'⟩ := setFulls_true sets { s.mem with empty := e }
  refine ⟨e', by rw [State.feDone]; dsimp only; rw [he, he'], fun g => ?_⟩
  rw [hmem', ← hmem, and_comm]

@[simp] theorem feDone_c (s : State) (takes sets : List Nat) : (s.feDone takes sets).c = s.c := rfl
@[simp] theorem drop_c (s : State) (id : Nat) : (s.drop id).c = s.c := rfl
@[simp] theorem drop_core (s : State) (id : Nat) : (s.drop id).core = s.core := rfl
@[simp] theorem feDone_core (s : State) (takes sets : List Nat) : (s.feDone takes sets).core = s.core := rfl

theorem feDone_byte (s : State) (takes sets : List Nat) (a : Nat) : (s.feDone takes sets).mem.byte a = s.mem.byte a := by
  obtain ⟨e, he, -⟩ := feDone_frame s takes sets
  rw [he]
  rfl

/-- An operation that completes leaves its queue with the granules it takes and sets. -/
theorem tileEnds_feDone {s u : State} (houts : u.outs = s.outs) (hmem : u.mem = s.mem) (o : Out) (takes sets : List Nat) :
    TileEnds s ((u.feDone takes sets).drop o.id) o takes sets := by
  obtain ⟨e, he, hempty⟩ := feDone_frame u takes sets
  rw [he, hmem] at *
  exact ⟨congrArg _ houts, fun _ => rfl, hempty⟩

/-- So does one that takes and sets none. -/
theorem tileEnds_drop {s u : State} (houts : u.outs = s.outs) (hmem : u.mem = s.mem) (o : Out) : TileEnds s (u.drop o.id) o [] [] :=
  tileEnds_feDone houts hmem o [] []

end Sys2Proof.TileEngine
end

section
/-! SUPPORT. O50: products in the matrix engine (06 R182 to R186, R194, R195). -/

namespace Sys2Proof.TileEngine
set_option Elab.async false
open Sys2Proof Machine Claims Laws MemoryEvents SlotEvents TileStart

/-! ## Products (06 R182 to R186, R194, R195) -/

/-- Flags gathered from a word on are those gathered before it and those gathered after it. -/
theorem foldl_flags {α : Type} (g : α → Fl) (l : List α) (a b : Fl) :
    l.foldl (fun f x => f ||| g x) (a ||| b) = a ||| l.foldl (fun f x => f ||| g x) b := by
  induction l generalizing b with
  | nil => rfl
  | cons x t ih => rw [List.foldl_cons, List.foldl_cons, Nat.or_assoc, ih]

/-- The words of a row of C, each from its column of B and its own word before. -/
theorem pass_row_eq (x : Pass) (a : List FV) (old : Nat → Nat) :
    x.row a ((List.range x.cols).map old) = (List.range x.cols).map (rowWord x a old) := by
  refine List.map_congr_left fun n hn => ?_
  have hold : ((List.range x.cols).map old)[n]?.getD 0 = old n := by
    rw [List.getElem?_map, List.getElem?_range (List.mem_range.1 hn)]
    rfl
  dsimp only
  rw [hold]
  rfl

theorem wordBytes_ne_nil {l : List Nat} (h : l ≠ []) : wordBytes l ≠ [] := by
  cases l with
  | nil => exact absurd rfl h
  | cons w t => simp [wordBytes, natBytes]

theorem dCols_pos (d : QWord) : 0 < dCols d := Nat.succ_pos _

theorem rowParts_words_ne_nil (map : DWord) (core : Nat) (d : QWord) (i : Nat) (f : Nat → Nat) {n : Nat} (hn : 0 < n) :
    rowParts map core d i (wordBytes ((List.range n).map f)) ≠ [] := by
  refine rowParts_ne_nil _ _ _ _ (wordBytes_ne_nil ?_)
  simpa using hn.ne'

/-- What a row step leaves: registers of other operations' beads, clock, and the operations in hand with the pieces that it formed. -/
structure Formed (s u : State) (o : Out) (op : Slotted) (due : Nat) (ps : List Part) : Prop where
  forms : Forms u o op due ps
  keeps : ∀ x ∈ s.outs, x ∈ u.outs

theorem formed_mWrite {s u : State} (houts : u.outs = s.outs) (o : Out) (op : Slotted) (due : Nat) {ps : List Part} (h : ps ≠ []) :
    Formed s (u.mWrite o op due ps) o op due ps := by
  refine ⟨forms_mWrite u o op due h, fun x hx => ?_⟩
  obtain ⟨l, n, hl⟩ := mWrite_frame u o op due ps
  rw [hl]
  exact List.mem_append_left l (houts ▸ hx)

theorem Formed.of_outs {s u v : State} {o : Out} {op : Slotted} {due : Nat} {ps : List Part} (h : Formed s u o op due ps) (houts : v.outs = u.outs) :
    Formed s v o op due ps := by
  obtain ⟨hforms, hkeeps⟩ := h
  refine ⟨?_, fun x hx => houts ▸ hkeeps x hx⟩
  obtain ⟨x, hx, hrest⟩ := hforms
  exact ⟨x, houts ▸ hx, hrest⟩

/-- Pieces are formed whatever the reads before them found. -/
theorem formed_row {s u : State} (houts : u.outs = s.outs) (o : Out) (op : Slotted) (due : Nat) {ps : List Part} (h : ps ≠ [])
    (bank bad short : Bool) (mask : DWord) :
    Formed s (if short then ((u.mWrite o op due ps).consumedBy bank bad).status o mask else (u.mWrite o op due ps).consumedBy bank bad)
      o op due ps := by
  refine (formed_mWrite houts o op due h).of_outs ?_
  split
  · exact (settle_outs ..).trans (consumedBy_outs ..)
  · exact consumedBy_outs ..

/-- A row of C is formed from its row of A, with its predicted sum where the product is checked. -/
theorem enterRow_enters {l : State} (o : Out) (op : Slotted) (w : Tiling) (p : Product) :
    ∃ ps fl, RowEnters l o op p w.plane (w.step / p.per op) (w.step % p.per op) ps fl ∧
      Formed l (l.enterRow o op w p).1 o op l.rowFinal ps ∧ (l.enterRow o op w p).2.flags = w.flags ||| fl := by
  unfold State.enterRow
  dsimp only
  rw [pass_row_eq, List.map_map, List.foldl_map, foldl_flags]
  refine ⟨_, _, ?row, formed_row ?outs o op _ ?some _ _ _ _, rfl⟩
  case row => exact ⟨rfl, rfl⟩
  case outs => rw [engineClaims_outs, reader_outs, (steady_takeStream ..).outs]
  case some => exact List.append_ne_nil_of_left_ne_nil (rowParts_words_ne_nil _ _ _ _ _ (dCols_pos _)) _

/-- The row of sums is formed from the rows of A that have entered. -/
theorem enterSums_enters {l : State} (o : Out) (op : Slotted) {w : Tiling} {p : Product} (hseen : w.seen.length = p.rows op) :
    ∃ ps fl, SumsEnter l o op p w.plane w.seen (w.step / p.per op) ps fl ∧
      Formed l (l.enterSums o op w p).1 o op l.rowFinal ps ∧ (l.enterSums o op w p).2.flags = w.flags ||| fl := by
  unfold State.enterSums
  dsimp only
  rw [hseen, Nat.sub_self, List.range_zero, List.flatMap_nil, List.map_nil, List.nil_append]
  refine ⟨_, _, ⟨rfl, rfl⟩, (formed_mWrite ?_ o op _ (List.cons_ne_nil _ _)).of_outs (consumedBy_outs ..), ?_⟩
  · rw [engineClaims_outs, reader_outs]
  · rw [← foldl_flags, Nat.or_zero]
    rfl

/-- What the row step that is due forms. -/
def rowStep (s : State) (o : Out) (op : Slotted) (w : Tiling) (p : Product) : State × Tiling :=
  let l := s.stepPlanes o op w p
  if w.step % p.per op < p.rows op then l.1.enterRow o op l.2 p else l.1.enterSums o op l.2 p

theorem rowStep_forms {s : State} (o : Out) (op : Slotted) {w : Tiling} {p : Product}
    (hrow : w.step % p.per op < p.rows op ∨ w.seen.length = p.rows op) :
    ∃ ps fl, Formed s (rowStep s o op w p).1 o op s.rowFinal ps ∧ (rowStep s o op w p).2.flags = w.flags ||| fl ∧
      (w.step % p.per op < p.rows op →
        RowEnters (s.stepPlanes o op w p).1 o op p (s.stepPlanes o op w p).2.plane (w.step / p.per op) (w.step % p.per op) ps fl) ∧
      (p.rows op ≤ w.step % p.per op →
        SumsEnter (s.stepPlanes o op w p).1 o op p (s.stepPlanes o op w p).2.plane w.seen (w.step / p.per op) ps fl) := by
  obtain ⟨hsteady, hstep, hflags, hseen⟩ := stepPlanes_keeps s o op w p
  have formed {u : State} {due : Nat} {ps : List Part} (h : Formed (s.stepPlanes o op w p).1 u o op due ps) : Formed s u o op due ps :=
    ⟨h.forms, fun x hx => h.keeps x (hsteady.outs ▸ hx)⟩
  unfold rowStep
  dsimp only
  by_cases hi : w.step % p.per op < p.rows op
  · obtain ⟨ps, fl, henters, hformed, hfl⟩ := enterRow_enters (l := (s.stepPlanes o op w p).1) o op (s.stepPlanes o op w p).2 p
    rw [hstep] at henters
    rw [hsteady.rowFinal] at hformed
    rw [hflags] at hfl
    rw [if_pos hi]
    exact ⟨ps, fl, formed hformed, hfl, fun _ => henters, fun hle => absurd hi (Nat.not_lt.2 hle)⟩
  · obtain ⟨ps, fl, henters, hformed, hfl⟩ := enterSums_enters (l := (s.stepPlanes o op w p).1) o op
      (hseen.symm ▸ hrow.resolve_left hi : (s.stepPlanes o op w p).2.seen.length = p.rows op)
    rw [hstep, hseen] at henters
    rw [hsteady.rowFinal] at hformed
    rw [hflags] at hfl
    rw [if_neg hi]
    exact ⟨ps, fl, formed hformed, hfl, fun hlt => absurd hlt hi, fun _ => henters⟩

section
variable {s : State} {o : Out} {op : Slotted} {w : Tiling} {p : Product}

/-- The pieces that an operation forms stand while it goes on. -/
theorem Formed.tileGoes {u : State} {due : Nat} {ps : List Part} (h : Formed s u o op due ps) (ho : o ∈ s.outs) (hw : o.work = .tile op w)
    (v : Tiling) (due' : Nat) : Forms (u.tileGoes o op v due') o op due ps ∧ GoesOn (u.tileGoes o op v due') o op due' v :=
  ⟨forms_tileGoes h.forms v due', goesOn_tileGoes (h.keeps o ho) hw v due'⟩

/-- A product goes on with its next row step, that of a new pass not before its plane is loaded, or waits for its last row to be final. -/
theorem productStep_goes {u : State} {v : Tiling} {ps : List Part} (hr : rowStep s o op w p = (u, v)) (h : Formed s u o op s.rowFinal ps)
    (ho : o ∈ s.outs) (hw : o.work = .tile op w) :
    let i := w.step % p.per op
    let slots (n : Nat) : Nat := entryTime s.hub.power.duty (n * s.productRow op p)
    let on := s.coreAfter (slots (i + 1) - slots i)
    ∃ due v', Forms (s.productStep o op w p) o op s.rowFinal ps ∧ GoesOn (s.productStep o op w p) o op due v' ∧ v'.step = w.step + 1 ∧
      v'.flags = v.flags ∧ (w.step + 1 = p.steps op → due = s.rowFinal) ∧
      (w.step + 1 ≠ p.steps op → on ≤ due ∧ ((w.step + 1) % p.per op ≠ 0 → due = on)) := by
  have hstep : s.productStep o op w p =
      let r := rowStep s o op w p
      let i := w.step % p.per op
      let on := s.coreAfter (entryTime s.hub.power.duty ((i + 1) * s.productRow op p) - entryTime s.hub.power.duty (i * s.productRow op p))
      let w := { r.2 with step := w.step + 1 }
      if w.step = p.steps op then
        (if p.src = 2 then r.1.settle o (·.takeRows (p.passes op * p.rows op)) else r.1).tileGoes o op { w with fed := true } s.rowFinal
      else if w.step % p.per op = 0 then r.1.tileGoes o op { w with plane := w.next, next := [], seen := [] } (max on w.loads)
      else r.1.tileGoes o op w on := rfl
  intro i slots on
  rw [hstep, hr]
  dsimp only
  split_ifs with hlast hsrc hpass
  · obtain ⟨hforms, hgoes⟩ := (h.of_outs (settle_outs ..)).tileGoes ho hw _ _
    exact ⟨_, _, hforms, hgoes, rfl, rfl, fun _ => rfl, fun hne => absurd hlast hne⟩
  · obtain ⟨hforms, hgoes⟩ := h.tileGoes ho hw _ _
    exact ⟨_, _, hforms, hgoes, rfl, rfl, fun _ => rfl, fun hne => absurd hlast hne⟩
  · obtain ⟨hforms, hgoes⟩ := h.tileGoes ho hw _ _
    exact ⟨_, _, hforms, hgoes, rfl, rfl, fun heq => absurd heq hlast, fun _ => ⟨le_max_left _ _, fun hne => absurd hpass hne⟩⟩
  · obtain ⟨hforms, hgoes⟩ := h.tileGoes ho hw _ _
    exact ⟨_, _, hforms, hgoes, rfl, rfl, fun heq => absurd heq hlast, fun _ => ⟨le_rfl, fun _ => rfl⟩⟩

/-- A product in the engine makes its row steps, stops at a boundary, and completes. -/
theorem product_runs (hev : s.eventOut = some o) (hw : o.work = .tile op w) (hp : productOf op.instr = some p) : ProductRuns s o op w p := by
  have ho := mem_of_eventOut hev
  have hgo := go_of_tile hev hw
  have hsteps := tileSteps_product hp w
  unfold ProductRuns
  dsimp only
  refine ⟨fun hlt hhalt hheld hrow => ?_, fun hlt hhalt hat => ?_, fun hle => ?_⟩
  · obtain ⟨ps, fl, hformed, hflags, henters, hsums⟩ := rowStep_forms o op hrow
    obtain ⟨due, v, hforms, hgoes, hstep, hfl, hdue⟩ := productStep_goes rfl hformed ho hw
    have htile : s.tileGo o op w = s.productStep o op w p := by
      rw [tileGo_step (hsteps ▸ hlt) hhalt]
      simp only [State.tileStep, hp, hheld]
    exact ⟨_, ps, fl, due, v, hgo.trans (congrArg _ htile), hforms, hgoes, hstep, hfl.trans hflags, henters, hsums, hdue⟩
  · have htile := tileGo_stop (s := s) (o := o) (hsteps ▸ hlt) hhalt hat
    refine ⟨_, _, hgo.trans (congrArg _ htile), goesOn_tileGoes ho hw _ _, rfl, rfl, ?_, rfl⟩
    simp only [Slotted.stopped, hp]
  · have hdone : s.tileDone o op w = s.productDone o op w p := by simp only [State.tileDone, hp]
    refine ⟨_, hgo.trans (congrArg _ (tileGo_done (hsteps ▸ hle))), ?_, fun hb => ?_⟩
    · rw [hdone]
      exact tileEnds_feDone (settle_outs ..) (settle_mem ..) o _ _
    · rw [hdone]
      exact settle_c hb _

end

end Sys2Proof.TileEngine
end

section
/-! SUPPORT. O50: outlier merges in the matrix engine (06 R196). -/

namespace Sys2Proof.TileEngine
set_option Elab.async false
open Sys2Proof Machine Claims Laws MemoryEvents SlotEvents TileStart

/-! ## Outlier merges (06 R196) -/

theorem bytes_length (m : Mem) (a n : Nat) : (m.bytes a n).length = n := by
  induction n generalizing a with
  | zero => rfl
  | succ n ih => rw [Mem.bytes, List.length_cons, ih]

theorem bytesNat_lt (l : List Byte) : bytesNat l < 256 ^ l.length := by
  induction l with
  | nil => exact Nat.one_pos
  | cons b t ih =>
    have := b.isLt
    rw [bytesNat, List.length_cons, Nat.pow_succ]
    omega

/-- The high word of eight bytes. -/
theorem fld_high (m : Mem) (a : Nat) : fld (bytesNat (m.bytes a 8)) 32 32 = bytesNat (m.bytes a 8) / 2 ^ 32 := by
  have hlt := bytesNat_lt (m.bytes a 8)
  rw [bytes_length] at hlt
  exact Nat.mod_eq_of_lt (by omega)

/-- Pieces of several rows, each with the number of its row, that the engine forms row by row. -/
def Groups (l : List (Nat × Part)) (ps : List (Nat × List Part)) : Prop :=
  ∀ y ∈ ps, y.1 ∈ (l.map (·.1)).eraseDups ∧ (l.filter fun x => x.1 == y.1).map (·.2) = y.2 ∧ y.2 ≠ []

theorem groups_nil : Groups [] [] := fun _ h => absurd h List.not_mem_nil

/-- The pieces of one row are one group. -/
theorem groups_row {l : List Part} (h : l ≠ []) : Groups (l.map fun p => (0, p)) [(0, l)] := by
  intro y hy
  obtain rfl := List.mem_singleton.1 hy
  refine ⟨?_, ?_, h⟩
  · obtain ⟨p, hp⟩ := List.exists_mem_of_ne_nil l h
    exact List.mem_eraseDups.2 (List.mem_map.2 ⟨(0, p), List.mem_map.2 ⟨p, hp, rfl⟩, rfl⟩)
  · simp [List.filter_map]

/-- One piece of each row is a group of its own. -/
theorem groups_column (f : Nat → Part) (n : Nat) :
    Groups ((List.range n).map fun i => (i, f i)) ((List.range n).map fun i => (i, [f i])) := by
  intro y hy
  obtain ⟨i, hi, rfl⟩ := List.mem_map.1 hy
  refine ⟨?_, ?_, List.cons_ne_nil _ _⟩
  · exact List.mem_eraseDups.2 (List.mem_map.2 ⟨(i, f i), List.mem_map.2 ⟨i, hi, rfl⟩, rfl⟩)
  · have hone : (List.range n).filter (fun k => k == i) = [i] := CrossSlotCopies.filter_beq_range (List.mem_range.1 hi)
    simp only [List.filter_map, List.map_map, Function.comp_def, hone]
    rfl

theorem mapIdx_map_range {α β : Type} (f : Nat → α) (g : Nat → α → β) (n : Nat) :
    ((List.range n).map f).mapIdx g = (List.range n).map fun i => g i (f i) :=
  List.ext_getElem (by simp) fun i _ _ => by simp

/-- A record of a list merges into C's words. -/
theorem mergeRecord_merges (s : State) (o : Out) (op : Slotted) (m : Merge) (t : Nat) :
    ∃ ps, RecordMerges s o op m t ps (s.mergeRecord o.bank op m t).2.2.1 ∧ Groups (s.mergeRecord o.bank op m t).2.1 ps ∧
      Steady s (s.mergeRecord o.bank op m t).1 := by
  unfold RecordMerges State.mergeRecord Merge.list
  dsimp only
  rw [fld_high, fld_low]
  cases hb : m.listB with
  | false =>
    simp only [Bool.not_false, if_true]
    cases hf : findElem (op.iss.rm m.a) _ _ with
    | none => exact ⟨[], ⟨fun _ => ⟨rfl, rfl⟩, fun h => absurd h Bool.false_ne_true⟩, groups_nil, steady_reader s o.bank op _⟩
    | some e =>
      dsimp only
      refine ⟨_, ⟨fun _ => ⟨rfl, ?_⟩, fun h => absurd h Bool.false_ne_true⟩, ?_, (steady_reader s o.bank op _).trans (steady_reader _ o.bank op _)⟩
      · rw [List.foldl_map]
      · rw [List.map_map]
        exact groups_row (rowParts_words_ne_nil _ _ _ _ _ (dCols_pos _))
  | true =>
    simp only [Bool.not_true, Bool.false_eq_true, if_false]
    cases hf : findElem (op.iss.rm m.b) _ _ with
    | none => exact ⟨[], ⟨fun h => absurd h Bool.false_ne_true.symm, fun _ => ⟨rfl, rfl⟩⟩, groups_nil, steady_reader s o.bank op _⟩
    | some e =>
      dsimp only
      refine ⟨_, ⟨fun h => absurd h Bool.false_ne_true.symm, fun _ => ⟨rfl, ?_⟩⟩, ?_, (steady_reader s o.bank op _).trans (steady_reader _ o.bank op _)⟩
      · rw [List.foldl_map]
      · rw [mapIdx_map_range]
        exact groups_column _ _

/-- What the engine has formed for an operation before it ends a merge stays. -/
theorem forms_mergeEnd {u : State} {o : Out} {op : Slotted} {d : Nat} {ps : List Part} (h : Forms u o op d ps) (v : Tiling) (m : Merge)
    (due : Nat) : Forms (u.mergeEnd o op v m due) o op d ps := by
  unfold State.mergeEnd
  dsimp only
  refine forms_tileGoes ?_ v due
  obtain ⟨x, hx, hrest⟩ := h
  split
  · obtain ⟨l, n, hl⟩ := mWrite_frame u o op due [{ addr := (m.list op u.core.phys 0 4).1, bytes := natBytes 4 0 }]
    rw [hl]
    exact ⟨x, List.mem_append_left l hx, hrest⟩
  · exact ⟨x, hx, hrest⟩

/-- The merge that clears its list forms the list's empty header. -/
theorem mergeEnd_clears (u : State) (o : Out) (op : Slotted) (v : Tiling) {m : Merge} (hclear : m.clear = true) (hon : cfOlen (m.cf op) = true)
    (due : Nat) : Forms (u.mergeEnd o op v m due) o op due
      [{ addr := crownThrough op.iss.cbmap u.core.phys (cfOla (m.cf op) % 2 ^ 23), bytes := natBytes 4 0 }] := by
  unfold State.mergeEnd Merge.list
  dsimp only
  rw [hclear, hon, Bool.and_self, if_pos rfl, Nat.add_zero]
  exact forms_tileGoes (forms_mWrite u o op due (List.cons_ne_nil _ _)) v due

/-- The state once a record is read, and once its pieces are formed row by row. -/
def recordRead (s : State) (o : Out) (op : Slotted) (w : Tiling) (m : Merge) : State :=
  let r := s.mergeRecord o.bank op m w.step
  (r.1.engineClaims (r.2.2.2.1.take 32) (r.2.1.map (·.2))).consumedBy o.bank r.2.2.2.2
def merged (s : State) (o : Out) (op : Slotted) (w : Tiling) (m : Merge) : State :=
  let l := (s.mergeRecord o.bank op m w.step).2.1
  mWrites (recordRead s o op w m) o op (fun n => s.coreAfter (20 + n) + 32) (fun n => (l.filter fun x => x.1 == n).map (·.2)) (l.map (·.1)).eraseDups

theorem mergeStep_eq (s : State) (o : Out) (op : Slotted) (w : Tiling) (m : Merge) : s.mergeStep o op w m =
    let r := s.mergeRecord o.bank op m w.step
    let w' := { w with step := w.step + 1, flags := w.flags ||| r.2.2.1 }
    let on := m.time op (w.step + 1) - m.time op w.step
    if w.step + 1 = w.records then (merged s o op w m).mergeEnd o op w' m (s.coreAfter (20 + on) + 32)
    else (merged s o op w m).tileGoes o op w' (s.coreAfter on) := rfl

theorem merged_forms {s : State} (o : Out) (op : Slotted) (w : Tiling) (m : Merge) {ps : List (Nat × List Part)}
    (hgroups : Groups (s.mergeRecord o.bank op m w.step).2.1 ps) (hsteady : Steady s (s.mergeRecord o.bank op m w.step).1) :
    (∀ y ∈ ps, Forms (merged s o op w m) o op (s.coreAfter (20 + y.1) + 32) y.2) ∧ (∀ x ∈ s.outs, x ∈ (merged s o op w m).outs) ∧
      (merged s o op w m).core.phys = s.core.phys := by
  have hread : Steady s (recordRead s o op w m) := (hsteady.trans (steady_engineClaims ..)).trans (steady_consumedBy ..)
  unfold merged
  dsimp only
  generalize (s.mergeRecord o.bank op m w.step).2.1 = l at hgroups
  refine ⟨fun y hy => ?_, ?_⟩
  · obtain ⟨hmem, hparts, hne⟩ := hgroups y hy
    have hform := forms_mWrites (recordRead s o op w m) o op (fun n => s.coreAfter (20 + n) + 32)
      (fun n => (l.filter fun x => x.1 == n).map (·.2)) hmem (hparts ▸ hne)
    rw [hparts] at hform
    exact hform
  · obtain ⟨x, n, hx⟩ := mWrites_frame (recordRead s o op w m) o op (fun n => s.coreAfter (20 + n) + 32)
      (fun n => (l.filter fun x => x.1 == n).map (·.2)) (l.map (·.1)).eraseDups
    rw [hx]
    exact ⟨fun y hy => List.mem_append_left x (hread.outs ▸ hy), hread.phys⟩

section
variable {s : State} {o : Out} {op : Slotted} {w : Tiling} {m : Merge}

/-- `moutm` in the engine merges its records one after another, and completes. -/
theorem merge_runs (hev : s.eventOut = some o) (hw : o.work = .tile op w) (hm : mergeOf op.instr = some m) : MergeRuns s o op w m := by
  have ho := mem_of_eventOut hev
  have hgo := go_of_tile hev hw
  have hsteps := tileSteps_merge hm w
  obtain ⟨hp, hj⟩ := kinds_of_merge hm
  have hdone : s.tileDone o op w = s.mergeDone o op w m := by simp only [State.tileDone, hp, hj, hm]
  unfold MergeRuns
  dsimp only
  refine ⟨fun hlt => ?_, fun hle hoff => ?_, fun hle hon => ?_⟩
  · have htile : s.tileGo o op w = s.mergeStep o op w m := by
      rw [tileGo_step (hsteps ▸ hlt) (.inr (atBoundary_move hp hj w))]
      simp only [State.tileStep, hp, hj, hm]
    obtain ⟨ps, hrecord, hgroups, hsteady⟩ := mergeRecord_merges s o op m w.step
    obtain ⟨hforms, hkeeps, hphys⟩ := merged_forms o op w m hgroups hsteady
    rw [mergeStep_eq] at htile
    by_cases hlast : w.step + 1 = w.records
    · rw [if_pos hlast] at htile
      refine ⟨_, ps, _, _, _, hgo.trans (congrArg _ htile), hrecord, fun y hy => forms_mergeEnd (hforms y hy) _ m _,
        (mergeEnd_goes (hkeeps o ho) hw _ m _).1, rfl, rfl, fun hne => absurd hlast hne, fun _ => ⟨rfl, fun hclear hon => ?_⟩⟩
      rw [← hphys]
      exact mergeEnd_clears _ o op _ hclear hon _
    · rw [if_neg hlast] at htile
      exact ⟨_, ps, _, _, _, hgo.trans (congrArg _ htile), hrecord, fun y hy => forms_tileGoes (hforms y hy) _ _,
        goesOn_tileGoes (hkeeps o ho) hw _ _, rfl, rfl, fun _ => rfl, fun heq => absurd heq hlast⟩
  · have hnone : s.mergeDone o op w m = s := by simp only [State.mergeDone, hoff, Bool.not_false, if_true]
    rw [hgo, tileGo_done (hsteps ▸ hle), hdone, hnone]
    rfl
  · refine ⟨_, hgo.trans (congrArg _ ((tileGo_done (hsteps ▸ hle)).trans (congrArg (·.drop o.id) hdone))), ?_⟩
    simp only [State.mergeDone, hon, Bool.not_true, Bool.false_eq_true, if_false]
    exact ⟨tileEnds_feDone (settle_outs ..) (settle_mem ..) o _ _, fun hb => settle_c hb _⟩

end

end Sys2Proof.TileEngine
end

section
/-! SUPPORT. O50: factorisations in the matrix engine (07 R201 to R216). -/

namespace Sys2Proof.TileEngine
set_option Elab.async false
open Sys2Proof Machine Claims Laws MemoryEvents SlotEvents TileStart

/-! ## Factorisations (07 R201 to R216) -/

theorem wpv_wpv (c : Ctx) (r : BitVec 2) (v v' : BitVec 1024) : (c.wpv r v).wpv r v' = c.wpv r v' := by
  unfold Ctx.wpv
  dsimp only
  rw [Vector.set_set]

section
variable (s : State) (o : Out) (op : Slotted) (w : Tiling) (j : FacJob)

/-- What a job holds after its step. -/
def stepResult : Fac := j.step (s.facHolds o.bank op j w).2.1 w.step

/-- The operation once a step is made. -/
def stepNext : Tiling := { w with step := w.step + 1, run := (stepResult s o op w j).saved }

/-- The registers once a step has written its pivots. -/
def stepped (c : Ctx) : Ctx :=
  match j.pv with
  | some r => c.wpv r (putEntries (c.rpv r) (stepResult s o op w j).pv)
  | none => c

/-- The state once a step has read its tile and written its pivots. -/
def stepRead : State :=
  let u := (s.facHolds o.bank op j w).1.consumedBy o.bank (s.facHolds o.bank op j w).2.2
  match j.pv with
  | some r => u.settle o fun c => c.wpv r (putEntries (c.rpv r) (stepResult s o op w j).pv)
  | none => u

/-- The state once a step has formed its rows and its τ. -/
def stepFormed (due : Nat) : State :=
  let d := op.iss.rm j.c
  mWrites ((stepRead s o op w j).mWrite o op due ((stepResult s o op w j).tau.map fun e =>
      { addr := crownThrough op.iss.cbmap s.core.phys (dAux d + 4 * e.1), bytes := natBytes 4 e.2 })) o op (fun _ => due)
    (facRow op.iss.cbmap s.core.phys d j (s.facHolds o.bank op j w).2.1 (stepResult s o op w j)) (List.range (dRows d))

theorem stepRead_keeps : (stepRead s o op w j).outs = s.outs ∧ (stepRead s o op w j).core.bank = s.core.bank ∧
    (stepRead s o op w j).q.trap = s.q.trap ∧ (o.bank = s.core.bank → (stepRead s o op w j).c = stepped s o op w j s.c) := by
  have h : Steady s ((s.facHolds o.bank op j w).1.consumedBy o.bank (s.facHolds o.bank op j w).2.2) :=
    .trans (u := (s.facHolds o.bank op j w).1) ⟨rfl, rfl, rfl, rfl, rfl, rfl, rfl⟩ (steady_consumedBy ..)
  unfold stepRead stepped
  dsimp only
  generalize (s.facHolds o.bank op j w).1.consumedBy o.bank (s.facHolds o.bank op j w).2.2 = u at h
  cases j.pv with
  | none => exact ⟨h.outs, h.bank, h.trap, fun _ => h.c⟩
  | some r =>
    refine ⟨(settle_outs ..).trans h.outs, ?_, ?_, fun hb => ?_⟩
    · rw [settle_core, h.bank]
    · rw [settle_q, h.trap]
    · rw [settle_c (h.bank ▸ hb), h.c]

theorem stepFormed_frame (due : Nat) : ∃ l n, stepFormed s o op w j due = { stepRead s o op w j with outs := s.outs ++ l, nextId := n } := by
  unfold stepFormed
  dsimp only
  generalize (stepResult s o op w j).tau.map _ = tau
  obtain ⟨l, n, hl⟩ := mWrite_frame (stepRead s o op w j) o op due tau
  obtain ⟨l', n', hl'⟩ := mWrites_frame ((stepRead s o op w j).mWrite o op due tau) o op (fun _ => due)
    (facRow op.iss.cbmap s.core.phys (op.iss.rm j.c) j (s.facHolds o.bank op j w).2.1 (stepResult s o op w j))
    (List.range (dRows (op.iss.rm j.c)))
  refine ⟨l ++ l', n', ?_⟩
  rw [hl', hl, (stepRead_keeps s o op w j).1, List.append_assoc]

theorem stepFormed_row (due : Nat) {i : Nat} (hi : i < dRows (op.iss.rm j.c))
    (hne : facRow op.iss.cbmap s.core.phys (op.iss.rm j.c) j (s.facHolds o.bank op j w).2.1 (stepResult s o op w j) i ≠ []) :
    Forms (stepFormed s o op w j due) o op due
      (facRow op.iss.cbmap s.core.phys (op.iss.rm j.c) j (s.facHolds o.bank op j w).2.1 (stepResult s o op w j) i) :=
  forms_mWrites _ o op (fun _ => due) _ (List.mem_range.2 hi) hne

theorem stepFormed_tau (due : Nat) (hne : (stepResult s o op w j).tau ≠ []) :
    Forms (stepFormed s o op w j due) o op due ((stepResult s o op w j).tau.map fun e =>
      { addr := crownThrough op.iss.cbmap s.core.phys (dAux (op.iss.rm j.c) + 4 * e.1), bytes := natBytes 4 e.2 }) := by
  obtain ⟨x, hx, hform⟩ := forms_mWrite (stepRead s o op w j) o op due
    (ps := (stepResult s o op w j).tau.map fun e =>
      { addr := crownThrough op.iss.cbmap s.core.phys (dAux (op.iss.rm j.c) + 4 * e.1), bytes := natBytes 4 e.2 }) (by simpa using hne)
  refine ⟨x, ?_, hform⟩
  unfold stepFormed
  dsimp only
  obtain ⟨l, n, hl⟩ := mWrites_frame ((stepRead s o op w j).mWrite o op due _) o op (fun _ => due) _ (List.range (dRows (op.iss.rm j.c)))
  rw [hl]
  exact List.mem_append_left l hx

/-- A step that does not fail: the operation goes on, the last time with its pivot register filled. -/
theorem facStep_eq (hf : (stepResult s o op w j).failed = none) : s.facStep o op w j =
    let at0 := s.coreAfter (s.stepTime j w.step)
    let u := stepFormed s o op w j (at0 + 32)
    let v := stepNext s o op w j
    if w.step + 1 = j.steps then (u.facFill o op j v).tileGoes o op v (at0 + 32) else u.tileGoes o op v at0 := by
  unfold stepResult at hf
  unfold State.facStep stepFormed stepRead stepNext stepResult
  dsimp only
  rw [hf]
  cases j.pv
  · rfl
  · rfl

theorem facStep_fails {code : BitVec 8} {k : Nat} (hf : (stepResult s o op w j).failed = some (code, k)) :
    s.facStep o op w j = (stepRead s o op w j).facFail o op j (stepResult s o op w j) code k := by
  unfold stepResult at hf
  unfold State.facStep stepRead stepResult
  dsimp only
  generalize (j.step (s.facHolds o.bank op j w).2.1 w.step).failed = failed at hf
  subst hf
  cases j.pv
  · rfl
  · rfl

end

section
variable {u : State} {o : Out} {op : Slotted} {w : Tiling} {j : FacJob}

theorem facFill_outs (u : State) (o : Out) (op : Slotted) (j : FacJob) (w : Tiling) : (u.facFill o op j w).outs = u.outs := by
  unfold State.facFill
  split
  · exact settle_outs ..
  · rfl

theorem facFill_none (h : j.pv = none) : u.facFill o op j w = u := by
  simp only [State.facFill, h]

/-- The entries of the pivot register from the step count on are their own indices. -/
theorem facFill_some {r : BitVec 2} (h : j.pv = some r) (hb : o.bank = u.core.bank) (hp : j.progress op w ≤ j.steps) :
    (u.facFill o op j w).c = u.c.wpv r (putEntries (u.c.rpv r) ((upTo j.steps 128).map fun i => (i, i))) := by
  simp only [State.facFill, h, settle_c hb, Nat.max_eq_left hp]

/-- A job that faults: g and the flags are written, what waits behind it is discarded, and the trap is due. -/
theorem facFail_traps (hb : o.bank = u.core.bank) (htrap : u.q.trap = none) (q : Fac) (code : BitVec 8) (k : Nat) :
    let t := u.facFail o op j q code k
    let behind := (u.tileQueue o.bank).filter fun x => decide (o.id < x.id)
    t.c = (u.c.wg j.g q.gWord).orFlags (q.fl ||| q.growth.2) ∧
      t.outs = u.outs.filter (fun x => x.id != o.id && !(behind.any (·.id == x.id))) ∧
      t.q.trap = some { code := code, info := facInfo k j behind.length, slot := 2, iss := false, evt := false, now := true, seq := op.seq } := by
  unfold State.facFail
  dsimp only
  generalize hv : State.facWrites _ o j q = v
  have hcore : v.core = u.core := by rw [← hv]; exact settle_core ..
  have hq : v.q = u.q := by rw [← hv]; exact settle_q ..
  have hc : v.c = (u.c.wg j.g q.gWord).orFlags (q.fl ||| q.growth.2) := by rw [← hv]; exact settle_c (by exact hb) _
  have houts : v.outs = u.outs.filter fun x => x.id != o.id && !(((u.tileQueue o.bank).filter fun x => decide (o.id < x.id)).any (·.id == x.id)) := by
    rw [← hv]; exact settle_outs ..
  refine ⟨?_, ?_, ?_⟩
  · obtain ⟨a, b, c, h⟩ := settleSeq_frame v o fun q => q.pendNow
      { code := code, info := facInfo k j _, slot := 2, iss := false, evt := false, now := true, seq := op.seq }
    rw [h]
    exact hc
  · obtain ⟨a, b, c, h⟩ := settleSeq_frame v o fun q => q.pendNow
      { code := code, info := facInfo k j _, slot := 2, iss := false, evt := false, now := true, seq := op.seq }
    rw [h]
    exact houts
  · rw [settleSeq_q (hcore ▸ hb), hq]
    simp only [Seq.pendNow, htrap, Option.any_none, Bool.false_eq_true, if_false]

end

section
variable {s : State} {o : Out} {op : Slotted} {w : Tiling} {j : FacJob}

/-- What a step of a job has formed stands while the operation goes on with other registers. -/
theorem stepFormed_goes (due : Nat) {u : State} (hu : u.outs = (stepFormed s o op w j due).outs) (ho : o ∈ s.outs) (hw : o.work = .tile op w)
    (v : Tiling) (due' : Nat) :
    GoesOn (u.tileGoes o op v due') o op due' v ∧
      ∀ d ps, Forms (stepFormed s o op w j due) o op d ps → Forms (u.tileGoes o op v due') o op d ps := by
  obtain ⟨l, n, hl⟩ := stepFormed_frame s o op w j due
  refine ⟨goesOn_tileGoes ?_ hw v due', fun d ps h => forms_tileGoes ?_ v due'⟩
  · rw [hu, hl]
    exact List.mem_append_left l ho
  · obtain ⟨x, hx, hrest⟩ := h
    exact ⟨x, hu ▸ hx, hrest⟩

theorem stepFormed_c (due : Nat) (hb : o.bank = s.core.bank) :
    (stepFormed s o op w j due).c = stepped s o op w j s.c ∧ o.bank = (stepFormed s o op w j due).core.bank := by
  obtain ⟨l, n, hl⟩ := stepFormed_frame s o op w j due
  obtain ⟨-, hbank, -, hc⟩ := stepRead_keeps s o op w j
  rw [hl]
  exact ⟨hc hb, hb.trans hbank.symm⟩

theorem tileStep_job (hj : facJob op = some j) : s.tileStep o op w = s.facStep o op w j := by
  simp only [State.tileStep, productOf_of_job hj, hj]

theorem tileDone_job (hj : facJob op = some j) : s.tileDone o op w = s.facDone o op w j := by
  simp only [State.tileDone, productOf_of_job hj, hj]

/-- The operation goes on, and what the step has formed stands. -/
theorem facStep_goes (hf : (stepResult s o op w j).failed = none) (ho : o ∈ s.outs) (hw : o.work = .tile op w) :
    let at0 := s.coreAfter (s.stepTime j w.step)
    GoesOn (s.facStep o op w j) o op (if w.step + 1 = j.steps then at0 + 32 else at0) (stepNext s o op w j) ∧
      ∀ d ps, Forms (stepFormed s o op w j (at0 + 32)) o op d ps → Forms (s.facStep o op w j) o op d ps := by
  rw [facStep_eq s o op w j hf]
  dsimp only
  split
  · exact stepFormed_goes _ (facFill_outs ..) ho hw _ _
  · exact stepFormed_goes _ rfl ho hw _ _

/-- A step that is not the last one leaves the pivots that it has written. -/
theorem facStep_c (hf : (stepResult s o op w j).failed = none) (hb : o.bank = s.core.bank) (hne : w.step + 1 ≠ j.steps) :
    (s.facStep o op w j).c = stepped s o op w j s.c := by
  rw [facStep_eq s o op w j hf]
  dsimp only
  rw [if_neg hne, tileGoes_c]
  exact (stepFormed_c _ hb).1

theorem facStep_c_last_none (hf : (stepResult s o op w j).failed = none) (hb : o.bank = s.core.bank) (hlast : w.step + 1 = j.steps)
    (hpv : j.pv = none) : (s.facStep o op w j).c = s.c := by
  rw [facStep_eq s o op w j hf]
  dsimp only
  rw [if_pos hlast, tileGoes_c, facFill_none hpv, (stepFormed_c _ hb).1]
  simp only [stepped, hpv]

/-- The last step fills the pivot register. -/
theorem facStep_c_last_some (hf : (stepResult s o op w j).failed = none) (hb : o.bank = s.core.bank) (hlast : w.step + 1 = j.steps)
    {r : BitVec 2} (hpv : j.pv = some r) (hp : j.progress op w ≤ j.steps) :
    (s.facStep o op w j).c = s.c.wpv r (putEntries (putEntries (s.c.rpv r) (stepResult s o op w j).pv) ((upTo j.steps 128).map fun i => (i, i))) := by
  obtain ⟨hc, hbank⟩ := stepFormed_c (s := s) (op := op) (w := w) (j := j) (s.coreAfter (s.stepTime j w.step) + 32) hb
  rw [facStep_eq s o op w j hf]
  dsimp only
  rw [if_pos hlast, tileGoes_c, facFill_some hpv hbank (w := stepNext s o op w j) hp, hc]
  simp only [stepped, hpv, Ctx.rpv_wpv_same, wpv_wpv]

/-- A step that fails writes g and the flags after its pivots, discards what waits behind it, and traps. -/
theorem facStep_traps {code : BitVec 8} {k : Nat} (hf : (stepResult s o op w j).failed = some (code, k)) (hb : o.bank = s.core.bank)
    (htrap : s.q.trap = none) :
    let q := stepResult s o op w j
    let behind := (s.tileQueue o.bank).filter fun x => decide (o.id < x.id)
    (s.facStep o op w j).c = ((stepped s o op w j s.c).wg j.g q.gWord).orFlags (q.fl ||| q.growth.2) ∧
      (s.facStep o op w j).outs = s.outs.filter (fun x => x.id != o.id && !(behind.any (·.id == x.id))) ∧
      (s.facStep o op w j).q.trap = some { code := code, info := facInfo k j behind.length, slot := 2, iss := false, evt := false, now := true, seq := op.seq } := by
  obtain ⟨houts, hbank, htrap', hc⟩ := stepRead_keeps s o op w j
  obtain ⟨htc, hto, htt⟩ := facFail_traps (op := op) (j := j) (hb.trans hbank.symm) (htrap'.trans htrap) (stepResult s o op w j) code k
  have hqueue : (stepRead s o op w j).tileQueue o.bank = s.tileQueue o.bank := by
    unfold State.tileQueue
    rw [houts]
  rw [hqueue] at hto htt
  rw [houts] at hto
  rw [hc hb] at htc
  rw [facStep_fails s o op w j hf]
  exact ⟨htc, hto, htt⟩

/-- A factorisation that has made its steps writes g and the flags. -/
theorem facDone_ends (s : State) (o : Out) (op : Slotted) (w : Tiling) (j : FacJob) :
    let e := facStart [] [] j.lower w.run
    TileEnds s ((s.facDone o op w j).drop o.id) o (match j.t with
      | some r => feTakes s op { desc := op.iss.rm r, reg := r, role := 1, kind := 1 }
      | none => []) (feSets s op { desc := op.iss.rm j.c, reg := j.c, role := 0, kind := 1 }) ∧
    (o.bank = s.core.bank → (s.facDone o op w j).c = (s.c.wg j.g e.gWord).orFlags (e.fl ||| e.growth.2)) := by
  refine ⟨?_, fun hb => settle_c hb _⟩
  unfold State.facDone
  dsimp only
  cases ht : j.t with
  | none => exact tileEnds_feDone (settle_outs ..) (settle_mem ..) o _ _
  | some r => exact tileEnds_feDone (settle_outs ..) (settle_mem ..) o _ _

/-- A factorisation in the engine makes its steps, faults at the one that fails, and completes. -/
theorem factor_runs (hev : s.eventOut = some o) (hw : o.work = .tile op w) (hj : facJob op = some j) : FactorRuns s o op w j := by
  have ho := mem_of_eventOut hev
  have hgo := go_of_tile hev hw
  have hsteps := tileSteps_job hj w
  have hstep (hlt : w.step < j.steps) (hh : w.halt = none) : exec .tileOperationCompletion s = .next (s.facStep o op w j) := by
    rw [hgo, tileGo_step (hsteps ▸ hlt) (.inl hh), tileStep_job hj]
  refine ⟨fun hlt hh hf => ?_, fun code k hlt hh hf hb htrap => ⟨_, hstep hlt hh, facStep_traps hf hb htrap⟩, fun hle => ?_⟩
  · obtain ⟨hgoes, hforms⟩ := facStep_goes hf ho hw
    exact ⟨_, _, _, hstep hlt hh, hgoes, rfl, rfl, rfl, fun i hi hne => hforms _ _ (stepFormed_row s o op w j _ hi hne),
      fun hne => hforms _ _ (stepFormed_tau s o op w j _ hne), fun hb hne => facStep_c hf hb hne,
      fun hb hlast hpv => facStep_c_last_none hf hb hlast hpv, fun r hb hlast hpv hp => facStep_c_last_some hf hb hlast hpv hp⟩
  · exact ⟨_, hgo.trans (congrArg _ ((tileGo_done (hsteps ▸ hle)).trans (congrArg (·.drop o.id) (tileDone_job hj)))), facDone_ends s o op w j⟩

end

end Sys2Proof.TileEngine
end

section
/-! SUPPORT. O50: moves of tiles in the matrix engine (06 R191 to R193, 07 R217, R218). -/

namespace Sys2Proof.TileEngine
set_option Elab.async false
open Sys2Proof Machine Claims Laws MemoryEvents SlotEvents TileStart

/-! ## Moves (06 R191 to R193, 07 R217, R218) -/

@[simp] theorem consumedBy_core (s : State) (bank bad : Bool) : (s.consumedBy bank bad).core = s.core := by
  obtain ⟨q, q', h⟩ := consumedBy_frame s bank bad
  rw [h]

@[simp] theorem engineClaims_mem (s : State) (rs : List (Nat × Nat)) (ps : List Part) : (s.engineClaims rs ps).mem = s.mem := rfl

/-- What an operation read does not change how it ends. -/
theorem tileEnds_consumedBy {s u : State} {o : Out} {takes sets : List Nat} {bank bad : Bool} (h : TileEnds s (u.drop o.id) o takes sets) :
    TileEnds s ((u.consumedBy bank bad).drop o.id) o takes sets := by
  obtain ⟨q, q', hq⟩ := consumedBy_frame u bank bad
  rw [hq]
  exact h

/-- A row of a tile holds at least one byte, or the nibble of one. -/
theorem zeroes_ne_nil {bits : Nat} (h : bits ≠ 0) (b : Byte) : List.replicate (bits / 8) 0 ++ (if bits % 8 ≠ 0 then [b] else []) ≠ [] := by
  by_cases hodd : bits % 8 = 0
  · have : bits / 8 ≠ 0 := by omega
    simpa [hodd] using this
  · simp [hodd]

section
variable {s : State} {o : Out} {op : Slotted} {w : Tiling}

/-- An operation without steps completes in its first event. -/
theorem tile_completes (hev : s.eventOut = some o) (hw : o.work = .tile op w) (hle : op.tileSteps w ≤ w.step) {u : State}
    (hu : s.tileDone o op w = u) : exec .tileOperationCompletion s = .next (u.drop o.id) := by
  rw [go_of_tile hev hw, tileGo_done hle, hu]

/-- `mzero` clears a row in each step. -/
theorem zeroStep_goes (ho : o ∈ s.outs) (hw : o.work = .tile op w) (m : BitVec 3) :
    let d := op.iss.rm m
    let bits := dCols d * dBits d
    let last := crownThrough op.iss.cbmap s.core.phys (rowElem d w.step (dCols d - 1)).1
    let r := (s.reader o.bank op (if bits % 8 ≠ 0 then [(last, 1)] else [])).2.1
    bits ≠ 0 → Forms (s.zeroStep o op w m) o op (s.now + 32) (rowParts op.iss.cbmap s.core.phys d w.step
        (List.replicate (bits / 8) 0 ++ if bits % 8 ≠ 0 then [r.mem.byte last &&& 0xF0] else [])) ∧
      GoesOn (s.zeroStep o op w m) o op (if w.step + 1 = dRows d then s.now + 32 else s.coreAfter 1) { w with step := w.step + 1 } := by
  intro d bits last r hbits
  have hne := rowParts_ne_nil op.iss.cbmap s.core.phys d w.step (zeroes_ne_nil hbits (r.mem.byte last &&& 0xF0))
  exact ((formed_mWrite (by rw [engineClaims_outs, reader_outs]) o op _ hne).of_outs (consumedBy_outs ..)).tileGoes ho hw _ _

/-- The state once `mbld` has read its tile and, while no loss of planes came between, loaded its plane. -/
def planeRead (s : State) (bank : Bool) (op : Slotted) (b : BitVec 3) (live : Bool) : State :=
  let d := op.iss.rm b
  let depth := chunkDepth (dFmt d) (dFmt d)
  let r := s.reader bank op (planeRanges op.iss.cbmap s.core.phys (bRole op.iss b depth) depth 0)
  let p : Plane := { desc := planeTag d, depth := depth, codes := r.2.1.planeRows d depth 0 }
  let others := r.1.core.planes.filter fun q => !(q.desc == p.desc && q.depth == p.depth)
  { r.1 with core := { r.1.core with planes := if live then p :: keepPlanes r.1.fresh others else r.1.core.planes }, fresh := r.1.fresh + 1 }

theorem mbldDone_eq (s : State) (bank : Bool) (op : Slotted) (b : BitVec 3) (live : Bool) :
    let takes := feTakes s op (bRole op.iss b (chunkDepth (dFmt (op.iss.rm b)) (dFmt (op.iss.rm b))))
    ∃ bad, s.mbldDone bank op b live = ((planeRead s bank op b live).feDone takes []).consumedBy bank bad :=
  ⟨_, rfl⟩

theorem planeRead_keeps (hclean : Clean s) (b : BitVec 3) (live : Bool) : (planeRead s o.bank op b live).c = s.c ∧
    (planeRead s o.bank op b live).outs = s.outs ∧ (planeRead s o.bank op b live).mem = s.mem := by
  obtain ⟨hread, -, -⟩ := reader_clean hclean o.bank op (planeRanges op.iss.cbmap s.core.phys
    (bRole op.iss b (chunkDepth (dFmt (op.iss.rm b)) (dFmt (op.iss.rm b)))) (chunkDepth (dFmt (op.iss.rm b)) (dFmt (op.iss.rm b))) 0)
  have hmem := congrArg State.mem hread
  exact ⟨rfl, rfl, hmem⟩

/-- `mbld` loads its plane in its one event. -/
theorem mbldDone_loads (hclean : Clean s) (b : BitVec 3) (live : Bool) :
    let d := op.iss.rm b
    let depth := chunkDepth (dFmt d) (dFmt d)
    let r := (s.reader o.bank op (planeRanges op.iss.cbmap s.core.phys (bRole op.iss b depth) depth 0)).2.1
    let t := (s.mbldDone o.bank op b live).drop o.id
    t.c = s.c ∧ TileEnds s t o (feTakes s op (bRole op.iss b depth)) [] ∧ (live = false → t.core.planes = s.core.planes) ∧
      (live = true → ∃ x l, t.core.planes = x :: l ∧ x.desc = putField d 84 8 0 ∧ x.depth = depth ∧
        x.codes = (List.range depth).map fun k => (List.range (dCols d)).map fun n => if k < dRows d then r.code d (colElem d k n) else 0) := by
  obtain ⟨bad, hdone⟩ := mbldDone_eq s o.bank op b live
  obtain ⟨hc, houts, hmem⟩ := planeRead_keeps (o := o) (op := op) hclean b live
  dsimp only
  rw [hdone, drop_c, drop_core, consumedBy_c, consumedBy_core, feDone_c, feDone_core]
  refine ⟨hc, tileEnds_consumedBy (tileEnds_feDone houts hmem o _ _), fun hl => ?_, fun hl => ?_⟩
  · subst hl
    rfl
  · subst hl
    refine ⟨_, _, rfl, rfl, rfl, ?_⟩
    simp only [Reader.planeRows, Nat.zero_mul, Nat.zero_add]

/-- A write of every bit leaves nothing of the old value. -/
theorem blendBits_allOnes {n : Nat} (new old : BitVec n) : blendBits (BitVec.allOnes n) new old = new := by
  simp only [blendBits, BitVec.and_allOnes, BitVec.not_allOnes, BitVec.and_zero, BitVec.or_zero]

theorem landFinal_keeps (s : State) (o : Out) (x : RegWrite) : (s.landFinal o x).outs = s.outs ∧ (s.landFinal o x).mem = s.mem ∧
    (o.bank = s.core.bank → (s.landFinal o x).c = x.apply s.c) := by
  obtain ⟨q, oq, u, h⟩ := settleSeq_frame (s.settle o x.apply) o fun q => q.found o.seq s.now x
  unfold State.landFinal
  rw [h]
  exact ⟨settle_outs .., settle_mem .., fun hb => settle_c hb _⟩

/-- `mdld` writes its register in its one event. -/
theorem mdldDone_loads (hclean : Clean s) (hb : o.bank = s.core.bank) (m : BitVec 3) (a : BitVec 15) :
    let at0 := crownThrough op.iss.cbmap s.core.phys (mdAddr a op.ext)
    TileEnds s ((s.mdldDone o op m a).drop o.id) o [] [] ∧ (s.mdldDone o op m a).c =
      s.c.wm m (BitVec.ofNat 128 (bytesNat ((s.reader o.bank op [(at0, 16)]).2.1.mem.bytes at0 16))) := by
  intro at0
  have hmem : (s.reader o.bank op [(at0, 16)]).1.mem = s.mem := by rw [(reader_clean hclean o.bank op [(at0, 16)]).1]
  have hread := landFinal_keeps ((s.reader o.bank op [(at0, 16)]).1.engineClaims [(at0, 16)] []) o
    (.m m (BitVec.allOnes 128) (BitVec.ofNat 128 (bytesNat ((s.reader o.bank op [(at0, 16)]).2.1.mem.bytes at0 16))))
  unfold State.mdldDone
  dsimp only
  generalize State.landFinal _ o _ = u at hread
  obtain ⟨houts, hmem', hc⟩ := hread
  refine ⟨tileEnds_consumedBy (tileEnds_drop ?_ ?_ o), ?_⟩
  · rw [houts, engineClaims_outs, reader_outs]
  · rw [hmem', engineClaims_mem, hmem]
  · have hbank := ((steady_reader s o.bank op [(at0, 16)]).trans (steady_engineClaims _ [(at0, 16)] [])).bank
    rw [consumedBy_c, hc (hb.trans hbank.symm), engineClaims_c, reader_c]
    simp only [RegWrite.apply, blendBits_allOnes]

/-- The moves in the engine: each makes its rows, if it has any, and completes. -/
theorem moves_run (hev : s.eventOut = some o) (hw : o.work = .tile op w) : MovesRun s o op w := by
  have ho := mem_of_eventOut hev
  unfold MovesRun
  dsimp only
  refine ⟨fun m hi => ?_, fun b hi hclean => ?_, fun m a hi => ?_, fun m a hi hclean hb => ?_, fun n x d hi hb => ?_, fun x hx => ?_⟩
  · have hp : productOf op.instr = none := by rw [hi]; rfl
    have hj : facJob op = none := by simp only [facJob, hi]
    have hsteps : op.tileSteps w = dRows (op.iss.rm m) := by simp only [Slotted.tileSteps, hi, productOf, hj]
    refine ⟨fun hlt hbits => ?_, fun hle => ?_⟩
    · obtain ⟨hforms, hgoes⟩ := zeroStep_goes ho hw m hbits
      have htile : s.tileGo o op w = s.zeroStep o op w m := by
        rw [tileGo_step (hsteps ▸ hlt) (.inr (atBoundary_move hp hj w))]
        simp only [State.tileStep, productOf, hj, mergeOf, hi]
      exact ⟨_, (go_of_tile hev hw).trans (congrArg _ htile), hforms, hgoes⟩
    · refine ⟨_, tile_completes hev hw (hsteps ▸ hle) (u := s.feDone [] ((zeroRole op.iss m).sets op.iss.cbmap s.core.phys)) ?_, rfl,
        tileEnds_feDone rfl rfl o _ _⟩
      simp only [State.tileDone, hj, hi, productOf, mergeOf, permOf]
  · have hj : facJob op = none := by simp only [facJob, hi]
    obtain ⟨hc, hends, hlost, hlive⟩ := mbldDone_loads (o := o) (op := op) hclean b (w.started.all fun n => decide (s.core.planesLost ≤ n))
    refine ⟨_, tile_completes hev hw ?_ rfl, ?_, ?_, fun hn => ?_, fun n hn hle => ?_⟩
    · simp only [Slotted.tileSteps, hi, productOf, hj, Nat.zero_le]
    all_goals simp only [State.tileDone, hj, hi, productOf, mergeOf, permOf]
    · exact hc
    · exact hends
    · obtain ⟨n, hn, hlt⟩ := hn
      exact hlost (by simpa [hn] using hlt)
    · exact hlive (by simpa [hn] using hle)
  · have hj : facJob op = none := by simp only [facJob, hi]
    refine ⟨_, tile_completes hev hw (u := s) ?_ ?_, rfl, tileEnds_drop rfl rfl o⟩
    · simp only [Slotted.tileSteps, hi, productOf, hj, Nat.zero_le]
    · simp only [State.tileDone, hj, hi, productOf, mergeOf, permOf]
  · have hj : facJob op = none := by simp only [facJob, hi]
    obtain ⟨hends, hc⟩ := mdldDone_loads (op := op) hclean hb m a
    refine ⟨_, tile_completes hev hw (u := s.mdldDone o op m a) ?_ ?_, hends, (drop_c ..).trans hc⟩
    · simp only [Slotted.tileSteps, hi, productOf, hj, Nat.zero_le]
    · simp only [State.tileDone, hj, hi, productOf, mergeOf, permOf]
  · have hj : facJob op = none := by simp only [facJob, hi]
    refine ⟨_, tile_completes hev hw (u := s.settle o (·.mpivDone (n.toNat + 1) (w.pv.getD (s.c.rpv x)) d)) ?_ ?_,
      tileEnds_drop (settle_outs ..) (settle_mem ..) o, settle_c hb _⟩
    · simp only [Slotted.tileSteps, hi, productOf, hj, Nat.zero_le]
    · simp only [State.tileDone, hj, hi, productOf, mergeOf, permOf, State.bankCtx, if_pos hb]
  · obtain ⟨hp, hj, hm⟩ := kinds_of_perm hx
    refine ⟨_, tile_completes hev hw (u := s.permDone op x) ?_ ?_, rfl, tileEnds_feDone rfl rfl o _ _⟩
    · rw [tileSteps_perm hx]
      exact Nat.zero_le _
    · simp only [State.tileDone, hp, hj, hm, hx]

end

end Sys2Proof.TileEngine
end

section
/-! SUPPORT. O50: how a transfer begins, writes its bytes and lands (09 R265, R266, R271, R288 to R291). -/

namespace Sys2Proof.TransferCourse
set_option Elab.async false
open Sys2Proof Machine Claims Laws MemoryEvents SlotEvents TileStart TileEngine

/-! ## The beginning of a transfer (09 R266, R291, R295, R300) -/

theorem burst_of_moves {i : Instr} {w : Work} {b : Burst} (h : Moves i w b) : w.burst = some b := by
  obtain ⟨-, _, _, _, _, _, _, _, _, _, _, _, _, _, rfl, -⟩ | ⟨-, _, _, _, _, _, rfl⟩ | ⟨-, _, _, _, _, _, _, _, _, _, _, rfl, -⟩ := h
  all_goals rfl

theorem burst_withStage {w : Work} {b : Burst} (h : w.burst = some b) (g : Stage) : (w.withStage g).burst = some { b with stage := g } := by
  cases w
  case copy | refill | shift =>
    cases h
    rfl
  all_goals exact absurd h (by simp [Work.burst])

@[simp] theorem withStage_withStage (w : Work) (g g' : Stage) : (w.withStage g).withStage g' = w.withStage g' := by
  cases w <;> rfl

/-- A transfer moves from a cycle that is not before `lo` on, and is due not before `hi`. -/
def MovesFrom (o : Out) (lo hi : Nat) (g : Out) : Prop := ∃ start, g.work = o.work.withStage (.moving start) ∧ lo ≤ start ∧ hi ≤ g.due

/-- A pause only delays a transfer. -/
theorem MovesFrom.split {o g : Out} {b : Burst} {lo hi : Nat} (hb : o.work.burst = some b) (h : MovesFrom o lo hi g) (t : Nat) :
    MovesFrom o lo hi (g.split t) := by
  obtain ⟨start, hwork, hlo, hhi⟩ := h
  unfold Out.split
  rw [hwork, burst_withStage hb]
  dsimp only [Option.map_some]
  split_ifs with hdue
  · exact ⟨start, hwork, hlo, hhi⟩
  · refine ⟨max start (t + 97), by rw [withStage_withStage], ?_, ?_⟩
    · omega
    · dsimp only
      omega

theorem MovesFrom.foldl {α : Type} {o g : Out} {b : Burst} {lo hi : Nat} (hb : o.work.burst = some b) (p : α → Bool) (t : α → Nat)
    (l : List α) (h : MovesFrom o lo hi g) : MovesFrom o lo hi (l.foldl (fun g x => if p x then g.split (t x) else g) g) := by
  induction l generalizing g with
  | nil => exact h
  | cons x l ih =>
    rw [List.foldl_cons]
    refine ih ?_
    split
    · exact h.split hb _
    · exact h

/-- A transfer begins after its lead, and where no tower is blocked it takes its own time. -/
theorem begun_moves {s : State} {o : Out} {b : Burst} (hb : o.work.burst = some b) :
    MovesFrom o (s.now + b.lead) (s.now + b.lead + b.time s.hub.power.clock) (s.begun o) ∧
      (s.core.blocked = [] → s.hub.farBlocked = [] → s.begun o =
        { o with due := s.now + b.lead + b.time s.hub.power.clock, work := o.work.withStage (.moving (s.now + b.lead)) }) := by
  unfold State.begun
  rw [hb]
  refine ⟨.foldl hb _ _ _ (.foldl hb _ _ _ ⟨s.now + b.lead, rfl, le_rfl, le_rfl⟩), fun hnear hfar => ?_⟩
  rw [hnear, hfar]
  rfl

theorem transfer_begins {s : State} {o : Out} (hev : s.eventOut = some o) {i : Instr} {b : Burst} (h : Moves i o.work b) (hq : b.stage = .queued) :
    ∃ t start due, exec i s = .next t ∧ s.now + b.lead ≤ start ∧ s.now + b.lead + b.time s.hub.power.clock ≤ due ∧
        (s.core.blocked = [] → s.hub.farBlocked = [] → start = s.now + b.lead ∧ due = start + b.time s.hub.power.clock) ∧
        t = { s with outs := s.outs.map fun x => if x.id == o.id then { x with due := due, work := o.work.withStage (.moving start) } else x } := by
  have hexec : exec i s = .next (s.beginData o) := by
    obtain ⟨rfl, _, _, _, _, _, _, _, _, _, _, _, _, _, hw, -⟩ | ⟨rfl, _, _, _, _, _, hw⟩ | ⟨rfl, _, _, _, _, _, _, _, _, _, _, hw, -⟩ := h
    · simp only [exec, execCopyCompletion, hev, hw, hq]
    · simp only [exec, execRefillCompletion, hev, hw, hq]
    · simp only [exec, execShiftCompletion, hev, hw, hq]
  obtain ⟨⟨start, hwork, hlo, hhi⟩, hfree⟩ := begun_moves (s := s) (burst_of_moves h)
  by_cases hempty : s.core.blocked = [] ∧ s.hub.farBlocked = []
  · refine ⟨_, s.now + b.lead, _, hexec, le_rfl, le_rfl, fun _ _ => ⟨rfl, rfl⟩, ?_⟩
    rw [State.beginData, hfree hempty.1 hempty.2]
    rfl
  · refine ⟨_, start, (s.begun o).due, hexec, hlo, hhi, fun hnear hfar => absurd ⟨hnear, hfar⟩ hempty, ?_⟩
    rw [State.beginData, hwork]
    rfl

/-! ## The end of a transfer (09 R265, R271, R288, R291) -/

/-- The operation is no longer in hand, and the pieces are in memory. -/
def Lands (s : State) (o : Out) (ps : List Part) (t : State) : Prop :=
  t.outs = s.outs.filter (·.id != o.id) ∧ ∀ x, t.mem.byte x = (pieceByte ps x).getD (s.mem.byte x)

/-- Pieces that need no other homes are in memory once they are final. -/
theorem landed_bytes {s : State} {o : Out} {ps : List Part} (hs : Sound s) (hps : Within ps) (hspread : s.spread ps = ps) (map st : DWord) :
    (s.landed o ps map [] st).outs = s.outs ∧ ∀ x, (s.landed o ps map [] st).mem.byte x = (pieceByte ps x).getD (s.mem.byte x) := by
  obtain ⟨-, -, -, hbyte⟩ := puts_plain (plain_of_sound hs) s.fresh false hps
  have hcommit : s.deposit o.bank map ps = { s.portWrite ps with mem := (s.mem.puts s.fresh false ps).1, fresh := s.fresh + 1 } := by
    unfold State.deposit
    dsimp only
    rw [hspread]
    exact commit_sound (s := s.portWrite ps) hs hps o.bank map false
  unfold State.landed State.status
  rw [settle_outs, settle_mem, hcommit]
  exact ⟨rfl, hbyte⟩

theorem leaveEngine_frame (s : State) (o : Out) : ∃ k, s.leaveEngine o = { s with core := k, outs := s.outs.filter (·.id != o.id) } := by
  unfold State.leaveEngine
  split
  · split
    · exact ⟨_, rfl⟩
    · exact ⟨_, rfl⟩
  · split
    · exact ⟨_, rfl⟩
    · exact ⟨_, rfl⟩

/-- An operation that leaves its engine with its bytes in memory has landed. -/
theorem lands_leaveEngine {s u : State} {o : Out} {ps : List Part}
    (h : u.outs = s.outs ∧ ∀ x, u.mem.byte x = (pieceByte ps x).getD (s.mem.byte x)) : Lands s o ps (u.leaveEngine o) := by
  obtain ⟨k, hk⟩ := leaveEngine_frame u o
  obtain ⟨houts, hbyte⟩ := h
  rw [hk]
  exact ⟨by rw [houts], hbyte⟩

theorem settleRaised_frame (s : State) (o : Out) (fpcr info : DWord) (r : Raised) :
    (s.settleRaised o fpcr info r).outs = s.outs ∧ (s.settleRaised o fpcr info r).mem = s.mem := by
  unfold State.settleRaised
  dsimp only
  split
  · obtain ⟨q, oq, u, h⟩ := settleSeq_frame (s.settle o fun c => (c.orFlags r.fl).addOlc r.lost) o (·.pendOlf info)
    rw [h]
    exact ⟨settle_outs .., settle_mem ..⟩
  · exact ⟨settle_outs .., settle_mem ..⟩

/-- A copy without a barrier completes with its bytes. -/
theorem copyDone_lands {s : State} {o : Out} {op : Slotted} {d h m r a : BitVec 4} {fs fw ft bo : BitVec 1}
    (hi : op.instr = .copy d h m r a fs fw ft bo) (hbo : bo = 0) (dm sm : SideMap) (pair : BitVec 1024) {ps : List Part} (hs : Sound s)
    (hps : Within ps) (hspread : s.spread ps = ps) (map : DWord) (x : Raised) (st : DWord) :
    Lands s o ps (s.copyDone o op dm sm pair ps map [] x st) := by
  obtain ⟨houts, hbyte⟩ := landed_bytes (o := o) hs hps hspread map st
  subst hbo
  have hno : ¬(0 : BitVec 1) = 1 := by decide
  simp only [State.copyDone, hi, hno, if_false]
  generalize s.landed o ps map [] st = u at houts hbyte
  refine lands_leaveEngine ?_
  have hraised := settleRaised_frame u o op.iss.fpcr
    (olfInfo 1 (if (copySides op pair h m).1.rg.cf then some ((copySides op pair h m).1.rg.strip op.iss (copySides op pair h m).1.h) else none)) x
  generalize u.settleRaised o op.iss.fpcr _ x = v at hraised
  obtain ⟨houts', hmem'⟩ := hraised
  have hdone (takes sets : List Nat) (p : Prop) [Decidable p] :
      (if p then (v.feDone takes sets).sampleAll 8 0 else v.feDone takes sets).outs = s.outs ∧
      ∀ y, (if p then (v.feDone takes sets).sampleAll 8 0 else v.feDone takes sets).mem.byte y = (pieceByte ps y).getD (s.mem.byte y) := by
    have hbytes (y : Nat) : (v.feDone takes sets).mem.byte y = (pieceByte ps y).getD (s.mem.byte y) := by rw [feDone_byte, hmem', hbyte]
    split
    · exact ⟨houts'.trans houts, hbytes⟩
    · exact ⟨houts'.trans houts, hbytes⟩
  exact hdone _ _ _

theorem transfer_lands {s : State} {o : Out} (hev : s.eventOut = some o) {i : Instr} {b : Burst} (h : Moves i o.work b) {ps : List Part}
    {map : DWord} {fl lost : Nat} {st : DWord} (hl : b.stage = .landing ps map [] fl lost st) (hs : Sound s)
    (hps : Within ps) (hspread : s.spread ps = ps) (hplain : PlainCopy o.work) : ∃ t, exec i s = .next t ∧ Lands s o ps t := by
  obtain ⟨rfl, op, dm, sm, pair, _, _, _, _, _, _, _, _, _, hw, hi⟩ | ⟨rfl, _, _, _, _, _, hw⟩ | ⟨rfl, _, dropped, _, _, _, _, _, _, _, _, hw, -⟩ := h
  · refine ⟨s.copyDone o op dm sm pair ps map [] { fl := fl, lost := lost } st, ?_,
      copyDone_lands hi (hplain _ _ _ _ _ _ _ _ _ _ _ _ _ _ hw hi) dm sm pair hs hps hspread map _ st⟩
    simp only [exec, execCopyCompletion, hev, hw, hl]
  · refine ⟨(s.landed o ps map [] st).leaveEngine o, ?_, lands_leaveEngine (landed_bytes hs hps hspread map st)⟩
    simp only [exec, execRefillCompletion, hev, hw, hl]
  · refine ⟨((s.landed o ps map [] st).settle o (·.addDrops dropped)).leaveEngine o, ?_, lands_leaveEngine ?_⟩
    · simp only [exec, execShiftCompletion, hev, hw, hl]
    · rw [settle_outs, settle_mem]
      exact landed_bytes hs hps hspread map st

/-! ## The data phase of a transfer (09 R271, R275, R288 to R290) -/

theorem append_c (s : State) (v : Via) (cf : DWord) (i value : Nat) : (s.append v cf i value).1.c = s.c := by
  unfold State.append
  dsimp only
  split_ifs
  all_goals rfl

theorem encodeElem_c (s : State) (v : Via) (k : Kind) (cf : Option DWord) (scale : Int) (mode : Mode) (i : Nat) (x : FV) (r : Raised) :
    (s.encodeElem v k cf scale mode i x r).1.c = s.c := by
  unfold State.encodeElem
  dsimp only
  split
  · rfl
  · rfl
  · rfl
  · split
    · rfl
    · split
      · split_ifs
        · exact append_c ..
        · exact append_c ..
      · rfl

/-- Moving elements appends outliers and leaves the registers. -/
theorem moveElems_c (s : State) (id : Nat) (mode : Mode) (d m : Moving) (bad : Nat → Bool) (l : List (Loc × Loc)) (acc : List (Nat × Byte))
    (r : Raised) (ps : List Nat) : (s.moveElems id mode d m bad l acc r ps).1.c = s.c := by
  induction l generalizing s acc r ps with
  | nil => rfl
  | cons x l ih =>
    obtain ⟨ld, ls⟩ := x
    rw [State.moveElems, ih]
    split
    · rfl
    · exact encodeElem_c ..

theorem portFetches_c (l : List Nat) (n : Nat) (s : State) : (l.foldl (fun s a => s.portFetch a n) s).c = s.c := by
  induction l generalizing s with
  | nil => rfl
  | cons a l ih => rw [List.foldl_cons, ih, (steady_portFetch s a n).c]

theorem copyMove_c (s : State) (bank : Bool) (id : Nat) (op : Slotted) (pair : BitVec 1024) (h m : BitVec 4) (dm sm : SideMap) :
    (s.copyMove bank id op pair h m dm sm).1.c = s.c := by
  unfold State.copyMove
  dsimp only
  rw [moveElems_c, portFetches_c]

/-- A transfer whose data phase is over: its pieces are written, and become final after the hold and their round trip. -/
def Written (s u t : State) (o : Out) (ps : List Part) (map : DWord) (poison : List Nat) (fl lost : Nat) (st : DWord) : Prop :=
  t.c = s.c ∧ t.mem = u.mem ∧ t.outs = u.outs.map fun x => if x.id == o.id then
    { x with due := o.due + 32 + u.tripOf ps, work := o.work.withStage (.landing ps map poison fl lost st) } else x

theorem written_written {s u : State} (hc : u.c = s.c) (o : Out) (ps : List Part) (map : DWord) (poison : List Nat) (r : Raised) (st : DWord) :
    Written s u (u.written o ps map poison r st) o ps map poison r.fl r.lost st := ⟨hc, rfl, rfl⟩

section
variable {s : State} {o : Out}

theorem copy_writes (hev : s.eventOut = some o) {op : Slotted} {dm sm : SideMap} {pair : BitVec 1024} {b : Burst} {d h m r a : BitVec 4}
    {fs fw ft bo : BitVec 1} {n : Nat} (hw : o.work = .copy op dm sm pair b) (hi : op.instr = .copy d h m r a fs fw ft bo)
    (hb : b.stage = .moving n) :
    let side := (copySides op pair h m).2
    let globals := if hClass side.h ≤ 2 then [] else
      (List.range side.rg.total).map fun e => (side.globalPlace (side.rg.fmt op.iss side.h) sm e).2.1
    let y := s.copyMove o.bank o.id op pair h m dm sm
    (refusedFallBack globals = true → ∃ t, exec .copyCompletion s = .next t ∧ Written s s t o [] dm.strips [] 0 0 0x200) ∧
    (refusedFallBack globals = false → ∃ t, exec .copyCompletion s = .next t ∧
      Written s y.1 t o (runsOf y.2.1) dm.strips y.2.2.2 y.2.2.1.fl y.2.2.1.lost (if y.2.2.2 = [] then 0 else 0x400)) := by
  have hexec : exec .copyCompletion s = .next (s.copyData o op dm sm pair h m) := by
    simp only [exec, execCopyCompletion, hev, hw, hb, hi]
  intro side globals y
  have hdata : s.copyData o op dm sm pair h m = if refusedFallBack globals then s.written o [] dm.strips [] {} 0x200
    else y.1.written o (runsOf y.2.1) dm.strips y.2.2.2 y.2.2.1 (if y.2.2.2.isEmpty then 0 else 0x400) := rfl
  rw [hexec, hdata]
  refine ⟨fun hrefused => ⟨_, rfl, ?_⟩, fun hrefused => ⟨_, rfl, ?_⟩⟩
  · rw [hrefused, if_pos rfl]
    exact written_written rfl ..
  · rw [hrefused, if_neg Bool.false_ne_true]
    simp only [List.isEmpty_iff]
    exact written_written (copyMove_c ..) ..

theorem refill_writes (hev : s.eventOut = some o) {src len t0 off : Nat} {ranks : BitVec 8} {b : Burst} {n : Nat}
    (hw : o.work = .refill src len t0 off ranks b) (hb : b.stage = .moving n) (hclean : Clean s) :
    ∃ t, exec .refillCompletion s = .next t ∧ Written s s t o (((List.range 8).filter fun k => ranks.getLsbD k).map fun k =>
      { addr := towerAddr (s.core.phys / 8 * 8 + k) (s.towerOn (s.core.phys / 8 * 8 + k) t0) off, bytes := s.mem.bytes src len }) 0 [] 0 0 0 := by
  obtain ⟨hwrong, hpoison, hflaky⟩ := hclean
  have hexec : exec .refillCompletion s =
      .next (({ s with fresh := s.fresh + 1 }.portFetch src len).written o (s.refillParts src len t0 off ranks) 0 [] {} 0) := by
    simp only [exec, execRefillCompletion, hev, hw, hb, checks_clean hwrong hpoison hflaky, refillPoison, List.map_nil,
      List.flatMap_eq_nil_iff.2 fun _ _ => rfl]
  obtain ⟨bc, e, hfetch⟩ := LoneIssue.portFetch_eq { s with fresh := s.fresh + 1 } src len
  rw [hexec, hfetch]
  exact ⟨_, rfl, rfl, rfl, rfl⟩

/-- Reading the cells of a shift changes only what a check of memory changes. -/
theorem shiftParts_c (s : State) (o : Out) (op : Slotted) (r m : BitVec 2) (lands : List Nat) (zeros : Bool) :
    (s.shiftParts o op r m lands zeros).1.c = s.c := by
  unfold State.shiftParts
  exact List.foldlRecOn (motive := fun r : State × List Part × List Nat => r.1.c = s.c) _ _ rfl fun _ hr _ _ => hr

/-- What a step of a fold adds to a list that only grows is in it at the end. -/
theorem mem_of_foldl {α β γ : Type} {f : β → α → β} {P : β → Prop} {parts : β → List γ} {x : γ} {c : α} {l : List α} (hc : c ∈ l)
    (hkeep : ∀ r a, P r → P (f r a)) (hgrow : ∀ r a, P r → parts r ⊆ parts (f r a)) (hadd : ∀ r, P r → x ∈ parts (f r c)) {init : β} (h : P init) :
    x ∈ parts (l.foldl f init) := by
  have hstays (l : List α) : ∀ r, P r → x ∈ parts r → x ∈ parts (l.foldl f r) := by
    induction l with
    | nil => exact fun _ _ hx => hx
    | cons a l ih => exact fun r hr hx => ih _ (hkeep r a hr) (hgrow r a hr hx)
  induction l generalizing init with
  | nil => exact absurd hc List.not_mem_nil
  | cons a l ih =>
    rcases List.mem_cons.1 hc with rfl | hc
    · exact hstays l _ (hkeep init c h) (hadd init h)
    · exact ih hc (hkeep init a h)

/-- In clean memory the bytes of a cell move to the cell that its direction names (Table 9-8). -/
theorem shift_moves_cell {op : Slotted} {r m : BitVec 2} (o : Out) {c : Nat} (hclean : Clean s) (hc : c < 16) (hin : (stepCell c r).2 = false) :
    let src := (shiftRange op false).1
    let dst := (shiftRange op true).1
    { addr := s.towerAt (stepCell c r).1 dst, bytes := (List.range (shiftRange op false).2).map fun i => s.byteFor o (s.towerAt c src + i) } ∈
      (s.shiftParts o op r m [] false).2.1 := by
  obtain ⟨hwrong, hpoison, hflaky⟩ := hclean
  intro src dst
  unfold State.shiftParts
  refine mem_of_foldl (P := fun r : State × List Part × List Nat => ∃ n, r.1 = { s with fresh := n }) (parts := fun r => r.2.1) (List.mem_range.2 hc)
    (fun x a hx => ?_) (fun x a hx => ?_) (fun x hx => ?_) ⟨s.fresh, rfl⟩
  · obtain ⟨n, hn⟩ := hx
    dsimp only
    rw [hn]
    rw [checks_clean hwrong hpoison hflaky]
    exact ⟨_, rfl⟩
  · dsimp only
    rw [List.append_assoc]
    exact List.subset_append_left _ _
  · obtain ⟨n, hn⟩ := hx
    dsimp only
    rw [hn, hin]
    rw [checks_clean hwrong hpoison hflaky]
    exact List.mem_append_left _ (List.mem_append_right _ (List.mem_singleton_self _))

theorem shift_writes (hev : s.eventOut = some o) {op : Slotted} {dropped : Nat} {away : List Nat} {zeros : Bool} {b : Burst} {n : Nat}
    {r m : BitVec 2} {h a d l : BitVec 4} (hw : o.work = .shift op dropped away zeros b) (hi : op.instr = .shift r m h a d l) (hb : b.stage = .moving n) :
    let y := s.shiftParts o op r m away zeros
    ∃ t, exec .shiftCompletion s = .next t ∧ Written s y.1 t o y.2.1 0 y.2.2 0 0 0 := by
  intro y
  have hexec : exec .shiftCompletion s = .next (y.1.written o y.2.1 0 y.2.2 {} 0) := by
    simp only [exec, execShiftCompletion, hev, hw, hb, hi]
    rfl
  exact ⟨_, hexec, written_written (shiftParts_c ..) ..⟩

end

end Sys2Proof.TransferCourse
end

section
/-! SUPPORT. O50: what an atomic engine does with a request (10 R323 to R331). -/

namespace Sys2Proof.AtomicEngines
set_option Elab.async false
open Sys2Proof Machine Claims Laws MemoryEvents SlotEvents TileStart TileEngine

/-! ## A line in its engine (10 R323, R324) -/

/-- A line that leaves its engine changes only lines that caches and engines hold. -/
theorem engineDrop_eq (s : State) (line : Nat) : ∃ b e, s.engineDrop line = { s with hub := { s.hub with bcache := b, engines := e } } := by
  unfold State.engineDrop
  split
  · dsimp only
    split
    · obtain ⟨b, e, h⟩ := cachesOnly_bcTouch { s.hub with engines := s.hub.engines.filter (·.line != line) } line
        (Hub.cachedAt { s.hub with engines := s.hub.engines.filter (·.line != line) } line) _
      rw [h]
      exact ⟨b, e, rfl⟩
    · exact ⟨_, _, rfl⟩
  · exact ⟨_, _, rfl⟩

/-- So does one that an engine takes. -/
theorem engineTake_eq (s : State) (g : Nat) : ∃ b e, s.engineTake g = { s with hub := { s.hub with bcache := b, engines := e } } := by
  unfold State.engineTake
  dsimp only
  split
  · exact ⟨_, _, rfl⟩
  · have hdrop : ∃ b e, (s.engineVictim (g / 64 * 64)).elim s s.engineDrop = { s with hub := { s.hub with bcache := b, engines := e } } := by
      cases s.engineVictim (g / 64 * 64) with
      | none => exact ⟨_, _, rfl⟩
      | some l => exact engineDrop_eq s l
    obtain ⟨b, e, hdrop⟩ := hdrop
    obtain ⟨b', e', hfetch⟩ := LoneIssue.portFetch_eq { s with hub := { s.hub with bcache := b, engines := e } } (g / 64 * 64) 64
    rw [hdrop, hfetch]
    exact ⟨_, _, rfl⟩

/-! ## Times -/

theorem clock_pos (p : Power) : 0 < p.clock := by
  unfold Power.clock
  split_ifs
  · decide
  · omega

/-- Core cycles to come are not over. -/
theorem now_le_coreAfter (s : State) {n : Nat} (hn : 0 < n) : s.now ≤ s.coreAfter n := by
  have hf := clock_pos s.hub.power
  unfold State.coreAfter
  dsimp only
  generalize s.hub.power.clock = f at hf
  split_ifs
  · omega
  · have hfloor : (s.now + 1) * f ≤ (s.now + 1) * f / 700 * 700 + 699 := by omega
    have hle : s.now + 1 ≤ (((s.now + 1) * f / 700 + n) * 700 + f - 1) / f := by
      rw [Nat.le_div_iff_mul_le hf]
      omega
    omega

/-! ## Answers (10 R325, R327) -/

/-- The answer of a request is on its way to its register, and a request that names x0 counts no more. -/
theorem atomReply_answers {s u : State} {o : Out} {i : Instr} {d : BitVec 5} {n : Nat} (houts : u.outs = s.outs)
    (hafter : u.coreAfter 12 = s.coreAfter 12) (hreg : atomReg i = some (d, n)) (info w : DWord) (fl : Fl) :
    u.atomReply o i info false w fl = { u with outs := (u.atomReply o i info false w fl).outs } ∧
      Answers s (u.atomReply o i info false w fl) o d w info (BitVec.ofNat 64 fl) := by
  unfold Answers
  simp only [State.atomReply, hreg]
  rw [← houts, ← hafter]
  by_cases hd : d = 0
  · rw [if_pos hd]
    refine ⟨rfl, ?_⟩
    simp only [State.uncount, State.again, List.map_map]
    refine List.map_congr_left fun x _ => ?_
    by_cases hx : x.id = o.id <;> simp [hx, hd]
  · rw [if_neg hd]
    refine ⟨rfl, List.map_congr_left fun x _ => ?_⟩
    by_cases hx : x.id = o.id
    · have hctr : (if d = 0 then Ctr.none else x.ctr) = x.ctr := if_neg hd
      simp only [hx, beq_self_eq_true, if_true, hctr]
    · simp [hx]

section
variable {s : State} {o : Out} {r : AtomReq}

/-- The operations of Table 10-7. -/
def atomics (ord : BitVec 2) (d : BitVec 5) (h a : BitVec 4) (x : BitVec 5) (z : BitVec 1) : List Instr :=
  [.atmAdd ord d h a x z, .atmMin ord d h a x z, .atmMax ord d h a x z, .atmAnd ord d h a x z, .atmOr ord d h a x z, .atmXor ord d h a x z,
   .atmXchg ord d h a x z, .atmCas ord d h a x z, .atmInc ord d h a x z, .atmFadd ord d h a x z]

theorem atomReg_of_atomics {ord : BitVec 2} {d : BitVec 5} {h a : BitVec 4} {x : BitVec 5} {z : BitVec 1} {i : Instr}
    (hi : i ∈ atomics ord d h a x z) : atomReg i = some (d, if z = 0 then 4 else 8) := by
  simp only [atomics, List.mem_cons, List.not_mem_nil, or_false] at hi
  rcases hi with rfl | rfl | rfl | rfl | rfl | rfl | rfl | rfl | rfl | rfl
  all_goals rfl

/-- The state once an engine has stored the result of a request of n bytes and answered with what the location held. -/
def engineResult (s : State) (o : Out) (r : AtomReq) (n : Nat) : State :=
  let old := bytesNat (s.mem.bytes r.addr n)
  let v := atomNew r.instr n old r.s.toNat r.d.toNat
  (s.engineStore o.bank r.addr n v.1).atomReply o r.instr r.info false (BitVec.ofNat 64 old) v.2

/-- What an engine does with a request of Table 10-7. -/
theorem serveAtom_of_atomics {ord : BitVec 2} {d : BitVec 5} {h a : BitVec 4} {x : BitVec 5} {z : BitVec 1}
    (hi : r.instr ∈ atomics ord d h a x z) (hclean : Clean s) :
    ∃ served, s.serveAtom o r = engineResult { s with fresh := s.fresh + 1, hub := { s.hub with served := served } } o r (if z = 0 then 4 else 8) := by
  obtain ⟨hwrong, hpoison, hflaky⟩ := hclean
  refine ⟨(r.addr / 64, s.now) :: s.hub.served.filter fun x => decide (s.now < x.2 + 8), ?_⟩
  have hreg := atomReg_of_atomics hi
  unfold State.serveAtom
  rw [hreg]
  dsimp only [Option.map_some, Option.getD_some]
  rw [checks_clean hwrong hpoison hflaky]
  simp only [atomics, List.mem_cons, List.not_mem_nil, or_false] at hi
  rcases hi with hi | hi | hi | hi | hi | hi | hi | hi | hi | hi
  all_goals
    rw [hi]
    unfold engineResult
    rw [hi]
    rfl

/-- A result that needs no other home changes memory, and lines that caches and engines hold. -/
theorem engineStore_eq {u : State} (hs : Sound u) (bank : Bool) {g k w : Nat} (hwithin : Within [{ addr := g, bytes := natBytes k w }])
    (hspread : u.spread [{ addr := g, bytes := natBytes k w }] = [{ addr := g, bytes := natBytes k w }]) :
    ∃ b e, u.engineStore bank g k w =
      { u with
        mem := (u.mem.puts u.fresh false [{ addr := g, bytes := natBytes k w }]).1
        fresh := u.fresh + 1
        hub := { u.hub with bcache := b, engines := e } } := by
  obtain ⟨b, e, hport⟩ := cachesOnly_portWrite u [{ addr := g, bytes := natBytes k w }]
  refine ⟨b, e, ?_⟩
  unfold State.engineStore State.deposit
  dsimp only
  rw [hspread, commit_sound (s := u.portWrite [{ addr := g, bytes := natBytes k w }]) hs hwithin, hport]
  rfl

/-- Its bytes are in memory, and the answer is on its way. -/
theorem engineResult_stores {u : State} (hs : Sound u) (houts : u.outs = s.outs) (hafter : u.coreAfter 12 = s.coreAfter 12)
    {d : BitVec 5} {k n : Nat} (hreg : atomReg r.instr = some (d, n)) (hwithin : ∀ v, Within [{ addr := r.addr, bytes := natBytes k v }])
    (hspread : ∀ v, u.spread [{ addr := r.addr, bytes := v }] = [{ addr := r.addr, bytes := v }]) :
    let old := bytesNat (u.mem.bytes r.addr k)
    let v := atomNew r.instr k old r.s.toNat r.d.toNat
    (engineResult u o r k).c = u.c ∧ Answers s (engineResult u o r k) o d (BitVec.ofNat 64 old) r.info (BitVec.ofNat 64 v.2) ∧
      ∀ y, (engineResult u o r k).mem.byte y = (pieceByte [{ addr := r.addr, bytes := natBytes k v.1 }] y).getD (u.mem.byte y) := by
  unfold engineResult
  dsimp only
  generalize bytesNat (u.mem.bytes r.addr k) = old
  generalize atomNew r.instr k old r.s.toNat r.d.toNat = v
  obtain ⟨-, -, -, hbyte⟩ := puts_plain (plain_of_sound hs) u.fresh false (hwithin v.1)
  obtain ⟨b, e, hstore⟩ := engineStore_eq hs o.bank (hwithin v.1) (hspread _)
  rw [hstore]
  generalize (u.mem.puts u.fresh false [{ addr := r.addr, bytes := natBytes k v.1 }]).1 = m at hbyte
  obtain ⟨hframe, hanswers⟩ := atomReply_answers (s := s) (o := o)
    (u := { u with mem := m, fresh := u.fresh + 1, hub := { u.hub with bcache := b, engines := e } }) houts hafter hreg r.info (BitVec.ofNat 64 old) v.2
  refine ⟨?_, hanswers, fun y => ?_⟩
  · rw [hframe]
  · rw [hframe]
    exact hbyte y

/-- A request that its engine executes stores its result and answers with what the location held. -/
theorem engine_serves (hev : s.eventOut = some o) (hw : o.work = .atom r) (hwait : r.waiting = false) (hs : Sound s)
    (hheld : r.phase ≠ 0 ∨ s.hub.engineHolds r.addr = true) (hlock : 2 ≤ r.phase ∨ r.lock = 0) {ord : BitVec 2} {d : BitVec 5} {h a : BitVec 4}
    {x : BitVec 5} {z : BitVec 1} (hi : r.instr ∈ atomics ord d h a x z) {k : Nat} (hk : k = if z = 0 then 4 else 8)
    (hwithin : ∀ v, Within [{ addr := r.addr, bytes := natBytes k v }])
    (hspread : ∀ v, s.spread [{ addr := r.addr, bytes := v }] = [{ addr := r.addr, bytes := v }]) :
    let old := bytesNat (s.mem.bytes r.addr k)
    let v := atomNew r.instr k old r.s.toNat r.d.toNat
    ∃ t, exec .atomicEngineServe s = .next t ∧ t.c = s.c ∧ Answers s t o d (BitVec.ofNat 64 old) r.info (BitVec.ofNat 64 v.2) ∧
      ∀ y, t.mem.byte y = (pieceByte [{ addr := r.addr, bytes := natBytes k v.1 }] y).getD (s.mem.byte y) := by
  subst hk
  obtain ⟨b, e, htake⟩ := engineTake_eq s r.addr
  have hexec : exec .atomicEngineServe s = .next (({ s with hub := { s.hub with bcache := b, engines := e } } : State).serveAtom o r) := by
    have hfetch : ¬(r.phase = 0 ∧ s.hub.engineHolds r.addr = false) := by
      rintro ⟨h0, hno⟩
      rcases hheld with h | h
      · exact h h0
      · exact Bool.false_ne_true (hno.symm.trans h)
    have hgo : ¬(r.phase < 2 ∧ r.lock ≠ 0) := by omega
    simp only [exec, execAtomicEngineServe, hev, hw, hwait, Bool.false_eq_true, if_false, State.serveStep, if_neg hfetch, if_neg hgo, htake]
  obtain ⟨served, hserve⟩ := serveAtom_of_atomics (s := { s with hub := { s.hub with bcache := b, engines := e } }) (o := o) hi hs.2
  refine ⟨_, hexec.trans (congrArg _ hserve), ?_⟩
  exact engineResult_stores (s := s) (u := { s with fresh := s.fresh + 1, hub := { s.hub with bcache := b, engines := e, served := served } })
    hs rfl rfl (atomReg_of_atomics hi) hwithin hspread

/-- A request whose line its engine does not hold fetches it first. -/
theorem engine_fetches (hev : s.eventOut = some o) (hw : o.work = .atom r) (hwait : r.waiting = false) (hphase : r.phase = 0)
    (hno : s.hub.engineHolds r.addr = false) : ∃ t due, exec .atomicEngineServe s = .next t ∧ s.now ≤ due ∧ t = { s with outs := t.outs } ∧
      t.outs = s.outs.map fun x => if x.id == o.id then { x with due := due, work := .atom { r with phase := 1 } } else x := by
  have hexec : exec .atomicEngineServe s = .next (s.again o.id (s.coreAfter (max 1 (globalLatency s.hub s.board r.addr (s.hub.bcHit r.addr))))
      (.atom { r with phase := 1 })) := by
    simp only [exec, execAtomicEngineServe, hev, hw, hwait, Bool.false_eq_true, if_false, State.serveStep, if_pos (And.intro hphase hno)]
  exact ⟨_, _, hexec, now_le_coreAfter s (by omega), rfl, rfl⟩

/-- `bob.wait` answers with the object's phase, or with all ones where the object is invalid. -/
theorem bobWait_answers (hev : s.eventOut = some o) (hw : o.work = .atom r) {d : BitVec 5} {h a : BitVec 4} {x : BitVec 5}
    (hi : r.instr = .bobWait d h a x) : ∃ t, exec .bobWaitAnswer s = .next t ∧ t = { s with outs := t.outs } ∧
      Answers s t o d (if (s.bobAt r.addr).testBit 96 then BitVec.ofNat 64 (s.bobAt r.addr / 2 ^ 64 % 2 ^ 32) else 0xFFFFFFFFFFFFFFFF) r.info 0 := by
  have hreg : atomReg r.instr = some (d, 16) := by rw [hi]; rfl
  obtain ⟨hframe, hanswers⟩ := atomReply_answers (s := s) (o := o) rfl rfl hreg r.info (bobAnswer (s.bobAt r.addr)) 0
  refine ⟨_, ?_, hframe, hanswers⟩
  simp only [exec, execBobWaitAnswer, hev, hw, hi]

end

/-! ## The operations of Table 10-7 on words -/

/-- The rows of Table 10-7 in the engine's numbers. -/
theorem atomNew_of_rows {k old : Nat} (hold : old < 2 ^ (8 * k)) (s w : DWord) {ord : BitVec 2} {d : BitVec 5} {h a : BitVec 4} {x : BitVec 5}
    {z : BitVec 1} {row : Instr × (BitVec (8 * k) → BitVec (8 * k) → BitVec (8 * k) → BitVec (8 * k))} (hrow : row ∈ atomicRows (8 * k) ord d h a x z) :
    row.1 ∈ atomics ord d h a x z ∧
      atomNew row.1 k old s.toNat w.toNat = ((row.2 (BitVec.ofNat (8 * k) old) (s.setWidth (8 * k)) (w.setWidth (8 * k))).toNat, 0) := by
  obtain ⟨v, rfl⟩ : ∃ v : BitVec (8 * k), old = v.toNat := ⟨BitVec.ofNat _ old, (Nat.mod_eq_of_lt hold).symm⟩
  simp only [atomicRows, List.mem_cons, List.not_mem_nil, or_false] at hrow
  rcases hrow with rfl | rfl | rfl | rfl | rfl | rfl | rfl | rfl | rfl
  all_goals
    refine ⟨by simp [atomics], ?_⟩
    simp only [atomNew, ← BitVec.toNat_setWidth, BitVec.ofNat_toNat, BitVec.setWidth_eq]
  · rw [BitVec.toNat_add]
  · simp only [BitVec.slt_iff_toInt_lt, apply_ite BitVec.toNat]
  · simp only [BitVec.slt_iff_toInt_lt, apply_ite BitVec.toNat]
  · rw [BitVec.toNat_and]
  · rw [BitVec.toNat_or]
  · rw [BitVec.toNat_xor]
  · simp only [BitVec.toNat_inj, apply_ite BitVec.toNat]
  · generalize s.setWidth (8 * k) = y
    have hlt := y.isLt
    have hnone : (0 : BitVec (8 * k)).toNat = 0 := by simp
    have hzero : y = 0 ↔ y.toNat = 0 := by rw [← BitVec.toNat_inj, hnone]
    have hone : (v + 1).toNat = (v.toNat + 1) % 2 ^ (8 * k) := by simp [BitVec.toNat_add]
    simp only [hzero, BitVec.le_def, apply_ite BitVec.toNat, hone, hnone]
    split_ifs with h0 hle
    · rfl
    · rfl
    · rw [Nat.mod_eq_of_lt (by omega)]

/-- The engine executes each operation of Table 10-7 as the table gives it, and `atm.fadd` as the sum with its flags. -/
theorem atomics_serve {s : State} {o : Out} (hev : s.eventOut = some o) {r : AtomReq} {ord : BitVec 2} {d : BitVec 5} {h a : BitVec 4} {x : BitVec 5}
    {z : BitVec 1} {n : Nat} (hw : o.work = .atom r) (hwait : r.waiting = false) (hn : n = if z = 0 then 32 else 64) (hs : Sound s)
    (hheld : r.phase ≠ 0 ∨ s.hub.engineHolds r.addr = true) (hlock : 2 ≤ r.phase ∨ r.lock = 0)
    (hwithin : ∀ v, Within [{ addr := r.addr, bytes := natBytes (n / 8) v }])
    (hspread : ∀ v, s.spread [{ addr := r.addr, bytes := v }] = [{ addr := r.addr, bytes := v }]) :
    let old := bytesNat (s.mem.bytes r.addr (n / 8))
    let stored (w y : Nat) : Byte := (pieceByte [{ addr := r.addr, bytes := natBytes (n / 8) w }] y).getD (s.mem.byte y)
    (∀ row ∈ atomicRows n ord d h a x z, r.instr = row.1 → ∃ t, exec .atomicEngineServe s = .next t ∧ t.c = s.c ∧
      Answers s t o d (BitVec.ofNat 64 old) r.info 0 ∧
        ∀ y, t.mem.byte y = stored (row.2 (BitVec.ofNat n old) (r.s.setWidth n) (r.d.setWidth n)).toNat y) ∧
    (r.instr = .atmFadd ord d h a x z → ∃ t v, exec .atomicEngineServe s = .next t ∧ t.c = s.c ∧
      v = fpAdd (if n = 32 then fp32 else fp64) { mode := 0, ftz := false, daz := false } old (r.s.toNat % 2 ^ n) ∧
      Answers s t o d (BitVec.ofNat 64 old) r.info (BitVec.ofNat 64 v.2) ∧ ∀ y, t.mem.byte y = stored v.1 y) := by
  obtain ⟨k, hk, rfl⟩ : ∃ k, (k = if z = 0 then 4 else 8) ∧ n = 8 * k := by
    refine ⟨_, rfl, hn.trans ?_⟩
    split <;> rfl
  simp only [Nat.mul_div_cancel_left k (by omega : 0 < 8)] at hwithin ⊢
  have hserves {i : Instr} (heq : r.instr = i) (hi : i ∈ atomics ord d h a x z) :=
    engine_serves hev hw hwait hs hheld hlock (heq.symm ▸ hi : r.instr ∈ atomics ord d h a x z) hk hwithin hspread
  refine ⟨fun row hrow hi => ?_, fun hi => ?_⟩
  · have hold := bytesNat_lt (s.mem.bytes r.addr k)
    rw [bytes_length, show 256 = 2 ^ 8 from rfl, ← Nat.pow_mul] at hold
    obtain ⟨hmem, hnew⟩ := atomNew_of_rows hold r.s r.d hrow
    have hrun := hserves hi hmem
    dsimp only at hrun
    rw [hi, hnew] at hrun
    exact hrun
  · obtain ⟨t, hexec, hc, hanswers, hbytes⟩ := hserves hi (by simp [atomics])
    refine ⟨t, _, hexec, hc, ?_, hanswers, hbytes⟩
    rw [hi]
    have hsize : (8 * k = 32) = (k = 4) := propext (by omega)
    simp only [atomNew, hsize]

end Sys2Proof.AtomicEngines
end

section
/-! SUPPORT. O50: rounds of reductions (09 R293). -/

namespace Sys2Proof.ReduceRounds
set_option Elab.async false
open Sys2Proof Machine Claims Laws MemoryEvents SlotEvents TileEngine TransferCourse

/-! ## The clasps of the hub -/

theorem clasp_congr {k k' : Hub} (h : k'.clasps = k.clasps) (n : BitVec 20) : k'.clasp n = k.clasp n := by
  unfold Hub.clasp
  rw [h]

/-- A clasp that is set is found under its number, where one was found before. -/
theorem clasp_setClasp {k : Hub} {n : BitVec 20} {c : Clasp} (h : k.clasp n = some c) {c' : Clasp} (hc : c'.number = c.number) :
    (k.setClasp c').clasp n = some c' := by
  have hnum : c.number = n := eq_of_beq (List.find?_some (p := fun x : Clasp => x.number == n) h)
  have hsame : ((·.number == n) ∘ fun x : Clasp => if x.number == c'.number then c' else x) = (·.number == n) := by
    funext x
    by_cases hx : x.number = c'.number
    · simp [hx]
    · simp [hx]
  have hset : (k.setClasp c').clasp n = (k.clasp n).map fun x : Clasp => if x.number == c'.number then c' else x := by
    unfold Hub.clasp Hub.setClasp
    dsimp only
    rw [List.find?_map, hsame]
  rw [hset, h]
  simp [hc]

/-- What leaves the operations in hand and the clasps as they are. -/
def Keeps (s u : State) : Prop := u.outs = s.outs ∧ u.hub.clasps = s.hub.clasps

theorem Keeps.trans {s u v : State} (h : Keeps s u) (g : Keeps u v) : Keeps s v := ⟨g.1.trans h.1, g.2.trans h.2⟩

theorem keeps_post (s : State) (ty code core : Nat) (b a i : DWord) : Keeps s (s.post ty code core b a i) := by
  unfold State.post
  split
  · exact ⟨rfl, rfl⟩
  · next e _ =>
    dsimp only
    split
    · exact ⟨rfl, rfl⟩
    · generalize _ ++ natBytes 24 0 = r
      obtain ⟨m, h, eq, b, n, rfl⟩ := enqueue_eq s e.toNat r
      rw [eq]
      exact ⟨rfl, rfl⟩

theorem keeps_reportDrops (s : State) (bank : Bool) (map : DWord) (l : List Nat) : Keeps s (s.reportDrops bank map l) := by
  induction l generalizing s with
  | nil => exact ⟨rfl, rfl⟩
  | cons g t ih =>
    rw [State.reportDrops]
    refine Keeps.trans ?_ (ih _)
    refine Keeps.trans ?_ (keeps_post ..)
    split_ifs
    all_goals exact ⟨rfl, rfl⟩

theorem keeps_commit (s : State) (bank : Bool) (map : DWord) (tag : Bool) (ps : List Part) : Keeps s (s.commit bank map tag ps) :=
  keeps_reportDrops { s with mem := (s.mem.puts s.fresh tag ps).1, fresh := s.fresh + 1 } bank map (s.mem.puts s.fresh tag ps).2

theorem keeps_settle (s : State) (o : Out) (f : Ctx → Ctx) : Keeps s (s.settle o f) := by
  obtain ⟨c, oc, u, h⟩ := settle_frame s o f
  rw [h]
  exact ⟨rfl, rfl⟩

theorem keeps_settleBank (s : State) (bank : Bool) (f : Ctx → Ctx) (g : Seq → Seq) : Keeps s (s.settleBank bank f g) := by
  unfold State.settleBank State.onBankSeq State.onBank
  split_ifs
  all_goals exact ⟨rfl, rfl⟩

theorem keeps_failMembers (s : State) (n : BitVec 20) (round : Nat) : Keeps s (s.failMembers n round) := by
  have hfail (u : State) (p : Prop) [Decidable p] (b : Bool) (g : Seq → Seq) : Keeps u (if p then u.settleBank b id g else u) := by
    split
    · exact keeps_settleBank ..
    · exact ⟨rfl, rfl⟩
  exact (hfail s _ false _).trans (hfail _ _ true _)

/-! ## The answers of a round (09 R293) -/

/-- An answered member is no longer in hand. -/
theorem roundAnswer_keeps (s : State) (o : Out) (fails : Bool) (z : List (Nat × Nat × Fl)) :
    (s.roundAnswer o fails z).outs = s.outs.filter (·.id != o.id) ∧ (s.roundAnswer o fails z).hub.clasps = s.hub.clasps := by
  have hleaves {u : State} (h : Keeps s u) : (u.leaveEngine o).outs = s.outs.filter (·.id != o.id) ∧ (u.leaveEngine o).hub.clasps = s.hub.clasps := by
    obtain ⟨k, hk⟩ := leaveEngine_frame u o
    rw [hk]
    exact ⟨by rw [h.1], h.2⟩
  unfold State.roundAnswer
  split_ifs
  · exact hleaves ⟨rfl, rfl⟩
  · split
    · split
      · exact hleaves ((keeps_commit ..).trans (keeps_settle ..))
      · exact hleaves ⟨rfl, rfl⟩
    · exact hleaves ⟨rfl, rfl⟩

/-- Once all members of this core are answered, none of them is in hand. -/
theorem roundAnswers_keeps (rs : List (Out × Nat × List Word)) (fails : Bool) (z : List (Nat × Nat × Fl)) (s : State) :
    let t := rs.foldl (fun (s : State) (r : Out × Nat × List Word) => s.roundAnswer r.1 fails z) s
    t.hub.clasps = s.hub.clasps ∧ ∀ x ∈ t.outs, x ∈ s.outs ∧ ∀ r ∈ rs, x.id ≠ r.1.id := by
  induction rs generalizing s with
  | nil => exact ⟨rfl, fun x hx => ⟨hx, fun r hr => absurd hr List.not_mem_nil⟩⟩
  | cons r rs ih =>
    obtain ⟨hclasps, houts⟩ := ih (s.roundAnswer r.1 fails z)
    obtain ⟨houts', hclasps'⟩ := roundAnswer_keeps s r.1 fails z
    refine ⟨hclasps.trans hclasps', fun x hx => ?_⟩
    obtain ⟨hin, hne⟩ := houts x hx
    rw [houts', List.mem_filter] at hin
    refine ⟨hin.1, fun y hy => ?_⟩
    rcases List.mem_cons.1 hy with rfl | hy
    · simpa using hin.2
    · exact hne y hy

/-- The answer to a member is the pair of word lists in crown. -/
theorem roundAnswer_bytes {s : State} {o : Out} {op : Slotted} {vals : List Word} {d h a : BitVec 4} {ro k : BitVec 4}
    (hw : o.work = .reduce op vals) (hi : op.instr = .reduce d h a ro k) (hs : Sound s) (z : List (Nat × Nat × Fl)) {ps : List Part} (hps : Within ps)
    (hparts : ps = [(0, z.map (·.1)), (4 * z.length, z.map (·.2.1))].map (fun x => ({
      addr := crownThrough op.iss.cbmap s.core.phys (hBase (op.iss.rh h) + (op.iss.ra ro).toNat + x.1), bytes := wordBytes x.2 } : Part))) (y : Nat) :
    (s.roundAnswer o false z).mem.byte y = (pieceByte ps y).getD (s.mem.byte y) := by
  obtain ⟨-, -, -, hbyte⟩ := puts_plain (plain_of_sound hs) s.fresh false hps
  have hanswer : ∃ f, s.roundAnswer o false z = ((s.commit o.bank op.iss.cbmap false ps).settle o f).leaveEngine o := by
    refine ⟨fun c => c.orFlags (z.foldl (fun f x => f ||| x.2.2) 0), ?_⟩
    simp only [State.roundAnswer, Bool.false_eq_true, if_false, hw, hi, hparts]
    rfl
  obtain ⟨f, hf⟩ := hanswer
  obtain ⟨k, hk⟩ := leaveEngine_frame ((s.commit o.bank op.iss.cbmap false ps).settle o f) o
  rw [hf, hk, commit_sound hs hps, settle_mem]
  exact hbyte y

/-- A round ends when it is full. -/
theorem reduceRound_full {s : State} {n : BitVec 20} {others : List Contribution} (harg : s.arg = .reduce n others) {c : Clasp}
    (hc : s.hub.clasp n = some c) (hfull : c.roundFull (s.contributions n others) = true) :
    let l := s.contributions n others
    let z := (List.range ((l.head?.map (·.values.length)).getD 0)).map (roundLane (l.foldr insertContribution []))
    let u := (s.reducers n).foldl (fun (s : State) (r : Out × Nat × List Word) => s.roundAnswer r.1 (roundFails l) z)
      { s with hub := s.hub.setClasp { c with round := c.round + 1 } }
    exec .reduceRound s = .next (if roundFails l then u.failMembers n (c.round + 1) else u) := by
  simp only [exec, execReduceRound, harg, hc, hfull, Bool.not_true, Bool.false_eq_true, if_false]

theorem reduceRound_runs {s : State} {n : BitVec 20} {others : List Contribution} (harg : s.arg = .reduce n others) :
    let l := s.contributions n others
    let z := (List.range ((l.head?.map (·.values.length)).getD 0)).map (roundLane (l.foldr insertContribution []))
    (s.hub.clasp n = none → exec .reduceRound s = .next s) ∧
    (∀ c, s.hub.clasp n = some c → c.roundFull l = false → exec .reduceRound s = .next s) ∧
    (∀ c, s.hub.clasp n = some c → c.roundFull l = true → ∃ t, exec .reduceRound s = .next t ∧
      (t.hub.clasp n).map (·.round) = some (c.round + 1) ∧ (∀ r ∈ s.reducers n, ∀ x ∈ t.outs, x.id ≠ r.1.id) ∧
      ∀ o rank vals op d h a ro k ps, s.reducers n = [(o, rank, vals)] → o.work = .reduce op vals → op.instr = .reduce d h a ro k →
        roundFails l = false → Sound s → Within ps →
        ps = [(0, z.map (·.1)), (4 * z.length, z.map (·.2.1))].map (fun x => ({
          addr := crownThrough op.iss.cbmap s.core.phys (hBase (op.iss.rh h) + (op.iss.ra ro).toNat + x.1), bytes := wordBytes x.2 } : Part)) →
        ∀ y, t.mem.byte y = (pieceByte ps y).getD (s.mem.byte y)) := by
  intro l z
  refine ⟨fun hnone => ?_, fun c hc hfull => ?_, fun c hc hfull => ⟨_, reduceRound_full harg hc hfull, ?_⟩⟩
  · simp only [exec, execReduceRound, harg, hnone]
  · simp only [exec, execReduceRound, harg, hc]
    rw [hfull]
    rfl
  · have hanswers := roundAnswers_keeps (s.reducers n) (roundFails l) z { s with hub := s.hub.setClasp { c with round := c.round + 1 } }
    generalize hu : (s.reducers n).foldl (fun (s : State) (r : Out × Nat × List Word) => s.roundAnswer r.1 (roundFails l) z)
      { s with hub := s.hub.setClasp { c with round := c.round + 1 } } = u at hanswers
    obtain ⟨hclasps, houts⟩ := hanswers
    have hkeeps : Keeps u (if roundFails l then u.failMembers n (c.round + 1) else u) := by
      split
      · exact keeps_failMembers ..
      · exact ⟨rfl, rfl⟩
    refine ⟨?_, fun r hr x hx => ?_, fun o rank vals op d h a ro k ps hone hw hi hok hs hps hparts y => ?_⟩
    · rw [clasp_congr (hkeeps.2.trans hclasps), clasp_setClasp hc (c' := { c with round := c.round + 1 }) rfl]
      rfl
    · rw [hkeeps.1] at hx
      exact (houts x hx).2 r hr
    · rw [hok, if_neg Bool.false_ne_true, ← hu, hone, hok]
      exact roundAnswer_bytes (s := { s with hub := s.hub.setClasp { c with round := c.round + 1 } }) hw hi hs z hps hparts y

end Sys2Proof.ReduceRounds
end

section
/-! SUPPORT. O50: the engines together. -/

namespace Sys2Proof.EngineCourse
set_option Elab.async false
open Sys2Proof Machine Claims Laws SlotEvents TileEngine TransferCourse AtomicEngines ReduceRounds

/-- Settles O50: a tile operation makes its steps and completes, a transfer begins, writes and lands, the engine of a line executes its requests,
and a round of reductions answers its members. -/
theorem enginesFinishTheirOperations : Obligations.EnginesFinishTheirOperations := by
  unfold Obligations.EnginesFinishTheirOperations
  refine ⟨fun s o hev => ⟨fun bank op rs a hs ha => reader_byte hs bank op ha,
    fun op w hw => ⟨fun p hp => product_runs hev hw hp, fun m hm => merge_runs hev hw hm, fun j hj => factor_runs hev hw hj, moves_run hev hw⟩,
    fun i b hb => ⟨fun hq => transfer_begins hev hb hq, fun ps map fl lost st hl hs hps hspread hplain => ?_⟩,
    ⟨fun op dm sm pair b n d h m r a fs fw ft bo hw hi hb => copy_writes hev hw hi hb,
      fun src len t0 off ranks b n hw hb hclean => refill_writes hev hw hb hclean,
      fun op dropped away zeros b n r m h a d l hw hi hb => shift_writes hev hw hi hb,
      fun op r m h a d l c hclean hi hc hin => shift_moves_cell o hclean hc hin⟩,
    fun r ord d h a x z n hw hwait hn hs hheld hlock hwithin hspread => atomics_serve hev hw hwait hn hs hheld hlock hwithin hspread,
    fun r hw hwait hphase hno => engine_fetches hev hw hwait hphase hno,
    fun r d h a x hw hi => bobWait_answers hev hw hi⟩,
    fun s n others harg => reduceRound_runs harg⟩
  obtain ⟨t, hexec, houts, hbytes⟩ := transfer_lands hev hb hl hs hps hspread hplain
  refine ⟨t, hexec, fun x hx => ?_, hbytes⟩
  rw [houts, List.mem_filter] at hx
  simpa using hx.2

end Sys2Proof.EngineCourse
end

section
/-! SUPPORT. O59: what keeps memory in its canonical form (08 R235; log 1): the shared operations of the state, traps, and accesses of slot T. -/

namespace Sys2Proof.MemoryForm
open Sys2Proof Machine

/-- Memory is in its canonical form. -/
def Wf (s : State) : Prop := s.mem.wf = true

variable {s : State}

/-! ## Choices, sequences and what is read of memory -/

theorem wf_ite {p : Prop} [Decidable p] {a b : State} (ha : Wf a) (hb : Wf b) : Wf (if p then a else b) := by
  split
  · exact ha
  · exact hb

theorem wf_elim {α : Type} (o : Option α) {f : α → State} (h : Wf s) (hf : ∀ x, Wf (f x)) : Wf (o.elim s f) := by
  cases o
  · exact h
  · exact hf _

theorem wf_hub (k : Hub) (h : Wf s) : Wf { s with hub := k } := h

theorem wf_core (c : Core) (h : Wf s) : Wf { s with core := c } := h

theorem wf_ctx (c : Ctx) (h : Wf s) : Wf { s with c := c } := h

theorem wf_launch (path : Path) (k : Ctr) (due : Nat) (p : Option Nat) (w : Work) (h : Wf s) : Wf (s.launch path k due p w) := h

theorem wf_foldl {α : Type} {f : State → α → State} (hf : ∀ s x, Wf s → Wf (f s x)) (l : List α) (h : Wf s) : Wf (l.foldl f s) := by
  induction l generalizing s with
  | nil => exact h
  | cons x l ih => exact ih (hf _ _ h)

/-- The same for a fold that gathers something besides. -/
theorem wf_foldl_fst {α β : Type} {f : State × β → α → State × β} (hf : ∀ r x, Wf r.1 → Wf (f r x).1) (l : List α) (b : β) (h : Wf s) :
    Wf (l.foldl f (s, b)).1 := by
  have gen : ∀ r : State × β, Wf r.1 → Wf (l.foldl f r).1 := by
    induction l with
    | nil => exact fun _ h => h
    | cons x l ih => exact fun r h => ih _ (hf r x h)
  exact gen (s, b) h

theorem wf_of_cells {t : State} (e : t.mem.cells = s.mem.cells) (h : Wf s) : Wf t := (congrArg cellsWf e).trans h

/-- A fold over memory that leaves the cells alone. -/
theorem foldl_cells {α : Type} {f : Mem → α → Mem} (hf : ∀ m x, (f m x).cells = m.cells) (l : List α) (m : Mem) :
    (l.foldl f m).cells = m.cells := by
  induction l generalizing m with
  | nil => rfl
  | cons x l ih => exact (ih _).trans (hf m x)

/-- ECC corrects check bits and never a stored byte. -/
theorem wf_checks (n : Nat) (gs : List Nat) (h : Wf s) : (s.mem.checks n gs).1.wf = true := (congrArg cellsWf (s.mem.checks_cells n gs)).trans h

theorem wf_eccRead (path : Path) (a n : Nat) (h : Wf s) : Wf (s.eccRead path a n).1 := wf_of_cells (s.eccRead_cells path a n) h

/-! ## Stores of the machine, and records -/

theorem wf_poke (a : Nat) (bs : List Byte) (h : Wf s) : Wf (s.poke a bs) := s.wf_poke a bs h

theorem wf_setTail (n v : Nat) (h : Wf s) : Wf (s.setTail n v) := wf_poke _ _ h

theorem wf_enqueue (n : Nat) (bs : List Byte) (h : Wf s) : Wf (s.enqueue n bs) := wf_setTail _ _ (wf_poke _ _ h)

theorem wf_post (ty code core : Nat) (bead addr info : DWord) (h : Wf s) : Wf (s.post ty code core bead addr info) :=
  s.wf_post ty code core bead addr info h

theorem wf_store (bank : Bool) (map : DWord) (tag : Bool) (ps : List Part) (h : Wf s) : Wf (s.commit bank map tag ps) :=
  s.wf_commit bank map tag ps h

theorem wf_scrub (lo n : Nat) (h : Wf s) : Wf (s.scrub lo n) := s.wf_scrub lo n h

/-! ## Ports of memory -/

theorem wf_portRead (g n : Nat) (c : Bool) (h : Wf s) : Wf (s.portRead g n c) := wf_ite h h

theorem wf_portFetch (g n : Nat) (h : Wf s) : Wf (s.portFetch g n) := wf_ite (wf_portRead g n _ h) h

/-! ## Registers of a bank -/

theorem wf_wx (r : BitVec 5) (w : DWord) (h : Wf s) : Wf (s.wx r w) := h

theorem wf_wk (k : BitVec 3) (b : Bool) (h : Wf s) : Wf (s.wk k b) := h

theorem wf_onBank (b : Bool) (f : Ctx → Ctx) (h : Wf s) : Wf (s.onBank b f) := wf_ite h h

theorem wf_onBankSeq (b : Bool) (f : Seq → Seq) (h : Wf s) : Wf (s.onBankSeq b f) := wf_ite h h

theorem wf_settle (o : Out) (f : Ctx → Ctx) (h : Wf s) : Wf (s.settle o f) := wf_onBank o.bank f h

theorem wf_settleSeq (o : Out) (f : Seq → Seq) (h : Wf s) : Wf (s.settleSeq o f) := wf_onBankSeq o.bank f h

theorem wf_settleBank (b : Bool) (f : Ctx → Ctx) (g : Seq → Seq) (h : Wf s) : Wf (s.settleBank b f g) :=
  wf_onBankSeq b g (wf_onBank b f h)

theorem wf_land (b : Bool) (n : Nat) (w : RegWrite) (h : Wf s) : Wf (s.land b n w) := wf_onBankSeq b _ (wf_onBank b _ h)

theorem wf_landFinal (o : Out) (w : RegWrite) (h : Wf s) : Wf (s.landFinal o w) := wf_settleSeq o _ (wf_settle o _ h)

theorem wf_finishRaised (b : Bool) (fpcr info : DWord) (r : Raised) (h : Wf s) : Wf (s.finishRaised b fpcr info r) :=
  wf_ite (wf_onBankSeq b _ (wf_onBank b _ h)) (wf_onBank b _ h)

theorem wf_settleRaised (o : Out) (fpcr info : DWord) (r : Raised) (h : Wf s) : Wf (s.settleRaised o fpcr info r) :=
  wf_ite (wf_settleSeq o _ (wf_settle o _ h)) (wf_settle o _ h)

theorem wf_swr (n : Nat) (w : DWord) (h : Wf s) : Wf (s.swr n w) := by
  unfold State.swr
  repeat refine wf_ite h ?_
  refine wf_ite (by split <;> exact h) (wf_ite ?_ (wf_ite (by split <;> exact h) h))
  split
  · exact wf_ite h h
  · exact h

/-! ## Counts -/

theorem wf_countStall (i : Nat) (h : Wf s) : Wf (s.countStall i) := wf_ite h h

theorem wf_countStall_if {p : Prop} [Decidable p] (i : Nat) (h : Wf s) : Wf (if p then s.countStall i else s) := wf_ite (wf_countStall i h) h

theorem wf_countStalls (h : Wf s) : Wf s.countStalls :=
  wf_foldl (fun _ _ h => wf_countStall _ h) _
    (wf_countStall_if _ (wf_countStall_if _ (wf_countStall_if _ (wf_countStall_if _ h))))

/-! ## Traps -/

theorem wf_noticeOwn (ty code : Nat) (a i : DWord) (h : Wf s) : Wf (s.noticeOwn ty code a i) := h

theorem wf_enterTrap (t : TrapRec) (h : Wf s) : Wf (s.enterTrap t) := h

theorem wf_takeTrap (t : TrapRec) (h : Wf s) : Wf (s.takeTrap t) := by
  unfold State.takeTrap
  split
  · exact wf_post _ _ _ _ _ _ h
  · exact h

theorem wf_raiseRec (t : TrapRec) (h : Wf s) : Wf (s.raiseRec t) := wf_ite (wf_takeTrap _ h) h

theorem wf_raise (code : BitVec 8) (info : DWord) (h : Wf s) : Wf (s.raise code info) := wf_raiseRec _ h

theorem wf_fault (f : Flt) (hr a : BitVec 4) (h : Wf s) : Wf (s.fault f hr a) := wf_raiseRec _ h

/-! ## Operations that go on only when something holds -/

section
variable {f : State → State} (hf : ∀ t, Wf t → Wf (f t))
include hf

theorem wf_privileged (h : Wf s) : Wf (s.privileged f) := wf_ite (hf _ h) h

theorem wf_guarded (g : BitVec 3) (h : Wf s) : Wf (s.guarded g f) := wf_ite (hf _ h) h

theorem wf_finishFp (fl : Nat) (h : Wf s) : Wf (s.finishFp fl f) := wf_ite (wf_raise _ _ h) (hf _ h)

theorem wf_counted (k : Ctr) (h : Wf s) : Wf (s.counted k f) := wf_ite h (hf _ h)

theorem wf_whenFull (a n : Nat) (h : Wf s) : Wf (s.whenFull a n f) := wf_ite (hf _ h) h

theorem wf_vField (v : BitVec 6) (w : BitVec 2) (h : Wf s) : Wf (s.vField v w f) := wf_ite h (wf_ite h (hf _ h))

theorem wf_released (h : Wf s) : Wf (s.released f) := wf_ite (hf _ h) h

theorem wf_jumpReg (t : DWord) (h : Wf s) : Wf (s.jumpReg t f) := wf_ite h (hf _ h)

end

/-! ## Accesses of slot T -/

theorem wf_consumeAt (due : Nat) (k : Ctr) (i : DWord) (w : RegWrite) (h : Wf s) : Wf (s.consumeAt due k i w) := wf_ite h (wf_raise _ _ h)

theorem wf_consume (i : DWord) (h : Wf s) : Wf (s.consume i) := wf_consumeAt _ _ _ _ h

theorem wf_launchLoad (due : Nat) (bad : List Nat) (i : DWord) (w : Work) (h : Wf s) : Wf (s.launchLoad due bad i w) :=
  wf_ite h (wf_consumeAt _ _ _ _ h)

theorem wf_load (a n lat : Nat) (f : Flt) (hr ar : BitVec 4) (w : LoadForm) (h : Wf s) : Wf (s.load a n lat f hr ar w) :=
  wf_launchLoad _ _ _ _ (wf_eccRead _ _ _ h)

theorem wf_crownLoad (hr a : BitVec 4) (o : Int) (n align : Nat) (w : LoadForm) (h : Wf s) : Wf (s.crownLoad hr a o n align w) := by
  unfold State.crownLoad
  split
  · exact wf_fault _ _ _ h
  · exact wf_counted (fun _ h => wf_whenFull (fun _ h => wf_load _ _ _ _ _ _ _ h) _ _ h) _ h

theorem wf_crownStore (hr a : BitVec 4) (o : Int) (align : Nat) (tag : Bool) (bs : List Byte) (h : Wf s) :
    Wf (s.crownStore hr a o align tag bs) := by
  unfold State.crownStore
  split
  · exact wf_fault _ _ _ h
  · exact wf_ite h h

theorem wf_globalLoad (sc : Bool) (hr a : BitVec 4) (offs : List Int) (n align : Nat) (w : LoadForm) (h : Wf s) :
    Wf (s.globalLoad sc hr a offs n align w) := by
  unfold State.globalLoad
  split
  · exact wf_fault _ _ _ h
  · refine wf_ite h ?_
    dsimp only
    split
    · exact h
    · refine wf_launchLoad _ _ _ _ (wf_foldl_fst ?_ _ _ h)
      exact fun _ _ h => wf_eccRead _ _ _ h

theorem wf_globalStore (hr a : BitVec 4) (offs : List Int) (n align : Nat) (bs : List Byte) (h : Wf s) :
    Wf (s.globalStore hr a offs n align bs) := by
  unfold State.globalStore
  split
  · exact wf_fault _ _ _ h
  · refine wf_ite (wf_fault _ _ _ h) (wf_ite (wf_ite (wf_raise _ _ h) (wf_ite (wf_raise _ _ h) ?_)) (wf_ite h h))
    dsimp only
    split
    · exact wf_raise _ _ h
    · exact h

theorem wf_indexed (hr j a k : BitVec 4) (right : QWord → Bool) (n : Nat) {f : State → List Int → State} (hf : ∀ t l, Wf t → Wf (f t l))
    (h : Wf s) : Wf (s.indexed hr j a k right n f) := by
  unfold State.indexed
  dsimp only
  split
  · exact wf_fault _ _ _ h
  split
  · exact wf_fault _ _ _ h
  split
  · exact wf_fault _ _ _ h
  · exact wf_whenFull (fun _ h => wf_ite (wf_consume _ (wf_eccRead _ _ _ h)) (hf _ _ (wf_eccRead _ _ _ h))) _ _ h

/-- The state after a read of crown that goes on with the bytes, or consumes a bad granule. -/
def readCrown (la n : Nat) (o : Int) (r a : BitVec 4) (f : List Byte → State → State) (s : State) : State :=
  if !(s.eccRead .l (s.crownAt la) n).2.isEmpty
  then (s.eccRead .l (s.crownAt la) n).1.consume (accessInfo (consumed (o + badOffset (s.crownAt la) (s.eccRead .l (s.crownAt la) n).2)) r a)
  else f (s.bytes .l (s.crownAt la) n) (s.eccRead .l (s.crownAt la) n).1

theorem wf_readCrown (la n : Nat) (o : Int) (r a : BitVec 4) {f : List Byte → State → State} (hf : ∀ bs t, Wf t → Wf (f bs t)) (t : State)
    (h : Wf t) : Wf (readCrown la n o r a f t) :=
  wf_ite (wf_consume _ (wf_eccRead _ _ _ h)) (hf _ _ (wf_eccRead _ _ _ h))

theorem wf_recordPair (r a : BitVec 4) {f : BitVec 1024 → State → State} (hf : ∀ p t, Wf t → Wf (f p t)) (h : Wf s) :
    Wf (s.recordPair r a f) := by
  unfold State.recordPair
  dsimp only
  split
  · exact wf_fault _ _ _ h
  · exact wf_whenFull (wf_readCrown _ _ _ _ _ (f := fun bs => f (BitVec.ofNat 1024 (bytesNat bs))) fun _ => hf _) _ _ h

theorem wf_atomIssue (i : Instr) (hr a : BitVec 4) (n : Nat) (sv dv : DWord) {f : State → Nat → State} (hf : ∀ t x, Wf t → Wf (f t x))
    (h : Wf s) : Wf (s.atomIssue i hr a n sv dv f) := by
  unfold State.atomIssue
  dsimp only
  split
  · exact wf_fault _ _ _ h
  · exact wf_ite (wf_fault _ _ _ h) (wf_ite (wf_raise _ _ h) (wf_ite h (hf _ _ h)))

theorem wf_atomic (i : Instr) (o : BitVec 2) (d : BitVec 5) (hr a : BitVec 4) (x : BitVec 5) (z : BitVec 1) (h : Wf s) :
    Wf (s.atomic i o d hr a x z) := by
  have go (t : State) (h : Wf t) := wf_atomIssue i hr a (if z = 0 then 4 else 8) (t.lat.iss.rx x) (t.lat.iss.rx d)
    (f := fun s id => if o.getLsbD 0 then { s with q := { s.q with acq := some id } } else s) (fun _ _ h => wf_ite h h) h
  exact wf_ite (wf_released go h) (go s h)

theorem wf_tset (full : Bool) (hr o l : BitVec 4) (h : Wf s) : Wf (s.tset full hr o l) := by
  unfold State.tset
  split
  · exact wf_fault _ _ _ h
  · exact wf_ite h (wf_ite h h)

end Sys2Proof.MemoryForm
end

section
/-! SUPPORT. O59: transfers, refresh, the matrix engine, slot V and the atomic engines keep memory in its canonical form. -/

namespace Sys2Proof.MemoryForm
open Sys2Proof Machine

variable {s : State}

/-! ## Elements that are converted (03 R84 to R90) -/

theorem wf_append (v : Via) (cf : DWord) (i x : Nat) (h : Wf s) : Wf (s.append v cf i x).1 := by
  unfold State.append
  split
  · exact h
  · dsimp only
    split <;> exact h

theorem wf_encodeElem (v : Via) (k : Kind) (cf : Option DWord) (sc : Int) (m : Mode) (i : Nat) (x : FV) (r : Raised) (h : Wf s) :
    Wf (s.encodeElem v k cf sc m i x r).1 := by
  unfold State.encodeElem
  split
  · exact h
  · exact h
  · exact h
  · split
    · exact h
    · split
      · dsimp only
        split <;> exact wf_append _ _ _ _ h
      · exact h

theorem wf_moveElems (id : Nat) (mode : Mode) (d m : Moving) (bad : Nat → Bool) (l : List (Loc × Loc)) (acc : List (Nat × Byte)) (r : Raised)
    (ps : List Nat) (h : Wf s) : Wf (s.moveElems id mode d m bad l acc r ps).1 := by
  induction l generalizing s acc r ps with
  | nil => exact h
  | cons x l ih =>
    rw [State.moveElems]
    refine ih _ _ _ ?_
    split
    · exact h
    · exact wf_encodeElem _ _ _ _ _ _ _ _ h

theorem wf_copyMove (bank : Bool) (id : Nat) (op : Slotted) (pair : BitVec 1024) (hr hs : BitVec 4) (dm sm : SideMap) (h : Wf s) :
    Wf (s.copyMove bank id op pair hr hs dm sm).1 :=
  wf_moveElems _ _ _ _ _ _ _ _ _ (wf_foldl (fun _ _ h => wf_portFetch _ _ h) _ (wf_checks _ _ h))

/-! ## Transfers (09 R265 to R294) -/

theorem wf_beginLaunched (h : Wf s) : Wf s.beginLaunched := by
  unfold State.beginLaunched
  split
  · exact wf_ite h h
  · exact h

theorem wf_deposit (bank : Bool) (map : DWord) (ps : List Part) (h : Wf s) : Wf (s.deposit bank map ps) := wf_store _ _ _ _ h

theorem wf_poisonAll (gs : List Nat) (h : Wf s) : Wf (s.poisonAll gs) := wf_of_cells (foldl_cells (f := Mem.setPoison) (fun _ _ => rfl) _ _) h

theorem wf_leaveEngine (o : Out) (h : Wf s) : Wf (s.leaveEngine o) := by
  unfold State.leaveEngine
  split <;> split <;> exact h

theorem wf_someUnits (bank : Bool) (map : DWord) (bs : List (Nat × Byte)) (gs : List Nat) (h : Wf s) : Wf (s.someUnits bank map bs gs) :=
  wf_poisonAll _ (wf_deposit _ _ _ h)

theorem wf_stopTransfer (o : Out) (h : Wf s) : Wf (s.stopTransfer o) := by
  refine wf_leaveEngine o ?_
  split
  · exact wf_someUnits _ _ _ _ h
  · split
    · exact wf_someUnits _ _ _ _ (wf_ite (wf_copyMove _ _ _ _ _ _ _ _ h) h)
    · exact h
  · exact wf_someUnits _ _ _ _ (wf_checks _ _ h)
  · exact h

theorem wf_stopAll (bank : Bool) (h : Wf s) : Wf (s.stopAll bank) := wf_foldl (fun _ _ h => wf_stopTransfer _ h) _ h

/-- An orphan is counted in the core. -/
theorem orphan_frame (s : State) (g : Nat) (e : Bool) : ∃ c, s.orphan g e = { s with core := c } := ⟨_, rfl⟩

theorem wf_orphan (g : Nat) (e : Bool) (h : Wf s) : Wf (s.orphan g e) := by
  obtain ⟨c, hc⟩ := orphan_frame s g e
  rw [hc]
  exact h

theorem wf_engineArrival (o : Out) (op : Slotted) (h : Wf s) : Wf (s.engineArrival o op) := by
  unfold State.engineArrival
  dsimp only
  split
  · exact h
  · exact wf_orphan _ _ h

theorem wf_feDone (takes sets : List Nat) (h : Wf s) : Wf (s.feDone takes sets) :=
  wf_of_cells ((foldl_cells (f := fun m g => m.setFull g true) (fun _ _ => rfl) _ _).trans
    (foldl_cells (f := fun m g => m.setFull g false) (fun _ _ => rfl) _ _)) h

theorem wf_landed (o : Out) (ps : List Part) (map : DWord) (gs : List Nat) (st : DWord) (h : Wf s) : Wf (s.landed o ps map gs st) :=
  wf_settle _ _ (wf_poisonAll _ (wf_deposit _ _ _ h))

theorem wf_written (o : Out) (ps : List Part) (map : DWord) (gs : List Nat) (r : Raised) (st : DWord) (h : Wf s) :
    Wf (s.written o ps map gs r st) := h

theorem wf_copyData (o : Out) (op : Slotted) (dm sm : SideMap) (pair : BitVec 1024) (hr m : BitVec 4) (h : Wf s) :
    Wf (s.copyData o op dm sm pair hr m) :=
  wf_ite (wf_written _ _ _ _ _ _ h) (wf_written _ _ _ _ _ _ (wf_copyMove _ _ _ _ _ _ _ _ h))

theorem wf_copyDone (o : Out) (op : Slotted) (dm sm : SideMap) (pair : BitVec 1024) (ps : List Part) (map : DWord) (gs : List Nat) (r : Raised)
    (st : DWord) (h : Wf s) : Wf (s.copyDone o op dm sm pair ps map gs r st) := by
  unfold State.copyDone
  split
  · refine wf_leaveEngine _ ?_
    have land {i : DWord} {a b : List Nat} := wf_feDone a b (wf_settleRaised o op.iss.fpcr i r (wf_landed o ps map gs st h))
    exact wf_ite (wf_engineArrival _ _ (wf_ite land land)) (wf_ite land land)
  · exact h

theorem wf_receive (x : Incoming) (h : Wf s) : Wf (s.receive x) := by
  unfold State.receive
  dsimp only
  generalize s.spread _ = ps
  have post {l : List Nat} : Wf (l.foldl (fun s g => s.post 3 0 0xFFFF 0 (BitVec.ofNat 64 g) (s.dropWord s.c.cbmap g))
      { s.portWrite ps with mem := ((s.portWrite ps).mem.puts (s.portWrite ps).fresh false ps).1, fresh := (s.portWrite ps).fresh + 1 }) :=
    wf_foldl (fun _ _ h => wf_post _ _ _ _ _ _ h) _ (Mem.wf_puts _ _ _ _ h)
  have come {l : List Nat} := wf_feDone x.empty x.full (wf_poisonAll x.poison (post (l := l)))
  split
  · split
    · exact wf_deposit _ _ _ come
    · exact come
  · exact come

theorem wf_others (h : Wf s) : Wf s.others := by
  unfold State.others
  split
  · exact wf_receive _ h
  · exact h

theorem wf_shiftParts (o : Out) (op : Slotted) (dir mode : BitVec 2) (lands : List Nat) (z : Bool) (h : Wf s) :
    Wf (s.shiftParts o op dir mode lands z).1 := by
  refine wf_foldl_fst ?_ _ _ h
  exact fun _ _ h => wf_checks _ _ h

theorem wf_roundAnswer (o : Out) (fails : Bool) (z : List (Nat × Nat × Fl)) (h : Wf s) : Wf (s.roundAnswer o fails z) := by
  unfold State.roundAnswer
  refine wf_ite (wf_leaveEngine _ h) ?_
  split
  · split
    · exact wf_leaveEngine _ (wf_settle _ _ (wf_store _ _ _ _ h))
    · exact wf_leaveEngine _ h
  · exact wf_leaveEngine _ h

/-! ## Refresh (09 R295 to R300) -/

theorem wf_refresh (tower group t : Nat) (h : Wf s) : Wf (s.refresh tower group t) := by
  have read : Wf (s.scrub (s.groupAt tower group) 65536) := wf_scrub _ _ h
  unfold State.refresh
  generalize s.scrub (s.groupAt tower group) 65536 = u at read ⊢
  exact read

theorem wf_catchUp (h : Wf s) : Wf s.catchUp := by
  unfold State.catchUp
  refine wf_foldl (fun u t hu => ?_) _ h
  split
  · exact wf_refresh _ _ _ hu
  · exact hu

theorem wf_normalRefresh (t : Nat) (g : BitVec 7) (h : Wf s) : Wf (s.normalRefresh t g) := by
  have next : Wf (s.nextSlot t g) := h
  unfold State.normalRefresh
  dsimp only
  generalize s.nextSlot t g = u at next
  split
  · split <;> exact next
  · split
    · exact wf_refresh _ _ _ h
    · split
      · exact h
      · split
        · exact next
        · exact wf_refresh _ _ _ next

/-! ## The matrix engine (06, 07) -/

theorem wf_tileIssue (i : Instr) (f : Option TileFlt) (ws : List Nat) (h : Wf s) : Wf (s.tileIssue i f ws) := by
  unfold State.tileIssue
  split
  · exact wf_raise _ _ h
  · exact wf_ite h (wf_ite h h)

theorem wf_reader (bank : Bool) (op : Slotted) (rs : List (Nat × Nat)) (h : Wf s) : Wf (s.reader bank op rs).1 := wf_checks _ _ h

theorem wf_engineClaims (rs : List (Nat × Nat)) (ps : List Part) (h : Wf s) : Wf (s.engineClaims rs ps) := h

theorem wf_tileGoes (o : Out) (op : Slotted) (w : Tiling) (due : Nat) (h : Wf s) : Wf (s.tileGoes o op w due) := h

theorem wf_mWrite (o : Out) (op : Slotted) (due : Nat) (ps : List Part) (h : Wf s) : Wf (s.mWrite o op due ps) := wf_ite h h

theorem wf_consumedBy (bank bad : Bool) (h : Wf s) : Wf (s.consumedBy bank bad) := wf_ite (wf_onBankSeq _ _ h) h

theorem wf_streamFetch (w : Stream) (lo n : Nat) (h : Wf s) : Wf (s.streamFetch w lo n) := by
  unfold State.streamFetch
  split
  · exact wf_portFetch _ _ h
  · exact h

theorem wf_productStart (o : Out) (op : Slotted) (w : Tiling) (p : Product) (h : Wf s) : Wf (s.productStart o op w p) := by
  refine wf_ite h ?_
  dsimp only
  split <;> exact h

theorem wf_loadPlane (o : Out) (op : Slotted) (w : Tiling) (p : Product) (n : Nat) (h : Wf s) : Wf (s.loadPlane o op w p n).1 :=
  wf_consumedBy _ _ (wf_reader _ op _ h)

theorem wf_stepPlanes (o : Out) (op : Slotted) (w : Tiling) (p : Product) (h : Wf s) : Wf (s.stepPlanes o op w p).1 := by
  unfold State.stepPlanes
  dsimp only
  generalize hr : (if w.plane.isEmpty = true then s.loadPlane o op w p (w.step / p.per op) else (s, w.plane)) = r
  have load : Wf r.1 := by
    subst hr
    split
    · exact wf_loadPlane _ _ _ _ _ h
    · exact h
  split
  · exact load
  · split
    · exact wf_loadPlane _ _ _ _ _ load
    · exact load

theorem wf_takeStream (bank : Bool) (p : Product) (op : Slotted) (i pass : Nat) (h : Wf s) : Wf (s.takeStream bank p op i pass).1 := by
  unfold State.takeStream
  split
  · exact wf_consumedBy _ _ (wf_streamFetch _ _ _ (wf_reader _ op _ h))
  · exact h

theorem wf_enterRow (o : Out) (op : Slotted) (w : Tiling) (p : Product) (h : Wf s) : Wf (s.enterRow o op w p).1 := by
  unfold State.enterRow
  dsimp only
  have row {i n due : Nat} {bad : Bool} {rs rs' : List (Nat × Nat)} {ps ps' : List Part} :=
    wf_consumedBy o.bank bad (wf_mWrite o op due ps' (wf_engineClaims rs ps (wf_reader o.bank op rs' (wf_takeStream o.bank p op i n h))))
  split
  · exact wf_settle _ _ row
  · exact row

theorem wf_enterSums (o : Out) (op : Slotted) (w : Tiling) (p : Product) (h : Wf s) : Wf (s.enterSums o op w p).1 :=
  wf_consumedBy _ _ (wf_mWrite _ _ _ _ (wf_engineClaims _ _ (wf_reader _ op _ h)))

theorem wf_productStep (o : Out) (op : Slotted) (w : Tiling) (p : Product) (h : Wf s) : Wf (s.productStep o op w p) := by
  have enter : Wf (if w.step % p.per op < p.rows op then (s.stepPlanes o op w p).1.enterRow o op (s.stepPlanes o op w p).2 p
      else (s.stepPlanes o op w p).1.enterSums o op (s.stepPlanes o op w p).2 p).1 := by
    split
    · exact wf_enterRow _ _ _ _ (wf_stepPlanes _ _ _ _ h)
    · exact wf_enterSums _ _ _ _ (wf_stepPlanes _ _ _ _ h)
  exact wf_ite (wf_ite (wf_settle _ _ enter) enter) (wf_ite enter enter)

theorem wf_productDone (o : Out) (op : Slotted) (w : Tiling) (p : Product) (h : Wf s) : Wf (s.productDone o op w p) :=
  wf_feDone _ _ (wf_settle _ _ h)

theorem wf_mergeEnd (o : Out) (op : Slotted) (w : Tiling) (m : Merge) (due : Nat) (h : Wf s) : Wf (s.mergeEnd o op w m due) :=
  wf_ite (wf_mWrite _ _ _ _ h) h

theorem wf_mergeStart (o : Out) (op : Slotted) (w : Tiling) (m : Merge) (h : Wf s) : Wf (s.mergeStart o op w m) := by
  have read {bad : Bool} {rs rs' : List (Nat × Nat)} {ps : List Part} :=
    wf_consumedBy o.bank bad (wf_engineClaims rs ps (wf_reader o.bank op rs' h))
  unfold State.mergeStart
  dsimp only
  split
  · exact wf_tileGoes _ _ _ _ h
  · split
    · exact wf_mergeEnd _ _ _ _ _ read
    · exact wf_tileGoes _ _ _ _ read

theorem wf_mergeRecord (bank : Bool) (op : Slotted) (m : Merge) (t : Nat) (h : Wf s) : Wf (s.mergeRecord bank op m t).1 := by
  unfold State.mergeRecord
  dsimp only
  split
  · split
    · exact wf_reader _ op _ h
    · exact wf_reader _ op _ (wf_reader _ op _ h)
  · split
    · exact wf_reader _ op _ h
    · exact wf_reader _ op _ (wf_reader _ op _ h)

theorem wf_mergeStep (o : Out) (op : Slotted) (w : Tiling) (m : Merge) (h : Wf s) : Wf (s.mergeStep o op w m) := by
  have merged {bad : Bool} {rs : List (Nat × Nat)} {ps : List Part} {l : List Nat} {due : Nat → Nat} {f : Nat → List Part} :=
    wf_foldl (f := fun u n => u.mWrite o op (due n) (f n)) (fun _ _ h => wf_mWrite _ _ _ _ h) l
      (wf_consumedBy o.bank bad (wf_engineClaims rs ps (wf_mergeRecord o.bank op m w.step h)))
  unfold State.mergeStep
  dsimp only
  split
  · exact wf_mergeEnd _ _ _ _ _ merged
  · exact wf_tileGoes _ _ _ _ merged

theorem wf_mergeDone (o : Out) (op : Slotted) (w : Tiling) (m : Merge) (h : Wf s) : Wf (s.mergeDone o op w m) :=
  wf_ite h (wf_feDone _ _ (wf_settle _ _ h))

theorem wf_zeroStep (o : Out) (op : Slotted) (w : Tiling) (m : BitVec 3) (h : Wf s) : Wf (s.zeroStep o op w m) :=
  wf_tileGoes _ _ _ _ (wf_consumedBy _ _ (wf_mWrite _ _ _ _ (wf_engineClaims _ _ (wf_reader _ op _ h))))

theorem wf_mbldDone (bank : Bool) (op : Slotted) (b : BitVec 3) (live : Bool) (h : Wf s) : Wf (s.mbldDone bank op b live) :=
  wf_consumedBy _ _ (wf_feDone _ _ (wf_reader _ op _ h))

theorem wf_mdldDone (o : Out) (op : Slotted) (m : BitVec 3) (a : BitVec 15) (h : Wf s) : Wf (s.mdldDone o op m a) :=
  wf_consumedBy _ _ (wf_landFinal _ _ (wf_engineClaims _ _ (wf_reader _ op _ h)))

theorem wf_facHolds (bank : Bool) (op : Slotted) (j : FacJob) (w : Tiling) (h : Wf s) : Wf (s.facHolds bank op j w).1 := wf_reader _ op _ h

theorem wf_facFill (o : Out) (op : Slotted) (j : FacJob) (w : Tiling) (h : Wf s) : Wf (s.facFill o op j w) := by
  unfold State.facFill
  split
  · exact wf_settle _ _ h
  · exact h

theorem wf_facBegin (o : Out) (op : Slotted) (w : Tiling) (j : FacJob) (h : Wf s) : Wf (s.facBegin o op w j) := by
  have holds {bad : Bool} := wf_consumedBy o.bank bad (wf_facHolds o.bank op j w h)
  exact wf_ite (wf_tileGoes _ _ _ _ (wf_facFill _ _ _ _ holds)) (wf_tileGoes _ _ _ _ holds)

theorem wf_facFail (o : Out) (op : Slotted) (j : FacJob) (p : Fac) (code : BitVec 8) (k : Nat) (h : Wf s) : Wf (s.facFail o op j p code k) :=
  wf_settleSeq _ _ (wf_settle _ _ h)

theorem wf_settle_pv (o : Out) (pv : Option (BitVec 2)) (f : BitVec 2 → Ctx → Ctx) (h : Wf s) : Wf (match pv with
    | some r => s.settle o (f r)
    | none => s) := by
  split
  · exact wf_settle _ _ h
  · exact h

theorem wf_facStep (o : Out) (op : Slotted) (w : Tiling) (j : FacJob) (h : Wf s) : Wf (s.facStep o op w j) := by
  have holds := wf_facHolds o.bank op j w h
  unfold State.facStep
  dsimp only
  generalize s.facHolds o.bank op j w = x at holds ⊢
  generalize j.step x.2.1 w.step = q
  have pivots := wf_settle_pv o j.pv (fun r c => c.wpv r (putEntries (c.rpv r) q.pv)) (wf_consumedBy o.bank x.2.2 holds)
  split
  · exact wf_facFail _ _ _ _ _ _ pivots
  · have rows {l : List Nat} {f : Nat → List Part} {due : Nat} {ps : List Part} :=
      wf_foldl (f := fun u i => u.mWrite o op due (f i)) (fun _ _ h => wf_mWrite _ _ _ _ h) l (wf_mWrite o op due ps pivots)
    split
    · exact wf_facFill _ _ _ _ rows
    · exact rows

theorem wf_facDone (o : Out) (op : Slotted) (w : Tiling) (j : FacJob) (h : Wf s) : Wf (s.facDone o op w j) := wf_feDone _ _ (wf_settle _ _ h)

theorem wf_permStart (o : Out) (op : Slotted) (w : Tiling) (x : Perm) (h : Wf s) : Wf (s.permStart o op w x) :=
  wf_ite (wf_tileGoes _ _ _ _ h) (wf_tileGoes _ _ _ _ (wf_consumedBy _ _ (wf_foldl (fun _ _ h => wf_mWrite _ _ _ _ h) _ (wf_reader _ op _ h))))

theorem wf_tileStart (o : Out) (op : Slotted) (w : Tiling) (h : Wf s) : Wf (s.tileStart o op w) := by
  unfold State.tileStart
  dsimp only
  split
  · exact wf_productStart _ _ _ _ h
  · exact wf_facBegin _ _ _ _ h
  · exact wf_mergeStart _ _ _ _ h
  · exact wf_permStart _ _ _ _ h
  · split <;> exact h

theorem wf_tileStep (o : Out) (op : Slotted) (w : Tiling) (h : Wf s) : Wf (s.tileStep o op w) := by
  unfold State.tileStep
  split
  · split
    · exact wf_countStall_if _ h
    · exact wf_productStep _ _ _ _ h
  · exact wf_facStep _ _ _ _ h
  · exact wf_mergeStep _ _ _ _ h
  · split
    · exact wf_zeroStep _ _ _ _ h
    · exact h

theorem wf_tileDone (o : Out) (op : Slotted) (w : Tiling) (h : Wf s) : Wf (s.tileDone o op w) := by
  unfold State.tileDone
  dsimp only
  split
  · exact wf_productDone _ _ _ _ h
  · exact wf_facDone _ _ _ _ h
  · exact wf_mergeDone _ _ _ _ h
  · exact wf_feDone _ _ h
  · split
    · exact wf_feDone _ _ h
    · exact wf_mbldDone _ _ _ _ h
    · exact wf_mdldDone _ _ _ _ h
    · exact wf_settle _ _ h
    · exact h

theorem wf_tileGo (o : Out) (op : Slotted) (w : Tiling) (h : Wf s) : Wf (s.tileGo o op w) :=
  wf_ite (wf_ite h (wf_tileStep _ _ _ h)) (wf_tileDone _ _ _ h)

end Sys2Proof.MemoryForm
end

section
/-! SUPPORT. O59: slot V and the atomic engines keep memory in its canonical form. -/

namespace Sys2Proof.MemoryForm
open Sys2Proof Machine

variable {s : State}

/-! ## Slot V (05; 08 R256 to R260) -/

theorem wf_stopWith (e : VStop) (h : Wf s) : Wf (stopWith s e) := by
  unfold stopWith
  split
  · exact h
  · exact wf_raise _ _ h
  · exact h

theorem wf_operand {r q : VRead} (pos : Fin 3) (code : BitVec 6) (h : Wf r.s) (e : r.operand pos code = .ok q) : Wf q.s := by
  unfold VRead.operand at e
  dsimp only at e
  split at e
  · cases e
    exact h
  · split at e
    · cases e
    · split at e
      · cases e
      · split at e
        · cases e
        · cases e
          refine wf_foldl_fst (f := fun x (u : Nat × Nat) => ((x.1.eccRead .p u.1 u.2).1, x.2 ++ (x.1.eccRead .p u.1 u.2).2)) ?_ _ _ h
          exact fun _ _ h => wf_eccRead _ _ _ h

theorem wf_operands {r q : VRead} (l : List (Fin 3 × BitVec 6)) (h : Wf r.s) (e : r.operands l = .ok q) : Wf q.s := by
  induction l generalizing r with
  | nil =>
    cases e
    exact h
  | cons x l ih =>
    rw [VRead.operands] at e
    split at e
    · cases e
    next r' he => exact ih (wf_operand _ _ h he) e

theorem wf_vRead {r : VRead} {l : List (Fin 3 × BitVec 6)} (h : Wf s) (e : s.vRead l = .ok r) : Wf r.s := wf_operands l h e

theorem wf_encodeLanes (p : Port) (v : VWord) (l : List Nat) (acc : Nat) (fls : List (Nat × Fl)) (lost : Nat) (h : Wf s) :
    Wf (s.encodeLanes p v l acc fls lost).1 := by
  induction l generalizing s acc fls lost with
  | nil => exact h
  | cons x l ih =>
    rw [State.encodeLanes]
    refine ih _ _ _ ?_
    split
    · exact h
    · exact wf_encodeElem _ _ _ _ _ _ _ _ h

theorem wf_push (k : BitVec 3) (p : Port) (v : VWord) (h : Wf s) : Wf (s.push k p v).1 := by
  have bits : Wf (s.pushBits p v).1 := by
    unfold State.pushBits
    split
    · exact wf_encodeLanes _ _ _ _ _ _ h
    · exact h
  exact bits

theorem wf_commit {r : VRead} (h : Wf r.s) : Wf r.commit :=
  wf_of_cells (foldl_cells (f := fun m g => m.setFull g false) (fun _ _ => rfl) r.takes r.s.mem) h

theorem wf_finish {r : VRead} (d : BitVec 6) (mask v : VWord) (fl : Fl) (h : Wf r.s) : Wf (r.finish d mask v fl) := by
  have read : Wf (r.commit.orFlags fl) := wf_commit h
  unfold VRead.finish
  dsimp only
  split
  · exact read
  · split
    · exact wf_stopWith _ read
    · exact wf_finishRaised _ _ _ _ (wf_push _ _ _ read)

theorem wf_vFlags (fls : List (Nat × Fl)) {f : Fl → State} (hf : ∀ fl, Wf (f fl)) (h : Wf s) : Wf (s.vFlags fls f) :=
  wf_ite (wf_raise _ _ h) (hf _)

theorem wf_vIssue (bad : Bool) (rs : List (BitVec 6)) {f : State → State} (hf : Wf (f s)) (h : Wf s) : Wf (s.vIssue bad rs f) :=
  wf_ite h (wf_ite h hf)

theorem wf_laneOp (d : BitVec 6) (srcs : List (Fin 3 × BitVec 6)) (w : BitVec 2) (m : BitVec 3) (op : VRead → Nat → Nat × Fl) (h : Wf s) :
    Wf (s.laneOp d srcs w m op) := by
  refine wf_vIssue _ _ ?_ h
  split
  · exact wf_stopWith _ h
  next r e =>
    refine wf_vFlags _ (fun fl => ?_) h
    split
    · exact wf_stopWith _ h
    · exact wf_finish _ _ _ _ (wf_vRead h e)

theorem wf_lane3 (d a b : BitVec 6) (w : BitVec 2) (m : BitVec 3) (f : Nat → Nat → Nat → Nat × Fl) (h : Wf s) : Wf (s.lane3 d a b w m f) := by
  unfold State.lane3
  split
  · exact wf_ite h (wf_laneOp _ _ _ _ _ h)
  · exact wf_ite h (wf_laneOp _ _ _ _ _ h)

theorem wf_laneMask (d : BitVec 3) (a b : BitVec 6) (w : BitVec 2) (m : BitVec 3) (f : Nat → Nat → Bool × Fl) (h : Wf s) :
    Wf (s.laneMask d a b w m f) := by
  refine wf_vIssue _ _ ?_ h
  split
  · exact wf_stopWith _ h
  next r e => exact wf_vFlags _ (fun fl => wf_commit (wf_vRead h e)) h

theorem wf_pairOp (d : BitVec 6) (evens : List (BitVec 6)) (srcs : List (Fin 3 × BitVec 6)) (w : BitVec 2) (m : BitVec 3)
    (op : VRead → Nat → Nat × Nat × Fl) (h : Wf s) : Wf (s.pairOp d evens srcs w m op) := by
  refine wf_ite h (wf_ite h ?_)
  dsimp only
  split
  · exact wf_stopWith _ h
  next r e => exact wf_vFlags _ (fun fl => wf_finish _ _ _ _ (wf_vRead h e)) h

theorem wf_reduction (d a : BitVec 6) (w : BitVec 2) (m : BitVec 3) (idle : Nat) (f : List Nat → Nat × Fl) (h : Wf s) :
    Wf (s.reduction d a w m idle f) := by
  refine wf_vIssue _ _ ?_ h
  split
  · exact wf_stopWith _ h
  next r e => exact wf_vFlags _ (fun fl => wf_finish _ _ _ _ (wf_vRead h e)) h

theorem wf_shiftLanes (d a b : BitVec 6) (w : BitVec 2) (m : BitVec 3) (i : BitVec 1) (f : Nat → Nat → Nat) (h : Wf s) :
    Wf (s.shiftLanes d a b w m i f) := wf_ite (wf_laneOp _ _ _ _ _ h) (wf_ite h (wf_laneOp _ _ _ _ _ h))

theorem wf_maskOp (d : BitVec 3) (w : BitVec 2) (v : BitVec 128) (h : Wf s) : Wf (s.maskOp d w v) := wf_ite h h

theorem wf_packLanes (k : Kind) (cf : DWord) (z : Nat) (mode : Mode) (v : VWord) (l : List Nat) (acc : Nat) (fls : List (Nat × Fl)) (lost : Nat)
    (h : Wf s) : Wf (s.packLanes k cf z mode v l acc fls lost).1 := by
  induction l generalizing s acc fls lost with
  | nil => exact h
  | cons x l ih =>
    rw [State.packLanes]
    refine ih _ _ _ ?_
    split
    · exact h
    · exact wf_encodeElem _ _ _ _ _ _ _ _ h

theorem wf_lend (b : Nat) (h : Wf s) : Wf (s.lend b) := wf_ite h (wf_ite h h)

theorem wf_unlend (b : Nat) (h : Wf s) : Wf (s.unlend b) := wf_ite h (wf_ite h h)

/-! ## Atomic engines (10 R323 to R331) -/

theorem wf_engineStore (bank : Bool) (g n w : Nat) (h : Wf s) : Wf (s.engineStore bank g n w) := wf_deposit _ _ _ h

theorem wf_engineDrop (line : Nat) (h : Wf s) : Wf (s.engineDrop line) := by
  unfold State.engineDrop
  split <;> exact h

theorem wf_engineTake (g : Nat) (h : Wf s) : Wf (s.engineTake g) := by
  unfold State.engineTake
  dsimp only
  split
  · exact h
  · exact wf_portFetch _ _ (wf_elim _ h fun _ => wf_engineDrop _ h)

theorem wf_atomReply (o : Out) (i : Instr) (info : DWord) (bad : Bool) (w : DWord) (fl : Fl) (h : Wf s) : Wf (s.atomReply o i info bad w fl) := by
  unfold State.atomReply
  split
  · exact wf_ite h h
  · exact h

/-- A line arrives at a barrier object: the object is stored, or the arrival finds no object. -/
theorem wf_bobStore (b : Bool) (g : Nat) (w : Option Nat) (e : Bool) (h : Wf s) :
    Wf (match w with | some w => s.engineStore b g 16 w | none => s.orphan g e) := by
  cases w
  · exact wf_orphan _ _ h
  · exact wf_engineStore _ _ _ _ h

theorem wf_serveAtom (o : Out) (r : AtomReq) (h : Wf s) : Wf (s.serveAtom o r) := by
  obtain ⟨i, addr, x, y, engine, waiting, info, arrive, lock, phase⟩ := r
  unfold State.serveAtom
  extract_lets n e hub u bad old
  have h : Wf u := wf_checks _ _ h
  clear_value old bad u n
  cases i
  case bobInit => exact wf_atomReply _ _ _ _ _ _ (wf_engineStore _ _ _ _ h)
  case bobArr => exact wf_ite (wf_bobStore _ _ _ _ h) (wf_atomReply _ _ _ _ _ _ (wf_bobStore _ _ _ _ h))
  case bobWait => exact h
  case cbar => exact wf_bobStore _ _ _ _ h
  case leave | join => exact wf_engineStore _ _ _ _ h
  all_goals exact wf_atomReply _ _ _ _ _ _ (wf_engineStore _ _ _ _ h)

theorem wf_serveStep (o : Out) (r : AtomReq) (h : Wf s) : Wf (s.serveStep o r) :=
  wf_ite h (wf_ite (wf_engineTake _ h) (wf_serveAtom _ _ (wf_engineTake _ h)))

end Sys2Proof.MemoryForm
end

section
/-! SUPPORT. O59: the scheduler, clasps, segments, suspension points and system instructions keep memory in its canonical form. -/

namespace Sys2Proof.MemoryForm
open Sys2Proof Machine

variable {s : State}

/-! ## Strands and the wait pool (11 R337, R342) -/

theorem wf_countRetired (n : Nat) (h : Wf s) : Wf (s.countRetired n) := wf_poke _ _ h

theorem wf_purge (strand n : Nat) (h : Wf s) : Wf (s.purge strand n) := by
  induction n generalizing s with
  | zero => exact h
  | succ n ih =>
    rw [State.purge]
    exact wf_ite (ih (wf_countRetired _ (wf_poke _ _ (wf_post _ _ _ _ _ _ h)))) h

theorem wf_noteReady (h : Wf s) : Wf s.noteReady :=
  wf_foldl (fun _ _ h => wf_portFetch _ _ (wf_portFetch _ _ h)) _ h

theorem wf_takeBead (b : Bead) (h : Wf s) : Wf (s.takeBead b) := wf_ite (wf_portFetch _ _ h) (wf_poke _ _ h)

/-! ## Placing (11 R343, R344, R354) -/

theorem wf_haltGang (n : BitVec 20) (h : Wf s) : Wf (s.haltGang n) := by
  unfold State.haltGang
  split <;> exact h

theorem wf_failMembers (n : BitVec 20) (r : Nat) (h : Wf s) : Wf (s.failMembers n r) :=
  wf_ite (wf_settleBank _ _ _ (wf_ite (wf_settleBank _ _ _ h) h)) (wf_ite (wf_settleBank _ _ _ h) h)

theorem wf_failRound (n : BitVec 20) (h : Wf s) : Wf (s.failRound n) := wf_ite h (wf_failMembers _ _ h)

/-- A bead goes to this core, whose other bank may have to leave first. -/
theorem wf_makeRoom {p : Prop} [Decidable p] (k : Hub) (h : Wf s) :
    Wf (if p then ({ s with hub := k } : State).evict else { s with hub := k }) := wf_ite h h

theorem wf_place (b : Bead) (l : Nat) (victim gang : Bool) (h : Wf s) : Wf (s.place b l victim gang) := by
  unfold State.place
  extract_lets joins u
  have h : Wf u := wf_takeBead _ (wf_elim _ h fun _ => wf_failRound _ h)
  clear_value u
  split
  · exact wf_ite (wf_haltGang _ (wf_makeRoom _ h)) (wf_makeRoom _ h)
  · split
    · exact wf_haltGang _ h
    · exact h

/-- The round of a clasp that has a new member fails before the hub changes. -/
theorem wf_failed (b : Bool) (n : BitVec 20) (f : State → Hub) (h : Wf s) :
    Wf ({ (if b = true then s.failRound n else s) with hub := f (if b = true then s.failRound n else s) } : State) :=
  wf_ite (p := b = true) (wf_failRound n h) h

theorem wf_placeGang (c : Clasp) (taken : List Nat) {x : State × List Nat × List Nat} (h : Wf s) (e : s.placeGang c taken = some x) : Wf x.1 := by
  unfold State.placeGang at e
  dsimp only at e
  split at e
  · cases e
  · split at e
    · cases e
    · cases e
      refine wf_foldl ?_ _ (wf_failed ((s.gang c.number).any s.isNew) c.number (fun t =>
        t.hub.setClasp { (rankGang s.isNew c ((s.gang c.number).take c.size)).1 with
          round := ((t.hub.clasp c.number).map (·.round)).getD (rankGang s.isNew c ((s.gang c.number).take c.size)).1.round }) h)
      exact fun _ _ h => wf_place _ _ _ _ (wf_takeBead _ h)

theorem wf_serve_one {r : Round} (strand : Nat) (b : Bead) {mark : State → State} (hm : ∀ t, Wf t → Wf (mark t)) (h : Wf r.s) :
    Wf (Round.serve.one r strand b mark).s := by
  unfold Round.serve.one
  split
  · exact hm _ (wf_place _ _ _ _ h)
  · split
    · exact hm _ (wf_place _ _ _ _ h)
    · exact h

theorem wf_serve {r : Round} (p strand : Nat) (h : Wf r.s) : Wf (r.serve p strand).s := by
  unfold Round.serve
  split
  · exact h
  split
  · exact h
  dsimp only
  split
  · exact h
  split
  · split
    · split
      next x e => exact wf_placeGang _ _ h e
      · exact h
    · split
      · exact h
      · split
        · exact h
        · exact wf_serve_one _ _ (fun _ h => h) h
  · exact wf_serve_one _ _ (fun _ h => h) h

/-- A fold of a round keeps the form of its memory. -/
theorem wf_round {f : Round → Nat → Round} (hf : ∀ r n, Wf r.s → Wf (f r n).s) (l : List Nat) (r : Round) (h : Wf r.s) : Wf (l.foldl f r).s := by
  induction l generalizing r with
  | nil => exact h
  | cons n l ih => exact ih _ (hf _ _ h)

theorem wf_dispatchRound (h : Wf s) : Wf s.dispatchRound := by
  unfold State.dispatchRound
  extract_lets ns start r u
  have purged : Wf (ns.foldl (fun s n => s.purge n (2 ^ 20)) s) := wf_foldl (fun _ n h => wf_purge n _ h) ns h
  have h : Wf start := wf_noteReady purged
  clear_value start
  have served : Wf r.s := by
    refine wf_round ?_ _ _ h
    exact fun r p h => wf_round (fun _ _ h => wf_serve _ _ h) _ r h
  have h : Wf u := wf_noteReady served
  clear_value u
  exact h

/-! ## Starting and leaving a bank (11 R347, R353) -/

theorem wf_freshStrips (c : Ctx) (h : Wf s) : Wf (s.freshStrips c) :=
  wf_of_cells (foldl_cells (f := fun m p =>
      { (m.scramble s.fresh (crownAddr s.core.phys (p * 2 ^ 19)) (2 ^ 19)) with
        empty := setDelRange m.empty (crownAddr s.core.phys (p * 2 ^ 19)) (2 ^ 19)
        tags := setDelRange m.tags (crownAddr s.core.phys (p * 2 ^ 19)) (2 ^ 19) }) (fun _ _ => rfl) _ s.mem) h

theorem wf_leaveClasp (h : Wf s) : Wf s.leaveClasp := wf_ite h (wf_settleBank _ _ _ (wf_elim _ (wf_failRound _ h) fun _ => wf_failRound _ h))

theorem wf_renumbered (h : Wf s) : Wf s.renumbered := by
  unfold State.renumbered
  split
  · exact wf_settleBank _ _ _ (wf_settleBank _ _ _ h)
  · exact h

theorem wf_doRemove (l : Nat) (h : Wf s) : Wf (s.doRemove l) := wf_post _ _ _ _ _ _ (wf_renumbered h)

theorem wf_pendingRemoval (h : Wf s) : Wf s.pendingRemoval := by
  refine wf_ite h ?_
  dsimp only
  split
  · exact h
  · exact wf_ite (wf_post _ _ _ _ _ _ h) (wf_doRemove _ h)

/-! ## Segments (11 R356 to R362) -/

theorem wf_releaseHeld (h : Wf s) : Wf s.releaseHeld :=
  wf_foldl (f := fun s e =>
    ({ s with core := { s.core with scache := (s.spread (heldParts e)).foldl scStore s.core.scache } } : State).launch .l .st
      (s.now + storeLatency s.hub s.board e.addr +
        24 * ((s.spread (heldParts e)).map fun p => bridges (homeBoard e.addr) (homeBoard p.addr)).foldl max 0) none
      (.gstore (s.spread (heldParts e)) (24 * ((s.spread (heldParts e)).map fun p => bridges (homeBoard e.addr) (homeBoard p.addr)).foldl max 0)))
    (fun _ _ h => h) _ h

section
variable {f : State → State} (hf : ∀ t, Wf t → Wf (f t))
include hf

theorem wf_endSegment (h : Wf s) : Wf (s.endSegment f) := wf_ite (hf _ h) (wf_ite (wf_releaseHeld h) (wf_ite h (hf _ h)))

theorem wf_suspending (h : Wf s) : Wf (s.suspending f) := wf_endSegment (fun _ h => wf_ite (hf _ h) h) h

theorem wf_recording (record : Bool) (h : Wf s) : Wf (s.recording record f) := by
  have start : Wf (match s.q.wait with
      | .record _ => s
      | _ => { s with q := { s.q with wait := .record none } }) := by
    split <;> exact h
  refine wf_suspending (fun t h => ?_) start
  dsimp only
  split
  · exact wf_raise _ _ h
  · split
    · exact wf_ite (hf _ h) h
    · exact h

end

theorem wf_escalate (h : Wf s) : Wf s.escalate := by
  refine wf_enterTrap _ (wf_noticeOwn _ _ _ _ ?_)
  exact h

theorem wf_doRewind (h : Wf s) : Wf s.doRewind := by
  unfold State.doRewind
  split
  · exact h
  · split
    · exact wf_escalate h
    · have read := wf_checks (s := s.abandonTiles.stopAll s.core.bank) (s.abandonTiles.stopAll s.core.bank).fresh
        ((s.abandonTiles.stopAll s.core.bank).mem.suspects (crownThrough (s.abandonTiles.stopAll s.core.bank).c.cbmap
          (s.abandonTiles.stopAll s.core.bank).core.phys ((s.abandonTiles.stopAll s.core.bank).c.lastStrip + 0x78000)) 0x8000)
        (wf_stopAll _ (s := s.abandonTiles) h)
      dsimp only
      split
      · exact read
      · exact read

/-! ## Suspension (11 R346, R365) -/

theorem wf_freeBank (h : Wf s) : Wf s.freeBank := wf_pendingRemoval h

theorem wf_writeRecord (state : Nat) (pc wake : DWord) (f : Bead → Bead) (h : Wf s) : Wf (s.writeRecord state pc wake f) :=
  wf_ite (wf_raise _ _ h) (wf_noteReady (wf_freeBank h))

theorem wf_wakeTest (h : Wf s) : Wf s.wakeTest := wf_ite h (wf_raise _ _ h)

theorem wf_sends (n : Nat) {act : State → State × Option DWord} {fin : DWord → State → State} (ha : ∀ t, Wf t → Wf (act t).1)
    (hf : ∀ w t, Wf t → Wf (fin w t)) (h : Wf s) : Wf (s.sends n act fin) := by
  unfold State.sends
  split
  · exact wf_ite (hf _ _ h) h
  · refine wf_ite h ?_
    dsimp only
    split
    · exact wf_settleBank _ _ _ (ha _ h)
    · exact ha _ h
  · exact h

theorem wf_joinClasp (i : Instr) (n : BitVec 20) (size : Nat) (sync : Bool) (h : Wf s) : Wf (s.joinClasp i n size sync).1 := by
  unfold State.joinClasp
  extract_lets u
  have h : Wf u := wf_ite (wf_failRound _ h) h
  clear_value u
  split
  · exact wf_raise _ _ h
  · dsimp only
    refine wf_settleBank _ _ _ ?_
    split <;> exact h

theorem wf_joinRecord (d : BitVec 5) (w : DWord) (h : Wf s) : Wf (s.joinRecord d w) := wf_recording (fun _ h => wf_writeRecord _ _ _ _ h) _ h

theorem wf_arrive (c : Clasp) (d : BitVec 5) (h : Wf s) : Wf (s.arrive c d) := by
  unfold State.arrive
  have waits : Wf (s.settleBank s.core.bank id fun q => { q with cbarAt := some s.now, cbarRel := none }) := wf_settleBank _ _ _ h
  dsimp only
  split <;> exact waits

/-! ## System instructions (12 R409 to R413) -/

theorem wf_scanDone (status sig : DWord) (t : Nat) (h : Wf s) : Wf (s.scanDone status sig t) := by
  unfold State.scanDone
  dsimp only
  split
  · exact wf_settleBank _ _ _ h
  · exact wf_settleBank _ _ _ h

theorem wf_testEnded (h : Wf s) : Wf s.testEnded := by
  unfold State.testEnded
  split
  · dsimp only
    split
    · exact wf_ite (wf_scanDone _ _ _ h) (wf_scanDone _ _ _ h)
    · exact wf_scanDone _ _ _ h
  · exact h

theorem wf_abortScan (h : Wf s) : Wf s.abortScan := by
  unfold State.abortScan
  split
  · exact wf_ite h (wf_scanDone _ _ _ h)
  · exact h

theorem wf_endScan (h : Wf s) : Wf s.endScan := by
  unfold State.endScan
  split
  · exact wf_ite h h
  · exact h

theorem wf_mapCore (p : Nat) (restore : Bool) (h : Wf s) : Wf (s.mapCore p restore).1 := by
  unfold State.mapCore
  split
  · exact h
  · exact h
  · exact wf_post _ _ _ _ _ _ (wf_renumbered h)
  · split
    · exact h
    · split
      · exact h
      · exact wf_doRemove _ h

theorem wf_unparked (slot : BitVec 2) (h : Wf s) : Wf (s.unparked slot) := by
  unfold State.unparked
  split <;> exact h

theorem wf_inject (tower bit : Bool) (a b : BitVec 5) {f : Mem → Nat → Nat → Mem} (hf : ∀ m g n, m.wf = true → (f m g n).wf = true) (h : Wf s) :
    Wf (s.inject tower bit a b f) := by
  refine wf_privileged (fun t h => wf_ite h (wf_ite (wf_raise _ _ h) ?_)) h
  split
  · exact wf_fault _ _ _ h
  · exact wf_ite (hf _ _ _ h) h

end Sys2Proof.MemoryForm
end

section
/-! SUPPORT. O59: every event keeps memory in its canonical form. -/

namespace Sys2Proof.MemoryForm
open Sys2Proof Machine

variable {s : State}

/-- The next state of an answer, if it is one, has its memory in canonical form. -/
def Keeps (a : Ans) : Prop := ∀ t, a = .next t → Wf t

theorem keeps_next (h : Wf s) : Keeps (.next s) := by
  rintro t ⟨⟩
  exact h

theorem keeps_ite {p : Prop} [Decidable p] {a b : Ans} (ha : Keeps a) (hb : Keeps b) : Keeps (if p then a else b) := by
  split
  · exact ha
  · exact hb

/-! ## Loads and stores (08 R235 to R237; 10 R334) -/

theorem wf_acquired (o : Out) (h : Wf s) : Wf (s.acquired o) := wf_ite (wf_settleSeq _ _ h) (wf_settleSeq _ _ h)

theorem wf_pend (o : Out) (t : TrapRec) (h : Wf s) : Wf (s.pend o t) := wf_settleSeq _ _ h

theorem wf_landAnswer (o : Out) (w : RegWrite) (flags : DWord) (h : Wf s) : Wf (s.landAnswer o w flags) :=
  wf_ite (wf_settle _ _ (wf_landFinal _ _ h)) (wf_onBank _ _ (wf_land _ _ _ h))

theorem wf_performLoad (o : Out) (w : LoadForm) (ranges : List (Nat × Nat)) (held : List (Option Byte)) (cached : Bool) (fill : Option (Nat × Nat))
    (h : Wf s) : Wf (s.performLoad o w ranges held cached fill) := by
  unfold State.performLoad
  extract_lets u
  have h : Wf u := wf_ite (wf_foldl (fun _ _ h => wf_portRead _ _ _ h) _ h) h
  clear_value u
  split
  · exact wf_ite (wf_checks _ _ h) (wf_checks _ _ h)
  · exact h

theorem keeps_loadReturn (h : Wf s) : Keeps (execLoadReturn s) := by
  unfold execLoadReturn
  split
  next o _ =>
    split
    · exact keeps_ite (keeps_ite (keeps_next (wf_onBankSeq _ _ h)) (keeps_next (wf_pend _ _ (wf_acquired _ h))))
        (keeps_next (wf_acquired _ (wf_landAnswer _ _ _ h)))
    next w ranges held cached fill _ =>
      have read := wf_performLoad o w ranges held cached fill h
      have sampled : Wf (if ranges.any fun r => decide (r.1 < 2 ^ 64) then
          (s.performLoad o w ranges held cached fill).sampleAll 2 (s.now - o.issued : Nat) else s.performLoad o w ranges held cached fill) :=
        wf_ite read read
      exact keeps_ite (keeps_next (wf_acquired _ (wf_land _ _ _ sampled))) (keeps_next sampled)
    · exact keeps_next h
  · exact keeps_next h

theorem keeps_strikeWindow (h : Wf s) : Keeps (execStrikeWindow s) := by
  unfold execStrikeWindow
  split
  · split
    · exact keeps_next (wf_feDone _ _ (wf_store _ _ _ _ h))
    · exact keeps_next h
  · exact keeps_next h

theorem wf_tsetStep (o : Out) (gs : List Nat) (full : Bool) (h : Wf s) : Wf (s.tsetStep o gs full) := by
  have changed : Wf (if full then s.feDone [] (gs.take 16) else s.feDone (gs.take 16) []) := wf_ite (wf_feDone _ _ h) (wf_feDone _ _ h)
  exact wf_ite h (wf_ite h (wf_ite changed changed))

theorem wf_bcflStep (o : Out) (ls : List (Nat × Nat)) (inv : Bool) (last : Nat) (h : Wf s) : Wf (s.bcflStep o ls inv last) := wf_ite h h

theorem wf_kills (us : List Nat) (h : Wf s) : (us.foldl Mem.kill s.mem).wf = true := by
  have gen : ∀ m : Mem, m.wf = true → (us.foldl Mem.kill m).wf = true := by
    induction us with
    | nil => exact fun _ h => h
    | cons u us ih => exact fun m h => ih _ (m.wf_kill u h)
  exact gen _ h

theorem keeps_storePerformed (h : Wf s) : Keeps (execStorePerformed s) := by
  unfold execStorePerformed
  split
  · split
    · exact keeps_next (wf_store _ _ _ _ h)
    · exact keeps_next (wf_tsetStep _ _ _ h)
    · exact keeps_next (wf_kills _ h)
    · exact keeps_next (wf_bcflStep _ _ _ _ h)
    · exact keeps_next (wf_post _ _ _ _ _ _ h)
    · exact keeps_next h
  · exact keeps_next h

/-! ## Slots and boundaries (02 R48 to R52; 12 R372) -/

theorem keeps_parkedSlotRetry (h : Wf s) : Keeps (execParkedSlotRetry s) := by
  unfold execParkedSlotRetry
  split <;> exact keeps_next h

theorem keeps_parkedTooLong (h : Wf s) : Keeps (execParkedTooLong s) := by
  unfold execParkedTooLong
  split
  · split
    · exact keeps_next h
    · exact keeps_next (wf_ite (wf_unparked _ h) h)
  · exact keeps_next h

theorem keeps_trapEntry (h : Wf s) : Keeps (execTrapEntry s) := by
  unfold execTrapEntry
  split
  · exact keeps_next (wf_takeTrap _ h)
  · split
    · exact keeps_next (wf_takeTrap _ h)
    · exact keeps_next h

theorem keeps_outlierListFull (h : Wf s) : Keeps (execOutlierListFull s) := by
  unfold execOutlierListFull
  split
  · refine keeps_next (wf_enterTrap _ ?_)
    exact h
  · exact keeps_next h

/-! ## Engines (06 R180 to R186; 09 R265 to R293; 10 R323 to R331) -/

theorem keeps_tileOperationStart (h : Wf s) : Keeps (execTileOperationStart s) := by
  unfold execTileOperationStart
  split
  · split
    · exact keeps_next (wf_tileStart _ _ _ h)
    · exact keeps_next h
  · exact keeps_next h

theorem keeps_tileOperationCompletion (h : Wf s) : Keeps (execTileOperationCompletion s) := by
  unfold execTileOperationCompletion
  split
  · split
    · exact keeps_next (wf_tileGo _ _ _ h)
    · exact keeps_next h
  · exact keeps_next h

theorem keeps_copyCompletion (h : Wf s) : Keeps (execCopyCompletion s) := by
  unfold execCopyCompletion
  split
  · split
    · split
      · exact keeps_next h
      · exact keeps_next (wf_copyData _ _ _ _ _ _ _ h)
      · exact keeps_next h
      · exact keeps_next (wf_copyDone _ _ _ _ _ _ _ _ _ _ h)
    · exact keeps_next h
  · exact keeps_next (wf_others h)

theorem keeps_refillCompletion (h : Wf s) : Keeps (execRefillCompletion s) := by
  unfold execRefillCompletion
  split
  · split
    · split
      · exact keeps_next h
      · exact keeps_next (wf_portFetch _ _ (wf_checks _ _ h))
      · exact keeps_next (wf_leaveEngine _ (wf_landed _ _ _ _ _ h))
    · exact keeps_next h
  · exact keeps_next (wf_others h)

theorem keeps_shiftCompletion (h : Wf s) : Keeps (execShiftCompletion s) := by
  unfold execShiftCompletion
  split
  · split
    · split
      · exact keeps_next h
      · exact keeps_next (wf_written _ _ _ _ _ _ (wf_shiftParts _ _ _ _ _ _ h))
      · exact keeps_next h
      · exact keeps_next (wf_leaveEngine _ (wf_settle _ _ (wf_landed _ _ _ _ _ h)))
    · exact keeps_next h
  · exact keeps_next (wf_others h)

theorem keeps_reduceRound (h : Wf s) : Keeps (execReduceRound s) := by
  unfold execReduceRound
  split
  · split
    next n others _ c _ =>
      extract_lets l sorted lanes z fails rs u v
      have marked : Wf u := h
      clear_value u
      have answered : Wf v := wf_foldl (f := fun s r => s.roundAnswer r.1 fails z) (fun _ r h => wf_roundAnswer r.1 fails z h) rs marked
      exact keeps_ite (keeps_next h) (keeps_next (wf_ite (wf_failMembers _ _ answered) answered))
    · exact keeps_next h
  · exact keeps_next h

theorem keeps_atomicEngineServe (h : Wf s) : Keeps (execAtomicEngineServe s) := by
  unfold execAtomicEngineServe
  split
  · split
    · exact keeps_next (wf_ite h (wf_serveStep _ _ h))
    · exact keeps_next h
  · exact keeps_next h

theorem keeps_bobWaitAnswer (h : Wf s) : Keeps (execBobWaitAnswer s) := by
  unfold execBobWaitAnswer
  split
  · split
    · split
      · exact keeps_next (wf_atomReply _ _ _ _ _ _ h)
      · exact keeps_ite (keeps_next h) (keeps_ite (keeps_next (wf_settleBank _ _ _ h)) (keeps_next (wf_noteReady h)))
      · exact keeps_next h
    · exact keeps_next h
  · exact keeps_next h

theorem keeps_barrierRelease (h : Wf s) : Keeps (execBarrierRelease s) := by
  unfold execBarrierRelease
  split
  next n _ _ =>
    split
    · refine keeps_ite (keeps_next h) ?_
      split
      next t _ =>
        have free {u : State} (b : Bool) (h : Wf u) : Wf (if u.waitsOn b n then u.settleBank b id fun q => { q with cbarRel := some t } else u) :=
          wf_ite (wf_settleBank _ _ _ h) h
        extract_lets k u fr
        have h : Wf u := h
        exact keeps_next (free true (free false h))
      · exact keeps_next h
    · exact keeps_next h
  · exact keeps_next h

theorem keeps_cbarSuspend (h : Wf s) : Keeps (execCbarSuspend s) := by
  unfold execCbarSuspend
  extract_lets r
  have recorded : Wf r := wf_writeRecord _ _ _ _ h
  exact keeps_next (wf_ite recorded recorded)

/-! ## Dispatch, pre-emption and resumption (11 R343 to R352) -/

theorem wf_leaveBank (h : Wf s) : Wf s.leaveBank := wf_ite h h

theorem wf_startBead (b : Bead) (h : Wf s) : Wf (s.startBead b) := by
  unfold State.startBead
  split
  · exact h
  · exact wf_ite (wf_freshStrips _ h) h

theorem keeps_dispatchRound (h : Wf s) : Keeps (execDispatchRound s) :=
  keeps_next (wf_ite (wf_abortScan (wf_dispatchRound h)) (wf_dispatchRound h))

theorem keeps_beadStart (h : Wf s) : Keeps (execBeadStart s) := by
  unfold execBeadStart
  split
  next b bank at0 t _ =>
    have room : Wf (if bank ≠ ({ s with hub := { s.hub with placing := t } } : State).core.bank ∧ s.oq.state = .drained then
        ({ s with hub := { s.hub with placing := t } } : State).evict else { s with hub := { s.hub with placing := t } }) := wf_ite h h
    exact keeps_next (wf_startBead _ (wf_ite room (wf_leaveBank room)))
  · exact keeps_next h

theorem wf_evictParked (h : Wf s) : Wf s.evictParked := by
  have own : Wf (if s.evictable then s.evict else s) := wf_ite h h
  exact wf_ite h (wf_ite own own)

theorem keeps_contextDrainFinal (h : Wf s) : Keeps (execContextDrainFinal s) := by
  unfold execContextDrainFinal
  have first : Wf (if s.oq.state == .draining && (match s.oq.wait with
    | .watch t => decide (t ≤ s.now)
    | _ => false) then { s with
      oq := { s.oq with state := .drained, wait := .none }
      mem := s.mem.fill s.fresh (crownThrough s.oc.cbmap s.core.phys (s.oc.lastStrip + 0x68000)) 0x10000
      fresh := s.fresh + 1 } else s) := wf_ite h h
  exact keeps_next (wf_evictParked (wf_ite first first))

theorem wf_wakeGang (n : BitVec 20) (h : Wf s) : Wf (s.wakeGang n) := wf_ite h h

theorem wf_resumed (h : Wf s) : Wf s.resumed := by
  have left : Wf (if s.q.state ≠ .active && (s.bankReady s.c s.q || !s.bankReady s.oc s.oq) then s else s.leaveBank) :=
    wf_ite h (wf_leaveBank h)
  exact wf_wakeGang _ left

/-! ## The host, strikes and the hub's configuration (12 R381 to R387) -/

theorem keeps_translationRetry (h : Wf s) : Keeps (execTranslationRetry s) := keeps_next (wf_settleBank _ _ _ h)

theorem keeps_translationFail (h : Wf s) : Keeps (execTranslationFail s) := keeps_next (wf_settleBank _ _ _ h)

theorem keeps_resume (h : Wf s) : Keeps (execResume s) := keeps_next (wf_ite (wf_settleBank _ _ _ h) h)

theorem keeps_resetCore (h : Wf s) : Keeps (execResetCore s) := by
  have posted {t : State} (c : Ctx) (q : Seq) (h : Wf t) : Wf (if q.state = .empty then t else t.post 15 0 t.core.phys c.bead 0 0) :=
    wf_ite h (wf_post _ _ _ _ _ _ h)
  exact keeps_next (posted s.oc s.oq (posted s.c s.q h))

theorem wf_discard (bank : Bool) (h : Wf s) : Wf (s.discard bank).1 := by
  unfold State.discard
  dsimp only
  generalize (if bank = s.core.bank then (s.c, s.q) else (s.oc, s.oq)) = x
  split
  · exact h
  next u _ =>
    have back : (((s.core.took.filter fun x => x.1 == bank && decide (u.cycle ≤ x.2.2)).foldl (fun m x => m.setFull x.2.1 true) s.mem)).wf = true :=
      (congrArg cellsWf (foldl_cells (f := fun m (x : Bool × Nat × Nat) => m.setFull x.2.1 true) (fun _ _ => rfl) _ s.mem)).trans h
    generalize List.foldl _ s.mem _ = m at back ⊢
    have back : ∀ t : State, t.mem = m → Wf t := fun t e => (congrArg Mem.wf e).trans back
    split
    · exact wf_ite (back _ (by rfl)) (back _ (by rfl))
    · split
      · exact wf_ite (back _ (by rfl)) (back _ (by rfl))
      · exact h

theorem wf_discardAll (h : Wf s) : Wf s.discardAll.1 := by
  unfold State.discardAll
  extract_lets n o d hit
  have back : Wf d.1 := wf_discard _ (wf_discard _ h)
  clear_value d
  split
  · exact back
  · exact back

theorem wf_scanStands {d : State × Bool} (h : Wf s) (hd : Wf d.1) : Wf (s.scanStands d).1 := by
  unfold State.scanStands
  split
  · split
    · exact wf_abortScan h
    · split
      · exact wf_abortScan hd
      · exact hd
  · exact hd

theorem keeps_strikeReport (h : Wf s) : Keeps (execStrikeReport s) := by
  unfold execStrikeReport
  split
  · extract_lets mine d t core u here l
    have back : Wf u := wf_ite (wf_core _ (wf_scanStands h (wf_discardAll h))) h
    clear_value u
    exact keeps_ite (keeps_next (wf_post _ _ _ _ _ _ (wf_hub _ back))) (keeps_next (wf_hub _ back))
  · exact keeps_next h
  · exact keeps_next h

theorem keeps_strandTailWrite (h : Wf s) : Keeps (execStrandTailWrite s) := by
  unfold execStrandTailWrite
  split
  · exact keeps_ite (keeps_next (wf_post _ _ _ _ _ _ h)) (keeps_next (wf_noteReady (wf_setTail _ _ h)))
  · exact keeps_next h

theorem wf_postOwed (h : Wf s) : Wf s.postOwed := by
  unfold State.postOwed
  split
  next t w e _ _ => exact wf_ite h (wf_post (s := { s with now := t, hub := { s.hub with owed := none } }) _ _ _ _ _ _ h)
  · exact h

theorem keeps_hubConfigurationWrite (h : Wf s) : Keeps (execHubConfigurationWrite s) := by
  unfold execHubConfigurationWrite
  split
  · split
    case h_2 => exact keeps_next (wf_postOwed (wf_noteReady h))
    case h_3 => exact keeps_next (wf_postOwed (wf_noteReady (wf_poke _ _ h)))
    case h_4 => exact keeps_next (wf_postOwed h)
    all_goals exact keeps_next h
  · exact keeps_next h

/-! ## Refresh, power, monitors and links (09 R277, R295 to R300; 12 R388 to R402) -/

theorem keeps_normalRefresh (h : Wf s) : Keeps (execNormalRefresh s) := by
  unfold execNormalRefresh
  split
  · exact keeps_next (wf_ite h (wf_normalRefresh _ _ h))
  · exact keeps_next (wf_ite h (wf_ite h h))
  · exact keeps_next h

theorem keeps_forcedRefresh (h : Wf s) : Keeps (execForcedRefresh s) := by
  unfold execForcedRefresh
  split
  · exact keeps_next (wf_ite h (wf_refresh _ _ _ h))
  · exact keeps_next (wf_ite h h)
  · exact keeps_next h

theorem keeps_groupRefreshEnd (h : Wf s) : Keeps (execGroupRefreshEnd s) := by
  unfold execGroupRefreshEnd
  extract_lets core u
  have h : Wf u := h
  clear_value u
  exact keeps_next (wf_ite h (wf_catchUp h))

theorem wf_endDeferral (h : Wf s) : Wf s.endDeferral := by
  unfold State.endDeferral
  refine wf_catchUp ?_
  exact h

theorem wf_applyPark (h : Wf s) : Wf s.applyPark := by
  unfold State.applyPark
  extract_lets p core hub u
  have h : Wf u := h
  exact wf_ite (wf_evictParked (wf_abortScan h)) (wf_evictParked h)

theorem wf_setPower (p : Power) (h : Wf s) : Wf (s.setPower p) := wf_applyPark (wf_ite h h)

theorem keeps_pstepSample (h : Wf s) : Keeps (execPstepSample s) := by
  unfold execPstepSample
  split
  · exact keeps_next (wf_setPower _ h)
  · exact keeps_next h

theorem keeps_setPowerStep (h : Wf s) : Keeps (execSetPowerStep s) := by
  unfold execSetPowerStep
  split
  · exact keeps_next (wf_ite h (wf_setPower _ h))
  · exact keeps_next h

theorem keeps_throttleEvaluation (h : Wf s) : Keeps (execThrottleEvaluation s) := by
  unfold execThrottleEvaluation
  split
  · exact keeps_next (wf_setPower _ h)
  · exact keeps_next h

theorem keeps_sensorCheck (h : Wf s) : Keeps (execSensorCheck s) := by
  unfold execSensorCheck
  split
  · extract_lets p p' bad q u now hot warm cool lowered q' v
    have failed : Wf u := wf_foldl (fun _ _ h => wf_post _ _ _ _ _ _ h) _ h
    have tripped : Wf v := wf_ite (wf_post _ _ _ _ _ _ failed) failed
    exact keeps_next (wf_setPower _ tripped)
  · exact keeps_next h

theorem keeps_monitorSample (h : Wf s) : Keeps (execMonitorSample s) := by
  unfold execMonitorSample
  split
  · exact keeps_next h
  · extract_lets core u v t core' w
    have depth : Wf v := wf_ite h h
    have refused : Wf w := wf_ite depth depth
    clear_value w
    refine keeps_next ?_
    split
    · exact wf_ite refused refused
    · exact refused

theorem wf_loseCopy (o : Out) (h : Wf s) : Wf (s.loseCopy o) := by
  have stopped := wf_stopTransfer o (wf_settle o (·.addStatus 0x100) h)
  unfold State.loseCopy
  dsimp only
  split
  · split
    · exact wf_ite (wf_engineArrival _ _ stopped) stopped
    · exact stopped
  · exact stopped

theorem keeps_linkDown (h : Wf s) : Keeps (execLinkDown s) := by
  unfold execLinkDown
  split
  · exact keeps_next (wf_foldl (fun _ _ h => wf_loseCopy _ h) _ h)
  · exact keeps_next h

theorem keeps_routeRestore (h : Wf s) : Keeps (execRouteRestore s) := by
  unfold execRouteRestore
  split <;> exact keeps_next h

/-! ## The host and other packages (09 R278; 10 R324; 08 R231) -/

theorem wf_portAccess (i : Instr) (addr : DWord) (len : Nat) (data : Option (List Byte)) (h : Wf s) : Wf (s.portAccess i addr len data) := by
  unfold State.portAccess
  refine wf_ite h ?_
  split
  · exact wf_foldl (fun _ _ h => wf_post _ _ _ _ _ _ h) _ (Mem.wf_puts _ _ _ _ h)
  · exact wf_portRead _ _ _ (wf_checks _ _ h)

theorem keeps_cxlMemAccess (h : Wf s) : Keeps (execCxlMemAccess s) := by
  unfold execCxlMemAccess
  split
  · exact keeps_next (wf_ite (wf_portAccess _ _ _ _ h) h)
  · exact keeps_next h

theorem keeps_cxlCacheRecall (h : Wf s) : Keeps (execCxlCacheRecall s) := by
  unfold execCxlCacheRecall
  split
  · refine keeps_ite (keeps_next h) (keeps_next ?_)
    split
    · exact wf_poke _ _ h
    · exact h
  · exact keeps_next h

theorem keeps_remotePackageAccess (h : Wf s) : Keeps (execRemotePackageAccess s) := by
  unfold execRemotePackageAccess
  split
  · exact keeps_next (wf_ite (wf_portAccess _ _ _ _ h) h)
  · exact keeps_next h

theorem keeps_fallBackReadRequest (h : Wf s) : Keeps (execFallBackReadRequest s) := by
  unfold execFallBackReadRequest
  split
  · exact keeps_ite (keeps_next h) (keeps_next h)
  · exact keeps_next h

theorem keeps_objectInvalidation (h : Wf s) : Keeps (execObjectInvalidation s) := keeps_next (wf_portFetch _ _ h)

theorem keeps_atsInvalidation (h : Wf s) : Keeps (execAtsInvalidation s) := by
  unfold execAtsInvalidation
  split
  · exact keeps_ite (keeps_next h) (keeps_next h)
  · exact keeps_next h

/-! ## Scrubs, power failure and boot (12 R388, R399 to R408) -/

theorem keeps_patrolScrub (h : Wf s) : Keeps (execPatrolScrub s) := by
  unfold execPatrolScrub
  dsimp only
  split
  · exact keeps_next (wf_scrub _ _ h)
  · exact keeps_next h

theorem wf_publish (h : Wf s) : Wf s.publish := by
  unfold State.publish
  split
  · exact h
  · exact wf_poke _ _ h

theorem keeps_stackScrubPass (h : Wf s) : Keeps (execStackScrubPass s) := by
  unfold execStackScrubPass
  split
  · extract_lets c u n
    have poisoned : Wf u := wf_foldl (f := fun s g => { s with mem := s.mem.setPoison (g / 32 * 32) }.post 2 0 0xFFFF 0 (BitVec.ofNat 64 g)
      (s.dropWord s.c.cbmap (g / 32 * 32))) (fun s g h => wf_post (s := { s with mem := s.mem.setPoison (g / 32 * 32) }) _ _ _ _ _ _ h) _ h
    exact keeps_next (wf_publish poisoned)
  · exact keeps_next h

theorem keeps_powerFail (h : Wf s) : Keeps (execPowerFail s) := by
  unfold execPowerFail
  split
  · have ended : Wf (if s.scanEnded then s.testEnded else s.abortScan).endScan := wf_endScan (wf_ite (wf_testEnded h) (wf_abortScan h))
    exact keeps_next ended
  · exact keeps_next h

theorem keeps_powerReturn : Keeps (execPowerReturn s) := by
  unfold execPowerReturn
  extract_lets image boot mem hub t
  have empty : Wf t := rfl
  split
  · exact keeps_next (wf_ite empty empty)
  · exact keeps_next empty

theorem keeps_boot (h : Wf s) : Keeps (execBoot s) := by
  unfold execBoot
  dsimp only
  split
  · exact keeps_next h
  · exact keeps_next h

theorem keeps_attestation (h : Wf s) : Keeps (execAttestation s) := by
  unfold execAttestation
  split
  · exact keeps_ite (keeps_next h) (keeps_next h)
  · exact keeps_next h

theorem keeps_imageWrite (h : Wf s) : Keeps (execImageWrite s) := by
  unfold execImageWrite
  split <;> exact keeps_next h

theorem keeps_executableRegistration (h : Wf s) : Keeps (execExecutableRegistration s) := by
  unfold execExecutableRegistration
  split
  · exact keeps_next (wf_ite h h)
  · exact keeps_next h

end Sys2Proof.MemoryForm
end

section
/-! SUPPORT. O59: every instruction keeps memory in its canonical form. -/

namespace Sys2Proof.MemoryForm
open Sys2Proof Machine

variable {s : State}

/-! ## Slots C and V (04, 05) -/

/-- An operation of one or two sources under its guard. -/
theorem keeps_guarded {f : State → State} (hf : ∀ t, Wf t → Wf (f t)) (g : BitVec 3) (h : Wf s) : Keeps (.next (s.guarded g f)) :=
  keeps_next (wf_guarded hf g h)

theorem keeps_fp2 (f : FpEnv → Nat → Nat → Nat × Fl) (d a b : BitVec 5) (g : BitVec 3) (r : BitVec 2) (h : Wf s) : Keeps (fp2 f d a b g r s) := by
  refine keeps_next (wf_guarded (fun t h => ?_) g h)
  refine wf_finishFp ?_ _ h
  exact fun _ h => h

theorem keeps_loop (a : BitVec 5) (o : BitVec 21) (h : Wf s) : Keeps (execLoop a o s) := by
  have counted : Wf (if s.c.rx a = 0 then s else s.wx a (s.c.rx a - 1)) := wf_ite h h
  exact keeps_next (wf_ite counted (wf_ite counted counted))

theorem keeps_vsumx (d a : BitVec 6) (w : BitVec 2) (m : BitVec 3) (r : BitVec 2) (h : Wf s) : Keeps (execVsumx d a w m r s) := by
  refine keeps_next (wf_ite h (wf_ite h ?_))
  dsimp only
  split
  · exact wf_stopWith _ h
  next v e => exact wf_vFlags _ (fun fl => wf_finish _ _ _ _ (wf_vRead h e)) h

theorem keeps_vcvtPack (d a : BitVec 6) (c : BitVec 4) (w : BitVec 2) (m : BitVec 3) (r : BitVec 2) (h : Wf s) :
    Keeps (execVcvtPack d a c w m r s) := by
  refine keeps_next (wf_vIssue _ _ (wf_ite (wf_raise _ _ h) ?_) h)
  dsimp only
  split
  · exact wf_stopWith _ h
  next v e =>
    refine wf_vFlags _ (fun fl => ?_) h
    split
    · exact wf_stopWith _ h
    · exact wf_finishRaised _ _ _ _ (wf_finish _ _ _ _ (wf_packLanes _ _ _ _ _ _ _ _ _ (wf_vRead h e)))

/-! ## Work and system instructions (11, 12) -/

/-- The bead of a `spawn` enters its strand, or trap 0x17 says why not. -/
theorem wf_spawned {p q r : Prop} [Decidable p] [Decidable q] [Decidable r] (n : Nat) (a b c v : DWord) (bs : List Byte) (h : Wf s) :
    Wf (if p then (s.raise 0x17 a, none)
      else if q then (s.raise 0x17 b, none)
      else if r then (s.raise 0x17 c, none) else ((s.enqueue n bs).noteReady, some v) : State × Option DWord).1 := by
  split
  · exact wf_raise _ _ h
  split
  · exact wf_raise _ _ h
  split
  · exact wf_raise _ _ h
  · exact wf_noteReady (wf_enqueue _ _ h)

theorem keeps_spawn (d a b c : BitVec 5) (h : Wf s) : Keeps (execSpawn d a b c s) := by
  unfold execSpawn
  refine keeps_ite (keeps_next h) (keeps_ite (keeps_next (wf_raise _ _ h)) (keeps_ite (keeps_next (wf_raise _ _ h))
    (keeps_ite (keeps_next (wf_raise _ _ h)) (keeps_next (wf_released (fun t h => wf_sends _ ?_ ?_ h) h)))))
  · intro u h
    exact wf_spawned _ _ _ _ _ _ h
  · exact fun _ _ h => h

theorem keeps_retire (h : Wf s) : Keeps (execRetire s) := by
  refine keeps_next (wf_recording (fun t h => ?_) _ h)
  refine wf_noteReady ?_
  exact wf_freeBank (wf_countRetired _ (wf_leaveClasp h))

theorem keeps_join (d a b : BitVec 5) (h : Wf s) : Keeps (execJoin d a b s) := by
  have joined (n : Nat) (i : Instr) (c : BitVec 20) (size : Nat) (sync : Bool) :
      Wf (s.sends n (fun s => s.joinClasp i c size sync) fun w s => s.wx d w) :=
    wf_sends _ (fun _ h => wf_joinClasp _ _ _ _ h) (fun _ _ h => h) h
  unfold execJoin
  dsimp only
  split
  · exact keeps_next (wf_ite (wf_joinRecord _ _ h) (joined ..))
  · refine keeps_ite (keeps_next (wf_raise _ _ h)) (keeps_ite (keeps_next (wf_raise _ _ h)) (keeps_ite (keeps_next (wf_raise _ _ h)) ?_))
    split
    · exact keeps_next (wf_raise _ _ h)
    · exact keeps_next (joined ..)

theorem keeps_leave (h : Wf s) : Keeps (execLeave s) :=
  keeps_ite (keeps_next (wf_raise _ _ h)) (keeps_next (wf_sends _ (fun _ h => wf_leaveClasp h) (fun _ _ h => h) h))

theorem keeps_sleepu (a : BitVec 4) (h : Wf s) : Keeps (execSleepu a s) := by
  have recorded : Wf (s.recording true fun s => s.writeRecord 2 s.nextPc (s.c.ra a) id) := wf_recording (fun _ h => wf_writeRecord _ _ _ _ h) _ h
  unfold execSleepu
  dsimp only
  split
  · exact keeps_next (wf_ite (wf_wakeTest h) h)
  · exact keeps_next recorded
  · exact keeps_ite (keeps_next recorded) (keeps_ite (keeps_next (wf_wakeTest h)) (keeps_next h))

theorem keeps_cbar (d : BitVec 5) (h : Wf s) : Keeps (execCbar d s) := by
  unfold execCbar
  split
  · exact keeps_next (wf_raise _ _ h)
  · split
    · exact keeps_next h
    · exact keeps_next h
    · exact keeps_next (wf_suspending (fun _ h => wf_arrive _ _ h) h)

theorem wf_fill (lo n : Nat) (c : Ctx) (q : Machine.Seq) (k : Hub) (h : Wf s) :
    Wf { s with c := c, q := q, hub := k, mem := s.mem.fill s.fresh lo n, fresh := s.fresh + 1 } := h

theorem keeps_seg (a b : BitVec 4) (n : BitVec 2) (h : Wf s) : Keeps (execSeg a b n s) := by
  refine keeps_ite (keeps_next h) (keeps_next (wf_endSegment (fun t h => wf_ite h ?_) h))
  exact wf_fill _ _ _ _ _ h

theorem keeps_rte (h : Wf s) : Keeps (execRte s) := keeps_next (wf_privileged (fun _ h => wf_ite h h) h)

theorem keeps_halt (h : Wf s) : Keeps (execHalt s) := by
  refine keeps_next (wf_privileged (fun t h => ?_) h)
  split
  · exact wf_ite h h
  · exact wf_ite h h

theorem keeps_scan (d e : BitVec 5) (h : Wf s) : Keeps (execScan d e s) := by
  refine keeps_next (wf_privileged (fun t h => ?_) h)
  split
  · exact wf_ite h h
  · exact wf_ite h (wf_ite h h)

theorem keeps_cmap (d a b : BitVec 5) (h : Wf s) : Keeps (execCmap d a b s) := by
  refine keeps_next (wf_privileged (fun t h => wf_sends _ (fun u h => ?_) (fun _ _ h => h) h) h)
  dsimp only
  split
  · exact h
  · exact wf_mapCore _ _ h

theorem keeps_trmw (d h0 o l : BitVec 4) (k : BitVec 1) (h : Wf s) : Keeps (execTrmw d h0 o l k s) := by
  refine keeps_next (wf_privileged (fun t h => ?_) h)
  split
  · exact wf_fault _ _ _ h
  · refine wf_counted (fun u h => ?_) _ h
    have corrected (a n : Nat) : (u.mem.correctAll a n).wf = true := (Mem.wf_correctAll _ a n).trans h
    dsimp only
    split
    · exact corrected ..
    · exact corrected ..

theorem keeps_diagInjStrike (a b : BitVec 5) (h : Wf s) : Keeps (execDiagInjStrike a b s) :=
  keeps_next (wf_privileged (fun _ h => wf_ite h (wf_ite h h)) h)

/-! ## Memory access (08) -/

theorem keeps_hder (d h0 o l : BitVec 4) (k : BitVec 5) (h : Wf s) : Keeps (execHder d h0 o l k s) := by
  unfold execHder
  split
  · exact keeps_next (wf_fault _ _ _ h)
  · exact keeps_next h

/-- A load from crown leaves once its counter has room and its granules are full. -/
theorem wf_fetched (k : Ctr) (la n : Nat) {f : State → State} (hf : ∀ t, Wf t → Wf (f t)) (h : Wf s) :
    Wf (s.counted k fun s => s.whenFull (s.crownAt la) n f) := by
  refine wf_counted ?_ k h
  exact fun _ h => wf_whenFull hf _ _ h

theorem keeps_hld (h0 b a : BitVec 4) (i : BitVec 13) (h : Wf s) : Keeps (execHld h0 b a i s) := by
  unfold execHld
  extract_lets o
  split
  · exact keeps_next (wf_fault _ _ _ h)
  · refine keeps_next (wf_fetched _ _ _ ?_ h)
    intro t h
    exact wf_load _ _ _ _ _ _ _ h

theorem keeps_tvld (v : BitVec 6) (h0 a : BitVec 4) (w : BitVec 2) (i : BitVec 9) (h : Wf s) : Keeps (execTvld v h0 a w i s) := by
  refine keeps_next (wf_vField (fun t h => ?_) _ _ h)
  dsimp only
  split
  · exact wf_fault _ _ _ h
  · refine wf_counted (fun u h => wf_launchLoad _ _ _ _ (wf_foldl_fst ?_ _ _ h)) _ h
    exact fun _ _ h => wf_eccRead _ _ _ h

theorem keeps_tvst (v : BitVec 6) (h0 a : BitVec 4) (w : BitVec 2) (i : BitVec 9) (h : Wf s) : Keeps (execTvst v h0 a w i s) := by
  refine keeps_next (wf_vField (fun t h => ?_) _ _ h)
  dsimp only
  split
  · exact wf_fault _ _ _ h
  · refine wf_counted ?_ _ h
    exact fun _ h => h

theorem keeps_pcfg (p : BitVec 3) (h0 a : BitVec 4) (h : Wf s) : Keeps (execPcfg p h0 a s) := by
  unfold execPcfg
  extract_lets o
  split
  · exact keeps_next (wf_fault _ _ _ h)
  · refine keeps_next (wf_fetched _ _ _ ?_ h)
    intro u h
    extract_lets bs r set size
    have read : Wf r.1 := wf_eccRead _ _ _ h
    clear_value r
    split
    · exact wf_consume _ read
    · split
      · exact wf_fault _ _ _ read
      · exact wf_ctx _ (wf_launch _ _ _ _ _ read)

theorem keeps_pld (h0 a : BitVec 4) (e n : BitVec 6) (h : Wf s) : Keeps (execPld h0 a e n s) := by
  unfold execPld
  extract_lets count o swap
  refine keeps_ite (keeps_next h) ?_
  split
  · exact keeps_next (wf_fault _ _ _ h)
  · refine keeps_ite (keeps_next (wf_fault _ _ _ h)) (keeps_next (wf_fetched _ _ _ ?_ h))
    intro t h
    exact wf_load _ _ _ _ _ _ _ h

theorem keeps_scinvRange (h0 o l : BitVec 4) (h : Wf s) : Keeps (execScinvRange h0 o l s) := by
  unfold execScinvRange
  split
  · exact keeps_next (wf_fault _ _ _ h)
  · split
    · exact keeps_next h
    · exact keeps_next h

theorem keeps_bcfl (h0 o l : BitVec 4) (v : BitVec 1) (h : Wf s) : Keeps (execBcfl h0 o l v s) := by
  unfold execBcfl
  dsimp only
  split
  · exact keeps_next (wf_fault _ _ _ h)
  · refine keeps_next (wf_counted ?_ _ h)
    exact fun _ h => h

/-! ## Transfers (09) -/

theorem keeps_copy (d h0 m r a : BitVec 4) (fs fw ft bo : BitVec 1) (h : Wf s) : Keeps (execCopy d h0 m r a fs fw ft bo s) := by
  refine keeps_next (wf_recordPair _ _ (fun pair t h => ?_) h)
  dsimp only
  split
  · exact wf_fault _ _ _ h
  split
  · exact wf_fault _ _ _ h
  split
  · exact wf_raise _ _ h
  · exact wf_raise _ _ h
  split
  · exact wf_fault _ _ _ h
  · refine wf_ite (wf_raise _ _ h) (wf_ite (wf_raise _ _ h) (wf_counted ?_ _ h))
    exact fun _ h => wf_ite h (wf_beginLaunched h)

theorem keeps_wstr (h0 o l n p : BitVec 4) (h : Wf s) : Keeps (execWstr h0 o l n p s) := by
  unfold execWstr
  dsimp only
  split
  · exact keeps_next (wf_fault _ _ _ h)
  · exact keeps_ite (keeps_next (wf_fault _ _ _ h)) (keeps_ite (keeps_next (wf_raise _ _ h)) (keeps_ite (keeps_next h) (keeps_next h)))

theorem keeps_frfl (d h0 a w t : BitVec 4) (h : Wf s) : Keeps (execFrfl d h0 a w t s) := by
  have fault {f : Flt} {b c : BitVec 4} : Keeps (.next (s.fault f b c)) := keeps_next (wf_fault _ _ _ h)
  unfold execFrfl
  refine keeps_ite fault (keeps_ite fault ?_)
  dsimp only
  split
  · exact fault
  refine keeps_ite fault ?_
  split
  · exact fault
  split
  · exact fault
  split
  · exact keeps_next (wf_raise _ _ h)
  · refine keeps_ite (keeps_next (wf_raise _ _ h)) (keeps_next (wf_counted (fun u h => ?_) _ h))
    exact wf_beginLaunched h

theorem keeps_shift (r m : BitVec 2) (h0 a d l : BitVec 4) (h : Wf s) : Keeps (execShift r m h0 a d l s) := by
  have fault {f : Flt} {b c : BitVec 4} : Keeps (.next (s.fault f b c)) := keeps_next (wf_fault _ _ _ h)
  unfold execShift
  refine keeps_ite (keeps_next h) ?_
  dsimp only
  split
  · exact fault
  · refine keeps_ite fault (keeps_ite fault (keeps_ite fault (keeps_ite fault (keeps_ite fault (keeps_ite fault
      (keeps_ite (keeps_next (wf_raise _ _ h)) (keeps_next (wf_counted (fun u h => ?_) _ h))))))))
    exact wf_beginLaunched h

theorem keeps_reduce (d h0 a o k : BitVec 4) (h : Wf s) : Keeps (execReduce d h0 a o k s) := by
  have fault {f : Flt} {b c : BitVec 4} : Keeps (.next (s.fault f b c)) := keeps_next (wf_fault _ _ _ h)
  unfold execReduce
  refine keeps_ite (keeps_next (wf_raise _ _ h)) ?_
  dsimp only
  split
  · exact fault
  refine keeps_ite fault ?_
  split
  · exact fault
  next las _ =>
    refine keeps_ite fault (keeps_ite (keeps_next (wf_raise _ _ h)) (keeps_next (wf_counted (fun u h => ?_) _ h)))
    have read := wf_eccRead .x (u.crownAt (las.headD 0)) (4 * fld (s.c.ra k).toNat 0 11) h
    exact wf_ite (wf_consume _ read) read

/-! ## Refresh, dead rows and the task class (09 R298 to R303; 10) -/

theorem keeps_tdefer (a : BitVec 4) (h : Wf s) : Keeps (execTdefer a s) := keeps_ite (keeps_next (wf_ite (wf_endDeferral h) h)) (keeps_next h)

theorem keeps_tdead (h0 o l : BitVec 4) (h : Wf s) : Keeps (execTdead h0 o l s) := by
  unfold execTdead
  split
  · exact keeps_next (wf_fault _ _ _ h)
  · exact keeps_ite (keeps_next h) (keeps_next (wf_kills _ h))

theorem keeps_hdead (h0 o l : BitVec 4) (h : Wf s) : Keeps (execHdead h0 o l s) := by
  have fault {f : Flt} {b c : BitVec 4} : Keeps (.next (s.fault f b c)) := keeps_next (wf_fault _ _ _ h)
  unfold execHdead
  dsimp only
  split
  · exact fault
  · refine keeps_ite fault (keeps_ite fault (keeps_ite fault (keeps_ite (keeps_next (wf_raise _ _ h)) (keeps_next (wf_counted ?_ _ h)))))
    exact fun _ h => h

theorem keeps_drain (c : BitVec 3) (k : BitVec 2) (h : Wf s) : Keeps (execDrain c k s) :=
  keeps_ite (keeps_next h) (keeps_ite (keeps_next h) (keeps_ite (keeps_next h) (keeps_ite (keeps_next h) (keeps_next (wf_ite h h)))))

theorem keeps_bobWait (d : BitVec 5) (h0 a : BitVec 4) (x : BitVec 5) (h : Wf s) : Keeps (execBobWait d h0 a x s) := by
  unfold execBobWait
  split
  · exact keeps_ite (keeps_next h) (keeps_ite (keeps_next h) (keeps_next h))
  · exact keeps_next (wf_atomIssue _ _ _ _ _ _ (fun _ _ h => h) h)

theorem keeps_mdset (m : BitVec 3) (f : BitVec 4) (i : BitVec 15) (h : Wf s) : Keeps (execMdset m f i s) := by
  unfold execMdset
  split <;> exact keeps_next h

end Sys2Proof.MemoryForm
end

section
/-! SUPPORT. O59: what `exec` answers keeps memory in its canonical form, instruction by instruction and event by event. -/

namespace Sys2Proof.MemoryForm
open Sys2Proof Machine

variable {s : State}

theorem exec_keeps (i : Instr) (h : Wf s) : Keeps (exec i s) := by
  cases i
  all_goals simp only [exec]
  -- slot C: guarded operations, transfers, copies and status
  case add | sub | mul | mulh | mulhn | div | divn | rem | remn | and | or | xor | shl | shr | sar | min | max | minn | maxn | clz | popc
  | sel => exact keeps_guarded (fun _ h => wf_wx _ _ h) _ h
  case kand | kor | kxor | knot => exact keeps_guarded (fun _ h => wf_wk _ _ h) _ h
  case sext | zext => exact keeps_ite (keeps_next h) (keeps_guarded (fun _ h => wf_wx _ _ h) _ h)
  case cmp => exact keeps_ite (keeps_next h) (keeps_guarded (fun _ h => wf_wk _ _ h) _ h)
  case cmpi => exact keeps_ite (keeps_next h) (keeps_next h)
  case faddD | fsubD | fmulD | fdivD | fminD | fmaxD | fsqrtD | fcvtDI | fcvtDN | fcvtID | fcvtND | fcvtDS | fcvtSD => exact keeps_fp2 _ _ _ _ _ _ h
  case ffmaD => exact keeps_guarded (fun _ h => wf_finishFp (fun _ h => wf_wx _ _ h) _ h) _ h
  case fcmpD => exact keeps_ite (keeps_next h) (keeps_guarded (fun _ h => wf_finishFp (fun _ h => wf_wk _ _ h) _ h) _ h)
  case brk | brnk => exact keeps_next (wf_ite h h)
  case jr => exact keeps_guarded (fun _ h => wf_jumpReg (fun _ h => wf_wx _ _ h) _ h) _ h
  case ret => exact keeps_guarded (fun _ h => wf_jumpReg (f := id) (fun _ h => h) _ h) _ h
  case loop => exact keeps_loop _ _ h
  case xcV => exact keeps_ite (keeps_next h) (keeps_ite (keeps_next h) (keeps_next h))
  case xcM => exact keeps_ite (keeps_ite (keeps_next h) (keeps_next h)) (keeps_ite (keeps_next h) (keeps_next h))
  case srd => exact keeps_ite (keeps_next h) (keeps_ite (keeps_next h) (keeps_next h))
  case swr => exact keeps_ite (keeps_next h) (keeps_ite (keeps_next h) (keeps_ite (keeps_next (wf_raise _ _ h)) (keeps_next (wf_swr _ _ h))))
  case wait | fence | vpsw => exact keeps_ite (keeps_next h) (keeps_next h)
  case drain => exact keeps_drain _ _ h
  -- work and system instructions
  case spawn => exact keeps_spawn _ _ _ _ h
  case suspend | yield => exact keeps_next (wf_recording (fun _ h => wf_writeRecord _ _ _ _ h) _ h)
  case retire => exact keeps_retire h
  case join => exact keeps_join _ _ _ h
  case leave => exact keeps_leave h
  case cbar => exact keeps_cbar _ h
  case seg => exact keeps_seg _ _ _ h
  case sege => exact keeps_next (wf_endSegment (fun _ h => h) h)
  case trap => exact keeps_ite (keeps_next h) (keeps_next (wf_ite h h))
  case rte => exact keeps_rte h
  case halt => exact keeps_halt h
  case scan => exact keeps_scan _ _ h
  case cmap => exact keeps_cmap _ _ _ h
  case trmw => exact keeps_trmw _ _ _ _ _ h
  case sleepu => exact keeps_sleepu _ h
  case diagInjFlip => exact keeps_next (wf_inject _ _ _ _ Mem.wf_flipBit h)
  case diagInjCerr => exact keeps_next (wf_inject _ _ _ _ (fun m g n h => (m.wf_wrongBit g n).trans h) h)
  case diagInjPoison | diagInjTpoison => exact keeps_next (wf_inject _ _ _ _ (fun m g _ h => (m.wf_setPoison g).trans h) h)
  case diagInjStrike => exact keeps_diagInjStrike _ _ h
  -- slot V
  case vadd | vsub | vmul | vdiv | vsqrt | vrcp | vrsq | vmin | vmax | vabs | vneg | vsel | vclass | vaddH | vsubH | vmulH | vminH | vmaxH | vabsH
  | vnegH | vselH | vaddB | vsubB | vmulB | vminB | vmaxB | vabsB | vnegB | vselB | vand | vor | vxor | vnot | vscl | vexp2 | vlog2 | vtanh
  | vperm | vrot | vbcl => exact keeps_next (wf_laneOp _ _ _ _ _ h)
  case vfma | vfms | vfnma | vfmaH | vfmsH | vfnmaH | vfmaB | vfmsB | vfnmaB => exact keeps_next (wf_lane3 _ _ _ _ _ _ h)
  case vcmp | vcmpH | vcmpB | vicmp => exact keeps_next (wf_laneMask _ _ _ _ _ _ h)
  case viadd | visub | vimul => exact keeps_next (wf_ite h (wf_laneOp _ _ _ _ _ h))
  case vimad => exact keeps_next (wf_ite h (wf_lane3 _ _ _ _ _ _ h))
  case vaddx | vsubx | vmulx | dwadd | dwsub | dwmul | dwdiv | dwnorm => exact keeps_next (wf_pairOp _ _ _ _ _ _ h)
  case vsum | vmaxr | vminr => exact keeps_next (wf_reduction _ _ _ _ _ _ h)
  case vsumx => exact keeps_vsumx _ _ _ _ _ h
  case vshl | vshr | vsar => exact keeps_next (wf_shiftLanes _ _ _ _ _ _ _ h)
  case vmand | vmor | vmxor | vmnot => exact keeps_next (wf_maskOp _ _ _ h)
  case vcvtPack => exact keeps_vcvtPack _ _ _ _ _ _ h
  case vcvtUnpack => exact keeps_next (wf_ite (wf_raise _ _ h) (wf_laneOp _ _ _ _ _ h))
  case xcX | xcXl => exact keeps_next (wf_vIssue _ _ h h)
  -- slot M
  case mdset => exact keeps_mdset _ _ _ h
  case mdld | mdst => exact keeps_ite (keeps_next h) (keeps_next (wf_tileIssue _ _ _ h))
  case mbld | mzero | moutm | mma | mmaCk | mlu | mchol | mqr | mtrsm | mperm | mpiv => exact keeps_next (wf_tileIssue _ _ _ h)
  case xcXMatrix => exact keeps_ite (keeps_next h) (keeps_ite (keeps_next h) (keeps_ite (keeps_next h) (keeps_next h)))
  case blend0 | blend1 | blend2 | blend3 | blend4 | blend5 => exact keeps_next (wf_lend _ h)
  case bret0 | bret1 | bret2 | bret3 | bret4 | bret5 => exact keeps_next (wf_unlend _ h)
  -- slot T
  case hder => exact keeps_hder _ _ _ _ _ h
  case hld => exact keeps_hld _ _ _ _ h
  case hst | cst => exact keeps_next (wf_crownStore _ _ _ _ _ _ h)
  case scinvRange => exact keeps_scinvRange _ _ _ h
  case bcfl => exact keeps_bcfl _ _ _ _ h
  case ld | ldn => exact keeps_next (wf_globalLoad _ _ _ _ _ _ _ h)
  case st => exact keeps_next (wf_globalStore _ _ _ _ _ _ h)
  case vld | vlds => exact keeps_next (wf_vField (fun _ h => wf_globalLoad _ _ _ _ _ _ _ h) _ _ h)
  case vst | vsts => exact keeps_next (wf_vField (fun _ h => wf_globalStore _ _ _ _ _ _ h) _ _ h)
  case vgth => exact keeps_next (wf_vField (fun _ h => wf_indexed _ _ _ _ _ _ (fun _ _ h => wf_globalLoad _ _ _ _ _ _ _ h) h) _ _ h)
  case vsct => exact keeps_next (wf_vField (fun _ h => wf_indexed _ _ _ _ _ _ (fun _ _ h => wf_globalStore _ _ _ _ _ _ h) h) _ _ h)
  case cld => exact keeps_next (wf_crownLoad _ _ _ _ _ _ h)
  case cldVector => exact keeps_next (wf_vField (fun _ h => wf_crownLoad _ _ _ _ _ _ h) _ _ h)
  case cstVector => exact keeps_next (wf_vField (fun _ h => wf_crownStore _ _ _ _ _ _ h) _ _ h)
  case tvld => exact keeps_tvld _ _ _ _ _ h
  case tvst => exact keeps_tvst _ _ _ _ _ h
  case pcfg => exact keeps_pcfg _ _ _ h
  case pgo => exact keeps_ite (keeps_next (wf_raise _ _ h)) (keeps_ite (keeps_next (wf_raise _ _ h)) (keeps_next h))
  case pld => exact keeps_pld _ _ _ _ h
  case xcXAddress => exact keeps_ite (keeps_next h) (keeps_ite (keeps_next (wf_privileged (fun _ h => h) h)) (keeps_next h))
  -- the copy class and the task class
  case copy => exact keeps_copy _ _ _ _ _ _ _ _ _ h
  case wstr => exact keeps_wstr _ _ _ _ _ h
  case frfl => exact keeps_frfl _ _ _ _ _ h
  case shift => exact keeps_shift _ _ _ _ _ _ h
  case reduce => exact keeps_reduce _ _ _ _ _ h
  case cancel => exact keeps_next (wf_ite h (wf_onBank _ _ (wf_stopAll _ h)))
  case tdefer => exact keeps_tdefer _ h
  case tdead => exact keeps_tdead _ _ _ h
  case hdead => exact keeps_hdead _ _ _ h
  case atmAdd | atmFadd | atmMin | atmMax | atmAnd | atmOr | atmXor | atmXchg | atmCas | atmInc => exact keeps_next (wf_atomic _ _ _ _ _ _ _ h)
  case bobInit => exact keeps_next (wf_atomIssue _ _ _ _ _ _ (fun _ _ h => h) h)
  case bobArr => exact keeps_next (wf_released (fun _ h => wf_atomIssue _ _ _ _ _ _ (fun _ _ h => h) h) h)
  case bobWait => exact keeps_bobWait _ _ _ _ h
  case tsetf | tsete => exact keeps_next (wf_tset _ _ _ _ h)
  -- events
  case parkedSlotRetry => exact keeps_parkedSlotRetry h
  case parkedTooLong => exact keeps_parkedTooLong h
  case trapEntry => exact keeps_trapEntry h
  case outlierListFull => exact keeps_outlierListFull h
  case loadReturn => exact keeps_loadReturn h
  case translationRetry => exact keeps_translationRetry h
  case translationFail => exact keeps_translationFail h
  case strikeWindow => exact keeps_strikeWindow h
  case strikeReport => exact keeps_strikeReport h
  case dispatchRound => exact keeps_dispatchRound h
  case beadStart => exact keeps_beadStart h
  case contextDrainFinal => exact keeps_contextDrainFinal h
  case resumption => exact keeps_next (wf_resumed h)
  case strandTailWrite => exact keeps_strandTailWrite h
  case hubConfigurationWrite => exact keeps_hubConfigurationWrite h
  case executableRegistration => exact keeps_executableRegistration h
  case normalRefresh => exact keeps_normalRefresh h
  case forcedRefresh => exact keeps_forcedRefresh h
  case groupRefreshEnd => exact keeps_groupRefreshEnd h
  case deferralEnd => exact keeps_next (wf_endDeferral h)
  case tileOperationStart => exact keeps_tileOperationStart h
  case tileOperationCompletion => exact keeps_tileOperationCompletion h
  case copyCompletion => exact keeps_copyCompletion h
  case refillCompletion => exact keeps_refillCompletion h
  case shiftCompletion => exact keeps_shiftCompletion h
  case reduceRound => exact keeps_reduceRound h
  case atomicEngineServe => exact keeps_atomicEngineServe h
  case bobWaitAnswer => exact keeps_bobWaitAnswer h
  case barrierRelease => exact keeps_barrierRelease h
  case cbarSuspend => exact keeps_cbarSuspend h
  case resume => exact keeps_resume h
  case resetCore => exact keeps_resetCore h
  case linkDown => exact keeps_linkDown h
  case routeRestore => exact keeps_routeRestore h
  case objectInvalidation => exact keeps_objectInvalidation h
  case atsInvalidation => exact keeps_atsInvalidation h
  case cxlMemAccess => exact keeps_cxlMemAccess h
  case patrolScrub => exact keeps_patrolScrub h
  case monitorSample => exact keeps_monitorSample h
  case selfTestEnd => exact keeps_next (wf_testEnded h)
  case pstepSample => exact keeps_pstepSample h
  case setPowerStep => exact keeps_setPowerStep h
  case throttleEvaluation => exact keeps_throttleEvaluation h
  case sensorCheck => exact keeps_sensorCheck h
  case powerFail => exact keeps_powerFail h
  case powerReturn => exact keeps_powerReturn
  case boot => exact keeps_boot h
  case attestation => exact keeps_attestation h
  case storePerformed => exact keeps_storePerformed h
  case cxlCacheRecall => exact keeps_cxlCacheRecall h
  case remotePackageAccess => exact keeps_remotePackageAccess h
  case fallBackReadRequest => exact keeps_fallBackReadRequest h
  case stackScrubPass => exact keeps_stackScrubPass h
  case imageWrite => exact keeps_imageWrite h
  -- the rest changes registers, the sequencer or the monitors
  all_goals exact keeps_next h

end Sys2Proof.MemoryForm
end

section
/-! SUPPORT. O59: the stream, the end of a cycle and a step keep memory in its canonical form. -/

namespace Sys2Proof.MemoryForm
open Sys2Proof Machine

variable {s : State}

theorem keeps_fault {f : Fault} : Keeps (.fault f) := by rintro t ⟨⟩

theorem keeps_refused {r : Refusal} : Keeps (.refused r) := by rintro t ⟨⟩

/-! ## Grants, copies in their shadow and the slots (02 R48 to R57; 06 R174) -/

theorem wf_paced (o : Slotted) (h : Wf s) : Wf (s.paced o) := h

theorem wf_refuse (i : Nat) (h : Wf s) : Wf (s.refuse i) := wf_countStall i h

theorem wf_grantCopies (h : Wf s) : Wf s.grantCopies := by
  refine wf_ite h (wf_foldl (fun t o h => wf_refuse _ ?_) _ h)
  exact h

theorem wf_turnAway (i : Nat) (h : Wf s) : Wf (s.turnAway i) := by
  have away : Wf (if i = 14 then s.countStall 14 else s.refuse i) := wf_ite (wf_countStall _ h) (wf_refuse _ h)
  exact wf_ite away (wf_core _ away)

theorem wf_claimed (o : Slotted) (h : Wf s) : Wf (s.claimed o) := wf_ite h h

theorem wf_latched (o : Slotted) (quiet : Bool) (h : Wf s) : Wf (s.latched o quiet) := h

theorem wf_landShadow (n : Nat) (c : Shadow) (h : Wf s) : Wf (State.landShadow n s c) := wf_ite h h

theorem wf_landShadows (n : Nat) (h : Wf s) : Wf (s.landShadows n) := by
  refine wf_foldl (fun _ _ h => wf_landShadow _ _ h) _ ?_
  exact h

theorem wf_leaves (o : Slotted) (h : Wf s) : Wf (s.leaves o) := by
  unfold State.leaves
  split
  · exact wf_paced _ h
  · exact h
  · exact h
  · exact h

theorem wf_finishBundle (h : Wf s) : Wf s.finish := by
  unfold State.finish
  split
  · exact wf_ite h h
  · exact h

theorem wf_countStalledBy (l : List Nat) (h : Wf s) : Wf (s.countStalledBy l) := wf_foldl (fun _ _ h => wf_countStall _ h) l h

theorem wf_seq (q : Machine.Seq) (h : Wf s) : Wf { s with q := q } := h

theorem wf_enterIssueTrap (a : DWord) (t : TrapRec) (n : DWord) (h : Wf s) : Wf (s.enterIssueTrap a t n) := h

theorem runSlot_keeps (o : Slotted) (h : Wf s) : Keeps (s.runSlot o) := by
  refine keeps_ite (keeps_next h) (keeps_ite (keeps_next h) (keeps_ite (keeps_next (wf_ite h h)) ?_))
  split
  · exact keeps_next (wf_ite (wf_seq _ (wf_turnAway _ h)) (wf_turnAway _ h))
  · split
    next t e =>
      have done : Wf t := exec_keeps _ (wf_latched _ _ (wf_claimed o h)) t e
      exact keeps_next (wf_ite (wf_leaves _ done) done)
    · exact keeps_fault
    · exact keeps_refused

theorem runSlots_keeps (l : List Slotted) (h : Wf s) : Keeps (s.runSlots l) := by
  induction l generalizing s with
  | nil => exact keeps_next (wf_finishBundle h)
  | cons o l ih =>
    rw [State.runSlots]
    split
    next u e =>
      have run : Wf u := runSlot_keeps o h u e
      exact keeps_ite (ih run) (keeps_next run)
    · exact keeps_fault
    · exact keeps_refused

theorem retry_keeps (o : Slotted) (h : Wf s) : Keeps (s.retry o) := by
  unfold State.retry
  have landed : Wf ({ s with run := none }.landShadows (s.q.seq - 1)) := wf_landShadows _ h
  generalize State.landShadows _ _ = u at landed ⊢
  refine keeps_ite (keeps_next landed) (keeps_ite (keeps_next (wf_countStall _ (wf_seq _ (wf_unparked _ landed))))
    (keeps_ite (keeps_next (wf_countStalledBy _ (wf_seq _ (wf_unparked _ landed)))) ?_))
  split
  · exact keeps_next (wf_seq _ (wf_turnAway _ landed))
  · split
    next t e =>
      have done : Wf t := exec_keeps _ (wf_latched _ _ (wf_claimed o landed)) t e
      refine keeps_ite (keeps_next done) (keeps_next ?_)
      split
      · exact wf_paced _ (wf_seq _ (wf_unparked _ done))
      · exact wf_seq _ (wf_unparked _ done)
      · exact wf_seq _ done
      · exact wf_seq _ (wf_unparked _ done)
    · exact keeps_fault
    · exact keeps_refused

/-! ## Issue (02 R37 to R57) -/

theorem wf_fetchCheck (a : DWord) (h : Wf s) : Wf (s.fetchCheck a).1 := by
  unfold State.fetchCheck
  split
  · exact h
  · exact wf_checks _ _ h

theorem wf_fetchFault (a : DWord) (why : Option Nat) (h : Wf s) : Wf (s.fetchFault a why) :=
  wf_ite (wf_ite h (wf_seq _ (wf_noticeOwn _ _ _ _ h))) (wf_takeTrap _ h)

theorem wf_advance (a : DWord) (replayed iterating : Bool) (h : Wf s) : Wf (s.advance a replayed iterating) := h

theorem start_keeps (a : DWord) (left : Nat) (ops : List Slotted) (h : Wf s) : Keeps (s.start a left ops) := runSlots_keeps _ h

theorem header_keeps (a : DWord) (head : Option Instr) (h : Wf s) : Keeps (s.header a head) := by
  cases head with
  | none => exact keeps_next h
  | some i => exact exec_keeps i h

theorem issueOps_keeps (a : DWord) (done : BitVec 4) (raw ws : List Word) (replayed iterating : Bool) (head : Option Instr) (left : Nat)
    (held : List Nat) (h : Wf s) : Keeps (s.issueOps a done raw ws replayed iterating head left held) := by
  unfold State.issueOps
  extract_lets ops queued waits kept cost at0 q u
  split
  · exact keeps_next (wf_countStalledBy _ h)
  split
  · exact keeps_ite (keeps_next (wf_enterIssueTrap _ _ _ h)) (keeps_next h)
  · have h' : Wf u := wf_ite h h
    have kept : Wf (if iterating then u else u.keep a raw) := wf_ite h' h'
    refine keeps_ite (keeps_next (wf_countStalledBy _ h)) (keeps_ite (keeps_next (wf_countStall _ h)) ?_)
    split
    next v e =>
      have led : Wf v := header_keeps _ _ kept v e
      exact keeps_ite (keeps_next (wf_advance _ _ _ led)) (start_keeps _ _ _ (wf_advance _ _ _ led))
    · exact keeps_fault
    · exact keeps_refused

theorem issue_keeps (h : Wf s) : Keeps s.issue := by
  unfold State.issue
  have landed : Wf (s.landShadows s.q.seq) := wf_landShadows _ h
  generalize s.landShadows s.q.seq = u at landed ⊢
  dsimp only
  split
  · exact keeps_next (wf_ite (wf_fetchFault _ _ landed) landed)
  next ws _ =>
    have read : Wf (if (u.buffered u.upNext.1).isSome then (u, false) else (u.portFetch u.upNext.1.toNat 16).fetchCheck u.upNext.1).1 := by
      split
      · exact landed
      · exact wf_fetchCheck _ (wf_portFetch _ _ landed)
    generalize (if (u.buffered u.upNext.1).isSome then (u, false) else (u.portFetch u.upNext.1.toNat 16).fetchCheck u.upNext.1) = r at read ⊢
    refine keeps_ite (keeps_ite (keeps_next read) (keeps_ite (keeps_next (wf_fetchFault _ _ read))
      (keeps_ite (keeps_next (wf_seq _ read)) (keeps_next (wf_enterTrap _ read))))) ?_
    split
    · exact keeps_next (wf_ite (wf_enterIssueTrap _ _ _ read) read)
    split
    · exact issueOps_keeps _ _ _ _ _ _ _ _ _ read
    · exact issueOps_keeps _ _ _ _ _ _ _ _ _ read

theorem stream_keeps (h : Wf s) : Keeps s.stream := by
  unfold State.stream
  refine keeps_ite (keeps_next (wf_doRewind h)) ?_
  split
  · exact runSlots_keeps _ h
  split
  · exact keeps_next (wf_ite h h)
  · exact keeps_ite (keeps_next h) (keeps_ite (keeps_next (wf_countStall _ h)) (issue_keeps h))

/-! ## The end of a cycle, and a step -/

theorem wf_record (h : Wf s) : Wf s.record := wf_ite h h

theorem wf_tick (h : Wf s) : Wf s.tick := by
  have counted : Wf (if s.ticks then s.countStalls else s) := wf_ite (wf_countStalls h) h
  unfold State.tick
  extract_lets u
  have counted : Wf u := counted
  clear_value u
  refine wf_record ?_
  exact counted

theorem wf_handOver (h : Wf s) : Wf s.handOver := wf_ite (wf_resumed h) h

theorem wf_tileRun (id n : Nat) (h : Wf s) : Wf (s.tileRun id n) := by
  induction n generalizing s with
  | zero => exact h
  | succ n ih =>
    rw [State.tileRun]
    split
    · exact wf_ite (ih (wf_tileGo _ _ _ h)) h
    · exact h

theorem wf_tilesStart (h : Wf s) : Wf s.tilesStart := by
  refine wf_foldl (fun t o h => ?_) _ h
  split
  · exact wf_ite (wf_tileRun _ _ (wf_tileStart _ _ _ h)) h
  · exact h

theorem endCycle_keeps {a : Ans} (ha : Keeps a) : Keeps (endCycle a) := by
  cases a with
  | next t => exact keeps_next (wf_tick (wf_tilesStart (wf_handOver (ha t rfl))))
  | fault f => exact keeps_fault
  | refused r => exact keeps_refused

theorem cycle_keeps (h : Wf s) : Keeps s.cycle := by
  have granted : Wf (if s.ticks then s.grantCopies else s) := wf_ite (wf_grantCopies h) h
  exact endCycle_keeps (keeps_ite (stream_keeps granted) (keeps_next granted))

theorem happen_keeps (e : Instr × Payload) (h : Wf s) : Keeps (s.happen e) := exec_keeps e.1 h

theorem turn_keeps (h : Wf s) : Keeps s.turn := by
  unfold State.turn
  split
  · exact retry_keeps _ h
  split
  · split
    · exact happen_keeps _ h
    · exact happen_keeps _ h
  split
  · exact keeps_ite (keeps_next h) (happen_keeps _ h)
  · exact cycle_keeps h

/-- Settles O59: whatever a turn does, an instruction, an event or a cycle, it writes memory only through operations that keep its form. -/
theorem everyStepKeepsMemoryCanonical : Obligations.EveryStepKeepsMemoryCanonical :=
  fun _ _ h => keeps_ite keeps_fault (turn_keeps h) _

end Sys2Proof.MemoryForm
end

section
/-! SUPPORT. O32: arithmetic on address registers (08 R243, R244). -/

namespace Sys2Proof.AddressArithmeticOf
open Sys2Proof Machine Claims Laws

/-- Without an EXT header an immediate of slot T stands for its own sign extension (08 R242). -/
theorem ofInt_immT_none {n : Nat} (i : BitVec n) : BitVec.ofInt 64 (immT i none) = i.signExtend 64 := rfl

/-- With one, for the sign extension of the lent bits above it. -/
theorem ofInt_immT_some {n : Nat} (i : BitVec n) (e : Ext) : BitVec.ofInt 64 (immT i (some e)) = (e.t ++ i).signExtend 64 := rfl

/-- A shift by a register takes its low six bits. -/
theorem shiftLeft_mod_eq (x y : DWord) : x <<< (y.toNat % 64) = x <<< (y &&& 63) := by
  rw [BitVec.shiftLeft_eq', IntegerControl.amount_toNat]

/-- A shift by an immediate takes its six bits. -/
theorem shiftLeft_setWidth_eq (x : DWord) (n : BitVec 6) : x <<< (n.setWidth 64).toNat = x <<< n := by
  rw [BitVec.shiftLeft_eq', BitVec.toNat_setWidth, Nat.mod_eq_of_lt (Nat.lt_of_lt_of_le n.isLt (by decide))]

/-- Settles O32. -/
theorem addressArithmetic : Obligations.AddressArithmetic := by
  intro s d a b i n j
  refine ⟨⟨_, rfl, writesA_wa ..⟩, ⟨_, rfl, writesA_wa ..⟩, ⟨_, rfl, writesA_of (shiftLeft_mod_eq ..)⟩,
    ⟨_, rfl, writesA_of (shiftLeft_setWidth_eq ..)⟩, fun he => ?_, fun e he => ?_⟩
  · refine ⟨⟨_, rfl, writesA_of ?_⟩, ⟨_, rfl, writesA_of ?_⟩, ⟨_, rfl, writesA_of ?_⟩⟩ <;> rw [he, ofInt_immT_none]
  · refine ⟨⟨_, rfl, writesA_of ?_⟩, ⟨_, rfl, writesA_of ?_⟩, ⟨_, rfl, writesA_of ?_⟩⟩ <;> rw [he, ofInt_immT_some]

end Sys2Proof.AddressArithmeticOf
end

section
/-! SUPPORT. O33 to O38: accesses of slot T. What a failing check reports (08 R228), the offset of an access (08 R227), and the issue checks of a
v field (08 R239, R242). -/

namespace Sys2Proof.SlotTAccess
open Sys2Proof Machine Claims Laws

variable {s : State}

/-- The report of a failing check is the word of its trap. -/
theorem accessInfo_eq_accessWord {f : Flt} (hr : f.reason < 16) (h a : BitVec 4) : accessInfo f h a = accessWord f.reason h a f.off := by
  rw [accessInfo, accessWord, Nat.mod_eq_of_lt hr]; rfl

/-- A failing check with nothing absent is an execution fault with that word. -/
theorem faults_fault {code : BitVec 8} {reason : Nat} (hr : reason < 16) (off : Int) (h a : BitVec 4) :
    Faults s (s.fault ⟨code, reason, off, none⟩ h a) code (accessWord reason h a off) := by
  rw [← accessInfo_eq_accessWord (f := ⟨code, reason, off, none⟩) hr]
  exact faults_raise ..

/-- The model's offset of an access is the statement's. -/
theorem offset_immT {n : Nat} (s : State) (a : BitVec 4) (k : Nat) (i : BitVec n) : s.offset a (k * immT i s.lat.ext) = offsetOf s a k i := by
  unfold State.offset offsetOf immT
  cases s.lat.ext <;> rfl

theorem offset_immT_32 {n : Nat} (s : State) (a : BitVec 4) (i : BitVec n) : s.offset a (32 * immT i s.lat.ext) = offsetOf s a 32 i :=
  offset_immT s a 32 i

theorem offset_immT_16 {n : Nat} (s : State) (a : BitVec 4) (i : BitVec n) : s.offset a (16 * immT i s.lat.ext) = offsetOf s a 16 i :=
  offset_immT s a 16 i

theorem canRead_eq : canRead = hRd := rfl
theorem canWrite_eq : canWrite = hWr := rfl

theorem offset_zero (s : State) (a : BitVec 4) : s.offset a 0 = (s.c.ra a).toInt := Int.add_zero _

/-- A v field that names a register whose bank is not lent passes its checks. -/
theorem vField_ready {v : BitVec 6} {w : BitVec 2} (hv : VReady s w [v]) (f : State → State) : s.vField v w f = f s := by
  obtain ⟨hw, hr⟩ := hv
  obtain ⟨h48, hlent⟩ := hr v (List.mem_singleton_self v)
  have h1 : ¬ (48 ≤ v.toNat ∨ w = 3) := not_or.mpr ⟨Nat.not_le.mpr h48, hw⟩
  have h2 : ¬ State.vField.lentV' s.lat.iss.lent v.toNat = true := by rw [State.vField.lentV', hlent]; decide
  rw [State.vField, if_neg h1, if_neg h2]

theorem four_lanesOf (w : BitVec 2) : 4 * lanesOf w = 128 * 2 ^ w.toNat := by rw [lanesOf]; omega

theorem lanesOf_div (w : BitVec 2) : lanesOf w / 8 = 4 * 2 ^ w.toNat := by rw [lanesOf]; omega

/-- An operation that a counter still holds goes on. -/
theorem counted_of_lt {k : Ctr} (h : s.count k < 63) (f : State → State) : s.counted k f = f s := by
  rw [State.counted, if_neg (Nat.not_le.mpr h)]

/-- A read whose granules are full goes on, no longer waiting. -/
theorem whenFull_of_full {a n : Nat} (h : s.mem.isFull a n = true) (f : State → State) : s.whenFull a n f = f s.unwatch := by
  rw [State.whenFull, if_pos h]

end Sys2Proof.SlotTAccess
end

section
/-! SUPPORT. O33: what `hder` derives and what it reports (08 R245), and the fields of a handle made of its parts (08 Table 8-1). -/

namespace Sys2Proof.HandleDerivation
open Sys2Proof Machine Claims Laws SlotTAccess

/-! ## The fields of a handle made of its parts -/

theorem mkHandle_toNat (cls obj base len rights : Nat) :
    (mkHandle cls obj base len rights).toNat =
      len % 2 ^ 48 + base % 2 ^ 48 * 2 ^ 48 + obj % 2 ^ 23 * 2 ^ 96 + rights % 32 * 2 ^ 119 + cls % 16 * 2 ^ 124 := by
  rw [mkHandle, BitVec.toNat_ofNat]
  omega

theorem hLen_mkHandle (cls obj base len rights : Nat) : hLen (mkHandle cls obj base len rights) = len % 2 ^ 48 := by
  rw [hLen, fld, mkHandle_toNat]; omega

theorem hBase_mkHandle (cls obj base len rights : Nat) : hBase (mkHandle cls obj base len rights) = base % 2 ^ 48 := by
  rw [hBase, fld, mkHandle_toNat]; omega

theorem hObj_mkHandle (cls obj base len rights : Nat) : hObj (mkHandle cls obj base len rights) = obj % 2 ^ 23 := by
  rw [hObj, fld, mkHandle_toNat]; omega

theorem hClass_mkHandle (cls obj base len rights : Nat) : hClass (mkHandle cls obj base len rights) = cls % 16 := by
  rw [hClass, fld, mkHandle_toNat]; omega

/-- Right `k` of a handle is bit `k` of its rights. -/
theorem getLsbD_mkHandle (cls obj base len rights k : Nat) (hk : k < 5) :
    (mkHandle cls obj base len rights).getLsbD (119 + k) = rights.testBit k := by
  rw [BitVec.getLsbD, mkHandle_toNat, Nat.testBit_eq_decide_div_mod_eq, Nat.testBit_eq_decide_div_mod_eq]
  congr 1
  interval_cases k <;> simp <;> omega

/-- The rights of a derived handle as a number: co, dv, at, wr, rd from bit 0 up. -/
def rightsOf (co dv at' wr rd : Bool) : Nat :=
  (if co then 1 else 0) + (if dv then 2 else 0) + (if at' then 4 else 0) + (if wr then 8 else 0) + (if rd then 16 else 0)

theorem rightsOf_testBit (co dv at' wr rd : Bool) :
    (rightsOf co dv at' wr rd).testBit 0 = co ∧ (rightsOf co dv at' wr rd).testBit 1 = dv ∧ (rightsOf co dv at' wr rd).testBit 2 = at' ∧
    (rightsOf co dv at' wr rd).testBit 3 = wr ∧ (rightsOf co dv at' wr rd).testBit 4 = rd := by
  revert co dv at' wr rd; decide

theorem hClass_lt (h : QWord) : hClass h < 16 := Nat.mod_lt _ (by decide)
theorem hObj_lt (h : QWord) : hObj h < 2 ^ 23 := Nat.mod_lt _ (by decide)
theorem hLen_lt (h : QWord) : hLen h < 2 ^ 48 := Nat.mod_lt _ (by decide)

/-! ## What `hder` answers -/

/-- What a derived handle keeps of the one it is derived from: class and object, the rights that it may keep, and the new length. -/
def Derived (H : QWord) (L : DWord) (k : BitVec 5) (v : QWord) : Prop :=
  hClass v = hClass H ∧ hObj v = hObj H ∧ hLen v = L.toNat ∧ hRd v = (hRd H && k.getLsbD 4) ∧ hWr v = (hWr H && k.getLsbD 3) ∧
  hAt v = (hAt H && k.getLsbD 2) ∧ hDv v = (hDv H && k.getLsbD 1) ∧ hCo v = (hCo H && k.getLsbD 0)

/-- The rights that a derived handle keeps. -/
def keptRights (H : QWord) (k : BitVec 5) : Nat :=
  rightsOf (hCo H && k.getLsbD 0) (hDv H && k.getLsbD 1) (hAt H && k.getLsbD 2) (hWr H && k.getLsbD 3) (hRd H && k.getLsbD 4)

/-- The handle that `derive` makes of a base keeps the rest. -/
theorem derived_mkHandle (H : QWord) (L : DWord) (k : BitVec 5) (base : Nat) (hl : L.toNat < 2 ^ 48) :
    Derived H L k (mkHandle (hClass H) (hObj H) base L.toNat (keptRights H k)) := by
  obtain ⟨co, dv, at', wr, rd⟩ := rightsOf_testBit (hCo H && k.getLsbD 0) (hDv H && k.getLsbD 1) (hAt H && k.getLsbD 2)
    (hWr H && k.getLsbD 3) (hRd H && k.getLsbD 4)
  exact ⟨(hClass_mkHandle ..).trans (Nat.mod_eq_of_lt (hClass_lt H)), (hObj_mkHandle ..).trans (Nat.mod_eq_of_lt (hObj_lt H)),
    (hLen_mkHandle ..).trans (Nat.mod_eq_of_lt hl), (getLsbD_mkHandle _ _ _ _ _ 4 (by decide)).trans rd,
    (getLsbD_mkHandle _ _ _ _ _ 3 (by decide)).trans wr, (getLsbD_mkHandle _ _ _ _ _ 2 (by decide)).trans at',
    (getLsbD_mkHandle _ _ _ _ _ 1 (by decide)).trans dv, (getLsbD_mkHandle _ _ _ _ _ 0 (by decide)).trans co⟩

/-- `derive`, its checks in order (08 R245). -/
theorem derive_eq (H : QWord) (o l : DWord) (k : BitVec 5) :
    derive H o l k =
      let bad (code : BitVec 8) (reason : Nat) : Except Flt QWord := .error { code := code, reason := reason, off := o.toInt }
      if hClass H = 0 then bad 0x05 0
      else if 5 ≤ hClass H then bad 0x08 0
      else if hDv H = false then bad 0x07 0
      else if hClass H = 1 then
        if hLen H < o.toNat % 2 ^ 23 + l.toNat then bad 0x06 1
        else .ok (mkHandle (hClass H) (hObj H) ((hBase H / 2 ^ 23 % 2 ^ 16 &&& o.toNat / 2 ^ 23 % 2 ^ 16) * 2 ^ 23 +
          (hBase H % 2 ^ 23 + o.toNat % 2 ^ 23) % 2 ^ 23) l.toNat (keptRights H k))
      else if hLen H < o.toNat + l.toNat then bad 0x06 1
      else .ok (mkHandle (hClass H) (hObj H) (hBase H + o.toNat) l.toNat (keptRights H k)) := by
  simp only [derive, fld, Nat.pow_zero, Nat.div_one, Bool.not_eq_true']
  by_cases h1 : hClass H = 1
  · simp only [h1]; rfl
  · simp only [if_neg h1]; rfl

/-- A failing derivation is reported. -/
theorem hder_error {s : State} {d h o l : BitVec 4} {k : BitVec 5} {code : BitVec 8} {reason : Nat} {off : Int}
    (hd : derive (s.c.rh h) (s.c.ra o) (s.c.ra l) k = .error { code := code, reason := reason, off := off }) (hr : reason < 16) :
    ∃ t, exec (.hder d h o l k) s = .next t ∧ Faults s t code (accessWord reason h o off) := by
  refine ⟨s.fault ⟨code, reason, off, none⟩ h o, ?_, faults_fault hr off h o⟩
  simp only [exec, execHder, hd]

/-- A derived handle is written to h(d). -/
theorem hder_ok {s : State} {d h o l : BitVec 4} {k : BitVec 5} {base : Nat} (hl : (s.c.ra l).toNat < 2 ^ 48)
    (hd : derive (s.c.rh h) (s.c.ra o) (s.c.ra l) k =
      .ok (mkHandle (hClass (s.c.rh h)) (hObj (s.c.rh h)) base (s.c.ra l).toNat (keptRights (s.c.rh h) k))) :
    ∃ v, (∃ t, exec (.hder d h o l k) s = .next t ∧ WritesH s t d v ∧ Derived (s.c.rh h) (s.c.ra l) k v) ∧ hBase v = base % 2 ^ 48 := by
  refine ⟨_, ⟨s.wh d _, ?_, writesH_wh s d _, derived_mkHandle _ _ k base hl⟩, hBase_mkHandle ..⟩
  simp only [exec, execHder, hd]

/-- The two parts of the base of a derived W handle: towers from bit 23 up, below them the offset in each (08 R245). -/
theorem towerBase_parts (x y f : Nat) :
    ((x % 2 ^ 16 &&& y) * 2 ^ 23 + f % 2 ^ 23) % 2 ^ 48 % 2 ^ 23 = f % 2 ^ 23 ∧
      ((x % 2 ^ 16 &&& y) * 2 ^ 23 + f % 2 ^ 23) % 2 ^ 48 / 2 ^ 23 = (x % 2 ^ 16 &&& y) := by
  have h : x % 2 ^ 16 &&& y < 2 ^ 16 := Nat.lt_of_le_of_lt Nat.and_le_left (Nat.mod_lt _ (by decide))
  omega

/-- Settles O33: `derive` makes the statement's checks in the statement's order, and a handle made of its parts has these parts. -/
theorem handlesAreDerived : Obligations.HandlesAreDerived := by
  intro s d h o l k H O L bad good
  refine ⟨⟨_, rfl, writesH_wh ..⟩, ?_⟩
  have hLt : hLen H < 2 ^ 48 := hLen_lt H
  have he := derive_eq H O L k
  split
  next h0 => exact hder_error (he.trans (if_pos h0)) (by decide)
  next h0 =>
  rw [if_neg h0] at he
  split
  next h5 => exact hder_error (he.trans (if_pos h5)) (by decide)
  next h5 =>
  rw [if_neg h5] at he
  split
  next hv => exact hder_error (he.trans (if_pos hv)) (by decide)
  next hv =>
  rw [if_neg hv] at he
  split
  next h1 =>
    rw [if_pos h1] at he
    split
    next hl => exact hder_error (he.trans (if_pos hl)) (by decide)
    next hl =>
      obtain ⟨v, hg, hb⟩ := hder_ok (d := d) (by omega : L.toNat < 2 ^ 48) (he.trans (if_neg hl))
      obtain ⟨hlow, hhigh⟩ := towerBase_parts (hBase H / 2 ^ 23) (O.toNat / 2 ^ 23 % 2 ^ 16) (hBase H % 2 ^ 23 + O.toNat % 2 ^ 23)
      exact ⟨v, hg, hb ▸ hlow, hb ▸ hhigh⟩
  next h1 =>
    rw [if_neg h1] at he
    split
    next hl => exact hder_error (he.trans (if_pos hl)) (by decide)
    next hl => exact hder_ok (by omega : L.toNat < 2 ^ 48) (he.trans (if_neg hl))

end Sys2Proof.HandleDerivation
end

section
/-! SUPPORT. O34: the checks of an access to crown and of one to global memory, in their order (08 R227 to R229). -/

namespace Sys2Proof.AccessChecks
open Sys2Proof Machine Claims Laws SlotTAccess

variable {s : State}

/-- An aligned element of 1 to 8 bytes lies in one strip (08 R227). -/
theorem fdiv_strip_aligned {c : Int} (z : BitVec 2) (hc : c % (2 ^ z.toNat : Nat) = 0) :
    c.fdiv (2 ^ 19) = (c + (2 ^ z.toNat : Nat) - 1).fdiv (2 ^ 19) := by
  rw [Int.fdiv_eq_ediv_of_nonneg _ (by decide), Int.fdiv_eq_ediv_of_nonneg _ (by decide)]
  have hz := z.isLt
  generalize z.toNat = m at hc hz ⊢
  interval_cases m <;> norm_num at hc ⊢ <;> omega

/-- An aligned element that ends above the crown begins above it. -/
theorem crown_end_aligned {c : Int} (z : BitVec 2) (hc : c % (2 ^ z.toNat : Nat) = 0) (h : 2 ^ 23 < c + (2 ^ z.toNat : Nat)) : 2 ^ 23 ≤ c := by
  have hz := z.isLt
  generalize z.toNat = m at hc hz h
  interval_cases m <;> norm_num at hc h ⊢ <;> omega

/-- The window check, said as the statement says it. -/
theorem not_inWindow_iff (h : QWord) (o : Int) (n : Nat) : (!inWindow h o n) = true ↔ o < 0 ∨ (hLen h : Int) < o + n := by
  rw [inWindow, Bool.not_eq_true', decide_eq_false_iff_not]
  omega

/-- Alignment, limits and window of an aligned element of crown. -/
theorem crownElem_eq (H : QWord) (o : Int) (z : BitVec 2) :
    crownElem H o (2 ^ z.toNat) (2 ^ z.toNat) =
      if ((hBase H : Int) + o) % (2 ^ z.toNat : Nat) ≠ 0 then .error ⟨0x04, 0, o, none⟩
      else if (2 ^ 23 : Int) < hBase H + o + (2 ^ z.toNat : Nat) then .error ⟨0x06, 2, o, none⟩
      else if o < 0 ∨ (hLen H : Int) < o + (2 ^ z.toNat : Nat) then .error ⟨0x06, 1, firstOutside H o, none⟩
      else .ok ((hBase H : Int) + o).toNat := by
  rw [crownElem]
  by_cases ha : ((hBase H : Int) + o) % (2 ^ z.toNat : Nat) = 0
  · rw [if_neg (not_not.mpr ha), if_neg (not_not.mpr ha), ← fdiv_strip_aligned z ha]
    by_cases he : (2 ^ 23 : Int) < hBase H + o + (2 ^ z.toNat : Nat)
    · have hc := crown_end_aligned z ha he
      rw [if_pos ⟨by omega, .inr he⟩, if_pos he, pastStrip, if_pos hc, Int.add_zero]
    · rw [if_neg (by rintro ⟨-, h | h⟩ <;> contradiction), if_neg he]
      simp only [not_inWindow_iff]
  · rw [if_pos ha, if_pos ha]

/-- The checks of a crown access of an aligned element, in order. -/
theorem crownCheck_eq (h : BitVec 4) (o : Int) (z : BitVec 2) (right : QWord → Bool) :
    s.crownCheck h o (2 ^ z.toNat) (2 ^ z.toNat) right =
      let H := s.c.rh h
      if hClass H = 0 then .error ⟨0x05, 0, o, none⟩
      else if hClass H ≠ 2 then .error ⟨0x08, 0, o, none⟩
      else if hObj H ≠ s.logical then .error ⟨0x08, 1, o, none⟩
      else if right H = false then .error ⟨0x07, 0, o, none⟩
      else crownElem H o (2 ^ z.toNat) (2 ^ z.toNat) := by
  rw [State.crownCheck, checkHandle]
  by_cases h0 : hClass (s.c.rh h) = 0
  · simp [h0]
  by_cases h2 : hClass (s.c.rh h) = 2
  · by_cases ho : hObj (s.c.rh h) = s.logical
    · cases hr : right (s.c.rh h) <;> simp [h2, ho, hr]
    · simp [h2, ho]
  · simp [h0, h2]

/-- The checks of a global access of one element, in order. -/
theorem globalCheck_eq (h : BitVec 4) (p : Int) (n : Nat) (right : QWord → Bool) :
    s.globalCheck h [p] n n right =
      let H := s.c.rh h
      if hClass H = 0 then .error ⟨0x05, 0, p, none⟩
      else if hClass H ≠ 3 ∧ hClass H ≠ 4 then .error ⟨0x08, 0, p, none⟩
      else if right H = false then .error ⟨0x07, 0, p, none⟩
      else resolveAll (fun o => s.hub.globalElem H o n n) [p] := by
  rw [State.globalCheck, checkHandle]
  by_cases h0 : hClass (s.c.rh h) = 0
  · simp [h0]
  by_cases h34 : hClass (s.c.rh h) = 3 ∨ hClass (s.c.rh h) = 4
  · have h2 : ¬ hClass (s.c.rh h) ≤ 2 := by omega
    have hc : ¬ (hClass (s.c.rh h) ≠ 3 ∧ hClass (s.c.rh h) ≠ 4) := by omega
    cases hr : right (s.c.rh h) <;> simp [h0, h34, h2, hc, hr]
  · obtain ⟨h3, h4⟩ := not_or.mp h34
    simp [h0, h3, h4]

theorem resolveAll_singleton_error {α β : Type} {f : α → Except Flt β} {x : α} {e : Flt} (h : f x = .error e) : resolveAll f [x] = .error e := by
  rw [resolveAll, h]

theorem resolveAll_singleton_ok {α β : Type} {f : α → Except Flt β} {x : α} {y : β} (h : f x = .ok y) : resolveAll f [x] = .ok [y] := by
  rw [resolveAll, h]; rfl

/-- Alignment and window of a global element, before its translation. -/
theorem globalElem_eq (k : Hub) (H : QWord) (p : Int) (n : Nat) :
    k.globalElem H p n n =
      if ((hBase H : Int) + p) % n ≠ 0 then .error ⟨0x04, 0, p, none⟩
      else if p < 0 ∨ (hLen H : Int) < p + n then .error ⟨0x06, 1, firstOutside H p, none⟩
      else k.translate H p n := by
  rw [Hub.globalElem]
  simp only [not_inWindow_iff]

/-- The translation by the entry of an object that is present, to a device-half address (08 R229, R231). -/
theorem translate_present {k : Hub} {H : QWord} {p : Int} {n e : Nat} (he : k.object (hObj H) = some e) (hp : oPresent e = true) :
    let g := oBase e + ((hBase H : Int) + p).toNat
    (oLen e < ((hBase H : Int) + p).toNat + n →
      k.translate H p n = .error ⟨0x06, 3, p + (oLen e - ((hBase H : Int) + p).toNat : Nat), none⟩) ∧
    (¬ oLen e < ((hBase H : Int) + p).toNat + n → deviceHalf g = true → g + n ≤ 2 ^ 64 →
      k.translate H p n = if k.mapped g n = false then .error ⟨0x09, 2, p + k.mappedBytes g, none⟩ else .ok (g, e)) := by
  rw [Hub.translate, he, Hub.translateBy]
  dsimp only
  rw [if_neg (by rw [hp]; decide)]
  refine ⟨fun hl => if_pos hl, fun hl hd hg => ?_⟩
  rw [if_neg hl, if_neg (by omega), if_pos hd]
  cases k.mapped _ n <;> rfl

/-! ## What the instructions answer -/

/-- The accesses that O34 speaks of: a right, an access to crown that needs it, and one to global memory. -/
def checkedAccesses (x : BitVec 5) (h a : BitVec 4) (z : BitVec 2) (i : BitVec 9) (j : BitVec 10) : List ((QWord → Bool) × Instr × Instr) :=
  [(hRd, Instr.cld x h a z i, Instr.ld x h a z j), (hRd, Instr.cld x h a z i, Instr.ldn x h a z j), (hWr, Instr.cst x h a z i, Instr.st x h a z j)]

variable {x : BitVec 5} {h a : BitVec 4} {z : BitVec 2} {i : BitVec 9} {j : BitVec 10} {right : QWord → Bool} {I J : Instr}

/-- The access to crown reports its first failing check. -/
theorem crown_error (hm : (right, I, J) ∈ checkedAccesses x h a z i j) {code : BitVec 8} {reason : Nat} {u : Int} (hr : reason < 16)
    (he : s.crownCheck h (offsetOf s a (2 ^ z.toNat) i) (2 ^ z.toNat) (2 ^ z.toNat) right = .error ⟨code, reason, u, none⟩) :
    ∃ t, exec I s = .next t ∧ Faults s t code (accessWord reason h a u) := by
  refine ⟨s.fault ⟨code, reason, u, none⟩ h a, ?_, faults_fault hr u h a⟩
  simp only [checkedAccesses, List.mem_cons, Prod.mk.injEq, List.not_mem_nil, or_false] at hm
  obtain ⟨rfl, rfl, rfl⟩ | ⟨rfl, rfl, rfl⟩ | ⟨rfl, rfl, rfl⟩ := hm
  · simp only [exec, execCld, State.crownLoad, offset_immT, canRead_eq, Machine.sizeOf, he]
  · simp only [exec, execCld, State.crownLoad, offset_immT, canRead_eq, Machine.sizeOf, he]
  · simp only [exec, execCst, State.crownStore, offset_immT, canWrite_eq, Machine.sizeOf, State.storeX, natBytes_length, he]

/-- The access to global memory reports its first failing check. -/
theorem global_error (hm : (right, I, J) ∈ checkedAccesses x h a z i j) {code : BitVec 8} {reason : Nat} {u : Int} (hr : reason < 16)
    (he : s.globalCheck h [offsetOf s a (2 ^ z.toNat) j] (2 ^ z.toNat) (2 ^ z.toNat) right = .error ⟨code, reason, u, none⟩) :
    ∃ t, exec J s = .next t ∧ Faults s t code (accessWord reason h a u) := by
  refine ⟨s.fault ⟨code, reason, u, none⟩ h a, ?_, faults_fault hr u h a⟩
  simp only [checkedAccesses, List.mem_cons, Prod.mk.injEq, List.not_mem_nil, or_false] at hm
  obtain ⟨rfl, rfl, rfl⟩ | ⟨rfl, rfl, rfl⟩ | ⟨rfl, rfl, rfl⟩ := hm
  · simp only [exec, execLd, State.globalLoad, offset_immT, canRead_eq, Machine.sizeOf, he]
  · simp only [exec, execLdn, State.globalLoad, offset_immT, canRead_eq, Machine.sizeOf, he]
  · simp only [exec, execSt, State.globalStore, offset_immT, canWrite_eq, Machine.sizeOf, he]

/-- Settles O34. -/
theorem accessChecksComeInOrder : Obligations.AccessChecksComeInOrder := by
  intro s x h a z i j right I J hm H n o p crown global g
  have hc := crownCheck_eq (s := s) h o z right
  have hg := globalCheck_eq (s := s) h p n right
  refine ⟨fun h0 => ?_, fun h0 h2 => ?_, fun h0 h3 h4 => ?_, fun h2 ho => ?_, fun h2 ho => ?_, fun h34 => ?_⟩
  · exact ⟨crown_error hm (by decide) (hc.trans (if_pos h0)), global_error hm (by decide) (hg.trans (if_pos h0))⟩
  · exact crown_error hm (by decide) (hc.trans ((if_neg h0).trans (if_pos h2)))
  · exact global_error hm (by decide) (hg.trans ((if_neg h0).trans (if_pos ⟨h3, h4⟩)))
  · have h0 : ¬ hClass H = 0 := by omega
    exact crown_error hm (by decide) (hc.trans ((if_neg h0).trans ((if_neg (not_not.mpr h2)).trans (if_pos ho))))
  · have h0 : ¬ hClass H = 0 := by omega
    replace hc := hc.trans ((if_neg h0).trans ((if_neg (not_not.mpr h2)).trans (if_neg (not_not.mpr ho))))
    split
    next hr => exact crown_error hm (by decide) (hc.trans (if_pos hr))
    next hr =>
    replace hc := (hc.trans (if_neg hr)).trans (crownElem_eq H o z)
    split
    next ha => exact crown_error hm (by decide) (hc.trans (if_pos ha))
    next ha =>
    replace hc := hc.trans (if_neg ha)
    split
    next hs => exact crown_error hm (by decide) (hc.trans (if_pos hs))
    next hs =>
    replace hc := hc.trans (if_neg hs)
    split
    next hw => exact crown_error hm (by decide) (hc.trans (if_pos hw))
    next hw => exact hc.trans (if_neg hw)
  · have h0 : ¬ hClass H = 0 := by omega
    have h34' : ¬ (hClass H ≠ 3 ∧ hClass H ≠ 4) := by omega
    replace hg := hg.trans ((if_neg h0).trans (if_neg h34'))
    have he := globalElem_eq s.hub H p n
    split
    next hr => exact global_error hm (by decide) (hg.trans (if_pos hr))
    next hr =>
    replace hg := hg.trans (if_neg hr)
    have bad {code : BitVec 8} {reason : Nat} {u : Int} (hr : reason < 16) (hf : s.hub.globalElem H p n n = .error ⟨code, reason, u, none⟩) :
        global code reason u := global_error hm hr (hg.trans (resolveAll_singleton_error hf))
    split
    next ha => exact bad (by decide) (he.trans (if_pos ha))
    next ha =>
    replace he := he.trans (if_neg ha)
    split
    next hw => exact bad (by decide) (he.trans (if_pos hw))
    next hw =>
    replace he := he.trans (if_neg hw)
    split
    next hob => exact bad (by decide) (he.trans (by rw [Hub.translate, hob]; rfl))
    next =>
    intro e hob hp
    obtain ⟨hlen, hmap⟩ := translate_present (p := p) (n := n) hob hp
    split
    next hl => exact bad (by decide) (he.trans (hlen hl))
    next hl =>
    intro hd hlt
    replace he := he.trans (hmap hl hd hlt)
    split
    next hu => exact bad (by decide) (he.trans (if_pos hu))
    next hu => exact hg.trans (resolveAll_singleton_ok (he.trans (if_neg hu)))

end Sys2Proof.AccessChecks
end

section
/-! SUPPORT. O35: loads from crown and tower (08 R240, R247, R252, R253, R261). -/

namespace Sys2Proof.CrownTowerLoads
open Sys2Proof Machine Claims Laws SlotTAccess

variable {s : State}

/-- A load that finds good data goes out. -/
theorem loadGoes_launch {t : State} {due : Nat} {f : LoadForm} {ranges : List (Nat × Nat)}
    {held : List (Option Byte)} {cached : Bool} {fill : Option (Nat × Nat)}
    (ht : t = { s with fresh := t.fresh, q := { s.q with wait := t.q.wait }, core := { s.core with scache := t.core.scache } }) :
    LoadGoes s (t.launch .l .ld due none (.fetch f ranges held cached fill)) due (.fetch f ranges held cached fill) := by
  rw [ht]
  exact ⟨rfl, rfl, sameBytes_append _ rfl rfl rfl fun _ => rfl⟩

/-- A load of a full range of crown goes out where ECC finds nothing wrong. -/
theorem loadGoes_load (h : Clean s) (addr n : Nat) (f : Flt) (hr a : BitVec 4) (w : LoadForm) :
    LoadGoes s (s.unwatch.load addr n 5 f hr a w) (s.coreAfter 5) (.fetch w [(addr, n)] [] false none) ∧
      (s.unwatch.load addr n 5 f hr a w).core = s.core := by
  unfold State.load
  rw [eccRead_clean (s := s.unwatch) h]
  exact ⟨loadGoes_launch (s := s) (t := { s.unwatch with fresh := s.fresh + 1 }) rfl, rfl⟩

/-! ## Towers -/

/-- ECC over one range after another, as a tower load reads its towers. -/
def eccReads (s : State) (n : Nat) (as : List Nat) : State × List Nat :=
  as.foldl (fun (r : State × List Nat) p => let q := r.1.eccRead .l p n; (q.1, r.2 ++ q.2)) (s, [])

theorem eccReads_clean (h : Clean s) (n : Nat) (as : List Nat) : eccReads s n as = ({ s with fresh := s.fresh + as.length }, []) := by
  unfold eccReads
  induction as generalizing s with
  | nil => rfl
  | cons p as ih =>
    rw [List.foldl_cons, eccRead_clean h]
    refine (ih (s := { s with fresh := s.fresh + 1 }) h).trans ?_
    rw [List.length_cons, Nat.add_comm as.length 1, ← Nat.add_assoc]

/-- Core cycles of a tower load: more where a logical tower lies in another one (08 Table 8-7). -/
def towerLatency (s : State) (n : Nat) : Nat := if (List.range n).any fun t => s.core.tower t != t then 10 else 8

/-- A tower load that passes its checks, where ECC finds nothing wrong. -/
theorem tvld_eq {v : BitVec 6} {h a : BitVec 4} {w : BitVec 2} {i : BitVec 9} {offs : List Nat} (hcl : Clean s) (hc : s.count .ld < 63)
    (hv : VReady s w [v]) (he : s.towerCheck h (offsetOf s a 32 i) (4 * 2 ^ w.toNat) hRd = .ok offs) :
    execTvld v h a w i s =
      .next (({ s with fresh := s.fresh + (s.towerAddrs offs).length } : State).launch .l .ld (s.coreAfter (towerLatency s (4 * 2 ^ w.toNat))) none
        (.fetch (.v v) ((s.towerAddrs offs).map fun p => (p, 32)) [] false none)) := by
  have hr := eccReads_clean hcl 32 (s.towerAddrs offs)
  rw [eccReads] at hr
  rw [execTvld, vField_ready hv]
  dsimp only at hr ⊢
  rw [offset_immT_32, lanesOf_div, canRead_eq, he]
  dsimp only
  rw [counted_of_lt hc, hr, launchLoad_good]
  rfl

/-! ## Patterns -/

/-- With no `vpsw` on its way, a pattern load is a load of its bytes into the inactive bank. -/
theorem pld_eq {h a : BitVec 4} {e c : BitVec 6} {la : Nat} (hc : s.count .ld < 63)
    (he : s.offsetCrown h (s.c.ra a).toInt (128 * (c.toNat + 1)) 32 hRd = .ok la)
    (hf : s.mem.isFull (s.crownAt la) (128 * (c.toNat + 1)) = true) (hn : e.toNat + c.toNat < 64) (hvq : s.q.vq = [])
    (hops : ∀ o ∈ s.q.ops, o.instr ≠ .vpsw) :
    execPld h a e c s = .next (s.unwatch.load (s.crownAt la) (128 * (c.toNat + 1)) 5 (consumed (s.c.ra a).toInt) h a (.pat e.toNat (!s.c.patActive))) := by
  have hswap : ((s.q.ops ++ s.q.vq).any fun t => t.instr == .vpsw && t.seq == s.lat.seq) = false := by
    rw [hvq, List.append_nil, List.any_eq_false]
    intro o ho
    simp [hops o ho]
  rw [execPld, hswap, if_neg (by rw [hvq]; exact Bool.false_ne_true), offset_zero, canRead_eq, he]
  dsimp only
  rw [if_neg (by omega), counted_of_lt hc, whenFull_of_full hf, Bool.bne_false]
  rfl

/-! ## Crown -/

/-- A load of a vector register from crown is a crown load of its bytes. -/
theorem cldVector_eq {v : BitVec 6} {h a : BitVec 4} {w : BitVec 2} {j : BitVec 8} (hv : VReady s w [v]) :
    execCldVector v h a w j s = .next (s.crownLoad h a (offsetOf s a 32 j) (128 * 2 ^ w.toNat) 32 (.v v)) := by
  rw [execCldVector, vField_ready hv, offset_immT_32, four_lanesOf]

/-- A load of a handle from crown that passes its checks is a crown load of 16 bytes. -/
theorem hld_eq {d h a : BitVec 4} {k : BitVec 13} {la : Nat} (he : s.crownCheck h (offsetOf s a 16 k) 16 16 hRd = .ok la) :
    execHld d h a k s = .next (s.crownLoad h a (offsetOf s a 16 k) 16 16 (.h d)) := by
  rw [execHld, State.crownLoad, offset_immT_16, canRead_eq, he]

theorem cld_eq (x : BitVec 5) (h a : BitVec 4) (z : BitVec 2) (i : BitVec 9) :
    execCld x h a z i s = .next (s.crownLoad h a (offsetOf s a (2 ^ z.toNat) i) (2 ^ z.toNat) (2 ^ z.toNat) (.x x false)) := by
  rw [execCld, offset_immT]
  rfl

/-- A crown load whose granules are not full waits (08 R240). -/
theorem crownLoad_notFull {h a : BitVec 4} {o : Int} {n align la : Nat} {w : LoadForm} (hc : s.count .ld < 63)
    (he : s.crownCheck h o n align hRd = .ok la) (hf : s.mem.isFull (s.crownAt la) n = false) : s.crownLoad h a o n align w = s.stallWatched := by
  rw [State.crownLoad, canRead_eq, he]
  dsimp only
  rw [counted_of_lt hc, State.whenFull, if_neg (by rw [hf]; decide)]

/-- Settles O35. -/
theorem crownAndTowerLoadsGoOut : Obligations.CrownAndTowerLoadsGoOut := by
  intro s x v e c h a d z w i j k la read ready hcl hc
  refine ⟨fun ⟨he, hf⟩ => ?_, fun hv ⟨he, hf⟩ => ?_, fun ⟨he, hf⟩ => ?_, fun he hf hn hvq hops => ?_, fun offs hv he => ?_, fun he hf => ?_⟩
  · exact ⟨_, cld_eq .., loadGoes_crownLoad hcl hc he hf _⟩
  · exact ⟨_, cldVector_eq hv, loadGoes_crownLoad hcl hc he hf _⟩
  · exact ⟨_, hld_eq he, loadGoes_crownLoad hcl hc he hf _⟩
  · exact ⟨_, pld_eq hc he hf hn hvq hops, loadGoes_load hcl ..⟩
  · exact ⟨_, _, tvld_eq hcl hc hv he, loadGoes_launch rfl, rfl⟩
  · exact ⟨_, (cld_eq ..).trans (congrArg _ (crownLoad_notFull hc he hf)), rfl⟩

end Sys2Proof.CrownTowerLoads
end

section
/-! SUPPORT. O36: a load from a page of the host, where the host has set its latency to 0 (12 Table 12-14). -/

namespace Sys2Proof.HostLatencyZero
open Sys2Proof Machine Claims Laws

/-- A machine whose host answers at once (its configuration write takes any latency): h3 is a handle of class G over object 1, a megabyte of the
host half whose first page is present. -/
def hostAtOnce : State :=
  let h : Vector QWord 16 := Vector.replicate 16 0
  { c := { h := h.set 3 0x4F800001000000000000000000100000 }
    hub := { hostLatency := 0, otSize := 2, otCells := [(18, 0x10), (26, 0x10), (30, 1)], pages := [0x100] } }

/-- The element at the object's first byte, and its entry. -/
def firstElement : Nat × Nat := (0x100000, 2 ^ 112 + 2 ^ 84 + 2 ^ 20)

theorem hostAtOnce_check : hostAtOnce.globalCheck 3 [offsetOf hostAtOnce 0 (2 ^ (0 : BitVec 2).toNat) (0 : BitVec 10)] (2 ^ (0 : BitVec 2).toNat)
    (2 ^ (0 : BitVec 2).toNat) hRd = .ok [firstElement] := by decide +kernel

/-- The cycles in which the operations in hand after an answer are due. -/
def duesAfter (r : Ans) : List Nat :=
  match r with
  | .next t => t.outs.map (·.due)
  | _ => []

/-- A load of this element is due in the cycle of its issue. -/
theorem hostAtOnce_due : duesAfter (exec (.ld 1 3 0 0 0) hostAtOnce) = [0] := by decide +kernel

/-- Refutes O36: a load from the host half takes the host's latency, which the host may set below 4 cycles; where it is 0, a load of a byte of a host
page is due in cycle 0, the cycle of its issue, and not at least 4 cycles later. -/
theorem not_globalLoadsGoOut : ¬ Obligations.GlobalLoadsGoOut := by
  unfold Obligations.GlobalLoadsGoOut
  intro h
  obtain ⟨hscalar, -⟩ := h hostAtOnce 1 0 3 0 0 0 0 0 0 0 [firstElement] ⟨rfl, rfl, rfl⟩ (by decide)
  obtain ⟨hmiss, -⟩ := hscalar hostAtOnce_check
  obtain ⟨⟨t, due, cached, fill, hexec, hlate, ⟨houts, -, -⟩, -⟩, -⟩ := hmiss rfl
  have hdue : t.outs.map (·.due) = [due] := congrArg (List.map (·.due)) houts
  have h0 : t.outs.map (·.due) = [0] := (congrArg duesAfter hexec).symm.trans hostAtOnce_due
  have hzero : due = 0 := by simpa using hdue.symm.trans h0
  rw [hzero] at hlate
  exact absurd hlate (by decide)

end Sys2Proof.HostLatencyZero
end

section
/-! SUPPORT. O37: stores to crown and tower (08 R238, R247, R252, R253). -/

namespace Sys2Proof.CrownTowerStores
open Sys2Proof Machine Claims Laws SlotTAccess

variable {s : State}

/-- A crown store of `n` bytes that passes its checks goes out. -/
theorem storeGoes_crownStore_of {x : State} {hr a : BitVec 4} {o : Int} {n align la : Nat} {tag : Bool} {bs : List Byte} (hx : x = s.crownStore hr a o align tag bs)
    (hc : s.count .st < 63) (hn : bs.length = n) (he : s.crownCheck hr o n align hWr = .ok la) :
    StoreGoes s x (s.now + 32) .l .st [{ addr := s.crownAt la, bytes := bs }] (.write [{ addr := s.crownAt la, bytes := bs }] s.lat.iss.cbmap tag []) ∧
      x.core = s.core := by
  subst hn hx
  exact storeGoes_crownStore hc he

/-- A store of a vector register to crown is a crown store of its bytes. -/
theorem cstVector_eq {v : BitVec 6} {h a : BitVec 4} {w : BitVec 2} {i : BitVec 8} (hv : VReady s w [v]) :
    execCstVector v h a w i s =
      .next (s.crownStore h a (offsetOf s a 32 i) 32 false (natBytes (128 * 2 ^ w.toNat) (s.lat.iss.rv v.toNat).toNat)) := by
  rw [execCstVector, vField_ready hv, offset_immT_32, State.storeV, four_lanesOf]

/-- A tower store that passes its checks goes out with 32 bytes for each tower. -/
theorem tvst_eq {v : BitVec 6} {h a : BitVec 4} {w : BitVec 2} {i : BitVec 9} {offs : List Nat} (hc : s.count .st < 63) (hv : VReady s w [v])
    (he : s.towerCheck h (offsetOf s a 32 i) (4 * 2 ^ w.toNat) hWr = .ok offs) :
    execTvst v h a w i s = .next (s.launch .l .st (s.now + 32) none (.write ((s.towerAddrs offs).mapIdx fun t p =>
        { addr := p, bytes := ((natBytes (128 * 2 ^ w.toNat) (s.lat.iss.rv v.toNat).toNat).drop (32 * t)).take 32 }) s.lat.iss.cbmap false [])) := by
  rw [execTvst, vField_ready hv]
  dsimp only
  rw [offset_immT_32, lanesOf_div, canWrite_eq, he]
  dsimp only
  rw [counted_of_lt hc, State.storeV, four_lanesOf]
  rfl

/-- Settles O37. -/
theorem crownAndTowerStoresGoOut : Obligations.CrownAndTowerStoresGoOut := by
  intro s x v h a d z w i j k la go hc
  refine ⟨fun he => ?_, fun he => ?_, fun hv he => ?_, fun offs hv he => ?_⟩
  · exact ⟨_, rfl, storeGoes_crownStore_of (congrArg (fun o => s.crownStore h a o (Machine.sizeOf z) false (s.storeX x (Machine.sizeOf z))) (offset_immT s a _ i)) hc
      (natBytes_length ..) he⟩
  · exact ⟨_, rfl, storeGoes_crownStore_of (congrArg (fun o => s.crownStore h a o 16 true _) (offset_immT s a 16 k)) hc (natBytes_length ..) he⟩
  · exact ⟨_, cstVector_eq hv, storeGoes_crownStore_of rfl hc (natBytes_length ..) he⟩
  · exact ⟨_, tvst_eq hc hv he, storeGoes_launch _ _ _ _ _ _ (.inr ⟨_, _, _, rfl⟩), rfl⟩

end Sys2Proof.CrownTowerStores
end

section
/-! SUPPORT. O38: stores to global memory (08 R248 to R251), held inside a segment (11 R357, R358), and through an index vector (08 R251). -/

namespace Sys2Proof.GlobalStores
open Sys2Proof Machine Claims Laws SlotTAccess

variable {s : State}

/-! ## Latencies -/

theorem le_foldl_max {α : Type} (f : α → Nat) (l : List α) (m : Nat) : m ≤ l.foldl (fun m x => max m (f x)) m := by
  induction l generalizing m with
  | nil => exact Nat.le_refl m
  | cons x l ih => exact (Nat.le_max_left m (f x)).trans (ih _)

/-- The greatest latency of one or more elements is at least what each of them takes. -/
theorem le_foldl_max_of_forall {α : Type} {f : α → Nat} {l : List α} {b : Nat} (hl : l ≠ []) (hf : ∀ x, b ≤ f x) (m : Nat) :
    b ≤ l.foldl (fun m x => max m (f x)) m := by
  obtain ⟨x, l, rfl⟩ := List.exists_cons_of_ne_nil hl
  exact ((hf x).trans (Nat.le_max_right m (f x))).trans (le_foldl_max f l _)

/-- Every global store waits out the strike hold. -/
theorem le_storeLatency (k : Hub) (board g : Nat) : 32 ≤ storeLatency k board g := by
  rw [storeLatency]
  split <;> exact Nat.le_add_right ..

theorem not_any {α : Type} {p : α → Bool} {l : List α} (h : ∀ x ∈ l, p x = false) : ¬ l.any p = true := by
  rw [Bool.not_eq_true, List.any_eq_false]
  exact fun x hx => Bool.not_eq_true _ ▸ h x hx

/-- As many elements resolve as there are. -/
theorem resolveAll_length {α β : Type} {f : α → Except Flt β} {l : List α} {r : List β} (h : resolveAll f l = .ok r) : r.length = l.length := by
  induction l generalizing r with
  | nil => cases h; rfl
  | cons x l ih =>
    rw [resolveAll] at h
    split at h
    · cases h
    · split at h
      · cases h
      next hr =>
        cases h
        rw [List.length_cons, List.length_cons, ih hr]

/-- What a global check that succeeds says of the handle, and how many elements it answers. -/
theorem globalCheck_ok {h : BitVec 4} {offs : List Int} {n align : Nat} {right : QWord → Bool} {ges : List (Nat × Nat)}
    (he : s.globalCheck h offs n align right = .ok ges) :
    checkHandle s.logical (s.c.rh h) [3, 4] right (offs.headD 0) = none ∧ ges.length = offs.length := by
  rw [State.globalCheck] at he
  split at he
  · cases he
  next hh => exact ⟨hh, resolveAll_length he⟩

/-! ## Stores outside a segment -/

/-- A store goes out whatever becomes of the lines of the scalar cache. -/
theorem storeGoes_scache (sc : List ScLine) (due : Nat) (ps : List Part) (lock : Nat) :
    StoreGoes s (({ s with core := { s.core with scache := sc } } : State).launch .l .st due none (.gstore ps lock)) due .l .st ps (.gstore ps lock) := by
  obtain ⟨houts, hbyte, -⟩ := storeGoes_launch { s with core := { s.core with scache := sc } } .l .st due ps (.gstore ps lock) (.inl ⟨lock, rfl⟩)
  exact ⟨houts, hbyte, rfl⟩

/-- A global store that passes its checks outside a segment goes out after the strike hold. -/
theorem storeGoes_globalStore {h a : BitVec 4} {offs : List Int} {n align : Nat} {bs : List Byte} {ges : List (Nat × Nat)} (ho : offs ≠ [])
    (he : s.globalCheck h offs n align hWr = .ok ges) (ht : ∀ ge ∈ ges, s.hub.isTelemetry ge.1 n = false) (hseg : s.c.segOpen = false)
    (hc : s.count .st < 63) :
    ∃ due, s.now + 32 ≤ due ∧ ∃ lock,
      StoreGoes s (s.globalStore h a offs n align bs) due .l .st (elementPieces ges n bs) (.gstore (elementPieces ges n bs) lock) := by
  have hges : ges ≠ [] := by
    rw [← List.length_pos_iff, (globalCheck_ok he).2]
    exact List.length_pos_iff.mpr ho
  have hdue := le_foldl_max_of_forall hges (fun ge : Nat × Nat => le_storeLatency s.hub s.board ge.1) 0
  rw [State.globalStore, canWrite_eq, he]
  dsimp only
  rw [if_neg (not_any ht), if_neg (by rw [hseg]; decide), counted_of_lt hc]
  exact ⟨_, by omega, _, storeGoes_scache ..⟩

/-! ## Stores inside a segment -/

/-- The field of a register that replaced it. -/
theorem fld_putField {m : Nat} (w : BitVec m) {lo n : Nat} (v : Nat) (h : lo + n ≤ m) : fld (putField w lo n v).toNat lo n = v % 2 ^ n := by
  refine Nat.eq_of_testBit_eq fun k => ?_
  rw [fld, Nat.testBit_mod_two_pow, Nat.testBit_div_two_pow, Nat.testBit_mod_two_pow]
  by_cases hk : k < n
  · have hb := IntegerControl.getLsbD_putField w lo n v (k + lo) (by omega)
    rw [if_pos (by omega), Nat.add_sub_cancel] at hb
    rw [← hb]
    rfl
  · simp [hk]

/-- Inside a segment a global store whose elements lie in a window of it is held. -/
theorem globalStore_held {h a : BitVec 4} {offs : List Int} {n align : Nat} {bs : List Byte} {ges : List (Nat × Nat)} {l : List Held}
    (he : s.globalCheck h offs n align hWr = .ok ges) (ht : ∀ ge ∈ ges, s.hub.isTelemetry ge.1 n = false) (hseg : s.c.segOpen = true)
    (hd : ∀ ge ∈ ges, deviceHalf ge.1 = true) (hw : ∀ o ∈ offs, s.c.inSegWindow (s.c.rh h) o n = true)
    (hl : (ges.mapIdx fun i ge => ({ addr := ge.1, bytes := (bs.drop (n * i)).take n } : Part)).foldl (fun l p => l.bind fun l => holdMerge l p)
      (some s.q.held) = some l) :
    s.globalStore h a offs n align bs = s.setHeld l := by
  have hwin : ¬ (!offs.all fun o => s.c.inSegWindow (s.c.rh h) o n) = true := by
    rw [List.all_eq_true.mpr hw]
    decide
  rw [State.globalStore, canWrite_eq, he]
  dsimp only
  rw [if_neg (not_any ht), if_pos hseg, if_neg (not_any fun ge hge => by rw [hd ge hge]; rfl), if_neg hwin, hl]

/-! ## The store instructions -/

/-- The offsets of a strided access, as the statement writes them. -/
theorem strided_eq (s : State) (a b : BitVec 4) (w : BitVec 2) :
    s.strided a b (lanesOf w) = (List.range (32 * 2 ^ w.toNat)).map fun l => (s.c.ra a).toInt + (l : Int) * (s.c.ra b).toInt := by
  simp [State.strided, lanesOf, ← List.map_eq_flatMap, Function.comp_def]

/-- The three global stores of O38's first part, with their elements, are the same store. -/
theorem store_eq {x : BitVec 5} {v : BitVec 6} {h a b : BitVec 4} {z w : BitVec 2} {i : BitVec 9} {j : BitVec 10} {offs : List Int} {n align : Nat}
    {bs : List Byte} {I : Instr}
    (hI : (n = 2 ^ z.toNat ∧ align = n ∧ offs = [offsetOf s a n j] ∧ bs = natBytes n (s.lat.iss.rx x).toNat ∧ I = .st x h a z j) ∨
      (VReady s w [v] ∧ n = 4 * (32 * 2 ^ w.toNat) ∧ align = 32 ∧ offs = [offsetOf s a 32 i] ∧
        bs = natBytes (4 * (32 * 2 ^ w.toNat)) (s.lat.iss.rv v.toNat).toNat ∧ I = .vst v h a w i) ∨
      (VReady s w [v] ∧ n = 4 ∧ align = 4 ∧ bs = natBytes (4 * (32 * 2 ^ w.toNat)) (s.lat.iss.rv v.toNat).toNat ∧ I = .vsts v h a b w ∧
        offs = (List.range (32 * 2 ^ w.toNat)).map fun l => (s.c.ra a).toInt + (l : Int) * (s.c.ra b).toInt)) :
    exec I s = .next (s.globalStore h a offs n align bs) ∧ offs ≠ [] := by
  obtain ⟨rfl, rfl, rfl, rfl, rfl⟩ | ⟨hv, rfl, rfl, rfl, rfl, rfl⟩ | ⟨hv, rfl, rfl, rfl, rfl, rfl⟩ := hI
  · refine ⟨?_, List.cons_ne_nil _ _⟩
    simp only [exec]
    rw [execSt, offset_immT]
    rfl
  · refine ⟨?_, List.cons_ne_nil _ _⟩
    simp only [exec]
    rw [execVst, vField_ready hv, offset_immT_32]
    rfl
  · refine ⟨?_, ?_⟩
    · simp only [exec]
      rw [execVsts, vField_ready hv, strided_eq]
      rfl
    · rw [← strided_eq, ← List.length_pos_iff, State.strided, List.length_map, List.length_range]
      exact Nat.mul_pos (by decide) (Nat.two_pow_pos _)

/-! ## Scatter -/

/-- A handle that passes its checks passes them at any offset. -/
theorem checkHandle_none {l : Nat} {H : QWord} {cs : List Nat} {right : QWord → Bool} {o : Int} (h : checkHandle l H cs right o = none) (p : Int) :
    checkHandle l H cs right p = none := by
  unfold checkHandle at h ⊢
  split_ifs at h ⊢
  rfl

/-- The offsets of the elements of a gather or scatter, from the bytes of the index vector at a place in crown. -/
def indexOffsets (s : State) (a : BitVec 4) (la n : Nat) : List Int :=
  (List.range n).map fun l =>
    (s.c.ra a).toInt + (BitVec.ofNat 32 (bytesNat (((s.bytes .l (s.crownAt la) (4 * n)).drop (4 * l)).take 4))).toInt

/-- A scatter whose index vector passes its checks is a store of its elements once the vector is read. -/
theorem vsct_eq {v : BitVec 6} {h a b c : BitVec 4} {w : BitVec 2} {ges : List (Nat × Nat)} {la : Nat} (hcl : Clean s) (hv : VReady s w [v])
    (hb : s.offsetCrown b (s.c.ra c).toInt (4 * (32 * 2 ^ w.toNat)) 32 hRd = .ok la)
    (hf : s.mem.isFull (s.crownAt la) (4 * (32 * 2 ^ w.toNat)) = true)
    (he : s.globalCheck h (indexOffsets s a la (32 * 2 ^ w.toNat)) 4 4 hWr = .ok ges) :
    execVsct v h a b c w s = .next ((AfterRead s).globalStore h a (indexOffsets s a la (32 * 2 ^ w.toNat)) 4 4
      (natBytes (4 * (32 * 2 ^ w.toNat)) (s.lat.iss.rv v.toNat).toNat)) := by
  rw [State.offsetCrown] at hb
  split at hb
  · cases hb
  next hj =>
    have hh := checkHandle_none (globalCheck_ok he).1 (s.offset a 0)
    rw [execVsct, vField_ready hv, State.indexed, offset_zero, canRead_eq, canWrite_eq, lanesOf]
    dsimp only
    rw [hj, hh, hb]
    dsimp only
    rw [whenFull_of_full hf, eccRead_clean (s := s.unwatch) hcl, bytes_congr (s := s) (t := s.unwatch) rfl rfl rfl]
    rw [indexOffsets, List.map_map]
    rfl

/-- Settles O38. -/
theorem globalStoresGoOut : Obligations.GlobalStoresGoOut := by
  constructor
  · intro s x v h a b z w i j ges offs n align bs I m vb hI he ht
    obtain ⟨hexec, ho⟩ := store_eq hI
    refine ⟨fun hseg hc => ?_, fun hseg hd hw l hl => ?_⟩
    · obtain ⟨due, hdue, lock, hgo⟩ := storeGoes_globalStore (a := a) (bs := bs) ho he ht hseg hc
      exact ⟨_, due, hexec, hdue, lock, hgo⟩
    · rw [globalStore_held he ht hseg hd hw hl] at hexec
      exact ⟨_, hexec, rfl, fld_putField _ _ (by decide), rfl⟩
  · intro s v h a b c w ges la ix m ps hcl hv hseg hc hb hf hix he ht
    subst hix
    have ho : indexOffsets s a la m ≠ [] := by
      rw [← List.length_pos_iff, indexOffsets, List.length_map, List.length_range]
      exact Nat.mul_pos (by decide) (Nat.two_pow_pos _)
    obtain ⟨due, hdue, lock, hgo⟩ := storeGoes_globalStore (s := AfterRead s) (a := a) (bs := natBytes (4 * m) (s.lat.iss.rv v.toNat).toNat) ho he ht hseg hc
    exact ⟨_, _, due, lock, vsct_eq hcl hv hb hf he, rfl, hdue, hgo⟩

end Sys2Proof.GlobalStores
end

section
/-! SUPPORT. O39: port sets (08 R254, R255, R258). -/

namespace Sys2Proof.PortSets
open Sys2Proof Machine Claims Laws SlotTAccess

variable {s : State}

/-- The set that `pcfg` reads. -/
def readSet (s : State) (h : BitVec 4) (la : Nat) : Machine.PSet :=
  { record := BitVec.ofNat 512 (bytesNat (s.bytes .l (s.crownAt la) 64)), obj := BitVec.ofNat 23 (hObj (s.c.rh h)) }

/-- A set that passes its checks goes out as a load that writes no register, and is in force at once. -/
theorem pcfg_eq {p : BitVec 3} {h a : BitVec 4} {la : Nat} (hcl : Clean s) (hc : s.count .ld < 63)
    (he : s.offsetCrown h (s.c.ra a).toInt 64 64 hRd = .ok la) (hf : s.mem.isFull (s.crownAt la) 64 = true)
    (hw : walkCheck (readSet s h la) (s.c.rh h) (s.c.ra a).toInt ((readSet s h la).vectorBytes s.lat.iss) = none) :
    execPcfg p h a s =
      let u := (AfterRead s).launch .l .ld (s.coreAfter 5) none (.load .none false 0 0)
      .next { u with c := { s.c with ps := s.c.ps.set p.toNat { readSet s h la with size := (readSet s h la).vectorBytes s.lat.iss } p.isLt } } := by
  have hb : s.unwatch.bytes .l (s.unwatch.crownAt la) 64 = s.bytes .l (s.crownAt la) 64 := bytes_congr rfl rfl rfl ..
  have hr : s.unwatch.eccRead .l (s.unwatch.crownAt la) 64 = (AfterRead s, []) := eccRead_clean (s := s.unwatch) hcl ..
  rw [execPcfg, offset_zero, canRead_eq, he]
  dsimp only
  rw [counted_of_lt hc, whenFull_of_full hf, hb, hr]
  dsimp only
  rw [if_neg (by decide)]
  split
  next f hf => exact absurd (hf.symm.trans hw) (by simp)
  next => rfl

/-- The checks of `pgo`, in order: the set is configured, and its size is still that of its format (08 R258). -/
theorem pgo_eq {k p : BitVec 3} {set : Machine.PSet} (hset : set = s.c.ps[p.toNat]'p.isLt) :
    execPgo k p s =
      let cf := s.lat.iss.cfOf (set.base / 2 ^ 19)
      if set.size = 0 then .next (s.raise 0x14 (portInfo 1 k))
      else if set.cvt && 16 * fmtBits (cf.setWidth 8) != set.size then .next (s.raise 0x14 (portInfo 5 k))
      else .next (s.setPort k (some { set := set, pos := 0, cf := cf })) := by
  subst hset
  rfl

/-- Settles O39. -/
theorem portsAreConfiguredAndBound : Obligations.PortsAreConfiguredAndBound := by
  intro s k p h a la set
  refine ⟨fun cf hset hcf => ?_, ⟨_, rfl, copies_shadow ..⟩, fun hcl hc he hf hset hw => ?_⟩
  · subst hcf
    have hpgo := pgo_eq (k := k) hset
    refine ⟨fun h0 => ⟨_, hpgo.trans (if_pos h0), faults_raise ..⟩, fun h0 hcvt hsz => ?_, fun h0 hcvt => ?_⟩
    · have hbad : (set.cvt && 16 * fmtBits ((s.lat.iss.cfOf (set.base / 2 ^ 19)).setWidth 8) != set.size) = true := by
        rw [hcvt, Bool.true_and, bne_iff_ne]
        exact hsz
      exact ⟨_, hpgo.trans ((if_neg h0).trans (if_pos hbad)), faults_raise ..⟩
    · have hgood : ¬ (set.cvt && 16 * fmtBits ((s.lat.iss.cfOf (set.base / 2 ^ 19)).setWidth 8) != set.size) = true := by
        simpa using hcvt
      exact ⟨_, hpgo.trans ((if_neg h0).trans (if_neg hgood)), copies_shadow ..⟩
  · subst hset
    exact ⟨(AfterRead s).launch .l .ld (s.coreAfter 5) none (.load .none false 0 0), _, pcfg_eq hcl hc he hf hw,
      ⟨rfl, rfl, sameBytes_append _ rfl rfl rfl fun _ => rfl⟩, rfl⟩

end Sys2Proof.PortSets
end

section
/-! SUPPORT. O44: invalidation of the scalar cache (08 R262) and the flush of the board cache (08 R263). -/

namespace Sys2Proof.CacheControlOf
open Sys2Proof Machine Claims Laws SlotTAccess

variable {s : State}

/-! ## The scalar cache -/

/-- The null and class checks of `scinv` pass for a handle of a global class. -/
theorem checkHandle_global {l : Nat} {H : QWord} (hH : hClass H = 3 ∨ hClass H = 4) (o : Int) : checkHandle l H [3, 4] anyRight o = none := by
  have h2 : ¬ (hClass H ≤ 2 ∧ hObj H ≠ l) := by omega
  have hc : ¬ (! [3, 4].contains (hClass H)) = true := by rcases hH with h | h <;> rw [h] <;> decide
  rw [checkHandle, if_neg (by omega), if_neg hc, if_neg h2]
  rfl

/-- A line stays when it holds no byte of the range; the part of a range below address 0 names no line. -/
theorem mem_scInvalidate (sc : List ScLine) (g : Int) (n : Nat) (x : ScLine) :
    x ∈ scInvalidate sc g.toNat ((n + min g 0).toNat) ↔ x ∈ sc ∧ (n = 0 ∨ g + n ≤ x.line ∨ (x.line : Int) + 64 ≤ g) := by
  rw [scInvalidate, List.mem_filter, decide_eq_true_iff]
  refine and_congr_right fun _ => ?_
  omega

/-- Where its object is in the table, `scinv` drops the lines of the range. -/
theorem scinvRange_object {h o l : BitVec 4} {e : Nat} (hH : hClass (s.c.rh h) = 3 ∨ hClass (s.c.rh h) = 4)
    (he : s.hub.object (hObj (s.c.rh h)) = some e) :
    execScinvRange h o l s =
      let g : Int := oBase e + hBase (s.c.rh h) + (s.c.ra o).toInt
      .next { s with core := { s.core with scache := scInvalidate s.core.scache g.toNat ((s.c.ra l).toNat + min g 0).toNat } } := by
  rw [execScinvRange, checkHandle_global hH, offset_zero, he]

/-- A range that does not translate names no line. -/
theorem scinvRange_noObject {h o l : BitVec 4} (hH : hClass (s.c.rh h) = 3 ∨ hClass (s.c.rh h) = 4)
    (he : s.hub.object (hObj (s.c.rh h)) = none) : execScinvRange h o l s = .next s := by
  rw [execScinvRange, checkHandle_global hH, he]

/-! ## The flush -/

theorem foldl_min_le (l : List Nat) (m : Nat) : l.foldl min m ≤ m ∧ ∀ x ∈ l, l.foldl min m ≤ x := by
  induction l generalizing m with
  | nil => exact ⟨Nat.le_refl m, fun x hx => absurd hx (List.not_mem_nil)⟩
  | cons y l ih =>
    obtain ⟨hm, hl⟩ := ih (min m y)
    exact ⟨hm.trans (Nat.min_le_left m y), List.forall_mem_cons.mpr ⟨hm.trans (Nat.min_le_right m y), hl⟩⟩

theorem le_foldl_min {b : Nat} (l : List Nat) {m : Nat} (hm : b ≤ m) (hl : ∀ x ∈ l, b ≤ x) : b ≤ l.foldl min m := by
  induction l generalizing m with
  | nil => exact hm
  | cons y l ih =>
    obtain ⟨hy, hl⟩ := List.forall_mem_cons.mp hl
    exact ih (Nat.le_min.mpr ⟨hm, hy⟩) hl

theorem le_foldl_max_of_mem {α : Type} (f : α → Nat) {l : List α} {x : α} (hx : x ∈ l) (m : Nat) : f x ≤ l.foldl (fun m x => max m (f x)) m := by
  induction l generalizing m with
  | nil => exact absurd hx List.not_mem_nil
  | cons y l ih =>
    rcases List.mem_cons.mp hx with rfl | hx
    · exact (Nat.le_max_right m (f x)).trans (GlobalStores.le_foldl_max f l _)
    · exact ih hx _

/-- Every line reaches its stack after the strike hold. -/
theorem le_of_mem_flushTimes {n g : Nat} {x : Nat × Nat} (hx : x ∈ s.flushTimes n g) : s.now + 32 ≤ x.2 := by
  rw [State.flushTimes] at hx
  split at hx
  · obtain ⟨i, hi, rfl⟩ := List.mem_mapIdx.mp hx
    exact Nat.add_le_add_right (AtomicEngines.now_le_coreAfter s (Nat.lt_of_lt_of_le (by decide) (Nat.le_add_left 80 _))) 32
  · exact absurd hx List.not_mem_nil

/-- The lines that a flush goes out for, the cycle of its last report, and the cycle in which its first line reaches its stack. -/
def flushLines (s : State) (n : Nat) (ges : List (Nat × Nat)) : List (Nat × Nat) := (ges.flatMap writeHomes).flatMap (s.flushTimes n)

def flushLast (s : State) (ls : List (Nat × Nat)) : Nat :=
  ls.foldl (fun m l => max m (l.2 + 12 * bridges s.board (homeBoard l.1))) (s.now + 32)

def flushDue (s : State) (ls : List (Nat × Nat)) : Nat := (ls.map (·.2)).foldl min (flushLast s ls)

theorem le_of_mem_flushLines {n : Nat} {ges : List (Nat × Nat)} {x : Nat × Nat} (hx : x ∈ flushLines s n ges) : s.now + 32 ≤ x.2 := by
  obtain ⟨g, -, hx⟩ := List.mem_flatMap.mp hx
  exact le_of_mem_flushTimes hx

theorem le_flushLast (ls : List (Nat × Nat)) : s.now + 32 ≤ flushLast s ls :=
  GlobalStores.le_foldl_max (fun l : Nat × Nat => l.2 + 12 * bridges s.board (homeBoard l.1)) ls _

theorem le_flushLast_of_mem {ls : List (Nat × Nat)} {x : Nat × Nat} (hx : x ∈ ls) : x.2 ≤ flushLast s ls :=
  (Nat.le_add_right ..).trans (le_foldl_max_of_mem (fun l : Nat × Nat => l.2 + 12 * bridges s.board (homeBoard l.1)) hx _)

/-- A flush that passes its checks goes out. -/
theorem bcfl_eq {h o l : BitVec 4} {v : BitVec 1} {ges : List (Nat × Nat)} {ls : List (Nat × Nat)} (hc : s.count .st < 63)
    (he : s.globalCheck h [(s.c.ra o).toInt] (s.c.ra l).toNat 1 hRd = .ok ges) (hls : ls = flushLines s (s.c.ra l).toNat ges) :
    execBcfl h o l v s = .next (s.launch .l .st (flushDue s ls) none (.bcfl ls (v == 1) (flushLast s ls))) := by
  subst hls
  rw [execBcfl, offset_zero, canRead_eq, he]
  dsimp only
  rw [counted_of_lt hc]
  rfl

/-- Settles O44. -/
theorem cacheControl : Obligations.CacheControl := by
  intro s h o l v e ges
  refine ⟨rfl, fun hH he => ?_, fun hH he => ?_, fun he hc => ?_⟩
  · exact ⟨_, scinvRange_object hH he, rfl, fun x => mem_scInvalidate ..⟩
  · exact scinvRange_noObject hH he
  · have hmem {x : Nat × Nat} (hx : x ∈ flushLines s (s.c.ra l).toNat ges) := le_of_mem_flushLines hx
    have hmin := foldl_min_le ((flushLines s (s.c.ra l).toNat ges).map (·.2)) (flushLast s (flushLines s (s.c.ra l).toNat ges))
    refine ⟨_, flushDue s _, flushLast s _, _, bcfl_eq hc he rfl, ?_, hmin.1, rfl,
      fun x hx => ⟨hmin.2 _ (List.mem_map_of_mem hx), le_flushLast_of_mem hx⟩, rfl, sameBytes_append _ rfl rfl rfl fun _ => rfl⟩
    refine le_foldl_min _ (le_flushLast _) fun y hy => ?_
    obtain ⟨x, hx, rfl⟩ := List.mem_map.mp hy
    exact hmem hx

end Sys2Proof.CacheControlOf
end

section
/-! SUPPORT. O52: what the host and other packages do to the machine (08 R231, R232, 09 R277, R278, 10 R324, 11 R337 to R339, 12 Table 12-14). -/

namespace Sys2Proof.HostAccess
open Sys2Proof Machine Claims Laws

variable {s : State}

theorem fld_low (x n : Nat) : fld x 0 n = x % 2 ^ n := by rw [fld, Nat.pow_zero, Nat.div_one]

/-! ## Tails of strands -/

/-- A tail that passes its strand's capacity is reported and not written (11 R338, R339). -/
theorem strandTailWrite_bad {n : BitVec 16} {v : DWord} (ha : s.arg = .tail n v)
    (h : s.lcap n.toNat = 0 ∨ 2 ^ s.lcap n.toNat < (v.toNat % 2 ^ 32 + 2 ^ 32 - s.strandHead n.toNat) % 2 ^ 32) :
    execStrandTailWrite s = .next (s.post 6 0 0xFFFF 0 (BitVec.ofNat 64 (n.toNat + v.toNat % 2 ^ 32 * 2 ^ 32)) 0) := by
  rw [execStrandTailWrite, ha]
  dsimp only
  rw [fld_low, if_pos h]

theorem strandTailWrite_good {n : BitVec 16} {v : DWord} (ha : s.arg = .tail n v) (h0 : s.lcap n.toNat ≠ 0)
    (h : (v.toNat % 2 ^ 32 + 2 ^ 32 - s.strandHead n.toNat) % 2 ^ 32 ≤ 2 ^ s.lcap n.toNat) :
    execStrandTailWrite s = .next (s.setTail n.toNat (v.toNat % 2 ^ 32)).noteReady := by
  rw [execStrandTailWrite, ha]
  dsimp only
  rw [fld_low, if_neg (not_or.mpr ⟨h0, Nat.not_lt.mpr h⟩)]

/-- Reads through home ports leave the context. -/
theorem portFetch_c (s : State) (g n : Nat) : (s.portFetch g n).c = s.c := by
  obtain ⟨b, e, h⟩ := LoneIssue.portFetch_eq s g n
  rw [h]

theorem noteReady_c (s : State) : s.noteReady.c = s.c := by
  unfold State.noteReady
  dsimp only
  generalize List.filter _ _ = l
  suffices h : ∀ t : State, t.c = s.c → (l.foldl (fun s h => (s.portFetch (s.hub.strandTable + 32 * h.1.toNat) 32).portFetch
      (s.entryAt h.1.toNat h.2.1.toNat) 64) t).c = s.c from h _ rfl
  induction l with
  | nil => exact fun t h => h
  | cons x l ih => exact fun t h => ih _ ((portFetch_c ..).trans ((portFetch_c ..).trans h))

/-! ## The error strand -/

/-- A record changes of the hub its caches, its count of dropped records and its interrupts. -/
def PostsOnly (k l : Hub) : Prop := ∃ b e d x, l = { k with bcache := b, engines := e, errorDrops := d, msix := x }

theorem post_postsOnly (s : State) (ty code core : Nat) (b a i : DWord) :
    ∃ m h, s.post ty code core b a i = { s with mem := m, hub := h } ∧ PostsOnly s.hub h := by
  unfold State.post
  split
  · exact ⟨_, _, rfl, _, _, _, _, rfl⟩
  · next e _ =>
    dsimp only
    split
    · exact ⟨_, _, rfl, _, _, _, _, rfl⟩
    · generalize _ ++ natBytes 24 0 = r
      obtain ⟨m, h, eq, b, n, rfl⟩ := enqueue_eq s e.toNat r
      rw [eq]
      exact ⟨_, _, rfl, _, _, _, _, rfl⟩

/-- Nothing is posted where no record waits. -/
theorem postOwed_none (h : s.hub.owed = none) : s.postOwed = s := by
  rw [State.postOwed, h]

/-- A record that waits is posted once the error strand is configured. -/
theorem postOwed_some {t : Nat} {w : DWord} {e : BitVec 16} (h : s.hub.owed = some (t, w)) (he : s.hub.errorStrand = some e) :
    s.postOwed = if s.lcap e.toNat = 0 then s else
      { { s with now := t, hub := { s.hub with owed := none } }.post 12 0 0xFFFF 0 0 w with now := s.now } := by
  rw [State.postOwed, h, he]

/-- What becomes of a waiting record when the error strand is set. -/
theorem postOwed_frame {m : BitVec 16} (he : s.hub.errorStrand = some m) :
    s.postOwed.hub.errorStrand = some m ∧ s.postOwed.c = s.c ∧ (s.lcap m.toNat ≠ 0 → s.postOwed.hub.owed = none) := by
  cases howed : s.hub.owed with
  | none =>
    rw [postOwed_none howed]
    exact ⟨he, rfl, fun _ => howed⟩
  | some tw =>
    obtain ⟨t, w⟩ := tw
    rw [postOwed_some howed he]
    split
    next h0 => exact ⟨he, rfl, fun h => absurd h0 h⟩
    next =>
      obtain ⟨mem, k, eq, b, e, d, x, hk⟩ := post_postsOnly { s with now := t, hub := { s.hub with owed := none } } 12 0 0xFFFF 0 0 w
      rw [eq, hk]
      exact ⟨he, rfl, fun _ => rfl⟩

/-! ## Home memory ports -/

/-- A write of the host or of another package leaves memory with its bytes. -/
theorem portAccess_write {i : Instr} {a : DWord} {len : Nat} {bs : List Byte} (hp : s.hub.power.step ≠ 7) (hs : Sound s)
    (hw : Within [{ addr := a.toNat, bytes := bs }]) :
    (s.portAccess i a len (some bs)).c = s.c ∧
      ∀ x, (s.portAccess i a len (some bs)).mem.byte x = (pieceByte [{ addr := a.toNat, bytes := bs }] x).getD (s.mem.byte x) := by
  obtain ⟨hdrop, -, -, hbyte⟩ := MemoryEvents.puts_plain (MemoryEvents.plain_of_sound hs) s.fresh false hw
  rw [State.portAccess, if_neg hp]
  dsimp only
  rw [State.portWrite_mem, show (s.portWrite _).fresh = s.fresh from rfl, hdrop]
  exact ⟨rfl, hbyte⟩

/-- A read answers the bytes of memory and changes nothing of it. -/
theorem portAccess_read {i : Instr} {a : DWord} {len : Nat} (hp : s.hub.power.step ≠ 7) (hc : Clean s) :
    (s.portAccess i a len none).c = s.c ∧ (s.portAccess i a len none).mem = s.mem ∧
      (s.portAccess i a len none).hub.answer = s.mem.bytes a.toNat len := by
  rw [State.portAccess, if_neg hp]
  dsimp only
  rw [checks_clean hc.1 hc.2.1 hc.2.2]
  dsimp only
  obtain ⟨k, hk⟩ := SlotEvents.portRead_frame { s with fresh := s.fresh + 1 } a.toNat len (s.hub.cachedAt a.toNat)
  rw [hk]
  exact ⟨rfl, rfl, rfl⟩

/-- The two accesses at a home memory port. -/
theorem exec_portAccess {i : Instr} (hi : i ∈ [Instr.cxlMemAccess, .remotePackageAccess]) {p : Nat} {a : DWord} {len : Nat} {d : Option (List Byte)}
    (hdev : deviceHalf a.toNat = true) (hrec : s.hub.boot.recovery = false) (ha : s.arg = .access p a len d) :
    exec i s = .next (s.portAccess i a len d) := by
  simp only [List.mem_cons, List.not_mem_nil, or_false] at hi
  obtain rfl | rfl := hi
  · simp only [exec, execCxlMemAccess, ha, hdev, hrec]
    rfl
  · simp only [exec, execRemotePackageAccess, ha, hdev]
    rfl

/-- A recall takes its lines from the atomic engines and answers the bytes of memory. -/
theorem cxlCacheRecall_eq {p : Nat} {a : DWord} {len : Nat} (hdev : deviceHalf a.toNat = false) (ha : s.arg = .access p a len none) :
    execCxlCacheRecall s = .next { s with hub := { s.hub with
      engines := s.hub.engines.filter fun l => !(lines64 a.toNat (max len 1)).contains l.line, answer := s.mem.bytes a.toNat len } } := by
  simp only [execCxlCacheRecall, ha, hdev, Bool.false_eq_true, if_false]

/-- What a fall-back read answers: the bytes of the stacks where the access-control table admits it. -/
def fallBackAnswer (s : State) (p : Nat) (a : DWord) (len : Nat) : List Byte :=
  if (s.hub.access.any fun x => x.1 == p && decide (x.2.1 ≤ a.toNat ∧ a.toNat + len ≤ x.2.2)) && bcHome a.toNat then
    (List.range len).map fun i => s.stackByte (a.toNat + i)
  else []

theorem fallBackRead_eq {p : Nat} {a : DWord} {len : Nat} (ha : s.arg = .access p a len none) (hp : s.hub.power.step ≠ 7) :
    execFallBackReadRequest s = .next { s with hub := { s.hub with answer := fallBackAnswer s p a len } } := by
  simp only [execFallBackReadRequest, ha, if_neg hp, fallBackAnswer]

/-- At power step 7 the read waits (12 R398). -/
theorem fallBackRead_waits {p : Nat} {a : DWord} {len : Nat} (ha : s.arg = .access p a len none) (hp : s.hub.power.step = 7) :
    execFallBackReadRequest s = .next (s.defer .fallBackReadRequest s.arg) := by
  simp only [execFallBackReadRequest, ha, if_pos hp]

theorem fallBackAnswer_refused {p : Nat} {a : DWord} {len : Nat} (h : ∀ x ∈ s.hub.access, x.1 ≠ p) : fallBackAnswer s p a len = [] := by
  rw [fallBackAnswer, if_neg]
  simp only [Bool.and_eq_true, List.any_eq_true, beq_iff_eq]
  rintro ⟨⟨x, hx, hp, -⟩, -⟩
  exact h x hx hp

theorem fallBackAnswer_admitted {p : Nat} {a : DWord} {len : Nat} (hb : bcHome a.toNat = true)
    (h : ∃ x ∈ s.hub.access, x.1 = p ∧ x.2.1 ≤ a.toNat ∧ a.toNat + len ≤ x.2.2) :
    fallBackAnswer s p a len = (List.range len).map fun i => s.stackByte (a.toNat + i) := by
  rw [fallBackAnswer, if_pos]
  simpa only [hb, Bool.and_true, List.any_eq_true, Bool.and_eq_true, beq_iff_eq, decide_eq_true_iff] using h

/-! ## Translations and links -/

/-- The table of objects in force after an invalidation. -/
theorem objectInvalidation_effect (s : State) :
    ∃ t, execObjectInvalidation s = .next t ∧ OnlyHub s t ∧ t.hub.otNext = none ∧
      (t.hub.otBase, t.hub.otSize) = s.hub.otNext.getD (s.hub.otBase, s.hub.otSize) ∧
      ∀ c, c ∈ t.hub.otCells ↔ c ∈ s.mem.cells ∧ t.hub.otBase ≤ c.1 ∧ c.1 < t.hub.otBase + 16 * t.hub.otSize := by
  obtain ⟨b, e, h⟩ := LoneIssue.portFetch_eq s (s.hub.otNext.getD (s.hub.otBase, s.hub.otSize)).1 (16 * (s.hub.otNext.getD (s.hub.otBase, s.hub.otSize)).2)
  rw [execObjectInvalidation]
  dsimp only
  rw [h]
  refine ⟨_, rfl, rfl, rfl, rfl, fun c => ?_⟩
  rw [List.mem_filter, decide_eq_true_iff]

/-- Whether an operation in hand uses a host page. -/
theorem atsInvalidation_eq {p : Nat} {present : Bool} (ha : s.arg = .page p present) :
    execAtsInvalidation s =
      if s.outs.any fun o => s.writesRange o (p * 4096) 4096 || s.readsRange o (p * 4096) 4096 then .next (s.defer .atsInvalidation s.arg)
      else .next { s with hub := { s.hub with pages := if present then setAdd s.hub.pages p else setDel s.hub.pages p } } := by
  rw [execAtsInvalidation, ha]

/-- The pages after a change of one page's translation. -/
theorem mem_pages (l : List Nat) (p : Nat) (present : Bool) :
    (p ∈ (if present then setAdd l p else setDel l p) ↔ present = true) ∧
      ∀ q, q ≠ p → (q ∈ (if present then setAdd l p else setDel l p) ↔ q ∈ l) := by
  cases present
  · simp only [Bool.false_eq_true, if_false, SlotEvents.mem_setDel]
    exact ⟨by tauto, fun q hq => by tauto⟩
  · simp only [if_true, SlotEvents.mem_setAdd]
    exact ⟨by tauto, fun q hq => by tauto⟩

/-- A link that fails while no operation is in hand loses its package and its routes (09 R277). -/
theorem linkDown_eq {k : BitVec 8} (ha : s.arg = .package k) (ho : s.outs = []) :
    execLinkDown s = .next { s with hub := { s.hub with lost := setAdd s.hub.lost k.toNat, hops := s.hub.hops.filter (·.1 != k.toNat) } } := by
  rw [execLinkDown, ha]
  dsimp only
  rw [ho]
  rfl

/-- A route that comes back is lost no more. -/
theorem routeRestore_eq {k : BitVec 8} (ha : s.arg = .package k) :
    execRouteRestore s = .next { s with hub := { s.hub with lost := setDel s.hub.lost k.toNat } } := by
  rw [execRouteRestore, ha]

/-- What the host's setting of the error strand does to a record that waits. -/
theorem errorStrand_effect {m : BitVec 16} (ha : s.arg = .hub (.errorStrand m)) :
    ∃ t, execHubConfigurationWrite s = .next t ∧ t.hub.errorStrand = some m ∧ t.c = s.c ∧
      (s.hub.owed = none → t = { s with hub := { s.hub with errorStrand := some m } }) ∧
      (s.hub.owed ≠ none → s.lcap m.toNat ≠ 0 → t.hub.owed = none) := by
  obtain ⟨hstrand, hc, howed⟩ := postOwed_frame (s := { s with hub := { s.hub with errorStrand := some m } }) rfl
  refine ⟨State.postOwed { s with hub := { s.hub with errorStrand := some m } }, by rw [execHubConfigurationWrite, ha], hstrand, hc,
    fun h => postOwed_none h, fun _ h => howed h⟩

/-- Settles O52: each event's answer, by the equation of its function. -/
theorem hostAndPackagesReachTheMachine : Obligations.HostAndPackagesReachTheMachine := by
  intro s a len p n bs m v k
  refine ⟨?tailBad, ?tailGood, ?objectTable, ?waitPool, errorStrand_effect, ?executable, objectInvalidation_effect s, ?page, ?pageInUse,
    ?linkDown, ?routeRestore, ?port, ?cacheRecall, ?fallBackWaits, ?fallBack⟩
  case tailBad => exact fun ha hbad => ⟨_, strandTailWrite_bad ha hbad, rfl⟩
  case tailGood => exact fun ha h0 hgood => ⟨_, strandTailWrite_good ha h0 hgood, noteReady_c _, rfl⟩
  case objectTable => exact fun ha => ⟨_, by simp only [exec, execHubConfigurationWrite, ha], rfl⟩
  case waitPool => exact fun ha => ⟨_, by simp only [exec, execHubConfigurationWrite, ha], rfl⟩
  case executable => exact fun e ha => ⟨_, by simp only [exec, execExecutableRegistration, ha], rfl⟩
  case page =>
    intro present ha hout
    have hnone : ¬ (s.outs.any fun o => s.writesRange o (p * 4096) 4096 || s.readsRange o (p * 4096) 4096) = true := by
      simpa using hout
    obtain ⟨hp, hq⟩ := mem_pages s.hub.pages p present
    exact ⟨_, (atsInvalidation_eq ha).trans (if_neg hnone), rfl, hp, hq⟩
  case pageInUse =>
    intro present o ha ho huse
    have hsome : (s.outs.any fun o => s.writesRange o (p * 4096) 4096 || s.readsRange o (p * 4096) 4096) = true :=
      List.any_eq_true.mpr ⟨o, ho, by simpa using huse⟩
    rw [← ha]
    exact (atsInvalidation_eq ha).trans (if_pos hsome)
  case linkDown =>
    intro ha ho
    refine ⟨_, linkDown_eq ha ho, rfl, (SlotEvents.mem_setAdd ..).mpr (.inl rfl), fun h hh => ?_⟩
    simpa using (List.mem_filter.mp hh).2
  case routeRestore =>
    exact fun ha => ⟨_, routeRestore_eq ha, rfl, fun h => ((SlotEvents.mem_setDel ..).mp h).2 rfl⟩
  case port =>
    exact fun i hi hdev hrec hp => ⟨fun ha hs hw => ⟨_, exec_portAccess hi hdev hrec ha, portAccess_write hp hs hw⟩,
      fun ha hc => ⟨_, exec_portAccess hi hdev hrec ha, portAccess_read hp hc⟩⟩
  case cacheRecall =>
    refine fun hdev ha => ⟨_, cxlCacheRecall_eq hdev ha, rfl, rfl, fun l => ?_⟩
    simp only [List.mem_filter, Bool.not_eq_true', List.contains_eq_mem, decide_eq_false_iff_not]
  case fallBackWaits => exact fun ha hp => fallBackRead_waits ha hp
  case fallBack => exact fun ha hp => ⟨_, fallBackRead_eq ha hp, rfl, fallBackAnswer_refused, fallBackAnswer_admitted⟩

end Sys2Proof.HostAccess
end

section
/-! SUPPORT. O45: the transfers up to their launch (09 R265 to R294). -/

namespace Sys2Proof.TransferLaunch
open Sys2Proof Machine Claims Laws SlotTAccess TransferCourse

variable {s : State}

/-- A transfer gives no byte that its burst does not give. -/
theorem byteAt_of_burst {o : Out} {b : Burst} (hb : o.work.burst = some b) (a : Nat) : o.byteAt? a = b.byteAt? a := by
  rw [Out.byteAt?]
  generalize o.work = w at hb
  cases w
  case copy | refill | shift =>
    cases hb
    rfl
  all_goals exact absurd hb (by simp [Work.burst])

/-- A transfer put in hand begins at once where it may, and else stays in its queue. -/
theorem transferGoes_beginLaunched {o : Out} {b : Burst} (hb : o.work.burst = some b) (hq : b.stage = .queued) :
    TransferGoes s ({ s with outs := s.outs ++ [o], nextId := s.nextId + 1 } : State).beginLaunched o := by
  set v : State := { s with outs := s.outs ++ [o], nextId := s.nextId + 1 } with hv
  have hlaunched : v.beginLaunched = if v.mayBegin o then { v with outs := s.outs ++ [v.begun o] } else v := by
    simp only [State.beginLaunched, hv, List.getLast?_append, List.getLast?_singleton, Option.some_or, List.dropLast_concat]
  obtain ⟨⟨start, hwork, -, -⟩, -⟩ := begun_moves (s := v) hb
  rw [hlaunched]
  refine ⟨fun hno => if_neg (by rw [hno]; decide), fun hyes => if_pos hyes, ?_⟩
  split
  · exact sameBytes_append (v.begun o) rfl rfl rfl fun a => byteAt_of_burst (hwork ▸ burst_withStage hb _) a
  · exact sameBytes_append o rfl rfl rfl fun a => by rw [byteAt_of_burst hb, Burst.byteAt?, hq]

/-- A promised transfer. -/
theorem promiseGoes_promised {w : Work} {b : Burst} (hb : w.burst = some b) (hq : b.stage = .queued) (d : BitVec 4) (path : Path) (promise due : Nat) :
    PromiseGoes s (s.promised d path promise due w).beginLaunched d path promise due w :=
  ⟨s.wa d (BitVec.ofNat 64 promise), writesA_wa .., transferGoes_beginLaunched (o := transferOut _ path (some promise) due w) hb hq⟩

/-! ## `copy` -/

/-- The record pair that `copy` reads from crown. -/
def pairAt (s : State) (la : Nat) : BitVec 1024 := BitVec.ofNat 1024 (bytesNat (s.bytes .l (s.crownAt la) 128))

/-- A record pair whose granules are full and good is read. -/
theorem recordPair_eq {r a : BitVec 4} {la : Nat} (hcl : Clean s) (he : s.offsetCrown r (s.c.ra a).toInt 128 64 hRd = .ok la)
    (hf : s.mem.isFull (s.crownAt la) 128 = true) (f : BitVec 1024 → State → State) : s.recordPair r a f = f (pairAt s la) (AfterRead s) := by
  have hb : s.unwatch.bytes .l (s.unwatch.crownAt la) 128 = s.bytes .l (s.crownAt la) 128 := bytes_congr rfl rfl rfl ..
  have hr : s.unwatch.eccRead .l (s.unwatch.crownAt la) 128 = (AfterRead s, []) := eccRead_clean (s := s.unwatch) hcl ..
  rw [State.recordPair, offset_zero, canRead_eq, he]
  dsimp only
  rw [whenFull_of_full hf, hb, hr]
  rfl

/-- A copy that passes its checks outside a segment is promised, and begins where it may. -/
theorem copy_eq {d h m r a : BitVec 4} {fs fw ft bo : BitVec 1} {la : Nat} {u : State} {op : Slotted} {z : Side × Side} {lent : Nat}
    {ld lm : List (Loc × Nat × Nat)} {p : Burst × Nat} (hu : u = AfterRead s) (hop : op = u.slotted (.copy d h m r a fs fw ft bo))
    (hz : z = copySides op (pairAt s la) h m) (hlent : lent = ((s.lat.ext.map fun (e : Ext) => e.t).getD 0).toNat)
    (hp : p = u.copyBurst z.1 z.2 (ld.headD (⟨0, 0, 0⟩, 0, 0)) (lm.headD (⟨0, 0, 0⟩, 0, 0)))
    (hseg : s.c.segOpen = false) (hcp : s.count .cp < 63) (hcl : Clean s) (hheld : s.copiesHeld < 8)
    (he : s.offsetCrown r (s.c.ra a).toInt 128 64 hRd = .ok la) (hf : s.mem.isFull (s.crownAt la) 128 = true)
    (hshape : u.copyShape z.1 z.2 = none) (hglobal : u.copyGlobal z.1 z.2 = .ok (ld, lm))
    (hlostD : s.lostIn (sideGlobals z.1 ld) = none) (hlostM : s.lostIn (sideGlobals z.2 lm) = none)
    (hbar : bo = 1 → barrierHandle (s.c.rh (BitVec.ofNat 4 (lent % 16))) (s.c.ra (BitVec.ofNat 4 (lent / 16))).toInt = none) :
    let due := s.engineEnd 0 s.nextId + p.1.lead + p.1.time s.hub.power.clock
    execCopy d h m r a fs fw ft bo s =
      .next (u.promised d .k (due + p.2 + 32) due (.copy op (u.sideMap z.1) (u.sideMap z.2) (pairAt s la) p.1)).beginLaunched := by
  subst hu hop hz hlent hp
  have hlost (gs : List Nat) : (AfterRead s).lostIn gs = s.lostIn gs := rfl
  have hopen : (AfterRead s).c.segOpen = false := hseg
  rw [execCopy, recordPair_eq hcl he hf]
  dsimp only
  rw [hshape]
  dsimp only
  rw [hglobal]
  dsimp only
  rw [hlost, hlost, hlostD, hlostM]
  dsimp only
  split
  next f hfault =>
    split at hfault
    next hbo => exact absurd ((hbar hbo).symm.trans ((congrArg _ (offset_zero ..).symm).trans hfault)) (by simp)
    next => exact absurd hfault (by simp)
  next =>
    rw [hopen, Bool.false_and, Bool.false_and, if_neg Bool.false_ne_true, if_neg Bool.false_ne_true, counted_of_lt (s := AfterRead s) hcp,
      if_neg (c := 8 ≤ (AfterRead s).copiesHeld) (Nat.not_le.mpr hheld)]
    rfl

/-- What a refresh of a tower adds to a promise (09 R266, Af). -/
theorem towerTerms_refresh (moved tower : Bool) : (s.towerTerms moved tower).2 = if tower = true then (if s.deferring then 0 else 96) else 0 := by
  cases tower <;> cases hd : s.deferring <;> simp [State.towerTerms, hd]

/-- What a remapped tower adds to a data phase (09 R266, Ar). -/
theorem towerTerms_remap (moved tower : Bool) : (s.towerTerms moved tower).1 = if moved = true then 2 else 0 := rfl

theorem copyBurst_refresh (z : Side × Side) (dl ml : Loc × Nat × Nat) :
    (s.copyBurst z.1 z.2 dl ml).2 = if hClass z.1.h = 1 ∨ hClass z.2.h = 1 then (if s.deferring then 0 else 96) else 0 := by
  simp only [State.copyBurst, towerTerms_refresh, decide_eq_true_eq]

/-! ## `frfl` -/

/-- The times of a refill from a home into a tower of the selected cores (09 R288). -/
def refillBurst (s : State) (home len tower : Nat) (ranks : BitVec 8) : Burst :=
  let place := if inStaging home then Place.staging (homeBoard home) else .hbm (homeBoard home)
  let remapped := ((List.range 8).filter fun k => ranks.getLsbD k).any fun k => s.towerOn (s.core.phys / 8 * 8 + k) tower != tower
  { lead := s.sideLatency place false + 4, bytes := len, rate := min 64 (min s.hub.power.rateCap s.hub.power.portRate)
    extra := (s.towerTerms remapped true).1 }

theorem refillBurst_lead (home len tower : Nat) (ranks : BitVec 8) :
    (refillBurst s home len tower ranks).lead = (if inStaging home then 56 else 156) + 12 * bridges s.board (homeBoard home) + 4 := by
  rw [refillBurst]
  cases inStaging home <;> rfl

theorem refillBurst_extra (home len tower ranks : Nat) :
    let moved := ∃ n < 8, ranks.testBit n = true ∧ s.towerOn (s.core.phys / 8 * 8 + n) tower ≠ tower
    let b := refillBurst s home len tower (BitVec.ofNat 8 ranks)
    (moved → b.extra = 2) ∧ (¬ moved → b.extra = 0) := by
  intro moved b
  have hbit (n : Nat) (hn : n < 8) : (BitVec.ofNat 8 ranks).getLsbD n = ranks.testBit n := by
    rw [BitVec.getLsbD_ofNat, decide_eq_true hn, Bool.true_and]
  have hmoved : (((List.range 8).filter fun k => (BitVec.ofNat 8 ranks).getLsbD k).any fun k =>
      s.towerOn (s.core.phys / 8 * 8 + k) tower != tower) = true ↔ moved := by
    simp only [List.any_eq_true, List.mem_filter, List.mem_range, bne_iff_ne, and_assoc]
    exact exists_congr fun n => and_congr_right fun hn => by rw [hbit n hn]
  exact ⟨fun h => if_pos (hmoved.mpr h), fun h => if_neg (mt hmoved.mp h)⟩

/-- A refill that passes its checks outside a segment is promised, and begins where it may. -/
theorem frfl_eq {d h a w t : BitVec 4} {ge : Nat × Nat} {off units tower ranks : Nat} {b : Burst} (hseg : s.c.segOpen = false)
    (hcp : s.count .cp < 63) (hpar : (s.c.ra t).toNat = off + tower * 2 ^ 23 + units * 2 ^ 32 + ranks * 2 ^ 56) (hoff : off < 2 ^ 23)
    (htower : tower < 16) (hunits : 0 < units) (hunits' : units ≤ 1024) (hranks : 0 < ranks) (hranks' : ranks < 256) (halign : off % 64 = 0)
    (hge : s.offsetGlobal h (s.c.ra a).toInt (units * 64) 64 hRd = .ok [ge]) (hdev : deviceHalf ge.1 = true)
    (hcheck : checkHandle s.logical (s.c.rh w) [1] hWr (off : Int) = none)
    (helem : towerElem (s.c.rh w) tower ((off : Int) - (hBase (s.c.rh w) % 2 ^ 23 : Nat)) (units * 64) 1 = .ok off)
    (hrefuse : s.refillRanks tower off (units * 64) (BitVec.ofNat 8 ranks) = none)
    (hb : b = refillBurst s (readHome s.board ge) (units * 64) tower (BitVec.ofNat 8 ranks)) :
    let due := s.engineEnd 1 s.nextId + b.lead + b.time s.hub.power.clock
    execFrfl d h a w t s = .next (s.promised d .k (due + (if s.deferring then 0 else 96) + 32) due
      (.refill (readHome s.board ge) (units * 64) tower off (BitVec.ofNat 8 ranks) b)).beginLaunched := by
  subst hb
  have h0 : fld (s.c.ra t).toNat 0 23 = off := by rw [hpar, fld]; omega
  have h23 : fld (s.c.ra t).toNat 23 4 = tower := by rw [hpar, fld]; omega
  have h27 : fld (s.c.ra t).toNat 27 5 = 0 := by rw [hpar, fld]; omega
  have h32 : fld (s.c.ra t).toNat 32 16 = units := by rw [hpar, fld]; omega
  have h48 : fld (s.c.ra t).toNat 48 8 = 0 := by rw [hpar, fld]; omega
  have h56 : fld (s.c.ra t).toNat 56 8 = ranks := by rw [hpar, fld]; omega
  have hne : BitVec.ofNat 8 ranks ≠ 0 := fun h => by
    have := congrArg BitVec.toNat h
    simp at this
    omega
  have hfields : ¬ ((0 : Nat) ≠ 0 ∨ (0 : Nat) ≠ 0 ∨ BitVec.ofNat 8 ranks = 0 ∨ units = 0 ∨ 1024 < units) := by
    simp only [ne_eq, not_true_eq_false, hne, false_or]
    omega
  rw [execFrfl]
  dsimp only
  rw [h0, h23, h27, h32, h48, fbv, h56]
  refine (if_neg hfields).trans ((if_neg (not_not.mpr halign)).trans ?_)
  rw [offset_zero, canRead_eq, hge]
  dsimp only [List.headD]
  refine (if_neg (by rw [hdev]; decide)).trans ?_
  have helem' : towerElem (s.c.rh w) tower ((off : Int) - (fld (hBase (s.c.rh w)) 0 23 : Nat)) (units * 64) 1 = .ok off := by
    rw [fld, pow_zero, Nat.div_one]
    exact helem
  rw [canWrite_eq, hcheck]
  dsimp only
  rw [helem']
  dsimp only
  rw [hrefuse]
  dsimp only
  rw [hseg, counted_of_lt hcp, towerTerms_refresh]
  rfl

/-! ## `reduce` -/

/-- A handle of the one class that an access takes, of the bead's own core and with the right, passes its checks. -/
theorem checkHandle_own {H : QWord} {c l : Nat} {right : QWord → Bool} (hc : hClass H = c) (h0 : c ≠ 0) (ho : hObj H = l) (hr : right H = true)
    (o : Int) : checkHandle l H [c] right o = none := by
  subst hc ho
  rw [checkHandle, if_neg h0, hr]
  simp

/-- The words that a reduction contributes. -/
def contributed (s : State) (la n : Nat) : List Word :=
  (List.range n).map fun i => BitVec.ofNat 32 (bytesNat (((s.bytes .x (s.crownAt la) (4 * n)).drop (4 * i)).take 4))

/-- The cycle in which a reduction of `n` words over packages completes (09 R294). -/
def reduceDue (s : State) (n packages : Nat) : Nat := s.now + 300 + (n + 15) / 16 + 220 * clog2 packages + 32

/-- A reduction that passes its checks outside a segment is promised. -/
theorem reduce_eq {d h a o k : BitVec 4} {n la : Nat} {c : Clasp} (hseg : s.c.segOpen = false) (hcp : s.count .cp < 63) (hcl : Clean s)
    (hno : s.c.claspNo ≠ 0) (hclasp : s.hub.clasp s.c.claspNo = some c) (hn : (s.c.ra k).toNat % 2 ^ 11 = n)
    (hop : (s.c.ra k).toNat / 2 ^ 11 % 2 ^ 5 = 0) (hk : (s.c.ra k).toNat < 2 ^ 32) (hpos : 0 < n) (hle : n ≤ 1024)
    (hclass : hClass (s.c.rh h) = 2) (hobj : hObj (s.c.rh h) = s.logical) (hrd : hRd (s.c.rh h) = true) (hwr : hWr (s.c.rh h) = true)
    (hsrc : offsetElem (s.c.rh h) (s.c.ra a).toInt (4 * n) 32 = .ok la) (hdst : ∃ y, offsetElem (s.c.rh h) (s.c.ra o).toInt (4 * n) 32 = .ok y)
    (hdst' : ∃ y, offsetElem (s.c.rh h) ((s.c.ra o).toInt + 4 * n) (4 * n) 4 = .ok y)
    (hapart : (s.c.ra o).toInt + 8 * n ≤ (s.c.ra a).toInt ∨ (s.c.ra a).toInt + 4 * n ≤ (s.c.ra o).toInt) :
    let due := reduceDue s n c.packages.length
    execReduce d h a o k s = .next (({ s with fresh := s.fresh + 1 } : State).promised d .x due due
      (.reduce (s.slotted (.reduce d h a o k)) (contributed s la n))) := by
  obtain ⟨y, hdst⟩ := hdst
  obtain ⟨z, hdst'⟩ := hdst'
  have h0 : fld (s.c.ra k).toNat 0 11 = n := by rw [fld, pow_zero, Nat.div_one, hn]
  have h11 : fld (s.c.ra k).toNat 11 5 = 0 := hop
  have h32 : fld (s.c.ra k).toNat 32 32 = 0 := by rw [fld]; omega
  have hfields : ¬ ((0 : Nat) ≠ 0 ∨ (0 : Nat) ≠ 0 ∨ n = 0 ∨ 1024 < n) := by omega
  have hmeets : (decide ((s.c.ra a).toInt < (s.c.ra o).toInt + 4 * n ∧ (s.c.ra o).toInt < (s.c.ra a).toInt + 4 * n) ||
      decide ((s.c.ra a).toInt < (s.c.ra o).toInt + 4 * n + 4 * n ∧ (s.c.ra o).toInt + 4 * n < (s.c.ra a).toInt + 4 * n)) = false := by
    simp only [Bool.or_eq_false_iff, decide_eq_false_iff_not]
    omega
  rw [execReduce]
  dsimp only
  rw [h0, h11, h32, offset_zero, offset_zero]
  refine (if_neg hno).trans ?_
  rw [checkHandle_own hclass (by decide) hobj (by rw [hrd, hwr]; rfl)]
  refine (if_neg hfields).trans ?_
  simp only [resolveAll, hsrc, hdst, hdst']
  rw [hmeets, hseg, counted_of_lt hcp, eccRead_clean hcl, hclasp]
  rfl

/-! ## `shift` -/

/-- A step in one direction leaves the core from four of its sixteen cells (09 R289). -/
theorem length_edgeCells : ∀ r : BitVec 2, ((List.range 16).filter fun c => (stepCell c r).2).length = 4 := by decide

/-- The core that takes the data beyond the edge, where the mode is to send it on. -/
def shiftAway (s : State) (r m : BitVec 2) : Option Nat := if m = 2 then s.partner r else none

/-- A tower of this core, or of the core that takes its data, is remapped. -/
def shiftMoved (s : State) (away : Option Nat) : Bool :=
  (List.range 16).any fun t => s.core.tower t != t || (away.map fun p => s.towerOn p t != t).getD false

theorem shiftMoved_iff (away : Option Nat) :
    shiftMoved s away = true ↔ ∃ t < 16, s.core.tower t ≠ t ∨ ∃ p, away = some p ∧ s.towerOn p t ≠ t := by
  simp only [shiftMoved, List.any_eq_true, List.mem_range, Bool.or_eq_true, bne_iff_ne]
  refine exists_congr fun t => and_congr_right fun _ => or_congr_right ?_
  cases away <;> simp

/-- What a shift does once it is in hand. -/
def shiftWork (s : State) (r m : BitVec 2) (h a d l : BitVec 4) (n e : Nat) : Work :=
  .shift (s.slotted (.shift r m h a d l)) (if m = 2 ∧ shiftAway s r m = none then 4 else 0) (shiftAway s r m).toList
    (decide (m = 0 ∨ m = 2 ∧ s.partner (r + 2) = none)) { lead := 0, bytes := n + 64 * (4 + e), rate := 64, extra := 0 }

/-- Data that no core takes counts as dropped, for the sixteen cells' four edges. -/
theorem shift_dropped (r m : BitVec 2) (p : Prop) [Decidable p] :
    (if m = 2 then (if m = 0 ∨ (m = 2 ∧ p) then ((List.range 16).filter fun c => (stepCell c r).2).length else 0) else 0) =
      if m = 2 ∧ p then 4 else 0 := by
  rw [length_edgeCells]
  by_cases hm : m = 2
  · subst hm
    simp
  · rw [if_neg hm, if_neg fun h => hm h.1]

/-- A shift that passes its checks outside a segment goes out. -/
theorem shift_eq {r m : BitVec 2} {h a d l : BitVec 4} {n : Nat} {f src dst : Int} (hseg : s.c.segOpen = false) (hcp : s.count .cp < 63)
    (hm : m ≠ 3) (hclass : hClass (s.c.rh h) = 1) (hobj : hObj (s.c.rh h) = s.logical) (hrd : hRd (s.c.rh h) = true) (hwr : hWr (s.c.rh h) = true)
    (hf : f = ((hBase (s.c.rh h) % 2 ^ 23 : Nat) : Int)) (hsrc : src = (s.c.ra a).toInt) (hdst : dst = (s.c.ra d).toInt)
    (hasrc : (f + src) % 64 = 0) (hadst : (f + dst) % 64 = 0) (hok : towerHandleOk (s.c.rh h) = true)
    (hmask : hBase (s.c.rh h) / 2 ^ 23 % 2 ^ 16 = 0xFFFF) (hn : (s.c.ra l).toNat = n) (hpos : 0 < n) (hle : n ≤ 65536) (han : n % 64 = 0)
    (hs0 : 0 ≤ src) (hsl : src + n ≤ hLen (s.c.rh h)) (hd0 : 0 ≤ dst) (hdl : dst + n ≤ hLen (s.c.rh h)) (hapart : src + n ≤ dst ∨ dst + n ≤ src) :
    execShift r m h a d l s =
      .next (s.launch .k .cp 0 none (shiftWork s r m h a d l n (if shiftMoved s (shiftAway s r m) then 2 else 0))).beginLaunched := by
  have hbase : ((fld (hBase (s.c.rh h)) 0 23 : Nat) : Int) = f := by rw [hf, fld, pow_zero, Nat.div_one]
  have hmask' : fld (hBase (s.c.rh h)) 23 16 = 0xFFFF := hmask
  have hwin (o : Int) (h0 : 0 ≤ o) (h1 : o + n ≤ hLen (s.c.rh h)) : inWindow (s.c.rh h) o n = true := decide_eq_true ⟨h0, h1⟩
  have hlen : ¬ (n = 0 ∨ 65536 < n ∨ n % 64 ≠ 0) := by omega
  have hzero : (m == 0 || (m == 2 && (s.partner (r + 2)).isNone)) = decide (m = 0 ∨ m = 2 ∧ s.partner (r + 2) = none) := by
    rw [Bool.eq_iff_iff]
    simp
  rw [execShift]
  dsimp only
  rw [offset_zero, offset_zero, hbase, ← hsrc, ← hdst, hn, hok, hmask']
  refine (if_neg hm).trans ?_
  rw [checkHandle_own hclass (by decide) hobj (by rw [hrd, hwr]; rfl)]
  refine (if_neg (not_not.mpr hasrc)).trans ((if_neg (not_not.mpr hadst)).trans ((if_neg (by rw [hwin src hs0 hsl]; decide)).trans
    ((if_neg (by rw [hwin dst hd0 hdl]; decide)).trans ((if_neg hlen).trans ((if_neg (by omega)).trans ?_)))))
  rw [hseg, counted_of_lt hcp, shift_dropped, hzero]
  rfl

/-! ## `wstr` -/

/-- The weight stream that passes its checks (09 R284, R285). -/
def streamSet (s : State) (h a : BitVec 4) (len rows par : Nat) : Stream :=
  { handle := s.c.rh h, off := (s.c.ra a).toInt.toNat, len := len, rows := rows, fmt := BitVec.ofNat 8 par, width := 128 * 2 ^ (par / 2 ^ 8), pos := 0
    since := s.coreAfter (s.sideLatency (s.streamPlace (s.c.rh h) (s.c.ra a).toInt) false)
    rate := min (min 512 s.hub.power.rateCap) s.hub.power.portRate }

/-- A stream that passes its checks is set up, once no queued product takes rows of the one before it. -/
theorem wstr_eq {h a l r k : BitVec 4} {par len : Nat} {ges : List (Nat × Nat)} (hk : (s.c.ra k).toNat = par) (hl : (s.c.ra l).toNat = len)
    (hge : s.offsetGlobal h (s.c.ra a).toInt (max len 1) 8 hRd = .ok ges) (hpar : par < 2 ^ 10) (hwidth : par / 2 ^ 8 ≠ 3)
    (hfmt : operandFmt (BitVec.ofNat 8 par) = true) (hrows : 0 < (s.c.ra r).toNat) (hrows' : (s.c.ra r).toNat < 2 ^ 32) :
    execWstr h a l r k s = if s.outs.any fun x => x.bank == s.core.bank && x.usesStream then .next s.stall
      else .next { s with c := { s.c with wstr := some (streamSet s h a len (s.c.ra r).toNat par) } } := by
  have h10 : fld par 10 54 = 0 := by rw [fld]; omega
  have h8 : fld par 8 2 = par / 2 ^ 8 := by rw [fld]; omega
  have hrange : ¬ ((0 : Nat) ≠ 0 ∨ (s.c.ra r).toNat = 0 ∨ 2 ^ 32 ≤ (s.c.ra r).toNat) := by omega
  have hformat : ¬ ((!true) = true ∨ par / 2 ^ 8 = 3) := by simpa using hwidth
  rw [execWstr]
  dsimp only
  rw [hk, hl, offset_zero, canRead_eq, hge]
  dsimp only
  rw [h10, h8, hfmt]
  exact (if_neg hrange).trans (if_neg hformat)

/-! ## O45 -/

/-- The time of a data phase with its parts said apart (09 R266). -/
theorem add_time (n : Nat) (b : Burst) (clock : Nat) :
    n + b.time clock = n + (b.bytes * 700 + b.rate * clock - 1) / (b.rate * clock) + b.extra := (Nat.add_assoc ..).symm

/-- Settles O45: each transfer's answer by its equation, and how a transfer in hand begins. -/
theorem transfersGoOut : Obligations.TransfersGoOut := by
  intro s d h m r a w l k fs fw ft bo x y la hseg hcp f refresh
  refine ⟨?copy, ?refill, ?reduce, ?shift, ?reserved, ?stream⟩
  case copy =>
    intro pair ld lm hcl hheld he hf hpair u op lent z hshape hglobal hlostD hlostM hbar p due
    subst hpair
    have hdue : due = s.engineEnd 0 s.nextId + p.1.lead + p.1.time s.hub.power.clock := (add_time ..).symm
    refine ⟨copyBurst_refresh (s := u) z _ _, _, copy_eq rfl rfl rfl rfl rfl hseg hcp hcl hheld he hf hshape hglobal hlostD hlostM hbar, ?_⟩
    rw [hdue]
    exact promiseGoes_promised rfl rfl ..
  case refill =>
    intro ge off units tower ranks hpar hoff htower hunits hunits' hranks hranks' halign hge hdev hcheck helem hrefuse home away moved
    obtain ⟨hmoved, hstill⟩ := refillBurst_extra (s := s) home (units * 64) tower ranks
    refine ⟨_, refillBurst s home (units * 64) tower (BitVec.ofNat 8 ranks),
      frfl_eq hseg hcp hpar hoff htower hunits hunits' hranks hranks' halign hge hdev hcheck helem hrefuse rfl,
      rfl, refillBurst_lead .., rfl, hmoved, hstill, rfl, ?_⟩
    rw [add_time]
    exact promiseGoes_promised rfl rfl ..
  case reduce =>
    intro n vals c hcl hno hclasp hn hop hk hpos hle hclass hobj hrd hwr hsrc hdst hdst' hapart hvals due v
    subst hvals
    exact ⟨_, v.wa d (BitVec.ofNat 64 due),
      reduce_eq hseg hcp hcl hno hclasp hn hop hk hpos hle hclass hobj hrd hwr hsrc hdst hdst' hapart, writesA_wa ..,
      sameBytes_append _ rfl rfl rfl fun _ => rfl, rfl⟩
  case shift =>
    intro n f src dst hy hclass hobj hrd hwr hf hsrc hdst hasrc hadst hok hmask hn hpos hle han hs0 hsl hd0 hdl hapart away moved
    have hmoved := shiftMoved_iff (s := s) away
    exact ⟨_, _, shift_eq hseg hcp hy hclass hobj hrd hwr hf hsrc hdst hasrc hadst hok hmask hn hpos hle han hs0 hsl hd0 hdl hapart,
      fun h => if_pos (hmoved.mpr h), fun h => if_neg (mt hmoved.mp h),
      transferGoes_beginLaunched (o := transferOut s .k none 0 (shiftWork s x y h a d l n _)) rfl rfl⟩
  case reserved => exact fun hy => ⟨_, if_pos hy, refused_raiseIssue ..⟩
  case stream =>
    intro par len ges hk hl hge hpar hwidth hfmt hrows hrows'
    have hset := wstr_eq hk hl hge hpar hwidth hfmt hrows hrows'
    refine ⟨fun hfree => hset.trans (if_neg ?_), fun ⟨o, ho, hbank, huses⟩ => ⟨_, hset.trans (if_pos ?_), waits_stall s⟩⟩
    · simpa using hfree
    · exact List.any_eq_true.mpr ⟨o, ho, by simp [hbank, huses]⟩

end Sys2Proof.TransferLaunch
end

section
/-! SUPPORT. O53: refresh, its slots and the patrol scrub (09 R295 to R300, 12 R388). -/

namespace Sys2Proof.RefreshAndScrub
open Sys2Proof Machine Claims Laws

variable {s : State}

/-! ## Scrubs (12 R388) -/

/-- A scrub posts records and marks granules; the core is as it was. -/
theorem scrub_core (lo n : Nat) : (s.scrub lo n).core = s.core := by
  have hpost (l : List Nat) (u : State) :
      (l.foldl (fun s g => s.post 2 0 s.core.phys 0 (BitVec.ofNat 64 g) (s.dropWord s.c.cbmap g)) u).core = u.core := by
    induction l generalizing u with
    | nil => rfl
    | cons g l ih => rw [List.foldl_cons, ih, post_core]
  exact hpost ..

/-- With no bit wrong and no read failing, only poison makes a granule bad, and the memory stays as it is (08 R235). -/
theorem checks_sound {m : Mem} (hw : m.wrong = []) (hf : m.flaky = []) (fresh : Nat) (l : List Nat) :
    m.checks fresh l = (m, l.filter m.poison.contains) := by
  have hcheck (g : Nat) : m.check fresh g = (m, m.poison.contains g) := by
    unfold Mem.check Mem.wrongIn
    rw [hw, hf]
    rfl
  induction l with
  | nil => rfl
  | cons g t ih =>
    rw [Mem.checks, hcheck]
    simp only [ih, List.filter_cons]

/-- A scrub that finds nothing wrong does nothing but number its check. -/
theorem scrub_sound (hw : s.mem.wrong = []) (hf : s.mem.flaky = []) (lo n : Nat) : ∃ k, s.scrub lo n = { s with fresh := k } := by
  have hbad (l : List Nat) : ((l.filter s.mem.poison.contains).filter fun g => !s.mem.poison.contains g) = [] := by
    rw [List.filter_filter, List.filter_eq_nil_iff]
    simp
  have hmem : ({ s.mem with wrong := [] } : Mem) = s.mem := by rw [← hw]
  unfold State.scrub
  dsimp only
  rw [checks_sound hw hf]
  dsimp only
  rw [hbad, hw]
  exact ⟨_, congrArg (fun m => ({ s with mem := m, fresh := _ } : State)) hmem⟩

/-! ## Refresh of a group (09 R295, R297) -/

/-- What a refresh at a cycle leaves: the registers and the bytes are the same, and the group is refreshed, no longer overdue, and blocks its
tower. -/
theorem refresh_effect (hw : s.mem.wrong = []) (hf : s.mem.flaky = []) (tower group n : Nat) :
    let t := s.refresh tower group n
    t.c = s.c ∧ (∀ a, t.mem.byte a = s.mem.byte a) ∧ (tower, group, n) ∈ t.core.refreshed ∧ (tower, group) ∉ t.core.overdue ∧
      (tower, n + 96) ∈ t.core.blocked := by
  obtain ⟨k, hk⟩ := scrub_sound hw hf (s.groupAt tower group) 65536
  unfold State.refresh
  rw [hk]
  refine ⟨rfl, fun _ => rfl, List.mem_cons_self, fun h => ?_, List.mem_append_right _ (List.mem_singleton_self _)⟩
  simpa using List.of_mem_filter h

/-- A refresh leaves the slots of normal refresh. -/
theorem refresh_slots (tower group n : Nat) : (s.refresh tower group n).core.slots = s.core.slots := by
  unfold State.refresh
  dsimp only
  rw [scrub_core]

/-- A fold whose every step finds something finds something in a list that is not empty. -/
theorem isSome_foldl {α β : Type} {f : Option β → α → Option β} (hf : ∀ m x, (f m x).isSome = true) {l : List α} (h : l ≠ []) (m : Option β) :
    (l.foldl f m).isSome = true := by
  rw [← List.dropLast_append_getLast h, List.foldl_append]
  exact hf _ _

/-- A tower without an oldest overdue group has none. -/
theorem overdue_of_oldest_none {t g : Nat} (h : s.oldestOverdue t = none) : (t, g) ∉ s.core.overdue := by
  intro hmem
  have hne : (s.core.overdue.filter (·.1 == t)).map (·.2) ≠ [] :=
    List.ne_nil_of_mem (List.mem_map.mpr ⟨(t, g), List.mem_filter.mpr ⟨hmem, beq_self_eq_true t⟩, rfl⟩)
  have hsome : (s.oldestOverdue t).isSome = true := by
    refine isSome_foldl (fun m x => ?_) hne none
    cases m with
    | none => rfl
    | some y =>
      dsimp only
      split
      · rfl
      · rfl
  rw [h] at hsome
  exact absurd hsome (by decide)

theorem oldestOverdue_nil (h : s.core.overdue = []) (t : Nat) : s.oldestOverdue t = none := by
  rw [State.oldestOverdue, h]
  rfl

/-- With nothing overdue there is nothing to catch up. -/
theorem catchUp_nil (h : s.core.overdue = []) : s.catchUp = s := by
  unfold State.catchUp
  generalize List.range 17 = l
  induction l with
  | nil => rfl
  | cons t l ih =>
    have hgroup : s.catchUpGroup t = none := by
      rw [State.catchUpGroup, oldestOverdue_nil h, ite_self]
    rw [List.foldl_cons, hgroup]
    exact ih

/-! ## The slots of normal refresh (09 R295, R297; log 43) -/

variable {tower : Nat} {g : BitVec 7}

/-- A tower that may refresh refreshes an overdue group at once; any other group in its slot, which passes. -/
theorem normalRefresh_due (hd : s.deferring = false) (hr : s.refreshing tower = false) (hm : s.midRow tower = false)
    (ho : s.oldestOverdue tower = none ∨ (tower, g.toNat) ∈ s.core.overdue) :
    s.normalRefresh tower g = if (tower, g.toNat) ∈ s.core.overdue then s.refresh tower g.toNat s.now
      else if s.groupDead tower g.toNat then s.nextSlot tower g else (s.nextSlot tower g).refresh tower g.toNat s.now := by
  unfold State.normalRefresh
  dsimp only
  rw [hd, hr, hm, if_neg Bool.false_ne_true]
  by_cases hmem : (tower, g.toNat) ∈ s.core.overdue
  · rw [if_pos (by simpa using hmem), if_pos hmem]
  · obtain ho | ho := ho
    · rw [if_neg (by simpa using hmem), if_neg hmem, ho, if_neg (by decide)]
      rfl
    · exact absurd ho hmem

theorem exec_normalRefresh (ha : s.arg = .group tower g) (ht : tower < 17) : exec .normalRefresh s = .next (s.normalRefresh tower g) := by
  rw [exec, execNormalRefresh, ha]
  exact congrArg Host.Outcome.next (if_neg (by omega))

theorem exec_forcedRefresh (ha : s.arg = .group tower g) (ht : tower < 17) : exec .forcedRefresh s = .next (s.refresh tower g.toNat s.now) := by
  rw [exec, execForcedRefresh, ha]
  exact congrArg Host.Outcome.next (if_neg (by omega))

/-- A slot whose group is due passes to the next group, an interval on. -/
theorem nextSlot_slots {at0 : Nat} (ht : tower < 17) (hslot : s.core.slots.toList[tower]? = some (at0, g)) (hle : at0 ≤ s.now) :
    (s.nextSlot tower g).core.slots.toList[tower]? = some (at0 + max 1 (8 * s.core.tinterval.toNat), g + 1) := by
  unfold State.nextSlot
  dsimp only
  rw [hslot]
  simp [hle, ht]

/-- A slot that falls in a deferral passes, and leaves its group overdue. -/
theorem normalRefresh_deferred (hd : s.deferring = true) (hg : s.groupDead tower g.toNat = false) :
    s.normalRefresh tower g = { s with core := { s.core with
      overdue := s.core.overdue.filter (· != (tower, g.toNat)) ++ [(tower, g.toNat)], slots := (s.nextSlot tower g).core.slots } } := by
  have hg' : (s.nextSlot tower g).groupDead tower g.toNat = false := hg
  unfold State.normalRefresh
  dsimp only
  rw [hd, if_pos rfl, hg', if_neg Bool.false_ne_true]
  rfl

/-! ## What ends with nothing overdue, and the patrol scrub -/

/-- With nothing overdue the end of a block only drops what has ended. -/
theorem groupRefreshEnd_nil (h : s.core.overdue = []) :
    exec .groupRefreshEnd s = .next { s with core := { s.core with blocked := s.core.blocked.filter fun b => decide (s.now ≤ b.2) } } := by
  rw [exec, execGroupRefreshEnd]
  dsimp only
  split
  · rfl
  · exact congrArg Host.Outcome.next (catchUp_nil h)

/-- The state after the patrol scrubber has set its next line. -/
def scrubSet (s : State) : State := { s with core := { s.core with scrubAt := (s.now / 512 + 1) * 512 } }

theorem patrolScrub_eq {v : DWord} (ha : s.arg = .value v) :
    exec .patrolScrub s = .next ((scrubSet s).scrub (crownAddr s.core.phys (v.toNat % 2 ^ 23 / 64 * 64)) 64) := by
  rw [exec, execPatrolScrub]
  dsimp only
  rw [ha, scrubSet, ha]

end Sys2Proof.RefreshAndScrub
end

section
/-! SUPPORT. O53: monitors, power steps, power failure, boot and attestation (12 R390 to R407). -/

namespace Sys2Proof.PowerAndBoot
open Sys2Proof Machine Claims Laws RefreshAndScrub

variable {s : State}

/-! ## Monitors and scrub passes (09 R304, 12 R388, R390) -/

/-- The counts of a stack's record after a scrub pass: corrected and uncorrectable errors, passes, repairs (09 Table 9-10). -/
def passCounts (k : Nat × Nat × Nat × Nat) (c u r : Nat) : Nat × Nat × Nat × Nat :=
  (holdAdd 64 k.1 c, holdAdd 64 k.2.1 u, holdAdd 32 k.2.2.1 1, holdAdd 32 k.2.2.2 r)

/-- A scrub pass that finds nothing bad, with no telemetry object, counts in its stack's record alone. -/
theorem stackScrubPass_eq {j : BitVec 4} {c u r : Nat} (ha : s.arg = .scrub j c u r []) (ht : s.hub.telemetry = none) :
    exec .stackScrubPass s = .next { s with hub := { s.hub with
      stackCounts := s.hub.stackCounts.set j.toNat (passCounts (s.hub.stackCounts[j.toNat]'j.isLt) c u r) j.isLt } } := by
  simp only [exec, execStackScrubPass, ha, List.foldl_nil, State.publish, ht]
  rfl

/-- A sample reaches the running unit that it names, and no other. -/
theorem monitorSample_eq {u : BitVec 2} {v : DWord} (ha : s.arg = .sample u v) :
    exec .monitorSample s = .next { s with core := { s.core with mon := s.core.mon.mapIdx fun i m =>
      if i = u.toNat then (if m.running then m.sample v.toInt else m) else m } } := by
  simp only [exec, execMonitorSample, ha]

/-! ## Power steps (12 R394 to R397): what parking changes leaves the power state as it is -/

theorem portWrite_power (ps : List Part) : (s.portWrite ps).hub.power = s.hub.power := by
  obtain ⟨b, e, h⟩ := cachesOnly_portWrite s ps
  rw [h]

theorem evict_power : s.evict.hub.power = s.hub.power := portWrite_power _

theorem evictParked_power : s.evictParked.hub.power = s.hub.power := by
  have hfirst : (if s.evictable then s.evict else s).hub.power = s.hub.power := by
    split
    · exact evict_power
    · rfl
  unfold State.evictParked
  split
  · rfl
  · dsimp only
    generalize (if s.evictable then s.evict else s) = u at hfirst ⊢
    split
    · exact evict_power.trans hfirst
    · exact hfirst

theorem countOn_power (k : Hub) (board : Nat) (f : ArbCount → ArbCount) : (k.countOn board f).power = k.power := by
  unfold Hub.countOn
  split <;> rfl

theorem settleBank_hub (bank : Bool) (f : Ctx → Ctx) (g : Seq → Seq) : (s.settleBank bank f g).hub = s.hub := by
  unfold State.settleBank State.onBankSeq State.onBank
  split_ifs <;> rfl

theorem scanDone_hub (status sig : DWord) (n : Nat) : (s.scanDone status sig n).hub = s.hub := by
  unfold State.scanDone
  split
  · exact settleBank_hub ..
  · exact settleBank_hub ..

theorem abortScan_power : s.abortScan.hub.power = s.hub.power := by
  unfold State.abortScan
  split
  · dsimp only
    split
    · rfl
    · rw [scanDone_hub]
      exact countOn_power ..
  · rfl

theorem applyPark_power : s.applyPark.hub.power = s.hub.power := by
  unfold State.applyPark
  dsimp only
  generalize ((s.hub.logicalOf s.core.phys).map fun l => s.hub.parks l).getD false = p
  have hparked : (if p = true then { s.hub with placing := [], beads := s.hub.beads ++ s.hub.placing.map (fun (x : Bead × Bool × Nat) => x.1) }
      else s.hub).power = s.hub.power := by
    split <;> rfl
  split
  · rw [evictParked_power, abortScan_power, countOn_power]
    exact hparked
  · rw [evictParked_power]
    exact hparked

/-- The power state after a change: on a new step, with the actions that the controller's model predicts. -/
theorem setPower_power (p : Power) :
    (s.setPower p).hub.power = if p.step != s.hub.power.step then
      { p with actions := max p.actions (min (Config.throttleModel p.step) s.hub.lastAction), lowSince := none } else p := by
  unfold State.setPower
  dsimp only
  rw [applyPark_power]
  split <;> rfl

/-- Whatever the step, a change keeps each part of what was set but the actions and the time of low power. -/
theorem setPower_keeps {α : Type} (f : Power → α) {p : Power} (hf : ∀ a l, f { p with actions := a, lowSince := l } = f p) :
    f (s.setPower p).hub.power = f p := by
  rw [setPower_power]
  split
  · exact hf ..
  · rfl

/-- Without a new step the power state is the one that was set. -/
theorem setPower_same {p : Power} (h : p.step = s.hub.power.step) : (s.setPower p).hub.power = p := by
  rw [setPower_power, h, bne_self_eq_false, if_neg Bool.false_ne_true]

theorem pstepSample_eq {p : BitVec 3} (ha : s.arg = .pins p) : exec .pstepSample s =
    .next (s.setPower { s.hub.power with lastPins := p, pins := if p = s.hub.power.lastPins then p else s.hub.power.pins }) := by
  rw [exec, execPstepSample, ha]

theorem setPowerStep_eq {v : DWord} (ha : s.arg = .value v) : exec .setPowerStep s =
    .next (if s.hub.boot.recovery then s else (s.setPower { s.hub.power with command := v.setWidth 3 }).mailboxMsi) := by
  rw [exec, execSetPowerStep, ha]

theorem mailboxMsi_last : s.mailboxMsi.hub.msix.getLast? = some 0 := List.getLast?_concat ..

/-- The controller keeps the readings of the sensors. -/
theorem sensorCheck_readings {rs : List (Nat × Int)} (ha : s.arg = .readings rs) :
    ∃ t, exec .sensorCheck s = .next t ∧ t.hub.power.readings = rs := by
  rw [exec, execSensorCheck, ha]
  exact ⟨_, rfl, setPower_keeps Power.readings fun _ _ => rfl⟩

/-- The power state with one action more, at a measured power. -/
def throttled (s : State) (n : Nat) : Power := { s.hub.power with milliwatts := n, actions := s.hub.power.actions + 1, lowSince := none }

theorem setPower_throttled (n : Nat) : (s.setPower (throttled s n)).hub.power = throttled s n := setPower_same rfl

/-- A measured power above the cap takes one more action (12 R396). -/
theorem throttleEvaluation_over {n : Nat} (ha : s.arg = .milliwatts n) (hcap : capOf s.hub.power.step < n)
    (hlast : s.hub.power.actions < s.hub.lastAction) :
    exec .throttleEvaluation s = .next (s.setPower (throttled s n)) := by
  have hcap' : capOf ({ s.hub.power with milliwatts := n } : Power).step < n := hcap
  simp only [exec, execThrottleEvaluation, ha]
  rw [if_pos hcap', Nat.min_eq_left (Nat.succ_le_of_lt hlast), throttled]

/-! ## Power failure and return (12 R399, R400) -/

theorem scanEnded_of_no_scan (h : ∀ c, s.q.wait ≠ .scan c) : s.scanEnded = false := by
  unfold State.scanEnded
  split
  next t ht => exact absurd ht (h t)
  next => rfl

theorem abortScan_of_no_scan (h : ∀ c, s.q.wait ≠ .scan c) : s.abortScan = s := by
  unfold State.abortScan
  split
  next t ht => exact absurd ht (h t)
  next => rfl

theorem endScan_of_no_scan (h : ∀ c, s.q.wait ≠ .scan c) : s.endScan = s := by
  unfold State.endScan
  split
  next t ht => exact absurd ht (h t)
  next => rfl

/-- The source of a power failure, as sr.einfo tells it. -/
def failSource (p : BitVec 3) : Nat := if p.getLsbD 0 then 1 else 0

/-- The running bead as a power failure images it. -/
def imagedBead (s : State) (p : BitVec 3) : PfContext :=
  imagedContext (powerTrap s.now (failSource p) s.c s.q (window s.c s.q)) s.logical s.fresh

/-- The context of the other bank as a power failure images it, where there is one. -/
def imagedOther (s : State) (p : BitVec 3) : List PfContext :=
  if s.oq.state = .empty then [] else [imagedContext (powerTrap s.now (failSource p) s.oc s.oq (waitWindow s.oc s.oq)) s.logical (s.fresh + 1)]

/-- The image that a power failure makes while a bead runs. -/
def failImage (s : State) (p : BitVec 3) : PfImage :=
  let contexts := imagedBead s p :: imagedOther s p
  { complete := !p.getLsbD 1, digest := shake256 64 (contexts.flatMap PfContext.bytes), contexts := contexts }

/-- A power failure while a bead runs and no self-test is under way. -/
theorem powerFail_eq {p : BitVec 3} (ha : s.arg = .pins p) (hq : s.q.state = .active) (hno : ∀ c, s.q.wait ≠ .scan c) :
    exec .powerFail s = .next { s with
      fresh := s.fresh + (imagedBead s p :: imagedOther s p).length, c := {}, q := {}, oc := {}, oq := {}, outs := [], run := none, undo := []
      hub := { s.hub with boot := { s.hub.boot with pfImage := some (failImage s p) }, placing := [] } } := by
  have hcontexts : (([powerTrap s.now (failSource p) s.c s.q (window s.c s.q)] ++
      if s.oq.state = .empty then [] else [powerTrap s.now (failSource p) s.oc s.oq (waitWindow s.oc s.oq)]).mapIdx
        fun i x => imagedContext x s.logical (s.fresh + i)) = imagedBead s p :: imagedOther s p := by
    rw [imagedOther]
    split <;> rfl
  rw [exec, execPowerFail, ha]
  dsimp only
  rw [scanEnded_of_no_scan hno, if_neg Bool.false_ne_true, abortScan_of_no_scan hno, endScan_of_no_scan hno, if_pos hq]
  rw [failImage, ← hcontexts, ← ha]
  rfl

/-- The context of the running bead in the image is that of its entry into the handler of a power failure. -/
theorem imagedBead_fields (p : BitVec 3) :
    let c := imagedBead s p
    fld c.c.cause.toNat 0 8 = 0x16 ∧ c.c.epc = (window s.c s.q).1 ∧
      c.c.einfo = BitVec.ofNat 64 ((if p.getLsbD 0 then 1 else 0) + s.now % 2 ^ 56 * 2 ^ 8) ∧ c.c.pc = s.c.tbase + 0x580 ∧
      c.record = mkRec 1 c.c.pc c.c.bead (putField c.c.home 0 10 s.logical) [c.c.rx 1, c.c.rx 2, c.c.rx 3, c.c.rx 4] 0 :=
  ⟨(causeWord_fields _ _).1, rfl, rfl, congrArg (· + 0x580) (landAll_tbase s.q.shadows s.c), rfl⟩

/-- The package as it is when power returns: reset, with the map of the configuration image (12 R400, R411). -/
def returned (s : State) : State :=
  { mem := ({} : Mem).scramble s.fresh (2 ^ 63) (2 ^ 66 - 2 ^ 63), fresh := s.fresh + 1
    core := { phys := s.core.phys, remap := s.core.remap, strikes := 0 }
    hub := { map := s.hub.boot.map, staging := s.hub.staging
             boot := { s.hub.boot with pfImage := none, digests := [], report := [], signature := [], silent := 0, silentFrom := none }
             owed := s.hub.boot.pfImage.map fun i => (0, if i.complete then 0 else 1) }
    agenda := s.agenda }

theorem powerReturn_of_none (h : s.hub.boot.pfImage = none) : exec .powerReturn s = .next (returned s) := by
  rw [exec, execPowerReturn]
  dsimp only
  split
  next i hi _ => exact nomatch h.symm.trans hi
  next => rfl

/-- The beads of an image come back where the runtime wants them and the image is whole. -/
theorem powerReturn_of_some {x : PfImage} (h : s.hub.boot.pfImage = some x) : exec .powerReturn s = .next
    (if s.arg = .flag true ∧ x.checked = true then { returned s with hub := { (returned s).hub with beads := x.contexts.map (restored 0) } }
      else returned s) := by
  rw [exec, execPowerReturn]
  dsimp only
  split
  next i hi ha =>
    cases h.symm.trans hi
    by_cases hc : x.checked = true
    · rw [if_pos hc, if_pos ⟨ha, hc⟩]
      rfl
    · rw [if_neg hc, if_neg fun hx => hc hx.2]
      rfl
  next hno =>
    rw [if_neg fun hx => hno x h hx.1]
    rfl

theorem checked_iff {x : PfImage} :
    x.checked = true ↔ x.complete = true ∧ x.digest = shake256 64 (x.contexts.flatMap PfContext.bytes) := by
  rw [PfImage.checked, Bool.and_eq_true, beq_iff_eq]

/-! ## Boot, images and attestation (12 R403 to R406) -/

/-- One element without a result leaves the whole without one. -/
theorem mapM_eq_none {α β : Type} {f : α → Option β} {a : α} (h : f a = none) {l : List α} (ha : a ∈ l) : l.mapM f = none := by
  induction l with
  | nil => exact absurd ha List.not_mem_nil
  | cons b l ih =>
    rw [List.mapM_cons]
    obtain rfl | ha := List.mem_cons.mp ha
    · rw [h]
      rfl
    · rw [ih ha]
      cases f b <;> rfl

/-- With a result for each element there is one for the whole. -/
theorem mapM_eq_map {α β : Type} {f : α → Option β} (d : β) {l : List α} (h : ∀ a ∈ l, f a ≠ none) :
    l.mapM f = some (l.map fun a => (f a).getD d) := by
  induction l with
  | nil => rfl
  | cons a l ih =>
    obtain ⟨b, hb⟩ := Option.ne_none_iff_exists'.mp (h a List.mem_cons_self)
    rw [List.mapM_cons, ih fun x hx => h x (List.mem_cons_of_mem _ hx), hb, List.map_cons, hb]
    rfl

/-- The boot state with the pattern of the identity, as the boot draws it. -/
def drawn (s : State) : BootState := { s.hub.boot with pattern := Config.sparePattern s.fresh }

/-- A boot without a copy that verifies of some image stays in recovery mode (12 R403). -/
theorem boot_recovery {i : Nat} (hi : i < 19) (h : s.hub.boot.verified (BitVec.ofNat 5 i) = none) :
    exec .boot s = .next { s with fresh := s.fresh + 1, hub := { s.hub with boot := { drawn s with
      recovery := true, silentFrom := some (s.hub.boot.silentFrom.getD s.now) } } } := by
  have himages : (drawn s).images = none :=
    mapM_eq_none (f := fun i => (drawn s).verified (BitVec.ofNat 5 i)) h (List.mem_range.mpr hi)
  rw [exec, execBoot]
  dsimp only
  split
  next l c hl _ => exact nomatch himages.symm.trans hl
  next => rfl

/-- The cycles of silence that the boot counts. -/
def silence (s : State) : Nat :=
  match s.hub.boot.silentFrom with
  | some t => s.hub.boot.silent + (s.now / 8 - t / 8)
  | none => s.hub.boot.silent

/-- A boot with a copy that verifies of each image loads the configuration image and keeps the digests (12 R403, R404). -/
theorem boot_loads (h : ∀ i < 19, s.hub.boot.verified (BitVec.ofNat 5 i) ≠ none) {c : List Byte} (hc : s.hub.boot.verified 18 = some c) :
    exec .boot s = .next (({ s with fresh := s.fresh + 1, hub := { s.hub with boot := { drawn s with
      recovery := false, silent := silence s, silentFrom := none
      digests := (List.range 19).map fun i => imageDigest ((s.hub.boot.verified (BitVec.ofNat 5 i)).getD []) } } } : State).applyConfig c) := by
  have himages : (drawn s).images = some ((List.range 19).map fun i => (s.hub.boot.verified (BitVec.ofNat 5 i)).getD []) :=
    mapM_eq_map [] fun i hi => h i (List.mem_range.mp hi)
  have hconfig : (drawn s).verified Config.configImage = some c := hc
  rw [exec, execBoot]
  dsimp only
  split
  next l c' hl hc' =>
    cases himages.symm.trans hl
    cases hconfig.symm.trans hc'
    rw [List.map_map]
    rfl
  next h => exact (h _ _ himages hconfig).elim

/-- The report of an attestation with a nonce (12 R406). -/
def reportOf (s : State) (nonce : List Byte) : List Byte :=
  ed448Public s.hub.boot.seed ++ s.hub.boot.digests.flatten ++ shake256 64 s.hub.boot.config ++ s.hub.map.flatMap (natBytes 2) ++ nonce

theorem attestation_eq {nonce : List Byte} (ha : s.arg = .bytes nonce) (hb : s.hub.boot.recovery = false) (hlen : nonce.length ≤ 64) :
    exec .attestation s = .next { s with hub := { s.hub with
      boot := { s.hub.boot with report := reportOf s nonce, signature := ed448Sign s.hub.boot.seed (reportOf s nonce) }
      answer := reportOf s nonce ++ ed448Sign s.hub.boot.seed (reportOf s nonce) } }.mailboxMsi := by
  have hgoes : ¬ (s.hub.boot.recovery = true ∨ 64 < nonce.length) := by
    rw [hb, not_or]
    exact ⟨Bool.false_ne_true, Nat.not_lt.mpr hlen⟩
  rw [exec, execAttestation, ha]
  dsimp only
  rw [if_neg hgoes, ← ha]
  rfl

/-- Whether an image that is written takes effect at once: a configuration image that verifies, out of recovery mode. -/
def loads (s : State) (i : BitVec 5) (bytes : List Byte) : Bool := i == Config.configImage && imageValid bytes && !s.hub.boot.recovery

/-- The digests with that of a written image. -/
def addDigest (d : List Byte) (l : List (List Byte)) : List (List Byte) := if !l.contains d then l ++ [d] else l

theorem mem_addDigest (d : List Byte) (l : List (List Byte)) : d ∈ addDigest d l := by
  unfold addDigest
  split
  next => exact List.mem_append_right _ (List.mem_singleton_self _)
  next h => simpa using h

/-- The state after an image is written, by whether it takes effect (12 R404, R411). -/
def written (s : State) (i : BitVec 5) (second : Bool) (bytes : List Byte) (applies : Bool) : State :=
  { s with hub := { s.hub with
      boot := { s.hub.boot with
        flash := (i, second, bytes) :: s.hub.boot.flash.filter fun f => !(f.1 == i && f.2.1 == second)
        digests := if applies then addDigest (imageDigest bytes) s.hub.boot.digests else s.hub.boot.digests }
      map := if applies then s.hub.boot.map else s.hub.map } }

theorem imageWrite_eq {i : BitVec 5} {second : Bool} {bytes : List Byte} (ha : s.arg = .image i second bytes) :
    exec .imageWrite s = .next (written s i second bytes (loads s i bytes)).mailboxMsi := by
  rw [exec, execImageWrite, ha]
  dsimp only
  rw [show (i == Config.configImage && imageValid bytes && !s.hub.boot.recovery) = loads s i bytes from rfl, ← ha]
  cases loads s i bytes <;> rfl

theorem loads_other {i : BitVec 5} {bytes : List Byte} (h : i ≠ 18) : loads s i bytes = false := by
  have hi : (i == Config.configImage) = false := beq_eq_false_iff_ne.mpr h
  rw [loads, hi, Bool.false_and, Bool.false_and]

theorem loads_config {i : BitVec 5} {bytes : List Byte} (hi : i = 18) (hv : imageValid bytes = true) (hb : s.hub.boot.recovery = false) :
    loads s i bytes = true := by
  rw [loads, hi, hv, hb]
  rfl

/-! ## The statement -/

/-- Settles O53: a refresh scrubs and blocks, a change of power keeps what was set, a power failure images the entries into its handler, and a
boot loads what verifies. -/
theorem refreshPowerAndBoot : Obligations.RefreshPowerAndBoot := by
  intro s tower n g p v
  refine ⟨?refreshes, ?slotPasses, ?deferred, ?blocksEnd, ?deferralEnds, ?patrols, ?scrubPass, ?samples, ?pinsChange, ?pinsAgree, ?commands,
    ?recovery, ?throttles, fun _ => sensorCheck_readings, ?fails, ?returnsBare, ?returns, ?bootStays, ?boots, ?attests, ?writes⟩
  case refreshes =>
    intro i hi ha ht hw hf hdue
    simp only [List.mem_cons, List.not_mem_nil, or_false] at hi
    obtain rfl | rfl := hi
    · obtain hdue | ⟨hd, hr, hm, hg, ho⟩ := hdue
      · cases hdue
      · refine ⟨_, exec_normalRefresh ha ht, ?_⟩
        rw [normalRefresh_due hd hr hm ho, hg, if_neg Bool.false_ne_true]
        split
        · exact refresh_effect hw hf tower g.toNat s.now
        · exact refresh_effect (s := s.nextSlot tower g) hw hf tower g.toNat s.now
    · exact ⟨_, exec_forcedRefresh ha ht, refresh_effect hw hf tower g.toNat s.now⟩
  case slotPasses =>
    intro at0 ha ht hd hr hm ho hslot hle
    refine ⟨_, exec_normalRefresh ha ht, ?_⟩
    rw [normalRefresh_due hd hr hm (.inl ho), if_neg (overdue_of_oldest_none ho)]
    split
    · exact nextSlot_slots ht hslot hle
    · rw [refresh_slots]
      exact nextSlot_slots ht hslot hle
  case deferred =>
    intro ha ht hd hg
    rw [exec_normalRefresh ha ht, normalRefresh_deferred hd hg]
    exact ⟨_, rfl, rfl, List.mem_append_right _ (List.mem_singleton_self _)⟩
  case blocksEnd =>
    intro ho
    exact ⟨_, groupRefreshEnd_nil ho, rfl, fun b => by simp⟩
  case deferralEnds =>
    intro ho
    exact congrArg Host.Outcome.next (catchUp_nil ho)
  case patrols =>
    intro ha hw hf
    obtain ⟨k, hk⟩ := scrub_sound (s := scrubSet s) hw hf (crownAddr s.core.phys (v.toNat % 2 ^ 23 / 64 * 64)) 64
    rw [patrolScrub_eq ha, hk]
    exact ⟨_, rfl, rfl, fun _ => rfl, rfl⟩
  case scrubPass =>
    intro j c u r ha ht
    refine ⟨_, stackScrubPass_eq ha ht, rfl, ?_⟩
    dsimp only
    rw [Vector.getElem_set_self]
    rfl
  case samples =>
    intro u ha
    refine ⟨_, monitorSample_eq ha, ⟨rfl, rfl, fun _ _ => rfl⟩, fun i h hi => ?_, fun h => ?_⟩
    · dsimp only
      rw [Vector.getElem_mapIdx, if_neg hi]
    · dsimp only
      rw [Vector.getElem_mapIdx, if_pos rfl]
      exact ⟨rfl, fun hrun => by rw [if_pos hrun]; rfl⟩
  case pinsChange =>
    intro ha hne
    rw [pstepSample_eq ha, if_neg hne.symm]
    exact ⟨_, rfl, setPower_keeps Power.lastPins fun _ _ => rfl, setPower_keeps Power.pins fun _ _ => rfl⟩
  case pinsAgree =>
    intro ha he
    rw [pstepSample_eq ha, if_pos he.symm]
    exact ⟨_, rfl, setPower_keeps Power.pins fun _ _ => rfl⟩
  case commands =>
    intro ha hb
    rw [setPowerStep_eq ha, hb, if_neg Bool.false_ne_true]
    exact ⟨_, rfl, setPower_keeps Power.command fun _ _ => rfl, mailboxMsi_last⟩
  case recovery =>
    intro ha hb
    rw [setPowerStep_eq ha, if_pos hb]
  case throttles =>
    intro ha hcap hlast
    refine ⟨_, throttleEvaluation_over ha hcap hlast, ?_⟩
    rw [setPower_throttled]
    exact ⟨rfl, rfl⟩
  case fails =>
    intro ha hq hno
    exact ⟨_, failImage s p, imagedBead s p, imagedOther s p, powerFail_eq ha hq hno, rfl, rfl, rfl, rfl, rfl, rfl, rfl, rfl, imagedBead_fields p⟩
  case returnsBare =>
    intro himage
    exact ⟨_, powerReturn_of_none himage, rfl, rfl, rfl, rfl, rfl, rfl, rfl, rfl, by rw [returned, himage]; rfl⟩
  case returns =>
    intro x himage
    have howed : (returned s).hub.owed = some (0, if x.complete then 0 else 1) := by rw [returned, himage]; rfl
    rw [powerReturn_of_some himage]
    by_cases hback : s.arg = .flag true ∧ x.checked = true
    · rw [if_pos hback]
      obtain ⟨hcomplete, hdigest⟩ := checked_iff.mp hback.2
      refine ⟨_, rfl, rfl, rfl, howed, fun _ _ _ => rfl, ?_⟩
      rintro (h | h | h)
      · exact absurd hback.1 h
      · rw [hcomplete] at h
        cases h
      · exact absurd hdigest h
    · rw [if_neg hback]
      exact ⟨_, rfl, rfl, rfl, howed, fun ha hc hd => absurd ⟨ha, checked_iff.mpr ⟨hc, hd⟩⟩ hback, fun _ => rfl⟩
  case bootStays =>
    rintro ⟨i, hi, hnone⟩
    exact ⟨_, boot_recovery hi hnone, rfl⟩
  case boots =>
    intro h
    obtain ⟨c, hc⟩ := Option.ne_none_iff_exists'.mp (h 18 (by decide))
    exact ⟨_, boot_loads h hc, rfl, rfl, rfl, hc.symm, rfl, rfl, rfl⟩
  case attests =>
    intro nonce ha hb hlen
    exact ⟨_, reportOf s nonce, s.hub.boot.seed, attestation_eq ha hb hlen, rfl, rfl, rfl, rfl, rfl⟩
  case writes =>
    intro i second bytes ha
    refine ⟨_, imageWrite_eq ha, rfl, rfl, ?_, fun hi => ?_, fun hi hv hb => ?_⟩
    · exact List.find?_cons_of_pos (by simp)
    · rw [loads_other hi]
      exact ⟨rfl, rfl⟩
    · rw [loads_config hi hv hb]
      exact ⟨rfl, mem_addDigest ..⟩

end Sys2Proof.PowerAndBoot
end

section
/-! SUPPORT. O20: `wait`, `fence` and `drain` (10 R313, R315, R320). -/

namespace Sys2Proof.StreamOrdering
open Sys2Proof Machine Claims Laws

variable {s : State}

/-! ## `wait` -/

/-- `wait` holds the stream exactly where its condition is open. -/
theorem execWait_eq (s : State) (l t c m : BitVec 6) [Decidable (WaitOver s l.toNat t.toNat c.toNat m.toNat)] :
    execWait l t c m s = .next (if WaitOver s l.toNat t.toNat c.toNat m.toNat then s else s.stall) := by
  have hopen : (s.q.slotsEmpty s.lat.seq && decide (s.count .ld ≤ l.toNat ∧ s.count .st ≤ t.toNat ∧ s.count .cp ≤ c.toNat ∧
      s.count .tl ≤ m.toNat)) = true ↔ WaitOver s l.toNat t.toNat c.toNat m.toNat := by
    rw [Bool.and_eq_true, decide_eq_true_iff, WaitOver]
  rw [execWait]
  by_cases h : WaitOver s l.toNat t.toNat c.toNat m.toNat
  · rw [if_pos h, if_pos (hopen.mpr h)]
  · rw [if_neg h, if_neg (mt hopen.mp h)]

/-! ## `drain` -/

/-- A drain of a scope that there is, where no slot holds an earlier operation. -/
theorem execDrain_eq {sc : BitVec 3} (hsc : sc.toNat < 5) (hslots : s.q.slotsEmpty s.lat.seq = true) (k : BitVec 2) :
    execDrain sc k s =
      if k = 2 then .next { s with q := { s.q with relHold := some (joinHold s.q.relHold sc s.lat.seq) } }
      else if s.performed s.lat.seq sc.toNat (k == 1) = true then .next (if k = 0 then s else s.scClear)
      else .next s.stall := by
  rw [execDrain]
  dsimp only
  rw [if_neg (Nat.not_le.mpr hsc), if_neg (by rw [hslots]; decide)]
  cases s.performed s.lat.seq sc.toNat (k == 1) <;> rfl

/-- A drain of no scope is refused. -/
theorem execDrain_noScope {sc : BitVec 3} (hsc : 5 ≤ sc.toNat) (k : BitVec 2) : execDrain sc k s = .next (s.raiseIssue 0x01) := by
  rw [execDrain]
  exact if_pos hsc

/-! ## The statement -/

/-- Settles O20. -/
theorem waitFenceAndDrain : Obligations.WaitFenceAndDrain := by
  classical
  intro s l t c m a b sc k
  refine ⟨fun h => ?_, fun h => ⟨s.stall, ?_, waits_stall s⟩, fun ha hb ha4 hb4 => ?_,
    fun h => ⟨_, if_pos (by simpa using h), refused_raiseIssue s 0x01⟩,
    fun h => ⟨_, execDrain_noScope h k, refused_raiseIssue s 0x01⟩, fun hsc hslots => ?_⟩
  · exact (execWait_eq s l t c m).trans (by rw [if_pos h])
  · exact (execWait_eq s l t c m).trans (by rw [if_neg h])
  · exact if_neg (by simp only [ha, hb, ha4, hb4]; decide)
  · have hdrain : exec (.drain sc k) s = _ := execDrain_eq hsc hslots k
    refine ⟨fun hk hp => ?_, fun hk hp => ⟨s.stall, ?_, waits_stall s⟩, fun hk hr => ?_, fun x y hk hr => ?_⟩
    · rw [hdrain, if_neg hk, if_pos hp]
      rfl
    · rw [hdrain, if_neg hk, if_neg (by rw [hp]; decide)]
    · rw [hdrain, if_pos hk, hr]
      rfl
    · rw [hdrain, if_pos hk, hr]
      rfl

end Sys2Proof.StreamOrdering
end

section
/-! SUPPORT. O24: `sleepu`, its wake and its late test (10 R321, R322). -/

namespace Sys2Proof.TimedSleep
open Sys2Proof Machine Claims Laws

variable {s : State}

/-- A promised operation of the bead in the bank is late: it is in hand after its promise (10 R322). -/
def isLate (s : State) (o : Out) : Bool := o.bank == s.core.bank && (o.promise.map fun p => decide (p ≤ s.now)).getD false

/-- The late test finds nothing exactly where no operation in hand is late. -/
theorem late_isEmpty (s : State) : s.late.isEmpty = !s.outs.any (isLate s) := by
  have hsame : (fun o : Out => decide (o.promise.getD 0 ≤ s.now) && (o.bank == s.core.bank && o.promise.isSome)) = isLate s := by
    funext o
    rw [isLate]
    cases o.promise with
    | none => simp
    | some p => simp [Bool.and_comm]
  rw [State.late, State.promisedOuts, List.filter_filter, hsame, Bool.eq_iff_iff]
  simp [List.filter_eq_nil_iff]

/-- The `sleepu` of a bead that is no longer asleep. -/
def awake (s : State) : State := { s with q := { s.q with wait := .none, eligible := false } }

theorem wakeTest_none (h : s.outs.any (isLate s) = false) : s.wakeTest = awake s := by
  have he : (awake s).late.isEmpty = true := by rw [late_isEmpty]; exact congrArg (!·) h
  exact if_pos he

theorem wakeTest_late (h : s.outs.any (isLate s) = true) : s.wakeTest = (awake s).raise 0x0B (lateInfo s.late) := by
  have he : (awake s).late.isEmpty = false := by rw [late_isEmpty]; exact congrArg (!·) h
  exact if_neg (Bool.eq_false_iff.mp he)

/-- A `sleepu` that begins, of a cycle no further than sr.sleepmax, ends at once or waits for its cycle. -/
theorem execSleepu_begins {a : BitVec 4} (hw : s.q.wait = .none) (hmax : (s.c.ra a).toNat ≤ s.now + s.core.sleepmax.toNat) :
    execSleepu a s = if (s.c.ra a).toNat ≤ s.now then .next s.wakeTest
      else .next { s with q := { s.q with wait := .sleep (s.c.ra a).toNat, eligible := false } }.stall := by
  rw [execSleepu, hw]
  exact if_neg (Nat.not_lt.mpr hmax)

/-- One that waits goes on when its wake has made it eligible. -/
theorem execSleepu_waits {a : BitVec 4} {n : Nat} (hw : s.q.wait = .sleep n) :
    execSleepu a s = .next (if s.q.eligible = true then s.wakeTest else s.stall) := by
  rw [execSleepu, hw]

/-- Settles O24. -/
theorem sleepUntil : Obligations.SleepUntil := by
  intro s a
  refine ⟨fun hw hle hl => ?_, fun hw hlt hmax => ?_, fun n hw he => ?_, fun n hw he hl => ?_, fun n hw hle => ?_⟩
  · exact (execSleepu_begins hw (hle.trans (Nat.le_add_right ..))).trans (by rw [if_pos hle, wakeTest_none hl]; rfl)
  · exact (execSleepu_begins hw hmax).trans (if_neg (Nat.not_le.mpr hlt))
  · exact ⟨s.stall, (execSleepu_waits hw).trans (by rw [he]; rfl), waits_stall s⟩
  · exact ⟨_, (execSleepu_waits hw).trans (by rw [if_pos he, wakeTest_late hl]), _, faults_raise (awake s) 0x0B (lateInfo s.late)⟩
  · refine ⟨_, rfl, ?_, rfl, rfl⟩
    dsimp only
    rw [hw]
    exact if_pos hle

end Sys2Proof.TimedSleep
end

section
/-! SUPPORT. O47: atomics and barrier operations on their way to the home engine (10 R325 to R331). The travel time `State.atomWay` is entry 6 of the
assumption log, the acquire at the answer entry 40. -/

namespace Sys2Proof.HomeEngineRequests
open Sys2Proof Machine Claims Laws SlotTAccess

variable {s : State}

/-- A request of `n` bytes at an element has left on path A. -/
def requested (s : State) (i : Instr) (ge : Nat × Nat) (n : Nat) (h a : BitVec 4) (sv dv : DWord) : State :=
  { s with core := { s.core with scache := scInvalidate s.core.scache ge.1 n } }.noteSent.sendAtom .ld ge
    { instr := i, addr := ge.1, s := sv, d := dv, engine := false, waiting := false, info := accessInfo (consumed (s.offset a 0)) h a }

/-- The issue of an operation of path A whose checks succeed outside a segment. -/
theorem atomIssue_eq {h a : BitVec 4} {n : Nat} {ge : Nat × Nat} (he : s.globalCheck h [(s.c.ra a).toInt] n n hAt = .ok [ge])
    (ht : s.hub.isTelemetry ge.1 n = false) (hseg : s.c.segOpen = false) (hc : s.count .ld < 63) (i : Instr) (sv dv : DWord)
    (f : State → Nat → State) : s.atomIssue i h a n sv dv f = f (requested s i ge n h a sv dv) s.nextId := by
  rw [State.atomIssue, offset_zero, he]
  simp only [List.headD_cons, ht, hseg, Bool.false_eq_true, if_false]
  rw [counted_of_lt hc, requested, offset_zero]

/-- What leaves is the request, whatever the sequencer then records about its answer. -/
theorem requestGoes_requested (i : Instr) (ge : Nat × Nat) (n : Nat) (h a : BitVec 4) (sv dv : DWord) {t : State}
    (ht : t = { requested s i ge n h a sv dv with q := { s.q with acq := t.q.acq, wait := t.q.wait }, lat := { s.lat with res := t.lat.res } }) :
    RequestGoes s t i ge n sv dv (accessWord 0 h a (s.c.ra a).toInt) := by
  have hinfo : accessInfo (consumed (s.offset a 0)) h a = accessWord 0 h a (s.c.ra a).toInt := by
    rw [offset_zero]
    exact accessInfo_eq_accessWord (f := consumed (s.c.ra a).toInt) (Nat.zero_lt_succ 15) h a
  have houts : t.outs = s.outs ++ [_] := (congrArg State.outs ht).trans rfl
  refine ⟨_, rfl, hinfo ▸ houts, ?_, sameBytes_append _ houts ?_ ?_ fun _ => rfl⟩
  · rw [houts]
    exact ht
  · rw [ht]; rfl
  · rw [ht]; rfl

/-- Every earlier access has performed in the scope of the package: what a form with a release waits for (10 R315, R326). -/
def EarlierPerformed (s : State) : Prop := s.q.slotsEmpty s.lat.seq = true ∧ s.performed s.lat.seq 3 false = true

/-- A form with a release goes on once that is so, and until then waits. -/
theorem released_of {f : State → State} (h : EarlierPerformed s) : s.released f = f s := by
  rw [State.released, if_pos (by rw [h.1, h.2]; rfl)]

theorem released_of_not {f : State → State} (h : ¬EarlierPerformed s) : s.released f = s.stall := by
  rw [State.released, if_neg (by rwa [Bool.and_eq_true])]

/-- The ten atomics are one operation, with their own instruction in the request. -/
theorem exec_atomics (s : State) {o : BitVec 2} {d : BitVec 5} {h a : BitVec 4} {x : BitVec 5} {z : BitVec 1} :
    ∀ i ∈ atomics o d h a x z, exec i s = .next (s.atomic i o d h a x z) := by
  simp only [atomics, List.forall_mem_cons]
  exact ⟨rfl, rfl, rfl, rfl, rfl, rfl, rfl, rfl, rfl, rfl, nofun⟩

/-- Its issue, behind the release where its order has one, with the acquire at its answer where its order has one. -/
def atomicIssue (s : State) (i : Instr) (o : BitVec 2) (d : BitVec 5) (h a : BitVec 4) (x : BitVec 5) (z : BitVec 1) : State :=
  s.atomIssue i h a (if z = 0 then 4 else 8) (s.lat.iss.rx x) (s.lat.iss.rx d) fun s id =>
    if o.getLsbD 0 then { s with q := { s.q with acq := some id } } else s

theorem atomic_released {o : BitVec 2} (hrel : o.getLsbD 1 = true → EarlierPerformed s) (i : Instr) (d : BitVec 5)
    (h a : BitVec 4) (x : BitVec 5) (z : BitVec 1) : s.atomic i o d h a x z = atomicIssue s i o d h a x z := by
  rw [State.atomic]
  by_cases ho : o.getLsbD 1 = true
  · rw [if_pos ho, released_of (hrel ho)]
    rfl
  · rw [if_neg ho]
    rfl

theorem atomic_held {o : BitVec 2} (ho : o.getLsbD 1 = true) (hrel : ¬EarlierPerformed s)
    (i : Instr) (d : BitVec 5) (h a : BitVec 4) (x : BitVec 5) (z : BitVec 1) : s.atomic i o d h a x z = s.stall := by
  rw [State.atomic, if_pos ho, released_of_not hrel]

/-- A `bob.wait` that is not under way sends its request and waits for its answer. -/
theorem execBobWait_begins (hw : ∀ id, s.q.wait ≠ .bob id) (d : BitVec 5) (h a : BitVec 4) (x : BitVec 5) :
    execBobWait d h a x s = .next (s.atomIssue (.bobWait d h a x) h a 16 (s.lat.iss.rx x) 0 fun s id =>
      { s with q := { s.q with wait := .bob id } }.stall) := by
  rw [execBobWait]
  split
  · next id hb => exact absurd hb (hw id)
  · rfl

/-- One whose answer is in its register ends as an acquire once every earlier read has performed. -/
theorem execBobWait_ends {id : Nat} (hw : s.q.wait = .bob id) (hgone : ∀ u ∈ s.outs, u.id ≠ id) (hslots : s.q.slotsEmpty s.lat.seq = true)
    (hp : s.performed s.lat.seq 3 true = true) (d : BitVec 5) (h a : BitVec 4) (x : BitVec 5) :
    execBobWait d h a x s = .next s.unwatch.scClear := by
  have hout : s.out? id = none := List.find?_eq_none.mpr fun u hu => by simpa using hgone u hu
  rw [execBobWait, hw]
  dsimp only
  rw [hout, if_neg (by decide), if_pos (by rw [hslots, hp]; rfl)]

/-- Settles O47. -/
theorem atomicsAndBarrierOperationsGoOut : Obligations.AtomicsAndBarrierOperationsGoOut := by
  intro s o d x h a z g e hseg hc
  refine ⟨?atomicGoes, ?atomicWaits, ?barrier, ?answered⟩
  case atomicGoes =>
    intro ⟨he, ht⟩ hrel i hi
    have hatomic := (atomic_released hrel i d h a x z).trans (atomIssue_eq he ht hseg hc ..)
    refine ⟨_, (exec_atomics s i hi).trans (congrArg _ hatomic), requestGoes_requested i (g, e) _ h a _ _ ?_, ?_, ?_⟩
    all_goals cases o.getLsbD 0 <;> rfl
  case atomicWaits =>
    intro ho hrel i hi
    exact ⟨s.stall, (exec_atomics s i hi).trans (congrArg _ (atomic_held ho hrel ..)), waits_stall s⟩
  case barrier =>
    intro ⟨he, ht⟩
    have hissue := atomIssue_eq he ht hseg hc
    refine ⟨⟨_, congrArg Host.Outcome.next (hissue ..), ?_, rfl, rfl⟩,
      fun hrel => ⟨_, congrArg Host.Outcome.next ((released_of hrel).trans (hissue ..)), ?_, rfl, rfl⟩,
      fun hw => ⟨_, (execBobWait_begins hw d h a x).trans (congrArg _ (hissue ..)), ?_, rfl, rfl⟩⟩
    all_goals exact requestGoes_requested _ _ _ _ _ _ _ rfl
  case answered =>
    intro id hw hgone hslots hp
    exact execBobWait_ends hw hgone hslots hp d h a x

end Sys2Proof.HomeEngineRequests
end

section
/-! SUPPORT. O48: `trmw.mark` of a row that shows an error (12 R412). -/

namespace Sys2Proof.MarkedTower
open Sys2Proof Machine Claims Laws SlotTAccess

variable {s : State}

/-- The lowered margin shows a row with a poisoned granule. -/
theorem marginRows_ne_zero {a n i g : Nat} (hi : i < n / 1024) (hg : g ∈ granules (a + 1024 * i) 1024) (hp : s.mem.poison.contains g = true) :
    s.marginRows a n ≠ 0 := by
  rw [State.marginRows, ← Nat.pos_iff_ne_zero, List.length_pos_iff_exists_mem]
  refine ⟨i, List.mem_filter.mpr ⟨List.mem_range.mpr hi, ?_⟩⟩
  rw [Bool.or_eq_true, List.any_eq_true]
  exact .inr ⟨g, hg, by rw [hp, Bool.or_true]⟩

/-- `trmw.mark` of a range in which some row shows an error puts two operations in hand: the record of type 11, which leaves when the strike hold
ends, and the load of its count. -/
theorem trmw_marks {d h o l : BitVec 4} {la : Nat} (hsys : s.c.sys = true) (he : s.rowsCheck h o l hRd = .ok la) (hc : s.count .ld < 63)
    (hrows : s.marginRows la (s.c.ra l).toNat ≠ 0) :
    ∃ t record load, exec (.trmw d h o l 1) s = .next t ∧ t.outs = s.outs ++ [record, load] ∧ record.path = .x ∧ load.path = .l := by
  have hexec : exec (.trmw d h o l 1) s = execTrmw d h o l 1 s := rfl
  rw [hexec, execTrmw, State.privileged, if_pos hsys, canRead_eq, he]
  dsimp only
  rw [counted_of_lt hc, if_pos ⟨rfl, hrows⟩]
  exact ⟨_, _, _, rfl, List.append_assoc .., rfl, rfl⟩

/-- A bead at system level with h2 a handle of class W over the towers, a7 the length of a row, and the first granule of tower 0 poisoned. -/
def poisonedRow : State :=
  { c := { h := (Vector.replicate 16 0).set 2 0x1F800000007FFF800000000000800000, a := (Vector.replicate 16 0).set 7 1024 }
    mem := { poison := [towerAddr 0 0 0] } }

theorem poisonedRow_check : poisonedRow.rowsCheck 2 4 7 hRd = .ok (towerAddr 0 0 0) := by decide +kernel

theorem poisonedRow_shows : poisonedRow.marginRows (towerAddr 0 0 0) (poisonedRow.c.ra 7).toNat ≠ 0 :=
  marginRows_ne_zero (i := 0) (g := towerAddr 0 0 0) (by decide) (by decide +kernel) (by decide +kernel)

/-- Refutes O48: its clause on `trmw` has the load of the count as the only operation put in hand, with and without `.mark`. With `.mark` and a
nonzero count the instruction posts an error record of type 11 (12 R412), which is in hand before that load: where the one row of the range holds a
poisoned granule, two operations are in hand afterwards. -/
theorem not_rangesOfGranulesAndRows : ¬ Obligations.RangesOfGranulesAndRows := by
  unfold Obligations.RangesOfGranulesAndRows
  intro h
  obtain ⟨-, -, -, -, -, -, -, htrmw⟩ := h poisonedRow 2 4 7 1 1 (towerAddr 0 0 0) 1024 rfl
  obtain ⟨t, v, hexec, hgone, -⟩ := htrmw rfl poisonedRow_check (by decide)
  obtain ⟨u, record, load, hexec', houts, -⟩ := trmw_marks (d := 1) rfl poisonedRow_check (by decide) poisonedRow_shows
  have htu : t = u := Host.Outcome.next.inj (hexec.symm.trans hexec')
  have hone : t.outs.length = 1 := congrArg List.length hgone
  have htwo : t.outs.length = 2 := htu ▸ congrArg List.length houts
  omega

end Sys2Proof.MarkedTower
end

section
/-! SUPPORT. Fields of a register beside one that is replaced. -/

namespace Sys2Proof.RegisterFields
open Sys2Proof Machine

/-- Replacing a field leaves the bits of another. -/
theorem fld_putField_apart {m : Nat} (w : BitVec m) {lo n l k : Nat} (v : Nat) (hapart : l + k ≤ lo ∨ lo + n ≤ l) (hm : l + k ≤ m) :
    fld (putField w lo n v).toNat l k = fld w.toNat l k := by
  refine Nat.eq_of_testBit_eq fun j => ?_
  rw [fld, fld, Nat.testBit_mod_two_pow, Nat.testBit_mod_two_pow, Nat.testBit_div_two_pow, Nat.testBit_div_two_pow]
  by_cases hj : j < k
  · have hbit := IntegerControl.getLsbD_putField w lo n v (j + l) (by omega)
    rw [if_neg (by omega)] at hbit
    rw [BitVec.testBit_toNat, hbit, BitVec.testBit_toNat]
  · simp [hj]

end Sys2Proof.RegisterFields
end

section
/-! SUPPORT. O23: `seg` and `sege` (11 R356, R362). -/

namespace Sys2Proof.SegmentBounds
open Sys2Proof Machine Claims Laws

variable {s : State}

/-! ## sr.seg -/

/-- What `seg` writes to sr.seg: open, the number of windows, and the number of this opening (11 R356). -/
theorem openWord_fields (n : BitVec 2) {i : Nat} (hi : i < 2 ^ 32) {w : DWord} (hw : w = BitVec.ofNat 64 (1 + n.toNat * 4 + i * 2 ^ 32)) :
    w.getLsbD 0 = true ∧ fld w.toNat 1 1 = 0 ∧ fld w.toNat 2 2 = n.toNat ∧ fld w.toNat 16 9 = 0 ∧ fld w.toNat 32 32 = i := by
  have hn := n.isLt
  have hnat : w.toNat = 1 + n.toNat * 4 + i * 2 ^ 32 := by
    rw [hw, BitVec.toNat_ofNat]
    omega
  rw [← BitVec.testBit_toNat, Nat.testBit_eq_decide_div_mod_eq, hnat]
  simp only [fld, decide_eq_true_iff]
  omega

/-- Closing clears the low half of sr.seg. -/
theorem closedWord_eq (w : DWord) : w &&& 0xFFFFFFFF00000000 = putField w 0 32 0 := by
  have hmask : (0xFFFFFFFF00000000 : DWord) = ~~~BitVec.ofNat 64 ((2 ^ 32 - 1) * 2 ^ 0) := rfl
  rw [putField, blendBits, hmask]
  simp

/-- What it leaves: the number of the opening (11 R362). -/
theorem closedWord_fields (w : DWord) :
    (w &&& 0xFFFFFFFF00000000).getLsbD 0 = false ∧ fld (w &&& 0xFFFFFFFF00000000).toNat 0 32 = 0 ∧
      fld (w &&& 0xFFFFFFFF00000000).toNat 32 32 = fld w.toNat 32 32 := by
  rw [closedWord_eq]
  exact ⟨IntegerControl.getLsbD_putField w 0 32 0 0 (by decide), GlobalStores.fld_putField w 0 (by decide),
    RegisterFields.fld_putField_apart w 0 (.inr le_rfl) le_rfl⟩

/-! ## `seg` -/

/-- Nothing is outstanding where a `wait` for every counter is over. -/
theorem waited_of (h : WaitOver s 0 0 0 0) : s.waited = true := by
  obtain ⟨hslots, hld, hst, hcp, htl⟩ := h
  rw [State.waited, hslots]
  simp only [Bool.true_and, decide_eq_true_iff]
  omega

/-- The windows are the first handles that `seg` names, without null ones. -/
theorem windowsOf_eq (c : Ctx) (a b : BitVec 4) {n : BitVec 2} (hn : n ≠ 3) :
    c.windowsOf a b n = ([c.rh a, c.rh b].take n.toNat).filter fun h => hClass h != 0 := by
  match n with
  | 0 => rfl
  | 1 => rfl
  | 2 => rfl
  | 3 => exact absurd rfl hn

/-- With no segment open, what ends a segment goes on at once. -/
theorem endSegment_of_closed (h : s.c.segOpen = false) (f : State → State) : s.endSegment f = f s := by
  rw [State.endSegment, h]
  rfl

/-- With nothing held and no store outstanding the segment closes. -/
theorem endSegment_of_empty (hopen : s.c.segOpen = true) (hheld : s.q.held = []) (hst : s.count .st = 0) (f : State → State) :
    s.endSegment f = f s.closeSeg := by
  rw [State.endSegment, hopen, hheld, hst]
  rfl

/-- The number of the next opening, in sr.seg[63:32]. -/
def nextOpening (s : State) : Nat := (fld s.c.seg.toNat 32 32 + 1) % 2 ^ 32

/-- The bead with its segment open: its registers are in the snapshot, and its save area is the machine's own (log 9). -/
def opened (s : State) (a b : BitVec 4) (n : BitVec 2) : State :=
  { s with
    c := { s.c with seg := BitVec.ofNat 64 (1 + n.toNat * 4 + nextOpening s * 2 ^ 32), windows := (Claims.landed s).windowsOf a b n }
    q := { s.q with issueFrom := s.coreAfter 24 + 32, issueWhy := 16, snap := some (Claims.landed s), held := [] }
    mem := s.mem.fill s.fresh (s.crownAt (s.c.lastStrip + 0x78000)) 0x8000
    fresh := s.fresh + 1 }

/-- `seg` refuses exactly the operands that name no window and are not 0. -/
theorem execSeg_eq (a b : BitVec 4) (n : BitVec 2) (hgood : ¬(n = 3 ∨ (n.toNat < 2 ∧ b ≠ 0) ∨ (n = 0 ∧ a ≠ 0)))
    (hclosed : s.c.segOpen = false) (hwait : WaitOver s 0 0 0 0) : execSeg a b n s = .next (opened s a b n) := by
  rw [execSeg, if_neg hgood, endSegment_of_closed hclosed, waited_of hwait]
  rfl

/-- Settles O23: the opened and the closed bead, with the fields of sr.seg in each. -/
theorem segmentsOpenAndClose : Obligations.SegmentsOpenAndClose := by
  intro s a b n
  refine ⟨fun hclosed hwait hn hb ha => ?_, fun hbad => ⟨_, if_pos hbad, refused_raiseIssue s 0x01⟩,
    fun hclosed => congrArg Host.Outcome.next (endSegment_of_closed hclosed id), fun hopen hheld hst => ?_⟩
  · have hgood : ¬(n = 3 ∨ (n.toNat < 2 ∧ b ≠ 0) ∨ (n = 0 ∧ a ≠ 0)) := by
      rintro (h | ⟨h, hne⟩ | ⟨h, hne⟩)
      · exact hn h
      · exact hne (hb h)
      · exact hne (ha h)
    obtain ⟨hbit, hrew, hnwin, hheld, hinst⟩ := openWord_fields n (Nat.mod_lt (fld s.c.seg.toNat 32 32 + 1) (Nat.two_pow_pos 32)) rfl
    exact ⟨_, execSeg_eq a b n hgood hclosed hwait, hbit, hrew, hnwin, hheld, hinst, rfl, windowsOf_eq _ a b hn, rfl, rfl, rfl⟩
  · obtain ⟨hbit, hlow, hinst⟩ := closedWord_fields s.c.seg
    exact ⟨_, congrArg Host.Outcome.next (endSegment_of_empty hopen hheld hst id), hbit, hlow, hinst, rfl, rfl⟩

end Sys2Proof.SegmentBounds
end

section
/-! SUPPORT. O25: the barrier of a clasp (11 R368). When the release comes and how long a request travels are entry 6 of the assumption log. -/

namespace Sys2Proof.ClaspBarriers
open Sys2Proof Machine Claims Laws

variable {s : State}

/-- Nothing in flight, as the model tests it. -/
theorem bankIdle_of (h : Idle s) : s.bankIdle = true := by
  obtain ⟨hv, hm, houts⟩ := h
  rw [State.bankIdle, hv, hm]
  simpa using houts

/-- An idle bead with no segment open has nothing to wait for before it suspends. -/
theorem suspending_of_idle (hclosed : s.c.segOpen = false) (hidle : Idle s) (f : State → State) : s.suspending f = f s := by
  rw [State.suspending, SegmentBounds.endSegment_of_closed hclosed, bankIdle_of hidle]
  rfl

/-- What is settled for the bead of the active bank. -/
theorem settleBank_own (s : State) (f : Ctx → Ctx) (g : Seq → Seq) : s.settleBank s.core.bank f g =
    { s with c := f s.c, q := g s.q, undo := s.undo.map fun u => if u.bank == s.core.bank then { u with c := f u.c, q := g u.q } else u } := by
  have hbank : s.onBank s.core.bank f = { s with c := f s.c } := if_pos rfl
  rw [State.settleBank, hbank]
  dsimp only [State.onBankSeq]
  rw [if_pos rfl]

/-- A bead of the clasp that has not arrived does so. -/
theorem execCbar_arrives {c : Clasp} (hc : s.hub.clasp s.c.claspNo = some c) (hat : s.q.cbarAt = none)
    (hclosed : s.c.segOpen = false) (hidle : Idle s) (d : BitVec 5) : execCbar d s = .next (s.arrive c d).stall := by
  rw [execCbar, hc, hat]
  exact congrArg Host.Outcome.next (suspending_of_idle hclosed hidle _)

/-- The bead as it waits at the barrier; its undo records keep the arrival too (12 R384). -/
def arrived (s : State) : State :=
  { s with
    q := { s.q with cbarAt := some s.now, cbarRel := none, wait := .barrier s.now }
    undo := s.undo.map fun u => if u.bank == s.core.bank then { u with q := { u.q with cbarAt := some s.now, cbarRel := none } } else u }

theorem arrived_q (hrel : s.q.cbarRel = none) : (arrived s).q = { s.q with cbarAt := some s.now, wait := .barrier s.now } := by
  rw [arrived, ← hrel]

/-- On a channel the clasp counts the arrival, and the last one releases it. -/
theorem arrive_channel {c : Clasp} {ch : Nat} (hch : c.channel = some ch) (d : BitVec 5) :
    s.arrive c d = { arrived s with hub := s.hub.setClasp { c with
      arrived := setAdd c.arrived s.c.rank
      released := if c.ranks.all (setAdd c.arrived s.c.rank).contains then some (s.now + 25) else c.released } } := by
  rw [State.arrive, settleBank_own, hch]
  dsimp only [id]
  by_cases hall : c.ranks.all (setAdd c.arrived s.c.rank).contains = true
  · rw [if_pos hall, if_pos hall]
    rfl
  · rw [if_neg hall, if_neg hall]
    rfl

/-- Without one its request goes to the home engine of its object. -/
theorem arrive_fallback {c : Clasp} {g : Nat} (hch : c.channel = none) (hg : c.fallback = some g) (d : BitVec 5) :
    s.arrive c d = (arrived s).sendAtom .none (g, 0)
      { instr := .cbar d, addr := g, s := 0, d := s.c.bead, engine := false, waiting := false } := by
  rw [State.arrive, settleBank_own, hch, hg]
  rfl

/-- Settles O25: the arrival on a channel and through a home engine, by what the bead is as it waits. -/
theorem claspBarrier : Obligations.ClaspBarrier := by
  intro s d c
  refine ⟨fun hc => ?_, fun hc => ⟨fun r n hat hrel => ?_, fun ch hat hrel hclosed hidle hch => ?_,
    fun g hat hrel hclosed hidle hch hg => ?_, fun n hat hrel => ?_⟩⟩
  · refine ⟨s.raise 0x18 (claspInfo 6 s.c.claspNo), ?_, faults_raise ..⟩
    simp only [exec, execCbar, hc]
  · refine ⟨_, _, ?_, writesX_wx _ d (BitVec.ofNat 64 r), rfl⟩
    simp only [exec, execCbar, hc, hat, hrel]
    rfl
  · have hexec := execCbar_arrives hc hat hclosed hidle d
    rw [arrive_channel hch] at hexec
    exact ⟨_, hexec, arrived_q hrel, rfl, rfl⟩
  · have hexec := execCbar_arrives hc hat hclosed hidle d
    rw [arrive_fallback hch hg] at hexec
    exact ⟨_, hexec, arrived_q hrel, rfl, rfl, rfl, rfl⟩
  · simp only [exec, execCbar, hc, hat, hrel]
    rfl

end Sys2Proof.ClaspBarriers
end

section
/-! SUPPORT. The wait pool of the arbiter: what it notes of waiting beads (11 R342) and the record of a bead that leaves its bank (11 R346). -/

namespace Sys2Proof.WaitPool
open Sys2Proof Machine Claims Laws

variable {s : State}

/-! ## What the arbiter notes (11 R342) -/

/-- A waiting bead after the arbiter has looked at it: ready once it can go on. -/
def noted (s : State) (b : Bead) : Bead :=
  if b.ready.isNone && !b.gang && s.canStart (rState b.record) (rWake b.record) then
    { b with ready := some (if rState b.record = 2 then rWake b.record else s.now) } else b

theorem noted_gang (s : State) (b : Bead) : (noted s b).gang = b.gang := by
  unfold noted
  split <;> rfl

theorem noted_record (s : State) (b : Bead) : (noted s b).record = b.record := by
  unfold noted
  split <;> rfl

/-- A bead that is ready stays as it is. -/
theorem noted_of_ready {b : Bead} {n : Nat} (h : b.ready = some n) (s : State) : noted s b = b := by
  rw [noted, h]
  rfl

/-- Nothing but lines of the hub's caches changes: what reads through home ports do. -/
def Fetches (s t : State) : Prop := ∃ c e, t = { s with hub := { s.hub with bcache := c, engines := e } }

theorem Fetches.trans {t u : State} (h : Fetches s t) (g : Fetches t u) : Fetches s u := by
  obtain ⟨_, _, rfl⟩ := h
  obtain ⟨c, e, rfl⟩ := g
  exact ⟨c, e, rfl⟩

theorem Fetches.foldl {α : Type} {f : State → α → State} (hf : ∀ s x, Fetches s (f s x)) (l : List α) (s : State) : Fetches s (l.foldl f s) := by
  induction l generalizing s with
  | nil => exact ⟨_, _, rfl⟩
  | cons x l ih => exact (hf s x).trans (ih _)

theorem fetches_portFetch (s : State) (g n : Nat) : Fetches s (s.portFetch g n) := LoneIssue.portFetch_eq s g n

/-- The arbiter's look at its waiting beads and heads changes only the hub: the beads, the heads and lines of its caches. -/
theorem noteReady_eq (s : State) : ∃ h c e, s.noteReady =
    { s with hub := { s.hub with beads := s.hub.beads.map (noted s), heads := h, bcache := c, engines := e } } := by
  unfold State.noteReady
  extract_lets beads heads fresh k u
  have hfetch : ∀ (t : State) (h : BitVec 16 × BitVec 32 × Bool × Nat),
      Fetches t ((t.portFetch (t.hub.strandTable + 32 * h.1.toNat) 32).portFetch (t.entryAt h.1.toNat h.2.1.toNat) 64) :=
    fun t _ => (fetches_portFetch t ..).trans (fetches_portFetch ..)
  obtain ⟨c, e, h⟩ := Fetches.foldl hfetch fresh u
  exact ⟨heads, c, e, h⟩

theorem noteReady_frame (s : State) : s.noteReady = { s with hub := s.noteReady.hub } := by
  obtain ⟨h, c, e, heq⟩ := noteReady_eq s
  rw [heq]

theorem noteReady_beads (s : State) : s.noteReady.hub.beads = s.hub.beads.map (noted s) := by
  obtain ⟨h, c, e, heq⟩ := noteReady_eq s
  rw [heq]

/-! ## The record of a bead that leaves its bank (11 R346, R365) -/

/-- The bead of the active bank as its record in the wait pool keeps it. -/
def leaving (s : State) (state : Nat) (wake : DWord) (ready : Option Nat) (gang : Bool) : Bead :=
  { record := suspendRecord s state wake, strand := s.c.strand, index := s.c.index, ready := ready
    strips := if s.c.pinned then s.c.cbmap else 0, saved := none, gang := gang }

/-- The machine once the record of a bead stands in the wait pool and its bank is free. -/
def recorded (s : State) (b : Bead) : State :=
  ({ s.poolWrite with c := {}, q := {}, undo := s.undo.filter (·.bank != s.core.bank)
                      hub := { s.poolWrite.hub with beads := s.hub.beads ++ [b] } } : State).noteReady

/-- No copy lands in the fields of a bead that its record keeps beside the registers. -/
theorem apply_bead (w : RegWrite) (c : Ctx) :
    (w.apply c).bead = c.bead ∧ (w.apply c).index = c.index ∧ (w.apply c).cbmap = c.cbmap := by
  cases w with
  | pat e bank ws => cases bank <;> exact ⟨rfl, rfl, rfl⟩
  | _ => simp [RegWrite.apply]

theorem landAll_bead (l : List Shadow) (c : Ctx) :
    (landAll c l).bead = c.bead ∧ (landAll c l).index = c.index ∧ (landAll c l).cbmap = c.cbmap := by
  induction l generalizing c with
  | nil => exact ⟨rfl, rfl, rfl⟩
  | cons h t ih =>
    obtain ⟨hbead, hindex, hmap⟩ := ih (h.write.apply c)
    obtain ⟨hbead', hindex', hmap'⟩ := apply_bead h.write c
    exact ⟨hbead.trans hbead', hindex.trans hindex', hmap.trans hmap'⟩

/-- The write of a record through the pool's port leaves the beads, and the pool's bytes are the arbiter's own (log 9). -/
theorem poolWrite_keeps (s : State) :
    s.poolWrite.hub.beads = s.hub.beads ∧ s.poolWrite.mem = s.mem.scramble s.fresh s.hub.waitBase (64 * s.hub.waitSize) := by
  obtain ⟨b, e, h⟩ := cachesOnly_portWrite s [{ addr := s.poolLine s.hub.beads.length, bytes := List.replicate 64 0 }]
  rw [State.poolWrite]
  dsimp only
  rw [h]
  exact ⟨rfl, rfl⟩

/-- A bank is freed without more where no removal of its core waits (12 R411). -/
theorem freeBank_eq (h : s.core.removal = false) :
    s.freeBank = { s with c := {}, q := {}, undo := s.undo.filter (·.bank != s.core.bank) } := by
  rw [State.freeBank, State.pendingRemoval]
  exact if_pos (by simpa using h)

/-- The record of the bead, as `writeRecord` makes it of the registers with their copies landed. -/
theorem leaving_eq (s : State) (state : Nat) (wake : DWord) (ready : Option Nat) (gang : Bool) {c : Ctx} (hc : c = landAll s.c s.q.shadows) :
    leaving s state wake ready gang =
      { record := mkRec state s.nextPc c.bead c.home ((List.range 4).map fun i => c.rx (BitVec.ofNat 5 (i + 1))) wake
        strand := c.strand, index := c.index, ready := ready, strips := if c.pinned then c.cbmap else 0, saved := none, gang := gang } := by
  obtain ⟨hbead, hindex, hmap⟩ := landAll_bead s.q.shadows s.c
  have hstrand : c.strand = s.c.strand := by rw [hc, Ctx.strand, hbead, Ctx.strand]
  have hpinned : c.pinned = s.c.pinned := by rw [hc, Ctx.pinned, hbead, Ctx.pinned]
  rw [hstrand, hpinned, hc, hindex, hmap]
  rfl

/-- With room in the pool and no removal of the core waiting, a suspension writes its record and frees the bank. -/
theorem writeRecord_eq (hroom : s.hub.beads.length < s.hub.waitSize) (hremoval : s.core.removal = false) (state : Nat) (wake : DWord)
    (f : Bead → Bead) : s.writeRecord state s.nextPc wake f =
      recorded s (f (leaving s state wake (if state = 2 ∧ wake.toNat ≤ s.now then some s.now else none) false)) := by
  rw [State.writeRecord, if_neg (Nat.not_le.mpr hroom), leaving_eq s state wake _ false rfl]
  refine (congrArg State.noteReady (freeBank_eq ?_)).trans ?_
  · exact hremoval
  · dsimp only
    rw [(poolWrite_keeps s).1]
    rfl

theorem recorded_beads (s : State) (b : Bead) :
    ∃ g, (∀ x, (g x).gang = x.gang ∧ (g x).record = x.record) ∧ (recorded s b).hub.beads = (s.hub.beads ++ [b]).map g :=
  ⟨_, fun x => ⟨noted_gang _ x, noted_record _ x⟩, noteReady_beads _⟩

/-- The bank is free and the pool holds the record. -/
theorem leaves_recorded (s : State) (b : Bead) : Leaves s (recorded s b) b := by
  have hframe := noteReady_frame ({ s.poolWrite with
    c := {}, q := {}, undo := s.undo.filter (·.bank != s.core.bank), hub := { s.poolWrite.hub with beads := s.hub.beads ++ [b] } } : State)
  obtain ⟨g, -, hbeads⟩ := recorded_beads s b
  have hc : (recorded s b).c = {} := congrArg State.c hframe
  have hq : (recorded s b).q = {} := congrArg State.q hframe
  have hundo : (recorded s b).undo = s.undo.filter (·.bank != s.core.bank) := congrArg State.undo hframe
  refine ⟨hc, hq, hundo, ?_, ?_, (congrArg State.mem hframe).trans (poolWrite_keeps s).2⟩
  · rw [hbeads, List.length_map, List.length_append, List.length_singleton]
  · rw [hc, hq, hundo]
    rfl

end Sys2Proof.WaitPool
end

section
/-! SUPPORT. Suspension points (11 R346, R365), and operations of slot C that send (12 R384). -/

namespace Sys2Proof.SuspensionPoints
open Sys2Proof Machine Claims Laws ClaspBarriers

variable {s : State}

/-! ## Suspension points (11 R346, R365) -/

/-- A suspension whose record is written: it no longer waits, and what a `join` was answered is taken. -/
def ended (s : State) : State := { s with q := { s.q with wait := .none, answered := none } }

/-- A suspension that finds nothing in flight writes its record 40 core cycles later. -/
theorem recording_begins (hclosed : s.c.segOpen = false) (hidle : Idle s) (hwait : s.q.wait = .none)
    (hroom : s.hub.beads.length < s.hub.waitSize) (f : State → State) :
    s.recording true f = { s with q := { s.q with wait := .record (some (s.coreAfter 40)) }, lat := { s.lat with res := .stall } } := by
  rw [State.recording, hwait]
  dsimp only
  refine (suspending_of_idle (s := { s with q := { s.q with wait := .record none } }) hclosed hidle _).trans ?_
  dsimp only
  rw [if_neg (by simpa using hroom)]
  rfl

/-- One that has waited them goes on. -/
theorem recording_ends (hsusp : Suspended s) (hroom : s.hub.beads.length < s.hub.waitSize) (f : State → State) :
    s.recording true f = f (ended s) := by
  obtain ⟨hclosed, hidle, -, t, hwait, hle⟩ := hsusp
  rw [State.recording, hwait]
  dsimp only
  refine (suspending_of_idle hclosed hidle _).trans ?_
  rw [if_neg (by simpa using hroom), hwait]
  exact if_pos hle

/-! ## What an operation of slot C sends (12 R384) -/

section
variable {n : Nat} {act : State → State × Option DWord} {finish : DWord → State → State}

theorem sends_begins (ha : s.q.answered = none) (hs : s.q.sending = none) :
    s.sends n act finish = { s with q := { s.q with sending := some s.now } }.stall := by
  rw [State.sends, ha, hs]

theorem sends_holds {t : Nat} (ha : s.q.answered = none) (hs : s.q.sending = some t) (ht : s.now ≤ t + 32) : s.sends n act finish = s.stall := by
  rw [State.sends, ha, hs]
  exact if_pos ht

theorem sends_awaits {w : DWord} {t : Nat} (ha : s.q.answered = some (w, t)) (ht : s.now < t) : s.sends n act finish = s.stall := by
  rw [State.sends, ha]
  exact if_neg (Nat.not_le.mpr ht)

theorem sends_takes {w : DWord} {t : Nat} (ha : s.q.answered = some (w, t)) (ht : t ≤ s.now) :
    s.sends n act finish = finish w (AnswerTaken s) := by
  rw [State.sends, ha]
  exact if_pos ht

/-- Once the strike hold is over it acts, and a trap that it raises ends it. -/
theorem sends_raises (hnow : SendsNow s) {u : State} (hact : act (unsent s) = (u, none)) : s.sends n act finish = u := by
  obtain ⟨ha, t, hs, ht⟩ := hnow
  rw [State.sends, ha, hs]
  refine (if_neg (Nat.not_le.mpr ht)).trans ?_
  unfold unsent at hact
  rw [hact]

/-- Otherwise its answer is on its way. -/
theorem sends_answered (hnow : SendsNow s) {r : State} {w : DWord} (hact : act (unsent s) = (r, some w)) (hbank : r.core.bank = s.core.bank) :
    Answered s r (s.sends n act finish) w (n - 33) := by
  obtain ⟨ha, t, hs, ht⟩ := hnow
  rw [State.sends, ha, hs]
  refine (if_neg (Nat.not_le.mpr ht)).trans ?_
  unfold unsent at hact
  rw [hact, ← hbank]
  dsimp only
  rw [settleBank_own, hbank]
  rfl

/-- What sends before its answer comes, and waits for that, is held back. -/
theorem heldBack_of {i : Instr} (hsends : s.q.answered = none → exec i s = .next (s.sends n act finish))
    (hawaits : ∀ w t, s.q.answered = some (w, t) → s.now < t → exec i s = .next s.stall) : HeldBack s i := by
  refine ⟨fun ha hs => ?_, fun t ha hs ht => ⟨s.stall, ?_, waits_stall s⟩, fun w t ha ht => ⟨s.stall, hawaits w t ha ht, waits_stall s⟩⟩
  · rw [hsends ha, sends_begins ha hs]
    rfl
  · rw [hsends ha, sends_holds ha hs ht]

theorem heldBack_sends {i : Instr} (h : exec i s = .next (s.sends n act finish)) : HeldBack s i :=
  heldBack_of (fun _ => h) fun _ _ ha ht => h.trans (by rw [sends_awaits ha ht])

end

end Sys2Proof.SuspensionPoints
end

section
/-! SUPPORT. O21: `spawn`, `join` and `leave` (11 R364, R366, R367). The strike hold of the three is entry 32 of the assumption log, the time that
`spawn` takes entry 23, the order of its checks entry 38. -/

namespace Sys2Proof.ClaspMembers
open Sys2Proof Machine Claims Laws ClaspBarriers SuspensionPoints

variable {s : State}

/-! ## Words of an operation -/

theorem fbv_toNat (n w : Nat) : (fbv n 0 w).toNat = w % 2 ^ n := by
  rw [fbv, BitVec.toNat_ofNat, HostAccess.fld_low, Nat.mod_mod]

/-! ## `spawn` (11 R364) -/

/-- What `spawn` does once nothing holds it: it appends a record to a strand, or traps. -/
def spawnAct (n : Nat) (r : Rec) (s : State) : State × Option DWord :=
  if s.lcap n = 0 then (s.raise 0x17 (strandInfo 1 n), none)
  else if !s.hub.recOk r false then (s.raise 0x17 (strandInfo 2 n), none)
  else if 2 ^ s.lcap n ≤ (s.strandTail n + 2 ^ 32 - s.strandHead n) % 2 ^ 32 then (s.raise 0x17 (strandInfo 0 n), none)
  else ((s.enqueue n (natBytes 64 r.toNat)).noteReady, some (BitVec.ofNat 64 (s.strandTail n)))

/-- The record of the operands of `spawn`. -/
def spawnRecord (s : State) (a b c : BitVec 5) : Rec :=
  mkRec 0 (s.lat.iss.rx b) (putField (s.lat.iss.rx a) 45 10 0) (s.lat.iss.rx c)
    [s.lat.iss.rx (c + 1), s.lat.iss.rx (c + 2), s.lat.iss.rx (c + 3), s.lat.iss.rx (c + 4)] 0

/-- A `spawn` whose operands are legal, and before which everything has performed, sends. -/
theorem execSpawn_sends {a b c : BitVec 5} (hlo : 1 ≤ c.toNat) (hhi : c.toNat ≤ 27) (hclosed : s.c.segOpen = false)
    (hsys : wSys (s.lat.iss.rx a) = true → s.c.sys = true) (hpc : (s.lat.iss.rx b).toNat % 16 = 0)
    (hearlier : HomeEngineRequests.EarlierPerformed s) (d : BitVec 5) :
    execSpawn d a b c s = .next (s.sends 180 (spawnAct ((s.lat.iss.rx a).toNat % 2 ^ 16) (spawnRecord s a b c)) fun w s => s.wx d w) := by
  have hc : ¬(c = 0 ∨ 27 < c.toNat) := by
    rintro (rfl | h)
    · exact absurd hlo (by decide)
    · omega
  have hlevel : ¬(wSys (s.lat.iss.rx a) && !s.c.sys) = true := by
    intro h
    simp only [Bool.and_eq_true, Bool.not_eq_true'] at h
    exact absurd (hsys h.1) (by simp [h.2])
  have hn : (wStrand (s.lat.iss.rx a)).toNat = (s.lat.iss.rx a).toNat % 2 ^ 16 := fbv_toNat 16 _
  rw [execSpawn, if_neg hc, if_neg (by simp [hclosed]), if_neg hlevel, if_neg (not_not.mpr hpc), HomeEngineRequests.released_of hearlier, hn]
  rfl

/-- A record that its strand's queue takes is appended. -/
theorem spawnAct_appends {n : Nat} {r : Rec} (hcap : s.lcap n ≠ 0) (hok : s.hub.recOk r false = true)
    (hfree : (s.strandTail n + 2 ^ 32 - s.strandHead n) % 2 ^ 32 < 2 ^ s.lcap n) :
    spawnAct n r s = ((s.enqueue n (natBytes 64 r.toNat)).noteReady, some (BitVec.ofNat 64 (s.strandTail n))) := by
  rw [spawnAct, if_neg hcap, if_neg (by simp [hok]), if_neg (Nat.not_le.mpr hfree)]

theorem spawnAct_unconfigured {n : Nat} (hcap : s.lcap n = 0) (r : Rec) : spawnAct n r s = (s.raise 0x17 (BitVec.ofNat 64 (1 + n * 2 ^ 16)), none) := by
  rw [spawnAct, if_pos hcap, strandInfo]

theorem spawnAct_invalid {n : Nat} {r : Rec} (hcap : s.lcap n ≠ 0) (hok : s.hub.recOk r false = false) :
    spawnAct n r s = (s.raise 0x17 (BitVec.ofNat 64 (2 + n * 2 ^ 16)), none) := by
  rw [spawnAct, if_neg hcap, if_pos (by simp [hok]), strandInfo]

theorem spawnAct_full {n : Nat} {r : Rec} (hcap : s.lcap n ≠ 0) (hok : s.hub.recOk r false = true)
    (hfull : 2 ^ s.lcap n ≤ (s.strandTail n + 2 ^ 32 - s.strandHead n) % 2 ^ 32) :
    spawnAct n r s = (s.raise 0x17 (BitVec.ofNat 64 (n * 2 ^ 16)), none) := by
  rw [spawnAct, if_neg hcap, if_neg (by simp [hok]), if_pos hfull, strandInfo, Nat.zero_add]

/-- The core that appends a record stays as it is. -/
theorem appended_core (s : State) (n : Nat) (bs : List Byte) : (s.enqueue n bs).noteReady.core = s.core := by
  obtain ⟨m, h, heq, -⟩ := enqueue_eq s n bs
  rw [WaitPool.noteReady_frame, heq]

/-! ## `join` and `leave` (11 R366, R367) -/

/-- The operands of a `join`: its clasp's number, size and SYNC, and nothing in the reserved bits. -/
structure JoinWords (s : State) (a b : BitVec 5) (n : BitVec 20) (size : Nat) (sync : Bool) : Prop where
  number : fbv 20 0 (s.lat.iss.rx a).toNat = n
  size : fld (s.lat.iss.rx b).toNat 0 10 = size
  sync : (s.lat.iss.rx b).toNat.testBit 16 = sync
  low : fld (s.lat.iss.rx b).toNat 10 6 = 0
  high : fld (s.lat.iss.rx b).toNat 17 47 = 0

theorem joinWords_of {a b : BitVec 5} {n : BitVec 20} {size : Nat} {sync : Bool} (hn : (s.lat.iss.rx a).toNat % 2 ^ 20 = n.toNat)
    (hb : (s.lat.iss.rx b).toNat = size + (if sync then 2 ^ 16 else 0)) (hsize : size < 2 ^ 10) : JoinWords s a b n size sync where
  number := BitVec.eq_of_toNat_eq ((fbv_toNat 20 _).trans hn)
  size := by rw [hb, fld]; split <;> omega
  sync := by rw [hb, Nat.testBit_eq_decide_div_mod_eq]; cases sync <;> simp <;> omega
  low := by rw [hb, fld]; split <;> omega
  high := by rw [hb, fld]; split <;> omega

/-- A `join` before it has its answer: what it refuses in its slot, and what it sends. -/
theorem execJoin_asks {a b : BitVec 5} {n : BitVec 20} {size : Nat} {sync : Bool} (hw : JoinWords s a b n size sync) (hclosed : s.c.segOpen = false)
    (ha : s.q.answered = none) (d : BitVec 5) : execJoin d a b s =
      if s.c.claspNo ≠ 0 then .next (s.raise 0x18 (claspInfo 1 n))
      else if n = 0 ∨ size = 0 then .next (s.raise 0x18 (claspInfo 0 n))
      else match s.hub.joinClasp n size sync with
        | .error r => .next (s.raise 0x18 (claspInfo r n))
        | .ok _ => .next (s.sends (if sync then 33 else 59) (·.joinClasp (.join d a b) n size sync) fun w s => s.wx d w) := by
  obtain ⟨hn, hsize, hsync, hlow, hhigh⟩ := hw
  rw [execJoin, hn, hsize, hsync, hlow, hhigh, ha]
  dsimp only
  rw [if_neg (by simp [hclosed])]
  simp only [ne_eq, not_true_eq_false, or_false]
  rfl

/-- One that has it: with SYNC it becomes a suspension point. -/
theorem execJoin_answered {a b : BitVec 5} {n : BitVec 20} {size : Nat} {sync : Bool} (hw : JoinWords s a b n size sync)
    {w : DWord} {m : Nat} (ha : s.q.answered = some (w, m)) (d : BitVec 5) : execJoin d a b s =
      .next (if sync && decide (m ≤ s.now) then s.joinRecord d w
        else s.sends 59 (·.joinClasp (.join d a b) n size sync) fun w s => s.wx d w) := by
  rw [execJoin, hw.number, hw.size, hw.sync, ha]

/-- A clasp that is there is joined with its own size and SYNC, and while it has a rank free. -/
theorem joinClasp_found {k : Hub} {n : BitVec 20} {e : Clasp} (he : k.clasp n = some e) (size : Nat) (sync : Bool) :
    k.joinClasp n size sync = if e.size ≠ size ∨ e.sync ≠ sync then .error 2 else if e.size ≤ e.ranks.length then .error 3 else .ok (k, e, false) := by
  rw [Hub.joinClasp, he]

/-- A `join` of a clasp that is there. -/
theorem execJoin_found {a b : BitVec 5} {n : BitVec 20} {size : Nat} {sync : Bool} (hw : JoinWords s a b n size sync) (hclosed : s.c.segOpen = false)
    (hfree : s.c.claspNo = 0) (hn : n ≠ 0) (hsize : size ≠ 0) {e : Clasp} (he : s.hub.clasp n = some e) (ha : s.q.answered = none) (d : BitVec 5) :
    execJoin d a b s =
      if e.size ≠ size ∨ e.sync ≠ sync then .next (s.raise 0x18 (claspInfo 2 n))
      else if e.size ≤ e.ranks.length then .next (s.raise 0x18 (claspInfo 3 n))
      else .next (s.sends (if sync then 33 else 59) (·.joinClasp (.join d a b) n size sync) fun w s => s.wx d w) := by
  rw [execJoin_asks hw hclosed ha, if_neg (not_not.mpr hfree), if_neg (not_or.mpr ⟨hn, hsize⟩), joinClasp_found he]
  split_ifs <;> rfl

/-- No round of a clasp fails that this core has not contributed to. -/
theorem failRound_none {n : BitVec 20} (h : s.outs.all (fun o => !o.contributes n) = true) : s.failRound n = s := by
  rw [State.failRound]
  refine if_pos ?_
  simpa using h

/-- The bead as a member: its clasp and rank stand in sr.bead. -/
def member (s : State) (n : BitVec 20) (e : Clasp) : State :=
  ({ s with hub := s.hub.setClasp { e with ranks := setAdd e.ranks e.freeRank } } : State).settleBank s.core.bank (·.inClasp n.toNat e.freeRank) id

theorem joinClasp_joins {n : BitVec 20} {e : Clasp} (he : s.hub.clasp n = some e) (hroom : e.ranks.length < e.size)
    (hround : s.outs.all (fun o => !o.contributes n) = true) (i : Instr) :
    s.joinClasp i n e.size e.sync = (member s n e, some (BitVec.ofNat 64 e.freeRank)) := by
  have hjoin : s.hub.joinClasp n e.size e.sync = .ok (s.hub, e, false) := by
    rw [joinClasp_found he, if_neg (by simp), if_neg (Nat.not_le.mpr hroom)]
  rw [State.joinClasp, hjoin]
  dsimp only
  rw [failRound_none hround]
  simp only [ite_self, hjoin]
  rfl

theorem inClasp_fields (c : Ctx) (n : BitVec 20) (rank : Nat) :
    (c.inClasp n.toNat rank).claspNo = n ∧ (c.inClasp n.toNat rank).rank = rank % 2 ^ 10 := by
  refine ⟨BitVec.eq_of_toNat_eq ?_, GlobalStores.fld_putField _ rank (by decide)⟩
  rw [Ctx.claspNo, fbv, BitVec.toNat_ofNat]
  refine (congrArg (· % 2 ^ 20) ?_).trans (Nat.mod_eq_of_lt n.isLt)
  refine (RegisterFields.fld_putField_apart _ rank (.inl (by decide)) (by decide)).trans ?_
  rw [GlobalStores.fld_putField _ _ (by decide), Nat.mod_eq_of_lt n.isLt]

/-- A `join` or `leave` changes of the registers the bead's word alone. -/
theorem settled_inClasp (s : State) (n rank : Nat) :
    (s.settleBank s.core.bank (·.inClasp n rank) id).c = s.c.inClasp n rank ∧ (s.settleBank s.core.bank (·.inClasp n rank) id).core = s.core := by
  rw [settleBank_own]
  exact ⟨rfl, rfl⟩

/-- With SYNC the operation that has its answer is a suspension point: its register is written, and the record follows 40 core cycles later. -/
theorem joinRecord_begins (hclosed : s.c.segOpen = false) (hidle : Idle s) (hwait : s.q.wait = .none) (hroom : s.hub.beads.length < s.hub.waitSize)
    (d : BitVec 5) (w : DWord) : s.joinRecord d w =
      { s.wx d w with q := { (s.wx d w).q with wait := .record (some (s.coreAfter 40)) }, lat := { s.lat with res := .stall } } :=
  recording_begins (s := s.wx d w) (by simpa only [State.wx_c, Ctx.segOpen, Ctx.wx_seg] using hclosed) hidle hwait hroom _

/-- The bead then leaves its bank as a member of its gang (11 R354). -/
theorem joinRecord_leaves (hsusp : Suspended s) (hroom : s.hub.beads.length < s.hub.waitSize) (d : BitVec 5) (w : DWord) :
    Leaves (s.wx d w) (s.joinRecord d w)
      { record := suspendRecord (s.wx d w) 1 0, strand := s.c.strand, index := s.c.index, ready := some s.now
        strips := if s.c.pinned then s.c.cbmap else 0, saved := none, gang := true } := by
  obtain ⟨hclosed, hidle, hremoval, hrecord⟩ := hsusp
  have hsusp' : Suspended (s.wx d w) := ⟨by simpa only [State.wx_c, Ctx.segOpen, Ctx.wx_seg] using hclosed, hidle, hremoval, hrecord⟩
  have heq : s.joinRecord d w =
      WaitPool.recorded (ended (s.wx d w)) { WaitPool.leaving (ended (s.wx d w)) 1 0 none false with gang := true, ready := some s.now } :=
    (recording_ends hsusp' hroom _).trans (WaitPool.writeRecord_eq (s := ended (s.wx d w)) hroom hremoval 1 0 _)
  have hbead : ({ WaitPool.leaving (ended (s.wx d w)) 1 0 none false with gang := true, ready := some s.now } : Bead) =
      { record := suspendRecord (s.wx d w) 1 0, strand := s.c.strand, index := s.c.index, ready := some s.now
        strips := if s.c.pinned then s.c.cbmap else 0, saved := none, gang := true } := by
    simp only [WaitPool.leaving, ended, State.wx_c, Ctx.strand, Ctx.pinned, Ctx.wx_bead, Ctx.wx_index, Ctx.wx_cbmap]
    rfl
  rw [heq, hbead]
  exact WaitPool.leaves_recorded (ended (s.wx d w)) _

/-! ## `leave` -/

theorem execLeave_sends (hclosed : s.c.segOpen = false) : execLeave s = .next (s.sends 59 (fun s => (s.leaveClasp, some 0)) fun _ s => s) := by
  rw [execLeave, if_neg (by simp [hclosed])]

theorem failRound_keeps (s : State) (n : BitVec 20) : (s.failRound n).c = s.c ∧ (s.failRound n).core = s.core := by
  have hown (u : State) (p : Prop) [Decidable p] (b : Bool) (g : Seq → Seq) :
      (if p then u.settleBank b id g else u).c = u.c ∧ (if p then u.settleBank b id g else u).core = u.core := by
    unfold State.settleBank State.onBankSeq State.onBank
    split_ifs <;> exact ⟨rfl, rfl⟩
  rw [State.failRound]
  split
  · exact ⟨rfl, rfl⟩
  · rw [State.failMembers]
    exact ⟨(hown _ _ true _).1.trans (hown _ _ false _).1, (hown _ _ true _).2.trans (hown _ _ false _).2⟩

/-- Who leaves holds no rank any more. -/
theorem leaveClasp_member (h : s.c.claspNo ≠ 0) : s.leaveClasp.c = s.c.inClasp 0 0 ∧ s.leaveClasp.core = s.core := by
  rw [State.leaveClasp, if_neg h]
  extract_lets u v
  have hrequest (o : Option Nat) : (o.elim u fun g => u.hubRequest g .leave 0).c = u.c ∧ (o.elim u fun g => u.hubRequest g .leave 0).core = u.core := by
    cases o <;> exact ⟨rfl, rfl⟩
  obtain ⟨huc, hucore⟩ : u.c = s.c ∧ u.core = s.core := failRound_keeps s s.c.claspNo
  obtain ⟨hvc, hvcore⟩ : v.c = u.c ∧ v.core = u.core := hrequest _
  obtain ⟨hc, hcore⟩ := settled_inClasp ({ v with hub := v.hub.leaveClasp s.c.claspNo v.c.rank v.now } : State) 0 0
  exact ⟨hc.trans (congrArg (·.inClasp 0 0) (hvc.trans huc)), hcore.trans (hvcore.trans hucore)⟩

/-- An answer on its way leaves the registers. -/
theorem answered_c {r t : State} {v : DWord} {n : Nat} (h : Answered s r t v n) : t.c = r.c := by
  unfold Answered at h
  dsimp only at h
  rw [h]

/-- Settles O21: each of the three sends its request to the hub once and takes the answer when it has come. -/
theorem spawnJoinAndLeave : Obligations.SpawnJoinAndLeave := by
  refine ⟨?spawn, ?join, ?leave⟩
  case spawn =>
    intro s d a b c n tail r hlo hhi hclosed hsys hpc hslots hperf hn htail hr
    have hexec : exec (.spawn d a b c) s = .next (s.sends 180 (spawnAct n r) fun w s => s.wx d w) := by
      rw [hn, hr]
      exact execSpawn_sends hlo hhi hclosed hsys hpc ⟨hslots, hperf⟩ d
    have hraises (hnow : SendsNow s) {info : DWord} (hact : spawnAct n r (unsent s) = ((unsent s).raise 0x17 info, none)) :
        ∃ t, exec (.spawn d a b c) s = .next t ∧ Faults (unsent s) t 0x17 info :=
      ⟨_, hexec.trans (by rw [sends_raises hnow hact]), faults_raise ..⟩
    subst htail
    refine ⟨heldBack_sends hexec, fun w m ha hm => ⟨_, hexec.trans (by rw [sends_takes ha hm]), writesX_wx (AnswerTaken s) d w⟩,
      fun hnow hcap => hraises hnow (spawnAct_unconfigured (s := unsent s) hcap r),
      fun hnow hcap hok => hraises hnow (spawnAct_invalid (s := unsent s) hcap hok),
      fun hnow hcap hok => ⟨fun hfree => ⟨_, hexec, ?_⟩, fun hfull => hraises hnow (spawnAct_full (s := unsent s) hcap hok hfull)⟩⟩
    exact sends_answered hnow (spawnAct_appends (s := unsent s) hcap hok hfree) (congrArg Core.bank (appended_core ..))
  case join =>
    intro s d a b n size sync hclosed hn hb hsize
    have hw := joinWords_of hn hb hsize
    have hasks (ha : s.q.answered = none) : exec (.join d a b) s = _ := execJoin_asks hw hclosed ha d
    have hanswered {w : DWord} {m : Nat} (ha : s.q.answered = some (w, m)) : exec (.join d a b) s = _ := execJoin_answered hw ha d
    refine ⟨fun ha hmember => ⟨_, (hasks ha).trans (if_pos hmember), faults_raise ..⟩,
      fun ha hfree hbad => ⟨_, (hasks ha).trans (by rw [if_neg (not_not.mpr hfree), if_pos hbad]), ?nothing⟩,
      fun e hfree hn0 hs0 he => ?found, fun w m ha hm => ?answered⟩
    case nothing => exact Nat.zero_add (n.toNat * 2 ^ 32) ▸ faults_raise ..
    case found =>
      have hfound (ha : s.q.answered = none) : exec (.join d a b) s = _ := execJoin_found hw hclosed hfree hn0 hs0 he ha d
      refine ⟨fun ha hdiff => ⟨_, (hfound ha).trans (if_pos hdiff), faults_raise ..⟩,
        fun ha hsize hsync hfull => ⟨_, (hfound ha).trans ((if_neg (by simp [hsize, hsync])).trans (if_pos hfull)), faults_raise ..⟩,
        fun hsize hsync hroom => ?member⟩
      subst hsize hsync
      have hsends (ha : s.q.answered = none) : exec (.join d a b) s = _ :=
        (hfound ha).trans (by rw [if_neg (by simp), if_neg (Nat.not_le.mpr hroom)])
      refine ⟨heldBack_of hsends fun w m ha hm => ?_, fun hnow hround => ?_⟩
      · rw [hanswered ha, if_neg (by simp [hm]), sends_awaits ha hm]
      · have hjoins := joinClasp_joins (s := unsent s) he hroom hround (.join d a b)
        have hans : Answered s (member (unsent s) n e) _ _ _ := sends_answered (act := (·.joinClasp (.join d a b) n e.size e.sync))
          (finish := fun w s => s.wx d w) (n := if e.sync then 33 else 59) hnow hjoins (congrArg Core.bank (settled_inClasp ..).2)
        have hc : (member (unsent s) n e).c = s.c.inClasp n.toNat e.freeRank := (settled_inClasp ..).1
        obtain ⟨hno, hrank⟩ := inClasp_fields s.c n e.freeRank
        have htime : (if e.sync = true then 33 else 59) - 33 = if e.sync = true then 0 else 26 := by cases e.sync <;> rfl
        rw [htime] at hans
        refine ⟨member (unsent s) n e, _, hsends hnow.1, rfl, hans, ?_⟩
        rw [answered_c hans, hc]
        exact ⟨rfl, hno, hrank⟩
    case answered =>
      have hrecords (hsync : sync = true) : exec (.join d a b) s = .next (s.joinRecord d w) :=
        (hanswered ha).trans (by rw [hsync, if_pos (by simpa using hm)])
      have hwrites := writesX_wx s d w
      refine ⟨fun hsync => ⟨_, (hanswered ha).trans (by rw [hsync, if_neg (by simp), sends_takes ha hm]), writesX_wx (AnswerTaken s) d w⟩,
        fun hsync hwait hidle hroom => ⟨s.wx d w, _, hrecords hsync, hwrites, joinRecord_begins hclosed hidle hwait hroom d w⟩,
        fun hsync hsusp hroom => ⟨s.wx d w, _, hrecords hsync, hwrites, joinRecord_leaves hsusp hroom d w⟩⟩
  case leave =>
    intro s hclosed
    have hexec : exec .leave s = .next (s.sends 59 (fun s => (s.leaveClasp, some 0)) fun _ s => s) := execLeave_sends hclosed
    refine ⟨heldBack_sends hexec, fun w m ha hm => hexec.trans (by rw [sends_takes ha hm]), fun hnow hout => ⟨_, hexec, ?_⟩,
      fun hnow hin => ⟨_, hexec, ?_⟩⟩
    · have hstays : (unsent s).leaveClasp = unsent s := if_pos hout
      exact sends_answered hnow (by rw [hstays]) rfl
    · obtain ⟨hc, hcore⟩ := leaveClasp_member (s := unsent s) hin
      have hans : Answered s (unsent s).leaveClasp (s.sends 59 (fun s => (s.leaveClasp, some 0)) fun _ s => s) 0 26 :=
        sends_answered hnow rfl (congrArg Core.bank hcore)
      obtain ⟨hno, hrank⟩ := inClasp_fields (unsent s).c 0 0
      refine ⟨hans, ?_⟩
      rw [answered_c hans, hc]
      exact ⟨rfl, hno, hrank⟩

end Sys2Proof.ClaspMembers
end

section
/-! SUPPORT. O51: a dispatch round takes no time (11 R343). -/

namespace Sys2Proof.RoundClock
open Sys2Proof Machine Claims Laws

variable {s : State}

theorem foldl_now {α : Type} {f : State → α → State} (hf : ∀ s x, (f s x).now = s.now) (l : List α) (s : State) : (l.foldl f s).now = s.now := by
  induction l generalizing s with
  | nil => rfl
  | cons x l ih => exact (ih _).trans (hf s x)

/-! ## Strands, the wait pool and clasps -/

@[simp] theorem portFetch_now (s : State) (g n : Nat) : (s.portFetch g n).now = s.now := by
  obtain ⟨b, e, h⟩ := LoneIssue.portFetch_eq s g n
  rw [h]

@[simp] theorem noteReady_now (s : State) : s.noteReady.now = s.now := by rw [WaitPool.noteReady_frame]

@[simp] theorem setHead_now (s : State) (strand v : Nat) : (s.setHead strand v).now = s.now := rfl
@[simp] theorem countRetired_now (s : State) (strand : Nat) : (s.countRetired strand).now = s.now := rfl

@[simp] theorem purge_now (s : State) (strand n : Nat) : (s.purge strand n).now = s.now := by
  induction n generalizing s with
  | zero => rfl
  | succ n ih =>
    rw [State.purge]
    split
    · rw [ih, countRetired_now, setHead_now, post_now]
    · rfl

@[simp] theorem takeBead_now (s : State) (b : Bead) : (s.takeBead b).now = s.now := by
  rw [State.takeBead]
  split
  · exact portFetch_now ..
  · rfl

@[simp] theorem haltGang_now (s : State) (n : BitVec 20) : (s.haltGang n).now = s.now := by
  rw [State.haltGang]
  split <;> rfl

@[simp] theorem settleBank_now (s : State) (bank : Bool) (f : Ctx → Ctx) (g : Seq → Seq) : (s.settleBank bank f g).now = s.now := by
  unfold State.settleBank State.onBankSeq State.onBank
  split_ifs <;> rfl

@[simp] theorem failMembers_now (s : State) (n : BitVec 20) (r : Nat) : (s.failMembers n r).now = s.now := by
  unfold State.failMembers
  dsimp only
  split_ifs <;> simp

@[simp] theorem failRound_now (s : State) (n : BitVec 20) : (s.failRound n).now = s.now := by
  rw [State.failRound]
  split
  · rfl
  · exact failMembers_now ..

/-! ## Placing -/

theorem ite_now {p : Prop} [Decidable p] {t u : State} {n : Nat} (ht : t.now = n) (hu : u.now = n) : (if p then t else u).now = n := by
  split
  · exact ht
  · exact hu

/-- The core makes room for a bead, evicting the drained one where it can. -/
theorem makeRoom_now {p : Prop} [Decidable p] (s : State) (k : Hub) :
    (if p then ({ s with hub := k } : State).evict else { s with hub := k }).now = s.now := ite_now rfl rfl

@[simp] theorem place_now (s : State) (b : Bead) (l : Nat) (victim gang : Bool) : (s.place b l victim gang).now = s.now := by
  unfold State.place
  extract_lets joins u
  have hu : u.now = s.now := by
    have hfail : ((joins.elim s fun c => s.failRound c.number)).now = s.now := by
      cases joins with
      | none => rfl
      | some c => exact failRound_now ..
    exact (takeBead_now ..).trans hfail
  clear_value u
  rw [← hu]
  split
  · exact ite_now ((haltGang_now ..).trans (makeRoom_now u _)) (makeRoom_now u _)
  · split
    · exact haltGang_now ..
    · rfl

@[simp] theorem placeGang_now (c : Clasp) (taken : List Nat) {x : State × List Nat × List Nat} (h : s.placeGang c taken = some x) :
    x.1.now = s.now := by
  unfold State.placeGang at h
  dsimp only at h
  split at h
  · cases h
  · split at h
    · cases h
    · cases h
      refine (foldl_now (fun t x => ?_) _ _).trans ?_
      · exact (place_now ..).trans (takeBead_now ..)
      · exact ite_now (failRound_now ..) rfl

/-! ## A round -/

theorem serve_one_now (r : Round) (strand : Nat) (b : Bead) {mark : State → State} (hm : ∀ t, (mark t).now = t.now) :
    (Round.serve.one r strand b mark).s.now = r.s.now := by
  unfold Round.serve.one
  split
  · exact (hm _).trans (place_now ..)
  · split
    · exact (hm _).trans (place_now ..)
    · rfl

theorem serve_now (r : Round) (p strand : Nat) : (r.serve p strand).s.now = r.s.now := by
  unfold Round.serve
  split
  · rfl
  split
  · rfl
  dsimp only
  split
  · rfl
  split
  · split
    · split
      next x h => exact placeGang_now _ _ h
      · rfl
    · split
      · rfl
      · split
        · rfl
        · exact serve_one_now _ _ _ fun _ => rfl
  · exact serve_one_now _ _ _ fun _ => rfl

theorem foldl_round_now {f : Round → Nat → Round} (hf : ∀ r n, (f r n).s.now = r.s.now) (l : List Nat) (r : Round) :
    (l.foldl f r).s.now = r.s.now := by
  induction l generalizing r with
  | nil => rfl
  | cons n l ih => exact (ih _).trans (hf r n)

/-- The next round may fall in the cycle after this one. -/
theorem dispatchRound_roundAt (s : State) : s.dispatchRound.hub.roundAt = s.now + 1 := by
  unfold State.dispatchRound
  extract_lets ns start r u
  have hstart : start.now = s.now := (noteReady_now _).trans (foldl_now (fun s n => purge_now s n (2 ^ 20)) ns s)
  have hr : r.s.now = start.now := foldl_round_now (fun r p => foldl_round_now (fun r n => serve_now r p n) _ r) _ _
  have hu : u.now = s.now := (noteReady_now r.s).trans (hr.trans hstart)
  clear_value u
  exact congrArg (· + 1) hu

end Sys2Proof.RoundClock
end

section
/-! SUPPORT. O51: a dispatch round with nothing to place, and one that places the only bead that waits (11 R343, R344). -/

namespace Sys2Proof.LoneDispatch
open Sys2Proof Machine Claims Laws WaitPool

variable {s : State}

/-- The hub counts a dispatch in its records of the board and in nothing else. -/
theorem countOn_eq (k : Hub) (board : Nat) (f : ArbCount → ArbCount) : ∃ c, k.countOn board f = { k with counts := c } := by
  unfold Hub.countOn
  split
  · exact ⟨_, rfl⟩
  · exact ⟨k.counts, rfl⟩

theorem abortScan_roundAt (s : State) : s.abortScan.hub.roundAt = s.hub.roundAt := by
  unfold State.abortScan
  split
  · dsimp only
    split
    · rfl
    · obtain ⟨c, hc⟩ := countOn_eq s.hub s.board fun k => { k with scanAborts := k.scanAborts + 1 }
      rw [PowerAndBoot.scanDone_hub, hc]
  · rfl

/-! ## Strands with no record -/

/-- A strand whose queue is empty has no record to remove. -/
theorem purge_of_unqueued {n : Nat} (h : s.queued n = false) (m : Nat) : s.purge n m = s := by
  cases m with
  | zero => rfl
  | succ m =>
    rw [State.purge, h]
    rfl

theorem purges_of_unqueued {l : List Nat} (h : ∀ n ∈ l, s.queued n = false) (m : Nat) : l.foldl (fun s n => s.purge n m) s = s := by
  induction l with
  | nil => rfl
  | cons n l ih =>
    obtain ⟨hn, hl⟩ := List.forall_mem_cons.mp h
    rw [List.foldl_cons, purge_of_unqueued hn]
    exact ih hl

/-- With no queue that holds a record there is no head to note. -/
theorem noteReady_of_unqueued (h : ∀ n ∈ s.strands, s.queued n = false) :
    s.noteReady = { s with hub := { s.hub with beads := s.hub.beads.map (noted s), heads := [] } } := by
  unfold State.noteReady
  extract_lets beads heads fresh k u
  have hheads : heads = [] := by
    rw [List.filterMap_eq_nil_iff]
    intro n hn
    dsimp only
    rw [h n hn]
    rfl
  have hfresh : fresh = [] := by
    dsimp only [fresh]
    rw [hheads]
    rfl
  rw [hfresh]
  dsimp only [u, k]
  rw [hheads]
  rfl

/-! ## A round with nothing to place -/

theorem dispatchRound_nothing (hbeads : s.hub.beads = []) (hstrands : s.strands = []) :
    s.dispatchRound = { s with hub := { s.hub with heads := [], roundAt := s.now + 1 } } := by
  have hnote : s.noteReady = { s with hub := { s.hub with heads := [] } } := by
    rw [noteReady_of_unqueued (by simp [hstrands]), hbeads, List.map_nil, ← hbeads]
  have hnote' : ({ s with hub := { s.hub with heads := [] } } : State).noteReady = { s with hub := { s.hub with heads := [] } } := by
    rw [noteReady_of_unqueued (by intro n hn; exact absurd (hstrands ▸ hn) (by simp))]
    dsimp only
    rw [hbeads, List.map_nil, ← hbeads]
  unfold State.dispatchRound
  rw [hstrands]
  dsimp only [List.foldl_nil, roundOrder, List.filter_nil, List.nil_append]
  rw [hnote]
  dsimp only [List.foldl_cons, List.foldl_nil]
  rw [hnote']

/-! ## A round that serves one strand -/

theorem roundOrder_singleton (rr n : Nat) : roundOrder rr [n] = [n] := by
  unfold roundOrder
  by_cases h : rr < n
  · simp [h]
  · simp [h, Nat.not_lt.mp h]

theorem serve_of_served {r : Round} {n : Nat} (h : n ∈ r.served) (p : Nat) : r.serve p n = r := by
  unfold Round.serve
  exact if_pos (by simpa using h)

/-- A strand is offered a core at the priority of its head alone. -/
theorem serve_of_other {r : Round} {n : Nat} {b : Bead} (hb : r.s.head n = some b) {p : Nat} (hp : b.effective r.s.now ≠ p) : r.serve p n = r := by
  unfold Round.serve
  split
  · rfl
  · rw [hb]
    exact if_pos hp

/-- A strand that is served at one of the priorities is served once. -/
theorem foldl_serve {r : Round} {n e : Nat} (hother : ∀ p, p ≠ e → r.serve p n = r) (hserved : n ∈ (r.serve e n).served) {l : List Nat} (he : e ∈ l) :
    l.foldl (fun r p => r.serve p n) r = r.serve e n := by
  have hrest (l : List Nat) : l.foldl (fun r p => r.serve p n) (r.serve e n) = r.serve e n := by
    induction l with
    | nil => rfl
    | cons p l ih => rw [List.foldl_cons, serve_of_served hserved, ih]
  induction l with
  | nil => cases he
  | cons p l ih =>
    rw [List.foldl_cons]
    by_cases hp : p = e
    · rw [hp, hrest]
    · rw [hother p hp]
      exact ih ((List.mem_cons.mp he).resolve_left (Ne.symm hp))

/-- Every effective priority has its turn in a round (11 R342). -/
theorem effective_mem (b : Bead) (now : Nat) : b.effective now ∈ [7, 6, 5, 4, 3, 2, 1, 0] := by
  have hp : wPrio (rWord1 b.record) < 8 := Nat.mod_lt _ (by decide)
  have he : b.effective now < 8 := by
    unfold Bead.effective
    dsimp only
    split <;> omega
  interval_cases h : b.effective now <;> decide

/-- The only waiting bead, once it is ready, is the head of its strand (11 R340). -/
theorem head_of_ready {b : Bead} {n : Nat} (hbeads : s.hub.beads = [b]) (hready : b.ready = some n) : s.head b.strand.toNat = some b := by
  have hmine : s.hub.beads.filter (fun x => x.strand.toNat == b.strand.toNat && x.ready.isSome) = [b] := by
    rw [hbeads]
    simp [hready]
  rw [State.head, hmine]
  rfl

/-! ## Placing on the only core (11 R344) -/

theorem chooseCore_only {b : Bead} (hmap : s.hub.map = [s.core.phys]) (hidle : s.idleFor b = true) (hadmits : s.admits b 0 = true) :
    s.chooseCore b [] = some 0 := by
  unfold State.chooseCore
  extract_lets idle ok home
  have hfirst : ok 0 = true := by
    simp [ok, idle, hmap, hidle, hadmits]
  have honly (l : Nat) (hl : ok l = true) : l = 0 := by
    by_contra hne
    obtain ⟨k, rfl⟩ := Nat.exists_eq_succ_of_ne_zero hne
    simp [ok, idle, hmap] at hl
  split
  next h => rw [honly home h.2.2]
  next => simp [hmap, List.range_succ, hfirst]

/-- A waiting bead leaves the pool, through whose port its record is read. -/
theorem takeBead_only {b : Bead} (hbeads : s.hub.beads = [b]) :
    ∃ c e, s.takeBead b = { s with hub := { s.hub with beads := [], bcache := c, engines := e } } := by
  obtain ⟨c, e, h⟩ := LoneIssue.portFetch_eq s (s.poolLine (s.hub.beads.idxOf b)) 64
  refine ⟨c, e, ?_⟩
  rw [State.takeBead, if_pos (by simp [hbeads]), h]
  simp [hbeads]

theorem bindHome_saved (b : Bead) (l : Nat) (gang : Bool) : (bindHome b l gang).saved = b.saved := by
  unfold bindHome
  dsimp only
  split <;> rfl

/-- The first bundle's cycle depends on the clock and on what the bead has saved. -/
theorem startAt_congr {t : State} {b b' : Bead} (hnow : t.now = s.now) (hpower : t.hub.power = s.hub.power) (hsaved : b'.saved = b.saved) :
    t.startAt b' = s.startAt b := by
  unfold State.startAt State.coreAfter
  rw [hnow, hpower, hsaved]

/-- The bead is bound to its core and starts in the free bank. -/
theorem place_only {b : Bead} (hbeads : s.hub.beads = [b]) (hmap : s.hub.map = [s.core.phys]) (hplacing : s.hub.placing = []) :
    ∃ k, s.place b 0 false false = { s with hub := k } ∧ k.beads = [] ∧
      k.placing = [(bindHome b 0 false, if s.q.state = .empty then s.core.bank else !s.core.bank, s.startAt b)] := by
  have hold : s.claspToJoin b = none := by
    rw [State.claspToJoin, if_neg]
    simp [State.isNew, hbeads]
  obtain ⟨c, e, htake⟩ := takeBead_only hbeads
  unfold State.place
  extract_lets joins u joins' aged phys b' k
  have hu : u = { s with hub := { s.hub with beads := [], bcache := c, engines := e } } := by
    dsimp only [u, joins]
    rw [hold]
    exact htake
  have hjoins : joins' = none := by
    dsimp only [joins', joins]
    rw [hold]
    rfl
  have hb : b' = bindHome b 0 false := by
    dsimp only [b']
    rw [hjoins]
    rfl
  obtain ⟨n, hk⟩ : ∃ n, k = { u.hub with counts := n } := by
    dsimp only [k]
    rw [hjoins]
    exact countOn_eq ..
  have hphys : phys = u.core.phys := by
    dsimp only [phys]
    rw [hu]
    simp [hmap]
  clear_value k b' phys u
  subst hk hb hu
  refine ⟨_, (if_pos hphys).trans (if_neg Bool.false_ne_true), rfl, ?_⟩
  have hstart (t : State) (hnow : t.now = s.now) (hpower : t.hub.power = s.hub.power) : t.startAt (bindHome b 0 false) = s.startAt b :=
    startAt_congr hnow hpower (bindHome_saved b 0 false)
  exact congrArg₂ (fun l at0 => l ++ [(bindHome b 0 false, if s.q.state = .empty then s.core.bank else !s.core.bank, at0)]) hplacing (hstart _ rfl rfl)

/-! ## The round -/

/-- A bead of no clasp goes where a core takes it. -/
theorem serve_places {r : Round} {n l : Nat} {b : Bead} (hfree : r.served.contains n = false) (hhead : r.s.head n = some b)
    (hclasp : r.s.hub.clasp (wClasp (rWord1 b.record)) = none) (hcore : r.s.chooseCore b r.taken = some l) :
    ∃ rr, (r.serve (b.effective r.s.now) n) =
      { s := { r.s.place b l false false with hub := { (r.s.place b l false false).hub with rr := rr } }
        taken := l :: r.taken, served := n :: r.served } := by
  unfold Round.serve
  rw [hfree, hhead]
  dsimp only
  rw [if_neg (by simp), if_neg (by simp), hclasp]
  dsimp only [Round.serve.one]
  rw [hcore]
  exact ⟨_, rfl⟩

/-- The only waiting bead is placed on the only core. -/
theorem dispatchRound_only {b : Bead} {n : Nat} (hbeads : s.hub.beads = [b]) (hready : b.ready = some n) (hstrands : s.strands = [b.strand.toNat])
    (hqueue : s.queued b.strand.toNat = false) (hclasp : s.hub.clasp (wClasp (rWord1 b.record)) = none) (hmap : s.hub.map = [s.core.phys])
    (hidle : s.idleFor b = true) (hadmits : s.admits b 0 = true) :
    ∃ k, s.dispatchRound = { s with hub := k } ∧ k.beads = [] ∧
      k.placing = [(bindHome b 0 false, if s.q.state = .empty then s.core.bank else !s.core.bank, s.startAt b)] := by
  have hunqueued : ∀ m ∈ s.strands, s.queued m = false := by
    rw [hstrands]
    exact List.forall_mem_singleton.mpr hqueue
  have hnote : s.noteReady = { s with hub := { s.hub with heads := [] } } := by
    rw [noteReady_of_unqueued hunqueued, hbeads, List.map_singleton, noted_of_ready hready, ← hbeads]
  have hplacing : s.hub.placing = [] := by
    unfold State.idleFor at hidle
    simp only [Bool.and_eq_true, List.isEmpty_iff] at hidle
    exact hidle.1.1.2
  unfold State.dispatchRound
  extract_lets ns start r u
  have hstart : start = { s with hub := { s.hub with heads := [] } } := by
    dsimp only [start, ns]
    rw [purges_of_unqueued hunqueued]
    exact hnote
  clear_value start
  subst hstart
  have hr : r = [7, 6, 5, 4, 3, 2, 1, 0].foldl (fun r p => r.serve p b.strand.toNat)
      ({ s := { s with hub := { s.hub with heads := [] } }, taken := [], served := [] } : Round) := by
    dsimp only [r, ns]
    rw [hstrands]
    simp only [roundOrder_singleton, List.foldl_cons, List.foldl_nil]
  obtain ⟨rr, hserve⟩ := serve_places (r := { s := { s with hub := { s.hub with heads := [] } }, taken := [], served := [] }) (n := b.strand.toNat) rfl
    (head_of_ready hbeads hready) hclasp (chooseCore_only hmap hidle hadmits)
  rw [foldl_serve (fun p hp => serve_of_other (head_of_ready hbeads hready) hp.symm) (by rw [hserve]; exact List.mem_cons_self)
    (effective_mem b s.now), hserve] at hr
  obtain ⟨k, hplace, hkbeads, hkplacing⟩ := place_only (s := { s with hub := { s.hub with heads := [] } }) hbeads hmap hplacing
  rw [hplace] at hr
  obtain ⟨h, c, e, hnoted⟩ := noteReady_eq ({ s with hub := { k with rr := rr } } : State)
  have hu : u = _ := (congrArg (fun r : Round => r.s.noteReady) hr).trans hnoted
  clear_value u
  subst hu
  exact ⟨_, rfl, congrArg (List.map _) hkbeads, hkplacing⟩

end Sys2Proof.LoneDispatch
end

section
/-! SUPPORT. O51: how a bead starts in a bank, leaves it and goes on (11 R336, R343 to R352, R368), and what a strike report and a reset do to the core
(12 R383 to R387). The suspension of a `cbar` is entry 21 of the assumption log, the cycle of a start entry 6, the eviction of a drained bead entry 19. -/

namespace Sys2Proof.BankCourse
open Sys2Proof Machine Claims Laws

variable {s : State}

/-! ## Start (11 R336, R347) -/

/-- The registers of a bead that starts from its record (11 Table 11-1). -/
theorem startCtx_fields (s : State) (b : Bead) (l : List Nat) :
    (s.startCtx b l).pc = BitVec.ofNat 64 (fld b.record.toNat 4 60 * 16) ∧ (s.startCtx b l).sys = b.record.getLsbD 107 ∧
    (s.startCtx b l).bead = b.record.extractLsb' 64 64 ∧ (s.startCtx b l).home = b.record.extractLsb' 128 64 ∧
    ∀ r : BitVec 5, (s.startCtx b l).rx r = if 1 ≤ r.toNat ∧ r.toNat ≤ 4 then b.record.extractLsb' (128 + 64 * r.toNat) 64 else 0 := by
  have hword : rWord1 b.record = b.record.extractLsb' 64 64 := CrossSlotCopies.fbv_eq_extractLsb' ..
  refine ⟨rfl, ?_, hword, CrossSlotCopies.fbv_eq_extractLsb' .., fun r => ?_⟩
  · change (rWord1 b.record).getLsbD 43 = _
    rw [hword]
    simp
  · change (if r = 0 then 0 else (Vector.ofFn fun i : Fin 32 => if 1 ≤ i.val ∧ i.val ≤ 4 then rCont b.record (i.val - 1) else 0).get r.toFin) = _
    rw [Vector.get_ofFn]
    by_cases hr : 1 ≤ r.toNat ∧ r.toNat ≤ 4
    · have hne : r ≠ 0 := fun h => absurd hr.1 (by rw [h]; decide)
      have hlo : 192 + 64 * (r.toNat - 1) = 128 + 64 * r.toNat := by omega
      rw [if_neg hne, if_pos hr]
      refine (if_pos hr).trans ?_
      rw [rCont, CrossSlotCopies.fbv_eq_extractLsb', ← hlo]
      rfl
    · rw [if_neg hr]
      split
      · rfl
      · exact if_neg hr

/-- A bead that has not been saved starts with an empty scalar cache (08 R233); the crown strips that it gets are unspecified. -/
theorem startBead_new {b : Bead} (h : b.saved = none) (s : State) : ∃ l, (s.startBead b).c = s.startCtx b l ∧
    (s.startBead b).q = { state := .active, placedAt := s.hub.placedAt } ∧
    (s.startBead b).core = { s.core with scache := [], planes := [], planesLost := s.now } ∧ (s.startBead b).hub = s.hub := by
  unfold State.startBead
  rw [h]
  dsimp only
  by_cases hstrips : b.strips = 0
  · rw [if_pos hstrips]
    exact ⟨_, rfl, rfl, rfl, rfl⟩
  · rw [if_neg hstrips]
    exact ⟨_, rfl, rfl, rfl, rfl⟩

/-- Eviction of the drained bead leaves the running one, and what is placed. -/
theorem evict_keeps (s : State) : s.evict.core = s.core ∧ s.evict.q = s.q ∧ s.evict.hub.placing = s.hub.placing ∧ s.evict.hub.placedAt = s.hub.placedAt := by
  obtain ⟨b, e, h⟩ := cachesOnly_portWrite s [{ addr := s.poolLine s.hub.beads.length, bytes := List.replicate 64 0 }]
  exact ⟨rfl, rfl, (congrArg Hub.placing h).trans rfl, (congrArg Hub.placedAt h).trans rfl⟩

theorem leaveBank_of_idle (h : s.q.state ≠ .active) : s.leaveBank = s.switchBank := if_neg h

/-- The machine in which a placed bead starts: in its bank, once the bead that drained there is evicted. -/
def inPlace (s : State) (bank : Bool) (l : List (Bead × Bool × Nat)) : State :=
  let t : State := { s with hub := { s.hub with placing := l } }
  let t := if bank ≠ t.core.bank ∧ t.oq.state = .drained then t.evict else t
  if bank = t.core.bank then t else t.leaveBank

theorem execBeadStart_eq {b : Bead} {bank : Bool} {at0 : Nat} {l : List (Bead × Bool × Nat)} (h : s.hub.placing = (b, bank, at0) :: l) :
    execBeadStart s = .next ((inPlace s bank l).startBead b) := by
  rw [execBeadStart, h]
  rfl

theorem inPlace_keeps {bank : Bool} (h : bank = s.core.bank ∨ s.q.state ≠ .active) (l : List (Bead × Bool × Nat)) :
    (inPlace s bank l).core.bank = bank ∧ (inPlace s bank l).now = s.now ∧ (inPlace s bank l).hub.placing = l ∧
      (inPlace s bank l).hub.placedAt = s.hub.placedAt := by
  unfold inPlace
  extract_lets k t u
  obtain ⟨hcore, hq, hnow, hplacing, hat⟩ :
      u.core = s.core ∧ u.q = s.q ∧ u.now = s.now ∧ u.hub.placing = l ∧ u.hub.placedAt = s.hub.placedAt := by
    dsimp only [u]
    split
    · obtain ⟨hcore, hq, hplacing, hat⟩ := evict_keeps t
      exact ⟨hcore, hq, rfl, hplacing, hat⟩
    · exact ⟨rfl, rfl, rfl, rfl, rfl⟩
  clear_value u
  split
  next hbank => exact ⟨hbank.symm, hnow, hplacing, hat⟩
  next hbank =>
    rw [leaveBank_of_idle (by rw [hq]; exact h.resolve_left (hcore ▸ hbank))]
    exact ⟨by simpa [State.switchBank] using (Bool.eq_not.mpr hbank).symm, hnow, hplacing, hat⟩

/-! ## Pre-emption and the end of a drain (11 R349, R351) -/

/-- A fill of the save area of the drained bead is all that the end of a drain changes beside its bank (log 9). -/
theorem contextDrainFinal_eq {n : Nat} (hq : s.q.state = .empty) (hoq : s.oq.state = .draining) (hwait : s.oq.wait = .watch n) (hn : n ≤ s.now)
    (hparked : s.core.parked = false) : execContextDrainFinal s = .next { s with
      oq := { s.oq with state := .drained, wait := .none }
      mem := s.mem.fill s.fresh (crownThrough s.oc.cbmap s.core.phys (s.oc.lastStrip + 0x68000)) 0x10000
      fresh := s.fresh + 1 } := by
  have hown : (s.q.state == .draining) = false := by rw [hq]; rfl
  have hother : (s.oq.state == .draining) = true := by rw [hoq]; rfl
  simp only [execContextDrainFinal, hown, hother, hwait, decide_eq_true hn, Bool.false_and, Bool.true_and, if_true, Bool.false_eq_true, if_false]
  exact congrArg Host.Outcome.next (if_pos (by simpa using hparked))

/-! ## Resumption (11 R352, 08 R232) -/

/-- A bead that goes on is the active one of its bank, since now. -/
theorem goOn_active (h : s.q.state ≠ .active) :
    s.goOn.core = s.core ∧ s.goOn.q.state = .active ∧ s.goOn.c.since = BitVec.ofNat 48 s.now := by
  unfold State.goOn
  extract_lets k q d c r
  have hr : r.2.state = .active ∧ r.1.since = BitVec.ofNat 48 s.now := by
    dsimp only [r]
    split
    · split <;> exact ⟨rfl, rfl⟩
    next hactive => exact absurd hactive h
    · exact ⟨rfl, rfl⟩
  exact ⟨rfl, hr⟩

/-- One that was halted at a boundary with nothing in flight goes on at the bundle there. -/
theorem goOn_window (h : s.q.state = .draining) (hslip : s.q.resume.2.1 = 0) : s.goOn.c.pc = s.q.resume.1 := by
  unfold State.goOn
  rw [h]
  dsimp only [resumeAt]
  rw [hslip]
  rfl

theorem wakeGang_keeps (s : State) (n : BitVec 20) : (s.wakeGang n).c = s.c ∧ (s.wakeGang n).q = s.q ∧ (s.wakeGang n).core = s.core := by
  unfold State.wakeGang
  split <;> exact ⟨rfl, rfl, rfl⟩

/-- An empty bank has no bead that goes on. -/
theorem bankReady_of_empty {q : Machine.Seq} (h : q.state = .empty) (c : Ctx) : s.bankReady c q = false := by
  rw [State.bankReady, State.canIssue, h]
  rfl

/-- With its own bank empty the core switches to the bead of the other. -/
theorem resumed_switches (hq : s.q.state = .empty) (hready : s.bankReady s.oc s.oq = true) :
    s.resumed = s.switchBank.goOn.wakeGang s.switchBank.c.claspNo := by
  have hidle : s.q.state ≠ .active := by rw [hq]; decide
  rw [State.resumed, if_neg (by simp [bankReady_of_empty hq, hready]), leaveBank_of_idle hidle]

/-- With the other bank empty the core goes back to the bead of its own. -/
theorem resumed_stays (hq : s.q.state ≠ .active) (hoq : s.oq.state = .empty) : s.resumed = s.goOn.wakeGang s.c.claspNo := by
  rw [State.resumed, if_pos (by simp [bankReady_of_empty hoq, hq])]

/-! ## Answers of the host about a translation fault (08 R232) -/

/-- The answer reaches the bead of the other bank, which waits for it. -/
theorem settle_translation {b : Bool} (ha : s.arg = .flag b) (hb : b = !s.core.bank) (g : Machine.Seq → Machine.Seq) :
    ∃ u, s.settleBank s.faultedBank id g = { s with oq := g s.oq, undo := u } := by
  have hbank : s.faultedBank = !s.core.bank := by rw [State.faultedBank, ha]; exact hb
  have hne : ¬(!s.core.bank) = s.core.bank := Bool.not_ne_self _
  rw [hbank, State.settleBank, State.onBank, if_neg hne, State.onBankSeq]
  exact ⟨_, by rw [if_neg hne]; rfl⟩

/-! ## Strikes (12 R383, R385, R387) -/

/-- With nothing recorded in the strike hold there is nothing to discard. -/
theorem discardAll_nothing (h : s.undo = []) : s.discardAll = (s, false) := by
  have hnone (b : Bool) : s.discard b = (s, false) := by
    rw [State.discard, State.undoTo, h]
    rfl
  rw [State.discardAll]
  dsimp only
  rw [hnone, hnone]
  rfl

theorem scanStands_of_no_scan (h : ∀ n, s.q.wait ≠ .scan n) (d : State × Bool) : s.scanStands d = d := by
  unfold State.scanStands
  split
  next t ht => exact absurd ht (h t)
  next => rfl

/-- sr.strikes counts up to its greatest value and names the region (12 Table 12-6). -/
theorem strikeWord_fields (old : DWord) {r : Nat} (hr : r < 16) :
    (strikeWord old r false).toNat % 2 ^ 32 = min (old.toNat % 2 ^ 32 + 1) 0xFFFFFFFF ∧ (strikeWord old r false).toNat / 2 ^ 32 = r := by
  have hcount : min (old.toNat % 2 ^ 32 + 1) 0xFFFFFFFF < 2 ^ 32 := lt_of_le_of_lt (min_le_right ..) (by decide)
  have hword : (strikeWord old r false).toNat = (min (old.toNat % 2 ^ 32 + 1) 0xFFFFFFFF + r * 2 ^ 32) % 2 ^ 64 := by
    rw [strikeWord, HostAccess.fld_low, BitVec.toNat_ofNat, if_neg Bool.false_ne_true, Nat.add_zero]
  rw [hword]
  generalize min (old.toNat % 2 ^ 32 + 1) 0xFFFFFFFF = n at hcount ⊢
  omega

/-- A report of the core's own region, where nothing is discarded and the window of 65,536 cycles has room. -/
theorem strikeReport_counts {b : BitVec 3} {r : BitVec 4} (ha : s.arg = .region b r) (hb : b.toNat = s.board) (hr : r.toNat = regionOfCore s.core.phys)
    (hundo : s.undo = []) (hscan : ∀ n, s.q.wait ≠ .scan n)
    (hfew : (s.hub.reports.filter fun x => x.1 == b.toNat && x.2.1 == r.toNat).length < 16) :
    execStrikeReport s = .next { s with
      core := { s.core with strikes := strikeWord s.core.strikes r.toNat false }
      hub := { s.hub with reports := (b.toNat, r.toNat, s.now) :: s.hub.reports.filter fun x => decide (s.now < x.2.2 + 65536) } } := by
  have hmine : (b.toNat == s.board && r.toNat == regionOfCore s.core.phys) = true := by simp [hb, hr]
  have hstays : s.scanStands s.discardAll = (s, false) := by rw [discardAll_nothing hundo, scanStands_of_no_scan hscan]
  have hroom : ∀ l : List (Nat × Nat × Nat), l.Sublist s.hub.reports →
      ¬16 < (((b.toNat, r.toNat, s.now) :: l).filter fun x => x.1 == b.toNat && x.2.1 == r.toNat).length := by
    intro l hl
    have hle := (hl.filter fun x => x.1 == b.toNat && x.2.1 == r.toNat).length_le
    rw [List.filter_cons_of_pos (by simp), List.length_cons]
    omega
  simp only [execStrikeReport, ha, hmine, hstays, if_true]
  exact if_neg (hroom _ List.filter_sublist)

/-! ## The release of a barrier (11 R368) -/

/-- Whether a bank waits on the clasp: the two banks are asked one after the other. -/
def freed (s : State) (n : BitVec 20) (r : Nat) (b : Bool) : State :=
  if s.waitsOn b n then s.settleBank b id fun q => { q with cbarRel := some r } else s

/-- The release reaches the bead of the active bank that waits for it. -/
theorem freed_own {n : BitVec 20} (hno : s.c.claspNo = n) (hat : s.q.cbarAt ≠ none) (hrel : s.q.cbarRel = none) (r : Nat) :
    (freed s n r s.core.bank).q = { s.q with cbarRel := some r } ∧ (freed s n r s.core.bank).c = s.c ∧
      (freed s n r s.core.bank).mem = s.mem ∧ (freed s n r s.core.bank).core = s.core := by
  have hwaits : s.waitsOn s.core.bank n = true := by
    obtain ⟨m, hm⟩ := Option.ne_none_iff_exists'.mp hat
    simp [State.waitsOn, State.bankCtx, hno, hm, hrel]
  rw [freed, if_pos hwaits, ClaspBarriers.settleBank_own]
  exact ⟨rfl, rfl, rfl, rfl⟩

/-- It leaves the active bank as it is where it reaches the other. -/
theorem freed_other (s : State) (n : BitVec 20) (r : Nat) :
    (freed s n r (!s.core.bank)).q = s.q ∧ (freed s n r (!s.core.bank)).c = s.c ∧
      (freed s n r (!s.core.bank)).mem = s.mem ∧ (freed s n r (!s.core.bank)).core = s.core := by
  have hne : ¬(!s.core.bank) = s.core.bank := Bool.not_ne_self _
  rw [freed]
  split
  · rw [State.settleBank, State.onBank, if_neg hne, State.onBankSeq]
    dsimp only
    rw [if_neg hne]
    exact ⟨rfl, rfl, rfl, rfl⟩
  · exact ⟨rfl, rfl, rfl, rfl⟩

/-- Whichever of the banks is the active one. -/
theorem freed_both {n : BitVec 20} (hno : s.c.claspNo = n) (hat : s.q.cbarAt ≠ none) (hrel : s.q.cbarRel = none) (r : Nat) :
    (freed (freed s n r false) n r true).q = { s.q with cbarRel := some r } ∧ (freed (freed s n r false) n r true).c = s.c ∧
      (freed (freed s n r false) n r true).mem = s.mem := by
  cases hbank : s.core.bank with
  | false =>
    obtain ⟨hq, hc, hmem, hcore⟩ := freed_own hno hat hrel r
    obtain ⟨hq', hc', hmem', -⟩ := freed_other (freed s n r s.core.bank) n r
    rw [hcore] at hq' hc' hmem'
    rw [hbank] at *
    exact ⟨hq'.trans hq, hc'.trans hc, hmem'.trans hmem⟩
  | true =>
    obtain ⟨hq, hc, hmem, hcore⟩ := freed_other s n r
    obtain ⟨hq', hc', hmem', -⟩ := freed_own (s := freed s n r (!s.core.bank)) (by rw [hc, hno]) (by rw [hq]; exact hat) (by rw [hq]; exact hrel) r
    rw [hcore] at hq' hc' hmem'
    rw [hbank] at *
    exact ⟨hq'.trans (by rw [hq]), hc'.trans hc, hmem'.trans hmem⟩

theorem barrierRelease_eq {n : BitVec 20} {c : Clasp} {r : Nat} (ha : s.arg = .barrier n []) (hc : s.hub.clasp n = some c) (hr : c.released = some r) :
    ∃ k, execBarrierRelease s = .next (freed (freed { s with hub := k } n r false) n r true) := by
  simp only [execBarrierRelease, ha, hc, hr, List.isEmpty_nil, Bool.not_true, Bool.false_eq_true, if_false]
  exact ⟨_, rfl⟩

/-! ## The suspension of a `cbar` (11 R368; log 21) -/

/-- Its record goes to the pool at once, held for the barrier; the hub takes what answers come. -/
theorem cbarSuspend_eq (hroom : s.hub.beads.length < s.hub.waitSize) (hremoval : s.core.removal = false) :
    ∃ o, execCbarSuspend s = .next { WaitPool.recorded s { WaitPool.leaving s 1 0 none false with gang := true } with outs := o } := by
  rw [execCbarSuspend, WaitPool.writeRecord_eq hroom hremoval]
  dsimp only
  rw [if_neg (Nat.not_le.mpr hroom)]
  exact ⟨_, rfl⟩

/-! ## The statement, event by event -/

/-- Each round ends with the next one due. -/
theorem dispatchRound_next (s : State) : ∃ t, execDispatchRound s = .next t ∧ t.hub.roundAt = s.now + 1 := by
  refine ⟨_, rfl, ?_⟩
  split
  · exact (LoneDispatch.abortScan_roundAt _).trans (RoundClock.dispatchRound_roundAt s)
  · exact RoundClock.dispatchRound_roundAt s

/-- A round that leaves the running bead alone aborts no self-test. -/
theorem execDispatchRound_undisturbed (h : s.dispatchRound.q.preemptBy = false) : execDispatchRound s = .next s.dispatchRound := by
  rw [execDispatchRound]
  exact congrArg Host.Outcome.next (if_neg (by rw [h]; decide))

/-- A placed bead starts in its bank with the registers of its record. -/
theorem beadStart_new {b : Bead} {bank : Bool} {at0 : Nat} {l : List (Bead × Bool × Nat)} (hplacing : s.hub.placing = (b, bank, at0) :: l)
    (hsaved : b.saved = none) (hbank : bank = s.core.bank ∨ s.q.state ≠ .active) :
    ∃ t x, execBeadStart s = .next t ∧ t.hub.placing = l ∧ t.core.bank = bank ∧ t.core.scache = [] ∧
      t.q = { state := .active, placedAt := s.hub.placedAt } ∧ t.c = (inPlace s bank l).startCtx b x ∧ t.c.since = BitVec.ofNat 48 s.now := by
  obtain ⟨hcore, hnow, hl, hat⟩ := inPlace_keeps hbank l
  obtain ⟨x, hc, hq, hk, hhub⟩ := startBead_new hsaved (inPlace s bank l)
  refine ⟨_, x, execBeadStart_eq hplacing, (congrArg Hub.placing hhub).trans hl, ?_, ?_, ?_, hc, ?_⟩
  · rw [hk]
    exact hcore
  · rw [hk]
  · rw [hq, hat]
  · rw [hc]
    exact congrArg (BitVec.ofNat 48) hnow

/-- The bead of the other bank goes on where the core's own bank is empty. -/
theorem resumption_switches (hq : s.q.state = .empty) (hoq : s.oq.state ≠ .active) (hready : s.bankReady s.oc s.oq = true) :
    s.resumed.core.bank = (!s.core.bank) ∧ s.resumed.q.state = .active ∧ s.resumed.c.since = BitVec.ofNat 48 s.now := by
  obtain ⟨hcore, hactive, hsince⟩ := goOn_active (s := s.switchBank) hoq
  obtain ⟨hc, hq', hcore'⟩ := wakeGang_keeps s.switchBank.goOn s.switchBank.c.claspNo
  rw [resumed_switches hq hready, hc, hq', hcore', hcore]
  exact ⟨rfl, hactive, hsince⟩

/-- The halted bead of the core's own bank goes on where the other bank is empty. -/
theorem resumption_stays (hq : s.q.state = .draining) (hoq : s.oq.state = .empty) :
    s.resumed.q.state = .active ∧ s.resumed.c.since = BitVec.ofNat 48 s.now ∧ (s.q.resume.2.1 = 0 → s.resumed.c.pc = s.q.resume.1) := by
  have hidle : s.q.state ≠ .active := by rw [hq]; decide
  obtain ⟨-, hactive, hsince⟩ := goOn_active hidle
  obtain ⟨hc, hq', -⟩ := wakeGang_keeps s.goOn s.c.claspNo
  rw [resumed_stays hidle hoq, hc, hq']
  exact ⟨hactive, hsince, goOn_window hq⟩

/-- Settles O51, event by event. -/
theorem beadsStartHaltAndResume : Obligations.BeadsStartHaltAndResume := by
  intro s
  refine ⟨dispatchRound_next s, fun hbeads hstrands hpre => ?nothing, fun b n hbeads hready hstrands hqueue hclasp hmap hidle hadmits hpre => ?only,
    fun b bank at0 l hplacing hsaved hbank => ?start, fun _ => ⟨_, rfl, rfl, rfl, rfl, rfl, rfl, rfl⟩,
    fun n hq hoq hwait hn hparked => ⟨_, contextDrainFinal_eq hq hoq hwait hn hparked, rfl, rfl, rfl, rfl⟩,
    fun hq hoq hready => ⟨_, rfl, resumption_switches hq hoq hready⟩, fun hq hoq => ?stays, fun b ha hoq hq hb => ?translation,
    ⟨_, rfl, rfl, rfl, rfl, rfl, rfl, rfl, rfl⟩, fun b r ha hb hr hundo hscan hfew => ?strike, fun n c r ha hc hr hno hat hrel => ?release,
    fun hroom hremoval => ?suspend⟩
  case nothing =>
    have hround := LoneDispatch.dispatchRound_nothing hbeads hstrands
    have hexec := execDispatchRound_undisturbed (s := s) (by rw [hround]; exact hpre)
    rw [hround] at hexec
    exact hexec
  case only =>
    obtain ⟨k, hround, hleft, hplaced⟩ := LoneDispatch.dispatchRound_only hbeads hready hstrands hqueue hclasp hmap hidle hadmits
    have hexec := execDispatchRound_undisturbed (s := s) (by rw [hround]; exact hpre)
    rw [hround] at hexec
    exact ⟨_, hexec, hleft, rfl, rfl, rfl, hplaced⟩
  case start =>
    obtain ⟨t, x, hexec, hl, hcore, hcache, hq, hc, hsince⟩ := beadStart_new hplacing hsaved hbank
    obtain ⟨hpc, hsys, hbead, hhome, hrx⟩ := startCtx_fields (inPlace s bank l) b x
    refine ⟨t, hexec, hl, hcore, hq, ?_⟩
    rw [← hc] at hpc hsys hbead hhome hrx
    exact ⟨hpc, hsys, hbead, hhome, hsince, hrx, hcache, by rw [hc]; rfl, by rw [hc]; rfl, by rw [hc]; rfl, by rw [hc]; rfl⟩
  case stays =>
    obtain ⟨hactive, hsince, hpc⟩ := resumption_stays hq hoq
    exact ⟨_, rfl, hactive, hsince, fun hslip _ => hpc hslip⟩
  case translation =>
    obtain ⟨u, hretry⟩ := settle_translation ha hb fun q => if q.state = .translation then { q with eligible := true } else q
    obtain ⟨v, hfail⟩ := settle_translation ha hb fun q => if q.state = .translation then { q with eligible := true, atVector := true } else q
    rw [if_pos hoq] at hretry hfail
    exact ⟨⟨_, congrArg Host.Outcome.next hretry, rfl⟩, ⟨_, congrArg Host.Outcome.next hfail, rfl⟩⟩
  case strike =>
    obtain ⟨hcount, hregion⟩ := strikeWord_fields s.core.strikes r.isLt
    exact ⟨_, strikeReport_counts ha hb hr hundo hscan hfew, rfl, rfl, hcount, hregion, List.mem_cons_self⟩
  case release =>
    obtain ⟨k, hexec⟩ := barrierRelease_eq ha hc hr
    exact ⟨_, hexec, freed_both (s := { s with hub := k }) hno hat hrel r⟩
  case suspend =>
    obtain ⟨o, hexec⟩ := cbarSuspend_eq hroom hremoval
    obtain ⟨hc, hq, -, hlength, -⟩ := WaitPool.leaves_recorded s { WaitPool.leaving s 1 0 none false with gang := true }
    obtain ⟨g, hg, hbeads⟩ := WaitPool.recorded_beads s { WaitPool.leaving s 1 0 none false with gang := true }
    refine ⟨_, hexec, hc, hq, hlength, g { WaitPool.leaving s 1 0 none false with gang := true }, ?_, (hg _).1, (hg _).2⟩
    exact hbeads ▸ List.mem_map_of_mem (List.mem_append_right _ List.mem_cons_self)

end Sys2Proof.BankCourse
end
